-- ==== Sys2Proof/Word.lean ====
section
/-! DEFINITION. The word types of the model and the key-value table every sparse piece of state is held in. -/

namespace Sys2Proof

/-- One byte. -/
abbrev Byte := BitVec 8

/-- A register word of the register tables (R7). -/
abbrev W32 := BitVec 32

/-- A scalar register or instruction word (R80, R348). -/
abbrev W64 := BitVec 64

/-- A sparse table: keys strictly rising, an absent key reads as the default its reader names. -/
abbrev Map (α : Type) := List (Nat × α)

end Sys2Proof
end

