-- ==== Sys2Proof/Config.lean ====
section
/-! DEFINITION. What an implementation fixes and what the spec leaves open, as constants without a body. -/

namespace Sys2Proof

/-- The n-th value the spec leaves open (log 2). -/
opaque Config.freeValue : Nat → W64

/-- The result a function unit gives for an FP32 input: 2 GELU, 3 SiLU, 4 sigmoid, 5 tanh (R220), 8 the exponential (R204), 9 the
logarithm (R251). The model takes it where it lies within the bound the spec states (log 2). -/
opaque Config.approx : Nat → W32 → W32

/-- The entry of manifest version m that lists a silicon revision with a Rider and a microcode version, and 255 where none does: a
manifest that an update has written is known by its version only (R502). -/
opaque Config.manifestEntry : Nat → Nat → Nat → Nat → Nat

/-- The serial number and the engineering-sample bit, from fuses (Table 19-3). -/
opaque Config.serial : W64
opaque Config.sample : Bool

/-- The straps MADDR0 to MADDR2 (R539). -/
opaque Config.maddr : BitVec 3

end Sys2Proof
end

