-- ==== Sys2Proof/Syntax.lean ====
section
/-! DEFINITION. The commands the block takes, one constructor per row of the spec's table of operations and events, with
the types of their operands. -/

namespace Sys2Proof

/-- A thread instruction as it issues: terrace, thread, word 0 and, for two-word instructions, word 1 (R348). -/
structure Issue where
  tg : Fin 64
  thr : Fin 16
  w0 : W64
  w1 : W64 := 0
  deriving DecidableEq, Repr

/-- The stage islands of a terrace that execute instructions (Table 05-1). -/
inductive Island where
  | i
  | s
  | c
  | a
  | e
  | o
  | h
  deriving DecidableEq, Repr

/-- Who reaches a register (R515): PF0 on a port, a virtual function on a port (R381), or Exmas. -/
inductive Requester where
  | pf (port : Fin 2)
  | vf (n : Fin 1024) (port : Fin 2 := 0)
  | exmas
  deriving DecidableEq, Repr

/-- A completion write of a queue, and whether it fails (Table 14-7). -/
structure CqWrite where
  q : Fin 65536
  fail : Bool := false
  deriving DecidableEq, Repr

/-- An array whose run fails its check, and whether that run is one already computed again for a failure on this array (R155, R156). -/
structure ArrayCheck where
  array : Fin 4
  again : Bool := false
  deriving DecidableEq, Repr

/-- The register windows of Table 19-1. -/
inductive Bar where
  | bar0
  | bar2
  | vfbar0
  deriving DecidableEq, Repr

/-- The sizes of a register access in bytes (R8). -/
inductive AccSize where
  | b1
  | b2
  | b4
  | b8
  deriving DecidableEq, Repr

/-- An access's bytes. -/
def AccSize.bytes : AccSize → Nat
  | .b1 => 1
  | .b2 => 2
  | .b4 => 4
  | .b8 => 8

/-- Where a register read goes, and its size (R8, Table 19-1). -/
structure RegAt where
  bar : Bar
  off : BitVec 28
  size : AccSize
  deriving DecidableEq, Repr

/-- Who sends a request to a Saddle (R299, R334, R338). -/
inductive MemSrc where
  | terrace (tg : Fin 64) (stream : Nat)
  | lane (fg : Fin 32)
  | sump (saddle : Fin 2)
  | guard (saddle : Fin 2)
  | cistern (saddle : Fin 2)
  | cutter (saddle : Fin 2)
  | bar4
  deriving DecidableEq, Repr

/-- A request at a home Saddle: device physical address, bytes, sender, allotment, and for a bound stream its
reservation. -/
structure MemReq where
  addr : BitVec 56
  len : Nat
  src : MemSrc
  allot : Fin 1024
  resv : Option (Fin 256)
  deriving DecidableEq, Repr

/-- The cell errors that a request at a Saddle meets (R293, R301, R317), by 32-byte sector: those the stacks' check code corrects, those it cannot,
those whose parity it cannot, the 64-byte Reservoir sectors whose words it cannot, and far-tier sectors that their expander returns poisoned. -/
structure MemErrs where
  corr : List Nat := []
  unc : List Nat := []
  par : List Nat := []
  rsv : List Nat := []
  far : List Nat := []
  deriving DecidableEq, Repr

/-- A 64-bit word of a terrace store that fails its check (R281): the store, the word's byte address, and whether the error can be corrected. -/
structure BankErr where
  space : Fin 3
  addr : Nat
  corr : Bool
  deriving DecidableEq, Repr

/-- The start of an island's next instruction, with the words of the terrace's stores that fail their check when it reads them (R104, R281). -/
structure IslandStart where
  isl : Island
  errs : List BankErr := []
  deriving DecidableEq, Repr

/-- What a PCIe completion on a host port brings (R324): the data of a host-window read, poisoned when the completion is
poisoned or in error, or the answer to an ATS translation request for a 64 KiB page of the bus: none when refused. -/
inductive HostCpl where
  | read (addr : BitVec 64) (bytes : List Byte) (bad : Bool)
  | ats (allot : Fin 1024) (page : BitVec 48) (answer : Option (BitVec 48))
  deriving DecidableEq, Repr

/-- What the fast loop finds in one 100 µs window (R458, R465, R467, R477): the input power in W that the work of the window asks of each bus
converter, the duty its controller chose less one, the ridges whose islands stretched too often, and whether the controller plans the next rung ahead of a
descending cap. -/
structure FastSample where
  ibc : List Nat
  duty : Fin 16
  droop : List (Fin 16) := []
  ahead : Bool := false
  deriving DecidableEq, Repr

/-- What the slow loop measures in one 1 ms step (R465, R472, R481): the power in W that Freeboard withholds, coolant temperatures in tenths of a
degree, flow in hundredths of a litre a minute, and whether every coolant sensor reads. -/
structure SlowSample where
  withheld : Nat
  inlet : Nat
  outlet : Nat
  flow : Nat
  coolOk : Bool
  deriving DecidableEq, Repr

/-- One sample of a rail (R458): its power in W, and whether it came too late or its two readings disagree; its voltage in mV, its current in mA and its
temperature in degrees. -/
structure RailSample where
  power : Nat
  missing : Bool
  disagree : Bool
  volts : Nat := 0
  current : Nat := 0
  temp : Nat := 0
  deriving DecidableEq, Repr

/-- A domain Freeboard gates (R478, Table 17-12): a terrace, a Flume lane, or a ridge with all it holds. -/
inductive Domain where
  | terrace (tg : Fin 64)
  | lane (fg : Fin 32)
  | ridge (r : Fin 16)
  deriving DecidableEq, Repr

/-- The activity of an energy window (R485, Table 17-10): the allotment it serves, its kind by row of the table, how many
events, and the voltage in mV they happened at. -/
structure Activity where
  allot : Option (Fin 1024)
  kind : Fin 14
  count : Nat
  mv : Nat
  deriving DecidableEq, Repr

/-- The energy measured in a 1 ms window, in microjoules, and the activity of the window (R484). -/
structure EnergySample where
  uj : Nat
  acts : List Activity
  deriving DecidableEq, Repr

/-- Where a junction sensor sits (R482): in an island of a terrace, in a Flume lane, a Saddle or a Headwork. -/
inductive Junction where
  | terrace (tg : Fin 64) (isl : Island)
  | lane (fg : Fin 32)
  | saddle (g : Fin 2)
  | headwork (hd : Fin 2)
  deriving DecidableEq, Repr

/-- What Rider reads of a terrace at boot (R459, R460): its maximum frequency in 10 MHz units from the fused value and the ageing monitors, and its fused
voltages in mV, from OP0 up. -/
structure FuseSample where
  tg : Fin 64
  fmax : Nat
  vf : List Nat
  deriving DecidableEq, Repr

/-- What a power-on finds (Table 18-3): the hottest junction in degrees, the coolant, the stacks that fail training, the
terraces whose arrays, memories or clocks fail their tests, and what the fuses of the terraces give. -/
structure BootSample where
  hot : Nat
  coolOk : Bool
  badStacks : List (Fin 12)
  badTerraces : List (Fin 64)
  fuses : List FuseSample := []
  deriving DecidableEq, Repr

/-- A device as a far-tier port finds it (R311, R312): link width and rate code, capacity in GiB, the CXL switch levels before it, its device
type, its HDM ranges, and whether it is multi-logical or of dynamic capacity, and supports poison and memory error event records. -/
structure Expander where
  width : Nat
  rate : Nat
  cap : Nat
  levels : Nat := 0
  kind : Nat := 3
  ranges : Nat := 1
  multi : Bool := false
  dynamic : Bool := false
  poison : Bool := true
  events : Bool := true
  deriving DecidableEq, Repr

/-- A change of the non-volatile configuration (R488): the items it names. -/
structure NvConfig where
  guarded : Option Bool := none
  mir : List (Fin 4 × W32) := []
  id : Option W32 := none
  mgr : Option Byte := none
  bootCap : Option Nat := none
  slots : List (Fin 3 × Bool) := []
  deriving DecidableEq, Repr

/-- The result of a diagnostic (R510): passed, and otherwise the tests that failed. -/
structure DiagResult where
  pass : Bool
  failed : List Nat
  deriving DecidableEq, Repr

/-- A flit as a Skovuk port receives it (R437, Table 16-7): LSEQ, ACK, FTYPE, channel, the credits it returns by channel, and
whether its CRC held after FEC. -/
structure Flit where
  lseq : BitVec 16
  ack : BitVec 16
  ftype : Nat
  vc : Fin 4
  cred : List Nat
  ok : Bool
  deriving DecidableEq, Repr

/-- A Skovuk packet at a port (Tables 16-4 to 16-6): the header's fields, the extension of a CONTRIB, the data and the
poisoned sectors among them; rsv: some reserved bit is set. -/
structure SkvPacket where
  port : Fin 8
  ptype : Nat
  vc : Nat
  dkind : Bool
  skind : Bool
  hops : Nat
  dest : BitVec 14
  src : BitVec 14
  sal : BitVec 10
  eseq : W32
  dlen : Nat
  addr : W64
  tag : BitVec 48
  goff : BitVec 40
  ctrl : W64
  data : List Byte
  bad : List Nat
  rsv : Bool
  deriving DecidableEq, Repr


/-- The commands of the block: one constructor per row of the table of operations and events. -/
inductive Instr where
  /-- The thread issues a no-operation instruction that changes nothing. (R357) -/
  | ctlNop (i : Issue)
  /-- The issuing thread enters the Ended state. (R82) -/
  | ctlEnd (i : Issue)
  /-- The PC moves by a signed word offset; when predicated this is the conditional branch. (R357) -/
  | ctlJmp (i : Issue)
  /-- PC + 8 is saved in sd and the PC jumps by a signed offset. (R357) -/
  | ctlJal (i : Issue)
  /-- The PC is set to the value of a scalar register. (R357) -/
  | ctlJr (i : Issue)
  /-- A signed value is added to a local or span semaphore, as a release at the semaphore's scope. (R100) -/
  | ctlSig (i : Issue)
  /-- The thread blocks until the semaphore reaches the target under the signed comparison, then acquires. (R100) -/
  | ctlWait (i : Issue)
  /-- 64-bit addition. (R358) -/
  | sclAdd (i : Issue)
  /-- 64-bit subtraction. (R358) -/
  | sclSub (i : Issue)
  /-- 64-bit multiplication returning the low 64 bits. (R358) -/
  | sclMul (i : Issue)
  /-- Bitwise AND. (R358) -/
  | sclAnd (i : Issue)
  /-- Bitwise OR. (R358) -/
  | sclOr (i : Issue)
  /-- Bitwise XOR. (R358) -/
  | sclXor (i : Issue)
  /-- Shift left by bits [5:0] of the second operand. (R358) -/
  | sclShl (i : Issue)
  /-- Logical shift right. (R358) -/
  | sclShr (i : Issue)
  /-- Arithmetic shift right. (R358) -/
  | sclSar (i : Issue)
  /-- Signed minimum. (R358) -/
  | sclMin (i : Issue)
  /-- Signed maximum. (R358) -/
  | sclMax (i : Issue)
  /-- Unsigned minimum. (R358) -/
  | sclMinu (i : Issue)
  /-- Unsigned maximum. (R358) -/
  | sclMaxu (i : Issue)
  /-- Unsigned division; division by zero returns all ones. (R358) -/
  | sclDivu (i : Issue)
  /-- Unsigned remainder; division by zero returns the dividend. (R358) -/
  | sclRemu (i : Issue)
  /-- A 64-bit immediate from word 1 is written to sd. (R358) -/
  | sclMovi (i : Issue)
  /-- pd is set to the bit of the truth table TT that two predicates select. (R359) -/
  | sclPlog (i : Issue)
  /-- sd is set to s[a] or s[b] according to a predicate. (R359) -/
  | sclSel (i : Issue)
  /-- pd is set to the result of an equality comparison. (R359) -/
  | sclCmpEq (i : Issue)
  /-- pd is set to the result of an inequality comparison. (R359) -/
  | sclCmpNe (i : Issue)
  /-- pd is set to the result of a signed less-than comparison. (R359) -/
  | sclCmpLt (i : Issue)
  /-- pd is set to the result of a signed greater-or-equal comparison. (R359) -/
  | sclCmpGe (i : Issue)
  /-- pd is set to the result of an unsigned less-than comparison. (R359) -/
  | sclCmpLtu (i : Issue)
  /-- pd is set to the result of an unsigned greater-or-equal comparison. (R359) -/
  | sclCmpGeu (i : Issue)
  /-- A scalar of 1 to 8 bytes is loaded; a translation fault, poison or misalignment raises SCALAR. (R360) -/
  | sclLd (i : Issue)
  /-- A scalar of 1 to 8 bytes is stored from sb. (R360) -/
  | sclSt (i : Issue)
  /-- 32 bytes are loaded from memory into a descriptor register. (R361) -/
  | dscLd (i : Issue)
  /-- A descriptor register is stored to memory. (R361) -/
  | dscSt (i : Issue)
  /-- One descriptor register is copied to another. (R361) -/
  | dscMov (i : Issue)
  /-- A descriptor register is cleared. (R361) -/
  | dscZero (i : Issue)
  /-- A bit field of a descriptor is read into a scalar register. (R361) -/
  | dscGetb (i : Issue)
  /-- A bit field of a descriptor is written from a scalar register. (R361) -/
  | dscSetb (i : Issue)
  /-- A value is added to a descriptor's BASE modulo 2^52. (R361) -/
  | dscAddb (i : Issue)
  /-- A plain stream load fills pool regions and pushes them to the output queue. (R364) -/
  | strLd (i : Issue)
  /-- A gated load delivers only the dimension-1 indices whose predictor bitmap bits are set. (R196) -/
  | strLdGate (i : Issue)
  /-- A reach-bounded load delivers the entry range of a reach record. (R365) -/
  | strLdReach (i : Issue)
  /-- A single-row load writes one row into one region, truncating it when needed. (R365) -/
  | strLdOne (i : Issue)
  /-- A stream store pops regions and writes them to the destination, compressing for FORM 2. (R366) -/
  | strSt (i : Issue)
  /-- A direct copy runs from a source descriptor to a destination descriptor. (R367) -/
  | strCpy (i : Issue)
  /-- A Sump job record is posted to a Saddle's Sump queue. (R368) -/
  | strSump (i : Issue)
  /-- A lane scans one coordinate stream, emitting one record per input record. (R166) -/
  | cflScan (i : Issue)
  /-- A lane intersects two coordinate streams. (R166) -/
  | cflIsectK2 (i : Issue)
  /-- A lane forms the union of two coordinate streams. (R166) -/
  | cflUnionK2 (i : Issue)
  /-- A lane merges k single-region streams in coordinate order. (R165) -/
  | cflMergeKk (i : Issue)
  /-- A lane compacts a match region into array operands. (R170) -/
  | cflCmpct (i : Issue)
  /-- A span's reach-cutting job is started once the previous job is exhausted. (R176) -/
  | cflRqCut (i : Issue)
  /-- A reach is taken from the home queue or stolen, or exhaustion is reported. (R180) -/
  | cflRqTake (i : Issue)
  /-- A matrix multiply-accumulate runs on the arrays in a gang mode. (R372) -/
  | mma (i : Issue)
  /-- RUN_LEN and TOL are set for later MMAs. (R373) -/
  | mmaCfg (i : Issue)
  /-- A Split accumulator entry is written out as a tile image. (R150) -/
  | mmaAccrd (i : Issue)
  /-- A Split accumulator entry is loaded from a tile image. (R150) -/
  | mmaAccwr (i : Issue)
  /-- An accumulator entry is drained through the Epilogue to a store, an AS operand or a reduction. (R216) -/
  | epi (i : Issue)
  /-- The maximum of each row is found, with its index. (R225) -/
  | redMaxi (i : Issue)
  /-- The minimum of each row is found, with its index. (R225) -/
  | redMini (i : Issue)
  /-- The top k experts are selected from the router logits, optionally with gates. (R202) -/
  | redTopk (i : Issue)
  /-- Candidate top-k lists are merged. (R205) -/
  | redTopkL (i : Issue)
  /-- A terrace-memory tensor is sent as reduction contributions. (R227) -/
  | redSt (i : Issue)
  /-- Attention over a batch list is forwarded to the Flume lane. (R251) -/
  | flmAttn (i : Issue)
  /-- Attention partials are merged by their log-sum-exp values. (R253) -/
  | flmMerge (i : Issue)
  /-- A Free sequence is opened Live and held by the item. (R263) -/
  | cisOpen (i : Issue)
  /-- A child sequence is forked, sharing the parent's whole pages. (R267) -/
  | cisFork (i : Issue)
  /-- The item takes a sequence as holder, swapping it in first if it is Preempted. (R263) -/
  | cisHold (i : Issue)
  /-- A sequence's holder is cleared. (R263) -/
  | cisRelease (i : Issue)
  /-- Tokens are appended at or above LENGTH, through the staging slot. (R265) -/
  | cisAppend (i : Issue)
  /-- A sequence is shortened and its pages beyond the new length are released. (R268) -/
  | cisTrim (i : Issue)
  /-- A sequence is freed with all of its pages and slots. (R268) -/
  | cisClose (i : Issue)
  /-- The STATE and LENGTH of a sequence are returned. (R263) -/
  | cisQuery (i : Issue)
  /-- The low-rank predictor is evaluated and a block bitmap is written. (R188) -/
  | hgpRun (i : Issue)
  /-- A bitmap of a BSR block row or column is written. (R213) -/
  | hgpMask (i : Issue)
  /-- The predicted and observed planes are compared and the recall counts are returned. (R201) -/
  | hgpAudit (i : Issue)
  /-- A handle is pushed into a lateral queue; the thread blocks while the queue is full. (R101) -/
  | latPush (i : Issue)
  /-- A handle is popped from a lateral queue; the thread blocks while the queue is empty. (R101) -/
  | latPop (i : Issue)
  /-- A non-blocking push that clears its predicate on failure. (R101) -/
  | latPushNb (i : Issue)
  /-- A non-blocking pop that returns the idle handle on failure. (R101) -/
  | latPopNb (i : Issue)
  /-- A handle is requested from a pool's contest. (R120) -/
  | latAlloc (i : Issue)
  /-- A handle held in a register is freed. (R111) -/
  | latFree (i : Issue)
  /-- A region is copied to the peer at a given rank. (R379) -/
  | latSend (i : Issue)
  /-- WS bytes are copied to the peer at a given rank. (R207) -/
  | latRot (i : Issue)
  /-- A field of the span record is read into a scalar register. (R87) -/
  | sysSpan (i : Issue)
  /-- The residency claim hit bits are read into a scalar register. (R285) -/
  | sysRes (i : Issue)
  /-- The Intake cycle count since the item's first issue is read. (R380) -/
  | sysCycle (i : Issue)
  /-- The thread waits until its accesses are performed at terrace scope. (R98) -/
  | sysFenceT (i : Issue)
  /-- The thread waits until its accesses are performed at Saddle scope. (R98) -/
  | sysFenceS (i : Issue)
  /-- The thread waits until its accesses are performed at host, peer or far-tier scope. (R98) -/
  | sysFenceH (i : Issue)
  /-- An island starts the next instruction of its command queue once its handles are available. (R104) -/
  | islandInstrStart (tg : Fin 64) (start : IslandStart)
  /-- A Blocked thread becomes Ready when its blocking condition clears. (R82) -/
  | threadUnblock (tg : Fin 64) (thr : Fin 16)
  /-- A stream finishes draining and releases its Sluice stream context. (R104) -/
  | streamDrained (tg : Fin 64) (ctx : Fin 16)
  /-- A partial packet is sent after 8 cycles pass with no adjacent request. (R132) -/
  | coalesceTimeout (tg : Fin 64) (ctx : Fin 18)
  /-- In each Sluice cycle with requests present, a pool grants up to four handles by wait counters and port order. (R118) -/
  | handleContest (tg : Fin 64) (pool : Fin 3)
  /-- A Returning handle becomes Free in its pool. (R110) -/
  | handleReturn (tg : Fin 64) (pool : Fin 3) (index : Nat)
  /-- A failed checksum verdict discards the runs not yet promoted and replays them. (R155) -/
  | arrayCheckFail (tg : Fin 64) (check : ArrayCheck)
  /-- The item finishes on a terrace when every thread has Ended and every stream has drained. (R83) -/
  | itemFinish (tg : Fin 64)
  /-- A peer receives a LAT.SEND or ROT transfer, or drops it when the item tag no longer matches. (R102) -/
  | lateralReceipt (src : Fin 64) (dst : Fin 64)
  /-- The last source byte of a transfer has been read, and the sender's local semaphore is signalled. (R208) -/
  | lateralSendDone (tg : Fin 64)
  /-- The cutter places the next reach once its target queue has room. (R179) -/
  | cutterPlace (slot : Fin 65536)
  /-- A contribution packet is applied at the reduction guard or dropped by its bitmap. (R231) -/
  | guardApply (saddle : Fin 2)
  /-- A Sump unit pools one bag of the job at the head of the queue. (R307) -/
  | sumpBag (saddle : Fin 2)
  /-- A Sump job ends once its outputs are fenced, and its span semaphore is signalled. (R310) -/
  | sumpJobEnd (saddle : Fin 2)
  /-- A Flume lane switches context at a block boundary after 2,048 lane cycles. (R238) -/
  | flmContextSwitch (lane : Fin 32)
  /-- A Flume instruction completes its last output write and signals its local semaphore. (R240) -/
  | flmComplete (lane : Fin 32)
  /-- A lane's page read notice triggers look-ahead promotion of later pages. (R272) -/
  | cisReadNotice (allot : Fin 1024) (page : Nat)
  /-- The agent advances swap data movement by one step behind later operations. (R273) -/
  | cisSwapStep (allot : Fin 1024)
  /-- After a reset the agent scans each control block and finishes interrupted work. (R274) -/
  | cisResumeScan (allot : Fin 1024)
  /-- A read request is served through the home Saddle's Reservoir. (R299) -/
  | saddleRead (r : MemReq) (e : MemErrs)
  /-- A write request is performed through the Reservoir, with the Guarded parity update. (R294) -/
  | saddleWrite (r : MemReq) (bytes : List Byte) (bad : Bool)
  /-- A prefetcher with no demand hit for 4,096 cycles is released. (R304) -/
  | prefetcherRelease (saddle : Fin 2) (pf : Fin 64)
  /-- A stack is marked Failed, and its group becomes Degraded or Lost. (R295) -/
  | hbmStackFail (stack : Fin 12) (cause : Fin 3)
  /-- A stack's temperature report sets its thermal stage and derating. (R298) -/
  | hbmTempReport (stack : Fin 12) (temp : Nat)
  /-- A far port is marked Failed on a link down for 1 ms or a fatal expander error. (R314) -/
  | farPortFail (port : Fin 8) (fatal : Bool)
  /-- The copy of mirrored ranges to a replacement expander ends and redundancy returns. (R316) -/
  | farResilverDone (port : Fin 8)
  /-- Every 64 ns each token bucket adds RATE × 64 bytes, up to DEPTH. (R333) -/
  | weirRefill
  /-- Reservation capacities are recomputed after a deliverable figure falls, and reservations are revoked until they fit. (R339) -/
  | rsvRecompute
  /-- An ATS Invalidate Request drops the matching cache entries once their requests complete. (R324) -/
  | atsInvalidate (hd : Fin 2) (addr : Nat) (len : Nat)
  /-- A doorbell write advances TAIL when the value is valid, or posts a DOORBELL packet. (R389) -/
  | sqTailWrite (r : Requester) (allot : Fin 1024) (q : Fin 64) (v : W32)
  /-- A doorbell write advances the CQ HEAD when the value is valid. (R397) -/
  | cqHeadWrite (r : Requester) (allot : Fin 1024) (q : Fin 64) (v : W32)
  /-- A read of submission entries returns, and the entries are journaled and accepted. (R390) -/
  | sqReadComplete (q : Fin 65536) (err : Bool)
  /-- Every 50 ns the allocator picks the next item to start on free terraces. (R395) -/
  | dispatchDecision (pick : BitVec 64)
  /-- A terrace scrub ends and dispatch to that terrace may proceed. (R288) -/
  | scrubComplete (tg : Fin 64)
  /-- After the item finishes and fences, its ranges are copied into place and the done word is written. (R417) -/
  | commit (slot : Fin 65536)
  /-- A completion entry is written once it is next in SEQ order and the CQ has room. (R396) -/
  | completionPost (w : CqWrite)
  /-- ITIME expires after the first unsignalled completion and the vector is sent. (R398) -/
  | qIntTimer (q : Fin 65536)
  /-- A full or notice-bearing Gauge line is written once the ring has room. (R401) -/
  | gaugeLineWrite (ring : Fin 1026)
  /-- A line whose oldest packet has waited FLUSH µs is written. (R401) -/
  | gaugeFlushTimer (ring : Fin 1026)
  /-- A GHEAD or GPF_HEAD write reports the Gauge lines consumed. (R401) -/
  | gaugeHeadWrite (r : Requester) (ring : Fin 1026) (v : W32)
  /-- Enabling a ring or changing its geometry resets its write and head counts. (R401) -/
  | gaugeCfgWrite (r : Requester) (ring : Fin 1026) (reg : Fin 3) (v : W32)
  /-- An allotment configuration write is applied, or dropped when it breaks the class, grant, VF or EN rules. (R384) -/
  | allotCfgWrite (r : Requester) (allot : Fin 1024) (reg : Fin 5) (v : W32)
  /-- The allotment's items are stopped, its stores scrubbed and its accepted items replayed. (R386) -/
  | allotReset (r : Requester) (allot : Fin 1024)
  /-- The allotment's items are stopped and every item not yet completed completes ABORTED. (R386) -/
  | allotKill (r : Requester) (allot : Fin 1024)
  /-- BUSY clears after every scrub and ABORTED completion, and ALLOT_DONE is posted. (R386) -/
  | allotCmdDone (allot : Fin 1024)
  /-- A queue is enabled or disabled, or its write is dropped by the limit, alignment and count rules. (R387) -/
  | qCfgWrite (r : Requester) (q : Fin 65536) (reg : Fin 6) (v : W32)
  /-- A root address write is dropped while translation is enabled. (R328) -/
  | xltRootWrite (r : Requester) (allot : Fin 1024) (hi : Bool) (v : W32)
  /-- An XLT_CTX write enables translation, or disables it with a whole-allotment invalidation. (R328) -/
  | xltCtxWrite (r : Requester) (allot : Fin 1024) (v : W32)
  /-- START begins an invalidation of a range, an allotment or the module. (R329) -/
  | xltInvalidate (r : Requester) (v : W32)
  /-- The invalidation's accesses drain, BUSY clears and the done count increments. (R329) -/
  | xltInvDone
  /-- A read of XLT_FLOG_INFO removes the head fault record. (R331) -/
  | xltFlogPop (r : Requester)
  /-- A reservation is admitted, or refused for capacity. (R337) -/
  | rsvCreate (r : Requester) (v : W32)
  /-- A reservation is released. (R336) -/
  | rsvRelease (r : Requester) (v : W32)
  /-- A reservation's amounts and state are returned. (R336) -/
  | rsvQuery (r : Requester) (v : W32)
  /-- Lowering PCT triggers a recomputation of reservation capacities. (R339) -/
  | rsvPctWrite (r : Requester) (v : W32)
  /-- The selected route-table entry is updated in one step. (R450) -/
  | skvRteWrite (r : Requester) (v : W32)
  /-- The selected inbound window entry is updated in one step. (R450) -/
  | skvWinWrite (r : Requester) (reg : Fin 4) (v : W32)
  /-- The local cap is set, and a lower cap descends at RAMP. (R464) -/
  | fbCapWrite (r : Requester) (v : W32)
  /-- A keyed RST_CTL write starts a warm reset. (R512) -/
  | rstCtlWarm (r : Requester) (v : W32)
  /-- A keyed RST_CTL write starts a cold reset. (R512) -/
  | rstCtlCold (r : Requester) (v : W32)
  /-- The module moves from Ready to Draining. (R489) -/
  | rstCtlDrain (r : Requester) (v : W32)
  /-- The module moves from Draining to Ready. (R489) -/
  | rstCtlResume (r : Requester) (v : W32)
  /-- The head RAS record is removed. (R524) -/
  | rasPop (r : Requester) (v : W32)
  /-- Cause bits are cleared, and a message is sent again for any enabled cause still set. (R529) -/
  | intStatClear (r : Requester) (v : W32)
  /-- The cause enables are changed, and a message is sent for enabled causes that are set. (R529) -/
  | intEnWrite (r : Requester) (v : W32)
  /-- At the end of a 1 µs window one MSI-X message is sent per vector with a rising cause. (R529) -/
  | intMessage (vector : Fin 16)
  /-- A read of a counter's low half latches its high half for the requester. (R9) -/
  | counterLoRead (r : Requester) (place : RegAt)
  /-- A read of an RC field returns its value and clears it. (R12) -/
  | rcFieldRead (r : Requester) (place : RegAt)
  /-- A write to a register without its own row is applied, or dropped and logged. (R8) -/
  | regWrite (r : Requester) (bar : Bar) (off : BitVec 28) (size : AccSize) (v : BitVec 64)
  /-- A driver read of HBM through BAR4 passes the Reservoir untranslated. (R519) -/
  | bar4Read (port : Fin 2) (off : BitVec 40) (len : Nat)
  /-- A driver write to HBM through BAR4, which poisons sectors when EP is set. (R519) -/
  | bar4Write (port : Fin 2) (off : BitVec 40) (bytes : List Byte) (ep : Bool)
  /-- A journal step is held in both copies and its external effects may leave the module. (R409) -/
  | journalStepComplete
  /-- After a reset, firmware restores the tables, resumes the slots by state and enables the allotments. (R424) -/
  | postResetRestore
  /-- A queued retirement trigger starts a terrace retirement. (R427) -/
  | retirementStart
  /-- A retirement step completes and RSTEP is journaled; the next step begins. (R427) -/
  | retirementStepDone
  /-- A silent ridge is marked failed, its routes are fenced and its terraces are retired. (R425) -/
  | ridgeDieFail (ridge : Fin 16)
  /-- The survivor becomes sequencer, owner, allocator and primary Freeboard. (R425) -/
  | headworkFail (hd : Fin 2)
  /-- A silent island heartbeat triggers terrace retirement. (R425) -/
  | islandHeartbeatLoss (tg : Fin 64)
  /-- The failed lane's terraces move to the other lane, or the ridge is retired. (R238) -/
  | flumeLaneFail (lane : Fin 32)
  /-- A port is marked Down and its allotments move to the other Headwork. (R383) -/
  | hostPortDown (port : Fin 2) (fatal : Bool)
  /-- A port comes Up and pending module-level messages are sent through it. (R530) -/
  | hostPortUp (port : Fin 2) (width : Nat) (rate : Fin 5)
  /-- A feed leaves range, and the load switches over or the module goes Off. (R452) -/
  | feedOutOfRange (feed : Fin 2) (volts : Nat)
  /-- A feed in range for 100 ms becomes valid, taking the module from Off to Standby. (R451) -/
  | feedValid (feed : Fin 2) (volts : Nat)
  /-- After feed A has been valid for 1 s the load returns to it, make-before-break. (R452) -/
  | feedReturn (feed : Fin 2)
  /-- Both feeds low for 10 ms engages the active bus discharge. (R453) -/
  | dischargeStart
  /-- An opened mate pin counts as its feed leaving range. (R533) -/
  | matePinOpen (feed : Fin 2)
  /-- Every 100 µs Freeboard sets the issue duty and takes or releases a shedding rung. (R465) -/
  | fbFastLoop (m : FastSample)
  /-- Every 1 ms the module's operating-point index is stepped by the duty history. (R465) -/
  | fbSlowLoop (m : SlowSample)
  /-- A terrace's voltage slew settles and the target's duty limit applies. (R461) -/
  | voltageSettled (tg : Fin 64)
  /-- Every 1 ms FLOOR is computed, and UNACH, AWAKE_MAX and HALT are set. (R470) -/
  | fbFloorEval (floor : Nat) (perTerrace : Nat)
  /-- The 100 µs mean above cap + 10 % or 2,900 W forces duty 1/16. (R471) -/
  | capGuard (avg : Nat)
  /-- Every 100 µs the primary Freeboard sends its state to the shadow. (R463) -/
  | fbShadowSync
  /-- A rail's telemetry sample is received; missing or disagreeing samples are judged. (R458) -/
  | railTelemetry (rail : Fin 29) (m : RailSample)
  /-- A failed phase lowers the rail's ceiling and its domains are throttled. (R473) -/
  | phaseFail (rail : Fin 29)
  /-- A rail falls back to estimated power with a lowered ceiling. (R474) -/
  | railEstimation (rail : Fin 29) (cause : Fin 3)
  /-- A failed bus converter lowers the cap by 900 W. (R475) -/
  | ibcFail (unit : Fin 4)
  /-- A rail ceiling below its floor fails the rail's die. (R476) -/
  | railFail (rail : Fin 29)
  /-- A supply more than 5 % low lengthens island cycles. (R477) -/
  | droopDetect (tg : Fin 64) (isl : Island)
  /-- Freeboard gates an idle domain after per-domain Draining. (R478) -/
  | powerGate (d : Domain)
  /-- A drained domain with an empty input port is gated. (R479) -/
  | domainGated (d : Domain)
  /-- A sender handles a packet returned by a Draining domain. (R479) -/
  | returnedPacket (d : Domain)
  /-- Freeboard wakes a gated terrace or ridge, which starts at OP0. (R480) -/
  | domainWake (d : Domain)
  /-- A junction sensor sample places its domain in a thermal stage. (R482) -/
  | junctionSample (p : Junction) (temp : Nat)
  /-- Each 1 ms in Warm lowers a domain's ceiling; each 10 ms in Normal raises it. (R482) -/
  | thermalCeilingStep (d : Domain)
  /-- A junction at 118 °C stops the clocks and rails and the module enters Faulted. (R483) -/
  | spillwayTrip
  /-- At the close of each 1 ms window the measured energy is charged to the allotments and the overhead. (R484) -/
  | energyWindowClose (m : EnergySample)
  /-- A rising MOD_EN in Standby starts a power-on. (R537) -/
  | modEnRise (b : BootSample)
  /-- Rider not completing boot within 5 s restarts boot from the other slot. (R500) -/
  | riderWatchdog (hd : Fin 2)
  /-- PERST_N asserted performs a warm reset and resets that port's endpoint. (R496) -/
  | perstAssert (port : Fin 2)
  /-- The port's link trains after deassertion. (R496) -/
  | perstDeassert (port : Fin 2)
  /-- A PCIe hot reset or an FLR of PF0 starts a warm reset. (R494) -/
  | pcieHotReset (port : Fin 2)
  /-- An FLR of a bound virtual function performs an allotment reset. (R494) -/
  | vfFlr (vf : Fin 1024)
  /-- Presence high for 10 ms fails the far port and asserts its XPERST_N. (R538) -/
  | xprsntRemove (port : Fin 8)
  /-- Presence low for 100 ms releases reset, trains and enumerates the expander. (R538) -/
  | xprsntInsert (port : Fin 8) (d : Expander)
  /-- Exmas returns the module state, BOOT_STAT and FB_STAT. (R510) -/
  | getState
  /-- Exmas starts a power-on from Standby. (R489) -/
  | powerOn (b : BootSample)
  /-- Exmas switches off every rail except VAON and enters Standby. (R489) -/
  | powerOff
  /-- Exmas moves the module from Ready to Draining. (R489) -/
  | drain
  /-- Exmas returns the module to Ready from Draining or operator Maintenance. (R489) -/
  | resume
  /-- Exmas requests a warm reset. (R494) -/
  | exmasResetWarm
  /-- Exmas requests a cold reset. (R494) -/
  | exmasResetCold
  /-- Exmas stops running items and enters Maintenance. (R489) -/
  | maintEnter
  /-- Exmas reads one BAR0 register. (R510) -/
  | readReg (off : BitVec 28)
  /-- Exmas writes one field writable by Exmas, or answers INVALID. (R515) -/
  | writeReg (off : BitVec 28) (v : W32)
  /-- Exmas returns the oldest queued event. (R511) -/
  | getEvent
  /-- Exmas sets the endpoint that receives EVENT messages. (R510) -/
  | setEventReceiver (eid : Byte)
  /-- Exmas returns the non-volatile configuration. (R510) -/
  | configGet
  /-- Exmas writes the non-volatile configuration to the older copy. (R488) -/
  | configSet (c : NvConfig)
  /-- Exmas requests a retirement with trigger 4. (R426) -/
  | retire (tg : Fin 64) (ridge : Bool)
  /-- Exmas accepts a boot test of one terrace in Maintenance. (R510) -/
  | diagRun (test : Nat)
  /-- The diagnostic finishes; a pass clears degraded marks, and the result is reported as an event. (R510) -/
  | diagDone (r : DiagResult)
  /-- An MCTP control message is answered. (R509) -/
  | mctpControl (msg : List Byte)
  /-- A PLDM monitoring request returns sensor values. (R509) -/
  | pldmMonitoring (msg : List Byte)
  /-- A PLDM firmware update begins, or ALREADY_IN_UPDATE_MODE is returned. (R507) -/
  | requestUpdate (comp : Fin 3) (ver : Nat) (svn : Nat)
  /-- A written component image is verified against R499. (R507) -/
  | verifyComplete (ok : Bool)
  /-- The newly written slots are selected for the next cold reset or power-on. (R507) -/
  | activateFirmware (raise : Bool)
  /-- The SPDM responder returns its versions. (R506) -/
  | getVersion
  /-- The SPDM responder returns its capabilities. (R506) -/
  | getCapabilities
  /-- SPDM algorithms are negotiated, P-384 and SHA-384 only. (R506) -/
  | negotiateAlgorithms (algs : Nat)
  /-- The certificate chain digests are returned. (R506) -/
  | getDigests
  /-- The slot 0 certificate chain is returned. (R506) -/
  | getCertificate (slot : Nat) (off : Nat) (len : Nat)
  /-- The responder answers an SPDM challenge. (R506) -/
  | challenge (slot : Nat)
  /-- Signed measurements of the Table 18-9 indices are returned. (R506) -/
  | getMeasurements (index : Nat)
  /-- A Skovuk port finishes training and learns its partner, or is held Down for its own ID. (R433) -/
  | skvPortTrained (port : Fin 8) (mask : Byte) (mgr : Bool) (partner : BitVec 14) (rtt : Nat)
  /-- A faulty lane is removed and the port retrains, or goes Down below four lanes. (R434) -/
  | skvLaneRemove (port : Fin 8) (lane : Fin 8)
  /-- A flit is accepted in sequence or discarded on a CRC failure. (R439) -/
  | skvFlitReceive (port : Fin 8) (f : Flit)
  /-- A replay request makes the sender resend its retry buffer from the requested flit. (R439) -/
  | skvReplayRequest (port : Fin 8) (lseq : BitVec 16)
  /-- No acknowledgement for 100 µs retrains the port. (R439) -/
  | skvLinkAckTimeout (port : Fin 8)
  /-- A packet for another destination is forwarded by the route table or discarded. (R441) -/
  | skvTransit (p : SkvPacket)
  /-- An inbound peer read is checked against the window table and performed or refused. (R444) -/
  | read (p : SkvPacket)
  /-- An inbound peer write is checked, performed, and acknowledged by WACK. (R445) -/
  | write (p : SkvPacket)
  /-- Read data from a peer is delivered to the requesting stream. (R436) -/
  | rdata (p : SkvPacket)
  /-- A peer write acknowledgement reaches the SYS.FENCE.H point. (R445) -/
  | wack (p : SkvPacket)
  /-- An end-to-end acknowledgement frees the source's held packets. (R442) -/
  | eack (p : SkvPacket)
  /-- An inbound reduction contribution is passed to this module's guard. (R446) -/
  | contrib (p : SkvPacket)
  /-- A rack-manager power grant is accepted or rejected. (R449) -/
  | budget (p : SkvPacket)
  /-- An MCTP management packet from the fabric manager is delivered to Exmas. (R436) -/
  | mgmt (p : SkvPacket)
  /-- No end-to-end acknowledgement for 100 µs resends the unacknowledged packets. (R442) -/
  | skvE2eTimeout (mgr : Bool) (dest : BitVec 14) (ch : Fin 4)
  /-- A destination silent for 10 ms is abandoned and logged. (R443) -/
  | skvDestUnreachable (mgr : Bool) (dest : BitVec 14)
  /-- Every 1 ms a SLACK message reports power, cap, floor and slack. (R449) -/
  | slack
  /-- A grant's LIFE expires and it is marked stale but kept in force. (R449) -/
  | budgetLifeExpire
  /-- The test access port selects the IDCODE register. (R541) -/
  | tapIdcode (hd : Fin 2)
  /-- The test access port selects BYPASS. (R541) -/
  | tapBypass (hd : Fin 2)
  /-- The boundary register is sampled or preloaded. (R542) -/
  | tapSamplePreload (hd : Fin 2) (v : Nat)
  /-- EXTEST drives the sideband pins, in Maintenance only. (R542) -/
  | tapExtest (hd : Fin 2)
  /-- The internal IEEE 1687 network is accessed, in Maintenance only. (R542) -/
  | tapIeee1687Access (hd : Fin 2) (v : Nat)
  /-- TRST_N or a transition out of Maintenance places every die's port in Test-Logic-Reset. (R542) -/
  | tapReset (hd : Fin 2)
  /-- An island's stage instruction pushes its last output region or operand and frees its lane or island for the next instruction in the command queue. (R161) -/
  | stageInstructionEnd (tg : Fin 64) (unit : Fin 8)
  /-- A PCIe completion arrives on a host port for an item's host-window read or for an ATS translation request. (R324) -/
  | hostWindowCompletion (hd : Fin 2) (c : HostCpl)
  deriving DecidableEq, Repr

end Sys2Proof
end

