-- ==== Sys2Proof/Decode.lean ====
section
/-! DEFINITION. The bit fields of words, the opcode table (Tables 13-1 to 13-3) and the decoder the host asks: the spec's
table of operations gives no row any bits, so no word spells a command. -/

namespace Sys2Proof

/-- Bits [lo + len - 1 : lo] of a word as a number. -/
def fld {n : Nat} (w : BitVec n) (lo len : Nat) : Nat := w.toNat / 2 ^ lo % 2 ^ len

/-- Bit i of a word. -/
def bit {n : Nat} (w : BitVec n) (i : Nat) : Bool := w.toNat / 2 ^ i % 2 == 1

/-- The word with bits [lo + len - 1 : lo] replaced by the low bits of v; bits past the top are dropped. -/
def setFld {n : Nat} (w : BitVec n) (lo len v : Nat) : BitVec n :=
  let m := BitVec.ofNat n ((2 ^ len - 1) * 2 ^ lo)
  (w &&& ~~~m) ||| (BitVec.ofNat n (v % 2 ^ len * 2 ^ lo))

/-- A field as a signed number. -/
def sfld {n : Nat} (w : BitVec n) (lo len : Nat) : Int :=
  let v := fld w lo len
  if v < 2 ^ (len - 1) then v else (v : Int) - (2 ^ len : Nat)

/-- The fields every instruction word has (Table 13-1). -/
def wMaj (w : W64) : Nat := fld w 58 6
def wMin (w : W64) : Nat := fld w 48 6
def wPn (w : W64) : Nat := fld w 55 3
def wPg (w : W64) : Bool := bit w 54

/-- The minor opcodes Table 13-3 lists for each major opcode. -/
def minors (maj : Nat) : List Nat :=
  match maj with
  | 0x01 => [0x00, 0x01, 0x02, 0x03, 0x04, 0x08, 0x09]
  | 0x02 => [0x00, 0x01, 0x02, 0x03, 0x04, 0x05, 0x06, 0x07, 0x08, 0x09, 0x0A, 0x0B, 0x0C, 0x0D, 0x0E,
             0x10, 0x11, 0x12, 0x18, 0x19, 0x1A, 0x1B, 0x1C, 0x1D, 0x20, 0x21]
  | 0x03 => [0x00, 0x01, 0x02, 0x03, 0x04, 0x05, 0x06]
  | 0x04 => [0x00, 0x01, 0x02, 0x03]
  | 0x05 => [0x01, 0x02, 0x03, 0x04, 0x05, 0x10, 0x11]
  | 0x06 => [0x00, 0x01, 0x02, 0x03]
  | 0x07 => [0x00]
  | 0x08 => [0x00, 0x01, 0x02, 0x03, 0x04]
  | 0x09 => [0x00, 0x01]
  | 0x0A => [0x00, 0x01, 0x02, 0x03, 0x04, 0x05, 0x06, 0x07]
  | 0x0B => [0x00, 0x01, 0x02]
  | 0x0C => [0x00, 0x01, 0x02, 0x03, 0x04, 0x05]
  | 0x0D => [0x00, 0x01, 0x02, 0x03]
  | _ => []

/-- Is the opcode one of Table 13-3 (R349)? -/
def legalOp (w : W64) : Bool := (minors (wMaj w)).contains (wMin w)

/-- A row of Table 13-3: its opcode, and where one opcode has several rows the field that tells them apart. -/
structure OpRow where
  maj : Nat
  min : Nat
  lo : Nat := 0
  len : Nat := 0
  val : Nat := 0
  deriving DecidableEq, Repr

/-- Does a word belong to a row? -/
def OpRow.has (r : OpRow) (w : W64) : Bool :=
  wMaj w == r.maj && wMin w == r.min && fld w r.lo r.len == r.val

/-- The words an instruction occupies: two for SCL.MOVI and MMA, one otherwise (Table 13-3). -/
def opWords (w : W64) : Nat :=
  if (wMaj w == 0x02 && wMin w == 0x10) || (wMaj w == 0x06 && wMin w == 0x00) then 2 else 1

/-- The command a word spells by the table's bits: no row of the table gives bits. -/
def decodeTableWord (_nbits _w : Nat) : Option Instr := none

end Sys2Proof
end

