-- ==== Sys2Proof/Machine/Maps.lean ====
section
/-! DEFINITION. The operations on the sparse tables (Map) that hold every numbered piece of the block. -/

namespace Sys2Proof.Machine

variable {α : Type}

/-- The entry of key k, if there is one. -/
def mget? (m : Map α) (k : Nat) : Option α :=
  match m with
  | [] => none
  | (k', v) :: r => if k' = k then some v else mget? r k

/-- The entry of key k, or the default d. -/
def mget (m : Map α) (k : Nat) (d : α) : α := (mget? m k).getD d

/-- Write the entry of key k, keeping the keys rising. -/
def mset (m : Map α) (k : Nat) (v : α) : Map α :=
  match m with
  | [] => [(k, v)]
  | (k', v') :: r =>
    if k' = k then (k, v) :: r
    else if k < k' then (k, v) :: (k', v') :: r
    else (k', v') :: mset r k v

/-- Remove the entry of key k. -/
def mdel (m : Map α) (k : Nat) : Map α := m.filter (fun e => e.1 ≠ k)

/-- Apply f to the entry of key k. -/
def mupd (m : Map α) (k : Nat) (d : α) (f : α → α) : Map α := mset m k (f (mget m k d))

/-- Is there an entry of key k? -/
def mhas (m : Map α) (k : Nat) : Bool := (mget? m k).isSome

/-- The keys of the entries whose value meets p. -/
def mkeysWhere (m : Map α) (p : α → Bool) : List Nat := (m.filter (fun e => p e.2)).map (·.1)

/-- The keys are strictly rising. -/
def mrising : Map α → Bool
  | [] => true
  | [_] => true
  | a :: b :: r => decide (a.1 < b.1) && mrising (b :: r)

/-- Insert a number into a rising list that has no repeats. -/
def setIns (l : List Nat) (k : Nat) : List Nat :=
  match l with
  | [] => [k]
  | a :: r => if a = k then a :: r else if k < a then k :: a :: r else a :: setIns r k

/-- Each number once, rising. -/
def distinct (l : List Nat) : List Nat := l.foldl setIns []

/-- Remove a number from a list. -/
def setDel (l : List Nat) (k : Nat) : List Nat := l.filter (fun a => a ≠ k)

/-- The list with position i replaced. -/
def lset (l : List α) (i : Nat) (v : α) : List α := l.set i v

/-- The first element that meets p, and the list without it. -/
def takeFirst (p : α → Bool) : List α → Option (α × List α)
  | [] => none
  | a :: r => if p a then some (a, r) else
    match takeFirst p r with
    | some (x, r') => some (x, a :: r')
    | none => none

/-- Insert before the first element that does not come before it, under the order le. -/
def insBy (le : α → α → Bool) (a : α) : List α → List α
  | [] => [a]
  | b :: r => if le a b then a :: b :: r else b :: insBy le a r

/-- Sort by an order, keeping equal elements in their order. -/
def sortBy (le : α → α → Bool) (l : List α) : List α := l.foldr (insBy le) []

/-- Run f for i = n, n+1, ..., n + k - 1 over a state. -/
def loopFrom (n : Nat) (k : Nat) (f : Nat → α → α) (s : α) : α :=
  match k with
  | 0 => s
  | k + 1 => loopFrom (n + 1) k f (f n s)

/-- Run f for i = 0, ..., k - 1 over a state. -/
def loop (k : Nat) (f : Nat → α → α) (s : α) : α := loopFrom 0 k f s

end Sys2Proof.Machine
end

