-- ==== Sys2Proof/Machine/Num.lean ====
section
/-! DEFINITION. Exact values, rounding, the storage formats and the conversions between them (02 R35 to R56). -/

namespace Sys2Proof.Machine

/-- A value of a number format: NaN, an infinity, or the exact value (-1)^neg * m * 2^e (R37, R40). -/
inductive Num where
  | nan
  | inf (neg : Bool)
  | fin (neg : Bool) (m : Nat) (e : Int)
  deriving DecidableEq, Repr

/-- The value +0. -/
def Num.zero : Num := .fin false 0 0

/-- The value of an integer. -/
def Num.ofInt (i : Int) (e : Int) : Num := .fin (decide (i < 0)) i.natAbs e

def Num.isNan : Num → Bool
  | .nan => true
  | _ => false

def Num.isInf : Num → Bool
  | .inf _ => true
  | _ => false

def Num.isZero : Num → Bool
  | .fin _ 0 _ => true
  | _ => false

/-- The sign of a value; a NaN counts as positive. -/
def Num.neg? : Num → Bool
  | .nan => false
  | .inf n => n
  | .fin n _ _ => n

def Num.negate : Num → Num
  | .nan => .nan
  | .inf n => .inf (!n)
  | .fin n m e => .fin (!n) m e

/-- m * 2^e as an integer in units of 2^g, for g at most e. -/
def scaleInt (neg : Bool) (m : Nat) (e g : Int) : Int :=
  let v : Int := (m * 2 ^ (e - g).toNat : Nat)
  if neg then -v else v

/-- The exact sum of two values, with the special cases of R49 and the zero sign of R39. -/
def Num.add : Num → Num → Num
  | .nan, _ => .nan
  | _, .nan => .nan
  | .inf a, .inf b => if a = b then .inf a else .nan
  | .inf a, .fin .. => .inf a
  | .fin .., .inf b => .inf b
  | .fin na ma ea, .fin nb mb eb =>
    if ma = 0 && mb = 0 then .fin (na && nb) 0 0
    else
      let g := min ea eb
      let t := scaleInt na ma ea g + scaleInt nb mb eb g
      if t = 0 then .fin false 0 0 else .fin (decide (t < 0)) t.natAbs g

/-- The exact product, with 0 times infinity a NaN (R49). -/
def Num.mul : Num → Num → Num
  | .nan, _ => .nan
  | _, .nan => .nan
  | .inf a, .inf b => .inf (a != b)
  | .inf a, .fin b m _ => if m = 0 then .nan else .inf (a != b)
  | .fin a m _, .inf b => if m = 0 then .nan else .inf (a != b)
  | .fin a ma ea, .fin b mb eb => .fin (a != b) (ma * mb) (ea + eb)

/-- floor(log2 |v|) of a value other than zero; d of a zero, an infinity or a NaN. -/
def Num.exponent (v : Num) (d : Int) : Int :=
  match v with
  | .fin _ m e => if m = 0 then d else e + Nat.log2 m
  | _ => d

/-- The value times 2^x. -/
def Num.scale2 (v : Num) (x : Int) : Num :=
  match v with
  | .fin n m e => .fin n m (e + x)
  | v => v

/-- The exact sum of a list; the empty sum is +0 (R39). -/
def Num.sum : List Num → Num
  | [] => .zero
  | a :: r => r.foldl Num.add a

/-- a < b for values that are not NaN; false when either is a NaN. -/
def Num.lt : Num → Num → Bool
  | .nan, _ => false
  | _, .nan => false
  | .inf a, .inf b => a && !b
  | .inf a, .fin .. => a
  | .fin .., .inf b => !b
  | .fin na ma ea, .fin nb mb eb =>
    let g := min ea eb
    decide (scaleInt na ma ea g < scaleInt nb mb eb g)

/-- Equal as values; -0 equals +0; a NaN equals nothing. -/
def Num.eqv (a b : Num) : Bool :=
  match a, b with
  | .nan, _ => false
  | _, .nan => false
  | a, b => !(Num.lt a b) && !(Num.lt b a)

/-- The larger of two values; a NaN operand gives NaN; of equal values the first. -/
def Num.max (a b : Num) : Num := if a.isNan || b.isNan then .nan else if Num.lt a b then b else a

/-- The smaller of two values; a NaN operand gives NaN; of equal values the first. -/
def Num.min (a b : Num) : Num := if a.isNan || b.isNan then .nan else if Num.lt b a then b else a

def Num.abs : Num → Num
  | .fin _ m e => .fin false m e
  | .inf _ => .inf false
  | .nan => .nan

/-! ## Rounding -/

/-- The rounding modes of Table 02-6; the stochastic one carries its 16-bit random number. -/
inductive RM where
  | rne
  | rtz
  | sr (r : Nat)
  deriving DecidableEq, Repr

/-- floor(log2 (n / d)) for n, d > 0. -/
def flog2 (n d : Nat) : Int :=
  let k : Int := (Nat.log2 n : Int) - (Nat.log2 d : Int)
  let ge : Bool := if 0 ≤ k then decide (d * 2 ^ k.toNat ≤ n) else decide (d ≤ n * 2 ^ (-k).toNat)
  if ge then k else k - 1

/-- n / d * 2^e rounded to a whole number of steps of 2^g (R51, R52). -/
def roundQ (rm : RM) (n d : Nat) (e g : Int) : Nat :=
  let n' := if g ≤ e then n * 2 ^ (e - g).toNat else n
  let d' := if g ≤ e then d else d * 2 ^ (g - e).toNat
  let q := n' / d'
  let r := n' % d'
  match rm with
  | .rne => if 2 * r > d' || (2 * r == d' && q % 2 == 1) then q + 1 else q
  | .rtz => q
  | .sr x => if r * 65536 / d' > x then q + 1 else q

/-- The 16-bit random number of stochastic rounding for a seed and an element index (R52). -/
def srRandom (seed : W64) (i : Nat) : Nat :=
  let x := seed ^^^ (BitVec.ofNat 64 i * 0x9E3779B97F4A7C15#64)
  let x := x ^^^ (x >>> 31)
  let x := x * 0xBF58476D1CE4E5B9#64
  let x := x ^^^ (x >>> 29)
  (x &&& 0xFFFF#64).toNat

/-! ## Float formats (Table 02-2) -/

/-- A float encoding: exponent and fraction widths, bias, the largest finite magnitude as a multiple of a power of two,
and whether the all-ones exponent is reserved for infinity and NaN. -/
structure FloatFmt where
  eb : Nat
  mb : Nat
  bias : Int
  maxM : Nat
  maxE : Int
  hasInf : Bool
  hasNan : Bool
  deriving DecidableEq, Repr

def fmtFP32 : FloatFmt := ⟨8, 23, 127, 2 ^ 24 - 1, 104, true, true⟩
def fmtBF16 : FloatFmt := ⟨8, 7, 127, 255, 120, true, true⟩
def fmtFP16 : FloatFmt := ⟨5, 10, 15, 2047, 5, true, true⟩
def fmtE5M2 : FloatFmt := ⟨5, 2, 15, 7, 13, true, true⟩
def fmtE4M3 : FloatFmt := ⟨4, 3, 7, 14, 5, false, true⟩
def fmtE3M2 : FloatFmt := ⟨3, 2, 3, 7, 2, false, false⟩
def fmtE2M3 : FloatFmt := ⟨2, 3, 1, 15, -1, false, false⟩
def fmtE2M1 : FloatFmt := ⟨2, 1, 1, 3, 1, false, false⟩

/-- The width of an encoding in bits. -/
def FloatFmt.width (f : FloatFmt) : Nat := 1 + f.eb + f.mb

/-- The canonical NaN of a format that has one (Table 02-3). -/
def FloatFmt.nanCode (f : FloatFmt) : Nat :=
  if f.hasInf then (2 ^ f.eb - 1) * 2 ^ f.mb + 2 ^ (f.mb - 1) else 2 ^ (f.eb + f.mb) - 1

def FloatFmt.infCode (f : FloatFmt) (neg : Bool) : Nat :=
  (if neg then 2 ^ (f.eb + f.mb) else 0) + (2 ^ f.eb - 1) * 2 ^ f.mb

/-- The value of a code (R37). -/
def FloatFmt.decode (f : FloatFmt) (c : Nat) : Num :=
  let s := c / 2 ^ (f.eb + f.mb) % 2 = 1
  let e := c / 2 ^ f.mb % 2 ^ f.eb
  let m := c % 2 ^ f.mb
  if f.hasInf && e = 2 ^ f.eb - 1 then (if m = 0 then .inf s else .nan)
  else if !f.hasInf && f.hasNan && e = 2 ^ f.eb - 1 && m = 2 ^ f.mb - 1 then .nan
  else if e = 0 then .fin s m (1 - f.bias - f.mb)
  else .fin s (2 ^ f.mb + m) ((e : Int) - f.bias - f.mb)

/-- The result of rounding a finite magnitude n / d * 2^e onto a float grid continued past its largest value (R53):
the rounded magnitude q * 2^g. -/
def FloatFmt.roundMag (f : FloatFmt) (rm : RM) (n d : Nat) (e : Int) : Nat × Int :=
  if n = 0 then (0, 1 - f.bias - f.mb)
  else
    let l := max (flog2 n d + e) (1 - f.bias)
    let g := l - f.mb
    let q := roundQ rm n d e g
    if q = 2 ^ (f.mb + 1) then (2 ^ f.mb, g + 1) else (q, g)

/-- Does q * 2^g pass the largest finite magnitude? -/
def FloatFmt.tooBig (f : FloatFmt) (q : Nat) (g : Int) : Bool :=
  let b := min g f.maxE
  decide (q * 2 ^ (g - b).toNat > f.maxM * 2 ^ (f.maxE - b).toNat)

/-- The code of a rounded magnitude that fits. -/
def FloatFmt.pack (f : FloatFmt) (neg : Bool) (q : Nat) (g : Int) : Nat :=
  let s := if neg then 2 ^ (f.eb + f.mb) else 0
  if q < 2 ^ f.mb then s + q else s + (g + f.mb + f.bias).toNat * 2 ^ f.mb + (q - 2 ^ f.mb)

/-- The code of the largest finite magnitude. -/
def FloatFmt.maxCode (f : FloatFmt) (neg : Bool) : Nat :=
  let l : Int := (Nat.log2 f.maxM : Int) - f.mb
  f.pack neg (if 0 ≤ l then f.maxM / 2 ^ l.toNat else f.maxM * 2 ^ (-l).toNat) (f.maxE + l)

/-- A code and the arithmetic flags its making sets (R55). -/
structure Enc where
  code : Nat
  ovf : Bool
  inv : Bool
  deriving DecidableEq, Repr

def Enc.clean (c : Nat) : Enc := ⟨c, false, false⟩

/-- A finite overflow into a float format (Table 02-7). -/
def FloatFmt.overflow (f : FloatFmt) (sat neg : Bool) : Enc :=
  if sat then ⟨f.maxCode neg, true, false⟩
  else if f.hasInf then ⟨f.infCode neg, true, false⟩
  else if f.hasNan then ⟨f.nanCode, true, false⟩
  else ⟨f.maxCode neg, true, false⟩

/-- Encode the rational value (-1)^neg * n / d * 2^e. -/
def FloatFmt.encodeQ (f : FloatFmt) (rm : RM) (sat neg : Bool) (n d : Nat) (e : Int) : Enc :=
  let (q, g) := f.roundMag rm n d e
  if f.tooBig q g then f.overflow sat neg else .clean (f.pack neg q g)

/-- Encode a value into a float format (R50, R53). -/
def FloatFmt.encode (f : FloatFmt) (rm : RM) (sat : Bool) : Num → Enc
  | .nan => .clean f.nanCode
  | .inf n => if f.hasInf then .clean (f.infCode n) else f.overflow sat n
  | .fin n m e => f.encodeQ rm sat n m 1 e

/-- A value rounded to FP32 by RNE (R48, R51). -/
def rne32 (v : Num) : BitVec 32 := BitVec.ofNat 32 (fmtFP32.encode .rne false v).code

/-- The value of an FP32 word. -/
def f32 (w : BitVec 32) : Num := fmtFP32.decode w.toNat

/-- FP32 addition, multiplication and division with RNE. -/
def f32add (a b : BitVec 32) : BitVec 32 := rne32 (Num.add (f32 a) (f32 b))
def f32mul (a b : BitVec 32) : BitVec 32 := rne32 (Num.mul (f32 a) (f32 b))

def rneDiv (a b : Num) : BitVec 32 :=
  match a, b with
  | .nan, _ => rne32 .nan
  | _, .nan => rne32 .nan
  | .inf _, .inf _ => rne32 .nan
  | .inf x, .fin y _ _ => rne32 (.inf (x != y))
  | .fin x _ _, .inf y => rne32 (.fin (x != y) 0 0)
  | .fin x m e, .fin y m' e' =>
    if m' = 0 then (if m = 0 then rne32 .nan else rne32 (.inf (x != y)))
    else BitVec.ofNat 32 (fmtFP32.encodeQ .rne false (x != y) m m' (e - e')).code

/-- The division of two FP32 values. -/
def f32div (a b : BitVec 32) : BitVec 32 := rneDiv (f32 a) (f32 b)

/-- The run register's rounding: 15 fraction bits with no lower exponent limit, then the flush; overflow is infinity (R38, R47). -/
def roundRun : Num → Num
  | .fin n m e =>
    if m = 0 then .fin n 0 0
    else
      let l := flog2 m 1 + e
      let q := roundQ .rne m 1 e (l - 15)
      let (q, g) := if q = 2 ^ 16 then (2 ^ 15, l - 14) else (q, l - 15)
      if g + 15 < -126 then .fin n 0 0
      else if g + 15 > 127 then .inf n
      else .fin n q g
  | v => v

/-! ## Storage formats (Table 02-1) -/

/-- The kind of element a format code names. -/
inductive EKind where
  | int (w : Nat)
  | t2
  | mxint8
  | flt (f : FloatFmt)
  | fx64
  | accw
  deriving DecidableEq, Repr

/-- The element kind of a format code; none when the code is reserved (R35). -/
def ekind (code : Nat) : Option EKind :=
  match code with
  | 0x00 => some (.int 2)
  | 0x01 => some .t2
  | 0x02 => some (.int 4)
  | 0x03 => some (.flt fmtE2M1)
  | 0x04 => some (.flt fmtE3M2)
  | 0x05 => some (.flt fmtE2M3)
  | 0x06 => some (.flt fmtE4M3)
  | 0x07 => some (.flt fmtE5M2)
  | 0x08 => some (.flt fmtE4M3)
  | 0x09 => some (.flt fmtE5M2)
  | 0x0A => some .mxint8
  | 0x0B => some (.int 8)
  | 0x0C => some (.flt fmtBF16)
  | 0x0D => some (.flt fmtFP16)
  | 0x0E => some (.flt fmtFP32)
  | 0x0F => some .fx64
  | 0x10 => some .accw
  | _ => none

/-- Element width in bits (Table 02-1). -/
def ebits (code : Nat) : Nat :=
  match ekind code with
  | some (.int w) => w
  | some .t2 => 2
  | some .mxint8 => 8
  | some (.flt f) => f.width
  | some .fx64 => 64
  | some .accw => 32
  | none => 0

/-- Does the format carry a block scale? -/
def scaled (code : Nat) : Bool :=
  code == 0x01 || code == 0x03 || code == 0x04 || code == 0x05 || code == 0x08 || code == 0x09 || code == 0x0A

/-- INT2, INT4, INT8: the formats of the integer path (R44). -/
def isIntFmt (code : Nat) : Bool := code == 0x00 || code == 0x02 || code == 0x0B

/-- The formats the arrays take (R13, R44). -/
def arrayFmt (code : Nat) : Bool := decide (code ≤ 0x0D)

/-- The width class of an array format in bits; MXFP6 counts as 8 (R44). -/
def rateBits (code : Nat) : Nat :=
  if code ≤ 0x01 then 2 else if code ≤ 0x03 then 4 else if code ≤ 0x0B then 8 else 16

/-- A w-bit two's complement code as an integer. -/
def sint (w c : Nat) : Int :=
  let c := c % 2 ^ w
  if c < 2 ^ (w - 1) then c else (c : Int) - (2 ^ w : Nat)

/-- An integer as a w-bit two's complement code. -/
def tcode (w : Nat) (i : Int) : Nat := (i % (2 ^ w : Nat)).toNat

/-- The value of an element code, its block scale apart (R37, R40). -/
def decodeElem (fmt c : Nat) : Num :=
  match ekind fmt with
  | some (.int w) => .ofInt (sint w c) 0
  | some .t2 => if c % 4 = 1 then .ofInt 1 0 else if c % 4 = 3 then .ofInt (-1) 0 else .zero
  | some .mxint8 => .ofInt (sint 8 c) (-6)
  | some (.flt f) => f.decode c
  | some .fx64 => .ofInt (sint 64 c) (-32)
  | some .accw => .ofInt (sint 32 c) 0
  | none => .zero

/-- The value of an element code under a scale byte (R42). -/
def decodeScaled (fmt c scale : Nat) : Num :=
  if scale % 256 = 255 then .nan else (decodeElem fmt c).scale2 ((scale % 256 : Nat) - 127)

/-- Clamp a rounded integer into [lo, hi], setting OVF outside. -/
def encInt (w : Nat) (lo hi v : Int) : Enc :=
  if v < lo then ⟨tcode w lo, true, false⟩ else if hi < v then ⟨tcode w hi, true, false⟩ else .clean (tcode w v)

/-- Encode a value into a fixed-point format of w bits whose step is 2^g (R53). -/
def encFixed (w : Nat) (g : Int) (rm : RM) : Num → Enc
  | .nan => ⟨0, false, true⟩
  | .inf n => ⟨tcode w (if n then -(2 ^ (w - 1) : Nat) else (2 ^ (w - 1) : Nat) - 1), true, false⟩
  | .fin n m e =>
    let q : Int := roundQ rm m 1 e g
    encInt w (-(2 ^ (w - 1) : Nat)) ((2 ^ (w - 1) : Nat) - 1) (if n then -q else q)

/-- Encode a value into an unscaled format (R50 to R53). -/
def encodeElem (fmt : Nat) (rm : RM) (sat : Bool) (v : Num) : Enc :=
  match ekind fmt with
  | some (.int w) => encFixed w 0 rm v
  | some .fx64 => encFixed 64 (-32) rm v
  | some .accw => encFixed 32 0 rm v
  | some (.flt f) => f.encode rm sat v
  | some .t2 => encFixed 2 0 rm v
  | some .mxint8 => encFixed 8 (-6) rm v
  | none => .clean 0

/-! ## Block-scaled encoding (R43, Tables 02-5 and 02-7) -/

/-- The exponent of the element type's largest normal value (Table 02-5). -/
def blockEmax (fmt : Nat) : Int :=
  match ekind fmt with
  | some (.flt f) => f.maxE + Nat.log2 f.maxM
  | _ => 0

/-- The largest finite magnitude of a list of values, as a value. -/
def maxMag (l : List Num) : Num :=
  l.foldl (fun a v => match v with
    | .fin _ m e => if Num.lt a (.fin false m e) then .fin false m e else a
    | _ => a) .zero

/-- One element code under the block exponent x. clampFlag: X was clamped at 127. -/
def encBlockElem (fmt : Nat) (rm : RM) (sat clampFlag : Bool) (x : Int) (v : Num) : Enc :=
  match ekind fmt, v with
  | some (.flt f), .fin n m e =>
    let (q, g) := f.roundMag rm m 1 (e - x)
    if f.tooBig q g then
      (if clampFlag then (if f.hasNan then f.overflow sat n else ⟨f.maxCode n, true, false⟩)
       else .clean (f.maxCode n))
    else .clean (f.pack n q g)
  | some (.flt f), .inf n => if f.hasNan then f.encode rm sat (.inf n) else ⟨f.maxCode n, true, false⟩
  | some .t2, .fin n m e =>
    let q := roundQ rm m 1 (e - x) 0
    let big := decide (q > 1)
    ⟨if q = 0 then 0 else if n then 3 else 1, big && clampFlag, false⟩
  | some .t2, .inf n => ⟨if n then 3 else 1, true, false⟩
  | some .mxint8, .fin n m e =>
    let q : Int := roundQ rm m 1 (e - x) (-6)
    let r := encInt 8 (-128) 127 (if n then -q else q)
    ⟨r.code, r.ovf && clampFlag, false⟩
  | some .mxint8, .inf n => ⟨if n then 128 else 127, true, false⟩
  | _, _ => .clean 0

/-- A block of at most 32 values as a scale byte and its element codes. rmOf gives each position its rounding mode. -/
def encBlock (fmt : Nat) (rmOf : Nat → RM) (sat : Bool) (vs : List Num) : Nat × List Nat × Bool × Bool :=
  let hasNan := vs.any Num.isNan
  let hasInf := vs.any Num.isInf
  let fp8 := fmt == 0x08 || fmt == 0x09
  if hasNan then (255, vs.map (fun _ => 0), false, false)
  else if hasInf && !fp8 && !sat then (255, vs.map (fun _ => 0), true, false)
  else
    let x0 : Int := match maxMag vs with
      | .fin _ 0 _ => -127
      | .fin _ m e => flog2 m 1 + e - blockEmax fmt
      | _ => -127
    let x := max (-127) (min 127 x0)
    let es := vs.zipIdx.map (fun (v, i) => encBlockElem fmt (rmOf i) sat (decide (x0 > 127)) x v)
    ((x + 127).toNat, es.map (·.code), es.any (·.ovf), es.any (·.inv))

/-! ## Packing of narrow elements (R36) -/

/-- The code of element i of w bits in a row of bytes. -/
def codeAt (w : Nat) (byteAt : Nat → Byte) (i : Nat) : Nat :=
  let b0 := i * w / 8
  let sh := i * w % 8
  let n := (sh + w + 7) / 8
  let word := (List.range n).foldr (fun k acc => (byteAt (b0 + k)).toNat + 256 * acc) 0
  word / 2 ^ sh % 2 ^ w

/-- Pack element codes of w bits into bytes, least significant bits first; the last byte is filled with zeros. -/
def packCodes (w : Nat) (cs : List Nat) : List Byte :=
  let word := cs.foldr (fun c acc => c % 2 ^ w + 2 ^ w * acc) 0
  (List.range ((cs.length * w + 7) / 8)).map (fun k => BitVec.ofNat 8 (word / 256 ^ k))

/-- The bytes of a row of n elements of w bits. -/
def rowBytes (w n : Nat) : Nat := (n * w + 7) / 8

/-- A little-endian number of n bytes. -/
def leNat (bs : List Byte) : Nat := bs.foldr (fun b acc => b.toNat + 256 * acc) 0

/-- A number as n little-endian bytes. -/
def leBytes (n v : Nat) : List Byte := (List.range n).map (fun k => BitVec.ofNat 8 (v / 256 ^ k))

end Sys2Proof.Machine
end

