-- ==== Sys2Proof/Machine/State.lean ====
section
/-! DEFINITION. The state of the block: everything the spec gives the Trelxus T16, as plain data, with the model's own
queue of waiting commands, and the state after reset. -/

namespace Sys2Proof.Machine

/-- Why the block would stop with a fault. The spec names no event that stops the block for good: every fault of an
item, a die or a supply is a next state, so no meaning of this model answers a fault. -/
inductive Fault where
  /-- Raised by no meaning; safe, since a run that stops proves nothing about the hardware. -/
  | stopped
  deriving DecidableEq, Repr

/-- Why a command has no meaning. DESIGN CHOICE: log 66. -/
inductive Refusal where
  /-- An arm of exec whose command has no meaning yet; safe: the run stops. -/
  | notModelled (mnemonic : String)
  deriving DecidableEq, Repr

/-! ## Memories -/

/-- A byte-addressed memory: the nonzero bytes by rising address, and the poisoned 32-byte sectors (R281, R317). -/
structure Mem where
  cells : List Host.Cell := []
  poison : List Nat := []
  deriving DecidableEq, Repr

/-! ## Terrace -/

/-- Where a pool's handle is when it is not Free (Table 05-4). -/
inductive HState where
  | held
  | queued
  | returning
  deriving DecidableEq, Repr

/-- One handle pool with its Turnout arbiter (R109 to R121, Tables 05-9 to 05-12). -/
structure Pool where
  valid : Bool := false
  rsz : Nat := 0
  base : Nat := 0
  count : Nat := 0
  used : Map HState := []
  minFree : Nat := 0
  idleGrants : Nat := 0
  waits : Map Nat := []
  deriving DecidableEq, Repr

/-- One lateral queue (R115 to R117, Table 05-13); back: space tokens that wait for a credit of their crossing. -/
structure LQueue where
  bound : Bool := false
  prod : Nat := 0
  cons : Nat := 0
  entries : List (BitVec 16) := []
  back : Nat := 0
  deriving DecidableEq, Repr

/-- What a Blocked thread waits for (Table 04-2, R353), with what it does when the wait ends. -/
inductive Wait where
  | sem (span : Bool) (i : Nat) (target : W32)
  | pop (h : Nat) (q : Nat)
  | push (h : Nat) (q : Nat) (v : BitVec 16) (seq : Nat)
  | fence (scope : Nat)
  | alloc (h : Nat) (pd : Nat) (pool : Nat) (seq : Nat) (got : Option (BitVec 16))
  | cut (d : BitVec 256) (ctl : W64) (pc : Nat)
  | take (sn : Nat) (pd : Nat) (lost : List Nat := [])
  | cis (sd : Nat) (pd : Nat) (answer : Option W64)
  | audit (sd : Nat) (answer : Option (W64 × W64))
  | load (w0 : W64) (pc : Nat)
  deriving DecidableEq, Repr

/-- The states of Table 04-2. -/
inductive ThreadSt where
  | idle
  | ready
  | blocked (w : Wait)
  | ended
  deriving DecidableEq, Repr

/-- A hardware thread (R80): state, PC and register file. s and d read 0 and h reads 0xFFFF where unlisted. -/
structure Thread where
  st : ThreadSt := .idle
  pc : BitVec 52 := 0
  s : Map W64 := []
  p : BitVec 8 := 1
  d : Map (BitVec 256) := []
  h : Map (BitVec 16) := []
  deriving DecidableEq, Repr

/-- The logical tile last written to an entry of an array by the instructions issued so far (R139, R216): gang mode, path, rows and columns. -/
structure AccTag where
  mode : Nat := 0
  int : Bool := true
  rows : Nat := 64
  cols : Nat := 64
  deriving DecidableEq, Repr

/-- A write of a terrace that waits: a scalar or descriptor store for its translation, its thread having gone on (R324, R353), or with a physical
address a write to a peer for room among the terrace's requests (R133). thr: who made it, once that is noted. -/
structure StoreWait where
  thr : Option Nat
  va : Nat
  bytes : List (Byte × Bool)
  pa : Option Nat := none
  deriving DecidableEq, Repr

/-- A stage instruction as the Intake forwarded it: its words, the registers it was issued with (R352), and its number in the
terrace's issue order. tile: for an EPI, the logical tile it drains. -/
structure Cmd where
  thr : Nat
  w0 : W64
  w1 : W64
  th : Thread
  seq : Nat := 0
  aud : Bool := false
  missed : Bool := false
  tile : Option AccTag := none
  deriving DecidableEq, Repr

/-- The contents of one region or packet: bytes, and the poisoned 32-byte sectors among them. -/
structure Img where
  bytes : List Byte := []
  bad : List Nat := []
  deriving DecidableEq, Repr

/-- One access of a stream, in stream order, for the fault record of R331. acc: 0 read, 1 write, 2 atomic. -/
structure Acc where
  va : Nat
  acc : Nat
  kind : Option Nat
  deriving DecidableEq, Repr

/-- How far a lane has come (R162, R168, R185): the outputs it has formed, the records it had emitted when it took a region with a poisoned header, the
records taken and emitted, the bytes compacted, and the rows completed. -/
structure LaneRec where
  formed : Nat := 0
  clean : Option Nat := none
  taken : Nat := 0
  emitted : Nat := 0
  bytes : Nat := 0
  rows : Nat := 0
  deriving DecidableEq, Repr

/-- A Canal request that waits on a bucket of its path (R333): its bytes, and what each Saddle port bucket is to be charged for it (Saddle, bucket and
bytes). -/
structure Owed where
  bytes : Nat
  ports : List (Nat × Nat × Nat) := []
  deriving DecidableEq, Repr

/-- What one unit of a terrace is executing: 0-15 a Sluice stream context, 16-19 a lane, 20 the Array, 21 the Epilogue, 22 the
Outflow, 23 the Headgate, 24 the receipt of a lateral transfer (R103, R104, R161). outs: the images still to be put in
regions drawn from pool and pushed to outQ; got: a filled region waiting for a place in outQ; held: the handles it frees at
its end; inp: the regions it has taken in, by input stream; ready: it has nothing left to do but those deliveries. -/
structure Exec where
  cmd : Cmd
  outs : List Img := []
  outQ : Nat := 16
  pool : Nat := 0
  got : Option (BitVec 16) := none
  held : List (BitVec 16) := []
  inp : List (List Img) := []
  ready : Bool := false
  bound : Option Nat := none
  accs : List Acc := []
  lane : LaneRec := {}
  owed : List Owed := []
  deriving DecidableEq, Repr

/-- A cached translation: allotment, page number in units of its size, page size log2, page address, permissions. -/
structure Tlb where
  allot : Nat
  va : Nat
  size : Nat
  pa : Nat
  perm : Nat
  deriving DecidableEq, Repr

/-- A residency entry (R283, Tables 11-9 and 11-10). -/
structure Resid where
  allot : Nat
  gen : W32
  base : Nat
  len : Nat
  last : Nat
  hit : Bool
  deriving DecidableEq, Repr

/-- One accumulator cell (R139): the 32-bit word, the path that last wrote it, its overflow tag, its poison bit and its
mode tag. -/
structure AccCell where
  w : W32 := 0
  flt : Bool := false
  ovf : Bool := false
  bad : Bool := false
  mode : Nat := 0
  deriving DecidableEq, Repr

/-- The panel an array holds, with its gang mode (R146, R372). -/
structure Panel where
  mode : Nat
  handle : BitVec 16
  img : Img
  deriving DecidableEq, Repr

/-- The thermal stages of Table 17-9 and Table 11-4. -/
inductive Stage where
  | normal
  | warm
  | hot
  | critical
  deriving DecidableEq, Repr

/-- The power state of a gateable domain (R478 to R480, Table 17-12). -/
inductive PState where
  | awake
  | drain
  | gated
  deriving DecidableEq, Repr

/-- One span record (R33, Tables 01-5 to 01-9). -/
structure Span where
  tag : Nat := 0
  rank : Nat := 0
  map : List Nat := []
  mrank : Nat := 0
  modules : Nat := 0
  rows : Nat := 0
  cols : Nat := 0
  mid : Nat := 0
  allot : Nat := 0
  det : Bool := false
  deriving DecidableEq, Repr

/-- A reach record in a home queue (R178, R179, Table 07-9): four 64-bit words. -/
structure Reach where
  slot : Nat
  w : List W64
  deriving DecidableEq, Repr

/-- The typical voltages of the operating points in mV, from OP0 up (Table 17-4). -/
def opTypical : List Nat := [560, 580, 600, 640, 680, 720, 760, 800]

/-- A terrace: its Intake, islands, stores and power state. recorded: the fault log holds its retirement (R427, R428); op: the operating point that the voltage left, or holds; mv and slewAt: the
voltage when the slew began, and when; duty, prevDuty: the limits of the target and of the point left; railDuty and railOp: those of its rail; ceil: its own thermal ceiling (R461, R462, R465, R473,
R482); fmax and vf: its maximum frequency in 10 MHz units and its fused voltages (R459, R460); wakeUntil: when its last wake ends (R480); replaying: the arrays whose failed run is computed again (R155, R156); rqWait: the wait counter of each thief at this home queue (R181); cycles: Intake cycles since the item's first issue (R380); checks: the checksum run registers, of
column c of array a at 128 a + c and of row r at 128 a + 64 + r (R152, R153); uncAt: the uncorrectable sectors of its stores in the last
second, of memory space m and sector n at m * 2^20 + n, with their times (R426). -/
structure Terrace where
  spans : Nat := 0
  span : Span := {}
  slot : Option Nat := none
  threads : Map Thread := []
  stores : List StoreWait := []
  lastIssue : Nat := 15
  firstIssue : Bool := false
  ibuf : List Nat := []
  sema : Map W32 := []
  resHits : BitVec 16 := 0
  pools : Map Pool := []
  lqs : Map LQueue := []
  cmdq : Map (List Cmd) := []
  execs : Map Exec := []
  seqno : Nat := 0
  partialPk : Map Nat := []
  acc : Map AccCell := []
  accTag : Map AccTag := []
  panels : Map Panel := []
  runLen : Nat := 7
  tol : Nat := 64
  gang : Nat := 0
  gangIssued : Nat := 0
  degraded : List Nat := []
  replaying : List Nat := []
  checks : Map W32 := []
  debug : Bool := false
  laneStat : Map Nat := []
  auditRuns : Nat := 0
  ws : Mem := {}
  as : Mem := {}
  ps : Mem := {}
  res : Map Resid := []
  lastAl : Option Nat := none
  scrub : Bool := false
  tlb : List Tlb := []
  pins : Map (List Tlb) := []
  tokens : Int := 0
  op : Nat := 0
  target : Nat := 0
  mv : Nat := 560
  slew : Bool := false
  slewAt : Nat := 0
  pstate : PState := .awake
  duty : Nat := 16
  prevDuty : Nat := 16
  railDuty : Nat := 16
  railOp : Nat := 7
  ceil : Nat := 7
  fmax : Nat := 150
  vf : List Nat := opTypical
  wakeUntil : Nat := 0
  retiring : Bool := false
  retired : Bool := false
  recorded : Bool := false
  reachQ : List Reach := []
  rqWait : Map Nat := []
  cycles : Nat := 0
  reachClosed : Bool := false
  uncAt : Map Nat := []
  deriving DecidableEq, Repr

/-! ## Saddle -/

/-- A Reservoir line (R299): 256-byte line number, per-sector valid and dirty bits, prefetched and not yet hit. -/
structure RLine where
  line : Nat
  valid : BitVec 4
  dirty : BitVec 4
  pf : Bool
  deriving DecidableEq, Repr

/-- A prefetcher (R304): the stream it serves, its last miss, its stride, the misses that agree and the next line. -/
structure Prefetcher where
  stream : Nat
  last : Nat
  stride : Int
  agree : Nat
  next : Nat
  used : Nat
  deriving DecidableEq, Repr

/-- A queued Sump job (R306, Table 11-5): its run, its record, and the next bag. -/
structure SumpJob where
  slot : Nat
  tg : Nat
  thr : Nat
  pc : Nat
  allot : Nat
  record : List Byte
  bad : Bool
  next : Nat
  accs : List Acc
  deriving DecidableEq, Repr

/-- An HBM stack (R295, R298). -/
structure Stack where
  failed : Bool := false
  stage : Stage := .normal
  temp : Nat := 0
  deriving DecidableEq, Repr

/-- A requester present at a Turnout arbiter: its class, and its transfers in order, each with the beats left and whether it is never revoked
(R342 to R344). -/
structure ArbReq where
  cls : Nat
  parts : List (Nat × Bool)
  deriving DecidableEq, Repr

/-- One Turnout arbiter (R342 to R344): wait counters, last winner, the holder of the grant with the beats it has moved, interrupted
progress by requester, the requesters present, and when it was last served. -/
structure Arb where
  waits : Map Nat := []
  last : Map Nat := []
  holder : Option Nat := none
  forced : Bool := false
  moved : Nat := 0
  progress : Map Nat := []
  reqs : Map ArbReq := []
  stamp : Nat := 0
  deriving DecidableEq, Repr

/-- A contribution packet on VC2 (R227 to R231, R446): the item's tag or GROUP, the target tile and its guard record as HBM
addresses, the tile's device virtual address, the elements by byte offset in the tile (code and poison), and who sent it. src: the die it comes
from; sent: it has been injected, and no route fence holds it back (R26); recVa: the record's device virtual address, of a packet of this module; old: an
invalidation waits for it (R329). -/
structure Contribution where
  allot : Nat
  slot : Option Nat
  tag : Nat
  tileVa : Nat
  tile : Nat
  record : Nat
  op : Nat
  fmt : Nat
  n1 : Nat
  ci : Nat
  elems : List (Nat × Nat × Bool)
  sender : Option (Nat × Nat)
  src : Nat := 0
  sent : Bool := true
  recVa : Option Nat := none
  old : Bool := false
  deriving DecidableEq, Repr

/-- A CIS operation that waits at an agent for a page, a slot, a swap or a scan (R263, R270): the terrace and command, the item's
tag and allotment, the token region of an APPEND, whether it has been tried, and whether it then met tokens already in place. -/
structure CisOp where
  tg : Nat
  cmd : Cmd
  tag : Nat
  allot : Nat
  img : Img
  replay : Bool
  tried : Bool := false
  deriving DecidableEq, Repr

/-- The operation, by its terrace and thread, that a swap-out of a sequence was begun for (R270). -/
structure OutFor where
  al : Nat
  seq : Nat
  tg : Nat
  thr : Nat
  deriving DecidableEq, Repr

/-- A request that waits at its Saddle for a port bucket (R333): a read with the cell errors it is to meet, a write, or a peer's packet, which is
performed for the owner of its window (R445). -/
inductive SadWait where
  | read (r : MemReq) (e : MemErrs)
  | write (r : MemReq) (bytes : List Byte) (bad : Bool)
  | peer (owner : Nat) (p : SkvPacket)
  deriving DecidableEq, Repr

/-- A Saddle. cisOps: operations its Cistern agent has taken; cisWait: those that wait, in order of arrival; cisNotes: read notices
(allotment, sequence, entry); cisOuts: the operations that swap-outs were begun for; cisScan: allotments whose control block is still to be scanned (R274). units: the Sump units that hold a bag
(R309); waits: the requests that wait for a port bucket, in order of arrival (R333). -/
structure Saddle where
  lines : Map RLine := []
  plru : Map (BitVec 15) := []
  pfs : Map Prefetcher := []
  sump : List SumpJob := []
  units : Map Nat := []
  vc2 : List Contribution := []
  cisOps : Nat := 0
  cisWait : List CisOp := []
  cisNotes : List (Nat × Nat × Nat) := []
  cisScan : List Nat := []
  cisOuts : List OutFor := []
  ptok : Map Int := []
  arbs : Map Arb := []
  stlb : List Tlb := []
  hbmStacks : Map Stack := []
  waits : List SadWait := []
  deriving DecidableEq, Repr

/-- A Flume context (R238 to R241): the terrace it came from, and the instruction. -/
structure FCtx where
  tg : Nat
  cmd : Cmd
  isAttn : Bool
  deriving DecidableEq, Repr

/-- A Flume lane (R238, R241, Table 10-13), with its regulator: the point it goes to, the voltage in mV and the time at which it last changed, the duty it had
then, and its own thermal ceiling. -/
structure FLane where
  ctxs : List FCtx := []
  running : Nat := 0
  used : Nat := 0
  failed : Bool := false
  pstate : PState := .awake
  target : Nat := 0
  mv : Nat := 560
  slewAt : Nat := 0
  prevDuty : Nat := 16
  ceil : Nat := 7
  deriving DecidableEq, Repr

/-! ## Journal, runs and queues -/

/-- A completion entry (Table 14-3). -/
structure Compl where
  seq : W32
  status : Nat
  fault : Nat
  ftg : Nat
  fthr : Nat
  err : BitVec 13
  poison : Nat
  cookie : W64
  fpc : Nat
  xltrec : Nat
  more : Nat
  replays : Nat
  span : Nat
  tag : Nat
  lat : Nat
  deriving DecidableEq, Repr

/-- The slot states of Table 15-3; a Free slot is absent. -/
inductive SlotSt where
  | accepted
  | running
  | committing
  | completed
  | posted
  deriving DecidableEq, Repr

/-- A journal slot (R410, Table 15-2). -/
structure Slot where
  st : SlotSt
  q : Nat
  seq : W32
  tag : Nat
  entry : List Byte
  compl : Option Compl
  replays : Nat
  atime : W32
  deriving DecidableEq, Repr

/-- The queue table's entry of one queue (R408): the four counts and the ring geometry. -/
structure QEnt where
  tail : W32 := 0
  acc : W32 := 0
  seq : W32 := 0
  head : W32 := 0
  sqBase : Nat := 0
  cqBase : Nat := 0
  log2sq : Nat := 6
  log2cq : Nat := 6
  deriving DecidableEq, Repr

/-- The retirement record (R427, Table 15-7). -/
structure RetRec where
  tgs : List Nat
  trigger : Nat
  ridge : Bool
  rstep : Nat
  deriving DecidableEq, Repr

/-- One journal copy (R408). -/
structure Journal where
  slots : Map Slot := []
  qtab : Map QEnt := []
  tags : Map Nat := []
  ret : Option RetRec := none
  steps : Nat := 0
  deriving DecidableEq, Repr

/-- What leaves the module when a journal step is complete (R409). -/
inductive Effect where
  | none
  | accept (q : Nat) (acc : W32)
  | start (slot : Nat)
  | commitCopy (slot : Nat)
  | completed (slot : Nat)
  | write (slot : Nat)
  | freed
  | replay (slot : Nat)
  | retStep (n : Nat)
  deriving DecidableEq, Repr

/-- A journal step (R409): the fields it writes in every copy, and its external effect. -/
structure JStep where
  slots : List (Nat × Option Slot) := []
  qs : List (Nat × QEnt) := []
  tags : List (Nat × Nat) := []
  ret : Option (Option RetRec) := none
  eff : Effect := .none
  deriving DecidableEq, Repr

/-- A cut job (R176, R177): its descriptor, budget and reach group, the next row and the first past the job, the entries of
the next row already placed, the numbers of the next reach and chain, the job's number, and who issued it. -/
structure CutJob where
  desc : BitVec 256
  budget : Nat
  rgrp : Nat
  begun : Bool
  row : Nat
  last : Nat
  seg : Nat
  seq : Nat
  chain : Nat
  job : Nat
  done : Bool
  tg : Nat
  thr : Nat
  pc : Nat
  accs : List Acc
  deriving DecidableEq, Repr

/-- A fault of an item: code, terrace, thread, PC (R355, R356). -/
structure ItemFault where
  code : Nat
  tg : Nat
  thr : Nat
  pc : Nat
  deriving DecidableEq, Repr

/-- A residency claim (R282): generation, base and length in 64 KiB units. -/
structure Claim where
  gen : W32
  base : Nat
  len : Nat
  deriving DecidableEq, Repr

/-- A commit record (R416): the address of the done word, and the ranges to copy: source, destination, length. -/
structure CommitRec where
  done : Nat
  ranges : List (Nat × Nat × Nat)
  deriving DecidableEq, Repr

/-- A dispatched item, by its journal slot: its span in rank order, its program header, and what it has met so far. -/
structure Run where
  allot : Nat
  q : Nat
  tag : Nat
  tgs : List Nat
  hd : Nat
  threads : Nat
  entry : Nat
  args : W64
  scrubbing : List Nat := []
  started : Bool := false
  done : List Nat := []
  stopped : Bool := false
  parked : Bool := false
  fault : Option ItemFault := none
  more : Nat := 0
  err : BitVec 13 := 0
  poison : Nat := 0
  xltrec : Nat := 0
  ss : Map W32 := []
  cut : Option CutJob := none
  jobs : Nat := 0
  modules : Nat := 1
  mrank : Nat := 0
  group : Nat := 0
  sumps : Nat := 0
  copied : Bool := false
  det : Bool := false
  loading : Bool := false
  commit : Option CommitRec := none
  deriving DecidableEq, Repr

/-- The live side of a queue: the counts the doorbell page shows and the interrupt state (Tables 14-10 and 14-11). order: the arrival number of the
doorbell that its oldest waiting entry came by (R391); unsent: the posted completions, by slot, that wait for a port, and whether each is still to be
counted; due: a message waits for a port (R383). -/
structure Que where
  tail : W32 := 0
  acc : W32 := 0
  seq : W32 := 0
  head : W32 := 0
  stopped : Bool := false
  tries : Nat := 0
  irqs : Nat := 0
  timer : Bool := false
  wait : Nat := 0
  order : Nat := 0
  unsent : List (Nat × Bool) := []
  due : Bool := false
  deriving DecidableEq, Repr

/-- A command of R386 in progress on an allotment. -/
inductive AllotCmd where
  | reset
  | kill
  deriving DecidableEq, Repr

/-- The live side of an allotment (R382, R386). -/
structure Allot where
  owner : Nat := 0
  rung : Bool := false
  cmd : Option AllotCmd := none
  scrubs : List Nat := []
  ghead : W32 := 0
  deriving DecidableEq, Repr

/-- A doorbell that arrived during a reset (R424): the Headwork it arrived on, allotment, queue, whether it is a CQ head, and its value. -/
structure Bell where
  hd : Nat
  allot : Nat
  q : Nat
  head : Bool
  v : W32
  deriving DecidableEq, Repr

/-- A Gauge packet: its words, and whether Table 14-7 marks it a notice. -/
structure Packet where
  words : List W64
  notice : Bool
  deriving DecidableEq, Repr

/-- A Gauge ring's FIFO share and counts (R399 to R402). -/
structure Ring where
  wcount : Nat := 0
  waiting : List Packet := []
  flush : Bool := false
  sinceOvf : Nat := 0
  posted : Nat := 0
  written : Nat := 0
  dropped : Nat := 0
  deriving DecidableEq, Repr

/-- A RAS record (Table 19-5). -/
structure RasRec where
  seq : W32
  time : W64
  sev : Nat
  code : Nat
  skind : Nat
  unit : Nat
  allot : Nat
  alv : Bool
  count : Nat
  detail : W64
  deriving DecidableEq, Repr

/-- A translation fault record (R331, Table 12-10). -/
structure XRec where
  va : Nat
  kind : Nat
  acc : Nat
  allot : Nat
  src : Nat
  count : Nat
  deriving DecidableEq, Repr

/-- A read of the host window that is not answered in full yet (R133, R324): the Headwork it left by, the terrace it is made for, the
allotment, its virtual address, and the sectors still to come. old: an invalidation has dropped its translation (R329). -/
structure HostReq where
  hd : Nat
  tg : Option Nat
  allot : Nat
  va : Nat
  secs : List Nat
  old : Bool := false
  deriving DecidableEq, Repr

/-- An invalidation in progress (R329). -/
structure Inval where
  scope : Nat
  allot : Nat
  va : Nat
  len : Nat
  deriving DecidableEq, Repr

/-- An admitted reservation (R336, R338): amounts in GB/s and the bucket of each of its six resources. -/
structure Rsv where
  allot : Nat
  index : Nat
  prio : Nat
  g0r : Nat
  g0w : Nat
  g1r : Nat
  g1w : Nat
  port : Nat
  fr : Nat
  fw : Nat
  tok : Map Int := []
  deriving DecidableEq, Repr

/-- A far-tier port (R311 to R316, Table 11-16). state: 0 Absent, 1 Training, 2 Up, 3 Up reduced, 4 Failed, 5 Resilver. -/
structure FarPort where
  state : Nat := 0
  switch : Bool := false
  width : Nat := 0
  rate : Nat := 0
  cap : Nat := 0
  deriving DecidableEq, Repr

/-- A lateral transfer (R102, R207, R208, R379). -/
structure Xfer where
  src : Nat
  thr : Nat
  pc : Nat
  sent : Bool
  rot : Bool
  hand : BitVec 16
  dst : Nat
  tag : Nat
  dtag : Nat
  q : Nat
  pool : Nat
  ls : Nat
  img : Img
  deriving DecidableEq, Repr

/-! ## Skovuk (chapter 16) -/

/-- A Skovuk port (R433 to R439, Table 16-3). state: 0 Down, 1 Training, 2 Up, 3 Up on fewer lanes. txSeq: the LSEQ of the next
flit; retry: the flits held until acknowledged, by LSEQ, with their packets and their places in them; rxNext: the LSEQ expected; asked: a replay is
asked for; removed: the lanes removed since the port last trained for another reason (R434); sent: credits in use by channel; owed: credits to return; waitQ: packets that wait for credits or room. -/
structure SkvPort where
  state : Nat := 0
  mgr : Bool := false
  lanes : BitVec 8 := 0
  partner : Nat := 0
  rtt : Nat := 0
  txSeq : BitVec 16 := 0
  retry : List (BitVec 16 × SkvPacket × Nat) := []
  tries : Nat := 0
  rxNext : BitVec 16 := 0
  asked : Bool := false
  removed : BitVec 8 := 0
  sent : Map Nat := []
  owed : Map Nat := []
  waitQ : List SkvPacket := []
  deriving DecidableEq, Repr

/-- What a packet is sent for: the terrace and its thread (none for an agent or the queue engine), the item, and the virtual address. -/
structure Origin where
  tg : Option Nat
  thr : Option Nat
  slot : Option Nat
  va : Nat
  deriving DecidableEq, Repr

/-- A packet held until it is acknowledged end to end (R442): the Headwork that holds it, and what it was sent for. -/
structure Held where
  hd : Nat
  origin : Option Origin
  pkt : SkvPacket
  deriving DecidableEq, Repr

/-- One end-to-end stream (R442): the number of the next packet to a destination, the packets held until acknowledged, and the
number expected from the same module or endpoint. -/
structure E2e where
  next : W32 := 0
  held : List Held := []
  expect : W32 := 0
  deriving DecidableEq, Repr

/-- An inbound window entry (R444): SKV_WIN_BASE, LEN, SRC and SAL of Table 16-3. -/
structure SkvWin where
  base : W32 := 0
  len : W32 := 0
  src : W32 := 0
  sal : W32 := 0
  deriving DecidableEq, Repr

/-- A request to a peer that is not answered yet (R443 to R445): its destination and number, whether it writes, the virtual and
device physical address, its length, the allotment, the source code of a fault record, the item, its terrace and thread. old: an invalidation
has dropped its translation (R329); dead: the run that made it is over, and no stream takes its answer. -/
structure SkvReq where
  dest : Nat
  eseq : W32
  wr : Bool
  va : Nat
  addr : Nat
  len : Nat
  allot : Nat
  src : Nat
  slot : Option Nat
  tg : Option Nat
  thr : Option Nat := none
  old : Bool := false
  dead : Bool := false
  deriving DecidableEq, Repr

/-! ## The state -/

/-- The module states of Table 00-7. -/
inductive Mode where
  | off
  | standby
  | boot
  | maintenance
  | ready
  | draining
  | faulted
  deriving DecidableEq, Repr

/-- The responses of Exmas (R510). -/
inductive ExStatus where
  | success
  | busy
  | badState
  | invalid
  deriving DecidableEq, Repr

/-- What leaves the module toward its outside, oldest first (the model's own record). flits: n flits sent again from LSEQ first, and
with n = 0 a replay request that asks for first. reply: an answer of a management protocol: 0 MCTP control, 1 PLDM monitoring, 2 firmware
update, 3 SPDM; its words, and the values the spec leaves open. DESIGN CHOICE: log 4. -/
inductive OutMsg where
  | msix (port : Nat) (fn : Nat) (vector : Nat)
  | data (bytes : List Byte) (bad : Bool)
  | skv (p : SkvPacket)
  | flit (port : Nat) (bytes : List Byte)
  | report (port : Nat) (id : Nat) (mgr : Bool)
  | hostRead (hd : Nat) (fn : Nat) (addr : Nat) (len : Nat)
  | hostWrite (hd : Nat) (fn : Nat) (addr : Nat) (bytes : List Byte) (bad : Bool)
  | atsDone (hd : Nat) (addr : Nat)
  | exmas (st : ExStatus) (words : List Nat)
  | event (words : List Nat)
  | reply (kind : Nat) (ok : Bool) (words : List Nat) (free : List W64)
  | tap (hd : Nat) (v : Nat)
  deriving DecidableEq, Repr

/-- A feed (R451 to R454): within range, valid, its voltage in tenths of a volt, and whether its mate pin is open (R533). DESIGN CHOICE: log 5. -/
structure Feed where
  inRange : Bool := true
  valid : Bool := true
  volts : Nat := 540
  mateOpen : Bool := false
  deriving DecidableEq, Repr

/-- A converter or rail (R458, R473 to R476). st: 0 measured, 1 phase lost, 2 estimate, 3 failed; lost: phases down; ceil: its ceiling
once a fault has lowered it; missed, disagree: samples in a row; volts, current, temp: its last readings in mV, mA and degrees; held: the voltage in mV at
which Freeboard holds a ridge rail. -/
structure Rail where
  st : Nat := 0
  lost : Nat := 0
  ceil : Option Nat := none
  pwr : Nat := 0
  missed : Nat := 0
  disagree : Nat := 0
  volts : Nat := 0
  current : Nat := 0
  temp : Nat := 0
  held : Nat := 600
  deriving DecidableEq, Repr

/-- A BUDGET grant (R449, Table 16-2). -/
structure Grant where
  epoch : W32
  capmax : Nat
  capmin : Nat
  ramp : Nat
  life : Nat
  stale : Bool
  deriving DecidableEq, Repr

/-- What the primary Freeboard holds and sends to its shadow (R463 to R472): duty and operating point of the module, the lowest and
highest duty of the running millisecond, the rung, whether Express terraces are lowered, power, power withheld, FLOOR, milliseconds at a
low FLOOR, the grant, the coolant with the ceiling it sets, the target that descends to a lowered cap, and what FLOOR changes by, in mW, with each
terrace; win: the mean input power of the last 100 µs window, with the ballast in it and the rise that the ramp holds back (R455, R456); winN, winSum, balSum:
the windows of the running millisecond with their power and ballast, and balMs the mean ballast of the last (R472). DESIGN CHOICE: log 7. -/
structure Freeboard where
  duty : Nat := 16
  op : Nat := 0
  dutyLow : Nat := 16
  dutyHigh : Nat := 16
  rung : Nat := 0
  xlow : Bool := false
  pwr : Nat := 0
  withheld : Nat := 0
  floor : Nat := 0
  unach : Bool := false
  okMs : Nat := 0
  grant : Option Grant := none
  bootCap : Nat := 1500
  inlet : Nat := 0
  outlet : Nat := 0
  flow : Nat := 0
  coolCap : Nat := 2800
  target : Nat := 2800
  perTerrace : Nat := 0
  win : Option Nat := none
  ballast : Nat := 0
  rising : Nat := 0
  winN : Nat := 0
  winSum : Nat := 0
  balSum : Nat := 0
  balMs : Nat := 0
  deriving DecidableEq, Repr

/-- A junction sensor (R482), with the rungs its die has taken for a rail (R473). DESIGN CHOICE: log 7. -/
structure Sensor where
  tj : Nat := 0
  stage : Stage := .normal
  rung : Nat := 0
  deriving DecidableEq, Repr

/-- A firmware image in a flash slot (R499): valid, version, security version, and for a manifest its version and its entries, where the
update that wrote it gave them. -/
structure Image where
  valid : Bool := false
  ver : Nat := 0
  svn : Nat := 0
  entries : Option (List (Nat × Nat × Nat)) := none
  deriving DecidableEq, Repr

/-- The non-volatile configuration (R488), with the sequence number of the copy. slots: the active slot of each component, B when set. -/
structure Nv where
  seq : Nat := 0
  guarded : Bool := true
  mir : Map W32 := []
  id : W32 := 0
  mgr : Byte := 0
  bootCap : Nat := 1500
  slots : List Bool := [false, false, false]
  deriving DecidableEq, Repr

/-- A firmware update in progress (R507): the component, the image to come, and whether its slot holds the verified image. -/
structure Update where
  comp : Nat
  ver : Nat
  svn : Nat
  verified : Bool
  deriving DecidableEq, Repr

/-- What boot chose (R500 to R503): the running slots, versions in force, the matching entry of the manifest, activations that wait, and
those that carry RAISE_SVN. DESIGN CHOICE: log 6. -/
structure Firmware where
  run : List Bool := [false, false, false]
  vers : List Nat := [0x02030001, 0x01090003, 1]
  found : Nat := 0
  pend : List Bool := [false, false, false]
  raised : List Bool := [false, false, false]
  svnMin : List Nat := [0, 0, 0]
  deriving DecidableEq, Repr

/-- A boot in progress (R490, R500): its kind and source as RST_CAUSE codes them, the state it ends in, the Headworks whose Rider the
watchdog has restarted, and whether the restore has come to the Cistern scans (R424). -/
structure Reset where
  kind : Nat
  source : Nat
  goal : Mode
  wdog : List Nat := []
  scan : Bool := false
  deriving DecidableEq, Repr

/-- A queued Exmas event (R511): its words, and the events dropped from the queue since the one before it. -/
structure ExEvent where
  words : List Nat
  dropped : Nat
  deriving DecidableEq, Repr

/-- A die's test access port (R541, R542). ir: 0 IDCODE, 1 BYPASS, 2 SAMPLE/PRELOAD, 3 EXTEST, 4 the IEEE 1687 network. -/
structure Tap where
  ir : Nat := 0
  boundary : Nat := 0
  net : Nat := 0
  deriving DecidableEq, Repr

/-- A PCIe host port (Table 14-12). state: 0 Down, 1 Training, 2 Up, 3 Up at reduced width or rate. DESIGN CHOICE: log 80. -/
structure HostPort where
  state : Nat := 0
  width : Nat := 0
  rate : Nat := 0
  deriving DecidableEq, Repr

/-- The fused values of CAP_DIES, CAP_MEM and CAP_IO of a TXM-1620-LQ (Table 19-4, Reset column). DESIGN CHOICE: log 6. -/
def documentedFuses : List W32 := [0x81042800#32, 0xC3008000#32, 0xA2200000#32]

/-- The terrace's reset values: every field at the value its chapter gives for reset. -/
def Terrace.reset : Terrace := {}

/-- The whole block. -/
structure State where
  pending : List Instr := []
  freeCtr : Nat := 0
  clockNs : Nat := 0
  out : List OutMsg := []
  mode : Mode := .ready
  freason : Nat := 0
  tripped : Bool := false
  regs : Map W32 := []
  ctrs : Map W64 := []
  shadows : Map W32 := []
  rwSaved : Map W32 := []
  ras : List RasRec := []
  rasNext : W32 := 0
  intPend : BitVec 16 := 0
  terraces : Map Terrace := []
  lanes : Map FLane := []
  saddles : Map Saddle := []
  lats : List Xfer := []
  canalAlt : List (Nat × Nat) := []
  canalFence : List (Nat × Nat) := []
  hbm : Mem := {}
  far : Mem := {}
  host : Mem := {}
  peer : Mem := {}
  hbmPoison : List Nat := []
  guarded : Bool := true
  ats : Map (List Tlb) := []
  atsWant : List (Nat × Nat × Nat) := []
  got : List Nat := []
  hostReqs : List HostReq := []
  atsPend : List (Nat × Nat × List Nat) := []
  skv : Map SkvPort := []
  skvArbs : Map Arb := []
  rte : Map W32 := []
  win : Map SkvWin := []
  e2e : Map E2e := []
  skvWait : List (Option Origin × SkvPacket) := []
  skvReqs : List SkvReq := []
  mgmtIn : List (Nat × List Byte) := []
  resetting : Option Reset := none
  mir : Map W32 := []
  farPorts : Map FarPort := []
  farDevs : Map Expander := []
  jrn0 : Journal := {}
  jrn1 : Journal := {}
  jsteps : List JStep := []
  jfull : Bool := false
  bellNo : Nat := 0
  resumeTo : Nat := 0
  runs : Map Run := []
  ques : Map Que := []
  allots : Map Allot := []
  rings : Map Ring := []
  rr : Map Nat := []
  bells : List Bell := []
  awakeMax : Nat := 64
  feeds : Map Feed := []
  feedB : Bool := false
  discharging : Option Nat := none
  fb : Freeboard := {}
  fbShadow : Freeboard := {}
  fbSync : Nat := 0
  capGuard : Bool := false
  rails : Map Rail := []
  sensors : Map Sensor := []
  ridgePower : Map PState := []
  ridgeFailed : List Nat := []
  nv0 : Nv := { seq := 1 }
  nv1 : Nv := {}
  nvNew : List Nat := []
  flash : Map Image := [(0, { valid := true, ver := 0x02030001 }), (2, { valid := true, ver := 0x01090003 }),
    (4, { valid := true, ver := 1, entries := some [(0x11, 0x02030001, 0x01090003)] })]
  fw : Firmware := {}
  fuses : List W32 := documentedFuses
  update : Option Update := none
  diag : Option Nat := none
  eid : Byte := 0x1D
  perst : List Nat := []
  xperst : List Nat := []
  flog : List XRec := []
  inv : Option Inval := none
  invQ : List Inval := []
  rsvs : List Rsv := []
  rsvRevoked : List (Nat × Nat) := []
  rsvDue : Option Nat := none
  taps : Map Tap := []
  shares : Map Int := []
  redivide : List Nat := []
  retQ : List (Nat × List Nat) := []
  hdFailed : List Nat := []
  hostPorts : Map HostPort := []
  evq : List ExEvent := []
  receiver : Byte := 0
  hwEpoch : Nat := 0
  deriving DecidableEq, Repr

/-- The machine right after reset: the end of a power-on of a healthy module, in Ready. DESIGN CHOICE: log 5. -/
def State.reset : State := { regs := [(0x170008, 0xD0000000#32)] }

end Sys2Proof.Machine
end

