-- ==== Sys2Proof/Machine/Memory.lean ====
section
/-! DEFINITION. Bytes and poison in every tier: the terrace stores, HBM with its parity stripes, the far tier with its
mirrored ranges, host memory and the peer windows (11 R280 to R317, 12 R322, R323). -/

namespace Sys2Proof.Machine

/-! ## One memory -/

/-- The byte at an address; an address not listed reads 0 (Table 11-1: the stores are scrubbed to zero). -/
def cellGet (l : List Host.Cell) (a : Nat) : Byte :=
  match l with
  | [] => 0
  | c :: r => if c.1 = a then c.2 else cellGet r a

/-- Insert a cell, keeping the addresses rising. -/
def cellIns (l : List Host.Cell) (a : Nat) (b : Byte) : List Host.Cell :=
  match l with
  | [] => [(a, b)]
  | c :: r => if a < c.1 then (a, b) :: c :: r else c :: cellIns r a b

/-- Write a byte: a zero removes the entry, since an unlisted address reads 0. -/
def cellSet (l : List Host.Cell) (a : Nat) (b : Byte) : List Host.Cell :=
  let l' := l.filter (fun c => c.1 ≠ a)
  if b = 0 then l' else cellIns l' a b

/-- Strictly rising numbers. -/
def rising : List Nat → Bool
  | [] => true
  | [_] => true
  | a :: b :: r => decide (a < b) && rising (b :: r)

/-- The canonical form: addresses strictly rising, no zero byte listed, poisoned sectors strictly rising. -/
def Mem.wf (m : Mem) : Bool :=
  rising (m.cells.map (·.1)) && m.cells.all (fun c => c.2 != 0) && rising m.poison

def Mem.get (m : Mem) (a : Nat) : Byte := cellGet m.cells a

/-- Is the 32-byte sector of an address poisoned (R281)? -/
def Mem.bad (m : Mem) (a : Nat) : Bool := m.poison.contains (a / 32)

def Mem.put (m : Mem) (a : Nat) (b : Byte) : Mem := { m with cells := cellSet m.cells a b }

/-- Insert a number into a rising list with no repeats, after removing it. -/
def sectorIns (l : List Nat) (k : Nat) : List Nat :=
  match l with
  | [] => [k]
  | a :: r => if k < a then k :: a :: r else a :: sectorIns r k

/-- Set or clear the poison of a sector. -/
def sectorSet (l : List Nat) (k : Nat) (b : Bool) : List Nat :=
  let l' := l.filter (fun a => a ≠ k)
  if b then sectorIns l' k else l'

/-- The data of an access: each byte with the poison of its sector. -/
abbrev PByte := Byte × Bool

/-- The new poison of a sector of which a write covers n bytes (R281): a whole-sector write takes the poison of the data, a
partial one can only set it. -/
def poisonAfter (old data : Bool) (n : Nat) : Bool := if n = 32 then data else old || data

/-- Write the bytes of one sector, from offset o in it. -/
def Mem.putBytes (m : Mem) (a : Nat) (bs : List Byte) : Mem :=
  match bs with
  | [] => m
  | b :: r => (m.put a b).putBytes (a + 1) r

/-- Sectors become poisoned. -/
def sectorsBad (l secs : List Nat) : List Nat := secs.foldl (fun l k => sectorSet l k true) l

/-- Write bytes that lie in one sector. -/
def Mem.writeSector (m : Mem) (a : Nat) (bs : List PByte) : Mem :=
  let m' := m.putBytes a (bs.map (·.1))
  { m' with poison := sectorSet m'.poison (a / 32) (poisonAfter (m.bad a) (bs.any (·.2)) bs.length) }

/-- Cut an access into the parts that lie in one 32-byte sector each: (offset from the start, length). -/
def sectorParts (a n : Nat) : List (Nat × Nat) :=
  if n = 0 then []
  else
    let first := a / 32
    let last := (a + n - 1) / 32
    (List.range (last - first + 1)).map (fun k =>
      let lo := max a ((first + k) * 32)
      let hi := min (a + n) ((first + k + 1) * 32)
      (lo - a, hi - lo))

/-- Write bytes anywhere, sector by sector. -/
def Mem.write (m : Mem) (a : Nat) (bs : List PByte) : Mem :=
  (sectorParts a bs.length).foldl (fun m p => m.writeSector (a + p.1) ((bs.drop p.1).take p.2)) m

/-- Read n bytes with their poison. -/
def Mem.read (m : Mem) (a n : Nat) : List PByte := (List.range n).map (fun k => (m.get (a + k), m.bad (a + k)))

/-- Scrub a range: zero bytes, no poison (R287). -/
def Mem.scrub (m : Mem) (lo hi : Nat) : Mem :=
  { cells := m.cells.filter (fun c => c.1 < lo || hi ≤ c.1)
    poison := m.poison.filter (fun k => k * 32 < lo || hi ≤ k * 32) }

/-- Mark the sectors of a range poisoned. DESIGN CHOICE: log 68. -/
def Mem.mark (m : Mem) (a n : Nat) : Mem :=
  { m with poison := (sectorParts a n).foldl (fun l p => sectorSet l ((a + p.1) / 32) true) m.poison }

/-- The bytes of an image, each with the poison of its sector. -/
def Img.pbytes (i : Img) : List PByte := i.bytes.zipIdx.map (fun (b, k) => (b, i.bad.contains (k / 32)))

/-- Bytes with poison as an image. -/
def imgOf (l : List PByte) : Img :=
  { bytes := l.map (·.1)
    bad := ((List.range ((l.length + 31) / 32)).filter (fun k => ((l.drop (32 * k)).take 32).any (·.2))) }

/-! ## Accessors of the numbered parts -/

def terrace (s : State) (tg : Nat) : Terrace := mget s.terraces tg Terrace.reset
def setTerrace (s : State) (tg : Nat) (t : Terrace) : State := { s with terraces := mset s.terraces tg t }
def updTerrace (s : State) (tg : Nat) (f : Terrace → Terrace) : State := setTerrace s tg (f (terrace s tg))
def saddle (s : State) (n : Nat) : Saddle := mget s.saddles n {}
def updSaddle (s : State) (n : Nat) (f : Saddle → Saddle) : State :=
  { s with saddles := mset s.saddles n (f (saddle s n)) }
def stackOf (s : State) (k : Nat) : Stack := mget (saddle s (k / 6)).hbmStacks (k % 6) {}
def farPort (s : State) (p : Nat) : FarPort := mget s.farPorts p {}
def rg (s : State) (off : Nat) (d : W32) : W32 := mget s.regs off d
def setRg (s : State) (off : Nat) (v : W32) : State := { s with regs := mset s.regs off v }

/-! ## HBM (R291 to R296) -/

/-- The capacity of the mode (R291). -/
def hbmCap (guarded : Bool) : Nat := if guarded then 480 * 2 ^ 30 else 576 * 2 ^ 30

/-- The home Saddle of an HBM or far-tier address (R292, R299). -/
def homeSaddle (a : Nat) : Nat := a / 4096 % 2

/-- The group offset GO of an address (R292). -/
def groupOff (a : Nat) : Nat := a / 8192 * 4096 + a % 4096

/-- Where a byte lies: stack number within the group and stack offset (R292). -/
def hbmPlace (guarded : Bool) (a : Nat) : Nat × Nat :=
  let go := groupOff a
  let u := go / 256
  let o := go % 256
  if guarded then
    let t := u / 5
    let j := u % 5
    let par := t % 6
    (if j < par then j else j + 1, t * 256 + o)
  else (u % 6, u / 6 * 256 + o)

/-- The stack that holds the parity of a byte's stripe (R292). -/
def parityStack (a : Nat) : Nat := groupOff a / 256 / 5 % 6

/-- The key of a byte of stack k (0-5) of group g at a stack offset. -/
def hbmKey (g k off : Nat) : Nat := (6 * g + k) * 2 ^ 40 + off

/-- The group state: 0 healthy, 1 Degraded, 2 Lost (R295). -/
def groupState (s : State) (g : Nat) : Nat :=
  let n := ((List.range 6).filter (fun k => (stackOf s (6 * g + k)).failed)).length
  if n = 0 then 0 else if s.guarded && n = 1 then 1 else 2

/-- The byte of HBM address a: from its stack, or from the other five of its stripe when its stack is Failed (R296). -/
def hbmGet (s : State) (a : Nat) : Byte :=
  let g := homeSaddle a
  let (k, off) := hbmPlace s.guarded a
  if groupState s g = 2 then 0
  else if (stackOf s (6 * g + k)).failed then
    ((List.range 6).filter (fun j => j ≠ k)).foldl (fun x j => x ^^^ s.hbm.get (hbmKey g j off)) 0
  else s.hbm.get (hbmKey g k off)

/-- Is the sector of an HBM address poisoned? A Lost group delivers everything poisoned (R295). DEDUCED: log 37. DESIGN CHOICE: log 68. -/
def hbmBad (s : State) (a : Nat) : Bool := groupState s (homeSaddle a) = 2 || s.hbmPoison.contains (a / 32)

/-- Write a byte of HBM with its parity (R294, R296): a Failed stack is not written, and parity stays consistent with the
unit it would hold. -/
def hbmPut (s : State) (a : Nat) (b : Byte) : State :=
  let g := homeSaddle a
  let (k, off) := hbmPlace s.guarded a
  if groupState s g = 2 then s
  else
    let old := hbmGet s a
    let m := if (stackOf s (6 * g + k)).failed then s.hbm else s.hbm.put (hbmKey g k off) b
    let p := parityStack a
    let m := if s.guarded && !(stackOf s (6 * g + p)).failed then
      m.put (hbmKey g p off) (m.get (hbmKey g p off) ^^^ old ^^^ b) else m
    { s with hbm := m }

/-! ## Device physical space (Table 12-1) -/

/-- The parts of the device physical space. -/
inductive Tier where
  | hbm
  | far (port : Nat)
  | host
  | peer (m : Nat)
  | hole
  deriving DecidableEq, Repr

def farBase : Nat := 0x100000000000
def hostBase : Nat := 0x80000000000000
def peerBase : Nat := 0xC0000000000000

def tierOf (s : State) (a : Nat) : Tier :=
  if a < hbmCap s.guarded then .hbm
  else if farBase ≤ a && a < farBase + 8 * 0x20000000000 then .far ((a - farBase) / 0x20000000000)
  else if hostBase ≤ a && a < peerBase then .host
  else if peerBase ≤ a && a < 0x100000000000000 then .peer ((a - peerBase) / 2 ^ 40)
  else .hole

/-- Is a far port able to serve an access at an offset: Up, within its capacity (R313)? -/
def farServes (s : State) (p off : Nat) : Bool :=
  let f := farPort s p
  (f.state = 2 || f.state = 3) && off < f.cap * 2 ^ 30

/-- Does a far port take writes and unmirrored reads: Up, or a new expander being resilvered (R316)? -/
def farOpen (s : State) (p off : Nat) : Bool :=
  let f := farPort s p
  (f.state = 2 || f.state = 3 || f.state = 5) && off < f.cap * 2 ^ 30

/-- Is an offset of a port in the mirrored range of its pair (R315, FAR_MIRp of Table 11-16)? -/
def mirrored (s : State) (p off : Nat) : Bool :=
  let m := mget s.mir (p % 4) 0
  bit m 31 && fld m 0 12 * 2 ^ 30 ≤ off && off < (fld m 0 12 + fld m 12 12) * 2 ^ 30

/-- One byte read from the far tier: the byte, its poison, whether it is a far-tier error (R313), whether it came from the
partner port (R315). DESIGN CHOICE: log 8. -/
def farGet (s : State) (a : Nat) : Byte × Bool × Bool × Bool :=
  let p := (a - farBase) / 0x20000000000
  let off := (a - farBase) % 0x20000000000
  let at' (q : Nat) : Nat := farBase + q * 0x20000000000 + off
  let one (q : Nat) : Byte × Bool :=
    if farServes s q off then (s.far.get (at' q), s.far.bad (at' q)) else (0, true)
  if mirrored s p off then
    let lo := p % 4
    let (b, x) := one lo
    if !x then (b, false, false, false)
    else
      let (b', x') := one (lo + 4)
      if !x' then (b', false, false, true)
      else (if farServes s lo off then b else b', true, !(farServes s lo off) && !(farServes s (lo + 4) off), true)
  else if farOpen s p off then (s.far.get a, s.far.bad a, false, false)
  else (0, true, true, false)

/-- Write part of one sector of the far tier: every serving copy takes it; an access no port serves is dropped. -/
def farWrite (s : State) (a : Nat) (bs : List PByte) : State :=
  let p := (a - farBase) / 0x20000000000
  let off := (a - farBase) % 0x20000000000
  let at' (q : Nat) : Nat := farBase + q * 0x20000000000 + off
  let put (s : State) (q : Nat) : State :=
    if farOpen s q off then { s with far := s.far.writeSector (at' q) bs } else s
  if mirrored s p off then put (put s (p % 4)) (p % 4 + 4) else put s p

/-- Did an access at a far address find no port to serve it (R313)? -/
def farErr (s : State) (a : Nat) : Bool :=
  let p := (a - farBase) / 0x20000000000
  let off := (a - farBase) % 0x20000000000
  if mirrored s p off then !(farOpen s (p % 4) off) && !(farOpen s (p % 4 + 4) off) else !(farOpen s p off)

/-- One byte read at a device physical address, with its poison. -/
def dpaGet (s : State) (a : Nat) : PByte :=
  match tierOf s a with
  | .hbm => (hbmGet s a, hbmBad s a)
  | .far _ => ((farGet s a).1, (farGet s a).2.1)
  | .host => (s.host.get (a - hostBase), s.host.bad (a - hostBase))
  | .peer _ => (s.peer.get a, s.peer.bad a)
  | .hole => (0, true)

/-- n bytes read at a device physical address. -/
def dpaRead (s : State) (a n : Nat) : List PByte := (List.range n).map (fun k => dpaGet s (a + k))

/-- Put bytes one after another in HBM. -/
def hbmPutBytes (s : State) (a : Nat) (bs : List Byte) : State :=
  match bs with
  | [] => s
  | b :: r => hbmPutBytes (hbmPut s a b) (a + 1) r

/-- Write part of one sector at a device physical address; a peer's memory is the peer's. -/
def dpaWriteSector (s : State) (a : Nat) (bs : List PByte) : State :=
  match tierOf s a with
  | .hbm =>
    if groupState s (homeSaddle a) = 2 then s
    else
      let bad := poisonAfter (s.hbmPoison.contains (a / 32)) (bs.any (·.2)) bs.length
      let s := hbmPutBytes s a (bs.map (·.1))
      { s with hbmPoison := sectorSet s.hbmPoison (a / 32) bad }
  | .far _ => farWrite s a bs
  | .host => { s with host := s.host.writeSector (a - hostBase) bs }
  | .peer _ => s
  | .hole => s

/-- Write bytes at a device physical address, sector by sector. -/
def dpaWrite (s : State) (a : Nat) (bs : List PByte) : State :=
  (sectorParts a bs.length).foldl (fun s p => dpaWriteSector s (a + p.1) ((bs.drop p.1).take p.2)) s

/-- Write bytes of this module to host memory at a 64-bit bus address, without translation (14 R396, R401). -/
def busWrite (s : State) (a : Nat) (bs : List Byte) : State :=
  { s with host := (sectorParts a bs.length).foldl (fun m p =>
      m.writeSector (a + p.1) (((bs.drop p.1).take p.2).map (fun (b : Byte) => ((b, false) : PByte)))) s.host }

end Sys2Proof.Machine
end

