-- ==== Sys2Proof/Machine/Ops.lean ====
section
/-! DEFINITION. The operations every family shares: registers and counters, the RAS log and the interrupt causes (19 R523
to R530), Exmas events (18 R511), Gauge packets (14 R399 to R402), free values, and stopping a faulted item (04 R83). -/

namespace Sys2Proof.Machine

/-! ## Free values -/

/-- A value the spec leaves open, never taken before (log 2). -/
def fresh (s : State) : W64 × State := (Config.freeValue s.freeCtr, { s with freeCtr := s.freeCtr + 1 })

/-! ## Registers and counters -/

/-- Add n to a field of a register that holds at its largest value. -/
def satAdd (s : State) (off : Nat) (d : W32) (lo len n : Nat) : State :=
  let r := rg s off d
  setRg s off (setFld r lo len (min (2 ^ len - 1) (fld r lo len + n)))

/-- Add n to a 64-bit counter (R9). -/
def ctrAdd (s : State) (off : Nat) (n : Nat) : State :=
  { s with ctrs := mset s.ctrs off (mget s.ctrs off 0 + BitVec.ofNat 64 n) }

/-- The BAR0 base of a terrace, Saddle and Headwork block (Table 19-2). -/
def tBase (tg : Nat) : Nat := 0x1000000 + tg * 0x100000
def sBase (n : Nat) : Nat := 0x5000000 + n * 0x800000
def hBase (n : Nat) : Nat := 0x6000000 + n * 0x800000

/-- The always-on microsecond count (R410, R523). -/
def nowUs (s : State) : Nat := s.clockNs / 1000

/-- The sequencer Headwork (R409). -/
def seqHd (s : State) : Nat := if s.hdFailed.contains 0 then 1 else 0

/-- Is a Headwork alive? -/
def hdAlive (s : State) (n : Nat) : Bool := !(s.hdFailed.contains n)

/-- Is a host port Up, at any width (Table 14-12)? -/
def portUp (s : State) (p : Nat) : Bool :=
  hdAlive s p && (let h := mget s.hostPorts p {}; h.state = 2 || h.state = 3)

/-- What the module sends out. DESIGN CHOICE: log 4. -/
def emit (s : State) (m : OutMsg) : State := { s with out := s.out ++ [m] }

/-- The port a module-level message leaves through (R530). -/
def modulePort (s : State) : Option Nat :=
  let h := seqHd s
  if portUp s h then some h else if portUp s (1 - h) then some (1 - h) else none

/-! ## Allotment registers (Table 14-9) -/

def allotBase (a : Nat) : Nat := 0x140000 + 0x40 * a
def allotCfg (s : State) (a : Nat) : W32 := rg s (allotBase a) 0
def allotEn (s : State) (a : Nat) : Bool := bit (allotCfg s a) 31
def allotClass (s : State) (a : Nat) : Nat := fld (allotCfg s a) 29 2
def allotDet (s : State) (a : Nat) : Bool := bit (allotCfg s a) 28
def allotVf (s : State) (a : Nat) : Option Nat :=
  if bit (allotCfg s a) 27 then some (fld (allotCfg s a) 17 10) else none
def allotGrant (s : State) (a tg : Nat) : Bool :=
  if tg < 32 then bit (rg s (allotBase a + 4) 0) tg else bit (rg s (allotBase a + 8) 0) (tg - 32)
def allot (s : State) (a : Nat) : Allot := mget s.allots a {}
def updAllot (s : State) (a : Nat) (f : Allot → Allot) : State := { s with allots := mupd s.allots a {} f }

/-- The requester ID of an allotment's host accesses: 0 is PF0, n + 1 is VF n (R324, R398). -/
def allotFn (s : State) (a : Nat) : Nat :=
  match allotVf s a with
  | some n => n + 1
  | none => 0

/-- The rank of a class in priority: Express, Standard, Bulk (R395). -/
def classRank (c : Nat) : Nat := if c = 2 then 0 else if c = 0 then 1 else 2

/-! ## Interrupts (R528, R529) -/

def intEn (s : State) : W32 := rg s 0x2004 0x7FF7#32
def intStat (s : State) : W32 := rg s 0x2000 0

/-- The vector a cause is routed to (Table 19-9). -/
def causeVec (s : State) (c : Nat) : Nat :=
  if c < 8 then fld (rg s 0x2010 0x65443210#32) (4 * c) 4 else fld (rg s 0x2014 0x0BA09876#32) (4 * (c - 8)) 4

/-- Note that vector v is to be messaged in the open 1 us window. -/
def intWant (s : State) (v : Nat) : State := { s with intPend := s.intPend ||| BitVec.ofNat 16 (2 ^ v) }

/-- Set a cause bit; a rise of an enabled cause asks for a message (R529). -/
def intCause (s : State) (c : Nat) : State :=
  let rose := !(bit (intStat s) c)
  let s := setRg s 0x2000 (intStat s ||| BitVec.ofNat 32 (2 ^ c))
  if rose && bit (intEn s) c then intWant s (causeVec s c) else s

/-! ## Exmas events (R511) -/

/-- Send an event to the receiver and queue it, dropping the oldest of 256. -/
def exEvent (s : State) (ws : List Nat) : State :=
  let full := decide (256 ≤ s.evq.length)
  let e : ExEvent := { words := ws, dropped := if full then 1 else 0 }
  let q := if full then s.evq.drop 1 else s.evq
  emit { s with evq := q ++ [e] } (.event (s.receiver.toNat :: e.dropped :: ws))

/-! ## RAS log (R523 to R527) -/

/-- Append an event to the RAS log, merge it into the newest record, or count it as lost. DEDUCED: log 59. -/
def rasAppend (s : State) (code sev skind unit : Nat) (al : Option Nat) (detail : Nat) : State :=
  let a := al.getD 0
  let t := nowUs s
  let d := BitVec.ofNat 64 detail
  let ev := [code, sev, skind, unit, a, if al.isSome then 1 else 0, detail]
  let fresh := RasRec.mk s.rasNext (BitVec.ofNat 64 t) sev code skind unit a al.isSome 1 d
  match s.ras.getLast? with
  | some r =>
    if r.code = code && r.skind = skind && r.unit = unit && r.allot = a && r.alv = al.isSome
        && decide (t < r.time.toNat + 1000) then
      { s with ras := s.ras.dropLast ++ [{ r with count := min 0xFFFFFFFF (r.count + 1) }] }
    else append s ev fresh
  | none => append s ev fresh
where
  append (s : State) (ev : List Nat) (r : RasRec) : State :=
    let s := { s with rasNext := s.rasNext + 1 }
    if 1024 ≤ s.ras.length then
      let s := satAdd s 0x1008 0 0 32 1
      let s := if bit (rg s 0x1000 0) 31 then s else intCause (setRg s 0x1000 0x80000000#32) 12
      exEvent s ev
    else
      let s := { s with ras := s.ras ++ [r] }
      let s := satAdd s 0x100C 0 (8 * r.sev) 8 1
      exEvent (intCause s (3 - r.sev)) ev

/-- A register write that is dropped for range, state, key, BUSY or rights (code 0x03). -/
def logDropped (s : State) (off v : Nat) : State :=
  rasAppend s 0x03 0 0 0 none (off % 2 ^ 32 + v % 2 ^ 32 * 2 ^ 32)

/-- The DETAIL of codes 0x01 and 0x02 (Table 19-6). -/
def writeDetail (bar : Bar) (r : Requester) (off : Nat) : Nat :=
  let b := match bar with
    | .bar0 => 0
    | .bar2 => 1
    | .vfbar0 => 2
  let q := match r with
    | .pf p => p.val
    | .vf _ _ => 2
    | .exmas => 3
  let vf := match r with
    | .vf n _ => n.val
    | _ => 0
  off % 2 ^ 32 + b * 2 ^ 32 + q * 2 ^ 34 + vf * 2 ^ 54

/-! ## Gauge packets (R399 to R402) -/

def ringOf (s : State) (k : Nat) : Ring := mget s.rings k {}

/-- The quota of a ring's share of the FIFO in words: 4,096 for PF0 rings, 32 for an allotment's (R399). -/
def ringQuota (k : Nat) : Nat := if k < 2 then 4096 else 32

/-- The Headwork whose FIFO holds a ring's packets. -/
def ringHd (s : State) (k : Nat) : Nat := if k < 2 then k else (allot s (k - 2)).owner

def waitingWords (r : Ring) : Nat := r.waiting.foldl (fun n p => n + p.words.length) 0

/-- Put a packet in a ring's share, or drop and count it; two words stay for OVERFLOW (R402). -/
def ringPut (s : State) (k : Nat) (p : Packet) : State :=
  let r := ringOf s k
  let r := { r with posted := r.posted + 1 }
  if waitingWords r + p.words.length ≤ ringQuota k - 2 then
    { s with rings := mset s.rings k { r with waiting := r.waiting ++ [p] } }
  else
    let s := { s with rings := mset s.rings k { r with dropped := r.dropped + 1, sinceOvf := r.sinceOvf + 1 } }
    satAdd s (hBase (ringHd s k) + 0x50014) 0 0 32 1

/-- The header of Table 14-6. -/
def gaugeHeader (s : State) (type len al : Nat) : W64 :=
  BitVec.ofNat 64 (type * 2 ^ 56 + len * 2 ^ 54 + al * 2 ^ 42 + (nowUs s - s.hwEpoch) % 2 ^ 32)

/-- Is the ring enabled (GEN)? -/
def ringCfg (s : State) (k : Nat) : W32 :=
  let d := setFld (setFld (setFld (0 : W32) 25 5 9) 14 11 64) 0 8 16
  if k < 2 then rg s (hBase k + 0x50008) d else rg s (allotBase (k - 2) + 0x24) d

def ringOn (s : State) (k : Nat) : Bool := bit (ringCfg s k) 31

/-- Post a packet to the PF0 ring of Headwork hd only. DEDUCED: log 47. -/
def gaugePf (s : State) (hd type al : Nat) (words : List W64) (notice : Bool) : State :=
  ringPut s hd { words := gaugeHeader s type words.length al :: words, notice }

/-- Post a packet to the PF0 ring of the allotment's owner, and to the allotment's ring when it is enabled (R400). -/
def gaugePost (s : State) (type al : Nat) (words : List W64) (notice : Bool) : State :=
  let p : Packet := { words := gaugeHeader s type words.length al :: words, notice }
  let s := ringPut s (allot s al).owner p
  if ringOn s (al + 2) then ringPut s (al + 2) p else s

/-! ## Runs -/

def runOf (s : State) (k : Nat) : Option Run := mget? s.runs k
def updRun (s : State) (k : Nat) (f : Run → Run) : State :=
  match mget? s.runs k with
  | some r => { s with runs := mset s.runs k (f r) }
  | none => s

/-- Set one bit of the item's ERR word (Table 14-5). -/
def runErr (s : State) (k bitNo : Nat) : State :=
  updRun s k (fun r => { r with err := r.err ||| BitVec.ofNat 13 (2 ^ bitNo) })

/-- Count poisoned elements written or contributed (R224, R308). -/
def runPoison (s : State) (k n : Nat) : State :=
  updRun s k (fun r => { r with poison := min 0xFFFFFFFF (r.poison + n) })

/-- The run a terrace serves. -/
def runOfT (s : State) (tg : Nat) : Option (Nat × Run) :=
  match (terrace s tg).slot with
  | some k => (mget? s.runs k).map (fun r => (k, r))
  | none => none

/-- A started thread that has not ended. -/
def Thread.live (t : Thread) : Bool :=
  match t.st with
  | .ready => true
  | .blocked _ => true
  | _ => false

/-- End every started thread, and drop what the islands of the terrace hold of the item (R83). -/
def stopTerrace (t : Terrace) : Terrace :=
  { t with
    threads := t.threads.map (fun (k, th) => (k, if th.live then { th with st := .ended } else th))
    cmdq := []
    execs := []
    partialPk := []
    pins := []
    stores := []
    replaying := [] }

/-- The Saddle of a terrace's half of the grid (R34). -/
def saddleOf (tg : Nat) : Nat := if tg / 4 % 4 < 2 then 0 else 1

/-- Empty a span's reach queues and end its job, counting the reaches discarded (R183). -/
def discardReaches (s : State) (k : Nat) : State :=
  match mget? s.runs k with
  | none => s
  | some r =>
    let s := r.tgs.foldl (fun s tg =>
      let n := (terrace s tg).reachQ.length
      if (terrace s tg).slot ≠ some k then s
      else satAdd (updTerrace s tg (fun t => { t with reachQ := [], rqWait := [] })) (sBase (saddleOf tg) + 0x40090) 0 0 32 n) s
    updRun s k (fun r => { r with cut := none })

/-- A lane keeps the contexts of some terraces: when the running one goes, the next in ascending TG order runs (R238). -/
def FLane.keep (l : FLane) (p : Nat → Bool) : FLane :=
  let rest := l.ctxs.filter (fun x => p x.tg)
  if rest.any (fun x => x.tg = l.running) then { l with ctxs := rest }
  else
    let next := match rest.find? (fun x => decide (l.running < x.tg)) with
      | some x => x.tg
      | none => (rest.map (fun x => x.tg)).headD 0
    { l with ctxs := rest, running := next, used := 0 }

/-- The Headwork whose port an allotment's host-window accesses leave by: its owner, or the other while the owner's port is Down and the other
is Up (R324, R383). -/
def hostHd (s : State) (a : Nat) : Nat :=
  let o := (allot s a).owner
  if !(portUp s o) && portUp s (1 - o) then 1 - o else o

/-! ## Fault records (R331) -/

/-- One record for a run of consecutive requests in one 4 KiB window, if any sector of the run faulted. -/
def runRecord (al src : Nat) (l : List Acc) : Option XRec :=
  let bad := l.filter (fun a => match a.kind with | some k => k < 8 | none => false)
  match bad with
  | [] => none
  | a :: _ => some { va := a.va, kind := a.kind.getD 0, acc := a.acc, allot := al, src, count := min 0x1FF bad.length }

/-- The runs of a stream's requests, by 4 KiB window. -/
def windows (l : List Acc) : List (List Acc) :=
  l.foldr (fun a acc => match acc with
    | (b :: r) :: rest => if a.va / 4096 = b.va / 4096 then (a :: b :: r) :: rest else [a] :: (b :: r) :: rest
    | _ => [[a]]) []

/-- Log one record: the fault log of 16, the allotment's count and the item's completion. -/
def logXlt (s : State) (slot : Option Nat) (r : XRec) : State :=
  let s := satAdd s (0x10000C + 0x10 * r.allot) 0 0 32 1
  let s :=
    if s.flog.length < 16 then
      let s' := { s with flog := s.flog ++ [r] }
      if s.flog.isEmpty then intCause s' 13 else s'
    else if bit (rg s 0x110010 0) 31 then s
    else intCause (setRg s 0x110010 0x80000000#32) 13
  match slot with
  | some k => runErr (updRun s k (fun x => { x with xltrec := min 0xFFFF (x.xltrec + 1) })) k 4
  | none => s

/-- The translation faults of one stream, run by run. -/
def logStream (s : State) (slot : Option Nat) (al src : Nat) (l : List Acc) : State :=
  ((windows (l.filter (fun a => a.kind ≠ some 16))).filterMap (runRecord al src)).foldl (fun s r => logXlt s slot r) s

/-- The faults of the accesses that a stopped item has made and not reported yet, stream by stream (R331): those of its terraces, of its Sump jobs, and
of its cutter. -/
def logStopped (s : State) (k : Nat) (r : Run) : State :=
  let s := r.tgs.foldl (fun s tg =>
    (terrace s tg).execs.foldl (fun s e => logStream s (some k) r.allot tg e.2.accs) s) s
  let s := s.saddles.foldl (fun s e =>
    (e.2.sump.filter (fun j => j.slot = k)).foldl (fun s j => logStream s (some k) j.allot (64 + e.1) j.accs) s) s
  match r.cut with
  | some j => logStream s (some k) r.allot (70 + saddleOf (r.tgs.headD 0)) j.accs
  | none => s

/-- Stop an item on every terrace of its span, with its Flume contexts and Sump jobs (R83, R310). -/
def stopItem (s : State) (k : Nat) : State :=
  match mget? s.runs k with
  | none => s
  | some r =>
    let s := r.tgs.foldl (fun s tg => updTerrace s tg stopTerrace) (discardReaches (logStopped s k r) k)
    let s : State := { s with
      got := []
      lanes := s.lanes.map (fun e => (e.1, e.2.keep (fun tg => !(r.tgs.contains tg))))
      saddles := s.saddles.map (fun (n, d) => (n, { d with
        sump := d.sump.filter (fun j => j.slot ≠ k)
        units := if (d.sump.head?).any (fun j => j.slot = k) then [] else d.units, cisWait := d.cisWait.filter (fun o => !(r.tgs.contains o.tg)) })) }
    updRun s k (fun r => { r with stopped := true, sumps := 0 })

/-- Record a fault of the item a terrace runs, log it and stop the item (R83, R355, R356). -/
def itemFault (s : State) (tg thr pc code : Nat) : State :=
  match runOfT s tg with
  | none => s
  | some (k, r) =>
    let s := rasAppend s 0x10 1 1 tg (some r.allot) (code + thr * 2 ^ 8 + pc % 2 ^ 52 * 2 ^ 12)
    let s := updRun s k (fun r => match r.fault with
      | none => { r with fault := some { code, tg, thr, pc } }
      | some _ => { r with more := min 0xFFFF (r.more + 1) })
    stopItem s k

/-! ## Threads -/

def thread (s : State) (tg thr : Nat) : Thread := mget (terrace s tg).threads thr {}

def setThread (s : State) (tg thr : Nat) (t : Thread) : State :=
  updTerrace s tg (fun x => { x with threads := mset x.threads thr t })

def updThread (s : State) (tg thr : Nat) (f : Thread → Thread) : State := setThread s tg thr (f (thread s tg thr))

/-- Scalar, descriptor and handle registers (R80). -/
def Thread.sreg (t : Thread) (n : Nat) : W64 := mget t.s n 0
def Thread.dreg (t : Thread) (n : Nat) : BitVec 256 := mget t.d n 0
def Thread.hreg (t : Thread) (n : Nat) : BitVec 16 := mget t.h n 0xFFFF#16
def Thread.preg (t : Thread) (n : Nat) : Bool := n = 0 || bit t.p n

def Thread.setS (t : Thread) (n : Nat) (v : W64) : Thread := { t with s := mset t.s n v }
def Thread.setD (t : Thread) (n : Nat) (v : BitVec 256) : Thread := { t with d := mset t.d n v }
def Thread.setH (t : Thread) (n : Nat) (v : BitVec 16) : Thread := { t with h := mset t.h n v }

/-- Write a predicate; p0 always reads 1 (R80). -/
def Thread.setP (t : Thread) (n : Nat) (v : Bool) : Thread :=
  if n = 0 then t else { t with p := setFld t.p n 1 (if v then 1 else 0) }

def Thread.setPc (t : Thread) (v : BitVec 52) : Thread := { t with pc := v }

end Sys2Proof.Machine
end

