-- ==== Sys2Proof/Machine/Canal.lean ====
section
/-! DEFINITION. The Canal: its dies, links, channels, routes, credit pools and route fences (01 R17 to R26). -/

namespace Sys2Proof.Machine

/-! ## Dies and links (Tables 01-1 and 01-3) -/

/-- The dies by number: RD0 to RD15, then SD0, SD1, HD0 and HD1. -/
def dies : List Nat := List.range 20

def saddleDie (n : Nat) : Nat := 16 + n
def headworkDie (n : Nat) : Nat := 18 + n
def terraceDie (tg : Nat) : Nat := tg / 4

/-- The ridge at a column and a row (R17). -/
def ridgeAt (col row : Nat) : Nat := row * 4 + col

/-- How many edges the link between two dies has; 0 where no link joins them (R19). -/
def canalEdges (a b : Nat) : Nat :=
  let ridges := a < 16 && b < 16
  let side := ridges && a / 4 == b / 4 && (a + 1 == b || b + 1 == a)
  let stacked := ridges && (a + 4 == b || b + 4 == a)
  let flank (x r : Nat) : Bool := (x == 16 && r % 4 == 0) || (x == 17 && r % 4 == 3)
  let edge (x r : Nat) : Bool := (x == 18 && r / 4 == 0) || (x == 19 && r / 4 == 3)
  if side || stacked then 4
  else if (b < 16 && flank a b) || (a < 16 && flank b a) then 4
  else if (b < 16 && edge a b) || (a < 16 && edge b a) then 2
  else 0

/-- The dies next to a die. -/
def canalNeighbours (a : Nat) : List Nat := dies.filter (fun b => canalEdges a b ≠ 0)

/-- The links of the Canal, each once. -/
def canalLinks : List (Nat × Nat) := dies.flatMap (fun a => (dies.filter (fun b => decide (a < b) && canalEdges a b ≠ 0)).map (fun b => (a, b)))

/-! ## Channels and packets (R20, R21) -/

/-- What the Canal carries. -/
inductive CanalKind where
  | request
  | response
  | contribution
  | dispatch
  | lateral
  | drainReturn
  | power
  | management
  deriving DecidableEq, Repr

/-- The virtual channel of a kind of traffic. -/
def CanalKind.vc : CanalKind → Nat
  | .request => 0
  | .response => 1
  | .contribution => 2
  | _ => 3

def flitBytes : Nat := 64
def maxDataFlits : Nat := 64

/-- The flits of one packet: its header flit and its data flits. -/
def packetFlits (bytes : Nat) : Nat := 1 + min maxDataFlits ((bytes + flitBytes - 1) / flitBytes)

/-- The flits of a transfer, in packets of at most 4 KiB. -/
def transferFlits (bytes : Nat) : Nat :=
  let whole := bytes / (maxDataFlits * flitBytes)
  let rest := bytes % (maxDataFlits * flitBytes)
  whole * packetFlits (maxDataFlits * flitBytes) + (if rest = 0 && whole ≠ 0 then 0 else packetFlits rest)

/-! ## Routes (R22, R26) -/

/-- The numbers from a to b, both included. -/
def stretch (a b : Nat) : List Nat :=
  if a ≤ b then (List.range (b - a + 1)).map (fun i => a + i) else (List.range (a - b + 1)).map (fun i => a - i)

/-- The ridges from one ridge to another: along the row first, or along the column first. -/
def ridgePath (colFirst : Bool) (a b : Nat) : List Nat :=
  let along := (stretch (a % 4) (b % 4)).map (fun c => ridgeAt c (if colFirst then b / 4 else a / 4))
  let down := (stretch (a / 4) (b / 4)).map (fun r => ridgeAt (if colFirst then a % 4 else b % 4) r)
  if colFirst then down ++ along.drop 1 else along ++ down.drop 1

/-- The row of a die as a Saddle sees it, and the column as a Headwork sees it. DESIGN CHOICE: log 72. -/
def rowOf (d : Nat) : Nat := if d < 16 then d / 4 else if d = 19 then 3 else 0
def colOf (d : Nat) : Nat := if d < 16 then d % 4 else if d = 17 then 3 else 0

/-- The ridge by which a Saddle or Headwork x exchanges packets with a die. -/
def entryRidge (x d : Nat) : Nat :=
  match x with
  | 16 => ridgeAt 0 (rowOf d)
  | 17 => ridgeAt 3 (rowOf d)
  | 18 => ridgeAt (colOf d) 0
  | _ => ridgeAt (colOf d) 3

/-- The dies a packet passes, its source and its destination among them. -/
def canalPath (colFirst : Bool) (a b : Nat) : List Nat :=
  if a = b then [a]
  else
    let ra := if a < 16 then a else entryRidge a b
    let rb := if b < 16 then b else entryRidge b a
    (if a < 16 then [] else [a]) ++ ridgePath colFirst ra rb ++ (if b < 16 then [] else [b])

/-- The route of a pair now: the other dimension order once a die has failed on the first. -/
def canalRoute (s : State) (a b : Nat) : List Nat := canalPath (s.canalAlt.contains (a, b)) a b

/-- Is a die marked failed? -/
def dieFailed (s : State) (d : Nat) : Bool := if d < 16 then s.ridgeFailed.contains d else decide (18 ≤ d) && s.hdFailed.contains (d - 18)

/-- A pair whose route crosses a failed die after the reroute is unreachable (R26): nothing is injected for it. DESIGN CHOICE: log 72. -/
def unreachable (s : State) (a b : Nat) : Bool := (canalRoute s a b).any (dieFailed s)

/-! ## Credits (R24) -/

/-- Flits of one pool of an edge, per channel and direction. -/
def poolFlits : Nat := 96

/-- Bytes of an element of a contribution's target. -/
def Contribution.size (c : Contribution) : Nat := if c.op ≠ 0 || c.fmt = 0x0F then 8 else if c.fmt = 0x0C then 2 else 4

def Contribution.flits (c : Contribution) : Nat := packetFlits (c.elems.length * c.size)
def Xfer.flits (x : Xfer) : Nat := transferFlits x.img.bytes.length

/-- The packets under way from a die to another: a channel and flits each, oldest first. Requests and data on VC0 and VC1, and dispatches and
messages on VC3, arrive in the command that sends them. -/
def canalWaiting (s : State) (a b : Nat) : List (Nat × Nat) :=
  let vc2 := if 16 ≤ b && b < 18 then (mget s.saddles (b - 16) {}).vc2.filter (fun c => c.sent && c.src == a) else []
  let vc3 := s.lats.filter (fun x => x.sent && terraceDie x.src == a && terraceDie x.dst == b)
  vc2.map (fun c => (CanalKind.contribution.vc, c.flits)) ++ vc3.map (fun x => (CanalKind.lateral.vc, x.flits))

/-- The flits that the pools of a link hold in its receiver's buffers on a channel: those of the packets whose last hop it is. DESIGN CHOICE: log 72. -/
def canalBuffered (s : State) (a b vc : Nat) : Nat :=
  let last (src : Nat) : Bool := (canalRoute s src b).dropLast.getLast? == some a
  let n := (dies.filter last).foldl (fun n src =>
    n + ((canalWaiting s src b).filter (fun p => p.1 == vc)).foldl (fun k p => k + p.2) 0) 0
  min (canalEdges a b * poolFlits) n

/-- The credits the sender of a link holds on a channel: with the flits in the receiver's buffers they make the link's pools, since flits in
transit arrive, and credits return, before the next command. -/
def canalCredits (s : State) (a b vc : Nat) : Nat := canalEdges a b * poolFlits - canalBuffered s a b vc

/-- Does a packet of a pair find credits on the last link of its route? One larger than the link's pools waits until they are empty. Within a die
there is no link. -/
def creditsFor (s : State) (a b vc flits : Nat) : Bool :=
  match (canalRoute s a b).dropLast.getLast? with
  | some d => decide (min flits (canalEdges d b * poolFlits) ≤ canalCredits s d b vc)
  | none => true

/-! ## The route fence (R26) -/

/-- Is a packet of a pair under way? -/
def pairBusy (s : State) (p : Nat × Nat) : Bool := !(canalWaiting s p.1 p.2).isEmpty

/-- Is injection stopped for a pair? -/
def pairFenced (s : State) (a b : Nat) : Bool := s.canalFence.contains (a, b)

/-- Does a route fence stop a terrace's packets to or from a Saddle or Headwork: its accesses to memory and its instructions for agents? -/
def terraceFenced (s : State) (tg : Nat) : Bool :=
  (List.range 4).any (fun i => pairFenced s (terraceDie tg) (16 + i) || pairFenced s (16 + i) (terraceDie tg))

/-- May a packet of a pair be injected: no fence holds the pair, it has a route, and the packet finds credits (R24, R26)? -/
def mayInject (s : State) (a b vc flits : Nat) : Bool := !(pairFenced s a b) && !(unreachable s a b) && creditsFor s a b vc flits

/-- The contributions of a pair that wait to be injected, in a list. -/
def heldOf (l : List Contribution) (a : Nat) : Bool := l.any (fun c => !c.sent && c.src == a)

/-- Put a contribution on VC2 toward its Saddle: it is injected when it may be and none of its pair waits before it (R21 to R26).
DESIGN CHOICE: log 72. -/
def sendVc2 (s : State) (n : Nat) (c : Contribution) : State :=
  let d : Saddle := mget s.saddles n {}
  let go := mayInject s c.src (saddleDie n) CanalKind.contribution.vc c.flits && !(heldOf d.vc2 c.src)
  { s with saddles := mset s.saddles n { d with vc2 := d.vc2 ++ [{ c with sent := go }] } }

/-- Inject one contribution that waited, if it may be now. -/
def injectOne (s : State) (n i : Nat) : State :=
  let d : Saddle := mget s.saddles n {}
  match d.vc2[i]? with
  | some c =>
    if !c.sent && mayInject s c.src (saddleDie n) CanalKind.contribution.vc c.flits && !(heldOf (d.vc2.take i) c.src) then
      { s with saddles := mset s.saddles n { d with vc2 := d.vc2.set i { c with sent := true } } }
    else s
  | none => s

/-- Inject the contributions that waited for a fence or for credits, in their order. -/
def injectHeld (s : State) : State :=
  s.saddles.foldl (fun s e => (List.range e.2.vc2.length).foldl (fun s i => injectOne s e.1 i) s) s

/-- What has arrived leaves its buffers: a fence ends for each pair whose old route is empty, which takes its new route, and what waited is
injected. -/
def fenceArrivals (s : State) : State :=
  injectHeld { s with
    canalAlt := s.canalAlt ++ s.canalFence.filter (fun p => !(pairBusy s p))
    canalFence := s.canalFence.filter (pairBusy s) }

/-- A die is marked failed: every pair whose route crosses it is fenced, and takes the other dimension order once its old route is empty. -/
def fenceRoutes (s : State) (d : Nat) : State :=
  let pairs := dies.flatMap (fun a => (dies.filter (fun b => a ≠ b && a ≠ d && b ≠ d && !(s.canalAlt.contains (a, b))
    && !(s.canalFence.contains (a, b)) && (canalPath false a b).contains d)).map (fun b => (a, b)))
  fenceArrivals { s with canalFence := s.canalFence ++ pairs }

end Sys2Proof.Machine
end

