-- ==== Sys2Proof/Machine/Turnout.lean ====
section
/-! DEFINITION. The port arbiters of Turnout: decisions, bursts, revocations and the beats they move (12 R342 to R345, Tables 12-8 and 12-14). -/

namespace Sys2Proof.Machine

/-- The settings of an arbiter (Table 12-14). -/
structure TurnCfg where
  w : Nat
  revEn : Bool
  burst : Nat
  revMin : Nat
  deriving DecidableEq, Repr

def turnReset : W32 := 0x48400800#32

def TurnCfg.ofWord (v : W32) : TurnCfg := { w := fld v 28 4, revEn := bit v 27, burst := fld v 16 11, revMin := fld v 8 8 }

/-- One transfer of a requester: its class, its beats, and whether it is never revoked. -/
def ArbReq.one (cls beats : Nat) (exempt : Bool) : ArbReq := { cls, parts := if beats = 0 then [] else [(beats, exempt)] }

/-- The beats a requester still has to move. -/
def ArbReq.left (r : ArbReq) : Nat := (r.parts.map (fun e => e.1)).sum

/-- Is the transfer at the head of a requester never revoked? -/
def ArbReq.exempt (r : ArbReq) : Bool := (r.parts.head?).all (fun e => e.2)

/-- One beat of a requester's transfer at the head has moved. -/
def ArbReq.next (r : ArbReq) : ArbReq :=
  match r.parts with
  | [] => r
  | (n, x) :: rest => { r with parts := if n ≤ 1 then rest else (n - 1, x) :: rest }

/-- The class of prefetches at a stack port, below maintenance: never forced, and served only when no other requester is present (R343). -/
def prefetchClass : Nat := 5

/-- One decision of an arbiter among the requesters present (R343): a requester whose counter has reached W, the larger count and then
the lower number first; else the highest class, round robin after its last winner. The winner's counter returns to 0, the others gain 1. -/
def decideArb (a : Arb) (w : Nat) : Arb :=
  let cnt (x : Nat) : Nat := mget a.waits x 0
  let present : List (Nat × Nat) := a.reqs.map (fun e => (e.1, e.2.cls))
  let forced := sortBy (fun (x y : Nat × Nat) => decide (cnt y.1 < cnt x.1) || (cnt x.1 == cnt y.1 && decide (x.1 ≤ y.1)))
    (present.filter (fun e => decide (w ≤ cnt e.1) && e.2 ≠ prefetchClass))
  let best := present.foldl (fun m e => min m e.2) 99
  let same := (present.filter (fun e => e.2 = best)).map (fun e => e.1)
  let after := same.filter (fun x => decide (mget a.last best 0 < x))
  let pick := match forced with
    | e :: _ => some e.1
    | [] => (after ++ same).head?
  match pick with
  | none => { a with holder := none, moved := 0 }
  | some x =>
    { a with
      waits := present.foldl (fun m e => if e.1 = x then mdel m e.1 else mset m e.1 (cnt e.1 + 1)) a.waits
      last := mset a.last (((present.find? (fun e => e.1 = x)).map (fun e => e.2)).getD best) x
      holder := some x, forced := !forced.isEmpty, moved := 0 }

/-- Is the grant in force revoked at this beat boundary (R344)? -/
def revoked (c : TurnCfg) (a : Arb) : Bool :=
  match a.holder with
  | some h =>
    let r := mget a.reqs h { cls := 0, parts := [] }
    c.revEn && decide (c.revMin ≤ a.moved) && !a.forced && !r.exempt && a.reqs.any (fun e => decide (e.2.cls < r.cls))
  | none => false

/-- Does the grant in force end: its holder has stopped requesting, or has moved BURST beats (R344)? -/
def grantOver (c : TurnCfg) (a : Arb) : Bool :=
  match a.holder with
  | some h => !(mhas a.reqs h) || decide (c.burst ≤ a.moved)
  | none => true

/-- Decide when the port is free: the arbiter, forced grants and revocations. A revoked holder keeps the beats it has moved. -/
def arbGrant (c : TurnCfg) (a : Arb) : Arb × Nat × Nat :=
  let rev := !(grantOver c a) && revoked c a
  if grantOver c a || rev then
    let a := match a.holder with
      | some h => if rev then { a with progress := mset a.progress h (mget a.progress h 0 + a.moved) } else a
      | none => a
    let b := decideArb a c.w
    (b, (b.holder.isSome && b.forced).toNat, rev.toNat)
  else (a, 0, 0)

/-- The holder moves one beat of its transfer. -/
def arbMove (a : Arb) : Arb :=
  match a.holder with
  | none => a
  | some h =>
    let r := mget a.reqs h { cls := 0, parts := [] }
    if r.left ≤ 1 then { a with reqs := mdel a.reqs h, progress := mdel a.progress h, holder := none, moved := 0, forced := false }
    else { a with reqs := mset a.reqs h r.next, moved := a.moved + 1 }

/-- Beats of a port, while requesters are present: the arbiter, forced grants and revocations. -/
def arbServe (c : TurnCfg) (beats : Nat) (st : Arb × Nat × Nat) : Arb × Nat × Nat :=
  match beats with
  | 0 => st
  | beats + 1 =>
    if st.1.reqs.isEmpty then st
    else
      let (a, f, r) := arbGrant c st.1
      arbServe c beats (arbMove a, st.2.1 + f, st.2.2 + r)

/-- Requests arrive at an arbiter at a time: what the port has moved since the last arrival is made up first. rate: beats in 32 ns. -/
def arbArrive (c : TurnCfg) (rate now : Nat) (a : Arb) (reqs : List (Nat × ArbReq)) : Arb × Nat × Nat :=
  let (a, f, r) := arbServe c (now * rate / 32 - a.stamp * rate / 32) (a, 0, 0)
  let a := (reqs.filter (fun e => decide (0 < e.2.left))).foldl (fun (a : Arb) e =>
    let old := mget a.reqs e.1 { cls := e.2.cls, parts := [] }
    { a with reqs := mset a.reqs e.1 { cls := e.2.cls, parts := old.parts ++ e.2.parts } }) a
  let (a, f', r') := if a.reqs.isEmpty then (a, 0, 0) else arbGrant c a
  ({ a with stamp := now }, f + f', r + r')

/-- Count forced grants and revocations in a TURN_STAT. -/
def turnStat (s : State) (off f r : Nat) : State :=
  let s := if f = 0 then s else satAdd s off 0 16 16 f
  if r = 0 then s else satAdd s off 0 0 16 r

/-- Beats of n bytes. -/
def beatsOf (n : Nat) : Nat := (n + 63) / 64

/-- Requests at a stack port (0 to 5) or a Reservoir port (6 to 9) of a Saddle. DESIGN CHOICE: log 67. -/
def passArb (s : State) (n port : Nat) (reqs : List (Nat × ArbReq)) : State :=
  let c := TurnCfg.ofWord (rg s (sBase n + 0x80000 + 4 * port) turnReset)
  let x := arbArrive c (if port < 6 then 1000 else 2048) s.clockNs (mget (saddle s n).arbs port {}) reqs
  turnStat (updSaddle s n (fun d => { d with arbs := mset d.arbs port x.1 })) (sBase n + 0x8002C) x.2.1 x.2.2

/-- Lanes in use. -/
def laneCount (m : BitVec 8) : Nat := ((List.range 8).filter (fun i => bit m i)).length

/-- A decision at a Skovuk egress among the packets that could leave, each with its requester (R342, R343): the requester that is granted, whose packet
of n beats then moves, with the arbiter's counts. -/
def passSkv (s : State) (k : Nat) (reqs : Map ArbReq) : Option Nat × State :=
  let c := TurnCfg.ofWord (rg s (hBase (k / 4) + 0x40000 + 4 * (k % 4)) turnReset)
  let x := arbGrant c { mget s.skvArbs k {} with reqs }
  let moved := match x.1.holder with
    | some h => (mget reqs h { cls := 0, parts := [] }).left
    | none => 0
  (x.1.holder, turnStat { s with skvArbs := mset s.skvArbs k { x.1 with reqs := [], moved := x.1.moved + moved } }
    (hBase (k / 4) + 0x40010) x.2.1 x.2.2)

end Sys2Proof.Machine
end

