-- ==== Sys2Proof/Machine/Wire.lean ====
section
/-! DEFINITION. The bytes of Skovuk on the wire: the packet header, its extension and poison mask, the flits of a packet, and the link control
word with its CRC (16 R435 to R437, Tables 16-4, 16-6 and 16-7). -/

namespace Sys2Proof.Machine

/-! ## Packets (R435, R436) -/

/-- Bytes of a packet: header, extension, poison mask and data (R435). -/
def pktBytes (p : SkvPacket) : Nat :=
  32 + (if p.ptype = 6 then 16 else 0) + (if p.bad.isEmpty then 0 else 16) + p.data.length

def pktFlits (p : SkvPacket) : Nat := (pktBytes p + 239) / 240

/-- The four words of a packet's header (Table 16-4). -/
def headerWords (p : SkvPacket) : List Nat :=
  [p.ptype % 2 ^ 8 * 2 ^ 56 + p.vc % 4 * 2 ^ 54 + p.dkind.toNat * 2 ^ 53 + p.skind.toNat * 2 ^ 52 + p.hops % 16 * 2 ^ 48
     + p.dest.toNat * 2 ^ 34 + p.src.toNat * 2 ^ 20 + p.sal.toNat * 2 ^ 10 + (!p.bad.isEmpty).toNat * 2 + (p.ptype == 6).toNat,
   p.eseq.toNat * 2 ^ 32 + p.dlen % 2 ^ 13,
   p.addr.toNat,
   p.tag.toNat * 2 ^ 16]

/-- The extension of a CONTRIB: GOFF, and bits [63:39] of the control word (Table 16-6). -/
def extWords (p : SkvPacket) : List Nat := [p.goff.toNat, fld p.ctrl 39 25 * 2 ^ 39]

/-- The poison mask: bit s mod 8 of byte s div 8 for sector s. -/
def maskBytes (bad : List Nat) : List Byte :=
  (List.range 16).map (fun b => (List.range 8).foldl (fun (v : Byte) i => if bad.contains (8 * b + i) then setFld v i 1 1 else v) 0)

/-- A packet as its flits carry it: header, extension, poison mask, data. -/
def pktWire (p : SkvPacket) : List Byte :=
  (headerWords p).flatMap (leBytes 8) ++ (if p.ptype = 6 then (extWords p).flatMap (leBytes 8) else [])
    ++ (if p.bad.isEmpty then [] else maskBytes p.bad) ++ p.data

/-! ## Flits (R437) -/

/-- One bit of CRC-32C, polynomial 0x1EDC_6F41 with the low bit first. PRESUMED: log 76. -/
def crcBit (c : W32) : W32 := if bit c 0 then (c >>> 1) ^^^ 0x82F63B78#32 else c >>> 1

/-- One byte of the CRC. -/
def crcByte (c : W32) (b : Byte) : W32 := (List.range 8).foldl (fun c _ => crcBit c) (c ^^^ b.setWidth 32)

/-- CRC-32C: initial value all ones, final value inverted. PRESUMED: log 76. -/
def crc32c (bs : List Byte) : W32 := ~~~(bs.foldl crcByte 0xFFFFFFFF#32)

/-- The fields of a link control word below its CRC and ACK and LSEQ (Table 16-7). -/
def linkLow (f : Flit) (sop eop : Bool) : Nat :=
  f.ftype % 16 * 2 ^ 60 + sop.toNat * 2 ^ 59 + eop.toNat * 2 ^ 58 + f.vc.val * 2 ^ 56
    + f.cred.getD 3 0 % 1024 * 2 ^ 30 + f.cred.getD 2 0 % 1024 * 2 ^ 20 + f.cred.getD 1 0 % 1024 * 2 ^ 10 + f.cred.getD 0 0 % 1024

/-- A flit: 240 bytes of a packet, zeros after its last byte, and the link control word with the CRC over bytes 0 to 251. -/
def flitWire (f : Flit) (sop eop : Bool) (body : List Byte) : List Byte :=
  let bs := (body ++ List.replicate (240 - body.length) 0).take 240 ++ leBytes 8 (linkLow f sop eop)
    ++ leBytes 4 (f.ack.toNat * 2 ^ 16 + f.lseq.toNat)
  bs ++ leBytes 4 (crc32c bs).toNat

/-- A received flit, its CRC tested. -/
def Flit.ofWire (bs : List Byte) : Flit :=
  let low := leNat ((bs.drop 240).take 8)
  let seqs := leNat ((bs.drop 248).take 4)
  { lseq := BitVec.ofNat 16 seqs, ack := BitVec.ofNat 16 (seqs / 2 ^ 16), ftype := low / 2 ^ 60, vc := Fin.ofNat 4 (low / 2 ^ 56 % 4)
    cred := (List.range 4).map (fun c => low / 2 ^ (10 * c) % 1024)
    ok := leNat ((bs.drop 252).take 4) == (crc32c (bs.take 252)).toNat }

/-- Flit number i of a packet. -/
def packetFlit (p : SkvPacket) (i : Nat) (lseq ack : BitVec 16) (cred : List Nat) : List Byte :=
  flitWire { lseq, ack, ftype := 0, vc := Fin.ofNat 4 p.vc, cred, ok := true } (i == 0) (i + 1 == pktFlits p) ((pktWire p).drop (240 * i))

/-- A flit that carries no packet: idle (1), or a replay request (2). -/
def bareFlit (ftype : Nat) (lseq ack : BitVec 16) (cred : List Nat) : List Byte :=
  flitWire { lseq, ack, ftype, vc := 0, cred, ok := true } false false []

end Sys2Proof.Machine
end

