-- ==== Sys2Proof/Machine/Link.lean ====
section
/-! DEFINITION. Sending on Skovuk: routes, flits and credits, end-to-end numbering, and the requests to peer windows (16 R435 to
R444). -/

namespace Sys2Proof.Machine

def skvPort (s : State) (k : Nat) : SkvPort := mget s.skv k {}
def updPort (s : State) (k : Nat) (f : SkvPort → SkvPort) : State := { s with skv := mupd s.skv k {} f }

/-- Does a port carry packets: Up, on eight lanes or fewer? -/
def skvUp (s : State) (k : Nat) : Bool := (skvPort s k).state = 2 || (skvPort s k).state = 3

/-- SKV_ID (Table 16-3). -/
def skvIdWord (s : State) : W32 := rg s 0x7000000 0
def skvIdValid (s : State) : Bool := bit (skvIdWord s) 31
def skvId (s : State) : Nat := fld (skvIdWord s) 0 14

/-- The key of a destination or source: its kind and number (R440). -/
def skvDest (mgr : Bool) (id : Nat) : Nat := mgr.toNat * 2 ^ 14 + id % 2 ^ 14
def pktDest (p : SkvPacket) : Nat := skvDest p.dkind p.dest.toNat
def pktSrc (p : SkvPacket) : Nat := skvDest p.skind p.src.toNat

/-- The port a packet for a destination leaves by: the primary when it is Up, else the alternate (R441). -/
def skvRoute (s : State) (dest : Nat) : Option Nat :=
  let e := mget s.rte dest 0
  let pri := fld e 0 3
  let alt := fld e 4 3
  if !(bit e 31) then none else if skvUp s pri then some pri else if skvUp s alt then some alt else none

/-- The requester of a packet at an egress (Table 12-8): the ridge link of the terrace that holds it end to end, in the class of its allotment,
or a Headwork message. -/
def egressReq (s : State) (p : SkvPacket) : Nat × ArbReq :=
  let mine := (s.e2e.flatMap (fun e => e.2.held)).find? (fun h => h.pkt.eseq == p.eseq && h.pkt.dest == p.dest && h.pkt.vc == p.vc)
  match (mine.bind (fun h => h.origin)).bind (fun o => o.tg) with
  | some tg =>
    let c := 1 + classRank (allotClass s p.sal.toNat)
    (4 * (tg / 4 % 4) + c, .one c (beatsOf (pktBytes p)) false)
  | none => (16, .one 0 (beatsOf (pktBytes p)) true)

/-- What a port has to tell its partner in a flit: the LSEQ of the last flit received in order, and the credits to return (Table 16-7). -/
def SkvPort.ack (x : SkvPort) : BitVec 16 := x.rxNext - 1
def SkvPort.credits (x : SkvPort) : List Nat := (List.range 4).map (fun c => min 512 (mget x.owed c 0))

/-- What a port still has to return after a flit that carries its credits. -/
def SkvPort.rest (x : SkvPort) : Map Nat :=
  x.owed.filterMap (fun e => if e.2 ≤ 512 then none else some (e.1, e.2 - 512))

/-- A port sends a flit: it carries the acknowledgement and the credits that the port has to return (R437, R438). -/
def sendFlit (s : State) (k : Nat) (f : BitVec 16 → List Nat → List Byte) : State :=
  let x := skvPort s k
  emit (updPort s k (fun x => { x with owed := x.rest })) (.flit k (f x.ack x.credits))

/-- An idle flit or a replay request, with the LSEQ of the last packet flit sent. -/
def sendBare (s : State) (k ftype : Nat) : State := sendFlit s k (bareFlit ftype ((skvPort s k).txSeq - 1))

/-- The packets of a port's queue that could leave now, in order, each with its requester: the channel has credits and the retry buffer has room
(R438, R439), and no packet before it has its channel and its requester or its destination. -/
def egressReady (s : State) (k : Nat) : List (SkvPacket × Nat × ArbReq) :=
  let x := skvPort s k
  let l := x.waitQ.map (fun p => (p, egressReq s p))
  (l.zipIdx.filter (fun (e, i) =>
    mget x.sent e.1.vc 0 + pktFlits e.1 ≤ 512 && x.retry.length + pktFlits e.1 ≤ 1024 &&
    !((l.take i).any (fun q => q.1.vc = e.1.vc && (q.2.1 = e.2.1 || pktDest q.1 = pktDest e.1))))).map (fun e => e.1)

/-- A packet leaves a port: its flits are sent, and held until they are acknowledged. -/
def sendPacket (s : State) (k : Nat) (p : SkvPacket) : State :=
  let x := skvPort s k
  let n := pktFlits p
  let s := emit (updPort s k (fun x => { x with
    txSeq := x.txSeq + BitVec.ofNat 16 n, retry := x.retry ++ (List.range n).map (fun i => (x.txSeq + BitVec.ofNat 16 i, p, i))
    sent := mset x.sent p.vc (mget x.sent p.vc 0 + n), waitQ := x.waitQ.erase p })) (.skv p)
  (List.range n).foldl (fun s i => sendFlit s k (packetFlit p i (x.txSeq + BitVec.ofNat 16 i))) s

/-- Send one packet of those that could leave: the one of the requester that the egress grants (R343). DESIGN CHOICE: log 67. -/
def drainOne (s : State) (k : Nat) : State :=
  let l := egressReady s k
  if l.isEmpty then s
  else
    let reqs : Map ArbReq := l.foldl (fun m e => if mhas m e.2.1 then m else mset m e.2.1 e.2.2) []
    let g := passSkv s k reqs
    match l.find? (fun e => g.1 = some e.2.1) with
    | some e => sendPacket g.2 k e.1
    | none => g.2

/-- Send what waits at a port, as far as credits and the retry buffer let it. -/
def drainPort (s : State) (k : Nat) : State :=
  if !(skvUp s k) then s else (List.range (skvPort s k).waitQ.length).foldl (fun s _ => drainOne s k) s

/-- Put a packet on a port. -/
def portSend (s : State) (k : Nat) (p : SkvPacket) : State :=
  drainPort (updPort s k (fun x => { x with waitQ := x.waitQ ++ [{ p with port := Fin.ofNat 8 k }] })) k

/-- Send a packet by the current route; one that has none is discarded (R441). -/
def skvOut (s : State) (p : SkvPacket) : State :=
  match skvRoute s (pktDest p) with
  | some k => portSend s k p
  | none => s

def e2eOf (s : State) (dest ch : Nat) : E2e := mget s.e2e (dest * 4 + ch) {}
def updE2e (s : State) (dest ch : Nat) (f : E2e → E2e) : State :=
  { s with e2e := mupd s.e2e (dest * 4 + ch) {} f }

/-- The Headwork whose buffer holds the packets for a destination: that of the port they leave by, else of the primary port. DESIGN CHOICE: log 55. -/
def skvHd (s : State) (dest : Nat) : Nat := ((skvRoute s dest).getD (fld (mget s.rte dest 0) 0 3)) / 4

/-- Bytes in the end-to-end buffer of a Headwork. -/
def e2eBytes (s : State) (hd : Nat) : Nat :=
  (s.e2e.map (fun e => ((e.2.held.filter (fun h => h.hd = hd)).map (fun h => pktBytes h.pkt)).sum)).sum

/-- Number a packet, hold it end to end and send it (R442). -/
def skvNumber (s : State) (origin : Option Origin) (p : SkvPacket) : State :=
  let d := (pktDest p)
  let p := { p with eseq := (e2eOf s d p.vc).next, hops := 15, src := BitVec.ofNat 14 (skvId s), skind := false }
  let h : Held := { hd := skvHd s d, origin, pkt := p }
  skvOut (updE2e s d p.vc (fun e => { e with next := e.next + 1, held := e.held ++ [h] })) p

/-- Send a packet of this module; a full buffer stops SV0 and SV2, in order, until acknowledgements free space (R442). DESIGN CHOICE: log 55. -/
def skvSend (s : State) (origin : Option Origin) (p : SkvPacket) : State :=
  let stop := (p.vc = 0 || p.vc = 2) &&
    (s.skvWait.any (fun w => w.2.vc = p.vc && pktDest w.2 = (pktDest p))
      || 8388608 < e2eBytes s (skvHd s (pktDest p)) + pktBytes p)
  if stop then { s with skvWait := s.skvWait ++ [(origin, p)] } else skvNumber s origin p

/-- Send the waiting packets that have room now. -/
def skvRetry (s : State) : State :=
  s.skvWait.foldl (fun s w => skvSend s w.1 w.2) { s with skvWait := [] }

/-- An empty packet of a kind for a destination. -/
def skvPacket (ptype vc : Nat) (mgr : Bool) (dest : Nat) : SkvPacket :=
  { port := 0, ptype, vc, dkind := mgr, skind := false, hops := 15, dest := BitVec.ofNat 14 dest, src := 0, sal := 0, eseq := 0
    dlen := 0, addr := 0, tag := 0, goff := 0, ctrl := 0, data := [], bad := [], rsv := false }

/-! ## Requests to peer windows (R443, R444, 12 R322) -/

/-- The module and the offset of a peer-window address (R323). -/
def peerModule (a : Nat) : Nat := (a - peerBase) / 2 ^ 40
def peerOff (a : Nat) : Nat := (a - peerBase) % 2 ^ 40

/-- The requests to peers that a terrace has made, or that wait, for no named thread yet are a thread's (R98). -/
def tagThread (s : State) (tg thr : Nat) : State :=
  let s : State := { s with skvReqs := s.skvReqs.map (fun q => if q.tg = some tg && q.thr.isNone then { q with thr := some thr } else q) }
  if (terrace s tg).stores.isEmpty then s
  else updTerrace s tg (fun t => { t with stores := t.stores.map (fun w => if w.thr.isNone then { w with thr := some thr } else w) })

/-- Who a request to a peer is made for. -/
structure PeerUse where
  allot : Nat
  src : Nat
  slot : Option Nat
  tg : Option Nat
  deriving DecidableEq, Repr

/-- Zero bytes after the data of a packet with a poison mask, whose DLEN is a multiple of 32 (R436). -/
def padded (data : List Byte) (bad : List Nat) : List Byte :=
  if bad.isEmpty then data else data ++ List.replicate ((32 - data.length % 32) % 32) 0

/-- The packets that carry the bytes of a write to a peer: a poisoned sector goes whole, with zeros where the write has no bytes, since a packet with
a poison mask holds whole sectors (R436). DESIGN CHOICE: log 53. -/
def peerRuns (r : Nat × Nat × List PByte) : List (Nat × Nat × List PByte) :=
  if r.2.2.all (fun b => !b.2) then [r]
  else
    let part (p : Nat × Nat) : Nat × Nat × List PByte :=
      let o := (r.2.1 + p.1) % 32
      let bs := (r.2.2.drop p.1).take p.2
      if bs.any (fun b => b.2) then
        (r.1 + p.1 - o, r.2.1 + p.1 - o, List.replicate o ((0 : Byte), true) ++ bs ++ List.replicate (32 - o - bs.length) ((0 : Byte), true))
      else (r.1 + p.1, r.2.1 + p.1, bs)
    ((sectorParts r.2.1 r.2.2.length).map part).foldr (fun a acc => match acc with
      | b :: rest => if a.2.2.length % 32 = 0 && b.2.2.length % 32 = 0 then (a.1, a.2.1, a.2.2 ++ b.2.2) :: rest else a :: b :: rest
      | [] => [a]) []

/-- Send a READ or WRITE of a run of bytes in a peer window, and keep its request until it is answered. -/
def peerRequest (s : State) (u : PeerUse) (wr : Bool) (va addr len : Nat) (data : List Byte) (bad : List Nat) : State :=
  let m := peerModule addr
  let q : SkvReq := { dest := m, eseq := (e2eOf s (skvDest false m) 0).next
                        + BitVec.ofNat 32 ((s.skvWait.filter (fun w => w.2.vc = 0 && pktDest w.2 = skvDest false m)).length)
                      wr, va, addr, len, allot := u.allot, src := u.src, slot := u.slot, tg := u.tg }
  let p := { skvPacket (if wr then 2 else 1) 0 false m with
    sal := BitVec.ofNat 10 u.allot, dlen := len, addr := BitVec.ofNat 64 (peerOff addr), data, bad }
  skvSend { s with skvReqs := s.skvReqs ++ [q] } (some { tg := u.tg, thr := none, slot := u.slot, va }) p

end Sys2Proof.Machine
end

