-- ==== Sys2Proof/Machine/Reservoir.lean ====
section
/-! DEFINITION. The Reservoir: its directory, replacement, prefetched lines, and the pass of every access to HBM or the far tier through it
(11 R299, R300, R304). -/

namespace Sys2Proof.Machine

/-! ## Reservoir (R299, R300) -/

/-- The set of an address. -/
def rsvSet (a : Nat) : Nat := (groupOff a / 256 % 2 ^ 15) ^^^ (groupOff a / 2 ^ 23 % 2 ^ 15)

/-- The way of a set that holds a line. -/
def rsvWay (d : Saddle) (line : Nat) : Option Nat :=
  let st := rsvSet (line * 256)
  (List.range 16).find? (fun w => match mget? d.lines (st * 16 + w) with
    | some l => l.line == line
    | none => false)

/-- The tree nodes from the root to way w, each with whether w lies in its upper half. -/
def plruPath (w : Nat) : List (Nat × Bool) :=
  [(1, 8 ≤ w), (2 + w / 8, 4 ≤ w % 8), (4 + w / 4, 2 ≤ w % 4), (8 + w / 2, 1 ≤ w % 2)]

/-- Make a way the most recent: each node on its path points away from it. -/
def plruTouch (b : BitVec 15) (w : Nat) : BitVec 15 :=
  (plruPath w).foldl (fun b e => setFld b (e.1 - 1) 1 (if e.2 then 0 else 1)) b

/-- Make a way the least recent: each node on its path points toward it. -/
def plruPoint (b : BitVec 15) (w : Nat) : BitVec 15 :=
  (plruPath w).foldl (fun b e => setFld b (e.1 - 1) 1 (if e.2 then 1 else 0)) b

/-- The way the tree points to. DEDUCED: log 36. -/
def plruVictim (b : BitVec 15) : Nat :=
  let step (node : Nat) : Nat := if bit b (node - 1) then 1 else 0
  let a := step 1
  let c := step (2 + a)
  let e := step (4 + 2 * a + c)
  8 * a + 4 * c + 2 * e + step (8 + 4 * a + 2 * c + e)

/-- The stripe of an HBM line (R292). -/
def stripeOf (line : Nat) : Nat × Nat := (homeSaddle (line * 256), groupOff (line * 256) / 256 / 5)

/-- Evict the line of a way. A dirty HBM line goes back with every other dirty line of its stripe (R300); their number is answered. -/
def evict (guarded : Bool) (d : Saddle) (key : Nat) : Saddle × Nat :=
  match mget? d.lines key with
  | none => (d, 0)
  | some l =>
    let d := { d with lines := mdel d.lines key }
    if l.dirty = 0 then (d, 0)
    else if guarded && l.line * 256 < hbmCap true then
      let mates := d.lines.filter (fun e => e.2.dirty ≠ 0 && e.2.line * 256 < hbmCap true && stripeOf e.2.line == stripeOf l.line)
      ({ d with lines := d.lines.map (fun e => if mates.contains e then (e.1, { e.2 with dirty := 0 }) else e) }, 1 + mates.length)
    else (d, 1)

/-- The way for a new line: an empty one, else the pseudo-LRU one, which is evicted. DEDUCED: log 36. -/
def makeRoom (guarded : Bool) (d : Saddle) (line : Nat) : Saddle × Nat × Nat :=
  let st := rsvSet (line * 256)
  match (List.range 16).find? (fun w => !(mhas d.lines (st * 16 + w))) with
  | some w => (d, w, 0)
  | none =>
    let w := plruVictim (mget d.plru st 0)
    let (d, n) := evict guarded d (st * 16 + w)
    (d, w, n)

/-- The way of a line: the one that holds it, else a new one. -/
def wayFor (guarded : Bool) (d : Saddle) (line : Nat) : Saddle × Nat × Nat :=
  match rsvWay d line with
  | some w => (d, w, 0)
  | none => makeRoom guarded d line

/-- Put a line in the Reservoir, or add sectors to it: a demand makes it the most recent, and a prefetched line enters as the least recent
(R300). Answers the write-backs of an eviction. -/
def putLine (guarded : Bool) (d : Saddle) (line : Nat) (valid dirty : BitVec 4) (pf : Bool) : Saddle × Nat :=
  let st := rsvSet (line * 256)
  let (d, w, n) := wayFor guarded d line
  let l := mget d.lines (st * 16 + w) { line, valid := 0, dirty := 0, pf }
  ({ d with
     lines := mset d.lines (st * 16 + w) { l with valid := l.valid ||| valid, dirty := l.dirty ||| dirty, pf := l.pf && pf }
     plru := mset d.plru st (if pf then plruPoint (mget d.plru st 0) w else plruTouch (mget d.plru st 0) w) }, n)

/-! ## One access (R299, R301) -/

/-- The 256-byte lines of an access, each with the 64-byte sectors it touches. -/
def lineParts (a n : Nat) : List (Nat × BitVec 4) :=
  if n = 0 then []
  else (List.range ((a + n - 1) / 256 - a / 256 + 1)).map (fun k =>
    let line := a / 256 + k
    (line, ((List.range 4).filter (fun j => decide (a < line * 256 + 64 * j + 64) && decide (line * 256 + 64 * j < a + n))).foldl
      (fun m j => m ||| BitVec.ofNat 4 (2 ^ j)) 0))

def popSectors (m : BitVec 4) : Nat := ((List.range 4).filter (fun j => bit m j)).length

/-- What the Reservoir holds of a line. -/
def rsvHeld (d : Saddle) (line : Nat) : RLine :=
  match rsvWay d line with
  | some w => mget d.lines (rsvSet (line * 256) * 16 + w) { line, valid := 0, dirty := 0, pf := false }
  | none => { line, valid := 0, dirty := 0, pf := false }

/-- The 64-byte sectors of an access that the Reservoir does not hold, by line. -/
def missOf (d : Saddle) (a n : Nat) : List (Nat × BitVec 4) :=
  ((lineParts a n).map (fun e => (e.1, e.2 &&& ~~~((rsvHeld d e.1).valid)))).filter (fun e => e.2 ≠ 0)

/-- Demand counts of sectors of one line (Table 11-14). -/
def rsvCount (s : State) (n : Nat) (x : RLine) (m : BitVec 4) (wr : Bool) : State :=
  let miss := popSectors (m &&& ~~~x.valid)
  let s := if x.pf then satAdd s (sBase n + 0x20004) 0 0 32 1 else s
  if wr || miss = 0 then s else satAdd s (sBase n + 0x20008) 0 0 32 miss

/-- Sectors of one line pass its home Reservoir: HBM is read and written through it, allocating; a far line is allocated on a read and
written through, where it is held too (R299). Write-backs of evictions are counted on. -/
def rsvLine (wr : Bool) (st : State × Nat) (e : Nat × BitVec 4) : State × Nat :=
  let n := homeSaddle (e.1 * 256)
  let through := wr && decide (farBase ≤ e.1 * 256)
  if through && (rsvWay (saddle st.1 n) e.1).isNone then st
  else
    let s := rsvCount st.1 n (rsvHeld (saddle st.1 n) e.1) e.2 wr
    let (d, k) := putLine s.guarded (saddle s n) e.1 (if through then 0 else e.2) (if wr && !through then e.2 else 0) false
    (updSaddle s n (fun _ => d), st.2 + k)

/-- An access to HBM or the far tier passes the directory of its home Reservoir; with it the write-backs. -/
def rsvAccess (s : State) (a n : Nat) (wr : Bool) : State × Nat := (lineParts a n).foldl (rsvLine wr) (s, 0)

/-- Prefetch lines into their home Reservoirs: those not held are fetched, and counted (R300, R304). -/
def prefetch (s : State) (lines : List Nat) : State :=
  lines.foldl (fun s l =>
    let n := homeSaddle (l * 256)
    if (rsvWay (saddle s n) l).isSome then s
    else satAdd (updSaddle s n (fun d => (putLine s.guarded d l 0xF#4 0 true).1)) (sBase n + 0x20000) 0 0 32 1) s

/-! ## Prefetchers (R304) -/

/-- The prefetcher for a stream: its own, a free one, else the least recently useful one. -/
def pfSlot (d : Saddle) (st : Nat) : Nat :=
  match d.pfs.find? (fun e => e.2.stream = st) with
  | some e => e.1
  | none => match (List.range 64).find? (fun k => !(mhas d.pfs k)) with
    | some k => k
    | none => ((sortBy (fun (x y : Nat × Prefetcher) => decide (x.2.used ≤ y.2.used)) d.pfs).head?.map (fun e => e.1)).getD 0

/-- A stamp later than every prefetcher's last use. -/
def pfStamp (d : Saddle) : Nat := (d.pfs.map (fun e => e.2.used)).foldl max 0 + 1

end Sys2Proof.Machine
end

