-- ==== Sys2Proof/Machine/Access.lean ====
section
/-! DEFINITION. Who reaches a register, and what a write by one who may not write does (00 R8 to R12, 19 R515 to R518). -/

namespace Sys2Proof.Machine

/-- Is the module in recovery Maintenance, where no Rider image runs (R500)? -/
def recovery (s : State) : Bool := s.mode == .maintenance && fld (rg s 0x170008 0) 24 4 == 6

/-- Is the module powered far enough for its registers to answer (R491, R520)? In Boot they read 0 and drop every write, and after a trip every clock but those of the
always-on domain is removed (R483). -/
def regsUp (s : State) : Bool :=
  match s.mode with
  | .off => false
  | .standby => false
  | .boot => false
  | .faulted => s.freason ≠ 3 && !s.tripped
  | _ => !(recovery s)

/-- An Exmas answer: its status, then its words (R510). -/
def exAnswer (s : State) (st : ExStatus) (ws : List Nat) : State := emit s (.exmas st ws)

/-- A write to a register that PF0 writes and Exmas only reads: a virtual function reaches no such register, an Exmas write answers
INVALID (R515), and a write during a reset is dropped and logged (R517). -/
def pfWrite (s : State) (r : Requester) (off v : Nat) (f : State → State) : State :=
  match r with
  | .vf _ _ => s
  | .exmas => exAnswer s .invalid []
  | .pf _ => if !(regsUp s) then s else if s.resetting.isSome then logDropped s off v else f s

/-- The same for a register whose writes a reset does not stop (R517). -/
def pfWriteAlways (s : State) (r : Requester) (f : State → State) : State :=
  match r with
  | .vf _ _ => s
  | .exmas => exAnswer s .invalid []
  | .pf _ => if regsUp s then f s else s

/-- Does accepted work go on (Table 00-7)? -/
def working (s : State) : Bool := (s.mode == .ready || s.mode == .draining) && s.resetting.isNone

/-! ## The module state (Table 00-7) -/

/-- Enter a state: a change is a cause (Table 19-8), and leaving Maintenance puts every test access port in Test-Logic-Reset (R542) and
ends the debug mode of the arrays (R151). -/
def setMode (s : State) (m : Mode) : State :=
  if s.mode = m then s
  else if s.mode = .maintenance then
    intCause { s with mode := m, taps := [], terraces := s.terraces.map (fun e => (e.1, { e.2 with debug := false })) } 14
  else intCause { s with mode := m } 14

/-- Is a run in its commit (R417)? -/
def committing (s : State) (k : Nat) : Bool :=
  (mget? (if s.hdFailed.contains 0 then s.jrn1 else s.jrn0).slots k).any (fun x => x.st == .committing)

/-- Take every running item off its terraces; its journal slot stays as it is, and so does a run that is in its commit, which resumes. -/
def dropRuns (s : State) : State :=
  let s := ((s.runs.map (fun e => e.1)).filter (fun k => !(committing s k))).foldl stopItem s
  { s with
    runs := s.runs.filter (fun e => committing s e.1)
    terraces := s.terraces.map (fun e => (e.1, { e.2 with slot := none, reachQ := [], rqWait := [] }))
    lats := [] }

/-- Enter Faulted for a reason: work stops, and the journal is retained. -/
def enterFaulted (s : State) (reason : Nat) : State := setMode { dropRuns s with freason := reason, resetting := none } .faulted

end Sys2Proof.Machine
end

