-- ==== Sys2Proof/Machine/Shed.lean ====
section
/-! DEFINITION. What Freeboard allows: the cap in force, and the rungs that the memory and the links have taken (17 R464, R467, R469,
R470, R473, R482). -/

namespace Sys2Proof.Machine

/-! ## The cap (R464) -/

def feed (s : State) (k : Nat) : Feed := mget s.feeds k {}
def rail (s : State) (k : Nat) : Rail := mget s.rails k {}
def sensor (s : State) (p : Nat) : Sensor := mget s.sensors p {}

/-- The island codes of Table 05-1. -/
def islCode : Island → Nat
  | .i => 0
  | .s => 1
  | .c => 2
  | .a => 3
  | .e => 4
  | .o => 5
  | .h => 6

/-- The number of a junction sensor: seven in each terrace, then the lanes, the Saddles and the Headworks. -/
def sensorNo : Junction → Nat
  | .terrace tg isl => 7 * tg.val + islCode isl
  | .lane fg => 448 + fg.val
  | .saddle g => 480 + g.val
  | .headwork hd => 482 + hd.val

/-- FB_CAP.LOCAL. -/
def localCap (s : State) : Nat := fld (rg s 0x150004 2800) 0 12

/-- The cap in force: the lowest of its four bounds. -/
def capInForce (s : State) : Nat :=
  let granted := match s.fb.grant with
    | some g => g.capmax
    | none => s.fb.bootCap
  min (min (localCap s) granted) (min s.fb.coolCap (900 * ((List.range 4).filter (fun k => (rail s k).st ≠ 3)).length))

/-- The ramp in force in W/ms (R455). -/
def rampInForce (s : State) : Nat :=
  match s.fb.grant with
  | some g => g.ramp
  | none => 600

/-! ## Rungs (Table 17-6) -/

/-- The rung of a die by its thermal stage: a first rung in Warm, its last in Hot. -/
def stageRung (last : Nat) : Stage → Nat
  | .normal => 0
  | .warm => 1
  | _ => last

/-- The module's memory rung: rungs 2 to 4 of the shedding order. -/
def moduleMem (s : State) : Nat := min 3 (s.fb.rung - 1)

/-- The module's link rung: rungs 5 and 6. -/
def moduleLink (s : State) : Nat := min 2 (s.fb.rung - 4)

def memRung (s : State) (g : Nat) : Nat :=
  max (moduleMem s) (max (stageRung 3 (sensor s (480 + g)).stage) (min 3 (sensor s (480 + g)).rung))

def linkRung (s : State) (hd : Nat) : Nat :=
  max (moduleLink s) (max (stageRung 2 (sensor s (482 + hd)).stage) (min 2 (sensor s (482 + hd)).rung))

/-- The fraction of a group's bandwidth that its memory rung leaves, in hundredths. -/
def memFactor (s : State) (g : Nat) : Nat := 100 - 25 * memRung s g

/-- What a Headwork's link rung divides a far port's figure by. -/
def linkDiv (s : State) (hd : Nat) : Nat := 2 ^ linkRung s hd

/-- Are reservation creations refused (rung 7, R470)? -/
def admissionsShut (s : State) : Bool := decide (7 ≤ s.fb.rung) || s.fb.unach

/-! ## Awake terraces (R466, R470) -/

/-- Is a terrace in the grant of an enabled Express allotment? -/
def expressTerrace (s : State) (tg : Nat) : Bool :=
  (List.range 1024).any (fun a => allotEn s a && allotClass s a == 2 && allotGrant s a tg)

/-- The awake terraces outside Express grants. -/
def awakeOutside (s : State) : Nat :=
  ((List.range 64).filter (fun tg => (terrace s tg).pstate == .awake && !(terrace s tg).retired && !(expressTerrace s tg))).length

/-- FB_STAT.HALT: no span of a Standard or Bulk allotment can start. -/
def halted (s : State) : Bool := decide (s.awakeMax < awakeOutside s)

/-! ## Heat (R482) -/

/-- The code of a stage in FB_TEMP. -/
def stageCode (g : Stage) : Nat := stageRung 2 g

/-- The hottest of some sensors. -/
def hottestTj (s : State) (l : List Nat) : Nat := (l.map (fun p => (sensor s p).tj)).foldl max 0

/-- The highest stage of some sensors. -/
def topStage (s : State) (l : List Nat) : Stage :=
  if l.any (fun p => stageCode (sensor s p).stage == 2) then .hot
  else if l.any (fun p => (sensor s p).stage == .warm) then .warm
  else .normal

/-- The sensors of a terrace, one in each of its islands. -/
def terraceSensors (tg : Nat) : List Nat := (List.range 7).map (fun i => 7 * tg + i)

def terraceTj (s : State) (tg : Nat) : Nat := hottestTj s (terraceSensors tg)
def terraceStage (s : State) (tg : Nat) : Stage := topStage s (terraceSensors tg)

/-- Is a ridge held at duty 1/16 by the Hot stage (Table 17-9)? -/
def ridgeHot (s : State) (r : Nat) : Bool :=
  topStage s ((List.range 28).map (fun i => 28 * r + i) ++ [448 + 2 * r, 449 + 2 * r]) == .hot

/-! ## Operating points (R459 to R462) -/

/-- The ratio of an operating point to fmax, in hundredths (Table 17-4). -/
def opRatio (n : Nat) : Nat := [40, 45, 50, 60, 70, 80, 90, 100].getD n 100

/-- A voltage in mV that moves from mv at 5 mV a microsecond toward a goal. -/
def mvAt (mv goal ns : Nat) : Nat :=
  let d := ns * 5 / 1000
  if mv ≤ goal then min goal (mv + d) else max goal (mv - d)

/-- The highest operating point up to a target whose voltage in a table is at or below the present one (R461). -/
def pointAt (vf : List Nat) (target mv : Nat) : Nat :=
  ((List.range (target + 1)).filter (fun k => decide (vf.getD k 800 ≤ mv))).foldl max 0

/-- The voltage of an operating point of a terrace in mV. -/
def Terrace.opMv (t : Terrace) (n : Nat) : Nat := t.vf.getD n 800

/-- The voltage of a terrace now. -/
def mvNow (s : State) (t : Terrace) : Nat := if t.slew then mvAt t.mv (t.opMv t.target) (s.clockNs - t.slewAt) else t.mv

/-- The operating point whose frequency runs. -/
def opNow (s : State) (t : Terrace) : Nat := if t.slew then pointAt t.vf t.target (mvNow s t) else t.op

/-- The frequency of a terrace in units of 100 kHz: its own fmax times the ratio of its operating point (R459). -/
def terraceFreq (s : State) (t : Terrace) : Nat := t.fmax * opRatio (opNow s t)

/-- The duty a terrace runs at, in sixteenths: the lowest of its limits. -/
def dutyNow (s : State) (tg : Nat) : Nat :=
  let t := terrace s tg
  let d := min t.railDuty (if t.slew then min t.prevDuty t.duty else t.duty)
  if s.capGuard || ridgeHot s (tg / 4) then min 1 d else d

end Sys2Proof.Machine
end

