-- ==== Sys2Proof/Machine/Pass.lean ====
section
/-! DEFINITION. The pass of an access through its home Saddle: the port buckets and reservations on its path, the arbiters it meets, what it fetches,
rebuilds and writes back, and the prefetchers it trains (11 R293 to R305, 12 R333 to R344). -/

namespace Sys2Proof.Machine

/-! ## Port buckets (R333, R334) -/

/-- The reset value of a bucket's configuration: EN 0, DEPTH 0x40, RATE 1 (Tables 12-11 to 12-13). -/
def weirReset : W32 := setFld (setFld (0 : W32) 16 15 0x40) 0 16 1

def weirEn (w : W32) : Bool := bit w 31

/-- The port bucket of an access: 0 HBM read, 1 HBM write, 2 far read, 3 far write (Table 12-13). -/
def portBucket (a : Nat) (wr : Bool) : Nat := (if a < farBase then 0 else 2) + wr.toNat

/-- May an open request pass a Saddle port bucket? -/
def portOpen (s : State) (n p : Nat) : Bool :=
  !(weirEn (rg s (sBase n + 0x70000 + 8 * p) weirReset)) || decide (0 < mget (saddle s n).ptok p 0)

/-- Charge a Saddle port bucket; it never falls below -4 KiB. -/
def portCharge (s : State) (n p bytes : Nat) : State :=
  if weirEn (rg s (sBase n + 0x70000 + 8 * p) weirReset) && 0 < bytes then
    updSaddle s n (fun d => { d with ptok := mset d.ptok p (max (-4096) (mget d.ptok p 0 - bytes)) })
  else s

/-! ## Paths (R338, R342) -/

/-- How an agent's accesses pass a Saddle: its source number at a Reservoir port, its class when not Bound, the allotment and its reservation, the stream
whose misses train a prefetcher, whether its grants are never revoked (R344), and whether it charges the port buckets. -/
structure Path where
  num : Nat
  cls : Nat
  allot : Nat := 0
  resv : Option Nat := none
  stream : Option Nat := none
  exempt : Bool := false
  charge : Bool := true
  deriving DecidableEq, Repr

/-- The class of an allotment's accesses at an arbiter: 1 Express, 2 Standard, 3 Bulk; 0 is Bound and 4 maintenance (Table 12-8). -/
def allotRank (s : State) (al : Nat) : Nat := 1 + classRank (allotClass s al)

/-- The ridge link by which a terrace's accesses come. -/
def ridgeNumber (tg : Nat) : Nat := tg / 4 % 4

/-- The path of a request at a Saddle: four ridge links, Sump, guard, Cistern agent and cutter, far fill and BAR4. DESIGN CHOICE: log 67. -/
def pathOf (s : State) (r : MemReq) : Path :=
  let x : Path := { num := 7, cls := allotRank s r.allot.val, allot := r.allot.val, resv := r.resv.map (fun i => i.val) }
  match r.src with
  | .terrace tg st => { x with num := ridgeNumber tg.val, stream := some (tg.val * 32 + st % 32) }
  | .lane fg => { x with num := fg.val / 2 % 4 }
  | .sump _ => { x with num := 4 }
  | .guard _ => { x with num := 5, exempt := true }
  | .cistern _ => { x with num := 6, exempt := true }
  | .cutter _ => { x with num := 6 }
  | .bar4 => { x with cls := 4 }

def rsvFind (s : State) (al i : Nat) : Option Rsv := s.rsvs.find? (fun r => r.allot == al && r.index == i)


/-- The reservation bucket that an access draws on (R336, R338), if the reservation names its resource: G0 and G1 read and write, then its far port's. -/
def rsvResource (x : Rsv) (a : Nat) (wr : Bool) : Option Nat :=
  if a < farBase then some (2 * homeSaddle a + wr.toNat)
  else if (a - farBase) / 0x20000000000 = x.port then some (4 + wr.toNat) else none

/-- Does a request travel as Bound (R338)? One whose bucket is exhausted, or whose reservation is gone or names another resource, travels as an open one
and is counted. -/
def boundPass (s : State) (q : Path) (a n : Nat) (wr : Bool) : Bool × State :=
  match q.resv with
  | none => (false, s)
  | some i =>
    match (rsvFind s q.allot i).bind (fun x => (rsvResource x a wr).map (fun k => (x, k))) with
    | some (x, k) =>
      if 0 < mget x.tok k 0 then
        (true, { s with rsvs := s.rsvs.map (fun y => if y.allot == x.allot && y.index == x.index then
          { y with tok := mset y.tok k (mget y.tok k 0 - (n : Nat)) } else y) })
      else (false, satAdd s 0x130018 0 0 16 1)
    | none => (false, satAdd s 0x130018 0 0 16 1)

/-! ## Turnout (R342 to R344) -/

/-- The stack port of a line in HBM. -/
def stackPort (s : State) (line : Nat) : Nat := (hbmPlace s.guarded (line * 256)).1

/-- Pass the Reservoir port, with the bytes of the request. -/
def passRsvPort (s : State) (n : Nat) (q : Path) (cls a bytes : Nat) : State :=
  passArb s n (6 + a / 256 % 4) [(4 * q.num + min cls 3, .one cls (beatsOf bytes) q.exempt)]

/-- Pass the stack ports: each with the sectors it is asked for, in the class of the asker. -/
def passStacks (s : State) (n cls : Nat) (exempt : Bool) (ls : List (Nat × Nat)) : State :=
  let ls := ls.filter (fun e => decide (e.1 * 256 < farBase))
  (distinct (ls.map (fun e => stackPort s e.1))).foldl (fun s k =>
    passArb s n k [(cls, .one cls ((ls.filter (fun e => stackPort s e.1 = k)).map (fun e => e.2)).sum exempt)]) s

/-! ## Uncorrectable sectors (R293, R296) -/

/-- The address of the byte at group offset o of group g. -/
def hbmAddr (g o : Nat) : Nat := o / 4096 * 8192 + g * 4096 + o % 4096

/-- The sectors at the same place in the other four data units of a sector's stripe. -/
def stripeMates (a : Nat) : List Nat :=
  let g := homeSaddle a
  let o := groupOff a
  let u := o / 256
  ((List.range 5).map (fun j => u / 5 * 5 + j)).filterMap (fun v => if v = u then none else some (hbmAddr g (v * 256 + o % 256) / 32))

/-- The 32-byte sectors of a line that an access fetches: those of the 64-byte sectors it misses. -/
def fetchedSectors (e : Nat × BitVec 4) : List Nat := ((List.range 8).filter (fun j => bit e.2 (j / 2))).map (fun j => e.1 * 8 + j)

/-- Count uncorrectable units of a stack (Table 11-13). -/
def countUnc (s : State) (n k : Nat) : State := satAdd s (sBase n + 0x10010 + 4 * k) 0 8 8 1

/-- Does the rebuild of a sector meet another that fails: a mate's, or the parity (R293)? -/
def rebuildFails (e : MemErrs) (sec : Nat) : Bool := e.par.contains sec || (stripeMates (sec * 32)).any (fun m => e.unc.contains m)

/-- The stacks whose units fail in the rebuild of sectors, beside the one that is rebuilt. DEDUCED: log 37. -/
def failingMates (s : State) (e : MemErrs) (secs : List Nat) : List Nat :=
  distinct (secs.flatMap (fun sec =>
    (((stripeMates (sec * 32)).filter (fun m => e.unc.contains m)).map (fun m => stackPort s (m / 8)))
      ++ (if e.par.contains sec then [parityStack (sec * 32)] else [])))

/-- The rebuild of a unit reads the sectors' stripe on the other stacks, as maintenance (Table 12-8). -/
def rebuildPass (s : State) (n k beats : Nat) : State :=
  ((List.range 6).filter (fun j => j ≠ k)).foldl (fun s j => passArb s n j [(4, .one 4 beats false)]) s

/-- A unit of which sectors cannot be corrected, or that lies on a Failed stack: it is rebuilt from the other five units of its stripe and
counted once, with the units that fail in it, and the sectors whose rebuild fails are poisoned; in Open mode, or with no stripe left to rebuild from, all
are. DEDUCED: log 37. -/
def rebuildUnit (s : State) (n : Nat) (e : MemErrs) (gone : Bool) (secs : List Nat) : State :=
  let k := stackPort s ((secs.headD 0) / 8)
  let s := if !s.guarded || (groupState s n ≠ 0 && !gone) then s
    else rebuildPass ((failingMates s e secs).foldl (fun s j => countUnc s n j) s) n k (distinct (secs.map (fun sec => sec / 2))).length
  let lost := secs.filter (fun sec => !s.guarded || (groupState s n ≠ 0 && !gone) || rebuildFails e sec)
  let s : State := { s with hbmPoison := sectorsBad s.hbmPoison lost }
  if lost.isEmpty then satAdd s (sBase n + 0x10034) 0 0 32 1 else s

/-- What the misses of a request in HBM meet: corrected sectors are counted, units of a Failed stack are rebuilt (R296), and so are those with
sectors that cannot be corrected (R293). DEDUCED: log 37. -/
def fetchUnits (s : State) (n : Nat) (e : MemErrs) (miss : List (Nat × BitVec 4)) : State :=
  miss.foldl (fun s m =>
    if hbmCap s.guarded ≤ m.1 * 256 || groupState s n = 2 then s
    else
      let k := stackPort s m.1
      let secs := fetchedSectors m
      if (stackOf s (6 * n + k)).failed then rebuildUnit s n e true secs
      else
        let fixed := (secs.filter (fun sec => e.corr.contains sec)).length
        let s := if fixed = 0 then s else satAdd s (sBase n + 0x10010 + 4 * k) 0 0 8 fixed
        let bad := secs.filter (fun sec => e.unc.contains sec)
        if bad.isEmpty then s else rebuildUnit (countUnc s n k) n e false bad) s

/-- Reservoir sectors that cannot be corrected (R301): a clean one is dropped, to be fetched again; a dirty one is poisoned, and its poison goes
back with it. -/
def rsvErrs (s : State) (n a len : Nat) (secs : List Nat) : State :=
  (lineParts a len).foldl (fun s e =>
    match rsvWay (saddle s n) e.1 with
    | none => s
    | some w =>
      let x := rsvHeld (saddle s n) e.1
      let bad := (List.range 4).filter (fun j => bit e.2 j && bit x.valid j && secs.contains (e.1 * 4 + j))
      let clean := bad.filter (fun j => !(bit x.dirty j))
      let dirty := bad.filter (fun j => bit x.dirty j)
      let s : State := { s with hbmPoison := sectorsBad s.hbmPoison (dirty.flatMap (fun j => [e.1 * 8 + 2 * j, e.1 * 8 + 2 * j + 1])) }
      if clean.isEmpty then s
      else updSaddle s n (fun d => { d with lines := mset d.lines (rsvSet (e.1 * 256) * 16 + w) { x with
        valid := clean.foldl (fun v j => setFld v j 1 0) x.valid } })) s

/-- Sectors that an expander returns poisoned are poisoned in it from then on (Table 11-7). -/
def expanderErrs (s : State) (secs : List Nat) : State :=
  if secs.isEmpty then s else { s with far := { s.far with poison := sectorsBad s.far.poison secs } }

/-! ## Far-tier counts (Table 11-16) -/

/-- Is an address one a Saddle serves? -/
def saddleServes (s : State) (a : Nat) : Bool :=
  match tierOf s a with
  | .hbm => true
  | .far _ => true
  | _ => false

/-- Reads of one far sector that is fetched: a poisoned one is counted at the port that returned it, and one served by the partner at the port it
was meant for (Table 11-16). -/
def farCount (s : State) (x : Nat) : State :=
  match tierOf s x with
  | .far q =>
    let off := (x - farBase) % 0x20000000000
    let reg (p : Nat) : Nat := hBase (p / 4) + 0x30008 + 0x10 * (p % 4)
    let bad (p : Nat) : Bool := s.far.bad (farBase + p * 0x20000000000 + off)
    let poison (s : State) (p : Nat) : State := if bad p then satAdd s (reg p) 0 16 16 1 else s
    if mirrored s q off then
      let lo := q % 4
      if farServes s lo off && !(bad lo) then s
      else
        let s := if farServes s lo off then poison s lo else s
        if !(farServes s (lo + 4) off) then s
        else if bad (lo + 4) then poison s (lo + 4) else satAdd s (reg lo) 0 0 16 1
    else if farOpen s q off then poison s q else s
  | _ => s

/-! ## Prefetch (R304, R305) -/

/-- The translation page that holds an address of an allotment, by the shared TLB: its first and last byte; the smallest page when the TLB does
not hold it. -/
def pageOf (d : Saddle) (al a : Nat) : Nat × Nat :=
  match d.stlb.find? (fun t => t.allot == al && decide (t.pa ≤ a) && decide (a < t.pa + 2 ^ t.size)) with
  | some t => (t.pa, t.pa + 2 ^ t.size - 1)
  | none => (a / 65536 * 65536, a / 65536 * 65536 + 65535)

/-- The lines a trained prefetcher fetches: up to DEPTH strides ahead, in the translation page of the demand, at home on its Saddle, and not yet
held (R304, R305). -/
def pfLines (d : Saddle) (n al a stride depth : Nat) : List Nat :=
  let (lo, hi) := pageOf d al a
  (distinct ((((List.range depth).map (fun i => a + stride * (i + 1))).filter (fun x => decide (lo ≤ x) && decide (x ≤ hi) && homeSaddle x = n)).map
    (fun x => x / 256))).filter (fun l => (rsvWay d l).isNone)

/-- Fetch lines ahead: those that the Reservoir does not hold pass the stack ports as prefetches, and what they meet is counted (R305, Tables 11-15 and
11-16). -/
def fetchAhead (s : State) (n : Nat) (ls : List Nat) : State :=
  let ls := ls.filter (fun l => (rsvWay (saddle s (homeSaddle (l * 256))) l).isNone)
  let s := passStacks s n prefetchClass false (ls.map (fun l => (l, 4)))
  let s := ls.foldl (fun s l => (fetchedSectors (l, 0xF#4)).foldl (fun s sec => farCount s (32 * sec)) (fetchUnits s n {} [(l, 0xF#4)])) s
  prefetch s ls

/-- A trained prefetcher fetches ahead of an address. -/
def pfFetch (s : State) (n k al a : Nat) (p : Prefetcher) : State :=
  if p.agree < 3 || p.stride < 64 || 65536 < p.stride then s
  else
    let depth := fld (rg s (sBase n + 0x2000C) 0x0F) 0 6 + 1
    let ls := pfLines (saddle s n) n al a p.stride.toNat depth
    if ls.isEmpty then s
    else
      updSaddle (fetchAhead s n ls) n (fun d => { d with pfs := mset d.pfs k { p with next := (ls.getLast?).getD p.next } })

/-- A Reservoir miss of a terrace stream trains its prefetcher, which fetches when three misses agree on a stride; from the first memory
rung on nothing is prefetched (R467). -/
def trainPf (s : State) (n st al a : Nat) : State :=
  if memRung s n ≠ 0 then s else
  let d := saddle s n
  let k := pfSlot d st
  let p : Prefetcher := match mget? d.pfs k with
    | some p => if p.stream = st then p else { stream := st, last := a, stride := 0, agree := 0, next := 0, used := pfStamp d }
    | none => { stream := st, last := a, stride := 0, agree := 0, next := 0, used := pfStamp d }
  let delta : Int := (a : Int) - p.last
  let p := if p.agree = 0 then { p with last := a, agree := 1 }
    else if delta = p.stride then { p with last := a, agree := p.agree + 1 }
    else { p with last := a, stride := delta, agree := 2 }
  pfFetch (updSaddle s n (fun d => { d with pfs := mset d.pfs k p })) n k al a p

/-- A demand hit on a prefetched line keeps the stream's prefetcher, which goes on ahead of it. -/
def pfHits (s : State) (n : Nat) (st : Option Nat) (al a : Nat) (ls : List Nat) : State :=
  let d := saddle s n
  if memRung s n ≠ 0 || !(ls.any (fun l => (rsvHeld d l).pf)) then s
  else match d.pfs.find? (fun e => some e.2.stream = st) with
    | none => s
    | some (k, p) =>
      let p := { p with used := pfStamp d }
      pfFetch (updSaddle s n (fun d => { d with pfs := mset d.pfs k p })) n k al a p

/-! ## The pass (R299) -/

/-- The write-backs of evictions pass the stack ports as maintenance. -/
def writeBacks (s : State) (n wb line : Nat) : State := if wb = 0 then s else passStacks s n 4 s.guarded [(line, 4 * wb)]

/-- Cut an access into the parts that lie in one 4 KiB window each, which have one home Saddle: (offset from the start, length). -/
def windowParts (a n : Nat) : List (Nat × Nat) :=
  if n = 0 then []
  else (List.range ((a + n - 1) / 4096 - a / 4096 + 1)).map (fun k =>
    let lo := max a ((a / 4096 + k) * 4096)
    let hi := min (a + n) ((a / 4096 + k + 1) * 4096)
    (lo - a, hi - lo))

/-- The port buckets on the path of an open request in one window, with the bytes each is charged. -/
def windowBytes (s : State) (wr : Bool) (a n : Nat) : List (Nat × Nat × Nat) :=
  let m := 64 * ((missOf (saddle s (homeSaddle a)) a n).map (fun e => popSectors e.2)).sum
  let own := if !wr then m else if a < farBase then 0 else n
  ([(homeSaddle a, portBucket a wr, own), (homeSaddle a, 1, 256 * (rsvAccess s a n wr).2)]).filter (fun e => decide (0 < e.2.2))

/-- The Saddle port buckets on the path of an open request (Table 12-5), with the bytes each is charged: its misses, or its write-through, and the
write-backs of the lines it evicts. -/
def portBytes (s : State) (a n : Nat) (wr : Bool) : List (Nat × Nat × Nat) :=
  (windowParts a n).flatMap (fun p => windowBytes s wr (a + p.1) p.2)

/-- The path of BAR4: its accesses are of no allotment, and share a source with the far fills (Table 12-8). DESIGN CHOICE: log 67. -/
def bar4Path : Path := { num := 7, cls := 4 }

/-- Do the port buckets let an open request proceed? -/
def portsOpen (s : State) (l : List (Nat × Nat × Nat)) : Bool := l.all (fun e => portOpen s e.1 e.2.1)

/-- Charge the port buckets for a request. -/
def chargePorts (s : State) (l : List (Nat × Nat × Nat)) : State := l.foldl (fun s e => portCharge s e.1 e.2.1 e.2.2) s

/-- Must a request wait for a port bucket (R333)? One that travels as Bound never does. -/
def mustWait (s : State) (q : Path) (a n : Nat) (wr : Bool) : Bool :=
  !(boundPass s q a n wr).1 && !(portsOpen s (portBytes s a n wr))

/-- An access in one window passes its home Saddle: the arbiters, the Reservoir with what the access fetches and evicts, and the prefetchers. Answers
whether it travelled as Bound. -/
def windowPass (s : State) (q : Path) (a n : Nat) (wr : Bool) (e : MemErrs) : Bool × State :=
  if !(saddleServes s a) then (false, s)
  else
    let h := homeSaddle a
    let s := rsvErrs (expanderErrs s e.far) h a n e.rsv
    let (bound, s') := boundPass s q a n wr
    let s := if bound || !q.charge then s' else chargePorts s' (portBytes s' a n wr)
    let cls := if bound then 0 else q.cls
    let miss := if wr then [] else missOf (saddle s h) a n
    let s := passRsvPort s h q cls a n
    let s := passStacks s h cls q.exempt (miss.map (fun e => (e.1, popSectors e.2)))
    let s := fetchUnits s h e miss
    let s := (miss.flatMap fetchedSectors).foldl (fun s sec => farCount s (32 * sec)) s
    let s := if wr then s else pfHits s h q.stream q.allot a ((lineParts a n).map (fun e => e.1))
    let (s, wb) := rsvAccess s a n wr
    let s := writeBacks s h wb (a / 256)
    (bound, match q.stream with
      | some st => if miss.isEmpty then s else trainPf s h st q.allot a
      | none => s)

/-- An access passes its home Saddles, window by window (R299). -/
def saddlePass (s : State) (q : Path) (a n : Nat) (wr : Bool) (e : MemErrs := {}) : Bool × State :=
  (windowParts a n).foldl (fun st p => windowPass st.2 q (a + p.1) p.2 wr e) (false, s)

end Sys2Proof.Machine
end

