-- ==== Sys2Proof/Machine/Translate.lean ====
section
/-! DEFINITION. Allotment-tagged translation, its caches and its fault records, and the reads and writes every stream and
agent makes through it (12 R322 to R332, 11 R286). -/

namespace Sys2Proof.Machine

/-! ## The walk (R325 to R330) -/

/-- Why an access did not reach memory: the KIND of Table 12-4; 8: its ATS translation is not known yet; 16: a fenced WS
byte (R286); 17: a far-tier error (R313); 18: beyond the end of a terrace memory (R79). -/
abbrev AccKind := Nat

/-- Permission masks: R, W and A of Table 12-3. -/
def permR : Nat := 1
def permW : Nat := 2
def permA : Nat := 4

/-- A page a walk found. -/
structure Leaf where
  pa : Nat
  size : Nat
  perm : Nat
  deriving DecidableEq, Repr

/-- A table entry with the poison of its read. -/
def tableEntry (s : State) (tbl idx : Nat) : Nat × Bool :=
  let bs := dpaRead s (tbl + 8 * idx) 8
  (leNat (bs.map (·.1)), bs.any (·.2))

/-- Does a page at this address lie where no page may: a reserved range, the own peer window, or any peer window while this
module has no ID (R322, R323)? -/
def physBad (s : State) (pa : Nat) : Bool :=
  match tierOf s pa with
  | .hole => true
  | .peer m =>
    let id := rg s 0x7000000 0
    !(bit id 31) || m == fld id 0 14
  | _ => false

/-- One level of the walk: the tests of R330 in their order on entry e of a level whose leaves are 2^lsz bytes (0: no leaf
at this level) and whose next table is 2^tsz bytes aligned. -/
def walkEntry (s : State) (e : Nat × Bool) (lsz tsz : Nat) (last : Bool) : Except AccKind (Leaf ⊕ Nat) :=
  let w := BitVec.ofNat 64 e.1
  let pa := fld w 8 48 * 256
  let leaf := last || bit w 1
  if e.2 then .error 4
  else if !(bit w 0) then .error 0
  else if fld w 56 8 ≠ 0 || fld w 5 3 ≠ 0 || (lsz = 0 && bit w 1) then .error 2
  else if leaf then
    if pa % 2 ^ lsz ≠ 0 then .error 2
    else if physBad s pa then .error 3
    else .ok (.inl { pa := pa, size := lsz, perm := fld w 2 3 })
  else if pa % 2 ^ tsz ≠ 0 then .error 2
  else if hbmCap s.guarded ≤ pa then .error 3
  else .ok (.inr pa)

/-- A level of the walk (Table 12-2): the index's lowest bit and length, the log2 of its leaf page (0: none), and that of the next table's alignment. -/
structure Level where
  lo : Nat
  len : Nat
  leaf : Nat
  next : Nat
  deriving DecidableEq, Repr

def walkLevels : List Level := [⟨39, 13, 0, 12⟩, ⟨30, 9, 30, 12⟩, ⟨21, 9, 21, 8⟩, ⟨16, 5, 16, 0⟩]

/-- The walk from a table on, with the addresses of the entries it reads. -/
def walkFrom (s : State) (va tbl : Nat) : List Level → Except AccKind Leaf × List Nat
  | [] => (.error 2, [])
  | l :: rest =>
    let i := va / 2 ^ l.lo % 2 ^ l.len
    match walkEntry s (tableEntry s tbl i) l.leaf l.next rest.isEmpty with
    | .error k => (.error k, [tbl + 8 * i])
    | .ok (.inl x) => (.ok x, [tbl + 8 * i])
    | .ok (.inr t) =>
      let r := walkFrom s va t rest
      (r.1, (tbl + 8 * i) :: r.2)

/-- The root table of an allotment (R328). -/
def xltRoot (s : State) (al : Nat) : Nat :=
  let b := 0x100000 + 0x10 * al
  fld (rg s b 0) 16 16 * 2 ^ 16 + fld (rg s (b + 4) 0) 0 24 * 2 ^ 32

def xltOn (s : State) (al : Nat) : Bool := bit (rg s (0x100000 + 0x10 * al + 8) 0) 31

/-- The four-level walk of an address in an allotment's tree (Table 12-2). -/
def walk (s : State) (al va : Nat) : Except AccKind Leaf :=
  if !(xltOn s al) then .error 6
  else if hbmCap s.guarded ≤ xltRoot s al then .error 3
  else (walkFrom s va (xltRoot s al) walkLevels).1

/-- The entries that a walk reads. -/
def walkReads (s : State) (al va : Nat) : List Nat :=
  if !(xltOn s al) || decide (hbmCap s.guarded ≤ xltRoot s al) then [] else (walkFrom s va (xltRoot s al) walkLevels).2

/-! ## Cached translations (R327, R332) -/

/-- Where an access is made from: a terrace, or a Saddle's own agent, which may serve an item. -/
inductive Who where
  | terrace (tg : Nat)
  | agent (saddle : Nat) (slot : Option Nat := none)
  deriving DecidableEq, Repr

/-- The Saddle whose shared TLB serves an access (R34, R327). -/
def whoSaddle : Who → Nat
  | .terrace tg => saddleOf tg
  | .agent n _ => n

def tlbHit (l : List Tlb) (al va : Nat) : Option Tlb :=
  l.find? (fun t => t.allot == al && t.va == va / 2 ^ t.size)

/-- The cached translation of an address: a pin, the terrace's TLB, or the shared TLB. -/
def cachedLeaf (s : State) (w : Who) (al va : Nat) : Option Tlb :=
  match w with
  | .terrace tg =>
    let t := terrace s tg
    (tlbHit (t.pins.flatMap (fun e => e.2)) al va).orElse (fun _ => (tlbHit t.tlb al va).orElse (fun _ =>
      tlbHit (saddle s (whoSaddle w)).stlb al va))
  | .agent n _ => tlbHit (saddle s n).stlb al va

/-- The leaf of an address: a cached one, else that of a walk. -/
def findLeaf (s : State) (w : Who) (al va : Nat) : Except AccKind Leaf :=
  if !(xltOn s al) then .error 6
  else match cachedLeaf s w al va with
    | some t => .ok { pa := t.pa, size := t.size, perm := t.perm }
    | none => walk s al va

/-- The PCIe address an ATS allotment's host-window access uses (R324). -/
def atsMap (s : State) (al pa : Nat) : Except AccKind Nat :=
  if bit (rg s (0x100000 + 0x10 * al + 8) 0) 30 then
    match tlbHit (mget s.ats (hostHd s al) []) al (pa - hostBase) with
    | some t => if t.perm = 0 then .error 5 else .ok (hostBase + t.pa + (pa - hostBase) % 2 ^ t.size)
    | none => .error 8
  else .ok pa

/-- Translate one address for an access that needs the permissions of mask need. -/
def xlate (s : State) (w : Who) (al va need : Nat) : Except AccKind Nat :=
  let va := va % 2 ^ 52
  match findLeaf s w al va with
  | .error k => .error k
  | .ok l =>
    if l.perm &&& need ≠ need then .error 1
    else
      let pa := l.pa + va % 2 ^ l.size
      match tierOf s pa with
      | .host => atsMap s al pa
      | _ => .ok pa

/-- Keep at most n entries, dropping the oldest. -/
def keepLast {α : Type} (n : Nat) (l : List α) : List α := l.drop (l.length - n)

/-- Cache the leaf an access used, in the shared TLB and in the terrace's own. -/
def cacheLeaf (s : State) (w : Who) (al va : Nat) : State :=
  let va := va % 2 ^ 52
  match findLeaf s w al va with
  | .error _ => s
  | .ok l =>
    let t : Tlb := { allot := al, va := va / 2 ^ l.size, size := l.size, pa := l.pa, perm := l.perm }
    let add (n : Nat) (x : List Tlb) : List Tlb := if (tlbHit x al va).isSome then x else keepLast n (x ++ [t])
    let s := updSaddle s (whoSaddle w) (fun d => { d with stlb := add 8192 d.stlb })
    match w with
    | .terrace tg => updTerrace s tg (fun x => { x with tlb := add 256 x.tlb })
    | .agent _ _ => s

/-! ## Reads and writes through translation -/

/-- What a read or a write met, in order. -/
structure Rd where
  data : List PByte
  accs : List Acc
  deriving DecidableEq, Repr

def Rd.append (a b : Rd) : Rd := { data := a.data ++ b.data, accs := a.accs ++ b.accs }

/-- Zero codes marked poisoned (R331). -/
def badZeros (n : Nat) : List PByte := List.replicate n (0, true)

/-- Is the data of a read of a physical address still to come: a host or peer sector that has not been delivered (R324, R443)? -/
def awaited (s : State) (pa : Nat) : Bool :=
  match tierOf s pa with
  | .host => !(s.got.contains (pa / 32))
  | .peer _ => !(s.got.contains (pa / 32))
  | _ => false

/-- Read n bytes of device virtual memory, sector by sector; a faulting sector reads as poisoned zeros (R331), and one that is
awaited is marked. -/
def vRead (s : State) (w : Who) (al va n : Nat) : Rd :=
  (sectorParts (va % 2 ^ 52) n).foldl (fun r p =>
    let a := (va + p.1) % 2 ^ 52
    match xlate s w al a permR with
    | .error k => r.append { data := badZeros p.2, accs := [{ va := a, acc := 0, kind := some k }] }
    | .ok pa =>
      let far := match tierOf s pa with
        | .far _ => farErr s pa
        | _ => false
      if awaited s pa then r.append { data := badZeros p.2, accs := [{ va := a, acc := 0, kind := some 8 }] }
      else r.append { data := dpaRead s pa p.2, accs := [{ va := a, acc := 0, kind := if far then some 17 else none }] })
    { data := [], accs := [] }

/-- The item and the fault-record source of an agent's or a terrace's accesses. -/
def peerUse (s : State) (w : Who) (al : Nat) : PeerUse :=
  match w with
  | .terrace tg => { allot := al, src := tg, slot := (runOfT s tg).map (fun e => e.1), tg := some tg }
  | .agent n k => { allot := al, src := 64 + n, slot := k, tg := none }

/-- Join runs of bytes at consecutive peer addresses in one 4 KiB window (R131): virtual address, address and bytes. -/
def joinRuns (l : List (Nat × Nat × List PByte)) : List (Nat × Nat × List PByte) :=
  l.foldr (fun a acc => match acc with
    | b :: rest =>
      if a.2.1 + a.2.2.length = b.2.1 && a.2.1 / 4096 = b.2.1 / 4096 then (a.1, a.2.1, a.2.2 ++ b.2.2) :: rest
      else a :: b :: rest
    | [] => [a]) []

/-- The writes of at most 512 bytes, the max payload of Table 14-1, that carry a run of bytes to the host. -/
def hostWrites (s : State) (hd fn a : Nat) (bs : List PByte) : State :=
  (List.range ((bs.length + 511) / 512)).foldl (fun s k =>
    let i := imgOf ((bs.drop (512 * k)).take 512)
    emit s (.hostWrite hd fn (a + 512 * k) i.bytes !i.bad.isEmpty)) s

/-- The requests of a terrace that are outstanding: a merged packet counts as one (R133). -/
def outstanding (s : State) (tg : Nat) : Nat :=
  (s.hostReqs.filter (fun q => q.tg = some tg)).length + (s.skvReqs.filter (fun q => q.tg = some tg)).length

/-- Has the sender of a request room for one more: a terrace keeps at most 512 outstanding (R133)? -/
def mayAsk (s : State) (w : Who) : Bool :=
  match w with
  | .terrace tg => decide (outstanding s tg < 512)
  | .agent _ _ => true

/-- Send the write of a run of bytes to the host window or to a peer (R324, R443): a terrace's write to a peer waits while its requests have no room,
or others wait (R133). -/
def sendWrite (s : State) (w : Who) (al : Nat) (r : Nat × Nat × List PByte) : State :=
  match tierOf s r.2.1 with
  | .host => hostWrites s (hostHd s al) (allotFn s al) (r.2.1 - hostBase) r.2.2
  | _ =>
    let send := (peerRuns r).foldl (fun s r =>
      peerRequest s (peerUse s w al) true r.1 r.2.1 r.2.2.length (imgOf r.2.2).bytes (imgOf r.2.2).bad) s
    match w with
    | .terrace tg =>
      if mayAsk s w && (terrace s tg).stores.all (fun x => x.pa.isNone) then send
      else updTerrace s tg (fun t => { t with stores := t.stores ++ [{ thr := none, va := r.1, bytes := r.2.2, pa := some r.2.1 }] })
    | .agent _ _ => send

/-- Write bytes of device virtual memory, sector by sector; a faulting write is dropped (R331). The answer holds the runs that land in the host window or
a peer window, to be sent there. -/
def vWriteRuns (s : State) (w : Who) (al va : Nat) (bs : List PByte) : State × List Acc × List (Nat × Nat × List PByte) :=
  (sectorParts (va % 2 ^ 52) bs.length).foldl
    (fun (st : State × List Acc × List (Nat × Nat × List PByte)) p =>
      let (s, l, ps) := st
      let a := (va + p.1) % 2 ^ 52
      match xlate s w al a permW with
      | .error k => (s, l ++ [{ va := a, acc := 1, kind := some k }], ps)
      | .ok pa =>
        let far := match tierOf s pa with
          | .far _ => farErr s pa
          | _ => false
        let d := (bs.drop p.1).take p.2
        (dpaWriteSector s pa d, l ++ [{ va := a, acc := 1, kind := if far then some 17 else none }],
          match tierOf s pa with
          | .peer _ => ps ++ [(a, pa, d)]
          | .host => ps ++ [(a, pa, d)]
          | _ => ps))
    (s, [], [])

/-- Send the runs of a stream's writes, contiguous ones merged (R131). -/
def sendRuns (s : State) (w : Who) (al : Nat) (ps : List (Nat × Nat × List PByte)) : State :=
  (joinRuns ps).foldl (fun s r => sendWrite s w al r) s

/-- Write bytes of device virtual memory, and send what lands in the host window or a peer window (R324, R443). -/
def vWrite (s : State) (w : Who) (al va : Nat) (bs : List PByte) : State × List Acc :=
  let r := vWriteRuns s w al va bs
  (sendRuns r.1 w al r.2.2, r.2.1)

/-- The addresses of a write whose translation is not known yet (R324). -/
def writeWaits (s : State) (w : Who) (al va n : Nat) : List Nat :=
  ((sectorParts (va % 2 ^ 52) n).filter (fun p => match xlate s w al ((va + p.1) % 2 ^ 52) permW with
    | .error k => k == 8
    | .ok _ => false)).map (fun p => (va + p.1) % 2 ^ 52)

/-! ## Terrace memories -/

/-- The sizes of WS, AS and PS by SPACE code 1, 2, 3 (R59). -/
def memSize (space : Nat) : Nat := if space = 1 then 16 * 2 ^ 20 else if space = 2 then 12 * 2 ^ 20 else 4 * 2 ^ 20

/-- The 64-byte line of a byte offset in a terrace memory (R59). -/
def lineOf (a : Nat) : Nat := a / 64

/-- The bank that holds a byte of a terrace memory of Table 04-4 (Table 03-1). -/
def bankOf (space a : Nat) : Nat :=
  let l := lineOf a
  match space with
  | 1 => (l % 32) ^^^ (l / 32 % 32) ^^^ (l / 1024 % 32)
  | 2 => 8 * (a / 2 ^ 22) + ((l % 8) ^^^ (l / 8 % 8) ^^^ (l / 64 % 8))
  | _ => (l % 16) ^^^ (l / 16 % 16) ^^^ (l / 256 % 16)

/-- The slot of a byte's line within its bank. -/
def slotOfLine (space a : Nat) : Nat :=
  let l := lineOf a
  match space with
  | 1 => l / 32 % 2 ^ 13
  | 2 => l / 8 % 2 ^ 13
  | _ => l / 16 % 2 ^ 12

def memOf (t : Terrace) (space : Nat) : Mem := if space = 1 then t.ws else if space = 2 then t.as else t.ps

def setMem (t : Terrace) (space : Nat) (m : Mem) : Terrace :=
  if space = 1 then { t with ws := m } else if space = 2 then { t with as := m } else { t with ps := m }

/-- Is a WS byte inside the entry of another allotment (R286)? -/
def fenced (t : Terrace) (al space a : Nat) : Bool :=
  space = 1 && t.res.any (fun e => e.2.allot ≠ al && e.2.base * 65536 ≤ a && a < (e.2.base + e.2.len) * 65536)

/-- Read n bytes of a terrace memory: fenced bytes and bytes past its end read as poisoned zeros (R286, R79). -/
def tRead (t : Terrace) (al space a n : Nat) : Rd :=
  (sectorParts a n).foldl (fun r p =>
    let x := a + p.1
    if memSize space ≤ x then r.append { data := badZeros p.2, accs := [] }
    else if fenced t al space x then
      r.append { data := badZeros p.2, accs := [{ va := x, acc := 0, kind := some 16 }] }
    else r.append { data := (memOf t space).read x p.2, accs := [] })
    { data := [], accs := [] }

/-- Write bytes of a terrace memory: fenced bytes and bytes past its end are dropped. -/
def tWrite (t : Terrace) (al space a : Nat) (bs : List PByte) : Terrace × List Acc :=
  (sectorParts a bs.length).foldl (fun (t, l) p =>
    let x := a + p.1
    if memSize space ≤ x then (t, l)
    else if fenced t al space x then (t, l ++ [{ va := x, acc := 1, kind := some 16 }])
    else (setMem t space ((memOf t space).writeSector x ((bs.drop p.1).take p.2)), l))
    (t, [])

/-- Read a space of Table 04-4 from a terrace. -/
def spRead (s : State) (tg al space a n : Nat) : Rd :=
  if space = 0 then vRead s (.terrace tg) al a n else tRead (terrace s tg) al space a n

/-- Write a space of Table 04-4 from a terrace, with the runs to be sent. -/
def spWrite (s : State) (tg al space a : Nat) (bs : List PByte) : State × List Acc × List (Nat × Nat × List PByte) :=
  if space = 0 then vWriteRuns s (.terrace tg) al a bs
  else
    let (t, l) := tWrite (terrace s tg) al space a bs
    (setTerrace s tg t, l, [])

/-! ## What accesses do at once -/

/-- The far port of a device physical address that an access of an allotment reaches, if it does. -/
def farPortOf (s : State) (w : Who) (al va : Nat) : Option (Nat × Nat) :=
  match findLeaf s w al (va % 2 ^ 52) with
  | .ok l =>
    let pa := l.pa + va % 2 ^ l.size
    match tierOf s pa with
    | .far p => some (p, pa)
    | _ => none
  | .error _ => none

/-- The path of an agent's accesses at a Saddle: a terrace's come by its ridge link, an agent's from the Cistern agent or cutter. DESIGN CHOICE: log 67. -/
def pathFor (s : State) (w : Who) (al : Nat) : Path :=
  { num := (match w with
      | .terrace tg => ridgeNumber tg
      | .agent _ _ => 6)
    cls := allotRank s al, allot := al }

/-- An access that meets no cached translation is walked: the entries are read through the Reservoirs (R325). -/
def passWalk (s : State) (q : Path) (w : Who) (al va : Nat) : State :=
  if (cachedLeaf s w al va).isSome then s
  else (walkReads s al va).foldl (fun s a => (saddlePass s { q with resv := none, stream := none, charge := false } a 8 false).2) s

/-- The data that was delivered for a read of a host or peer sector is used up. -/
def spend (s : State) (w : Who) (al : Nat) (a : Acc) : State :=
  if s.got.isEmpty || a.acc ≠ 0 then s
  else match xlate s w al a.va permR with
    | .ok pa => if s.got.contains (pa / 32) then { s with got := setDel s.got (pa / 32) } else s
    | .error _ => s

/-- What an access does at once: its walk, its error, fenced (R286) or in the far tier (R313), the translation now cached, and the data it uses
up. -/
def noteAcc (w : Who) (slot : Option Nat) (al : Nat) (q : Path) (s : State) (a : Acc) : State :=
  match a.kind with
  | some 16 =>
    match w with
    | .terrace tg =>
      let s := satAdd s (tBase tg + 0x1688) 0 0 32 1
      let s := rasAppend s 0x12 1 1 tg (some al) (a.va % 2 ^ 24)
      match slot with
      | some k => runErr s k 7
      | none => s
    | .agent _ _ => s
  | some 17 =>
    let s := passWalk s q w al (a.va % 2 ^ 52)
    match farPortOf s w al a.va with
    | some (p, pa) =>
      let s := rasAppend s 0x14 1 6 p (some al) pa
      match slot with
      | some k => runErr s k 8
      | none => s
    | none => s
  | none => spend (cacheLeaf (passWalk s q w al (a.va % 2 ^ 52)) w al a.va) w al a
  | some _ => passWalk s q w al (a.va % 2 ^ 52)

/-- The bytes a list of device accesses asks for: each 32-byte sector once. -/
def accBytes (l : List Acc) : Nat := 32 * (distinct (l.map (fun a => a.va / 32))).length

/-- The packets that the coalescer merges a stream's requests into (R131): one direction, contiguous sectors, one 4 KiB window; a contribution is never
merged. DEDUCED: log 34. -/
def packetsOf (l : List Acc) : List (List Acc) :=
  (l.filter (fun a => a.kind ≠ some 16)).foldr (fun a ps => match ps with
    | (b :: r) :: rest =>
      if a.acc = b.acc && a.acc ≠ 2 && a.va / 4096 = b.va / 4096 && (b.va / 32 = a.va / 32 || b.va / 32 = a.va / 32 + 1) then
        (a :: b :: r) :: rest
      else [a] :: (b :: r) :: rest
    | _ => [[a]]) []

/-- Where a packet of accesses lies at its home Saddle: the address of its first access that reaches HBM or the far tier, and the bytes from there to
its last sector's end. -/
def packetAt (s : State) (w : Who) (al : Nat) (r : List Acc) : Option (Nat × Nat × Bool) :=
  match r.filter (fun a => a.kind.isNone) with
  | [] => none
  | a :: rest =>
    match findLeaf s w al (a.va % 2 ^ 52) with
    | .ok l =>
      let pa := l.pa + a.va % 2 ^ l.size
      let last := (rest.getLast?.getD a).va
      if saddleServes s pa then some (pa, (last / 32 + 1) * 32 - a.va, decide (a.acc ≠ 0)) else none
    | .error _ => none

/-- The packets of a stream's accesses pass their home Saddles (R299). The requests that travel as open ones are answered, each with its bytes and its
port buckets (R334). -/
def passPackets (s : State) (w : Who) (al : Nat) (q : Path) (l : List Acc) : State × List Owed :=
  ((packetsOf l).filter (fun r => r.all (fun a => a.acc ≠ 2))).foldl (fun (st : State × List Owed) r =>
    match packetAt st.1 w al r with
    | none => (st.1, st.2 ++ [{ bytes := accBytes r }])
    | some (pa, n, wr) =>
      let ports := portBytes st.1 pa n wr
      let p := saddlePass st.1 q pa n wr
      (p.2, if p.1 then st.2 else st.2 ++ [{ bytes := accBytes r, ports }])) (s, [])

/-- The effects of a stream's accesses at once, and their passes of the Saddles, with the requests to be charged later; those of a stream that waits on
no bucket are charged now. -/
def noteOwed (s : State) (w : Who) (slot : Option Nat) (al : Nat) (q : Path) (l : List Acc) : State × List Owed :=
  passPackets (l.foldl (noteAcc w slot al q) s) w al q l

/-- The same, charged now. -/
def noteAccs (s : State) (w : Who) (slot : Option Nat) (al : Nat) (l : List Acc) : State := (noteOwed s w slot al (pathFor s w al) l).1

/-- The addresses whose ATS translation or data a list of accesses still waits for. -/
def atsMissing (l : List Acc) : List Nat := (l.filter (fun a => a.kind = some 8)).map (·.va)

/-- Is a sector of the host window asked for already? -/
def hostAsked (s : State) (sec : Nat) : Bool := s.hostReqs.any (fun q => q.secs.contains sec)

/-- Has a host port room for one more read: 1,024 are outstanding at most (Table 14-1)? -/
def portRoom (s : State) (hd : Nat) : Bool := decide ((s.hostReqs.filter (fun q => q.hd = hd)).length < 1024)

/-- Ask for a run of sectors of the host window or of a peer; one that finds no room, or no host port Up, waits in its stream. -/
def askRun (s : State) (w : Who) (al : Nat) (r : Nat × Nat × List PByte) : State :=
  if !(mayAsk s w) then s
  else match tierOf s r.2.1 with
    | .host =>
      let hd := hostHd s al
      if !(portUp s hd && portRoom s hd) then s
      else
        let n := r.2.2.length
        let q : HostReq := { hd, tg := (peerUse s w al).tg, allot := al, va := r.1
                             secs := (List.range (n / 32)).map (fun k => r.2.1 + 32 * k) }
        emit { s with hostReqs := s.hostReqs ++ [q] } (.hostRead hd (allotFn s al) (r.2.1 - hostBase) n)
    | _ => peerRequest s (peerUse s w al) false r.1 r.2.1 r.2.2.length [] []

/-- Ask for what an instruction waits for (R324, R443): ATS translations, and reads of the host window and of peers, merged and each once.
DEDUCED: log 32. -/
def atsAsk (s : State) (w : Who) (al : Nat) (vas : List Nat) : State :=
  let (s, ps) := vas.foldl (fun (st : State × List (Nat × Nat × List PByte)) va =>
    let (s, ps) := st
    let blank (sec : Nat) : Nat × Nat × List PByte := (va % 2 ^ 52 / 32 * 32, sec, List.replicate 32 ((0 : Byte), false))
    match xlate s w al va 0 with
    | .error 8 =>
      match findLeaf s w al (va % 2 ^ 52) with
      | .ok l =>
        let page := (l.pa + va % 2 ^ l.size - hostBase) / 65536
        let e := (hostHd s al, al, page)
        (if s.atsWant.contains e then s else { s with atsWant := s.atsWant ++ [e] }, ps)
      | .error _ => (s, ps)
    | .error _ => (s, ps)
    | .ok pa =>
      let sec := pa / 32 * 32
      match tierOf s pa with
      | .host => (s, if hostAsked s sec || ps.any (fun p => p.2.1 = sec) then ps else ps ++ [blank sec])
      | .peer _ =>
        (s, if s.skvReqs.any (fun q => !q.wr && decide (q.addr ≤ sec) && decide (sec < q.addr + q.len)) || ps.any (fun p => p.2.1 = sec) then ps
            else ps ++ [blank sec])
      | _ => (s, ps)) (s, [])
  (joinRuns ps).foldl (fun s r => askRun s w al r) s

end Sys2Proof.Machine
end

