-- ==== Sys2Proof/WellFormed.lean ====
section
/-! DEFINITION. Which commands are well-formed: the operands name a step of the block. A thread instruction's word is one of its own row of
Table 13-3 (13 R349), a packet is of its own kind (16 Table 16-4), a register write carries its own operation and is 1, 2, 4 or 8 bytes
wide. The types of the operands bound the rest. -/

namespace Sys2Proof

/-- The row of SYS.FENCE with a scope; a word with SCOPE 3 may come with any of the three and raises ILLEGAL. -/
def fenceRow (w : W64) (scope : Nat) : OpRow :=
  { maj := 13, min := 0x01, lo := 0, len := 2, val := if fld w 0 2 = 3 then 3 else scope }

/-- The row of Table 13-3 of a thread instruction, and how it issues; none for the other commands. -/
def Instr.row? : Instr → Option (Issue × OpRow)
  | .ctlNop i => some (i, { maj := 1, min := 0x00 })
  | .ctlEnd i => some (i, { maj := 1, min := 0x01 })
  | .ctlJmp i => some (i, { maj := 1, min := 0x02 })
  | .ctlJal i => some (i, { maj := 1, min := 0x03 })
  | .ctlJr i => some (i, { maj := 1, min := 0x04 })
  | .ctlSig i => some (i, { maj := 1, min := 0x08 })
  | .ctlWait i => some (i, { maj := 1, min := 0x09 })
  | .sclAdd i => some (i, { maj := 2, min := 0x00 })
  | .sclSub i => some (i, { maj := 2, min := 0x01 })
  | .sclMul i => some (i, { maj := 2, min := 0x02 })
  | .sclAnd i => some (i, { maj := 2, min := 0x03 })
  | .sclOr i => some (i, { maj := 2, min := 0x04 })
  | .sclXor i => some (i, { maj := 2, min := 0x05 })
  | .sclShl i => some (i, { maj := 2, min := 0x06 })
  | .sclShr i => some (i, { maj := 2, min := 0x07 })
  | .sclSar i => some (i, { maj := 2, min := 0x08 })
  | .sclMin i => some (i, { maj := 2, min := 0x09 })
  | .sclMax i => some (i, { maj := 2, min := 0x0A })
  | .sclMinu i => some (i, { maj := 2, min := 0x0B })
  | .sclMaxu i => some (i, { maj := 2, min := 0x0C })
  | .sclDivu i => some (i, { maj := 2, min := 0x0D })
  | .sclRemu i => some (i, { maj := 2, min := 0x0E })
  | .sclMovi i => some (i, { maj := 2, min := 0x10 })
  | .sclPlog i => some (i, { maj := 2, min := 0x11 })
  | .sclSel i => some (i, { maj := 2, min := 0x12 })
  | .sclCmpEq i => some (i, { maj := 2, min := 0x18 })
  | .sclCmpNe i => some (i, { maj := 2, min := 0x19 })
  | .sclCmpLt i => some (i, { maj := 2, min := 0x1A })
  | .sclCmpGe i => some (i, { maj := 2, min := 0x1B })
  | .sclCmpLtu i => some (i, { maj := 2, min := 0x1C })
  | .sclCmpGeu i => some (i, { maj := 2, min := 0x1D })
  | .sclLd i => some (i, { maj := 2, min := 0x20 })
  | .sclSt i => some (i, { maj := 2, min := 0x21 })
  | .dscLd i => some (i, { maj := 3, min := 0x00 })
  | .dscSt i => some (i, { maj := 3, min := 0x01 })
  | .dscMov i => some (i, { maj := 3, min := 0x02 })
  | .dscZero i => some (i, { maj := 3, min := 0x03 })
  | .dscGetb i => some (i, { maj := 3, min := 0x04 })
  | .dscSetb i => some (i, { maj := 3, min := 0x05 })
  | .dscAddb i => some (i, { maj := 3, min := 0x06 })
  | .strLd i => some (i, { maj := 4, min := 0x00, lo := 36, len := 2, val := 0 })
  | .strLdGate i => some (i, { maj := 4, min := 0x00, lo := 36, len := 2, val := 1 })
  | .strLdReach i => some (i, { maj := 4, min := 0x00, lo := 36, len := 2, val := 2 })
  | .strLdOne i => some (i, { maj := 4, min := 0x00, lo := 36, len := 2, val := 3 })
  | .strSt i => some (i, { maj := 4, min := 0x01 })
  | .strCpy i => some (i, { maj := 4, min := 0x02 })
  | .strSump i => some (i, { maj := 4, min := 0x03 })
  | .cflScan i => some (i, { maj := 5, min := 0x01 })
  | .cflIsectK2 i => some (i, { maj := 5, min := 0x02 })
  | .cflUnionK2 i => some (i, { maj := 5, min := 0x03 })
  | .cflMergeKk i => some (i, { maj := 5, min := 0x04 })
  | .cflCmpct i => some (i, { maj := 5, min := 0x05 })
  | .cflRqCut i => some (i, { maj := 5, min := 0x10 })
  | .cflRqTake i => some (i, { maj := 5, min := 0x11 })
  | .mma i => some (i, { maj := 6, min := 0x00 })
  | .mmaCfg i => some (i, { maj := 6, min := 0x01 })
  | .mmaAccrd i => some (i, { maj := 6, min := 0x02 })
  | .mmaAccwr i => some (i, { maj := 6, min := 0x03 })
  | .epi i => some (i, { maj := 7, min := 0x00 })
  | .redMaxi i => some (i, { maj := 8, min := 0x00 })
  | .redMini i => some (i, { maj := 8, min := 0x01 })
  | .redTopk i => some (i, { maj := 8, min := 0x02 })
  | .redTopkL i => some (i, { maj := 8, min := 0x03 })
  | .redSt i => some (i, { maj := 8, min := 0x04 })
  | .flmAttn i => some (i, { maj := 9, min := 0x00 })
  | .flmMerge i => some (i, { maj := 9, min := 0x01 })
  | .cisOpen i => some (i, { maj := 0x0A, min := 0x00 })
  | .cisFork i => some (i, { maj := 0x0A, min := 0x01 })
  | .cisHold i => some (i, { maj := 0x0A, min := 0x02 })
  | .cisRelease i => some (i, { maj := 0x0A, min := 0x03 })
  | .cisAppend i => some (i, { maj := 0x0A, min := 0x04 })
  | .cisTrim i => some (i, { maj := 0x0A, min := 0x05 })
  | .cisClose i => some (i, { maj := 0x0A, min := 0x06 })
  | .cisQuery i => some (i, { maj := 0x0A, min := 0x07 })
  | .hgpRun i => some (i, { maj := 0x0B, min := 0x00 })
  | .hgpMask i => some (i, { maj := 0x0B, min := 0x01 })
  | .hgpAudit i => some (i, { maj := 0x0B, min := 0x02 })
  | .latPush i => some (i, { maj := 12, min := 0x00, lo := 39, len := 1, val := 0 })
  | .latPop i => some (i, { maj := 12, min := 0x01, lo := 39, len := 1, val := 0 })
  | .latPushNb i => some (i, { maj := 12, min := 0x00, lo := 39, len := 1, val := 1 })
  | .latPopNb i => some (i, { maj := 12, min := 0x01, lo := 39, len := 1, val := 1 })
  | .latAlloc i => some (i, { maj := 12, min := 0x02 })
  | .latFree i => some (i, { maj := 12, min := 0x03 })
  | .latSend i => some (i, { maj := 12, min := 0x04 })
  | .latRot i => some (i, { maj := 12, min := 0x05 })
  | .sysSpan i => some (i, { maj := 13, min := 0x00 })
  | .sysRes i => some (i, { maj := 13, min := 0x02 })
  | .sysCycle i => some (i, { maj := 13, min := 0x03 })
  | .sysFenceT i => some (i, fenceRow i.w0 0)
  | .sysFenceS i => some (i, fenceRow i.w0 1)
  | .sysFenceH i => some (i, fenceRow i.w0 2)
  | .islandInstrStart .. => none
  | .threadUnblock .. => none
  | .streamDrained .. => none
  | .coalesceTimeout .. => none
  | .handleContest .. => none
  | .handleReturn .. => none
  | .arrayCheckFail .. => none
  | .itemFinish .. => none
  | .lateralReceipt .. => none
  | .lateralSendDone .. => none
  | .cutterPlace .. => none
  | .guardApply .. => none
  | .sumpBag .. => none
  | .sumpJobEnd .. => none
  | .flmContextSwitch .. => none
  | .flmComplete .. => none
  | .cisReadNotice .. => none
  | .cisSwapStep .. => none
  | .cisResumeScan .. => none
  | .saddleRead .. => none
  | .saddleWrite .. => none
  | .prefetcherRelease .. => none
  | .hbmStackFail .. => none
  | .hbmTempReport .. => none
  | .farPortFail .. => none
  | .farResilverDone .. => none
  | .weirRefill => none
  | .rsvRecompute => none
  | .atsInvalidate .. => none
  | .sqTailWrite .. => none
  | .cqHeadWrite .. => none
  | .sqReadComplete .. => none
  | .dispatchDecision .. => none
  | .scrubComplete .. => none
  | .commit .. => none
  | .completionPost .. => none
  | .qIntTimer .. => none
  | .gaugeLineWrite .. => none
  | .gaugeFlushTimer .. => none
  | .gaugeHeadWrite .. => none
  | .gaugeCfgWrite .. => none
  | .allotCfgWrite .. => none
  | .allotReset .. => none
  | .allotKill .. => none
  | .allotCmdDone .. => none
  | .qCfgWrite .. => none
  | .xltRootWrite .. => none
  | .xltCtxWrite .. => none
  | .xltInvalidate .. => none
  | .xltInvDone => none
  | .xltFlogPop .. => none
  | .rsvCreate .. => none
  | .rsvRelease .. => none
  | .rsvQuery .. => none
  | .rsvPctWrite .. => none
  | .skvRteWrite .. => none
  | .skvWinWrite .. => none
  | .fbCapWrite .. => none
  | .rstCtlWarm .. => none
  | .rstCtlCold .. => none
  | .rstCtlDrain .. => none
  | .rstCtlResume .. => none
  | .rasPop .. => none
  | .intStatClear .. => none
  | .intEnWrite .. => none
  | .intMessage .. => none
  | .counterLoRead .. => none
  | .rcFieldRead .. => none
  | .regWrite .. => none
  | .bar4Read .. => none
  | .bar4Write .. => none
  | .journalStepComplete => none
  | .postResetRestore => none
  | .retirementStart => none
  | .retirementStepDone => none
  | .ridgeDieFail .. => none
  | .headworkFail .. => none
  | .islandHeartbeatLoss .. => none
  | .flumeLaneFail .. => none
  | .hostPortDown .. => none
  | .hostPortUp .. => none
  | .feedOutOfRange .. => none
  | .feedValid .. => none
  | .feedReturn .. => none
  | .dischargeStart => none
  | .matePinOpen .. => none
  | .fbFastLoop .. => none
  | .fbSlowLoop .. => none
  | .voltageSettled .. => none
  | .fbFloorEval .. => none
  | .capGuard .. => none
  | .fbShadowSync => none
  | .railTelemetry .. => none
  | .phaseFail .. => none
  | .railEstimation .. => none
  | .ibcFail .. => none
  | .railFail .. => none
  | .droopDetect .. => none
  | .powerGate .. => none
  | .domainGated .. => none
  | .returnedPacket .. => none
  | .domainWake .. => none
  | .junctionSample .. => none
  | .thermalCeilingStep .. => none
  | .spillwayTrip => none
  | .energyWindowClose .. => none
  | .modEnRise .. => none
  | .riderWatchdog .. => none
  | .perstAssert .. => none
  | .perstDeassert .. => none
  | .pcieHotReset .. => none
  | .vfFlr .. => none
  | .xprsntRemove .. => none
  | .xprsntInsert .. => none
  | .getState => none
  | .powerOn .. => none
  | .powerOff => none
  | .drain => none
  | .resume => none
  | .exmasResetWarm => none
  | .exmasResetCold => none
  | .maintEnter => none
  | .readReg .. => none
  | .writeReg .. => none
  | .getEvent => none
  | .setEventReceiver .. => none
  | .configGet => none
  | .configSet .. => none
  | .retire .. => none
  | .diagRun .. => none
  | .diagDone .. => none
  | .mctpControl .. => none
  | .pldmMonitoring .. => none
  | .requestUpdate .. => none
  | .verifyComplete .. => none
  | .activateFirmware .. => none
  | .getVersion => none
  | .getCapabilities => none
  | .negotiateAlgorithms .. => none
  | .getDigests => none
  | .getCertificate .. => none
  | .challenge .. => none
  | .getMeasurements .. => none
  | .skvPortTrained .. => none
  | .skvLaneRemove .. => none
  | .skvFlitReceive .. => none
  | .skvReplayRequest .. => none
  | .skvLinkAckTimeout .. => none
  | .skvTransit .. => none
  | .read .. => none
  | .write .. => none
  | .rdata .. => none
  | .wack .. => none
  | .eack .. => none
  | .contrib .. => none
  | .budget .. => none
  | .mgmt .. => none
  | .skvE2eTimeout .. => none
  | .skvDestUnreachable .. => none
  | .slack => none
  | .budgetLifeExpire => none
  | .tapIdcode .. => none
  | .tapBypass .. => none
  | .tapSamplePreload .. => none
  | .tapExtest .. => none
  | .tapIeee1687Access .. => none
  | .tapReset .. => none
  | .stageInstructionEnd .. => none
  | .hostWindowCompletion .. => none

/-- Is a thread instruction's word one of its row, or of no instruction (which raises ILLEGAL)? -/
def Instr.wordOk (c : Instr) : Bool :=
  match c.row? with
  | some (i, r) => !(legalOp i.w0) || r.has i.w0
  | none => true

/-- Do the operands of the other commands name their own operation? -/
def Instr.operandsOk (c : Instr) : Bool :=
  match c with
  | .rsvCreate _ v => bit v 31 && fld v 28 2 == 0
  | .rsvRelease _ v => bit v 31 && fld v 28 2 == 1
  | .rsvQuery _ v => bit v 31 && fld v 28 2 == 2
  | .rstCtlWarm _ v => fld v 28 3 == 1
  | .rstCtlCold _ v => fld v 28 3 == 2
  | .rstCtlDrain _ v => fld v 28 3 == 3
  | .rstCtlResume _ v => fld v 28 3 == 4
  | .read p => p.ptype == 1
  | .write p => p.ptype == 2
  | .rdata p => p.ptype == 3
  | .wack p => p.ptype == 4
  | .eack p => p.ptype == 5
  | .contrib p => p.ptype == 6
  | .budget p => p.ptype == 7
  | .mgmt p => p.ptype == 9
  | _ => true

/-- The well-formed commands. -/
def Instr.wf (c : Instr) : Bool := c.wordOk && c.operandsOk

end Sys2Proof
end

