-- ==== Sys2Proof/Machine/Operands.lean ====
section
/-! DEFINITION. Issue: the fetch, the legality check, the predicate and the operand forms every thread instruction shares
(13 R348 to R355, 04 R82, R86). -/

namespace Sys2Proof.Machine

/-- An instruction at issue: where it issues, its PC, its words and the registers it reads (R352). -/
structure Ctx where
  tg : Nat
  thr : Nat
  pc : Nat
  t : Thread
  w0 : W64
  w1 : W64
  deriving DecidableEq, Repr

/-- The allotment of the item a terrace runs. -/
def allotOf (s : State) (tg : Nat) : Nat :=
  match runOfT s tg with
  | some (_, r) => r.allot
  | none => 0

/-- The journal slot of the item a terrace runs. -/
def slotOf (s : State) (tg : Nat) : Option Nat := (runOfT s tg).map (·.1)

/-- A store of a thread to device virtual memory, one that faults dropped (R331): none while its ATS translation is missing (R324). -/
def storeVirtual (s : State) (tg va : Nat) (bs : List PByte) : Option State :=
  let al := allotOf s tg
  if writeWaits s (.terrace tg) al va bs.length ≠ [] then none
  else
    let r := vWrite s (.terrace tg) al va bs
    let s := noteAccs r.1 (.terrace tg) (slotOf s tg) al r.2
    some (logStream s (slotOf s tg) al tg r.2)

/-- One write that waits is made, or waits on; a store asks again for its translation. -/
def retryStore (s : State) (tg : Nat) (w : StoreWait) : State :=
  let al := allotOf s tg
  let s' := match w.pa with
    | some pa => sendWrite s (.terrace tg) al (w.va, pa, w.bytes)
    | none => match storeVirtual s tg w.va w.bytes with
      | some s => s
      | none =>
        let s := atsAsk s (.terrace tg) al (writeWaits s (.terrace tg) al w.va w.bytes.length)
        updTerrace s tg (fun t => { t with stores := t.stores ++ [{ w with thr := none }] })
  match w.thr with
  | some thr => tagThread s' tg thr
  | none => s'

/-- Writes that waited are tried again, in their order. -/
def retryStores (s : State) : State :=
  ((s.terraces.filter (fun e => !e.2.stores.isEmpty)).map (fun e => (e.1, e.2.stores))).foldl (fun s e =>
    e.2.foldl (fun s w => retryStore s e.1 w) (updTerrace s e.1 (fun t => { t with stores := [] }))) s

/-- Fault codes of Table 13-5. -/
def fILLEGAL : Nat := 0x01
def fFETCH : Nat := 0x02
def fDESCRIPTOR : Nat := 0x03
def fHANDLE : Nat := 0x04
def fRANK : Nat := 0x05
def fARRAY : Nat := 0x06
def fSCALAR : Nat := 0x07
def fRESIDENCY : Nat := 0x08

/-- Raise a fault at issue. -/
def raise (c : Ctx) (code : Nat) (s : State) : State := itemFault s c.tg c.thr c.pc code

/-- The outcome of fetching one word (R351). -/
inductive Fetch where
  | ok
  | fault
  | wait
  deriving DecidableEq, Repr

/-- The 64-byte line of a PC, through the allotment's translation (R351). -/
def lineRead (s : State) (tg pc : Nat) : Rd := vRead s (.terrace tg) (allotOf s tg) (pc % 2 ^ 52 / 64 * 64) 64

/-- Fetch the word at a PC through the instruction buffer or the allotment's translation. -/
def fetchWord (s : State) (tg pc : Nat) : Fetch :=
  if pc % 8 ≠ 0 then .fault
  else if (terrace s tg).ibuf.contains (pc % 2 ^ 52 / 64) then .ok
  else if terraceFenced s tg then .wait
  else
    let r := lineRead s tg pc
    if r.accs.any (fun a => a.kind = some 8) then .wait
    else if ((r.data.drop (pc % 64)).take 8).any (·.2) then .fault
    else .ok

/-- Fetch an instruction's words. DESIGN CHOICE: log 10. -/
def fetch (s : State) (tg pc words : Nat) : Fetch :=
  match fetchWord s tg pc with
  | .ok => if words = 2 then fetchWord s tg (pc + 8) else .ok
  | f => f

/-- The addresses that a fetch waits for. -/
def fetchMissing (s : State) (tg pc : Nat) : List Nat := atsMissing ((lineRead s tg pc).accs ++ (lineRead s tg (pc + 8)).accs)

/-- Keep the line of a PC in the 32 KiB instruction buffer of 512 lines (R351): one that is not held is read through its home Saddle, and one with a
poisoned word is not kept. DESIGN CHOICE: log 10. -/
def bufferLine (s : State) (tg pc : Nat) : State :=
  let l := pc % 2 ^ 52 / 64
  if (terrace s tg).ibuf.contains l then s
  else
    let r := lineRead s tg pc
    updTerrace (noteAccs s (.terrace tg) (slotOf s tg) (allotOf s tg) r.accs) tg (fun t =>
      { t with ibuf := if r.data.any (·.2) then t.ibuf else keepLast 512 (t.ibuf ++ [l]) })

/-- Keep the lines of an instruction's words. -/
def bufferLines (s : State) (tg pc words : Nat) : State :=
  let s := bufferLine s tg pc
  if words = 2 then bufferLine s tg (pc + 8) else s

/-- The faults of a fetch are recorded: those of translation (R331), and those of the far tier (R313). -/
def logFetch (s : State) (tg pc : Nat) : State :=
  if pc % 8 ≠ 0 then s
  else
    let l := (vRead s (.terrace tg) (allotOf s tg) (if fetchWord s tg pc = .ok then pc + 8 else pc) 8).accs
    logStream (noteAccs s (.terrace tg) (slotOf s tg) (allotOf s tg) l) (slotOf s tg) (allotOf s tg) tg l

/-- Do the predicate bits of a word let it take effect (R86)? -/
def takesEffect (t : Thread) (w : W64) : Bool := t.preg (wPn w) != wPg w

/-- The instruction's words leave the Intake: the thread has issued, in a cycle of its own (R82, R380), and its PC points past them.
DESIGN CHOICE: log 71. -/
def advance (c : Ctx) (s : State) : State :=
  let s := updTerrace s c.tg (fun t => { t with lastIssue := c.thr, firstIssue := true, cycles := if t.firstIssue then t.cycles + 1 else 0 })
  updThread s c.tg c.thr (fun t => { t with pc := BitVec.ofNat 52 (c.pc + 8 * opWords c.w0) })

/-- Issue an instruction of a row of Table 13-3. A thread that is not Ready, one that is passed over (R104, R354), and a word of another row,
which that row's command issues, leave the state as it is; body gets the state with the PC past the instruction, and answers none when the thread is passed
over. DESIGN CHOICE: log 10. DEDUCED: log 13. DESIGN CHOICE: log 14. DESIGN CHOICE: log 66. -/
def issue (row : OpRow) (i : Issue) (s : State) (body : Ctx → State → Option State) :
    Host.Outcome State Fault Refusal :=
  let tg := i.tg.val
  let thr := i.thr.val
  let t := thread s tg thr
  let c : Ctx := { tg, thr, pc := t.pc.toNat, t, w0 := i.w0, w1 := i.w1 }
  if t.st ≠ .ready || (legalOp i.w0 && !(row.has i.w0)) then .next s
  else
    match fetch s tg c.pc (opWords i.w0) with
    | .wait => .next (if terraceFenced s tg then s else atsAsk s (.terrace tg) (allotOf s tg) (fetchMissing s tg c.pc))
    | .fault => .next (raise c fFETCH (logFetch s tg c.pc))
    | .ok =>
      let s := bufferLines s tg c.pc (opWords i.w0)
      if !(legalOp i.w0) then .next (raise c fILLEGAL s)
      else if !(takesEffect t i.w0) then .next (advance c s)
      else .next ((body c (advance c s)).getD s)

/-- Are all the named fields of a word 0 (R350)? Each field is (lowest bit, length). -/
def zeroFields (w : W64) (l : List (Nat × Nat)) : Bool := l.all (fun f => fld w f.1 f.2 == 0)

/-- A body that raises ILLEGAL when a field its form does not use is set. -/
def strict (l : List (Nat × Nat)) (k : Ctx → State → Option State) (c : Ctx) (s : State) : Option State :=
  if zeroFields c.w0 l then k c s else some (raise c fILLEGAL s)

/-- A body behind its checks at issue: the fault they name, else the instruction's effect. DEDUCED: log 13. -/
def checked (f : Ctx → State → Option Nat) (k : Ctx → State → Option State) (c : Ctx) (s : State) : Option State :=
  match f c s with
  | some code => some (raise c code s)
  | none => k c s

/-- Change the issuing thread. -/
def onThread (c : Ctx) (s : State) (f : Thread → Thread) : State := updThread s c.tg c.thr f

/-- The second operand of SCL arithmetic and comparisons (R358): s[b], or IMM32 sign-extended. -/
def secondOperand (c : Ctx) : W64 :=
  if bit c.w0 37 then BitVec.ofInt 64 (sfld c.w0 0 32) else c.t.sreg (fld c.w0 32 5)

/-- s[a] of the SCL and DSC forms. -/
def srcA (c : Ctx) : W64 := c.t.sreg (fld c.w0 38 5)

/-- The address s[a] + OFF of the scalar and descriptor memory forms, modulo 2^52 (R57, R360). -/
def memAddr (c : Ctx) : Nat := (srcA c + BitVec.ofInt 64 (sfld c.w0 0 32)).toNat % 2 ^ 52

/-- The value v of CTL.SIG and CTL.WAIT (Table 13-6). -/
def semValue (c : Ctx) : W32 :=
  if bit c.w0 42 then BitVec.ofNat 32 (fld c.w0 0 32) else BitVec.ofNat 32 (c.t.sreg (fld c.w0 37 5)).toNat

end Sys2Proof.Machine
end

