-- ==== Sys2Proof/Machine/Flags.lean ====
section
/-! DEFINITION. The two arithmetic flags of an item (02 R55), and the comparisons that write predicates (13 R359). -/

namespace Sys2Proof.Machine

/-- Set the sticky OVF and INV flags of the item a terrace runs; they are only ever set (R55). -/
def setFlags (s : State) (slot : Option Nat) (ovf inv : Bool) : State :=
  match slot with
  | none => s
  | some k =>
    let s := if ovf then runErr s k 0 else s
    if inv then runErr s k 1 else s

/-- The condition codes of SCL.CMP. -/
inductive Cmp where
  | eq
  | ne
  | lt
  | ge
  | ltu
  | geu
  deriving DecidableEq, Repr

/-- The comparison itself: EQ, NE, LT, GE signed, LTU, GEU unsigned (R359). -/
def Cmp.holds (k : Cmp) (a b : W64) : Bool :=
  match k with
  | .eq => a == b
  | .ne => a != b
  | .lt => a.slt b
  | .ge => !(a.slt b)
  | .ltu => a.ult b
  | .geu => !(a.ult b)

/-- Does a counter value meet a wait's target: v - t, read as signed, is at least 0 (R100)? -/
def reached (v t : W32) : Bool := !((v - t).msb)

end Sys2Proof.Machine
end

