-- ==== Sys2Proof/Machine/Layout.lean ====
section
/-! DEFINITION. Tensor descriptors and their checks at issue (04 Tables 04-4 to 04-9), dense rows and their scale planes
(03 R57 to R60), sparse headers and coordinate rows (03 R61 to R79, R548), and array operands (06 R145). -/

namespace Sys2Proof.Machine

/-! ## Descriptors -/

/-- A descriptor with its auxiliary register (R88, R91). -/
structure Desc where
  d : BitVec 256
  aux : BitVec 256
  deriving DecidableEq, Repr

def Desc.rmode (x : Desc) : Nat := fld x.d 126 2
def Desc.sat (x : Desc) : Bool := bit x.d 125
def Desc.space (x : Desc) : Nat := fld x.d 122 3
def Desc.bound (x : Desc) : Bool := bit x.d 121
def Desc.resv (x : Desc) : Nat := fld x.d 113 8
def Desc.hasAux (x : Desc) : Bool := bit x.d 112
def Desc.trans (x : Desc) : Bool := bit x.d 111
def Desc.e0 (x : Desc) : Nat := fld x.d 64 32
def Desc.form (x : Desc) : Nat := fld x.d 61 3
def Desc.layout (x : Desc) : Nat := fld x.d 57 4
def Desc.format (x : Desc) : Nat := fld x.d 52 5
def Desc.base (x : Desc) : Nat := fld x.d 0 52
def Desc.e1 (x : Desc) : Nat := fld x.d 128 28
def Desc.stride1 (x : Desc) : Nat := fld x.d 156 36 * 32
def Desc.e2 (x : Desc) : Nat := fld x.d 192 28
def Desc.stride2 (x : Desc) : Nat := fld x.d 220 36 * 32
def Desc.seed (x : Desc) : W64 := BitVec.ofNat 64 (fld x.aux 192 64)
def Desc.scaleAddr (x : Desc) : Nat := fld x.aux 140 52
def Desc.stride3 (x : Desc) : Nat := if x.hasAux then fld x.aux 92 36 * 32 else 0
/-- E3: 1 without an auxiliary register; 0 is read as 1 (Table 04-7). -/
def Desc.e3 (x : Desc) : Nat := if x.hasAux then max 1 (fld x.aux 64 28) else 1
def Desc.rowFirst (x : Desc) : Nat := fld x.d 64 32
def Desc.rowCount (x : Desc) : Nat := fld x.d 160 32
def Desc.tscr (x : Desc) : Nat := fld x.d 138 22
def Desc.cmode (x : Desc) : Bool := bit x.d 110
def Desc.treq (x : Desc) : Bool := bit x.d 109

/-- The window fields of FORM 1 (Table 04-9). -/
structure Window where
  strideH : Nat
  strideW : Nat
  h : Nat
  w : Nat
  sw : Nat
  sh : Nat
  dw : Nat
  dh : Nat
  kw : Nat
  kh : Nat
  pr : Nat
  pb : Nat
  pt : Nat
  pl : Nat
  deriving DecidableEq, Repr

def Desc.window (x : Desc) : Window :=
  { strideH := fld x.d 220 36 * 32, strideW := fld x.d 156 36 * 32, h := fld x.d 204 16, w := fld x.d 140 16
    sw := fld x.d 201 3 + 1, sh := fld x.d 198 3 + 1, dw := fld x.d 195 3 + 1, dh := fld x.d 192 3 + 1
    kw := fld x.d 136 4 + 1, kh := fld x.d 132 4 + 1
    pr := fld x.d 128 4, pb := fld x.d 104 4, pt := fld x.d 100 4, pl := fld x.d 96 4 }

/-- Output height and width of a window (R93); 0 when the extent is 0 or less. -/
def Window.oh (v : Window) : Nat :=
  let t : Int := (v.h : Int) + v.pt + v.pb - v.dh * (v.kh - 1) - 1
  (t / v.sh + 1).toNat

def Window.ow (v : Window) : Nat :=
  let t : Int := (v.w : Int) + v.pl + v.pr - v.dw * (v.kw - 1) - 1
  (t / v.sw + 1).toNat

/-- Rounding mode of element i of a conversion under the descriptor (R51, R52). -/
def Desc.rm (x : Desc) (i : Nat) : RM :=
  if x.rmode = 1 then .rtz else if x.rmode = 2 then .sr (srRandom x.seed i) else .rne

/-- The row alignment of a space (R58). -/
def rowAlign (space : Nat) : Nat := if space = 0 then 32 else 64

/-- P of R60: the bytes of scale plane of a row of n elements. -/
def scalePitch (space n : Nat) : Nat := ((n + 31) / 32 + rowAlign space - 1) / rowAlign space * rowAlign space

/-- Number of innermost rows of a FORM 0 or FORM 1 tensor in memory. -/
def Desc.memRows (x : Desc) : Nat := if x.form = 1 then x.window.h * x.window.w else x.e1 * x.e2 * x.e3

/-- Elements of a row of a FORM 0 tensor as a consumer sees it, after TRANS (R128). -/
def Desc.rowLen (x : Desc) : Nat := if x.trans then x.e1 else x.e0

/-- Address of innermost row r before wrapping (R57); dimension 1 runs fastest. -/
def Desc.rowAddr (x : Desc) (r : Nat) : Nat :=
  if x.form = 1 then x.base + r / x.window.w * x.window.strideH + r % x.window.w * x.window.strideW
  else x.base + r % x.e1 * x.stride1 + r / x.e1 % x.e2 * x.stride2 + r / x.e1 / x.e2 * x.stride3

/-- The byte past the last byte of a FORM 0 or FORM 1 tensor in a terrace memory, its scale plane included (Table 04-8). -/
def Desc.endByte (x : Desc) : Nat :=
  let row := rowBytes (ebits x.format) x.e0
  let last :=
    if x.form = 1 then (x.window.h - 1) * x.window.strideH + (x.window.w - 1) * x.window.strideW
    else (x.e1 - 1) * x.stride1 + (x.e2 - 1) * x.stride2 + (x.e3 - 1) * x.stride3
  let a := x.base + last + row
  if scaled x.format then max a (x.scaleAddr + x.memRows * scalePitch x.space x.e0) else a

/-- Does a stride break R58 for a dimension of extent e? -/
def strideBreaks (space e stride : Nat) : Bool := decide (1 < e) && stride % rowAlign space ≠ 0

/-- Does a descriptor in register k break Table 04-8? prev is register k - 1. -/
def Desc.breaks (x : Desc) (k : Nat) (prev : BitVec 256) : Bool :=
  let w := x.window
  let dense := decide (x.form ≤ 1)
  (2 < x.form) || (3 < x.space) || (7 < x.layout) || (ekind x.format).isNone
  || (x.layout ≠ 0 && 0x0E < x.format)
  || x.rmode = 3
  || (dense && x.e0 = 0) || (x.form = 0 && (x.e1 = 0 || x.e2 = 0))
  || (dense && x.base % rowAlign x.space ≠ 0)
  || (x.form = 0 && (strideBreaks x.space x.e1 x.stride1 || strideBreaks x.space x.e2 x.stride2
      || strideBreaks x.space x.e3 x.stride3))
  || (x.form = 1 && (strideBreaks x.space w.h w.strideH || strideBreaks x.space w.w w.strideW))
  || (x.form = 2 && x.base % 128 ≠ 0)
  || (x.space ≠ 0 && x.base / 2 ^ 24 ≠ 0)
  || (x.space ≠ 0 && dense && memSize x.space < x.endByte)
  || (x.space ≠ 0 && x.form = 2 && memSize x.space < x.base + 128)
  || (x.hasAux && k % 2 = 1)
  || (!x.hasAux && ((scaled x.format && x.layout = 0) || x.rmode = 2))
  || (k % 2 = 1 && bit prev 112)
  || (x.form = 2 && x.layout = 0) || (dense && x.layout ≠ 0)
  || (x.bound && (x.form = 2 || x.space ≠ 0))
  || (x.form = 2 && x.treq && x.cmode)
  || (x.form = 1 && (w.oh = 0 || w.ow = 0))

/-- The descriptor in register k of a thread, with dk+1 as its auxiliary register. -/
def descOf (t : Thread) (k : Nat) : Desc := { d := t.dreg k, aux := if k % 2 = 0 then t.dreg (k + 1) else 0 }

/-- The descriptor of register k when it breaks no rule of Table 04-8. -/
def descOk (t : Thread) (k : Nat) : Option Desc :=
  let x := descOf t k
  if x.breaks k (if k = 0 then 0 else t.dreg (k - 1)) then none else some x

/-! ## Dense rows -/

/-- One element code with its poison. -/
abbrev Code := Nat × Bool

/-- A row of element codes with its block scales. -/
structure Row where
  codes : List Code
  scales : List Code
  deriving DecidableEq, Repr

/-- The codes of n elements of w bits in a run of bytes; an element is poisoned when a byte it touches is. -/
def codesOf (w n : Nat) (bs : List PByte) : List Code :=
  (List.range n).map (fun i =>
    let lo := i * w / 8
    let hi := (i * w + w + 7) / 8
    (codeAt w (fun k => (bs.getD k (0, false)).1) i, ((bs.drop lo).take (hi - lo)).any (·.2)))

/-- Codes of w bits packed into bytes with their poison (R36). -/
def packRow (w : Nat) (cs : List Code) : List PByte :=
  (packCodes w (cs.map (·.1))).zipIdx.map (fun (b, k) =>
    let lo := 8 * k / w
    let hi := (8 * k + 7) / w + 1
    (b, ((cs.drop lo).take (hi - lo)).any (·.2)))

/-- The scale bytes of a row as codes. -/
def scaleCodes (bs : List PByte) : List Code := bs.map (fun (b : PByte) => (b.1.toNat, b.2))

/-- A row of zero codes. -/
def zeroRow (fmt n : Nat) : Row :=
  { codes := List.replicate n (0, false), scales := if scaled fmt then List.replicate ((n + 31) / 32) (0, false) else [] }

/-- A dense tensor as its consumer receives it: rows of e0 elements over dimensions e1 (fastest), e2, e3. -/
structure Tensor where
  fmt : Nat
  e0 : Nat
  e1 : Nat
  e2 : Nat
  e3 : Nat
  rows : List Row
  accs : List Acc
  ovf : Bool := false
  inv : Bool := false
  deriving DecidableEq, Repr

/-- Read one innermost row of a FORM 0 or FORM 1 tensor. -/
def readRow (s : State) (tg al : Nat) (x : Desc) (r : Nat) : Row × List Acc :=
  let w := ebits x.format
  let rd := spRead s tg al x.space (x.rowAddr r) (rowBytes w x.e0)
  let cs := codesOf w x.e0 rd.data
  if scaled x.format then
    let sc := spRead s tg al x.space (x.scaleAddr + r * scalePitch x.space x.e0) ((x.e0 + 31) / 32)
    ({ codes := cs, scales := scaleCodes sc.data }, rd.accs ++ sc.accs)
  else ({ codes := cs, scales := [] }, rd.accs)

/-- The row of a window at output pixel (i, j) and tap (a, b): zero codes outside the image (R93). -/
def windowRow (s : State) (tg al : Nat) (x : Desc) (i j a b : Nat) : Row × List Acc :=
  let w := x.window
  let ih : Int := (i : Int) * w.sh - w.pt + a * w.dh
  let iw : Int := (j : Int) * w.sw - w.pl + b * w.dw
  if 0 ≤ ih && ih < w.h && 0 ≤ iw && iw < w.w then readRow s tg al x (ih.toNat * w.w + iw.toNat)
  else (zeroRow x.format x.e0, [])

/-- The rows of a FORM 0 or FORM 1 tensor in delivery order; keep says which indices of dimension 1 are delivered (R196). -/
def readTensor (s : State) (tg al : Nat) (x : Desc) (keep : Nat → Bool) : Tensor :=
  if x.form = 1 then
    let w := x.window
    let taps := (List.range w.kh).flatMap (fun a => (List.range w.kw).map (fun b => (a, b)))
    let pix := (List.range w.oh).flatMap (fun i => (List.range w.ow).map (fun j => (i, j)))
    let rs := pix.flatMap (fun p => taps.map (fun t => windowRow s tg al x p.1 p.2 t.1 t.2))
    { fmt := x.format, e0 := x.e0, e1 := w.kh * w.kw, e2 := w.oh * w.ow, e3 := 1
      rows := rs.map (·.1), accs := rs.flatMap (·.2) }
  else
    let idx := (List.range (x.e1 * x.e2 * x.e3)).filter (fun r => keep (r % x.e1))
    let rs := idx.map (readRow s tg al x)
    { fmt := x.format, e0 := x.e0, e1 := ((List.range x.e1).filter keep).length, e2 := x.e2, e3 := x.e3
      rows := rs.map (·.1), accs := rs.flatMap (·.2) }

/-- The value of an element of a row. -/
def Row.value (fmt : Nat) (r : Row) (c : Nat) : Num × Bool :=
  let (code, bad) := r.codes.getD c (0, false)
  if scaled fmt then
    let (sc, sbad) := r.scales.getD (c / 32) (127, false)
    (decodeScaled fmt code sc, bad || sbad)
  else (decodeElem fmt code, bad)

/-- Encode a row of values (R43, R50): each element index i0 + c picks its rounding; a poisoned value poisons its code. -/
def encodeRow (fmt : Nat) (x : Desc) (i0 : Nat) (vs : List (Num × Bool)) : Row × Bool × Bool :=
  if scaled fmt then
    let blocks := (List.range ((vs.length + 31) / 32)).map (fun b =>
      let part : List (Num × Bool) := (vs.drop (32 * b)).take 32
      let (sc, cs, o, v) := encBlock fmt (fun k => x.rm (i0 + 32 * b + k)) x.sat (part.map (·.1))
      (sc, cs.zip (part.map (fun (p : Num × Bool) => p.2)), part.any (fun (p : Num × Bool) => p.2), o, v))
    ({ codes := blocks.flatMap (fun b => b.2.1), scales := blocks.map (fun b => (b.1, b.2.2.1)) },
     blocks.any (fun b => b.2.2.2.1), blocks.any (fun b => b.2.2.2.2))
  else
    let es := vs.zipIdx.map (fun (v, c) => (encodeElem fmt (x.rm (i0 + c)) x.sat v.1, v.2))
    ({ codes := es.map (fun e => (e.1.code, e.2)), scales := [] }, es.any (·.1.ovf), es.any (·.1.inv))

/-- Dimensions 0 and 1 exchanged (Table 05-8); a block-scaled format re-forms its blocks (R130). -/
def Tensor.transpose (t : Tensor) (x : Desc) : Tensor :=
  let planes := List.range (t.e2 * t.e3)
  let src (p i c : Nat) : Row × Nat := (t.rows.getD (p * t.e1 + c) { codes := [], scales := [] }, i)
  if scaled t.fmt then
    let rs := planes.flatMap (fun p => (List.range t.e0).map (fun i =>
      encodeRow t.fmt x ((p * t.e0 + i) * t.e1)
        ((List.range t.e1).map (fun c => (src p i c).1.value t.fmt i))))
    { t with e0 := t.e1, e1 := t.e0, rows := rs.map (·.1)
             ovf := t.ovf || rs.any (·.2.1), inv := t.inv || rs.any (·.2.2) }
  else
    let rs := planes.flatMap (fun p => (List.range t.e0).map (fun i =>
      ({ codes := (List.range t.e1).map (fun c => (src p i c).1.codes.getD i (0, false)), scales := [] } : Row)))
    { t with e0 := t.e1, e1 := t.e0, rows := rs }

/-- A tensor's load through its descriptor: read, gated, exchanged when TRANS = 1. -/
def loadTensor (s : State) (tg al : Nat) (x : Desc) (keep : Nat → Bool) : Tensor :=
  let t := readTensor s tg al x keep
  if x.trans then t.transpose x else t

/-- The bytes of one row in a region: its codes, then its scale bytes (R364). -/
def Row.pack (fmt : Nat) (r : Row) : List PByte :=
  packRow (ebits fmt) r.codes ++ r.scales.map (fun c => (BitVec.ofNat 8 c.1, c.2))

/-- Bytes of a packed row. -/
def packedBytes (fmt n : Nat) : Nat := rowBytes (ebits fmt) n + (if scaled fmt then (n + 31) / 32 else 0)

/-- Fill a list of bytes with zeros up to a multiple of n. -/
def padTo (n : Nat) (l : List PByte) : List PByte :=
  l ++ List.replicate ((n - l.length % n) % n) (0, false)

/-- Place rows in regions of size bytes (R364): each row starts on a 64-byte boundary; a row that fits a region whole is not
split; a longer one starts in the space left and goes on in the next regions. -/
def packRows (size : Nat) (rows : List (List PByte)) : List (List PByte) :=
  let step (acc : List (List PByte) × List PByte) (r : List PByte) : List (List PByte) × List PByte :=
    let cur := padTo 64 acc.2
    if cur.length + r.length ≤ size then (acc.1, cur ++ r)
    else if r.length ≤ size then (acc.1 ++ [acc.2], r)
    else
      let all := cur ++ r
      let n := (all.length - 1) / size
      (acc.1 ++ (List.range n).map (fun k => (all.drop (k * size)).take size), all.drop (n * size))
  let (done, cur) := rows.foldl step ([], [])
  done ++ [cur]

/-! ## Array operands (R145) -/

/-- The group sizes of Table 07-5. -/
def gszOf (c : Nat) : Nat := 2 ^ (c + 1)

/-- Bytes of an operand of l lanes and k positions, its tag line included. -/
def operandBytes (fmt g l k : Nat) : Nat :=
  64 + (k + g - 1) / g * l * ((g * ebits fmt + 7) / 8) + (if scaled fmt then (k + 31) / 32 * l else 0)

/-- The fields of a tag line (Table 07-7). -/
structure Tag where
  kused : Nat
  lanes : Nat
  first : Bool
  last : Bool
  empty : Bool
  gsz : Nat
  row : Nat
  w0 : Nat
  deriving DecidableEq, Repr

def Tag.bytes (t : Tag) : List PByte :=
  let v := t.kused + t.lanes * 2 ^ 11 + t.first.toNat * 2 ^ 23 + t.last.toNat * 2 ^ 24 + t.empty.toNat * 2 ^ 25
    + t.gsz * 2 ^ 26 + t.row % 2 ^ 32 * 2 ^ 32 + t.w0 % 2 ^ 32 * 2 ^ 64
  (leBytes 64 v).map (fun b => (b, false))

def Tag.ofBytes (bs : List PByte) : Tag :=
  let v := leNat ((bs.take 64).map (·.1))
  { kused := v % 2 ^ 11, lanes := v / 2 ^ 11 % 2 ^ 12, first := v / 2 ^ 23 % 2 = 1, last := v / 2 ^ 24 % 2 = 1
    empty := v / 2 ^ 25 % 2 = 1, gsz := v / 2 ^ 26 % 4, row := v / 2 ^ 32 % 2 ^ 32, w0 := v / 2 ^ 64 % 2 ^ 32 }

/-- The slices of an operand: per group, each lane's codes packed; a scale slice after each 32-element block. -/
def sliceBytes (fmt g k : Nat) (lanes : List Row) : List PByte :=
  let groups := (k + g - 1) / g
  (List.range groups).flatMap (fun i =>
    let sl := lanes.flatMap (fun r =>
      packRow (ebits fmt) ((List.range g).map (fun j => r.codes.getD (i * g + j) (0, false))))
    let endsBlock := (i + 1) * g % 32 = 0 || i + 1 = groups
    if scaled fmt && endsBlock then
      sl ++ lanes.map (fun r =>
        let c := r.scales.getD (i * g / 32) (0, false)
        (BitVec.ofNat 8 c.1, c.2))
    else sl)

/-- An operand with its tag line. DEDUCED: log 18. -/
def operand (fmt : Nat) (t : Tag) (lanes : List Row) : List PByte :=
  t.bytes ++ sliceBytes fmt (gszOf t.gsz) t.kused lanes

/-- A row's positions k0 to k0 + n - 1; scales are cut with them when k0 is a multiple of 32. -/
def Row.slice (r : Row) (k0 n : Nat) : Row :=
  { codes := (r.codes.drop k0).take n, scales := (r.scales.drop (k0 / 32)).take ((n + 31) / 32) }

/-- The lanes of a tensor for an Array consumer (R364): its rows, or for a window its pixels with their taps joined (R149);
the scale of a position is the one its 32-position block has in the joined row. DESIGN CHOICE: log 79. -/
def operandLanes (x : Desc) (t : Tensor) : List Row :=
  if x.form = 1 then
    (List.range t.e2).map (fun p =>
      let taps := (t.rows.drop (p * t.e1)).take t.e1
      { codes := taps.flatMap (·.codes), scales := taps.flatMap (·.scales) })
  else t.rows

/-- The operands of a load for an Array consumer under the arrangement control word (Table 13-10). -/
def arrange (x : Desc) (t : Tensor) (ctl : W64) : List (List PByte) :=
  let tl := fld ctl 54 10 + 1
  let gsz := fld ctl 46 2
  let kc := (fld ctl 48 6 + 1) * gszOf gsz
  let lanes := operandLanes x t
  let k := match lanes with
    | r :: _ => r.codes.length
    | [] => 0
  let nb := (lanes.length + tl - 1) / tl
  let nk := (k + kc - 1) / kc
  let one (b c : Nat) : List PByte :=
    let ls := (lanes.drop (b * tl)).take tl
    let kk := min kc (k - c * kc)
    operand t.fmt { kused := kk, lanes := ls.length, first := c = 0, last := c + 1 = nk, empty := false, gsz
                    row := tl * b, w0 := 0 } (ls.map (fun r => r.slice (c * kc) kc))
  if bit ctl 45 then (List.range nk).flatMap (fun c => (List.range nb).map (fun b => one b c))
  else (List.range nb).flatMap (fun b => (List.range nk).map (fun c => one b c))

/-! ## Sparse headers (R62, R63) -/

/-- A sparse header (Table 03-3). -/
structure Header where
  trunc : Bool
  tmeta : Bool
  idxw : Bool
  format : Nat
  fblk : Nat
  layout : Nat
  rows : Nat
  cols : Nat
  rowBase : Nat
  nnz : Nat
  val : Nat
  scl : Nat
  ptr : Nat
  idx : Nat
  tptr : Nat
  tidx : Nat
  valBytes : Nat
  deriving DecidableEq, Repr

def Header.ofBytes (bs : List Byte) : Header :=
  let at' (o n : Nat) : Nat := leNat ((bs.drop o).take n)
  let w := at' 0 4
  { trunc := w / 2 ^ 15 % 2 = 1, tmeta := w / 2 ^ 14 % 2 = 1, idxw := w / 2 ^ 13 % 2 = 1, format := w / 2 ^ 8 % 32
    fblk := w / 2 ^ 6 % 4, layout := w % 16, rows := at' 4 4, cols := at' 8 4, rowBase := at' 12 4, nnz := at' 16 8
    val := at' 0x18 8 % 2 ^ 52, scl := at' 0x20 8 % 2 ^ 52, ptr := at' 0x28 8 % 2 ^ 52, idx := at' 0x30 8 % 2 ^ 52
    tptr := at' 0x38 8 % 2 ^ 52, tidx := at' 0x40 8 % 2 ^ 52, valBytes := at' 0x48 8 }

/-- The 128 bytes of a header; reserved bits are written 0 (R63). -/
def Header.bytes (h : Header) : List Byte :=
  leBytes 4 (h.trunc.toNat * 2 ^ 15 + h.tmeta.toNat * 2 ^ 14 + h.idxw.toNat * 2 ^ 13 + h.format * 2 ^ 8 + h.fblk * 2 ^ 6
    + h.layout)
  ++ leBytes 4 h.rows ++ leBytes 4 h.cols ++ leBytes 4 h.rowBase ++ leBytes 8 h.nnz ++ leBytes 8 h.val ++ leBytes 8 h.scl
  ++ leBytes 8 h.ptr ++ leBytes 8 h.idx ++ leBytes 8 h.tptr ++ leBytes 8 h.tidx ++ leBytes 8 h.valBytes
  ++ List.replicate 48 0

/-- The block edge of a layout (Table 03-2); 1 for the element layouts. -/
def Header.edge (h : Header) : Nat :=
  match h.layout with
  | 1 => 8 * 2 ^ h.fblk
  | 2 => 8
  | 3 => 16
  | 4 => 32
  | _ => 1

def ceilDiv (a b : Nat) : Nat := (a + b - 1) / b

def Header.rb (h : Header) : Nat := ceilDiv h.rows h.edge
def Header.cb (h : Header) : Nat := ceilDiv h.cols h.edge

/-- Pointer rows of the segment: block rows, rows, or for CSC columns; of the transpose when t. -/
def Header.prows (h : Header) (t : Bool) : Nat :=
  if h.layout = 6 then (if t then h.rows else h.cols) else (if t then h.cb else h.rb)

/-- Bytes of one payload: a block, or one value (R66, R69). -/
def Header.payloadBytes (h : Header) : Nat := h.edge * h.edge * ebits h.format / 8

/-- The bytes of VAL for n payloads: blocks, or values packed by R36. -/
def Header.valExtent (h : Header) (n : Nat) : Nat :=
  if h.edge = 1 then rowBytes (ebits h.format) n else n * h.payloadBytes

/-- Bytes of the scale array. -/
def Header.sclExtent (h : Header) (n : Nat) : Nat :=
  if !(scaled h.format) then 0 else if h.edge = 1 then ceilDiv n 32 else n * (h.edge * h.edge / 32)

def Header.ptrWidth (h : Header) : Nat := if h.idxw then 8 else 4

/-- The arrays of a header: address and extent in bytes; the index array of a Furrow tensor counts as 0 bytes. DESIGN CHOICE: log 79. -/
def Header.arrays (h : Header) : List (Nat × Nat) :=
  let ptrN := match h.layout with
    | 1 => ceilDiv (ceilDiv h.rb 8 * ceilDiv h.cb 8) 32 * 8
    | 7 => 0
    | _ => (h.prows false + 1) * h.ptrWidth
  let idxN := match h.layout with
    | 1 => 0
    | 7 => h.nnz * 8
    | _ => h.nnz * 4
  let tp := if h.tmeta then (h.prows true + 1) * h.ptrWidth else 0
  let ti := if h.tmeta then h.nnz * 8 else 0
  [(h.val, h.valExtent h.nnz), (h.scl, h.sclExtent h.nnz), (h.ptr, ptrN), (h.idx, idxN), (h.tptr, tp), (h.tidx, ti)]

/-- Does a header break R63, R90 or R92 for the descriptor that names it, or lack what a TRANS load needs (R128)? DEDUCED: log 19. -/
def Header.breaks (h : Header) (x : Desc) : Bool :=
  h.layout = 0 || 7 < h.layout || h.layout ≠ x.layout || h.format ≠ x.format
  || (h.layout = 1 && h.fblk = 3)
  || h.arrays.any (fun a => a.1 % 64 ≠ 0)
  || (!h.idxw && 2 ^ 32 - 1 < h.nnz)
  || (x.space ≠ 0 && h.arrays.any (fun a => a.1 / 2 ^ 24 ≠ 0 || memSize x.space < a.1 + a.2))
  || (x.trans && !h.tmeta)

/-- Read the header a FORM 2 descriptor names. DEDUCED: log 19. -/
def readHeader (s : State) (tg al : Nat) (x : Desc) : Header × Bool × List Acc :=
  let r := spRead s tg al x.space x.base 128
  (Header.ofBytes (r.data.map (·.1)), r.data.any (·.2), r.accs)

/-! ## Coordinate rows (R65 to R72, R79, R548) -/

/-- One entry of a coordinate row: coordinate, absolute entry (payload or value) index, poison. -/
structure Entry where
  coord : Nat
  index : Nat
  bad : Bool
  deriving DecidableEq, Repr

/-- A coordinate row: its segment-relative number, its entries up to an end marker, and whether what located it was poisoned; gaps: the groups of a
Furrow row that are empty because their summary word or record was poisoned. -/
structure CRow where
  row : Nat
  entries : List Entry
  bad : Bool
  gaps : List Nat := []
  deriving DecidableEq, Repr

/-- A little-endian number read from a space, with poison. -/
def readNum (s : State) (tg al space a n : Nat) : Nat × Bool × List Acc :=
  let r := spRead s tg al space a n
  (leNat (r.data.map (·.1)), r.data.any (·.2), r.accs)

/-- The entries before an end marker (Table 03-4). -/
def cutMarker : List Entry → List Entry
  | [] => []
  | e :: r => if e.coord = 0xFFFFFFFF then [] else e :: cutMarker r

/-- A row of BSR, CSR or CSC by its pointers, or by TPTR and TIDX (R71, R212); only entries lo to hi - 1 (R178). -/
def ptrRow (s : State) (tg al : Nat) (x : Desc) (h : Header) (i lo hi : Nat) : CRow × List Acc :=
  let pw := h.ptrWidth
  let pa := if x.trans then h.tptr else h.ptr
  let (p0, b0, a0) := readNum s tg al x.space (pa + i * pw) pw
  let (p1, b1, a1) := readNum s tg al x.space (pa + (i + 1) * pw) pw
  if b0 || b1 then ({ row := i, entries := [], bad := true }, a0 ++ a1)
  else
    let f := max p0 lo
    let n := min p1 hi - f
    let es := (List.range (if p1 ≤ p0 then 0 else n)).map (fun k =>
      let e := f + k
      if x.trans then
        let (v, b, a) := readNum s tg al x.space (h.tidx + 8 * e) 8
        (({ coord := v / 2 ^ 32, index := v % 2 ^ 32, bad := b } : Entry), a)
      else
        let (v, b, a) := readNum s tg al x.space (h.idx + 4 * e) 4
        (({ coord := v, index := e, bad := b } : Entry), a))
    ({ row := i, entries := cutMarker (es.map (·.1)), bad := false }, a0 ++ a1 ++ es.flatMap (·.2))

/-- Ones of v among its bits below n. -/
def popBelow (v n : Nat) : Nat := ((List.range n).filter (fun k => v / 2 ^ k % 2 = 1)).length

/-- A block row of a Furrow tensor (R67, R68). -/
def furrowRow (s : State) (tg al : Nat) (x : Desc) (h : Header) (i : Nat) : CRow × List Acc :=
  let gc := ceilDiv h.cb 8
  let parts := (List.range gc).map (fun gj =>
    let g := i / 8 * gc + gj
    let (sw, b, a) := readNum s tg al x.space (h.ptr + 8 * (g / 32)) 8
    if b then (([] : List Entry), true, a)
    else if sw / 2 ^ (g % 32) % 2 = 0 then ([], false, a)
    else
      let r := sw / 2 ^ 32 + popBelow sw (g % 32)
      let (mask, bm, am) := readNum s tg al x.space (h.idx + 16 * r) 8
      let (pay, bp, ap) := readNum s tg al x.space (h.idx + 16 * r + 8) 4
      if bm || bp then ([], true, a ++ am ++ ap)
      else
        ((List.range 8).filterMap (fun v =>
          let u := i % 8 * 8 + v
          if mask / 2 ^ u % 2 = 1 && gj * 8 + v < h.cb then
            some { coord := gj * 8 + v, index := pay + popBelow mask u, bad := false }
          else none), false, a ++ am ++ ap))
  ({ row := i, entries := parts.flatMap (·.1), bad := parts.any (·.2.1)
     gaps := (List.range gc).filter (fun k => (parts.getD k ([], false, [])).2.1) }, parts.flatMap (·.2.2))

/-- The rows a COO walk delivers (R548): state is (current row, its entries so far, ended, rows closed, newest first). -/
def cooWalk (first last : Nat) (pairs : List (Nat × Nat × Nat × Bool)) : List CRow :=
  let close (c : Nat) (es : List Entry) : CRow := { row := c, entries := es, bad := false }
  let step (st : Nat × List Entry × Bool × List CRow) (p : Nat × Nat × Nat × Bool) :=
    let (c, es, ended, done) := st
    let (k, r, col, bad) := p
    if r < first || last < r then st
    else
      let (c, es, ended, done) :=
        if c < r then
          (r, ([] : List Entry), false,
            done ++ [close c es] ++ (List.range (r - c - 1)).map (fun j => close (c + 1 + j) []))
        else (c, es, ended, done)
      if ended then (c, es, ended, done)
      else if col = 0xFFFFFFFF then (c, es, true, done)
      else (c, es ++ [{ coord := col, index := k, bad := bad }], ended, done)
  let (c, es, _, done) := pairs.foldl step (first, [], false, [])
  done ++ [close c es] ++ (List.range (last - c)).map (fun j => close (c + 1 + j) [])

/-- The rows of a COO segment. -/
def cooRows (s : State) (tg al : Nat) (x : Desc) (h : Header) (first last : Nat) : List CRow × List Acc :=
  let ps := (List.range h.nnz).map (fun k =>
    let (v, b, a) := readNum s tg al x.space (h.idx + 8 * k) 8
    ((k, v / 2 ^ 32, v % 2 ^ 32, b), a))
  (cooWalk first last (ps.map (·.1)), ps.flatMap (·.2))

/-- Rows first to first + n - 1 of a compressed tensor; lo and hi bound the entries of a reach (R178). -/
def coordRows (s : State) (tg al : Nat) (x : Desc) (h : Header) (first n lo hi : Nat) : List CRow × List Acc :=
  if n = 0 then ([], [])
  else if h.layout = 7 then cooRows s tg al x h first (first + n - 1)
  else
    let rs := (List.range n).map (fun k =>
      if h.layout = 1 then furrowRow s tg al x h (first + k) else ptrRow s tg al x h (first + k) lo hi)
    (rs.map (·.1), rs.flatMap (·.2))

/-- The rows a descriptor asks for: to the end of the segment when ROW_COUNT = 0 (R90). -/
def rowRange (x : Desc) (h : Header) : Nat × Nat :=
  let total := h.prows x.trans
  (x.rowFirst, if x.rowCount = 0 then total - x.rowFirst else min x.rowCount (total - x.rowFirst))

/-! ## Coordinate regions (R163 to R165) -/

/-- The header of Table 07-2. -/
def regionHeader (n row : Nat) (trunc cont last : Bool) (bases : List Nat) : List PByte :=
  ((leBytes 4 n ++ leBytes 4 row ++ leBytes 4 (trunc.toNat * 4 + cont.toNat * 2 + last.toNat) ++ leBytes 4 0
    ++ ((List.range 16).map (fun i => leBytes 8 (bases.getD i 0))).flatten).map (fun b => (b, false)))

/-- The records of rows: (row, bytes, starts its row). DEDUCED: log 18. -/
def rowRecords (base : Nat) (rs : List CRow) : List (Nat × List PByte × Bool) :=
  rs.flatMap (fun r =>
    let es := r.entries.map (fun e =>
      let i : Int := (e.index : Int) - base
      ((leBytes 4 e.coord ++ leBytes 4 (i % (2 ^ 32 : Nat)).toNat).map (fun (b : Byte) => ((b, e.bad) : PByte)) : List PByte))
    let all : List (List PByte) := es ++ [(leBytes 4 0xFFFFFFFF ++ leBytes 4 0).map (fun (b : Byte) => ((b, r.bad) : PByte))]
    all.zipIdx.map (fun (b, k) => (r.row, b, decide (k = 0))))

/-- Cut a list into pieces of n. -/
def chunks {α : Type} (n : Nat) (l : List α) : List (List α) :=
  (List.range (ceilDiv l.length (max 1 n))).map (fun k => (l.drop (k * max 1 n)).take (max 1 n))

/-- Records of a size laid out in regions of size bytes. -/
def recordRegions (size recSize : Nat) (bases : List Nat) (rs : List (Nat × List PByte × Bool)) : List (List PByte) :=
  let cap := (size - 0x90) / recSize
  let cs := chunks cap rs
  let n := cs.length
  if n = 0 then [regionHeader 0 0 false false true bases]
  else cs.zipIdx.map (fun (c, k) =>
    match c with
    | (row, _, starts) :: _ =>
      regionHeader c.length row false (!starts) (decide (k + 1 = n)) bases ++ c.flatMap (fun r => r.2.1)
    | [] => [])

/-- The region of a poisoned header: no records, LAST, every sector poisoned (Table 03-4). -/
def poisonedRegion (size : Nat) : List PByte :=
  let h : List PByte := regionHeader 0 0 false false true []
  (h ++ List.replicate (size - h.length) ((0, false) : PByte)).map (fun (b : PByte) => (b.1, true))

end Sys2Proof.Machine
end

