-- ==== Sys2Proof/Machine/Pools.lean ====
section
/-! DEFINITION. Buffer handles, pools and lateral queues (05 R108 to R121, 04 R101), the command queues of the islands
(R104, R105), the Weir's terrace and allotment buckets (12 R333 to R335), and the delivery of a unit's output regions. -/

namespace Sys2Proof.Machine

/-! ## Handles and pools -/

def idleHandle : BitVec 16 := 0xFFFF#16
def hMem (h : BitVec 16) : Nat := fld h 14 2
def hIdx (h : BitVec 16) : Nat := fld h 0 14
def mkHandle (m i : Nat) : BitVec 16 := BitVec.ofNat 16 (m * 2 ^ 14 + i % 2 ^ 14)

def poolOf (t : Terrace) (p : Nat) : Pool := mget t.pools p {}
def setPool (t : Terrace) (p : Nat) (x : Pool) : Terrace := { t with pools := mset t.pools p x }

/-- Region size in bytes (R109). -/
def Pool.size (p : Pool) : Nat := 2 ^ (10 + p.rsz)

/-- Handles now Free (R113). -/
def Pool.free (p : Pool) : Nat := p.count - p.used.length

/-- Does a handle name a region of a configured pool (Table 05-5)? -/
def handleOk (t : Terrace) (h : BitVec 16) : Bool :=
  let p := poolOf t (hMem h)
  decide (hMem h < 3) && p.valid && decide (hIdx h < p.count)

/-- The size of the region a handle names. -/
def regionSize (t : Terrace) (h : BitVec 16) : Nat := (poolOf t (hMem h)).size

/-- The first byte of the region (R109). -/
def regionBase (t : Terrace) (h : BitVec 16) : Nat :=
  let p := poolOf t (hMem h)
  (p.base + hIdx h) * p.size

/-- Set the state of a handle; none is Free (Table 05-4). -/
def setHandle (t : Terrace) (h : BitVec 16) (st : Option HState) : Terrace :=
  let p := poolOf t (hMem h)
  setPool t (hMem h) { p with used := match st with
    | some x => mset p.used (hIdx h) x
    | none => mdel p.used (hIdx h) }

def handleState (t : Terrace) (h : BitVec 16) : Option HState := mget? (poolOf t (hMem h)).used (hIdx h)

/-- Free a handle: it Returns to its pool; a free of one that is Free or Returning is a handle fault at the pool (R111,
Table 05-5). -/
def freeHandle (s : State) (tg thr pc : Nat) (h : BitVec 16) : State :=
  let t := terrace s tg
  match handleState t h with
  | some .held => setTerrace s tg (setHandle t h (some .returning))
  | some .queued => setTerrace s tg (setHandle t h (some .returning))
  | _ => itemFault s tg thr pc fHANDLE

/-- Free several handles. -/
def freeHandles (s : State) (tg thr pc : Nat) (l : List (BitVec 16)) : State :=
  l.foldl (fun s h => freeHandle s tg thr pc h) s

/-- Read the first n bytes of the region of a handle. -/
def readRegion (s : State) (tg : Nat) (h : BitVec 16) (n : Nat) : Rd :=
  let t := terrace s tg
  tRead t (allotOf s tg) (hMem h + 1) (regionBase t h) n

/-- The whole region of a handle. -/
def regionBytes (s : State) (tg : Nat) (h : BitVec 16) : List PByte :=
  (readRegion s tg h (regionSize (terrace s tg) h)).data

/-- Write bytes at the start of the region of a handle. -/
def writeRegion (s : State) (tg : Nat) (h : BitVec 16) (off : Nat) (bs : List PByte) : State :=
  let t := terrace s tg
  let (t', l) := tWrite t (allotOf s tg) (hMem h + 1) (regionBase t h + off) bs
  noteAccs (setTerrace s tg t') (.terrace tg) (slotOf s tg) (allotOf s tg) l

/-! ## Lateral queues -/

def lqOf (t : Terrace) (q : Nat) : LQueue := mget t.lqs q {}
def setLq (t : Terrace) (q : Nat) (x : LQueue) : Terrace := { t with lqs := mset t.lqs q x }

/-- Does island code p produce queue q; does island code c consume it (R115)? -/
def produces (t : Terrace) (p q : Nat) : Bool := (lqOf t q).bound && (lqOf t q).prod == p
def consumes (t : Terrace) (c q : Nat) : Bool := (lqOf t q).bound && (lqOf t q).cons == c

/-- The four counts of a crossing between two islands (R105, R107): credits the producer holds, entries in the FIFO, entries taken whose acknowledge
is in flight, and acknowledges sampled and not yet counted. -/
structure Crossing where
  credits : Nat
  fifo : Nat
  acks : Nat
  sampled : Nat
  deriving DecidableEq, Repr

/-- The commands waiting for an island, oldest first. -/
def cmdsOf (t : Terrace) (isl : Nat) : List Cmd := mget t.cmdq isl []
def setCmds (t : Terrace) (isl : Nat) (l : List Cmd) : Terrace := { t with cmdq := mset t.cmdq isl l }

/-- The crossing from island a to island b. What waits in one is the commands that the Intake has forwarded and the island has not started; every
other entry is taken, and its credit is back, before the next command. DESIGN CHOICE: log 14. -/
def crossing (t : Terrace) (a b : Nat) : Crossing :=
  let n := if a = 0 then (cmdsOf t b).length else 0
  { credits := 12 - n, fifo := n, acks := 0, sampled := 0 }

/-- Does the producer of a crossing hold a credit (R105)? -/
def hasCredit (t : Terrace) (a b : Nat) : Bool := decide (0 < (crossing t a b).credits)

/-- The four counts of a queue (R116): tokens its producer holds, pushes on the crossing, entries, and tokens on their way back. -/
structure Tokens where
  held : Nat
  pushes : Nat
  entries : Nat
  returning : Nat
  deriving DecidableEq, Repr

/-- The counts of queue q. A token whose crossing had no credit is on its way back until it has one; every other is back before the command after
the pop. DESIGN CHOICE: log 14. -/
def tokensOf (t : Terrace) (q : Nat) : Tokens :=
  let n := (lqOf t q).entries.length
  let b := (lqOf t q).back
  { held := 32 - n - b, pushes := 0, entries := n, returning := b }

/-- Is there a space token for queue q (R116)? -/
def lqRoom (t : Terrace) (q : Nat) : Bool := decide (0 < (tokensOf t q).held)

/-- Has the producer of queue q the crossing credit that a push spends (R116)? A queue between an island and itself has no crossing. -/
def pushCredit (t : Terrace) (q : Nat) : Bool := (lqOf t q).prod == (lqOf t q).cons || hasCredit t (lqOf t q).prod (lqOf t q).cons

/-- The issue numbers of the threads whose push to queue q waits for a token (R117). -/
def pushWaiters (t : Terrace) (q : Nat) : List Nat :=
  t.threads.filterMap (fun e => match e.2.st with
    | .blocked (.push _ q' _ n) => if q' = q then some n else none
    | _ => none)

/-- Push a handle: it becomes Queued. -/
def pushQ (t : Terrace) (q : Nat) (h : BitVec 16) : Terrace :=
  let x := lqOf t q
  setHandle (setLq t q { x with entries := x.entries ++ [h] }) h (some .queued)

/-- Does the crossing of queue q from its consumer to its producer lack a credit for a space token (R105, R116)? -/
def tokenWaits (t : Terrace) (q : Nat) : Bool := (lqOf t q).cons ≠ (lqOf t q).prod && !(hasCredit t (lqOf t q).cons (lqOf t q).prod)

/-- Pop the head of a queue: it becomes Held, and its space token goes back to the producer. -/
def popQ (t : Terrace) (q : Nat) : Option (BitVec 16 × Terrace) :=
  let x := lqOf t q
  match x.entries with
  | [] => none
  | h :: r => some (h, setHandle (setLq t q { x with entries := r, back := x.back + (tokenWaits t q).toNat }) h (some .held))

/-- The space tokens that waited for a credit cross once there is one. -/
def returnTokens (t : Terrace) : Terrace :=
  { t with lqs := t.lqs.map (fun e => (e.1, if tokenWaits t e.1 then e.2 else { e.2 with back := 0 })) }

/-- Has a unit delivered everything, with nothing left to do? -/
def Exec.finished (e : Exec) : Bool := e.ready && e.outs.isEmpty && e.got.isNone && e.owed.isEmpty

/-- Is a reservation admitted (R336)? -/
def rsvAdmitted (s : State) (al i : Nat) : Bool := s.rsvs.any (fun r => r.allot = al && r.index = i)

/-- The reservation of the bound stream that has not ended and feeds queue q (R96): one that runs, or a load that holds its context from its issue
(R104). -/
def boundFeed (s : State) (tg q : Nat) : Option Nat :=
  let t := terrace s tg
  let running := t.execs.filterMap (fun e => if e.1 < 16 && e.2.outQ == q && !e.2.finished then e.2.bound else none)
  let queued := (cmdsOf t 1).filterMap (fun c =>
    let x := descOf c.th (fld c.w0 44 4)
    if wMaj c.w0 == 4 && wMin c.w0 == 0 && fld c.w0 40 4 == q && x.bound && rsvAdmitted s (allotOf s tg) x.resv then some x.resv else none)
  (running ++ queued).head?

/-- Does a bound stream that has not ended feed queue q? -/
def boundOpen (s : State) (tg q : Nat) : Bool := (boundFeed s tg q).isSome

/-- Record a bound miss (R96): a consumer found no buffer in the queue of a bound stream that has not ended. -/
def boundMiss (s : State) (tg q : Nat) : State :=
  match boundFeed s tg q with
  | some r =>
    let s := rasAppend s 0x11 1 1 tg (some (allotOf s tg)) r
    match slotOf s tg with
    | some k => runErr s k 3
    | none => s
  | none => s

/-! ## Command queues and units -/

/-- Forward an instruction to an island: passed over when its crossing has no credit (R104, R105). DESIGN CHOICE: log 14. -/
def forward (c : Ctx) (s : State) (isl : Nat) (aud : Bool := false) (tile : Option AccTag := none) :
    Option State :=
  let t := terrace s c.tg
  let l := cmdsOf t isl
  if !(hasCredit t 0 isl) then none
  else some (setTerrace s c.tg { setCmds t isl (l ++ [{ thr := c.thr, w0 := c.w0, w1 := c.w1, th := c.t, seq := t.seqno, aud, tile }])
    with seqno := t.seqno + 1 })

/-- Does a Sluice command open a stream (R362)? -/
def opensStream (w : W64) : Bool := wMaj w == 0x04 && decide (wMin w ≤ 0x02)

/-- Stream contexts held, those of forwarded instructions included (R104). -/
def contextsHeld (t : Terrace) : Nat :=
  (t.execs.filter (fun e => e.1 < 16)).length + ((cmdsOf t 1).filter (fun c => opensStream c.w0)).length

/-- Forward an instruction that opens a stream: passed over while all 16 contexts are held (R104). -/
def forwardStream (c : Ctx) (s : State) : Option State :=
  if 16 ≤ contextsHeld (terrace s c.tg) then none else forward c s 1

def execOf (t : Terrace) (u : Nat) : Option Exec := mget? t.execs u
def setExec (t : Terrace) (u : Nat) (e : Exec) : Terrace := { t with execs := mset t.execs u e }
def delExec (t : Terrace) (u : Nat) : Terrace := { t with execs := mdel t.execs u }

/-- A fault found by a stage when it performs an instruction, reported as R83 states for faults at issue (R92). -/
def stageFault (s : State) (tg : Nat) (c : Cmd) (code : Nat) : State := itemFault s tg c.thr c.th.pc.toNat code

/-- Raise two flags of the item a terrace runs. -/
def flagT (s : State) (tg : Nat) (ovf inv : Bool) : State := setFlags s (slotOf s tg) ovf inv

/-- What an instruction's accesses to memory do at once, and the records of its translation faults, formed when its last
request is made. -/
def performed (s : State) (tg : Nat) (l : List Acc) : State := noteAccs s (.terrace tg) (slotOf s tg) (allotOf s tg) l

/-- The translation fault records of a unit's stream (R331). -/
def logUnit (s : State) (tg : Nat) (l : List Acc) : State := logStream s (slotOf s tg) (allotOf s tg) tg l

/-- A unit at work that wants its next region and finds the queue of a bound stream empty has a bound miss, once for each region (R96). -/
def missNext (s : State) (tg u q : Nat) : State :=
  match execOf (terrace s tg) u with
  | none => s
  | some e =>
    if e.ready || e.cmd.missed || !(boundOpen s tg q) then s
    else updTerrace (boundMiss s tg q) tg (fun t => setExec t u { e with cmd := { e.cmd with missed := true } })

/-- The unit has its next region. -/
def gotNext (e : Exec) : Exec := { e with cmd := { e.cmd with missed := false } }

/-! ## The Weir's buckets at a terrace (R333, R334) -/

/-- May an open stream of a terrace make its next request? DEDUCED: log 34. -/
def weirOpen (s : State) (tg : Nat) : Bool :=
  (!(weirEn (rg s (tBase tg + 0x1700) weirReset)) || decide (0 < (terrace s tg).tokens)) &&
  (!(weirEn (rg s (0x120000 + 8 * allotOf s tg) weirReset)) || decide (0 < mget s.shares (allotOf s tg * 64 + tg) 0))

/-- Charge one request of an open stream to the terrace's bucket and to the allotment's share (R333, Table 12-5). -/
def weirCharge (s : State) (tg : Nat) (n : Nat) : State :=
  let s := if weirEn (rg s (tBase tg + 0x1700) weirReset) then
    updTerrace s tg (fun t => { t with tokens := t.tokens - n }) else s
  if weirEn (rg s (0x120000 + 8 * allotOf s tg) weirReset) then
    { s with shares := mset s.shares (allotOf s tg * 64 + tg) (mget s.shares (allotOf s tg * 64 + tg) 0 - n) } else s

/-- The bytes of the partial packet a stream's last requests leave with the coalescer (R132); 0 when the packet is full, or a contribution. -/
def partialOf (l : List Acc) : Nat :=
  match (packetsOf l).getLast? with
  | some r => if r.any (fun a => a.acc = 2) then 0 else accBytes r % 4096
  | none => 0

/-- Leave the partial packet of a stream's last requests with the coalescer: ctx is its context, 16 for the Epilogue's stream to the Outflow and 17 for the
Outflow's own (R132). -/
def keepPartial (t : Terrace) (ctx : Nat) (l : List Acc) : Terrace :=
  if partialOf l = 0 then t else { t with partialPk := mset t.partialPk ctx (partialOf l) }

/-- Let the waiting requests of one stream proceed while every bucket on their path holds a count above 0 (R333). DEDUCED: log 34.
DESIGN CHOICE: log 78. -/
def admitAll (s : State) (tg : Nat) : List Owed → List Owed × State
  | [] => ([], s)
  | n :: r => if weirOpen s tg && portsOpen s n.ports then admitAll (chargePorts (weirCharge s tg n.bytes) n.ports) tg r else (n :: r, s)

/-- The requests of unit u that wait on a bucket proceed as far as the buckets let them; other streams do not wait for them (R333).
DESIGN CHOICE: log 78. -/
def passOwed (s : State) (tg u : Nat) : State :=
  match execOf (terrace s tg) u with
  | none => s
  | some e =>
    let r := admitAll s tg e.owed
    updTerrace r.2 tg (fun t => setExec t u { e with owed := r.1 })

/-- The path of a stream of unit u: a Sluice context's misses train its prefetcher (R304), and its open requests are charged when they proceed. -/
def streamPath (s : State) (tg u : Nat) (resv : Option Nat) : Path :=
  { pathFor s (.terrace tg) (allotOf s tg) with resv, stream := if u < 16 then some (tg * 32 + u) else none, charge := false }

/-- What a stream's accesses do at once, with the requests it is to be charged for. -/
def streamed (s : State) (tg u : Nat) (resv : Option Nat) (l : List Acc) : State × List Owed :=
  noteOwed s (.terrace tg) (slotOf s tg) (allotOf s tg) (streamPath s tg u resv) l

/-! ## Contest (R118 to R121) -/

/-- The unit behind a requester port of Table 05-6; port 23 is the Intake. -/
def portUnit (port : Nat) : Nat :=
  if port = 0 then 21 else if port = 1 then 24 else if port < 6 then port + 14 else if port = 6 then 23 else port - 7

/-- Does the unit behind a port ask for a handle of a pool? -/
def unitWants (t : Terrace) (pool port : Nat) : Bool :=
  match execOf t (portUnit port) with
  | some e => !e.outs.isEmpty && e.got.isNone && e.pool == pool && e.owed.isEmpty
  | none => false

/-- The threads that wait for a contest of a pool, the earliest first. -/
def allocWaiters (t : Terrace) (pool : Nat) : List (Nat × Nat) :=
  let l := t.threads.filterMap (fun e => match e.2.st with
    | .blocked (.alloc _ _ p seq none) => if p = pool then some (seq, e.1) else none
    | _ => none)
  sortBy (fun a b => decide (a.1 ≤ b.1)) l

/-- The requesting ports of a pool, ascending. -/
def contestPorts (t : Terrace) (pool : Nat) : List Nat :=
  (List.range 23).filter (unitWants t pool) ++ (if (allocWaiters t pool).isEmpty then [] else [23])

/-- The wait limit W of a pool (TURN_POOLn). -/
def poolW (s : State) (tg pool : Nat) : Nat := fld (rg s (tBase tg + 0x1710 + 4 * pool) 0x40000000#32) 28 4

/-- The winners of a contest among requesting ports, in order, for g handles (R119). -/
def contestWinners (waits : Map Nat) (w g : Nat) (ports : List Nat) : List Nat :=
  let at' (p : Nat) : Nat := mget waits p 0
  let forced := sortBy (fun a b => decide (at' b < at' a) || (at' a == at' b && decide (a ≤ b)))
    (ports.filter (fun p => w ≤ at' p))
  let rest := ports.filter (fun p => at' p < w)
  (forced ++ rest).take g

/-- The n Free handles of lowest index. -/
def lowestFree (p : Pool) (n : Nat) : List Nat :=
  ((List.range (min p.count (p.used.length + n))).filter (fun i => !(mhas p.used i))).take n

/-- Put a granted handle to use: the unit writes its next image into the region, and pushes it when its queue has room. -/
def deliver (s : State) (tg u : Nat) (h : BitVec 16) : State :=
  match execOf (terrace s tg) u with
  | some e =>
    match e.outs with
    | img :: r =>
      let s := writeRegion s tg h 0 img.pbytes
      updTerrace s tg (fun t =>
        if lqRoom t e.outQ then setExec (pushQ t e.outQ h) u { e with outs := r }
        else setExec t u { e with outs := r, got := some h })
    | [] => s
  | none => s

/-- Answer a waiting LAT.ALLOC. -/
def answerAlloc (t : Terrace) (thr : Nat) (h : BitVec 16) : Terrace :=
  let x := mget t.threads thr {}
  match x.st with
  | .blocked (.alloc r pd p seq none) =>
    { t with threads := mset t.threads thr { x with st := .blocked (.alloc r pd p seq (some h)) } }
  | _ => t

/-- The island of a unit. -/
def unitIsl (u : Nat) : Nat := if u < 16 then 1 else if u < 20 then 2 else if u = 24 then 1 else u - 17

/-- Does a push of an island wait for a token? It stalls the island's command queue (R117). -/
def pushStalled (t : Terrace) (isl : Nat) : Bool := t.execs.any (fun e => unitIsl e.1 == isl && e.2.got.isSome)

/-- Push the filled regions of units whose queue has room again, in issue order (R117). -/
def retryPushes (s : State) (tg : Nat) : State :=
  ((sortBy (fun (a b : Nat × Exec) => decide (a.2.cmd.seq ≤ b.2.cmd.seq)) (terrace s tg).execs).map (·.1)).foldl (fun s u =>
    match execOf (terrace s tg) u with
    | some e =>
      match e.got with
      | some h => updTerrace s tg (fun t =>
          if lqRoom t e.outQ then setExec (pushQ t e.outQ h) u { e with got := none } else t)
      | none => s
    | none => s) s

end Sys2Proof.Machine
end

