-- ==== Sys2Proof/Machine/Gauge.lean ====
section
/-! DEFINITION. Gauge event rings (14 R399 to R402) and the MSI-X messages of queues and rings (R398). -/

namespace Sys2Proof.Machine

/-! ## Messages (R398) -/

/-- Send an MSI-X message of an allotment through its owner's port. -/
def allotMsg (s : State) (al vec : Nat) : State := emit s (.msix (allot s al).owner (allotFn s al) vec)

/-- Write bytes of this module to host memory through a port, with a requester ID: 0 for PF0, n + 1 for VF n (R324, R387). -/
def hostPut (s : State) (hd fn a : Nat) (bs : List Byte) : State := emit (busWrite s a bs) (.hostWrite hd fn a bs false)

/-- The port that PF0's ring of a Headwork leaves by: its own, or the other while that is Down and the other is Up (R383). -/
def pfPort (s : State) (n : Nat) : Nat := if !(portUp s n) && portUp s (1 - n) then 1 - n else n

/-- The port a ring's lines leave by. -/
def ringPort (s : State) (k : Nat) : Nat := if k < 2 then pfPort s k else (allot s (k - 2)).owner

/-- Is a vector within the range of an allotment's binding? VF vectors go to top, 63 for queues and 64 for the Gauge ring. -/
def vecOk (s : State) (al vec top : Nat) : Bool :=
  match allotVf s al with
  | some _ => decide (vec ≤ top)
  | none => decide (16 ≤ vec) && decide (vec < 2048)

/-! ## Lines (R401) -/

def idleWord : W64 := 0xFFFFFFFF00000000#64

/-- The register that holds a ring's head count: GPF_HEAD, or GHEAD of an allotment's doorbell page. -/
def ringHeadReg (k : Nat) : Nat := if k < 2 then hBase k + 0x5000C else 0x10000000 + (k - 2) * 0x4000 + 0x10

/-- The ring's base address on the bus. -/
def ringBase (s : State) (k : Nat) : Nat :=
  let b := if k < 2 then hBase k + 0x50000 else allotBase (k - 2) + 0x1C
  fld (rg s b 0) 6 26 * 64 + (rg s (b + 4) 0).toNat * 2 ^ 32

/-- Words of a ring. -/
def ringWords (s : State) (k : Nat) : Nat := 2 ^ fld (ringCfg s k) 25 5

/-- The packets that fill the next line: in order, while they fit in eight words. -/
def linePackets : Nat → List Packet → List Packet
  | _, [] => []
  | n, p :: r => if p.words.length ≤ n then p :: linePackets (n - p.words.length) r else []

/-- Does the ring have room for a line: fewer than 2^LOG2SZ - 8 words between the host's head and the write count? -/
def ringRoom (s : State) (k : Nat) : Bool :=
  let head := (rg s (ringHeadReg k) 0).toNat * 8
  decide (((ringOf s k).wcount + 2 ^ 35 - head % 2 ^ 35) % 2 ^ 35 < ringWords s k - 8)

/-- May a ring be written now: enabled, its Headwork alive, the port it leaves by Up, and room in it? -/
def ringOpen (s : State) (k : Nat) : Bool := ringOn s k && hdAlive s (ringHd s k) && portUp s (ringPort s k) && ringRoom s k

/-- Is a line due: full, holding a notice, or flushed? -/
def lineDue (r : Ring) : Bool :=
  let l := linePackets 8 r.waiting
  !r.waiting.isEmpty && (r.flush || l.any (fun p => p.notice) || l.length < r.waiting.length
    || (l.map (fun p => p.words.length)).sum = 8)

/-- Post the OVERFLOW packet of a ring that has dropped packets since the last one (R402). DEDUCED: log 47. -/
def postOverflow (s : State) (k : Nat) : State :=
  let r := ringOf s k
  if r.sinceOvf = 0 then s
  else
    let p : Packet := { words := [gaugeHeader s 8 1 (k - 2), BitVec.ofNat 64 (r.sinceOvf % 2 ^ 32)], notice := false }
    { s with rings := mset s.rings k { r with waiting := r.waiting ++ [p], posted := r.posted + 1, sinceOvf := 0 } }

/-- The bytes of a line. -/
def lineBytes (l : List Packet) : List Byte :=
  let ws := l.flatMap (fun p => p.words)
  (ws ++ List.replicate (8 - ws.length) idleWord).flatMap (fun w => leBytes 8 w.toNat)

/-- Write the next line of a ring, and send its vector. -/
def writeLine (s : State) (k : Nat) : State :=
  let s := postOverflow s k
  let r := ringOf s k
  let l := linePackets 8 r.waiting
  let a := ringBase s k + r.wcount % ringWords s k * 8
  let s := hostPut s (ringPort s k) (if k < 2 then 0 else allotFn s (k - 2)) a (lineBytes l)
  let s := { s with rings := mset s.rings k { r with
    wcount := r.wcount + 8, waiting := r.waiting.drop l.length, written := r.written + l.length
    flush := false } }
  let c := ringCfg s k
  if bit c 30 then
    if k < 2 then emit s (.msix (pfPort s k) 0 (fld c 14 11)) else allotMsg s (k - 2) (fld c 14 11)
  else s

/-- Write the lines of a ring until none is left or the ring is closed. -/
def flushRing (s : State) (k fuel : Nat) : State :=
  match fuel with
  | 0 => s
  | fuel + 1 => if (ringOf s k).waiting.isEmpty || !(ringOpen s k) then s else flushRing (writeLine s k) k fuel

def execGaugeLineWrite (ring : Fin 1026) (s : State) : Host.Outcome State Fault Refusal :=
  let k := ring.val
  if ringOpen s k && lineDue (ringOf s k) then .next (writeLine s k) else .next s

/-- The oldest packet of a line has waited FLUSH us: the line is due. -/
def execGaugeFlushTimer (ring : Fin 1026) (s : State) : Host.Outcome State Fault Refusal :=
  let k := ring.val
  let r := ringOf s k
  if r.waiting.isEmpty then .next s
  else
    let s := { s with rings := mset s.rings k { r with flush := true } }
    .next (if ringOpen s k then writeLine s k else s)

/-! ## Head and configuration -/

/-- Does a requester reach the doorbell page of an allotment (R405)? -/
def reachesPage (s : State) (r : Requester) (al : Nat) : Bool :=
  match r with
  | .pf _ => true
  | .vf n _ => allotVf s al == some n.val
  | .exmas => false

/-- A write through the BAR0 of a virtual function that no allotment binds is dropped and logged (code 0x02). -/
def unboundVf (s : State) (r : Requester) (off : Nat) : State :=
  match r with
  | .vf n _ =>
    if (List.range 1024).any (fun a => allotVf s a == some n.val) then s
    else rasAppend s 0x02 0 0 0 none (writeDetail .vfbar0 r off)
  | _ => s

/-- GHEAD and GPF_HEAD: the lines the host has consumed. GHEAD stands in a doorbell page, whose writes Maintenance drops (18 R504). -/
def execGaugeHeadWrite (r : Requester) (ring : Fin 1026) (v : W32) (s : State) : Host.Outcome State Fault Refusal :=
  let k := ring.val
  if k < 2 then .next (pfWrite s r (ringHeadReg k) v.toNat (fun s => setRg s (ringHeadReg k) v))
  else if !(reachesPage s r (k - 2)) then .next (unboundVf s r 0x10)
  else if regsUp s && s.mode ≠ .maintenance then .next (setRg s (ringHeadReg k) v) else .next s

/-- Restart a ring: its write count and its head count start at 0 (R401). -/
def restartRing (s : State) (k : Nat) : State :=
  setRg { s with rings := mset s.rings k { ringOf s k with wcount := 0 } } (ringHeadReg k) 0

/-- A ring's base and configuration: enabling it, or writing its base or LOG2SZ while it is enabled, restarts it; a field out of range drops the write
(R401, R405). DEDUCED: log 47. -/
def execGaugeCfgWrite (r : Requester) (ring : Fin 1026) (reg : Fin 3) (v : W32) (s : State) : Host.Outcome State Fault Refusal :=
  let k := ring.val
  let off := (if k < 2 then hBase k + 0x50000 else allotBase (k - 2) + 0x1C) + 4 * reg.val
  .next (pfWrite s r off v.toNat (fun s =>
    let was := ringCfg s k
    if reg.val < 2 then
      let s := setRg s off (if reg.val = 0 then v &&& 0xFFFFFFC0#32 else v)
      if bit was 31 then restartRing s k else s
    else if fld v 25 5 < 9 || 16 < fld v 25 5 || fld v 0 8 = 0
        || !(if k < 2 then decide (16 ≤ fld v 14 11) else vecOk s (k - 2) (fld v 14 11) 64) then logDropped s off v.toNat
    else
      let s := setRg s off (v &&& 0xFFFFC0FF#32)
      if bit v 31 || bit was 31 then restartRing s k else s))

end Sys2Proof.Machine
end

