-- ==== Sys2Proof/Machine/Queue.lean ====
section
/-! DEFINITION. The journal's steps, the queues and their doorbells, acceptance, and completions (14 R387 to R398, 15 R408 to
R415). -/

namespace Sys2Proof.Machine

/-! ## The journal (R408 to R413) -/

/-- The copy the sequencer works on. -/
def jrn (s : State) : Journal := if s.hdFailed.contains 0 then s.jrn1 else s.jrn0

def setJrn (s : State) (j : Journal) : State := if s.hdFailed.contains 0 then { s with jrn1 := j } else { s with jrn0 := j }

/-- Write a step's fields in a copy, which counts it. -/
def applyStep (j : Journal) (st : JStep) : Journal :=
  { j with
    slots := st.slots.foldl (fun m e => match e.2 with
      | some x => mset m e.1 x
      | none => mdel m e.1) j.slots
    qtab := st.qs.foldl (fun m e => mset m e.1 e.2) j.qtab
    tags := st.tags.foldl (fun m e => mset m e.1 e.2) j.tags
    ret := st.ret.getD j.ret
    steps := j.steps + 1 }

/-- Request a step: the sequencer's copy takes it, and its effect follows when every copy holds it (R409). The 64 oldest are in flight, and the others
wait to begin. DESIGN CHOICE: log 42. -/
def request (s : State) (st : JStep) : State := { setJrn s (applyStep (jrn s) st) with jsteps := s.jsteps ++ [st] }

def slotAt (s : State) (k : Nat) : Option Slot := mget? (jrn s).slots k
def qent (s : State) (q : Nat) : QEnt := mget (jrn s).qtab q {}

/-- The next count of free slots: 65,536 less those in use. -/
def freeSlots (s : State) : Nat := 65536 - (jrn s).slots.length

/-- The lowest free slots. -/
def lowestSlots (s : State) (n : Nat) : List Nat :=
  ((List.range (min 65536 ((jrn s).slots.length + n))).filter (fun k => !(mhas (jrn s).slots k))).take n

/-- The slots of a queue, each with its number. -/
def slotsOfQ (s : State) (q : Nat) : List (Nat × Slot) := (jrn s).slots.filter (fun e => e.2.q = q)

/-- Has an item completed (Table 15-3)? -/
def Slot.over (x : Slot) : Bool := x.st == .completed || x.st == .posted

/-! ## Queues -/

def qReg (q : Nat) : Nat := 0x200000 + 0x20 * q
def qCfg (s : State) (q : Nat) : W32 := rg s (qReg q + 0x10) (setFld (setFld (0 : W32) 26 5 6) 21 5 6)
def qEn (s : State) (q : Nat) : Bool := bit (qCfg s q) 31
def que (s : State) (q : Nat) : Que := mget s.ques q {}
def updQue (s : State) (q : Nat) (f : Que → Que) : State := { s with ques := mupd s.ques q {} f }

/-- A DOORBELL packet: queue, kind (0 SQ tail, 1 CQ head, 2 disabled target) and value. -/
def bellWord (i kind : Nat) (v : W32) : W64 := BitVec.ofNat 64 (i + kind * 2 ^ 6 + v.toNat * 2 ^ 32)

/-- The Headwork a doorbell arrives on (R382, R389). -/
def bellHd (r : Requester) : Nat :=
  match r with
  | .pf p => p.val
  | .vf _ p => p.val
  | .exmas => 0

/-- The first doorbell after enabling makes the Headwork it arrives on the owner; the former owner first writes out the allotment's
Gauge lines (R382). -/
def firstBell (s : State) (hd al : Nat) : State :=
  if (allot s al).rung then s
  else
    let s := if (allot s al).owner = hd then s
      else flushRing s (al + 2) ((ringOf s (al + 2)).waiting.length + 1)
    updAllot s al (fun a => { a with owner := hd, rung := true })

/-- What a taken tail does: any write restarts a stopped queue (R392); a valid value moves TAIL and is journaled (R389). -/
def tailBell (s : State) (al q : Nat) (v : W32) : State :=
  let i := q % 64
  let x := que s q
  let s := if x.stopped then updQue s q (fun x => { x with stopped := false, tries := 0 }) else s
  let size := 2 ^ fld (qCfg s q) 26 5
  if v = x.tail then s
  else if (v - x.tail).toNat ≤ size && (v - x.acc).toNat ≤ size then
    let e := qent s q
    let s : State := { s with bellNo := s.bellNo + 1 }
    let no := if x.tail = x.acc then s.bellNo else x.order
    request (updQue s q (fun x => { x with tail := v, order := no })) { qs := [(q, { e with tail := v })] }
  else gaugePost s 2 al [bellWord i 0 v] false

/-- What a CQ head does: a valid value moves HEAD and frees the slots of the completions it passes (R397, R413). -/
def headBell (s : State) (al q : Nat) (v : W32) : State :=
  let x := que s q
  if v = x.head then s
  else if (v - x.head).toNat ≤ (x.seq - x.head).toNat then
    let gone := ((slotsOfQ s q).filter (fun e => e.2.st == .posted && decide ((e.2.seq - x.head).toNat < (v - x.head).toNat))).map
      (fun e => (e.1, (none : Option Slot)))
    request (updQue s q (fun x => { x with head := v, unsent := x.unsent.filter (fun u => !(gone.any (fun g => g.1 = u.1))) })) { slots := gone, qs := [(q, { qent s q with head := v })], eff := .freed }
  else gaugePost s 2 al [bellWord (q % 64) 1 v] false

/-- A doorbell at its owner (R389, R397). -/
def bellAt (s : State) (b : Bell) : State :=
  if !(allotEn s b.allot) then gaugePf s b.hd 2 b.allot [bellWord b.q 2 b.v] false
  else
    let s := firstBell s b.hd b.allot
    let q := 64 * b.allot + b.q
    if !(qEn s q) then gaugePost s 2 b.allot [bellWord b.q 2 b.v] false
    else if b.head then headBell s b.allot q b.v else tailBell s b.allot q b.v

/-- A doorbell: one that arrives during a reset is applied after it (R424), and in Maintenance it is dropped (R504). -/
def doorbell (r : Requester) (al q : Nat) (head : Bool) (v : W32) (s : State) : State :=
  if !(regsUp s) || s.mode = .maintenance then s
  else if !(reachesPage s r al) then unboundVf s r (0x100 * q + (if head then 4 else 0))
  else
    let b : Bell := { hd := bellHd r, allot := al, q, head, v }
    if s.resetting.isSome then { s with bells := s.bells ++ [b] } else bellAt s b

def execSqTailWrite (r : Requester) (allot : Fin 1024) (q : Fin 64) (v : W32) (s : State) : Host.Outcome State Fault Refusal :=
  .next (doorbell r allot.val q.val false v s)

def execCqHeadWrite (r : Requester) (allot : Fin 1024) (q : Fin 64) (v : W32) (s : State) : Host.Outcome State Fault Refusal :=
  .next (doorbell r allot.val q.val true v s)

/-! ## Queue registers (R387, R388) -/

/-- Queues enabled among those a test names. -/
def queuesOn (s : State) (p : Nat → Bool) : Nat :=
  (s.regs.filter (fun e => decide (0x200000 ≤ e.1) && decide (e.1 < 0x400000) && e.1 % 0x20 == 0x10 && bit e.2 31
    && p ((e.1 - 0x200000) / 0x20))).length

/-- The two ring bases of a queue. -/
def sqBaseReg (s : State) (q : Nat) : Nat := fld (rg s (qReg q) 0) 12 20 * 4096 + (rg s (qReg q + 4) 0).toNat * 2 ^ 32
def cqBaseReg (s : State) (q : Nat) : Nat := fld (rg s (qReg q + 8) 0) 12 20 * 4096 + (rg s (qReg q + 0xC) 0).toNat * 2 ^ 32

/-- Does a write of Q_CFGq break a rule? The counts of a queue to be disabled stand in the queue table, with those of the steps in flight.
DEDUCED: log 46. -/
def qCfgBad (s : State) (q : Nat) (v : W32) : Bool :=
  let al := q / 64
  let sq := fld v 26 5
  let cq := fld v 21 5
  let x := que s q
  let e := qent s q
  sq < 6 || 16 < sq || cq < 6 || 16 < cq || !(vecOk s al (fld v 9 11) 63)
  || (bit v 31 && (sqBaseReg s q % (64 * 2 ^ sq) ≠ 0 || cqBaseReg s q % (64 * 2 ^ cq) ≠ 0))
  || (bit v 31 && !(qEn s q) && (16384 ≤ queuesOn s (fun _ => true)
        || fld (allotCfg s al) 0 7 ≤ queuesOn s (fun k => decide (k / 64 = al))))
  || (!(bit v 31) && qEn s q && !(x.acc == x.seq && x.seq == x.head && e.acc == e.seq && e.seq == e.head))

/-- A write of Q_CFGq: enabling sets the four counts to 0 and takes the rings' geometry into the queue table. DEDUCED: log 46. -/
def writeQCfg (s : State) (q : Nat) (v : W32) : State :=
  let was := qEn s q
  let s := setRg s (qReg q + 0x10) (v &&& 0xFFFFFE00#32)
  if bit v 31 && !was then
    let e : QEnt := { sqBase := sqBaseReg s q, cqBase := cqBaseReg s q, log2sq := fld v 26 5, log2cq := fld v 21 5 }
    request { s with ques := mset s.ques q {} } { qs := [(q, e)] }
  else if !(bit v 31) && was then request { s with ques := mset s.ques q {} } { qs := [(q, {})] }
  else s

/-! ## Submission entries (Table 14-2, R394) -/

structure Entry64 where
  op : Nat
  span : Nat
  irq : Bool
  serial : Bool
  modules1 : Nat
  mrank : Nat
  prog : Nat
  args : W64
  commit : Nat
  cookie : W64
  group : Nat
  rsv : Bool
  deriving DecidableEq, Repr

def Entry64.ofBytes (bs : List Byte) : Entry64 :=
  let at' (o n : Nat) : Nat := leNat ((bs.drop o).take n)
  let a := at' 0 4
  let b := at' 4 4
  { op := a % 256, span := a / 2 ^ 8 % 256, irq := a / 2 ^ 16 % 2 = 1, serial := a / 2 ^ 17 % 2 = 1
    modules1 := b % 2 ^ 14, mrank := b / 2 ^ 14 % 2 ^ 14, prog := at' 8 8, args := BitVec.ofNat 64 (at' 0x10 8)
    commit := at' 0x18 8, cookie := BitVec.ofNat 64 (at' 0x20 8), group := at' 0x28 6
    rsv := a / 2 ^ 18 ≠ 0 || b / 2 ^ 28 ≠ 0 || at' 0x2E 2 ≠ 0 || (at' 0x30 8 ≠ 0 || at' 0x38 8 ≠ 0) }

/-- Does an entry break R394 (or R446: a multi-module RUN without a GROUP)? -/
def Entry64.breaks (e : Entry64) : Bool :=
  if e.op = 0 then e.rsv
  else e.op ≠ 1 || e.span = 0 || 64 < e.span || e.modules1 < e.mrank || e.rsv || e.prog % 64 ≠ 0 || 2 ^ 52 ≤ e.prog
    || (0 < e.modules1 && e.group = 0)

/-- A completion of an item: its status and fault, and what its run met (Table 14-3). -/
def complOf (x : Slot) (status fault : Nat) (r : Option Run) : Compl :=
  let e := Entry64.ofBytes x.entry
  let err : BitVec 13 := match r with
    | some r => r.err ||| (if r.poison ≠ 0 then 0x800#13 else 0)
    | none => 0
  { seq := x.seq, status := status, fault, ftg := 0, fthr := 0, err := err ||| (if x.replays ≠ 0 then 0x1000#13 else 0)
    poison := (r.map (fun r => r.poison)).getD 0, cookie := e.cookie, fpc := 0, xltrec := (r.map (fun r => r.xltrec)).getD 0
    more := (r.map (fun r => r.more)).getD 0, replays := x.replays, span := (r.map (fun r => r.tgs.length)).getD 0, tag := x.tag
    lat := 0 }

/-- The slot of an item that has completed. -/
def Slot.complete (x : Slot) (c : Compl) : Slot := { x with st := .completed, compl := some c }

/-! ## Acceptance (R390 to R392) -/

/-- May the queue engine accept entries of a queue, whatever the others wait for? -/
def mayAccept (s : State) (q : Nat) : Bool :=
  s.mode == .ready && s.resetting.isNone && !s.jfull && qEn s q && allotEn s (q / 64) && !(que s q).stopped
  && portUp s (allot s (q / 64)).owner

/-- Does another queue's entry come first: its doorbell arrived earlier, before the journal's pause ended (R391)? -/
def comesLater (s : State) (q : Nat) : Bool :=
  s.ques.any (fun e => decide (0 < e.2.order) && decide (e.2.order ≤ s.resumeTo) && decide (e.2.order < (que s q).order)
    && e.2.tail ≠ e.2.acc && mayAccept s e.1)

/-- May the queue engine accept entries of a queue? -/
def accepts (s : State) (q : Nat) : Bool := mayAccept s q && !(comesLater s q)

/-- The journal is full, or has room again: acceptance pauses, or resumes in the order of the doorbells so far, and both PF0 rings hear of it (R391,
R413). -/
def journalFull (s : State) (full : Bool) : State :=
  if s.jfull = full then s
  else
    let s := intCause { s with jfull := full, resumeTo := s.bellNo } 11
    (List.range 2).foldl (fun s h => if hdAlive s h then gaugePf s h 6 0 [if full then 1 else 0] true else s) s

/-- A failed read: two retries, then the queue stops (R392). -/
def readFailed (s : State) (q : Nat) : State :=
  let n := (que s q).tries + 1
  if n < 3 then updQue s q (fun x => { x with tries := n })
  else gaugePost (updQue s q (fun x => { x with tries := 0, stopped := true })) 3 (q / 64) [BitVec.ofNat 64 (q % 64)] true

/-- The i-th tag from t on, of 48 bits; tag 0 is never assigned (R415). -/
def tagAfter (t i : Nat) : Nat := (t - 1 + i) % (2 ^ 48 - 1) + 1

/-- Accept the entries read, in order: each takes a slot and the next tag of its allotment (R411, R415). DEDUCED: log 46. -/
def acceptEntries (s : State) (q : Nat) (slots : List Nat) (entries : List (List Byte)) : State :=
  let e := qent s q
  let al := q / 64
  let t0 := mget (jrn s).tags al 1
  let at' := BitVec.ofNat 32 (nowUs s)
  let writes := (slots.zip entries).zipIdx.map (fun (p, i) =>
    let x : Slot := { st := .accepted, q, seq := e.acc + BitVec.ofNat 32 i, tag := tagAfter t0 i, entry := p.2, compl := none
                      replays := 0, atime := at' }
    let d := Entry64.ofBytes p.2
    (p.1, some (if d.breaks then x.complete (complOf x 3 0x0A none)
                else if d.op = 0 then x.complete (complOf x 0 0 none) else x)))
  let acc := e.acc + BitVec.ofNat 32 writes.length
  request s { slots := writes, qs := [(q, { e with acc })], tags := [(al, tagAfter t0 writes.length)], eff := .accept q acc }

/-- The reads of n submission entries from count acc on, through the owner's port: one, or two where they pass the end of the ring (R382, R387). -/
def askEntries (s : State) (q n : Nat) : State :=
  let e := qent s q
  let al := q / 64
  let place := e.acc.toNat % 2 ^ e.log2sq
  let k := min n (2 ^ e.log2sq - place)
  let ask (s : State) (a len : Nat) : State := if len = 0 then s else emit s (.hostRead (allot s al).owner (allotFn s al) a (64 * len))
  ask (ask s (e.sqBase + place * 64) k) e.sqBase (n - k)

/-- A read of up to 16 submission entries returns. -/
def execSqReadComplete (q : Fin 65536) (err : Bool) (s : State) : Host.Outcome State Fault Refusal :=
  let k := q.val
  let e := qent s k
  let n := min 16 (e.tail - e.acc).toNat
  if !(accepts s k) || n = 0 then .next s
  else if freeSlots s = 0 then .next (journalFull s true)
  else
    let addr (i : Nat) : Nat := e.sqBase + (e.acc.toNat + i) % 2 ^ e.log2sq * 64
    let rows := (List.range n).map (fun i => s.host.read (addr i) 64)
    let s := askEntries s k n
    if err || rows.any (fun r => r.any (fun b => b.2)) then .next (readFailed s k)
    else
      let slots := lowestSlots s (min n (freeSlots s))
      .next (acceptEntries (updQue s k (fun x => { x with tries := 0 })) k slots (rows.map (fun r => r.map (fun b => b.1))))

/-! ## Completions (R396, R398) -/

/-- The 64 bytes of a completion entry. -/
def Compl.bytes (c : Compl) : List Byte :=
  leBytes 4 c.seq.toNat ++ leBytes 4 (c.status * 2 ^ 24 + c.fault * 2 ^ 16 + c.ftg * 2 ^ 10 + c.fthr * 2 ^ 6)
  ++ leBytes 4 c.err.toNat ++ leBytes 4 c.poison ++ leBytes 8 c.cookie.toNat ++ leBytes 8 c.fpc
  ++ leBytes 4 (c.xltrec * 2 ^ 16 + c.more) ++ leBytes 4 (c.replays * 2 ^ 24 + c.span) ++ leBytes 8 c.tag ++ leBytes 4 c.lat
  ++ List.replicate 12 0

/-- Write a completion entry into its ring slot, through the owner's port (R382). -/
def writeCompl (s : State) (q : Nat) (c : Compl) : State :=
  let e := qent s q
  let al := q / 64
  hostPut s (allot s al).owner (allotFn s al) (e.cqBase + c.seq.toNat % 2 ^ e.log2cq * 64) c.bytes

/-- Nanoseconds since acceptance, from the slot's ATIME (R410). -/
def latNs (s : State) (x : Slot) : Nat :=
  min 0xFFFFFFFF ((BitVec.ofNat 32 (nowUs s) - x.atime).toNat * 1000 + s.clockNs % 1000)

/-- Has every contribution of an item reached its guard, the point of SYS.FENCE.S, and for h every access to a peer, the point of SYS.FENCE.H (R98,
R99)? -/
def itemQuiet (s : State) (k : Nat) (h : Bool) : Bool :=
  s.saddles.all (fun d => d.2.vc2.all (fun c => c.slot ≠ some k))
  && s.terraces.all (fun t => t.2.slot ≠ some k || t.2.stores.isEmpty)
  && (!h || (s.skvReqs.all (fun q => q.slot ≠ some k)
    && s.e2e.all (fun e => e.2.held.all (fun x => x.pkt.ptype ≠ 6 || x.origin.bind (·.slot) ≠ some k))
    && s.skvWait.all (fun w => w.2.ptype ≠ 6 || w.1.bind (·.slot) ≠ some k)))

/-- The next completion of a queue posts, once the CQ has room and every access of its item has reached the point of SYS.FENCE.H (R99): its slot
moves to Posted. A write that fails posts a QUEUE packet, and the slot stays as it is (Table 14-7). DESIGN CHOICE: log 47. -/
def execCompletionPost (w : CqWrite) (s : State) : Host.Outcome State Fault Refusal :=
  let k := w.q.val
  let e := qent s k
  if !(working s) || !(portUp s (allot s (k / 64)).owner) || !(decide ((e.seq - e.head).toNat < 2 ^ e.log2cq)) then .next s
  else match (slotsOfQ s k).find? (fun x => x.2.seq = e.seq && x.2.st == .completed) with
    | none => .next s
    | some (n, x) =>
      if !(itemQuiet s n true) then .next s
      else if w.fail then .next (gaugePost s 3 (k / 64) [BitVec.ofNat 64 (k % 64 + 2 ^ 6)] true)
      else
        let x' := { x with st := .posted, compl := x.compl.map (fun c => { c with lat := latNs s x }) }
        .next (request s { slots := [(n, some x')], qs := [(k, { e with seq := e.seq + 1 })], eff := .write n })

/-- Send a queue's vector, once its port is Up: its count and timer start again. -/
def queMsg (s : State) (q : Nat) : State :=
  if portUp s (allot s (q / 64)).owner then
    allotMsg (updQue s q (fun x => { x with irqs := 0, timer := false, due := false })) (q / 64) (fld (qCfg s q) 9 11)
  else updQue s q (fun x => { x with due := true })

/-- Have as many completions with IRQ = 1 been posted as a message takes (R398)? -/
def irqDue (s : State) (q : Nat) : Bool := bit (qCfg s q) 20 && decide (fld (rg s (qReg q + 0x14) 0x10000) 16 16 ≤ (que s q).irqs)

/-- Count a posted completion toward the queue's interrupt (R398). -/
def countIrq (s : State) (q : Nat) (irq aborted : Bool) : State :=
  let s := if irq then updQue s q (fun x => { x with irqs := x.irqs + 1, timer := true }) else s
  if irqDue s q || (aborted && bit (qCfg s q) 20) then queMsg s q else s

/-- A completion is written, and the first time counts toward its queue's interrupt (R396, R398); while the owner's port is Down it waits
(R383). -/
def sendCompl (s : State) (k : Nat) (first : Bool) : State :=
  match slotAt s k with
  | none => s
  | some x => match x.compl with
    | none => s
    | some c =>
      let first := first || (que s x.q).unsent.contains (k, true)
      let rest := (que s x.q).unsent.filter (fun u => u.1 ≠ k)
      if portUp s (allot s (x.q / 64)).owner then
        let s := updQue (writeCompl s x.q c) x.q (fun y => { y with unsent := rest })
        if first then countIrq s x.q (Entry64.ofBytes x.entry).irq (c.status = 4) else s
      else updQue s x.q (fun y => { y with unsent := rest ++ [(k, first)] })

/-- What waited for the owner's port leaves by it: completions, then the message that follows them. -/
def releaseQueues (s : State) : State :=
  let l := s.ques
  l.foldl (fun s e =>
    if portUp s (allot s (e.1 / 64)).owner then
      let s := e.2.unsent.foldl (fun s u => sendCompl s u.1 u.2) s
      if (que s e.1).due then queMsg s e.1 else s
    else s) s

def execQIntTimer (q : Fin 65536) (s : State) : Host.Outcome State Fault Refusal :=
  let k := q.val
  if bit (qCfg s k) 20 && (que s k).timer && fld (rg s (qReg k + 0x14) 0x10000) 0 16 ≠ 0 then .next (queMsg s k) else .next s

/-! ## Writes of the queue registers (R387, R398) -/

/-- A write of Q_CFGq or Q_INTq sends the message that it makes due. -/
def execQCfgWrite (r : Requester) (q : Fin 65536) (reg : Fin 6) (v : W32) (s : State) : Host.Outcome State Fault Refusal :=
  let k := q.val
  let off := qReg k + 4 * reg.val
  let told (s : State) : State := if irqDue s k then queMsg s k else s
  .next (pfWrite s r off v.toNat (fun s =>
    match reg.val with
    | 4 => if qCfgBad s k v then logDropped s off v.toNat else told (writeQCfg s k v)
    | 5 => if fld v 16 16 = 0 then logDropped s off v.toNat else told (setRg s off v)
    | 0 => setRg s off (v &&& 0xFFFFF000#32)
    | 2 => setRg s off (v &&& 0xFFFFF000#32)
    | _ => setRg s off v))

end Sys2Proof.Machine
end

