-- ==== Sys2Proof/Machine/Item.lean ====
section
/-! DEFINITION. Items on the terraces: dispatch, program headers, residency and scrubs, finish, commit and replay (01 R29 to R33, 04
R81 to R84, 05 R109, 11 R282 to R289, 14 R385, R395, 15 R416 to R421). -/

namespace Sys2Proof.Machine

/-! ## Spans (R29, R32) -/

/-- Is a terrace healthy (R29)? A retiring one is in no span (R427). -/
def healthy (s : State) (tg : Nat) : Bool :=
  let t := terrace s tg
  !t.retired && !t.retiring && decide (t.degraded.length < 4)

/-- The healthy terraces of an allotment's grant, ascending. -/
def granted (s : State) (al : Nat) : List Nat := (List.range 64).filter (fun tg => allotGrant s al tg && healthy s tg)

/-- May a span start on a terrace now? -/
def terraceFree (s : State) (tg : Nat) : Bool :=
  let t := terrace s tg
  t.slot.isNone && !t.scrub && t.pstate == .awake

/-- The grid of a span: rows times columns is the span, rows at most columns and as near as possible (R32). -/
def gridOf (n : Nat) : Nat × Nat :=
  let rows := ((List.range 9).filter (fun r => decide (0 < r) && n % r == 0 && decide (r * r ≤ n))).foldl max 1
  (rows, n / rows)

/-! ## Slots and runs -/

/-- Take a run off its terraces. -/
def freeRun (s : State) (k : Nat) : State :=
  match mget? s.runs k with
  | none => s
  | some r =>
    let s := r.tgs.foldl (fun s tg => updTerrace s tg (fun t =>
      if t.slot = some k then { t with slot := none, span := {}, reachQ := [], rqWait := [] } else t)) (discardReaches s k)
    fenceArrivals { s with
      runs := mdel s.runs k, redivide := setIns s.redivide r.allot, lats := s.lats.filter (fun x => x.tag ≠ r.tag || !(r.tgs.contains x.src)) }

/-- Move an item to Completed and take it off its terraces. -/
def completeItem (s : State) (k status fault : Nat) : State :=
  match slotAt s k with
  | none => s
  | some x =>
    let r := mget? s.runs k
    let c := complOf x status fault r
    let c := match r.bind (fun r => r.fault) with
      | some f => { c with fault := f.code, ftg := f.tg, fthr := f.thr, fpc := f.pc }
      | none => c
    request (freeRun s k) { slots := [(k, some (x.complete c))], eff := .completed k }

/-- Did an item stop with a fault that it raised itself? DEDUCED: log 43. -/
def faulted (s : State) (k : Nat) : Bool :=
  match mget? s.runs k with
  | some r => r.fault.isSome
  | none => false

/-- Stop an item and return it to Accepted (R420): it waits at the limit of R395. An item that a fault of its own has stopped completes
FAULTED instead (R421). DEDUCED: log 43. -/
def replayItem (s : State) (k : Nat) : State :=
  match slotAt s k with
  | none => s
  | some x =>
    if x.st ≠ .running then s
    else if faulted s k then completeItem s k 2 0
    else
      let s := freeRun (stopItem s k) k
      let s := satAdd s (hBase (seqHd s) + 0x6000C) 0 0 32 1
      request (updQue s x.q (fun y => { y with wait := 16 }))
        { slots := [(k, some { x with st := .accepted, replays := min 0xFF (x.replays + 1) })], eff := .replay k }

/-! ## The allocator (R395) -/

/-- The first item of a queue that has not been dispatched, when nothing holds it back: its predecessor has started, and with SERIAL
has completed. -/
def headItem (s : State) (q : Nat) : Option (Nat × Slot) :=
  let h := (qent s q).head
  let l := slotsOfQ s q
  let wait := sortBy (fun (a b : Nat × Slot) => decide ((a.2.seq - h).toNat ≤ (b.2.seq - h).toNat))
    (l.filter (fun e => e.2.st == .accepted))
  match wait with
  | [] => none
  | (k, x) :: _ =>
    let before := l.any (fun e => !e.2.over && e.2.seq + 1 == x.seq)
    if (Entry64.ofBytes x.entry).serial && before then none else some (k, x)

/-- The span size an item gets: the size it asks for, or what its grant has (R29). -/
def spanSize (s : State) (al : Nat) (x : Slot) : Nat := min (Entry64.ofBytes x.entry).span (granted s al).length

/-- The terraces that could start an allotment's item now; a fenced pair takes no dispatch (R26). -/
def openTerraces (s : State) (al : Nat) : List Nat :=
  (granted s al).filter (fun tg => terraceFree s tg && !(pairFenced s (headworkDie (seqHd s)) (terraceDie tg)))

/-- Can an item start: it has no healthy terrace at all (it then completes NORESOURCE), or enough of them are free, and Freeboard does
not hold the span back (R470)? -/
def canStart (s : State) (al : Nat) (x : Slot) : Bool :=
  let n := spanSize s al x
  n = 0 || (n ≤ (openTerraces s al).length
    && (allotClass s al == 2 || !(halted s)))

/-- The candidates of a decision: queue, slot number and slot. -/
def candidates (s : State) : List (Nat × Nat × Slot) :=
  (distinct ((jrn s).slots.map (fun e => e.2.q))).filterMap (fun q =>
    let al := q / 64
    if !(allotEn s al) || (allot s al).cmd.isSome then none
    else match headItem s q with
      | some (k, x) => if canStart s al x then some (q, k, x) else none
      | none => none)

/-- Items first whose counter has reached 16, then by class; round robin over the queues of a class. DEDUCED: log 38. -/
def pickItem (s : State) (l : List (Nat × Nat × Slot)) : Option (Nat × Nat × Slot) :=
  let rank (e : Nat × Nat × Slot) : Nat := if 16 ≤ (que s e.1).wait then 0 else 1 + classRank (allotClass s (e.1 / 64))
  let best := l.foldl (fun m e => min m (rank e)) 9
  let same := l.filter (fun e => rank e = best)
  let last := mget s.rr best 65536
  ((same.filter (fun e => decide (last < e.1))) ++ same).head?.map (fun e => e)

/-- The terraces of a span: those the decision prefers first, then by TG; ranks are in ascending TG order (R30). -/
def chooseTgs (l : List Nat) (n : Nat) (pick : BitVec 64) : List Nat :=
  distinct ((l.filter (fun tg => bit pick tg) ++ l.filter (fun tg => !(bit pick tg))).take n)

/-- The run of an item that is being dispatched. -/
def newRun (s : State) (x : Slot) (tgs : List Nat) : Run :=
  let e := Entry64.ofBytes x.entry
  { allot := x.q / 64, q := x.q, tag := x.tag, tgs, hd := seqHd s, threads := 0, entry := 0, args := e.args
    modules := e.modules1 + 1, mrank := e.mrank, group := e.group }

/-- One decision: pick prefers terraces where the rule leaves their choice open. DEDUCED: log 38. -/
def execDispatchDecision (pick : BitVec 64) (s : State) : Host.Outcome State Fault Refusal :=
  if !(working s) then .next s
  else
    let l := candidates s
    match pickItem s l with
    | none => .next s
    | some (q, k, x) =>
      let al := q / 64
      let rank := if 16 ≤ (que s q).wait then 0 else 1 + classRank (allotClass s al)
      let s := l.foldl (fun s e => updQue s e.1 (fun y => { y with wait := if e.1 = q then 0 else min 16 (y.wait + 1) })) s
      let s := { s with rr := mset s.rr rank q }
      let n := spanSize s al x
      if n = 0 then .next (completeItem s k 5 0)
      else
        let tgs := chooseTgs (openTerraces s al) n pick
        let s := tgs.foldl (fun s tg => updTerrace s tg (fun t => { t with slot := some k })) s
        let s : State := { s with
          runs := mset s.runs k (newRun s x tgs), redivide := setIns s.redivide al
          skvReqs := s.skvReqs.map (fun r => if r.slot = some k then { r with dead := true } else r) }
        .next (request s { slots := [(k, some { x with st := .running })], eff := .start k })

/-! ## Program headers (R84, R109, R282) -/

/-- Read device virtual memory for the queue engine (R84): no bytes on a translation fault or poison; with them its accesses. DEDUCED: log 41. -/
def engineRead (s : State) (al va n : Nat) : Option (List Byte) × List Acc :=
  let r := vRead s (.agent 0) al va n
  (if r.data.any (fun (b : PByte) => b.2) then none else some (r.data.map (fun (b : PByte) => b.1)), r.accs)

/-- What the accesses of the queue engine and of the commit copier do, and the records of their translation faults (R331); Table 12-10 names
no source for them, so SRC is a free value (log 2). -/
def logEngine (s : State) (k al : Nat) (l : List Acc) : State :=
  let s := noteAccs s (.agent 0) (some k) al l
  if l.all (fun a => a.kind.isNone) then s
  else
    let (v, s) := fresh s
    logStream s (some k) al (v.toNat % 128) l

structure PHeader where
  threads : Nat
  entry : Nat
  pools : List (W32 × W32)
  lqs : List W32
  claims : List Claim
  bad : Bool
  deriving DecidableEq, Repr

def PHeader.ofBytes (bs : List Byte) : PHeader :=
  let at' (o n : Nat) : Nat := leNat ((bs.drop o).take n)
  let w0 := at' 0 4
  let w1 := at' 4 4
  let n := w1 % 32
  let pools := (List.range 3).map (fun i => (BitVec.ofNat 32 (at' (0x10 + 8 * i) 4), BitVec.ofNat 32 (at' (0x14 + 8 * i) 4)))
  let lqs := (List.range 16).map (fun i => BitVec.ofNat 32 (at' (0x30 + 4 * i) 4))
  let claimWords := (List.range (min n 16)).map (fun c => (at' (0x80 + 8 * c) 4, at' (0x84 + 8 * c) 4))
  { threads := w0 % 32, entry := at' 8 8, pools, lqs
    claims := claimWords.map (fun c => { gen := BitVec.ofNat 32 c.1, base := c.2 % 256, len := c.2 / 256 % 256 + 1 })
    bad := w0 / 2 ^ 16 ≠ 1 || w0 / 2 ^ 5 % 2 ^ 11 ≠ 0 || w0 % 32 = 0 || 16 < w0 % 32 || w1 / 2 ^ 5 ≠ 0 || 16 < n
      || at' 8 8 % 8 ≠ 0 || 2 ^ 52 ≤ at' 8 8 || at' 0x28 8 ≠ 0 || at' 0x70 8 ≠ 0 || at' 0x78 8 ≠ 0
      || pools.any (fun p => fld p.1 20 11 ≠ 0 || fld p.1 14 2 ≠ 0 || fld p.2 15 17 ≠ 0)
      || lqs.any (fun q => fld q 0 25 ≠ 0 || (bit q 31 && (fld q 28 3 = 7 || fld q 25 3 = 7)))
      || claimWords.any (fun c => c.2 / 2 ^ 16 ≠ 0) }

/-- Does the pool table break R109? -/
def PHeader.poolsBad (h : PHeader) : Bool :=
  h.pools.zipIdx.any (fun (p, i) => bit p.1 31 &&
    (10 < fld p.1 16 4 || fld p.2 0 15 = 0 || 16384 < fld p.2 0 15
      || memSize (i + 1) < (fld p.1 0 14 + fld p.2 0 15) * 2 ^ (10 + fld p.1 16 4)))

/-- Do the claims break R282? -/
def claimsBad (l : List Claim) : Bool :=
  l.any (fun c => 256 < c.base + c.len)
  || l.zipIdx.any (fun (c, i) => l.zipIdx.any (fun (d, j) => i ≠ j && c.base < d.base + d.len && d.base < c.base + c.len))

/-! ## Commit records (R416) -/

def CommitRec.ofBytes (bs : List Byte) : CommitRec :=
  let at' (o n : Nat) : Nat := leNat ((bs.drop o).take n)
  { done := at' 8 8
    ranges := (List.range (at' 0 4 % 8)).map (fun r => (at' (0x10 + 0x20 * r) 8, at' (0x18 + 0x20 * r) 8, at' (0x20 + 0x20 * r) 8)) }

/-- Does a commit record break R416? -/
def commitBad (bs : List Byte) : Bool :=
  let at' (o n : Nat) : Nat := leNat ((bs.drop o).take n)
  let n := at' 0 4 % 8
  let rs := (CommitRec.ofBytes bs).ranges
  let spans := rs.flatMap (fun r => [(r.1, r.2.2), (r.2.1, r.2.2)])
  at' 0 4 / 8 ≠ 0 || at' 4 4 ≠ 0 || 2 ^ 52 ≤ at' 8 8 || at' 8 8 % 8 ≠ 0 || at' 0xF0 8 ≠ 0 || at' 0xF8 8 ≠ 0
      || (List.range n).any (fun r => at' (0x28 + 0x20 * r) 8 ≠ 0)
      || rs.any (fun r => r.1 % 32 ≠ 0 || r.2.1 % 32 ≠ 0 || 2 ^ 52 ≤ r.1 || 2 ^ 52 ≤ r.2.1 || r.2.2 % 32 ≠ 0 || r.2.2 < 32
          || 2 ^ 40 < r.2.2)
      || spans.zipIdx.any (fun (a, i) => spans.zipIdx.any (fun (b, j) =>
          i < j && a.1 < b.1 + b.2 && b.1 < a.1 + a.2))

/-- The commit record of an item, when it has one: none when it cannot be read or breaks the rules; with it the accesses. -/
def commitRec (s : State) (al addr : Nat) : Option (Option CommitRec) × List Acc :=
  if addr = 0 then (some none, [])
  else if addr % 64 ≠ 0 || 2 ^ 52 ≤ addr then (none, [])
  else
    let r := engineRead s al addr 256
    (r.1.bind (fun bs => if commitBad bs then none else some (some (CommitRec.ofBytes bs))), r.2)

/-! ## Residency and scrubs (R284, R287) -/

/-- Drop residency entries and scrub their ranges. -/
def dropEntries (t : Terrace) (p : Nat → Resid → Bool) : Terrace :=
  let gone := t.res.filter (fun e => p e.1 e.2)
  { t with
    res := t.res.filter (fun e => !(p e.1 e.2))
    ws := gone.foldl (fun m e => m.scrub (e.2.base * 65536) ((e.2.base + e.2.len) * 65536)) t.ws }

def meetsRange (e : Resid) (base len : Nat) : Bool := decide (e.base < base + len) && decide (base < e.base + e.len)

/-- Apply one claim: answers the terrace, the index of the entry, and whether it hit. -/
def applyClaim (t : Terrace) (al : Nat) (mine : List Nat) (c : Claim) : Terrace × Nat × Bool :=
  match t.res.find? (fun e => e.2.allot == al && e.2.gen == c.gen && e.2.base == c.base && e.2.len == c.len) with
  | some (i, e) => ({ t with res := mset t.res i { e with last := t.spans, hit := true } }, i, true)
  | none =>
    let t := dropEntries t (fun _ e => meetsRange e c.base c.len)
    let t := if t.res.length < 16 then t
      else
        let old := sortBy (fun (a b : Nat × Resid) => decide (a.2.last < b.2.last) || (a.2.last == b.2.last && decide (a.1 ≤ b.1)))
          (t.res.filter (fun e => !(mine.contains e.1)))
        match old with
        | (i, _) :: _ => dropEntries t (fun j _ => j == i)
        | [] => t
    let i := ((List.range 16).find? (fun i => !(mhas t.res i))).getD 0
    ({ t with
       res := mset t.res i { allot := al, gen := c.gen, base := c.base, len := c.len, last := t.spans, hit := false }
       ws := t.ws.scrub (c.base * 65536) ((c.base + c.len) * 65536) }, i, false)

/-- Apply an item's claims and the regions of its WS pool to a terrace: the hit bits. -/
def applyClaims (t : Terrace) (al : Nat) (h : PHeader) : Terrace × BitVec 16 :=
  let (t, is) := h.claims.foldl (fun (st : Terrace × List (Nat × Bool)) c =>
    let (t, i, hit) := applyClaim st.1 al (st.2.map (fun e => e.1)) c
    (t, st.2 ++ [(i, hit)])) (t, [])
  let p := h.pools.getD 0 (0, 0)
  let size := 2 ^ (10 + fld p.1 16 4)
  let lo := fld p.1 0 14 * size
  let hi := lo + fld p.2 0 15 * size
  let t := if bit p.1 31 then dropEntries t (fun _ e => decide (e.base * 65536 < hi) && decide (lo < (e.base + e.len) * 65536)) else t
  (t, is.zipIdx.foldl (fun b (e, c) => if e.2 && mhas t.res e.1 then b ||| BitVec.ofNat 16 (2 ^ c) else b) 0)

/-- Zero every byte outside the residency entries, and all of AS and PS (R287). -/
def scrubStores (t : Terrace) : Terrace :=
  let keep (a : Nat) : Bool := t.res.any (fun e => decide (e.2.base * 65536 ≤ a) && decide (a < (e.2.base + e.2.len) * 65536))
  { t with ws := { cells := t.ws.cells.filter (fun c => keep c.1), poison := t.ws.poison.filter (fun k => keep (k * 32)) }, as := {}, ps := {} }

/-! ## Start (R33, R81, R284) -/

/-- The threads of an item at its start. -/
def startThreads (r : Run) : Map Thread :=
  (List.range r.threads).map (fun i =>
    (i, { st := .ready, pc := BitVec.ofNat 52 r.entry, s := [(1, r.args), (2, BitVec.ofNat 64 i)] }))

/-- The registers of chapters 05 to 09 return to their reset values when a span record is written; their counters, latched halves and pools with them
(R112, R215, R236). -/
def clearItemRegs (s : State) (tg : Nat) : State :=
  let out (k : Nat) : Bool := !(decide (tBase tg + 0x1000 ≤ k) && decide (k < tBase tg + 0x1500)) || k == tBase tg + 0x1120
  { s with regs := s.regs.filter (fun e => out e.1), ctrs := s.ctrs.filter (fun e => out e.1)
           shadows := s.shadows.filter (fun e => out (e.1 % 2 ^ 32)) }

/-- Has an entry of a residency table been dropped: its place is free, or holds another? -/
def entryDropped (before after : Map Resid) : Bool :=
  before.any (fun e => !((mget? after e.1).any (fun x =>
    x.allot == e.2.allot && x.gen == e.2.gen && x.base == e.2.base && x.len == e.2.len)))

/-- Put an item on one terrace of its span, as rank i. DEDUCED: log 63. -/
def placeOn (s : State) (k : Nat) (r : Run) (h : PHeader) (tg i : Nat) : State :=
  let s := clearItemRegs s tg
  let t := terrace s tg
  let (rows, cols) := gridOf r.tgs.length
  let t : Terrace := { t with
    spans := t.spans + 1
    span := { tag := (t.spans + 1) % 65536, rank := i, map := r.tgs, mrank := r.mrank, modules := r.modules, rows, cols
              mid := skvId s, allot := r.allot, det := r.det }
    slot := some k, threads := [], stores := [], lastIssue := 15, firstIssue := false, cycles := 0, ibuf := [], sema := [], seqno := 0, partialPk := []
    cmdq := [], execs := [], acc := [], accTag := [], panels := [], runLen := 7, tol := 64, gang := 0, gangIssued := 0, replaying := [], checks := []
    laneStat := [], auditRuns := 0, pins := [], reachQ := [], rqWait := [], reachClosed := false
    pools := (h.pools.zipIdx.filter (fun (p, _) => bit p.1 31)).map (fun (p, n) =>
      (n, { valid := true, rsz := fld p.1 16 4, base := fld p.1 0 14, count := fld p.2 0 15, minFree := fld p.2 0 15 }))
    lqs := (h.lqs.zipIdx.filter (fun (q, _) => bit q 31)).map (fun (q, n) =>
      (n, { bound := true, prod := fld q 28 3, cons := fld q 25 3 })) }
  let (t', hits) := applyClaims t r.allot h
  let full := t'.lastAl.isSome && t'.lastAl ≠ some r.allot
  let t' := if full then scrubStores t' else t'
  let scrub := full || entryDropped t.res t'.res || hits ≠ BitVec.ofNat 16 (2 ^ h.claims.length - 1)
  let s := if scrub then satAdd s (tBase tg + 0x1680) 0 0 16 1 else s
  let s := setTerrace s tg { t' with resHits := hits, lastAl := some r.allot, scrub := scrub || t.scrub }
  if scrub || t.scrub then updRun s k (fun r => { r with scrubbing := setIns r.scrubbing tg }) else s

/-- When no terrace of the span scrubs any more, the threads start. -/
def tryStart (s : State) (k : Nat) : State :=
  match mget? s.runs k with
  | none => s
  | some r =>
    if r.started || !r.scrubbing.isEmpty || r.stopped then s
    else r.tgs.foldl (fun s tg => updTerrace s tg (fun t => { t with threads := startThreads r })) (updRun s k (fun r => { r with started := true }))

/-- What a dispatch does once its header and its commit record are there: they are checked, claims are applied, and the span starts (R84). -/
def startRead (s : State) (k : Nat) (r : Run) (hd : Option (List Byte)) (cr : Option (Option CommitRec)) : State :=
  let fail (code : Nat) : State :=
    completeItem (updRun (rasAppend s 0x10 1 1 0 (some r.allot) code) k (fun r =>
      { r with fault := some { code, tg := 0, thr := 0, pc := 0 } })) k 2 code
  match hd, cr with
  | some bs, some c =>
    let h := PHeader.ofBytes bs
    if h.bad then fail 3
    else if h.poolsBad then fail 4
    else if claimsBad h.claims then fail 8
    else
      let r := { r with threads := h.threads, entry := h.entry, det := allotDet s r.allot, loading := false, commit := c }
      let s := { s with runs := mset s.runs k r }
      tryStart (r.tgs.zipIdx.foldl (fun s (tg, i) => placeOn s k r h tg i) s) k
  | _, _ => fail 3

/-- The effect of a dispatch: the header and the commit record are read; what lies in host or peer memory is asked for, and the item waits for
it. DEDUCED: log 41, 63. -/
def startItem (s : State) (k : Nat) : State :=
  match mget? s.runs k, slotAt s k with
  | some r, some x =>
    let e := Entry64.ofBytes x.entry
    let hd := engineRead s r.allot e.prog 256
    let cr := commitRec s r.allot e.commit
    let miss := atsMissing (hd.2 ++ cr.2)
    if miss ≠ [] then atsAsk (updRun s k (fun r => { r with loading := true })) (.agent 0 (some k)) r.allot miss
    else
      let s := logEngine (logEngine s k r.allot hd.2) k r.allot cr.2
      startRead s k ((mget? s.runs k).getD r) hd.1 cr.1
  | _, _ => s

/-- Items that waited for their header or commit record are tried again when data arrives. -/
def retryStarts (s : State) : State :=
  ((s.runs.filter (fun e => e.2.loading && !e.2.stopped)).map (fun e => e.1)).foldl startItem s

/-- A scrub ends: the allotment command or the item that waited for it goes on (R288, R289). -/
def execScrubComplete (tg : Fin 64) (s : State) : Host.Outcome State Fault Refusal :=
  let g := tg.val
  if !(terrace s g).scrub then .next s
  else
    let s := updTerrace s g (fun t => { t with scrub := false })
    let s : State := { s with
      allots := s.allots.map (fun a => (a.1, { a.2 with scrubs := setDel a.2.scrubs g }))
      runs := s.runs.map (fun r => (r.1, { r.2 with scrubbing := setDel r.2.scrubbing g })) }
    .next ((s.runs.map (fun r => r.1)).foldl tryStart s)

/-! ## Finish (R83) -/

/-- Has the item finished on a terrace (R83): its threads have ended and every stream it opened has drained, those of the Sluice's contexts and the
writes of the Epilogue and Outflow? DEDUCED: log 79. -/
def terraceDone (s : State) (tg : Nat) : Bool :=
  let t := terrace s tg
  t.threads.all (fun e => !e.2.live) && contextsHeld t == 0 && (cmdsOf t 4).isEmpty && (cmdsOf t 5).isEmpty && !(mhas t.execs 21) && !(mhas t.execs 22)

/-- A stopped item that has ended on every terrace completes FAULTED once its accesses have reached the SYS.FENCE.H point (R99). -/
def endStopped (s : State) (k : Nat) : State :=
  match mget? s.runs k with
  | some r => if r.stopped && !r.parked && r.tgs.all (fun tg => r.done.contains tg) && itemQuiet s k true then completeItem s k 2 0 else s
  | none => s

/-- The item ends on a terrace, whose handles are Free and queues empty then (R114), and what its islands and its lane still hold is dropped; on the last one it goes on to its commit, or completes
FAULTED when a fault stopped it. -/
def execItemFinish (tg : Fin 64) (s : State) : Host.Outcome State Fault Refusal :=
  let g := tg.val
  match runOfT s g with
  | none => .next s
  | some (k, r) =>
    if !r.started || r.done.contains g || !(terraceDone s g) || (0 < r.sumps && !r.stopped) then .next s
    else
      let s := updRun s k (fun r => { r with done := setIns r.done g })
      let s : State := { s with lanes := s.lanes.map (fun e => (e.1, e.2.keep (fun tg => tg ≠ g))) }
      let s := updTerrace s g (fun t => { stopTerrace t with
        stores := if r.stopped then [] else t.stores, span := {}, pools := t.pools.map (fun e => (e.1, { e.2 with used := [] })), lqs := t.lqs.map (fun e => (e.1, { e.2 with entries := [], back := 0 })) })
      let last := r.tgs.all (fun x => x = g || r.done.contains x)
      if !last || r.parked then .next s
      else if r.stopped then .next (endStopped s k)
      else .next (discardReaches s k)

/-! ## Commit (R417, R418) -/

/-- Copy one range, sector by sector; the faults of its reads and of its writes are two streams (R331). -/
def copyRange (s : State) (k al src dst n : Nat) : State :=
  let r := vRead s (.agent 0) al src n
  let (s', wr) := vWrite s (.agent 0 (some k)) al dst r.data
  logEngine (logEngine s' k al r.accs) k al wr

/-- What the ranges of a commit still have to wait for: the data of a source in the host window or at a peer, and the translation of a destination in
the host window (R324). -/
def copyMissing (s : State) (al : Nat) (c : CommitRec) : List Nat :=
  c.ranges.flatMap (fun e => atsMissing (vRead s (.agent 0) al e.1 e.2.2).accs ++ writeWaits s (.agent 0) al e.2.1 e.2.2)

/-- Write the done word, once its translation is there, and complete the item; a fault of the write is the item's (R331). -/
def finishCommit (s : State) (k : Nat) (x : Slot) (r : Run) : State :=
  let done := (r.commit.map (fun c => c.done)).getD 0
  let waits := if done = 0 then [] else writeWaits s (.agent 0) r.allot done 8
  if waits ≠ [] then atsAsk s (.agent 0 (some k)) r.allot waits
  else
    let s := if done = 0 then s
      else
        let w := vWrite s (.agent 0 (some k)) r.allot done ((leBytes 8 (x.tag + 2 ^ 63)).map (fun (b : Byte) => ((b, false) : PByte)))
        logEngine w.1 k r.allot w.2
    let err := match mget? s.runs k with
      | some r => r.err ≠ 0 || r.poison ≠ 0
      | none => false
    completeItem s k (if err || x.replays ≠ 0 then 1 else 0) 0

/-- The effect of Committing: the ranges are copied into place, once what they are read from is there. DEDUCED: log 39. -/
def commitCopies (s : State) (k : Nat) : State :=
  match mget? s.runs k, slotAt s k with
  | some r, some x =>
    let c := r.commit.getD { done := 0, ranges := [] }
    if copyMissing s r.allot c ≠ [] then atsAsk s (.agent 0 (some k)) r.allot (copyMissing s r.allot c)
    else
      let s := c.ranges.foldl (fun s e => copyRange s k r.allot e.1 e.2.1 e.2.2) s
      let s := updRun s k (fun r => { r with copied := true })
      if itemQuiet s k true then finishCommit s k x r else s
  | _, _ => s

/-- The end of an item advances: a stopped one completes once it is quiet; a finished item enters Committing once the item before it in its
queue has completed, one whose copies waited for data goes on with them, and a copied one completes once everything has reached the SYS.FENCE.H
point. DEDUCED: log 39. -/
def execCommit (slot : Fin 65536) (s : State) : Host.Outcome State Fault Refusal :=
  let k := slot.val
  if !(working s) then .next s
  else match mget? s.runs k, slotAt s k with
  | some r, some x =>
    if x.st == .committing then
      .next (if r.copied then (if itemQuiet s k true then finishCommit s k x r else s)
        else if s.jsteps.any (fun j => j.eff == .commitCopy k) then s else commitCopies s k)
    else if r.stopped then .next (endStopped s k)
    else if !(x.st == .running && r.started && r.tgs.all (fun tg => r.done.contains tg)) then .next s
    else if (slotsOfQ s x.q).any (fun e => e.2.seq + 1 == x.seq && !e.2.over) || !(itemQuiet s k false) then .next s
    else .next (request s { slots := [(k, some { x with st := .committing })], eff := .commitCopy k })
  | _, _ => .next s

end Sys2Proof.Machine
end

