-- ==== Sys2Proof/Machine/Allot.lean ====
section
/-! DEFINITION. Allotments: their configuration, and the commands RESET and KILL (14 R382 to R386, 11 R289). -/

namespace Sys2Proof.Machine

/-! ## Configuration (R384) -/

/-- The items of an allotment that are accepted and not completed, by slot, per queue in SEQ order. -/
def inFlight (s : State) (al : Nat) : List (Nat × Slot) :=
  sortBy (fun (a b : Nat × Slot) => decide (a.2.q < b.2.q)
      || (a.2.q == b.2.q && decide ((a.2.seq - (qent s a.2.q).head).toNat ≤ (b.2.seq - (qent s b.2.q).head).toNat)))
    ((jrn s).slots.filter (fun e => decide (e.2.q / 64 = al) && !e.2.over))

/-- Does an Express allotment hold a terrace that another class is granted, if allotment al had this class and this grant? DEDUCED: log 69. -/
def mixesExpress (s : State) (al : Nat) (express : Bool) (g : Nat → Bool) : Bool :=
  (List.range 1024).any (fun b => b ≠ al && (allotClass s b == 2) != express
    && (List.range 64).any (fun tg => g tg && allotGrant s b tg))

/-- Does a write of ALLOT_CFGa break a rule? DEDUCED: log 69. -/
def allotCfgBad (s : State) (al : Nat) (v : W32) : Bool :=
  let old := allotCfg s al
  let cls := fld v 29 2
  cls = 3 || 64 < fld v 0 7 || (s.mode == .maintenance && bit v 31)
  || (cls = 2 && allotClass s al ≠ 2 && 64 ≤ ((List.range 1024).filter (fun b => b ≠ al && allotClass s b == 2)).length)
  || mixesExpress s al (cls == 2) (allotGrant s al)
  || (bit v 27 && (List.range 1024).any (fun b => b ≠ al && allotVf s b == some (fld v 17 10)))
  || (bit old 31 && (v ^^^ old) &&& 0x6FFE007F#32 ≠ 0)
  || (bit old 31 && !(bit v 31) && (0 < queuesOn s (fun q => decide (q / 64 = al)) || !(inFlight s al).isEmpty))

/-- Write ALLOT_CFGa; enabling makes the sequencer's Headwork the owner until the first doorbell (R382). -/
def writeAllotCfg (s : State) (al : Nat) (v : W32) : State :=
  let was := allotEn s al
  let s := setRg s (allotBase al) (v &&& 0xFFFE007F#32)
  if bit v 31 && !was then updAllot s al (fun a => { a with owner := seqHd s, rung := false }) else s

def execAllotCfgWrite (r : Requester) (allot : Fin 1024) (reg : Fin 5) (v : W32) (s : State) : Host.Outcome State Fault Refusal :=
  let al := allot.val
  let off := allotBase al + 4 * reg.val
  .next (pfWrite s r off v.toNat (fun s =>
    match reg.val with
    | 0 => if allotCfgBad s al v then logDropped s off v.toNat else writeAllotCfg s al v
    | 3 => setRg s off (v &&& 0xFFFFF000#32)
    | 4 => setRg s off (v &&& 0xFFFFF#32)
    | h =>
      let g (tg : Nat) : Bool := if tg / 32 = h - 1 then bit v (tg % 32) else allotGrant s al tg
      if mixesExpress s al (allotClass s al == 2) g then logDropped s off v.toNat else setRg s off v))

/-! ## RESET and KILL (R386, R289) -/

/-- The scrub of the terrace stores: every terrace drops the allotment's entries, and one that served it last is scrubbed whole. -/
def scrubAllot (s : State) (al : Nat) : State :=
  (List.range 64).foldl (fun s tg =>
    let t := terrace s tg
    let last := t.lastAl == some al
    if !last && t.res.all (fun e => e.2.allot ≠ al) then s
    else
      let t := dropEntries t (fun _ e => e.allot == al)
      let t := if last then { scrubStores t with lastAl := none, acc := [], accTag := [], panels := [], checks := [], replaying := [] } else t
      let s := setTerrace (satAdd s (tBase tg + 0x1680) 0 0 16 1) tg { t with scrub := true }
      updAllot s al (fun a => { a with scrubs := setIns a.scrubs tg })) s

/-- Begin a RESET: running items are stopped and replayed, and the stores scrubbed. -/
def allotResetOp (s : State) (al : Nat) : State :=
  let s := (inFlight s al).foldl (fun s e => replayItem s e.1) s
  scrubAllot (updAllot s al (fun a => { a with cmd := some .reset })) al

/-- Begin a KILL: every item that has not entered its commit completes ABORTED. -/
def allotKillOp (s : State) (al : Nat) : State :=
  let s := (inFlight s al).foldl (fun s e => if e.2.st == .committing then s else completeItem (stopItem s e.1) e.1 4 0) s
  scrubAllot (updAllot s al (fun a => { a with cmd := some .kill })) al

/-- A write of ALLOT_CMDa: dropped and logged while BUSY. -/
def allotCommand (r : Requester) (al op : Nat) (s : State) (f : State → State) : State :=
  let off := allotBase al + 0x14
  pfWrite s r off (op * 2 ^ 29) (fun s => if (allot s al).cmd.isSome then logDropped s off (op * 2 ^ 29) else f s)

def execAllotReset (r : Requester) (allot : Fin 1024) (s : State) : Host.Outcome State Fault Refusal :=
  .next (allotCommand r allot.val 1 s (fun s => allotResetOp s allot.val))

def execAllotKill (r : Requester) (allot : Fin 1024) (s : State) : Host.Outcome State Fault Refusal :=
  .next (allotCommand r allot.val 2 s (fun s => allotKillOp s allot.val))

/-- Has every ABORTED completion of an allotment been posted? -/
def abortedPosted (s : State) (al : Nat) : Bool :=
  (jrn s).slots.all (fun e => e.2.q / 64 ≠ al || e.2.st != .completed
    || (match e.2.compl with
        | some c => c.status ≠ 4
        | none => true))

/-- The command ends: BUSY clears and ALLOT_DONE is posted. -/
def execAllotCmdDone (allot : Fin 1024) (s : State) : Host.Outcome State Fault Refusal :=
  let al := allot.val
  match (mget s.allots al {}).cmd with
  | none => .next s
  | some c =>
    if !(mget s.allots al {}).scrubs.isEmpty || (c = .kill && !(abortedPosted s al)) then .next s
    else
      let s := updAllot s al (fun a => { a with cmd := none })
      .next (gaugePost s 4 al [if c = .kill then 2 else 1] true)

end Sys2Proof.Machine
end

