-- ==== Sys2Proof/Machine/Arrays.lean ====
section
/-! DEFINITION. The MAC arrays: gang modes and folding (06 R141 to R143), operands as the feeders read them (R136, R145), runs,
promotion (R137, R138, 02 R45 to R49), the exempt lines of the check (R154), and what a failed check does (R155 to R158). -/

namespace Sys2Proof.Machine

/-! ## Gang modes (Table 06-2) -/

/-- Rows and columns of a mode's logical tile, and its panel depth in groups. -/
def geoRows (mode : Nat) : Nat := if mode = 1 then 128 else if mode = 3 then 32 else if mode = 4 then 16 else 64
def geoCols (mode : Nat) : Nat :=
  if mode = 0 then 64 else if mode = 1 then 128 else if mode = 2 then 256 else if mode = 3 then 512 else 1024
def geoDepth (mode : Nat) : Nat := if mode = 3 then 32 else if mode = 4 then 16 else 64

/-- Array, physical row and physical column of logical row i and column j; a is the array a Split MMA names (R142). -/
def physOf (mode a i j : Nat) : Nat × Nat × Nat :=
  match mode with
  | 0 => (a, i, j)
  | 1 => (2 * (i / 64) + j / 64, i % 64, j % 64)
  | 2 => (j / 64, i, j % 64)
  | 3 => (j / 128, 32 * (j % 128 / 64) + i, j % 64)
  | _ => (j / 256, 16 * (j % 256 / 64) + i, j % 64)

/-- The key of entry e of an array. -/
def entryKey (a e : Nat) : Nat := a * 16 + e

/-- The key of a cell of an entry. -/
def cellKey (a e r c : Nat) : Nat := entryKey a e * 4096 + r * 64 + c

/-- The arrays of which a logical tile covers some cell. -/
def arraysOf (mode a rows cols : Nat) : List Nat :=
  (List.range 4).filter (fun b => (List.range ((rows + 63) / 64)).any (fun i =>
    (List.range ((cols + 63) / 64)).any (fun j => (physOf mode a (64 * i) (64 * j)).1 == b)))

/-! ## Operands (R135, R136, R145) -/

/-- The group size of a pairing (Table 06-1). -/
def groupOf (fa fw : Nat) : Nat := 32 / max (rateBits fa) (rateBits fw)

/-- Is a pairing on the integer path (R44)? -/
def intPath (fa fw : Nat) : Bool := isIntFmt fa && isIntFmt fw

/-- An operand region as a feeder reads it: its bytes, tag, format, group size and the groups it is laid out in. -/
structure Operand where
  img : Img
  tag : Tag
  fmt : Nat
  g : Nat
  groups : Nat
  deriving DecidableEq, Repr

def Operand.of (img : Img) (fmt g used : Nat) : Operand :=
  let tag := Tag.ofBytes img.pbytes
  { img, tag, fmt, g, groups := max used ((tag.kused + g - 1) / g) }

def Operand.laneBytes (o : Operand) : Nat := (o.g * ebits o.fmt + 7) / 8

/-- The byte at which the slice of group i starts. -/
def Operand.sliceAt (o : Operand) (i : Nat) : Nat :=
  64 + i * o.tag.lanes * o.laneBytes + (if scaled o.fmt then i * o.g / 32 * o.tag.lanes else 0)

/-- The byte of the scale slice of a 32-element block. -/
def Operand.scaleAt (o : Operand) (b : Nat) : Nat :=
  64 + min ((b + 1) * 32 / o.g) o.groups * o.tag.lanes * o.laneBytes + b * o.tag.lanes

/-- A byte of the region with its poison. -/
def Operand.byte (o : Operand) (k : Nat) : PByte := (o.img.bytes.getD k 0, o.img.bad.contains (k / 32))

/-- The value of position p of a lane. -/
def Operand.at' (o : Operand) (lane p : Nat) : Num × Bool :=
  let w := ebits o.fmt
  let b0 := o.sliceAt (p / o.g) + lane * o.laneBytes + p % o.g * w / 8
  let sh := p % o.g * w % 8
  let n := (sh + w + 7) / 8
  let bs := (List.range n).map (fun k => o.byte (b0 + k))
  let code := leNat (bs.map (fun (b : PByte) => b.1)) / 2 ^ sh % 2 ^ w
  let bad := bs.any (fun (b : PByte) => b.2)
  if scaled o.fmt then
    let sc := o.byte (o.scaleAt (p / 32) + lane)
    (decodeScaled o.fmt code sc.1.toNat, bad || sc.2)
  else (decodeElem o.fmt code, bad)

/-! ## Runs (R45 to R47, R137) -/

/-- The value of a run register and its poison. -/
abbrev RunVal := Num × Bool

/-- The exact sum of a group's products (R45). -/
def groupSum (a w : Operand) (i j k : Nat) : RunVal :=
  let ps := (List.range a.g).map (fun q =>
    let x := a.at' i (k * a.g + q)
    let y := w.at' j (k * a.g + q)
    (Num.mul x.1 y.1, x.2 || y.2))
  (Num.sum (ps.map (·.1)), ps.any (·.2))

/-- A run of n groups from group k0: on the float path one rounding a group (R47), on the integer path exact (R46). -/
def runVal (int : Bool) (a w : Operand) (i j k0 n : Nat) : RunVal :=
  (List.range n).foldl (fun (r : RunVal) k =>
    let g := groupSum a w i j (k0 + k)
    let v := Num.add r.1 g.1
    (if int then v else roundRun v, r.2 || g.2)) (.zero, false)

/-- The runs of gg groups: first group and number of groups of each. -/
def runsOf (gg runLen : Nat) : List (Nat × Nat) :=
  (List.range ((gg + runLen - 1) / runLen)).map (fun r => (r * runLen, min runLen (gg - r * runLen)))

/-- An exact integer value. -/
def numInt : Num → Int
  | .fin n m e => scaleInt n m e 0
  | _ => 0

/-- Promotion of a run into an entry's cell (R48, R138): a tagged entry keeps its value and tag until it is reinitialised. A promotion on the other path
than the last takes the entry's 32 bits as that path's word, but a NaN or an infinity stays there (R49). DESIGN CHOICE: log 73. -/
def promote (int init : Bool) (mode : Nat) (c : AccCell) (r : RunVal) : AccCell :=
  if !init && (c.ovf || (int && c.flt && ((f32 c.w).isNan || (f32 c.w).isInf))) then { c with bad := c.bad || r.2, mode }
  else if int then
    let v := numInt r.1
    if init then { w := BitVec.ofInt 32 v, flt := false, ovf := false, bad := r.2, mode }
    else
      let x := c.w.toInt + v
      if x < -2147483648 then { w := 0x80000000#32, flt := false, ovf := true, bad := c.bad || r.2, mode }
      else if 2147483647 < x then { w := 0x7FFFFFFF#32, flt := false, ovf := true, bad := c.bad || r.2, mode }
      else { w := BitVec.ofInt 32 x, flt := false, ovf := false, bad := c.bad || r.2, mode }
  else if init then { w := rne32 r.1, flt := true, ovf := false, bad := r.2, mode }
  else { w := rne32 (Num.add (f32 c.w) r.1), flt := true, ovf := false, bad := c.bad || r.2, mode }

/-- All promotions of an MMA into one cell, in run order; an INIT with an empty run clears it (R173). -/
def promoteAll (int init : Bool) (mode : Nat) (c : AccCell) (rs : List RunVal) : AccCell :=
  match rs with
  | [] => if init then { w := 0, flt := !int, ovf := false, bad := false, mode } else c
  | r :: rest => rest.foldl (promote int false mode) (promote int init mode c r)

/-! ## Exempt lines (R154) -/

/-- A cell of a tile: logical row and column, and where it lies. -/
structure TCell where
  i : Nat
  j : Nat
  a : Nat
  r : Nat
  c : Nat
  deriving DecidableEq, Repr

def tileCells (mode a rows cols : Nat) : List TCell :=
  (List.range rows).flatMap (fun i => (List.range cols).map (fun j =>
    let p := physOf mode a i j
    { i, j, a := p.1, r := p.2.1, c := p.2.2 }))

/-- The sum over several lanes of an operand's position, exact (the edge adder). -/
def edgeSum (o : Operand) (lanes : List Nat) (p : Nat) : Num := Num.sum (lanes.map (fun l => (o.at' l p).1))

/-- The run register of a checksum cell that takes the sums of some activation rows and of some weight columns, with the largest exponent it reached:
FP32 with one rounding a group on the float path (R153), exact on the integer path (R152). -/
def checkRun (int : Bool) (a w : Operand) (is js : List Nat) (k0 n : Nat) : Num × Int :=
  (List.range n).foldl (fun (r : Num × Int) k =>
    let g := Num.sum ((List.range a.g).map (fun q =>
      Num.mul (edgeSum a is ((k0 + k) * a.g + q)) (edgeSum w js ((k0 + k) * a.g + q))))
    let v := if int then Num.add r.1 g else f32 (rne32 (Num.add r.1 g))
    (v, max r.2 (v.exponent (-126)))) (.zero, -126)

def special (v : Num) : Bool := v.isNan || v.isInf

/-- The value of a data run register at the end of a run, its poison, and the exponent Emax of R153. -/
def runEmax (int : Bool) (a w : Operand) (i j k0 n : Nat) : RunVal × Int :=
  (List.range n).foldl (fun (r : RunVal × Int) k =>
    let g := groupSum a w i j (k0 + k)
    let v := Num.add r.1.1 g.1
    let v := if int then v else roundRun v
    ((v, r.1.2 || g.2), max r.2 (v.exponent (-126)))) ((.zero, false), -126)

/-- What the check of a line compares (R152, R153): the exact sum D of its data run registers, its checksum run register C, the bound B, and whether the
line is exempt (R154). -/
structure LineCheck where
  d : Num
  c : Num
  bound : Num
  exempt : Bool
  deriving DecidableEq, Repr

/-- The check of the line of some cells, over a run of n groups from group k0. The integer path has no special value, so only poison exempts there. -/
def checkLine (int : Bool) (a w : Operand) (k0 n : Nat) (l : List TCell) : LineCheck :=
  let rs := l.map (fun x => runEmax int a w x.i x.j k0 n)
  let (c, ec) := checkRun int a w (distinct (l.map (·.i))) (distinct (l.map (·.j))) k0 n
  let d := Num.sum (rs.map (fun r => r.1.1))
  let b := Num.sum (rs.map (fun r => (.fin false n (max (r.2 - 16) (-126)) : Num)) ++ [.fin false n (ec - 24)])
  { d, c, bound := if int then .zero else b
    exempt := rs.any (fun r => r.1.2) || (!int && (rs.any (fun r => special r.1.1) || special d || special c)) }

/-- ulp32 of R153. -/
def ulp32 (v : Num) : Num := .fin false 1 (max (v.exponent (-200) - 23) (-149))

/-- Does a line pass (R152 to R154)? The tolerance counts on the float path only. -/
def LineCheck.passes (int : Bool) (tol : Nat) (x : LineCheck) : Bool :=
  let m := if int then .zero else Num.add x.bound (Num.mul (.fin false tol 0) (ulp32 x.c.abs))
  x.exempt || !(Num.lt m (Num.add x.d x.c.negate).abs)

/-- The 128 lines of one array in one run, by the index that State.checks gives them. -/
def checkLines (int : Bool) (a w : Operand) (cells : List TCell) (k0 n : Nat) : List LineCheck :=
  (List.range 64).map (fun c => checkLine int a w k0 n (cells.filter (fun x => x.c = c)))
  ++ (List.range 64).map (fun r => checkLine int a w k0 n (cells.filter (fun x => x.r = r)))

/-- The exempt lines of one array in one run. -/
def exemptLines (ls : List LineCheck) : Nat := (ls.filter (fun x => x.exempt)).length

/-- Is the run verified: some line is checked, and every line passes (R154)? -/
def verified (int : Bool) (tol : Nat) (ls : List LineCheck) : Bool := ls.any (fun x => !x.exempt) && ls.all (LineCheck.passes int tol)

/-- The checksum run registers of array b after a run: they keep its sums until the next one. DESIGN CHOICE: log 74. -/
def putChecks (int : Bool) (m : Map W32) (b : Nat) (ls : List LineCheck) : Map W32 :=
  ls.zipIdx.foldl (fun m (x, n) => mset m (128 * b + n) (if int then BitVec.ofInt 32 (numInt x.c) else rne32 x.c)) m

/-! ## ARR_HEALTH and substitution (R157, Table 06-8) -/

/-- The physical array that computes logical array a. -/
def substitute (deg : List Nat) (a : Nat) : Nat :=
  let good := (List.range 4).filter (fun x => !(deg.contains x))
  if deg.contains a && !good.isEmpty then
    let k := ((List.range 4).filter (fun x => deg.contains x && decide (x < a))).length
    good.getD (k % good.length) a
  else a

/-- Rounds per pass. -/
def roundsOf (deg : List Nat) : Nat := if deg.length < 4 then (4 + (4 - deg.length) - 1) / (4 - deg.length) else 4

/-- ARR_HEALTH of a terrace. -/
def arrHealth (deg : List Nat) : Nat :=
  deg.foldl (fun n a => n + 2 ^ a) 0 + (roundsOf deg - 1) * 2 ^ 4
  + ((List.range 4).map (fun a => substitute deg a * 2 ^ (8 + 2 * a))).sum

/-- A trigger of a terrace retirement waits its turn (R426, R429): one for a terrace already Retiring is ignored. -/
def askRetire (s : State) (trigger : Nat) (tgs : List Nat) : State :=
  let new := tgs.filter (fun tg => !((terrace s tg).retiring || (terrace s tg).retired))
  if new.isEmpty then s else { s with retQ := s.retQ ++ [(trigger, new)] }

/-- The fourth array of a terrace is degraded (R158, R421): the array fault is logged, the item is stopped and waits for its
replay, and the terrace's retirement is asked for. -/
def fourthArray (s : State) (tg thr pc : Nat) : State :=
  let s := match slotOf s tg with
    | some k =>
      let s := rasAppend s 0x10 1 1 tg (some (allotOf s tg)) (fARRAY + thr * 2 ^ 8 + pc % 2 ^ 52 * 2 ^ 12)
      updRun (stopItem s k) k (fun r => { r with parked := true })
    | none => s
  askRetire s 0 [tg]

/-- The logical arrays an MMA computes on. -/
def mmaArrays (c : Cmd) : List Nat :=
  if fld c.w0 45 3 = 0 then (List.range 4).filter (fun a => bit c.w1 (40 + a)) else List.range 4

/-- A check of a run fails on an array (R155, R156): the first failure starts a replay; a failure of that run in its replay, on the same
array, marks it degraded. Only an array that computes an MMA in progress is checked. DESIGN CHOICE: log 74. -/
def execArrayCheckFail (tg : Fin 64) (check : ArrayCheck) (s : State) : Host.Outcome State Fault Refusal :=
  let g := tg.val
  let a := check.array.val
  let t := terrace s g
  match execOf t 20 with
  | none => .next s
  | some e =>
    if !(wMin e.cmd.w0 = 0 && (mmaArrays e.cmd).any (fun l => substitute t.degraded l = a)) then .next s
    else
      let s := satAdd s (tBase g + 0x1108) 0 (8 * a) 8 1
      if !(check.again && t.replaying.contains a) then .next (updTerrace s g (fun t => { t with replaying := setIns t.replaying a }))
      else
        let deg := setIns t.degraded a
        let s := updTerrace s g (fun t => { t with degraded := deg, replaying := t.replaying.filter (fun x => x ≠ a) })
        let s := intCause (rasAppend s 0x20 2 1 g none (arrHealth deg + a * 2 ^ 32)) 4
        if deg.length = 4 then .next (fourthArray s g e.cmd.thr e.cmd.th.pc.toNat) else .next s

end Sys2Proof.Machine
end

