-- ==== Sys2Proof/Machine/Cistern.lean ====
section
/-! DEFINITION. Cistern: control block, pools, sequences and the operations of its agent (10 R256 to R277, 13 R376). -/

namespace Sys2Proof.Machine

/-! ## The control block (Tables 10-4, 10-5) -/

structure CPool where
  log2p : Nat
  latent : Bool
  fmtK : Nat
  fmtV : Nat
  hkv : Nat
  dh : Nat
  ng : Nat
  rl : Nat
  area : Nat
  deriving DecidableEq, Repr

structure Cb where
  al : Nat
  n : Nat
  spill : Bool
  la : Nat
  nseq : Nat
  maxPages : Nat
  seqAddr : Nat
  ptAddr : Nat
  stg : Nat
  far : Nat
  host : Nat
  reserve : Nat
  pools : List CPool
  deriving DecidableEq, Repr

def emptyIdx : Nat := 0xFFFFFFFF

/-- What accesses of a Cistern agent do at once (R299): its steps are never revoked (R344), and its copies pass as maintenance (Table 12-8). -/
def cisNote (s : State) (n al : Nat) (copy : Bool) (l : List Acc) : State :=
  let q := pathFor s (.agent n) al
  (noteOwed s (.agent n) none al { q with exempt := true, cls := if copy then 4 else q.cls } l).1

/-- A write of a Cistern agent. -/
def cisStore (s : State) (n al va : Nat) (copy : Bool) (bs : List PByte) : State :=
  let r := vWrite s (.agent n) al va bs
  cisNote r.1 n al copy r.2

/-- A step that writes a record of a control block reads it first. -/
def cisRecord (s : State) (n al va : Nat) (bs : List Byte) : State :=
  cisStore (cisNote s n al false (vRead s (.agent n) al va bs.length).accs) n al va false (bs.map (fun (b : Byte) => ((b, false) : PByte)))

/-- Read and write little-endian numbers of a control block's memory, as its agent does. -/
def cRead (s : State) (al n va k : Nat) : Nat := leNat (((vRead s (.agent n) al va k).data).map (fun (b : PByte) => b.1))
def cWrite (s : State) (al n va k v : Nat) : State :=
  cisStore s n al va false ((leBytes k v).map (fun (b : Byte) => ((b, false) : PByte)))

/-- The address in an allotment's entry (Table 14-9); 0 when it has no control block. -/
def cisAddr (s : State) (al : Nat) : Nat :=
  fld (rg s (allotBase al + 0x0C) 0) 12 20 * 4096 + fld (rg s (allotBase al + 0x10) 0) 0 20 * 2 ^ 32

/-- Does an address of the allotment lie in HBM of this module? -/
def inHbm (s : State) (al va : Nat) : Option Nat :=
  match findLeaf s (.agent 0) al (va % 2 ^ 52) with
  | .ok l =>
    let pa := l.pa + va % 2 ^ l.size
    if tierOf s pa = .hbm then some pa else none
  | .error _ => none

/-- The agent that serves a control block: that of the Saddle whose HBM holds it (R256). -/
def cisAgent (s : State) (al : Nat) : Option Nat :=
  if cisAddr s al = 0 then none else (inHbm s al (cisAddr s al)).map homeSaddle

def CPool.ofWords (a b rl area : Nat) : CPool :=
  { log2p := a / 2 ^ 20 % 16, latent := a / 2 ^ 19 % 2 = 1, fmtK := a / 2 ^ 14 % 32, fmtV := a / 2 ^ 9 % 32
    hkv := b / 2 ^ 24 % 256 + 1, dh := b / 2 ^ 16 % 256 + 1, ng := b / 2 ^ 8 % 256 + 1, rl, area }

/-- The control block of an allotment: none when it has none, or it or a pool area lies outside HBM. -/
def cbOf (s : State) (al : Nat) : Option Cb :=
  match cisAgent s al with
  | none => none
  | some n =>
    let a := cisAddr s al
    let r (o k : Nat) : Nat := cRead s al n (a + o) k
    let w := r 0 4
    let pools := (List.range (w / 2 ^ 16 % 16 + 1)).map (fun p =>
      let b := 0x40 + 64 * p
      CPool.ofWords (r b 4) (r (b + 4) 4) (r (b + 8) 4) (r (b + 0x10) 8))
    if pools.any (fun p => (inHbm s al p.area).isNone) then none
    else some { al, n, spill := w % 2 = 0, la := w / 2 ^ 8 % 2 ^ 8, nseq := r 4 4, maxPages := r 0x0C 4, seqAddr := r 0x10 8
                ptAddr := r 0x18 8, stg := r 0x20 8, far := r 0x28 8, host := r 0x30 8, reserve := r 0x38 4, pools }

def Cb.rd (c : Cb) (s : State) (va k : Nat) : Nat := cRead s c.al c.n va k
def Cb.wr (c : Cb) (s : State) (va k v : Nat) : State := cWrite s c.al c.n va k v

/-! ## Layouts (R258, R259) -/

def roundUp (n k : Nat) : Nat := (n + k - 1) / k * k

def CPool.p (x : CPool) : Nat := 2 ^ x.log2p

/-- Bytes of a key row and of a value row, or of a latent row. -/
def CPool.kRow (x : CPool) : Nat :=
  if x.latent then roundUp (rowBytes (ebits x.fmtK) x.rl) 32 else roundUp (rowBytes (ebits x.fmtK) x.dh) 32
def CPool.vRow (x : CPool) : Nat := if x.latent then 0 else roundUp (rowBytes (ebits x.fmtV) x.dh) 32

/-- Head groups of a page: heads, or latent groups. -/
def CPool.parts (x : CPool) : Nat := if x.latent then x.ng else x.hkv

/-- Bytes of n tokens in page row order. -/
def CPool.bytes (x : CPool) (n : Nat) : Nat := x.parts * n * (x.kRow + x.vRow)

def CPool.slot (x : CPool) : Nat := roundUp (x.bytes x.p) 4096

/-- The rows of token t in an image of n tokens: offset and length. -/
def CPool.rows (x : CPool) (n t : Nat) : List (Nat × Nat) :=
  (List.range x.parts).flatMap (fun h =>
    let b := h * n * (x.kRow + x.vRow)
    (b + t * x.kRow, x.kRow) :: (if x.latent then [] else [(b + n * x.kRow + t * x.vRow, x.vRow)]))

/-- The largest page of any pool: the size of staging, far and host slots. -/
def Cb.slotSize (c : Cb) : Nat := (c.pools.map (fun x => x.slot)).foldl max 0

def Cb.pool (c : Cb) (p : Nat) : CPool := c.pools.getD p (CPool.ofWords 0 0 0 0)

/-- The refcount of a pool page, and the address of a slot of an area with or without refcounts. -/
def areaRef (c : Cb) (s : State) (a i : Nat) : Nat := a + 0x40 + 4 * c.rd s a 4 + 4 * i
def areaSlot (c : Cb) (s : State) (a : Nat) (ref : Bool) (size i : Nat) : Nat :=
  roundUp (a + 0x40 + 4 * c.rd s a 4 * (if ref then 2 else 1)) 4096 + i * size

def Cb.pageAddr (c : Cb) (s : State) (p i : Nat) : Nat := areaSlot c s (c.pool p).area true (c.pool p).slot i
def Cb.stgAddr (c : Cb) (s : State) (i : Nat) : Nat := areaSlot c s c.stg false c.slotSize i
def Cb.farAddr (c : Cb) (s : State) (i : Nat) : Nat := areaSlot c s c.far false c.slotSize i
def Cb.hostAddr (c : Cb) (s : State) (i : Nat) : Nat := areaSlot c s c.host false c.slotSize i

/-- Pop the free stack of an area. -/
def Cb.pop (c : Cb) (s : State) (a : Nat) : Option (Nat × State) :=
  let top := c.rd s (a + 4) 4
  if a = 0 || top = 0 then none else some (c.rd s (a + 0x40 + 4 * (top - 1)) 4, c.wr s (a + 4) 4 (top - 1))

/-- Push a slot to the free stack of an area. -/
def Cb.push (c : Cb) (s : State) (a i : Nat) : State :=
  let top := c.rd s (a + 4) 4
  c.wr (c.wr s (a + 0x40 + 4 * top) 4 i) (a + 4) 4 (top + 1)

def Cb.ref (c : Cb) (s : State) (p i : Nat) : Nat := c.rd s (areaRef c s (c.pool p).area i) 4
def Cb.setRef (c : Cb) (s : State) (p i v : Nat) : State := c.wr s (areaRef c s (c.pool p).area i) 4 v

/-- Drop one reference to a page: at 0 it is pushed. -/
def Cb.unref (c : Cb) (s : State) (p i : Nat) : State :=
  let r := c.ref s p i - 1
  let s := c.setRef s p i r
  if r = 0 then c.push s (c.pool p).area i else s

/-! ## Records (Tables 10-6, 10-7) -/

structure CSeq where
  state : Nat
  pool : Nat
  stage : Nat
  len : Nat
  pages : Nat
  lastUse : Nat
  tag : Nat
  pending : Nat
  progress : Nat
  phase : Nat
  hstg : Nat
  holder : Nat
  deriving DecidableEq, Repr

def Cb.seq (c : Cb) (s : State) (q : Nat) : CSeq :=
  let a := c.seqAddr + 64 * q
  let w := c.rd s a 4
  { state := w / 2 ^ 29, pool := w / 2 ^ 25 % 16, stage := c.rd s (a + 4) 4, len := c.rd s (a + 8) 4, pages := c.rd s (a + 0xC) 4
    lastUse := c.rd s (a + 0x10) 8, tag := c.rd s (a + 0x18) 6, pending := c.rd s (a + 0x20) 4, progress := c.rd s (a + 0x24) 4
    phase := c.rd s (a + 0x28) 4 / 2 ^ 30, hstg := c.rd s (a + 0x2C) 4, holder := c.rd s (a + 0x30) 6 }

/-- Write a sequence record, as one step. -/
def Cb.setSeq (c : Cb) (s : State) (q : Nat) (x : CSeq) : State :=
  let bs := leBytes 4 (x.state * 2 ^ 29 + x.pool * 2 ^ 25) ++ leBytes 4 x.stage ++ leBytes 4 x.len ++ leBytes 4 x.pages
    ++ leBytes 8 x.lastUse ++ leBytes 8 x.tag ++ leBytes 4 x.pending ++ leBytes 4 x.progress ++ leBytes 4 (x.phase * 2 ^ 30)
    ++ leBytes 4 x.hstg ++ leBytes 8 x.holder ++ leBytes 8 0
  cisRecord s c.n c.al (c.seqAddr + 64 * q) bs

structure CPte where
  hpage : Nat
  fslot : Nat
  hslot : Nat
  hv : Bool
  deriving DecidableEq, Repr

def CPte.none : CPte := { hpage := emptyIdx, fslot := emptyIdx, hslot := emptyIdx, hv := false }

def Cb.pteAddr (c : Cb) (q i : Nat) : Nat := c.ptAddr + (q * c.maxPages + i) * 16

def Cb.pte (c : Cb) (s : State) (q i : Nat) : CPte :=
  let a := c.pteAddr q i
  { hpage := c.rd s a 4, fslot := c.rd s (a + 4) 4, hslot := c.rd s (a + 8) 4, hv := c.rd s (a + 0xC) 4 % 2 = 1 }

def Cb.setPte (c : Cb) (s : State) (q i : Nat) (e : CPte) : State :=
  let bs := leBytes 4 e.hpage ++ leBytes 4 e.fslot ++ leBytes 4 e.hslot ++ leBytes 4 e.hv.toNat
  cisRecord s c.n c.al (c.pteAddr q i) bs

/-! ## Copies -/

/-- Copy bytes with their poison. -/
def Cb.copy (c : Cb) (s : State) (src dst k : Nat) : State :=
  let rd := vRead s (.agent c.n) c.al src k
  cisStore (cisNote s c.n c.al true rd.accs) c.n c.al dst true rd.data

/-- Copy k tokens from token t of an image of n tokens to token u of an image of m tokens. -/
def Cb.copyTokens (c : Cb) (s : State) (x : CPool) (src n t dst m u k : Nat) : State :=
  (List.range k).foldl (fun s i =>
    ((x.rows n (t + i)).zip (x.rows m (u + i))).foldl (fun s r => c.copy s (src + r.1.1) (dst + r.2.1) r.1.2) s) s

/-- Where the data of an entry lies: its page, or its far slot (R271); none when it has neither. -/
def Cb.entryAddr (c : Cb) (s : State) (p : Nat) (e : CPte) : Option Nat :=
  if e.hpage ≠ emptyIdx && e.hv then some (c.pageAddr s p e.hpage)
  else if e.fslot ≠ emptyIdx then some (c.farAddr s e.fslot) else none

/-- The entries of a sequence from entry i up to its first empty one. -/
def Cb.entries (c : Cb) (s : State) (q : Nat) (fuel i : Nat) : List CPte :=
  match fuel with
  | 0 => []
  | fuel + 1 => if c.pte s q i = CPte.none then [] else c.pte s q i :: c.entries s q fuel (i + 1)

/-- Does an entry name a far slot? A forked sequence names its parent's (R267). -/
def Cb.farNamed (c : Cb) (s : State) (f : Nat) : Bool :=
  (List.range c.nseq).any (fun q => (c.entries s q c.maxPages 0).any (fun e => e.fslot = f))

/-- Release one entry: its fields cleared, its page's reference dropped, its far and host slots pushed (R268). A far slot that
another entry still names stays, so that the counts of R276 balance. DEDUCED: log 29. -/
def Cb.release (c : Cb) (s : State) (q p i : Nat) : State :=
  let e := c.pte s q i
  let s := c.setPte s q i CPte.none
  let s := if e.hpage ≠ emptyIdx then c.unref s p e.hpage else s
  let s := if e.fslot ≠ emptyIdx && !(c.farNamed s e.fslot) then c.push s c.far e.fslot else s
  if e.hslot ≠ emptyIdx then c.push s c.host e.hslot else s

/-- Release entries lo to hi - 1 from the highest down. -/
def Cb.releaseDown (c : Cb) (s : State) (q p lo hi : Nat) : State :=
  ((List.range (hi - lo)).reverse).foldl (fun s k => c.release s q p (lo + k)) s

/-! ## Holders and victims (R269, R270) -/

/-- Is a tag that of a running item of the allotment? -/
def tagRuns (s : State) (al tag : Nat) : Bool := s.runs.any (fun e => e.2.allot = al && e.2.tag = tag && !e.2.stopped)

/-- Is a sequence held by a running item other than tag? -/
def heldByOther (s : State) (al tag : Nat) (x : CSeq) : Bool := x.holder ≠ 0 && x.holder ≠ tag && tagRuns s al x.holder

/-- The unheld Live sequences of a pool, by LAST_USE and number. -/
def Cb.victims (c : Cb) (s : State) (p : Nat) : List Nat :=
  let l := (List.range c.nseq).filterMap (fun q =>
    let x := c.seq s q
    if x.state = 1 && x.pool = p && !(x.holder ≠ 0 && tagRuns s c.al x.holder) then some (x.lastUse, q) else none)
  (sortBy (fun (a b : Nat × Nat) => decide (a.1 < b.1) || (a.1 == b.1 && decide (a.2 ≤ b.2))) l).map (fun e => e.2)

/-- What an operation gets that asks for a page or a slot. -/
inductive Grab where
  | got (i : Nat) (s : State)
  | wait (s : State)
  | exhausted

/-- Spill a victim's lowest unshared mapped entry: its page is handed over (R271); some none when no far slot is left for it (R270), and none when the
victim has no such entry. -/
def Cb.spillOne (c : Cb) (s : State) (p v : Nat) : Option (Option (Nat × State)) :=
  let x := c.seq s v
  match (List.range x.pages).find? (fun i =>
      let e := c.pte s v i
      e.hpage ≠ emptyIdx && e.hv && c.ref s p e.hpage = 1) with
  | none => none
  | some i =>
    let e := c.pte s v i
    let slot : Option (Nat × State) :=
      if e.fslot ≠ emptyIdx then some (e.fslot, s)
      else match c.pop s c.far with
        | none => none
        | some (f, s) => some (f, c.copy s (c.pageAddr s p e.hpage) (c.farAddr s f) (c.pool p).slot)
    match slot with
    | none => some none
    | some (f, s) =>
      let s := c.setRef (c.setPte s v i { e with fslot := f, hpage := emptyIdx, hv := false }) p e.hpage 0
      some (some (e.hpage, satAdd s (sBase c.n + 0x60008) 0 0 16 1))

/-- Begin the swap-out of a victim (R273 step 1): none when no host slot is left for its staging image. A victim whose swap-in has not given back its
staging image's host slot keeps it. DEDUCED: log 29. -/
def Cb.beginOut (c : Cb) (s : State) (v : Nat) : Option State :=
  let x := c.seq s v
  match if x.hstg ≠ emptyIdx then some (x.hstg, s) else c.pop s c.host with
  | none => none
  | some (h, s) => some (c.setSeq s v { c.seq s v with state := 2, phase := 1, progress := 0, hstg := h })

/-- Is a swap-out of the pool under way, so that pages or slots will come free? -/
def Cb.swapping (c : Cb) (s : State) (p : Nat) : Bool :=
  (List.range c.nseq).any (fun q =>
    let x := c.seq s q
    x.pool = p && (x.state = 2 || (x.state = 3 && x.phase = 2)))

/-- A victim is swapped out, unless one already is. -/
def Cb.swapVictim (c : Cb) (s : State) (p : Nat) : Grab :=
  if c.swapping s p then .wait s
  else match c.victims s p with
    | [] => .exhausted
    | v :: _ => match c.beginOut s v with
      | none => .exhausted
      | some s => .wait s

/-- A pool page (R270); its refcount is set to 1 for the reference that takes it. -/
def Cb.grabPage (c : Cb) (s : State) (p : Nat) : Grab :=
  match c.pop s (c.pool p).area with
  | some (i, s) => .got i (c.setRef s p i 1)
  | none =>
    if c.spill then
      match (c.victims s p).findSome? (c.spillOne s p) with
      | some (some (i, s)) => .got i (c.setRef s p i 1)
      | _ => .exhausted
    else c.swapVictim s p

/-- A staging slot (R270). -/
def Cb.grabStage (c : Cb) (s : State) (p : Nat) : Grab :=
  match c.pop s c.stg with
  | some (i, s) => .got i s
  | none => if c.spill then .exhausted else c.swapVictim s p

/-! ## What a step may reach (R256, R326, R331) -/

/-- The areas of a control block (R257, R258): address, length, and the tier each must lie in. -/
def Cb.areas (c : Cb) (s : State) : List (Nat × Nat × (Tier → Bool)) :=
  let len (a refs size : Nat) : Nat := let n := c.rd s a 4; roundUp (0x40 + 4 * n * refs) 4096 + n * size
  let hbm (t : Tier) : Bool := t == .hbm
  [(cisAddr s c.al, 0x40 + 64 * c.pools.length, hbm), (c.seqAddr, 64 * c.nseq, hbm), (c.ptAddr, 16 * c.nseq * c.maxPages, hbm)]
  ++ c.pools.map (fun x => (x.area, len x.area 2 x.slot, hbm))
  ++ [(c.stg, len c.stg 1 c.slotSize, fun _ => true)]
  ++ (if c.far = 0 then [] else [(c.far, len c.far 1 c.slotSize, fun t => match t with | .far _ => true | _ => false)])
  ++ (if c.host = 0 then [] else [(c.host, len c.host 1 c.slotSize, fun t => t == .host)])

/-- The first page of a range that a step may not use: its address, and the fault, none for a wrong tier. -/
def badPage (s : State) (n al a len : Nat) (ok : Tier → Bool) : Option (Nat × Option AccKind) :=
  (List.range ((a % 65536 + len + 65535) / 65536)).findSome? (fun k =>
    let va := max a ((a / 65536 + k) * 65536)
    match xlate s (.agent n) al va (permR ||| permW) with
    | .error 8 => none
    | .error e => some (va, some e)
    | .ok pa => if ok (tierOf s pa) then none else some (va, none))

/-- Why no step of a control block can run: it needs R and W on the control block and its areas (R326), each in its tier (R256, R257).
DEDUCED: log 29. -/
def Cb.bad (c : Cb) (s : State) : Option (Nat × Option AccKind) :=
  (c.areas s).findSome? (fun e => badPage s c.n c.al e.1 e.2.1 e.2.2)

/-- The record of a step that faults; it writes nothing (R331). -/
def cisFaulted (s : State) (slot : Option Nat) (al n : Nat) (e : Nat × Option AccKind) : State :=
  let readable := match xlate s (.agent n) al e.1 permR with
    | .error _ => false
    | .ok _ => true
  logStream s slot al (68 + n) [{ va := e.1, acc := readable.toNat, kind := e.2 }]

/-- The record of an operation whose control block itself cannot be reached. -/
def cisLost (s : State) (slot : Option Nat) (al : Nat) : State :=
  match xlate s (.agent 0) al (cisAddr s al) permR with
  | .error k => if cisAddr s al = 0 then s else cisFaulted s slot al 0 (cisAddr s al, some k)
  | .ok _ => s

/-! ## Operations (Tables 10-9, 10-10) -/

/-- What the agent answers: done with a code, or waiting, with the operation as it is to be tried again. -/
inductive CisAns where
  | done (code : Nat) (s : State)
  | wait (op : CisOp) (s : State)

def sOf (o : CisOp) : Nat := (o.cmd.th.sreg (fld o.cmd.w0 35 5)).toNat
def xOf (o : CisOp) : Nat := (o.cmd.th.sreg (fld o.cmd.w0 30 5)).toNat
def yOf (o : CisOp) : Nat := (o.cmd.th.sreg (fld o.cmd.w0 25 5)).toNat

/-- Note a hold, an append or a read in LAST_USE. -/
def Cb.used (c : Cb) (s : State) (x : CSeq) : CSeq := { x with lastUse := (saddle s c.n).cisOps }

/-- A replay of an OPEN or FORK holds the sequence again, unless another running item does (R263, R269). -/
def Cb.again (c : Cb) (s : State) (q : Nat) (x : CSeq) (tag : Nat) : State :=
  if heldByOther s c.al tag x then s else c.setSeq s q (c.used s { x with holder := tag })

def cisOpen (c : Cb) (s : State) (o : CisOp) : CisAns :=
  let q := sOf o
  let p := fld o.cmd.w0 21 4
  let x := c.seq s q
  if c.nseq ≤ q || c.pools.length ≤ p then .done 4 s
  else if x.state = 1 && x.tag = o.tag then .done 1 (c.again s q x o.tag)
  else if x.state ≠ 0 then .done 3 s
  else match c.grabStage s p with
    | .exhausted => .done 2 s
    | .wait s => .wait o s
    | .got i s => .done 0 (c.setSeq s q { state := 1, pool := p, stage := i, len := 0, pages := 0, lastUse := (saddle s c.n).cisOps
                                          tag := o.tag, pending := emptyIdx, progress := 0, phase := 0, hstg := emptyIdx
                                          holder := o.tag })

/-- Copy the first n entries of a parent into a child, one per step (R267): the page gains a reference, and the far slot is named
twice. -/
def Cb.forkEntries (c : Cb) (s : State) (q par p n : Nat) : State :=
  (List.range n).foldl (fun s i =>
    let e := c.pte s par i
    let live := e.hpage ≠ emptyIdx && e.hv
    let s := if live then c.setRef s p e.hpage (c.ref s p e.hpage + 1) else s
    c.setPte s q i { hpage := if live then e.hpage else emptyIdx, fslot := e.fslot, hslot := emptyIdx, hv := live }) s

/-- Copy the tokens of page k from 0 to n - 1 into a staging slot: from the page or far copy, or from a staging slot. -/
def Cb.copyTail (c : Cb) (s : State) (par : Nat) (x : CSeq) (k n dst : Nat) : State :=
  let pl := c.pool x.pool
  if n = 0 then s
  else if k < x.pages then
    match c.entryAddr s x.pool (c.pte s par k) with
    | some a => c.copyTokens s pl a pl.p 0 (c.stgAddr s dst) pl.p 0 n
    | none => s
  else c.copyTokens s pl (c.stgAddr s x.stage) pl.p 0 (c.stgAddr s dst) pl.p 0 n

def cisFork (c : Cb) (s : State) (o : CisOp) : CisAns :=
  let q := sOf o
  let par := xOf o
  let len := yOf o
  let x := c.seq s q
  let y := c.seq s par
  let pl := c.pool y.pool
  if c.nseq ≤ q || c.nseq ≤ par then .done 4 s
  else if x.state = 1 && x.tag = o.tag then .done 1 (c.again s q x o.tag)
  else if y.state ≠ 1 || x.state ≠ 0 || q = par then .done 3 s
  else if y.len < len then .done 4 s
  else match c.grabStage s y.pool with
    | .exhausted => .done 2 s
    | .wait s => .wait o s
    | .got i s =>
      let n := len / pl.p
      let rec0 : CSeq := { state := 5, pool := y.pool, stage := i, len := 0, pages := 0, lastUse := (saddle s c.n).cisOps
                           tag := o.tag, pending := emptyIdx, progress := 0, phase := 0, hstg := emptyIdx, holder := o.tag }
      let s := c.forkEntries (c.setSeq s q rec0) q par y.pool n
      let s := c.copyTail s par y n (len % pl.p) i
      .done 0 (c.setSeq s q { rec0 with state := 1, len, pages := n })

/-- A swap-in gives back the pages it took and its staging slot: the sequence is Preempted again (R273). -/
def Cb.abortIn (c : Cb) (s : State) (q : Nat) : State :=
  let x := c.seq s q
  let s := (List.range x.pages).foldl (fun s k =>
    let f := c.pte s q k
    if f.hpage ≠ emptyIdx then c.unref (c.setPte s q k { f with hpage := emptyIdx, hv := false }) x.pool f.hpage else s) s
  c.push (c.setSeq s q { x with state := 3, phase := 0, progress := 0, stage := emptyIdx, holder := 0 }) c.stg x.stage

/-- A swap-in takes the page of its next entry, if that has none (R273). -/
def Cb.pageIn (c : Cb) (s : State) (q : Nat) : Grab :=
  let x := c.seq s q
  let e := c.pte s q x.progress
  if x.pages ≤ x.progress || e.hpage ≠ emptyIdx then .got e.hpage s
  else match c.grabPage s x.pool with
    | .got g s => .got g (c.setPte s q x.progress { e with hpage := g, hv := false })
    | r => r

/-- Begin a swap-in (R273): STATE SwapIn, a staging slot popped; one that waits for a page takes it in the hold's turn (R270). -/
def cisHold (c : Cb) (s : State) (o : CisOp) : CisAns :=
  let q := sOf o
  let x := c.seq s q
  if c.nseq ≤ q then .done 4 s
  else if heldByOther s c.al o.tag x then .done 3 s
  else if x.state = 1 then .done 0 (c.setSeq s q (c.used s { x with holder := o.tag }))
  else if x.state = 4 && x.holder = o.tag then match c.pageIn s q with
    | .got _ s => .wait o s
    | .wait s => .wait o s
    | .exhausted => .done 2 (c.abortIn s q)
  else if x.state ≠ 3 || x.phase ≠ 0 then (if x.state = 3 then .wait o s else .done 3 s)
  else match c.grabStage s x.pool with
    | .exhausted => .done 2 s
    | .wait s => .wait o s
    | .got i s => .wait o (c.setSeq s q { x with state := 4, phase := 1, progress := 0, stage := i, holder := o.tag })

def cisRelease (c : Cb) (s : State) (o : CisOp) : CisAns :=
  let q := sOf o
  if c.nseq ≤ q then .done 4 s else .done 0 (c.setSeq s q { c.seq s q with holder := 0 })

/-- Map a full staging slot as the next page (R266): the page number, or why there is none. -/
def Cb.flush (c : Cb) (s : State) (q : Nat) : Grab :=
  let x := c.seq s q
  match c.grabPage s x.pool with
  | .got i s =>
    let s := c.setSeq s q { c.seq s q with pending := i }
    let s := c.copy s (c.stgAddr s x.stage) (c.pageAddr s x.pool i) (c.pool x.pool).slot
    let s := c.setPte s q x.pages { hpage := i, fslot := emptyIdx, hslot := emptyIdx, hv := true }
    let s := c.setSeq s q { c.seq s q with pending := emptyIdx, pages := x.pages + 1, len := (x.pages + 1) * (c.pool x.pool).p }
    .got i (satAdd s (sBase c.n + 0x60004) 0 0 32 1)
  | g => g

/-- The Sluice's image of one token row goes into the staging slot. -/
def Cb.putToken (c : Cb) (s : State) (pl : CPool) (img : List PByte) (n t dst u : Nat) : State :=
  ((pl.rows n t).zip (pl.rows pl.p u)).foldl (fun s r =>
    cisStore s c.n c.al (dst + r.2.1) false ((img.drop r.1.1).take r.1.2)) s

/-- How an append ends: with its tokens written, waiting for a page, or where the pages ran out. -/
inductive AppEnd where
  | done (s : State)
  | wait (s : State)
  | exhausted (s : State)

/-- Append tokens from at' to the end of a region of n tokens that begins at position pos (R265, R266). kept: the state after the last
flush, which stands when no page is found. -/
def Cb.append (c : Cb) (kept s : State) (q pos n : Nat) (img : List PByte) (fuel at' : Nat) : AppEnd :=
  match fuel with
  | 0 => .done s
  | fuel + 1 =>
    let x := c.seq s q
    let pl := c.pool x.pool
    if pos + n ≤ at' then .done (c.setSeq s q { x with len := max x.len (pos + n) })
    else
      let s := c.putToken s pl img n (at' - pos) (c.stgAddr s x.stage) (at' - x.pages * pl.p)
      if at' + 1 = (x.pages + 1) * pl.p then
        match c.flush s q with
        | .got _ s => c.append s s q pos n img fuel (at' + 1)
        | .wait s => .wait s
        | .exhausted => .exhausted kept
      else c.append kept s q pos n img fuel (at' + 1)

/-- The operation as its first try leaves it: tokens below LENGTH are dropped, and counted once (R264, R265). -/
def CisOp.try (o : CisOp) (drops : Bool) : CisOp := if o.tried then o else { o with tried := true, replay := drops }

def cisAppend (c : Cb) (s : State) (o : CisOp) : CisAns :=
  let q := sOf o
  let pos := xOf o
  let n := yOf o
  let x := c.seq s q
  let pl := c.pool x.pool
  if c.nseq ≤ q || n = 0 || 1024 < n then .done 4 s
  else if x.state ≠ 1 || x.holder ≠ o.tag then .done 3 s
  else if x.len < pos || c.maxPages * pl.p < pos + n || o.img.bytes.length < pl.bytes n then .done 4 s
  else
    let o' := o.try (decide (pos < x.len))
    let s := c.setSeq s q (c.used s x)
    let s := if !o.tried && o'.replay then satAdd s (sBase c.n + 0x60010) 0 0 16 1 else s
    match c.append s s q pos n o.img.pbytes (n + 1) (max pos x.len) with
    | .done s => .done o'.replay.toNat s
    | .wait s => .wait o' s
    | .exhausted s => .done 2 s

def cisTrim (c : Cb) (s : State) (o : CisOp) : CisAns :=
  let q := sOf o
  let len := xOf o
  let x := c.seq s q
  let pl := c.pool x.pool
  if c.nseq ≤ q then .done 4 s
  else if x.state ≠ 1 || x.holder ≠ o.tag then .done 3 s
  else if x.len < len then .done 4 s
  else
    let k := len / pl.p
    let s := if len % pl.p ≠ 0 && k < x.pages then c.copyTail s q x k (len % pl.p) x.stage else s
    let s := c.setSeq s q { x with len, pages := k }
    .done 0 (c.releaseDown s q x.pool k x.pages)

def cisClose (c : Cb) (s : State) (o : CisOp) : CisAns :=
  let q := sOf o
  let x := c.seq s q
  if c.nseq ≤ q then .done 4 s
  else if x.state = 0 then .done 0 s
  else if heldByOther s c.al o.tag x then .done 3 s
  else
    let s := c.setSeq s q { x with state := 0, len := 0, pages := 0, stage := emptyIdx, holder := 0, phase := 0, hstg := emptyIdx }
    let s := if x.stage ≠ emptyIdx then c.push s c.stg x.stage else s
    let s := if x.hstg ≠ emptyIdx then c.push s c.host x.hstg else s
    .done 0 (c.releaseDown s q x.pool 0 x.pages)

/-- One operation of the agent on a control block. -/
def cisDo (c : Cb) (s : State) (o : CisOp) : CisAns :=
  match wMin o.cmd.w0 with
  | 0 => cisOpen c s o
  | 1 => cisFork c s o
  | 2 => cisHold c s o
  | 3 => cisRelease c s o
  | 4 => cisAppend c s o
  | 5 => cisTrim c s o
  | 6 => cisClose c s o
  | _ => if c.nseq ≤ sOf o then .done 4 s else .done 0 s

/-- One operation of the agent: it waits for the scan after a reset. -/
def cisDoAt (s : State) (o : CisOp) (b : Option Cb) : CisAns :=
  match b with
  | none => .done 4 (cisLost s (slotOf s o.tg) o.allot)
  | some c =>
    if (saddle s c.n).cisScan.contains o.allot then .wait o s
    else match c.bad s with
      | some e => .done 4 (cisFaulted s (slotOf s o.tg) c.al c.n e)
      | none => cisDo c s o

def cisRun (s : State) (o : CisOp) : CisAns := cisDoAt s o (cbOf s o.allot)

/-- The status word (R264). -/
def cisStatusAt (s : State) (o : CisOp) (code : Nat) (b : Option Cb) : W64 :=
  match b with
  | some c =>
    if c.nseq ≤ sOf o then BitVec.ofNat 64 code
    else
      let x := c.seq s (sOf o)
      BitVec.ofNat 64 (x.len * 2 ^ 32 + x.state * 2 ^ 29 + code)
  | none => BitVec.ofNat 64 code

def cisStatus (s : State) (o : CisOp) (code : Nat) : W64 := cisStatusAt s o code (cbOf s o.allot)

/-- Give a waiting thread its status. -/
def cisAnswer (s : State) (o : CisOp) (code : Nat) : State :=
  let s := if code = 2 then
      match cisAgent s o.allot with
      | some n => satAdd s (sBase n + 0x60010) 0 16 16 1
      | none => s
    else s
  let v := cisStatus s o code
  updThread s o.tg o.cmd.thr (fun t => match t.st with
    | .blocked (.cis sd pd none) => { t with st := .blocked (.cis sd pd (some v)) }
    | _ => t)

/-- The swap-outs that an operation has begun. -/
def noteOuts (c : Cb) (before s : State) (o : CisOp) : State :=
  let new := (List.range c.nseq).filter (fun q => (c.seq before q).state = 1 && (c.seq s q).state = 2)
  if new.isEmpty then s
  else updSaddle s c.n (fun d => { d with cisOuts := d.cisOuts ++ new.map (fun q => { al := c.al, seq := q, tg := o.tg, thr := o.cmd.thr }) })

/-- The same for an operation that is tried, on the control block of its allotment. -/
def cisBegan (before : State) (o : CisOp) (a : CisAns) : CisAns :=
  match a, cbOf before o.allot with
  | .wait o' s, some c => .wait o' (noteOuts c before s o)
  | _, _ => a

/-- Take what the agent answers to an operation: its status, or its place among the waiting ones. -/
def cisTake (n : Nat) (o : CisOp) (a : CisAns) : State :=
  match a with
  | .done code s => cisAnswer s o code
  | .wait o s => updSaddle s n (fun d => { d with cisWait := d.cisWait ++ [o] })

/-- Try the waiting operations of an agent again, in order of arrival (R270). DEDUCED: log 29. -/
def cisRetry (s : State) (n : Nat) : State :=
  let ops := (saddle s n).cisWait
  ops.foldl (fun s o => cisTake n o (cisBegan s o (cisRun s o))) (updSaddle s n (fun d => { d with cisWait := [] }))

/-! ## Issue (R376) -/

/-- Forward an operation to the agent: the thread waits for its status. -/
def cisSend (c : Ctx) (s : State) (img : Img) : State :=
  match runOfT s c.tg with
  | none => s
  | some (_, r) =>
    let o : CisOp := { tg := c.tg, cmd := { thr := c.thr, w0 := c.w0, w1 := 0, th := c.t }, tag := r.tag, allot := r.allot, img
                       replay := false }
    let n := (cisAgent s r.allot).getD 0
    let s := onThread c s (fun t => { t with st := .blocked (.cis (fld c.w0 43 5) (fld c.w0 40 3) none) })
    let s := updSaddle s n (fun d => { d with cisOps := d.cisOps + 1 })
    cisTake n o (cisBegan s o (cisRun s o))

def cisPlain (c : Ctx) (s : State) : Option State := some (cisSend c s {})

def execCisOpen (i : Issue) (s : State) : Host.Outcome State Fault Refusal :=
  issue { maj := 0x0A, min := 0x00 } i s (strict [(0, 21), (25, 10)] cisPlain)

def execCisFork (i : Issue) (s : State) : Host.Outcome State Fault Refusal :=
  issue { maj := 0x0A, min := 0x01 } i s (strict [(0, 25)] cisPlain)

def execCisHold (i : Issue) (s : State) : Host.Outcome State Fault Refusal :=
  issue { maj := 0x0A, min := 0x02 } i s (strict [(0, 35)] cisPlain)

def execCisRelease (i : Issue) (s : State) : Host.Outcome State Fault Refusal :=
  issue { maj := 0x0A, min := 0x03 } i s (strict [(0, 35)] cisPlain)

/-- CIS.APPEND names a handle of its terrace (R265). -/
def appendFault (c : Ctx) (s : State) : Option Nat :=
  if !(handleOk (terrace s c.tg) (c.t.hreg (fld c.w0 17 4))) then some fHANDLE else none

/-- CIS.APPEND: the Sluice sends the region to the agent, and REL frees it (R265). -/
def appendBody (c : Ctx) (s : State) : Option State :=
  let h := c.t.hreg (fld c.w0 17 4)
  let s' := cisSend c s (imgOf (regionBytes s c.tg h))
  some (if bit c.w0 16 then freeHandle s' c.tg c.thr c.pc h else s')

def execCisAppend (i : Issue) (s : State) : Host.Outcome State Fault Refusal :=
  issue { maj := 0x0A, min := 0x04 } i s (strict [(0, 16), (21, 4)] (checked appendFault appendBody))

def execCisTrim (i : Issue) (s : State) : Host.Outcome State Fault Refusal :=
  issue { maj := 0x0A, min := 0x05 } i s (strict [(0, 30)] cisPlain)

def execCisClose (i : Issue) (s : State) : Host.Outcome State Fault Refusal :=
  issue { maj := 0x0A, min := 0x06 } i s (strict [(0, 35)] cisPlain)

def execCisQuery (i : Issue) (s : State) : Host.Outcome State Fault Refusal :=
  issue { maj := 0x0A, min := 0x07 } i s (strict [(0, 35)] cisPlain)

/-! ## Read notices and promotion (R272) -/

/-- Promote one entry: a free page above the reserve takes the far copy. -/
def Cb.promote (c : Cb) (s : State) (q p i : Nat) : State :=
  let e := c.pte s q i
  if e.fslot = emptyIdx || e.hpage ≠ emptyIdx || c.rd s ((c.pool p).area + 4) 4 ≤ c.reserve then s
  else match c.pop s (c.pool p).area with
    | none => s
    | some (g, s) =>
      let s := c.setPte (c.setRef s p g 1) q i { e with hpage := g, hv := false }
      let s := c.copy s (c.farAddr s e.fslot) (c.pageAddr s p g) (c.pool p).slot
      satAdd (c.setPte s q i { e with hpage := g, hv := true }) (sBase c.n + 0x60008) 0 16 16 1

/-- A read notice of entry i of sequence q: the sequence is used, and the entries after it are promoted. -/
def cisNoted (s : State) (q i : Nat) (b : Option Cb) : State :=
  match b with
  | none => s
  | some c =>
    let x := c.seq s q
    if (c.bad s).isSome || !c.spill || x.state ≠ 1 then s
    else (List.range c.la).foldl (fun s k =>
      if i + 1 + k < x.pages then c.promote s q x.pool (i + 1 + k) else s) (c.setSeq s q (c.used s x))

/-- The agent of a Saddle takes the read notice of a page-table entry. -/
def cisNotice (s : State) (al page : Nat) (agent : Option Nat) : State :=
  match agent with
  | none => s
  | some n =>
    match takeFirst (fun (e : Nat × Nat × Nat) => e.1 == al && e.2.2 == page) (saddle s n).cisNotes with
    | none => s
    | some ((_, q, i), rest) =>
      let s := updSaddle s n (fun d => { d with cisNotes := rest, cisOps := d.cisOps + 1 })
      cisNoted s q i (cbOf s al)

/-- The agent takes the read notice of a page-table entry. -/
def execCisReadNotice (allot : Fin 1024) (page : Nat) (s : State) : Host.Outcome State Fault Refusal :=
  .next (cisNotice s allot.val page (cisAgent s allot.val))

/-! ## Swaps (R273) -/

/-- A swap-out that finds no host slot is given up: the victim stays Live, and the host slots it took go back. DEDUCED: log 29. -/
def Cb.abortOut (c : Cb) (s : State) (q : Nat) : State :=
  let x := c.seq s q
  let s := (List.range x.pages).foldl (fun s k =>
    let f := c.pte s q k
    if f.hslot ≠ emptyIdx then c.push (c.setPte s q k { f with hslot := emptyIdx }) c.host f.hslot else s) s
  c.push (c.setSeq s q { x with state := 1, phase := 0, hstg := emptyIdx }) c.host x.hstg

/-- One step of the swap of a sequence: the state as it was when it has to wait for a page or for data of the host. -/
def Cb.swapStep (c : Cb) (s : State) (q : Nat) : State :=
  let x := c.seq s q
  let p := x.pool
  let i := x.progress
  let e := c.pte s q i
  let size := (c.pool p).slot
  if x.state = 2 then
    if i < x.pages then
      let slot : Option (Nat × State) :=
        if e.hslot ≠ emptyIdx then some (e.hslot, s) else c.pop s c.host
      match slot with
      | none => c.abortOut s q
      | some (h, s) =>
        let s := c.setPte s q i { e with hslot := h }
        let waits := writeWaits s (.agent c.n) c.al (c.hostAddr s h) size
        if waits ≠ [] then atsAsk s (.agent c.n) c.al waits
        else
          let s := match c.entryAddr s p e with
            | some a => c.copy s a (c.hostAddr s h) size
            | none => s
          c.setSeq s q { x with progress := i + 1 }
    else
      let waits := writeWaits s (.agent c.n) c.al (c.hostAddr s x.hstg) size
      if waits ≠ [] then atsAsk s (.agent c.n) c.al waits
      else
        let s := c.copy s (c.stgAddr s x.stage) (c.hostAddr s x.hstg) size
        let s := c.push (c.setSeq s q { x with state := 3, phase := 2, progress := 0, stage := emptyIdx }) c.stg x.stage
        satAdd s (sBase c.n + 0x6000C) 0 0 16 1
  else if x.state = 3 then
    if i < x.pages then
      let s := c.setPte s q i { e with hpage := emptyIdx, hv := false }
      let s := if e.hpage ≠ emptyIdx then c.unref s p e.hpage else s
      c.setSeq s q { x with progress := i + 1 }
    else c.setSeq s q { x with phase := 0 }
  else if x.state = 4 then
    if i < x.pages then
      if e.hpage = emptyIdx then
        match c.pageIn s q with
        | .got _ s => s
        | .wait s => s
        | .exhausted => c.abortIn s q
      else
        let rd := vRead s (.agent c.n) c.al (c.hostAddr s e.hslot) size
        if atsMissing rd.accs ≠ [] then atsAsk s (.agent c.n) c.al (atsMissing rd.accs)
        else
          let s := cisNote s c.n c.al true rd.accs
          let s := cisStore s c.n c.al (c.pageAddr s p e.hpage) true rd.data
          c.setSeq (c.setPte s q i { e with hv := true }) q { x with progress := i + 1 }
    else
      let rd := vRead s (.agent c.n) c.al (c.hostAddr s x.hstg) size
      if atsMissing rd.accs ≠ [] then atsAsk s (.agent c.n) c.al (atsMissing rd.accs)
      else
        let s := cisNote s c.n c.al true rd.accs
        let s := cisStore s c.n c.al (c.stgAddr s x.stage) true rd.data
        satAdd (c.setSeq s q { x with state := 1, phase := 2, progress := 0 }) (sBase c.n + 0x6000C) 0 16 16 1
  else if x.state = 1 && x.phase = 2 then
    if i < x.pages then
      let s := c.setPte s q i { e with hslot := emptyIdx }
      let s := if e.hslot ≠ emptyIdx then c.push s c.host e.hslot else s
      c.setSeq s q { x with progress := i + 1 }
    else
      let s := if x.hstg ≠ emptyIdx then c.push s c.host x.hstg else s
      c.setSeq s q { x with phase := 0, hstg := emptyIdx }
  else s

/-- A waiting CIS.HOLD whose swap-in found no page answers EXHAUSTED (R273). -/
def cisFailHolds (c : Cb) (before s : State) (q : Nat) : State :=
  if (c.seq before q).state = 4 && (c.seq s q).state = 3 then
    (saddle s c.n).cisWait.foldl (fun s o =>
      if o.allot = c.al && wMin o.cmd.w0 = 2 && sOf o = q then
        cisAnswer (updSaddle s c.n (fun d => { d with cisWait := d.cisWait.erase o })) o 2
      else s) s
  else s

/-- A swap-out that found no host slot ends the operation it was begun for with EXHAUSTED; its swap-in is given up (R270, R273). -/
def cisFailRoom (c : Cb) (before s : State) (q : Nat) : State :=
  if (c.seq before q).state = 2 && (c.seq s q).state = 1 then
    let mine (e : OutFor) : Bool := e.al == c.al && e.seq == q
    let ops := ((saddle s c.n).cisOuts.filter mine).flatMap (fun e =>
      (saddle s c.n).cisWait.filter (fun o => o.tg == e.tg && o.cmd.thr == e.thr))
    ops.foldl (fun s o =>
      let s := updSaddle s c.n (fun d => { d with cisWait := d.cisWait.erase o })
      let s := if wMin o.cmd.w0 = 2 && (c.seq s (sOf o)).state = 4 then c.abortIn s (sOf o) else s
      cisAnswer s o 2) s
  else s

/-- A swap-out that is no longer under way is no operation's any more. -/
def cisOutsOver (c : Cb) (s : State) : State :=
  updSaddle s c.n (fun d => { d with cisOuts := d.cisOuts.filter (fun e => e.al ≠ c.al || (c.seq s e.seq).state = 2) })

/-- One step of the first sequence of a control block whose swap can go on, after which the waiting operations are served: a swap-in
that waits for a page does not hold up the swap-out that frees one. DEDUCED: log 29. -/
def cisSwap (s : State) (al : Nat) (b : Option Cb) : State :=
  match b with
  | none => s
  | some c =>
    if (saddle s c.n).cisScan.contains al || (c.bad s).isSome then s
    else match (List.range c.nseq).find? (fun q => (c.seq s q).phase ≠ 0 && c.swapStep s q ≠ s) with
      | none => cisRetry s c.n
      | some q =>
        let s' := c.swapStep s q
        let s' := match (saddle s' c.n).cisWait.find? (fun o => o.allot == al && wMin o.cmd.w0 == 2 && sOf o == q) with
          | some o => noteOuts c s s' o
          | none => s'
        cisRetry (cisOutsOver c (cisFailRoom c s (cisFailHolds c s s' q) q)) c.n

/-- Is a swap of a control block of an agent under way? -/
def cisSwaps (s : State) (al n : Nat) : Bool :=
  match cbOf s al with
  | some c => c.n = n && (List.range c.nseq).any (fun q => (c.seq s q).phase ≠ 0)
  | none => false

/-- The agent makes one step of the first swap that can go on, and serves the operations that wait. -/
def execCisSwapStep (allot : Fin 1024) (s : State) : Host.Outcome State Fault Refusal :=
  .next (cisSwap s allot.val (cbOf s allot.val))

/-! ## The resume scan (R274, Table 10-11) -/

/-- Release orphans above PAGES, stopping at the first empty entry. -/
def Cb.orphans (c : Cb) (s : State) (q : Nat) (x : CSeq) : State :=
  let n := ((List.range (c.maxPages - x.pages)).takeWhile (fun k => c.pte s q (x.pages + k) ≠ CPte.none)).length
  c.releaseDown s q x.pool x.pages (x.pages + n)

/-- Finish one record's interrupted work. -/
def Cb.scanSeq (c : Cb) (s : State) (q : Nat) : State :=
  let x := c.seq s q
  if x.state = 5 then
    let n := ((List.range c.maxPages).takeWhile (fun k => c.pte s q k ≠ CPte.none)).length
    let s := c.releaseDown s q x.pool 0 n
    let s := c.setSeq s q { x with state := 0, stage := emptyIdx, holder := 0 }
    if x.stage ≠ emptyIdx then c.push s c.stg x.stage else s
  else if x.state = 1 || x.state = 0 then
    let s := if x.pending ≠ emptyIdx then
        let s := c.copy s (c.stgAddr s x.stage) (c.pageAddr s x.pool x.pending) (c.pool x.pool).slot
        let s := c.setPte s q x.pages { hpage := x.pending, fslot := emptyIdx, hslot := emptyIdx, hv := true }
        c.setSeq s q { x with pending := emptyIdx, pages := x.pages + 1, len := max x.len ((x.pages + 1) * (c.pool x.pool).p) }
      else s
    let x := c.seq s q
    let s := (List.range x.pages).foldl (fun s i =>
      let e := c.pte s q i
      if e.hpage ≠ emptyIdx && !e.hv && e.fslot ≠ emptyIdx then
        c.setPte (c.copy s (c.farAddr s e.fslot) (c.pageAddr s x.pool e.hpage) (c.pool x.pool).slot) q i { e with hv := true }
      else s) s
    c.orphans s q x
  else s

/-- The steps of every swap that can go on, until none can. -/
def Cb.finishSwaps (c : Cb) (fuel : Nat) (s : State) : State :=
  match fuel with
  | 0 => s
  | fuel + 1 => match (List.range c.nseq).find? (fun q => (c.seq s q).phase ≠ 0 && c.swapStep s q ≠ s) with
    | none => s
    | some q => c.finishSwaps fuel (c.swapStep s q)

/-- Every swap that was interrupted goes on (Table 10-11). -/
def Cb.finishAll (c : Cb) (s : State) : State := c.finishSwaps (2 * c.nseq * (c.maxPages + 2)) s

/-- The scan of a control block's records, and the swaps that were interrupted; no step of a block that no step may reach. DEDUCED: log 29. -/
def Cb.scanned (c : Cb) (s : State) (bad : Option (Nat × Option AccKind)) : State :=
  match bad with
  | some e => cisFaulted s none c.al c.n e
  | none => c.finishAll ((List.range c.nseq).foldl (fun s q => c.scanSeq s q) s)

/-- The scan that an agent makes of an allotment's control block. -/
def cisScanned (s : State) (b : Option Cb) : State :=
  match b with
  | some c => c.scanned s (c.bad s)
  | none => s

/-- Has a scanned control block a swap that waits for data or translations of the host? -/
def scanWaits (s : State) (b : Option Cb) : Bool :=
  match b with
  | some c => (c.bad s).isNone && (List.range c.nseq).any (fun q => (c.seq s q).phase ≠ 0)
  | none => false

/-- The agent scans a control block after a reset, finishes what was interrupted, and takes operations again; the scan goes on while a swap waits for
the host (R274). -/
def execCisResumeScan (allot : Fin 1024) (s : State) : Host.Outcome State Fault Refusal :=
  let owner := (List.range 2).find? (fun n => (saddle s n).cisScan.contains allot.val)
  match owner with
  | none => .next s
  | some n =>
    let s := cisScanned s (cbOf s allot.val)
    if scanWaits s (cbOf s allot.val) then .next s
    else .next (cisRetry (updSaddle s n (fun d => { d with cisScan := setDel d.cisScan allot.val })) n)

end Sys2Proof.Machine
end

