-- ==== Sys2Proof/Machine/Sparse.lean ====
section
/-! DEFINITION. Writing tensors: dense rows, the compressor of detect and masked stores (03 R72 to R77, 08 R214), compressed
tensors read as dense ones, and the copy of a compressed segment (13 R367). -/

namespace Sys2Proof.Machine

/-- A value with its poison. -/
abbrev Val := Num × Bool

/-- What a store has done: the state, its accesses, the runs still to be sent to the host or a peer, the flags its conversions set, and the poisoned
elements a compressor wrote (R224). -/
structure Put where
  s : State
  accs : List Acc
  runs : List (Nat × Nat × List PByte) := []
  ovf : Bool := false
  inv : Bool := false
  bad : Nat := 0

/-- How many values are poisoned. -/
def badVals (vs : List (Val × Nat)) : Nat := (vs.filter (fun (v : Val × Nat) => v.1.2)).length

/-- Write bytes of a space, noting the accesses. -/
def Put.write (p : Put) (tg al space a : Nat) (bs : List PByte) : Put :=
  let r := spWrite p.s tg al space a bs
  { p with s := r.1, accs := p.accs ++ r.2.1, runs := p.runs ++ r.2.2 }

/-- The state once the store's runs are sent, merged as one stream (R131). -/
def Put.sent (p : Put) (tg al : Nat) : State := sendRuns p.s (.terrace tg) al p.runs

/-- Bytes without poison. -/
def cleanBytes (bs : List Byte) : List PByte := bs.map (fun (b : Byte) => ((b, false) : PByte))

/-! ## Dense rows -/

/-- Write a memory row and its scale bytes (R57, R58, R60). -/
def putRow (p : Put) (tg al : Nat) (x : Desc) (r : Nat) (row : Row) : Put :=
  let p := p.write tg al x.space (x.rowAddr r) (packRow (ebits x.format) row.codes)
  if scaled x.format then
    p.write tg al x.space (x.scaleAddr + r * scalePitch x.space x.e0)
      (row.scales.map (fun (c : Code) => ((BitVec.ofNat 8 c.1, c.2) : PByte)))
  else p

/-- Write the rows of a dense tensor in memory order. -/
def putRows (p : Put) (tg al : Nat) (x : Desc) (rows : List Row) : Put :=
  rows.zipIdx.foldl (fun p (row, r) => putRow p tg al x r row) p

/-- Convert rows of values to a dense tensor's format and write them (R50); element (r, c) has linear index r * E0 + c. -/
def putVals (p : Put) (tg al : Nat) (x : Desc) (rows : List (List Val)) : Put :=
  rows.zipIdx.foldl (fun p (vs, r) =>
    let (row, o, v) := encodeRow x.format x (r * x.e0) vs
    let p := putRow p tg al x r row
    { p with ovf := p.ovf || o, inv := p.inv || v }) p

/-- The values of a row of n elements. -/
def Row.values (fmt : Nat) (r : Row) (n : Nat) : List Val := (List.range n).map (fun c => r.value fmt c)

/-- Rows exchanged with columns, plane by plane: planes of e1 rows of e0 elements become planes of e0 rows of e1 elements. -/
def exchangeBy (zero : α) (e0 e1 planes : Nat) (rows : List (List α)) : List (List α) :=
  (List.range planes).flatMap (fun p => (List.range e0).map (fun c =>
    (List.range e1).map (fun r => (rows.getD (p * e1 + r) []).getD c zero)))

def exchange (e0 e1 planes : Nat) (rows : List (List Val)) : List (List Val) := exchangeBy (.zero, false) e0 e1 planes rows

/-! ## The compressor (R73 to R77) -/

/-- The dense source of a compressing store; pitch: the columns of the output tensor, by which its elements are numbered. -/
structure Dense where
  rows : Nat
  cols : Nat
  pitch : Nat
  at' : Nat → Nat → Val

/-- One stored entry in payload order: pointer row, coordinate, and the first element row and column it covers. -/
structure CEnt where
  i : Nat
  j : Nat
  r : Nat
  c : Nat
  deriving DecidableEq, Repr

/-- A source without what lies beyond the tensor, whose overhanging elements are written as zero code (R65). -/
def Dense.within (d : Dense) (h : Header) : Dense := { d with rows := min d.rows h.rows, cols := min d.cols h.cols }

/-- The payload of the entry at (r, c): its element values row-major with their linear indices (R52), counted from the segment's own first row;
none outside the tensor. DESIGN CHOICE: log 73. -/
def payloadVals (h : Header) (d : Dense) (e : CEnt) : List (Val × Nat) :=
  let b := h.edge
  (List.range b).flatMap (fun i => (List.range b).map (fun j =>
    if e.r + i < d.rows && e.c + j < d.cols then (d.at' (e.r + i) (e.c + j), (e.r + i) * d.pitch + (e.c + j))
    else ((.zero, false), 0)))

/-- Encode payload values: codes, scales and flags; a block-scaled format groups 32 consecutive elements (R66, R69). -/
def encodePayload (fmt : Nat) (x : Desc) (vs : List (Val × Nat)) : List Code × List Code × Bool × Bool :=
  if scaled fmt then
    let gs := (chunks 32 vs).map (fun (g : List (Val × Nat)) =>
      let (sc, cs, o, v) := encBlock fmt (fun k => x.rm ((g.getD k ((.zero, false), 0)).2)) x.sat
        (g.map (fun (e : Val × Nat) => e.1.1))
      (cs.zip (g.map (fun (e : Val × Nat) => e.1.2)), (sc, g.any (fun (e : Val × Nat) => e.1.2)), o, v))
    (gs.flatMap (fun g => g.1), gs.map (fun g => g.2.1), gs.any (fun g => g.2.2.1), gs.any (fun g => g.2.2.2))
  else
    let es := vs.map (fun (e : Val × Nat) => (encodeElem fmt (x.rm e.2) x.sat e.1.1, e.1.2))
    (es.map (fun e => (e.1.code, e.2)), [], es.any (fun e => e.1.ovf), es.any (fun e => e.1.inv))

/-- Is an entry present: some destination code does not decode to zero, or some element is poisoned (R73)? An element of a
block-scaled element layout is taken by its value, since its block is formed of stored entries only. DEDUCED: log 20. -/
def present (h : Header) (x : Desc) (d : Dense) (e : CEnt) : Bool :=
  let vs := payloadVals h d e
  if vs.any (fun (v : Val × Nat) => v.1.2) then true
  else if h.edge = 1 && scaled h.format then vs.any (fun (v : Val × Nat) => !v.1.1.isZero)
  else
    let (cs, scs, _, _) := encodePayload h.format x vs
    cs.zipIdx.any (fun (c, k) =>
      !(if scaled h.format then decodeScaled h.format c.1 ((scs.getD (k / 32) (127, false)).1)
        else decodeElem h.format c.1).isZero)

/-- Every place of the grid in payload order (R65 to R70, R75). -/
def gridOrder (h : Header) : List CEnt :=
  let b := h.edge
  match h.layout with
  | 1 =>
    (List.range (ceilDiv h.rb 8)).flatMap (fun gi => (List.range (ceilDiv h.cb 8)).flatMap (fun gj =>
      (List.range 64).filterMap (fun u =>
        let i := gi * 8 + u / 8
        let j := gj * 8 + u % 8
        if i < h.rb && j < h.cb then some { i, j, r := i * b, c := j * b } else none)))
  | 6 => (List.range h.cols).flatMap (fun i => (List.range h.rows).map (fun j => { i, j, r := j, c := i }))
  | _ => (List.range h.rb).flatMap (fun i => (List.range h.cb).map (fun j => { i, j, r := i * b, c := j * b }))

/-- The entries VAL has room for (R76). -/
def valCapacity (h : Header) : Nat :=
  if h.edge = 1 then h.valBytes * 8 / ebits h.format else h.valBytes / h.payloadBytes

/-- The payload bytes and scale bytes of a list of stored entries. -/
def payloadBytesOf (h : Header) (x : Desc) (d : Dense) (es : List CEnt) :
    List PByte × List PByte × Bool × Bool :=
  let sc (l : List Code) : List PByte := l.map (fun (c : Code) => ((BitVec.ofNat 8 c.1, c.2) : PByte))
  if h.edge = 1 then
    let (cs, scs, o, v) := encodePayload h.format x (es.flatMap (payloadVals h d))
    (packRow (ebits h.format) cs, sc scs, o, v)
  else
    let bs := es.map (fun e => encodePayload h.format x (payloadVals h d e))
    (bs.flatMap (fun b => packRow (ebits h.format) b.1), sc (bs.flatMap (fun b => b.2.1)),
     bs.any (fun b => b.2.2.1), bs.any (fun b => b.2.2.2))

/-- The index array of the stored entries. -/
def idxBytes (h : Header) (es : List CEnt) : List Byte :=
  match h.layout with
  | 1 =>
    let gc := ceilDiv h.cb 8
    let groups := (List.range (ceilDiv h.rb 8 * gc)).filterMap (fun g =>
      let mine := es.zipIdx.filter (fun (e, _) => e.i / 8 * gc + e.j / 8 == g)
      match mine with
      | [] => none
      | (_, k) :: _ => some (mine.foldl (fun m (e, _) => m + 2 ^ (e.i % 8 * 8 + e.j % 8)) 0, k))
    groups.flatMap (fun (m, k) => leBytes 8 m ++ leBytes 4 k ++ leBytes 4 0)
  | 7 => es.flatMap (fun e => leBytes 4 e.c ++ leBytes 4 e.r)
  | _ => es.flatMap (fun e => leBytes 4 e.j)

/-- The pointer array of the stored entries (R65, R67, R69); COO has none. -/
def ptrBytes (h : Header) (es : List CEnt) : List Byte :=
  match h.layout with
  | 1 =>
    let gc := ceilDiv h.cb 8
    let n := ceilDiv h.rb 8 * gc
    let full (g : Nat) : Bool := es.any (fun e => e.i / 8 * gc + e.j / 8 == g)
    (List.range (ceilDiv n 32)).flatMap (fun w =>
      let bits := (List.range 32).foldl (fun m t => if 32 * w + t < n && full (32 * w + t) then m + 2 ^ t else m) 0
      leBytes 4 bits ++ leBytes 4 ((List.range (32 * w)).filter full).length)
  | 7 => []
  | _ =>
    (List.range (h.prows false + 1)).flatMap (fun i => leBytes h.ptrWidth ((es.filter (fun e => e.i < i)).length))

/-- The transposed records in transposed-row order: (transposed row, original row, payload index) (R71). -/
def transposedRecords (es : List CEnt) : List (Nat × Nat × Nat) :=
  sortBy (fun (a b : Nat × Nat × Nat) => decide (a.1 < b.1) || (a.1 == b.1 && decide (a.2.1 ≤ b.2.1)))
    (es.zipIdx.map (fun (e, k) => (e.j, e.i, k)))

/-- The records of TIDX from the index array as it is read again (R75): the coordinate in memory of each stored entry. -/
def rereadIdx (s : State) (tg al : Nat) (x : Desc) (h : Header) (es : List CEnt) : List CEnt × List Acc :=
  let rd := spRead s tg al x.space h.idx (4 * es.length)
  (es.zipIdx.map (fun (e, k) => { e with j := leNat (((rd.data.drop (4 * k)).take 4).map (fun (b : PByte) => b.1)) }), rd.accs)

/-- A detect-mode store (R73, R75, R76): payload and index entries, pointers, transposed metadata, and the header last. The
answer says whether it was truncated. With TREQ the PS scratch counts the entries of each transposed row, those past a truncation too, and keeps the
counts; ROW_BASE and FBLK are the old header's, as R90 names no other source. Every conversion of the store sets its flags, those of absent entries too
(R55). DESIGN CHOICE: log 73, 79. DEDUCED: log 20. -/
def detectStore (p : Put) (tg al : Nat) (x : Desc) (h0 : Header) (d : Dense) : Put × Bool :=
  let h := { h0 with rows := d.rows, cols := d.cols }
  let all := (gridOrder h).filter (present h x d)
  let es := all.take (valCapacity h)
  let trunc := decide (es.length < all.length)
  let (vb, sb, _, _) := payloadBytesOf h x d es
  let (_, _, o, v) := payloadBytesOf h x d (if h.edge = 1 && scaled h.format then all else gridOrder h)
  let p := p.write tg al x.space h.val vb
  let p := p.write tg al x.space h.scl sb
  let p := p.write tg al x.space h.idx (cleanBytes (idxBytes h es))
  let p := p.write tg al x.space h.ptr (cleanBytes (ptrBytes h es))
  let n := h.prows true
  let counts := (List.range n).map (fun r => (all.filter (fun e => e.j = r)).length)
  let p := if x.treq then p.write tg al 3 x.tscr (cleanBytes (counts.flatMap (leBytes 4))) else p
  let tmeta := x.treq && !trunc
  let p := if tmeta then
      let p := p.write tg al x.space h.tptr (cleanBytes ((List.range (n + 1)).flatMap (fun r => leBytes h.ptrWidth ((counts.take r).sum))))
      let (again, ra) := rereadIdx p.s tg al x h es
      let rs := transposedRecords again
      { p with accs := p.accs ++ ra }.write tg al x.space h.tidx (cleanBytes (rs.flatMap (fun (e : Nat × Nat × Nat) => leBytes 4 e.2.2 ++ leBytes 4 e.2.1)))
    else p
  let hd := { h with nnz := all.length, trunc := trunc, tmeta := tmeta,
                     tptr := if tmeta then h.tptr else 0, tidx := if tmeta then h.tidx else 0,
                     scl := if scaled h.format then h.scl else 0, ptr := if h.layout = 7 then 0 else h.ptr }
  let p := p.write tg al x.space x.base (cleanBytes hd.bytes)
  ({ p with ovf := p.ovf || o, inv := p.inv || v, bad := p.bad + badVals (es.flatMap (payloadVals h d)) }, trunc)

/-- The bytes that hold element k of a packed array of w-bit codes: first byte and count (R36). -/
def bitSpan (k w : Nat) : Nat × Nat := (k * w / 8, (k * w % 8 + w + 7) / 8)

/-- Write element k of a packed array: an element shares its byte with its neighbours when it is narrower than a byte. -/
def putElem (p : Put) (tg al space base k w : Nat) (code : Code) : Put :=
  let a := base + (bitSpan k w).1
  let n := (bitSpan k w).2
  let rd := spRead p.s tg al space a n
  let old := leNat (rd.data.map (fun (b : PByte) => b.1))
  let sh := k * w % 8
  let new := old - old / 2 ^ sh % 2 ^ w * 2 ^ sh + code.1 * 2 ^ sh
  p.write tg al space a ((leBytes n new).map (fun (b : Byte) => ((b, code.2) : PByte)))

/-- Write the payload of one listed entry in place. -/
def putPayload (p : Put) (tg al : Nat) (x : Desc) (h : Header) (k : Nat) (vs : List (Val × Nat)) : Put :=
  let (cs, scs, o, v) := encodePayload h.format x vs
  let w := ebits h.format
  let p := if h.edge = 1 then putElem p tg al x.space h.val k w (cs.getD 0 (0, false))
    else p.write tg al x.space (h.val + k * h.payloadBytes) (packRow w cs)
  let p := if scaled h.format then
      p.write tg al x.space (h.scl + (if h.edge = 1 then k / 32 else k * (h.edge * h.edge / 32)))
        (scs.map (fun (c : Code) => ((BitVec.ofNat 8 c.1, c.2) : PByte)))
    else p
  { p with ovf := p.ovf || o, inv := p.inv || v, bad := p.bad + badVals vs }

/-- The listed entries of a tensor as places of its grid with their payload indices. -/
def listedEntries (s : State) (tg al : Nat) (x : Desc) (h : Header) (first n : Nat) : List (CEnt × Nat) × List Acc :=
  let y : Desc := { x with d := setFld x.d 111 1 0 }
  let (rs, accs) := coordRows s tg al y h first n 0 (2 ^ 64)
  (rs.flatMap (fun r => r.entries.map (fun e =>
    if h.layout = 6 then ({ i := r.row, j := e.coord, r := e.coord, c := r.row }, e.index)
    else ({ i := r.row, j := e.coord, r := r.row * h.edge, c := e.coord * h.edge }, e.index))), accs)

/-- The payload codes of entry k, with their poison. -/
def readCodes (s : State) (tg al : Nat) (x : Desc) (h : Header) (k : Nat) : List Code × List Acc :=
  let w := ebits h.format
  let rd := if h.edge = 1 then spRead s tg al x.space (h.val + (bitSpan k w).1) (bitSpan k w).2
    else spRead s tg al x.space (h.val + k * h.payloadBytes) h.payloadBytes
  (if h.edge = 1 then
      [(leNat (rd.data.map (fun (b : PByte) => b.1)) / 2 ^ (k * w % 8) % 2 ^ w, rd.data.any (fun (b : PByte) => b.2))]
    else codesOf w (h.edge * h.edge) rd.data, rd.accs)

/-- The payload values of entry k, read with their scales; the poison of a value is that of its bytes and of its scale. -/
def readPayload (s : State) (tg al : Nat) (x : Desc) (h : Header) (k : Nat) : List Val × List Acc :=
  let n := h.edge * h.edge
  let (cs, ca) := readCodes s tg al x h k
  if scaled h.format then
    let sc := spRead s tg al x.space (h.scl + (if h.edge = 1 then k / 32 else k * (n / 32))) (max 1 (n / 32))
    ((List.range n).map (fun i =>
      let c := cs.getD i (0, false)
      let z := sc.data.getD (i / 32) (0, false)
      (decodeScaled h.format c.1 z.1.toNat, c.2 || z.2)), ca ++ sc.accs)
  else ((List.range n).map (fun i =>
    let c := cs.getD i (0, false)
    (decodeElem h.format c.1, c.2)), ca)

/-- Block g of 32 values in VAL of a block-scaled element layout, as a masked store re-forms it: its listed places, their values, new where the source
covers the element and old where it does not, with their linear indices (R52), and the reads of the old ones. DESIGN CHOICE: log 79. -/
def reformBlock (s : State) (tg al : Nat) (x : Desc) (h : Header) (d : Dense) (es : List (CEnt × Nat)) (g : Nat) :
    List ((CEnt × Nat) × (Val × Nat)) × List Acc :=
  let mine := (List.range 32).filterMap (fun i => es.reverse.find? (fun (e : CEnt × Nat) => e.2 == 32 * g + i))
  let vs := mine.map (fun e =>
    if e.1.r < d.rows && e.1.c < d.cols then ((e, (payloadVals h d e.1).getD 0 ((.zero, false), 0)), ([] : List Acc))
    else
      let (old, a) := readPayload s tg al x h e.2
      ((e, (old.getD 0 (.zero, false), e.1.r * d.pitch + e.1.c)), a))
  (vs.map (fun v => v.1), vs.flatMap (fun v => v.2))

/-- A masked-mode store (R74): the payload of the listed blocks or elements that the source covers, nothing else. A block-scaled
element layout re-forms each block of 32 values in VAL that the source reaches, from the new values and from the old ones of the listed elements it does
not cover. DESIGN CHOICE: log 79. -/
def maskedStore (p : Put) (tg al : Nat) (x : Desc) (h : Header) (d : Dense) : Put :=
  let d := d.within h
  let (es, accs) := listedEntries p.s tg al x h 0 (h.prows false)
  let p := { p with accs := p.accs ++ accs }
  let new := es.filter (fun (e : CEnt × Nat) => decide (e.1.r < d.rows) && decide (e.1.c < d.cols))
  if h.edge = 1 && scaled h.format then
    let w := ebits h.format
    (distinct (new.map (fun (e : CEnt × Nat) => e.2 / 32))).foldl (fun p g =>
      let (vs, a) := reformBlock p.s tg al x h d es g
      let p := { p with accs := p.accs ++ a }
      let (cs, scs, o, v) := encodePayload h.format x (vs.map (fun v => v.2))
      let p := (vs.zip cs).foldl (fun p (q, c) => putElem p tg al x.space h.val q.1.2 w c) p
      let p := p.write tg al x.space (h.scl + g) (scs.map (fun (c : Code) => ((BitVec.ofNat 8 c.1, c.2) : PByte)))
      let fresh := new.filter (fun (e : CEnt × Nat) => e.2 / 32 == g)
      { p with ovf := p.ovf || o, inv := p.inv || v, bad := p.bad + badVals (fresh.flatMap (fun e => payloadVals h d e.1)) }) p
  else new.foldl (fun p (e, k) => putPayload p tg al x h k (payloadVals h d e)) p

/-- Does a masked-mode store of a tile name one block row, ROW_FIRST, of a BSR tensor (R214), rather than the whole segment (R74)? The fields of
Table 04-6 hold no mark of it: a tile no taller than a block does, unless it is as wide as the tensor and names row 0. DESIGN CHOICE: log 73. -/
def namesRow (x : Desc) (h : Header) (rows cols : Nat) : Bool :=
  x.cmode && 2 ≤ h.layout && h.layout ≤ 4 && rows ≤ h.edge && !(x.rowFirst == 0 && h.cols ≤ cols)

/-- The payload of the n-th listed block of a row, from a gated tile (R214): zero in the elements that overhang the tensor (R65). -/
def rowVals (h : Header) (d : Dense) (e : CEnt) (n : Nat) : List (Val × Nat) :=
  let b := h.edge
  (List.range b).flatMap (fun r => (List.range b).map (fun c =>
    if e.r + r < h.rows && e.c + c < h.cols then (d.at' r (n * b + c), (e.r + r) * d.pitch + (e.c + c)) else ((.zero, false), 0)))

/-- A masked-mode store of one block row from a gated tile (R214): tile element (r, c) goes to element (r, c mod b) of the
row's (c div b)-th listed block; a block past the tile's columns is not written. -/
def maskedRowStore (p : Put) (tg al : Nat) (x : Desc) (h : Header) (i : Nat) (d : Dense) : Put :=
  let (es, accs) := listedEntries p.s tg al x h i 1
  let p := { p with accs := p.accs ++ accs }
  let b := h.edge
  (es.take (ceilDiv d.cols b)).zipIdx.foldl (fun p ((e, k), n) => putPayload p tg al x h k (rowVals h d e n)) p

/-! ## Compressed tensors as dense ones -/

/-- An element of a compressed tensor that falls outside it: its row and column, and its value. -/
abbrev Stray := (Nat × Nat) × Val

/-- A FORM 2 tensor as rows of values: its rows, its columns, the values by row, and the elements whose coordinate lies past the end of their row. The
values of a row or a Furrow group that could not be located are poisoned zeros (Table 03-4). -/
def gatherDense (s : State) (tg al : Nat) (x : Desc) (h : Header) : Nat × Nat × List (List Val) × List Stray × List Acc :=
  let (first, n) := rowRange x h
  let (rs, accs) := coordRows s tg al x h first n 0 (2 ^ 64)
  let b := h.edge
  -- the extent along the pointer rows, from the first row asked for, and along the coordinates
  let majorAll := if h.layout = 6 then (if x.trans then h.rows else h.cols) else (if x.trans then h.cols else h.rows)
  let minor := if h.layout = 6 then (if x.trans then h.cols else h.rows) else (if x.trans then h.rows else h.cols)
  let major := min (n * b) (majorAll - first * b)
  let es := rs.flatMap (fun r => r.entries.map (fun e => (r, e, readPayload s tg al x h e.index)))
  let cells := es.flatMap (fun (r, e, vs, _) => vs.zipIdx.map (fun (v, k) =>
    let (i, j) := if x.trans && 1 < b then (k % b, k / b) else (k / b, k % b)
    (((r.row - first) * b + i, e.coord * b + j), ((v.1, v.2 || e.bad) : Val))))
  let lost (i j : Nat) : Bool := rs.any (fun r => decide (r.row - first = i / b)
    && (if h.layout = 1 then r.gaps.contains (j / b / 8) else r.bad))
  let at' (i j : Nat) : Val :=
    match cells.reverse.find? (fun c => c.1 = (i, j)) with
    | some c => c.2
    | none => (.zero, lost i j)
  -- a block that overhangs the last column is stored whole, and only the coordinate can be past the end
  let strays := cells.filter (fun c => decide (c.1.1 < major) && decide (ceilDiv minor b * b ≤ c.1.2))
  let acc2 := accs ++ es.flatMap (fun (_, _, _, a) => a)
  if h.layout = 6 then
    (minor, major, (List.range minor).map (fun r => (List.range major).map (fun c => at' c r)),
      strays.map (fun c => ((c.1.2, c.1.1), c.2)), acc2)
  else (major, minor, (List.range major).map (fun r => (List.range minor).map (fun c => at' r c)), strays, acc2)

/-- Write an element at the address its row and column give in a dense destination, in the source's orientation, whatever the extents
(Table 03-4): modulo 2^52, and a block-scaled one as a block of its own. DESIGN CHOICE: log 73. -/
def putStray (p : Put) (tg al : Nat) (d : Desc) (e : Stray) : Put :=
  let (r, c) := if d.trans then (e.1.2, e.1.1) else e.1
  let row := (d.base + r * d.stride1) % 2 ^ 52
  let i := r * d.e0 + c
  let (w, o, v) := encodeRow d.format d i [e.2]
  let p := putElem p tg al d.space row c (ebits d.format) (w.codes.getD 0 (0, false))
  let p := if scaled d.format then p.write tg al d.space (d.scaleAddr + r * scalePitch d.space d.e0 + c / 32)
      (w.scales.map (fun (z : Code) => ((BitVec.ofNat 8 z.1, z.2) : PByte))) else p
  { p with ovf := p.ovf || o, inv := p.inv || v }

/-! ## Copy of a segment (R367) -/

/-- What a copy lays down: the arrays in the order PTR, IDX, TPTR, TIDX, SCL, VAL, the header without their addresses, and the accesses and flags of
forming them. -/
structure Segment where
  arrays : List (List PByte)
  head : Header
  accs : List Acc
  ovf : Bool := false
  inv : Bool := false

/-- The arrays of a segment as they stand. DEDUCED: log 20. -/
def copyArrays (s : State) (tg al : Nat) (x : Desc) (h : Header) : Segment :=
  let n := if h.trunc then min h.nnz (valCapacity h) else h.nnz
  let a := { h with nnz := n }.arrays
  let at' (k : Nat) : Nat × Nat := a.getD k (0, 0)
  let (idx, accs) := if h.layout = 1 then
      let words := (at' 2).2 / 8
      let g := ceilDiv h.rb 8 * ceilDiv h.cb 8
      let rs := (List.range words).map (fun w => readNum s tg al x.space (h.ptr + 8 * w) 8)
      ((h.idx, 16 * (rs.zipIdx.map (fun (r, w) => popBelow r.1 (min 32 (g - 32 * w)))).sum), rs.flatMap (·.2.2))
    else (at' 3, [])
  let rds := [at' 2, idx, at' 4, at' 5, at' 1, at' 0].map (fun e => spRead s tg al x.space e.1 e.2)
  { arrays := rds.map (fun r => r.data), head := h, accs := accs ++ rds.flatMap (fun r => r.accs) }

/-- A block of b by b payload elements, rows exchanged with columns. -/
def turned (b : Nat) (z : α) (l : List α) : List α := (List.range (b * b)).map (fun k => l.getD (k % b * b + k / b) z)

/-- The arrays of a transposed segment (R128): its rows are the transposed rows, each payload of a block is transposed, and a block-scaled format
forms its scale blocks again (R130); its transposed metadata are those of the new rows. DEDUCED: log 20. -/
def transposedArrays (s : State) (tg al : Nat) (x : Desc) (h : Header) : Segment :=
  let (rs, ra) := coordRows s tg al x h 0 (h.prows true) 0 (2 ^ 64)
  let b := h.edge
  let es := rs.flatMap (fun r => r.entries.map (fun e =>
    (if h.layout = 6 then ({ i := r.row, j := e.coord, r := e.coord, c := r.row } : CEnt)
      else { i := r.row, j := e.coord, r := r.row * b, c := e.coord * b }, e.index)))
  let hd := { h with rows := h.cols, cols := h.rows, nnz := es.length, tmeta := true, trunc := false }
  let ents := es.map (fun e => e.1)
  let counts := (List.range (hd.prows true)).map (fun r => (ents.filter (fun e => e.j < r)).length) ++ [ents.length]
  let meta' : List (List PByte) :=
    [cleanBytes (ptrBytes hd ents), cleanBytes (idxBytes hd ents), cleanBytes (counts.flatMap (leBytes hd.ptrWidth)),
     cleanBytes ((transposedRecords ents).flatMap (fun (e : Nat × Nat × Nat) => leBytes 4 e.2.2 ++ leBytes 4 e.2.1))]
  if scaled h.format then
    let vs := es.map (fun e => readPayload s tg al x h e.2)
    let lists := (es.zip vs).map (fun (e, v) =>
      (turned b (.zero, false) v.1).zipIdx.map (fun (z, i) => (z, (e.1.r + i / b) * hd.cols + (e.1.c + i % b))))
    let ps := (if b = 1 then [lists.flatten] else lists).map (encodePayload h.format x)
    { arrays := meta' ++ [(ps.flatMap (fun p => p.2.1)).map (fun (c : Code) => ((BitVec.ofNat 8 c.1, c.2) : PByte)),
        ps.flatMap (fun p => packRow (ebits h.format) p.1)]
      head := hd, accs := ra ++ vs.flatMap (fun v => v.2), ovf := ps.any (fun p => p.2.2.1), inv := ps.any (fun p => p.2.2.2) }
  else
    let cs := es.map (fun e => readCodes s tg al x h e.2)
    let lists := cs.map (fun c => turned b (0, false) c.1)
    { arrays := meta' ++ [[], if b = 1 then packRow (ebits h.format) lists.flatten else lists.flatMap (packRow (ebits h.format))]
      head := hd, accs := ra ++ cs.flatMap (fun c => c.2) }

/-- Lay arrays one after another on 64-byte boundaries from an address; an array of no bytes has address 0. -/
def layArrays (a : Nat) : List (List PByte) → List (List PByte × Nat)
  | [] => []
  | l :: r => if l.isEmpty then (l, 0) :: layArrays a r
              else (l, a) :: layArrays ((a + l.length + 63) / 64 * 64) r

/-- Copy a compressed segment: none when it would pass the end of a terrace memory. The answer counts the accesses of its reads. -/
def copySegment (p : Put) (tg al : Nat) (xs xd : Desc) (h : Header) : Option (Put × Nat) :=
  let g := if xs.trans then transposedArrays p.s tg al xs h else copyArrays p.s tg al xs h
  let l := layArrays ((xd.base + 128 + 63) / 64 * 64) g.arrays
  let fin := l.foldl (fun m e => max m (e.2 + e.1.length)) (xd.base + 128)
  if xd.space ≠ 0 && memSize xd.space < fin then none
  else
    let p := { p with accs := p.accs ++ g.accs, ovf := p.ovf || g.ovf, inv := p.inv || g.inv }
    let n := p.accs.length
    let p := l.foldl (fun p e => p.write tg al xd.space e.2 e.1) p
    let addr (k : Nat) : Nat := (l.getD k ([], 0)).2
    let hd := { g.head with ptr := addr 0, idx := addr 1, tptr := addr 2, tidx := addr 3, scl := addr 4, val := addr 5
                            valBytes := (l.getD 5 ([], 0)).1.length }
    some (p.write tg al xd.space xd.base (cleanBytes hd.bytes), n)

end Sys2Proof.Machine
end

