-- ==== Sys2Proof/Machine/Confluence.lean ====
section
/-! DEFINITION. The Confluence lanes: match procedure, match regions and compaction (07 R160 to R175, 13 R369). The reach queues
of CFL.RQ.CUT and CFL.RQ.TAKE are in Reach.lean. -/

namespace Sys2Proof.Machine

/-! ## Coordinate streams (R163, R164, R168) -/

/-- A coordinate record as a lane takes it. -/
structure CRec where
  coord : Nat
  idx : Nat
  bad : Bool
  deriving DecidableEq, Repr

/-- A match record (Table 07-3). -/
structure MRec where
  coord : Nat
  idxA : Nat
  idxB : Nat
  src : Nat
  gs : Bool
  ha : Bool
  hb : Bool
  rowEnd : Bool
  bad : Bool
  deriving DecidableEq, Repr

/-- The header of a region as a lane reads it: RECORDS clipped to the region's capacity, ROW_FIRST, LAST, the bases, and
whether its first sector is poisoned, in which case it holds nothing and is the last (Table 07-4). -/
structure RegHead where
  n : Nat
  row : Nat
  last : Bool
  bases : List Nat
  bad : Bool
  deriving DecidableEq, Repr

/-- The head of a register image (Table 07-4); its poison is that of sector 0. DESIGN CHOICE: log 79. -/
def regHead (i : Img) (recSize : Nat) : RegHead :=
  let at' (o n : Nat) : Nat := leNat ((i.bytes.drop o).take n)
  if i.bad.contains 0 then { n := 0, row := 0, last := true, bases := [], bad := true }
  else
    { n := min (at' 0 4) ((i.bytes.length - 0x90) / recSize), row := at' 4 4, last := at' 8 4 % 2 = 1
      bases := (List.range 16).map (fun k => at' (0x10 + 8 * k) 8), bad := false }

/-- Is some sector of bytes lo to hi - 1 of an image poisoned? -/
def imgBad (i : Img) (lo hi : Nat) : Bool := i.bad.any (fun k => decide (lo < 32 * k + 32) && decide (32 * k < hi))

/-- The input records of a region. -/
def inRecs (i : Img) : List CRec :=
  (List.range (regHead i 8).n).map (fun k =>
    let o := 0x90 + 8 * k
    { coord := leNat ((i.bytes.drop o).take 4), idx := leNat ((i.bytes.drop (o + 4)).take 4), bad := imgBad i o (o + 8) })

/-- A stream as far as its regions have been taken: ROW_FIRST, the base, its rows with whether each one's end marker lay in a poisoned sector, the
records after the last end marker, and whether its final region has been taken. -/
structure Strm where
  row : Nat
  base : Nat
  rows : List (List CRec × Bool)
  rest : List CRec
  ended : Bool
  deriving DecidableEq, Repr

/-- Cut records at their end markers: the rows, and the records after the last marker. -/
def cutRows (l : List CRec) : List (List CRec × Bool) × List CRec :=
  l.foldl (fun (st : List (List CRec × Bool) × List CRec) r =>
    if r.coord = 0xFFFFFFFF then (st.1 ++ [(st.2, r.bad)], []) else (st.1, st.2 ++ [r])) ([], [])

/-- The stream that a sequence of regions holds; one with a poisoned header holds no records (Table 07-4). -/
def strmOf (imgs : List Img) (ended : Bool) : Strm :=
  let recs := (imgs.filter (fun i => !(regHead i 8).bad)).flatMap inRecs
  let h := match imgs with
    | i :: _ => regHead i 8
    | [] => { n := 0, row := 0, last := true, bases := [], bad := false }
  let c := cutRows recs
  { row := h.row, base := h.bases.getD 0 0, rows := c.1, rest := c.2, ended }

/-- Row r of a stream: its records, whether its end marker was poisoned, and whether more of it can come. Records after the last marker of a stream
that has ended form a row; later rows of it are empty (R167). -/
def Strm.at' (x : Strm) (r : Nat) : List CRec × Bool × Bool :=
  match x.rows[r]? with
  | some e => (e.1, e.2, false)
  | none => if r = x.rows.length then (x.rest, false, !x.ended) else ([], false, !x.ended)

/-- Has a stream ended before row r? -/
def Strm.over (x : Strm) (r : Nat) : Bool := x.ended && decide (x.rows.length + (if x.rest.isEmpty then 0 else 1) ≤ r)

/-! ## One lane (R166, R167) -/

/-- Lane operations (Table 07-1). -/
inductive LaneOp where
  | scan
  | isect
  | union
  | merge
  deriving DecidableEq, Repr

/-- A record taken in a cycle, with its stream. -/
structure Taken where
  src : Nat
  r : CRec
  deriving DecidableEq, Repr

/-- A match record before GS is known. -/
def mkMatch (coord idxA idxB src : Nat) (ha hb bad : Bool) : MRec :=
  { coord, idxA, idxB, src, gs := false, ha, hb, rowEnd := false, bad }

/-- The records of c with one coordinate, stream by stream, paired for ISECT and UNION. -/
def pairAt (op : LaneOp) (c : List Taken) (x : Nat) : List MRec :=
  let g := c.filter (fun t => t.r.coord = x)
  let as := g.filter (fun t => t.src = 0)
  let bs := g.filter (fun t => t.src = 1)
  let n := min as.length bs.length
  let pairs := (as.zip bs).map (fun (a, b) => mkMatch x a.r.idx b.r.idx 0 true true (a.r.bad || b.r.bad))
  match op with
  | .union => pairs ++ (as.drop n).map (fun a => mkMatch x a.r.idx 0 0 true false a.r.bad)
                ++ (bs.drop n).map (fun b => mkMatch x 0 b.r.idx 0 false true b.r.bad)
  | _ => pairs

/-- The coordinates of a sorted list, each once. -/
def coordsOf (c : List Taken) : List Nat :=
  c.foldl (fun l t => if l.contains t.r.coord then l else l ++ [t.r.coord]) []

/-- What a lane emits from the records c of one cycle. -/
def emitRecs (op : LaneOp) (c : List Taken) : List MRec :=
  match op with
  | .scan => c.map (fun t => mkMatch t.r.coord t.r.idx 0 0 true false t.r.bad)
  | .merge => c.map (fun t => mkMatch t.r.coord t.r.idx 0 t.src true false t.r.bad)
  | _ => (coordsOf c).flatMap (pairAt op c)

/-- What a lane has done of a row: the records emitted, how many it took, and the streams whose next region it needs to go on; none when the row
has closed. -/
structure RowRun where
  out : List MRec := []
  taken : Nat := 0
  wants : List Nat := []
  deriving DecidableEq, Repr

/-- One row of a lane, cycle by cycle, until every stream has closed (R166) or a stream's window is not all there; more says of each stream whether its
end marker is still to come. -/
def laneRow (op : LaneOp) (k : Nat) (more : List Bool) (fuel : Nat) (ss : List (List CRec)) : RowRun :=
  match fuel with
  | 0 => {}
  | fuel + 1 =>
    let w := if op = .isect then 32 else 32 / k
    let wants := (ss.zip more).zipIdx.filterMap (fun (e, i) => if e.2 && decide (e.1.length ≤ w) then some i else none)
    if !wants.isEmpty then { wants }
    else if ss.all (fun s => s.isEmpty) then {}
    else
      let lasts := (ss.zip more).filterMap (fun e =>
        if !e.2 && decide (e.1.length ≤ w) then none else (e.1.getD (w - 1) ⟨0, 0, false⟩).coord)
      let t : Option Nat := lasts.foldl (fun m x => match m with
        | none => some x
        | some y => some (min x y)) none
      let within (r : CRec) : Bool := match t with
        | none => true
        | some t => decide (r.coord ≤ t)
      let takes := ss.map (fun s => ((s.take w).takeWhile within).length)
      let takes := if takes.all (fun n => n = 0) then
          let heads := ss.zipIdx.filterMap (fun (s, i) => s.head?.map (fun r => (r.coord, i)))
          let f := heads.foldl (fun (m : Option (Nat × Nat)) h => match m with
            | none => some h
            | some b => if h.1 < b.1 then some h else some b) none
          ss.zipIdx.map (fun (_, i) => if f.map (·.2) = some i then 1 else 0)
        else takes
      let c := ((ss.zip takes).zipIdx.flatMap (fun (p, i) => (p.1.take p.2).map (fun r => ({ src := i, r } : Taken))))
      let c := sortBy (fun (a b : Taken) => decide (a.r.coord < b.r.coord) || (a.r.coord == b.r.coord && decide (a.src ≤ b.src))) c
      let x := laneRow op k more fuel ((ss.zip takes).map (fun p => p.1.drop p.2))
      { x with out := emitRecs op c ++ x.out, taken := takes.sum + x.taken }

/-- Set GS along a row: the coordinate differs from that of the record before; 1 on the first. -/
def markGs (l : List MRec) : List MRec :=
  (l.zip (none :: l.map (fun r => some r.coord))).map (fun (r, p) => { r with gs := p ≠ some r.coord })

def rowEndRec : MRec :=
  { coord := 0xFFFFFFFF, idxA := 0, idxB := 0, src := 0, gs := false, ha := false, hb := false, rowEnd := true, bad := false }

/-- What a lane has done so far: the records emitted with their rows, how many it took, and the streams it waits for; none when it has ended. -/
structure LaneRun where
  out : List (Nat × MRec) := []
  taken : Nat := 0
  wants : List Nat := []
  deriving DecidableEq, Repr

/-- The rows of a lane from row r on, each with its row-end record (R167), which comes from the row's end markers (Table 07-3, POISON). -/
def laneRows (op : LaneOp) (ss : List Strm) (row0 r fuel : Nat) : LaneRun :=
  match fuel with
  | 0 => {}
  | fuel + 1 =>
    if ss.all (fun s => s.over r) then {}
    else
      let cur := ss.map (fun s => s.at' r)
      let ins := cur.map (fun e => e.1)
      let x := laneRow op ss.length (cur.map (fun e => e.2.2)) ((ins.map (fun l => l.length)).sum + 1) ins
      let out := (markGs x.out).map (fun m => (row0 + r, m))
      if !x.wants.isEmpty then { out, taken := x.taken, wants := x.wants }
      else
        let y := laneRows op ss row0 (r + 1) fuel
        { y with
          out := out ++ (row0 + r, { rowEndRec with bad := cur.any (fun e => e.2.1) }) :: y.out
          taken := x.taken + (ss.filter (fun s => decide (r < s.rows.length))).length + y.taken }

/-- Everything a lane emits for its streams as far as they are there; from record clean on all of it is poisoned (Table 07-4). -/
def laneRun (op : LaneOp) (ss : List Strm) (clean : Option Nat) : LaneRun :=
  let row0 := match ss with
    | s :: _ => s.row
    | [] => 0
  let x := laneRows op ss row0 0 (ss.foldl (fun m s => max m s.rows.length) 0 + 2)
  match clean with
  | none => x
  | some n => { x with out := x.out.zipIdx.map (fun (e, i) => if n ≤ i then (e.1, { e.2 with bad := true }) else e) }

/-- The 16 bytes of a match record (Table 07-3). -/
def MRec.bytes (m : MRec) : List PByte :=
  let v := m.coord % 2 ^ 32 + m.idxA % 2 ^ 32 * 2 ^ 32 + m.idxB % 2 ^ 32 * 2 ^ 64 + m.src % 16 * 2 ^ 96 + m.gs.toNat * 2 ^ 100
    + m.ha.toNat * 2 ^ 101 + m.hb.toNat * 2 ^ 102 + m.rowEnd.toNat * 2 ^ 103 + m.bad.toNat * 2 ^ 104
  cleanBytes (leBytes 16 v)

/-- The match regions of a lane: each full region is pushed as it fills, and the last one, with LAST, when the instruction ends (R162).
DEDUCED: log 25. -/
def matchRegions (size : Nat) (bases : List Nat) (ms : List (Nat × MRec)) (done : Bool) : List (List PByte) :=
  let cap := (size - 0x90) / 16
  let full := ms.length / cap
  (List.range (if done then full + 1 else full)).map (fun k =>
    let c := (ms.drop (k * cap)).take cap
    let row := match c with
      | (r, _) :: _ => r
      | [] => 0
    let cont := match c, (ms.drop (k * cap - 1)).head? with
      | _ :: _, some (_, p) => decide (k ≠ 0) && !p.rowEnd
      | _, _ => false
    regionHeader c.length row false cont (done && decide (k = full)) bases ++ c.flatMap (fun e => e.2.bytes))

/-- The match records of a region (for CMPCT): row by row from ROW_FIRST. -/
def matchRecs (i : Img) : List (Nat × MRec) :=
  let h := regHead i 16
  ((List.range h.n).foldl (fun (st : List (Nat × MRec) × Nat) k =>
    let o := 0x90 + 16 * k
    let v := leNat ((i.bytes.drop o).take 16)
    let m : MRec := { coord := v % 2 ^ 32, idxA := v / 2 ^ 32 % 2 ^ 32, idxB := v / 2 ^ 64 % 2 ^ 32, src := v / 2 ^ 96 % 16
                      gs := v / 2 ^ 100 % 2 = 1, ha := v / 2 ^ 101 % 2 = 1, hb := v / 2 ^ 102 % 2 = 1
                      rowEnd := v / 2 ^ 103 % 2 = 1, bad := v / 2 ^ 104 % 2 = 1 || imgBad i o (o + 16) }
    (st.1 ++ [(st.2, m)], if m.rowEnd then st.2 + 1 else st.2)) ([], h.row)).1

/-! ## Compaction (R169 to R172) -/

/-- The control word of Table 07-5. -/
structure CmpCtl where
  piece : Nat
  b : Nat
  key : Nat
  dest : Bool
  gsz : Nat
  kpos : Nat
  zfill : Bool
  rowClose : Bool
  lanes : Nat
  lane0 : Nat
  deriving DecidableEq, Repr

def CmpCtl.ofWord (w : W64) : CmpCtl :=
  { piece := fld w 61 3
    b := match fld w 59 2 with
      | 0 => 1
      | 1 => 8
      | 2 => 16
      | _ => 32
    key := fld w 57 2, dest := bit w 56, gsz := fld w 54 2
    kpos := if fld w 47 7 = 0 then 1024 else fld w 47 7 * 8
    zfill := bit w 46, rowClose := bit w 45, lanes := fld w 35 10 + 1, lane0 := fld w 0 32 }

/-- The lanes of the operands of a compaction (Table 07-6). -/
def CmpCtl.outLanes (k : CmpCtl) : Nat :=
  match k.piece with
  | 0 => k.b
  | 1 => k.b
  | 4 => 1
  | _ => k.lanes

/-- The block edge a descriptor's layout names; 0 for Furrow, whose edge is in its header. -/
def layoutEdge (l : Nat) : Nat :=
  match l with
  | 2 => 8
  | 3 => 16
  | 4 => 32
  | _ => 0

/-- Does a control word with its source break Table 07-5, Table 07-6 or R170? -/
def CmpCtl.breaks (k : CmpCtl) (x : Desc) : Bool :=
  5 < k.piece || k.key = 3 || k.kpos < k.b || (scaled x.format && k.kpos % 32 ≠ 0)
  || x.space = 0
  || (match k.piece with
      | 0 => x.form ≠ 2 || !([1, 2, 3, 4].contains x.layout) || k.key = 0 || (x.layout ≠ 1 && layoutEdge x.layout ≠ k.b) || k.b = 1
      | 1 => x.form ≠ 2 || !([1, 2, 3, 4].contains x.layout) || k.key = 0 || (x.layout ≠ 1 && layoutEdge x.layout ≠ k.b) || k.b = 1
      | 2 => x.form ≠ 0 || k.key ≠ 0
      | 3 => x.form ≠ 0 || k.key ≠ 0
      | 4 => x.form ≠ 2 || !([5, 6, 7].contains x.layout) || k.key = 0 || k.b ≠ 1
      | _ => x.form ≠ 2 || !([2, 3, 4].contains x.layout) || k.key ≠ 1 || layoutEdge x.layout ≠ k.b || k.lanes % k.b ≠ 0)
  || (scaled x.format && !((k.piece = 0 || k.piece = 2) && k.b = 32))

/-- A piece: its record with that one's number among those emitted, and its row. -/
structure Piece where
  row : Nat
  m : MRec
  zero : Bool
  num : Nat
  deriving DecidableEq, Repr

/-- The pieces of a run of records: skipped records are left out (R169 ZFILL). -/
def piecesOf (k : CmpCtl) (ms : List (Nat × Nat × MRec)) : List Piece :=
  ms.filterMap (fun (num, r, m) =>
    if m.rowEnd then none
    else
      let has := if k.key = 1 then m.ha else if k.key = 2 then m.hb else true
      if has then some { row := r, m, zero := false, num } else if k.zfill then some { row := r, m, zero := true, num } else none)

/-- An operand that a compaction forms: its window start, its pieces, and the number of the record that closes it; none while it is open. -/
structure Cut where
  w0 : Nat
  ps : List Piece
  closed : Option Nat
  deriving DecidableEq, Repr

/-- Cut pieces into operands: floor(KPOS / b) pieces each, and for SPRD one window each (R171). The first window is that of output column LANE0. An
operand that no piece has entered is none. DESIGN CHOICE: log 77. -/
def cutPieces (k : CmpCtl) (ps : List Piece) : List Cut :=
  let cap := k.kpos / k.b
  let win := max 1 (k.lanes / k.b)
  let start := if k.piece = 5 then k.lane0 / k.b / win * win else 0
  let mk (w0 : Nat) (l : List Piece) (p : Piece) : Cut := { w0, ps := l ++ [p], closed := if cap ≤ l.length + 1 then some p.num else none }
  let opened (w0 : Nat) (p : Piece) : Cut := mk (if k.piece = 5 && decide (w0 + win ≤ p.m.coord) then p.m.coord / win * win else w0) [] p
  let step (st : List Cut) (p : Piece) : List Cut :=
    match st.getLast? with
    | none => [opened start p]
    | some c =>
      if c.closed.isSome then st ++ [opened c.w0 p]
      else if k.piece = 5 && decide (c.w0 + win ≤ p.m.coord) then st.dropLast ++ [{ c with closed := some p.num }, opened c.w0 p]
      else st.dropLast ++ [mk c.w0 c.ps p]
  ps.foldl step []

/-- A code of a terrace memory read by the compactor (R172). -/
def gatherBits (s : State) (tg al space a bitOff w : Nat) : Code :=
  let rd := spRead s tg al space ((a + bitOff / 8) % 2 ^ 24) ((bitOff % 8 + w + 7) / 8)
  (leNat (rd.data.map (fun (b : PByte) => b.1)) / 2 ^ (bitOff % 8) % 2 ^ w, rd.data.any (fun (b : PByte) => b.2))

/-- A scale byte read by the compactor. -/
def gatherByte (s : State) (tg al space a : Nat) : Code := gatherBits s tg al space a 0 8

/-- Where compaction reads: the source descriptor, its header when it is FORM 2, and whether that header is poisoned. -/
structure CmpSrc where
  x : Desc
  h : Header
  bad : Bool
  deriving DecidableEq, Repr

/-- The edge of a source's blocks against the control word. -/
def CmpSrc.fits (c : CmpSrc) (k : CmpCtl) : Bool :=
  c.bad || c.x.form ≠ 2 || (!(c.h.breaks c.x) && (k.piece = 4 || c.h.edge = k.b))

/-- The key value of a piece: BASEn + IDX, or COORD (R170). -/
def keyOf (k : CmpCtl) (bases : List Nat) (m : MRec) : Nat :=
  match k.key with
  | 0 => m.coord
  | 1 => (bases.getD m.src 0 + m.idxA) % 2 ^ 64
  | _ => (bases.getD 1 0 + m.idxB) % 2 ^ 64

/-- Code j along K of a piece for lane l (Table 07-6); zero codes outside the source. -/
def pieceCode (s : State) (tg al : Nat) (c : CmpSrc) (k : CmpCtl) (v l j : Nat) : Code :=
  let w := ebits c.x.format
  let blk (i j : Nat) : Code :=
    if c.bad then (0, true)
    else gatherBits s tg al c.x.space (c.h.val + v * (k.b * k.b * w / 8)) ((i * k.b + j) * w) w
  let el (row e : Nat) : Code :=
    if row < c.x.e1 * c.x.e2 * c.x.e3 && e < c.x.e0 then gatherBits s tg al c.x.space (c.x.rowAddr row) (e * w) w
    else (0, false)
  match k.piece with
  | 0 => blk l j
  | 1 => blk j l
  | 2 => el (k.lane0 + l) (v * k.b + j)
  | 3 => el (v * k.b + j) (k.lane0 + l)
  | 4 => if c.bad then (0, true) else gatherBits s tg al c.x.space (c.h.val + v * w / 8) (v * w % 8) w
  | _ => blk j l

/-- The scale of a 32-position piece for lane l. -/
def pieceScale (s : State) (tg al : Nat) (c : CmpSrc) (k : CmpCtl) (v l : Nat) : Code :=
  if k.piece = 0 then
    (if c.bad then (0, true) else gatherByte s tg al c.x.space (c.h.scl + v * 32 + l))
  else if k.lane0 + l < c.x.e1 * c.x.e2 * c.x.e3 && v * 32 < c.x.e0 then
    gatherByte s tg al c.x.space (c.x.scaleAddr + (k.lane0 + l) * scalePitch c.x.space c.x.e0 + v)
  else (0, false)

/-- The codes and scales of one lane of an operand; its length with SPRD is the end of its last piece. DESIGN CHOICE: log 79. -/
def operandLane (s : State) (tg al : Nat) (c : CmpSrc) (k : CmpCtl) (bases : List Nat) (w0 : Nat) (ps : List Piece)
    (l : Nat) : Row :=
  let poison (p : Piece) (x : Code) : Code := (x.1, x.2 || p.m.bad)
  if k.piece = 5 then
    let n := ps.foldl (fun n p => max n ((p.m.src + 1) * k.b)) 0
    { codes := (List.range n).map (fun pos =>
        match ps.reverse.find? (fun p => p.m.src = pos / k.b && w0 ≤ p.m.coord && (p.m.coord - w0) = l / k.b) with
        | some p => if p.zero then poison p (0, false)
                    else poison p (pieceCode s tg al c k (keyOf k bases p.m) (l % k.b) (pos % k.b))
        | none => (0, false))
      scales := [] }
  else
    { codes := ps.flatMap (fun p => (List.range k.b).map (fun j =>
        if p.zero then poison p (0, false) else poison p (pieceCode s tg al c k (keyOf k bases p.m) l j)))
      scales := if scaled c.x.format then ps.map (fun p =>
          if p.zero then poison p (0, false) else poison p (pieceScale s tg al c k (keyOf k bases p.m) l)) else [] }

/-- One compacted operand with its tag line (Table 07-7); the window of an empty one starts at 0. DESIGN CHOICE: log 79. -/
def compactOperand (s : State) (tg al : Nat) (c : CmpSrc) (k : CmpCtl) (bases : List Nat) (row : Nat) (first last : Bool)
    (w0 : Nat) (ps : List Piece) : List PByte :=
  let lanes := (List.range k.outLanes).map (operandLane s tg al c k bases w0 ps)
  let kused := match lanes with
    | r :: _ => r.codes.length
    | [] => 0
  operand c.x.format { kused, lanes := k.outLanes, first, last, empty := ps.isEmpty, gsz := k.gsz
                       row := row, w0 := if ps.isEmpty then 0 else w0 } lanes

/-- A group of records whose operands close together (R171): its row, its records with their numbers, and the number of the record that ends it; none
while it is open. -/
structure CmpGroup where
  row : Nat
  ms : List (Nat × Nat × MRec)
  ends : Option Nat
  deriving DecidableEq, Repr

/-- The groups of a compaction: rows under ROWCLOSE, else the whole input. -/
def closeGroups (k : CmpCtl) (ms : List (Nat × MRec)) (done : Bool) : List CmpGroup :=
  let ns := ms.zipIdx.map (fun (e, n) => (n, e.1, e.2))
  let rowOf (l : List (Nat × Nat × MRec)) : Nat := match l with
    | (_, r, _) :: _ => r
    | [] => 0
  let last (l : List (Nat × Nat × MRec)) : CmpGroup := { row := rowOf l, ms := l, ends := if done then some ns.length else none }
  if k.rowClose then
    let (gs, cur) := ns.foldl (fun (st : List CmpGroup × List (Nat × Nat × MRec)) e =>
      let l := st.2 ++ [e]
      if e.2.2.rowEnd then (st.1 ++ [{ row := rowOf l, ms := l, ends := some e.1 }], []) else (st.1, l)) ([], [])
    if cur.isEmpty then gs else gs ++ [last cur]
  else [last ns]

/-- The operands a compaction has formed: those that no later record can change. One that closes after clean records were emitted is poisoned in full
(Table 07-4). DEDUCED: log 25. -/
def compact (s : State) (tg al : Nat) (c : CmpSrc) (k : CmpCtl) (bases : List Nat) (ms : List (Nat × MRec)) (done : Bool)
    (clean : Option Nat) : List (List PByte) :=
  (closeGroups k ms done).flatMap (fun g =>
    let os := cutPieces k (piecesOf k g.ms)
    let mk (num : Nat) (o : List PByte) : List PByte :=
      if clean.any (fun n => decide (n ≤ num)) then o.map (fun (b : PByte) => (b.1, true)) else o
    match os, g.ends with
    | [], some n => [mk n (compactOperand s tg al c k bases g.row true true 0 [])]
    | _, _ =>
      let formed := if g.ends.isSome then os else os.dropLast
      formed.zipIdx.map (fun (o, n) =>
        let r := match o.ps with
          | p :: _ => p.row
          | [] => g.row
        mk (o.closed.getD (g.ends.getD 0))
          (compactOperand s tg al c k bases r (decide (n = 0)) (decide (n + 1 = os.length)) o.w0 o.ps)))

/-! ## Issue -/

/-- The fields of a lane instruction (Table 13-12). -/
def cflLane (w : W64) : Nat := fld w 46 2
def cflQA (w : W64) : Nat := fld w 42 4
def cflQB (w : W64) : Nat := fld w 38 4
def cflQO (w : W64) : Nat := fld w 34 4
def cflK1 (w : W64) : Nat := fld w 30 4

/-- The checks of a lane instruction at issue (R162, R169, R369). op is the minor opcode. -/
def laneFault (op : Nat) (c : Ctx) (s : State) : Option Nat :=
  let t := terrace s c.tg
  let w := c.w0
  let two := op = 2 || op = 3
  let cmp := op = 5 || bit w 29
  if fld w 0 19 ≠ 0 || (!two && cflQB w ≠ 0) || (op = 5 && bit w 29) || (!cmp && (fld w 23 5 ≠ 0 || fld w 19 4 ≠ 0)) then
    some fILLEGAL
  else if (if op = 4 then cflK1 w = 0 else cflK1 w ≠ 0) then some fDESCRIPTOR
  else if !(consumes t 2 (cflQA w)) || (two && !(consumes t 2 (cflQB w))) || !(produces t 2 (cflQO w)) then some fHANDLE
  else if cmp then
    let k := CmpCtl.ofWord (c.t.sreg (fld w 23 5))
    let pool := if k.dest then 0 else 1
    match descOk c.t (fld w 19 4) with
    | none => some fDESCRIPTOR
    | some x =>
      if k.breaks x then some fDESCRIPTOR
      else if !(poolOf t pool).valid then some fHANDLE
      else if (poolOf t pool).size < operandBytes x.format (gszOf k.gsz) k.outLanes k.kpos then some fDESCRIPTOR
      else none
  else if !(poolOf t 2).valid then some fHANDLE
  else none

/-- Issue of a lane instruction: its checks, then it is forwarded to the Confluence island. -/
def issueLane (op : Nat) : Ctx → State → Option State := checked (laneFault op) (fun c s => forward c s 2)

def execCflScan (i : Issue) (s : State) : Host.Outcome State Fault Refusal :=
  issue { maj := 5, min := 0x01 } i s (issueLane 1)

def execCflIsectK2 (i : Issue) (s : State) : Host.Outcome State Fault Refusal :=
  issue { maj := 5, min := 0x02 } i s (issueLane 2)

def execCflUnionK2 (i : Issue) (s : State) : Host.Outcome State Fault Refusal :=
  issue { maj := 5, min := 0x03 } i s (issueLane 3)

def execCflMergeKk (i : Issue) (s : State) : Host.Outcome State Fault Refusal :=
  issue { maj := 5, min := 0x04 } i s (issueLane 4)

def execCflCmpct (i : Issue) (s : State) : Host.Outcome State Fault Refusal :=
  issue { maj := 5, min := 0x05 } i s (issueLane 5)

/-! ## In the Confluence island -/

/-- The queue of input stream i of a lane instruction. -/
def laneQueue (w : W64) (i : Nat) : Nat := if (wMin w = 2 || wMin w = 3) && i = 1 then cflQB w else cflQA w

/-- The input streams of a lane instruction. -/
def laneStreams (w : W64) : Nat := if wMin w = 4 then cflK1 w + 1 else if wMin w = 2 || wMin w = 3 then 2 else 1

/-- Has a stream's final region been taken? MERGE and CMPCT take one region per stream. -/
def laneClosed (w : W64) (l : List Img) : Bool :=
  if wMin w = 4 || wMin w = 5 then !l.isEmpty
  else l.any (fun i => (regHead i 8).last)

/-- The operation of a lane instruction on coordinate streams. -/
def laneOp (w : W64) : LaneOp :=
  match wMin w with
  | 1 => .scan
  | 2 => .isect
  | 3 => .union
  | _ => .merge

/-- The streams of a lane instruction as far as they have been taken. -/
def laneStrms (w : W64) (inp : List (List Img)) : List Strm := inp.map (fun l => strmOf l (laneClosed w l))

/-- What a lane instruction has done with what it has taken in; CMPCT takes the records of one match region. -/
def laneProgress (w : W64) (inp : List (List Img)) (clean : Option Nat) : LaneRun :=
  if wMin w = 5 then
    match inp.headD [] with
    | img :: _ => let ms := matchRecs img; { out := ms, taken := ms.length }
    | [] => { wants := [0] }
  else laneRun (laneOp w) (laneStrms w inp) clean

/-- The base of each stream of a lane instruction. -/
def laneBases (w : W64) (inp : List (List Img)) : List Nat :=
  if wMin w = 5 then (regHead ((inp.headD []).headD {}) 16).bases else (laneStrms w inp).map (fun x => x.base)

/-- The outputs that a lane instruction has formed; none when the source's header is refused. -/
def laneOutputs (s : State) (tg : Nat) (e : Exec) (x : LaneRun) : Option (List (List PByte)) :=
  let w := e.cmd.w0
  let al := allotOf s tg
  let k := CmpCtl.ofWord (e.cmd.th.sreg (fld w 23 5))
  let bases := laneBases w e.inp
  if wMin w = 5 || bit w 29 then
    let d := descOf e.cmd.th (fld w 19 4)
    let (h, hbad, _) := if d.form = 2 then readHeader s tg al d else (Header.ofBytes [], false, [])
    let src : CmpSrc := { x := d, h, bad := hbad }
    if src.fits k then some (compact s tg al src k bases x.out x.wants.isEmpty e.lane.clean) else none
  else some (matchRegions (poolOf (terrace s tg) 2).size bases x.out x.wants.isEmpty)

/-- A lane forms the outputs that what it has taken in completes, and counts its progress (R162, R185). -/
def laneForm (s : State) (tg u : Nat) (e : Exec) : State :=
  let w := e.cmd.w0
  let x := laneProgress w e.inp e.lane.clean
  match laneOutputs s tg e x with
  | none => stageFault s tg e.cmd fDESCRIPTOR
  | some os =>
    let k := CmpCtl.ofWord (e.cmd.th.sreg (fld w 23 5))
    let cmp := wMin w = 5 || bit w 29
    let new := os.drop e.lane.formed
    let bytes := if cmp then (os.map (fun o => o.length)).sum else 0
    let emitted := if wMin w = 5 then 0 else x.out.length
    let rows := (x.out.filter (fun m => m.2.rowEnd)).length
    let s := ctrAdd s (tBase tg + 0x1210) (x.taken - e.lane.taken)
    let s := ctrAdd s (tBase tg + 0x1218) (emitted - e.lane.emitted)
    let s := ctrAdd s (tBase tg + 0x1220) (bytes - e.lane.bytes)
    updTerrace s tg (fun t => { setExec t u { e with
        outs := e.outs ++ new.map imgOf, pool := if cmp then (if k.dest then 0 else 1) else 2, ready := x.wants.isEmpty
        lane := { e.lane with formed := os.length, taken := x.taken, emitted, bytes, rows } } with
      laneStat := mset t.laneStat (u - 16) ((laneStreams w - 1) * 2 ^ 16 + min 0xFFFF rows) })

/-- Take one region of stream i of a lane. A poisoned header poisons what the instruction emits from now on (Table 07-4). -/
def laneTake (s : State) (tg u i : Nat) : State :=
  match execOf (terrace s tg) u with
  | none => s
  | some e =>
    let l := e.inp.getD i []
    if e.ready || laneClosed e.cmd.w0 l then s
    else match popQ (terrace s tg) (laneQueue e.cmd.w0 i) with
      | none => missNext s tg u (laneQueue e.cmd.w0 i)
      | some (h, t) =>
        let s := setTerrace s tg t
        let img := imgOf (regionBytes s tg h)
        let clean := if e.lane.clean.isSome || !((regHead img 8).bad) then e.lane.clean
          else some (laneProgress e.cmd.w0 e.inp none).out.length
        let s := updTerrace s tg (fun t => setExec t u { gotNext e with
          inp := e.inp.set i (l ++ [img]), lane := { e.lane with clean } })
        if bit e.cmd.w0 28 then freeHandle s tg e.cmd.thr e.cmd.th.pc.toNat h else s

/-- A lane takes the regions that it needs to go on, as far as its queues hold them, and forms its outputs; it ends when every stream has. -/
def feedLane (s : State) (tg u : Nat) : State :=
  match execOf (terrace s tg) u with
  | none => s
  | some e =>
    if e.ready then s
    else
      let s := (laneProgress e.cmd.w0 e.inp e.lane.clean).wants.foldl (fun s i => laneTake s tg u i) s
      match execOf (terrace s tg) u with
      | none => s
      | some e => laneForm s tg u e

/-- Start a lane instruction: its lane is idle and its first input regions are there (R161). -/
def startLane (s : State) (tg : Nat) (c : Cmd) : Bool × State :=
  let t := terrace s tg
  let w := c.w0
  let u := 16 + cflLane w
  let n := laneStreams w
  let want (q : Nat) : Nat := ((List.range n).filter (fun i => laneQueue w i = q)).length
  let ok := (List.range n).all (fun i => want (laneQueue w i) ≤ (lqOf t (laneQueue w i)).entries.length)
  if mhas t.execs u then (false, s)
  else if !ok then (false, s)
  else
    let e : Exec := { cmd := c, inp := List.replicate n [], outQ := cflQO w }
    (true, feedLane (updTerrace s tg (fun t => { setExec t u e with
      laneStat := mset t.laneStat (u - 16) ((n - 1) * 2 ^ 16) })) tg u)

end Sys2Proof.Machine
end

