-- ==== Sys2Proof/Machine/Control.lean ====
section
/-! DEFINITION. The CTL group (13 Table 13-6, R357; 04 R82, R100). -/

namespace Sys2Proof.Machine

def execCtlNop (i : Issue) (s : State) : Host.Outcome State Fault Refusal :=
  issue { maj := 1, min := 0x00 } i s (strict [(0, 48)] (fun _ s => some s))

/-- The thread Ends (R82). -/
def execCtlEnd (i : Issue) (s : State) : Host.Outcome State Fault Refusal :=
  issue { maj := 1, min := 0x01 } i s (strict [(0, 48)] (fun c s =>
    some (onThread c s (fun t => { t with st := .ended }))))

/-- PC + 8 * OFF, OFF signed (Table 13-6). -/
def jumpTarget (c : Ctx) : BitVec 52 := BitVec.ofInt 52 ((c.pc : Int) + 8 * sfld c.w0 0 32)

def execCtlJmp (i : Issue) (s : State) : Host.Outcome State Fault Refusal :=
  issue { maj := 1, min := 0x02 } i s (strict [(32, 16)] (fun c s =>
    some (onThread c s (fun t => t.setPc (jumpTarget c)))))

def execCtlJal (i : Issue) (s : State) : Host.Outcome State Fault Refusal :=
  issue { maj := 1, min := 0x03 } i s (strict [(32, 11)] (fun c s =>
    some (onThread c s (fun t =>
      (t.setS (fld c.w0 43 5) (BitVec.ofNat 64 ((c.pc + 8) % 2 ^ 52))).setPc (jumpTarget c)))))

def execCtlJr (i : Issue) (s : State) : Host.Outcome State Fault Refusal :=
  issue { maj := 1, min := 0x04 } i s (strict [(0, 38), (43, 5)] (fun c s =>
    some (onThread c s (fun t => t.setPc (BitVec.ofNat 52 (srcA c).toNat)))))

/-- The counter LS[i] of a terrace, or SS[i] of the span it serves (R100). -/
def semGet (s : State) (tg : Nat) (span : Bool) (i : Nat) : W32 :=
  if span then
    match runOfT s tg with
    | some (_, r) => mget r.ss i 0
    | none => 0
  else mget (terrace s tg).sema i 0

/-- Add to a semaphore, modulo 2^32 (R100). -/
def semAdd (s : State) (tg : Nat) (span : Bool) (i : Nat) (v : W32) : State :=
  if span then
    match runOfT s tg with
    | some (k, _) => updRun s k (fun r => { r with ss := mset r.ss i (mget r.ss i 0 + v) })
    | none => s
  else updTerrace s tg (fun t => { t with sema := mset t.sema i (mget t.sema i 0 + v) })

def execCtlSig (i : Issue) (s : State) : Host.Outcome State Fault Refusal :=
  issue { maj := 1, min := 0x08 } i s (strict [(32, 5)] (fun c s =>
    some (semAdd s c.tg (bit c.w0 47) (fld c.w0 43 4) (semValue c))))

/-- The thread goes on when the counter has reached the target, and is Blocked until it has (R82, R100). -/
def execCtlWait (i : Issue) (s : State) : Host.Outcome State Fault Refusal :=
  issue { maj := 1, min := 0x09 } i s (strict [(32, 5)] (fun c s =>
    let span := bit c.w0 47
    let k := fld c.w0 43 4
    if reached (semGet s c.tg span k) (semValue c) then some s
    else some (onThread c s (fun t => { t with st := .blocked (.sem span k (semValue c)) }))))

end Sys2Proof.Machine
end

