-- ==== Sys2Proof/Machine/Scalar.lean ====
section
/-! DEFINITION. The SCL group (13 Table 13-7, R358 to R360). -/

namespace Sys2Proof.Machine

/-- Shifts use bits [5:0] of the second operand (R358). -/
def shiftAmount (b : W64) : Nat := b.toNat % 64

/-- An arithmetic instruction: sd gets f of s[a] and the second operand (R358). -/
def aluBody (f : W64 → W64 → W64) (c : Ctx) (s : State) : Option State :=
  some (onThread c s (fun t => t.setS (fld c.w0 43 5) (f (srcA c) (secondOperand c))))

def aluAdd (a b : W64) : W64 := a + b
def aluSub (a b : W64) : W64 := a - b
def aluMul (a b : W64) : W64 := a * b
def aluAnd (a b : W64) : W64 := a &&& b
def aluOr (a b : W64) : W64 := a ||| b
def aluXor (a b : W64) : W64 := a ^^^ b
def aluShl (a b : W64) : W64 := a <<< shiftAmount b
def aluShr (a b : W64) : W64 := a >>> shiftAmount b
def aluSar (a b : W64) : W64 := a.sshiftRight (shiftAmount b)
def aluMin (a b : W64) : W64 := if a.slt b then a else b
def aluMax (a b : W64) : W64 := if a.slt b then b else a
def aluMinu (a b : W64) : W64 := if a.ult b then a else b
def aluMaxu (a b : W64) : W64 := if a.ult b then b else a
def aluDivu (a b : W64) : W64 := if b = 0 then 0xFFFFFFFFFFFFFFFF#64 else a.udiv b
def aluRemu (a b : W64) : W64 := if b = 0 then a else a.umod b

def execSclAdd (i : Issue) (s : State) : Host.Outcome State Fault Refusal :=
  issue { maj := 2, min := 0x00 } i s (aluBody aluAdd)

def execSclSub (i : Issue) (s : State) : Host.Outcome State Fault Refusal :=
  issue { maj := 2, min := 0x01 } i s (aluBody aluSub)

def execSclMul (i : Issue) (s : State) : Host.Outcome State Fault Refusal :=
  issue { maj := 2, min := 0x02 } i s (aluBody aluMul)

def execSclAnd (i : Issue) (s : State) : Host.Outcome State Fault Refusal :=
  issue { maj := 2, min := 0x03 } i s (aluBody aluAnd)

def execSclOr (i : Issue) (s : State) : Host.Outcome State Fault Refusal :=
  issue { maj := 2, min := 0x04 } i s (aluBody aluOr)

def execSclXor (i : Issue) (s : State) : Host.Outcome State Fault Refusal :=
  issue { maj := 2, min := 0x05 } i s (aluBody aluXor)

def execSclShl (i : Issue) (s : State) : Host.Outcome State Fault Refusal :=
  issue { maj := 2, min := 0x06 } i s (aluBody aluShl)

def execSclShr (i : Issue) (s : State) : Host.Outcome State Fault Refusal :=
  issue { maj := 2, min := 0x07 } i s (aluBody aluShr)

def execSclSar (i : Issue) (s : State) : Host.Outcome State Fault Refusal :=
  issue { maj := 2, min := 0x08 } i s (aluBody aluSar)

def execSclMin (i : Issue) (s : State) : Host.Outcome State Fault Refusal :=
  issue { maj := 2, min := 0x09 } i s (aluBody aluMin)

def execSclMax (i : Issue) (s : State) : Host.Outcome State Fault Refusal :=
  issue { maj := 2, min := 0x0A } i s (aluBody aluMax)

def execSclMinu (i : Issue) (s : State) : Host.Outcome State Fault Refusal :=
  issue { maj := 2, min := 0x0B } i s (aluBody aluMinu)

def execSclMaxu (i : Issue) (s : State) : Host.Outcome State Fault Refusal :=
  issue { maj := 2, min := 0x0C } i s (aluBody aluMaxu)

def execSclDivu (i : Issue) (s : State) : Host.Outcome State Fault Refusal :=
  issue { maj := 2, min := 0x0D } i s (aluBody aluDivu)

def execSclRemu (i : Issue) (s : State) : Host.Outcome State Fault Refusal :=
  issue { maj := 2, min := 0x0E } i s (aluBody aluRemu)

/-- A 64-bit immediate from word 1 (Table 13-7). -/
def execSclMovi (i : Issue) (s : State) : Host.Outcome State Fault Refusal :=
  issue { maj := 2, min := 0x10 } i s (strict [(0, 43)] (fun c s =>
    some (onThread c s (fun t => t.setS (fld c.w0 43 5) c.w1))))

/-- pd gets bit 2 * p[a] + p[b] of TT (R359). -/
def execSclPlog (i : Issue) (s : State) : Host.Outcome State Fault Refusal :=
  issue { maj := 2, min := 0x11 } i s (strict [(0, 32), (36, 3)] (fun c s =>
    let k := 2 * (c.t.preg (fld c.w0 42 3)).toNat + (c.t.preg (fld c.w0 39 3)).toNat
    some (onThread c s (fun t => t.setP (fld c.w0 45 3) (bit c.w0 (32 + k))))))

def execSclSel (i : Issue) (s : State) : Host.Outcome State Fault Refusal :=
  issue { maj := 2, min := 0x12 } i s (strict [(0, 29), (37, 1)] (fun c s =>
    let v := if c.t.preg (fld c.w0 29 3) then srcA c else c.t.sreg (fld c.w0 32 5)
    some (onThread c s (fun t => t.setS (fld c.w0 43 5) v))))

/-- A comparison writes pd (R359). -/
def cmpBody (k : Cmp) : Ctx → State → Option State :=
  strict [(43, 2)] (fun c s =>
    some (onThread c s (fun t => t.setP (fld c.w0 45 3) (k.holds (srcA c) (secondOperand c)))))

def execSclCmpEq (i : Issue) (s : State) : Host.Outcome State Fault Refusal :=
  issue { maj := 2, min := 0x18 } i s (cmpBody .eq)

def execSclCmpNe (i : Issue) (s : State) : Host.Outcome State Fault Refusal :=
  issue { maj := 2, min := 0x19 } i s (cmpBody .ne)

def execSclCmpLt (i : Issue) (s : State) : Host.Outcome State Fault Refusal :=
  issue { maj := 2, min := 0x1A } i s (cmpBody .lt)

def execSclCmpGe (i : Issue) (s : State) : Host.Outcome State Fault Refusal :=
  issue { maj := 2, min := 0x1B } i s (cmpBody .ge)

def execSclCmpLtu (i : Issue) (s : State) : Host.Outcome State Fault Refusal :=
  issue { maj := 2, min := 0x1C } i s (cmpBody .ltu)

def execSclCmpGeu (i : Issue) (s : State) : Host.Outcome State Fault Refusal :=
  issue { maj := 2, min := 0x1D } i s (cmpBody .geu)

/-- Does an address break the rules of R360 for a space and a size? -/
def scalarBreaks (space a n : Nat) : Bool :=
  a % n ≠ 0 || (space ≠ 0 && (a / 2 ^ 24 ≠ 0 || memSize space < a + n))

/-- SPACE of the scalar and descriptor memory forms. -/
def spaceOf (c : Ctx) : Nat := fld c.w0 32 3

/-- The checks at issue of a load or store of n bytes: ILLEGAL for a space that is not coded, SCALAR for an address that breaks R360. -/
def memFault (n : Ctx → Nat) (c : Ctx) (_ : State) : Option Nat :=
  if 4 ≤ spaceOf c then some fILLEGAL else if scalarBreaks (spaceOf c) (memAddr c) (n c) then some fSCALAR else none

/-- A load of n bytes by a thread: Blocked until its translation and its data are there (R324, R353), passed over while a route fence holds its
terrace (R26); SCALAR when it faults or returns poison; else the bytes go to k, and the thread goes on (R360, R361). -/
def loadBytes (c : Ctx) (s : State) (space a n : Nat) (k : List Byte → Thread → Thread) : Option State :=
  let al := allotOf s c.tg
  let r := spRead s c.tg al space a n
  if space = 0 && terraceFenced s c.tg then none
  else if atsMissing r.accs ≠ [] then
    let s := atsAsk s (.terrace c.tg) al (atsMissing r.accs)
    some (tagThread (onThread c s (fun t => { t with st := .blocked (.load c.w0 c.pc) })) c.tg c.thr)
  else
    let s := noteAccs s (.terrace c.tg) (slotOf s c.tg) al r.accs
    let s := logStream s (slotOf s c.tg) al c.tg r.accs
    if r.data.any (·.2) then some (raise c fSCALAR s)
    else some (onThread c s (fun t => { k (r.data.map (·.1)) t with st := .ready }))

/-- A store of bytes by a thread, which goes on: a store to device memory whose translation is missing waits beside it (R324, R353). -/
def storeBytes (c : Ctx) (s : State) (space a : Nat) (bs : List Byte) : Option State :=
  let al := allotOf s c.tg
  if space ≠ 0 then
    let (t, accs) := tWrite (terrace s c.tg) al space a (bs.map (fun b => (b, false)))
    some (noteAccs (setTerrace s c.tg t) (.terrace c.tg) (slotOf s c.tg) al accs)
  else if terraceFenced s c.tg then none
  else some (retryStore s c.tg { thr := some c.thr, va := a, bytes := bs.map (fun b => (b, false)) })

/-- SIZE of a scalar load or store in bytes. -/
def sclBytes (c : Ctx) : Nat := 2 ^ fld c.w0 36 2

/-- The value a load of bytes gives: zero-extended, or sign-extended with SX (R360). -/
def extended (c : Ctx) (bs : List Byte) : W64 :=
  if bit c.w0 35 then BitVec.ofInt 64 (sint (8 * sclBytes c) (leNat bs)) else BitVec.ofNat 64 (leNat bs)

def sclLdBody (c : Ctx) (s : State) : Option State :=
  loadBytes c s (spaceOf c) (memAddr c) (sclBytes c) (fun bs t => t.setS (fld c.w0 43 5) (extended c bs))

/-- LD: 1, 2, 4 or 8 bytes, zero- or sign-extended (R360). -/
def execSclLd (i : Issue) (s : State) : Host.Outcome State Fault Refusal :=
  issue { maj := 2, min := 0x20 } i s (checked (memFault sclBytes) sclLdBody)

def sclStBody (c : Ctx) (s : State) : Option State :=
  storeBytes c s (spaceOf c) (memAddr c) (leBytes (sclBytes c) (c.t.sreg (fld c.w0 43 5)).toNat)

/-- ST: the low bytes of sb (R360). -/
def execSclSt (i : Issue) (s : State) : Host.Outcome State Fault Refusal :=
  issue { maj := 2, min := 0x21 } i s (strict [(35, 1)] (checked (memFault sclBytes) sclStBody))

end Sys2Proof.Machine
end

