-- ==== Sys2Proof/Machine/Descriptor.lean ====
section
/-! DEFINITION. The DSC group (13 Table 13-8, R361). -/

namespace Sys2Proof.Machine

/-- The destination of the DSC forms. -/
def dd (c : Ctx) : Nat := fld c.w0 44 4

def dscLdBody (c : Ctx) (s : State) : Option State :=
  loadBytes c s (spaceOf c) (memAddr c) 32 (fun bs t => t.setD (dd c) (BitVec.ofNat 256 (leNat bs)))

/-- dd gets 32 bytes at s[a] + OFF, byte 0 to bits [7:0]; it faults as SCL.LD does. -/
def execDscLd (i : Issue) (s : State) : Host.Outcome State Fault Refusal :=
  issue { maj := 3, min := 0x00 } i s (strict [(43, 1), (35, 3)] (checked (memFault (fun _ => 32)) dscLdBody))

def dscStBody (c : Ctx) (s : State) : Option State :=
  storeBytes c s (spaceOf c) (memAddr c) (leBytes 32 (c.t.dreg (fld c.w0 44 4)).toNat)

def execDscSt (i : Issue) (s : State) : Host.Outcome State Fault Refusal :=
  issue { maj := 3, min := 0x01 } i s (strict [(43, 1), (35, 3)] (checked (memFault (fun _ => 32)) dscStBody))

def execDscMov (i : Issue) (s : State) : Host.Outcome State Fault Refusal :=
  issue { maj := 3, min := 0x02 } i s (strict [(0, 40)] (fun c s =>
    some (onThread c s (fun t => t.setD (dd c) (c.t.dreg (fld c.w0 40 4))))))

def execDscZero (i : Issue) (s : State) : Host.Outcome State Fault Refusal :=
  issue { maj := 3, min := 0x03 } i s (strict [(0, 44)] (fun c s =>
    some (onThread c s (fun t => t.setD (dd c) 0))))

/-- sd gets bits LSB to LSB + W1 of da; bits above 255 read 0. -/
def execDscGetb (i : Issue) (s : State) : Host.Outcome State Fault Refusal :=
  issue { maj := 3, min := 0x04 } i s (strict [(16, 23), (6, 2)] (fun c s =>
    let v := fld (c.t.dreg (fld c.w0 39 4)) (fld c.w0 8 8) (fld c.w0 0 6 + 1)
    some (onThread c s (fun t => t.setS (fld c.w0 43 5) (BitVec.ofNat 64 v)))))

/-- Bits LSB to LSB + W1 of dd get the low bits of s[a]; bits above 255 are dropped. -/
def execDscSetb (i : Issue) (s : State) : Host.Outcome State Fault Refusal :=
  issue { maj := 3, min := 0x05 } i s (strict [(43, 1), (16, 22), (6, 2)] (fun c s =>
    let d := setFld (c.t.dreg (dd c)) (fld c.w0 8 8) (fld c.w0 0 6 + 1) (srcA c).toNat
    some (onThread c s (fun t => t.setD (dd c) d))))

/-- BASE gets (BASE + v) mod 2^52; every other bit is unchanged. -/
def execDscAddb (i : Issue) (s : State) : Host.Outcome State Fault Refusal :=
  issue { maj := 3, min := 0x06 } i s (strict [(43, 1), (32, 5)] (fun c s =>
    let d := c.t.dreg (dd c)
    let v : W64 := if bit c.w0 37 then BitVec.ofInt 64 (sfld c.w0 0 32) else srcA c
    some (onThread c s (fun t => t.setD (dd c) (setFld d 0 52 (fld d 0 52 + v.toNat))))))

end Sys2Proof.Machine
end

