-- ==== Sys2Proof/Machine/Func.lean ====
section
/-! DEFINITION. The functions that the spec bounds to two units in the last place: the activations (09 R220, Table 09-2), the
exponential (08 R204) and the logarithm (10 R251). A unit's result is any value within the bound; the bound is decided by a
rational approximation far finer than it. -/

namespace Sys2Proof.Machine

/-- Fraction bits of the fixed-point arithmetic here. -/
def fixBits : Nat := 320

/-- ln 2 in fixed point. -/
def fixLn2 : Nat := 1480553391661173448385607439722553250922680800745876974795605978609098082859138712941075737848984

/-- A rational value (-1)^neg * n / d * 2^e. -/
structure Rat2 where
  neg : Bool
  n : Nat
  d : Nat
  e : Int
  deriving DecidableEq, Repr

/-- The value m * 2^e in fixed point, with m signed. -/
def toFix (m : Int) (e : Int) : Int :=
  let x := e + fixBits
  if 0 ≤ x then m * 2 ^ x.toNat else m / 2 ^ (-x).toNat

/-- A signed integer of a finite value. -/
def signedMant (neg : Bool) (m : Nat) : Int := if neg then -(m : Int) else m

/-- Sum of r^i / i! in fixed point, for r in [0, ln 2). -/
def expSeries (r : Nat) : Nat :=
  ((List.range 64).foldl (fun (st : Nat × Nat) i =>
    let t := st.1 * r / 2 ^ fixBits / (i + 1)
    (t, st.2 + t)) (2 ^ fixBits, 2 ^ fixBits)).2

/-- e^z for z in fixed point: a mantissa in fixed point and a binary exponent. -/
def fixExp (z : Int) : Nat × Int :=
  let k := z / fixLn2
  (expSeries (z - k * fixLn2).toNat, k)

/-- e^z as a rational. -/
def ratExp (z : Int) : Rat2 :=
  let (m, k) := fixExp z
  { neg := false, n := m, d := 1, e := k - fixBits }

/-- x / (1 + e^(-z)) for a finite x, with z in fixed point. -/
def ratLogistic (neg : Bool) (m : Nat) (e : Int) (z : Int) : Rat2 :=
  let (q, k) := fixExp z
  if 0 ≤ k then { neg, n := m * (q * 2 ^ k.toNat), d := 2 ^ fixBits + q * 2 ^ k.toNat, e }
  else { neg, n := m * q, d := 2 ^ (fixBits + (-k).toNat) + q, e }

/-- Keep an exponent's argument where the result is already 0 or 1 in FP32. -/
def clampFix (z : Int) : Int := max (-(4096 * 2 ^ fixBits)) (min (4096 * 2 ^ fixBits) z)

/-- tanh of a fixed-point z: (e^(2z) - 1) / (e^(2z) + 1). -/
def ratTanh (neg : Bool) (z : Int) : Rat2 :=
  let (q, k) := fixExp (clampFix (2 * z.natAbs))
  let u := q * 2 ^ k.toNat
  { neg, n := u - 2 ^ fixBits, d := u + 2 ^ fixBits, e := 0 }

/-- The argument of GELU's logistic form, 2 * 0.7978845608 * (x + 0.044715 x^3). -/
def geluArg (x : Int) (e : Int) : Int :=
  if 64 < (toFix x e).natAbs / 2 ^ fixBits then (if x < 0 then -(4096 * 2 ^ fixBits) else 4096 * 2 ^ fixBits)
  else 2 * 7978845608 * (toFix (x * 1000000) e + toFix (44715 * x * x * x) (3 * e)) / 10000000000000000

/-- ln of m * 2^e, m > 0: k ln 2 + 2 artanh ((t - 1) / (t + 1)). -/
def ratLn (m : Nat) (e : Int) : Rat2 :=
  let l := Nat.log2 m
  let num := (m - 2 ^ l) * 2 ^ fixBits / (m + 2 ^ l)
  let sq := num * num / 2 ^ fixBits
  let s := ((List.range 120).foldl (fun (st : Nat × Nat) i =>
    (st.1 * sq / 2 ^ fixBits, st.2 + st.1 / (2 * i + 1))) (num, 0)).2
  let v : Int := (e + l) * fixLn2 + 2 * s
  { neg := decide (v < 0), n := v.natAbs, d := 1, e := -fixBits }

/-- Is an FP32 word within two units in the last place of a value, or within 2^-126 of one smaller than that when tiny is set (R220)? DEDUCED: log 70. -/
def within2 (tiny : Bool) (c : W32) (r : Rat2) : Bool :=
  match f32 c with
  | .fin neg m e =>
    let s : Int := 1200
    let exact := r.n * 2 ^ (r.e + s).toNat / r.d
    let x : Int := if r.neg then -(exact : Int) else exact
    let y : Int := toFix (signedMant neg m) (e + s - fixBits)
    let l := if r.n = 0 then -126 else max (flog2 r.n r.d + r.e) (-126)
    let tol : Nat := if tiny && decide (exact < 2 ^ 1074) then 2 ^ 1074 else 2 ^ (l - 23 + 1 + s).toNat
    decide ((x - y).natAbs ≤ tol)
  | _ => false

/-- The result of a function unit: its own where that lies within the bound, else the value rounded once. DEDUCED: log 70. -/
def pick (tiny : Bool) (op : Nat) (x : W32) (r : Rat2) : W32 :=
  let c := Config.approx op x
  if within2 tiny c r then c else BitVec.ofNat 32 (fmtFP32.encodeQ .rne false r.neg r.n r.d r.e).code

/-- The activations of Table 09-2. -/
def activate (act : Nat) (x : W32) : W32 :=
  match act with
  | 0 => x
  | 1 =>
    match f32 x with
    | .nan => rne32 .nan
    | v => if Num.lt (.fin false 0 0) v then x else 0
  | _ =>
    match f32 x with
    | .nan => rne32 .nan
    | .inf neg =>
      match act with
      | 4 => if neg then 0 else rne32 (.ofInt 1 0)
      | 5 => rne32 (.ofInt (if neg then -1 else 1) 0)
      | _ => if neg then 0x80000000#32 else x
    | .fin neg m e =>
      if m = 0 then (if act = 4 then rne32 (.ofInt 1 (-1)) else x)
      else
        let z := toFix (signedMant neg m) e
        match act with
        | 2 => pick true 2 x (ratLogistic neg m e (geluArg (signedMant neg m) e))
        | 3 => pick true 3 x (ratLogistic neg m e (clampFix z))
        | 4 => pick true 4 x (ratLogistic false 1 0 (clampFix z))
        | _ => pick true 5 x (ratTanh neg (clampFix z))

/-- The exponential of R204. -/
def exp32 (x : W32) : W32 :=
  match f32 x with
  | .nan => rne32 .nan
  | .inf neg => if neg then 0 else rne32 (.inf false)
  | .fin neg m e => pick false 8 x (ratExp (max (-(200 * 2 ^ fixBits)) (min (200 * 2 ^ fixBits) (toFix (signedMant neg m) e))))

/-- The logarithm of R251, of a positive number. -/
def ln32 (x : W32) : W32 :=
  match f32 x with
  | .fin false m e => if m = 0 then rne32 (.inf true) else pick false 9 x (ratLn m e)
  | .inf false => x
  | _ => rne32 .nan

end Sys2Proof.Machine
end

