-- ==== Sys2Proof/Machine/Flume.lean ====
section
/-! DEFINITION. The Flume lanes: FLM.ATTN and FLM.MERGE, their contexts and their completion (10 R238 to R255, R277, 13 R375). -/

namespace Sys2Proof.Machine

/-! ## Lanes (R238) -/

def laneAt (s : State) (fg : Nat) : FLane := mget s.lanes fg {}
def updLane (s : State) (fg : Nat) (f : FLane → FLane) : State := { s with lanes := mset s.lanes fg (f (laneAt s fg)) }

/-- The lane that serves a terrace: its own, or the other of its ridge when that one has failed. -/
def laneOf (s : State) (tg : Nat) : Nat :=
  let own := tg / 4 * 2 + tg % 4 / 2
  let other := if own % 2 = 0 then own + 1 else own - 1
  if (laneAt s own).failed then other else own

/-- The terraces a lane serves now. -/
def laneTerraces (s : State) (fg : Nat) : List Nat := ((List.range 4).map (fun k => fg / 2 * 4 + k)).filter (fun tg => laneOf s tg = fg)

/-- A lane takes over the contexts of its failed neighbour; an idle one runs the first of them (R238). DEDUCED: log 28. -/
def FLane.takeOver (l : FLane) (moved : List FCtx) : FLane :=
  let all := sortBy (fun a b => decide (a.tg ≤ b.tg)) (l.ctxs ++ moved)
  { l with ctxs := all, running := if l.ctxs.isEmpty then (all.map (fun x => x.tg)).headD 0 else l.running }

/-- Base of a lane's registers (R278). -/
def laneBase (fg : Nat) : Nat := tBase (fg / 2 * 4) + 0x1500 + 0x20 * (fg % 2)

/-! ## The control word (Table 10-2) -/

structure AttnCtl where
  g : Nat
  dh : Nat
  nh : Nat
  hk0 : Nat
  causal : Bool
  seg : Bool
  rotq : Bool
  rotk : Bool
  rpair : Bool
  rothalf : Nat
  part : Bool
  paged : Bool
  nent : Nat
  smscale : W32
  window : Nat
  rotAddr : Nat
  xoff : Nat
  xfmt : Nat
  deriving DecidableEq, Repr

def AttnCtl.of (t : Thread) (w : W64) : AttnCtl :=
  let n := fld w 43 5
  let a := t.sreg n
  let b := t.sreg (n + 1)
  let c := t.sreg (n + 2)
  let d := t.sreg (n + 3)
  { g := fld a 58 6 + 1, dh := fld a 50 8 + 1, nh := fld a 42 8 + 1, hk0 := fld a 34 8, causal := bit a 33, seg := bit a 32
    rotq := bit a 31, rotk := bit a 30, rpair := bit a 29, rothalf := fld a 21 8, part := bit a 20, paged := bit a 19
    nent := fld a 0 16 + 1, smscale := BitVec.ofNat 32 (fld b 32 32), window := fld b 0 32, rotAddr := fld c 0 52
    xoff := fld d 32 24, xfmt := fld d 27 5 }

/-- The four array formats a lane takes (R242). -/
def flmFmt (f : Nat) : Bool := [0x06, 0x07, 0x0C, 0x0D].contains f
def flm8 (f : Nat) : Bool := f == 0x06 || f == 0x07

/-- Is a descriptor legal, dense, and in AS or PS (or anywhere)? -/
def flmDesc (t : Thread) (k : Nat) (any : Bool) (fmt : Nat → Bool) : Bool :=
  match descOk t k with
  | some x => x.form = 0 && (any || x.space = 2 || x.space = 3) && fmt x.format
  | none => false

/-- The descriptor faults of R254. -/
def attnBad (t : Thread) (w : W64) : Bool :=
  let k := AttnCtl.of t w
  let e0 (r : Nat) : Nat := (descOf t r).e0
  k.dh < 16 || k.dh % 16 ≠ 0 || 2 * k.rothalf > k.dh || 16384 < k.g * k.dh || (k.paged && k.seg)
  || k.rotAddr % 32 ≠ 0 || k.xoff % 64 ≠ 0 || (ekind k.xfmt).isNone
  || !(flmDesc t (fld w 39 4) false flmFmt) || e0 (fld w 39 4) ≠ k.dh
  || !(flmDesc t (fld w 35 4) false (fun f => decide (f ≤ 0x0E) && (!(scaled f) || k.dh % 32 = 0) && (!k.part || f = 0x0E)))
  || e0 (fld w 35 4) ≠ k.dh
  || (k.part && !(bit w 6)) || (bit w 6 && !(flmDesc t (fld w 31 4) false (fun f => f = 0x0E)))
  || (!k.paged && (!(flmDesc t (fld w 27 4) true flmFmt) || !(flmDesc t (fld w 23 4) true flmFmt)))
  || (bit w 5 && !(flmDesc t (fld w 19 4) false (fun f => f = 0x10)))
  || (bit w 4 && !(flmDesc t (fld w 15 4) true (fun f => f = 0x10)))

/-- An instruction goes to its lane's context of the terrace, or is passed over while that context holds one (R238, R240). -/
def toLane (attn : Bool) (c : Ctx) (s : State) : Option State :=
  let fg := laneOf s c.tg
  if (laneAt s fg).failed || (laneAt s fg).ctxs.any (fun x => x.tg = c.tg) then none
  else some (updLane s fg (fun l =>
    let x : FCtx := { tg := c.tg, cmd := { thr := c.thr, w0 := c.w0, w1 := c.w1, th := c.t }, isAttn := attn }
    { l with ctxs := insBy (fun a b => decide (a.tg ≤ b.tg)) x l.ctxs, running := if l.ctxs.isEmpty then c.tg else l.running
             used := if l.ctxs.isEmpty then 0 else l.used }))

/-- The checks of FLM.ATTN at issue (R254, R375). -/
def attnFault (c : Ctx) (s : State) : Option Nat :=
  let w := c.w0
  let hB := c.t.hreg (fld w 11 4)
  if fld w 43 5 % 4 ≠ 0 || (!(bit w 6) && fld w 31 4 ≠ 0) || (!(bit w 5) && fld w 19 4 ≠ 0) || (!(bit w 4) && fld w 15 4 ≠ 0) then
    some fILLEGAL
  else if attnBad c.t w then some fDESCRIPTOR
  else if !(handleOk (terrace s c.tg) hB) || hMem hB = 0 then some fHANDLE
  else none

def execFlmAttn (i : Issue) (s : State) : Host.Outcome State Fault Refusal :=
  issue { maj := 9, min := 0x00 } i s (strict [(0, 3)] (checked attnFault (toLane true)))

/-- n of an FLM.MERGE. -/
def mergeN (w : W64) : Nat := fld w 27 4 + 1

def mergeBad (t : Thread) (w : W64) : Bool :=
  let i := descOf t (fld w 39 4)
  let o := descOf t (fld w 35 4)
  let l := descOf t (fld w 31 4)
  fld w 27 4 = 0
  || !(flmDesc t (fld w 39 4) false (fun f => f = 0x0E)) || !(flmDesc t (fld w 31 4) false (fun f => f = 0x0E))
  || !(flmDesc t (fld w 35 4) false (fun f => decide (f ≤ 0x0E)))
  || (scaled o.format && o.e0 % 32 ≠ 0) || o.e0 ≠ i.e0 || i.e2 < mergeN w || l.e1 < mergeN w || l.e0 < i.e1 || o.e1 < i.e1

/-- The checks of FLM.MERGE at issue (R258). -/
def mergeFault (c : Ctx) (_ : State) : Option Nat := if mergeBad c.t c.w0 then some fDESCRIPTOR else none

def execFlmMerge (i : Issue) (s : State) : Host.Outcome State Fault Refusal :=
  issue { maj := 9, min := 0x01 } i s (strict [(0, 7), (11, 16), (43, 5)] (checked mergeFault (toLane false)))

/-! ## Batch entries (Table 10-3, R247) -/

structure BEnt where
  seq : Nat
  nq : Nat
  kvbeg : Nat
  kvlen : Nat
  qpos0 : Nat
  qsame : Bool
  bad : Bool
  deriving DecidableEq, Repr

def BEnt.ofBytes (l : List PByte) : BEnt :=
  let at' (o : Nat) : Nat := leNat (((l.drop o).take 4).map (fun (b : PByte) => b.1))
  { seq := at' 0, nq := at' 4 % 2 ^ 17, kvbeg := at' 8, kvlen := at' 0xC, qpos0 := at' 0x10, qsame := at' 0x14 % 2 = 1
    bad := l.any (fun (b : PByte) => b.2) }

/-- The smallest power of two that is at least x. -/
def bkt (x : Nat) : Nat := if x ≤ 1 then 1 else 2 ^ (Nat.log2 (x - 1) + 1)

/-- Query tokens a lane generates, and its key blocks by first key. -/
def genTokens (express : Bool) (e : BEnt) : Nat := if express then e.nq else bkt e.nq
def genBlocks (express : Bool) (e : BEnt) : List Nat :=
  let stop := if express then roundUp e.kvlen 64 else e.kvbeg + max 64 (bkt (e.kvlen - e.kvbeg))
  (List.range ((stop - e.kvbeg + 63) / 64)).map (fun k => e.kvbeg + 64 * k)

/-! ## Reading keys and values -/

/-- A vector of values with the poison of the elements read for it, and the accesses made. -/
structure VRd where
  v : List Num
  bad : Bool
  accs : List Acc

/-- n elements of a format at an address of a space. -/
def readVec (s : State) (tg al space a fmt n : Nat) : VRd :=
  let rd := spRead s tg al space a (rowBytes (ebits fmt) n)
  let cs := codesOf (ebits fmt) n rd.data
  { v := cs.map (fun (c : Code) => decodeElem fmt c.1), bad := cs.any (fun (c : Code) => c.2), accs := rd.accs }

/-- What a lane has read of a sequence at the start of an entry (R277). -/
structure PSeq where
  cb : Cb
  q : Nat
  rec' : CSeq
  pl : CPool

/-- The sequence of an entry of a control block, when the item may read it. -/
def pagedSeqAt (s : State) (tag q need dh : Nat) (b : Option Cb) : Option PSeq :=
  match b with
  | none => none
  | some c =>
    let x := c.seq s q
    let pl := c.pool x.pool
    if c.nseq ≤ q || x.state ≠ 1 || x.holder ≠ tag || pl.dh ≠ dh || pl.hkv < need then none
    else some { cb := c, q, rec' := x, pl }

def pagedSeq (s : State) (al tag q need : Nat) (dh : Nat) : Option PSeq := pagedSeqAt s tag q need dh (cbOf s al)

/-- Where an image of P tokens that holds token k lies; none past the staging slot or where an entry has no copy. -/
def PSeq.image (x : PSeq) (s : State) (k : Nat) : Option Nat :=
  let i := k / x.pl.p
  if i < x.rec'.pages then x.cb.entryAddr s x.rec'.pool (x.cb.pte s x.q i)
  else if i = x.rec'.pages && x.rec'.stage ≠ emptyIdx then some (x.cb.stgAddr s x.rec'.stage) else none

/-- A row of a page image: the key (0) or value (1) row of a head, or the latent row of a group. -/
def PSeq.row (x : PSeq) (s : State) (tg : Nat) (k part : Nat) (value : Bool) : VRd :=
  let fmt := if value then x.pl.fmtV else x.pl.fmtK
  let n := if x.pl.latent then x.pl.rl else x.pl.dh
  match x.image s k with
  | none => { v := List.replicate n .zero, bad := true, accs := [] }
  | some a =>
    let r := (x.pl.rows x.pl.p (k % x.pl.p)).getD (if x.pl.latent then part else 2 * part + value.toNat) (0, 0)
    readVec s tg x.cb.al 0 (a + r.1) fmt n

/-- Sums of 16 consecutive products, exact within a group, added in ascending order in FP32 from +0. -/
def dot16 (a b : List Num) : Num :=
  (chunks 16 (a.zip b)).foldl (fun acc g => f32 (rne32 (Num.add acc (Num.sum (g.map (fun p => Num.mul p.1 p.2)))))) .zero

/-- The expansion of a latent vector for a head (R250): its keys (0) or values (1). -/
def expand (s : State) (tg al : Nat) (k : AttnCtl) (pl : CPool) (lat : VRd) (head : Nat) (value : Bool) : VRd × Bool :=
  let pitch := roundUp (rowBytes (ebits k.xfmt) pl.dh) 64
  let base := k.xoff + (2 * head + value.toNat) * pl.rl * pitch
  let rows := (List.range pl.rl).map (fun j => readVec s tg al 1 (base + j * pitch) k.xfmt pl.dh)
  let out := (List.range pl.dh).map (fun d =>
    encodeElem pl.fmtV .rne true (dot16 lat.v (rows.map (fun r => r.v.getD d .zero))))
  ({ v := out.map (fun e => decodeElem pl.fmtV e.code), bad := lat.bad || rows.any (fun r => r.bad)
     accs := lat.accs ++ rows.flatMap (fun r => r.accs) }, out.any (fun e => e.ovf))

/-- Rotation of a vector at a position (R249): the new values in the operand's format, whether one overflowed, poison and accesses
of the rotary entry. -/
def rotate (s : State) (tg al : Nat) (k : AttnCtl) (fmt p : Nat) (v : VRd) : VRd × Bool :=
  let pitch := roundUp (k.rothalf * 8) 32
  let rd := vRead s (.terrace tg) al (k.rotAddr + p * pitch) (k.rothalf * 8)
  let word (o : Nat) : Num := f32 (BitVec.ofNat 32 (leNat (((rd.data.drop o).take 4).map (fun (b : PByte) => b.1))))
  let place (i : Nat) : Nat × Nat := if k.rpair then (i, i + k.dh / 2) else (2 * i, 2 * i + 1)
  let put (l : List Num) (i : Nat) (e : Enc) : List Num := l.set i (decodeElem fmt e.code)
  let (out, o) := (List.range k.rothalf).foldl (fun (st : List Num × Bool) i =>
    let (x, y) := place i
    let a := v.v.getD x .zero
    let b := v.v.getD y .zero
    let c := word (8 * i)
    let n := word (8 * i + 4)
    let e := encodeElem fmt .rne true (Num.add (Num.mul a c) (Num.mul b n).negate)
    let f := encodeElem fmt .rne true (Num.add (Num.mul a n) (Num.mul b c))
    (put (put st.1 x e) y f, st.2 || e.ovf || f.ovf)) (v.v, false)
  ({ v := out, bad := v.bad || rd.data.any (fun (b : PByte) => b.2), accs := v.accs ++ rd.accs }, o)

/-- A key with its value: position, segment, whether its tag was poisoned, and both vectors. -/
structure Key where
  idx : Nat
  pos : Nat
  seg : Nat
  k : List Num
  v : List Num
  bad : Bool
  accs : List Acc
  ovf : Bool

/-- A tag of code 0x10 (Table 10-1). -/
def readTag (s : State) (tg al : Nat) (x : Desc) (row col : Nat) : Nat × Nat × Bool × List Acc :=
  let rd := spRead s tg al x.space (x.rowAddr row + 4 * col) 4
  let v := leNat (rd.data.map (fun (b : PByte) => b.1))
  (v / 2 ^ 8, v % 2 ^ 8, rd.data.any (fun (b : PByte) => b.2), rd.accs)

/-- Read key k of an entry for head h of the instruction. -/
def readKey (s : State) (tg al : Nat) (c : Cmd) (k : AttnCtl) (ps : Option PSeq) (row h i : Nat) : Key :=
  let w := c.w0
  let head := k.hk0 + h
  let (kv, kf, vv, o) : VRd × Nat × VRd × Bool :=
    match ps with
    | some x =>
      if x.pl.latent then
        let lat := x.row s tg i (head / (x.pl.hkv / x.pl.ng)) false
        let (a, oa) := expand s tg al k x.pl lat head false
        let (b, ob) := expand s tg al k x.pl lat head true
        (a, x.pl.fmtV, b, oa || ob)
      else (x.row s tg i head false, x.pl.fmtK, x.row s tg i head true, false)
    | none =>
      let dk := descOf c.th (fld w 27 4)
      let dv := descOf c.th (fld w 23 4)
      let at' (d : Desc) : Nat := d.base + i * d.stride1 + row * d.stride2 + head * d.stride3
      (readVec s tg al dk.space (at' dk) dk.format k.dh, dk.format, readVec s tg al dv.space (at' dv) dv.format k.dh, false)
  let (pos, seg, tbad, taccs) :=
    if !k.paged && bit w 4 then readTag s tg al (descOf c.th (fld w 15 4)) row i else (i, 1, false, [])
  let (kv, o2) := if k.rotk && k.rothalf ≠ 0 then rotate s tg al k kf pos kv else (kv, false)
  { idx := i, pos, seg, k := kv.v, v := vv.v, bad := kv.bad || vv.bad || tbad, accs := kv.accs ++ vv.accs ++ taccs, ovf := o || o2 }

/-! ## One query row (R248, R251, R252) -/

/-- A query row: token, position, segment, values and poison. -/
structure QRow where
  pos : Nat
  seg : Nat
  q : List Num
  bad : Bool

/-- May a query row attend to a key? pos and seg as R248 fixes them. -/
def allowed (k : AttnCtl) (e : BEnt) (q : QRow) (x : Key) : Bool :=
  decide (e.kvbeg ≤ x.idx) && decide (x.idx < e.kvlen) && (!k.seg || (q.seg == x.seg && q.seg != 0))
  && (!k.causal || decide (x.pos ≤ q.pos))
  && (k.window = 0 || decide ((q.pos : Int) - x.pos < k.window))

/-- The state of a row's pass. -/
structure Pass where
  m : W32
  l : W32
  o : List W32
  nan : Bool
  bad : Bool

def negInf32 : W32 := rne32 (.inf true)

/-- One block of keys; p is rounded to the format pf (R243). A masked key has p = +0 in the sums of its group. -/
def passBlock (k : AttnCtl) (e : BEnt) (pf : Nat) (q : QRow) (keys : List Key) (st : Pass) : Pass :=
  let sc := keys.map (fun x =>
    let ok := allowed k e q x
    (x, ok, if ok then f32mul (rne32 (dot16 q.q x.k)) k.smscale else negInf32))
  let bad := st.bad || sc.any (fun t => t.2.1 && t.1.bad)
  if st.nan || sc.any (fun t => t.2.1 && ((f32 t.2.2).isNan || f32 t.2.2 == .inf false)) then { st with nan := true, bad }
  else
    let mnew := sc.foldl (fun m t => if Num.lt (f32 m) (f32 t.2.2) then t.2.2 else m) st.m
    if f32 mnew == .inf true then { st with bad }
    else
      let sub (a : W32) : W32 := rne32 (Num.add (f32 a) (f32 mnew).negate)
      let a := if f32 st.m == .inf true then (0 : W32) else exp32 (sub st.m)
      let ps := sc.map (fun t =>
        (t.1, t.2.1, if f32 t.2.2 == .inf true then Num.zero
          else decodeElem pf (encodeElem pf .rne true (f32 (exp32 (sub t.2.2)))).code))
      let l := ps.foldl (fun l t => rne32 (Num.add (f32 l) t.2.2)) (f32mul st.l a)
      let o := st.o.zipIdx.map (fun (x, d) =>
        (chunks 16 ps).foldl (fun x g =>
          rne32 (Num.add (f32 x) (Num.sum (g.map (fun t => Num.mul t.2.2 (t.1.v.getD d .zero))))))
          (f32mul x a))
      { st with m := mnew, l, o, bad }

/-- The results of a row: outputs, log-sum-exp, poison, and INV. -/
structure RowOut where
  out : List W32
  lse : W32
  bad : Bool
  inv : Bool

def zeroOut (dh : Nat) : RowOut := { out := List.replicate dh 0, lse := negInf32, bad := false, inv := false }

def rowResult (dh : Nat) (q : QRow) (st : Pass) : RowOut :=
  let bad := st.bad || q.bad
  if st.nan then { out := List.replicate dh (rne32 .nan), lse := rne32 .nan, bad, inv := true }
  else if (f32 st.l).isZero then { zeroOut dh with bad }
  else { out := st.o.map (fun x => f32div x st.l), lse := rne32 (Num.add (f32 st.m) (f32 (ln32 st.l))), bad, inv := false }

/-! ## An instruction -/

/-- What an attention instruction has computed: rows to write, by (head, row); accesses; counts; flags. -/
structure AttnOut where
  rows : List (Nat × Nat × RowOut)
  accs : List Acc
  read : List Nat
  blocks : Nat
  pads : Nat
  ovf : Bool
  cisErr : Bool
  fault : Bool

/-- The pages of the blocks a lane has read, for the read notices of R272. -/
def pagesRead (x : PSeq) (blocks : List Nat) : List (Nat × Nat × Nat) :=
  (distinct ((blocks.flatMap (fun b => (List.range 64).map (fun i => (b + i) / x.pl.p))).filter (fun i => decide (i < x.rec'.pages)))).map
    (fun i => (x.cb.al, x.q, i))

/-- Read the query rows of an entry for a head: the rows from start, G to a token. -/
def readQueries (s : State) (tg al : Nat) (c : Cmd) (k : AttnCtl) (e : BEnt) (start tok h : Nat) : List (QRow × List Acc × Bool) :=
  let w := c.w0
  let dq := descOf c.th (fld w 39 4)
  (List.range (e.nq * k.g)).map (fun r =>
    let t := r / k.g
    let (pos, seg, tbad, ta) :=
      if !k.paged && bit w 5 then
        readTag s tg al (descOf c.th (fld w 19 4)) 0 (tok + t)
      else (if e.qsame then e.qpos0 else e.qpos0 + t, 1, false, [])
    let v := readVec s tg al dq.space (dq.rowAddr (h * dq.e1 + start + r)) dq.format k.dh
    let (v, o) := if k.rotq && k.rothalf ≠ 0 then rotate s tg al k dq.format pos v else (v, false)
    ({ pos, seg, q := v.v, bad := v.bad || tbad }, v.accs ++ ta, o))

/-- One entry for one head: every pass over its generated blocks (R248, R251). A block of which CAUSAL or WINDOW alone masks every
pair of a pass is skipped; one wholly at or beyond KVLEN makes no access, and when positions come from tags, which are then not read, it is not
skipped. DEDUCED: log 28. -/
def attnHead (s : State) (tg al : Nat) (c : Cmd) (k : AttnCtl) (ps : Option PSeq) (express : Bool) (e : BEnt)
    (start tok h : Nat) : AttnOut :=
  let qs := readQueries s tg al c k e start tok h
  let blocks := genBlocks express e
  let cap := 16384 / k.dh
  let gen := genTokens express e * k.g
  let pf := match ps with
    | some x => if flm8 x.pl.fmtV then 0x06 else 0x0C
    | none => if flm8 (descOf c.th (fld c.w0 23 4)).format then 0x06 else 0x0C
  let passes := (List.range ((gen + cap - 1) / cap)).map (fun n => (qs.drop (n * cap)).take cap)
  let masked (i : Nat) : Key := { idx := i, pos := i, seg := 0, k := [], v := [], bad := false, accs := [], ovf := false }
  let tagged := !k.paged && bit c.w0 4
  let res := passes.map (fun rows =>
    blocks.foldl (fun (st : List Pass × List Acc × Bool × List Nat) b =>
      let keys := if e.kvlen ≤ b then (List.range 64).map (fun i => masked (b + i))
        else (List.range 64).map (fun i => readKey s tg al c k ps e.seq h (b + i))
      let skip := (k.causal || k.window ≠ 0) && !(tagged && decide (e.kvlen ≤ b)) && rows.all (fun q => keys.all (fun x =>
        (k.causal && decide (q.1.pos < x.pos)) || (k.window ≠ 0 && decide ((k.window : Int) ≤ (q.1.pos : Int) - x.pos))))
      if skip then st
      else ((rows.zip st.1).map (fun p => passBlock k e pf p.1.1 keys p.2), st.2.1 ++ keys.flatMap (fun x => x.accs),
            st.2.2.1 || keys.any (fun x => x.ovf), if e.kvlen ≤ b then st.2.2.2 else st.2.2.2 ++ [b]))
      (rows.map (fun _ => { m := negInf32, l := 0, o := List.replicate k.dh 0, nan := false, bad := false }), [], false, []))
  let outs := (passes.zip res).flatMap (fun p => (p.1.zip p.2.1).map (fun r =>
    if r.1.1.seg = 0 then { zeroOut k.dh with bad := r.1.1.bad } else rowResult k.dh r.1.1 r.2))
  { rows := outs.zipIdx.map (fun (o, r) => (h, start + r, o)), accs := qs.flatMap (fun q => q.2.1) ++ res.flatMap (fun r => r.2.1)
    read := res.flatMap (fun r => r.2.2.2)
    blocks := blocks.length * passes.length, pads := (blocks.filter (fun b => decide (e.kvlen ≤ b))).length * passes.length
    ovf := qs.any (fun q => q.2.2) || res.any (fun r => r.2.2.1), cisErr := false, fault := false }

def AttnOut.join (a b : AttnOut) : AttnOut :=
  { rows := a.rows ++ b.rows, accs := a.accs ++ b.accs, read := a.read ++ b.read, blocks := a.blocks + b.blocks, pads := a.pads + b.pads
    ovf := a.ovf || b.ovf, cisErr := a.cisErr || b.cisErr, fault := a.fault || b.fault }

def AttnOut.none : AttnOut := { rows := [], accs := [], read := [], blocks := 0, pads := 0, ovf := false, cisErr := false, fault := false }

/-- What an instruction does at an agent: the read notices it sends, and the sequences it has read without one (R260, R272). -/
structure CisUse where
  notes : List (Nat × Nat × Nat) := []
  seqs : List Nat := []

/-- The use of a sequence of which blocks were read. -/
def PSeq.use (x : PSeq) (blocks : List Nat) : CisUse :=
  let notes := if x.cb.spill && x.cb.la ≠ 0 then pagesRead x blocks else []
  if !notes.isEmpty then { notes } else if blocks.isEmpty then {} else { seqs := [x.q] }

/-- One entry for every head. -/
def attnEntry (s : State) (tg : Nat) (c : Cmd) (k : AttnCtl) (al tag : Nat) (express : Bool) (e : BEnt) (start tok : Nat) :
    AttnOut × CisUse :=
  let w := c.w0
  let dq := descOf c.th (fld w 39 4)
  let do' := descOf c.th (fld w 35 4)
  let dk := descOf c.th (fld w 27 4)
  let fail : AttnOut := { AttnOut.none with fault := true }
  let last := start + e.nq * k.g
  if e.bad || e.nq = 0 || 65536 < e.nq || e.kvbeg % 64 ≠ 0 || dq.e1 < last || do'.e1 < last || dq.e2 < k.nh || do'.e2 < k.nh
      || (!k.paged && dk.e2 ≤ e.seq) then (fail, {})
  else
    let ps := if k.paged then pagedSeq s al tag e.seq (k.hk0 + k.nh) k.dh else none
    match k.paged, ps with
    | true, none =>
      ({ AttnOut.none with
          rows := (List.range k.nh).flatMap (fun h => (List.range (e.nq * k.g)).map (fun r => (h, start + r, zeroOut k.dh)))
          cisErr := true }, {})
    | _, _ =>
      let e := match ps with
        | some x => { e with kvlen := if e.kvlen = 0 then x.rec'.len else min e.kvlen x.rec'.len }
        | none => e
      let all := (List.range k.nh).foldl (fun a h => a.join (attnHead s tg al c k ps express e start tok h)) AttnOut.none
      match ps with
      | some x =>
        if !(flmFmt x.pl.fmtK) || !(flmFmt x.pl.fmtV) || (x.pl.latent && !(flmFmt k.xfmt)) then (fail, {}) else (all, x.use all.read)
      | none => (all, {})

/-- The batch list of an instruction. -/
def batchList (s : State) (tg : Nat) (c : Cmd) (k : AttnCtl) : List BEnt :=
  let h := c.th.hreg (fld c.w0 11 4)
  let bs := (readRegion s tg h (32 * k.nent)).data
  (List.range k.nent).map (fun i => BEnt.ofBytes ((bs.drop (32 * i)).take 32))

/-- Everything an FLM.ATTN reads and computes: the lane checks an entry when it reaches it, and goes no further past one that faults
(R254). DEDUCED: log 28. -/
def attnAll (s : State) (tg : Nat) (c : Cmd) : AttnOut × CisUse :=
  match runOfT s tg with
  | none => (AttnOut.none, {})
  | some (_, r) =>
    let k := AttnCtl.of c.th c.w0
    let express := allotClass s r.allot = 2
    let res := (batchList s tg c k).foldl (fun (st : AttnOut × CisUse × Nat × Nat) e =>
      if st.1.fault then st
      else
        let (o, u) := attnEntry s tg c k r.allot r.tag express e st.2.2.1 st.2.2.2
        (st.1.join o, { notes := st.2.1.notes ++ u.notes, seqs := st.2.1.seqs ++ u.seqs }, st.2.2.1 + e.nq * k.g, st.2.2.2 + e.nq))
      (AttnOut.none, {}, 0, 0)
    (res.1, res.2.1)

/-- Write the rows of an instruction to dO, and their log-sum-exps to dL (R251, R253). -/
def attnWrite (s : State) (tg al : Nat) (c : Cmd) (o : AttnOut) : Put :=
  let dO := descOf c.th (fld c.w0 35 4)
  let dL := descOf c.th (fld c.w0 31 4)
  o.rows.foldl (fun (p : Put) (e : Nat × Nat × RowOut) =>
    let (h, r, x) := e
    let mr := h * dO.e1 + r
    let (row, a, b) := encodeRow dO.format dO (mr * dO.e0) (x.out.map (fun v => (f32 v, x.bad)))
    let p := putRow p tg al dO mr row
    let p := if bit c.w0 6 then
        p.write tg al dL.space (dL.rowAddr h + 4 * r) ((leBytes 4 x.lse.toNat).map (fun (v : Byte) => ((v, x.bad) : PByte)))
      else p
    { p with ovf := p.ovf || a, inv := p.inv || b || x.inv }) { s, accs := [], ovf := o.ovf }

/-- Combine partials (R253). A poisoned element or LSE of any partial poisons the whole output row. DESIGN CHOICE: log 73. -/
def mergeRow (n : Nat) (o : Nat → List (Num × Bool)) (lse : Nat → Num × Bool) (dh : Nat) : RowOut :=
  let ls := (List.range n).map lse
  let bad := ls.any (fun l => l.2) || (List.range n).any (fun i => (o i).any (fun v => v.2))
  let m0 := ls.foldl (fun m l => Num.max m l.1) (.inf true)
  if ls.all (fun l => l.1 == .inf true) then { zeroOut dh with bad }
  else
    let ws := ls.map (fun l => if l.1 == .inf true then (0 : W32) else exp32 (rne32 (Num.add l.1 m0.negate)))
    let den := ws.foldl (fun t w => f32add t w) 0
    let out := (List.range dh).map (fun d =>
      let num := ws.zipIdx.foldl (fun t (w, i) => rne32 (Num.add (f32 t) (Num.mul (f32 w) ((o i).getD d (.zero, false)).1))) (0 : W32)
      f32div num den)
    { out, lse := 0, bad, inv := false }

def mergeAll (s : State) (tg al : Nat) (c : Cmd) : Put :=
  let w := c.w0
  let di := descOf c.th (fld w 39 4)
  let dO := descOf c.th (fld w 35 4)
  let dL := descOf c.th (fld w 31 4)
  let n := mergeN w
  (List.range di.e1).foldl (fun (p : Put) r =>
    let rows := (List.range n).map (fun i => (readRow s tg al di (i * di.e1 + r), readVec s tg al dL.space (dL.rowAddr i + 4 * r) 0x0E 1))
    let p := { p with accs := p.accs ++ rows.flatMap (fun x => x.1.2 ++ x.2.accs) }
    let vals := rows.map (fun x => (Row.values di.format x.1.1 di.e0, (x.2.v.headD .zero, x.2.bad)))
    let o (i : Nat) : List (Num × Bool) := (vals.getD i ([], (.zero, false))).1
    let lse (i : Nat) : Num × Bool := (vals.getD i ([], (.zero, false))).2
    let x := mergeRow n o lse di.e0
    let (row, a, b) := encodeRow dO.format dO (r * dO.e0) (x.out.map (fun v => (f32 v, x.bad)))
    let p := putRow p tg al dO r row
    { p with ovf := p.ovf || a, inv := p.inv || b }) { s, accs := [] }

/-- The lane drops a context: another one runs next, if it holds one (R238). -/
def dropCtx (l : FLane) (tg : Nat) : FLane := l.keep (fun k => k ≠ tg)

/-- A context ends: the lane drops it, its semaphore is signalled, and REL frees its batch list (R239, R240). -/
def endCtx (s : State) (fg : Nat) (x : FCtx) : State :=
  let tg := x.tg
  let c := x.cmd
  let s := updLane s fg (fun l => dropCtx l tg)
  let s := satAdd s (laneBase fg) 0 0 16 1
  let ls := fld c.w0 7 4
  let s := updTerrace s tg (fun t => { t with sema := mset t.sema ls (mget t.sema ls 0 + 1) })
  if x.isAttn && bit c.w0 3 then freeHandle s tg c.thr c.th.pc.toNat (c.th.hreg (fld c.w0 11 4)) else s

/-- Does a paged instruction wait for the scan of its control block (R274)? -/
def waitsScan (s : State) (al : Nat) (c : Cmd) (agent : Option Nat) : Bool :=
  match agent with
  | some n => (AttnCtl.of c.th c.w0).paged && (saddle s n).cisScan.contains al
  | none => false

/-- A read of sequences is noted in their LAST_USE. -/
def noteReads (s : State) (b : Option Cb) (seqs : List Nat) : State :=
  match b with
  | some c => (distinct seqs).foldl (fun s q => c.setSeq s q (c.used s (c.seq s q))) s
  | none => s

/-- The read notices of an instruction go to the agent (R272); a read without one is in LAST_USE at once (R260). -/
def giveNotes (s : State) (al : Nat) (u : CisUse) (agent : Option Nat) : State :=
  let s := if u.seqs.isEmpty then s else noteReads s (cbOf s al) u.seqs
  match agent with
  | some n => if u.notes.isEmpty then s else updSaddle s n (fun d => { d with cisNotes := d.cisNotes ++ u.notes })
  | none => s

/-- What an FLM.ATTN leaves once everything it reads is there: an entry that faults stops the item, after the outputs of the entries
before it. -/
def attnDone (s : State) (fg : Nat) (x : FCtx) (o : AttnOut) (u : CisUse) : State :=
  let tg := x.tg
  let c := x.cmd
  let al := allotOf s tg
  let s := logUnit (performed s tg o.accs) tg o.accs
  let s := ctrAdd s (laneBase fg + 4) o.blocks
  let s := satAdd s (laneBase fg + 0xC) 0 0 32 o.pads
  let s := match slotOf s tg with
    | some k => if o.cisErr then runErr s k 9 else s
    | none => s
  let s := giveNotes s al u (cisAgent s al)
  let p := attnWrite s tg al c o
  let s := tagThread (flagT (performed (p.sent tg al) tg p.accs) tg p.ovf p.inv) tg c.thr
  if o.fault then stageFault (updLane s fg (fun l => dropCtx l tg)) tg c fDESCRIPTOR else endCtx s fg x

/-- Complete an FLM.ATTN, or wait for data that is still to come. -/
def attnComplete (s : State) (fg : Nat) (x : FCtx) (r : AttnOut × CisUse) : State :=
  let al := allotOf s x.tg
  if waitsScan s al x.cmd (cisAgent s al) then s
  else
    let missing := atsMissing (r.1.accs ++ (attnWrite s x.tg al x.cmd r.1).accs)
    if missing ≠ [] then tagThread (atsAsk s (.terrace x.tg) al missing) x.tg x.cmd.thr else attnDone s fg x r.1 r.2

/-- Complete an FLM.MERGE, or wait for data that is still to come. -/
def mergeComplete (s : State) (fg : Nat) (x : FCtx) : State :=
  let p := mergeAll s x.tg (allotOf s x.tg) x.cmd
  if atsMissing p.accs ≠ [] then tagThread (atsAsk s (.terrace x.tg) (allotOf s x.tg) (atsMissing p.accs)) x.tg x.cmd.thr
  else endCtx (tagThread (flagT (performed (p.sent x.tg (allotOf s x.tg)) x.tg p.accs) x.tg p.ovf p.inv) x.tg x.cmd.thr) fg x

/-- The running context of a lane completes: its outputs are written, its semaphore is signalled, and its registers are cleared (R239,
R240). It waits for data that is still to come. DEDUCED: log 28. -/
def execFlmComplete (lane : Fin 32) (s : State) : Host.Outcome State Fault Refusal :=
  let fg := lane.val
  let l := laneAt s fg
  match l.ctxs.find? (fun x => x.tg = l.running) with
  | none => .next s
  | some x => .next (if x.isAttn then attnComplete s fg x (attnAll s x.tg x.cmd) else mergeComplete s fg x)

/-- The lane switches to its next context, in ascending TG order (R238). -/
def execFlmContextSwitch (lane : Fin 32) (s : State) : Host.Outcome State Fault Refusal :=
  let fg := lane.val
  let l := laneAt s fg
  if l.ctxs.length < 2 then .next s
  else
    let next := match l.ctxs.find? (fun x => decide (l.running < x.tg)) with
      | some x => x.tg
      | none => (l.ctxs.map (fun x => x.tg)).headD 0
    .next (updLane s fg (fun l => { l with running := next, used := 0 }))

end Sys2Proof.Machine
end

