-- ==== Sys2Proof/Machine/Lanes.lean ====
section
/-! DEFINITION. The regulators of the Flume lanes and of the ridge rails (10 R241, 17 R458, R461, R462). -/

namespace Sys2Proof.Machine

/-! ## Lanes (R241) -/

/-- The voltage of a lane's target in mV: it holds that of Table 17-4. -/
def FLane.goal (l : FLane) : Nat := opTypical.getD l.target 800

/-- Does a lane's voltage move: for the time its distance takes at 5 mV a microsecond, and 2 µs more (R461)? -/
def FLane.slewing (l : FLane) (ns : Nat) : Bool :=
  l.mv ≠ l.goal && decide (ns < l.slewAt + 200 * ((l.goal - l.mv) + (l.mv - l.goal)) + 2000)

/-- The voltage of a lane now. -/
def laneMv (s : State) (l : FLane) : Nat := if l.slewing s.clockNs then mvAt l.mv l.goal (s.clockNs - l.slewAt) else l.goal

/-- The operating point a Flume lane runs at. -/
def flmOp (s : State) (fg : Nat) : Nat :=
  let l := laneAt s fg
  if l.slewing s.clockNs then pointAt opTypical l.target (laneMv s l) else l.target

/-- The issue duty of a Flume lane, in sixteenths: that of the terrace whose context is running, and none while it is idle. During a slew it is no higher
than the duty at the point left (R461). -/
def flmDuty (s : State) (fg : Nat) : Option Nat :=
  let l := laneAt s fg
  if l.ctxs.isEmpty then none
  else some (if l.slewing s.clockNs then min l.prevDuty (dutyNow s l.running) else dutyNow s l.running)

/-- The point a lane goes to: the highest among the awake terraces it serves, below its own thermal ceiling. DEDUCED: log 56. -/
def lanePoint (s : State) (fg : Nat) : Nat :=
  min (laneAt s fg).ceil
    ((((laneTerraces s fg).filter (fun tg => (terrace s tg).pstate == .awake)).map (fun tg => (terrace s tg).target)).foldl max 0)

/-- A lane follows a change of its point from its present voltage (R462). -/
def followLane (s : State) (fg : Nat) : State :=
  let n := lanePoint s fg
  let l := laneAt s fg
  if l.pstate ≠ .awake || n = l.target then s
  else updLane s fg (fun l => { l with mv := laneMv s l, slewAt := s.clockNs, target := n, prevDuty := (flmDuty s fg).getD 16 })

/-! ## Ridge rails (R458) -/

/-- The voltage of a ridge rail in mV: 40 mV above the highest that a terrace of the ridge is at or slewing toward. -/
def ridgeMv (s : State) (r : Nat) : Nat :=
  ((List.range 4).map (fun k =>
    let t := terrace s (4 * r + k)
    max (mvNow s t) (t.opMv t.target))).foldl max 0 + 40

def holdRail (s : State) (r : Nat) : State := { s with rails := mupd s.rails (4 + r) {} (fun x => { x with held := ridgeMv s r }) }

/-- The lanes and the rail of a ridge follow its terraces. -/
def followRidge (s : State) (r : Nat) : State := holdRail (followLane (followLane s (2 * r)) (2 * r + 1)) r

def followRidges (s : State) : State := (List.range 16).foldl followRidge s

end Sys2Proof.Machine
end

