-- ==== Sys2Proof/Machine/Weir.lean ====
section
/-! DEFINITION. Translation registers, invalidation and the fault log (12 R324 to R331), the Weir's buckets (R333 to R335), and
reservations (R336 to R341). -/

namespace Sys2Proof.Machine

/-! ## Translation registers (R328) -/

def xltBase (a : Nat) : Nat := 0x100000 + 0x10 * a

/-- XLT_ROOT_LOa and XLT_ROOT_HIa hold while translation is enabled. -/
def execXltRootWrite (r : Requester) (allot : Fin 1024) (hi : Bool) (v : W32) (s : State) : Host.Outcome State Fault Refusal :=
  let off := xltBase allot.val + (if hi then 4 else 0)
  .next (pfWrite s r off v.toNat (fun s =>
    if bit (rg s (xltBase allot.val + 8) 0) 31 then logDropped s off v.toNat
    else setRg s off (v &&& (if hi then 0xFFFFFF#32 else 0xFFFF0000#32))))

/-! ## Invalidation (R329) -/

/-- Does a cached translation overlap an invalidation's scope? -/
def inScope (i : Inval) (t : Tlb) : Bool :=
  match i.scope with
  | 0 => t.allot == i.allot && decide (t.va * 2 ^ t.size < i.va + i.len) && decide (i.va < (t.va + 1) * 2 ^ t.size)
  | 1 => t.allot == i.allot
  | _ => true

/-- Drop every cached translation, pin and ATS entry in the scope. An ATS entry has no virtual address, so a range drops those of its
allotment. -/
def dropCached (s : State) (i : Inval) : State :=
  let keep (l : List Tlb) : List Tlb := l.filter (fun t => !(inScope i t))
  let ai : Inval := { i with scope := if i.scope = 0 then 1 else i.scope }
  { s with
    terraces := s.terraces.map (fun e => (e.1, { e.2 with tlb := keep e.2.tlb, pins := e.2.pins.map (fun p => (p.1, keep p.2)) }))
    saddles := s.saddles.map (fun e => (e.1, { e.2 with stlb := keep e.2.stlb }))
    ats := s.ats.map (fun e => (e.1, e.2.filter (fun t => !(inScope ai t)))) }

/-- Is the translation that a request of an allotment used in the scope? -/
def usedIn (i : Inval) (al va len : Nat) : Bool :=
  match i.scope with
  | 0 => al == i.allot && decide (va < i.va + i.len) && decide (i.va < va + len)
  | 1 => al == i.allot
  | _ => true

/-- Mark the requests under way that used a dropped translation: the invalidation waits for them (R329). -/
def markOld (s : State) (i : Inval) : State :=
  { s with
    hostReqs := s.hostReqs.map (fun q => if usedIn i q.allot q.va (32 * q.secs.length) then { q with old := true } else q)
    skvReqs := s.skvReqs.map (fun q => if usedIn i q.allot q.va q.len then { q with old := true } else q)
    saddles := s.saddles.map (fun e => (e.1, { e.2 with vc2 := e.2.vc2.map (fun c => match c.recVa with
      | some v => if usedIn i c.allot c.tileVa 4096 || usedIn i c.allot v 64 then { c with old := true } else c
      | none => c) })) }

/-- Start an invalidation. -/
def beginInval (s : State) (i : Inval) : State := { markOld (dropCached s i) i with inv := some i }

/-- An invalidation that comes while another runs drops its entries at once, and completes after it (R328). DEDUCED: log 32. -/
def queueInval (s : State) (i : Inval) : State := { dropCached s i with invQ := s.invQ ++ [i] }

/-- XLT_CTXa: clearing EN invalidates the whole allotment (R328); one invalidation runs at a time. -/
def execXltCtxWrite (r : Requester) (allot : Fin 1024) (v : W32) (s : State) : Host.Outcome State Fault Refusal :=
  let off := xltBase allot.val + 8
  .next (pfWrite s r off v.toNat (fun s =>
    let was := bit (rg s off 0) 31
    let s := setRg s off (v &&& 0xC0000000#32)
    let i : Inval := { scope := 1, allot := allot.val, va := 0, len := 0 }
    if was && !(bit v 31) then (if s.inv.isSome then queueInval s i else beginInval s i) else s))

/-- XLT_INV_CMD: START begins an invalidation; one written while BUSY, or with the reserved SCOPE, is dropped and logged. -/
def execXltInvalidate (r : Requester) (v : W32) (s : State) : Host.Outcome State Fault Refusal :=
  .next (pfWrite s r 0x110008 v.toNat (fun s =>
    if (bit v 30 && s.inv.isSome) || fld v 28 2 = 3 then logDropped s 0x110008 v.toNat
    else
      let s := setRg s 0x110008 (v &&& 0x33FFFFFF#32)
      if bit v 30 then
        beginInval s { scope := fld v 28 2, allot := fld v 16 10
                       va := fld (rg s 0x110000 0) 16 16 * 2 ^ 16 + fld (rg s 0x110004 0) 0 20 * 2 ^ 32
                       len := (fld v 0 16 + 1) * 65536 }
      else s))

/-- Are the accesses translated through dropped entries all performed or dropped (R329)? -/
def oldDone (s : State) : Bool :=
  s.hostReqs.all (fun q => !q.old) && s.skvReqs.all (fun q => !q.old) && s.saddles.all (fun e => e.2.vc2.all (fun c => !c.old))

/-- The accesses of the dropped entries are done: COUNT rises, and BUSY clears unless another invalidation has come meanwhile. -/
def execXltInvDone (s : State) : Host.Outcome State Fault Refusal :=
  if s.inv.isNone || !(oldDone s) then .next s
  else
    let s := setRg { s with inv := none } 0x11000C (rg s 0x11000C 0 + 1)
    match s.invQ with
    | [] => .next s
    | i :: rest => .next (beginInval { s with invQ := rest } i)

/-! ## The fault log (R331) -/

/-- XLT_FLOG_INFO of a record. -/
def flogInfo (r : XRec) : W32 :=
  setFld (setFld (setFld (setFld (setFld (setFld (0 : W32) 31 1 1) 28 3 r.kind) 26 2 r.acc) 16 10 r.allot) 9 7 r.src) 0 9 r.count

/-- What a read of a register returns to its reader. -/
def answerRead (s : State) (v : W32) : State := emit s (.data (leBytes 4 v.toNat) false)

/-- A read of XLT_FLOG_INFO returns the head record's word and removes the record. -/
def execXltFlogPop (r : Requester) (s : State) : Host.Outcome State Fault Refusal :=
  match r with
  | .vf _ _ => .next s
  | _ =>
    if !(regsUp s) then .next (if s.mode = .boot then answerRead s 0 else s)
    else match s.flog with
      | [] => .next (answerRead s 0)
      | x :: rest => .next (answerRead { s with flog := rest } (flogInfo x))

/-! ## ATS (R324) -/

/-- Finish the invalidations of a Headwork's ATS entries whose requests have completed. DEDUCED: log 32. -/
def finishAts (s : State) : State :=
  let done (p : Nat × Nat × List Nat) : Bool := p.2.2.all (fun sec => !(s.hostReqs.any (fun q => q.hd = p.1 && q.secs.contains sec)))
  let s' := { s with atsPend := s.atsPend.filter (fun p => !(done p)) }
  (s.atsPend.filter done).foldl (fun s p => emit s (.atsDone p.1 p.2.1)) s'

/-- An ATS Invalidate Request drops the entries it covers, and completes when every request that used one has completed; a port holds 32 of them
(Table 14-1), and one more has to wait outside. DEDUCED: log 32. -/
def execAtsInvalidate (hd : Fin 2) (addr len : Nat) (s : State) : Host.Outcome State Fault Refusal :=
  let l := mget s.ats hd.val []
  let hit (t : Tlb) : Bool := decide (t.va * 65536 < addr + len) && decide (addr < (t.va + 1) * 65536)
  let gone := l.filter hit
  let used := ((s.hostReqs.filter (fun q => q.hd = hd.val)).flatMap (fun q => q.secs)).filter (fun sec => gone.any (fun t =>
    decide (hostBase + t.pa ≤ sec) && decide (sec < hostBase + t.pa + 65536)))
  if 32 ≤ (s.atsPend.filter (fun p => p.1 = hd.val)).length then .next s
  else .next (finishAts { s with
    ats := mset s.ats hd.val (l.filter (fun t => !(hit t))), atsPend := s.atsPend ++ [(hd.val, addr, used)] })

/-- Deliver the sectors of a host-window read that were asked for. DESIGN CHOICE: log 33. -/
def hostData (s : State) (hd addr : Nat) (bytes : List Byte) (bad : Bool) : State :=
  (sectorParts addr bytes.length).foldl (fun s p =>
    let a := hostBase + addr + p.1
    let sec := a / 32 * 32
    let mine (q : HostReq) : Bool := q.hd = hd && q.secs.contains sec
    if s.hostReqs.any mine then
      { s with
        host := s.host.writeSector (a - hostBase) (((bytes.drop p.1).take p.2).map (fun (b : Byte) => ((b, bad) : PByte)))
        hostReqs := (s.hostReqs.map (fun q => if mine q then { q with secs := q.secs.erase sec } else q)).filter (fun q => !q.secs.isEmpty)
        got := setIns s.got (a / 32) }
    else s) s

/-- A PCIe completion: the data of a read, poisoned when the completion is poisoned or in error (Table 11-7), or the answer to an ATS
request, which the Headwork's cache of 4,096 entries takes; an item that waited for it starts. DESIGN CHOICE: log 33. -/
def execHostWindowCompletion (hd : Fin 2) (c : HostCpl) (s : State) : Host.Outcome State Fault Refusal :=
  match c with
  | .read addr bytes bad => .next (retryStarts (retryStores (finishAts (hostData s hd.val addr.toNat bytes bad))))
  | .ats allot page answer =>
    let q := (hd.val, allot.val, page.toNat)
    if !(s.atsWant.contains q) then .next s
    else
      let t : Tlb := match answer with
        | some a => { allot := allot.val, va := page.toNat, size := 16, pa := a.toNat * 65536, perm := 7 }
        | none => { allot := allot.val, va := page.toNat, size := 16, pa := 0, perm := 0 }
      .next (retryStarts (retryStores { s with
        atsWant := s.atsWant.erase q
        ats := mset s.ats hd.val (keepLast 4096 (mget s.ats hd.val [] ++ [t])) }))

/-! ## Buckets (R333 to R335) -/

/-- Add the tokens of 64 ns to a bucket. -/
def fill (tok rate depth : Int) : Int := min depth (tok + rate)

def wRate (w : W32) : Int := (fld w 0 16 * 64 : Nat)
def wDepth (w : W32) : Int := (fld w 16 15 * 1024 : Nat)

/-- The terraces that share an allotment's bucket, ascending. -/
def sharers (s : State) (al : Nat) : List Nat :=
  distinct ((s.runs.filter (fun e => e.2.allot = al)).flatMap (fun e => e.2.tgs))

/-- Share i of n of an amount: the remainder goes to the lowest TG. -/
def shareOf (total : Int) (n i : Nat) : Int := total / n + (if i = 0 then total % n else 0)

/-- Divide an allotment's tokens again among the terraces that share it (R335). -/
def redivideOne (s : State) (al : Nat) : State :=
  let ts := sharers s al
  if ts.isEmpty then s
  else
    let mine := s.shares.filter (fun e => e.1 / 64 = al)
    let total := (mine.map (fun e => e.2)).sum
    let rest := s.shares.filter (fun e => e.1 / 64 ≠ al)
    { s with shares := ts.zipIdx.foldl (fun m (tg, i) => mset m (al * 64 + tg) (shareOf total ts.length i)) rest }

/-- The refill of an allotment's shares. -/
def refillShares (s : State) (al : Nat) : State :=
  let w := rg s (0x120000 + 8 * al) weirReset
  let ts := sharers s al
  { s with shares := ts.zipIdx.foldl (fun m (tg, i) =>
      let k := al * 64 + tg
      mset m k (fill (mget m k 0) (shareOf (wRate w) ts.length i) (shareOf (wDepth w) ts.length i))) s.shares }

/-- The amount of a reservation on resource 0 to 5: G0 read, G0 write, G1 read, G1 write, far read, far write (R336). -/
def Rsv.amount (r : Rsv) (i : Nat) : Nat :=
  match i with
  | 0 => r.g0r
  | 1 => r.g0w
  | 2 => r.g1r
  | 3 => r.g1w
  | 4 => r.fr
  | _ => r.fw

/-- The streams of every terrace whose requests wait on a bucket make them, in order of their contexts (R333). -/
def admitWaiting (s : State) : State :=
  s.terraces.foldl (fun s e =>
    ((e.2.execs.filter (fun x => !x.2.owed.isEmpty)).map (fun x => x.1)).foldl (fun s u => passOwed s e.1 u) s) s

/-- Sluice-island cycles of a terrace in 64 ns. DESIGN CHOICE: log 78. -/
def cycles64 (s : State) (t : Terrace) : Nat := 64 * terraceFreq s t / 10000

/-- WEIR_TWAIT of the terraces where a request waited on a bucket since the last refill. -/
def countWaits (s : State) : State :=
  s.terraces.foldl (fun s e =>
    if e.2.execs.any (fun x => !x.2.owed.isEmpty) then satAdd s (tBase e.1 + 0x1708) 0 0 32 (cycles64 s e.2) else s) s

/-! ## Deliverable bandwidth (R297, R313) -/

/-- The lowest derating of a group's working stacks, in hundredths (Table 11-4). -/
def derating (s : State) (g : Nat) : Nat :=
  ((List.range 6).filter (fun k => !(stackOf s (6 * g + k)).failed)).foldl (fun d k =>
    min d (match (stackOf s (6 * g + k)).stage with
      | .normal => 100
      | .warm => 95
      | .hot => 50
      | .critical => 25)) 100

/-- DR and DW of a group in GB/s (Table 11-3), derated by heat and by the memory rung (R469). -/
def deliv (s : State) (g : Nat) : Nat × Nat :=
  let (r, w) := match groupState s g with
    | 0 => if s.guarded then (12000, 7200) else (12000, 12000)
    | 1 => (6000, 3600)
    | _ => (0, 0)
  let f := derating s g * memFactor s g
  (r * f / 10000, w * f / 10000)

/-- A far port's published figure, in units of 1/32 GB/s (R313). -/
def farFigure (s : State) (p : Nat) : Nat :=
  let f := farPort s p
  if f.state = 2 || f.state = 3 || f.state = 5 then 121 * f.width * (if f.rate = 0 then 2 else 1) / linkDiv s (p / 4) else 0

/-! ## Reservations (R336 to R340) -/

/-- The reservable percentage. -/
def rsvPct (s : State) : Nat := fld (rg s 0x130014 80) 0 7

/-- The resources by bit of RSV_RES.SHORT: G0 read and write, G1 read and write, then each far port's read and write. -/
def resFigure (s : State) (b : Nat) : Nat :=
  if b < 4 then 32 * (if b % 2 = 0 then (deliv s (b / 2)).1 else (deliv s (b / 2)).2) else farFigure s ((b - 4) / 2)

/-- A deliverable figure that has fallen makes a recomputation due (R339). -/
def noteFigures (before s : State) (cause : Nat) : State :=
  if (List.range 20).any (fun b => decide (resFigure s b < resFigure before b)) then { s with rsvDue := some (s.rsvDue.getD cause) } else s

/-- What a reservation takes of a resource. -/
def Rsv.takes (r : Rsv) (b : Nat) : Nat :=
  if b < 4 then r.amount b else if (b - 4) / 2 = r.port then r.amount (4 + b % 2) else 0

def resSum (s : State) (b : Nat) : Nat := (s.rsvs.map (fun r => r.takes b)).sum

/-- Does an amount fit in a resource (R337)? -/
def resFits (s : State) (b n : Nat) : Bool := decide (3200 * n ≤ rsvPct s * resFigure s b)

/-- The resources a reservation names, as SHORT codes them. -/
def resBits (r : Rsv) : Nat := ((List.range 20).filter (fun b => 0 < r.takes b)).foldl (fun n b => n + 2 ^ b) 0

/-- The reservation to revoke first among those that use a resource (R339). -/
def victim (s : State) (b : Nat) : Option (Rsv × Nat) :=
  let l := (s.rsvs.zipIdx).filter (fun e => decide (0 < e.1.takes b))
  (sortBy (fun (x y : Rsv × Nat) =>
    let cx := classRank (allotClass s x.1.allot)
    let cy := classRank (allotClass s y.1.allot)
    if cx ≠ cy then decide (cy < cx) else if x.1.prio ≠ y.1.prio then decide (x.1.prio < y.1.prio) else decide (y.2 ≤ x.2)) l).head?

/-- Revoke a reservation: its notice, its record and its count (R340). -/
def revoke (s : State) (r : Rsv) (cause : Nat) : State :=
  let s := { s with
    rsvs := s.rsvs.filter (fun x => !(x.allot == r.allot && x.index == r.index))
    rsvRevoked := s.rsvRevoked ++ [(r.allot, r.index)] }
  let s := gaugePost s 1 r.allot [BitVec.ofNat 64 (r.index + cause * 2 ^ 8 + resBits r * 2 ^ 12)] true
  satAdd (rasAppend s 0x17 1 0 0 (some r.allot) (r.index + cause * 2 ^ 8)) 0x130018 0 16 16 1

/-- Revoke until one resource fits. -/
def fitOne (s : State) (cause b fuel : Nat) : State :=
  match fuel with
  | 0 => s
  | fuel + 1 =>
    if resFits s b (resSum s b) then s
    else match victim s b with
      | some (r, _) => fitOne (revoke s r cause) cause b fuel
      | none => s

/-- Recompute the capacities, resource by resource in order (R339). -/
def recompute (s : State) (cause : Nat) : State :=
  (List.range 20).foldl (fun s b => fitOne s cause b (s.rsvs.length + 1)) { s with rsvDue := none }

def execRsvRecompute (s : State) : Host.Outcome State Fault Refusal :=
  match s.rsvDue with
  | some c => .next (recompute s c)
  | none => .next s

/-- The reservation the amount registers describe. -/
def rsvOf (s : State) (v : W32) : Rsv :=
  let g0 := rg s 0x130004 0
  let g1 := rg s 0x130008 0
  let f := rg s 0x13000C 0
  { allot := fld v 16 10, index := fld v 8 8, prio := fld v 26 2, g0r := fld g0 16 16, g0w := fld g0 0 16, g1r := fld g1 16 16
    g1w := fld g1 0 16, port := fld f 16 3, fr := fld f 8 8, fw := fld f 0 8 }

/-- STATE of a reservation: 0 none, 1 admitted, 2 revoked. -/
def rsvState (s : State) (al i : Nat) : Nat :=
  if (rsvFind s al i).isSome then 1 else if s.rsvRevoked.contains (al, i) then 2 else 0

/-- Write RSV_RES. -/
def rsvResult (s : State) (v : W32) (result short : Nat) : State :=
  setRg s 0x130010 (setFld (setFld (setFld (0 : W32) 30 2 (rsvState s (fld v 16 10) (fld v 8 8))) 28 2 result) 0 20 short)

/-- Is there room for the reservation the amount registers describe (R337)? -/
def rsvCreate (s : State) (v : W32) : State :=
  let x := rsvOf s v
  let short := (List.range 20).filter (fun b => decide (0 < x.takes b) && !(resFits s b (resSum s b + x.takes b)))
  if (rsvFind s x.allot x.index).isSome then rsvResult s v 2 0
  else if 4096 ≤ s.rsvs.length then rsvResult s v 3 0
  else if admissionsShut s then rsvResult s v 1 0
  else if !short.isEmpty then rsvResult s v 1 (short.foldl (fun n b => n + 2 ^ b) 0)
  else rsvResult { s with rsvs := s.rsvs ++ [x], rsvRevoked := s.rsvRevoked.erase (x.allot, x.index) } v 0 0

def rsvRelease (s : State) (v : W32) : State :=
  let al := fld v 16 10
  let i := fld v 8 8
  if rsvState s al i = 0 then rsvResult s v 2 0
  else rsvResult { s with
    rsvs := s.rsvs.filter (fun x => !(x.allot == al && x.index == i)), rsvRevoked := s.rsvRevoked.erase (al, i) } v 0 0

def rsvQuery (s : State) (v : W32) : State :=
  let x := (rsvFind s (fld v 16 10) (fld v 8 8)).getD
    { allot := 0, index := 0, prio := 0, g0r := 0, g0w := 0, g1r := 0, g1w := 0, port := 0, fr := 0, fw := 0 }
  let s := setRg s 0x130004 (BitVec.ofNat 32 (x.g0r * 2 ^ 16 + x.g0w))
  let s := setRg s 0x130008 (BitVec.ofNat 32 (x.g1r * 2 ^ 16 + x.g1w))
  let s := setRg s 0x13000C (BitVec.ofNat 32 (x.port * 2 ^ 16 + x.fr * 2 ^ 8 + x.fw))
  rsvResult s v 0 0

/-- A write of RSV_REQ: START serves OP within the command, after a recomputation that is due (R339); without START only the fields are
written. OP 3 is reserved: the write is dropped and logged. DEDUCED: log 35. -/
def rsvRequest (r : Requester) (v : W32) (s : State) : State :=
  pfWrite s r 0x130000 v.toNat (fun s =>
    let op := fld v 28 2
    if op = 3 then logDropped s 0x130000 v.toNat
    else
      let s := setRg s 0x130000 (v &&& 0x3FFFFF00#32)
      if !(bit v 31) then s
      else
        let s := match s.rsvDue with
          | some c => recompute s c
          | none => s
        if op = 0 then rsvCreate s v else if op = 1 then rsvRelease s v else rsvQuery s v)

/-- OP 0 with START: CREATE. Each of the three rows acts by the OP of its value. DESIGN CHOICE: log 66. -/
def execRsvCreate (r : Requester) (v : W32) (s : State) : Host.Outcome State Fault Refusal := .next (rsvRequest r v s)

/-- OP 1 with START: RELEASE. -/
def execRsvRelease (r : Requester) (v : W32) (s : State) : Host.Outcome State Fault Refusal := .next (rsvRequest r v s)

/-- OP 2 with START: QUERY. -/
def execRsvQuery (r : Requester) (v : W32) (s : State) : Host.Outcome State Fault Refusal := .next (rsvRequest r v s)

/-- RSV_ADMIT: a lower PCT makes a recomputation due (R339). -/
def execRsvPctWrite (r : Requester) (v : W32) (s : State) : Host.Outcome State Fault Refusal :=
  .next (pfWrite s r 0x130014 v.toNat (fun s =>
    let n := fld v 0 7
    if 90 < n then logDropped s 0x130014 v.toNat
    else
      let lower := decide (n < rsvPct s)
      let s := setRg s 0x130014 (BitVec.ofNat 32 n)
      if lower then { s with rsvDue := some (s.rsvDue.getD 2) } else s))

end Sys2Proof.Machine
end

