-- ==== Sys2Proof/Machine/Saddle.lean ====
section
/-! DEFINITION. The Saddles: Reservoir, prefetchers, Guarded parity and its rebuilds, stack failures and temperatures, and the far
tier's ports (11 R291 to R305, R311 to R317; 12 R334, R338, R342, R343). -/

namespace Sys2Proof.Machine

/-- A prefetcher with no demand hit for 4,096 Saddle cycles is released. -/
def execPrefetcherRelease (sd : Fin 2) (pf : Fin 64) (s : State) : Host.Outcome State Fault Refusal :=
  .next (updSaddle s sd.val (fun d => { d with pfs := mdel d.pfs pf.val }))

/-! ## Reads and writes (R294, R299) -/

/-- An access that no far port serves: logged, and reported with the item of the terrace that made it (R313). -/
def farNote (s : State) (r : MemReq) (len : Nat) : State :=
  match (sectorParts r.addr.toNat len).find? (fun p => match tierOf s (r.addr.toNat + p.1) with
    | .far _ => farErr s (r.addr.toNat + p.1)
    | _ => false) with
  | none => s
  | some p =>
    let x := r.addr.toNat + p.1
    let s := rasAppend s 0x14 1 6 ((x - farBase) / 0x20000000000) (some r.allot.val) x
    match r.src with
    | .terrace tg _ => match slotOf s tg.val with
      | some k => runErr s k 8
      | none => s
    | _ => s

/-- Does a request that waits come from the stream of another? -/
def SadWait.sameStream (x : SadWait) (src : MemSrc) : Bool :=
  match x with
  | .read r _ => r.src == src
  | .write r _ _ => r.src == src
  | .peer _ _ => false

/-- Does a request have to wait at its Saddle: for a port bucket, or behind another of its stream (R333)? -/
def requestWaits (s : State) (r : MemReq) (n : Nat) (wr : Bool) : Bool :=
  (saddle s (homeSaddle r.addr.toNat)).waits.any (fun x => x.sameStream r.src) || mustWait s (pathOf s r) r.addr.toNat n wr

/-- A request waits at its Saddle. -/
def holdRequest (s : State) (a : Nat) (x : SadWait) : State := updSaddle s (homeSaddle a) (fun d => { d with waits := d.waits ++ [x] })

/-- A read passes its home Saddle, with the cell errors it meets, and its data is returned. -/
def serveRead (s : State) (r : MemReq) (e : MemErrs) : State :=
  let s := (saddlePass (farNote s r r.len) (pathOf s r) r.addr.toNat r.len false e).2
  let i := imgOf (dpaRead s r.addr.toNat r.len)
  emit s (.data i.bytes !i.bad.isEmpty)

/-- A write passes its home Saddle: HBM lines are allocated without fill and stay dirty, far lines are written through; the Guarded
parity follows the data (R294). -/
def serveWrite (s : State) (r : MemReq) (bytes : List Byte) (bad : Bool) : State :=
  (saddlePass (dpaWrite (farNote s r bytes.length) r.addr.toNat (bytes.map (fun (b : Byte) => ((b, bad) : PByte))))
    (pathOf s r) r.addr.toNat bytes.length true).2

/-- A read request at its home Saddle. DESIGN CHOICE: log 67. -/
def execSaddleRead (r : MemReq) (e : MemErrs) (s : State) : Host.Outcome State Fault Refusal :=
  if !(saddleServes s r.addr.toNat) then .next s
  else if requestWaits s r r.len false then .next (holdRequest s r.addr.toNat (.read r e))
  else .next (serveRead s r e)

/-- A write request at its home Saddle. DESIGN CHOICE: log 67. -/
def execSaddleWrite (r : MemReq) (bytes : List Byte) (bad : Bool) (s : State) : Host.Outcome State Fault Refusal :=
  if !(saddleServes s r.addr.toNat) then .next s
  else if requestWaits s r bytes.length true then .next (holdRequest s r.addr.toNat (.write r bytes bad))
  else .next (serveWrite s r bytes bad)

/-! ## Stacks (R295 to R298) -/

/-- Note that a group's deliverable figures may have fallen (R297, R339). -/
def noteDeliv (before s : State) (g cause : Nat) : State :=
  if (deliv s g).1 < (deliv before g).1 || (deliv s g).2 < (deliv before g).2 then { s with rsvDue := some (s.rsvDue.getD cause) } else s

/-- Mark a stack Failed (R295). -/
def failStack (s : State) (k cause : Nat) : State :=
  if (stackOf s k).failed then s
  else
    let g := k / 6
    let s' := updSaddle s g (fun d => { d with hbmStacks := mupd d.hbmStacks (k % 6) {} (fun x => { x with failed := true }) })
    if groupState s' g = 2 then
      let s' := intCause (rasAppend s' 0x24 3 5 k none cause) 6
      noteDeliv s (enterFaulted s' (if s.guarded then 1 else 2)) g 0
    else noteDeliv s (intCause (rasAppend s' 0x23 2 5 k none cause) 6) g 0

def execHbmStackFail (stack : Fin 12) (cause : Fin 3) (s : State) : Host.Outcome State Fault Refusal :=
  .next (failStack s stack.val cause.val)

/-- The stage of a stack at a temperature, with 3 degrees of hysteresis (Table 11-4). -/
def stackStage (old : Stage) (t : Nat) : Stage :=
  let rank : Stage → Nat := fun x => match x with
    | .normal => 0
    | .warm => 1
    | .hot => 2
    | .critical => 3
  let at' (lim r : Nat) : Bool := decide (lim ≤ t) || (decide (r ≤ rank old) && decide (lim - 3 < t))
  if at' 105 3 then .critical else if at' 95 2 then .hot else if at' 85 1 then .warm else .normal

/-- A stack's temperature report (R298); Critical is a thermal warning. -/
def execHbmTempReport (stack : Fin 12) (temp : Nat) (s : State) : Host.Outcome State Fault Refusal :=
  let k := stack.val
  let old := stackOf s k
  let st := stackStage old.stage temp
  let s' := updSaddle s (k / 6) (fun d => { d with
    hbmStacks := mset d.hbmStacks (k % 6) { old with temp := min 255 temp, stage := st } })
  let s' := if st = .critical && old.stage ≠ .critical then exEvent (satAdd s' 0x15001C 0 0 16 1) [0x1001, k, temp] else s'
  .next (noteDeliv s s' (k / 6) 1)

/-! ## Far-tier ports (R313 to R316) -/

/-- Write the state of a far port; a change is a cause (Table 19-8). -/
def setFarState (s : State) (p st : Nat) : State :=
  if (farPort s p).state = st then s
  else intCause { s with farPorts := mset s.farPorts p { farPort s p with state := st } } 8

/-- Is a device one that a far-tier port takes (R311, R312, Table 11-6)? -/
def farTakes (d : Expander) : Bool :=
  d.kind == 3 && !d.multi && !d.dynamic && d.levels ≤ 1 && d.ranges == 1 && d.poison && d.events
  && 1 ≤ d.cap && d.cap ≤ 2048 && (d.width == 16 || d.width == 8 || d.width == 4) && d.rate ≤ 1

/-- A port after its device is enumerated (R312): Absent for a device that breaks a requirement. DEDUCED: log 65. -/
def farFound (d : Expander) : FarPort :=
  if farTakes d then
    { state := if d.width = 16 && d.rate = 0 then 2 else 3, switch := d.levels == 1, width := d.width, rate := d.rate, cap := d.cap }
  else {}

/-- Does a device found in a slot serve? -/
def slotServes (s : State) (p : Nat) : Bool := (mget? s.farDevs p).any farTakes

/-- The ports as a boot enumerates them: one that had failed with a mirrored range is resilvered first (R316). DEDUCED: log 65. -/
def foundPorts (s : State) : Map FarPort :=
  (s.farDevs.map (fun e =>
    let f := farFound e.2
    let stale := decide (4 ≤ (farPort s e.1).state) && bit (mget s.mir (e.1 % 4) 0) 31 && slotServes s ((e.1 + 4) % 8)
    (e.1, if f.state ≠ 0 && stale then { f with state := 5 } else f))).filter (fun e => e.2.state ≠ 0)

/-- Mark a far port Failed (R314). -/
def failFar (s : State) (p : Nat) (fatal : Bool) : State :=
  if (farPort s p).state = 0 || (farPort s p).state = 4 then s
  else
    let fell := decide (0 < farFigure s p)
    let s := rasAppend (setFarState s p 4) 0x28 2 6 p none fatal.toNat
    if fell then { s with rsvDue := some (s.rsvDue.getD 1) } else s

def execFarPortFail (port : Fin 8) (fatal : Bool) (s : State) : Host.Outcome State Fault Refusal :=
  .next (failFar s port.val fatal)

/-- Copy the mirrored range of a pair onto port p from its partner. -/
def resilver (s : State) (p : Nat) : State :=
  let m := mget s.mir (p % 4) 0
  let lo := fld m 0 12 * 2 ^ 30
  let hi := min 0x20000000000 (lo + fld m 12 12 * 2 ^ 30)
  let base (q : Nat) : Nat := farBase + q * 0x20000000000
  let src := base ((p + 4) % 8) + lo
  let dst := base p + lo
  if !(bit m 31) then s
  else
    let clean := s.far.scrub dst (dst + (hi - lo))
    let moved := (s.far.cells.filter (fun c => decide (src ≤ c.1) && decide (c.1 < src + (hi - lo)))).foldl
      (fun (f : Mem) c => f.put (dst + (c.1 - src)) c.2) clean
    let bad := s.far.poison.filter (fun k => decide (src / 32 ≤ k) && decide (k < (src + (hi - lo)) / 32))
    { s with far := { moved with poison := bad.foldl (fun l k => sectorSet l (dst / 32 + (k - src / 32)) true) moved.poison } }

/-- The copy of the mirrored range ends: the port serves again (R316). DEDUCED: log 65. -/
def execFarResilverDone (port : Fin 8) (s : State) : Host.Outcome State Fault Refusal :=
  let p := port.val
  let f := farPort s p
  if f.state ≠ 5 then .next s
  else .next (setFarState (resilver s p) p (if f.width = 16 && f.rate = 0 then 2 else 3))

end Sys2Proof.Machine
end

