-- ==== Sys2Proof/Machine/Sump.lean ====
section
/-! DEFINITION. The Sump: jobs posted by STR.SUMP, bags pooled by the units of a Saddle, and the end of a job (11 R305 to
R310). -/

namespace Sys2Proof.Machine

/-- A job record (Table 11-5). -/
structure SumpRec where
  op : Nat
  wgt : Bool
  tfmt : Nat
  ofmt : Nat
  rmode : Nat
  sat : Bool
  rqt : Bool
  sema : Nat
  dim : Nat
  table : Nat
  rows : Nat
  indexBase : Nat
  idx : Nat
  off : Nat
  wAddr : Nat
  out : Nat
  rowStride : Nat
  outStride : Nat
  bagFirst : Nat
  bagCount : Nat
  pfd : Nat
  semaEn : Bool
  deriving DecidableEq, Repr

def SumpRec.ofBytes (bs : List Byte) : SumpRec :=
  let at' (o n : Nat) : Nat := leNat ((bs.drop o).take n)
  let w := at' 0 4
  { op := w / 2 ^ 28 % 16, wgt := w / 2 ^ 27 % 2 = 1, tfmt := w / 2 ^ 22 % 32, ofmt := w / 2 ^ 17 % 32
    rmode := w / 2 ^ 15 % 4, sat := w / 2 ^ 14 % 2 = 1, rqt := w / 2 ^ 13 % 2 = 1, sema := w % 16
    dim := at' 4 4, table := at' 8 8, rows := at' 0x10 8, indexBase := at' 0x18 8, idx := at' 0x20 8, off := at' 0x28 8
    wAddr := at' 0x30 8, out := at' 0x38 8, rowStride := at' 0x40 4, outStride := at' 0x44 4, bagFirst := at' 0x48 4
    bagCount := at' 0x4C 4, pfd := at' 0x52 2, semaEn := at' 0x50 2 % 2 = 1 }

/-- Bytes of a row: its packed codes, and with RQT its scale and bias. -/
def SumpRec.rowLen (r : SumpRec) : Nat := rowBytes (ebits r.tfmt) r.dim + (if r.rqt then 4 else 0)

/-- Does a record break Table 11-5? DEDUCED: log 64. -/
def SumpRec.breaks (r : SumpRec) : Bool :=
  2 < r.op || !([0x02, 0x0B, 0x06, 0x07, 0x0C, 0x0D, 0x0E].contains r.tfmt) || !([0x0C, 0x0D, 0x0E].contains r.ofmt)
  || 1 < r.rmode || (r.rqt && r.tfmt ≠ 0x02 && r.tfmt ≠ 0x0B) || r.dim = 0 || 4096 < r.dim
  || r.table % 32 ≠ 0 || r.out % 32 ≠ 0 || (!r.wgt && r.wAddr ≠ 0)
  || r.rowStride % 32 ≠ 0 || r.rowStride < r.rowLen || r.outStride % 32 ≠ 0
  || r.bagCount = 0 || 2 ^ 24 < r.bagCount || (r.pfd ≠ 0 && (r.pfd < 16 || 1024 < r.pfd))

/-- What an agent of a Saddle meets, noted for a run. -/
def agentNote (s : State) (n slot al : Nat) (l : List Acc) : State :=
  (noteOwed s (.agent n) (some slot) al { pathFor s (.agent n) al with num := 4 } l).1

/-- Post the job record at an address to the Sump of a Saddle (R306): (posted or refused, state); a full queue keeps the
instruction waiting. DEDUCED: log 64. -/
def sumpPost (s : State) (tg : Nat) (c : Cmd) (n addr : Nat) : Bool × State :=
  match runOfT s tg with
  | none => (true, s)
  | some (k, r) =>
    if 64 ≤ (saddle s n).sump.length then (false, s)
    else
      let rd := vRead s (.agent n) r.allot addr 128
      if atsMissing rd.accs ≠ [] then (false, atsAsk s (.agent n (some k)) r.allot (atsMissing rd.accs))
      else
        let s := agentNote s n k r.allot rd.accs
        let bytes := rd.data.map (fun (b : PByte) => b.1)
        let bad := rd.data.any (fun (b : PByte) => b.2)
        if addr % 128 ≠ 0 || bad || (SumpRec.ofBytes bytes).breaks then
          (true, stageFault (logStream s (some k) r.allot (64 + n) rd.accs) tg c fDESCRIPTOR)
        else
          let j : SumpJob := { slot := k, tg, thr := c.thr, pc := c.th.pc.toNat, allot := r.allot, record := bytes
                               bad := false, next := 0, accs := rd.accs }
          let s := updSaddle s n (fun d => { d with sump := d.sump ++ [j] })
          (true, updRun s k (fun r => { r with sumps := r.sumps + 1 }))

/-- The element values of one table row (R307), each with its poison. -/
def sumpRow (r : SumpRec) (data : List PByte) : List (Num × Bool) :=
  let w := ebits r.tfmt
  let cs := codesOf w r.dim data
  if r.rqt then
    let p := rowBytes w r.dim
    let half (o : Nat) : Num := fmtFP16.decode (leNat (((data.drop o).take 2).map (fun (b : PByte) => b.1)))
    let bad := ((data.drop p).take 4).any (fun (b : PByte) => b.2)
    cs.map (fun (c : Code) =>
      (f32 (rne32 (Num.add (Num.mul (decodeElem r.tfmt c.1) (half p)) (half (p + 2)))), c.2 || bad))
  else cs.map (fun (c : Code) => (decodeElem r.tfmt c.1, c.2))

/-- The larger of two FP32 values; a NaN on either side gives the canonical NaN and INV; of equal values the first. -/
def sumpLarger (a x : W32) : W32 × Bool :=
  if (f32 a).isNan || (f32 x).isNan then (rne32 .nan, true) else if Num.lt (f32 a) (f32 x) then (x, false) else (a, false)

/-- The pooling of one bag so far: accumulators with poison, the whole bag's poison, rows pooled, indices skipped, INV, and
the accesses made. -/
structure Bag where
  acc : List (W32 × Bool)
  bad : Bool
  pooled : Nat
  skipped : Nat
  inv : Bool
  accs : List Acc
  deriving DecidableEq, Repr

/-- Pool index number i of the list into a bag. -/
def bagStep (s : State) (n al : Nat) (r : SumpRec) (g : Bag) (i : Nat) : Bag :=
  let ix := vRead s (.agent n) al (r.idx + 8 * i) 8
  let g := { g with accs := g.accs ++ ix.accs }
  if ix.data.any (fun (b : PByte) => b.2) then { g with bad := true }
  else
    let idx := leNat (ix.data.map (fun (b : PByte) => b.1))
    let row := (BitVec.ofNat 64 idx - BitVec.ofNat 64 r.indexBase).toNat
    if r.rows ≤ row then { g with skipped := g.skipped + 1 }
    else
      let wr : Rd := if r.wgt then vRead s (.agent n) al (r.wAddr + 4 * i) 4 else { data := [], accs := [] }
      let w : Num := if r.wgt then f32 (BitVec.ofNat 32 (leNat (wr.data.map (fun (b : PByte) => b.1)))) else .ofInt 1 0
      let rd := vRead s (.agent n) al (r.table + row * r.rowStride) r.rowLen
      let g := { g with accs := g.accs ++ wr.accs ++ rd.accs, bad := g.bad || wr.data.any (fun (b : PByte) => b.2)
                        pooled := g.pooled + 1 }
      let es := g.acc.zip (sumpRow r rd.data) |>.map (fun (a, v) =>
        let x := rne32 (Num.mul v.1 w)
        if r.op = 2 then
          let (m, inv) := sumpLarger a.1 x
          ((m, a.2 || v.2), inv)
        else ((f32add a.1 x, a.2 || v.2), false))
      { g with acc := es.map (fun e => e.1), inv := g.inv || es.any (fun e => e.2) }

/-- The bag of a job that is next. -/
def poolBag (s : State) (n : Nat) (j : SumpJob) (r : SumpRec) : Bag × Nat :=
  let b := r.bagFirst + j.next
  let o0 := vRead s (.agent n) j.allot (r.off + 8 * b) 8
  let o1 := vRead s (.agent n) j.allot (r.off + 8 * (b + 1)) 8
  let num (d : Rd) : Nat := leNat (d.data.map (fun (x : PByte) => x.1))
  let bad := (o0.data ++ o1.data).any (fun (x : PByte) => x.2)
  let lo := num o0
  let hi := num o1
  let len := if !bad && lo < hi then hi - lo else 0
  let init : Bag := { acc := List.replicate r.dim (if r.op = 2 then (rne32 (.inf true), false) else (0, false)), bad
                      pooled := 0, skipped := 0, inv := false, accs := o0.accs ++ o1.accs }
  let g := (List.range len).foldl (fun g k => bagStep s n j.allot r g (lo + k)) init
  if r.op = 1 && 0 < len then
    ({ g with acc := g.acc.map (fun (a : W32 × Bool) => (rneDiv (f32 a.1) (.ofInt len 0), a.2)) }, b)
  else (g, b)

/-- The lines of the rows PFD indices ahead of the indices of a bag (R309), within each row's translation page; an index or a row whose
translation faults is dropped (R305). -/
def aheadLines (s : State) (n al : Nat) (r : SumpRec) (lo hi : Nat) : List Nat :=
  let pfd := if r.pfd = 0 then 128 else r.pfd
  (List.range (hi - lo)).flatMap (fun k =>
    let ix := vRead s (.agent n) al (r.idx + 8 * (lo + k + pfd)) 8
    let row := (BitVec.ofNat 64 (leNat (ix.data.map (fun (b : PByte) => b.1))) - BitVec.ofNat 64 r.indexBase).toNat
    let va := (r.table + row * r.rowStride) % 2 ^ 52
    if ix.data.any (fun (b : PByte) => b.2) || r.rows ≤ row then []
    else match findLeaf s (.agent n) al va with
      | .ok l =>
        let pa := l.pa + va % 2 ^ l.size
        if l.perm &&& permR ≠ permR || (tierOf s pa == .host) || peerBase ≤ pa then []
        else ((lineParts pa (min r.rowLen (2 ^ l.size - va % 2 ^ l.size))).map (fun e => e.1))
      | .error _ => [])

/-- The index-driven prefetcher of the Sump unit that takes a bag (R304, R305): it takes one of the Saddle's prefetchers, and fetches the rows
ahead; from the first memory rung on nothing is prefetched (R467). DEDUCED: log 36. -/
def sumpPrefetch (s : State) (n unit al : Nat) (r : SumpRec) (lo hi : Nat) : State :=
  if memRung s n ≠ 0 || hi ≤ lo then s
  else
    let k := pfSlot (saddle s n) (2048 + unit)
    let p : Prefetcher := { stream := 2048 + unit, last := lo, stride := 0, agree := 0, next := hi, used := pfStamp (saddle s n) }
    let s := updSaddle s n (fun d => { d with pfs := mset d.pfs k p })
    let ls := aheadLines s n al r lo hi
    (List.range 2).foldl (fun s h => fetchAhead s h (ls.filter (fun l => homeSaddle (l * 256) = h))) s

/-- The index range of the bag of a job that is next, when it can be read. -/
def bagRange (s : State) (n : Nat) (j : SumpJob) (r : SumpRec) : Nat × Nat :=
  let b := r.bagFirst + j.next
  let d := (vRead s (.agent n) j.allot (r.off + 8 * b) 16).data
  if d.any (fun (x : PByte) => x.2) then (0, 0)
  else (leNat ((d.take 8).map (fun (x : PByte) => x.1)), leNat ((d.drop 8).map (fun (x : PByte) => x.1)))

/-- A unit holds a bag whose data is still to come. -/
def holdBag (s : State) (n unit bag : Nat) : State := updSaddle s n (fun d => { d with units := mset d.units unit bag })

/-- A Sump unit pools one bag of the job at the head of the queue (R307 to R309): the 32 units take the bags in turn. DEDUCED: log 64. -/
def execSumpBag (sd : Fin 2) (s : State) : Host.Outcome State Fault Refusal :=
  let n := sd.val
  match (saddle s n).sump with
  | [] => .next s
  | j :: rest =>
    let r := SumpRec.ofBytes j.record
    if r.bagCount ≤ j.next then .next s
    else
      let (g, b) := poolBag s n j r
      let unit := j.next % 32
      if atsMissing g.accs ≠ [] then .next (atsAsk (holdBag s n unit b) (.agent n (some j.slot)) j.allot (atsMissing g.accs))
      else
        let rm : RM := if r.rmode = 1 then .rtz else .rne
        let es := g.acc.map (fun (a : W32 × Bool) => (encodeElem r.ofmt rm r.sat (f32 a.1), a.2 || g.bad))
        let bytes := packRow (ebits r.ofmt) (es.map (fun e => (e.1.code, e.2)))
        let (w, wa) := vWrite s (.agent n (some j.slot)) j.allot (r.out + b * r.outStride) bytes
        if atsMissing wa ≠ [] then .next (atsAsk (holdBag s n unit b) (.agent n (some j.slot)) j.allot (atsMissing wa))
        else
          let s := agentNote w n j.slot j.allot (g.accs ++ wa)
          let s := sumpPrefetch s n unit j.allot r (bagRange s n j r).1 (bagRange s n j r).2
          let s := setFlags s (some j.slot) (es.any (fun e => e.1.ovf)) (g.inv || es.any (fun e => e.1.inv))
          let s := runPoison s j.slot (es.filter (fun e => e.2)).length
          let s := satAdd s (sBase n + 0x30004) 0 0 32 g.pooled
          let s := satAdd s (sBase n + 0x30008) 0 0 32 g.skipped
          .next (updSaddle s n (fun d =>
            { d with sump := { j with next := j.next + 1, accs := j.accs ++ g.accs ++ wa } :: rest, units := mdel d.units unit }))

/-- The job at the head ends once every bag is written: its faults are logged, and its span semaphore is signalled (R310). -/
def execSumpJobEnd (sd : Fin 2) (s : State) : Host.Outcome State Fault Refusal :=
  let n := sd.val
  match (saddle s n).sump with
  | [] => .next s
  | j :: rest =>
    let r := SumpRec.ofBytes j.record
    if j.next < r.bagCount then .next s
    else
      let s := updSaddle s n (fun d => { d with sump := rest })
      let s := logStream s (some j.slot) j.allot (64 + n) j.accs
      .next (updRun s j.slot (fun x =>
        { x with sumps := x.sumps - 1
                 ss := if r.semaEn then mset x.ss r.sema (mget x.ss r.sema 0 + 1) else x.ss }))

end Sys2Proof.Machine
end

