-- ==== Sys2Proof/Machine/Stream.lean ====
section
/-! DEFINITION. The STR group: streams at issue and in the Sluice (13 R362 to R368; 05 R128 to R133; 04 R88 to R96; 07 R163 to
R165, R178; 08 R196 to R198; 12 R332). -/

namespace Sys2Proof.Machine

/-! ## Issue -/

/-- Does LAY agree with a descriptor (R363)? -/
def layOk (w : W64) (x : Desc) : Bool := fld w 32 4 == 15 || fld w 32 4 == x.layout

/-- Is a TRANS load one Table 05-8 rejects? -/
def transLoadBad (x : Desc) : Bool := x.trans && (x.form = 1 || (x.form = 2 && (x.layout = 1 || x.layout = 7)))

/-- Is a destination one that a store rejects at issue: FORM 1, a transposing FORM 2 store, or transposed metadata of a
layout that has none (R366, Table 05-8, R72)? -/
def storeBad (x : Desc) : Bool :=
  x.form = 1 || (x.form = 2 && (x.trans || (x.treq && (x.layout = 1 || x.layout = 7))))

/-- Lanes and K of a load for an Array consumer, before gating (R364, R149). -/
def operandShape (x : Desc) : Nat × Nat :=
  if x.form = 1 then (x.window.oh * x.window.ow, x.window.kh * x.window.kw * x.e0)
  else if x.trans then (x.e0 * x.e2 * x.e3, x.e1) else (x.e1 * x.e2 * x.e3, x.e0)

/-- Does the arrangement control word break Table 13-10, or is a region too small for one operand (R364)? -/
def arrangeBad (x : Desc) (ctl : W64) (size : Nat) : Bool :=
  let tl := fld ctl 54 10 + 1
  let g := gszOf (fld ctl 46 2)
  let kc := (fld ctl 48 6 + 1) * g
  let (lanes, k) := operandShape x
  (scaled x.format && kc % 32 ≠ 0) || size < operandBytes x.format g (min tl lanes) (min kc k)

/-- The KIND restrictions of R365. -/
def kindBad (kind : Nat) (x : Desc) : Bool :=
  match kind with
  | 1 => x.form ≠ 0
  | 2 => x.form ≠ 2 || x.layout = 1 || x.layout = 7
  | 3 => x.form ≠ 2 || x.rowCount ≠ 1
  | _ => false

/-- The checks of STR.LD at issue, in one of its kinds (R362 to R365). A format that the arrays do not take is loaded into a queue of theirs too: only
the MMA rejects it (R371). DESIGN CHOICE: log 73. -/
def ldFault (kind : Nat) (c : Ctx) (s : State) : Option Nat :=
  let t := terrace s c.tg
  let w := c.w0
  let pool := fld w 38 2
  let q := fld w 40 4
  let hG := c.t.hreg (fld w 23 4)
  if fld w 0 17 ≠ 0 || pool = 3 || (kind ≠ 1 && (fld w 23 4 ≠ 0 || bit w 17)) || (kind ≠ 2 && fld w 18 5 ≠ 0)
      || (kind = 2 && fld w 18 5 % 4 ≠ 0) then some fILLEGAL
  else
    match descOk c.t (fld w 44 4) with
    | none => some fDESCRIPTOR
    | some x =>
      if !(layOk w x) || transLoadBad x || kindBad kind x then some fDESCRIPTOR
      else if !(produces t 1 q) || !(poolOf t pool).valid
          || (kind = 1 && (!(handleOk t hG) || hMem hG ≠ 2)) then some fHANDLE
      else if (lqOf t q).cons = 3 && x.form ≠ 2 && arrangeBad x (c.t.sreg (fld w 27 5)) (poolOf t pool).size then
        some fDESCRIPTOR
      else none

/-- Issue of STR.LD: its checks, then it is forwarded to the Sluice. -/
def issueLd (kind : Nat) : Ctx → State → Option State := checked (ldFault kind) forwardStream

def execStrLd (i : Issue) (s : State) : Host.Outcome State Fault Refusal :=
  issue { maj := 4, min := 0x00, lo := 36, len := 2, val := 0 } i s (issueLd 0)

def execStrLdGate (i : Issue) (s : State) : Host.Outcome State Fault Refusal :=
  issue { maj := 4, min := 0x00, lo := 36, len := 2, val := 1 } i s (issueLd 1)

def execStrLdReach (i : Issue) (s : State) : Host.Outcome State Fault Refusal :=
  issue { maj := 4, min := 0x00, lo := 36, len := 2, val := 2 } i s (issueLd 2)

def execStrLdOne (i : Issue) (s : State) : Host.Outcome State Fault Refusal :=
  issue { maj := 4, min := 0x00, lo := 36, len := 2, val := 3 } i s (issueLd 3)

/-- The checks of STR.ST at issue (R366). -/
def stFault (c : Ctx) (s : State) : Option Nat :=
  match descOk c.t (fld c.w0 44 4) with
  | none => some fDESCRIPTOR
  | some x =>
    if !(layOk c.w0 x) || storeBad x then some fDESCRIPTOR
    else if !(consumes (terrace s c.tg) 1 (fld c.w0 40 4)) then some fHANDLE
    else none

def execStrSt (i : Issue) (s : State) : Host.Outcome State Fault Refusal :=
  issue { maj := 4, min := 0x01 } i s (strict [(0, 17), (18, 14), (36, 4)] (checked stFault forwardStream))

/-- The extents of a FORM 0 or FORM 1 tensor as a copy counts them, innermost first (R367). -/
def copyExtents (x : Desc) : List Nat :=
  if x.form = 1 then [x.window.kh * x.window.kw * x.e0, x.window.oh * x.window.ow, 1, 1]
  else if x.trans then [x.e1, x.e0, x.e2, x.e3] else [x.e0, x.e1, x.e2, x.e3]

/-- The transposed rows of a compressed destination of the extents of a dense source (R71, R72). -/
def transposedRows (d : Desc) (es : List Nat) : Nat :=
  match d.layout with
  | 2 => ceilDiv (es.getD 0 0) 8
  | 3 => ceilDiv (es.getD 0 0) 16
  | 4 => ceilDiv (es.getD 0 0) 32
  | 6 => es.getD 1 0
  | _ => es.getD 0 0

/-- The checks of STR.CPY at issue (R72, R367). -/
def cpyFault (c : Ctx) (_ : State) : Option Nat :=
  match descOk c.t (fld c.w0 44 4), descOk c.t (fld c.w0 40 4) with
  | some d, some x =>
    if storeBad d || transLoadBad x
        || (d.form ≠ 2 && x.form ≠ 2 && copyExtents d ≠ copyExtents x)
        || (d.form = 2 && x.form = 2 && (d.layout ≠ x.layout || d.format ≠ x.format))
        || (d.form = 2 && x.form ≠ 2 && d.treq && 65536 < transposedRows d (copyExtents x)) then some fDESCRIPTOR
    else none
  | _, _ => some fDESCRIPTOR

def execStrCpy (i : Issue) (s : State) : Host.Outcome State Fault Refusal :=
  issue { maj := 4, min := 0x02 } i s (strict [(0, 40)] (checked cpyFault forwardStream))

/-- STR.SUMP (R368): forwarded to the Sluice, which posts the record; it opens no stream. -/
def execStrSump (i : Issue) (s : State) : Host.Outcome State Fault Refusal :=
  issue { maj := 4, min := 0x03 } i s (strict [(0, 37), (43, 5)] (fun c s => forward c s 1))

/-! ## In the Sluice -/

/-- The lowest free stream context. -/
def freeContext (t : Terrace) : Nat := ((List.range 16).filter (fun u => !(mhas t.execs u))).headD 15

/-- The pages of device memory that accesses touch, through the translation. -/
def pagesOf (s : State) (tg : Nat) (l : List Acc) : List Tlb :=
  let al := allotOf s tg
  l.foldl (fun ps a =>
    match findLeaf s (.terrace tg) al (a.va % 2 ^ 52) with
    | .ok f =>
      let e : Tlb := { allot := al, va := a.va % 2 ^ 52 / 2 ^ f.size, size := f.size, pa := f.pa, perm := f.perm }
      if ps.contains e then ps else ps ++ [e]
    | .error _ => ps) []

/-- Does a page lie outside HBM and the far tier (R332)? -/
def outsideBound (s : State) (e : Tlb) : Bool :=
  match tierOf s e.pa with
  | .hbm => false
  | .far _ => false
  | _ => true

/-- How a stream opens: bound on its reservation, or open; one that names a revoked or absent reservation runs open and flags
the item (R340). DEDUCED: log 35. -/
def boundOn (s : State) (tg : Nat) (x : Desc) : Option Nat × State :=
  if !x.bound then (none, s)
  else if rsvAdmitted s (allotOf s tg) x.resv then (some x.resv, s)
  else match slotOf s tg with
    | some k => (none, runErr s k 10)
    | none => (none, s)

/-- Pin the pages of a stream on a bound descriptor (R332): none when one of the three outcomes stops the item, with the accesses as
they are to be recorded. A page in the host window or a peer window is outside whatever its translation or data would be. -/
def pinPages (s : State) (tg u : Nat) (l : List Acc) : Option State × List Acc :=
  let l' := l.map (fun a =>
    match findLeaf s (.terrace tg) (allotOf s tg) (a.va % 2 ^ 52) with
    | .ok f => if (a.kind.isNone || a.kind == some 8) && outsideBound s { allot := 0, va := 0, size := 0, pa := f.pa, perm := 0 } then
        { a with kind := some 7 } else a
    | .error _ => a)
  let ps := pagesOf s tg l
  let t := terrace s tg
  let faulted := l'.any (fun a => match a.kind with | some k => decide (k < 8) | none => false)
  if faulted || 256 < (t.pins.flatMap (fun e => e.2)).length + ps.length then (none, l')
  else (some (if ps.isEmpty then s else updTerrace s tg (fun t => { t with pins := mset t.pins u ps })), l')

/-- The sectors a dense tensor occupies, rows and scales, each as a write of it would be translated; no data is read. -/
def writeProbe (s : State) (tg al : Nat) (x : Desc) : List Acc :=
  let at' (va n : Nat) : List Acc := (sectorParts (va % 2 ^ 52) n).map (fun p =>
    let a := (va + p.1) % 2 ^ 52
    { va := a, acc := 1, kind := match findLeaf s (.terrace tg) al a with
        | .error k => some k
        | .ok f => if f.perm &&& permW ≠ permW then some 1 else none })
  (List.range x.memRows).flatMap (fun r => at' (x.rowAddr r) (rowBytes (ebits x.format) x.e0) ++
    (if scaled x.format then at' (x.scaleAddr + r * scalePitch x.space x.e0) ((x.e0 + 31) / 32) else []))

/-- What a started instruction answers: whether it left its command queue, and the state. -/
abbrev Started := Bool × State

/-- What the accesses through each descriptor of a stream do at once, and the requests that pass the Weir: those that travel as open ones (R334). -/
def streamParts (s : State) (tg u : Nat) (parts : List (Desc × List Acc)) : State × List Owed :=
  parts.foldl (fun (st : State × List Owed) p =>
    let b := boundOn st.1 tg p.1
    let r := streamed b.2 tg u b.1 p.2
    (r.1, if p.1.space ≠ 0 then st.2 else st.2 ++ r.2)) (s, [])

/-- Give a stream its context: the pages of its bound descriptors are pinned, its accesses take effect, its translations are cached,
and its open requests pass the Weir. Each descriptor comes with the accesses made through it. -/
def openStream (s : State) (tg : Nat) (parts : List (Desc × List Acc)) (e : Exec) : Started :=
  let l := parts.flatMap (fun (p : Desc × List Acc) => p.2)
  let u := freeContext (terrace s tg)
  match pinPages s tg u ((parts.filter (fun (p : Desc × List Acc) => p.1.bound)).flatMap (fun (p : Desc × List Acc) => p.2)) with
  | (none, l') => (true, stageFault (logUnit s tg l') tg e.cmd fDESCRIPTOR)
  | (some s1, _) =>
    if atsMissing l ≠ [] then (false, atsAsk s (.terrace tg) (allotOf s tg) (atsMissing l))
    else
      let resv := (parts.filterMap (fun (p : Desc × List Acc) => (boundOn s tg p.1).1)).head?
      let r := streamParts s1 tg u parts
      (true, passOwed (updTerrace r.1 tg (fun t =>
        keepPartial (setExec t u { e with bound := resv, accs := l, owed := r.2 }) u l)) tg u)

/-- The gate of a bitmap region: rows per bit, the SET count and the predicted plane (R192, R196). DEDUCED: log 12. -/
def gateOf (s : State) (tg : Nat) (h : BitVec 16) : Nat × Nat × (Nat → Bool) :=
  let bs := (regionBytes s tg h).map (fun (b : PByte) => b.1)
  let at' (o n : Nat) : Nat := leNat ((bs.drop o).take n)
  let g := 8 * 2 ^ (at' 8 4 / 2 ^ 6 % 4)
  (g, at' 4 4, fun j => (bs.getD (0x40 + j / 8) 0).toNat / 2 ^ (j % 8) % 2 = 1)

/-- A gated or ungated load of a FORM 0 or FORM 1 tensor: an empty bitmap delivers one block of zero codes (R197). -/
def gatedTensor (s : State) (tg al : Nat) (x : Desc) (kind : Nat) (hG : BitVec 16) : Tensor :=
  if kind = 1 then
    let (g, set, plane) := gateOf s tg hG
    if set = 0 then
      let t : Tensor := { fmt := x.format, e0 := x.e0, e1 := g, e2 := x.e2, e3 := x.e3
                          rows := List.replicate (g * x.e2 * x.e3) (zeroRow x.format x.e0), accs := [] }
      if x.trans then t.transpose x else t
    else loadTensor s tg al x (fun i => plane (i / g))
  else loadTensor s tg al x (fun _ => true)

/-- The entry index BASE0 of a load (R163): that of its first entry; for a reach its ENTRY_FIRST; 0 for a transposing load
(R212) and for Furrow. -/
def baseOf (x : Desc) (kind lo : Nat) (rs : List CRow) : Nat :=
  if x.trans || x.layout = 1 then 0
  else if kind = 2 then lo
  else match rs.flatMap (fun r => r.entries) with
    | e :: _ => e.index
    | [] => 0

/-- The regions of a FORM 2 load (R163 to R165, R178): none when its header is refused. -/
def coordRegions (s : State) (tg al : Nat) (x : Desc) (kind : Nat) (th : Thread) (sR size : Nat) :
    Option (List (List PByte) × List Acc) :=
  let (h, bad, ha) := readHeader s tg al x
  if bad then some ([poisonedRegion size], ha)
  else if h.breaks x then none
  else
    let w0 := th.sreg sR
    let (first, n) := if kind = 2 then
        (fld w0 0 32, min (fld w0 32 16 + 1) (h.prows x.trans - fld w0 0 32)) else rowRange x h
    let lo := if kind = 2 then (th.sreg (sR + 1)).toNat else 0
    let hi := if kind = 2 then lo + fld (th.sreg (sR + 2)) 0 32 else 2 ^ 64
    let (rs, ca) := coordRows s tg al x h first n lo hi
    let base := baseOf x kind lo rs
    let recs := rowRecords base rs
    let cap := (size - 0x90) / 8
    if kind = 3 && cap < recs.length then
      let cut := recs.take (cap - 1) ++
        [((recs.getD (cap - 1) (0, [], false)).1, cleanBytes (leBytes 4 0xFFFFFFFF ++ leBytes 4 0), false)]
      some ([regionHeader cut.length ((cut.getD 0 (0, [], false)).1) true false true [base]
        ++ cut.flatMap (fun r => r.2.1)], ha ++ ca)
    else some (recordRegions size 8 [base] recs, ha ++ ca)

/-- Start a load: its regions are formed, and wait for handles. -/
def startLd (s : State) (tg : Nat) (c : Cmd) : Started :=
  let t := terrace s tg
  let w := c.w0
  let al := allotOf s tg
  let x := descOf c.th (fld w 44 4)
  let pool := fld w 38 2
  let q := fld w 40 4
  let kind := fld w 36 2
  let hG := c.th.hreg (fld w 23 4)
  let size := (poolOf t pool).size
  let held := if kind = 1 && bit w 17 then [hG] else []
  let exec (imgs : List (List PByte)) : Exec :=
    { cmd := c, outs := imgs.map imgOf, outQ := q, pool, held, ready := true }
  if x.form = 2 then
    match coordRegions s tg al x kind c.th (fld w 18 5) size with
    | none => (true, stageFault s tg c fDESCRIPTOR)
    | some (imgs, l) => openStream s tg [(x, l)] (exec imgs)
  else
    let z := gatedTensor s tg al x kind hG
    let imgs := if (lqOf t q).cons = 3 then arrange x z (c.th.sreg (fld w 27 5))
      else packRows size (z.rows.map (Row.pack x.format))
    let (ok, s') := openStream s tg [(x, z.accs)] (exec imgs)
    (ok, if ok then flagT s' tg z.ovf z.inv else s')

/-! ## Stores -/

/-- Does a masked STR.ST name one block row of a BSR tensor (R214)? It does when ROW_FIRST names a row past the first; the segment has no other mark.
DESIGN CHOICE: log 73. -/
def rowStore (x : Desc) (h : Header) : Bool := namesRow x h h.edge 0 && x.rowFirst ≠ 0

/-- The rows a store takes, and the bytes of each as they lie in regions (R366): none when the destination's header is refused. The rows and columns of a
compressing store are the header's. The accesses are those of the header and of the row it names. DESIGN CHOICE: log 73. -/
def storeShape (s : State) (tg al : Nat) (x : Desc) : Option (Nat × Nat × Nat) × List Acc :=
  if x.form = 2 then
    let (h, bad, ha) := readHeader s tg al x
    if bad || h.breaks x || (x.treq && 65536 < h.prows true) then (none, ha)
    else if rowStore x h then
      let (es, la) := listedEntries s tg al x h x.rowFirst 1
      let n := es.length * h.edge
      (some (h.edge, n, packedBytes x.format n), ha ++ la)
    else (some (h.rows, h.cols, packedBytes x.format h.cols), ha)
  else if x.trans then (some (x.e0 * x.e2 * x.e3, x.e1, packedBytes x.format x.e1), [])
  else (some (x.e1 * x.e2 * x.e3, x.e0, packedBytes x.format x.e0), [])

/-- Take whole rows of n bytes from one region, going on with a row begun earlier (R364): the rows completed, and what is left
of a row that goes on in the next region. -/
def takeRows (n : Nat) (img part : List PByte) (pos fuel : Nat) (acc : List (List PByte)) :
    List (List PByte) × List PByte :=
  match fuel with
  | 0 => (acc, part)
  | fuel + 1 =>
    let left := img.drop pos
    if !part.isEmpty then
      let need := n - part.length
      if left.length < need then (acc, part ++ left)
      else takeRows n img [] ((pos + need + 63) / 64 * 64) fuel (acc ++ [part ++ left.take need])
    else if left.isEmpty then (acc, [])
    else if n ≤ left.length then takeRows n img [] ((pos + n + 63) / 64 * 64) fuel (acc ++ [left.take n])
    else if n ≤ img.length then (acc, [])
    else (acc, left)

/-- The rows of a sequence of regions. -/
def rowsOf (n : Nat) (imgs : List Img) : List (List PByte) :=
  (imgs.foldl (fun (st : List (List PByte) × List PByte) i =>
    let bs := i.pbytes
    let (r, p) := takeRows n bs st.2 0 (bs.length / 64 + 2) []
    (st.1 ++ r, p)) ([], [])).1

/-- The codes and scales of a packed row of n elements. -/
def unpackRow (fmt n : Nat) (bs : List PByte) : Row :=
  { codes := codesOf (ebits fmt) n bs
    scales := if scaled fmt then scaleCodes ((bs.drop (rowBytes (ebits fmt) n)).take ((n + 31) / 32)) else [] }

/-- Write the rows of a store to its destination (R366, R128, R130). DEDUCED: log 17. -/
def storeRows (s : State) (tg al : Nat) (x : Desc) (cols : Nat) (rows : List Row) : Put × Bool :=
  let p : Put := { s, accs := [] }
  if x.form = 2 then
    let (h, _, ha) := readHeader s tg al x
    let vals := rows.map (fun r => Row.values x.format r cols)
    let d : Dense := { rows := rows.length, cols, pitch := h.cols, at' := fun r c => (vals.getD r []).getD c (.zero, false) }
    let p := { p with accs := ha }
    if x.cmode then
      (if rowStore x h then maskedRowStore p tg al x h x.rowFirst d else maskedStore p tg al x h d, false)
    else detectStore p tg al x h d
  else if x.trans then
    if scaled x.format then
      (putVals p tg al x (exchange x.e1 x.e0 (x.e2 * x.e3) (rows.map (fun r => Row.values x.format r cols))), false)
    else
      let z : Tensor := { fmt := x.format, e0 := x.e1, e1 := x.e0, e2 := x.e2, e3 := x.e3, rows, accs := [] }
      (putRows p tg al x (z.transpose x).rows, false)
  else (putRows p tg al x rows, false)

/-- The flags and the truncation of a store or a copy. -/
def storeNotes (s : State) (tg : Nat) (r : Put × Bool) : State :=
  let s := flagT s tg r.1.ovf r.1.inv
  if r.2 then
    match slotOf s tg with
    | some k => runErr s k 2
    | none => s
  else s

/-- What a store of unit u leaves: its writes sent, its accesses, flags and truncation noted, and the requests it is to be charged for. -/
def settle (tg u : Nat) (resv : Option Nat) (r : Put × Bool) : State × List Owed :=
  let a := streamed (r.1.sent tg (allotOf r.1.s tg)) tg u resv r.1.accs
  (storeNotes a.1 tg r, a.2)

/-- When a store has all its rows, write them. -/
def tryStore (s : State) (tg u : Nat) : State :=
  match execOf (terrace s tg) u with
  | none => s
  | some e =>
    let al := allotOf s tg
    let x := descOf e.cmd.th (fld e.cmd.w0 44 4)
    let (shape, sa) := storeShape s tg al x
    if atsMissing sa ≠ [] then atsAsk s (.terrace tg) al (atsMissing sa)
    else match shape with
    | none => stageFault s tg e.cmd fDESCRIPTOR
    | some (n, cols, len) =>
      let rows := rowsOf len (e.inp.headD [])
      if rows.length < n then s
      else
        let r := storeRows s tg al x cols ((rows.take n).map (unpackRow x.format cols))
        if atsMissing r.1.accs ≠ [] then atsAsk s (.terrace tg) al (atsMissing r.1.accs)
        else
          let a := settle tg u e.bound r
          passOwed (updTerrace a.1 tg (fun t =>
            let t := setExec t u { e with ready := true, accs := r.1.accs, owed := if x.space = 0 then a.2 else [] }
            if x.space = 0 then keepPartial t u r.1.accs else t)) tg u

/-- The store of a context takes its next region, if its queue holds one. -/
def feedStore (s : State) (tg u : Nat) : State :=
  match execOf (terrace s tg) u with
  | none => s
  | some e =>
    if e.ready || !(wMaj e.cmd.w0 == 0x04 && wMin e.cmd.w0 == 0x01) then s
    else
      match popQ (terrace s tg) (fld e.cmd.w0 40 4) with
      | none => missNext (tryStore s tg u) tg u (fld e.cmd.w0 40 4)
      | some (h, t) =>
        let s := setTerrace s tg t
        let img := imgOf (regionBytes s tg h)
        let s := updTerrace s tg (fun t => setExec t u { gotNext e with inp := [e.inp.headD [] ++ [img]] })
        let s := if bit e.cmd.w0 17 then freeHandle s tg e.cmd.thr e.cmd.th.pc.toNat h else s
        tryStore s tg u

/-- Start a store once its queue holds a region (R104): it holds a context and takes regions from its queue. -/
def startSt (s : State) (tg : Nat) (c : Cmd) : Started :=
  let al := allotOf s tg
  let x := descOf c.th (fld c.w0 44 4)
  let (shape, sa) := storeShape s tg al x
  if (lqOf (terrace s tg) (fld c.w0 40 4)).entries.isEmpty then (false, s)
  else if atsMissing sa ≠ [] then (false, atsAsk s (.terrace tg) al (atsMissing sa))
  else match shape with
  | none => (true, stageFault s tg c fDESCRIPTOR)
  | some _ =>
    let u := freeContext (terrace s tg)
    let (resv, s) := boundOn s tg x
    let touched := if x.bound then writeProbe s tg al x else []
    let go (s : State) : State :=
      feedStore (updTerrace s tg (fun t => setExec t u { cmd := c, bound := resv })) tg u
    if x.bound then
      match pinPages s tg u touched with
      | (none, l') => (true, stageFault (logUnit s tg l') tg c fDESCRIPTOR)
      | (some s', _) => (true, go s')
    else (true, go s)

/-! ## Copies -/

/-- The source of a copy as rows of values, planes together, with its extents and accesses. -/
def copySource (s : State) (tg al : Nat) (x : Desc) : Nat × Nat × List (List Val) × List Acc :=
  let z := readTensor s tg al x (fun _ => true)
  if x.form = 1 then
    let rows := operandLanes x z
    let k := x.window.kh * x.window.kw * x.e0
    (k, x.window.oh * x.window.ow,
     rows.map (fun r => (List.range k).map (fun c =>
       -- each tap keeps its own scale blocks (R149)
       let t := { codes := (r.codes.drop (c / x.e0 * x.e0)).take x.e0
                  scales := (r.scales.drop (c / x.e0 * ((x.e0 + 31) / 32))).take ((x.e0 + 31) / 32) : Row }
       t.value x.format (c % x.e0))), z.accs)
  else
    let vs := z.rows.map (fun r => Row.values x.format r x.e0)
    if x.trans then (x.e1, x.e0, exchange x.e0 x.e1 (x.e2 * x.e3) vs, z.accs) else (x.e0, x.e1, vs, z.accs)

/-- Write values in the source's orientation to a dense destination. -/
def copyInto (p : Put) (tg al : Nat) (d : Desc) (vs : List (List Val)) : Put :=
  putVals p tg al d (if d.trans then exchange d.e1 d.e0 (d.e2 * d.e3) vs else vs)

/-- Start a copy (R367): its whole effect at once; it holds its context until it is drained. -/
def startCpy (s : State) (tg : Nat) (c : Cmd) : Started :=
  let al := allotOf s tg
  let d := descOf c.th (fld c.w0 44 4)
  let x := descOf c.th (fld c.w0 40 4)
  -- n is the number of accesses made through the source's descriptor
  let done (r : Put × Bool) (n : Nat) : Started :=
    let opened (s : State) : Started :=
      openStream s tg [(x, r.1.accs.take n), (d, r.1.accs.drop n)] { cmd := c, ready := true }
    let probe := opened s
    if !probe.1 || (runOfT probe.2 tg).any (fun e => e.2.stopped) then probe
    else (true, storeNotes (({ r.1 with s := (opened r.1.s).2 } : Put).sent tg (allotOf s tg)) tg r)
  let fail : Started := (true, stageFault s tg c fDESCRIPTOR)
  if x.form = 2 then
    let (h, bad, ha) := readHeader s tg al x
    let p : Put := { s, accs := ha }
    if bad then
      if d.form = 2 then
        done (p.write tg al d.space d.base ((List.replicate 128 (0, true)) : List PByte), false) ha.length
      else
        let n := d.e1 * d.e2 * d.e3
        done (putRows p tg al d (List.replicate n
          { codes := List.replicate d.e0 (0, true)
            scales := if scaled d.format then List.replicate ((d.e0 + 31) / 32) (0, true) else [] }), false) ha.length
    else if h.breaks x then fail
    else if d.form = 2 then
      match copySegment p tg al x d h with
      | some (p, n) => done (p, false) n
      | none => fail
    else
      let (n, m, vs, strays, ga) := gatherDense s tg al x h
      if copyExtents d ≠ [m, n, 1, 1] then fail
      else done (strays.foldl (fun p e => putStray p tg al d e) (copyInto { p with accs := ha ++ ga } tg al d vs), false) (ha ++ ga).length
  else
    let (k, n, vs, sa) := copySource s tg al x
    if d.form = 2 then
      let (h, bad, ha) := readHeader s tg al d
      if atsMissing ha ≠ [] then (false, atsAsk s (.terrace tg) al (atsMissing ha))
      else if bad || h.breaks d || h.cols ≠ k || h.rows ≠ n || (copyExtents x).drop 2 ≠ [1, 1]
          || (d.treq && 65536 < h.prows true) then fail
      else
        let dn : Dense := { rows := n, cols := k, pitch := h.cols, at' := fun r c => (vs.getD r []).getD c (.zero, false) }
        let p : Put := { s, accs := sa ++ ha }
        if d.cmode then done (maskedStore p tg al d h dn, false) sa.length else done (detectStore p tg al d h dn) sa.length
    else done (copyInto { s, accs := sa } tg al d vs, false) sa.length

/-- Start the command at the head of the Sluice's queue. DEDUCED: log 16. -/
def startStr (s : State) (tg : Nat) (c : Cmd) : Started :=
  match wMin c.w0 with
  | 0 => startLd s tg c
  | 1 => startSt s tg c
  | 2 => startCpy s tg c
  | _ => sumpPost s tg c (fld c.w0 37 1) ((c.th.sreg (fld c.w0 38 5)).toNat % 2 ^ 52)

/-- A stream has drained: it releases its context and its pins, sends its partial packet, frees its bitmap handle, and its
translation faults are recorded (R104, R132, R331, R332). -/
def execStreamDrained (tg : Fin 64) (ctx : Fin 16) (s : State) : Host.Outcome State Fault Refusal :=
  let g := tg.val
  let u := ctx.val
  match execOf (terrace s g) u with
  | none => .next s
  | some e =>
    if !e.finished then .next s
    else
      let s := updTerrace s g (fun t => { delExec t u with pins := mdel t.pins u, partialPk := mdel t.partialPk u })
      let s := logUnit s g e.accs
      .next (freeHandles s g e.cmd.thr e.cmd.th.pc.toNat e.held)

end Sys2Proof.Machine
end

