-- ==== Sys2Proof/Machine/Outflow.lean ====
section
/-! DEFINITION. What the Outflow does with result tiles: dense stores of a tile (09 R222, R223), contribution packets to target
tiles (09 R227, R228, 16 R446), and the order of index records (09 R226). -/

namespace Sys2Proof.Machine

/-- An element of a result tile: its value, its poison, and whether it came by the float path (02 code 0x10). -/
structure REl where
  v : Num
  bad : Bool
  flt : Bool
  deriving Repr

/-- Rows exchanged with columns. -/
def flipGrid (g : List (List REl)) : List (List REl) :=
  (List.range ((g.headD []).length)).map (fun j => g.map (fun r => r.getD j { v := .zero, bad := false, flt := false }))

/-- The code of an element in a format; code 0x10 is the image of the accumulator word (02, Table 02-1). -/
def REl.encode (e : REl) (fmt : Nat) (rm : RM) (sat : Bool) : Enc :=
  if fmt = 0x10 && e.flt then .clean (rne32 e.v).toNat else encodeElem fmt rm sat e.v

/-- The part of a grid that lies inside a FORM 0 destination's first plane, in the destination's orientation (R222). -/
def clipGrid (x : Desc) (g : List (List REl)) : List (List REl) :=
  ((if x.trans then flipGrid g else g).take x.e1).map (fun r => r.take x.e0)

/-- Encode a destination row from its first element (R50, R223). -/
def encodeRowOf (fmt : Nat) (x : Desc) (r : Nat) (es : List REl) : Row × Bool × Bool :=
  if scaled fmt then encodeRow fmt x (r * x.e0) (es.map (fun e => (e.v, e.bad)))
  else
    let cs := es.zipIdx.map (fun (e, c) => (e.encode fmt (x.rm (r * x.e0 + c)) x.sat, e.bad))
    ({ codes := cs.map (fun c => (c.1.code, c.2)), scales := [] }, cs.any (fun c => c.1.ovf), cs.any (fun c => c.1.inv))

/-- Write the first elements of a destination row; a row that ends inside a byte of the tensor keeps the byte's other bits. -/
def putPart (p : Put) (tg al : Nat) (x : Desc) (r : Nat) (row : Row) : Put :=
  let w := ebits x.format
  let n := row.codes.length
  let bs := packRow w row.codes
  let a := x.rowAddr r
  let bs := if n < x.e0 && n * w % 8 ≠ 0 then
      let old := (spRead p.s tg al x.space (a + bs.length - 1) 1).data
      let keep := 2 ^ (n * w % 8)
      match bs.getLast?, old with
      | some (b, q), (o, z) :: _ =>
        bs.dropLast ++ [((BitVec.ofNat 8 (b.toNat % keep + o.toNat / keep * keep), q || z) : PByte)]
      | _, _ => bs
    else bs
  let p := p.write tg al x.space a bs
  if scaled x.format then
    p.write tg al x.space (x.scaleAddr + r * scalePitch x.space x.e0)
      (row.scales.map (fun (c : Code) => ((BitVec.ofNat 8 c.1, c.2) : PByte)))
  else p

/-- Store a grid in a FORM 0 destination. DEDUCED: log 17. -/
def putGrid (p : Put) (tg al : Nat) (x : Desc) (g : List (List REl)) : Put :=
  (clipGrid x g).zipIdx.foldl (fun p (es, r) =>
    let (row, o, v) := encodeRowOf x.format x r es
    let p := putPart p tg al x r row
    { p with ovf := p.ovf || o, inv := p.inv || v }) p

def poisonCount (g : List (List REl)) : Nat := (g.map (fun r => (r.filter (fun e => e.bad)).length)).sum

/-- Count poisoned elements that were written or contributed (R224). -/
def notePoison (s : State) (tg n : Nat) : State :=
  if n = 0 then s
  else
    let s := ctrAdd s (tBase tg + 0x140C) n
    match slotOf s tg with
    | some k => runPoison s k n
    | none => s

/-- A bound destination whose reservation is disabled is written as an unreserved one, and the item's error word says so (R332). -/
def markOpen (s : State) (tg : Nat) (x : Desc) (resv : Option Nat) : State :=
  match slotOf s tg with
  | some k => if x.bound && resv.isNone then runErr s k 10 else s
  | none => s

/-- Leave unit u ready to end with what a store has done: flags, poison, the partial packet and the requests that pass the Weir. -/
def outLeave (s : State) (tg u : Nat) (c : Cmd) (r : Put × Bool) (bad : Nat) (resv : Option Nat) (device : Bool) : State :=
  let a := settle tg u resv ({ r.1 with s }, r.2)
  passOwed (updTerrace (notePoison a.1 tg bad) tg (fun t =>
    let t := setExec t u { cmd := c, ready := true, bound := resv, accs := r.1.accs, owed := if device then a.2 else [] }
    if device then keepPartial t (u - 5) r.1.accs else t)) tg u

/-- Finish a store of the Outflow in unit u: wait for translations, pin the pages of a bound destination (R332),
and leave the unit ready to end. before is the state in which nothing is written. -/
def outStore (before : State) (tg u : Nat) (c : Cmd) (x : Desc) (r : Put × Bool) (bad : Nat) : Bool × State :=
  let al := allotOf before tg
  let l := r.1.accs
  match pinPages before tg u (if x.bound then l else []) with
  | (none, l') => (true, stageFault (logUnit before tg l') tg c fDESCRIPTOR)
  | (some s1, _) =>
    if atsMissing l ≠ [] then (false, atsAsk before (.terrace tg) al (atsMissing l))
    else
      let resv := (boundOn before tg x).1
      let s := if x.bound then
          markOpen (updTerrace r.1.s tg (fun t => { t with pins := (terrace s1 tg).pins })) tg x resv
        else r.1.s
      (true, outLeave s tg u c r bad resv (x.space = 0))

/-! ## Reduction control words (Tables 09-4, 09-5) -/

structure RedCtl where
  op : Nat
  fmt : Nat
  n1 : Nat
  ci : Nat
  guard : Nat
  rsv : Nat
  word : W64
  deriving DecidableEq, Repr

def RedCtl.ofWords (a b : W64) : RedCtl :=
  { op := fld a 60 4, fmt := fld a 55 5, n1 := fld a 47 8, ci := fld a 39 8, guard := fld b 0 52, rsv := fld a 0 39 + fld b 52 12, word := a }

/-- The destination format of an operation, if the combination is one of Table 09-5. -/
def RedCtl.dest (k : RedCtl) : Option Nat :=
  if k.op = 0 && [0x0E, 0x0C, 0x0F, 0x10].contains k.fmt then some k.fmt
  else if (k.op = 1 || k.op = 2) && (k.fmt = 0x0E || k.fmt = 0x10) then some 0x0F
  else none

/-- Does a control word or a destination break R227? A set reserved bit breaks it (DEDUCED: log 11). -/
def RedCtl.breaks (k : RedCtl) (x : Desc) : Bool :=
  k.dest ≠ some x.format || x.form ≠ 0 || x.layout ≠ 0 || x.space ≠ 0 || x.base % 4096 ≠ 0 || k.guard % 64 ≠ 0 || k.rsv ≠ 0

/-- Bytes of an element of the target. -/
def RedCtl.size (k : RedCtl) : Nat := if k.op ≠ 0 || k.fmt = 0x0F then 8 else if k.fmt = 0x0C then 2 else 4

/-- The identity of an operation (R231). -/
def redIdentity (op : Nat) : Nat := if op = 0 then 0 else 0xFFFFFFFF

/-! ## Index records (R225, R226) -/

/-- An 8-byte record as its code: VALUE in the high half, INDEX in the low half. -/
def recCode (value index : Nat) : Nat := value % 2 ^ 32 * 2 ^ 32 + index % 2 ^ 32

/-- Is value a ahead of b: larger under MAXI, smaller under MINI, with every NaN behind every number? -/
def valueBefore (op : Nat) (a b : Num) : Bool :=
  if a.isNan then false else if b.isNan then true
  else if op = 1 then Num.lt b a else Num.lt a b

/-- The value of a record. -/
def recValue (fmt c : Nat) : Num := if fmt = 0x10 then .ofInt (sint 32 (c / 2 ^ 32)) 0 else f32 (BitVec.ofNat 32 (c / 2 ^ 32))

/-- Does record a win over record b (R226)? DEDUCED: log 23. -/
def recWins (op fmt a b : Nat) : Bool :=
  let empty (c : Nat) : Bool := c % 2 ^ 32 == 0xFFFFFFFF
  if empty b then true else if empty a then false
  else
    let x := recValue fmt a
    let y := recValue fmt b
    if valueBefore op x y then true else if valueBefore op y x then false else decide (a % 2 ^ 32 ≤ b % 2 ^ 32)

/-! ## Contribution packets (R228) -/

/-- The elements of a grid as they fall in the target: device virtual address, code, poison; with the flags set. An index record's
INDEX is the element's dimension-0 index (R225); first is the linear index of the grid's first element in the output tensor (R52). -/
def targetElems (x : Desc) (k : RedCtl) (first : Nat) (g : List (List REl)) : List (Nat × Nat × Bool) × Bool × Bool :=
  let es := (clipGrid x g).zipIdx.flatMap (fun (row, r) => row.zipIdx.map (fun (e, c) =>
    let q := e.encode k.fmt (x.rm (first + r * x.e0 + c)) x.sat
    (x.rowAddr r + c * k.size, if k.op = 0 then q.code else recCode q.code c, e.bad, q.ovf, q.inv)))
  (es.map (fun e => (e.1, e.2.1, e.2.2.1)), es.any (fun e => e.2.2.2.1), es.any (fun e => e.2.2.2.2))

/-- A contribution's bytes for a peer: from its first element to its last, whole sectors when some element is poisoned; bytes between
elements carry the identity. DEDUCED: log 24. -/
def contribBytes (k : RedCtl) (es : List (Nat × Nat × Bool)) : Nat × List Byte × List Nat :=
  let bad := es.any (fun e => e.2.2)
  let lo := (es.map (fun e => e.1)).foldl min 4096
  let hi := (es.map (fun e => e.1 + k.size)).foldl max 0
  let lo := if bad then lo / 32 * 32 else lo
  let hi := if bad then (hi + 31) / 32 * 32 else hi
  let data := (List.range ((hi - lo) / k.size)).flatMap (fun i =>
    leBytes k.size (match es.find? (fun e => e.1 = lo + i * k.size) with
      | some e => e.2.1
      | none => redIdentity k.op))
  (lo, data, (List.range ((hi - lo + 31) / 32)).filter (fun q => es.any (fun e => e.2.2 && (e.1 - lo) / 32 == q)))

/-- Send one packet for a target tile, or drop it when its addresses fail (R228). It is applied after the packets that any die
sent to that guard before it: R23 orders those of one die only. DEDUCED: log 24. DESIGN CHOICE: log 72. -/
def sendTile (s : State) (tg : Nat) (c : Cmd) (base : Nat) (k : RedCtl) (tileVa : Nat) (es : List (Nat × Nat × Bool)) : State :=
  match runOfT s tg with
  | none => s
  | some (slot, r) =>
    let al := r.allot
    let s := satAdd s (tBase tg + 0x1414) 0 0 32 1
    let recVa := (k.guard + (tileVa - base) / 4096 * 64) % 2 ^ 52
    let tag := if 1 < r.modules then r.group else r.tag
    let drop (s : State) (va kind : Nat) : State :=
      logXlt (runErr s slot 5) (some slot) { va, kind, acc := 2, allot := al, src := tg, count := 1 }
    match xlate s (.terrace tg) al tileVa (permW + permA), xlate s (.terrace tg) al recVa (permW + permA) with
    | .error q, _ => drop s tileVa (if q = 8 then 3 else q)
    | _, .error q => drop s recVa (if q = 8 then 3 else q)
    | .ok t, .ok g =>
      match tierOf s t, tierOf s g with
      | .hbm, .hbm =>
        let p : Contribution := { allot := al, slot := some slot, tag, tileVa, tile := t, record := g, op := k.op, fmt := k.fmt
                                  n1 := k.n1, ci := k.ci, elems := es, sender := some (tg, c.thr), src := terraceDie tg, recVa := some recVa }
        sendVc2 s (homeSaddle t) p
      | .peer m, .peer m' =>
        if m ≠ m' then drop s tileVa 3
        else
          let (lo, data, bad) := contribBytes k es
          skvSend s (some { tg := some tg, thr := some c.thr, slot := some slot, va := tileVa + lo }) { skvPacket 6 2 false m with
            sal := BitVec.ofNat 10 al, dlen := data.length, addr := BitVec.ofNat 64 (peerOff (t + lo)), tag := BitVec.ofNat 48 tag
            goff := BitVec.ofNat 40 (peerOff g), ctrl := k.word &&& 0xFFFFFF8000000000#64, data, bad }
      | .hbm, _ => drop s recVa 3
      | _, _ => drop s tileVa 3

/-- The requests of a reduction's packets, one for each tile: those of a target that is not bound pass the terrace and allotment buckets (R334). -/
def tileOwed (s : State) (tg : Nat) (x : Desc) (k : RedCtl) (es : List (Nat × Nat × Bool)) : List Owed :=
  if (boundOn s tg x).1.isSome then []
  else (distinct (es.map (fun e => e.1 % 2 ^ 52 / 4096))).map (fun q =>
    { bytes := (es.filter (fun e => e.1 % 2 ^ 52 / 4096 = q)).length * k.size })

/-- Send every packet of an instruction, tile by tile. -/
def sendTiles (s : State) (tg : Nat) (c : Cmd) (x : Desc) (k : RedCtl) (es : List (Nat × Nat × Bool)) : State :=
  (distinct (es.map (fun e => e.1 % 2 ^ 52 / 4096))).foldl (fun s q =>
    sendTile s tg c x.base k (q * 4096)
      ((es.filter (fun e => e.1 % 2 ^ 52 / 4096 = q)).map (fun e => (e.1 % 4096, e.2)))) s

end Sys2Proof.Machine
end

