-- ==== Sys2Proof/Machine/Skovuk.lean ====
section
/-! DEFINITION. Skovuk: ports and lanes, the link layer, routing, end-to-end delivery, and requests from and to peers (16 R432 to
R448, R450). The Freeboard messages of R449 are in Machine/Power.lean. -/

namespace Sys2Proof.Machine

/-! ## Ports and lanes (R433, R434) -/

/-- Write the state of a port; a change is a cause (Table 19-8). -/
def setPortState (s : State) (k st : Nat) : State :=
  if (skvPort s k).state = st then s else intCause (updPort s k (fun x => { x with state := st })) 9

/-- Send every packet held for a destination on a channel again, by the current route (R442). -/
def resend (s : State) (key : Nat) : State :=
  let l := (mget s.e2e key {}).held
  let s := satAdd s 0x7000184 0 16 16 l.length
  l.foldl (fun s h => skvOut s h.pkt) s

/-- Does the route to a destination use a port: its primary, or its alternate while the primary is not Up (R441)? -/
def routeUses (s : State) (k dest : Nat) : Bool :=
  let e := mget s.rte dest 0
  bit e 31 && (fld e 0 3 == k || (fld e 4 3 == k && !(skvUp s (fld e 0 3))))

/-- A port goes Down: what it holds is lost, and the sources on this module resend what was routed through it (R434, R442). -/
def portDown (s : State) (k : Nat) : State :=
  let keys := if (skvPort s k).state = 0 then [] else
    (s.e2e.filter (fun e => !e.2.held.isEmpty && routeUses s k (e.1 / 4))).map (fun e => e.1)
  let s := setPortState s k 0
  let s := updPort s k (fun x => { x with
    lanes := 0, txSeq := 0, retry := [], tries := 0, rxNext := 0, asked := false, removed := 0, sent := [], owed := [], waitQ := [] })
  keys.foldl resend s

/-- Log a port held Down or a packet discarded (code 0x18). -/
def skvLog (s : State) (k id ptype : Nat) : State := rasAppend s 0x18 0 7 k none (id % 2 ^ 14 + ptype * 2 ^ 56)

/-- Send what the retry buffer holds again, from an LSEQ onward (R439). -/
def replay (s : State) (k : Nat) (first : BitVec 16) : State :=
  let l := (skvPort s k).retry.filter (fun e => decide ((e.1 - first).toNat < 2 ^ 15))
  if l.isEmpty then s
  else l.foldl (fun s e => sendFlit s k (packetFlit e.2.1 e.2.2 e.1)) (satAdd s (0x7000104 + 0x10 * k) 0 16 16 l.length)

/-- A port retrains for another reason than a lane it has lost: the lanes removed before are tried again (R434). -/
def retrain (s : State) (k : Nat) : State := setPortState (updPort s k (fun x => { x with removed := 0 })) k 1

/-- Training ends (R433, R434, R440): the port reports this module's ID, learns its partner, and runs on 4 to 8 lanes, none of them one that was removed
since it last trained for another reason. A port that retrained goes on with what its retry buffer holds. -/
def execSkvPortTrained (port : Fin 8) (mask : Byte) (mgr : Bool) (partner : BitVec 14) (rtt : Nat) (s : State) :
    Host.Outcome State Fault Refusal :=
  let k := port.val
  if !(skvIdValid s) then .next s
  else
    let s := emit s (.report k (skvId s) false)
    let lanes := mask &&& ~~~(skvPort s k).removed
    if !mgr && partner.toNat = skvId s then .next (skvLog (portDown s k) k partner.toNat 0)
    else if laneCount lanes < 4 then .next (portDown s k)
    else
      let s := updPort s k (fun x => { x with lanes, mgr, partner := partner.toNat, rtt := min 0xFFFF rtt, asked := false })
      let s := setPortState s k (if lanes = 0xFF#8 then 2 else 3)
      .next (drainPort (match (skvPort s k).retry with
        | e :: _ => replay s k e.1
        | [] => s) k)

/-- A lane that lost lock or needs too much correction is removed: the port retrains on the others, or goes Down (R434). So is a lane lost while the
port retrains. -/
def execSkvLaneRemove (port lane : Fin 8) (s : State) : Host.Outcome State Fault Refusal :=
  let k := port.val
  if (skvPort s k).state = 0 || !(bit (skvPort s k).lanes lane.val) then .next s
  else
    let s := satAdd s (0x7000104 + 0x10 * k) 0 0 8 1
    let lanes := setFld (skvPort s k).lanes lane.val 1 0
    if laneCount lanes < 4 then .next (portDown s k)
    else .next (setPortState (updPort s k (fun x => { x with lanes, removed := setFld x.removed lane.val 1 1 })) k 1)

/-! ## The link layer (R437 to R439) -/

/-- Free the flits up to an acknowledged LSEQ. -/
def ackFlits (s : State) (k : Nat) (ack : BitVec 16) : State :=
  updPort s k (fun x =>
    let rest := x.retry.filter (fun e => !(decide ((ack - e.1).toNat < 2 ^ 15)))
    { x with retry := rest, tries := if rest.length < x.retry.length then 0 else x.tries })

/-- Ask the partner to send again from the first missing flit (R439). -/
def requestReplay (s : State) (k : Nat) : State := sendBare (updPort s k (fun x => { x with asked := true })) k 2

/-- The same, once while the replay is still to come. -/
def askReplay (s : State) (k : Nat) : State := if (skvPort s k).asked then s else requestReplay s k

/-- Take the credits a flit returns. -/
def takeCredits (x : SkvPort) (cred : List Nat) : SkvPort :=
  { x with sent := (List.range 4).foldl (fun m c => mset m c (mget m c 0 - cred.getD c 0)) x.sent }

/-- The partner asks for flits again: a flit asked for eight times makes the port retrain (R439). -/
def onReplay (s : State) (k : Nat) (lseq : BitVec 16) : State :=
  let s := ackFlits s k (lseq - 1)
  let x := skvPort s k
  if x.retry.isEmpty then s
  else if 8 ≤ x.tries then retrain (updPort s k (fun x => { x with tries := 0 })) k
  else replay (updPort s k (fun x => { x with tries := x.tries + 1 })) k lseq

/-- A port that has sent no flit still returns what it owes, in an idle one (R437, R438). -/
def returnCredits (s : State) (k : Nat) : State :=
  if skvUp s k && !(skvPort s k).owed.isEmpty then sendBare s k 1 else s

/-- What a good flit of a known type does. -/
def takeFlit (s : State) (k : Nat) (f : Flit) : State :=
  let s := updPort (ackFlits s k f.ack) k (fun x => takeCredits x f.cred)
  let x := skvPort s k
  let late := (f.lseq - x.rxNext).toNat
  if f.ftype = 2 then onReplay s k (f.ack + 1)
  else if f.ftype = 1 then (if f.lseq + 1 = x.rxNext || 2 ^ 15 ≤ (f.lseq - x.rxNext).toNat then s else askReplay s k)
  else if late = 0 then updPort s k (fun x => { x with
    rxNext := x.rxNext + 1, asked := false, owed := mset x.owed f.vc.val (mget x.owed f.vc.val 0 + 1) })
  else if late < 2 ^ 15 then askReplay s k
  else s

/-- A flit reaches a port. One whose CRC fails is asked for again, in a replay too; a later flit asks only while no replay is on its way (R439).
DEDUCED: log 53. -/
def execSkvFlitReceive (port : Fin 8) (f : Flit) (s : State) : Host.Outcome State Fault Refusal :=
  let k := port.val
  if !(skvUp s k) then .next s
  else if !f.ok then .next (requestReplay s k)
  else if 3 ≤ f.ftype then .next s
  else .next (returnCredits (drainPort (takeFlit s k f) k) k)

def execSkvReplayRequest (port : Fin 8) (lseq : BitVec 16) (s : State) : Host.Outcome State Fault Refusal :=
  if skvUp s port.val then .next (onReplay s port.val lseq) else .next s

/-- 100 us without an acknowledgement retrain the port (R439). -/
def execSkvLinkAckTimeout (port : Fin 8) (s : State) : Host.Outcome State Fault Refusal :=
  if skvUp s port.val && !(skvPort s port.val).retry.isEmpty then .next (retrain s port.val) else .next s

/-! ## Packets (R436, R441, R442) -/

/-- The channel of a packet kind (Table 16-5). -/
def skvChannel (ptype : Nat) : Nat := if ptype ≤ 2 then 0 else if ptype ≤ 5 then 1 else if ptype = 6 then 2 else 3

/-- Is a packet one a receiving Headwork discards (R436)? DEDUCED: log 53. -/
def skvMalformed (p : SkvPacket) : Bool :=
  p.ptype = 0 || 10 ≤ p.ptype || p.vc ≠ skvChannel p.ptype || p.rsv || 4096 < p.dlen

/-- Is a packet for this module? -/
def forUs (s : State) (p : SkvPacket) : Bool := skvIdValid s && !p.dkind && p.dest.toNat = skvId s

/-- A packet for another destination goes on by the route table, or is discarded (R441). DEDUCED: log 53. -/
def transit (s : State) (p : SkvPacket) : State :=
  if p.hops ≤ 1 then skvLog s p.port.val p.src.toNat p.ptype else skvOut s { p with hops := p.hops - 1 }

def execSkvTransit (p : SkvPacket) (s : State) : Host.Outcome State Fault Refusal :=
  if !(skvUp s p.port.val) then .next s
  else if skvMalformed p then .next (skvLog s p.port.val p.src.toNat p.ptype)
  else if forUs s p then .next s
  else .next (transit s p)

/-- Acknowledge what has been delivered from a source on a channel: an EACK is neither numbered nor held (R436). -/
def sendEack (s : State) (p : SkvPacket) : State :=
  let n := (e2eOf s (pktSrc p) p.vc).expect - 1
  skvOut s { skvPacket 5 1 p.skind p.src.toNat with
    addr := BitVec.ofNat 64 (n.toNat + p.vc % 4 * 2 ^ 32), src := BitVec.ofNat 14 (skvId s) }

/-- A packet of a kind reaches this module: it is delivered when it is the next in sequence from its source on its channel, and
acknowledged (R442). A packet of another kind is another row's command. DESIGN CHOICE: log 66. -/
def inbound (ptype : Nat) (p : SkvPacket) (s : State) (k : State → State) : Host.Outcome State Fault Refusal :=
  if !(skvUp s p.port.val) then .next s
  else if skvMalformed p then .next (skvLog s p.port.val p.src.toNat p.ptype)
  else if p.ptype ≠ ptype then .next s
  else if !(forUs s p) then .next (transit s p)
  else
    let x := (e2eOf s (pktSrc p) p.vc).expect
    if p.eseq = x then
      let s := updE2e s (pktSrc p) p.vc (fun e => { e with expect := x + 1 })
      .next (sendEack (k s) p)
    else if (p.eseq - x).toNat < 2 ^ 31 then .next s
    else .next (sendEack (satAdd s 0x7000184 0 0 16 1) p)

/-! ## The inbound window table (R444) -/

/-- Does an entry allow a request of the permissions need on the byte ranges given? -/
def winAllows (s : State) (e : SkvWin) (p : SkvPacket) (need : Nat) (ranges : List (Nat × Nat)) : Bool :=
  let lo := fld e.base 0 19 * 2 ^ 21
  let hi := lo + fld e.len 0 19 * 2 ^ 21
  bit e.base 31 && hi ≤ hbmCap s.guarded && !p.skind
  && fld e.src 0 14 ≤ p.src.toNat && p.src.toNat < fld e.src 0 14 + fld e.src 14 14
  && fld e.sal 0 10 == p.sal.toNat && (fld e.base 28 3 &&& need) == need
  && ranges.all (fun r => decide (lo ≤ r.1) && decide (r.1 + r.2 ≤ hi))

/-- The owner of the first entry that allows a request. DEDUCED: log 54. -/
def winOwner (s : State) (p : SkvPacket) (need : Nat) (ranges : List (Nat × Nat)) : Option Nat :=
  (s.win.find? (fun e => winAllows s e.2 p need ranges)).map (fun e => fld e.2.sal 16 10)

/-- A request no entry allows is logged and counted. -/
def refusePeer (s : State) (p : SkvPacket) : State :=
  satAdd (rasAppend s 0x15 1 7 p.port.val none (p.src.toNat + p.sal.toNat * 2 ^ 14)) 0x7000180 0 0 32 1

/-- The offset a request names (R323). -/
def peerAddr (p : SkvPacket) : Nat := p.addr.toNat % 2 ^ 40

/-- The answer to a request. -/
def answerPeer (p : SkvPacket) (ptype : Nat) (refused : Bool) (data : List Byte) (bad : List Nat) : SkvPacket :=
  let data := padded data bad
  { skvPacket ptype 1 p.skind p.src.toNat with
    sal := p.sal, addr := BitVec.ofNat 64 (p.eseq.toNat + refused.toNat * 2 ^ 32), dlen := data.length, data, bad }

/-- The path of a peer's request: an access of the window's owner (R445). DESIGN CHOICE: log 67. -/
def peerPath (s : State) (owner : Nat) : Path := { num := 7, cls := allotRank s owner, allot := owner }

/-- The bytes a peer's request reads or writes. -/
def peerLen (p : SkvPacket) : Nat := if p.ptype = 2 then p.data.length else p.dlen

/-- Perform a READ or WRITE that the window table allows, and answer it (R445). -/
def servePeer (s : State) (owner : Nat) (p : SkvPacket) : State :=
  let s := (saddlePass s (peerPath s owner) (peerAddr p) (peerLen p) (p.ptype == 2)).2
  if p.ptype = 2 then
    skvSend (dpaWrite s (peerAddr p) ({ bytes := p.data, bad := p.bad } : Img).pbytes) none (answerPeer p 4 false [] [])
  else
    let i := imgOf (dpaRead s (peerAddr p) p.dlen)
    skvSend s none (answerPeer p 3 false i.bytes i.bad)

/-- A peer's request waits for its Saddle port bucket, or behind one of its source that waits; else it is performed. -/
def takePeer (s : State) (owner : Nat) (p : SkvPacket) : State :=
  let a := peerAddr p
  let behind := (List.range 2).any (fun n => (saddle s n).waits.any (fun x => match x with
    | .peer _ q => pktSrc q == pktSrc p
    | _ => false))
  if behind || mustWait s (peerPath s owner) a (peerLen p) (p.ptype == 2) then
    updSaddle s (homeSaddle a) (fun d => { d with waits := d.waits ++ [.peer owner p] })
  else servePeer s owner p

/-- An inbound READ (R444, R445). -/
def execRead (p : SkvPacket) (s : State) : Host.Outcome State Fault Refusal :=
  inbound 1 p s (fun s =>
    match winOwner s p permR [(peerAddr p, p.dlen)] with
    | some al => takePeer s al p
    | none => skvSend (refusePeer s p) none
        (answerPeer p 3 true (List.replicate p.dlen 0) (List.range ((p.dlen + 31) / 32))))

/-- An inbound WRITE (R444, R445). -/
def execWrite (p : SkvPacket) (s : State) : Host.Outcome State Fault Refusal :=
  inbound 2 p s (fun s =>
    match winOwner s p permW [(peerAddr p, p.data.length)] with
    | some al => takePeer s al p
    | none => skvSend (refusePeer s p) none (answerPeer p 4 true [] []))

/-- The contribution a CONTRIB packet carries. -/
def contribOf (p : SkvPacket) (owner : Nat) : Contribution :=
  let o := peerAddr p
  let c : Contribution := { allot := owner, slot := none, tag := p.tag.toNat, tileVa := o / 4096 * 4096, tile := o / 4096 * 4096
                            record := p.goff.toNat, op := fld p.ctrl 60 4, fmt := fld p.ctrl 55 5, n1 := fld p.ctrl 47 8
                            ci := fld p.ctrl 39 8, elems := [], sender := none }
  let size := if c.op ≠ 0 || c.fmt = 0x0F then 8 else if c.fmt = 0x0C then 2 else 4
  { c with elems := (List.range (min p.data.length (4096 - o % 4096) / size)).map (fun i =>
      (o % 4096 + i * size, leNat ((p.data.drop (i * size)).take size), p.bad.contains (i * size / 32))) }

/-- An inbound CONTRIB goes to the guard of its tile's Saddle, in order of arrival (R444, R446, 09 R231). DEDUCED: log 54. -/
def execContrib (p : SkvPacket) (s : State) : Host.Outcome State Fault Refusal :=
  inbound 6 p s (fun s =>
    match winOwner s p (permW + permA) [(peerAddr p, p.data.length), (p.goff.toNat, 64)] with
    | some al =>
      let c := { contribOf p al with src := headworkDie (p.port.val / 4) }
      sendVc2 s (homeSaddle c.tile) c
    | none => refusePeer s p)

/-! ## Answers to this module's requests -/

/-- Is the run that made a request still going? -/
def reqLive (s : State) (q : SkvReq) : Bool :=
  !q.dead && (match q.slot with
    | none => true
    | some k => match mget? s.runs k with
      | some r => !r.stopped
      | none => false)

/-- Record a refused or abandoned request (R443, R444): KIND PERM, in the item's completion too. -/
def reqFault (s : State) (q : SkvReq) : State :=
  logXlt s q.slot
    { va := q.va, kind := 1, acc := if q.wr then 1 else 0, allot := q.allot, src := q.src
      count := min 0x1FF ((sectorParts q.addr q.len).length) }

/-- Put the data of a read in place for the stream that waits for it. -/
def reqData (s : State) (q : SkvReq) (bs : List PByte) : State :=
  if reqLive s q then
    { s with peer := s.peer.write q.addr bs
             got := (sectorParts q.addr q.len).foldl (fun l p => setIns l ((q.addr + p.1) / 32)) s.got }
  else s

/-- Take the request that a packet answers. -/
def takeReq (s : State) (p : SkvPacket) (wr : Bool) : Option (SkvReq × List SkvReq) :=
  takeFirst (fun q => q.wr == wr && q.dest == pktSrc p && q.eseq == BitVec.ofNat 32 p.addr.toNat) s.skvReqs

def execRdata (p : SkvPacket) (s : State) : Host.Outcome State Fault Refusal :=
  inbound 3 p s (fun s =>
    match takeReq s p false with
    | none => s
    | some (q, rest) =>
      let s := { s with skvReqs := rest }
      retryStarts (retryStores (if bit p.addr 32 then reqData (reqFault s q) q (badZeros q.len)
        else reqData s q (({ bytes := p.data, bad := p.bad } : Img).pbytes.take q.len))))

def execWack (p : SkvPacket) (s : State) : Host.Outcome State Fault Refusal :=
  inbound 4 p s (fun s =>
    match takeReq s p true with
    | none => s
    | some (q, rest) =>
      let s := { s with skvReqs := rest }
      retryStores (if bit p.addr 32 then reqFault s q else s))

/-- An end-to-end acknowledgement frees what is held up to its number, and lets what waits go (R442). -/
def execEack (p : SkvPacket) (s : State) : Host.Outcome State Fault Refusal :=
  if !(skvUp s p.port.val) then .next s
  else if skvMalformed p then .next (skvLog s p.port.val p.src.toNat p.ptype)
  else if p.ptype ≠ 5 then .next s
  else if !(forUs s p) then .next (transit s p)
  else
    let n : W32 := BitVec.ofNat 32 p.addr.toNat
    .next (skvRetry (updE2e s (pktSrc p) (fld p.addr 32 2) (fun e =>
      { e with held := e.held.filter (fun h => !(decide ((n - h.pkt.eseq).toNat < 2 ^ 31))) })))

/-- An MCTP packet of the fabric manager is delivered to Exmas. -/
def execMgmt (p : SkvPacket) (s : State) : Host.Outcome State Fault Refusal :=
  inbound 9 p s (fun s => { s with mgmtIn := s.mgmtIn ++ [(pktSrc p, p.data)] })

/-- 100 us without an end-to-end acknowledgement: every packet held is sent again (R442). -/
def execSkvE2eTimeout (mgr : Bool) (dest : BitVec 14) (ch : Fin 4) (s : State) : Host.Outcome State Fault Refusal :=
  .next (resend s (skvDest mgr dest.toNat * 4 + ch.val))

/-- A contribution that is given up is recorded as a fault of its item, KIND PERM (R443); a request that is given up has its own record. DEDUCED: log 54. -/
def contribLost (s : State) (origin : Option Origin) (p : SkvPacket) : State :=
  match origin with
  | some o => if p.ptype = 6 then logXlt s o.slot { va := o.va, kind := 1, acc := 2, allot := p.sal.toNat, src := o.tg.getD 0, count := 1 } else s
  | none => s

/-- A destination silent for 10 ms is abandoned (R443): its packets are discarded, its reads return poison and its writes are dropped, as
faults of KIND PERM. -/
def execSkvDestUnreachable (mgr : Bool) (dest : BitVec 14) (s : State) : Host.Outcome State Fault Refusal :=
  let d := skvDest mgr dest.toNat
  if (List.range 4).all (fun c => (e2eOf s d c).held.isEmpty) then .next s
  else
    let hd := skvHd s d
    let lost := (s.e2e.filter (fun e => e.1 / 4 = d)).flatMap (fun e => e.2.held.map (fun h => (h.origin, h.pkt)))
      ++ s.skvWait.filter (fun w => pktDest w.2 = d)
    let s : State := { s with
      e2e := s.e2e.map (fun e => if e.1 / 4 = d then (e.1, { e.2 with held := [] }) else e)
      skvWait := s.skvWait.filter (fun w => pktDest w.2 ≠ d)
      skv := s.skv.map (fun e => (e.1, { e.2 with waitQ := e.2.waitQ.filter (fun p => !(pktDest p == d && pktSrc p == skvId s)) })) }
    let qs := s.skvReqs.filter (fun q => q.dest = d)
    let s : State := { s with skvReqs := s.skvReqs.filter (fun q => q.dest ≠ d) }
    let s := qs.foldl (fun s q => let s := reqFault s q; if q.wr then s else reqData s q (badZeros q.len)) s
    let s := lost.foldl (fun s w => contribLost s w.1 w.2) s
    .next (retryStarts (retryStores (skvRetry (rasAppend s 0x16 1 4 hd none dest.toNat))))

/-! ## Route and window tables (R441, R444, R450) -/

/-- Does the module hold a packet for a destination? -/
def holdsFor (s : State) (d : Nat) : Bool :=
  (List.range 4).any (fun c => !(e2eOf s d c).held.isEmpty) || s.skvWait.any (fun w => pktDest w.2 == d)
  || s.skv.any (fun e => e.2.retry.any (fun x => pktDest x.2.1 == d) || e.2.waitQ.any (fun p => pktDest p == d))

/-- A write of SKV_RTE_DATA updates the selected entry, unless it is in use and packets for it are held. -/
def execSkvRteWrite (r : Requester) (v : W32) (s : State) : Host.Outcome State Fault Refusal :=
  .next (pfWrite s r 0x7000204 v.toNat (fun s =>
    let sel := rg s 0x7000200 0
    let k := skvDest (bit sel 14) (fld sel 0 14)
    if (bit sel 14 && 255 < fld sel 0 14) || (bit (mget s.rte k 0) 31 && holdsFor s k) then logDropped s 0x7000204 v.toNat
    else { s with rte := mset s.rte k (v &&& 0x80000077#32) }))

/-- A write of a window register updates the selected entry. -/
def execSkvWinWrite (r : Requester) (reg : Fin 4) (v : W32) (s : State) : Host.Outcome State Fault Refusal :=
  .next (pfWrite s r (0x7000304 + 4 * reg.val) v.toNat (fun s =>
    let k := fld (rg s 0x7000300 0) 0 8
    let e := mget s.win k {}
    { s with win := mset s.win k (match reg.val with
      | 0 => { e with base := v &&& 0xF007FFFF#32 }
      | 1 => { e with len := v &&& 0x7FFFF#32 }
      | 2 => { e with src := v &&& 0xFFFFFFF#32 }
      | _ => { e with sal := v &&& 0x3FF03FF#32 }) }))

end Sys2Proof.Machine
end

