-- ==== Sys2Proof/Machine/Guarantee.lean ====
section
/-! DEFINITION. The accepted-work guarantee: journal steps and their effects, retirement, and single-part faults (15 R406 to R429, 14
R383). -/

namespace Sys2Proof.Machine

/-! ## Journal steps (R409, R414) -/

/-- A replay counts in JRN_REPLAY of a Headwork (Table 15-11). -/
def countReplays (s : State) (hd n : Nat) : State := satAdd s (hBase hd + 0x6000C) 0 0 32 n

/-- Is a step one that starts a replay (R420)? -/
def JStep.replays (st : JStep) : Bool := match st.eff with
  | .replay _ => true
  | _ => false

/-- The other copy takes a step; a survivor's copy has taken it alone (R414). -/
def holdStep (s : State) (st : JStep) : State :=
  if !s.hdFailed.isEmpty then s
  else
    let s : State := { s with jrn1 := applyStep s.jrn1 st }
    if st.replays then countReplays s 1 1 else s

/-- Does a later step in flight move a slot on, so that an effect of the step now complete is over? -/
def movedOn (s : State) (k : Nat) : Bool := s.jsteps.any (fun j => j.slots.any (fun e => e.1 = k))

/-- The external effect of a complete step. -/
def stepEffect (s : State) : Effect → State
  | .none => s
  | .completed _ => s
  | .retStep _ => s
  | .accept q acc =>
    let s := updQue s q (fun x => { x with acc })
    if freeSlots s = 0 then journalFull s true else s
  | .start k => if working s && !(movedOn s k) then startItem s k else s
  | .commitCopy k => if working s && !(movedOn s k) then commitCopies s k else s
  | .write k => match slotAt s k with
    | some x => sendCompl (updQue s x.q (fun y => { y with seq := x.seq + 1 })) k true
    | none => s
  | .freed => if s.jfull && decide (1024 ≤ freeSlots s) then journalFull s false else s
  | .replay k => match slotAt s k with
    | some x => gaugePost s 7 (x.q / 64) [BitVec.ofNat 64 (x.q % 64 + x.seq.toNat * 2 ^ 32)] false
    | none => s

/-- The oldest step in flight completes. DESIGN CHOICE: log 42. -/
def completeStep (s : State) : State :=
  match s.jsteps with
  | [] => s
  | st :: rest => stepEffect (holdStep { s with jsteps := rest } st) st.eff

def execJournalStepComplete (s : State) : Host.Outcome State Fault Refusal := .next (completeStep s)

/-! ## Retirement (R426 to R429) -/

/-- The retirement in progress. -/
def retiring (s : State) : Option RetRec :=
  match (jrn s).ret with
  | some r => if r.rstep < 7 then some r else none
  | none => none

/-- Journal the last completed step. -/
def recordStep (s : State) (r : RetRec) (n : Nat) : State :=
  request s { ret := some (some { r with rstep := n }), eff := .retStep n }

/-- The next trigger starts: its terraces are marked Retiring, and no span includes them from then on. DEDUCED: log 44. -/
def execRetirementStart (s : State) : Host.Outcome State Fault Refusal :=
  if s.resetting.isSome || (retiring s).isSome || !(regsUp s) then .next s
  else match s.retQ with
    | [] => .next s
    | (trigger, tgs) :: rest =>
      let tgs := tgs.filter (fun tg => !(terrace s tg).retired)
      let s := { s with retQ := rest }
      if tgs.isEmpty then .next s
      else
        let s := tgs.foldl (fun s tg => updTerrace s tg (fun t => { t with retiring := true })) s
        .next (recordStep s { tgs, trigger, ridge := tgs.length = 4, rstep := 0 } 0)

/-- Where a resident entry goes: an idle healthy terrace of the entry allotment's grant, with no overlapping entry and room for one. -/
def evacTarget (s : State) (e : Resid) : Option Nat :=
  (granted s e.allot).find? (fun tg => terraceFree s tg && decide ((terrace s tg).res.length < 16)
    && (terrace s tg).res.all (fun x => !(meetsRange x.2 e.base e.len)))

/-- The range of a store replaced by that of another. -/
def Mem.takeRange (m src : Mem) (lo hi : Nat) : Mem :=
  { cells := m.cells.filter (fun c => decide (c.1 < lo)) ++ src.cells.filter (fun c => decide (lo ≤ c.1) && decide (c.1 < hi))
      ++ m.cells.filter (fun c => decide (hi ≤ c.1))
    poison := m.poison.filter (fun k => decide (k < lo / 32)) ++ src.poison.filter (fun k => decide (lo / 32 ≤ k) && decide (k < hi / 32))
      ++ m.poison.filter (fun k => decide (hi / 32 ≤ k)) }

/-- Copy one entry, its key unchanged, or drop it. -/
def evacEntry (s : State) (tg : Nat) (e : Resid) : State :=
  match evacTarget s e with
  | none => s
  | some g =>
    let src := (terrace s tg).ws
    updTerrace s g (fun t =>
      let i := ((List.range 16).find? (fun i => !(mhas t.res i))).getD 0
      { t with res := mset t.res i { e with last := t.spans, hit := false }
               ws := t.ws.takeRange src (e.base * 65536) ((e.base + e.len) * 65536) })

/-- Evacuate a terrace: the store of a failed ridge cannot be read. -/
def evacuate (s : State) (tg : Nat) : State :=
  let s := if s.ridgeFailed.contains (tg / 4) then s else (terrace s tg).res.foldl (fun s e => evacEntry s tg e.2) s
  updTerrace s tg (fun t => { t with res := [] })

/-- The terraces are closed: gated, mapped as retired, logged and signalled. -/
def closeRetirement (s : State) (r : RetRec) : State :=
  let s := r.tgs.foldl (fun s tg => updTerrace s tg (fun t =>
    { t with retired := true, recorded := true, retiring := false, pstate := .gated })) s
  intCause (rasAppend s 0x21 2 1 (r.tgs.headD 0) none (r.trigger + (if r.ridge then 8 else 0))) 5

/-- What a step has done when it completes (Table 15-7). DEDUCED: log 44. -/
def retireStep (s : State) (r : RetRec) (n : Nat) : State :=
  let each (f : Terrace → Terrace) : State := r.tgs.foldl (fun s tg => updTerrace s tg f) s
  match n with
  | 1 => each (fun t => { t with retiring := true })
  | 2 => ((s.runs.filter (fun e => e.2.tgs.any (fun tg => r.tgs.contains tg))).map (fun e => e.1)).foldl replayItem s
  | 3 => each (fun t => { t with pstate := .drain })
  | 4 => each (fun t => { t with reachClosed := true })
  | 5 => r.tgs.foldl evacuate s
  | 6 => each (fun t => { t with recorded := true })
  | _ => closeRetirement s r

def execRetirementStepDone (s : State) : Host.Outcome State Fault Refusal :=
  match retiring s with
  | none => .next s
  | some r =>
    -- the drain of a failed ridge is its route fence
    if s.resetting.isSome || (r.rstep = 2 && r.tgs.any (fun tg => s.ridgeFailed.contains (tg / 4)) && !s.canalFence.isEmpty) then .next s
    else .next (followRidges (recordStep (retireStep s r (r.rstep + 1)) r (r.rstep + 1)))

/-! ## Single-part faults (Table 15-6) -/

/-- Is the module past its boot, so that its dies report faults? -/
def watched (s : State) : Bool := regsUp s && s.mode ≠ .faulted

/-- A ridge die fails: its lanes with it, its routes are fenced (R26), and its terraces are retired. -/
def ridgeFail (s : State) (r : Nat) : State :=
  if s.ridgeFailed.contains r then s
  else
    let s := (List.range 2).foldl (fun s k => updLane s (2 * r + k) (fun l => { l with failed := true })) { s with ridgeFailed := setIns s.ridgeFailed r }
    let s := fenceRoutes s r
    askRetire (rasAppend s 0x25 2 2 r none 0) 1 ((List.range 4).map (fun k => 4 * r + k))

def execRidgeDieFail (ridge : Fin 16) (s : State) : Host.Outcome State Fault Refusal :=
  if watched s then .next (ridgeFail s ridge.val) else .next s

def execIslandHeartbeatLoss (tg : Fin 64) (s : State) : Host.Outcome State Fault Refusal :=
  if watched s then .next (askRetire s 3 [tg.val]) else .next s

/-- A Flume lane fails (R238): the ridge's other lane takes its contexts over, and a second failure retires the ridge's terraces. -/
def execFlumeLaneFail (lane : Fin 32) (s : State) : Host.Outcome State Fault Refusal :=
  let n := lane.val
  let other := if n % 2 = 0 then n + 1 else n - 1
  if !(watched s) || (laneAt s n).failed then .next s
  else
    let moved := (laneAt s n).ctxs
    let s := updLane s n (fun l => { l with failed := true, ctxs := [], running := 0, used := 0 })
    let s := rasAppend s 0x22 2 10 n none 0
    if (laneAt s other).failed then .next (askRetire s 1 ((List.range 4).map (fun k => n / 2 * 4 + k)))
    else .next (followRidge (updLane s other (fun l => l.takeOver moved)) (n / 2))

/-! ## Host ports and ownership (R382, R383, R530) -/

/-- Write a port's state; a change is a cause. -/
def setHostPort (s : State) (p : Nat) (h : HostPort) : State :=
  let was := (mget s.hostPorts p {}).state
  let s := { s with hostPorts := mset s.hostPorts p h }
  if was = h.state then s else intCause s 7

/-- Completions posted and not consumed are written again, through the new owner (R383, R424). -/
def rewrite (s : State) (p : Nat → Bool) : State :=
  ((jrn s).slots.filter (fun e => p e.2.q && e.2.st == .posted)).foldl (fun s e =>
    if (e.2.seq - (qent s e.2.q).head).toNat < 2 ^ 31 then sendCompl s e.1 false else s) s

/-- The other Headwork becomes owner of every allotment that p's Headwork owned, with PORT packets. DEDUCED: log 45. -/
def moveOwners (s : State) (p : Nat) : State :=
  let moved := (List.range 1024).filter (fun a => allotEn s a && (allot s a).owner = p)
  let w : W64 := BitVec.ofNat 64 (p + (if moved.isEmpty then 0 else 2))
  let s := moved.foldl (fun s a => updAllot s a (fun x => { x with owner := 1 - p })) s
  let s := gaugePf s (1 - p) 5 0 [w] true
  let s := moved.foldl (fun s a =>
    if ringOn s (a + 2) then ringPut s (a + 2) { words := [gaugeHeader s 5 1 a, w], notice := true } else s) s
  let s := if moved.isEmpty then s else satAdd s (hBase p + 0x50010) 0 0 16 1
  releaseQueues (rewrite s (fun q => moved.contains (q / 64)))

/-- A port is marked Down: ownership moves once the other port is Up. DEDUCED: log 45. -/
def execHostPortDown (port : Fin 2) (fatal : Bool) (s : State) : Host.Outcome State Fault Refusal :=
  let p := port.val
  if (mget s.hostPorts p {}).state = 0 then .next s
  else
    let s := rasAppend (setHostPort s p {}) 0x27 2 8 p none fatal.toNat
    if portUp s (1 - p) then .next (moveOwners s p)
    else if hdAlive s (1 - p) then .next (gaugePf s (1 - p) 5 0 [BitVec.ofNat 64 p] true)
    else .next s

/-- Ask for a message of every vector that has an enabled cause set. -/
def wantSet (s : State) : State :=
  (List.range 15).foldl (fun s c => if bit (intStat s) c && bit (intEn s) c then intWant s (causeVec s c) else s) s

/-- A port comes Up: width in lanes, one of those of Table 14-1, rate as HOST_PORT codes it. DESIGN CHOICE: log 80. -/
def execHostPortUp (port : Fin 2) (width : Nat) (rate : Fin 5) (s : State) : Host.Outcome State Fault Refusal :=
  let p := port.val
  if !(hdAlive s p) || s.perst.contains p || s.mode = .off || s.mode = .standby || !([1, 4, 8, 16].contains width) then .next s
  else
    let first := !(portUp s 0) && !(portUp s 1)
    let s := setHostPort s p { state := if width = 16 && rate.val = 0 then 2 else 3, width, rate := rate.val }
    let waiting := (List.range 1024).any (fun a => allotEn s a && (allot s a).rung && (allot s a).owner = 1 - p)
    let s := if first && waiting && !(s.perst.contains (1 - p)) then moveOwners s (1 - p) else s
    .next (releaseQueues (if first then wantSet s else s))

/-! ## Headworks (Table 15-6) -/

/-- Requests to peers whose packets a failed Headwork held are lost: they end as abandoned ones do (R443). -/
def dropHeld (s : State) (hd : Nat) : State :=
  let gone := s.e2e.flatMap (fun e => (e.2.held.filter (fun h => h.hd == hd)).map (fun h => (e.1 / 4, h.pkt.eseq)))
  let given := s.e2e.flatMap (fun e => e.2.held.filter (fun h => h.hd == hd))
  let s : State := { s with e2e := s.e2e.map (fun e => (e.1, { e.2 with held := e.2.held.filter (fun h => h.hd ≠ hd) })) }
  let lost := s.skvReqs.filter (fun q => gone.contains (q.dest, q.eseq))
  let s : State := { s with skvReqs := s.skvReqs.filter (fun q => !(gone.contains (q.dest, q.eseq))) }
  let s := given.foldl (fun s h => contribLost s h.origin h.pkt) s
  lost.foldl (fun s q => let s := reqFault s q; if q.wr then s else reqData s q (badZeros q.len)) s

/-- Its Gauge packets are lost with it, as dropped ones. -/
def dropRings (s : State) (hd : Nat) : State :=
  { s with rings := s.rings.map (fun e =>
      if ringHd s e.1 = hd then (e.1, { e.2 with waiting := [], dropped := e.2.dropped + e.2.waiting.length }) else e) }

/-- A Headwork die fails: the survivor takes over, and what the failed one dispatched is replayed. Steps in flight are held by the
survivor. -/
def headworkFail (s : State) (hd : Nat) : State :=
  if s.hdFailed.contains hd then s
  else
    let mine := (s.runs.filter (fun e => e.2.hd = hd && !(committing s e.1))).map (fun e => e.1)
    let before := s
    let s := dropRings s hd
    let s : State := { s with
      hdFailed := setIns s.hdFailed hd
      jrn1 := if hd = 0 && !(s.hdFailed.contains 1) then s.jrn0 else s.jrn1
      fb := if hd = 0 then s.fbShadow else s.fb }
    let s := if hd = 0 then countReplays s 1 (s.jsteps.filter (·.replays)).length else s
    let s := rasAppend s 0x26 2 4 hd none 0
    if s.hdFailed.contains (1 - hd) then enterFaulted s 4
    else
      let s := setHostPort s hd {}
      let s := (List.range 4).foldl (fun s k => failFar s (4 * hd + k) false) s
      let s := (List.range 4).foldl (fun s k => portDown s (4 * hd + k)) (dropHeld s hd)
      noteFigures before (fenceRoutes (mine.foldl replayItem (moveOwners s hd)) (headworkDie hd)) 1

def execHeadworkFail (hd : Fin 2) (s : State) : Host.Outcome State Fault Refusal :=
  if watched s then .next (headworkFail s hd.val) else .next s

end Sys2Proof.Machine
end

