-- ==== Sys2Proof/Machine/Regmap.lean ====
section
/-! DEFINITION. The register map: where each register stands and which of its bits a write sets, a 1 clears and a read clears (00 R7 to
R12, 19 R513, R514, and the register tables of every chapter). -/

namespace Sys2Proof.Machine

/-- The blocks of Table 19-2 that repeat. -/
inductive Blk where
  | glob
  | terr
  | sadl
  | hdw
  deriving DecidableEq, Repr

/-- A register or a row of registers: block, offset, stride, how many; the bits with access RW, RWS, RW1C and RC, and its reset value. -/
structure RegRow where
  blk : Blk
  base : Nat
  stride : Nat := 4
  count : Nat := 1
  rw : W32 := 0
  rws : W32 := 0
  w1c : W32 := 0
  rc : W32 := 0
  reset : W32 := 0
  deriving DecidableEq, Repr

/-- Identity, capabilities, the RAS log and interrupts (Tables 19-3 to 19-9). -/
def rowsCommon : List RegRow := [
  { blk := .glob, base := 0x0, count := 5 }, { blk := .glob, base := 0x100, count := 9 },
  { blk := .glob, base := 0x1000, w1c := 0x80000000 }, { blk := .glob, base := 0x1004 },
  { blk := .glob, base := 0x1008, rc := 0xFFFFFFFF }, { blk := .glob, base := 0x100C, rc := 0xFFFFFFFF },
  { blk := .glob, base := 0x1010, count := 8 },
  { blk := .glob, base := 0x2000, w1c := 0x7FFF }, { blk := .glob, base := 0x2004, rws := 0x7FFF, reset := 0x7FF7 },
  { blk := .glob, base := 0x2008, rc := 0xFFFFFFFF },
  { blk := .glob, base := 0x2010, rws := 0xFFFFFFFF, reset := 0x65443210 },
  { blk := .glob, base := 0x2014, rws := 0x0FFFFFFF, reset := 0x0BA09876 } ]

/-- Translation, Weir and reservations (Tables 12-10 to 12-12). -/
def rowsXlt : List RegRow := [
  { blk := .glob, base := 0x100000, stride := 0x10, count := 1024, rws := 0xFFFF0000 },
  { blk := .glob, base := 0x100004, stride := 0x10, count := 1024, rws := 0x00FFFFFF },
  { blk := .glob, base := 0x100008, stride := 0x10, count := 1024, rws := 0xC0000000 },
  { blk := .glob, base := 0x10000C, stride := 0x10, count := 1024, rc := 0xFFFFFFFF },
  { blk := .glob, base := 0x110000, rw := 0xFFFF0000 }, { blk := .glob, base := 0x110004, rw := 0x000FFFFF },
  { blk := .glob, base := 0x110008, rw := 0x33FFFFFF }, { blk := .glob, base := 0x11000C },
  { blk := .glob, base := 0x110010, w1c := 0x80000000 }, { blk := .glob, base := 0x110014, count := 2 },
  { blk := .glob, base := 0x11001C, rc := 0xFFFFFFFF },
  { blk := .glob, base := 0x120000, stride := 8, count := 1024, rws := 0xFFFFFFFF, reset := 0x00400001 },
  { blk := .glob, base := 0x120004, stride := 8, count := 1024 },
  { blk := .glob, base := 0x130000, rw := 0x3FFFFF00 }, { blk := .glob, base := 0x130004, count := 2, rw := 0xFFFFFFFF },
  { blk := .glob, base := 0x13000C, rw := 0x0007FFFF }, { blk := .glob, base := 0x130010 },
  { blk := .glob, base := 0x130014, rws := 0x7F, reset := 80 }, { blk := .glob, base := 0x130018, rc := 0xFFFFFFFF } ]

/-- Allotments and queues (Tables 14-9 and 14-10). -/
def rowsAllot : List RegRow := [
  { blk := .glob, base := 0x140000, stride := 0x40, count := 1024, rws := 0xFFFE007F },
  { blk := .glob, base := 0x140004, stride := 0x40, count := 1024, rws := 0xFFFFFFFF },
  { blk := .glob, base := 0x140008, stride := 0x40, count := 1024, rws := 0xFFFFFFFF },
  { blk := .glob, base := 0x14000C, stride := 0x40, count := 1024, rws := 0xFFFFF000 },
  { blk := .glob, base := 0x140010, stride := 0x40, count := 1024, rws := 0x000FFFFF },
  { blk := .glob, base := 0x140014, stride := 0x40, count := 1024 },
  { blk := .glob, base := 0x140018, stride := 0x40, count := 1024 },
  { blk := .glob, base := 0x14001C, stride := 0x40, count := 1024, rws := 0xFFFFFFC0 },
  { blk := .glob, base := 0x140020, stride := 0x40, count := 1024, rws := 0xFFFFFFFF },
  { blk := .glob, base := 0x140024, stride := 0x40, count := 1024, rws := 0xFFFFC0FF, reset := 0x12100010 },
  { blk := .glob, base := 0x200000, stride := 0x20, count := 65536, rws := 0xFFFFF000 },
  { blk := .glob, base := 0x200004, stride := 0x20, count := 65536, rws := 0xFFFFFFFF },
  { blk := .glob, base := 0x200008, stride := 0x20, count := 65536, rws := 0xFFFFF000 },
  { blk := .glob, base := 0x20000C, stride := 0x20, count := 65536, rws := 0xFFFFFFFF },
  { blk := .glob, base := 0x200010, stride := 0x20, count := 65536, rws := 0xFFFFFE00, reset := 0x18C00000 },
  { blk := .glob, base := 0x200014, stride := 0x20, count := 65536, rws := 0xFFFFFFFF, reset := 0x00010000 } ]

/-- Freeboard, energy, reset and firmware, and Skovuk (Tables 17-11, 18-11 and 16-3). -/
def rowsModule : List RegRow := [
  { blk := .glob, base := 0x150000 }, { blk := .glob, base := 0x150004, rws := 0xFFF, reset := 2800 },
  { blk := .glob, base := 0x150008, count := 3 }, { blk := .glob, base := 0x150014, rc := 0xFC00 },
  { blk := .glob, base := 0x150018 }, { blk := .glob, base := 0x15001C, rc := 0xFFFF },
  { blk := .glob, base := 0x150020, rw := 0x1F }, { blk := .glob, base := 0x150024 },
  { blk := .glob, base := 0x150028, w1c := 0x1F }, { blk := .glob, base := 0x15002C },
  { blk := .glob, base := 0x160000, stride := 4, count := 2052 },
  { blk := .glob, base := 0x170000, count := 7 },
  { blk := .glob, base := 0x7000000, rws := 0x80003FFF },
  { blk := .glob, base := 0x7000100, stride := 0x10, count := 8 },
  { blk := .glob, base := 0x7000104, stride := 0x10, count := 8, rc := 0xFFFF00FF },
  { blk := .glob, base := 0x7000108, stride := 0x10, count := 8 },
  { blk := .glob, base := 0x7000180, rc := 0xFFFFFFFF }, { blk := .glob, base := 0x7000184, rc := 0xFFFFFFFF },
  { blk := .glob, base := 0x7000188, rc := 0xFF },
  { blk := .glob, base := 0x7000200, rw := 0x7FFF }, { blk := .glob, base := 0x7000204, rws := 0x80000077 },
  { blk := .glob, base := 0x7000208, rws := 0xFF },
  { blk := .glob, base := 0x7000300, rw := 0xFF }, { blk := .glob, base := 0x7000304, count := 4, rws := 0xFFFFFFFF } ]

/-- A terrace's block. -/
def rowsTerrace : List RegRow := [
  { blk := .terr, base := 0xF00, count := 20 },
  { blk := .terr, base := 0x1000, stride := 0x10, count := 3 }, { blk := .terr, base := 0x1004, stride := 0x10, count := 3 },
  { blk := .terr, base := 0x1008, stride := 0x10, count := 3 },
  { blk := .terr, base := 0x100C, stride := 0x10, count := 3, rc := 0xFFFFFFFF },
  { blk := .terr, base := 0x1040, count := 16 }, { blk := .terr, base := 0x1080, count := 2 },
  { blk := .terr, base := 0x1100, count := 2 }, { blk := .terr, base := 0x1108, count := 2, rc := 0xFFFFFFFF },
  { blk := .terr, base := 0x1110, count := 2 }, { blk := .terr, base := 0x1120, rw := 0xCF7F7F00 },
  { blk := .terr, base := 0x1124, count := 2 },
  { blk := .terr, base := 0x1200, count := 10 }, { blk := .terr, base := 0x1228, rc := 0xFFFFFFFF }, { blk := .terr, base := 0x122C },
  { blk := .terr, base := 0x1300 }, { blk := .terr, base := 0x1308, count := 9 }, { blk := .terr, base := 0x1400, count := 6 },
  { blk := .terr, base := 0x1500, stride := 0x20, count := 2 }, { blk := .terr, base := 0x1504, stride := 0x20, count := 2 },
  { blk := .terr, base := 0x1508, stride := 0x20, count := 2 },
  { blk := .terr, base := 0x150C, stride := 0x20, count := 2, rc := 0xFFFFFFFF },
  { blk := .terr, base := 0x1600, count := 33 }, { blk := .terr, base := 0x1684, count := 2, rc := 0xFFFFFFFF },
  { blk := .terr, base := 0x1700, rw := 0xFFFFFFFF, reset := 0x00400001 }, { blk := .terr, base := 0x1704 },
  { blk := .terr, base := 0x1708, rc := 0xFFFFFFFF },
  { blk := .terr, base := 0x1710, count := 3, rw := 0xF0000000, reset := 0x40000000 },
  { blk := .terr, base := 0x1800 }, { blk := .terr, base := 0x1804, rc := 0xFFFFFFFF }, { blk := .terr, base := 0x1808, rc := 0xFFFF } ]

/-- A Saddle's and a Headwork's block. -/
def rowsDies : List RegRow := [
  { blk := .sadl, base := 0x10000 }, { blk := .sadl, base := 0x10010, count := 6, rc := 0xFFFF },
  { blk := .sadl, base := 0x10030 }, { blk := .sadl, base := 0x10034, rc := 0xFFFFFFFF },
  { blk := .sadl, base := 0x20000, count := 3, rc := 0xFFFFFFFF }, { blk := .sadl, base := 0x2000C, rw := 0x3F, reset := 0x0F },
  { blk := .sadl, base := 0x30000 }, { blk := .sadl, base := 0x30004, count := 2, rc := 0xFFFFFFFF },
  { blk := .sadl, base := 0x40000, count := 34 }, { blk := .sadl, base := 0x40088, count := 3, rc := 0xFFFFFFFF },
  { blk := .sadl, base := 0x50000, count := 2 }, { blk := .sadl, base := 0x50008, count := 2, rc := 0xFFFFFFFF },
  { blk := .sadl, base := 0x60000 }, { blk := .sadl, base := 0x60004, count := 4, rc := 0xFFFFFFFF },
  { blk := .sadl, base := 0x70000, stride := 8, count := 4, rw := 0xFFFFFFFF, reset := 0x00400001 },
  { blk := .sadl, base := 0x70004, stride := 8, count := 4 },
  { blk := .sadl, base := 0x80000, count := 10, rw := 0xFFFFFF00, reset := 0x48400800 },
  { blk := .sadl, base := 0x80028, rw := 0xF0000000, reset := 0x40000000 }, { blk := .sadl, base := 0x8002C, rc := 0xFFFFFFFF },
  { blk := .hdw, base := 0x30000, stride := 0x10, count := 4 }, { blk := .hdw, base := 0x30004, stride := 0x10, count := 4 },
  { blk := .hdw, base := 0x30008, stride := 0x10, count := 4, rc := 0xFFFFFFFF },
  { blk := .hdw, base := 0x40000, count := 4, rw := 0xFFFFFF00, reset := 0x48400800 }, { blk := .hdw, base := 0x40010, rc := 0xFFFFFFFF },
  { blk := .hdw, base := 0x50000, rws := 0xFFFFFFC0 }, { blk := .hdw, base := 0x50004, rws := 0xFFFFFFFF },
  { blk := .hdw, base := 0x50008, rws := 0xFFFFC0FF, reset := 0x12100010 }, { blk := .hdw, base := 0x5000C, rw := 0xFFFFFFFF },
  { blk := .hdw, base := 0x50010 }, { blk := .hdw, base := 0x50014, rc := 0xFFFFFFFF },
  { blk := .hdw, base := 0x60000, count := 3 }, { blk := .hdw, base := 0x6000C, rc := 0xFFFFFFFF }, { blk := .hdw, base := 0x60010, count := 3 } ]

def regRows : List RegRow := rowsCommon ++ rowsXlt ++ rowsAllot ++ rowsModule ++ rowsTerrace ++ rowsDies

/-- The block of a BAR0 offset, which of its instances, and the offset within it. -/
def placeOf (off : Nat) : Blk × Nat × Nat :=
  if off < 0x1000000 then (.glob, 0, off)
  else if off < 0x5000000 then (.terr, (off - 0x1000000) / 0x100000, (off - 0x1000000) % 0x100000)
  else if off < 0x6000000 then (.sadl, (off - 0x5000000) / 0x800000, (off - 0x5000000) % 0x800000)
  else if off < 0x7000000 then (.hdw, (off - 0x6000000) / 0x800000, (off - 0x6000000) % 0x800000)
  else (.glob, 0, off)

def RegRow.covers (r : RegRow) (rel : Nat) : Bool :=
  decide (r.base ≤ rel) && (rel - r.base) % r.stride == 0 && decide ((rel - r.base) / r.stride < r.count)

/-- The register at a BAR0 offset. The Flume registers stand in the blocks of each ridge's first terrace only. DESIGN CHOICE: log 9. -/
def regRow (off : Nat) : Option RegRow :=
  let (b, i, rel) := placeOf off
  if b = .terr && decide (0x1500 ≤ rel) && decide (rel < 0x1600) && i % 4 ≠ 0 then none
  else regRows.find? (fun r => r.blk == b && r.covers rel)

/-- The low offsets of the 64-bit counters, by block (R9). -/
def counterLows : List (Blk × Nat) := [
  (.terr, 0x1080), (.terr, 0x1110), (.terr, 0x1210), (.terr, 0x1218), (.terr, 0x1220), (.terr, 0x1308), (.terr, 0x1310), (.terr, 0x1404),
  (.terr, 0x140C), (.terr, 0x1504), (.terr, 0x1524), (.sadl, 0x40080), (.sadl, 0x50000), (.hdw, 0x60004) ]

/-- Is this the low half of a 64-bit counter? -/
def isCounterLow (off : Nat) : Bool :=
  let (b, _, rel) := placeOf off
  if b = .glob then decide (0x160000 ≤ off) && decide (off < 0x162010) && off % 8 == 0 else counterLows.contains (b, rel)

end Sys2Proof.Machine
end

