-- ==== Sys2Proof/Machine/Reset.lean ====
section
/-! DEFINITION. Resets, boot and the restore of accepted work (15 R423, R424, 18 R487 to R504, Tables 18-2 to 18-5). -/

namespace Sys2Proof.Machine

/-! ## Firmware selection (R499 to R503) -/

/-- The non-volatile configuration in force: the copy with the newer sequence number (R488). -/
def nvNow (s : State) : Nv := if s.nv0.seq < s.nv1.seq then s.nv1 else s.nv0

def slotIndex (b : Bool) : Nat := if b then 1 else 0
def imageAt (s : State) (comp : Nat) (b : Bool) : Image := mget s.flash (comp * 2 + slotIndex b) {}

/-- The slot an update writes: the one that does not run. -/
def inactiveSlot (s : State) (comp : Nat) : Nat := comp * 2 + slotIndex (!(s.fw.run.getD comp false))

/-- The flashes after a reset or a loss of power: an update under way is aborted, and its slot stays invalid (R508). -/
def abortedFlash (s : State) : Map Image :=
  match s.update with
  | some u => mset s.flash (inactiveSlot s u.comp) {}
  | none => s.flash

/-- An image can run: it is valid, and its security version has not been withdrawn. -/
def runnable (s : State) (comp : Nat) (b : Bool) : Bool :=
  let i := imageAt s comp b
  i.valid && decide (s.fw.svnMin.getD comp 0 ≤ i.svn)

/-- The slot a component runs from: the active one, else the other (R500). -/
def chooseSlot (s : State) (comp : Nat) : Option Bool :=
  let act := (nvNow s).slots.getD comp false
  if runnable s comp act then some act else if runnable s comp (!act) then some (!act) else none

/-- Silicon revision A1 (R541). -/
def sirev : Nat := 0x11

/-- The entry of the manifest in force that lists the running combination; 255 where none does (R502). -/
def matchEntry (rider ucode : Nat) (man : Image) : Nat :=
  match man.entries with
  | some l => min 255 ((l.findIdx? (fun e => e == (sirev, rider, ucode))).getD 255)
  | none => Config.manifestEntry man.ver sirev rider ucode

/-- Record a fallback in BOOT_STAT and log it. -/
def fellBack (s : State) (comp hd : Nat) : State :=
  rasAppend (setRg s 0x170008 (setFld (rg s 0x170008 0) (23 - comp) 1 1)) 0x29 2 4 hd none (comp + 1)

/-- The lowest reason of Table 18-7 that applies with the images that run (R503); differ says that the Headworks' Rider versions differ (R501).
The two flashes hold the same contents (R487), so microcode copies never differ. Without a manifest no combination is listed, and the reason is
2. DEDUCED: log 50. -/
def bootReason (s : State) (differ : Bool) : Nat :=
  let lost := (List.range 2).any (fun g => groupState s g = 2) || (!s.guarded && (List.range 12).any (fun k => (stackOf s k).failed))
  if (chooseSlot s 0).isNone then 6
  else if (chooseSlot s 2).isNone then 2
  else if (chooseSlot s 1).isNone || 255 ≤ s.fw.found then 1
  else if differ then 3
  else if lost then 4
  else 0

/-- Choose and load the images: the running slots, the versions, the matching entry, and the reason for Maintenance (Table 18-7). DEDUCED: log 50. -/
def loadImages (s : State) : State × Nat :=
  let pick := (List.range 3).map (chooseSlot s)
  let act (c : Nat) : Bool := (nvNow s).slots.getD c false
  let run := (List.range 3).map (fun c => (pick.getD c none).getD (act c))
  let vers := (List.range 3).map (fun c => (imageAt s c (run.getD c false)).ver)
  let man := imageAt s 2 (run.getD 2 false)
  let found := if (pick.getD 2 none).isSome then matchEntry (vers.getD 0 0) (vers.getD 1 0) man else 255
  let s : State := { s with
    regs := mdel s.regs 0x170008
    fw := { s.fw with run, vers, found, pend := [false, false, false] } }
  let s := (List.range 3).foldl (fun s c =>
    match pick.getD c none with
    | some b => if b = act c then s else fellBack s c (seqHd s)
    | none => s) s
  let reason := bootReason s false
  (setRg s 0x170008 (setFld (rg s 0x170008 0) 24 4 reason), reason)

/-- RST_CAUSE. -/
def setCause (s : State) (kind source count : Nat) : State :=
  setRg s 0x170004 (BitVec.ofNat 32 (kind * 2 ^ 29 + source * 2 ^ 26 + min 0xFFFF count))

/-! ## What a reset leaves (Tables 15-5 and 18-5) -/

/-- A register after a reset: RWS bits are kept (R346, R488), and every other bit returns to its reset value, as Table 00-5 has it. DEDUCED: log 75. -/
def resetBits (off : Nat) (v : W32) : W32 :=
  match regRow off with
  | some r => (v &&& r.rws) ||| (r.reset &&& ~~~r.rws)
  | none => v

/-- Registers that their chapters keep through a warm and a fundamental reset (R331, R402, R405, R523), and the blocks that such a reset does not
reach: Freeboard, the reset registers, the Skovuk ports and the far tier. DEDUCED: log 48. -/
def keptWarm (off : Nat) : Bool :=
  decide (0x10000000 ≤ off) || (decide (0x1000 ≤ off) && decide (off < 0x2010)) || off == 0x110010
  || (decide (0x100000 ≤ off) && decide (off < 0x104000) && off % 0x10 == 0xC)
  || (decide (0x150000 ≤ off) && decide (off < 0x180000)) || decide (0x7000000 ≤ off)
  || (match placeOf off with
      | (.hdw, _, rel) => decide (rel < 0x40000) || (decide (0x5000C ≤ rel) && decide (rel < 0x60010))
      | _ => false)

/-- Registers kept through a cold reset: head counts, replays and the reset registers (R405, R431, R512). -/
def keptCold (off : Nat) : Bool :=
  decide (0x10000000 ≤ off) || (decide (0x170000 ≤ off) && decide (off < 0x180000))
  || (match placeOf off with
      | (.hdw, _, rel) => rel == 0x5000C || rel == 0x6000C
      | _ => false)

def resetRegs (keep : Nat → Bool) (m : Map W32) : Map W32 :=
  m.map (fun e => if keep e.1 then e else (e.1, resetBits e.1 e.2))

/-- Energy accounts are kept through every reset but power-on (R486). DEDUCED: log 48. -/
def resetCtrs (m : Map W64) : Map W64 := m.filter (fun e => decide (0x160000 ≤ e.1) && decide (e.1 < 0x170000))

/-- A terrace after a reset: its stores are scrubbed and its residency table cleared; marks, heat and power state stay, and
the home reach queue that a retirement closed stays closed (Table 15-7). -/
def resetTerrace (t : Terrace) : Terrace :=
  { Terrace.reset with
    degraded := t.degraded, retiring := t.retiring, retired := t.retired, recorded := t.recorded, op := t.op, target := t.target, mv := t.mv
    slew := t.slew, slewAt := t.slewAt, pstate := t.pstate, duty := t.duty, prevDuty := t.prevDuty, railDuty := t.railDuty
    railOp := t.railOp, ceil := t.ceil, fmax := t.fmax, vf := t.vf, wakeUntil := t.wakeUntil, reachClosed := t.reachClosed }

/-- The steps in flight complete (R409); what they would have started does not start, and a completion to be written waits for the restore. -/
def flushSteps (s : State) : State :=
  let l := s.jsteps
  l.foldl (fun s st =>
    let s := holdStep s st
    match st.eff with
    | .replay _ => stepEffect s st.eff
    | .write k => match slotAt s k with
      | some x => updQue s x.q (fun y => { y with unsent := y.unsent ++ [(k, true)] })
      | none => s
    | _ => s) { s with jsteps := [] }

/-- The RW fields that a warm reset returns to their reset values, which Rider restores afterwards (Table 15-5). DEDUCED: log 75. -/
def rwFields (m : Map W32) : Map W32 :=
  m.filterMap (fun e => match regRow e.1 with
    | some r => if keptWarm e.1 || r.rw = 0 then none else some (e.1, e.2 &&& r.rw)
    | none => none)

/-- Rider restores the RW fields of a register (Table 15-5). -/
def putRw (s : State) (e : Nat × W32) : State :=
  match regRow e.1 with
  | some r => setRg s e.1 ((rg s e.1 r.reset &&& ~~~r.rw) ||| e.2)
  | none => s

/-- Steps 1 to 5 of Table 18-5: work stops, and every die but Freeboard is reset. An item that a fault of its own had stopped completes FAULTED, and is not
replayed (R421). -/
def stopWork (s : State) : State :=
  let own := (s.runs.filter (fun e => e.2.stopped && !e.2.parked && faulted s e.1)).map (fun e => e.1)
  let s := dropRuns (flushSteps (own.foldl (fun s k => completeItem s k 2 0) s))
  fenceArrivals { s with
    runs := s.runs.map (fun e => (e.1, { e.2 with copied := false, loading := false }))
    regs := resetRegs keptWarm s.regs
    rwSaved := rwFields s.regs
    ctrs := resetCtrs s.ctrs
    shadows := []
    terraces := s.terraces.map (fun e => (e.1, resetTerrace e.2))
    lanes := s.lanes.map (fun e => (e.1, { e.2 with ctxs := [], running := 0, used := 0 }))
    saddles := s.saddles.map (fun e => (e.1, { hbmStacks := e.2.hbmStacks }))
    ats := [], atsWant := [], got := [], hostReqs := [], atsPend := []
    skvReqs := s.skvReqs.map (fun r => { r with tg := none, dead := true })
    ques := s.ques.map (fun e => (e.1, { tail := e.2.tail, acc := e.2.acc, seq := e.2.seq, head := e.2.head, order := e.2.order
                                         unsent := e.2.unsent }))
    allots := s.allots.map (fun e => (e.1, { e.2 with cmd := none, scrubs := [] }))
    skvArbs := [], rr := [], inv := none, invQ := [], shares := [], redivide := [], update := none, flash := abortedFlash s
    diag := none
    hwEpoch := nowUs s }

/-- The rest of a cold reset (R497): every rail but VAON and the memory's is switched off, and Table 18-3 runs from step 3. The reset ends in
Ready, or in Maintenance when a reason applies. -/
def coldPart (s : State) (source : Nat) : State :=
  let n := nvNow s
  let new := s.nvNew
  let erase := decide (n.guarded ≠ s.guarded)
  let s : State := { s with
    regs := resetRegs keptCold s.regs
    rwSaved := []
    ras := [], rasNext := 0, flog := [], shadows := [], intPend := 0, evq := [], receiver := 0, eid := 0x1D, mgmtIn := []
    rings := s.rings.map (fun e => (e.1, { wcount := e.2.wcount }))
    hostPorts := [], skv := [], skvArbs := [], farPorts := foundPorts s, xperst := [], e2e := [], skvWait := [], skvReqs := []
    terraces := s.terraces.map (fun e => (e.1, { resetTerrace e.2 with
      op := 0, target := 0, mv := e.2.opMv 0, slew := false, pstate := if e.2.retired then .gated else .awake, duty := 16, prevDuty := 16
      railDuty := 16, railOp := 7, ceil := 7, wakeUntil := 0 }))
    lanes := s.lanes.map (fun e => (e.1, { failed := e.2.failed }))
    sensors := [], ridgePower := [], capGuard := false, awakeMax := 64
    fb := { grant := s.fb.grant, bootCap := n.bootCap }, fbShadow := { grant := s.fb.grant, bootCap := n.bootCap }
    hbm := if erase then {} else s.hbm, hbmPoison := if erase then [] else s.hbmPoison
    guarded := n.guarded, mir := n.mir, nvNew := [] , hwEpoch := nowUs s }
  let s := followRidges s
  let s := if new.contains 0 then setRg s 0x7000000 n.id else s
  let s := if new.contains 1 then setRg s 0x7000208 (BitVec.ofNat 32 n.mgr.toNat) else s
  let (s, reason) := loadImages s
  let goal : Mode := if reason = 0 then .ready else .maintenance
  let r : Reset := { kind := 3, source, goal }
  setMode { s with resetting := some r, freason := 0 } .boot

/-- Does the module take a reset request in its state (R498)? -/
def takesReset (s : State) : Bool := s.mode == .ready || s.mode == .draining || s.mode == .maintenance

/-- Begin a reset of kind 1 warm, 2 fundamental or 3 cold, toward a state. During a reset, a request of the same kind or a lesser one merges,
and a cold one takes over from its current step. DEDUCED: log 49. -/
def startReset (s : State) (kind source : Nat) (goal : Mode) : State :=
  let count := fld (rg s 0x170004 0) 0 16
  match s.resetting with
  | some r => if kind = 3 && 0 < r.kind && r.kind < 3 then coldPart (setCause s 3 source count) source else s
  | none =>
    let s := setCause (stopWork s) kind source (count + 1)
    if kind = 3 then coldPart s source
    else
      let r : Reset := { kind, source, goal }
      { s with resetting := some r }

/-! ## Restore (R424) -/

/-- The queues' live counts, from the queue table. -/
def restoreQueues (s : State) : State :=
  (jrn s).qtab.foldl (fun s e => updQue s e.1 (fun x => { x with tail := e.2.tail, acc := e.2.acc, seq := e.2.seq, head := e.2.head })) s

/-- Reservations are admitted again in order of admission; one that does not fit is revoked (R341). -/
def readmit (s : State) : State :=
  let all := s.rsvs
  all.foldl (fun s r =>
    if (List.range 20).any (fun b => decide (0 < r.takes b) && !(resFits s b (resSum s b + r.takes b))) then revoke s r 3
    else { s with rsvs := s.rsvs ++ [{ r with tok := [] }] }) { s with rsvs := [], rsvDue := none }

/-- One slot, by its state: Running is replayed, a commit resumes, and a posted completion is written again. -/
def restoreSlot (s : State) (k : Nat) : State :=
  match slotAt s k with
  | none => s
  | some x => match x.st with
    | .running =>
      let s := satAdd s (hBase (seqHd s) + 0x6000C) 0 0 32 1
      request (updQue s x.q (fun y => { y with wait := 16 }))
        { slots := [(k, some { x with st := .accepted, replays := min 0xFF (x.replays + 1) })], eff := .replay k }
    | .committing => request s { eff := .commitCopy k }
    | _ => s

/-- Control blocks that their agents must scan first (R274). -/
def startScans (s : State) : State :=
  (List.range 1024).foldl (fun s a =>
    match cisAgent s a with
    | some n => updSaddle s n (fun d => { d with cisScan := setIns d.cisScan a })
    | none => s) s

/-- Steps 1 to 3 of R424, with the RW fields of a warm or fundamental reset: the agents' scans begin. DEDUCED: log 49. -/
def beginRestore (s : State) (r : Reset) : State :=
  let s := if r.kind = 1 || r.kind = 2 then s.rwSaved.foldl putRw s else s
  readmit (startScans (restoreQueues { s with rwSaved := [], resetting := some { r with scan := true } }))

/-- Is a control block still to be scanned (R274)? -/
def scansLeft (s : State) : Bool := s.saddles.any (fun d => !d.2.cisScan.isEmpty)

/-- Steps 5 and 6 of R424, with the journal's pause as its free slots are (R413), and the doorbells that arrived meanwhile. -/
def endRestore (s : State) : State :=
  let s := ((jrn s).slots.map (fun e => e.1)).foldl restoreSlot s
  let s := rewrite s (fun _ => true)
  let s := if freeSlots s = 0 then journalFull s true else if 1024 ≤ freeSlots s then journalFull s false else s
  let bells := s.bells
  bells.foldl bellAt (releaseQueues { s with resetting := none, bells := [] })

/-- The offset of the first capability register whose fused value differs from that of the documented part (R522). -/
def shortfall (s : State) : Option Nat :=
  (List.range 3).findSome? (fun i =>
    if s.fuses.getD i 0 = documentedFuses.getD i 0 then none else some (0x100 + 4 * i))

/-- Faulted at step 11 of a boot, with FREASON 5 and code 0x36 (R522). -/
def shortfallFault (s : State) (off : Nat) : State :=
  enterFaulted (rasAppend (setRg s 0x170008 (setFld (rg s 0x170008 0) 28 4 11)) 0x36 3 0 0 none off) 5

/-- The end of a boot: step 13 with its duration, and the raised security versions of a module that comes up Ready (R500, R503). -/
def bootEnds (s : State) (goal : Mode) : State :=
  if s.mode ≠ .boot then s
  else
    let s := setRg s 0x170008 (setFld (setFld (rg s 0x170008 0) 28 4 13) 0 16 (min 0xFFFF ((nowUs s - s.hwEpoch) / 1000)))
    if goal ≠ .ready then s
    else { s with fw := { s.fw with
      svnMin := (List.range 3).map (fun c => if s.fw.raised.getD c false then
        max (s.fw.svnMin.getD c 0) (imageAt s c (s.fw.run.getD c false)).svn else s.fw.svnMin.getD c 0)
      raised := [false, false, false] } }

/-- The end of a reset or of a boot: the restore, which waits for the Cistern scans, unless the module comes up in Maintenance (R424, R497, R504). A
fundamental reset lasts as long as its PERST_N. DEDUCED: log 49. -/
def execPostResetRestore (s : State) : Host.Outcome State Fault Refusal :=
  match s.resetting with
  | none => .next s
  | some r =>
    if r.kind = 2 && !s.perst.isEmpty then .next s
    else if s.mode = .boot && (shortfall s).isSome then .next (shortfallFault s ((shortfall s).getD 0))
    else if r.goal = .maintenance then
      let s := if r.kind = 1 || r.kind = 2 then s.rwSaved.foldl putRw s else s
      .next (setMode { bootEnds s r.goal with rwSaved := [], resetting := none, bells := [] } .maintenance)
    else
      let s := if r.scan then s else beginRestore s r
      if scansLeft s then .next s else .next (endRestore (setMode (bootEnds s r.goal) r.goal))

/-! ## Power-on and power-off (R489 to R493) -/

/-- What outlives a loss of power: the flashes, the fault log and what is outside the module; the feeds and the model's own record. -/
def persisted (s : State) : State :=
  { State.reset with
    regs := [], pending := s.pending, freeCtr := s.freeCtr, clockNs := s.clockNs, out := s.out
    terraces := s.terraces.map (fun e => (e.1, { Terrace.reset with
      degraded := e.2.degraded, retired := e.2.recorded, recorded := e.2.recorded, fmax := e.2.fmax, vf := e.2.vf, mv := e.2.opMv 0 }))
    lanes := (s.lanes.filter (fun e => e.2.failed)).map (fun e => (e.1, { failed := true }))
    saddles := s.saddles.map (fun e => (e.1, { hbmStacks := (e.2.hbmStacks.filter (fun k => k.2.failed)).map (fun k => (k.1, { failed := true })) }))
    far := s.far, host := s.host, peer := s.peer, guarded := s.guarded, mir := s.mir
    feeds := s.feeds, feedB := s.feedB, discharging := s.discharging
    ridgeFailed := s.ridgeFailed, hdFailed := s.hdFailed, nv0 := s.nv0, nv1 := s.nv1, nvNew := s.nvNew, flash := abortedFlash s
    fuses := s.fuses, fw := { s.fw with run := [false, false, false] }, perst := s.perst, xperst := s.xperst, farDevs := s.farDevs, mode := s.mode
    canalAlt := s.canalAlt ++ s.canalFence }

/-- Enter Off: every volatile content is lost, the journal with it (R454). -/
def enterOff (s : State) : State := { persisted s with mode := .off }

/-- Enter Standby from a powered state: the journal is retained until the next boot. -/
def enterStandby (s : State) : State :=
  { persisted s with mode := .standby, tripped := s.tripped, jrn0 := s.jrn0, jrn1 := s.jrn1, rails := s.rails
                     regs := s.regs.filter (fun e => decide (0x170000 ≤ e.1) && decide (e.1 < 0x180000)) }

/-- Mark a stack that fails its training. -/
def markStack (s : State) (k : Nat) : State :=
  if (stackOf s k).failed then s
  else
    let s := updSaddle s (k / 6) (fun d => { d with hbmStacks := mset d.hbmStacks (k % 6) { failed := true } })
    let lost := groupState s (k / 6) = 2
    intCause (rasAppend s (if lost then 0x24 else 0x23) (if lost then 3 else 2) 5 k none 2) 6

/-- Terraces that a power-on retires again: they are Retiring at once, and their steps run from the first (R428). -/
def retireAgain (s : State) (trigger : Nat) (tgs : List Nat) : State :=
  tgs.foldl (fun s tg => updTerrace s tg (fun t => { t with retiring := true })) { s with retQ := s.retQ ++ [(trigger, tgs)] }

/-- Terraces whose trigger is in the fault log without a retirement record are retired again: four degraded arrays, a failed ridge die, or both lanes
of a ridge (R426, R428). -/
def retireAtBoot (s : State) : State :=
  let s := (List.range 64).foldl (fun s tg =>
    let t := terrace s tg
    if t.recorded then updTerrace s tg (fun t => { t with pstate := .gated })
    else if 4 ≤ t.degraded.length then retireAgain s 0 [tg]
    else s) s
  (List.range 16).foldl (fun s r =>
    let lost := s.ridgeFailed.contains r || ((laneAt s (2 * r)).failed && (laneAt s (2 * r + 1)).failed)
    let tgs := ((List.range 4).map (fun k => 4 * r + k)).filter (fun tg => !((terrace s tg).recorded || (terrace s tg).retiring))
    if lost && !tgs.isEmpty then retireAgain s 1 tgs else s) s

/-- Rider sets fmax of a terrace at boot, never below 1.5 GHz, and its voltages are the fused ones (R459, R460). -/
def setFmax (s : State) (f : FuseSample) : State :=
  updTerrace s f.tg.val (fun t => { t with fmax := min 190 (max 150 f.fmax), vf := f.vf, mv := f.vf.getD 0 800 })

/-- A power-on: the journal and HBM are cleared, and Table 18-3 runs; it ends as a reset does. DEDUCED: log 50. -/
def powerOn (s : State) (source : Nat) (b : BootSample) : State :=
  let n := nvNow s
  let s : State := { persisted s with farPorts := foundPorts s, xperst := [], guarded := n.guarded, mir := n.mir, nvNew := [], fb := { bootCap := n.bootCap }, fbShadow := { bootCap := n.bootCap }
                                      hwEpoch := nowUs s }
  let s := setRg (setRg s 0x7000000 n.id) 0x7000208 (BitVec.ofNat 32 n.mgr.toNat)
  let s := b.badStacks.foldl (fun s k => markStack s k.val) (setCause s 0 source 0)
  let s := b.badTerraces.foldl (fun s tg =>
    if (terrace s tg.val).recorded then s else updTerrace s tg.val (fun t => { t with degraded := [0, 1, 2, 3] })) s
  let l := loadImages (followRidges (retireAtBoot (b.fuses.foldl setFmax s)))
  let goal : Mode := if l.2 = 0 then .ready else .maintenance
  let r : Reset := { kind := 0, source, goal }
  setMode { l.1 with resetting := some r } .boot

/-- Does a power-on start (R489)? -/
def bootAllowed (s : State) (b : BootSample) : Bool := s.mode == .standby && decide (b.hot < 90) && b.coolOk

def execModEnRise (b : BootSample) (s : State) : Host.Outcome State Fault Refusal :=
  if bootAllowed s b then .next (powerOn s 0 b) else .next s

/-- Rider does not complete its boot in 5 s on a Headwork (R500): it restarts once from the other slot there; when both Headworks' watchdogs
have expired the restart is a cold reset, and when no slot completes the module enters recovery Maintenance. The sequencer's Rider is the one that
FW_RIDER shows, and a Headwork left on another version is reason 3 (R501, R503). DEDUCED: log 50. -/
def execRiderWatchdog (hd : Fin 2) (s : State) : Host.Outcome State Fault Refusal :=
  match s.resetting with
  | none => .next s
  | some r =>
    if s.mode ≠ .boot || !(hdAlive s hd.val) then .next s
    else
      let now := s.fw.run.getD 0 false
      let first := if r.wdog.contains (seqHd s) then !now else now
      let recovery : State :=
        setMode { setRg s 0x170008 (setFld (rg s 0x170008 0) 24 4 6) with resetting := none, bells := [] } .maintenance
      if r.wdog.contains hd.val || !(runnable s 0 !first) then .next recovery
      else
        let r' : Reset := { r with wdog := setIns r.wdog hd.val }
        let lag := (List.range 2).any (fun h => hdAlive s h && !(r'.wdog.contains h))
        let differ := lag && decide ((imageAt s 0 first).ver ≠ (imageAt s 0 !first).ver)
        let run := if hd.val = seqHd s then !first else now
        let s : State := { s with fw := { s.fw with run := s.fw.run.set 0 run, vers := s.fw.vers.set 0 (imageAt s 0 run).ver } }
        let found := matchEntry (s.fw.vers.getD 0 0) (s.fw.vers.getD 1 0) (imageAt s 2 (s.fw.run.getD 2 false))
        let s : State := { s with fw := { s.fw with found := if (chooseSlot s 2).isSome then found else 255 } }
        let reason := bootReason s differ
        let goal : Mode := if reason = 0 then .ready else .maintenance
        let s := setRg (fellBack s 0 hd.val) 0x170008 (setFld (rg (fellBack s 0 hd.val) 0x170008 0) 24 4 reason)
        if 2 ≤ r'.wdog.length then
          .next (setCause { s with resetting := some { r' with goal, kind := 3, source := 5 } } 3 5 (fld (rg s 0x170004 0) 0 16 + 1))
        else .next { s with resetting := some { r' with goal } }

/-! ## PCIe resets (R494, R496) -/

/-- PERST_N falls: the port's endpoint and link are reset, and the module takes a warm reset where its state allows one. -/
def execPerstAssert (port : Fin 2) (s : State) : Host.Outcome State Fault Refusal :=
  let p := port.val
  let s : State := { s with perst := setIns s.perst p }
  if s.mode = .off then .next s
  else
    let s := if (mget s.hostPorts p {}).state = 0 then s else setHostPort s p {}
    .next (if takesReset s then startReset s 2 (3 + p) s.mode else s)

/-- PERST_N rises: the port's link trains. -/
def execPerstDeassert (port : Fin 2) (s : State) : Host.Outcome State Fault Refusal :=
  let p := port.val
  if !(s.perst.contains p) then .next s
  else
    let s : State := { s with perst := setDel s.perst p }
    if !(hdAlive s p) || s.mode = .off || s.mode = .standby then .next s else .next (setHostPort s p { state := 1 })

def execPcieHotReset (_ : Fin 2) (s : State) : Host.Outcome State Fault Refusal :=
  if takesReset s then .next (startReset s 1 6 s.mode) else .next s

/-- The reset of an allotment by an FLR of the function that binds it, if one does. -/
def flrReset (s : State) (a : Option Nat) : State :=
  match a with
  | none => s
  | some a => if !(watched s) || s.resetting.isSome || (allot s a).cmd.isSome then s else allotResetOp s a

/-- An FLR of a virtual function resets the allotment that binds it; during a command of that allotment it adds nothing. -/
def execVfFlr (vf : Fin 1024) (s : State) : Host.Outcome State Fault Refusal :=
  .next (flrReset s ((List.range 1024).find? (fun a => allotVf s a == some vf.val)))

/-! ## RST_CTL (R512) -/

/-- A write of RST_CTL: with a wrong key, or while BUSY, it is dropped and logged; its OP acts as Table 18-11 codes it, in the states that take
it, and an OP that codes nothing is ignored. Exmas answers. -/
def rstCtl (r : Requester) (v : W32) (s : State) : State :=
  let op := fld v 28 3
  let ok := if op = 1 || op = 2 then takesReset s else if op = 3 then s.mode == .ready else if op = 4 then s.mode == .draining else true
  let drop := fld v 0 8 ≠ 0xB7 || s.resetting.isSome || !ok
  let log := logDropped s 0x170000 v.toNat
  let act (s : State) : State :=
    if op = 1 then startReset s 1 1 s.mode
    else if op = 2 then startReset s 3 1 .ready
    else if op = 3 then setMode s .draining
    else if op = 4 then setMode s .ready
    else s
  match r with
  | .vf _ _ => s
  | .pf _ => if !(regsUp s) then s else if drop then log else act s
  | .exmas =>
    if !(regsUp s) then s
    else if drop then exAnswer log (if fld v 0 8 ≠ 0xB7 then .invalid else .busy) []
    else exAnswer (act s) .success []

/-- A write with OP 1: a warm reset. Each of the four rows acts by the OP of its value. DESIGN CHOICE: log 66. -/
def execRstCtlWarm (r : Requester) (v : W32) (s : State) : Host.Outcome State Fault Refusal := .next (rstCtl r v s)

/-- A write with OP 2: a cold reset. -/
def execRstCtlCold (r : Requester) (v : W32) (s : State) : Host.Outcome State Fault Refusal := .next (rstCtl r v s)

/-- A write with OP 3: Ready to Draining. -/
def execRstCtlDrain (r : Requester) (v : W32) (s : State) : Host.Outcome State Fault Refusal := .next (rstCtl r v s)

/-- A write with OP 4: Draining to Ready. -/
def execRstCtlResume (r : Requester) (v : W32) (s : State) : Host.Outcome State Fault Refusal := .next (rstCtl r v s)

end Sys2Proof.Machine
end

