-- ==== Sys2Proof/Machine/Power.lean ====
section
/-! DEFINITION. Feeds, rails, Freeboard, power-gating, heat and energy (16 R449, 17 R451 to R486, 20 R533). -/

namespace Sys2Proof.Machine

/-! ## Feeds (R451 to R454, R533) -/

/-- Is the module off its feeds' control: Off or Standby? -/
def dark (s : State) : Bool := s.mode == .off || s.mode == .standby

/-- Set bits of FB_EVT; a bit that rises is the cause POWER. -/
def fbEvent (s : State) (b : Nat) : State :=
  let e := rg s 0x150028 0
  let s := setRg s 0x150028 (setFld e b 1 1)
  if bit e b then s else intCause s 10

def feedNo (b : Bool) : Nat := if b then 1 else 0

/-- The load moves to a feed: FB_FEED counts it, and it is logged. -/
def switchFeed (s : State) (b : Bool) : State :=
  let s : State := { s with feedB := b }
  if !(regsUp s) then s else rasAppend (fbEvent (satAdd s 0x150014 0 10 6 1) 0) 0x30 2 0 0 none (feedNo b)

/-- A feed leaves range: the load moves to the other feed when that is valid, and otherwise the module enters Off. -/
def feedLeaves (s : State) (k : Nat) (f : Feed) : State :=
  let s : State := { s with feeds := mset s.feeds k { f with inRange := false, valid := false } }
  let carrying := feedNo s.feedB = k
  if s.mode = .off then s
  else if !(feed s 0).inRange && !(feed s 1).inRange then enterOff s
  else if !carrying then s
  else if (feed s (1 - k)).valid then switchFeed s (k = 0)
  else enterOff s

/-- volts: tenths of a volt. -/
def execFeedOutOfRange (k : Fin 2) (volts : Nat) (s : State) : Host.Outcome State Fault Refusal :=
  if 380 ≤ volts && volts ≤ 620 then .next s else .next (feedLeaves s k.val { feed s k.val with volts })

/-- Is the bus being discharged (R453)? -/
def dischargingNow (s : State) : Bool :=
  match s.discharging with
  | some e => decide (s.clockNs < e)
  | none => false

/-- A feed within 40.5 to 59.5 V for 100 ms is valid; the first one takes the module from Off to Standby, and its input power then rises from nothing
along the ramp (R453). -/
def execFeedValid (k : Fin 2) (volts : Nat) (s : State) : Host.Outcome State Fault Refusal :=
  if volts < 405 || 595 < volts then .next s
  else
    let f : Feed := { inRange := true, valid := true, volts, mateOpen := false }
    let s : State := { s with feeds := mset s.feeds k.val f, discharging := none }
    if s.mode = .off then .next { s with mode := .standby, feedB := k.val = 1, fb := { s.fb with win := some 0 } } else .next s

/-- Feed A has been valid for 1 s: the load returns to it. -/
def execFeedReturn (k : Fin 2) (s : State) : Host.Outcome State Fault Refusal :=
  if k.val = 0 && s.mode ≠ .off && s.feedB && (feed s 0).valid && (feed s 1).inRange then .next (switchFeed s false) else .next s

/-- Both feeds low for 10 ms: the bus is discharged until it falls below 10 V, which at 0.5 A takes at most 0.0081 F * 50 V / 0.5 A = 0.81 s, by the
charge it holds (R453). -/
def execDischargeStart (s : State) : Host.Outcome State Fault Refusal :=
  if (feed s 0).volts < 380 && (feed s 1).volts < 380 then
    let (w, s) := fresh s
    .next { s with discharging := some (s.clockNs + w.toNat % 810000001) }
  else .next s

def execMatePinOpen (k : Fin 2) (s : State) : Host.Outcome State Fault Refusal :=
  let f : Feed := { feed s k.val with mateOpen := true }
  if dark s then .next { s with feeds := mset s.feeds k.val f } else .next (feedLeaves s k.val f)

/-! ## Operating points (R459 to R462) -/

/-- Give a terrace a target: one that comes during a slew supersedes the old one (R462). -/
def setTarget (s : State) (tg n duty : Nat) : State :=
  let t := terrace s tg
  if n = t.target then updTerrace s tg (fun t => { t with duty })
  else
    let s := if t.slew then satAdd s (tBase tg + 0x1808) 0 0 16 1 else s
    let v := mvNow s t
    updTerrace s tg (fun t => { t with
      mv := v, slewAt := s.clockNs, slew := true, target := n, prevDuty := t.duty, duty })

/-- The slew of a terrace settles, and its ridge's rail with it. -/
def execVoltageSettled (tg : Fin 64) (s : State) : Host.Outcome State Fault Refusal :=
  if !(terrace s tg.val).slew then .next s
  else .next (followRidge (updTerrace s tg.val (fun t =>
    { t with op := t.target, mv := t.opMv t.target, slew := false, prevDuty := t.duty })) (tg.val / 4))

/-- A terrace's target and duty: the module's, below its own ceiling and its rail's; an Express terrace runs at OP7 and full duty until it is lowered
(R465, R466). A terrace that drains or is gated takes them at its wake (Table 17-8). -/
def applyLoop (s : State) (tg : Nat) : State :=
  let t := terrace s tg
  let top := min t.ceil t.railOp
  if t.pstate ≠ .awake then s
  else if expressTerrace s tg && !s.fb.xlow then setTarget s tg (min 7 top) 16
  else setTarget s tg (min s.fb.op top) s.fb.duty

def applyLoops (s : State) : State := followRidges ((List.range 64).foldl applyLoop s)

/-! ## Freeboard's loops (R463 to R472) -/

/-- Is every awake terrace at the floor of the compute rung, those in Express grants once they are lowered? -/
def computeFloor (s : State) : Bool :=
  s.fb.duty == 1 && s.fb.op == 0 && (List.range 64).all (fun tg =>
    (terrace s tg).pstate != .awake || (expressTerrace s tg && !s.fb.xlow) || (opNow s (terrace s tg) == 0 && dutyNow s tg == 1))

/-- Move to a rung; taking one at the compute floor lowers Express terraces. A lower bandwidth makes a recomputation of the reservations due, with cause
derating (R469). DEDUCED: log 56. -/
def setRung (s : State) (n : Nat) : State :=
  let taken := decide (s.fb.rung < n) && s.fb.duty == 1 && s.fb.op == 0
  let s' : State := { s with fb := { s.fb with rung := n, xlow := taken || (s.fb.xlow && decide (0 < n)) } }
  if moduleMem s < moduleMem s' || moduleLink s < moduleLink s' then { s' with rsvDue := some (s'.rsvDue.getD 1) } else s'

/-- The power in W that the work asks of the bus converters: one that has failed carries nothing, and one on estimation counts by its estimate (R458,
R474). -/
def inputPower (s : State) (l : List Nat) : Nat :=
  ((List.range 4).map (fun k => if (rail s k).st = 3 then 0 else if (rail s k).st = 2 then (rail s k).pwr else l.getD k 0)).sum

/-- By how much the mean input power of a 100 µs window may differ from that of the window before it (R455). -/
def rampStep (s : State) : Nat := rampInForce s / 10 + 20

/-- The window closes on the power that the work asks for: ballast fills a fall, and a rise is held back, as the ramp requires (R455, R456).
DEDUCED: log 56. -/
def closeWindow (s : State) (ask : Nat) : State :=
  let last := s.fb.win.getD ask
  let p := max (last - rampStep s) (min (last + rampStep s) ask)
  { s with fb := { s.fb with
      win := some p, ballast := p - ask, rising := ask - p, winN := s.fb.winN + 1, winSum := s.fb.winSum + p, balSum := s.fb.balSum + (p - ask) } }

/-- The target of the next 100 us: a lowered cap is approached from the present power at RAMP (R464). -/
def nextTarget (s : State) (pwr : Nat) : Nat :=
  let cap := capInForce s
  if cap < s.fb.target then max cap (min s.fb.target (max cap pwr) - rampInForce s / 10) else cap

/-- A ridge whose islands stretch too often: its duty is lowered by a step, as for a rail ceiling (R477). DEDUCED: log 57. -/
def droopDuty (s : State) (r : Nat) : State :=
  (List.range 4).foldl (fun s k => updTerrace s (4 * r + k) (fun t => { t with railDuty := max 1 (t.railDuty - 1) })) s

/-- The duty of the next window: the controller's, which the ramp keeps from rising while a rise is held back (R456), and 1/16 while the cap is
unachievable (R470). -/
def nextDuty (s : State) (d : Nat) : Nat := if s.fb.unach then 1 else if 0 < s.fb.rising then min d s.fb.duty else d

/-- Every 100 us: the window closes, the target, the duty, and a rung taken or released. A rung is taken when the power exceeds the target at the compute
floor, or ahead of it while a lowered cap descends (R467); Express terraces are raised before the duty of the others is (R466). Freeboard acknowledges the cap
guard. DEDUCED: log 56. -/
def execFbFastLoop (m : FastSample) (s : State) : Host.Outcome State Fault Refusal :=
  if !(watched s) then .next s
  else
    let s := closeWindow s (inputPower s m.ibc)
    let p := s.fb.win.getD 0
    let d := nextDuty s (m.duty.val + 1)
    let s : State := { s with capGuard := false, fb := { s.fb with
      duty := d, dutyLow := min s.fb.dutyLow d, dutyHigh := max s.fb.dutyHigh d, target := nextTarget s p, xlow := s.fb.xlow && d == 1 } }
    let s := (m.droop.map (fun r => r.val)).foldl droopDuty s
    let short := decide (s.fb.target < p) || (m.ahead && decide (capInForce s < s.fb.target))
    let s := if short && computeFloor s then setRung s (min 7 (s.fb.rung + 1))
      else if p + 40 ≤ s.fb.target && !s.fb.unach then setRung s (s.fb.rung - 1)
      else s
    .next (applyLoops s)

/-- The cooling ceiling of R481: inlet in tenths of a degree, flow in hundredths of a litre a minute. -/
def coolCap (m : SlowSample) : Nat :=
  let a := 2800 - 6 * (m.inlet - 450)
  let b := if m.flow < 200 then 2800 * m.flow / 200 else 2800
  min (min a b) (if m.coolOk then 2800 else 1400)

/-- The power that is demanded: without ballast, with what is withheld (R472). -/
def demanded (s : State) : Nat := s.fb.pwr - s.fb.balMs + s.fb.withheld

/-- Every 1 ms: the mean power of its windows and the readings, and the operating-point index by the duty history. -/
def execFbSlowLoop (m : SlowSample) (s : State) : Host.Outcome State Fault Refusal :=
  if !(watched s) then .next s
  else
    let s : State := { s with fb := { s.fb with
      pwr := if s.fb.winN = 0 then s.fb.pwr else s.fb.winSum / s.fb.winN, balMs := if s.fb.winN = 0 then s.fb.balMs else s.fb.balSum / s.fb.winN
      winN := 0, winSum := 0, balSum := 0
      withheld := m.withheld, inlet := m.inlet, outlet := m.outlet, flow := m.flow, coolCap := coolCap m
      grant := s.fb.grant.map (fun g => { g with life := g.life - 1 }) } }
    let slack := decide (demanded s < capInForce s) && !s.fb.unach
    let op := if s.fb.dutyHigh < 12 then s.fb.op - 1 else if s.fb.dutyLow = 16 && slack then min 7 (s.fb.op + 1) else s.fb.op
    .next (applyLoops { s with fb := { s.fb with op, dutyLow := s.fb.duty, dutyHigh := s.fb.duty } })

/-- Every 1 ms: FLOOR against the cap; the eleventh evaluation in a row that finds it low ends 10 ms (R470). perTerrace is what FLOOR falls by, in mW, for each terrace gated. -/
def execFbFloorEval (floor perTerrace : Nat) (s : State) : Host.Outcome State Fault Refusal :=
  if !(watched s) then .next s
  else
    let cap := capInForce s
    let un := decide (cap < floor)
    let rose := un && !s.fb.unach
    let ok := if floor + 20 ≤ cap then min 11 (s.fb.okMs + 1) else 0
    let s : State := { s with fb := { s.fb with floor, unach := un, okMs := ok, perTerrace } }
    let s := if rose then rasAppend (fbEvent s 1) 0x34 0 0 0 none (floor % 65536 + cap % 65536 * 65536) else s
    if un then
      let excess := (floor - (cap - 20)) * 1000
      let gate := if perTerrace = 0 then 64 else (excess + perTerrace - 1) / perTerrace
      let s := setRung { s with fb := { s.fb with duty := 1, op := 0 } } 7
      .next (applyLoops { s with awakeMax := awakeOutside s - gate })
    else if ok = 11 then .next { s with awakeMax := 64 }
    else .next s

/-- The cap guard: duty 1/16 on every terrace until Freeboard acknowledges (R471). -/
def execCapGuard (avg : Nat) (s : State) : Host.Outcome State Fault Refusal :=
  if watched s && (11 * capInForce s < 10 * avg || 2900 < avg) then .next (fbEvent { s with capGuard := true } 4) else .next s

/-- The shadow takes the primary's state (R463). -/
def execFbShadowSync (s : State) : Host.Outcome State Fault Refusal :=
  if watched s && s.hdFailed.isEmpty then .next { s with fbShadow := s.fb, fbSync := s.clockNs } else .next s

/-- FB_CAP.LOCAL (R464, R486): PF0 and Exmas write it. -/
def execFbCapWrite (r : Requester) (v : W32) (s : State) : Host.Outcome State Fault Refusal :=
  let n := fld v 0 12
  let bad := n < 900 || 2800 < n || n % 10 ≠ 0
  let put := setRg s 0x150004 (v &&& 0xFFF#32)
  match r with
  | .exmas =>
    if !(regsUp s) then .next s
    else if s.resetting.isSome then .next (exAnswer s .busy [])
    else if bad then .next (exAnswer (logDropped s 0x150004 v.toNat) .invalid [])
    else .next (exAnswer put .success [])
  | r => .next (pfWrite s r 0x150004 v.toNat (fun s => if bad then logDropped s 0x150004 v.toNat else put))

/-! ## Grants and SLACK (R449) -/

/-- A BUDGET message's grant. -/
def grantOf (p : SkvPacket) : Grant :=
  let at' (o n : Nat) : Nat := leNat ((p.data.drop o).take n)
  { epoch := BitVec.ofNat 32 (at' 0 4), capmax := at' 4 2, capmin := at' 6 2, ramp := at' 8 2, life := at' 10 2, stale := false }

/-- Is a grant accepted: from the manager, newer, and within the ranges of Table 16-2? -/
def grantOk (s : State) (p : SkvPacket) (g : Grant) : Bool :=
  p.skind && p.src.toNat == fld (rg s 0x7000208 0) 0 8
  && (match s.fb.grant with
      | some o => g.epoch ≠ o.epoch && decide ((g.epoch - o.epoch).toNat < 2 ^ 31)
      | none => true)
  && decide (900 ≤ g.capmax) && decide (g.capmax ≤ 2800) && g.capmax % 10 == 0 && decide (900 ≤ g.capmin) && decide (g.capmin ≤ g.capmax)
  && decide (100 ≤ g.ramp) && decide (g.ramp ≤ 1500) && decide (10 ≤ g.life) && decide (g.life ≤ 60000)

def execBudget (p : SkvPacket) (s : State) : Host.Outcome State Fault Refusal :=
  inbound 7 p s (fun s =>
    let g := grantOf p
    if grantOk s p g then { s with fb := { s.fb with grant := some g } } else satAdd s 0x7000188 0 0 8 1)

def execBudgetLifeExpire (s : State) : Host.Outcome State Fault Refusal :=
  match s.fb.grant with
  | none => .next s
  | some g => .next { s with fb := { s.fb with grant := some { g with life := 0, stale := true } } }

/-- The 16 bytes of a SLACK message: SLACK is the cap less the power demanded, signed (R472). -/
def slackBytes (s : State) : List Byte :=
  let cap := capInForce s
  let slack := (BitVec.ofNat 16 cap - BitVec.ofNat 16 (demanded s)).toNat
  let stale := match s.fb.grant with
    | some g => g.stale
    | none => false
  leBytes 4 ((s.fb.grant.map (fun (g : Grant) => g.epoch)).getD 0).toNat ++ leBytes 2 s.fb.pwr ++ leBytes 2 cap ++ leBytes 2 s.fb.floor
  ++ leBytes 2 slack ++ leBytes 4 (stale.toNat + s.fb.unach.toNat * 2
    + ((feed s 0).valid != (feed s 1).valid).toNat * 4)

/-- A SLACK message to the manager endpoint. -/
def execSlack (s : State) : Host.Outcome State Fault Refusal :=
  if !(watched s) || !(skvIdValid s) then .next s
  else
    let dest := fld (rg s 0x7000208 0) 0 8
    .next (skvSend s none { skvPacket 8 3 true dest with dlen := 16, data := slackBytes s })

/-! ## Rails (R458, R473 to R476) -/

/-- Phases and ceiling of a rail (Table 17-3). -/
def railTable (k : Nat) : Nat × Nat :=
  if k < 4 then (1, 900) else if k < 20 then (8, 140) else if k < 22 then (6, 110) else if k < 24 then (4, 90) else if k < 26 then (2, 60)
  else if k < 28 then (8, 260) else (2, 20)

def railCeil (s : State) (k : Nat) : Nat := (rail s k).ceil.getD (railTable k).2
def updRail (s : State) (k : Nat) (f : Rail → Rail) : State := { s with rails := mupd s.rails k {} f }

/-- A terrace whose rail draws more than its ceiling: its duty falls in proportion from the one in force, and at duty 1/16 its operating point by a step;
a rail within its ceiling gives a step back. DEDUCED: log 57. -/
def railTerrace (s : State) (tg p c : Nat) : State :=
  let d := dutyNow s tg
  updTerrace s tg (fun t =>
    if p ≤ c then (if t.railOp < 7 then { t with railOp := t.railOp + 1 } else { t with railDuty := min 16 (t.railDuty + 1) })
    else if d ≤ 1 then { t with railDuty := 1, railOp := min t.railOp t.target - 1 }
    else { t with railDuty := max 1 (d * c / p) })

/-- Throttle the domains of a rail that draws more than its ceiling, and give them a step back when it draws less: a ridge's duty and points, or the rung
of the die (R473). DEDUCED: log 57. -/
def railThrottle (s : State) (k : Nat) : State :=
  let p := (rail s k).pwr
  let c := railCeil s k
  let excess := decide (c < p)
  let die (n : Nat) : State :=
    let s' : State := { s with sensors := mupd s.sensors n {} (fun x => { x with rung := if excess then min 3 (x.rung + 1) else x.rung - 1 }) }
    if excess then { s' with rsvDue := some (s.rsvDue.getD 1) } else s'
  if 4 ≤ k && k < 20 then
    let l := (List.range 4).map (fun i => 4 * (k - 4) + i)
    followRidge (l.foldl applyLoop (l.foldl (fun s tg => railTerrace s tg p c) s)) (k - 4)
  else if 20 ≤ k && k < 22 then die (480 + (k - 20))
  else if 22 ≤ k && k < 26 then die (482 + k % 2)
  else if 26 ≤ k && k < 28 then die (480 + (k - 26))
  else s

/-- An estimate of a rail's power: a free value for what its domains' activity comes to, whose weights the spec gives as ratios only, and 10 % of the rail's
Table 17-3 ceiling (R474). -/
def estimated (s : State) (k : Nat) : State :=
  let (w, s) := fresh s
  updRail s k (fun r => { r with pwr := min 4095 (w.toNat % 4096 + (railTable k).2 / 10) })

/-- A rail falls back to estimation, and its ceiling to 85 % of what it was (R474). -/
def railEstimate (s : State) (k cause : Nat) : State :=
  if 2 ≤ (rail s k).st then s
  else
    let c := railCeil s k
    let s := estimated (updRail s k (fun r => { r with st := 2, ceil := some (c * 85 / 100), missed := 0, disagree := 0 })) k
    railThrottle (rasAppend (fbEvent s 2) 0x32 2 9 k none cause) k

def execRailEstimation (k : Fin 29) (cause : Fin 3) (s : State) : Host.Outcome State Fault Refusal :=
  if watched s then .next (railEstimate s k.val cause.val) else .next s

/-- A sample of a rail: three missing in a row, or disagreement for 1 ms, are grounds for estimation; a rail on estimation is estimated anew. -/
def execRailTelemetry (k : Fin 29) (m : RailSample) (s : State) : Host.Outcome State Fault Refusal :=
  let n := k.val
  if !(watched s) || (rail s n).st = 3 then .next s
  else if (rail s n).st = 2 then .next (railThrottle (estimated s n) n)
  else if m.missing then
    if 2 ≤ (rail s n).missed then .next (railEstimate s n 2) else .next (updRail s n (fun r => { r with missed := r.missed + 1 }))
  else if m.disagree && 19 ≤ (rail s n).disagree then .next (railEstimate s n 0)
  else .next (railThrottle (updRail s n (fun r => { r with
    pwr := min 4095 m.power, missed := 0, disagree := if m.disagree then r.disagree + 1 else 0
    volts := m.volts, current := m.current, temp := m.temp })) n)

/-- A phase fails open (R473). -/
def execPhaseFail (k : Fin 29) (s : State) : Host.Outcome State Fault Refusal :=
  let n := k.val
  let (phases, ceil) := railTable n
  if !(watched s) || phases ≤ (rail s n).lost || (rail s n).st = 3 then .next s
  else
    let up := phases - ((rail s n).lost + 1)
    let s := updRail s n (fun r => { r with st := max 1 r.st, lost := r.lost + 1, ceil := some (min (railCeil s n) (up * ceil / phases)) })
    .next (railThrottle (rasAppend (fbEvent s 2) 0x31 2 9 n none up) n)

/-- A bus converter fails: the cap in force falls by 900 W (R464, R475). DEDUCED: log 57. -/
def execIbcFail (unit : Fin 4) (s : State) : Host.Outcome State Fault Refusal :=
  if !(watched s) || (rail s unit.val).st = 3 then .next s else .next (fbEvent (updRail s unit.val (fun r => { r with st := 3, pwr := 0 })) 2)

/-- A group is Lost with its die or its memory rail. -/
def loseGroup (s : State) (g : Nat) : State :=
  (List.range 6).foldl (fun s k => if groupState s g = 2 then s else failStack s (6 * g + k) 0) s

/-- A rail's ceiling is below its floor: its die counts as failed (R476). -/
def execRailFail (k : Fin 29) (s : State) : Host.Outcome State Fault Refusal :=
  let n := k.val
  if !(watched s) || (rail s n).st = 3 then .next s
  else
    let s := rasAppend (fbEvent (updRail s n (fun r => { r with st := 3 })) 2) 0x33 2 9 n none 0
    if 4 ≤ n && n < 20 then .next (askRetire s 1 ((List.range 4).map (fun i => 4 * (n - 4) + i)))
    else if 20 ≤ n && n < 22 then .next (loseGroup s (n - 20))
    else if 22 ≤ n && n < 26 then .next (headworkFail s (n % 2))
    else if 26 ≤ n && n < 28 then .next (loseGroup s (n - 26))
    else .next s

/-- A supply is low: the island's next cycle is lengthened (R477). -/
def execDroopDetect (tg : Fin 64) (_ : Island) (s : State) : Host.Outcome State Fault Refusal :=
  if watched s then .next (satAdd s (tBase tg.val + 0x1804) 0 0 32 1) else .next s

/-! ## Power-gating (R478 to R480) -/

def ridgePState (s : State) (r : Nat) : PState := mget s.ridgePower r .awake

/-- The power state of a domain. -/
def domainState (s : State) : Domain → PState
  | .terrace tg => (terrace s tg.val).pstate
  | .lane fg => (laneAt s fg.val).pstate
  | .ridge r => ridgePState s r.val

def setDomain (s : State) (d : Domain) (p : PState) : State :=
  match d with
  | .terrace tg => updTerrace s tg.val (fun t => { t with pstate := p })
  | .lane fg => updLane s fg.val (fun l => { l with pstate := p })
  | .ridge r => { s with ridgePower := mset s.ridgePower r.val p }


def gated (s : State) (tg : Nat) : Bool := (terrace s tg).pstate == .gated

/-- May Freeboard gate a domain (R478)? -/
def mayGate (s : State) : Domain → Bool
  | .terrace tg =>
    let t := terrace s tg.val
    t.slot.isNone && !t.scrub && !(expressTerrace s tg.val)
  | .lane fg => (laneTerraces s fg.val).all (gated s)
  | .ridge r => (List.range 4).all (fun k => gated s (4 * r.val + k)) && (List.range 2).all (fun k => (laneAt s (2 * r.val + k)).pstate == .gated)

/-- Gating begins with the Draining of the domain (R479); it waits while ballast covers a fall of the input power (R456). -/
def execPowerGate (d : Domain) (s : State) : Host.Outcome State Fault Refusal :=
  if working s && domainState s d = .awake && mayGate s d && s.fb.ballast = 0 then .next (setDomain s d .drain) else .next s

/-- Does a domain still await a response, or hold work that it has yet to give back? -/
def domainBusy (s : State) : Domain → Bool
  | .terrace tg => decide (0 < outstanding s tg.val) || s.lats.any (fun x => x.sent && (x.src == tg.val || x.dst == tg.val))
  | .lane fg => !(laneAt s fg.val).ctxs.isEmpty
  | .ridge _ => false

/-- Its input port is empty and no response it awaits is outstanding: the domain is gated (R479). A gated terrace holds no translation. -/
def execDomainGated (d : Domain) (s : State) : Host.Outcome State Fault Refusal :=
  if domainState s d ≠ .drain || domainBusy s d then .next s
  else
    let s := setDomain s d .gated
    match d with
    | .terrace tg => .next (followRidge (updTerrace s tg.val (fun t => { t with tlb := [], pins := [] })) (tg.val / 4))
    | _ => .next s

/-- A domain that drains returned a packet (Table 17-8): a dispatch to it is decided again without a replay, and the shares of its allotment
are divided without it; every other packet is sent again by the state as it then stands. -/
def execReturnedPacket (d : Domain) (s : State) : Host.Outcome State Fault Refusal :=
  match d with
  | .terrace tg =>
    if domainState s d = .awake then .next s
    else match runOfT s tg.val with
      | none => .next s
      | some (k, r) => match slotAt s k with
        | some x =>
          if r.started || x.st ≠ .running then .next s
          else .next (request (freeRun s k) { slots := [(k, some { x with st := .accepted })] })
        | none => .next s
  | _ => .next s

/-- May a gated domain not wake yet: while a rise of the input power is held back (R456, R480), and while a lowered cap descends and one more awake domain
would lift FLOOR above CAPMIN (R464)? -/
def wakeHeld (s : State) : Bool :=
  decide (0 < s.fb.rising) || (decide (capInForce s < s.fb.target) && (match s.fb.grant with
    | some g => decide (1000 * g.capmin < 1000 * s.fb.floor + s.fb.perTerrace)
    | none => false))

/-- A lane wakes at OP0. -/
def wakeLane (s : State) (fg : Nat) : State :=
  if (laneAt s fg).pstate = .awake then s
  else updLane s fg (fun l => { l with pstate := .awake, target := 0, mv := 560, slewAt := s.clockNs, prevDuty := 16 })

def wakeRidge (s : State) (r : Nat) : State := { s with ridgePower := mset s.ridgePower r .awake }

/-- A gated domain wakes: a terrace at OP0, with its ridge and its lane, and a lane with its ridge (R27). It wakes within 15 µs (R480). DESIGN CHOICE:
log 58. -/
def execDomainWake (d : Domain) (s : State) : Host.Outcome State Fault Refusal :=
  if !(working s) || domainState s d ≠ .gated || wakeHeld s then .next s
  else match d with
    | .terrace tg =>
      if (terrace s tg.val).retired then .next s
      else
        let (w, s) := fresh s
        let s := updTerrace s tg.val (fun t => { t with
          pstate := .awake, op := 0, target := 0, mv := t.opMv 0, slew := false, duty := s.fb.duty, prevDuty := s.fb.duty
          wakeUntil := s.clockNs + w.toNat % 15001 })
        let r := tg.val / 4
        .next (followRidge (wakeLane (wakeRidge s r) (laneOf s tg.val)) r)
    | .lane fg => .next (followRidge (wakeLane (wakeRidge s (fg.val / 2)) fg.val) (fg.val / 2))
    | .ridge r => .next (wakeRidge s r.val)

/-! ## Heat (R482, R483) -/

/-- The stage of a junction: Warm from 100 to 95, Hot from 110 to 105 (Table 17-9). -/
def junctionStage (old : Stage) (t : Nat) : Stage :=
  if 110 ≤ t || (old = .hot && 105 < t) then .hot
  else if 100 ≤ t || (old ≠ .normal && 95 < t) then .warm
  else .normal

/-- The Spillway: clocks and rails stop, HBM is lost, and the journal is retained. -/
def trip (s : State) : State :=
  let s := enterFaulted s (if s.mode = .faulted then s.freason else 3)
  { s with tripped := true, runs := [], hbm := {}, hbmPoison := [], saddles := s.saddles.map (fun e => (e.1, { hbmStacks := e.2.hbmStacks })) }

def execSpillwayTrip (s : State) : Host.Outcome State Fault Refusal := if dark s then .next s else .next (trip s)

/-- The domains of Table 17-9: the terraces, the lanes, the Saddles and the Headworks, in that order. -/
def heatDomain : Junction → Nat
  | .terrace tg _ => tg.val
  | .lane fg => 64 + fg.val
  | .saddle g => 96 + g.val
  | .headwork hd => 98 + hd.val

/-- The subject of a Hot record: a lane's is the first terrace it lies beside. DEDUCED: log 58. -/
def heatUnit : Junction → Nat × Nat
  | .terrace tg _ => (1, tg.val)
  | .lane fg => (1, 2 * fg.val)
  | .saddle g => (3, g.val)
  | .headwork hd => (4, hd.val)

/-- The stage of the domain a sensor belongs to: the highest of a terrace's islands. DEDUCED: log 58. -/
def heatStage (s : State) : Junction → Stage
  | .terrace tg _ => terraceStage s tg.val
  | p => (sensor s (sensorNo p)).stage

/-- Is a domain a die without terraces, whose stages act by rungs? -/
def heatDie : Junction → Bool
  | .saddle _ => true
  | .headwork _ => true
  | _ => false

/-- What a rise of a domain's stage does: Warm warns, and Hot is logged; a Saddle's or a Headwork's rung lowers what it delivers. DEDUCED: log 58. -/
def stageRose (s : State) (p : Junction) (temp : Nat) (old new : Stage) : State :=
  let s := if old = .normal && new ≠ .normal then exEvent (satAdd s 0x15001C 0 0 16 1) [0x1000, heatDomain p, temp] else s
  let s := if old ≠ new && new ≠ .normal then fbEvent s 3 else s
  let s := if new = .hot && old ≠ .hot then rasAppend s 0x35 2 (heatUnit p).1 (heatUnit p).2 none (temp % 256) else s
  if heatDie p && stageRung 3 old < stageRung 3 new then { s with rsvDue := some (s.rsvDue.getD 1) } else s

/-- A junction sensor samples, and its domain takes the stage of its hottest sensor. DEDUCED: log 58. -/
def execJunctionSample (p : Junction) (temp : Nat) (s : State) : Host.Outcome State Fault Refusal :=
  if dark s then .next s
  else if 118 ≤ temp then .next (trip s)
  else
    let old := heatStage s p
    let s : State := { s with sensors := mupd s.sensors (sensorNo p) {} (fun x => { x with tj := temp, stage := junctionStage x.stage temp }) }
    .next (stageRose s p temp old (heatStage s p))

/-- A domain's ceiling after a step: down one in each 1 ms at 100 degrees and above, up one in each 10 ms in Normal. -/
def nextCeil (c tj : Nat) (st : Stage) : Nat := if 100 ≤ tj then c - 1 else if st = .normal then min 7 (c + 1) else c

/-- The operating-point ceiling of a terrace or a lane takes a step; a ridge has none of its own. -/
def execThermalCeilingStep (d : Domain) (s : State) : Host.Outcome State Fault Refusal :=
  if !(watched s) then .next s
  else match d with
    | .terrace tg =>
      let c := nextCeil (terrace s tg.val).ceil (terraceTj s tg.val) (terraceStage s tg.val)
      .next (followRidge (applyLoop (updTerrace s tg.val (fun t => { t with ceil := c })) tg.val) (tg.val / 4))
    | .lane fg =>
      let x := sensor s (448 + fg.val)
      .next (followLane (updLane s fg.val (fun l => { l with ceil := nextCeil l.ceil x.tj x.stage })) fg.val)
    | .ridge _ => .next s

/-! ## Energy (R484, R485) -/

/-- Ten times the weight of an activity, its row's number in Table 17-10 as the kind: 0 to 13, row 12 split in idle and ballast cycles. -/
def weightOf (k : Nat) : Nat := [30, 25, 60, 10, 5, 8, 10000, 20000, 1500, 15000, 8000, 8, 20, 25].getD k 0

/-- Is a kind a terrace's activity, whose weight goes with the square of its voltage? -/
def atTerrace (k : Nat) : Bool := [0, 1, 3, 4, 5, 11, 12, 13].contains k

/-- A weight in units of 0.1 pJ over 640,000: the square of 0.80 V in mV. -/
def actWeight (a : Activity) : Nat := a.count * weightOf a.kind.val * (if atTerrace a.kind.val then a.mv * a.mv else 640000)

/-- The close of a window: the allotments are charged in proportion to their weights, and the overhead takes the rest. -/
def execEnergyWindowClose (m : EnergySample) (s : State) : Host.Outcome State Fault Refusal :=
  if !(watched s) then .next s
  else
    let mine (a : Nat) : Nat :=
      ((m.acts.filter (fun x => x.allot.any (fun al => al.val = a) && decide (x.kind.val < 12))).map actWeight).sum
    let total := (m.acts.map actWeight).sum + 3000000000000 * 640000
    let als := distinct (m.acts.filterMap (fun x => x.allot.map (fun al => al.val)))
    let charges := als.map (fun (a : Nat) => (a, m.uj * mine a / total))
    let s := charges.foldl (fun s c => ctrAdd s (0x160000 + 8 * c.1) c.2) s
    .next (ctrAdd (ctrAdd s 0x162000 (m.uj - (charges.map (fun c => c.2)).sum)) 0x162008 m.uj)

end Sys2Proof.Machine
end

