-- ==== Sys2Proof/Machine/Regs.lean ====
section
/-! DEFINITION. What each register of the module's own block reads (11 Table 11-16, 12 Tables 12-10 to 12-12, 14 Tables 14-9 to 14-12, 15 Table
15-11, 16 Table 16-3, 17 Table 17-11, 18 Table 18-11, 19 Tables 19-3 to 19-9). -/

namespace Sys2Proof.Machine

/-- Words made of fields: value, place, width. -/
def fields (l : List (Nat × Nat × Nat)) : W32 := l.foldl (fun w f => setFld w f.2.1 f.2.2 f.1) 0

def signed32 (i : Int) : W32 := BitVec.ofInt 32 i

/-! ## Identity and capabilities (Tables 19-3 and 19-4) -/

def modeCode : Mode → Nat
  | .off => 0
  | .standby => 1
  | .boot => 2
  | .maintenance => 3
  | .ready => 4
  | .draining => 5
  | .faulted => 6

def idRead (s : State) (off : Nat) : W32 :=
  match off with
  | 0 => 0x16201EB4#32
  | 4 => fields [(Config.sample.toNat, 8, 1), (sirev, 0, 8)]
  | 8 => Config.serial.setWidth 32
  | 0xC => (Config.serial >>> 32).setWidth 32
  | _ => fields [(modeCode s.mode, 29, 3), (s.freason, 26, 3), (s.guarded.toNat, 25, 1)]

def capHealth (s : State) : W32 :=
  let count (n : Nat) (p : Nat → Bool) : Nat := ((List.range n).filter p).length
  fields [(count 64 (healthy s), 25, 7), (count 64 (fun tg => (terrace s tg).retired), 18, 7)
    , (count 12 (fun k => (stackOf s k).failed), 14, 4), (count 2 (portUp s), 12, 2)
    , (count 8 (fun p => (farPort s p).state == 2 || (farPort s p).state == 3), 8, 4)
    , (count 8 (fun k => 2 ≤ (mget s.skv k {}).state), 4, 4)]

def capRead (s : State) (off : Nat) : W32 :=
  match off with
  | 0x100 => s.fuses.getD 0 0
  | 0x104 => s.fuses.getD 1 0
  | 0x108 => s.fuses.getD 2 0
  | 0x10C => fields [(1024, 21, 11), (64, 14, 7)]
  | 0x110 => fields [(16384, 16, 16), (16, 0, 5)]
  | 0x114 => 0x1FFFF#32
  | 0x118 => 0xFF#32
  | 0x11C => 0xC#32
  | _ => capHealth s

/-! ## The RAS log (Table 19-5) -/

/-- Word k of a record. -/
def RasRec.word (r : RasRec) (k : Nat) : W32 :=
  match k with
  | 0 => r.seq
  | 1 => r.time.setWidth 32
  | 2 => (r.time >>> 32).setWidth 32
  | 3 => fields [(r.sev, 30, 2), (r.code, 0, 8)]
  | 4 => fields [(r.skind, 28, 4), (r.unit, 20, 8), (r.allot, 10, 10), (r.alv.toNat, 9, 1)]
  | 5 => BitVec.ofNat 32 r.count
  | 6 => r.detail.setWidth 32
  | _ => (r.detail >>> 32).setWidth 32

def rasRead (s : State) (off : Nat) (v : W32) : W32 :=
  if off = 0x1000 then setFld (v &&& 0x80000000#32) 0 11 s.ras.length
  else if 0x1010 ≤ off then
    match s.ras with
    | r :: _ => r.word ((off - 0x1010) / 4)
    | [] => 0
  else v

/-! ## Translation and Weir (Tables 12-10 to 12-12) -/

def xltRead (s : State) (off : Nat) (v : W32) : W32 :=
  match off with
  | 0x110008 => setFld v 31 1 s.inv.isSome.toNat
  | 0x110010 => setFld v 0 5 s.flog.length
  | 0x110014 => match s.flog with
    | r :: _ => BitVec.ofNat 32 r.va
    | [] => 0
  | 0x110018 => match s.flog with
    | r :: _ => BitVec.ofNat 32 (r.va / 2 ^ 32 % 2 ^ 20)
    | [] => 0
  | 0x11001C => match s.flog with
    | r :: _ => flogInfo r
    | [] => 0
  | _ => if 0x120000 ≤ off && off < 0x122000 && off % 8 = 4 then BitVec.ofNat 32 (sharers s ((off - 0x120000) / 8)).length else v

/-! ## Allotments (Table 14-9) -/

def allotRead (s : State) (off : Nat) (v : W32) : W32 :=
  let a := (off - 0x140000) / 0x40
  match (off - 0x140000) % 0x40 with
  | 0x14 => fields [((allot s a).cmd.isSome.toNat, 31, 1)]
  | 0x18 => fields [(min 0xFFFF (inFlight s a).length, 16, 16), (min 64 (sharers s a).length, 0, 7)]
  | _ => v

/-! ## Freeboard (Table 17-11) -/

/-- Does a terrace in an Express grant run below OP7 or below full duty? DEDUCED: log 62. -/
def expressThrottled (s : State) : Bool :=
  (List.range 64).any (fun tg => expressTerrace s tg && (terrace s tg).pstate == .awake
    && (opNow s (terrace s tg) < 7 || dutyNow s tg < 16))

def grantStale (s : State) : Bool :=
  match s.fb.grant with
  | some g => g.stale
  | none => false

def fbStat (s : State) : W32 :=
  fields [(s.fb.unach.toNat, 31, 1), ((grantStale s).toNat, 30, 1), (((feed s 0).valid != (feed s 1).valid).toNat, 29, 1)
    , (((List.range 29).any (fun k => (rail s k).st == 2)).toNat, 28, 1), ((halted s).toNat, 27, 1), ((s.hdFailed.contains 0).toNat, 26, 1)
    , (moduleMem s, 24, 2), (moduleLink s, 22, 2), ((expressThrottled s).toNat, 21, 1), (s.fb.duty - 1, 16, 4), (s.fb.op, 12, 3)
    , (s.awakeMax, 0, 7)]

/-- The hottest junction and stage of the module. -/
def hottest (s : State) : Nat × Nat :=
  let l := s.sensors.map (fun e => (e.2.tj, stageCode e.2.stage))
  l.foldl (fun m e => (max m.1 e.1, max m.2 e.2)) (0, 0)

def fbRead (s : State) (off : Nat) (v : W32) : W32 :=
  match off with
  | 0x150000 => fbStat s
  | 0x150004 => fields [(capInForce s, 16, 12), (localCap s, 0, 12)]
  | 0x150008 => match s.fb.grant with
    | some g => fields [(g.capmax, 16, 12), (g.capmin, 0, 12)]
    | none => 0
  | 0x15000C => fields [(rampInForce s, 16, 11), ((s.fb.grant.map (fun (g : Grant) => g.life)).getD 0, 0, 16)]
  | 0x150010 => fields [(s.fb.pwr, 16, 12), (s.fb.floor, 0, 12)]
  | 0x150014 => fields [(s.feedB.toNat, 31, 1), ((feed s 0).valid.toNat, 30, 1), ((feed s 1).valid.toNat, 29, 1)
    , ((feed s 0).volts, 16, 10), (fld v 10 6, 10, 6), ((feed s 1).volts, 0, 10)]
  | 0x150018 => fields [(s.fb.inlet / 10, 24, 8), (s.fb.outlet / 10, 16, 8), (s.fb.flow, 0, 16)]
  | 0x15001C => fields [((hottest s).1, 24, 8), ((hottest s).2, 16, 2), (fld v 0 16, 0, 16)]
  | 0x150024 =>
    let k := fld (rg s 0x150020 0) 0 5
    if 29 ≤ k then 0
    else fields [((rail s k).st, 30, 2), ((railTable k).1 - (rail s k).lost, 24, 6), (railCeil s k, 12, 12), ((rail s k).pwr, 0, 12)]
  | 0x15002C => if s.hdFailed.contains 1 then 0xFFFFFFFF#32 else BitVec.ofNat 32 ((s.clockNs - s.fbSync) / 1000)
  | _ => v

/-! ## Reset and firmware (Table 18-11) -/

def fwRead (s : State) (off : Nat) (v : W32) : W32 :=
  let ver (c : Nat) : Nat := s.fw.vers.getD c 0
  let three (c : Nat) : List (Nat × Nat × Nat) :=
    [(((nvNow s).slots.getD c false).toNat, 29 - 3 * c, 1), ((s.fw.run.getD c false).toNat, 28 - 3 * c, 1)
    , ((s.fw.pend.getD c false).toNat, 27 - 3 * c, 1), (s.fw.svnMin.getD c 0, 12 - 6 * c, 6)]
  match off with
  | 0x170000 => fields [(s.resetting.isSome.toNat, 31, 1)]
  | 0x17000C => BitVec.ofNat 32 (ver 0)
  | 0x170010 => BitVec.ofNat 32 (ver 1)
  | 0x170014 => fields [(ver 2, 16, 16), (s.fw.found, 8, 8)]
  | 0x170018 => fields ((List.range 3).flatMap three)
  | _ => v

/-! ## Skovuk (Table 16-3) -/

def skvRead (s : State) (off : Nat) (v : W32) : W32 :=
  let sel := rg s 0x7000200 0
  let w := mget s.win (fld (rg s 0x7000300 0) 0 8) {}
  let k := (off - 0x7000100) / 0x10
  if 0x7000100 ≤ off && off < 0x7000180 then
    let p := mget s.skv k {}
    match off % 0x10 with
    | 0 => fields [(p.state, 30, 2), (p.mgr.toNat, 29, 1), (p.lanes.toNat, 14, 8), (p.partner, 0, 14)]
    | 8 => fields [(p.rtt, 0, 16)]
    | _ => v
  else match off with
    | 0x7000188 => match s.fb.grant with
      | some g => fields [(g.capmax, 16, 16), (g.stale.toNat, 15, 1), (fld v 0 8, 0, 8)]
      | none => fields [(fld v 0 8, 0, 8)]
    | 0x7000204 => mget s.rte (skvDest (bit sel 14) (fld sel 0 14)) 0
    | 0x7000304 => w.base
    | 0x7000308 => w.len
    | 0x700030C => w.src
    | 0x7000310 => w.sal
    | _ => v

/-- The registers of the module global block and of Skovuk: v is what is stored. -/
def globRead (s : State) (off : Nat) (v : W32) : W32 :=
  if off < 0x100 then idRead s off
  else if off < 0x1000 then capRead s off
  else if off < 0x2000 then rasRead s off v
  else if off < 0x130000 then xltRead s off v
  else if off < 0x140000 then v
  else if off < 0x150000 then allotRead s off v
  else if off < 0x160000 then fbRead s off v
  else if off < 0x170000 then v
  else if off < 0x200000 then fwRead s off v
  else if off < 0x7000000 then v
  else skvRead s off v

end Sys2Proof.Machine
end

