-- ==== Sys2Proof/Machine/DieRegs.lean ====
section
/-! DEFINITION. What each register of a terrace's, a Saddle's and a Headwork's block reads, and a read of a register with what it latches and
clears (00 R8 to R12, 01 Tables 01-5 to 01-9, 05 Tables 05-9 to 05-14, 06 R159, 07 R185, R186, 08 R215, 09 R236, R237, 10 R278, R279, 11 R320,
R321, 12 R346, 15 R431, 17 Table 17-12). -/

namespace Sys2Proof.Machine

/-! ## A terrace -/

/-- SPAN_HDR0 to SPAN_HDR3 and SPAN_MAP0 to SPAN_MAP15 (Tables 01-5 to 01-9). -/
def spanRead (t : Terrace) (tg k : Nat) : W32 :=
  let p := t.span
  match k with
  | 0 => fields [(p.tag, 16, 16), (p.rank, 8, 6), (p.map.length, 0, 7)]
  | 1 => fields [(p.mrank, 16, 14), (p.modules, 0, 15)]
  | 2 => fields [(p.cols, 24, 7), (p.rows, 16, 7), (p.mid, 0, 14)]
  | 3 => fields [(p.allot, 16, 10), (p.det.toNat, 1, 1), (if p.map.isEmpty then 0 else saddleOf tg, 0, 1)]
  | n => (List.range 4).foldl (fun w i => match p.map[4 * (n - 4) + i]? with
    | some g => setFld w (8 * i) 8 (128 + g)
    | none => w) 0

def hpoolRead (t : Terrace) (n k : Nat) : W32 :=
  let p := poolOf t n
  match k with
  | 0 => fields [(p.valid.toNat, 31, 1), (p.rsz, 16, 4), (p.base, 0, 14)]
  | 4 => fields [(p.count, 0, 15)]
  | 8 => fields [(p.minFree, 15, 15), (p.free, 0, 15)]
  | _ => BitVec.ofNat 32 (min 0xFFFFFFFF p.idleGrants)

def lqRead (t : Terrace) (k : Nat) : W32 :=
  let q := lqOf t k
  fields [(q.bound.toNat, 31, 1), (q.prod, 28, 3), (q.cons, 25, 3), (q.entries.length, 0, 6)]

/-- What the debug window selects: array, entry, row and column, while debug mode is on (R151). DEDUCED: log 60. -/
def debugSel (s : State) (tg : Nat) : Option (Nat × Nat × Nat × Nat) :=
  let v := rg s (tBase tg + 0x1120) 0
  if (terrace s tg).debug && s.mode == .maintenance && fld v 16 7 ≤ 64 && fld v 8 7 ≤ 64 then
    some (fld v 30 2, fld v 24 4, fld v 16 7, fld v 8 7) else none

def debugRead (s : State) (tg rel : Nat) : W32 :=
  match debugSel s tg with
  | none => 0
  | some (a, e, r, c) =>
    if r = 64 && c = 64 then 0
    else if r = 64 || c = 64 then
      if rel = 0x1128 then 0x80000000#32 else mget (terrace s tg).checks (128 * a + (if r = 64 then c else 64 + r)) 0
    else
      let x := mget (terrace s tg).acc (cellKey a e r c) {}
      if rel = 0x1124 then x.w
      else fields [(1, 31, 1), (x.mode, 3, 3), (x.flt.toNat, 2, 1), (x.ovf.toNat, 1, 1), (x.bad.toNat, 0, 1)]

def flmRead (s : State) (fg : Nat) (v : W32) : W32 :=
  let l := mget s.lanes fg {}
  let pos := ((laneTerraces s fg).findIdx? (fun tg => tg == l.running)).getD 0
  fields [((!l.ctxs.isEmpty).toNat, 31, 1), (if l.ctxs.isEmpty then 0 else pos, 29, 2), (l.failed.toNat, 28, 1), (fld v 0 16, 0, 16)]

def resRead (t : Terrace) (k : Nat) : W32 :=
  match mget? t.res (k / 2) with
  | none => 0
  | some e => if k % 2 = 0 then e.gen else fields [(1, 31, 1), (e.hit.toNat, 30, 1), (e.allot, 20, 10), (e.len - 1, 8, 8), (e.base, 0, 8)]

def tpwrStat (s : State) (tg : Nat) : W32 :=
  let t := terrace s tg
  let p := match t.pstate with
    | .awake => if s.clockNs < t.wakeUntil then 3 else 0
    | .drain => 1
    | .gated => 2
  fields [(opNow s t, 29, 3), (t.target, 26, 3), (t.slew.toNat, 25, 1), (p, 22, 2), (dutyNow s tg - 1, 16, 4), (terraceTj s tg, 8, 8), (t.fmax, 0, 8)]

def terrRead (s : State) (tg rel : Nat) (v : W32) : W32 :=
  let t := terrace s tg
  if rel < 0x1000 then spanRead t tg ((rel - 0xF00) / 4)
  else if rel < 0x1030 then hpoolRead t ((rel - 0x1000) / 0x10) (rel % 0x10)
  else if rel < 0x1080 then lqRead t ((rel - 0x1040) / 4)
  else if 0x1200 ≤ rel && rel < 0x1210 then
    let k := (rel - 0x1200) / 4
    let busy := match execOf t (16 + k) with
      | some e => fields [(1, 31, 1), (wMin e.cmd.w0, 28, 3)]
      | none => 0
    let d := mget t.laneStat k 0
    busy ||| fields [(d / 2 ^ 16, 24, 4), (d % 2 ^ 16, 0, 16)]
  else if 0x1500 ≤ rel && rel < 0x1540 && rel % 0x20 = 0 then flmRead s (tg / 4 * 2 + (rel - 0x1500) / 0x20) v
  else if 0x1600 ≤ rel && rel < 0x1680 then resRead t ((rel - 0x1600) / 4)
  else match rel with
    | 0x1100 => fields [(t.gang, 24, 3), (t.tol, 8, 16), (t.runLen, 0, 6)]
    | 0x1104 => BitVec.ofNat 32 (arrHealth t.degraded)
    | 0x1124 => debugRead s tg rel
    | 0x1128 => debugRead s tg rel
    | 0x1300 => setFld v 31 1 (execOf t 23).isSome.toNat
    | 0x1400 => setFld v 31 1 (execOf t 21).isSome.toNat
    | 0x1680 => fields [(t.scrub.toNat, 31, 1), (t.lastAl.isSome.toNat, 30, 1), (t.lastAl.getD 0, 20, 10), (fld v 0 16, 0, 16)]
    | 0x1704 => signed32 t.tokens
    | 0x1800 => tpwrStat s tg
    | _ => v

/-! ## A Saddle -/

/-- The terrace whose home reach queue is queue q of a Saddle. -/
def queueTg (n q : Nat) : Nat := (q / 8 * 4 + 2 * n + q / 4 % 2) * 4 + q % 4

def rqRead (s : State) (n q : Nat) : W32 :=
  let tg := queueTg n q
  let t := terrace s tg
  let job := match t.reachQ with
    | r :: _ => fld (r.w.getD 0 0) 48 8
    | [] => 0
  fields [(tg, 26, 6), (job, 16, 8), (((runOfT s tg).any (fun r => r.2.det)).toNat, 9, 1), (t.reachQ.length, 0, 9)]

def stackRead (s : State) (k : Nat) (v : W32) : W32 :=
  let x := stackOf s k
  let st := match x.stage with
    | .normal => 0
    | .warm => 1
    | .hot => 2
    | .critical => 3
  fields [(st, 30, 2), (x.failed.toNat, 29, 1), (x.temp, 16, 8), (fld v 0 16, 0, 16)]

def sadlRead (s : State) (n rel : Nat) (v : W32) : W32 :=
  let d := saddle s n
  if 0x10010 ≤ rel && rel < 0x10028 then stackRead s (6 * n + (rel - 0x10010) / 4) v
  else if 0x40000 ≤ rel && rel < 0x40080 then rqRead s n ((rel - 0x40000) / 4)
  else if 0x70000 ≤ rel && rel < 0x70020 && rel % 8 = 4 then signed32 (mget d.ptok ((rel - 0x70000) / 8) 0)
  else match rel with
    | 0x10000 =>
      let failed := (List.range 6).foldl (fun (m : Nat) k => m + if (stackOf s (6 * n + k)).failed then 2 ^ k else 0) 0
      fields [(s.guarded.toNat, 31, 1), (groupState s n, 29, 2), (failed, 0, 6)]
    | 0x10030 => fields [((deliv s n).1 / 10, 16, 16), ((deliv s n).2 / 10, 0, 16)]
    | 0x30000 => fields [((!d.units.isEmpty).toNat, 31, 1), (d.sump.length, 0, 7)]
    | 0x60000 =>
      let blocks := (List.range 1024).filter (fun a => cisAgent s a == some n)
      let busy := !d.cisWait.isEmpty || !d.cisNotes.isEmpty || blocks.any (fun a => cisSwaps s a n)
      fields [(busy.toNat, 31, 1), ((!d.cisScan.isEmpty).toNat, 30, 1), (blocks.length, 0, 11)]
    | _ => v

/-! ## A Headwork -/

/-- The retired terraces of one half of RET_MAP. -/
def retMap (s : State) (lo : Nat) : W32 :=
  (List.range 32).foldl (fun w i => if (terrace s (lo + i)).retired then setFld w i 1 1 else w) 0

/-- The journal copy of a Headwork. -/
def jrnOf (s : State) (n : Nat) : Journal := if n = 0 then s.jrn0 else s.jrn1

/-- RET_STAT, from the record in a Headwork's own copy. -/
def retStat (s : State) (n : Nat) : W32 :=
  match (jrnOf s n).ret with
  | none => fields [(min 15 s.retQ.length, 0, 4)]
  | some r => fields [((decide (r.rstep < 7)).toNat, 31, 1), (r.rstep, 28, 3), (r.tgs.foldl min 63, 22, 6), (r.ridge.toNat, 21, 1)
    , (r.trigger, 18, 3), (min 15 s.retQ.length, 0, 4)]

def hdwRead (s : State) (n rel : Nat) (v : W32) : W32 :=
  if 0x30000 ≤ rel && rel < 0x30040 then
    let p := (rel - 0x30000) / 0x10
    let f := farPort s (4 * n + p)
    match rel % 0x10 with
    | 0 => fields [(f.state, 29, 3), (f.switch.toNat, 28, 1), (f.width, 23, 5), (f.rate, 20, 3), (f.cap, 0, 12)]
    | 4 => mget s.mir p 0
    | _ => v
  else match rel with
    | 0x50010 =>
      let h := mget s.hostPorts n {}
      fields [(h.state, 30, 2), (h.width, 25, 5), (h.rate, 22, 3), (fld v 0 16, 0, 16)]
    | 0x60000 => fields [(s.hdFailed.isEmpty.toNat, 31, 1), ((seqHd s == n).toNat, 30, 1), (s.jfull.toNat, 29, 1), (65536 - (jrnOf s n).slots.length, 0, 17)]
    | 0x60010 => retStat s n
    | 0x60014 => retMap s 0
    | 0x60018 => retMap s 32
    | _ => v

/-! ## Reading (R8, R9, R12) -/

/-- Does the die that serves a block answer: a failed Headwork or ridge reads 0 and drops writes (log 40)? -/
def blockAnswers (s : State) (off : Nat) : Bool :=
  match placeOf off with
  | (.hdw, n, _) => hdAlive s n
  | (.terr, tg, _) => !(s.ridgeFailed.contains (tg / 4))
  | _ => true

/-- The value of a register; 0 at an offset that none occupies (R10). -/
def regRead (s : State) (off : Nat) : W32 :=
  match regRow off with
  | none => 0
  | some row =>
    let v := rg s off row.reset
    if !(blockAnswers s off) then 0
    else match placeOf off with
      | (.glob, _, _) => globRead s off v
      | (.terr, i, rel) => terrRead s i rel v
      | (.sadl, i, rel) => sadlRead s i rel v
      | (.hdw, i, rel) => hdwRead s i rel v

/-- A 64-bit counter, by the offset of its low half. -/
def counter (s : State) (off : Nat) : W64 :=
  match placeOf off with
  | (.hdw, n, _) => BitVec.ofNat 64 (jrnOf s n).steps
  | _ => mget s.ctrs off 0

/-- The shadow of a counter for a requester: PF0 is requester 0, on either port (R515), and Exmas 1. -/
def shadowKey (who off : Nat) : Nat := who * 2 ^ 32 + off

/-- Clear what a read of a register clears. -/
def clearRc (s : State) (off : Nat) : State :=
  match regRow off with
  | none => s
  | some row =>
    if row.rc = 0 then s
    else match placeOf off with
      | (.terr, tg, rel) =>
        if 0x1000 ≤ rel && rel < 0x1030 then
          updTerrace s tg (fun t => setPool t ((rel - 0x1000) / 0x10) { poolOf t ((rel - 0x1000) / 0x10) with idleGrants := 0 })
        else setRg s off (rg s off row.reset &&& ~~~row.rc)
      | _ => if off = 0x11001C then { s with flog := s.flog.drop 1 } else setRg s off (rg s off row.reset &&& ~~~row.rc)

/-- A 32-bit read of an aligned offset: the low half of a counter latches its high half, which the high half returns; an RC field clears.
DESIGN CHOICE: log 9. -/
def readReg (s : State) (who off : Nat) : W32 × State :=
  if !(blockAnswers s off) then (0, s)
  else if isCounterLow off then
    let c := counter s off
    (c.setWidth 32, { s with shadows := mset s.shadows (shadowKey who off) ((c >>> 32).setWidth 32) })
  else if 4 ≤ off && isCounterLow (off - 4) then (mget s.shadows (shadowKey who (off - 4)) 0, s)
  else (regRead s off, clearRc s off)

/-! ## A doorbell page (R518, Table 14-11) -/

/-- A register of an allotment's doorbell page, by its aligned offset in the page. -/
def pageReg (s : State) (al off : Nat) : W32 :=
  let x := que s (64 * al + off / 0x100)
  match off % 0x100 with
  | 0 => x.tail
  | 4 => x.head
  | 8 => x.acc
  | 0xC => fields [(x.stopped.toNat, 31, 1), (x.seq.toNat, 0, 31)]
  | _ => if off = 0x10 then rg s (ringHeadReg (al + 2)) 0 else 0

/-- The allotment that binds a virtual function. -/
def vfAllot (s : State) (n : Nat) : Option Nat := (List.range 1024).find? (fun a => allotVf s a == some n)

/-- A 32-bit read of an aligned offset of a BAR, by a requester it serves. -/
def barRead (s : State) (r : Requester) (bar : Bar) (off : Nat) : W32 × State :=
  match bar, r with
  | .bar0, .exmas => readReg s 1 off
  | .bar0, _ => readReg s 0 off
  | .bar2, _ => (if off < 0x1000000 then pageReg s (off / 0x4000) (off % 0x4000) else 0, s)
  | .vfbar0, .vf n _ => (match vfAllot s n.val with
    | some a => if off < 0x4000 then pageReg s a off else 0
    | none => 0, s)
  | .vfbar0, _ => (0, s)

/-- Does a BAR serve a requester? Exmas reads and writes the map of BAR0. DEDUCED: log 40. -/
def barServes (bar : Bar) (r : Requester) : Bool :=
  match bar, r with
  | .bar0, .pf _ => true
  | .bar0, .exmas => true
  | .bar2, .pf _ => true
  | .vfbar0, .vf _ _ => true
  | _, _ => false

/-- A read of any offset and size (R8): every register that an addressed byte lies in is read whole, in rising order, and the bytes addressed are
returned. DEDUCED: log 61. -/
def readBytes (s : State) (r : Requester) (bar : Bar) (off n : Nat) : List Byte × State :=
  let (bs, s) := (List.range ((off % 4 + n + 3) / 4)).foldl (fun (a : List Byte × State) k =>
    let (v, s) := barRead a.2 r bar (off / 4 * 4 + 4 * k)
    (a.1 ++ leBytes 4 v.toNat, s)) ([], s)
  ((bs.drop (off % 4)).take n, s)

/-- What a read of a register answers (R491, R520): nothing while the Headworks are dark, and 0 during a boot, but for the identity
registers. DEDUCED: log 61. -/
def hostRead (r : Requester) (bar : Bar) (off : Nat) (size : AccSize) (s : State) : State :=
  let n := size.bytes
  if !(barServes bar r) then s
  else if regsUp s then
    let (bs, s) := readBytes s r bar off n
    emit s (.data bs false)
  else if s.mode = .boot then
    emit s (.data ((List.range n).map (fun i =>
      if bar = .bar0 && off + i < 0x14 then (leBytes 4 (regRead s ((off + i) / 4 * 4)).toNat).getD ((off + i) % 4) 0 else 0)) false)
  else s

def execCounterLoRead (r : Requester) (place : RegAt) (s : State) : Host.Outcome State Fault Refusal :=
  .next (hostRead r place.bar place.off.toNat place.size s)

def execRcFieldRead (r : Requester) (place : RegAt) (s : State) : Host.Outcome State Fault Refusal :=
  .next (hostRead r place.bar place.off.toNat place.size s)

end Sys2Proof.Machine
end

