-- ==== Sys2Proof/Machine/Headgate.lean ====
section
/-! DEFINITION. The Headgate: predictor runs, mask bitmaps and audits (08 R187 to R201, R213, R215; 13 Table 13-19, R377). -/

namespace Sys2Proof.Machine

/-! ## Bitmap regions (Table 08-2) -/

/-- Bytes of a plane of NB bits. -/
def planeBytes (nb : Nat) : Nat := (nb + 511) / 512 * 64

/-- A plane with the bits of a list set. -/
def planeOf (nb : Nat) (set : Nat → Bool) : List Byte :=
  (List.range (planeBytes nb)).map (fun b =>
    BitVec.ofNat 8 (((List.range 8).map (fun k => (decide (8 * b + k < nb) && set (8 * b + k)).toNat * 2 ^ k)).sum))

/-- The image of a bitmap region. -/
def bitmapImg (nb samples gran row : Nat) (mask poison audit : Bool) (set : Nat → Bool) : Img :=
  let n := ((List.range nb).filter set).length
  { bytes := leBytes 4 nb ++ leBytes 4 n
      ++ leBytes 4 (samples * 2 ^ 16 + gran * 2 ^ 6 + mask.toNat * 8 + poison.toNat * 4 + audit.toNat)
      ++ leBytes 4 row ++ List.replicate 48 0 ++ planeOf nb set ++ List.replicate (planeBytes nb) 0
    bad := [] }

/-! ## HGP.RUN -/

/-- The parameters of Table 08-1. -/
structure RunCtl where
  r : Nat
  nb : Nat
  d : Nat
  xshift : Int
  hshift : Nat
  relu : Bool
  topk : Bool
  ksel : Nat
  aper : Nat
  thr : Int
  deriving DecidableEq, Repr

def RunCtl.ofWords (a b : W64) : RunCtl :=
  { r := fld a 56 8 + 1, nb := fld a 42 14 + 1, d := fld a 28 14 + 1, xshift := sfld a 22 6, hshift := fld a 17 5
    relu := bit a 16, topk := bit a 15, ksel := fld a 0 14 + 1, aper := fld b 32 16, thr := sfld b 0 32 }

/-- The control words of an HGP.RUN. -/
def runCtlOf (t : Thread) (w : W64) : RunCtl :=
  RunCtl.ofWords (t.sreg (fld w 39 5)) (t.sreg (fld w 39 5 + 1))

/-- Pitch of a row of n INT8 codes in the image (R190). -/
def codePitch (n : Nat) : Nat := (n + 63) / 64 * 64

def RunCtl.imageBytes (k : RunCtl) : Nat := k.r * codePitch k.d + k.nb * codePitch k.r

/-- The predicate answer of a run: audited when the (c + 1)-th counted run meets its period (R199). -/
def auditRun (t : Terrace) (k : RunCtl) : Bool := k.aper ≠ 0 && (t.auditRuns + 1) % k.aper = 0

/-- The checks of HGP.RUN at issue (R190, R377). -/
def runFault (c : Ctx) (s : State) : Option Nat :=
  let t := terrace s c.tg
  let w := c.w0
  let k := runCtlOf c.t w
  let off := (c.t.sreg (fld w 34 5)).toNat
  match descOk c.t (fld w 44 4) with
  | none => some fDESCRIPTOR
  | some x =>
    if x.form ≠ 0 || x.space = 0 || 0x0E < x.format || x.e0 ≠ k.d || 1024 < x.memRows || (k.topk && k.nb < k.ksel)
        || off % 64 ≠ 0 || memSize 1 < off + k.imageBytes then some fDESCRIPTOR
    else if !(produces t 6 (fld w 30 4)) || !(poolOf t 2).valid then some fHANDLE
    else if (poolOf t 2).size < 64 + 2 * planeBytes k.nb then some fDESCRIPTOR
    else none

/-- Forward an HGP.RUN to the Headgate; the predicate says whether the run is an audited one (R199). -/
def runBody (c : Ctx) (s : State) : Option State :=
  let k := runCtlOf c.t c.w0
  let aud := auditRun (terrace s c.tg) k
  (forward c s 6 aud).map (fun s =>
    let s := if k.aper ≠ 0 then updTerrace s c.tg (fun t => { t with auditRuns := t.auditRuns + 1 }) else s
    onThread c s (fun t => t.setP (fld c.w0 27 3) aud))

def execHgpRun (i : Issue) (s : State) : Host.Outcome State Fault Refusal :=
  issue { maj := 0x0B, min := 0x00 } i s (strict [(0, 27), (39, 1)] (checked runFault runBody))

/-- sat_int8(rne(x * 2^XSHIFT)) (R188). DEDUCED: log 27. -/
def quant8 (shift : Int) (v : Num) : Int :=
  match v.scale2 shift with
  | .nan => 0
  | .inf n => if n then -127 else 127
  | .fin n m e =>
    let q : Int := roundQ .rne m 1 e 0
    max (-128) (min 127 (if n then -q else q))

/-- sat_int8(rne(h / 2^HSHIFT)), clamped at 0 under RELU. -/
def rankStage (k : RunCtl) (h : Int) : Int :=
  let q : Int := roundQ .rne h.natAbs 1 0 k.hshift
  let v := max (-128) (min 127 (if h < 0 then -q else q))
  if k.relu then max v 0 else v

/-- A row of INT8 codes. -/
def int8s (bs : List PByte) : List Int := bs.map (fun (b : PByte) => b.1.toInt)

def dotInt (a b : List Int) : Int := ((a.zip b).map (fun p => p.1 * p.2)).sum

/-- The blocks one sample selects (R191). -/
def selectBlocks (k : RunCtl) (scores : List Int) : List Nat :=
  if k.topk then
    ((sortBy (fun (a b : Int × Nat) => decide (b.1 < a.1) || (a.1 == b.1 && decide (a.2 ≤ b.2))) scores.zipIdx).take
      k.ksel).map (·.2)
  else (scores.zipIdx.filter (fun (e : Int × Nat) => k.thr ≤ e.1)).map (·.2)

/-- Start an HGP.RUN; TRANS of its input has no effect (DESIGN CHOICE: log 79). DEDUCED: log 27. -/
def startRun (s : State) (tg : Nat) (c : Cmd) : Bool × State :=
  let al := allotOf s tg
  let w := c.w0
  let k := runCtlOf c.th w
  let x := descOf c.th (fld w 44 4)
  let off := (c.th.sreg (fld w 34 5)).toNat
  let rows := (List.range x.memRows).map (readRow s tg al x)
  let v := (List.range k.r).map (fun q => spRead s tg al 1 (off + q * codePitch k.d) k.d)
  let u := (List.range k.nb).map (fun j => spRead s tg al 1 (off + k.r * codePitch k.d + j * codePitch k.r) k.r)
  let bad (r : Rd) : Bool := r.data.any (fun (b : PByte) => b.2)
  let vals := rows.map (fun r => Row.value x.format r.1)
  let poison := vals.any (fun f => (List.range k.d).any (fun c => (f c).2)) || v.any bad || u.any bad
  let chosen := vals.map (fun f =>
    let xq := (List.range k.d).map (fun c => quant8 k.xshift (f c).1)
    let hq := v.map (fun r => rankStage k (dotInt (int8s r.data) xq))
    selectBlocks k (u.map (fun r => dotInt (int8s r.data) hq)))
  let set (j : Nat) : Bool := poison || chosen.any (fun l => l.contains j)
  let img := bitmapImg k.nb x.memRows 3 0 false poison c.aud set
  let l := rows.flatMap (·.2) ++ v.flatMap (·.accs) ++ u.flatMap (·.accs)
  if atsMissing l ≠ [] then (false, atsAsk s (.terrace tg) al (atsMissing l))
  else
  let s := performed s tg l
  let s := ctrAdd s (tBase tg + 0x1308) k.nb
  let s := ctrAdd s (tBase tg + 0x1310) ((List.range k.nb).filter set).length
  (true, updTerrace s tg (fun t =>
    setExec t 23 { cmd := c, outs := [img], outQ := fld w 30 4, pool := 2, ready := true, accs := l }))

/-! ## HGP.MASK (R213) -/

/-- The checks of HGP.MASK at issue (R213). -/
def maskFault (c : Ctx) (s : State) : Option Nat :=
  let t := terrace s c.tg
  match descOk c.t (fld c.w0 44 4) with
  | none => some fDESCRIPTOR
  | some x =>
    if x.form ≠ 2 || !([2, 3, 4].contains x.layout) then some fDESCRIPTOR
    else if !(produces t 6 (fld c.w0 30 4)) || !(poolOf t 2).valid then some fHANDLE
    else none

def execHgpMask (i : Issue) (s : State) : Host.Outcome State Fault Refusal :=
  issue { maj := 0x0B, min := 0x01 } i s (strict [(0, 30), (34, 4)] (checked maskFault (fun c s => forward c s 6)))

/-- Start an HGP.MASK; a poisoned header gives an empty poisoned bitmap. A row at or beyond the block rows reads its pointers where the
arithmetic places them. DESIGN CHOICE: log 79. -/
def startMask (s : State) (tg : Nat) (c : Cmd) : Bool × State :=
  let al := allotOf s tg
  let w := c.w0
  let x := descOf c.th (fld w 44 4)
  let y : Desc := { x with d := setFld x.d 111 1 (bit w 38).toNat }
  let row := (c.th.sreg (fld w 39 5)).toNat
  let (h, hbad, ha) := readHeader s tg al x
  if atsMissing ha ≠ [] then (false, atsAsk s (.terrace tg) al (atsMissing ha))
  else if !hbad && h.breaks y then (true, stageFault (logUnit s tg ha) tg c fDESCRIPTOR)
  else
    let nb := if hbad then 0 else if bit w 38 then h.rb else h.cb
    let (r, ra) := if hbad then (({ row := row, entries := [], bad := true } : CRow), []) else ptrRow s tg al y h row 0 (2 ^ 64)
    if atsMissing ra ≠ [] then (false, atsAsk s (.terrace tg) al (atsMissing ra))
    else
      let s := logUnit (performed s tg (ha ++ ra)) tg (ha ++ ra)
      if (poolOf (terrace s tg) 2).size < 64 + 2 * planeBytes nb then (true, stageFault s tg c fDESCRIPTOR)
      else
        let poison := r.bad || r.entries.any (·.bad)
        let img := bitmapImg nb 0 (x.layout - 2) row true poison false
          (fun j => r.entries.any (fun e => e.coord = j))
        (true, updTerrace s tg (fun t =>
          setExec t 23 { cmd := c, outs := [img], outQ := fld w 30 4, pool := 2, ready := true }))

/-! ## HGP.AUDIT (R201) -/

/-- The check of HGP.AUDIT at issue (R201). -/
def auditFault (c : Ctx) (s : State) : Option Nat := if !(consumes (terrace s c.tg) 6 (fld c.w0 30 4)) then some fHANDLE else none

/-- Forward an HGP.AUDIT: its thread is Blocked until the counts come back. -/
def auditBody (c : Ctx) (s : State) : Option State :=
  (forward c s 6).map (fun s => onThread c s (fun t => { t with st := .blocked (.audit (fld c.w0 43 5) none) }))

def execHgpAudit (i : Issue) (s : State) : Host.Outcome State Fault Refusal :=
  issue { maj := 0x0B, min := 0x02 } i s (strict [(0, 30), (34, 9), (43, 1)] (checked auditFault auditBody))

/-- The counts TRUE, HIT and EXTRA of a bitmap region (R201). -/
def auditCounts (img : Img) : Nat × Nat × Nat :=
  let at' (o n : Nat) : Nat := leNat ((img.bytes.drop o).take n)
  if at' 8 4 / 2 % 2 = 0 then (0, 0, 0)
  else
    let nb := at' 0 4
    let p := planeBytes nb
    let bits (o : Nat) (j : Nat) : Bool := bit (img.bytes.getD (o + j / 8) 0) (j % 8)
    let obs := bits (0x40 + p)
    let pred := bits 0x40
    let count (f : Nat → Bool) : Nat := ((List.range (8 * p)).filter f).length
    (count obs, count (fun j => obs j && pred j), count (fun j => pred j && !obs j))

/-- Give a waiting HGP.AUDIT its counts. -/
def answerAudit (t : Terrace) (thr : Nat) (a b : W64) : Terrace :=
  let x := mget t.threads thr {}
  match x.st with
  | .blocked (.audit sd none) => { t with threads := mset t.threads thr { x with st := .blocked (.audit sd (some (a, b))) } }
  | _ => t

def startAudit (s : State) (tg : Nat) (c : Cmd) : Bool × State :=
  match popQ (terrace s tg) (fld c.w0 30 4) with
  | none => (false, s)
  | some (h, t) =>
    let s := setTerrace s tg t
    let (tr, hit, extra) := auditCounts (imgOf (regionBytes s tg h))
    let b := tBase tg
    let s := satAdd (satAdd (satAdd s (b + 0x1318) 0 0 32 tr) (b + 0x131C) 0 0 32 hit) (b + 0x1320) 0 0 32 extra
    let s := freeHandle s tg c.thr c.th.pc.toNat h
    (true, updTerrace s tg (fun t => setExec
      (answerAudit t c.thr (BitVec.ofNat 64 (hit * 2 ^ 32 + tr)) (BitVec.ofNat 64 extra)) 23 { cmd := c, ready := true }))

/-- Start the command at the head of the Headgate's queue: one instruction at a time (R187). -/
def startHgp (s : State) (tg : Nat) (c : Cmd) : Bool × State :=
  if mhas (terrace s tg).execs 23 then (false, s)
  else
    match wMin c.w0 with
    | 0 => startRun s tg c
    | 1 => startMask s tg c
    | _ => startAudit s tg c

end Sys2Proof.Machine
end

