-- ==== Sys2Proof/Machine/Mma.lean ====
section
/-! DEFINITION. The MMA group (13 Tables 13-13 and 13-14, R371 to R373): matrix multiply, its configuration, and the tile
images of an accumulator entry (06 R135 to R150, 05 R124 to R126, 07 R173). -/

namespace Sys2Proof.Machine

/-! ## Fields -/

def mmaMode (c : Cmd) : Nat := fld c.w0 45 3
def mmaTags (w : W64) : Bool := bit w 39
def mmaFA (w : W64) : Nat := fld w 33 5
def mmaFW (w : W64) : Nat := fld w 28 5
def mmaM (w : W64) : Nat := fld w 18 10 + 1
def mmaN (w : W64) : Nat := fld w 8 10 + 1

/-- The fields of slot a of word 1 (Table 13-14). -/
def slotWQ (w1 : W64) (a : Nat) : Nat := fld w1 (10 * a + 5) 5
def slotAcc (w1 : W64) (a : Nat) : Nat := fld w1 (10 * a + 1) 4
def slotRel (w1 : W64) (a : Nat) : Bool := bit w1 (10 * a)

/-- The slots an MMA uses: slot 0 in a ganged mode, those of AMASK in Split (R371). -/
def slotsOf (mode : Nat) (w1 : W64) : List Nat :=
  if mode = 0 then (List.range 4).filter (fun a => bit w1 (40 + a)) else [0]

/-- The entries an instruction of the Array island writes, as (array, entry). -/
def entriesWritten (c : Cmd) : List (Nat × Nat) :=
  match wMin c.w0 with
  | 0 =>
    if mmaMode c = 0 then (slotsOf 0 c.w1).map (fun a => (a, slotAcc c.w1 a))
    else (List.range 4).map (fun a => (a, slotAcc c.w1 0))
  | 3 => [(fld c.w0 46 2, fld c.w0 42 4)]
  | _ => []

/-- The entries an EPI reads. -/
def entriesRead (c : Cmd) : List (Nat × Nat) :=
  let e := fld c.w0 44 4
  match c.tile with
  | some t => if t.mode = 0 then [(fld c.w0 42 2, e)] else (List.range 4).map (fun a => (a, e))
  | none => []

def meets (a b : List (Nat × Nat)) : Bool := a.any (fun x => b.contains x)

/-- Does an EPI issued earlier still have to read an entry that c reinitialises (R125)? DEDUCED: log 21. -/
def epiBefore (t : Terrace) (c : Cmd) : Bool :=
  (cmdsOf t 4).any (fun x => wMaj x.w0 == 0x07 && decide (x.seq < c.seq) && meets (entriesRead x) (entriesWritten c))

/-- Has an instruction of the Array issued before c still to write an entry that c reads (R125)? -/
def arrayBefore (t : Terrace) (c : Cmd) : Bool :=
  let l := cmdsOf t 3 ++ (match execOf t 20 with
    | some e => [e.cmd]
    | none => [])
  l.any (fun x => decide (x.seq < c.seq) && meets (entriesWritten x) (entriesRead c))

/-! ## Issue -/

/-- The tile an entry holds after the instructions issued so far (R216); an entry no instruction wrote holds 64 x 64 integer
zeros of Split (R140). -/
def tileOf (t : Terrace) (a e : Nat) : AccTag := mget t.accTag (entryKey a e) {}

/-- Record at issue the tile an MMA leaves, and the mode the island will be in; an entry has one tag, of the last instruction. DESIGN CHOICE: log 79. -/
def noteTile (t : Terrace) (mode : Nat) (w0 w1 : W64) : Terrace :=
  let tag : AccTag := { mode, int := intPath (mmaFA w0) (mmaFW w0), rows := mmaM w0, cols := mmaN w0 }
  let keys := (slotsOf mode w1).flatMap (fun a =>
    (arraysOf mode a (mmaM w0) (mmaN w0)).map (fun b => entryKey b (slotAcc w1 a)))
  { t with accTag := keys.foldl (fun m k => mset m k tag) t.accTag, gangIssued := mode }

/-- The checks of an MMA at issue (R35, R144, R371). T2 is taken for the activations too, as R44 pairs any two formats. DESIGN CHOICE: log 73. -/
def mmaFault (c : Ctx) (s : State) : Option Nat :=
  let w := c.w0
  let w1 := c.w1
  let mode := fld w 45 3
  let slots := slotsOf mode w1
  let unused := (List.range 4).filter (fun a => !(slots.contains a))
  let t := terrace s c.tg
  if fld w1 44 20 ≠ 0 || (mode = 0 && fld w1 40 4 = 0) || (mode ≠ 0 && fld w1 40 4 ≠ 0)
      || unused.any (fun a => fld w1 (10 * a) 10 ≠ 0) || slots.any (fun a => 16 < slotWQ w1 a)
      || (mmaTags w && (fld w 2 6 ≠ 0 || bit w 38)) then some fILLEGAL
  else if (ekind (mmaFA w)).isNone || (ekind (mmaFW w)).isNone then some fDESCRIPTOR
  else if 4 < mode || geoRows mode < mmaM w || geoCols mode < mmaN w || geoDepth mode < fld w 2 6 + 1
      || !(arrayFmt (mmaFA w)) || !(arrayFmt (mmaFW w)) then some fARRAY
  else if !(consumes t 3 (fld w 41 4)) || slots.any (fun a => slotWQ w1 a < 16 && !(consumes t 3 (slotWQ w1 a))) then some fHANDLE
  else none

/-- Forward an MMA to the Array island, and record the tile it leaves (R216). -/
def mmaBody (c : Ctx) (s : State) : Option State :=
  (forward c s 3).map (fun s => updTerrace s c.tg (fun t => noteTile t (fld c.w0 45 3) c.w0 c.w1))

def execMma (i : Issue) (s : State) : Host.Outcome State Fault Refusal :=
  issue { maj := 6, min := 0x00 } i s (strict [(0, 2)] (checked mmaFault mmaBody))

/-- MMA.CFG (R373): performed by the Array island in its order (R137). -/
def execMmaCfg (i : Issue) (s : State) : Host.Outcome State Fault Refusal :=
  issue { maj := 6, min := 0x01 } i s (strict [(0, 26)] (fun c s => forward c s 3))

/-- Is entry e of array a one that a tile image may read or replace (R150)? The current gang mode is that of the last MMA issued. DESIGN CHOICE: log 79. -/
def splitEntry (t : Terrace) (a e : Nat) : Bool := t.gangIssued == 0 && (tileOf t a e).mode == 0

/-- The checks of MMA.ACCRD at issue (R150, R373). -/
def accrdFault (c : Ctx) (s : State) : Option Nat :=
  let t := terrace s c.tg
  if !(splitEntry t (fld c.w0 46 2) (fld c.w0 42 4)) then some fARRAY
  else if !(consumes t 3 (fld c.w0 38 4)) || !(produces t 3 (fld c.w0 34 4)) then some fHANDLE
  else none

def execMmaAccrd (i : Issue) (s : State) : Host.Outcome State Fault Refusal :=
  issue { maj := 6, min := 0x02 } i s (strict [(0, 34)] (checked accrdFault (fun c s => forward c s 3)))

/-- The checks of MMA.ACCWR at issue (R150, R373). -/
def accwrFault (c : Ctx) (s : State) : Option Nat :=
  let t := terrace s c.tg
  if !(splitEntry t (fld c.w0 46 2) (fld c.w0 42 4)) then some fARRAY
  else if !(consumes t 3 (fld c.w0 38 4)) then some fHANDLE
  else none

/-- Forward an MMA.ACCWR, and record the tile it leaves: 64 x 64 of Split (R150). -/
def accwrBody (c : Ctx) (s : State) : Option State :=
  let a := fld c.w0 46 2
  let e := fld c.w0 42 4
  (forward c s 3).map (fun s => updTerrace s c.tg (fun t =>
    { t with accTag := mset t.accTag (entryKey a e) { mode := 0, int := (tileOf t a e).int, rows := 64, cols := 64 } }))

def execMmaAccwr (i : Issue) (s : State) : Host.Outcome State Fault Refusal :=
  issue { maj := 6, min := 0x03 } i s (strict [(0, 33), (34, 4)] (checked accwrFault accwrBody))

/-! ## In the Array island -/

/-- Pop a region: its handle and its contents. -/
def takeRegion (s : State) (tg q : Nat) : Option (BitVec 16 × Img × State) :=
  match popQ (terrace s tg) q with
  | some (h, t) =>
    let s := setTerrace s tg t
    some (h, imgOf (regionBytes s tg h), s)
  | none => none

/-- The queues an MMA pops, in order: its activation's, then a panel's for each slot that names one. -/
def mmaPops (c : Cmd) : List Nat :=
  fld c.w0 41 4 :: ((slotsOf (mmaMode c) c.w1).filter (fun a => slotWQ c.w1 a < 16)).map (slotWQ c.w1)

/-- The queues of a list that hold fewer regions than are popped from them. -/
def shortQueues (t : Terrace) (qs : List Nat) : List Nat :=
  qs.filter (fun q => decide ((lqOf t q).entries.length < (qs.filter (fun x => x = q)).length))

/-- Does the first activation of an MMA carry FIRST, or the MMA INIT? -/
def mmaInit (s : State) (tg : Nat) (c : Cmd) : Bool :=
  if mmaTags c.w0 then
    match (lqOf (terrace s tg) (fld c.w0 41 4)).entries with
    | h :: _ => (Tag.ofBytes (readRegion s tg h 64).data).first
    | [] => false
  else bit c.w0 38

/-- The panel of each slot, popped or reused (R146): none when a slot reuses a panel its array does not hold (R372). -/
def mmaPanels (s : State) (tg : Nat) (c : Cmd) : Option (List (Nat × Panel) × State) :=
  let mode := mmaMode c
  (slotsOf mode c.w1).foldl (fun (r : Option (List (Nat × Panel) × State)) a =>
    match r with
    | none => none
    | some (l, s) =>
      if slotWQ c.w1 a < 16 then
        match takeRegion s tg (slotWQ c.w1 a) with
        | some (h, img, s) => some (l ++ [(a, { mode, handle := h, img })], s)
        | none => none
      else
        match mget? (terrace s tg).panels a with
        | some p => if p.mode = mode then some (l ++ [(a, p)], s) else none
        | none => none) (some ([], s))

/-- The rounds of a pass (R157): the arrays that compute their own logical array, then those whose work a substitute takes over. -/
def roundOrder {α : Type} (deg : List Nat) (key : α → Nat) (l : List α) : List α :=
  l.filter (fun x => !(deg.contains (key x))) ++ l.filter (fun x => deg.contains (key x))

/-- What an MMA does to its slot's entry: promotions, and the counts of runs verified and of exempt lines. -/
def mmaSlot (t : Terrace) (mode : Nat) (int init : Bool) (a e rows cols gg : Nat) (x w : Operand) : Terrace × Nat × Nat :=
  let cells := tileCells mode a rows cols
  let rs := runsOf gg (t.runLen + 1)
  let acc := cells.foldl (fun m (y : TCell) =>
    let k := cellKey y.a e y.r y.c
    let runs := rs.map (fun r => runVal int x w y.i y.j r.1 r.2)
    mset m k (promoteAll int init mode (mget m k {}) runs)) t.acc
  let arrays := if mode = 0 then [a] else roundOrder t.degraded id (List.range 4)
  let ls := arrays.map (fun b => (substitute t.degraded b, rs.map (fun r =>
    checkLines int x w (cells.filter (fun (y : TCell) => y.a = b)) r.1 r.2)))
  let all := ls.flatMap (fun e => e.2)
  let checks := ls.foldl (fun m e => match e.2.getLast? with
    | some l => putChecks int m e.1 l
    | none => m) t.checks
  ({ t with acc, checks }, (all.filter (verified int t.tol)).length, (all.map exemptLines).sum)

/-- Start an MMA: it pops its operands, and its promotions take effect in operand-entry order (R124). -/
def startMul (s : State) (tg : Nat) (c : Cmd) : Bool × State :=
  let t := terrace s tg
  let w := c.w0
  let mode := mmaMode c
  let short := shortQueues t (mmaPops c)
  if !short.isEmpty then (false, s)
  else
    let init := mmaInit s tg c
    if init && epiBefore t c then (false, s)
    else
      match takeRegion s tg (fld w 41 4) with
      | none => (false, s)
      | some (hA, img, s) =>
        match mmaPanels s tg c with
        | none => (true, stageFault s tg c fARRAY)
        | some (ps, s) =>
          let int := intPath (mmaFA w) (mmaFW w)
          let g := groupOf (mmaFA w) (mmaFW w)
          let tagA := Tag.ofBytes img.pbytes
          let gg := if mmaTags w then (tagA.kused + g - 1) / g else fld w 2 6 + 1
          let tagW (p : Panel) : Tag := Tag.ofBytes p.img.pbytes
          let clash := mmaTags w && (gszOf tagA.gsz ≠ g || ps.any (fun (e : Nat × Panel) =>
            let b := tagW e.2
            b.kused ≠ tagA.kused || b.first ≠ tagA.first || b.last ≠ tagA.last || b.empty ≠ tagA.empty
              || b.gsz ≠ tagA.gsz))
          if tagA.lanes ≠ mmaM w || ps.any (fun (e : Nat × Panel) => (tagW e.2).lanes ≠ mmaN w) || clash
              || geoDepth mode < gg then (true, stageFault s tg c fARRAY)
          else
            let gg := if mmaTags w && tagA.empty then 0 else gg
            let x := Operand.of img (mmaFA w) g gg
            let (t, runs, ex) := (roundOrder t.degraded (fun (e : Nat × Panel) => e.1) ps).foldl (fun (st : Terrace × Nat × Nat) (e : Nat × Panel) =>
              let (t, n, m) := mmaSlot st.1 mode int init e.1 (slotAcc c.w1 e.1) (mmaM w) (mmaN w) gg x
                (Operand.of e.2.img (mmaFW w) g gg)
              (t, st.2.1 + n, st.2.2 + m)) (terrace s tg, 0, 0)
            let keep := if mode = 0 then ps else match ps with
              | (_, p) :: _ => (List.range 4).map (fun a => (a, p))
              | [] => []
            let held := (if bit w 40 then [hA] else [])
              ++ (ps.filter (fun (e : Nat × Panel) => slotRel c.w1 e.1)).map (fun (e : Nat × Panel) => e.2.handle)
            let t := { t with gang := mode, panels := keep.foldl (fun m (e : Nat × Panel) => mset m e.1 e.2) t.panels }
            let s := setTerrace s tg (setExec t 20 { cmd := c, held, ready := true })
            (true, satAdd (ctrAdd s (tBase tg + 0x1110) runs) (tBase tg + 0x110C) 0 0 32 ex)

/-- The tile image of an entry (Table 06-3). -/
def tileImage (t : Terrace) (a e : Nat) : List PByte :=
  let cell (n : Nat) : AccCell := mget t.acc (entryKey a e * 4096 + n) {}
  let flags (f : AccCell → Bool) : List Byte :=
    (List.range 512).map (fun b => BitVec.ofNat 8 (((List.range 8).map (fun k => (f (cell (8 * b + k))).toNat * 2 ^ k)).sum))
  ((List.range 4096).flatMap (fun n => leBytes 4 (cell n).w.toNat) ++ flags (·.ovf) ++ flags (·.bad)).map
    (fun (b : Byte) => ((b, false) : PByte))

/-- Load an entry from a tile image: a cell is poisoned by its poison bit or by the sectors it is read from; the mode tag becomes
Split (R150), and the path stays. DESIGN CHOICE: log 79. -/
def loadImage (t : Terrace) (a e : Nat) (img : List PByte) : Terrace :=
  let byte (k : Nat) : PByte := img.getD k (0, false)
  { t with acc := (List.range 4096).foldl (fun m n =>
    let k := entryKey a e * 4096 + n
    let bs := (List.range 4).map (fun i => byte (4 * n + i))
    let fo := byte (0x4000 + n / 8)
    let fb := byte (0x4200 + n / 8)
    mset m k { w := BitVec.ofNat 32 (leNat (bs.map (fun (b : PByte) => b.1))), flt := (mget m k {}).flt
               ovf := bit fo.1 (n % 8), bad := bit fb.1 (n % 8) || fb.2 || fo.2 || bs.any (fun (b : PByte) => b.2)
               mode := 0 }) t.acc }

/-- Start MMA.ACCRD or MMA.ACCWR: the region is popped, and one that is too small raises HANDLE (R373). -/
def startTile (s : State) (tg : Nat) (c : Cmd) : Bool × State :=
  let t := terrace s tg
  let a := fld c.w0 46 2
  let e := fld c.w0 42 4
  let read := wMin c.w0 = 2
  if !read && epiBefore t c then (false, s)
  else
    match takeRegion s tg (fld c.w0 38 4) with
    | none => (false, s)
    | some (h, img, s) =>
      let t := terrace s tg
      if regionSize t h < 17408 then (true, stageFault s tg c fHANDLE)
      else if read then
        let s := writeRegion s tg h 0 (tileImage t a e)
        (true, updTerrace s tg (fun t =>
          setExec t 20 { cmd := c, outQ := fld c.w0 34 4, got := some h, ready := true }))
      else
        (true, updTerrace s tg (fun t => setExec (loadImage t a e img.pbytes) 20
          { cmd := c, held := if bit c.w0 33 then [h] else [], ready := true }))

/-- Does the drain of a completed tile, the next EPI, find the Epilogue's input full (R122)? The input holds one tile, that of the EPI at work.
DESIGN CHOICE: log 71. -/
def drainBlocked (t : Terrace) : Bool :=
  match cmdsOf t 4 with
  | c :: _ => wMaj c.w0 == 7 && mhas t.execs 21 && !(arrayBefore t c)
  | [] => false

/-- Start the command at the head of the Array's queue; no operand enters while the island is frozen (R122). -/
def startMma (s : State) (tg : Nat) (c : Cmd) : Bool × State :=
  if mhas (terrace s tg).execs 20 || (wMin c.w0 = 0 && drainBlocked (terrace s tg)) then (false, s)
  else
    match wMin c.w0 with
    | 0 => startMul s tg c
    | 1 => (true, updTerrace s tg (fun t => { t with runLen := fld c.w0 42 6, tol := fld c.w0 26 16 }))
    | _ => startTile s tg c

/-- The queues the head of the Array's queue waits on, for a bound miss (R96, R123). DEDUCED: log 21. -/
def mmaWaitsOn (t : Terrace) (c : Cmd) : List Nat :=
  match wMin c.w0 with
  | 0 => shortQueues t (mmaPops c)
  | 1 => []
  | _ => shortQueues t [fld c.w0 38 4]

end Sys2Proof.Machine
end

