-- ==== Sys2Proof/Machine/Epilogue.lean ====
section
/-! DEFINITION. The EPI instruction (13 Table 13-15, R374): the drain of an accumulator entry through the fused steps, to memory, to an
AS operand or to reduction targets (09 R216 to R228; 05 R127; 08 R200; 02 R54). -/

namespace Sys2Proof.Machine

/-! ## The control word (Table 09-1) -/

structure EpiCtl where
  act : Nat
  scaleEn : Bool
  biasEn : Bool
  biasFirst : Bool
  ew : Nat
  ewAfter : Bool
  byRow : Bool
  vfmt : Nat
  ch0 : Nat
  sspace : Nat
  soff : Nat
  bspace : Nat
  boff : Nat
  rsv : Nat
  deriving DecidableEq, Repr

def EpiCtl.ofWords (a b : W64) : EpiCtl :=
  { act := fld a 61 3, scaleEn := bit a 60, biasEn := bit a 59, biasFirst := bit a 58, ew := fld a 56 2, ewAfter := bit a 55
    byRow := bit a 54, vfmt := fld a 52 2, ch0 := fld a 0 32, sspace := fld b 62 2, soff := fld b 38 24, bspace := fld b 36 2
    boff := fld b 12 24, rsv := fld a 32 20 + fld b 0 12 }

/-- The format code of the scale and bias vectors. -/
def EpiCtl.vecFmt (k : EpiCtl) : Nat := if k.vfmt = 0 then 0x0E else if k.vfmt = 1 then 0x0C else 0x0D
def EpiCtl.vecBytes (k : EpiCtl) : Nat := if k.vfmt = 0 then 4 else 2

/-- Channels of a tile. -/
def EpiCtl.channels (k : EpiCtl) (t : AccTag) : Nat := if k.byRow then t.rows else t.cols

/-- Does a vector lie outside a memory, or break its alignment? -/
def EpiCtl.vecBad (k : EpiCtl) (space off n : Nat) : Bool :=
  space = 0 || off % k.vecBytes ≠ 0 || memSize space < off + (k.ch0 + n) * k.vecBytes

/-- Does a control word break R216 for a tile? A set reserved bit is a reserved value (DEDUCED: log 11). -/
def EpiCtl.breaks (k : EpiCtl) (t : AccTag) : Bool :=
  5 < k.act || k.rsv ≠ 0 || k.ew = 3 || k.vfmt = 3
  || (k.scaleEn && k.vecBad k.sspace k.soff (k.channels t)) || (k.biasEn && k.vecBad k.bspace k.boff (k.channels t))

/-- Is every step but conversion off (R219)? -/
def EpiCtl.bare (k : EpiCtl) : Bool := !k.scaleEn && !k.biasEn && k.ew = 0 && k.act = 0

/-! ## Fields -/

def epiDst (w : W64) : Nat := fld w 40 2
def epiCtl (c : Cmd) : EpiCtl := .ofWords (c.th.sreg (fld c.w0 35 5)) (c.th.sreg (fld c.w0 35 5 + 1))
def epiRed (c : Cmd) : RedCtl := .ofWords (c.th.sreg (fld c.w0 17 5)) (c.th.sreg (fld c.w0 17 5 + 1))
def epiDest (c : Cmd) : Desc := descOf c.th (fld c.w0 31 4)
def epiObs (w : W64) : Bool := bit w 26

/-- Does the element-wise descriptor break R218? -/
def ewBad (th : Thread) (k : EpiCtl) (reg : Nat) (t : AccTag) : Bool :=
  k.ew ≠ 0 && (match descOk th reg with
    | some x => x.form ≠ 0 || x.space = 0 || 0x0E < x.format || x.e0 < t.cols || x.e1 < t.rows
    | none => true)

/-- Does a tile fail to supply whole blocks (R223), or a destination break R222? -/
def dstBad (x : Desc) (t : AccTag) : Bool :=
  let inner := if x.trans then t.rows else t.cols
  let edge := if x.layout = 2 then 8 else if x.layout = 3 then 16 else if x.layout = 4 then 32 else 1
  storeBad x || (x.layout = 0 && scaled x.format && inner % 32 ≠ 0 && inner < x.e0)
  || t.rows % edge ≠ 0 || t.cols % edge ≠ 0

/-- With DST = 1 only FORMAT, RMODE, SAT and the seed of dD are used; an AUX descriptor still stands in an even register, and the register after it is
no descriptor (R91). -/
def asDstBad (t : Thread) (k : Nat) : Bool :=
  let x := descOf t k
  !(arrayFmt x.format) || x.rmode = 3 || (x.rmode = 2 && !x.hasAux) || (x.hasAux && k % 2 = 1) || (k % 2 = 1 && (descOf t (k - 1)).hasAux)

/-! ## Issue -/

/-- Fields that EPI's form does not use must be 0 (R350). -/
def epiIllegal (w : W64) : Bool :=
  let d := epiDst w
  d = 3 || fld w 0 11 ≠ 0 || fld w 35 5 % 2 = 1 || (d ≠ 2 && fld w 17 5 ≠ 0) || (d = 2 && fld w 17 5 % 2 = 1)
  || (d ≠ 1 && fld w 11 6 ≠ 0) || (!(epiObs w) && fld w 22 4 ≠ 0)

/-- The tile an EPI drains, as the instructions issued so far leave it. DEDUCED: log 22. -/
def epiTile (c : Ctx) (s : State) : AccTag := tileOf (terrace s c.tg) (fld c.w0 42 2) (fld c.w0 44 4)

/-- The checks of EPI at issue (R216 to R224, R374). DEDUCED: log 22. -/
def epiFault (c : Ctx) (s : State) : Option Nat :=
  let w := c.w0
  let t := terrace s c.tg
  let tile := epiTile c s
  let k := EpiCtl.ofWords (c.t.sreg (fld w 35 5)) (c.t.sreg (fld w 35 5 + 1))
  let red := RedCtl.ofWords (c.t.sreg (fld w 17 5)) (c.t.sreg (fld w 17 5 + 1))
  let d := descOf c.t (fld w 31 4)
  let hO := c.t.hreg (fld w 22 4)
  let ok := descOk c.t (fld w 31 4)
  if epiIllegal w then some fILLEGAL
  else if k.breaks tile || ewBad c.t k (fld w 27 4) tile
      || (epiDst w = 0 && (ok.isNone || dstBad d tile))
      || (epiDst w = 1 && asDstBad c.t (fld w 31 4))
      || (epiDst w = 2 && (ok.isNone || red.breaks d)) then some fDESCRIPTOR
  else if (tile.mode = 0 && t.gangIssued ≠ 0) || (tile.mode ≠ 0 && (t.gangIssued = 0 || fld w 42 2 ≠ 0)) then some fARRAY
  else if (epiObs w && (!(handleOk t hO) || hMem hO ≠ 2))
      || (epiDst w = 1 && (!(produces t 5 (fld w 13 4)) || !(consumes t 3 (fld w 13 4)) || !(poolOf t 1).valid)) then some fHANDLE
  else none

def execEpi (i : Issue) (s : State) : Host.Outcome State Fault Refusal :=
  issue { maj := 7, min := 0x00 } i s (checked epiFault (fun c s => forward c s 4 false (some (epiTile c s))))

/-! ## The steps (R219) -/

/-- Elements CH0 + c of a scale or bias vector, decoded exactly, with their poison (R217). -/
def epiVec (s : State) (tg : Nat) (k : EpiCtl) (space off n : Nat) : List (Num × Bool) :=
  let b := k.vecBytes
  let rd := tRead (terrace s tg) (allotOf s tg) space (off + k.ch0 * b) (n * b)
  (codesOf (8 * b) n rd.data).map (fun (c : Code) => (decodeElem k.vecFmt c.1, c.2))

/-- An FP32 result of an operation on FP32 values. -/
def toF32 (v : Num) : Num := f32 (rne32 v)

/-- A value entering from an accumulator cell: the exact integer on the bypass, else FP32, a tagged integer as an infinity (R54). -/
def epiEnter (c : AccCell) (bypass : Bool) : Num :=
  if c.flt then f32 c.w
  else if bypass then .ofInt c.w.toInt 0
  else if c.ovf then .inf c.w.msb
  else toF32 (.ofInt c.w.toInt 0)

/-- The operands an element takes: scale, bias and element-wise element. -/
structure EpiArgs where
  sc : Num × Bool
  bi : Num × Bool
  ew : Num × Bool

/-- The steps up to the activation. -/
def epiBeforeEw (k : EpiCtl) (a : EpiArgs) (x : Num) : Num :=
  let scale (x : Num) : Num := if k.scaleEn then toF32 (Num.mul x a.sc.1) else x
  let bias (x : Num) : Num := if k.biasEn then toF32 (Num.add x a.bi.1) else x
  if k.biasFirst then scale (bias x) else bias (scale x)

def epiEw (k : EpiCtl) (a : EpiArgs) (on : Bool) (x : Num) : Num :=
  if !on || k.ew = 0 then x else if k.ew = 1 then toF32 (Num.add x a.ew.1) else toF32 (Num.mul x a.ew.1)

/-- After the activation, and the final value. -/
def epiSteps (k : EpiCtl) (a : EpiArgs) (x : Num) : Num × Num :=
  let y := epiEw k a (!k.ewAfter) (epiBeforeEw k a x)
  let y := if k.act = 0 then y else f32 (activate k.act (rne32 y))
  (y, epiEw k a k.ewAfter y)

/-- The poison of an element's operands (R224). -/
def EpiArgs.bad (k : EpiCtl) (a : EpiArgs) : Bool := (k.scaleEn && a.sc.2) || (k.biasEn && a.bi.2) || (k.ew ≠ 0 && a.ew.2)

/-- A drained tile: the results, the values after the activation, and whether some cell of a bypass was tagged. -/
structure Drain where
  out : List (List REl)
  mid : List (List REl)
  bypass : Bool
  tagged : Bool

/-- The destination format of an EPI: of its descriptor, or of its reduction. -/
def epiFmt (c : Cmd) : Nat := if epiDst c.w0 = 2 then (epiRed c).fmt else (epiDest c).format

/-- The formats the integer bypass converts to (R54). -/
def bypassFmt (f : Nat) : Bool := isIntFmt f || f == 0x10

/-- Drain the tile of an EPI. -/
def drain (s : State) (tg : Nat) (c : Cmd) (tile : AccTag) : Drain :=
  let t := terrace s tg
  let al := allotOf s tg
  let k := epiCtl c
  let n := k.channels tile
  let sc := if k.scaleEn then epiVec s tg k k.sspace k.soff n else []
  let bi := if k.biasEn then epiVec s tg k k.bspace k.boff n else []
  let x := descOf c.th (fld c.w0 27 4)
  let ew := if k.ew = 0 then [] else (List.range tile.rows).map (fun i => Row.value x.format (readRow s tg al x i).1)
  let none' : Num × Bool := (.zero, false)
  let arr := fld c.w0 42 2
  let acc := fld c.w0 44 4
  let cell (i j : Nat) : AccCell :=
    let p := physOf tile.mode arr i j
    mget t.acc (cellKey p.1 acc p.2.1 p.2.2) {}
  let bypass := k.bare && bypassFmt (epiFmt c) && !(cell 0 0).flt
  let g := (List.range tile.rows).map (fun i => (List.range tile.cols).map (fun j =>
    let ch := if k.byRow then i else j
    let a : EpiArgs := { sc := sc.getD ch none', bi := bi.getD ch none', ew := (ew.getD i (fun _ => none')) j }
    let q := cell i j
    let r := epiSteps k a (epiEnter q bypass)
    let bad := q.bad || a.bad k
    (({ v := r.2, bad, flt := q.flt } : REl), ({ v := r.1, bad, flt := q.flt } : REl), q.ovf)))
  { out := g.map (fun r => r.map (fun e => e.1)), mid := g.map (fun r => r.map (fun e => e.2.1)), bypass
    tagged := bypass && g.any (fun r => r.any (fun e => e.2.2)) }

/-! ## Observation (R200) -/

/-- Has an element a nonzero destination code? -/
def codeNonzero (fmt : Nat) (c : Nat) : Bool := !(decodeElem fmt c).isZero

/-- The rows of a tile as their destination codes say: nonzero or poisoned. -/
def observed (fmt : Nat) (x : Desc) (g : List (List REl)) : List (List Bool) :=
  let rows := if x.trans then flipGrid g else g
  let enc := rows.zipIdx.map (fun (es, r) =>
    ((encodeRowOf fmt x r es).1.codes.zip es).map (fun (q, e) => codeNonzero fmt q.1 || e.bad))
  if x.trans then (List.range ((enc.headD []).length)).map (fun j => enc.map (fun r => r.getD j false)) else enc

/-- A drained tile as the source of a compressing store. -/
def tileDense (h : Header) (g : List (List REl)) : Dense :=
  { rows := g.length, cols := (g.headD []).length, pitch := h.cols
    at' := fun r c => match (g.getD r [])[c]? with
      | some e => (e.v, e.bad)
      | none => (.zero, false) }

/-- The elements of a tile that a compressing store writes, by row and column of the tile, with their destination codes (R43, R52, R73, R74, R214). -/
def codedPlaces (s : State) (tg al : Nat) (x : Desc) (g : List (List REl)) : List ((Nat × Nat) × Code) :=
  let h := (readHeader s tg al x).1
  let d := tileDense h g
  let b := h.edge
  let block (r c : Nat) : List (Nat × Nat) := (List.range b).flatMap (fun i => (List.range b).map (fun j => (r + i, c + j)))
  let codes (vs : List (Val × Nat)) : List Code := (encodePayload h.format x vs).1
  if !x.cmode then
    let d := { d with rows := h.rows, cols := h.cols }
    let es := (gridOrder h).filter (present h x d)
    if b = 1 then (es.map (fun e => (e.r, e.c))).zip (codes (es.flatMap (payloadVals h d)))
    else es.flatMap (fun e => (block e.r e.c).zip (codes (payloadVals h d e)))
  else if namesRow x h d.rows d.cols then
    ((listedEntries s tg al x h x.rowFirst 1).1.take (ceilDiv d.cols b)).zipIdx.flatMap (fun ((e, _), n) =>
      (block 0 (n * b)).zip (codes (rowVals h d e n)))
  else
    let d := d.within h
    let es := (listedEntries s tg al x h 0 (h.prows false)).1
    let new := es.filter (fun (e : CEnt × Nat) => decide (e.1.r < d.rows) && decide (e.1.c < d.cols))
    if b = 1 && scaled h.format then
      (distinct (new.map (fun (e : CEnt × Nat) => e.2 / 32))).flatMap (fun k =>
        let vs := (reformBlock s tg al x h d es k).1
        (vs.map (fun v => (v.1.1.r, v.1.1.c))).zip (codes (vs.map (fun v => v.2))))
    else new.flatMap (fun e => (block e.1.r e.1.c).zip (codes (payloadVals h d e.1)))

/-- The same for a compressing store. An element that the store does not write has no destination code; a poisoned one counts (R200). -/
def observedPayload (s : State) (tg al : Nat) (x : Desc) (g : List (List REl)) : List (List Bool) :=
  let set := (codedPlaces s tg al x g).filterMap (fun (p, q) => if codeNonzero (readHeader s tg al x).1.format q.1 then some p else none)
  g.zipIdx.map (fun (es, r) => es.zipIdx.map (fun (e, c) => e.bad || set.contains (r, c)))

/-- Set bits of the observed plane of a region for the 64-column blocks with a nonzero element. -/
def observe (s : State) (tg : Nat) (h : BitVec 16) (nz : List (List Bool)) (poison : Bool) : State :=
  let bs := regionBytes s tg h
  let at' (o n : Nat) : Nat := leNat (((bs.drop o).take n).map (fun (b : PByte) => b.1))
  let nb := at' 0 4
  let p := 0x40 + planeBytes nb
  let blocks := (List.range (((nz.headD []).length + 63) / 64)).filter (fun j =>
    decide (j < nb) && nz.any (fun r => ((r.drop (64 * j)).take 64).any id))
  let s := (distinct (blocks.map (fun j => j / 8))).foldl (fun s q =>
    let old := (bs.getD (p + q) (0, false)).1
    let new := blocks.foldl (fun (b : Byte) j => if j / 8 = q then b ||| BitVec.ofNat 8 (2 ^ (j % 8)) else b) old
    writeRegion s tg h (p + q) [(new, false)]) s
  if poison then writeRegion s tg h 8 [((bs.getD 8 (0, false)).1 ||| 4#8, false)] else s

/-- OBSVALID is set when the instruction ends. -/
def observeEnd (s : State) (tg : Nat) (c : Cmd) : State :=
  if wMaj c.w0 = 7 && epiObs c.w0 then
    let h := c.th.hreg (fld c.w0 22 4)
    let b := (readRegion s tg h 9).data.getD 8 (0, false)
    writeRegion s tg h 8 [(b.1 ||| 2#8, false)]
  else s

/-! ## The drain -/

/-- The destination of DST = 1 as the numbering of its elements sees it: cols columns, not transposed. -/
def asOperandDesc (x : Desc) (cols : Nat) : Desc := { x with d := setFld (setFld x.d 64 32 cols) 111 1 0 }

/-- The operand of DST = 1: rows are lanes, columns are K (R374). Under SR its elements are numbered row by row over the tile, as it is no tensor.
DESIGN CHOICE: log 73. -/
def asOperand (c : Cmd) (g : List (List REl)) : List PByte × Bool × Bool :=
  let x := epiDest c
  let cols := (g.headD []).length
  let y := asOperandDesc x cols
  let rs := g.zipIdx.map (fun (es, r) => encodeRowOf x.format y r es)
  let gsz := fld c.w0 11 2
  let tag : Tag := { kused := cols, lanes := g.length, first := true, last := true, empty := false, gsz, row := 0, w0 := 0 }
  (operand x.format tag (rs.map (fun r => r.1)), rs.any (fun r => r.2.1), rs.any (fun r => r.2.2))

/-- Store a drained tile in a compressed destination (R223, R73, R74, R214): none when its header is refused. -/
def storeCompressed (s : State) (tg al : Nat) (x : Desc) (g : List (List REl)) : Option (Put × Bool) :=
  let (h, bad, ha) := readHeader s tg al x
  let rows := g.length
  let cols := (g.headD []).length
  if bad || h.breaks x || (x.treq && 65536 < h.prows true) || rows % h.edge ≠ 0 || cols % h.edge ≠ 0 then none
  else
    let p : Put := { s, accs := ha }
    if x.cmode then
      let d := tileDense h g
      some (if namesRow x h rows cols then maskedRowStore p tg al x h x.rowFirst d else maskedStore p tg al x h d, false)
    else some (detectStore p tg al x h { tileDense h g with rows := h.rows, cols := h.cols })

/-- The counters of Tables 09-9 and 09-10 when a drain begins. -/
def epiCount (s : State) (tg : Nat) (k : EpiCtl) (bypass : Bool) (n : Nat) : State :=
  let off := tBase tg + 0x1400
  let s := setRg s off (setFld (setFld (rg s off 0) 28 3 k.act) 27 1 bypass.toNat)
  ctrAdd s (tBase tg + 0x1404) n

/-- What an EPI counts, flags and observes once it has drained its tile. -/
def drainNote (s : State) (tg : Nat) (c : Cmd) (tile : AccTag) (x : Desc) (d : Drain) : State :=
  let s := epiCount s tg (epiCtl c) d.bypass (tile.rows * tile.cols)
  let s := flagT s tg d.tagged false
  if epiObs c.w0 then
    let nz := if epiDst c.w0 = 1 then observed (epiFmt c) (asOperandDesc x (d.mid.headD []).length) d.mid
      else if epiDst c.w0 = 0 && x.form = 2 then observedPayload s tg (allotOf s tg) x d.mid
      else observed (epiFmt c) x d.mid
    observe s tg (c.th.hreg (fld c.w0 22 4)) nz (d.mid.any (fun r => r.any (fun e => e.bad)))
  else s

/-- Note what an EPI did if its unit went on. -/
def drainEnd (tg : Nat) (c : Cmd) (tile : AccTag) (x : Desc) (d : Drain) (r : Bool × State) : Bool × State :=
  if r.1 && mhas (terrace r.2 tg).execs 21 then (true, drainNote r.2 tg c tile x d) else r

/-- Start an EPI at the head of the Epilogue's queue; it waits for the entry's last write (R125). -/
def startDrain (s : State) (tg : Nat) (c : Cmd) : Bool × State :=
  if arrayBefore (terrace s tg) c then (false, s)
  else
    let al := allotOf s tg
    let tile := c.tile.getD {}
    let x := epiDest c
    let d := drain s tg c tile
    match epiDst c.w0 with
    | 0 =>
      if x.form = 2 then
        match storeCompressed s tg al x d.out with
        | none => (true, stageFault s tg c fDESCRIPTOR)
        | some r => drainEnd tg c tile x d (outStore s tg 21 c x r r.1.bad)
      else drainEnd tg c tile x d
        (outStore s tg 21 c x (putGrid { s, accs := [] } tg al x d.out, false) (poisonCount (clipGrid x d.out)))
    | 1 =>
      let (bs, o, v) := asOperand c d.out
      if (poolOf (terrace s tg) 1).size < bs.length then (true, stageFault s tg c fDESCRIPTOR)
      else drainEnd tg c tile x d (true, updTerrace (flagT s tg o v) tg (fun t => setExec t 21
        { cmd := c, outs := [imgOf bs], outQ := fld c.w0 13 4, pool := 1, ready := true }))
    | _ =>
      let (es, o, v) := targetElems x (epiRed c) 0 d.out
      let s := notePoison (sendTiles s tg c x (epiRed c) es) tg (es.filter (fun e => e.2.2)).length
      drainEnd tg c tile x d (true, passOwed (updTerrace (flagT s tg o v) tg (fun t =>
        setExec t 21 { cmd := c, ready := true, owed := tileOwed s tg x (epiRed c) es })) tg 21)

end Sys2Proof.Machine
end

