-- ==== Sys2Proof/Machine/RegWrite.lean ====
section
/-! DEFINITION. Writes of registers and doorbell pages, the interrupt and RAS registers, and BAR4 (00 R8, R10 to R12, 12 R346, 14 R405, 19 R513 to
R519, R524, R528 to R530). -/

namespace Sys2Proof.Machine

/-! ## RAS and interrupts (R517, R524, R529) -/

/-- RAS_POP removes the head record. -/
def execRasPop (r : Requester) (v : W32) (s : State) : Host.Outcome State Fault Refusal :=
  .next (pfWriteAlways s r (fun s => if bit v 31 then { s with ras := s.ras.drop 1 } else s))

/-- INT_STAT: a write that leaves an enabled cause set asks for another message. -/
def execIntStatClear (r : Requester) (v : W32) (s : State) : Host.Outcome State Fault Refusal :=
  .next (pfWriteAlways s r (fun s => wantSet (setRg s 0x2000 (intStat s &&& ~~~(v &&& 0x7FFF#32)))))

def execIntEnWrite (r : Requester) (v : W32) (s : State) : Host.Outcome State Fault Refusal :=
  .next (pfWriteAlways s r (fun s => wantSet (setRg s 0x2004 (v &&& 0x7FFF#32))))

/-- The end of a window: one message for a vector that rose in it; with both ports Down none is sent. DEDUCED: log 59. -/
def execIntMessage (vector : Fin 16) (s : State) : Host.Outcome State Fault Refusal :=
  let v := vector.val
  if !(bit s.intPend v) then .next s
  else
    let s : State := { s with intPend := setFld s.intPend v 1 0 }
    match modulePort s with
    | none => .next s
    | some p => .next (emit (satAdd s 0x2008 0 0 32 1) (.msix p 0 v))

/-! ## Plain register writes -/

/-- Is a value outside a range that its field states (R346, R450)? -/
def outOfRange (off : Nat) (v : W32) : Bool :=
  let weir := fld v 16 15 < 4 || fld v 0 16 < 1
  let turn := fld v 28 4 < 1
  let port := turn || fld v 16 11 < 1 || 1024 < fld v 16 11 || fld v 8 8 < 1
  match placeOf off with
  | (.glob, _, rel) =>
    if 0x120000 ≤ rel && rel < 0x122000 then weir
    else if rel = 0x7000200 then bit v 14 && 255 < fld v 0 14
    else false
  | (.terr, _, rel) => if rel = 0x1700 then weir else if 0x1710 ≤ rel && rel < 0x171C then turn else false
  | (.sadl, _, rel) =>
    if 0x70000 ≤ rel && rel < 0x70020 then weir else if 0x80000 ≤ rel && rel < 0x80028 then port else if rel = 0x80028 then turn else false
  | (.hdw, _, rel) => if 0x40000 ≤ rel && rel < 0x40010 then port else false

/-- A module ID that becomes invalid holds every Skovuk port Down (R440). -/
def skvIdWritten (s : State) : State :=
  if skvIdValid s then s
  else (List.range 8).foldl (fun s k => if (mget s.skv k {}).state = 0 then s else portDown s k) s

/-- Store the writable bits of a register, and clear the bits that a 1 clears. DEDUCED: log 60. -/
def putReg (s : State) (off : Nat) (row : RegRow) (v : W32) : State :=
  let m := row.rw ||| row.rws
  let s := setRg s off (((rg s off row.reset &&& ~~~m) ||| (v &&& m)) &&& ~~~(v &&& row.w1c))
  match placeOf off with
  | (.terr, tg, 0x1120) => updTerrace s tg (fun t => { t with debug := true })
  | (.glob, _, 0x7000000) => skvIdWritten s
  | _ => s

/-- A 32-bit write of a register that has no row of its own: a read-only register ignores it, an unoccupied offset logs it, and so does a value
out of range or a write of ARR_DBG_SEL outside Maintenance (R159). -/
def plainWrite (s : State) (r : Requester) (off : Nat) (v : W32) : State :=
  match regRow off with
  | none => if s.resetting.isSome then logDropped s off v.toNat else rasAppend s 0x02 0 0 0 none (writeDetail .bar0 r off)
  | some row =>
    let debug := match placeOf off with
      | (.terr, _, 0x1120) => true
      | _ => false
    if s.resetting.isSome then logDropped s off v.toNat
    else if !(blockAnswers s off) || row.rw ||| row.rws ||| row.w1c = 0 then s
    else if outOfRange off v || (debug && s.mode ≠ .maintenance) then logDropped s off v.toNat
    else putReg s off row v

/-! ## Registers with rows of their own -/

/-- The state that an outcome goes on to. -/
def nextOr (s : State) : Host.Outcome State Fault Refusal → State
  | .next t => t
  | _ => s

/-- ALLOT_CMDa: OP 1 RESET, 2 KILL; 0 and 3 are ignored. -/
def allotCmdWrite (r : Requester) (a : Nat) (v : W32) (s : State) : State :=
  let op := fld v 29 2
  if op = 1 then nextOr s (execAllotReset r (Fin.ofNat 1024 a) s)
  else if op = 2 then nextOr s (execAllotKill r (Fin.ofNat 1024 a) s)
  else pfWrite s r (allotBase a + 0x14) v.toNat (fun s => s)

/-- The writes of the global block's registers that have rows of their own. -/
def globWrite (r : Requester) (off : Nat) (v : W32) (s : State) : State :=
  let plain := match r with
    | .pf _ => if regsUp s then plainWrite s r off v else s
    | _ => s
  if off = 0x1004 then nextOr s (execRasPop r v s)
  else if off = 0x2000 then nextOr s (execIntStatClear r v s)
  else if off = 0x2004 then nextOr s (execIntEnWrite r v s)
  else if off = 0x110008 then nextOr s (execXltInvalidate r v s)
  else if off = 0x130000 then rsvRequest r v s
  else if off = 0x130014 then nextOr s (execRsvPctWrite r v s)
  else if off = 0x150004 then nextOr s (execFbCapWrite r v s)
  else if off = 0x170000 then rstCtl r v s
  else if off = 0x7000204 then nextOr s (execSkvRteWrite r v s)
  else if 0x7000304 ≤ off && off < 0x7000314 then nextOr s (execSkvWinWrite r (Fin.ofNat 4 ((off - 0x7000304) / 4)) v s)
  else if 0x100000 ≤ off && off < 0x104000 then
    let a := Fin.ofNat 1024 ((off - 0x100000) / 0x10)
    match off % 0x10 with
    | 0 => nextOr s (execXltRootWrite r a false v s)
    | 4 => nextOr s (execXltRootWrite r a true v s)
    | 8 => nextOr s (execXltCtxWrite r a v s)
    | _ => plain
  else if 0x140000 ≤ off && off < 0x150000 then
    let a := (off - 0x140000) / 0x40
    let k := off % 0x40 / 4
    if k < 5 then nextOr s (execAllotCfgWrite r (Fin.ofNat 1024 a) (Fin.ofNat 5 k) v s)
    else if k = 5 then allotCmdWrite r a v s
    else if 7 ≤ k && k < 10 then nextOr s (execGaugeCfgWrite r (Fin.ofNat 1026 (a + 2)) (Fin.ofNat 3 (k - 7)) v s)
    else plain
  else if 0x200000 ≤ off && off < 0x400000 && off % 0x20 < 0x18 then
    nextOr s (execQCfgWrite r (Fin.ofNat 65536 ((off - 0x200000) / 0x20)) (Fin.ofNat 6 (off % 0x20 / 4)) v s)
  else plain

/-- A 32-bit write of BAR0 at an aligned offset by PF0. -/
def write32 (r : Requester) (off : Nat) (v : W32) (s : State) : State :=
  match placeOf off with
  | (.glob, _, _) => globWrite r off v s
  | (.hdw, n, rel) =>
    if !(blockAnswers s off) then s
    else if 0x50000 ≤ rel && rel < 0x5000C then
      nextOr s (execGaugeCfgWrite r (Fin.ofNat 1026 n) (Fin.ofNat 3 ((rel - 0x50000) / 4)) v s)
    else if rel = 0x5000C then nextOr s (execGaugeHeadWrite r (Fin.ofNat 1026 n) v s)
    else if regsUp s then plainWrite s r off v
    else s
  | _ => if regsUp s then plainWrite s r off v else s

/-- A 32-bit write of a doorbell page: SQ_TAILi, CQ_HEADi and, on the page's first queue, GHEAD; the others are read-only or unoccupied. -/
def page32 (bar : Bar) (r : Requester) (al off : Nat) (v : W32) (s : State) : State :=
  let q := off / 0x100
  match off % 0x100 with
  | 0 => nextOr s (execSqTailWrite r (Fin.ofNat 1024 al) (Fin.ofNat 64 q) v s)
  | 4 => nextOr s (execCqHeadWrite r (Fin.ofNat 1024 al) (Fin.ofNat 64 q) v s)
  | 8 => s
  | 0xC => s
  | k =>
    if k = 0x10 && q = 0 then nextOr s (execGaugeHeadWrite r (Fin.ofNat 1026 (al + 2)) v s)
    else if !(regsUp s) then s
    else rasAppend s 0x02 0 0 0 none (writeDetail bar r (if bar = .bar2 then al * 0x4000 + off else off))

/-- A 32-bit write through a BAR, by a requester that the BAR serves (Table 19-1). -/
def barWrite (bar : Bar) (r : Requester) (off : Nat) (v : W32) (s : State) : State :=
  match bar, r with
  | .bar0, .pf _ => write32 r off v s
  | .bar2, .pf _ => if off < 0x1000000 then page32 bar r (off / 0x4000) (off % 0x4000) v s else s
  | .vfbar0, .vf n _ =>
    if 0x4000 ≤ off || !(regsUp s) then s
    else match vfAllot s n.val with
      | none => unboundVf s r off
      | some a => page32 bar r a off v s
  | _, _ => s

/-! ## Writes by Exmas (R515) -/

/-- The registers with fields that Exmas writes, apart from RST_CTL and FB_CAP. -/
def exmasPlain (off : Nat) : Bool :=
  off == 0x150020 || off == 0x150028 || off == sBase 0 + 0x2000C || off == sBase 1 + 0x2000C

/-- WRITE_REG: one field that Exmas writes, or INVALID; a misaligned write and one of an unoccupied offset are logged too (R8, R10). -/
def exmasWrite (off : Nat) (v : W32) (s : State) : State :=
  if off % 4 ≠ 0 then exAnswer (rasAppend s 0x01 0 0 0 none (writeDetail .bar0 .exmas off)) .invalid []
  else if off = 0x150004 then nextOr s (execFbCapWrite .exmas v s)
  else if off = 0x170000 then rstCtl .exmas v s
  else if (regRow off).isNone then exAnswer (rasAppend s 0x02 0 0 0 none (writeDetail .bar0 .exmas off)) .invalid []
  else if !(exmasPlain off) then exAnswer s .invalid []
  else if s.resetting.isSome then exAnswer (logDropped s off v.toNat) .busy []
  else exAnswer (plainWrite s .exmas off v) .success []

/-! ## REG_WRITE (R8) -/

/-- A write of 32 or 64 bits as its 32-bit writes, the lower address first (R8). -/
def writeWords (f : Nat → W32 → State → State) (o : Nat) (size : AccSize) (v : BitVec 64) (s : State) : State :=
  if size = .b8 then f (o + 4) ((v >>> 32).setWidth 32) (f o (v.setWidth 32) s) else f o (v.setWidth 32) s

/-- A write through a BAR: one narrower than 32 bits or off its alignment is dropped whole and logged, and a 64-bit one is two 32-bit writes, the
lower address first. -/
def execRegWrite (r : Requester) (bar : Bar) (off : BitVec 28) (size : AccSize) (v : BitVec 64) (s : State) :
    Host.Outcome State Fault Refusal :=
  let o := off.toNat
  let whole := 4 ≤ size.bytes && o % 4 == 0
  let drop := rasAppend s 0x01 0 0 0 none (writeDetail bar r o)
  if !(regsUp s) then .next s
  else if r = .exmas then .next (if whole then writeWords exmasWrite o size v s else exAnswer drop .invalid [])
  else if !(barServes bar r) then .next s
  else .next (if whole then writeWords (barWrite bar r) o size v s else drop)

/-! ## BAR4 (R519) -/

/-- How many bytes of a BAR4 access lie below HBM's capacity: the rest is beyond it. -/
def bar4In (s : State) (off len : Nat) : Nat := min len (hbmCap s.guarded - off)

/-- The log entry of an access that passes the capacity. -/
def bar4Log (s : State) (off len : Nat) : State :=
  if bar4In s off len = len then s else rasAppend s 0x05 0 0 0 none (max off (hbmCap s.guarded) % 2 ^ 40)

/-- A read: EP is set when a sector is poisoned or its group is Lost. From step 7 of a boot it reads 0 (R491). -/
def execBar4Read (_ : Fin 2) (off : BitVec 40) (len : Nat) (s : State) : Host.Outcome State Fault Refusal :=
  if !(regsUp s) then
    .next (if s.mode = .boot then emit s (.data (List.replicate len 0) false) else s)
  else
    let n := bar4In s off.toNat len
    let i := imgOf (dpaRead s off.toNat n)
    .next (emit (saddlePass (bar4Log s off.toNat len) bar4Path off.toNat n false).2 (.data (i.bytes ++ List.replicate (len - n) 0) !i.bad.isEmpty))

/-- A write: with EP set it poisons every sector it writes. -/
def execBar4Write (_ : Fin 2) (off : BitVec 40) (bytes : List Byte) (ep : Bool) (s : State) : Host.Outcome State Fault Refusal :=
  if !(regsUp s) then .next s
  else
    let n := bar4In s off.toNat bytes.length
    let s := (saddlePass (bar4Log s off.toNat bytes.length) bar4Path off.toNat n true).2
    .next (dpaWrite s off.toNat ((bytes.take n).map (fun (b : Byte) => ((b, ep) : PByte))))

end Sys2Proof.Machine
end

