-- ==== Sys2Proof/Machine/Exmas.lean ====
section
/-! DEFINITION. The Exmas message set and the management protocols beside it (18 R488, R489, R498, R504, R507, R509 to R511, 15 R426, 17 R474). -/

namespace Sys2Proof.Machine

/-! ## Who answers (R489, R500, R510) -/

/-- Is only the always-on domain awake: in Standby, and after a Spillway trip? -/
def alwaysOnOnly (s : State) : Bool := s.mode == .standby || (s.mode == .faulted && (s.freason == 3 || s.tripped))

/-- The answer to a command: none in Off, in recovery Maintenance, and where only the always-on domain is awake unless it knows the command;
BUSY for one that changes the state during a reset; BAD_STATE outside its states. DEDUCED: log 51. -/
def exmas (s : State) (low change ok : Bool) (f : State → State) : State :=
  if s.mode = .off || recovery s || (alwaysOnOnly s && !low) then s
  else if change && s.resetting.isSome then exAnswer s .busy []
  else if !ok then exAnswer s .badState []
  else f s

/-- A command that answers SUCCESS when performed. -/
def exDone (f : State → State) (s : State) : State := exAnswer (f s) .success []

/-- The states of READ_REG (Table 18-10). -/
def readStates (s : State) : Bool := s.mode != .off && s.mode != .standby

/-- Ready or Draining. -/
def serving (s : State) : Bool := s.mode == .ready || s.mode == .draining

/-! ## State commands -/

def execGetState (s : State) : Host.Outcome State Fault Refusal :=
  .next (exmas s true false true (fun s =>
    exAnswer s .success [modeCode s.mode, (rg s 0x170008 0).toNat, (fbStat s).toNat]))

def execPowerOn (b : BootSample) (s : State) : Host.Outcome State Fault Refusal :=
  .next (exmas s true true (bootAllowed s b) (exDone (fun s => powerOn s 2 b)))

/-- POWER_OFF: in Draining only once every queue's ACC equals its SEQ. -/
def execPowerOff (s : State) : Host.Outcome State Fault Refusal :=
  let idle := s.mode == .draining && (jrn s).qtab.all (fun e => e.2.acc == e.2.seq)
  .next (exmas s true true (idle || s.mode == .maintenance || s.mode == .faulted) (exDone enterStandby))

def execDrain (s : State) : Host.Outcome State Fault Refusal :=
  .next (exmas s false true (s.mode == .ready) (exDone (fun s => setMode s .draining)))

/-- Is the module in Maintenance on an operator's request? -/
def operatorMaint (s : State) : Bool := s.mode == .maintenance && fld (rg s 0x170008 0) 24 4 == 5

/-- RESUME: from operator Maintenance it is performed as a warm reset. -/
def execResume (s : State) : Host.Outcome State Fault Refusal :=
  .next (exmas s false true (s.mode == .draining || operatorMaint s) (exDone (fun s =>
    if s.mode = .draining then setMode s .ready
    else startReset (setRg s 0x170008 (setFld (rg s 0x170008 0) 24 4 0)) 1 2 .ready)))

/-- RESET: refused with BUSY in any other state (R498), where a request joins a reset in progress or turns it cold. -/
def exReset (s : State) (kind : Nat) (goal : Mode) : State :=
  let turns := match s.resetting with
    | some r => kind = 3 && 0 < r.kind && r.kind < 3
    | none => takesReset s
  if s.mode = .off || recovery s || alwaysOnOnly s then s
  else if s.resetting.isSome then exAnswer (if turns then startReset s kind 2 goal else s) (if turns then .success else .busy) []
  else if !turns then exAnswer s .busy []
  else exDone (fun s => startReset s kind 2 goal) s

def execExmasResetWarm (s : State) : Host.Outcome State Fault Refusal := .next (exReset s 1 s.mode)
def execExmasResetCold (s : State) : Host.Outcome State Fault Refusal := .next (exReset s 3 .ready)

/-- MAINT_ENTER: running items stop, and their slots stay Running. -/
def execMaintEnter (s : State) : Host.Outcome State Fault Refusal :=
  .next (exmas s false true (serving s) (exDone (fun s =>
    setMode (setRg (dropRuns s) 0x170008 (setFld (rg s 0x170008 0) 24 4 5)) .maintenance)))

/-! ## Registers and events -/

/-- READ_REG: in Boot a register but an identity register reads 0 (R491). DEDUCED: log 51. -/
def execReadReg (off : BitVec 28) (s : State) : Host.Outcome State Fault Refusal :=
  let o := off.toNat
  .next (exmas s false false (readStates s) (fun s =>
    if s.mode = .boot then exAnswer s .success [if o < 0x14 then (regRead s (o / 4 * 4)).toNat else 0]
    else
      let (bs, s) := readBytes s .exmas .bar0 o 4
      exAnswer s .success [leNat bs]))

def execWriteReg (off : BitVec 28) (v : W32) (s : State) : Host.Outcome State Fault Refusal :=
  .next (exmas s false (s.mode == .boot) (readStates s) (exmasWrite off.toNat v))

/-- GET_EVENT returns the oldest queued event: its DROPPED count and its words. -/
def execGetEvent (s : State) : Host.Outcome State Fault Refusal :=
  .next (exmas s false false (readStates s) (fun s =>
    match s.evq with
    | [] => exAnswer s .success []
    | e :: rest => exAnswer { s with evq := rest } .success (e.dropped :: e.words)))

def execSetEventReceiver (eid : Byte) (s : State) : Host.Outcome State Fault Refusal :=
  .next (exmas s false false (readStates s) (exDone (fun s => { s with receiver := eid })))

/-! ## Configuration (R488) -/

/-- The items of a configuration as words. -/
def nvWords (n : Nv) : List Nat :=
  [n.guarded.toNat] ++ (List.range 4).map (fun p => (mget n.mir p 0).toNat) ++ [n.id.toNat, n.mgr.toNat, n.bootCap]
  ++ n.slots.map (fun (b : Bool) => b.toNat)

def execConfigGet (s : State) : Host.Outcome State Fault Refusal :=
  .next (exmas s false false (readStates s) (fun s => exAnswer s .success (nvWords (nvNow s))))

/-- Does an item of a CONFIG_SET lie outside its field: a mirrored range of 1 to 2,048 GiB from 0 to 2,047, a boot cap of R464? -/
def configBad (c : NvConfig) : Bool :=
  c.mir.any (fun m => bit m.2 31 && (fld m.2 12 12 < 1 || 2048 < fld m.2 12 12 || 2047 < fld m.2 0 12))
  || (match c.bootCap with
      | some n => n < 900 || 2800 < n || n % 10 ≠ 0
      | none => false)

/-- The configuration with the items that a command names. -/
def Nv.apply (n : Nv) (c : NvConfig) : Nv :=
  { n with
    guarded := c.guarded.getD n.guarded
    mir := c.mir.foldl (fun m e => mset m e.1.val (e.2 &&& 0x80FFFFFF#32)) n.mir
    id := (c.id.map (fun v => v &&& 0x80003FFF#32)).getD n.id
    mgr := c.mgr.getD n.mgr
    bootCap := c.bootCap.getD n.bootCap
    slots := c.slots.foldl (fun l e => l.set e.1.val e.2) n.slots }

/-- Write the older copy of the configuration, with the next sequence number. -/
def writeNv (s : State) (f : Nv → Nv) : State :=
  let n := { f (nvNow s) with seq := max s.nv0.seq s.nv1.seq + 1 }
  if s.nv0.seq < s.nv1.seq then { s with nv0 := n } else { s with nv1 := n }

/-- CONFIG_SET: what it writes takes effect at the next cold reset or power-on. -/
def execConfigSet (c : NvConfig) (s : State) : Host.Outcome State Fault Refusal :=
  .next (exmas s false true (s.mode == .maintenance || s.mode == .draining) (fun s =>
    if configBad c then exAnswer s .invalid []
    else
      let s := writeNv s (fun n => n.apply c)
      let new := if c.id.isSome then setIns s.nvNew 0 else s.nvNew
      let new := if c.mgr.isSome then setIns new 1 else new
      let pend := (List.range 3).map (fun k => (nvNow s).slots.getD k false != s.fw.run.getD k false)
      exAnswer { s with nvNew := new, fw := { s.fw with pend := if c.slots.isEmpty then s.fw.pend else pend } } .success []))

/-! ## Retirement and diagnostics -/

def execRetire (tg : Fin 64) (ridge : Bool) (s : State) : Host.Outcome State Fault Refusal :=
  let tgs := if ridge then (List.range 4).map (fun k => tg.val / 4 * 4 + k) else [tg.val]
  .next (exmas s false true (serving s) (exDone (fun s => askRetire s 4 tgs)))

/-- DIAG_RUN: the boot test of one terrace; the answer comes when it is accepted. -/
def execDiagRun (test : Nat) (s : State) : Host.Outcome State Fault Refusal :=
  .next (exmas s false true (s.mode == .maintenance) (fun s =>
    if 64 ≤ test then exAnswer s .invalid []
    else if s.diag.isSome then exAnswer s .busy []
    else exAnswer { s with diag := some test } .success []))

/-- Rails on estimation whose telemetry is verified are measured again, at the ceiling of the phases that are up (R473, R474). -/
def verifyRails (s : State) : State :=
  { s with rails := s.rails.map (fun e => (e.1, if e.2.st ≠ 2 then e.2
      else if e.2.lost = 0 then { e.2 with st := 0, ceil := none, missed := 0, disagree := 0 }
      else
        let (n, c) := railTable e.1
        { e.2 with st := 1, ceil := some ((n - e.2.lost) * c / n), missed := 0, disagree := 0 })) }

/-- The diagnostic ends: a pass clears the degraded marks of a terrace that holds no retirement record, and a failure is the boot test's; the
result is an event. -/
def execDiagDone (r : DiagResult) (s : State) : Host.Outcome State Fault Refusal :=
  match s.diag with
  | none => .next s
  | some tg =>
    let s : State := { s with diag := none }
    let s := if r.pass then
        verifyRails (if (terrace s tg).recorded then s else updTerrace s tg (fun t => { t with degraded := [] }))
      else if (terrace s tg).recorded then s
      else askRetire (updTerrace s tg (fun t => { t with degraded := [0, 1, 2, 3] })) 0 [tg]
    .next (exEvent s ([0x1010, tg, r.pass.toNat] ++ r.failed))

/-! ## MCTP control and PLDM monitoring (R509) -/

/-- An MCTP control request: Set and Get Endpoint ID act on the endpoint ID; what any other request is answered the spec does not state
(log 3). PRESUMED: log 52. -/
def execMctpControl (msg : List Byte) (s : State) : Host.Outcome State Fault Refusal :=
  if s.mode = .off || recovery s then .next s
  else match (msg.getD 2 0).toNat with
    | 1 =>
      let e := msg.getD 4 0
      if (msg.getD 3 0).toNat % 4 < 2 && 8 ≤ e.toNat && e.toNat < 255 then
        .next (emit { s with eid := e } (.reply 0 true [1, e.toNat] []))
      else .next (emit s (.reply 0 false [1, s.eid.toNat] []))
    | 2 => .next (emit s (.reply 0 true [2, s.eid.toNat] []))
    | c =>
      let (w, s) := fresh s
      .next (emit s (.reply 0 true [c] [w]))

/-- A PLDM monitoring request: temperatures, rail and input power, feed voltages and coolant readings. DESIGN CHOICE: log 3. PRESUMED: log 52. -/
def execPldmMonitoring (_ : List Byte) (s : State) : Host.Outcome State Fault Refusal :=
  if !(readStates s) || recovery s || alwaysOnOnly s then .next s
  else
    let temps := (List.range 484).map (fun k => (sensor s k).tj)
      ++ (List.range 12).map (fun k => (stackOf s k).temp)
    let power := (List.range 29).map (fun k => (rail s k).pwr) ++ [s.fb.pwr]
    .next (emit s (.reply 1 true (temps ++ power ++ [(feed s 0).volts, (feed s 1).volts, s.fb.inlet, s.fb.outlet, s.fb.flow]) []))

end Sys2Proof.Machine
end

