-- ==== Sys2Proof/Machine/Firmware.lean ====
section
/-! DEFINITION. Firmware update and attestation (18 R499, R500, R505 to R508). -/

namespace Sys2Proof.Machine

/-! ## Firmware update (R507) -/

/-- Does the module take an update of a component: in recovery Maintenance of component 1 only? -/
def updateStates (s : State) (comp : Nat) : Bool :=
  if recovery s then comp == 0
  else serving s || s.mode == .maintenance || (s.mode == .faulted && s.freason != 3 && !s.tripped)

/-- RequestUpdate: one update runs at a time, and the slot it writes is invalid until it completes (R508). A request in another state, or with
an SVN beyond 63, is turned down. -/
def execRequestUpdate (comp : Fin 3) (ver svn : Nat) (s : State) : Host.Outcome State Fault Refusal :=
  if s.mode = .off || alwaysOnOnly s then .next s
  else if s.update.isSome then .next (emit s (.reply 2 false [comp.val, 1] []))
  else if !(updateStates s comp.val) || s.resetting.isSome || 63 < svn then .next (emit s (.reply 2 false [comp.val, 0] []))
  else
    let u : Update := { comp := comp.val, ver, svn, verified := false }
    .next (emit { s with update := some u, flash := mset s.flash (inactiveSlot s comp.val) {} } (.reply 2 true [comp.val] []))

/-- The written image is verified: ok says that it keeps R499 and names its component. An image below the SVN minimum is not valid. -/
def execVerifyComplete (ok : Bool) (s : State) : Host.Outcome State Fault Refusal :=
  match s.update with
  | none => .next s
  | some u =>
    if u.verified then .next s
    else if !ok || u.svn < s.fw.svnMin.getD u.comp 0 then .next (emit { s with update := none } (.reply 2 false [u.comp, 2] []))
    else
      let i : Image := { valid := true, ver := u.ver, svn := u.svn }
      .next (emit { s with update := some { u with verified := true }, flash := mset s.flash (inactiveSlot s u.comp) i }
        (.reply 2 true [u.comp, 2] []))

/-- ActivateFirmware selects the newly written slot, for the next cold reset or power-on. In recovery Maintenance it is kept too. -/
def execActivateFirmware (raise : Bool) (s : State) : Host.Outcome State Fault Refusal :=
  match s.update with
  | none => .next (if s.mode = .off || alwaysOnOnly s then s else emit s (.reply 2 false [3] []))
  | some u =>
    if !u.verified then .next (emit s (.reply 2 false [u.comp, 3] []))
    else
      let slot := !(s.fw.run.getD u.comp false)
      let s := writeNv s (fun n => { n with slots := n.slots.set u.comp slot })
      .next (emit { s with
        update := none
        fw := { s.fw with pend := s.fw.pend.set u.comp true, raised := s.fw.raised.set u.comp raise } } (.reply 2 true [u.comp, 3] []))

/-! ## SPDM (R506) -/

/-- Does the SPDM responder answer: in every state but Off and Standby? In recovery Maintenance only the update is accepted. -/
def spdmUp (s : State) : Bool := readStates s && !(recovery s)

/-- As many free values as asked. -/
def freshes : Nat → State → List W64 × State
  | 0, s => ([], s)
  | n + 1, s =>
    let (w, s) := fresh s
    let (ws, s) := freshes n s
    (w :: ws, s)

/-- An SPDM answer: what the spec states of it as words, and n values it leaves open (log 3). -/
def spdm (s : State) (ok : Bool) (ws : List Nat) (n : Nat) : State :=
  if !(spdmUp s) then s
  else
    let (vs, s) := freshes n s
    emit s (.reply 3 ok ws vs)

/-- The versions: SPDM 1.2 and 1.3. -/
def execGetVersion (s : State) : Host.Outcome State Fault Refusal := .next (spdm s true [0x12, 0x13] 0)

/-- The capabilities: certificates, challenge, signed measurements; the rest of the answer is open. -/
def execGetCapabilities (s : State) : Host.Outcome State Fault Refusal := .next (spdm s true [1, 1, 1] 1)

/-- The only algorithms are ECDSA P-384, bit 0, and SHA-384, bit 1: both must be offered. -/
def execNegotiateAlgorithms (algs : Nat) (s : State) : Host.Outcome State Fault Refusal :=
  .next (if algs % 4 = 3 then spdm s true [3] 0 else spdm s false [algs] 0)

/-- The digest of the slot 0 chain: six 64-bit words of SHA-384. -/
def execGetDigests (s : State) : Host.Outcome State Fault Refusal := .next (spdm s true [0] 6)

/-- A part of the slot 0 chain; its leaf binds the Rider measurement. -/
def execGetCertificate (slot off len : Nat) (s : State) : Host.Outcome State Fault Refusal :=
  .next (if slot = 0 then spdm s true [slot, off, len] ((len + 7) / 8) else spdm s false [slot] 0)

/-- A challenge on slot 0: a P-384 signature is twelve 64-bit words. -/
def execChallenge (slot : Nat) (s : State) : Host.Outcome State Fault Refusal :=
  .next (if slot = 0 then spdm s true [slot] 12 else spdm s false [slot] 0)

/-- A signed measurement of an index of Table 18-9: its digest and the signature. -/
def execGetMeasurements (index : Nat) (s : State) : Host.Outcome State Fault Refusal :=
  .next (if 1 ≤ index && index ≤ 6 then spdm s true [index] 18 else spdm s false [index] 0)

end Sys2Proof.Machine
end

