-- ==== Sys2Proof/Machine/Guard.lean ====
section
/-! DEFINITION. The reduction guard of a Saddle: guard records and the combination of contributions (09 R229 to R234). -/

namespace Sys2Proof.Machine

/-- A guard record (Table 09-6). -/
structure GRec where
  bitmap : Nat
  item : Nat
  n1 : Nat
  op : Nat
  valid : Bool
  fmt : Nat
  deriving DecidableEq, Repr

def GRec.ofBytes (bs : List Byte) : GRec :=
  let at' (o n : Nat) : Nat := leNat ((bs.drop o).take n)
  { bitmap := at' 0 32, item := at' 0x20 8 / 2 ^ 16, n1 := at' 0x20 8 / 2 ^ 8 % 2 ^ 8, op := at' 0x20 8 / 2 ^ 4 % 16
    valid := at' 0x28 4 / 2 ^ 31 = 1, fmt := at' 0x28 4 % 32 }

def GRec.bytes (r : GRec) : List Byte :=
  leBytes 32 r.bitmap ++ leBytes 8 (r.item * 2 ^ 16 + r.n1 * 2 ^ 8 + r.op * 2 ^ 4)
  ++ leBytes 4 (r.valid.toNat * 2 ^ 31 + r.fmt) ++ List.replicate 20 0

/-- The combination of a target element with a contributed one (Table 09-5). -/
def combine (op fmt t c : Nat) : Nat :=
  if op ≠ 0 then (if recWins op fmt t c then t else c)
  else if fmt = 0x0E then (f32add (BitVec.ofNat 32 t) (BitVec.ofNat 32 c)).toNat
  else if fmt = 0x0C then (encodeElem 0x0C .rne false (Num.add (decodeElem 0x0C t) (decodeElem 0x0C c))).code
  else if fmt = 0x0F then (t + c) % 2 ^ 64 else (t + c) % 2 ^ 32

/-- Write the first contribution of an item: its elements as sent, the identity everywhere else in the tile. -/
def writeTile (s : State) (c : Contribution) : State :=
  let n := c.size
  let bs := (List.range (4096 / n)).flatMap (fun i =>
    match c.elems.find? (fun e => e.1 = i * n) with
    | some e => (leBytes n e.2.1).map (fun (b : Byte) => ((b, e.2.2) : PByte))
    | none => (leBytes n (redIdentity c.op)).map (fun (b : Byte) => ((b, false) : PByte)))
  dpaWrite s c.tile bs

/-- Combine every element of a contribution into the tile. -/
def combineTile (s : State) (c : Contribution) : State :=
  let n := c.size
  c.elems.foldl (fun s e =>
    let old := dpaRead s (c.tile + e.1) n
    let v := combine c.op c.fmt (leNat (old.map (fun (b : PByte) => b.1))) e.2.1
    let bad := e.2.2 || old.any (fun (b : PByte) => b.2)
    dpaWrite s (c.tile + e.1) ((leBytes n v).map (fun (b : Byte) => ((b, bad) : PByte)))) s

/-- Write a guard record. -/
def writeGRec (s : State) (c : Contribution) (r : GRec) : State := dpaWrite s c.record (cleanBytes r.bytes)

/-- A packet dropped for a mismatch: counted, logged, and reported with the item's completion (R231). -/
def guardMismatch (s : State) (n : Nat) (c : Contribution) : State :=
  let s := satAdd s (sBase n + 0x5000C) 0 0 32 1
  let s := rasAppend s 0x13 1 3 n (some c.allot) c.tileVa
  match c.slot with
  | some k => runErr s k 6
  | none => s

/-- The path of a guard's accesses: they are of the packet's allotment, and never revoked (R344). -/
def guardPath (s : State) (c : Contribution) : Path := { num := 5, cls := allotRank s c.allot, allot := c.allot, exempt := true }

/-- The 64-byte sectors of the tile that a contribution touches, by address. -/
def tileSectors (c : Contribution) : List Nat := distinct (c.elems.map (fun e => (c.tile + e.1) / 64 * 64))

/-- A guard's accesses to the tile pass the Reservoir (R234): a first contribution writes the whole tile; later ones read and write what they touch. -/
def passTile (s : State) (c : Contribution) (first : Bool) : State :=
  let q := guardPath s c
  if first then (saddlePass s q c.tile 4096 true).2
  else (tileSectors c).foldl (fun s a => (saddlePass (saddlePass s q a 64 false).2 q a 64 true).2) s

/-- One guard step (R231); its record and its tile pass the Saddle's Reservoir (R234). -/
def guardStep (s : State) (n : Nat) (c : Contribution) : State :=
  let old := dpaRead s c.record 64
  let r := GRec.ofBytes (old.map (fun (b : PByte) => b.1))
  let s := (saddlePass s (guardPath s c) c.record 64 false).2
  let applied (first : Bool) (s : State) : State :=
    (saddlePass (passTile (ctrAdd s (sBase n + 0x50000) 1) c first) (guardPath s c) c.record 64 true).2
  if old.any (fun (b : PByte) => b.2) then guardMismatch s n c
  else if !r.valid || r.item ≠ c.tag then
    applied true (writeGRec (writeTile s c) c { bitmap := 2 ^ c.ci, item := c.tag, n1 := c.n1, op := c.op, valid := true, fmt := c.fmt })
  else if r.n1 ≠ c.n1 || r.op ≠ c.op || r.fmt ≠ c.fmt || r.n1 < c.ci then guardMismatch s n c
  else if r.bitmap / 2 ^ c.ci % 2 = 1 then satAdd s (sBase n + 0x50008) 0 0 32 1
  else applied false (writeGRec (combineTile s c) c { r with bitmap := r.bitmap + 2 ^ c.ci })

/-- The guard of a Saddle applies the injected packet that arrived first on VC2. R23 gives packets of different sources no order: the model's is
that in which they were sent. DESIGN CHOICE: log 72. -/
def execGuardApply (sd : Fin 2) (s : State) : Host.Outcome State Fault Refusal :=
  match takeFirst (fun c => c.sent) (saddle s sd.val).vc2 with
  | none => .next s
  | some (c, rest) => .next (fenceArrivals (guardStep (updSaddle s sd.val (fun d => { d with vc2 := rest })) sd.val c))

end Sys2Proof.Machine
end

