-- ==== Sys2Proof/Machine/Lateral.lean ====
section
/-! DEFINITION. The LAT group: pushes, pops, allocation and freeing of handles (04 R101, 05 R111 to R121, 13 R378), and transfers
to a peer rank (04 R102, 08 R207 to R210, 13 R379). -/

namespace Sys2Proof.Machine

/-! ## Pushes and pops -/

def latH (w : W64) : Nat := fld w 44 4
def latQ (w : W64) : Nat := fld w 40 4
def latPd (w : W64) : Nat := fld w 36 3

/-- A push by a thread that has a token: the handle is Queued and its register goes idle (R378). -/
def pushBy (s : State) (tg thr r q : Nat) (v : BitVec 16) : State :=
  updThread (updTerrace s tg (fun t => pushQ t q v)) tg thr (fun t => t.setH r idleHandle)

/-- A pop by a thread from a queue that holds a handle. -/
def popBy (s : State) (tg thr r q : Nat) : State :=
  match popQ (terrace s tg) q with
  | some (v, t) => updThread (setTerrace s tg t) tg thr (fun t => t.setH r v)
  | none => s

/-- The checks of LAT.PUSH and LAT.PUSH.NB at issue (R378). DEDUCED: log 15. -/
def pushFault (c : Ctx) (s : State) : Option Nat :=
  let t := terrace s c.tg
  if !(handleOk t (c.t.hreg (latH c.w0))) || !(produces t 0 (latQ c.w0)) then some fHANDLE else none

/-- LAT.PUSH and LAT.PUSH.NB (R101): passed over while its crossing has no credit (R104, R116), behind the pushes to the queue that wait already
(R117). -/
def pushBody (nb : Bool) (c : Ctx) (s : State) : Option State :=
  let v := c.t.hreg (latH c.w0)
  let q := latQ c.w0
  let t := terrace s c.tg
  if !(pushCredit t q) then none
  else if lqRoom t q && (pushWaiters t q).isEmpty then
    let s := pushBy s c.tg c.thr (latH c.w0) q v
    some (if nb then onThread c s (fun t => t.setP (latPd c.w0) true) else s)
  else if nb then some (onThread c s (fun t => t.setP (latPd c.w0) false))
  else
    let s := updTerrace s c.tg (fun t => { t with seqno := t.seqno + 1 })
    some (onThread c s (fun th => { th with st := .blocked (.push (latH c.w0) q v t.seqno) }))

/-- The check of LAT.POP and LAT.POP.NB at issue (R378). DEDUCED: log 15. -/
def popFault (c : Ctx) (s : State) : Option Nat := if !(consumes (terrace s c.tg) 0 (latQ c.w0)) then some fHANDLE else none

/-- LAT.POP and LAT.POP.NB (R101). -/
def popBody (nb : Bool) (c : Ctx) (s : State) : Option State :=
  let q := latQ c.w0
  if !(lqOf (terrace s c.tg) q).entries.isEmpty then
    let s := popBy s c.tg c.thr (latH c.w0) q
    some (if nb then onThread c s (fun t => t.setP (latPd c.w0) true) else s)
  else
    let s := boundMiss s c.tg q
    some (onThread c s (fun t =>
      if nb then (t.setH (latH c.w0) idleHandle).setP (latPd c.w0) false
      else { t with st := .blocked (.pop (latH c.w0) q) }))

def execLatPush (i : Issue) (s : State) : Host.Outcome State Fault Refusal :=
  issue { maj := 12, min := 0x00, lo := 39, len := 1, val := 0 } i s (strict [(0, 39)] (checked pushFault (pushBody false)))

def execLatPop (i : Issue) (s : State) : Host.Outcome State Fault Refusal :=
  issue { maj := 12, min := 0x01, lo := 39, len := 1, val := 0 } i s (strict [(0, 39)] (checked popFault (popBody false)))

def execLatPushNb (i : Issue) (s : State) : Host.Outcome State Fault Refusal :=
  issue { maj := 12, min := 0x00, lo := 39, len := 1, val := 1 } i s (strict [(0, 36)] (checked pushFault (pushBody true)))

def execLatPopNb (i : Issue) (s : State) : Host.Outcome State Fault Refusal :=
  issue { maj := 12, min := 0x01, lo := 39, len := 1, val := 1 } i s (strict [(0, 36)] (checked popFault (popBody true)))

/-! ## Allocation -/

/-- The checks of LAT.ALLOC at issue (R378). -/
def allocFault (c : Ctx) (s : State) : Option Nat :=
  let pool := fld c.w0 34 2
  if pool = 3 then some fILLEGAL else if !(poolOf (terrace s c.tg) pool).valid then some fHANDLE else none

/-- LAT.ALLOC: its request needs a credit of the crossing to the Sluice (R105, R118); the thread is Blocked until a contest has answered it
(R120, R378). -/
def allocBody (c : Ctx) (s : State) : Option State :=
  if !(hasCredit (terrace s c.tg) 0 1) then none else
  let n := (terrace s c.tg).seqno
  let s := updTerrace s c.tg (fun t => { t with seqno := n + 1 })
  some (onThread c s (fun t => { t with st := .blocked (.alloc (latH c.w0) (latPd c.w0) (fld c.w0 34 2) n none) }))

def execLatAlloc (i : Issue) (s : State) : Host.Outcome State Fault Refusal :=
  issue { maj := 12, min := 0x02 } i s (strict [(0, 34), (39, 5)] (checked allocFault allocBody))

/-- The check of LAT.FREE at issue (R378). -/
def freeFault (c : Ctx) (s : State) : Option Nat :=
  if !(handleOk (terrace s c.tg) (c.t.hreg (latH c.w0))) then some fHANDLE else none

/-- LAT.FREE (R111, R378). -/
def freeBody (c : Ctx) (s : State) : Option State :=
  let s := onThread c s (fun t => t.setH (latH c.w0) idleHandle)
  some (freeHandle s c.tg c.thr c.pc (c.t.hreg (latH c.w0)))

def execLatFree (i : Issue) (s : State) : Host.Outcome State Fault Refusal :=
  issue { maj := 12, min := 0x03 } i s (strict [(0, 44)] (checked freeFault freeBody))

/-! ## Transfers -/

/-- SPAN_TERRACES of the span a terrace serves. -/
def spanTerraces (s : State) (tg : Nat) : Nat := (terrace s tg).span.map.length

/-- The checks of LAT.SEND at issue (R379). DEDUCED: log 31. -/
def sendFault (c : Ctx) (s : State) : Option Nat :=
  let w := c.w0
  let t := terrace s c.tg
  let v := c.t.hreg (latH w)
  let n := (c.t.sreg (fld w 30 5)).toNat
  if fld w 28 2 = 3 then some fILLEGAL
  else if !(handleOk t v) then some fHANDLE
  else if spanTerraces s c.tg ≤ (c.t.sreg (fld w 39 5)).toNat then some fRANK
  else if n % 64 ≠ 0 || regionSize t v < n then some fDESCRIPTOR
  else none

def execLatSend (i : Issue) (s : State) : Host.Outcome State Fault Refusal :=
  issue { maj := 12, min := 0x04 } i s (strict [(0, 24)] (checked sendFault (fun c s => forward c s 1)))

/-- The checks of LAT.ROT at issue (R207, R379). -/
def rotFault (c : Ctx) (s : State) : Option Nat :=
  let w := c.w0
  let a := (c.t.sreg (fld w 43 5)).toNat
  let n := (c.t.sreg (fld w 29 5)).toNat
  if spanTerraces s c.tg ≤ (c.t.sreg (fld w 38 5)).toNat then some fRANK
  else if a % 64 ≠ 0 || n % 64 ≠ 0 || memSize 1 < a + n then some fDESCRIPTOR
  else none

def execLatRot (i : Issue) (s : State) : Host.Outcome State Fault Refusal :=
  issue { maj := 12, min := 0x05 } i s (strict [(0, 24), (28, 1)] (checked rotFault (fun c s => forward c s 1)))

/-- The Sluice starts a transfer: the source bytes are on their way to the peer. DEDUCED: log 31. -/
def startLat (s : State) (tg : Nat) (c : Cmd) : Bool × State :=
  let w := c.w0
  let rot := wMin w = 5
  let rank := (c.th.sreg (if rot then fld w 38 5 else fld w 39 5)).toNat
  let n := (c.th.sreg (if rot then fld w 29 5 else fld w 30 5)).toNat
  let v := c.th.hreg (latH w)
  let r := if rot then spRead s tg (allotOf s tg) 1 (c.th.sreg (fld w 43 5)).toNat n else readRegion s tg v n
  let tag := match runOfT s tg with
    | some (_, r) => r.tag
    | none => 0
  let x : Xfer := { src := tg, thr := c.thr, pc := c.th.pc.toNat, sent := false, rot, hand := v
                    dst := (terrace s tg).span.map.getD rank 0, tag, dtag := (terrace s tg).span.tag
                    q := if rot then fld w 34 4 else fld w 35 4, pool := if rot then 0 else fld w 28 2
                    ls := fld w 24 4, img := imgOf r.data }
  let s := performed s tg r.accs
  (true, { s with lats := s.lats ++ [x] })

/-- Does a terrace run the item of a transfer under the same span record (R102)? Each terrace counts its own span records, so the
sender's DISPATCH_TAG is compared with the count its record of the running span had. -/
def sameItem (s : State) (tg : Nat) (x : Xfer) : Bool :=
  match runOfT s tg with
  | some (_, r) => r.tag == x.tag && !r.stopped && r.tgs.contains x.src && (terrace s x.src).spans % 65536 == x.dtag && !(r.done.contains tg)
  | none => false

/-- The last source byte of the oldest transfer a terrace is sending has been read: its semaphore is signalled, and the source may
be used again (R208, R379). Its packets are injected once
the Canal takes them (R24, R26). -/
def execLateralSendDone (tg : Fin 64) (s : State) : Host.Outcome State Fault Refusal :=
  let g := tg.val
  match s.lats.findIdx? (fun x => x.src == g && !x.sent) with
  | none => .next s
  | some i =>
    match s.lats[i]? with
    | none => .next s
    | some x =>
      if !(mayInject s (terraceDie g) (terraceDie x.dst) CanalKind.lateral.vc x.flits) then .next s
      else
      let s := { s with lats := s.lats.eraseIdx i ++ [{ x with sent := true }] }
      if sameItem s g x then
        let s := if x.rot then satAdd s (tBase g + 0x1324) 0 0 32 (x.img.bytes.length / 64) else s
        .next (semAdd s g false x.ls 1)
      else .next s

/-- A transfer arrives at its peer: dropped when the peer no longer runs the sender's item, a handle fault when the pool or the
queue does not fit, else the receipt draws a region through port 1 (R102, R207, R379). Packets from one die to another arrive in the order they
were sent (R23); one whose terrace is still at an earlier receipt waits there. -/
def execLateralReceipt (src dst : Fin 64) (s : State) : Host.Outcome State Fault Refusal :=
  let d := dst.val
  let pair (x : Xfer) : Bool := terraceDie x.src == terraceDie src.val && terraceDie x.dst == terraceDie d
  match takeFirst (fun x => x.sent && pair x && (x.dst == d || !(mhas (terrace s x.dst).execs 24))) s.lats with
  | none => .next s
  | some (x, rest) =>
    if x.src ≠ src.val || x.dst ≠ d then .next s
    else
    let s' := fenceArrivals { s with lats := rest }
    if !(sameItem s d x) then .next s'
    else
      let t := terrace s d
      if !(poolOf t x.pool).valid || (poolOf t x.pool).size < x.img.bytes.length || !(produces t 1 x.q) then
        .next (itemFault s' d x.thr x.pc fHANDLE)
      else if mhas t.execs 24 then .next s
      else
        let s' := if x.rot then satAdd s' (tBase d + 0x1328) 0 0 32 (x.img.bytes.length / 64) else s'
        .next (updTerrace s' d (fun t => setExec t 24
          { cmd := { thr := 16, w0 := 0, w1 := 0, th := {} }, outs := [x.img], outQ := x.q, pool := x.pool, ready := true }))

end Sys2Proof.Machine
end

