-- ==== Sys2Proof/Machine/Reach.lean ====
section
/-! DEFINITION. Reaches: cut jobs, placement, takes and steals (07 R176 to R183, 13 R370). -/

namespace Sys2Proof.Machine

/-- The Saddle of a terrace's home reach queue (R34). -/
def homeOfT (tg : Nat) : Nat := saddleOf tg

/-- The terrace of a rank of a run. -/
def rankTg (r : Run) (k : Nat) : Nat := r.tgs.getD k 0

/-- The Saddle whose cutter runs a span's jobs: that of rank 0's home queue (R176). -/
def cutterSaddle (r : Run) : Nat := homeOfT (rankTg r 0)

/-- Are all reach queues of a span empty? -/
def queuesEmpty (s : State) (r : Run) : Bool := r.tgs.all (fun tg => (terrace s tg).reachQ.isEmpty)

/-- Has the cutter of a span finished? Before any job it has (R180). -/
def cutterDone (r : Run) : Bool :=
  match r.cut with
  | none => true
  | some j => j.done

/-- Is a span's job exhausted (R180)? DEDUCED: log 26. -/
def jobExhausted (s : State) (r : Run) : Bool := cutterDone r && queuesEmpty s r

/-- BUDGET and RGRP of a job (R176). -/
def cutBudget (ctl : W64) : Nat := if fld ctl 0 32 = 0 then 4096 else fld ctl 0 32
def cutRgrp (ctl : W64) : Nat := fld ctl 32 16 + 1

/-- Is a descriptor and budget one CFL.RQ.CUT refuses at issue (R176)? -/
def cutBad (x : Desc) (ctl : W64) : Bool :=
  let b := max 1 (layoutEdge' x.layout)
  x.form ≠ 2 || !([2, 3, 4, 5, 6].contains x.layout) || x.space ≠ 0
  || (fld ctl 0 32 ≠ 0 && (fld ctl 0 32 < 1024 || 262144 < fld ctl 0 32)) || cutBudget ctl < b * b
where
  layoutEdge' (l : Nat) : Nat := match l with
    | 2 => 8
    | 3 => 16
    | 4 => 32
    | _ => 0

/-- Start a job of a run. -/
def startCut (s : State) (k tg thr pc : Nat) (d : BitVec 256) (ctl : W64) : State :=
  updRun s k (fun r => { r with
    cut := some { desc := d, budget := cutBudget ctl, rgrp := cutRgrp ctl, begun := false, row := 0, last := 0, seg := 0
                  seq := 0, chain := 0, job := r.jobs % 256, done := false, tg, thr, pc, accs := [] }
    jobs := r.jobs + 1 })

/-- The checks of CFL.RQ.CUT at issue (R176). -/
def cutFault (c : Ctx) (_ : State) : Option Nat :=
  match descOk c.t (fld c.w0 44 4) with
  | none => some fDESCRIPTOR
  | some x => if cutBad x (srcA c) then some fDESCRIPTOR else none

/-- CFL.RQ.CUT: the thread goes on when the previous job is exhausted, and is Blocked until it is. -/
def cutBody (c : Ctx) (s : State) : Option State :=
  let d := c.t.dreg (fld c.w0 44 4)
  match runOfT s c.tg with
  | none => some s
  | some (k, r) =>
    if jobExhausted s r then some (startCut s k c.tg c.thr c.pc d (srcA c))
    else some (onThread c s (fun t => { t with st := .blocked (.cut d (srcA c) c.pc) }))

/-- CFL.RQ.CUT (R176, R370). -/
def execCflRqCut (i : Issue) (s : State) : Host.Outcome State Fault Refusal :=
  issue { maj := 5, min := 0x10 } i s (strict [(0, 38), (43, 1)] (checked cutFault cutBody))

/-- CFL.RQ.TAKE takes a register whose number is a multiple of 4 (R370). -/
def takeFault (c : Ctx) (_ : State) : Option Nat := if fld c.w0 38 5 % 4 ≠ 0 then some fILLEGAL else none

/-- CFL.RQ.TAKE (R370): the thread is Blocked until its home Saddle answers. -/
def execCflRqTake (i : Issue) (s : State) : Host.Outcome State Fault Refusal :=
  issue { maj := 5, min := 0x11 } i s (strict [(0, 38), (43, 2)] (checked takeFault (fun c s =>
    some (onThread c s (fun t => { t with st := .blocked (.take (fld c.w0 38 5) (fld c.w0 45 3)) })))))

/-! ## The cutter -/

/-- Entries of row i of the job's tensor and the first one's index, read by the cutter; a poisoned pointer makes the row empty
(R79). DEDUCED: log 26. -/
def cutRow (s : State) (n al : Nat) (x : Desc) (h : Header) (i : Nat) : Nat × Nat × List Acc :=
  let pw := h.ptrWidth
  let pa := if x.trans then h.tptr else h.ptr
  let p0 := vRead s (.agent n) al (pa + i * pw) pw
  let p1 := vRead s (.agent n) al (pa + (i + 1) * pw) pw
  let num (r : Rd) : Nat := leNat (r.data.map (fun (b : PByte) => b.1))
  let bad := (p0.data ++ p1.data).any (fun (b : PByte) => b.2)
  (if bad || num p1 ≤ num p0 then 0 else num p1 - num p0, num p0, p0.accs ++ p1.accs)

/-- The four words of a reach record (Table 07-9). -/
def reachWords (row rows first count seq chain nz job : Nat) (split cfirst clast : Bool) : List W64 :=
  [BitVec.ofNat 64 (row % 2 ^ 32 + ((rows - 1) % 2 ^ 16 + job % 256 * 2 ^ 16 + split.toNat * 2 ^ 24 + cfirst.toNat * 2 ^ 25
      + clast.toNat * 2 ^ 26) * 2 ^ 32),
   BitVec.ofNat 64 first,
   BitVec.ofNat 64 (count % 2 ^ 32 + seq % 2 ^ 32 * 2 ^ 32),
   BitVec.ofNat 64 (chain % 2 ^ 32 + nz % 2 ^ 32 * 2 ^ 32)]

/-- The rows from r that go into one reach: n so far, their nonzeros so far, the index of their first entry (that of the first row that
has one), and the accesses (R177, Table 07-9). -/
def groupRows (s : State) (n al : Nat) (x : Desc) (h : Header) (bsq budget last : Nat) (fuel r cnt nz first : Nat)
    (accs : List Acc) : Nat × Nat × Nat × List Acc :=
  match fuel with
  | 0 => (cnt, nz, first, accs)
  | fuel + 1 =>
    if last ≤ r then (cnt, nz, first, accs)
    else
      let (e, p, a) := cutRow s n al x h r
      let z := e * bsq
      if budget < z || budget < nz + z then (cnt, nz, first, accs ++ a)
      else groupRows s n al x h bsq budget last fuel (r + 1) (cnt + 1) (nz + z) (if nz = 0 && 0 < z then p else first) (accs ++ a)

/-- The next reach of a job and the job after it. -/
def nextReach (s : State) (n al : Nat) (x : Desc) (h : Header) (j : CutJob) : List W64 × CutJob :=
  let bsq := h.edge * h.edge
  let (e, p0, a0) := cutRow s n al x h j.row
  if j.budget < e * bsq then
    let per := j.budget / bsq
    let cnt := min per (e - j.seg)
    let fin := decide (e ≤ j.seg + cnt)
    (reachWords j.row 1 (p0 + j.seg) cnt j.seq j.chain (cnt * bsq) j.job true (decide (j.seg = 0)) fin,
     { j with seg := if fin then 0 else j.seg + cnt, row := if fin then j.row + 1 else j.row, seq := j.seq + 1
              chain := if fin then j.chain + 1 else j.chain, accs := j.accs ++ a0 })
  else
    let (cnt, nz, first, a) := groupRows s n al x h bsq j.budget j.last j.rgrp j.row 0 0 p0 []
    (reachWords j.row cnt first (nz / bsq) j.seq j.chain nz j.job false true true,
     { j with row := j.row + cnt, seq := j.seq + 1, chain := j.chain + 1, accs := j.accs ++ a0 ++ a })

/-- The job is over: its translation faults are recorded. -/
def endCut (s : State) (k n al : Nat) (j : CutJob) : State :=
  let s := logStream s (some k) al (70 + n) j.accs
  updRun s k (fun r => { r with cut := some { j with done := true, accs := [] } })

/-- The cutter places its next reach once the target queue has room (R176 to R179). -/
def execCutterPlace (slot : Fin 65536) (s : State) : Host.Outcome State Fault Refusal :=
  let k := slot.val
  match mget? s.runs k with
  | none => .next s
  | some r =>
    match r.cut with
    | none => .next s
    | some j =>
      if j.done then .next s
      else
        let n := cutterSaddle r
        let x : Desc := { d := j.desc, aux := 0 }
        let hr := vRead s (.agent n) r.allot x.base 128
        let h := Header.ofBytes (hr.data.map (fun (b : PByte) => b.1))
        if atsMissing hr.accs ≠ [] then .next (atsAsk s (.agent n (some k)) r.allot (atsMissing hr.accs))
        else if hr.data.any (fun (b : PByte) => b.2) || h.breaks x then
          let s := noteAccs s (.agent n) (some k) r.allot hr.accs
          .next (itemFault (logStream s (some k) r.allot (70 + n) hr.accs) j.tg j.thr j.pc fDESCRIPTOR)
        else
          let j := if j.begun then j else
            let (f, c) := rowRange x h
            { j with begun := true, row := f, last := f + c, accs := hr.accs }
          if j.last ≤ j.row then .next (endCut s k n r.allot j)
          else
            let (w, j') := nextReach s n r.allot x h j
            if atsMissing j'.accs ≠ [] then .next (atsAsk s (.agent n (some k)) r.allot (atsMissing j'.accs))
            else
              let tg := rankTg r ((if r.det then j.chain else j.seq) % max 1 r.tgs.length)
              if 256 ≤ (terrace s tg).reachQ.length then .next (satAdd s (sBase n + 0x4008C) 0 0 32 1)
              else
                let s := noteAccs s (.agent n) (some k) r.allot (j'.accs.drop j.accs.length)
                let s := updTerrace s tg (fun t => { t with reachQ := t.reachQ ++ [{ slot := k, w }] })
                let s := ctrAdd s (sBase n + 0x40080) 1
                if j'.last ≤ j'.row then .next (endCut s k n r.allot j')
                else .next (updRun s k (fun r => { r with cut := some j' }))

/-! ## Takes and steals (R180 to R182) -/

/-- The ranks a thief tries: those of its own Saddle, then the others, each ascending from the rank after its own and
wrapping. -/
def stealOrder (r : Run) (rank : Nat) : List Nat :=
  let n := r.tgs.length
  let order := (List.range (n - 1)).map (fun i => (rank + 1 + i) % n)
  let mine := homeOfT (rankTg r rank)
  order.filter (fun k => homeOfT (rankTg r k) = mine) ++ order.filter (fun k => homeOfT (rankTg r k) ≠ mine)

/-- The rank of a terrace in a run. -/
def rankOf (r : Run) (tg : Nat) : Nat := r.tgs.idxOf tg

/-- Write a take's answer into a thread: the record, or the exhaustion code. -/
def answerTake (t : Thread) (sN pd : Nat) (w : Option (List W64)) (code : Nat) : Thread :=
  match w with
  | some l => ((l.zipIdx.foldl (fun t (x, i) => t.setS (sN + i) x) t).setP pd true)
  | none => (t.setS sN (BitVec.ofNat 64 code)).setP pd false

/-- The queues a take of a terrace tries, in order (R181): the home queue, and unless the allotment is deterministic those it steals from, but for the
queues a retirement has closed to thieves. -/
def takeOrder (s : State) (r : Run) (tg : Nat) : List Nat :=
  tg :: (if r.det then [] else
    ((stealOrder r (rankOf r tg)).map (rankTg r)).filter (fun v => !(terrace s v).reachClosed))

/-- The queue a take asks for now: the first that holds a reach and at which this take has not lost. -/
def takeAt (s : State) (r : Run) (tg : Nat) (lost : List Nat) : Option Nat :=
  (takeOrder s r tg).find? (fun v => !(terrace s v).reachQ.isEmpty && !(lost.contains v))

/-- Does this thread's take contend at queue v? -/
def contends (s : State) (r : Run) (v tg thr : Nat) : Bool :=
  match (thread s tg thr).st with
  | .blocked (.take _ _ lost) => takeAt s r tg lost = some v
  | _ => false

/-- The terraces whose takes contend at queue v, by rank. -/
def takers (s : State) (r : Run) (v : Nat) : List Nat :=
  r.tgs.filter (fun tg => (List.range 16).any (contends s r v tg))

/-- The wait limit W of the reach queues of a Saddle (TURN_RQ, R347). -/
def rqW (s : State) (n : Nat) : Nat := fld (rg s (sBase n + 0x80028) 0x40000000#32) 28 4

/-- The terrace that queue v's arbiter grants (R181): its owner, unless a thief's wait counter has reached W; then the thief with the largest count, then
the lowest rank. Thieves below the limit that contend with no owner go by the same order. DESIGN CHOICE: log 26. -/
def takeWinner (s : State) (r : Run) (v : Nat) : Option Nat :=
  let cs := takers s r v
  let count (tg : Nat) : Nat := mget (terrace s v).rqWait tg 0
  let limit := cs.filter (fun tg => tg ≠ v && decide (rqW s (homeOfT v) ≤ count tg))
  if limit.isEmpty && cs.contains v then some v
  else (if limit.isEmpty then cs else limit).foldl (fun (b : Option Nat) tg => match b with
    | some x => if count x < count tg then some tg else b
    | none => some tg) none

/-- The takes of terrace tg lose at queue v: a thief's wait counter counts it, and their scans go on at the next queue. -/
def loseTake (s : State) (r : Run) (v tg : Nat) : State :=
  let s := if tg = v then s else updTerrace s v (fun t => { t with rqWait := mset t.rqWait tg (mget t.rqWait tg 0 + 1) })
  ((List.range 16).filter (contends s r v tg)).foldl (fun s k => updThread s tg k (fun th => match th.st with
    | .blocked (.take sn pd lost) => { th with st := .blocked (.take sn pd (v :: lost)) }
    | _ => th)) s

/-- Remove a reach from queue v for a take of terrace tg: the owner's from the head, a thief's from the tail, which counts as a steal. -/
def removeReach (s : State) (tg v : Nat) : State × Option Reach :=
  let q := (terrace s v).reachQ
  if v = tg then
    (satAdd (updTerrace s v (fun t => { t with reachQ := t.reachQ.drop 1 })) (tBase tg + 0x122C) 0 0 16 1, q.head?)
  else
    let s := updTerrace s v (fun t => { t with reachQ := t.reachQ.dropLast, rqWait := mdel t.rqWait tg })
    (satAdd (satAdd s (sBase (homeOfT v) + 0x40088) 0 0 32 1) (tBase tg + 0x122C) 0 16 16 1, q.getLast?)

/-- Is a take answered that its job is exhausted (R180)? -/
def takeExhausted (s : State) (r : Run) (tg : Nat) : Bool :=
  if r.det then cutterDone r && (terrace s tg).reachQ.isEmpty else jobExhausted s r

/-- Serve a thread's take for one Saddle cycle (R180, R181): the queue it has reached grants one removal. If that is this take's, it is answered with the
record; else this take has lost there. With no queue left, it is answered with its code. -/
def serveTake (s : State) (tg thr sN pd : Nat) (lost : List Nat) : State :=
  let fin (s : State) (w : Option (List W64)) (code : Nat) : State :=
    updThread s tg thr (fun t => { answerTake t sN pd w code with st := .ready })
  match runOfT s tg with
  | none => fin s none 1
  | some (_, r) =>
    match takeAt s r tg lost with
    | none => fin s none (takeExhausted s r tg).toNat
    | some v =>
      if takeWinner s r v = some tg then
        let s := ((takers s r v).filter (fun x => x ≠ tg)).foldl (fun s x => loseTake s r v x) s
        let (s, q) := removeReach s tg v
        fin s (q.map (fun x => x.w)) 0
      else loseTake s r v tg

end Sys2Proof.Machine
end

