-- ==== Sys2Proof/Machine/Reduction.lean ====
section
/-! DEFINITION. The RED group (13 Table 13-16): maximum and minimum with index, top-k selection and its merge, and RED.ST (09 R225 to
R228; 08 R202 to R206). -/

namespace Sys2Proof.Machine

/-! ## Issue -/

def isSpace (x : Desc) : Bool := x.form = 0 && x.space ≠ 0

/-- Formats of router logits (R202). -/
def logitFmt (f : Nat) : Bool := [0x06, 0x07, 0x0C, 0x0D, 0x0E].contains f

/-- The two descriptors of a RED instruction, both legal. -/
def redDescs (c : Ctx) : Option (Desc × Desc) :=
  match descOk c.t (fld c.w0 44 4), descOk c.t (fld c.w0 40 4) with
  | some a, some b => some (a, b)
  | _, _ => none

/-- The checks of a RED instruction at issue, by a test of its two descriptors. -/
def redFault (bad : Ctx → Desc → Desc → Bool) (c : Ctx) (_ : State) : Option Nat :=
  match redDescs c with
  | none => some fDESCRIPTOR
  | some (a, b) => if bad c a b then some fDESCRIPTOR else none

/-- Issue of an instruction that passes a test of its descriptors and goes to an island. -/
def issueRed (isl : Nat) (bad : Ctx → Desc → Desc → Bool) : Ctx → State → Option State :=
  checked (redFault bad) (fun c s => forward c s isl)

def maxiBad (_ : Ctx) (a b : Desc) : Bool :=
  !(isSpace a) || !(logitFmt a.format || a.format = 0x0B || a.format = 0x10) || b.form ≠ 0 || b.format ≠ 0x0B || b.e0 ≠ 8

def execRedMaxi (i : Issue) (s : State) : Host.Outcome State Fault Refusal :=
  issue { maj := 8, min := 0x00 } i s (strict [(0, 35)] (issueRed 4 maxiBad))

def execRedMini (i : Issue) (s : State) : Host.Outcome State Fault Refusal :=
  issue { maj := 8, min := 0x01 } i s (strict [(0, 35)] (issueRed 4 maxiBad))

/-- k of a top-k instruction. -/
def topK (w : W64) : Nat := fld w 32 3 + 1

def topkBad (c : Ctx) (a b : Desc) : Bool :=
  !(isSpace a) || !(logitFmt a.format) || 65536 < a.rowLen || a.rowLen < topK c.w0 || b.form ≠ 0 || b.format ≠ 0x0B || b.e0 ≠ 64

def execRedTopk (i : Issue) (s : State) : Host.Outcome State Fault Refusal :=
  issue { maj := 8, min := 0x02 } i s (strict [(0, 31), (35, 5)] (issueRed 4 topkBad))

/-- The descriptor checks of RED.TOPK.L (R205): its rows are m records of 64 bytes, or E0 = 8 m as Table 13-16 has it, m from 1 to 64. DESIGN CHOICE: log 73. -/
def topkLBad (_ : Ctx) (a b : Desc) : Bool :=
  !(isSpace a) || a.format ≠ 0x0B || a.rowLen % 8 ≠ 0 || (512 < a.rowLen && (a.rowLen % 64 ≠ 0 || 4096 < a.rowLen)) || b.form ≠ 0 || b.format ≠ 0x0B || b.e0 ≠ 64

def execRedTopkL (i : Issue) (s : State) : Host.Outcome State Fault Refusal :=
  issue { maj := 8, min := 0x03 } i s (strict [(0, 31), (35, 5)] (issueRed 4 topkLBad))

/-- The reduction control of a RED.ST. -/
def redCtlOf (c : Ctx) : RedCtl := RedCtl.ofWords (c.t.sreg (fld c.w0 35 5)) (c.t.sreg (fld c.w0 35 5 + 1))

/-- The checks of RED.ST at issue (R225 to R228). -/
def redStFault (c : Ctx) (s : State) : Option Nat :=
  if fld c.w0 35 5 % 2 = 1 then some fILLEGAL else redFault (fun c a b => !(isSpace a) || (redCtlOf c).breaks b) c s

def execRedSt (i : Issue) (s : State) : Host.Outcome State Fault Refusal :=
  issue { maj := 8, min := 0x04 } i s (strict [(0, 35)] (checked redStFault (fun c s => forward c s 5)))

/-! ## Rows of the source -/

/-- The rows of a source as values, TRANS exchanging its first two dimensions plane by plane (R128). -/
def sourceRows (s : State) (tg al : Nat) (x : Desc) : List (List Val) :=
  let vs := (List.range x.memRows).map (fun r => Row.values x.format (readRow s tg al x r).1 x.e0)
  if x.trans then exchange x.e0 x.e1 (x.e2 * x.e3) vs else vs

/-- The 8-byte pieces of the rows of a source of bytes, with their poison, after TRANS. -/
def sourceRecs (s : State) (tg al : Nat) (x : Desc) : List (List (Nat × Bool)) :=
  let rows := (List.range x.memRows).map (fun r => (spRead s tg al x.space (x.rowAddr r) (rowBytes (ebits x.format) x.e0)).data)
  (if x.trans then exchangeBy (0, false) x.e0 x.e1 (x.e2 * x.e3) rows else rows).map (fun bs =>
    (List.range (bs.length / 8)).map (fun k =>
      let p := (bs.drop (8 * k)).take 8
      (leNat (p.map (fun (b : PByte) => b.1)), p.any (fun (b : PByte) => b.2))))

/-- Bytes of records as elements of an INT8 destination. -/
def byteEls (bs : List Byte) (bad : Bool) : List REl := bs.map (fun b => { v := .ofInt b.toInt 0, bad, flt := false })

/-- Rows of bytes laid over every plane of a destination. -/
def storeRecs (s : State) (tg al : Nat) (x : Desc) (rows : List (List REl)) : Put × Nat :=
  let planes := (List.range (x.e2 * x.e3)).map (fun q => ((rows.drop (q * x.e1)).take x.e1, q))
  planes.foldl (fun (st : Put × Nat) (e : List (List REl) × Nat) =>
    let y : Desc := { x with d := setFld x.d 0 52 (x.rowAddr (e.2 * x.e1)) }
    (putGrid st.1 tg al y e.1, st.2 + poisonCount (clipGrid y e.1))) ({ s, accs := [] }, 0)

/-! ## Maximum and minimum with index (R225, R226) -/

/-- The code of VALUE: FP32 of a float, INT32 of an integer. -/
def valueCode (fmt : Nat) (v : Num) : Nat :=
  if isIntFmt fmt || fmt = 0x10 then (encodeElem 0x10 .rne true v).code else (rne32 v).toNat

/-- The winning record of a row, with its poison. DEDUCED: log 23. -/
def rowWinner (op fmt ibase : Nat) (vs : List Val) : Nat × Bool :=
  let kind := if isIntFmt fmt || fmt = 0x10 then 0x10 else 0x0E
  ((vs.zipIdx.map (fun (v, c) => recCode (valueCode fmt v.1) (ibase + c))).foldl
    (fun b r => if recWins op kind b r then b else r) 0xFFFFFFFF, vs.any (fun (v : Val) => v.2))

def startMaxi (s : State) (tg : Nat) (c : Cmd) (op : Nat) : Bool × State :=
  let al := allotOf s tg
  let a := descOf c.th (fld c.w0 44 4)
  let b := descOf c.th (fld c.w0 40 4)
  let ib := fld (c.th.sreg (fld c.w0 35 5)) 0 32
  let ws := (sourceRows s tg al a).map (rowWinner op a.format ib)
  let nan := ws.any (fun w => !(isIntFmt a.format || a.format = 0x10) && (recValue 0x0E w.1).isNan)
  let (p, n) := storeRecs s tg al b (ws.map (fun w => byteEls (leBytes 8 w.1) w.2))
  outStore s tg 21 c b ({ p with inv := p.inv || nan }, false) n

/-! ## Top-k (R202 to R205) -/

/-- A candidate: FP32 value and index. -/
abbrev Cand := W32 × Nat

/-- The order of R202. -/
def candBefore (a b : Cand) : Bool :=
  if valueBefore 1 (f32 a.1) (f32 b.1) then true
  else if valueBefore 1 (f32 b.1) (f32 a.1) then false else decide (a.2 ≤ b.2)

/-- The gates of selected values (R204). -/
def gates (vs : List W32) : List W32 :=
  let isFin (v : W32) : Bool := !((f32 v).isNan || (f32 v).isInf)
  let posInf (v : W32) : Bool := f32 v == .inf false
  let fins := vs.filter isFin
  let m := fins.headD 0
  let neg (w : W32) : W32 := w ^^^ 0x80000000#32
  let e (v : W32) : W32 := exp32 (f32add v (neg m))
  let t := match fins with
    | [] => 0
    | v :: r => r.foldl (fun t v => f32add t (e v)) (e v)
  let n := (vs.filter posInf).length
  vs.map (fun v =>
    if (f32 v).isNan then rne32 .nan
    else if posInf v then f32div (rne32 (.ofInt 1 0)) (rne32 (.ofInt n 0))
    else if !(isFin v) || n ≠ 0 then 0
    else f32div (e v) t)

/-- The 64-byte record of a row (Table 08-3), and whether a NaN was selected. -/
def topkRecord (k : Nat) (gate : Bool) (cs : List Cand) : List Byte × Bool :=
  let sel := (sortBy candBefore cs).take k
  let vals := if gate then gates (sel.map (fun c => c.1)) else sel.map (fun c => rne32 (f32 c.1))
  let slots := (vals.zip sel).map (fun (v, c) => leBytes 4 c.2 ++ leBytes 4 v.toNat)
  (slots.flatten ++ (List.range (8 - slots.length)).flatMap (fun _ => leBytes 4 0xFFFFFFFF ++ leBytes 4 0),
   sel.any (fun c => (f32 c.1).isNan))

def startTopk (s : State) (tg : Nat) (c : Cmd) : Bool × State :=
  let al := allotOf s tg
  let a := descOf c.th (fld c.w0 44 4)
  let b := descOf c.th (fld c.w0 40 4)
  let rows : List (List Cand × Bool) :=
    if wMin c.w0 = 2 then
      (sourceRows s tg al a).map (fun vs => (vs.zipIdx.map (fun (v, e) => (rne32 v.1, e)), vs.any (fun (v : Val) => v.2)))
    else (sourceRecs s tg al a).map (fun rs =>
      ((rs.filter (fun r => r.1 % 2 ^ 32 ≠ 0xFFFFFFFF)).map (fun r => (BitVec.ofNat 32 (r.1 / 2 ^ 32), r.1 % 2 ^ 32)),
       rs.any (fun r => r.2)))
  let recs := rows.map (fun r => (topkRecord (topK c.w0) (bit c.w0 31) r.1, r.2))
  let (p, n) := storeRecs s tg al b (recs.map (fun r => byteEls r.1.1 r.2))
  outStore s tg 21 c b ({ p with inv := p.inv || recs.any (fun r => r.1.2) }, false) n

/-- Start the command at the head of the Epilogue's queue. -/
def startEpi (s : State) (tg : Nat) (c : Cmd) : Bool × State :=
  if mhas (terrace s tg).execs 21 then (false, s)
  else if wMaj c.w0 = 7 then startDrain s tg c
  else match wMin c.w0 with
    | 0 => startMaxi s tg c 1
    | 1 => startMaxi s tg c 2
    | _ => startTopk s tg c

/-! ## RED.ST (R227, R228) -/

/-- Start a RED.ST in the Outflow: its source converts to FMT, or is taken as index records. -/
def startOut (s : State) (tg : Nat) (c : Cmd) : Bool × State :=
  if mhas (terrace s tg).execs 22 then (false, s)
  else
    let al := allotOf s tg
    let a := descOf c.th (fld c.w0 44 4)
    let b := descOf c.th (fld c.w0 40 4)
    let k := RedCtl.ofWords (c.th.sreg (fld c.w0 35 5)) (c.th.sreg (fld c.w0 35 5 + 1))
    let place (q : Nat) (d : Desc) : Desc := { d with d := setFld d.d 0 52 (d.rowAddr (q * d.e1)) }
    let (es, o, v) :=
      if k.op = 0 then
        let rows := (sourceRows s tg al a).map (fun r => r.map (fun (e : Val) => ({ v := e.1, bad := e.2, flt := false } : REl)))
        let n := if a.trans then a.e0 else a.e1
        let parts := (List.range (min (a.e2 * a.e3) (b.e2 * b.e3))).map (fun q =>
          targetElems (place q b) k (q * b.e1 * b.e0) ((rows.drop (q * n)).take n))
        (parts.flatMap (fun p => p.1), parts.any (fun p => p.2.1), parts.any (fun p => p.2.2))
      else
        let rows := sourceRecs s tg al a
        let parts := (List.range (min (a.e2 * a.e3) (b.e2 * b.e3))).flatMap (fun q =>
          let pl := (rows.drop (q * a.e1)).take a.e1
          let pl := if a.trans != b.trans then (List.range ((pl.headD []).length)).map (fun j => pl.map (fun r => r.getD j (0, false)))
            else pl
          ((pl.take b.e1).zipIdx).flatMap (fun (r, i) => (r.take b.e0).zipIdx.map (fun (e, j) =>
            (b.rowAddr (q * b.e1 + i) + 8 * j, e.1, e.2))))
        (parts, false, false)
    let s := notePoison (sendTiles s tg c b k es) tg (es.filter (fun e => e.2.2)).length
    (true, passOwed (updTerrace (flagT s tg o v) tg (fun t => setExec t 22 { cmd := c, ready := true, owed := tileOwed s tg b k es })) tg 22)

end Sys2Proof.Machine
end

