-- ==== Sys2Proof/Machine/Refill.lean ====
section
/-! DEFINITION. The refill of the Weir's buckets every 64 ns, and the requests that proceed then (12 R333 to R338). -/

namespace Sys2Proof.Machine

/-- A request that waited at its Saddle proceeds, or waits on. -/
def serveWait (s : State) (x : SadWait) : State :=
  match x with
  | .read r e => if requestWaits s r r.len false then holdRequest s r.addr.toNat x else serveRead s r e
  | .write r bytes bad => if requestWaits s r bytes.length true then holdRequest s r.addr.toNat x else serveWrite s r bytes bad
  | .peer owner p => takePeer s owner p

/-- The requests that wait at the Saddles are tried again, each Saddle's in order of arrival. -/
def serveWaits (s : State) : State :=
  let l := (List.range 2).flatMap (fun n => (saddle s n).waits)
  if l.isEmpty then s
  else l.foldl serveWait ((List.range 2).foldl (fun s n => updSaddle s n (fun d => { d with waits := [] })) s)

/-- Every 64 ns: re-divisions that are due, then every bucket's refill, and what waited proceeds. DESIGN CHOICE: log 71. -/
def execWeirRefill (s : State) : Host.Outcome State Fault Refusal :=
  let s := (countWaits s).redivide.foldl redivideOne (countWaits s)
  let s := (List.range 64).foldl (fun s tg =>
    let w := rg s (tBase tg + 0x1700) weirReset
    updTerrace s tg (fun t => { t with tokens := fill t.tokens (wRate w) (wDepth w) })) { s with redivide := [] }
  let s := (distinct (s.runs.map (fun e => e.2.allot))).foldl refillShares s
  let s := (List.range 2).foldl (fun s n =>
    updSaddle s n (fun d => { d with ptok := (List.range 4).foldl (fun m p =>
      let w := rg s (sBase n + 0x70000 + 8 * p) weirReset
      mset m p (fill (mget m p 0) (wRate w) (wDepth w))) d.ptok })) s
  let refilled (r : Rsv) : Rsv :=
    { r with tok := (List.range 6).foldl (fun m i => mset m i (fill (mget m i 0) (r.amount i * 64 : Nat) 16384)) r.tok }
  .next (serveWaits (admitWaiting { s with rsvs := s.rsvs.map refilled }))

end Sys2Proof.Machine
end

