-- ==== Sys2Proof/Machine/Sideband.lean ====
section
/-! DEFINITION. The sideband connector and the test access port (11 R312, R313, R316, 18 R504, 20 R535 to R542). -/

namespace Sys2Proof.Machine

/-! ## Pins (Table 20-4) -/

/-- READY is high in Ready and Draining. -/
def readyPin (s : State) : Bool := serving s

/-- FAULT_N is low in Faulted. -/
def faultPin (s : State) : Bool := s.mode != .faulted

/-- THERMTRIP_N is low from a Spillway trip to the next power-on. -/
def thermtripPin (s : State) : Bool := !s.tripped

/-- SMB_ALERT_N is low while an event is queued and unread. -/
def alertPin (s : State) : Bool := s.evq.isEmpty

/-- XPERSTp_N is low while the port's expander is held in reset. -/
def xperstPin (s : State) (p : Nat) : Bool := !(s.xperst.contains p)

/-- The SMBus address (R539). -/
def smbusAddr : Nat := 0x58 + Config.maddr.toNat

/-! ## Expanders (R538) -/

/-- Is a Headwork powered? Each drives the reference clocks of its far ports (R535). -/
def hdPowered (s : State) (n : Nat) : Bool :=
  match s.mode with
  | .off => false
  | .standby => false
  | .faulted => s.freason ≠ 3 && hdAlive s n
  | _ => hdAlive s n

/-- Is the reference clock of a far port driven (R535)? -/
def farClock (s : State) (p : Nat) : Bool := hdPowered s (p / 4)

/-- Presence high for 10 ms: in Ready or Draining the port fails and its expander is held in reset; in every other state the slot is empty at the
next boot. -/
def execXprsntRemove (port : Fin 8) (s : State) : Host.Outcome State Fault Refusal :=
  let p := port.val
  let s : State := { s with farDevs := mdel s.farDevs p }
  if !(serving s) || !(hdAlive s (p / 4)) then .next s
  else
    let s := failFar s p false
    .next { s with xperst := setIns s.xperst p }

/-- Presence low for 100 ms: in Ready or Draining, with the port's reference clock driven (R535), the reset ends, the link trains and the device
is enumerated. A port with a mirrored range is resilvered from a partner that serves; one whose device breaks R312 is Absent. What the new expander
holds reads as memory that nothing has written (log 8). In every other state the next boot enumerates the device. DEDUCED: log 65. -/
def execXprsntInsert (port : Fin 8) (d : Expander) (s : State) : Host.Outcome State Fault Refusal :=
  let p := port.val
  let base := farBase + p * 0x20000000000
  let s : State := { s with farDevs := mset s.farDevs p d, far := s.far.scrub base (base + 0x20000000000) }
  if !(serving s) || !(farClock s p) then .next s
  else
    let s : State := { s with xperst := setDel s.xperst p }
    let f := farFound d
    let partner := (farPort s ((p + 4) % 8)).state
    let mir := bit (mget s.mir (p % 4) 0) 31 && (partner = 2 || partner = 3)
    let st := if f.state ≠ 0 && mir then 5 else f.state
    .next (noteFigures s (setFarState { s with farPorts := mset s.farPorts p { f with state := (farPort s p).state } } p st) 1)

/-! ## Test access port (R541, R542) -/

def tapOf (s : State) (hd : Nat) : Tap := mget s.taps hd {}
def updTap (s : State) (hd : Nat) (f : Tap → Tap) : State := { s with taps := mupd s.taps hd {} f }

/-- Select an instruction; EXTEST and the IEEE 1687 network act as BYPASS outside Maintenance. No instruction is accepted in Off. -/
def tapSelect (s : State) (hd ir : Nat) (f : Tap → Tap) : State :=
  if s.mode = .off then s
  else if 3 ≤ ir && s.mode ≠ .maintenance then updTap s hd (fun t => { t with ir := 1 })
  else updTap s hd (fun t => { f t with ir })

/-- IDCODE of version 1, part 0x1620, manufacturer 0x4E5. -/
def execTapIdcode (hd : Fin 2) (s : State) : Host.Outcome State Fault Refusal :=
  if s.mode = .off then .next s else .next (emit (tapSelect s hd.val 0 id) (.tap hd.val 0x116209CB))

def execTapBypass (hd : Fin 2) (s : State) : Host.Outcome State Fault Refusal := .next (tapSelect s hd.val 1 id)

/-- SAMPLE/PRELOAD loads the boundary register; the values sampled at the pins are not commands of this table (log 5). -/
def execTapSamplePreload (hd : Fin 2) (v : Nat) (s : State) : Host.Outcome State Fault Refusal :=
  .next (tapSelect s hd.val 2 (fun t => { t with boundary := v }))

/-- EXTEST drives the sideband outputs from the boundary register. -/
def execTapExtest (hd : Fin 2) (s : State) : Host.Outcome State Fault Refusal := .next (tapSelect s hd.val 3 id)

def execTapIeee1687Access (hd : Fin 2) (v : Nat) (s : State) : Host.Outcome State Fault Refusal :=
  .next (tapSelect s hd.val 4 (fun t => { t with net := v }))

/-- TRST_N: every die's port in Test-Logic-Reset, with IDCODE loaded. -/
def execTapReset (_ : Fin 2) (s : State) : Host.Outcome State Fault Refusal := .next { s with taps := [] }

end Sys2Proof.Machine
end

