-- ==== Sys2Proof/Machine/System.lean ====
section
/-! DEFINITION. The SYS group (13 Table 13-21, R380; 04 R87, R98; 11 R285). -/

namespace Sys2Proof.Machine

/-- The home Saddle of a terrace: SD0 for ridges in columns 0 and 1 (R34). -/
def homeOf (tg : Nat) : Nat := if tg / 4 % 4 < 2 then 0 else 1

/-- The field of the span record a selector names (Table 04-3); 0 outside the table. -/
def spanField (t : Terrace) (tg sel : Nat) : Nat :=
  match sel with
  | 0 => t.span.rank
  | 1 => t.span.map.length
  | 2 => t.span.rows
  | 3 => t.span.cols
  | 4 => t.span.mrank
  | 5 => t.span.modules
  | 6 => t.span.mid
  | 7 => homeOf tg
  | 8 => t.span.det.toNat
  | 9 => t.span.tag
  | _ => 0

def execSysSpan (i : Issue) (s : State) : Host.Outcome State Fault Refusal :=
  issue { maj := 13, min := 0x00 } i s (strict [(8, 35)] (fun c s =>
    let v := spanField (terrace s c.tg) c.tg (fld c.w0 0 8)
    some (onThread c s (fun t => t.setS (fld c.w0 43 5) (BitVec.ofNat 64 v)))))

/-- The hit bits of the item's claims (R285). -/
def execSysRes (i : Issue) (s : State) : Host.Outcome State Fault Refusal :=
  issue { maj := 13, min := 0x02 } i s (strict [(0, 43)] (fun c s =>
    let v := (terrace s c.tg).resHits
    some (onThread c s (fun t => t.setS (fld c.w0 43 5) (BitVec.ofNat 64 v.toNat)))))

/-- The Intake cycles since the item's first issue on its terrace (R380): each issue takes a cycle, so two reads never agree; how many more have passed
depends on the clock, the operating point and contention, and is a free value (log 2). DESIGN CHOICE: log 71. -/
def execSysCycle (i : Issue) (s : State) : Host.Outcome State Fault Refusal :=
  issue { maj := 13, min := 0x03 } i s (strict [(0, 43)] (fun c s =>
    let (v, s) := fresh s
    let s := updTerrace s c.tg (fun t => { t with cycles := t.cycles + v.toNat % 2 ^ 32 })
    some (onThread c s (fun t => t.setS (fld c.w0 43 5) (BitVec.ofNat 64 (terrace s c.tg).cycles)))))

/-- Has every access that a thread and the streams it opened issued reached the scope of a fence (R98, Table 04-11)? The
accesses of a forwarded instruction are made while its unit performs it, so the unit has to have nothing left but the delivery of its
regions; a lateral transfer has left with its source, a contribution is on VC2 until the guard applies it, and a write or a contribution to a
peer is under way until it is acknowledged. DEDUCED: log 30. -/
def quiet (s : State) (tg thr scope : Nat) : Bool :=
  let t := terrace s tg
  t.cmdq.all (fun e => e.2.all (fun c => c.thr ≠ thr)) &&
  t.execs.all (fun e => e.2.cmd.thr ≠ thr || (e.2.ready && e.2.owed.isEmpty)) &&
  s.lanes.all (fun e => e.2.ctxs.all (fun c => c.tg ≠ tg || c.cmd.thr ≠ thr)) &&
  t.stores.all (fun w => w.thr ≠ some thr) &&
  s.lats.all (fun x => x.src ≠ tg || x.thr ≠ thr || x.sent) &&
  (scope = 0 || s.saddles.all (fun e => e.2.vc2.all (fun c => c.sender ≠ some (tg, thr)))) &&
  (scope ≠ 2 || (s.skvReqs.all (fun q => q.tg ≠ some tg || q.thr ≠ some thr) &&
    s.e2e.all (fun e => e.2.held.all (fun h => h.pkt.ptype ≠ 6 || !(sentBy h.origin))) &&
    s.skvWait.all (fun w => w.2.ptype ≠ 6 || !(sentBy w.1))))
where
  /-- Did the thread send a packet? -/
  sentBy (o : Option Origin) : Bool := o.any (fun o => o.tg == some tg && o.thr == some thr)

/-- A fence's scope is 0, 1 or 2. -/
def fenceFault (c : Ctx) (_ : State) : Option Nat := if fld c.w0 0 2 = 3 then some fILLEGAL else none

/-- The terraces of the item that a terrace runs. -/
def itemTerraces (s : State) (tg : Nat) : List Nat :=
  match runOfT s tg with
  | some (_, r) => setIns r.tgs tg
  | none => [tg]

/-- Send the partial packets of every terrace of an item (R132). -/
def sendPartials (s : State) (tg : Nat) : State :=
  (itemTerraces s tg).foldl (fun s g => updTerrace s g (fun t => { t with partialPk := [] })) s

/-- A fence sends the item's partial packets (R132), and Blocks the thread until its accesses have arrived. DEDUCED: log 30. -/
def fenceBody (c : Ctx) (s : State) : Option State :=
  let scope := fld c.w0 0 2
  let s := sendPartials s c.tg
  if quiet s c.tg c.thr scope then some s
  else some (onThread c s (fun t => { t with st := .blocked (.fence scope) }))

def execSysFenceT (i : Issue) (s : State) : Host.Outcome State Fault Refusal :=
  issue (fenceRow i.w0 0) i s (strict [(2, 46)] (checked fenceFault fenceBody))

def execSysFenceS (i : Issue) (s : State) : Host.Outcome State Fault Refusal :=
  issue (fenceRow i.w0 1) i s (strict [(2, 46)] (checked fenceFault fenceBody))

def execSysFenceH (i : Issue) (s : State) : Host.Outcome State Fault Refusal :=
  issue (fenceRow i.w0 2) i s (strict [(2, 46)] (checked fenceFault fenceBody))

end Sys2Proof.Machine
end

