-- ==== Sys2Proof/Machine/Stage.lean ====
section
/-! DEFINITION. The events of a terrace: a stage starts and ends an instruction, a thread's wait ends, pools grant and take back
handles, and the coalescer sends a partial packet (04 R82, 05 R104, R110, R118 to R121, R132, 07 R161). -/

namespace Sys2Proof.Machine

/-! ## Queues that move -/

/-- One unit of a terrace takes what its queues hold; the receipt of a transfer ends when it has pushed its region. -/
def feedUnit (s : State) (tg u : Nat) : State :=
  if u < 16 then
    if terraceFenced s tg then s
    else match execOf (terrace s tg) u with
    | some e => tagThread (feedStore s tg u) tg e.cmd.thr
    | none => s
  else if u < 20 then feedLane s tg u
  else if u = 24 then
    match execOf (terrace s tg) u with
    | some e => if e.finished then updTerrace s tg (fun t => delExec t u) else s
    | none => s
  else s

def pumpOnce (s : State) (tg : Nat) : State :=
  ((terrace s tg).execs.map (fun e => e.1)).foldl (fun s u => feedUnit s tg u) (retryPushes s tg)

/-- Let the units of a terrace push what waits for room and take what their queues hold, until nothing more can move. DEDUCED: log 16. -/
def pump (s : State) (tg : Nat) : State :=
  loop (2 + ((terrace s tg).lqs.map (fun e => e.2.entries.length)).sum) (fun _ s => pumpOnce s tg) (updTerrace s tg returnTokens)

/-! ## Start and end of a stage instruction -/

/-- Start a command on an island (R104): whether it left its command queue. -/
def startOn (isl : Nat) (s : State) (tg : Nat) (c : Cmd) : Bool × State :=
  match isl with
  | 1 => if wMaj c.w0 = 4 then startStr s tg c else startLat s tg c
  | 2 => startLane s tg c
  | 3 => startMma s tg c
  | 4 => startEpi s tg c
  | 5 => startOut s tg c
  | 6 => startHgp s tg c
  | _ => (true, s)

/-- The queues on which a command waits at the head of its command queue. -/
def waitsOn (t : Terrace) (isl : Nat) (c : Cmd) : List Nat :=
  match isl with
  | 1 => if wMaj c.w0 == 0x04 && wMin c.w0 == 0x01 then shortQueues t [fld c.w0 40 4] else []
  | 2 => shortQueues t ((List.range (laneStreams c.w0)).map (laneQueue c.w0))
  | 3 => mmaWaitsOn t c
  | 6 => if wMin c.w0 = 2 then shortQueues t [fld c.w0 30 4] else []
  | _ => []

/-- A command that waits at the head of its command queue records its bound misses, once (R96, R123). -/
def noteMiss (s : State) (tg isl : Nat) (c : Cmd) : State :=
  let qs := (waitsOn (terrace s tg) isl c).filter (boundOpen s tg)
  if c.missed || qs.isEmpty then s
  else
    let s := qs.foldl (fun s q => boundMiss s tg q) s
    updTerrace s tg (fun t => setCmds t isl (({ c with missed := true } : Cmd) :: (cmdsOf t isl).drop 1))

/-- Count a freeze cycle (R122, R123): the MMA at the head of the Array's queue wants a region that is not there, or a completed tile's drain finds
the Epilogue's input full. A command that finds it so is one such cycle. DESIGN CHOICE: log 71. -/
def noteFreeze (s : State) (tg isl : Nat) (c : Cmd) : State :=
  let t := terrace s tg
  let feeder := isl = 3 && wMin c.w0 = 0 && !(mhas t.execs 20) && (drainBlocked t || !(waitsOn t 3 c).isEmpty)
  if feeder || (isl = 4 && drainBlocked t) then ctrAdd s (tBase tg + 0x1080) 1 else s

/-- The uncorrectable sectors of a terrace's stores in the last second, with the one found now (R426). -/
def uncNow (s : State) (tg key : Nat) : Map Nat :=
  mset ((terrace s tg).uncAt.filter (fun e => s.clockNs < e.2 + 1000000000)) key s.clockNs

/-- The words of a terrace's stores that fail their check when they are read (R281): a single-bit error is corrected and counted, and an
uncorrectable word poisons its sector; more than 16 such sectors within 1 s ask for the terrace's retirement (R426).
DESIGN CHOICE: log 68. -/
def bankErr (s : State) (tg : Nat) (e : BankErr) : State :=
  let space := e.space.val + 1
  if memSize space ≤ e.addr then s
  else if e.corr then satAdd s (tBase tg + 0x1684) 0 16 16 1
  else
    let m := memOf (terrace s tg) space
    let s := satAdd s (tBase tg + 0x1684) 0 0 16 1
    let unc := uncNow s tg (space * 2 ^ 20 + e.addr / 32)
    let s := updTerrace s tg (fun t => { setMem t space { m with poison := sectorSet m.poison (e.addr / 32) true } with uncAt := unc })
    if 16 < unc.length then askRetire s 2 [tg] else s

/-- Does a route fence hold an island back: the lanes and the Array reach nothing outside their terrace (R26)? -/
def islandFenced (s : State) (tg isl : Nat) : Bool := terraceFenced s tg && isl ≠ 2 && isl ≠ 3

/-- An island takes the head of its command queue and starts it, when what it needs is there (R104, R161); while a push of the island waits for a
token it starts none (R117). -/
def execIslandInstrStart (tg : Fin 64) (start : IslandStart) (s : State) : Host.Outcome State Fault Refusal :=
  let g := tg.val
  let s := start.errs.foldl (fun s e => bankErr s g e) s
  let n := islCode start.isl
  match cmdsOf (terrace s g) n with
  | [] => .next (pump s g)
  | c :: _ =>
    let r := startOn n s g c
    let r := (r.1, tagThread r.2 g c.thr)
    if pushStalled (terrace s g) n || islandFenced s g n then .next (pump s g)
    else if r.1 then
      .next (pump (updTerrace r.2 g (fun t => setCmds t n ((cmdsOf t n).filter (fun x => x.seq ≠ c.seq)))) g)
    else .next (noteMiss (noteFreeze (pump r.2 g) g n c) g n c)

/-- What the completed-instruction counters record (Tables 08-6, 09-9), with the Headgate's observation (R200). -/
def countEnd (s : State) (tg u : Nat) (c : Cmd) : State :=
  if u = 21 then
    let s := observeEnd s tg c
    if wMaj c.w0 = 7 then satAdd s (tBase tg + 0x1400) 0 0 16 1 else s
  else if u = 23 && wMin c.w0 = 0 then satAdd s (tBase tg + 0x1300) 0 0 16 1
  else s

/-- A lane or an island has pushed its last output: it records its stream's translation faults, frees the handles the instruction
releases, and is free for the next instruction (R104, R111, R161). -/
def execStageInstructionEnd (tg : Fin 64) (unit : Fin 8) (s : State) : Host.Outcome State Fault Refusal :=
  let g := tg.val
  let u := 16 + unit.val
  match execOf (terrace s g) u with
  | none => .next s
  | some e =>
    if !e.finished then .next s
    else
      let s := countEnd s g u e.cmd
      let s := updTerrace s g (fun t => { delExec t u with
        pins := mdel t.pins u, partialPk := if u = 21 || u = 22 then mdel t.partialPk (u - 5) else t.partialPk, replaying := if u = 20 then [] else t.replaying })
      let s := logUnit s g e.accs
      .next (pump (freeHandles s g e.cmd.thr e.cmd.th.pc.toNat e.held) g)

/-! ## Threads -/

/-- The thread goes on. -/
def goOn (s : State) (tg thr : Nat) (f : Thread → Thread) : State := updThread s tg thr (fun t => { f t with st := .ready })

/-- A Blocked load is tried again (R353): it asks for what is missing then. -/
def retryLoad (s : State) (tg thr : Nat) (w0 : W64) (pc : Nat) : State :=
  let c : Ctx := { tg, thr, pc, t := thread s tg thr, w0, w1 := 0 }
  ((if wMaj w0 = 2 then sclLdBody c s else dscLdBody c s).getD s)

/-- End the wait of a Blocked thread when its condition holds, with the effect of the instruction that waited (Table 04-2). -/
def unblock (s : State) (tg thr : Nat) (w : Wait) : State :=
  match w with
  | .sem span i target => if reached (semGet s tg span i) target then goOn s tg thr id else s
  | .pop h q =>
    if (lqOf (terrace s tg) q).entries.isEmpty then s else pump (goOn (popBy s tg thr h q) tg thr id) tg
  | .push h q v n =>
    let t := terrace s tg
    if lqRoom t q && pushCredit t q && (pushWaiters t q).all (n ≤ ·) then pump (goOn (pushBy s tg thr h q v) tg thr id) tg else s
  | .fence scope => if quiet s tg thr scope then goOn s tg thr id else s
  | .alloc h pd _ _ got =>
    match got with
    | some v => goOn s tg thr (fun t => (t.setH h v).setP pd (v != idleHandle))
    | none => s
  | .cut d ctl pc =>
    match runOfT s tg with
    | some (k, r) => if jobExhausted s r then goOn (startCut s k tg thr pc d ctl) tg thr id else s
    | none => s
  | .take sn pd lost => serveTake s tg thr sn pd lost
  | .cis sd pd a =>
    match a with
    | some v => goOn s tg thr (fun t => (t.setS sd v).setP pd (decide (fld v 0 8 ≤ 1)))
    | none => s
  | .audit sd a =>
    match a with
    | some (x, y) => goOn s tg thr (fun t => (t.setS sd x).setS (sd + 1) y)
    | none => s
  | .load w0 pc => retryLoad s tg thr w0 pc

def execThreadUnblock (tg : Fin 64) (thr : Fin 16) (s : State) : Host.Outcome State Fault Refusal :=
  match (thread s tg.val thr.val).st with
  | .blocked w => .next (unblock s tg.val thr.val w)
  | _ => .next s

/-! ## Handles -/

/-- The wait counters after a contest (R119). -/
def contestWaits (waits : Map Nat) (winners ports : List Nat) : Map Nat :=
  ports.foldl (fun m p => if winners.contains p then mdel m p else mset m p (mget m p 0 + 1)) waits

/-- Give a winner its handle: the Intake's goes to the thread that has waited longest. -/
def grant (s : State) (tg pool port : Nat) (h : BitVec 16) : State :=
  let s := updTerrace s tg (fun t => setHandle t h (some .held))
  if port = 23 then
    match allocWaiters (terrace s tg) pool with
    | (_, thr) :: _ => updTerrace s tg (fun t => answerAlloc t thr h)
    | [] => s
  else deliver s tg (portUnit port) h

/-- One contest of a pool (R118 to R120): up to four Free handles of lowest index go to the winners, and every other requester
receives the idle handle. -/
def contest (s : State) (tg pool : Nat) : State :=
  let t := terrace s tg
  let ports := contestPorts t pool
  if ports.isEmpty then s
  else
    let p := poolOf t pool
    let g := min 4 p.free
    let winners := contestWinners p.waits (poolW s tg pool) g ports
    let idx := lowestFree p winners.length
    let requests := (ports.filter (fun x => x ≠ 23)).length + (allocWaiters t pool).length
    let s := setTerrace s tg (setPool t pool { p with
      waits := if g = 0 then p.waits else contestWaits p.waits winners ports
      minFree := min p.minFree (p.free - winners.length)
      idleGrants := min 0xFFFFFFFF (p.idleGrants + (requests - winners.length)) })
    let s := (winners.zip idx).foldl (fun s (e : Nat × Nat) => grant s tg pool e.1 (mkHandle pool e.2)) s
    updTerrace s tg (fun t => (allocWaiters t pool).foldl (fun t e => answerAlloc t e.2 idleHandle) t)

def execHandleContest (tg : Fin 64) (pool : Fin 3) (s : State) : Host.Outcome State Fault Refusal :=
  .next (pump (contest (retryPushes s tg.val) tg.val pool.val) tg.val)

/-- A Returning handle reaches its pool and is Free (Table 05-4). -/
def execHandleReturn (tg : Fin 64) (pool : Fin 3) (index : Nat) (s : State) : Host.Outcome State Fault Refusal :=
  let t := terrace s tg.val
  match mget? (poolOf t pool.val).used index with
  | some .returning => .next (setTerrace s tg.val (setPool t pool.val
      { poolOf t pool.val with used := mdel (poolOf t pool.val).used index }))
  | _ => .next s

/-! ## Coalescing -/

/-- Eight cycles without an adjacent request send the partial packet of a stream context, or of a stream through the Outflow (R132). -/
def execCoalesceTimeout (tg : Fin 64) (ctx : Fin 18) (s : State) : Host.Outcome State Fault Refusal :=
  .next (updTerrace s tg.val (fun t => { t with partialPk := mdel t.partialPk ctx.val }))

end Sys2Proof.Machine
end

