-- ==== Sys2Proof/Machine/Dispatch.lean ====
section
/-! DEFINITION. What each command does to the block, by its row. -/

namespace Sys2Proof.Machine

def exec (i : Instr) (s : State) : Host.Outcome State Fault Refusal :=
  match i with
  | .ctlNop x => Sys2Proof.Machine.execCtlNop x s
  | .ctlEnd x => Sys2Proof.Machine.execCtlEnd x s
  | .ctlJmp x => Sys2Proof.Machine.execCtlJmp x s
  | .ctlJal x => Sys2Proof.Machine.execCtlJal x s
  | .ctlJr x => Sys2Proof.Machine.execCtlJr x s
  | .ctlSig x => Sys2Proof.Machine.execCtlSig x s
  | .ctlWait x => Sys2Proof.Machine.execCtlWait x s
  | .sclAdd x => Sys2Proof.Machine.execSclAdd x s
  | .sclSub x => Sys2Proof.Machine.execSclSub x s
  | .sclMul x => Sys2Proof.Machine.execSclMul x s
  | .sclAnd x => Sys2Proof.Machine.execSclAnd x s
  | .sclOr x => Sys2Proof.Machine.execSclOr x s
  | .sclXor x => Sys2Proof.Machine.execSclXor x s
  | .sclShl x => Sys2Proof.Machine.execSclShl x s
  | .sclShr x => Sys2Proof.Machine.execSclShr x s
  | .sclSar x => Sys2Proof.Machine.execSclSar x s
  | .sclMin x => Sys2Proof.Machine.execSclMin x s
  | .sclMax x => Sys2Proof.Machine.execSclMax x s
  | .sclMinu x => Sys2Proof.Machine.execSclMinu x s
  | .sclMaxu x => Sys2Proof.Machine.execSclMaxu x s
  | .sclDivu x => Sys2Proof.Machine.execSclDivu x s
  | .sclRemu x => Sys2Proof.Machine.execSclRemu x s
  | .sclMovi x => Sys2Proof.Machine.execSclMovi x s
  | .sclPlog x => Sys2Proof.Machine.execSclPlog x s
  | .sclSel x => Sys2Proof.Machine.execSclSel x s
  | .sclCmpEq x => Sys2Proof.Machine.execSclCmpEq x s
  | .sclCmpNe x => Sys2Proof.Machine.execSclCmpNe x s
  | .sclCmpLt x => Sys2Proof.Machine.execSclCmpLt x s
  | .sclCmpGe x => Sys2Proof.Machine.execSclCmpGe x s
  | .sclCmpLtu x => Sys2Proof.Machine.execSclCmpLtu x s
  | .sclCmpGeu x => Sys2Proof.Machine.execSclCmpGeu x s
  | .sclLd x => Sys2Proof.Machine.execSclLd x s
  | .sclSt x => Sys2Proof.Machine.execSclSt x s
  | .dscLd x => Sys2Proof.Machine.execDscLd x s
  | .dscSt x => Sys2Proof.Machine.execDscSt x s
  | .dscMov x => Sys2Proof.Machine.execDscMov x s
  | .dscZero x => Sys2Proof.Machine.execDscZero x s
  | .dscGetb x => Sys2Proof.Machine.execDscGetb x s
  | .dscSetb x => Sys2Proof.Machine.execDscSetb x s
  | .dscAddb x => Sys2Proof.Machine.execDscAddb x s
  | .strLd x => Sys2Proof.Machine.execStrLd x s
  | .strLdGate x => Sys2Proof.Machine.execStrLdGate x s
  | .strLdReach x => Sys2Proof.Machine.execStrLdReach x s
  | .strLdOne x => Sys2Proof.Machine.execStrLdOne x s
  | .strSt x => Sys2Proof.Machine.execStrSt x s
  | .strCpy x => Sys2Proof.Machine.execStrCpy x s
  | .strSump x => Sys2Proof.Machine.execStrSump x s
  | .cflScan x => Sys2Proof.Machine.execCflScan x s
  | .cflIsectK2 x => Sys2Proof.Machine.execCflIsectK2 x s
  | .cflUnionK2 x => Sys2Proof.Machine.execCflUnionK2 x s
  | .cflMergeKk x => Sys2Proof.Machine.execCflMergeKk x s
  | .cflCmpct x => Sys2Proof.Machine.execCflCmpct x s
  | .cflRqCut x => Sys2Proof.Machine.execCflRqCut x s
  | .cflRqTake x => Sys2Proof.Machine.execCflRqTake x s
  | .mma x => Sys2Proof.Machine.execMma x s
  | .mmaCfg x => Sys2Proof.Machine.execMmaCfg x s
  | .mmaAccrd x => Sys2Proof.Machine.execMmaAccrd x s
  | .mmaAccwr x => Sys2Proof.Machine.execMmaAccwr x s
  | .epi x => Sys2Proof.Machine.execEpi x s
  | .redMaxi x => Sys2Proof.Machine.execRedMaxi x s
  | .redMini x => Sys2Proof.Machine.execRedMini x s
  | .redTopk x => Sys2Proof.Machine.execRedTopk x s
  | .redTopkL x => Sys2Proof.Machine.execRedTopkL x s
  | .redSt x => Sys2Proof.Machine.execRedSt x s
  | .flmAttn x => Sys2Proof.Machine.execFlmAttn x s
  | .flmMerge x => Sys2Proof.Machine.execFlmMerge x s
  | .cisOpen x => Sys2Proof.Machine.execCisOpen x s
  | .cisFork x => Sys2Proof.Machine.execCisFork x s
  | .cisHold x => Sys2Proof.Machine.execCisHold x s
  | .cisRelease x => Sys2Proof.Machine.execCisRelease x s
  | .cisAppend x => Sys2Proof.Machine.execCisAppend x s
  | .cisTrim x => Sys2Proof.Machine.execCisTrim x s
  | .cisClose x => Sys2Proof.Machine.execCisClose x s
  | .cisQuery x => Sys2Proof.Machine.execCisQuery x s
  | .hgpRun x => Sys2Proof.Machine.execHgpRun x s
  | .hgpMask x => Sys2Proof.Machine.execHgpMask x s
  | .hgpAudit x => Sys2Proof.Machine.execHgpAudit x s
  | .latPush x => Sys2Proof.Machine.execLatPush x s
  | .latPop x => Sys2Proof.Machine.execLatPop x s
  | .latPushNb x => Sys2Proof.Machine.execLatPushNb x s
  | .latPopNb x => Sys2Proof.Machine.execLatPopNb x s
  | .latAlloc x => Sys2Proof.Machine.execLatAlloc x s
  | .latFree x => Sys2Proof.Machine.execLatFree x s
  | .latSend x => Sys2Proof.Machine.execLatSend x s
  | .latRot x => Sys2Proof.Machine.execLatRot x s
  | .sysSpan x => Sys2Proof.Machine.execSysSpan x s
  | .sysRes x => Sys2Proof.Machine.execSysRes x s
  | .sysCycle x => Sys2Proof.Machine.execSysCycle x s
  | .sysFenceT x => Sys2Proof.Machine.execSysFenceT x s
  | .sysFenceS x => Sys2Proof.Machine.execSysFenceS x s
  | .sysFenceH x => Sys2Proof.Machine.execSysFenceH x s
  | .islandInstrStart tg start => Sys2Proof.Machine.execIslandInstrStart tg start s
  | .threadUnblock tg thr => Sys2Proof.Machine.execThreadUnblock tg thr s
  | .streamDrained tg ctx => Sys2Proof.Machine.execStreamDrained tg ctx s
  | .coalesceTimeout tg ctx => Sys2Proof.Machine.execCoalesceTimeout tg ctx s
  | .handleContest tg pool => Sys2Proof.Machine.execHandleContest tg pool s
  | .handleReturn tg pool index => Sys2Proof.Machine.execHandleReturn tg pool index s
  | .arrayCheckFail tg check => Sys2Proof.Machine.execArrayCheckFail tg check s
  | .itemFinish tg => Sys2Proof.Machine.execItemFinish tg s
  | .lateralReceipt src dst => Sys2Proof.Machine.execLateralReceipt src dst s
  | .lateralSendDone tg => Sys2Proof.Machine.execLateralSendDone tg s
  | .cutterPlace slot => Sys2Proof.Machine.execCutterPlace slot s
  | .guardApply saddle => Sys2Proof.Machine.execGuardApply saddle s
  | .sumpBag saddle => Sys2Proof.Machine.execSumpBag saddle s
  | .sumpJobEnd saddle => Sys2Proof.Machine.execSumpJobEnd saddle s
  | .flmContextSwitch lane => Sys2Proof.Machine.execFlmContextSwitch lane s
  | .flmComplete lane => Sys2Proof.Machine.execFlmComplete lane s
  | .cisReadNotice allot page => Sys2Proof.Machine.execCisReadNotice allot page s
  | .cisSwapStep allot => Sys2Proof.Machine.execCisSwapStep allot s
  | .cisResumeScan allot => Sys2Proof.Machine.execCisResumeScan allot s
  | .saddleRead r e => Sys2Proof.Machine.execSaddleRead r e s
  | .saddleWrite r bytes bad => Sys2Proof.Machine.execSaddleWrite r bytes bad s
  | .prefetcherRelease saddle pf => Sys2Proof.Machine.execPrefetcherRelease saddle pf s
  | .hbmStackFail stack cause => Sys2Proof.Machine.execHbmStackFail stack cause s
  | .hbmTempReport stack temp => Sys2Proof.Machine.execHbmTempReport stack temp s
  | .farPortFail port fatal => Sys2Proof.Machine.execFarPortFail port fatal s
  | .farResilverDone port => Sys2Proof.Machine.execFarResilverDone port s
  | .weirRefill => Sys2Proof.Machine.execWeirRefill s
  | .rsvRecompute => Sys2Proof.Machine.execRsvRecompute s
  | .atsInvalidate hd addr len => Sys2Proof.Machine.execAtsInvalidate hd addr len s
  | .sqTailWrite r allot q v => Sys2Proof.Machine.execSqTailWrite r allot q v s
  | .cqHeadWrite r allot q v => Sys2Proof.Machine.execCqHeadWrite r allot q v s
  | .sqReadComplete q err => Sys2Proof.Machine.execSqReadComplete q err s
  | .dispatchDecision pick => Sys2Proof.Machine.execDispatchDecision pick s
  | .scrubComplete tg => Sys2Proof.Machine.execScrubComplete tg s
  | .commit slot => Sys2Proof.Machine.execCommit slot s
  | .completionPost w => Sys2Proof.Machine.execCompletionPost w s
  | .qIntTimer q => Sys2Proof.Machine.execQIntTimer q s
  | .gaugeLineWrite ring => Sys2Proof.Machine.execGaugeLineWrite ring s
  | .gaugeFlushTimer ring => Sys2Proof.Machine.execGaugeFlushTimer ring s
  | .gaugeHeadWrite r ring v => Sys2Proof.Machine.execGaugeHeadWrite r ring v s
  | .gaugeCfgWrite r ring reg v => Sys2Proof.Machine.execGaugeCfgWrite r ring reg v s
  | .allotCfgWrite r allot reg v => Sys2Proof.Machine.execAllotCfgWrite r allot reg v s
  | .allotReset r allot => Sys2Proof.Machine.execAllotReset r allot s
  | .allotKill r allot => Sys2Proof.Machine.execAllotKill r allot s
  | .allotCmdDone allot => Sys2Proof.Machine.execAllotCmdDone allot s
  | .qCfgWrite r q reg v => Sys2Proof.Machine.execQCfgWrite r q reg v s
  | .xltRootWrite r allot hi v => Sys2Proof.Machine.execXltRootWrite r allot hi v s
  | .xltCtxWrite r allot v => Sys2Proof.Machine.execXltCtxWrite r allot v s
  | .xltInvalidate r v => Sys2Proof.Machine.execXltInvalidate r v s
  | .xltInvDone => Sys2Proof.Machine.execXltInvDone s
  | .xltFlogPop r => Sys2Proof.Machine.execXltFlogPop r s
  | .rsvCreate r v => Sys2Proof.Machine.execRsvCreate r v s
  | .rsvRelease r v => Sys2Proof.Machine.execRsvRelease r v s
  | .rsvQuery r v => Sys2Proof.Machine.execRsvQuery r v s
  | .rsvPctWrite r v => Sys2Proof.Machine.execRsvPctWrite r v s
  | .skvRteWrite r v => Sys2Proof.Machine.execSkvRteWrite r v s
  | .skvWinWrite r reg v => Sys2Proof.Machine.execSkvWinWrite r reg v s
  | .fbCapWrite r v => Sys2Proof.Machine.execFbCapWrite r v s
  | .rstCtlWarm r v => Sys2Proof.Machine.execRstCtlWarm r v s
  | .rstCtlCold r v => Sys2Proof.Machine.execRstCtlCold r v s
  | .rstCtlDrain r v => Sys2Proof.Machine.execRstCtlDrain r v s
  | .rstCtlResume r v => Sys2Proof.Machine.execRstCtlResume r v s
  | .rasPop r v => Sys2Proof.Machine.execRasPop r v s
  | .intStatClear r v => Sys2Proof.Machine.execIntStatClear r v s
  | .intEnWrite r v => Sys2Proof.Machine.execIntEnWrite r v s
  | .intMessage vector => Sys2Proof.Machine.execIntMessage vector s
  | .counterLoRead r place => Sys2Proof.Machine.execCounterLoRead r place s
  | .rcFieldRead r place => Sys2Proof.Machine.execRcFieldRead r place s
  | .regWrite r bar off size v => Sys2Proof.Machine.execRegWrite r bar off size v s
  | .bar4Read port off len => Sys2Proof.Machine.execBar4Read port off len s
  | .bar4Write port off bytes ep => Sys2Proof.Machine.execBar4Write port off bytes ep s
  | .journalStepComplete => Sys2Proof.Machine.execJournalStepComplete s
  | .postResetRestore => Sys2Proof.Machine.execPostResetRestore s
  | .retirementStart => Sys2Proof.Machine.execRetirementStart s
  | .retirementStepDone => Sys2Proof.Machine.execRetirementStepDone s
  | .ridgeDieFail ridge => Sys2Proof.Machine.execRidgeDieFail ridge s
  | .headworkFail hd => Sys2Proof.Machine.execHeadworkFail hd s
  | .islandHeartbeatLoss tg => Sys2Proof.Machine.execIslandHeartbeatLoss tg s
  | .flumeLaneFail lane => Sys2Proof.Machine.execFlumeLaneFail lane s
  | .hostPortDown port fatal => Sys2Proof.Machine.execHostPortDown port fatal s
  | .hostPortUp port width rate => Sys2Proof.Machine.execHostPortUp port width rate s
  | .feedOutOfRange feed volts => Sys2Proof.Machine.execFeedOutOfRange feed volts s
  | .feedValid feed volts => Sys2Proof.Machine.execFeedValid feed volts s
  | .feedReturn feed => Sys2Proof.Machine.execFeedReturn feed s
  | .dischargeStart => Sys2Proof.Machine.execDischargeStart s
  | .matePinOpen feed => Sys2Proof.Machine.execMatePinOpen feed s
  | .fbFastLoop m => Sys2Proof.Machine.execFbFastLoop m s
  | .fbSlowLoop m => Sys2Proof.Machine.execFbSlowLoop m s
  | .voltageSettled tg => Sys2Proof.Machine.execVoltageSettled tg s
  | .fbFloorEval floor perTerrace => Sys2Proof.Machine.execFbFloorEval floor perTerrace s
  | .capGuard avg => Sys2Proof.Machine.execCapGuard avg s
  | .fbShadowSync => Sys2Proof.Machine.execFbShadowSync s
  | .railTelemetry rail m => Sys2Proof.Machine.execRailTelemetry rail m s
  | .phaseFail rail => Sys2Proof.Machine.execPhaseFail rail s
  | .railEstimation rail cause => Sys2Proof.Machine.execRailEstimation rail cause s
  | .ibcFail unit => Sys2Proof.Machine.execIbcFail unit s
  | .railFail rail => Sys2Proof.Machine.execRailFail rail s
  | .droopDetect tg isl => Sys2Proof.Machine.execDroopDetect tg isl s
  | .powerGate d => Sys2Proof.Machine.execPowerGate d s
  | .domainGated d => Sys2Proof.Machine.execDomainGated d s
  | .returnedPacket d => Sys2Proof.Machine.execReturnedPacket d s
  | .domainWake d => Sys2Proof.Machine.execDomainWake d s
  | .junctionSample p temp => Sys2Proof.Machine.execJunctionSample p temp s
  | .thermalCeilingStep tg => Sys2Proof.Machine.execThermalCeilingStep tg s
  | .spillwayTrip => Sys2Proof.Machine.execSpillwayTrip s
  | .energyWindowClose m => Sys2Proof.Machine.execEnergyWindowClose m s
  | .modEnRise b => Sys2Proof.Machine.execModEnRise b s
  | .riderWatchdog hd => Sys2Proof.Machine.execRiderWatchdog hd s
  | .perstAssert port => Sys2Proof.Machine.execPerstAssert port s
  | .perstDeassert port => Sys2Proof.Machine.execPerstDeassert port s
  | .pcieHotReset port => Sys2Proof.Machine.execPcieHotReset port s
  | .vfFlr vf => Sys2Proof.Machine.execVfFlr vf s
  | .xprsntRemove port => Sys2Proof.Machine.execXprsntRemove port s
  | .xprsntInsert port d => Sys2Proof.Machine.execXprsntInsert port d s
  | .getState => Sys2Proof.Machine.execGetState s
  | .powerOn b => Sys2Proof.Machine.execPowerOn b s
  | .powerOff => Sys2Proof.Machine.execPowerOff s
  | .drain => Sys2Proof.Machine.execDrain s
  | .resume => Sys2Proof.Machine.execResume s
  | .exmasResetWarm => Sys2Proof.Machine.execExmasResetWarm s
  | .exmasResetCold => Sys2Proof.Machine.execExmasResetCold s
  | .maintEnter => Sys2Proof.Machine.execMaintEnter s
  | .readReg off => Sys2Proof.Machine.execReadReg off s
  | .writeReg off v => Sys2Proof.Machine.execWriteReg off v s
  | .getEvent => Sys2Proof.Machine.execGetEvent s
  | .setEventReceiver eid => Sys2Proof.Machine.execSetEventReceiver eid s
  | .configGet => Sys2Proof.Machine.execConfigGet s
  | .configSet c => Sys2Proof.Machine.execConfigSet c s
  | .retire tg ridge => Sys2Proof.Machine.execRetire tg ridge s
  | .diagRun test => Sys2Proof.Machine.execDiagRun test s
  | .diagDone r => Sys2Proof.Machine.execDiagDone r s
  | .mctpControl msg => Sys2Proof.Machine.execMctpControl msg s
  | .pldmMonitoring msg => Sys2Proof.Machine.execPldmMonitoring msg s
  | .requestUpdate comp ver svn => Sys2Proof.Machine.execRequestUpdate comp ver svn s
  | .verifyComplete ok => Sys2Proof.Machine.execVerifyComplete ok s
  | .activateFirmware raise => Sys2Proof.Machine.execActivateFirmware raise s
  | .getVersion => Sys2Proof.Machine.execGetVersion s
  | .getCapabilities => Sys2Proof.Machine.execGetCapabilities s
  | .negotiateAlgorithms algs => Sys2Proof.Machine.execNegotiateAlgorithms algs s
  | .getDigests => Sys2Proof.Machine.execGetDigests s
  | .getCertificate slot off len => Sys2Proof.Machine.execGetCertificate slot off len s
  | .challenge slot => Sys2Proof.Machine.execChallenge slot s
  | .getMeasurements index => Sys2Proof.Machine.execGetMeasurements index s
  | .skvPortTrained port mask mgr partner rtt => Sys2Proof.Machine.execSkvPortTrained port mask mgr partner rtt s
  | .skvLaneRemove port lane => Sys2Proof.Machine.execSkvLaneRemove port lane s
  | .skvFlitReceive port f => Sys2Proof.Machine.execSkvFlitReceive port f s
  | .skvReplayRequest port lseq => Sys2Proof.Machine.execSkvReplayRequest port lseq s
  | .skvLinkAckTimeout port => Sys2Proof.Machine.execSkvLinkAckTimeout port s
  | .skvTransit p => Sys2Proof.Machine.execSkvTransit p s
  | .read p => Sys2Proof.Machine.execRead p s
  | .write p => Sys2Proof.Machine.execWrite p s
  | .rdata p => Sys2Proof.Machine.execRdata p s
  | .wack p => Sys2Proof.Machine.execWack p s
  | .eack p => Sys2Proof.Machine.execEack p s
  | .contrib p => Sys2Proof.Machine.execContrib p s
  | .budget p => Sys2Proof.Machine.execBudget p s
  | .mgmt p => Sys2Proof.Machine.execMgmt p s
  | .skvE2eTimeout mgr dest ch => Sys2Proof.Machine.execSkvE2eTimeout mgr dest ch s
  | .skvDestUnreachable mgr dest => Sys2Proof.Machine.execSkvDestUnreachable mgr dest s
  | .slack => Sys2Proof.Machine.execSlack s
  | .budgetLifeExpire => Sys2Proof.Machine.execBudgetLifeExpire s
  | .tapIdcode hd => Sys2Proof.Machine.execTapIdcode hd s
  | .tapBypass hd => Sys2Proof.Machine.execTapBypass hd s
  | .tapSamplePreload hd v => Sys2Proof.Machine.execTapSamplePreload hd v s
  | .tapExtest hd => Sys2Proof.Machine.execTapExtest hd s
  | .tapIeee1687Access hd v => Sys2Proof.Machine.execTapIeee1687Access hd v s
  | .tapReset hd => Sys2Proof.Machine.execTapReset hd s
  | .stageInstructionEnd tg unit => Sys2Proof.Machine.execStageInstructionEnd tg unit s
  | .hostWindowCompletion hd c => Sys2Proof.Machine.execHostWindowCompletion hd c s

end Sys2Proof.Machine
end

