-- ==== Sys2Proof/Machine/Step.lean ====
section
/-! DEFINITION. The step of the block: the command at the front of the queue, or, on an empty queue, one nanosecond of the always-on clock
(log 1). -/

namespace Sys2Proof.Machine

/-- An idle nanosecond: only the clock moves. DESIGN CHOICE: log 1. -/
def idle (s : State) : State := { s with clockNs := s.clockNs + 1 }

/-- Take the command at the front of the queue, and run it with the queue's rest. DESIGN CHOICE: log 1. -/
def step (s : State) : Host.Outcome State Fault Refusal :=
  match s.pending with
  | [] => .next (idle s)
  | c :: rest => exec c { s with pending := rest }

/-- Put the command that a word spells at the front of the queue; no word spells one. -/
def State.withFetchWord (s : State) (nbits w : Nat) : State :=
  match decodeTableWord nbits w with
  | some c => { s with pending := c :: s.pending }
  | none => s

end Sys2Proof.Machine
end

