-- ==== Sys2Proof/Safety.lean ====
section
/-! DEFINITION. What a safe run keeps, in the terms the claims use: a queue of well-formed commands, memories in their canonical form, and logs
within the sizes the spec gives them. -/

namespace Sys2Proof.Machine

/-- Every waiting command is well-formed. -/
def QueueWf (s : State) : Prop := ∀ c ∈ s.pending, c.wf = true

/-- The memories outside the terraces are in their canonical form, and so is the list of poisoned HBM sectors. -/
def MemWf (s : State) : Prop :=
  s.hbm.wf = true ∧ s.far.wf = true ∧ s.host.wf = true ∧ s.peer.wf = true ∧ rising s.hbmPoison = true

/-- The logs hold no more than the spec gives them: 1,024 RAS records (R523), 16 fault records (R331), 256 Exmas events (R511). -/
def LogsBounded (s : State) : Prop := s.ras.length ≤ 1024 ∧ s.flog.length ≤ 16 ∧ s.evq.length ≤ 256

/-! ## A thread instruction that issues -/

/-- Where an instruction issues, and with what registers: as its thread stands before it. -/
def ctxOf (i : Issue) (s : State) : Ctx :=
  { tg := i.tg.val, thr := i.thr.val, pc := (thread s i.tg.val i.thr.val).pc.toNat, t := thread s i.tg.val i.thr.val, w0 := i.w0, w1 := i.w1 }

/-- The thread can issue: it is Ready and its instruction words are fetched. -/
def Fetched (i : Issue) (s : State) : Prop :=
  (ctxOf i s).t.st = .ready ∧ fetch s (ctxOf i s).tg (ctxOf i s).pc (opWords i.w0) = .ok

/-- The instruction issues and takes effect: fetched, one of Table 13-3 and of its row, and not turned off by its predicate. -/
def Issues (row : OpRow) (i : Issue) (s : State) : Prop :=
  Fetched i s ∧ legalOp i.w0 = true ∧ row.has i.w0 = true ∧ takesEffect (ctxOf i s).t i.w0 = true

/-- The state once the lines of the instruction's words are in the buffer. -/
def held (i : Issue) (s : State) : State := bufferLines s (ctxOf i s).tg (ctxOf i s).pc (opWords i.w0)

/-- The same with the PC past its words. -/
def past (i : Issue) (s : State) : State := advance (ctxOf i s) (held i s)

/-- The issuing thread past its instruction: as it was, but for the PC. -/
def stepped (i : Issue) (s : State) : Thread :=
  { (ctxOf i s).t with pc := BitVec.ofNat 52 ((ctxOf i s).pc + 8 * opWords i.w0) }

/-! ## What a read of memory goes through -/

/-- The registers that a read of memory may write: the counters of WEIR and of the two Saddles (Tables 11-13, 11-14 and 12-8), of the far ports, and of a
terrace's guard, with the RAS log's and the interrupt causes. -/
inductive CountedAt : Nat → Prop
  | intStat : CountedAt 0x2000
  | rasStat : CountedAt 0x1000
  | rasLost : CountedAt 0x1008
  | rasCount : CountedAt 0x100C
  | bound : CountedAt 0x130018
  | fence (tg : Nat) : CountedAt (tBase tg + 0x1688)
  | stack (n k : Nat) (h : k < 6) : CountedAt (sBase n + 0x10010 + 4 * k)
  | rebuilt (n : Nat) : CountedAt (sBase n + 0x10034)
  | fetched (n : Nat) : CountedAt (sBase n + 0x20000)
  | used (n : Nat) : CountedAt (sBase n + 0x20004)
  | missed (n : Nat) : CountedAt (sBase n + 0x20008)
  | arbiter (n : Nat) : CountedAt (sBase n + 0x8002C)
  | far (p : Nat) : CountedAt (hBase (p / 4) + 0x30008 + 0x10 * (p % 4))

/-- The states differ at most in what a read of memory goes through: TLBs and instruction buffers, the Reservoirs with their prefetchers, arbiters and port
buckets, the amounts of reservations, the data delivered for it, poison that it meets, and the counters, logs and messages of these. -/
def CacheOnly (s t : State) : Prop :=
  t = { s with
    regs := t.regs, ras := t.ras, rasNext := t.rasNext, intPend := t.intPend, evq := t.evq, out := t.out, runs := t.runs, saddles := t.saddles
    hbmPoison := t.hbmPoison, got := t.got, rsvs := t.rsvs, far := { s.far with poison := t.far.poison }, terraces := t.terraces } ∧
  (∀ off d, ¬ CountedAt off → rg t off d = rg s off d) ∧
  (∀ k, ∃ tl ib, terrace t k = { terrace s k with tlb := tl, ibuf := ib }) ∧
  ∀ n, ∃ ls pl pf pt ar tl, saddle t n = { saddle s n with lines := ls, plru := pl, pfs := pf, ptok := pt, arbs := ar, stlb := tl }

/-- The states differ only in one thread, in what its issue notes in its Intake (who issued, and the cycle), and in what the read of its words goes through
when they are not in the buffer: t is as the fetch leaves s, but for the thread and the note. -/
def OnlyThread (i : Issue) (s t : State) : Prop :=
  CacheOnly s (held i s) ∧
  t = { held i s with terraces := t.terraces } ∧
  (∀ k, k ≠ i.tg.val → terrace t k = terrace (held i s) k) ∧
  (∃ th cy, terrace t i.tg.val = { terrace (held i s) i.tg.val with threads := th, lastIssue := i.thr.val, firstIssue := true, cycles := cy }) ∧
  ∀ k, k ≠ i.thr.val → thread t i.tg.val k = thread s i.tg.val k

/-- The same after a load: the fetch and the note of its issue, then what the load's own accesses go through, then the thread. -/
def OnlyLoad (i : Issue) (s t : State) : Prop :=
  OnlyThread i s (past i s) ∧ ∃ u, CacheOnly (past i s) u ∧
    t = { u with terraces := t.terraces } ∧
    (∀ k, k ≠ i.tg.val → terrace t k = terrace u k) ∧
    (∃ th, terrace t i.tg.val = { terrace u i.tg.val with threads := th }) ∧
    ∀ k, k ≠ i.thr.val → thread t i.tg.val k = thread s i.tg.val k

/-- A step that goes on. -/
def Goes (s : State) : Prop := ∃ t, step s = .next t

end Sys2Proof.Machine
end

