-- ==== Sys2Proof/Certificates/Slice0/Obligations.lean ====
section
/-! DEFINITION. What is claimed of the block. -/

open Sys2Proof Sys2Proof.Machine

/-! ## The queue of commands -/

/-- A step takes the command at the front of the queue and runs it with the rest of the queue.
With no command waiting, a step is one nanosecond of the always-on clock (the model's choice, log 1). -/
def Obligations.StepRunsFront : Prop :=
  (∀ (c : Instr) (rest : List Instr) (s : State), step { s with pending := c :: rest } = exec c { s with pending := rest }) ∧
  (∀ s : State, s.pending = [] → step s = .next { s with clockNs := s.clockNs + 1 })

/-- No command is refused and none faults the block, in any state.
No command touches the queue of commands that wait. -/
def Obligations.CommandsGoOn : Prop :=
  (∀ (c : Instr) (s : State), ∃ t, exec c s = .next t) ∧
  (∀ (c : Instr) (s t : State), exec c s = .next t → t.pending = s.pending)

/-- Every step keeps the queue well-formed, the memories in their canonical form, and the logs within the sizes the spec gives them: 1,024 RAS records,
16 fault records, 256 events (R331, R511, R523). -/
def Obligations.StepsKeepTheForms : Prop :=
  ∀ s t : State, QueueWf s ∧ MemWf s ∧ LogsBounded s → step s = .next t → QueueWf t ∧ MemWf t ∧ LogsBounded t

/-- The state after reset has these forms, and what the spec gives of a reset: Ready, no fault reason, nothing in flight, and memories that read 0
(the value of a byte that nothing has written is the model's choice, log 8). -/
def Obligations.ResetHasTheForms : Prop :=
  QueueWf State.reset ∧ MemWf State.reset ∧ LogsBounded State.reset ∧ State.reset.mode = .ready ∧ State.reset.freason = 0 ∧
    State.reset.runs = [] ∧ State.reset.jsteps = [] ∧ State.reset.pending = [] ∧ ∀ a, hbmGet State.reset a = 0

/-! ## Issue and the registers of a thread (R80, R82, R86, R348 to R351) -/

/-- A thread that is not Ready does not issue, and neither does a thread under a command of another row than its word's; one whose line is not
there yet is passed over and asks for what the line misses, unless a route fence holds its terrace, and stays as it is.
A FETCH fault and an ILLEGAL fault stop the item before the instruction does anything, whatever its predicate (R349, R351); the
faults of the fetch are recorded first (R313, R331). A fetch changes only what a read goes through: TLB and instruction buffer, Reservoirs, counters,
logs; and nothing at all when the buffer holds the lines of the words (R299, R351). -/
def Obligations.IssueChecksComeFirst : Prop :=
  (∀ (c : Instr) (i : Issue) (row : OpRow) (s : State), c.row? = some (i, row) →
    ((ctxOf i s).t.st ≠ .ready → exec c s = .next s) ∧
    (legalOp i.w0 = true → row.has i.w0 = false → exec c s = .next s) ∧
    ((ctxOf i s).t.st = .ready → row.has i.w0 = true ∨ legalOp i.w0 = false →
      fetch s i.tg.val (ctxOf i s).pc (opWords i.w0) = .wait →
      (terraceFenced s i.tg.val = true → exec c s = .next s) ∧
      (terraceFenced s i.tg.val = false → ∃ t, exec c s = .next t ∧ t.terraces = s.terraces ∧
        t = atsAsk s (.terrace i.tg.val) (allotOf s i.tg.val) (fetchMissing s i.tg.val (ctxOf i s).pc)))) ∧
  (∀ (c : Instr) (i : Issue) (row : OpRow) (s : State), c.row? = some (i, row) → (ctxOf i s).t.st = .ready →
    row.has i.w0 = true ∨ legalOp i.w0 = false →
    (fetch s i.tg.val (ctxOf i s).pc (opWords i.w0) = .fault →
      exec c s = .next (raise (ctxOf i s) 0x02 (logFetch s i.tg.val (ctxOf i s).pc))) ∧
    (fetch s i.tg.val (ctxOf i s).pc (opWords i.w0) = .ok → legalOp i.w0 = false →
      exec c s = .next (raise (ctxOf i s) 0x01 (held i s)))) ∧
  (∀ (i : Issue) (s : State), CacheOnly s (held i s) ∧
    ((terrace s i.tg.val).ibuf.contains ((ctxOf i s).pc % 2 ^ 52 / 64) = true →
      (opWords i.w0 = 2 → (terrace s i.tg.val).ibuf.contains (((ctxOf i s).pc + 8) % 2 ^ 52 / 64) = true) → held i s = s))

/-- An instruction whose predicate is off uses its issue slot and changes nothing but the PC: no register, queue, handle or memory, and no
fault, even when its operands are invalid.
p0 always reads 1 and a write to it is discarded; the other predicates hold what was written, and no write reaches another. -/
def Obligations.Predicates : Prop :=
  (∀ (c : Instr) (i : Issue) (row : OpRow) (s : State), c.row? = some (i, row) → Fetched i s → legalOp i.w0 = true → row.has i.w0 = true →
    ((ctxOf i s).t.preg (fld i.w0 55 3) != bit i.w0 54) = false →
    ∃ t, exec c s = .next t ∧ OnlyThread i s t ∧ thread t i.tg.val i.thr.val = stepped i s) ∧
  (∀ (t : Thread) (v : Bool), t.preg 0 = true ∧ t.setP 0 v = t ∧
    ∀ n k, 0 < n → n < 8 → k < 8 → (t.setP n v).preg k = if k = n then v else t.preg k)

/-- A bit that the form of an instruction does not use, or that its table marks reserved, must be 0: otherwise the instruction raises ILLEGAL at issue
(R350). -/
def Obligations.UnusedFieldsRaiseIllegal : Prop :=
  ∀ e ∈ ([(.ctlNop, [(0, 48)]), (.ctlEnd, [(0, 48)]), (.ctlJmp, [(32, 16)]), (.ctlJal, [(32, 11)]), (.ctlJr, [(0, 38), (43, 5)]),
      (.ctlSig, [(32, 5)]), (.ctlWait, [(32, 5)]), (.sclMovi, [(0, 43)]), (.sclPlog, [(0, 32), (36, 3)]), (.sclSel, [(0, 29), (37, 1)]),
      (.sclSt, [(35, 1)]), (.dscLd, [(43, 1), (35, 3)]), (.dscSt, [(43, 1), (35, 3)]), (.dscMov, [(0, 40)]), (.dscZero, [(0, 44)]),
      (.dscGetb, [(16, 23), (6, 2)]), (.dscSetb, [(43, 1), (16, 22), (6, 2)]), (.dscAddb, [(43, 1), (32, 5)]),
      (.strSt, [(0, 17), (18, 14), (36, 4)]), (.strCpy, [(0, 40)]), (.strSump, [(0, 37), (43, 5)]), (.cflRqCut, [(0, 38), (43, 1)]),
      (.cflRqTake, [(0, 38), (43, 2)]), (.mma, [(0, 2)]), (.mmaCfg, [(0, 26)]), (.mmaAccrd, [(0, 34)]), (.mmaAccwr, [(0, 33), (34, 4)]),
      (.redMaxi, [(0, 35)]), (.redMini, [(0, 35)]), (.redTopk, [(0, 31), (35, 5)]), (.redTopkL, [(0, 31), (35, 5)]), (.redSt, [(0, 35)]),
      (.flmAttn, [(0, 3)]), (.flmMerge, [(0, 7), (11, 16), (43, 5)]), (.cisOpen, [(0, 21), (25, 10)]), (.cisFork, [(0, 25)]),
      (.cisHold, [(0, 35)]), (.cisRelease, [(0, 35)]), (.cisAppend, [(0, 16), (21, 4)]), (.cisTrim, [(0, 30)]), (.cisClose, [(0, 35)]),
      (.cisQuery, [(0, 35)]), (.hgpRun, [(0, 27), (39, 1)]), (.hgpMask, [(0, 30), (34, 4)]), (.hgpAudit, [(0, 30), (34, 9), (43, 1)]),
      (.latPush, [(0, 39)]), (.latPop, [(0, 39)]), (.latPushNb, [(0, 36)]), (.latPopNb, [(0, 36)]), (.latAlloc, [(0, 34), (39, 5)]),
      (.latFree, [(0, 44)]), (.latSend, [(0, 24)]), (.latRot, [(0, 24), (28, 1)]), (.sysSpan, [(8, 35)]), (.sysRes, [(0, 43)]),
      (.sysCycle, [(0, 43)]), (.sysFenceT, [(2, 46)]), (.sysFenceS, [(2, 46)]), (.sysFenceH, [(2, 46)])] :
      List ((Issue → Instr) × List (Nat × Nat))), ∀ (i : Issue) (s : State) (row : OpRow), (e.1 i).row? = some (i, row) → Issues row i s →
    (∃ f ∈ e.2, fld i.w0 f.1 f.2 ≠ 0) → exec (e.1 i) s = .next (raise (ctxOf i s) 0x01 (past i s))

/-- A fault of an item ends its threads on every terrace of its span, empties their islands, is the fault of its completion when it is the first, and
counts as one more when it is not; nothing of another terrace changes (R83, R355). -/
def Obligations.FaultsStopTheItem : Prop :=
  ∀ (s : State) (tg thr pc code k : Nat) (r : Run), runOfT s tg = some (k, r) →
    let u := itemFault s tg thr pc code
    (∃ r', mget? u.runs k = some r' ∧ r'.stopped = true ∧ r'.sumps = 0 ∧ r'.cut = none ∧
      (r.fault = none → r'.fault = some { code, tg, thr, pc } ∧ r'.more = r.more) ∧
      (r.fault ≠ none → r'.fault = r.fault ∧ r'.more = min 0xFFFF (r.more + 1))) ∧
    (∀ x ∈ r.tgs, (∀ n, (thread u x n).st ≠ .ready ∧ ∀ w, (thread u x n).st ≠ .blocked w) ∧ (terrace u x).execs = [] ∧ (terrace u x).cmdq = []) ∧
    (∀ x, x ∉ r.tgs → terrace u x = terrace s x) ∧ u.hbm = s.hbm ∧ u.jrn0 = s.jrn0 ∧ u.jrn1 = s.jrn1

/-! ## CTL, SCL, DSC and SYS (R87, R98, R100, R285, R357 to R361, R380) -/

/-- NOP does nothing, END ends its thread, and the jumps write the PC and, for JAL, the return address; nothing else changes and no jump faults.
A jump that its predicate turns off falls through to PC + 8, and a PC that is not a multiple of 8 raises FETCH there (R357). -/
def Obligations.ControlFlow : Prop :=
  ∀ (i : Issue) (s : State),
    let th := (ctxOf i s).t
    let target := BitVec.ofInt 52 ((th.pc.toNat : Int) + 8 * sfld i.w0 0 32)
    let goes (c : Instr) (r : Thread) : Prop := ∃ t, exec c s = .next t ∧ OnlyThread i s t ∧ thread t i.tg.val i.thr.val = r
    (Issues { maj := 1, min := 0x00 } i s → fld i.w0 0 48 = 0 → goes (.ctlNop i) (stepped i s)) ∧
    (Issues { maj := 1, min := 0x01 } i s → fld i.w0 0 48 = 0 → goes (.ctlEnd i) { stepped i s with st := .ended }) ∧
    (Issues { maj := 1, min := 0x02 } i s → fld i.w0 32 16 = 0 → goes (.ctlJmp i) { stepped i s with pc := target }) ∧
    (Issues { maj := 1, min := 0x03 } i s → fld i.w0 32 11 = 0 → goes (.ctlJal i)
      { (stepped i s).setS (fld i.w0 43 5) (BitVec.ofNat 64 ((th.pc.toNat + 8) % 2 ^ 52)) with pc := target }) ∧
    (Issues { maj := 1, min := 0x04 } i s → fld i.w0 0 38 = 0 → fld i.w0 43 5 = 0 → goes (.ctlJr i)
      { stepped i s with pc := BitVec.ofNat 52 (th.sreg (fld i.w0 38 5)).toNat }) ∧
    (∀ e ∈ ([(.ctlJmp, 0x02), (.ctlJal, 0x03), (.ctlJr, 0x04)] : List ((Issue → Instr) × Nat)), Fetched i s → legalOp i.w0 = true →
      ({ maj := 1, min := e.2 } : OpRow).has i.w0 = true → (th.preg (fld i.w0 55 3) != bit i.w0 54) = false →
      goes (e.1 i) { th with pc := BitVec.ofNat 52 (th.pc.toNat + 8) }) ∧
    (∀ (c : Instr) (row : OpRow), c.row? = some (i, row) → row.has i.w0 = true → th.st = .ready → th.pc.toNat % 8 ≠ 0 →
      exec c s = .next (raise (ctxOf i s) 0x02 s))

/-- The arithmetic instructions: sd gets the result of the 64-bit operation on s[a] and the second operand; nothing else changes and no
fault or flag is raised.
MOVI gives sd the 64 bits of word 1; CMP.cc writes pd by its comparison, PLOG by its truth table, SEL picks by a predicate. -/
def Obligations.ScalarInstructions : Prop :=
  (∀ e ∈ ([(.sclAdd, 0x00, fun a b => a + b), (.sclSub, 0x01, fun a b => a - b), (.sclMul, 0x02, fun a b => a * b),
    (.sclAnd, 0x03, fun a b => a &&& b), (.sclOr, 0x04, fun a b => a ||| b), (.sclXor, 0x05, fun a b => a ^^^ b),
    (.sclShl, 0x06, fun a b => a <<< (b.toNat % 64)), (.sclShr, 0x07, fun a b => a >>> (b.toNat % 64)),
    (.sclSar, 0x08, fun a b => a.sshiftRight (b.toNat % 64)),
    (.sclMin, 0x09, fun a b => if a.toInt < b.toInt then a else b), (.sclMax, 0x0A, fun a b => if a.toInt < b.toInt then b else a),
    (.sclMinu, 0x0B, fun a b => if a.toNat < b.toNat then a else b), (.sclMaxu, 0x0C, fun a b => if a.toNat < b.toNat then b else a),
    (.sclDivu, 0x0D, fun a b => if b = 0 then 0xFFFFFFFFFFFFFFFF#64 else BitVec.ofNat 64 (a.toNat / b.toNat)),
    (.sclRemu, 0x0E, fun a b => if b = 0 then a else BitVec.ofNat 64 (a.toNat % b.toNat))] :
      List ((Issue → Instr) × Nat × (W64 → W64 → W64))), ∀ (i : Issue) (s : State), Issues { maj := 2, min := e.2.1 } i s →
    let th := (ctxOf i s).t
    let b := if bit i.w0 37 then BitVec.ofInt 64 (sfld i.w0 0 32) else th.sreg (fld i.w0 32 5)
    ∃ t, exec (e.1 i) s = .next t ∧ OnlyThread i s t ∧
      thread t i.tg.val i.thr.val = (stepped i s).setS (fld i.w0 43 5) (e.2.2 (th.sreg (fld i.w0 38 5)) b)) ∧
  (∀ (i : Issue) (s : State),
    let th := (ctxOf i s).t
    let a := th.sreg (fld i.w0 38 5)
    let b := if bit i.w0 37 then BitVec.ofInt 64 (sfld i.w0 0 32) else th.sreg (fld i.w0 32 5)
    let goes (c : Instr) (r : Thread) : Prop := ∃ t, exec c s = .next t ∧ OnlyThread i s t ∧ thread t i.tg.val i.thr.val = r
    (Issues { maj := 2, min := 0x10 } i s → fld i.w0 0 43 = 0 → goes (.sclMovi i) ((stepped i s).setS (fld i.w0 43 5) i.w1)) ∧
    (Issues { maj := 2, min := 0x11 } i s → fld i.w0 0 32 = 0 → fld i.w0 36 3 = 0 → goes (.sclPlog i) ((stepped i s).setP (fld i.w0 45 3)
      (bit i.w0 (32 + (2 * (th.preg (fld i.w0 42 3)).toNat + (th.preg (fld i.w0 39 3)).toNat))))) ∧
    (Issues { maj := 2, min := 0x12 } i s → fld i.w0 0 29 = 0 → fld i.w0 37 1 = 0 → goes (.sclSel i) ((stepped i s).setS (fld i.w0 43 5)
      (if th.preg (fld i.w0 29 3) then a else th.sreg (fld i.w0 32 5)))) ∧
    (∀ e ∈ ([(.sclCmpEq, 0x18, decide (a = b)), (.sclCmpNe, 0x19, decide (a ≠ b)), (.sclCmpLt, 0x1A, decide (a.toInt < b.toInt)),
        (.sclCmpGe, 0x1B, decide (b.toInt ≤ a.toInt)), (.sclCmpLtu, 0x1C, decide (a.toNat < b.toNat)),
        (.sclCmpGeu, 0x1D, decide (b.toNat ≤ a.toNat))] : List ((Issue → Instr) × Nat × Bool)),
      Issues { maj := 2, min := e.2.1 } i s → fld i.w0 43 2 = 0 → goes (e.1 i) ((stepped i s).setP (fld i.w0 45 3) e.2.2)))

/-- The register forms of DSC: they never check what a descriptor holds. -/
def Obligations.DescriptorRegisters : Prop :=
  ∀ (i : Issue) (s : State),
    let th := (ctxOf i s).t
    let d := fld i.w0 44 4
    let goes (c : Instr) (r : Thread) : Prop := ∃ t, exec c s = .next t ∧ OnlyThread i s t ∧ thread t i.tg.val i.thr.val = r
    (Issues { maj := 3, min := 0x02 } i s → fld i.w0 0 40 = 0 → goes (.dscMov i) ((stepped i s).setD d (th.dreg (fld i.w0 40 4)))) ∧
    (Issues { maj := 3, min := 0x03 } i s → fld i.w0 0 44 = 0 → goes (.dscZero i) ((stepped i s).setD d 0)) ∧
    (Issues { maj := 3, min := 0x04 } i s → fld i.w0 16 23 = 0 → fld i.w0 6 2 = 0 → goes (.dscGetb i) ((stepped i s).setS (fld i.w0 43 5)
      (BitVec.ofNat 64 ((th.dreg (fld i.w0 39 4)).toNat / 2 ^ fld i.w0 8 8 % 2 ^ (fld i.w0 0 6 + 1))))) ∧
    (Issues { maj := 3, min := 0x05 } i s → fld i.w0 43 1 = 0 → fld i.w0 16 22 = 0 → fld i.w0 6 2 = 0 →
      goes (.dscSetb i) ((stepped i s).setD d (setFld (th.dreg d) (fld i.w0 8 8) (fld i.w0 0 6 + 1) (th.sreg (fld i.w0 38 5)).toNat))) ∧
    (Issues { maj := 3, min := 0x06 } i s → fld i.w0 43 1 = 0 → fld i.w0 32 5 = 0 → goes (.dscAddb i) ((stepped i s).setD d
      (setFld (th.dreg d) 0 52 (fld (th.dreg d) 0 52 +
        (if bit i.w0 37 then BitVec.ofInt 64 (sfld i.w0 0 32) else th.sreg (fld i.w0 38 5)).toNat))))

/-- CTL.SIG adds a signed 32-bit value to LS[SEM] of the terrace or to SS[SEM] of the span, modulo 2^32, and CTL.WAIT goes on when the
counter less the target, read as signed, is at least 0, and else Blocks its thread until it is. -/
def Obligations.SemaphoreSignalAndWait : Prop :=
  ∀ (i : Issue) (s : State), fld i.w0 32 5 = 0 →
    let th := (ctxOf i s).t
    let v := if bit i.w0 42 then BitVec.ofNat 32 (fld i.w0 0 32) else BitVec.ofNat 32 (th.sreg (fld i.w0 37 5)).toNat
    let k := fld i.w0 43 4
    let p := past i s
    (Issues { maj := 1, min := 0x08 } i s → bit i.w0 47 = false → exec (.ctlSig i) s =
      .next (updTerrace p i.tg.val (fun t => { t with sema := mset t.sema k (mget t.sema k 0 + v) }))) ∧
    (Issues { maj := 1, min := 0x08 } i s → bit i.w0 47 = true → ∀ e r, runOfT p i.tg.val = some (e, r) → exec (.ctlSig i) s =
      .next { p with runs := mset p.runs e { r with ss := mset r.ss k (mget r.ss k 0 + v) } }) ∧
    (Issues { maj := 1, min := 0x09 } i s → 0 ≤ (semGet p i.tg.val (bit i.w0 47) k - v).toInt → exec (.ctlWait i) s = .next p) ∧
    (Issues { maj := 1, min := 0x09 } i s → (semGet p i.tg.val (bit i.w0 47) k - v).toInt < 0 → exec (.ctlWait i) s =
      .next (updThread p i.tg.val i.thr.val (fun t => { t with st := .blocked (.sem (bit i.w0 47) k v) })))

/-- SYS.SPAN copies a field of the span record, and 0 for a selector outside the table; SYS.RES the hit bits of the claims; SYS.CYCLE the count of
Intake cycles since the item's first issue on the terrace: each issue is a cycle of its own, and how many more have passed is a free value (the
model's reading, logs 2 and 71).
A fence sends the partial packets of every terrace of its item (R132), lets its thread go on when every access of the thread and its
streams has reached the scope's point, and Blocks it until then otherwise. -/
def Obligations.SystemReadsAndFences : Prop :=
  (∀ (i : Issue) (s : State),
    let sp := (terrace s i.tg.val).span
    let sel := fld i.w0 0 8
    let d := fld i.w0 43 5
    (Issues { maj := 13, min := 0x00 } i s → fld i.w0 8 35 = 0 →
      ∃ t, exec (.sysSpan i) s = .next t ∧ OnlyThread i s t ∧ ∃ v, thread t i.tg.val i.thr.val = (stepped i s).setS d (BitVec.ofNat 64 v) ∧
        (sel = 0 → v = sp.rank) ∧ (sel = 1 → v = sp.map.length) ∧ (sel = 2 → v = sp.rows) ∧ (sel = 3 → v = sp.cols) ∧
        (sel = 4 → v = sp.mrank) ∧ (sel = 5 → v = sp.modules) ∧ (sel = 6 → v = sp.mid) ∧
        (sel = 7 → v = if i.tg.val / 4 % 4 < 2 then 0 else 1) ∧ (sel = 8 → v = sp.det.toNat) ∧ (sel = 9 → v = sp.tag) ∧ (9 < sel → v = 0)) ∧
    (Issues { maj := 13, min := 0x02 } i s → fld i.w0 0 43 = 0 →
      ∃ t, exec (.sysRes i) s = .next t ∧ OnlyThread i s t ∧
        thread t i.tg.val i.thr.val = (stepped i s).setS d (BitVec.ofNat 64 (terrace s i.tg.val).resHits.toNat)) ∧
    (Issues { maj := 13, min := 0x03 } i s → fld i.w0 0 43 = 0 →
      let n := (if (terrace s i.tg.val).firstIssue then (terrace s i.tg.val).cycles + 1 else 0) + (Config.freeValue s.freeCtr).toNat % 2 ^ 32
      ∃ t u, exec (.sysCycle i) s = .next t ∧ OnlyThread i s u ∧ t = { u with freeCtr := s.freeCtr + 1 } ∧
        (terrace t i.tg.val).firstIssue = true ∧ (terrace t i.tg.val).cycles = n ∧
        thread t i.tg.val i.thr.val = (stepped i s).setS d (BitVec.ofNat 64 n))) ∧
  (∀ e ∈ ([(.sysFenceT, 0), (.sysFenceS, 1), (.sysFenceH, 2)] : List ((Issue → Instr) × Nat)), ∀ (i : Issue) (s : State),
    Issues { maj := 13, min := 0x01, lo := 0, len := 2, val := e.2 } i s → fld i.w0 2 46 = 0 →
    let p := past i s
    ∃ sent, sent = { p with terraces := sent.terraces } ∧
      (∀ g, terrace sent g = if g ∈ itemTerraces p i.tg.val then { terrace p g with partialPk := [] } else terrace p g) ∧
      (quiet sent i.tg.val i.thr.val e.2 = true → exec (e.1 i) s = .next sent) ∧
      (quiet sent i.tg.val i.thr.val e.2 = false → exec (e.1 i) s =
        .next (updThread sent i.tg.val i.thr.val (fun t => { t with st := .blocked (.fence e.2) }))))

/-- LD and DSC.LD: the register gets the little-endian number of the bytes, for LD zero- or sign-extended; no memory and no other register changes. An
address that breaks the rules of R360 is a SCALAR fault, and so is a byte that faults or is poisoned, after its records. A load whose translation or data
is not there asks for it and Blocks its thread, and one that a route fence stops is passed over (R26, R324, R353, R360, R361). -/
def Obligations.ThreadLoads : Prop :=
  ∀ (i : Issue) (s : State) (n : Nat),
    let th := (ctxOf i s).t
    let g := i.tg.val
    let space := fld i.w0 32 3
    let a := (th.sreg (fld i.w0 38 5) + BitVec.ofInt 64 (sfld i.w0 0 32)).toNat % 2 ^ 52
    let p := past i s
    let al := allotOf p g
    let r := spRead p g al space a n
    let noted := noteAccs p (.terrace g) (slotOf p g) al r.accs
    let good := a % n = 0 ∧ (space = 0 ∨ a < 2 ^ 24 ∧ a + n ≤ memSize space)
    let stopped := space = 0 ∧ terraceFenced p g = true
    let else' (c : Instr) : Prop :=
      (¬ good → exec c s = .next (raise (ctxOf i s) 0x07 p)) ∧
      (good → stopped → exec c s = .next (held i s)) ∧
      (good → ¬ stopped → atsMissing r.accs ≠ [] → exec c s = .next (tagThread (updThread (atsAsk p (.terrace g) al (atsMissing r.accs))
        g i.thr.val (fun t => { t with st := .blocked (.load i.w0 th.pc.toNat) })) g i.thr.val)) ∧
      (good → ¬ stopped → atsMissing r.accs = [] → (∃ b ∈ r.data, b.2 = true) → exec c s =
        .next (raise (ctxOf i s) 0x07 (logStream noted (slotOf noted g) al g r.accs)))
    space < 4 →
    (Issues { maj := 2, min := 0x20 } i s → n = 2 ^ fld i.w0 36 2 → else' (.sclLd i) ∧
      (good → ¬ stopped → (∀ b ∈ r.data, b.2 = false) →
        ∃ t, exec (.sclLd i) s = .next t ∧ OnlyLoad i s t ∧ thread t g i.thr.val = (stepped i s).setS (fld i.w0 43 5)
          (if bit i.w0 35 then BitVec.ofInt 64 (sint (8 * n) (leNat (r.data.map (·.1)))) else BitVec.ofNat 64 (leNat (r.data.map (·.1)))))) ∧
    (Issues { maj := 3, min := 0x00 } i s → n = 32 → fld i.w0 43 1 = 0 → fld i.w0 35 3 = 0 → else' (.dscLd i) ∧
      (good → ¬ stopped → (∀ b ∈ r.data, b.2 = false) →
        ∃ t, exec (.dscLd i) s = .next t ∧ OnlyLoad i s t ∧
          thread t g i.thr.val = (stepped i s).setD (fld i.w0 44 4) (BitVec.ofNat 256 (leNat (r.data.map (·.1))))))

/-- ST and DSC.ST to every space: the bytes go where the address says, sector by sector, what a write that faults would have stored is dropped and the
fault is recorded; an address that breaks the rules of R360 is a SCALAR fault (R331, R360, R361). A store to device virtual memory whose translation is
not known waits beside its thread, which goes on, and one that a route fence stops is passed over (R26, R324, R353).
ST and DSC.ST to a terrace memory, outside every fence: exactly the bytes at the address get the register's low bytes, lowest first;
every other byte of the memory, every other memory and every register is as before; a whole sector written is no longer poisoned.
ST and DSC.ST to device virtual memory: the bytes go through translation to the mapped address; for an HBM page, every other byte of
every memory is as before. -/
def Obligations.ThreadStores : Prop :=
  (∀ (i : Issue) (s : State) (n v : Nat),
    let th := (ctxOf i s).t
    let g := i.tg.val
    let space := fld i.w0 32 3
    let a := (th.sreg (fld i.w0 38 5) + BitVec.ofInt 64 (sfld i.w0 0 32)).toNat % 2 ^ 52
    let p := past i s
    let al := allotOf p g
    let bytes : List PByte := (List.range n).map (fun k => (BitVec.ofNat 8 (v / 256 ^ k), false))
    let good := a % n = 0 ∧ (space = 0 ∨ a < 2 ^ 24 ∧ a + n ≤ memSize space)
    let waits := writeWaits p (.terrace g) al a n
    let fromThread (u : State) : State := tagThread u g i.thr.val
    let completes (c : Instr) : Prop :=
      (¬ good → exec c s = .next (raise (ctxOf i s) 0x07 p)) ∧
      (good → space ≠ 0 → exec c s = .next (noteAccs (setTerrace p g (tWrite (terrace p g) al space a bytes).1) (.terrace g) (slotOf p g) al
        (tWrite (terrace p g) al space a bytes).2)) ∧
      (good → space = 0 → terraceFenced p g = true → exec c s = .next (held i s)) ∧
      (good → space = 0 → terraceFenced p g = false → waits = [] →
        let w := vWrite p (.terrace g) al a bytes
        let noted := noteAccs w.1 (.terrace g) (slotOf p g) al w.2
        exec c s = .next (fromThread (logStream noted (slotOf noted g) al g w.2))) ∧
      (good → space = 0 → terraceFenced p g = false → waits ≠ [] →
        exec c s = .next (fromThread (updTerrace (atsAsk p (.terrace g) al waits) g (fun t =>
          { t with stores := t.stores ++ [{ thr := none, va := a, bytes }] }))))
    space < 4 →
    (Issues { maj := 2, min := 0x21 } i s → fld i.w0 35 1 = 0 → n = 2 ^ fld i.w0 36 2 → v = (th.sreg (fld i.w0 43 5)).toNat →
      completes (.sclSt i)) ∧
    (Issues { maj := 3, min := 0x01 } i s → fld i.w0 43 1 = 0 → fld i.w0 35 3 = 0 → n = 32 → v = (th.dreg (fld i.w0 44 4)).toNat →
      completes (.dscSt i))) ∧
  (∀ (i : Issue) (s : State) (n v : Nat),
    let th := (ctxOf i s).t
    let space := fld i.w0 32 3
    let a := (th.sreg (fld i.w0 38 5) + BitVec.ofInt 64 (sfld i.w0 0 32)).toNat % 2 ^ 52
    let stores (c : Instr) : Prop := ∃ t m, exec c s = .next t ∧
      t = setTerrace (past i s) i.tg.val (setMem (terrace (past i s) i.tg.val) space m) ∧
      (∀ k, k < n → m.get (a + k) = BitVec.ofNat 8 (v / 256 ^ k)) ∧
      (∀ x, x < a ∨ a + n ≤ x → m.get x = (memOf (terrace s i.tg.val) space).get x) ∧
      ∀ x, m.bad x = (if x / 32 = a / 32 then decide (n < 32) && (memOf (terrace s i.tg.val) space).bad a
        else (memOf (terrace s i.tg.val) space).bad x)
    0 < space → space < 4 → a < 2 ^ 24 → a % n = 0 → a + n ≤ memSize space →
    fenced (terrace s i.tg.val) (allotOf (past i s) i.tg.val) space a = false →
    (Issues { maj := 2, min := 0x21 } i s → fld i.w0 35 1 = 0 → n = 2 ^ fld i.w0 36 2 → v = (th.sreg (fld i.w0 43 5)).toNat →
      stores (.sclSt i)) ∧
    (Issues { maj := 3, min := 0x01 } i s → fld i.w0 43 1 = 0 → fld i.w0 35 3 = 0 → n = 32 → v = (th.dreg (fld i.w0 44 4)).toNat →
      stores (.dscSt i))) ∧
  (∀ (i : Issue) (s : State) (n v pa : Nat),
    let th := (ctxOf i s).t
    let a := (th.sreg (fld i.w0 38 5) + BitVec.ofInt 64 (sfld i.w0 0 32)).toNat % 2 ^ 52
    let p := past i s
    let al := allotOf p i.tg.val
    let stores (c : Instr) : Prop := ∃ t, exec c s = .next t ∧ thread t i.tg.val i.thr.val = stepped i s ∧
      t.far = s.far ∧ t.host = s.host ∧ t.peer = s.peer ∧
      (∀ k, k < n → dpaGet t (pa + k) = (BitVec.ofNat 8 (v / 256 ^ k), decide (n < 32) && (dpaGet s pa).2)) ∧
      (∀ x, x < hbmCap s.guarded → x < pa ∨ pa + n ≤ x → hbmGet t x = hbmGet s x)
    fld i.w0 32 3 = 0 → a % n = 0 → xlate p (.terrace i.tg.val) al a permW = .ok pa → pa % 32 = a % 32 → terraceFenced p i.tg.val = false →
    pa + n ≤ hbmCap s.guarded → groupState s (homeSaddle pa) ≠ 2 →
    (Issues { maj := 2, min := 0x21 } i s → fld i.w0 35 1 = 0 → n = 2 ^ fld i.w0 36 2 → v = (th.sreg (fld i.w0 43 5)).toNat →
      stores (.sclSt i)) ∧
    (Issues { maj := 3, min := 0x01 } i s → fld i.w0 43 1 = 0 → fld i.w0 35 3 = 0 → n = 32 → v = (th.dreg (fld i.w0 44 4)).toNat →
      stores (.dscSt i)))

/-- A byte written to HBM is the byte read back and the only one that changes, in both modes and with one stack of the group Failed: the
parity unit of the stripe is kept so that the missing unit still reads as the other five give it. -/
def Obligations.HbmWriteChangesOneByte : Prop :=
  ∀ (s : State) (a x : Nat) (b : Byte), a < hbmCap s.guarded → x < hbmCap s.guarded → groupState s (homeSaddle a) ≠ 2 →
    hbmGet (hbmPut s a b) x = if x = a then b else hbmGet s x

/-! ## Instructions executed outside the Intake (R104, R352, R354) -/

/-- An instruction of an island goes to the end of the island's command queue, with copies of its thread's registers and its place in the
terrace's issue order, when its checks at issue pass and the crossing has a credit; an instruction that opens a stream needs a stream
context too. Nothing else changes. One that cannot be forwarded is passed over: its PC stays. -/
def Obligations.ForwardedInstructions : Prop :=
  ∀ e ∈ ([(.strLd, { maj := 4, min := 0x00, lo := 36, len := 2, val := 0 }, 1, true, ldFault 0, []),
    (.strLdGate, { maj := 4, min := 0x00, lo := 36, len := 2, val := 1 }, 1, true, ldFault 1, []),
    (.strLdReach, { maj := 4, min := 0x00, lo := 36, len := 2, val := 2 }, 1, true, ldFault 2, []),
    (.strLdOne, { maj := 4, min := 0x00, lo := 36, len := 2, val := 3 }, 1, true, ldFault 3, []),
    (.strSt, { maj := 4, min := 0x01 }, 1, true, stFault, [(0, 17), (18, 14), (36, 4)]),
    (.strCpy, { maj := 4, min := 0x02 }, 1, true, cpyFault, [(0, 40)]),
    (.strSump, { maj := 4, min := 0x03 }, 1, false, fun _ _ => none, [(0, 37), (43, 5)]),
    (.cflScan, { maj := 5, min := 0x01 }, 2, false, laneFault 1, []), (.cflIsectK2, { maj := 5, min := 0x02 }, 2, false, laneFault 2, []),
    (.cflUnionK2, { maj := 5, min := 0x03 }, 2, false, laneFault 3, []), (.cflMergeKk, { maj := 5, min := 0x04 }, 2, false, laneFault 4, []),
    (.cflCmpct, { maj := 5, min := 0x05 }, 2, false, laneFault 5, []), (.mmaCfg, { maj := 6, min := 0x01 }, 3, false, fun _ _ => none, [(0, 26)]),
    (.mmaAccrd, { maj := 6, min := 0x02 }, 3, false, accrdFault, [(0, 34)]),
    (.redMaxi, { maj := 8, min := 0x00 }, 4, false, redFault maxiBad, [(0, 35)]),
    (.redMini, { maj := 8, min := 0x01 }, 4, false, redFault maxiBad, [(0, 35)]),
    (.redTopk, { maj := 8, min := 0x02 }, 4, false, redFault topkBad, [(0, 31), (35, 5)]),
    (.redTopkL, { maj := 8, min := 0x03 }, 4, false, redFault topkLBad, [(0, 31), (35, 5)]),
    (.redSt, { maj := 8, min := 0x04 }, 5, false, redStFault, [(0, 35)]),
    (.hgpMask, { maj := 0x0B, min := 0x01 }, 6, false, maskFault, [(0, 30), (34, 4)]),
    (.latSend, { maj := 12, min := 0x04 }, 1, false, sendFault, [(0, 24)]),
    (.latRot, { maj := 12, min := 0x05 }, 1, false, rotFault, [(0, 24), (28, 1)])] :
      List ((Issue → Instr) × OpRow × Nat × Bool × (Ctx → State → Option Nat) × List (Nat × Nat))),
  ∀ (i : Issue) (s : State), Issues e.2.1 i s → zeroFields i.w0 e.2.2.2.2.2 = true → e.2.2.2.2.1 (ctxOf i s) (past i s) = none →
    let t := terrace (past i s) i.tg.val
    let l := cmdsOf t e.2.2.1
    let room := l.length < 12 ∧ (e.2.2.2.1 = true → contextsHeld t < 16)
    (room → exec (e.1 i) s = .next (setTerrace (past i s) i.tg.val
      { setCmds t e.2.2.1 (l ++ [{ thr := i.thr.val, w0 := i.w0, w1 := i.w1, th := (ctxOf i s).t, seq := t.seqno }])
        with seqno := t.seqno + 1 })) ∧
    (¬ room → exec (e.1 i) s = .next (held i s))

/-- MMA, MMA.ACCWR and EPI go to their islands as the others do; an MMA also records the tile it will leave in each entry, an ACCWR that its
entry holds a Split tile, and an EPI takes with it the tile that the instructions issued so far leave (R216).
HGP.RUN counts its run when APER is not 0 and writes its predicate in the cycle it issues: the run is audited when the count has come to
a multiple of APER (R199, R377). HGP.AUDIT Blocks its thread until both registers are written. -/
def Obligations.ArraysAndHeadgateForwarded : Prop :=
  (∀ (i : Issue) (s : State),
    let p := past i s
    let t := terrace p i.tg.val
    let cmd : Cmd := { thr := i.thr.val, w0 := i.w0, w1 := i.w1, th := (ctxOf i s).t, seq := t.seqno }
    let sent (isl : Nat) (c : Cmd) : State := setTerrace p i.tg.val { setCmds t isl (cmdsOf t isl ++ [c]) with seqno := t.seqno + 1 }
    let tag (s : State) (keys : List Nat) (g : AccTag) : State :=
      updTerrace s i.tg.val (fun t => { t with accTag := keys.foldl (fun m k => mset m k g) t.accTag })
    (Issues { maj := 6, min := 0x00 } i s → fld i.w0 0 2 = 0 → mmaFault (ctxOf i s) p = none → (cmdsOf t 3).length < 12 →
      exec (.mma i) s = .next (updTerrace (sent 3 cmd) i.tg.val (fun t => noteTile t (fld i.w0 45 3) i.w0 i.w1))) ∧
    (Issues { maj := 6, min := 0x03 } i s → fld i.w0 0 33 = 0 → fld i.w0 34 4 = 0 → accwrFault (ctxOf i s) p = none →
      (cmdsOf t 3).length < 12 → exec (.mmaAccwr i) s = .next (tag (sent 3 cmd) [entryKey (fld i.w0 46 2) (fld i.w0 42 4)]
        { mode := 0, int := (tileOf t (fld i.w0 46 2) (fld i.w0 42 4)).int, rows := 64, cols := 64 })) ∧
    (Issues { maj := 7, min := 0x00 } i s → epiFault (ctxOf i s) p = none → (cmdsOf t 4).length < 12 →
      exec (.epi i) s = .next (sent 4 { cmd with tile := some (tileOf t (fld i.w0 42 2) (fld i.w0 44 4)) }))) ∧
  (∀ (i : Issue) (s : State),
    let p := past i s
    let t := terrace p i.tg.val
    let aper := fld ((ctxOf i s).t.sreg (fld i.w0 39 5 + 1)) 32 16
    let aud := decide (aper ≠ 0 ∧ (t.auditRuns + 1) % aper = 0)
    let sent (aud : Bool) : Terrace := { setCmds t 6 (cmdsOf t 6 ++
      [{ thr := i.thr.val, w0 := i.w0, w1 := i.w1, th := (ctxOf i s).t, seq := t.seqno, aud }]) with seqno := t.seqno + 1 }
    (Issues { maj := 0x0B, min := 0x00 } i s → fld i.w0 0 27 = 0 → fld i.w0 39 1 = 0 → runFault (ctxOf i s) p = none →
      (cmdsOf t 6).length < 12 → exec (.hgpRun i) s = .next (updThread (setTerrace p i.tg.val
        { sent aud with auditRuns := if aper = 0 then t.auditRuns else t.auditRuns + 1 }) i.tg.val i.thr.val
          (fun x => x.setP (fld i.w0 27 3) aud))) ∧
    (Issues { maj := 0x0B, min := 0x02 } i s → fld i.w0 0 30 = 0 → fld i.w0 34 9 = 0 → fld i.w0 43 1 = 0 →
      auditFault (ctxOf i s) p = none → (cmdsOf t 6).length < 12 → exec (.hgpAudit i) s = .next (updThread (setTerrace p i.tg.val (sent false))
        i.tg.val i.thr.val (fun x => { x with st := .blocked (.audit (fld i.w0 43 5) none) }))))

/-- FLM.ATTN and FLM.MERGE take the one context that their terrace has on its Flume lane; while it holds an instruction, or the lane has
failed, they are passed over (R238, R240). -/
def Obligations.FlumeInstructionsForwarded : Prop :=
  ∀ e ∈ ([(.flmAttn, 0x00, attnFault, [(0, 3)], true), (.flmMerge, 0x01, mergeFault, [(0, 7), (11, 16), (43, 5)], false)] :
      List ((Issue → Instr) × Nat × (Ctx → State → Option Nat) × List (Nat × Nat) × Bool)), ∀ (i : Issue) (s : State),
    Issues { maj := 9, min := e.2.1 } i s → zeroFields i.w0 e.2.2.2.1 = true → e.2.2.1 (ctxOf i s) (past i s) = none →
    let l := laneAt s (laneOf s i.tg.val)
    let x : FCtx := { tg := i.tg.val, cmd := { thr := i.thr.val, w0 := i.w0, w1 := i.w1, th := (ctxOf i s).t }, isAttn := e.2.2.2.2 }
    (l.failed = false → (∀ y ∈ l.ctxs, y.tg ≠ i.tg.val) →
      ∃ t l', exec (e.1 i) s = .next t ∧ t = { past i s with lanes := mset s.lanes (laneOf s i.tg.val) l' } ∧
        (∀ y, y ∈ l'.ctxs ↔ y = x ∨ y ∈ l.ctxs) ∧ l' = { l with ctxs := l'.ctxs, running := l'.running, used := l'.used } ∧
        (l.ctxs ≠ [] → l'.running = l.running ∧ l'.used = l.used) ∧ (l.ctxs = [] → l'.running = i.tg.val ∧ l'.used = 0)) ∧
    (l.failed = true ∨ (∃ y ∈ l.ctxs, y.tg = i.tg.val) → exec (e.1 i) s = .next (held i s))

/-- CFL.RQ.CUT starts a cut job of its item when the previous one is exhausted, and else Blocks its thread until it is; CFL.RQ.TAKE Blocks
its thread until the home Saddle answers (R176, R370).
A take is served at the home Saddle: the record at the head of its own queue goes to sN to sN+3 and the predicate is set; with an empty
queue, and unless assignment is deterministic, it steals the last record of another queue of the span; when none has any, sN says whether
the job is exhausted and the predicate is cleared (R180 to R182). A queue grants one removal a cycle, its owner's unless a thief's wait counter has
reached W, and then that of the thief with the largest count; a loser's counter goes up and its scan goes on at the next queue (R181, R347). -/
def Obligations.ReachInstructions : Prop :=
  (∀ (i : Issue) (s : State) (k : Nat) (r : Run), runOfT (past i s) i.tg.val = some (k, r) →
    let d := (ctxOf i s).t.dreg (fld i.w0 44 4)
    let ctl := (ctxOf i s).t.sreg (fld i.w0 38 5)
    let job : CutJob := { desc := d, budget := if fld ctl 0 32 = 0 then 4096 else fld ctl 0 32, rgrp := fld ctl 32 16 + 1, begun := false
                          row := 0, last := 0, seg := 0, seq := 0, chain := 0, job := r.jobs % 256, done := false, tg := i.tg.val
                          thr := i.thr.val, pc := (ctxOf i s).pc, accs := [] }
    (Issues { maj := 5, min := 0x10 } i s → fld i.w0 0 38 = 0 → fld i.w0 43 1 = 0 → cutFault (ctxOf i s) (past i s) = none →
      (jobExhausted (past i s) r = true →
        exec (.cflRqCut i) s = .next { past i s with runs := mset (past i s).runs k { r with cut := some job, jobs := r.jobs + 1 } }) ∧
      (jobExhausted (past i s) r = false → exec (.cflRqCut i) s =
        .next (updThread (past i s) i.tg.val i.thr.val (fun t => { t with st := .blocked (.cut d ctl (ctxOf i s).pc) })))) ∧
    (Issues { maj := 5, min := 0x11 } i s → fld i.w0 0 38 = 0 → fld i.w0 43 2 = 0 → fld i.w0 38 5 % 4 = 0 → exec (.cflRqTake i) s =
      .next (updThread (past i s) i.tg.val i.thr.val (fun t => { t with st := .blocked (.take (fld i.w0 38 5) (fld i.w0 45 3) []) })))) ∧
  (∀ (tg : Fin 64) (thr : Fin 16) (s : State) (sd pd k : Nat) (lost : List Nat) (r : Run),
    (thread s tg.val thr.val).st = .blocked (.take sd pd lost) → runOfT s tg.val = some (k, r) → tg.val ∈ r.tgs →
    let det := r.det
    let ended := r.cut = none ∨ ∃ j, r.cut = some j ∧ j.done = true
    let count (v x : Nat) : Nat := mget (terrace s v).rqWait x 0
    let counted (u : State) (o : Nat) : State := satAdd u (tBase tg.val + 0x122C) 0 o 16 1
    let gets (u : State) (w : List W64) : State := updThread u tg.val thr.val (fun t =>
      { (w.zipIdx.foldl (fun t x => t.setS (sd + x.2) x.1) t).setP pd true with st := .ready })
    let lacks (code : W64) : State := updThread s tg.val thr.val (fun t => { (t.setS sd code).setP pd false with st := .ready })
    let lose (u : State) (v x : Nat) : State := loseTake u r v x
    let losers (v : Nat) : State := ((takers s r v).filter (fun x => x ≠ tg.val)).foldl (fun u x => lose u v x) s
    let open' (v : Nat) : Prop := (terrace s v).reachQ ≠ [] ∧ v ∉ lost
    let next (v : Nat) : Prop := takeAt s r tg.val lost = some v
    (takeAt s r tg.val lost = none ↔ ∀ v ∈ takeOrder s r tg.val, ¬ open' v) ∧
    (∀ v, next v → v ∈ takeOrder s r tg.val ∧ open' v) ∧
    (open' tg.val → next tg.val) ∧
    (∀ v ∈ takeOrder s r tg.val, v = tg.val ∨ (det = false ∧ v ∈ r.tgs ∧ (terrace s v).reachClosed = false)) ∧
    (takeAt s r tg.val lost = none →
      (ended → (terrace s tg.val).reachQ = [] → (det = true ∨ ∀ x ∈ r.tgs, (terrace s x).reachQ = []) →
        exec (.threadUnblock tg thr) s = .next (lacks 1)) ∧
      (¬ ended ∨ (terrace s tg.val).reachQ ≠ [] ∨ (det = false ∧ ∃ x ∈ r.tgs, (terrace s x).reachQ ≠ []) →
        exec (.threadUnblock tg thr) s = .next (lacks 0))) ∧
    (∀ v, next v →
      (takeWinner s r v = some tg.val → v = tg.val → ∀ q rest, (terrace (losers v) v).reachQ = q :: rest →
        exec (.threadUnblock tg thr) s = .next (gets (counted (updTerrace (losers v) v (fun t => { t with reachQ := rest })) 0) q.w)) ∧
      (takeWinner s r v = some tg.val → v ≠ tg.val → ∀ l q, (terrace (losers v) v).reachQ = l ++ [q] →
        let taken := updTerrace (losers v) v (fun t => { t with reachQ := l, rqWait := mdel t.rqWait tg.val })
        exec (.threadUnblock tg thr) s = .next (gets (counted (satAdd taken (sBase (saddleOf v) + 0x40088) 0 0 32 1) 16) q.w)) ∧
      (takeWinner s r v ≠ some tg.val → exec (.threadUnblock tg thr) s = .next (lose s v tg.val) ∧
        (thread (lose s v tg.val) tg.val thr.val).st = .blocked (.take sd pd (v :: lost)) ∧
        (v ≠ tg.val → mget (terrace (lose s v tg.val) v).rqWait tg.val 0 = count v tg.val + 1))) ∧
    (∀ v, (∀ x, (terrace (losers v) x).reachQ = (terrace s x).reachQ ∧ (terrace (lose s v tg.val) x).reachQ = (terrace s x).reachQ)) ∧
    (∀ v, let w := rqW s (saddleOf v)
      (v ∈ takers s r v → (∀ x ∈ takers s r v, x ≠ v → count v x < w) → takeWinner s r v = some v) ∧
      ((∃ x ∈ takers s r v, x ≠ v ∧ w ≤ count v x) → ∃ x ∈ takers s r v, takeWinner s r v = some x ∧ x ≠ v ∧ w ≤ count v x ∧
        ∀ y ∈ takers s r v, y ≠ v → count v y ≤ count v x)))

/-! ## Lateral queues and handles (R101, R108 to R120, R378) -/

/-- A queue is first in, first out: a push adds at the end and the handle is Queued, a pop takes the oldest, which is Held; the other
queues stay.
LAT.PUSH spends a crossing credit (R116): without one it is passed over. With one, it puts its handle in the queue and idles its register
while the queue holds a space token and no push to it waits, or Blocks behind the pushes that wait (R117); the NB form never Blocks, and clears
its predicate instead. LAT.POP takes the oldest handle, or Blocks on an empty queue; its NB form writes the idle handle and clears its
predicate. -/
def Obligations.LateralQueues : Prop :=
  (∀ (t : Terrace) (q : Nat) (h : BitVec 16),
    (lqOf (pushQ t q h) q).entries = (lqOf t q).entries ++ [h] ∧ handleState (pushQ t q h) h = some .queued ∧
    (∀ k, k ≠ q → lqOf (pushQ t q h) k = lqOf t k) ∧
    (popQ t q = none ↔ (lqOf t q).entries = []) ∧
    ∀ v t', popQ t q = some (v, t') → (lqOf t q).entries = v :: (lqOf t' q).entries ∧ handleState t' v = some .held ∧
      ∀ k, k ≠ q → lqOf t' k = lqOf t k) ∧
  (∀ (i : Issue) (s : State),
    let h := fld i.w0 44 4
    let q := fld i.w0 40 4
    let pd := fld i.w0 36 3
    let v := (ctxOf i s).t.hreg h
    let p := past i s
    let t := terrace p i.tg.val
    let credit := (lqOf t q).cons = 0 ∨ (cmdsOf t (lqOf t q).cons).length < 12
    let room := (lqOf t q).entries.length + (lqOf t q).back < 32 ∧ pushWaiters t q = []
    let thread (s : State) (f : Thread → Thread) : State := updThread s i.tg.val i.thr.val f
    let pushed := updTerrace p i.tg.val (fun t => pushQ t q v)
    let stays := held i s
    (handleOk t v = true → produces t 0 q = true →
      (Issues { maj := 12, min := 0x00, lo := 39, len := 1, val := 0 } i s → fld i.w0 0 39 = 0 →
        (¬ credit → exec (.latPush i) s = .next stays) ∧
        (credit → room → exec (.latPush i) s = .next (thread pushed (fun t => t.setH h 0xFFFF#16))) ∧
        (credit → ¬ room → exec (.latPush i) s = .next (thread (updTerrace p i.tg.val (fun t => { t with seqno := t.seqno + 1 }))
          (fun x => { x with st := .blocked (.push h q v t.seqno) })))) ∧
      (Issues { maj := 12, min := 0x00, lo := 39, len := 1, val := 1 } i s → fld i.w0 0 36 = 0 →
        (¬ credit → exec (.latPushNb i) s = .next stays) ∧
        (credit → room → exec (.latPushNb i) s = .next (thread (thread pushed (fun t => t.setH h 0xFFFF#16)) (fun t => t.setP pd true))) ∧
        (credit → ¬ room → exec (.latPushNb i) s = .next (thread p (fun t => t.setP pd false))))) ∧
    (consumes t 0 q = true →
      (Issues { maj := 12, min := 0x01, lo := 39, len := 1, val := 0 } i s → fld i.w0 0 39 = 0 →
        (∀ x t', popQ t q = some (x, t') → exec (.latPop i) s = .next (thread (setTerrace p i.tg.val t') (fun t => t.setH h x))) ∧
        (popQ t q = none → exec (.latPop i) s =
          .next (thread (boundMiss p i.tg.val q) (fun t => { t with st := .blocked (.pop h q) })))) ∧
      (Issues { maj := 12, min := 0x01, lo := 39, len := 1, val := 1 } i s → fld i.w0 0 36 = 0 →
        (∀ x t', popQ t q = some (x, t') → exec (.latPopNb i) s =
          .next (thread (thread (setTerrace p i.tg.val t') (fun t => t.setH h x)) (fun t => t.setP pd true))) ∧
        (popQ t q = none → exec (.latPopNb i) s =
          .next (thread (boundMiss p i.tg.val q) (fun t => (t.setH h 0xFFFF#16).setP pd false))))))

/-- LAT.ALLOC sends a request over the crossing to the Sluice, without a credit of which it is passed over, and Blocks its thread until a contest of the
pool has answered it (R105, R118); LAT.FREE idles its register, and a Held or Queued handle is
then Returning to its pool. -/
def Obligations.HandleAllocationAndFree : Prop :=
  ∀ (i : Issue) (s : State),
    let h := fld i.w0 44 4
    let p := past i s
    let t := terrace p i.tg.val
    let v := (ctxOf i s).t.hreg h
    (Issues { maj := 12, min := 0x02 } i s → fld i.w0 0 34 = 0 → fld i.w0 39 5 = 0 → fld i.w0 34 2 < 3 → (poolOf t (fld i.w0 34 2)).valid = true →
      ((cmdsOf t 1).length < 12 →
        exec (.latAlloc i) s = .next (updThread (updTerrace p i.tg.val (fun t => { t with seqno := t.seqno + 1 })) i.tg.val i.thr.val
          (fun x => { x with st := .blocked (.alloc h (fld i.w0 36 3) (fld i.w0 34 2) t.seqno none) }))) ∧
      (12 ≤ (cmdsOf t 1).length → exec (.latAlloc i) s = .next (held i s))) ∧
    (Issues { maj := 12, min := 0x03 } i s → fld i.w0 0 44 = 0 → handleOk t v = true →
      (handleState t v = some .held ∨ handleState t v = some .queued) →
      ∃ t', exec (.latFree i) s = .next t' ∧ handleState (terrace t' i.tg.val) v = some .returning ∧
        thread t' i.tg.val i.thr.val = (stepped i s).setH h 0xFFFF#16 ∧ t' = { p with terraces := t'.terraces } ∧
        (∀ k, k ≠ i.tg.val → terrace t' k = terrace p k) ∧
        ∀ u : BitVec 16, hMem u ≠ hMem v ∨ hIdx u ≠ hIdx v → handleState (terrace t' i.tg.val) u = handleState t u)

/-- With one thread waiting for a pool and no unit, a contest gives it the Free handle of lowest index, which is then Held, or the idle
handle when the pool has none; every other handle, thread and terrace stays (R118 to R120).
A Returning handle reaches its pool and is Free; the event does nothing to a handle in another state. A coalescing timeout sends the partial
packet of its context (R110, R132). -/
def Obligations.HandlesComeAndGo : Prop :=
  (∀ (tg : Fin 64) (pool : Fin 3) (s : State) (n thr h pd i : Nat),
    let t := terrace s tg.val
    let p := poolOf t pool.val
    let gets (u : State) (v : BitVec 16) : Prop := exec (.handleContest tg pool) s = .next u ∧
      (thread u tg.val thr).st = .blocked (.alloc h pd pool.val n (some v)) ∧ u = { s with terraces := u.terraces } ∧
      (∀ k, k ≠ thr → thread u tg.val k = thread s tg.val k) ∧ ∀ k, k ≠ tg.val → terrace u k = terrace s k
    t.execs = [] → allocWaiters t pool.val = [(n, thr)] → (thread s tg.val thr).st = .blocked (.alloc h pd pool.val n none) →
    (p.used.length < p.count → i < p.count → i < 2 ^ 14 → mget? p.used i = none → (∀ j, j < i → mhas p.used j = true) →
      ∃ u, gets u (mkHandle pool.val i) ∧ handleState (terrace u tg.val) (mkHandle pool.val i) = some .held ∧
        ∀ x : BitVec 16, hMem x ≠ pool.val ∨ hIdx x ≠ i → handleState (terrace u tg.val) x = handleState t x) ∧
    (p.count ≤ p.used.length → ∃ u, gets u 0xFFFF#16 ∧ ∀ x : BitVec 16, handleState (terrace u tg.val) x = handleState t x)) ∧
  ((∀ (tg : Fin 64) (pool : Fin 3) (i : Nat) (s : State),
    let p := poolOf (terrace s tg.val) pool.val
    (mget? p.used i = some .returning → exec (.handleReturn tg pool i) s =
      .next (setTerrace s tg.val (setPool (terrace s tg.val) pool.val { p with used := mdel p.used i }))) ∧
    (mget? p.used i ≠ some .returning → exec (.handleReturn tg pool i) s = .next s)) ∧
  (∀ (tg : Fin 64) (c : Fin 18) (s : State), exec (.coalesceTimeout tg c) s =
    .next (updTerrace s tg.val (fun t => { t with partialPk := mdel t.partialPk c.val }))))

/-- A transfer: when its last source byte has been read, LS of the sender is signalled, unless a route fence holds the pair, it
has no route, or its packets find no credits. Transfers of one die to another arrive in the order sent. At the peer one is dropped when the item no longer runs there, raises a handle fault when pool or queue does not
fit, and else draws a region of its pool (R23, R24, R26, R102, R207, R208, R379). -/
def Obligations.LateralTransfers : Prop :=
  ∀ (src dst : Fin 64) (s : State) (x : Xfer) (pre post : List Xfer), s.lats = pre ++ x :: post →
    let counted (u : State) (g o : Nat) : State := if x.rot then satAdd u (tBase g + o) 0 0 32 (x.img.bytes.length / 64) else u
    let sent : State := { s with lats := pre ++ post ++ [{ x with sent := true }] }
    let next (y : Xfer) : Prop := y.sent = true ∧ terraceDie y.src = terraceDie src.val ∧ terraceDie y.dst = terraceDie dst.val ∧
      (y.dst = dst.val ∨ mhas (terrace s y.dst).execs 24 = false)
    let gone := fenceArrivals { s with lats := pre ++ post }
    let may := mayInject s (terraceDie src.val) (terraceDie x.dst) CanalKind.lateral.vc x.flits
    (x.src = src.val → x.sent = false → (∀ y ∈ pre, y.src ≠ src.val ∨ y.sent = true) →
      (may = false → exec (.lateralSendDone src) s = .next s) ∧
      (may = true → sameItem sent src.val x = true → exec (.lateralSendDone src) s =
        .next (updTerrace (counted sent src.val 0x1324) src.val
          (fun t => { t with sema := mset t.sema x.ls (mget t.sema x.ls 0 + 1) }))) ∧
      (may = true → sameItem sent src.val x = false →
        exec (.lateralSendDone src) s = .next sent)) ∧
    (next x → (∀ y ∈ pre, ¬ next y) →
      let p := poolOf (terrace s dst.val) x.pool
      let fits := p.valid = true ∧ x.img.bytes.length ≤ p.size ∧ produces (terrace s dst.val) 1 x.q = true
      ((x.src ≠ src.val ∨ x.dst ≠ dst.val) → exec (.lateralReceipt src dst) s = .next s) ∧
      (x.src = src.val → x.dst = dst.val →
        (sameItem s dst.val x = false → exec (.lateralReceipt src dst) s = .next gone) ∧
        (sameItem s dst.val x = true → ¬ fits → exec (.lateralReceipt src dst) s = .next (itemFault gone dst.val x.thr x.pc 0x04)) ∧
        (sameItem s dst.val x = true → fits → mhas (terrace s dst.val).execs 24 = true → exec (.lateralReceipt src dst) s = .next s) ∧
        (sameItem s dst.val x = true → fits → mhas (terrace s dst.val).execs 24 = false → exec (.lateralReceipt src dst) s =
          .next (updTerrace (counted gone dst.val 0x1328) dst.val (fun t => setExec t 24
            { cmd := { thr := 16, w0 := 0, w1 := 0, th := {} }, outs := [x.img], outQ := x.q, pool := x.pool, ready := true })))))

/-! ## The Cistern (R256 to R277, R376) -/

/-- An operation goes to the agent that serves the allotment's control block, which is not being scanned; its thread is Blocked until it has
the status. The agent performs it at once and answers its code, or keeps it among the waiting operations, with a note of the swap-outs
begun for it (R270, R273); where a page of the control block or its
areas cannot be reached, nothing is done, the fault is recorded and the code is 4 (the model's reading, log 29).
CIS.APPEND sends the region of its handle to the agent as the other operations go, and with REL frees the handle (R265).
The codes a Cistern operation answers before it does anything: 4 for a sequence, for FORK a parent, and for OPEN a pool that the control block
does not have; 3 for a state the operation does not take or a sequence another item holds; 1 for an OPEN or FORK that the item has made
already, which hold the sequence again unless another running item holds it. -/
def Obligations.CisternOperations : Prop :=
  (∀ e ∈ ([(.cisOpen, 0, [(0, 21), (25, 10)], cisOpen), (.cisFork, 1, [(0, 25)], cisFork), (.cisHold, 2, [(0, 35)], cisHold),
      (.cisRelease, 3, [(0, 35)], cisRelease), (.cisTrim, 5, [(0, 30)], cisTrim), (.cisClose, 6, [(0, 35)], cisClose),
      (.cisQuery, 7, [(0, 35)], fun c s o => .done (if c.nseq ≤ (o.cmd.th.sreg (fld o.cmd.w0 35 5)).toNat then 4 else 0) s)] :
      List ((Issue → Instr) × Nat × List (Nat × Nat) × (Cb → State → CisOp → CisAns))),
  ∀ (i : Issue) (s : State) (k : Nat) (r : Run) (n : Nat) (c : Cb),
    Issues { maj := 0x0A, min := e.2.1 } i s → zeroFields i.w0 e.2.2.1 = true → runOfT (past i s) i.tg.val = some (k, r) →
    let waiting := updThread (past i s) i.tg.val i.thr.val (fun t => { t with st := .blocked (.cis (fld i.w0 43 5) (fld i.w0 40 3) none) })
    let s' := updSaddle waiting n (fun d => { d with cisOps := d.cisOps + 1 })
    let o : CisOp := { tg := i.tg.val, cmd := { thr := i.thr.val, w0 := i.w0, w1 := 0, th := (ctxOf i s).t }, tag := r.tag, allot := r.allot
                       img := {}, replay := false }
    cisAgent (past i s) r.allot = some n → cbOf s' r.allot = some c → (saddle s' c.n).cisScan.contains r.allot = false →
    (∀ x, c.bad s' = some x → exec (e.1 i) s = .next (cisAnswer (cisFaulted s' (slotOf s' i.tg.val) c.al c.n x) o 4)) ∧
    (c.bad s' = none → ∀ code u, e.2.2.2 c s' o = .done code u → exec (e.1 i) s = .next (cisAnswer u o code)) ∧
    (c.bad s' = none → ∀ o' u, e.2.2.2 c s' o = .wait o' u →
      exec (e.1 i) s = .next (updSaddle (noteOuts c s' u o) n (fun d => { d with cisWait := d.cisWait ++ [o'] })))) ∧
  (∀ (i : Issue) (s : State) (k : Nat) (r : Run) (n : Nat) (c : Cb),
    Issues { maj := 0x0A, min := 0x04 } i s → fld i.w0 0 16 = 0 → fld i.w0 21 4 = 0 → runOfT (past i s) i.tg.val = some (k, r) →
    let h := (ctxOf i s).t.hreg (fld i.w0 17 4)
    let waiting := updThread (past i s) i.tg.val i.thr.val (fun t => { t with st := .blocked (.cis (fld i.w0 43 5) (fld i.w0 40 3) none) })
    let s' := updSaddle waiting n (fun d => { d with cisOps := d.cisOps + 1 })
    let o : CisOp := { tg := i.tg.val, cmd := { thr := i.thr.val, w0 := i.w0, w1 := 0, th := (ctxOf i s).t }, tag := r.tag, allot := r.allot
                       img := imgOf (regionBytes (past i s) i.tg.val h), replay := false }
    let freed (u : State) : State := if bit i.w0 16 then freeHandle u i.tg.val i.thr.val (ctxOf i s).pc h else u
    handleOk (terrace (past i s) i.tg.val) h = true → cisAgent (past i s) r.allot = some n → cbOf s' r.allot = some c →
    (saddle s' c.n).cisScan.contains r.allot = false → c.bad s' = none →
    (∀ code u, cisAppend c s' o = .done code u → exec (.cisAppend i) s = .next (freed (cisAnswer u o code))) ∧
    (∀ o' u, cisAppend c s' o = .wait o' u → exec (.cisAppend i) s = .next (freed (updSaddle (noteOuts c s' u o) n (fun d => { d with cisWait := d.cisWait ++ [o'] }))))) ∧
  (∀ (c : Cb) (s : State) (o : CisOp),
    let q := (o.cmd.th.sreg (fld o.cmd.w0 35 5)).toNat
    let x := c.seq s q
    let par := (o.cmd.th.sreg (fld o.cmd.w0 30 5)).toNat
    let other := x.holder ≠ 0 ∧ x.holder ≠ o.tag ∧ tagRuns s c.al x.holder = true
    let held := c.setSeq s q { x with holder := o.tag, lastUse := (saddle s c.n).cisOps }
    let replay (a : CisAns) : Prop := (other → a = .done 1 s) ∧ (¬ other → a = .done 1 held)
    (c.nseq ≤ q → cisOpen c s o = .done 4 s ∧ cisFork c s o = .done 4 s ∧ cisHold c s o = .done 4 s ∧ cisRelease c s o = .done 4 s ∧
      cisAppend c s o = .done 4 s ∧ cisTrim c s o = .done 4 s ∧ cisClose c s o = .done 4 s) ∧
    (c.pools.length ≤ fld o.cmd.w0 21 4 → cisOpen c s o = .done 4 s) ∧ (c.nseq ≤ par → cisFork c s o = .done 4 s) ∧
    (q < c.nseq → par < c.nseq →
      (x.state = 1 → x.tag = o.tag → replay (cisFork c s o)) ∧
      (x.state ≠ 0 → (x.state = 1 → x.tag ≠ o.tag) → cisFork c s o = .done 3 s) ∧
      (x.state = 0 → (c.seq s par).state ≠ 1 → cisFork c s o = .done 3 s)) ∧
    (q < c.nseq →
      (fld o.cmd.w0 21 4 < c.pools.length → x.state = 1 → x.tag = o.tag → replay (cisOpen c s o)) ∧
      (fld o.cmd.w0 21 4 < c.pools.length → x.state ≠ 0 → (x.state = 1 → x.tag ≠ o.tag) → cisOpen c s o = .done 3 s) ∧
      (other → cisHold c s o = .done 3 s ∧ (x.state ≠ 0 → cisClose c s o = .done 3 s)) ∧
      (x.state = 1 → ¬ other → cisHold c s o = .done 0 held) ∧
      (x.state ≠ 1 ∨ x.holder ≠ o.tag → cisTrim c s o = .done 3 s) ∧
      (x.state = 0 → cisClose c s o = .done 0 s) ∧
      cisRelease c s o = .done 0 (c.setSeq s q { x with holder := 0 })))

/-! ## Events of a terrace (04 R82, 05 R104, 06 R155 to R161) -/

/-- A Blocked thread goes on when what it waits for holds, with the effect of the instruction that waited, and stays as it is until then; a
thread that is not Blocked stays (Table 04-2, R353).
A thread Blocked on a lateral queue pops the oldest handle as soon as there is one, or pushes its own as soon as there is a token and a
credit and no thread issued its push to the queue before it (R101, R105, R116, R117). One Blocked on a load gets its register once translation and
data are there, and raises SCALAR when they fault or are poisoned (R324, R353, R360). -/
def Obligations.BlockedThreadsGoOn : Prop :=
  (∀ (tg : Fin 64) (thr : Fin 16) (s : State),
    let st := (thread s tg.val thr.val).st
    let goes (u : State) (f : Thread → Thread) : Prop :=
      exec (.threadUnblock tg thr) s = .next (updThread u tg.val thr.val (fun t => { f t with st := .ready }))
    let stays : Prop := exec (.threadUnblock tg thr) s = .next s
    ((∀ w, st ≠ .blocked w) → stays) ∧
    (∀ sp k v, st = .blocked (.sem sp k v) →
      (0 ≤ (semGet s tg.val sp k - v).toInt → goes s id) ∧ ((semGet s tg.val sp k - v).toInt < 0 → stays)) ∧
    (∀ c, st = .blocked (.fence c) → (quiet s tg.val thr.val c = true → goes s id) ∧ (quiet s tg.val thr.val c = false → stays)) ∧
    (∀ h pd pool n, (∀ v, st = .blocked (.alloc h pd pool n (some v)) → goes s (fun t => (t.setH h v).setP pd (decide (v ≠ 0xFFFF#16)))) ∧
      (st = .blocked (.alloc h pd pool n none) → stays)) ∧
    (∀ sd pd, (∀ v, st = .blocked (.cis sd pd (some v)) → goes s (fun t => (t.setS sd v).setP pd (decide (fld v 0 8 ≤ 1)))) ∧
      (st = .blocked (.cis sd pd none) → stays)) ∧
    (∀ sd, (∀ x y, st = .blocked (.audit sd (some (x, y))) → goes s (fun t => (t.setS sd x).setS (sd + 1) y)) ∧
      (st = .blocked (.audit sd none) → stays)) ∧
    (∀ d ctl pc k r, st = .blocked (.cut d ctl pc) → runOfT s tg.val = some (k, r) →
      (jobExhausted s r = true → goes (startCut s k tg.val thr.val pc d ctl) id) ∧ (jobExhausted s r = false → stays))) ∧
  (∀ (tg : Fin 64) (thr : Fin 16) (s : State) (w0 : W64) (pc n : Nat), (thread s tg.val thr.val).st = .blocked (.load w0 pc) →
    n = (if wMaj w0 = 2 then 2 ^ fld w0 36 2 else 32) →
    let g := tg.val
    let th := thread s g thr.val
    let space := fld w0 32 3
    let a := (th.sreg (fld w0 38 5) + BitVec.ofInt 64 (sfld w0 0 32)).toNat % 2 ^ 52
    let al := allotOf s g
    let r := spRead s g al space a n
    let noted := noteAccs s (.terrace g) (slotOf s g) al r.accs
    let value (t : Thread) : Thread :=
      if wMaj w0 = 2 then t.setS (fld w0 43 5) (if bit w0 35 then BitVec.ofInt 64 (sint (8 * n) (leNat (r.data.map (·.1))))
        else BitVec.ofNat 64 (leNat (r.data.map (·.1))))
      else t.setD (fld w0 44 4) (BitVec.ofNat 256 (leNat (r.data.map (·.1))))
    let stopped := space = 0 ∧ terraceFenced s g = true
    let answers (u : State) : Prop := exec (.threadUnblock tg thr) s = .next u
    (stopped → answers s) ∧
    (¬ stopped → atsMissing r.accs ≠ [] → answers (tagThread (updThread (atsAsk s (.terrace g) al (atsMissing r.accs)) g thr.val
      (fun t => { t with st := .blocked (.load w0 pc) })) g thr.val)) ∧
    (¬ stopped → atsMissing r.accs = [] → (∃ b ∈ r.data, b.2 = true) →
      answers (itemFault (logStream noted (slotOf noted g) al g r.accs) g thr.val pc 0x07)) ∧
    (¬ stopped → (∀ b ∈ r.data, b.2 = false) → 0 < n →
      ∃ u, CacheOnly s u ∧ answers (updThread u g thr.val (fun t => { value t with st := .ready })))) ∧
  (∀ (tg : Fin 64) (thr : Fin 16) (s : State) (h q : Nat),
    let t := terrace s tg.val
    let st := (thread s tg.val thr.val).st
    let goes (u : State) (v : BitVec 16) : Prop := exec (.threadUnblock tg thr) s = .next (pump
      (updThread u tg.val thr.val (fun t => { t.setH h v with st := .ready })) tg.val)
    (st = .blocked (.pop h q) →
      (∀ v t', popQ t q = some (v, t') → goes (setTerrace s tg.val t') v) ∧
      (popQ t q = none → exec (.threadUnblock tg thr) s = .next s)) ∧
    (∀ v n, st = .blocked (.push h q v n) →
      let may := (lqOf t q).entries.length + (lqOf t q).back < 32 ∧ pushCredit t q = true ∧ ∀ m ∈ pushWaiters t q, n ≤ m
      (may → goes (updTerrace s tg.val (fun t => pushQ t q v)) 0xFFFF#16) ∧
      (¬ may → exec (.threadUnblock tg thr) s = .next s)))

/-- An island starts the command at the head of its queue, which leaves the queue, and the terrace's units then take what the queues hold; a
command that must wait stays at the head, and so does every command while a push of the island waits for a token, or while a route fence stops what
the island sends (R26). MMA.CFG needs no array: it
writes the run length and the tolerance of the check (R104, R117, R122, R123, R373).
A unit that has delivered everything records the translation faults of its stream, frees the handles its instruction releases and is free
again; until then the event does nothing. A drained stream ends the same way, with its partial packet (R104, R111, R161). -/
def Obligations.IslandsRunTheirInstructions : Prop :=
  (∀ (tg : Fin 64) (isl : Island) (errs : List BankErr) (s0 : State) (c : Cmd) (rest : List Cmd),
    let s := errs.foldl (fun s e => bankErr s tg.val e) s0
    let n := islCode isl
    let left (u : State) : State := updTerrace u tg.val (fun t => setCmds t n ((cmdsOf t n).filter (fun x => x.seq ≠ c.seq)))
    let r := startOn n s tg.val c
    let u := tagThread r.2 tg.val c.thr
    let stalled := (∃ e ∈ (terrace s tg.val).execs, unitIsl e.1 = n ∧ e.2.got ≠ none) ∨ (terraceFenced s tg.val = true ∧ n ≠ 2 ∧ n ≠ 3)
    let starts (u : State) : Prop := exec (.islandInstrStart tg { isl, errs }) s0 = .next u
    (cmdsOf (terrace s tg.val) n = [] → starts (pump s tg.val)) ∧
    (cmdsOf (terrace s tg.val) n = c :: rest →
      (stalled → starts (pump s tg.val)) ∧
      (¬ stalled → r.1 = true → starts (pump (left u) tg.val)) ∧
      (¬ stalled → r.1 = false → starts (noteMiss (noteFreeze (pump u tg.val) tg.val n c) tg.val n c)) ∧
      (isl = .a → (terrace s tg.val).execs = [] → wMin c.w0 = 1 →
        starts (updTerrace (left (tagThread (updTerrace s tg.val (fun t => { t with runLen := fld c.w0 42 6, tol := fld c.w0 26 16 })) tg.val c.thr))
          tg.val returnTokens)))) ∧
  (∀ (tg : Fin 64) (s : State) (e : Exec),
    let ended (u : State) : State := freeHandles (logUnit u tg.val e.accs) tg.val e.cmd.thr e.cmd.th.pc.toNat e.held
    (∀ v : Fin 8, mget? (terrace s tg.val).execs (16 + v.val) = some e →
      ((e.ready = true ∧ e.outs = [] ∧ e.got = none ∧ e.owed = []) → exec (.stageInstructionEnd tg v) s =
        .next (pump (ended (updTerrace (countEnd s tg.val (16 + v.val) e.cmd) tg.val (fun t => { delExec t (16 + v.val) with
          pins := mdel t.pins (16 + v.val)
          partialPk := if v.val = 5 ∨ v.val = 6 then mdel t.partialPk (11 + v.val) else t.partialPk
          replaying := if v.val = 4 then [] else t.replaying }))) tg.val)) ∧
      (e.ready = false ∨ e.outs ≠ [] ∨ e.got ≠ none ∨ e.owed ≠ [] → exec (.stageInstructionEnd tg v) s = .next s)) ∧
    (∀ v : Fin 16, mget? (terrace s tg.val).execs v.val = some e →
      ((e.ready = true ∧ e.outs = [] ∧ e.got = none ∧ e.owed = []) → exec (.streamDrained tg v) s =
        .next (ended (updTerrace s tg.val (fun t => { delExec t v.val with
          pins := mdel t.pins v.val, partialPk := mdel t.partialPk v.val })))) ∧
      (e.ready = false ∨ e.outs ≠ [] ∨ e.got ≠ none ∨ e.owed ≠ [] → exec (.streamDrained tg v) s = .next s)))

/-- A failed check of an array that an MMA uses is counted, and the run is replayed; failing again in the replay of that run, the array is
degraded, which is logged, and the fourth degraded array takes the terrace with it (R155 to R158). Whether a failure is one of the replay is told with the
command (the model's choice, log 74). -/
def Obligations.ArrayChecksReplayThenDegrade : Prop :=
  ∀ (tg : Fin 64) (check : ArrayCheck) (s : State) (e : Exec),
    let a := check.array.val
    let t := terrace s tg.val
    let counted := satAdd s (tBase tg.val + 0x1108) 0 (8 * a) 8 1
    let deg := setIns t.degraded a
    let degraded := intCause (rasAppend (updTerrace counted tg.val (fun t => { t with
      degraded := deg, replaying := t.replaying.filter (fun x => x ≠ a) })) 0x20 2 1 tg.val none (arrHealth deg + a * 2 ^ 32)) 4
    let again := check.again = true ∧ a ∈ t.replaying
    let checked := ∃ e, mget? t.execs 20 = some e ∧ wMin e.cmd.w0 = 0 ∧ ∃ l ∈ mmaArrays e.cmd, substitute t.degraded l = a
    (¬ checked → exec (.arrayCheckFail tg check) s = .next s) ∧
    (checked → ¬ again → exec (.arrayCheckFail tg check) s =
      .next (updTerrace counted tg.val (fun t => { t with replaying := setIns t.replaying a }))) ∧
    (checked → again → deg.length ≠ 4 → exec (.arrayCheckFail tg check) s = .next degraded) ∧
    (checked → again → deg.length = 4 → mget? t.execs 20 = some e → exec (.arrayCheckFail tg check) s =
      .next (fourthArray degraded tg.val e.cmd.thr e.cmd.th.pc.toNat))

/-! ## Items (01 R29 to R33, 11 R287 to R289, 14 R395, 15 R417, R418) -/

/-- When the last scrub of an item's span ends, its threads start: Ready at the entry, with s1 the arguments and s2 the thread's number.
A decision of the dispatcher: an item for which its allotment has no healthy terrace completes NORESOURCE; another gets its span among the
free terraces and goes to Running. Losers count up to 16, the winner starts again at 0 (R29, R30, R395). -/
def Obligations.ItemsStart : Prop :=
  (∀ (tg : Fin 64) (s : State) (k : Nat) (r : Run), (terrace s tg.val).scrub = true → s.runs = [(k, r)] → r.scrubbing = [tg.val] →
    r.started = false → r.stopped = false →
    ∃ u, exec (.scrubComplete tg) s = .next u ∧ u.runs = [(k, { r with scrubbing := [], started := true })] ∧
      (terrace u tg.val).scrub = false ∧ (∀ x, x ∉ r.tgs → x ≠ tg.val → terrace u x = terrace s x) ∧
      ∀ x ∈ r.tgs, ∀ n, n < r.threads →
        thread u x n = { st := .ready, pc := BitVec.ofNat 52 r.entry, s := [(1, r.args), (2, BitVec.ofNat 64 n)] }) ∧
  (∀ (pick : BitVec 64) (s : State) (q k : Nat) (x : Slot),
    let al := q / 64
    let rank := if 16 ≤ (que s q).wait then 0 else 1 + classRank (allotClass s al)
    let s1 := (candidates s).foldl (fun s e => updQue s e.1 (fun y => { y with wait := if e.1 = q then 0 else min 16 (y.wait + 1) })) s
    let s2 : State := { s1 with rr := mset s.rr rank q }
    let tgs := chooseTgs (openTerraces s al) (spanSize s al x) pick
    let s3 := tgs.foldl (fun s tg => updTerrace s tg (fun t => { t with slot := some k })) s2
    working s = true → pickItem s (candidates s) = some (q, k, x) →
    (spanSize s al x = 0 → exec (.dispatchDecision pick) s = .next (completeItem s2 k 5 0)) ∧
    (spanSize s al x ≠ 0 → exec (.dispatchDecision pick) s = .next (request
      { s3 with runs := mset s.runs k (newRun s x tgs), redivide := setIns s.redivide al
                skvReqs := s.skvReqs.map (fun r => if r.slot = some k then { r with dead := true } else r) }
      { slots := [(k, some { x with st := .running })], eff := .start k })))

/-- An item ends on a terrace when its threads have ended and its streams have drained there; its handles are Free, its queues empty and its islands
idle then. On the last terrace a faulted item completes FAULTED once its accesses have arrived; another waits for the one before it in its queue, enters
Committing, copies its ranges, writes its done word, and completes when all it wrote has arrived (R83, R99, R114, R417, R418). -/
def Obligations.ItemsFinishAndCommit : Prop :=
  (∀ (s : State) (tg : Nat), let t := terrace s tg
    terraceDone s tg = true ↔ (∀ e ∈ t.threads, e.2.live = false) ∧ contextsHeld t = 0 ∧ cmdsOf t 4 = [] ∧ cmdsOf t 5 = [] ∧
      mhas t.execs 21 = false ∧ mhas t.execs 22 = false) ∧
  (∀ (s : State) (k : Nat) (h : Bool),
    itemQuiet s k h = true ↔ (∀ d ∈ s.saddles, ∀ c ∈ d.2.vc2, c.slot ≠ some k) ∧ (∀ t ∈ s.terraces, t.2.slot = some k → t.2.stores = []) ∧
      (h = true → (∀ q ∈ s.skvReqs, q.slot ≠ some k) ∧
        (∀ e ∈ s.e2e, ∀ x ∈ e.2.held, x.pkt.ptype = 6 → x.origin.bind (·.slot) ≠ some k) ∧
        ∀ w ∈ s.skvWait, w.2.ptype = 6 → w.1.bind (·.slot) ≠ some k)) ∧
  (∀ (tg : Fin 64) (s : State) (k : Nat) (r : Run), runOfT s tg.val = some (k, r) → r.started = true → tg.val ∉ r.done →
    (terraceDone s tg.val = false ∨ (0 < r.sumps ∧ r.stopped = false) → exec (.itemFinish tg) s = .next s) ∧
    (terraceDone s tg.val = true → (r.sumps = 0 ∨ r.stopped = true) →
      let v := updRun s k (fun r => { r with done := setIns r.done tg.val })
      let u := updTerrace { v with lanes := v.lanes.map (fun e => (e.1, e.2.keep (fun x => x ≠ tg.val))) } tg.val (fun t => { stopTerrace t with
        stores := if r.stopped then [] else t.stores
        span := {}
        pools := t.pools.map (fun e => (e.1, { e.2 with used := [] }))
        lqs := t.lqs.map (fun e => (e.1, { e.2 with entries := [], back := 0 })) })
      ((r.parked = true ∨ ∃ x ∈ r.tgs, x ≠ tg.val ∧ x ∉ r.done) → exec (.itemFinish tg) s = .next u) ∧
      (r.parked = false → (∀ x ∈ r.tgs, x = tg.val ∨ x ∈ r.done) → exec (.itemFinish tg) s =
        .next (if r.stopped then endStopped u k else discardReaches u k)))) ∧
  (∀ (n : Fin 65536) (s : State) (r : Run) (x : Slot), working s = true → mget? s.runs n.val = some r → slotAt s n.val = some x →
    let ended := ∀ tg ∈ r.tgs, tg ∈ r.done
    let before := ∀ e ∈ slotsOfQ s x.q, e.2.seq + 1 = x.seq → e.2.over = true
    let bad (u : State) : Bool := match mget? u.runs n.val with
      | some y => decide (y.err ≠ 0 ∨ y.poison ≠ 0)
      | none => false
    let completes (u : State) : Prop :=
      exec (.commit n) s = .next (completeItem u n.val (if bad u = true ∨ x.replays ≠ 0 then 1 else 0) 0)
    let answers (u : State) : Prop := exec (.commit n) s = .next u
    (x.st ≠ .committing → r.stopped = true →
      (r.parked = false → ended → itemQuiet s n.val true = true → answers (completeItem s n.val 2 0)) ∧
      (r.parked = true ∨ ¬ ended ∨ itemQuiet s n.val true = false → answers s)) ∧
    (x.st = .running → r.started = true → r.stopped = false → ended → itemQuiet s n.val false = true → before →
      answers (request s { slots := [(n.val, some { x with st := .committing })], eff := .commitCopy n.val })) ∧
    (x.st = .running → r.stopped = false → (r.started = false ∨ ¬ ended ∨ ¬ before ∨ itemQuiet s n.val false = false) → answers s) ∧
    (x.st = .committing → r.copied = false → (∃ j ∈ s.jsteps, j.eff = .commitCopy n.val) → answers s) ∧
    (x.st = .committing → r.copied = false → (∀ j ∈ s.jsteps, j.eff ≠ .commitCopy n.val) →
      let c := r.commit.getD { done := 0, ranges := [] }
      let u := updRun (c.ranges.foldl (fun s e => copyRange s n.val r.allot e.1 e.2.1 e.2.2) s) n.val (fun r => { r with copied := true })
      (copyMissing s r.allot c ≠ [] → answers (atsAsk s (.agent 0 (some n.val)) r.allot (copyMissing s r.allot c))) ∧
      (copyMissing s r.allot c = [] → itemQuiet u n.val true = false → answers u) ∧
      (copyMissing s r.allot c = [] → itemQuiet u n.val true = true → answers (finishCommit u n.val x r))) ∧
    (x.st = .committing → r.copied = true → itemQuiet s n.val true = false → answers s) ∧
    (x.st = .committing → r.copied = true → itemQuiet s n.val true = true →
      let done := (r.commit.map (fun c => c.done)).getD 0
      let waits := writeWaits s (.agent 0) r.allot done 8
      let w := vWrite s (.agent 0 (some n.val)) r.allot done ((leBytes 8 (x.tag + 2 ^ 63)).map (fun (b : Byte) => ((b, false) : PByte)))
      (done = 0 → completes s) ∧
      (done ≠ 0 → waits ≠ [] → answers (atsAsk s (.agent 0 (some n.val)) r.allot waits)) ∧
      (done ≠ 0 → waits = [] → completes (logEngine w.1 n.val r.allot w.2))))

/-! ## The agents of a Saddle (07 R176 to R179, 09 R229 to R234, 10, 11 R306 to R310) -/

/-- The cutter places the next reach of a run's job in the home queue of the rank its number names, or of its chain under DET, while that
queue has fewer than 256; it first asks the host for the translations it lacks; a full queue is counted; a header it cannot use is a DESCRIPTOR fault of the issuing thread. -/
def Obligations.CutterPlacesReaches : Prop :=
  ∀ (slot : Fin 65536) (s : State) (r : Run) (j : CutJob), mget? s.runs slot.val = some r → r.cut = some j →
    let k := slot.val
    let n := saddleOf (r.tgs.getD 0 0)
    let waits (l : List Acc) : Prop := exec (.cutterPlace slot) s = .next (atsAsk s (.agent n (some k)) r.allot (atsMissing l))
    let x : Desc := { d := j.desc, aux := 0 }
    let hr := vRead s (.agent n) r.allot x.base 128
    let h := Header.ofBytes (hr.data.map (·.1))
    let (f, c) := rowRange x h
    let b : CutJob := if j.begun then j else { j with begun := true, row := f, last := f + c, accs := hr.accs }
    let (w, b') := nextReach s n r.allot x h b
    let tg := r.tgs.getD ((if r.det then b.chain else b.seq) % max 1 r.tgs.length) 0
    let p := ctrAdd (updTerrace (noteAccs s (.agent n) (some k) r.allot (b'.accs.drop b.accs.length)) tg
      (fun t => { t with reachQ := t.reachQ ++ [{ slot := k, w }] })) (sBase n + 0x40080) 1
    (j.done = true → exec (.cutterPlace slot) s = .next s) ∧
    (j.done = false → atsMissing hr.accs ≠ [] → waits hr.accs) ∧
    (j.done = false → atsMissing hr.accs = [] →
      (h.breaks x = true ∨ (∃ y ∈ hr.data, y.2 = true) → exec (.cutterPlace slot) s = .next (itemFault
        (logStream (noteAccs s (.agent n) (some k) r.allot hr.accs) (some k) r.allot (70 + n) hr.accs) j.tg j.thr j.pc 0x03)) ∧
      (h.breaks x = false → (∀ y ∈ hr.data, y.2 = false) →
        (b.last ≤ b.row → exec (.cutterPlace slot) s = .next (endCut s k n r.allot b)) ∧
        (b.row < b.last → atsMissing b'.accs ≠ [] → waits b'.accs) ∧
        (b.row < b.last → atsMissing b'.accs = [] →
          (256 ≤ (terrace s tg).reachQ.length → exec (.cutterPlace slot) s = .next (satAdd s (sBase n + 0x4008C) 0 0 32 1)) ∧
          ((terrace s tg).reachQ.length < 256 → exec (.cutterPlace slot) s = .next
            (if b'.last ≤ b'.row then endCut p k n r.allot b' else updRun p k (fun r => { r with cut := some b' }))))))

/-- The guard takes the contribution that arrived first, whose record and tile pass the Saddle's Reservoir. With no record of the item yet it
writes the tile and a record; it combines the contribution of an index that is not in the record's bitmap, and counts and drops one that is; a
packet that does not fit the record is a mismatch. With none arrived it waits (R231, R232, R234). -/
def Obligations.GuardApplies : Prop :=
  ∀ (sd : Fin 2) (s : State),
    ((∀ c ∈ (saddle s sd.val).vc2, c.sent = false) → exec (.guardApply sd) s = .next s) ∧
    (∀ (c : Contribution) (pre rest : List Contribution), (saddle s sd.val).vc2 = pre ++ c :: rest → (∀ y ∈ pre, y.sent = false) → c.sent = true →
      let v := updSaddle s sd.val (fun d => { d with vc2 := pre ++ rest })
      let old := dpaRead v c.record 64
      let r := GRec.ofBytes (old.map (·.1))
      let u := (saddlePass v (guardPath v c) c.record 64 false).2
      let ends (u : State) : Prop := exec (.guardApply sd) s = .next (fenceArrivals u)
      let counted (first : Bool) (v : State) : State :=
        (saddlePass (passTile (ctrAdd v (sBase sd.val + 0x50000) 1) c first) (guardPath v c) c.record 64 true).2
      ((∃ b ∈ old, b.2 = true) → ends (guardMismatch u sd.val c)) ∧
      ((∀ b ∈ old, b.2 = false) →
        (r.valid = false ∨ r.item ≠ c.tag → ends (counted true (writeGRec (writeTile u c) c
          { bitmap := 2 ^ c.ci, item := c.tag, n1 := c.n1, op := c.op, valid := true, fmt := c.fmt }))) ∧
        (r.valid = true → r.item = c.tag →
          (r.n1 ≠ c.n1 ∨ r.op ≠ c.op ∨ r.fmt ≠ c.fmt ∨ r.n1 < c.ci → ends (guardMismatch u sd.val c)) ∧
          (r.n1 = c.n1 → r.op = c.op → r.fmt = c.fmt → c.ci ≤ r.n1 →
            (r.bitmap.testBit c.ci = true → ends (satAdd u (sBase sd.val + 0x50008) 0 0 32 1)) ∧
            (r.bitmap.testBit c.ci = false →
              ends (counted false (writeGRec (combineTile u c) c { r with bitmap := r.bitmap + 2 ^ c.ci })))))))

/-- A contribution is combined at most once: a guard step changes no byte and no poison of any memory when the same contribution has been
through the guard just before it, whatever the record said then, and with a stack of the record's group Failed or the group Lost. -/
def Obligations.ContributionsCombineOnce : Prop :=
  ∀ (s : State) (n m : Nat) (c : Contribution), c.record % 64 = 0 → c.record + 64 ≤ hbmCap s.guarded → c.ci < 256 → c.n1 < 256 → c.op < 16 →
    c.fmt < 32 → c.tag < 2 ^ 48 →
    let u := guardStep s n c
    let v := guardStep u m c
    v.hbm = u.hbm ∧ v.hbmPoison = u.hbmPoison ∧ v.far = u.far ∧ v.host = u.host ∧ v.peer = u.peer

/-- A Sump unit pools the next bag of the job at the head of its queue and writes it, and fetches the rows ahead; a bag whose data must still be
translated by the host stays in its unit; a job whose bags are all written ends and adds 1 to its span semaphore (R305, R307 to R310). -/
def Obligations.SumpJobsPoolBagByBag : Prop :=
  ∀ (sd : Fin 2) (s : State) (j : SumpJob) (rest : List SumpJob), (saddle s sd.val).sump = j :: rest →
    let n := sd.val
    let r := SumpRec.ofBytes j.record
    let (g, b) := poolBag s n j r
    let es := g.acc.map (fun (a : W32 × Bool) => (encodeElem r.ofmt (if r.rmode = 1 then .rtz else .rne) r.sat (f32 a.1), a.2 || g.bad))
    let (w, wa) := vWrite s (.agent n (some j.slot)) j.allot (r.out + b * r.outStride) (packRow (ebits r.ofmt) (es.map (fun e => (e.1.code, e.2))))
    let met := agentNote w n j.slot j.allot (g.accs ++ wa)
    let noted := runPoison (setFlags (sumpPrefetch met n (j.next % 32) j.allot r (bagRange met n j r).1 (bagRange met n j r).2) (some j.slot)
      (es.any (fun e => e.1.ovf)) (g.inv || es.any (fun e => e.1.inv))) j.slot (es.filter (fun e => e.2)).length
    let waits (l : List Acc) : Prop := exec (.sumpBag sd) s = .next (atsAsk
      (updSaddle s n (fun d => { d with units := mset d.units (j.next % 32) b })) (.agent n (some j.slot)) j.allot (atsMissing l))
    (j.next < r.bagCount → exec (.sumpJobEnd sd) s = .next s ∧
      (atsMissing g.accs ≠ [] → waits g.accs) ∧
      (atsMissing g.accs = [] → atsMissing wa ≠ [] → waits wa) ∧
      (atsMissing g.accs = [] → atsMissing wa = [] → exec (.sumpBag sd) s = .next (updSaddle
        (satAdd (satAdd noted (sBase n + 0x30004) 0 0 32 g.pooled) (sBase n + 0x30008) 0 0 32 g.skipped) n
        (fun d => { d with
          sump := { j with next := j.next + 1, accs := j.accs ++ g.accs ++ wa } :: rest, units := mdel d.units (j.next % 32) })))) ∧
    (r.bagCount ≤ j.next → exec (.sumpBag sd) s = .next s ∧ exec (.sumpJobEnd sd) s = .next (updRun
      (logStream (updSaddle s n (fun d => { d with sump := rest })) (some j.slot) j.allot (64 + n) j.accs) j.slot
      (fun x => { x with sumps := x.sumps - 1, ss := if r.semaEn then mset x.ss r.sema (mget x.ss r.sema 0 + 1) else x.ss })))

/-- A Flume lane with two or more contexts switches to the next in ascending TG order; its running context completes with the effect of its
instruction, or asks for what is still missing (R238 to R240).
The Cistern agent takes read notices, which mark their sequence used and promote the pages ahead; makes one step of the lowest-numbered
sequence that is being swapped and can go on, then serves what waits; and after a reset scans the control block and finishes its swaps before it serves
operations again (R272 to R274). -/
def Obligations.LanesAndCisternAgents : Prop :=
  (∀ (lane : Fin 32) (s : State),
    let l := laneAt s lane.val
    let rot (tg : Nat) : State := { s with lanes := mset s.lanes lane.val { l with running := tg, used := 0 } }
    (l.ctxs.length < 2 → exec (.flmContextSwitch lane) s = .next s) ∧
    (∀ pre x post, l.ctxs = pre ++ x :: post → 2 ≤ l.ctxs.length → (∀ y ∈ pre, y.tg ≤ l.running) → l.running < x.tg →
      exec (.flmContextSwitch lane) s = .next (rot x.tg)) ∧
    (∀ x rest, l.ctxs = x :: rest → rest ≠ [] → (∀ y ∈ l.ctxs, y.tg ≤ l.running) → exec (.flmContextSwitch lane) s = .next (rot x.tg)) ∧
    ((∀ x ∈ l.ctxs, x.tg ≠ l.running) → exec (.flmComplete lane) s = .next s) ∧
    (∀ pre x post, l.ctxs = pre ++ x :: post → x.tg = l.running → (∀ y ∈ pre, y.tg ≠ l.running) →
      let al := allotOf s x.tg
      let r := attnAll s x.tg x.cmd
      let p := mergeAll s x.tg al x.cmd
      let lack := atsMissing (r.1.accs ++ (attnWrite s x.tg al x.cmd r.1).accs)
      let asks (l : List Nat) : Prop := exec (.flmComplete lane) s = .next (tagThread (atsAsk s (.terrace x.tg) al l) x.tg x.cmd.thr)
      (x.isAttn = false →
        (atsMissing p.accs ≠ [] → asks (atsMissing p.accs)) ∧
        (atsMissing p.accs = [] → exec (.flmComplete lane) s = .next (endCtx
          (tagThread (flagT (performed (p.sent x.tg al) x.tg p.accs) x.tg p.ovf p.inv) x.tg x.cmd.thr) lane.val x))) ∧
      (x.isAttn = true →
        (waitsScan s al x.cmd (cisAgent s al) = true → exec (.flmComplete lane) s = .next s) ∧
        (waitsScan s al x.cmd (cisAgent s al) = false → lack ≠ [] → asks lack) ∧
        (waitsScan s al x.cmd (cisAgent s al) = false → lack = [] → exec (.flmComplete lane) s = .next (attnDone s lane.val x r.1 r.2))))) ∧
  (∀ (al : Fin 1024) (page : Nat) (s : State),
    (∀ n pre q i post, cisAgent s al.val = some n → (saddle s n).cisNotes = pre ++ (al.val, q, i) :: post → i = page →
      (∀ e ∈ pre, e.1 ≠ al.val ∨ e.2.2 ≠ page) → exec (.cisReadNotice al page) s = .next (cisNoted
        (updSaddle s n (fun d => { d with cisNotes := pre ++ post, cisOps := d.cisOps + 1 })) q i (cbOf s al.val))) ∧
    (∀ c, cbOf s al.val = some c →
      let goes (q : Nat) : Prop := (c.seq s q).phase ≠ 0 ∧ c.swapStep s q ≠ s
      let noted (q : Nat) (u : State) : State :=
        match (saddle u c.n).cisWait.find? (fun o => o.allot == al.val && wMin o.cmd.w0 == 2 && (o.cmd.th.sreg (fld o.cmd.w0 35 5)).toNat == q) with
        | some o => noteOuts c s u o
        | none => u
      ((saddle s c.n).cisScan.contains al.val = true ∨ c.bad s ≠ none → exec (.cisSwapStep al) s = .next s) ∧
      ((saddle s c.n).cisScan.contains al.val = false → c.bad s = none →
        (∀ q, q < c.nseq → goes q → (∀ x, x < q → ¬ goes x) → exec (.cisSwapStep al) s =
          .next (cisRetry (cisOutsOver c (cisFailRoom c s (cisFailHolds c s (noted q (c.swapStep s q)) q) q)) c.n)) ∧
        ((∀ x, x < c.nseq → ¬ goes x) → exec (.cisSwapStep al) s = .next (cisRetry s c.n)))) ∧
    (∀ n : Fin 2, (saddle s n.val).cisScan.contains al.val = true → (n.val = 1 → (saddle s 0).cisScan.contains al.val = false) →
      let u := cisScanned s (cbOf s al.val)
      (scanWaits u (cbOf u al.val) = true → exec (.cisResumeScan al) s = .next u) ∧
      (scanWaits u (cbOf u al.val) = false → exec (.cisResumeScan al) s =
        .next (cisRetry (updSaddle u n.val (fun d => { d with cisScan := setDel d.cisScan al.val })) n.val))))

/-! ## Reservoir, stacks and far ports (11 R291 to R305, R311 to R317) -/

/-- A read at its home Saddle delivers what memory holds, poison and all, and changes no memory when no cell fails its check; a write
puts its bytes; an idle prefetcher is released. None reaches a terrace. An open request waits at its Saddle while a port bucket on its path is
empty, or behind another of its stream (R299, R333, R334).
A sector that a read fetches and that the stack's check code cannot correct is counted at its stack; in Guarded mode, with no stack of its group
failed, it is rebuilt and delivered as if it were good; in Open mode it is delivered poisoned and stays so. No byte changes (R293).
A word of a terrace's stores that fails its check is corrected and counted, or is counted and poisons its 32-byte sector: no byte changes and
no other sector's poison (R281). More than 16 such sectors within a second ask for the terrace's retirement, trigger 2 (R426). Which words fail is told with the command that starts an instruction (the model's choice, log 68). -/
def Obligations.SaddlesServeMemory : Prop :=
  ((∀ (r : MemReq) (s : State) (len : Nat) (wr : Bool),
    let n := homeSaddle r.addr.toNat
    let queued := ∃ x ∈ (saddle s n).waits, x.sameStream r.src = true
    requestWaits s r len wr = true ↔ queued ∨ ((boundPass s (pathOf s r) r.addr.toNat len wr).1 = false ∧
      ∃ e ∈ portBytes s r.addr.toNat len wr, portOpen s e.1 e.2.1 = false)) ∧
  (∀ (r : MemReq) (s : State), saddleServes s r.addr.toNat = true →
    (requestWaits s r r.len false = true → exec (.saddleRead r {}) s =
      .next (updSaddle s (homeSaddle r.addr.toNat) (fun d => { d with waits := d.waits ++ [.read r {}] }))) ∧
    (requestWaits s r r.len false = false →
      ∃ u, exec (.saddleRead r {}) s = .next u ∧ u.hbm = s.hbm ∧ u.hbmPoison = s.hbmPoison ∧ u.far = s.far ∧ u.host = s.host ∧
        u.terraces = s.terraces ∧ u.out = (farNote s r r.len).out ++
          [.data ((dpaRead s r.addr.toNat r.len).map (·.1)) ((dpaRead s r.addr.toNat r.len).any (·.2))])) ∧
  (∀ (r : MemReq) (bs : List Byte) (bad : Bool) (s : State), saddleServes s r.addr.toNat = true →
    let w := dpaWrite s r.addr.toNat (bs.map (fun (b : Byte) => ((b, bad) : PByte)))
    (requestWaits s r bs.length true = true → exec (.saddleWrite r bs bad) s =
      .next (updSaddle s (homeSaddle r.addr.toNat) (fun d => { d with waits := d.waits ++ [.write r bs bad] }))) ∧
    (requestWaits s r bs.length true = false →
      ∃ u, exec (.saddleWrite r bs bad) s = .next u ∧ u.hbm = w.hbm ∧ u.hbmPoison = w.hbmPoison ∧ u.far = w.far ∧ u.host = s.host ∧
        u.terraces = s.terraces ∧ u.out = (farNote s r bs.length).out)) ∧
  (∀ (sd : Fin 2) (p : Fin 64) (s : State), exec (.prefetcherRelease sd p) s =
    .next (updSaddle s sd.val (fun d => { d with pfs := mdel d.pfs p.val })))) ∧
  (∀ (r : MemReq) (s : State) (sec : Nat), r.addr.toNat = 32 * sec → r.len = 32 → r.addr.toNat < hbmCap s.guarded →
    let n := homeSaddle r.addr.toNat
    let reg := sBase n + 0x10010 + 4 * stackPort s (r.addr.toNat / 256)
    requestWaits s r 32 false = false → groupState s n = 0 → rsvWay (saddle s n) (r.addr.toNat / 256) = none →
    ∃ u, exec (.saddleRead r { unc := [sec] }) s = .next u ∧ u.hbm = s.hbm ∧ u.terraces = s.terraces ∧
      u.out = s.out ++ [.data ((dpaRead u r.addr.toNat 32).map (·.1)) ((dpaRead u r.addr.toNat 32).any (·.2))] ∧
      fld (rg u reg 0) 8 8 = min 255 (fld (rg s reg 0) 8 8 + 1) ∧
      (s.guarded = true → u.hbmPoison = s.hbmPoison) ∧
      (s.guarded = false → ∀ k, k ∈ u.hbmPoison ↔ k = sec ∨ k ∈ s.hbmPoison)) ∧
  (∀ (tg : Fin 64) (isl : Island) (e : BankErr) (s : State),
    let sp := e.space.val + 1
    let m (s : State) : Mem := memOf (terrace s tg.val) sp
    let reg := tBase tg.val + 0x1684
    cmdsOf (terrace s tg.val) (islCode isl) = [] →
    (memSize sp ≤ e.addr → exec (.islandInstrStart tg { isl, errs := [e] }) s = .next (pump s tg.val)) ∧
    (e.addr < memSize sp → ∃ u, exec (.islandInstrStart tg { isl, errs := [e] }) s = .next (pump u tg.val) ∧
      (∀ a, (m u).get a = (m s).get a) ∧
      (∀ a, (m u).bad a = if e.corr = false ∧ a / 32 = e.addr / 32 then true else (m s).bad a) ∧
      fld (rg u reg 0) 16 16 = min (2 ^ 16 - 1) (fld (rg s reg 0) 16 16 + if e.corr then 1 else 0) ∧
      fld (rg u reg 0) 0 16 = min (2 ^ 16 - 1) (fld (rg s reg 0) 0 16 + if e.corr then 0 else 1) ∧
      (∀ o, o ≠ reg → ∀ d, rg u o d = rg s o d) ∧
      (e.corr = false → 16 < (uncNow s tg.val (sp * 2 ^ 20 + e.addr / 32)).length → (terrace s tg.val).retiring = false →
        (terrace s tg.val).retired = false → u.retQ = s.retQ ++ [(2, [tg.val])]) ∧
      (e.corr = true ∨ (uncNow s tg.val (sp * 2 ^ 20 + e.addr / 32)).length ≤ 16 → u.retQ = s.retQ)))

/-- A stack that fails stays Failed and is logged; one that makes its group Lost takes the module to Faulted with that reason. A temperature
report sets the stage of its stack, and so the hysteresis of 3 degrees (R295, R298).
A far port that fails is Failed until it is replaced; a resilvered one goes Up, at full width and rate or less, with every byte of the mirrored
range that of its partner (R314 to R316). -/
def Obligations.StacksAndFarPorts : Prop :=
  (∀ (k : Fin 12) (s : State),
    let old := stackOf s k.val
    let failed := updSaddle s (k.val / 6) (fun d => { d with hbmStacks := mset d.hbmStacks (k.val % 6) { old with failed := true } })
    (∀ c : Fin 3, (old.failed = true → exec (.hbmStackFail k c) s = .next s) ∧
      (old.failed = false → groupState failed (k.val / 6) ≠ 2 → exec (.hbmStackFail k c) s =
        .next (noteDeliv s (intCause (rasAppend failed 0x23 2 5 k.val none c.val) 6) (k.val / 6) 0)) ∧
      (old.failed = false → groupState failed (k.val / 6) = 2 → ∃ u, exec (.hbmStackFail k c) s = .next u ∧ u.mode = .faulted ∧
        u.freason = (if s.guarded then 1 else 2) ∧ u.resetting = none ∧ (stackOf u k.val).failed = true ∧ u.hbm = s.hbm)) ∧
    (∀ t, (stackStage old.stage t ≠ .critical ∨ old.stage = .critical → exec (.hbmTempReport k t) s = .next (noteDeliv s
      (updSaddle s (k.val / 6) (fun d => { d with
        hbmStacks := mset d.hbmStacks (k.val % 6) { old with temp := min 255 t, stage := stackStage old.stage t } })) (k.val / 6) 1))) ∧
    (∀ t, ∃ u, exec (.hbmTempReport k t) s = .next u ∧ u.hbm = s.hbm ∧ u.terraces = s.terraces ∧
      (stackStage old.stage t ≠ .critical ∨ old.stage = .critical → u.evq = s.evq) ∧
      stackOf u k.val = { old with temp := min 255 t, stage := stackStage old.stage t }) ∧
    stackStage .normal 84 = .normal ∧ stackStage .normal 85 = .warm ∧ stackStage .warm 83 = .warm ∧ stackStage .warm 82 = .normal ∧
    stackStage .warm 95 = .hot ∧ stackStage .hot 93 = .hot ∧ stackStage .hot 92 = .warm ∧ stackStage .normal 105 = .critical ∧
    stackStage .critical 103 = .critical ∧ stackStage .critical 102 = .hot) ∧
  (∀ (p : Fin 8) (s : State),
    let f := farPort s p.val
    (∀ b, (f.state = 0 ∨ f.state = 4 → exec (.farPortFail p b) s = .next s) ∧
      (f.state ≠ 0 → f.state ≠ 4 → ∃ u, exec (.farPortFail p b) s = .next u ∧ farPort u p.val = { f with state := 4 } ∧
        (∀ q, q ≠ p.val → farPort u q = farPort s q) ∧ u.far = s.far)) ∧
    (f.state ≠ 5 → exec (.farResilverDone p) s = .next s) ∧
    (f.state = 5 → exec (.farResilverDone p) s =
      .next (setFarState (resilver s p.val) p.val (if f.width = 16 ∧ f.rate = 0 then 2 else 3))) ∧
    (f.state = 5 → s.far.wf = true → ∃ u, exec (.farResilverDone p) s = .next u ∧
      farPort u p.val = { f with state := if f.width = 16 ∧ f.rate = 0 then 2 else 3 } ∧ (∀ q, q ≠ p.val → farPort u q = farPort s q) ∧
      ∀ x, u.far.get x = if mirrored s p.val (x - (farBase + p.val * 0x20000000000)) ∧ farBase + p.val * 0x20000000000 ≤ x ∧
          x < farBase + (p.val + 1) * 0x20000000000
        then s.far.get (farBase + (p.val + 4) % 8 * 0x20000000000 + (x - (farBase + p.val * 0x20000000000))) else s.far.get x))

/-! ## The Weir, reservations and translation (12) -/

/-- Every 64 ns each bucket adds RATE x 64 bytes and never holds more than DEPTH; a reservation's buckets add their amounts; then the requests that
waited for tokens go on, and while none waits nothing else changes (R333 to R335, R338).
Re-dividing an allotment's tokens among the terraces that share it neither makes nor loses any (R335).
A grant of a port lasts until its holder stops requesting or has moved BURST beats; at a beat boundary it is revoked, keeping the holder's progress,
when REV_EN is set, it has moved REVOKE_MIN beats, a requester of a higher class is present, and it is neither forced nor exempt (R344).
A requester that keeps requesting at an arbiter of n requesters, prefetch excluded, is granted within w + n - 1 decisions that grant others,
whatever the others do meanwhile and whatever the counters said before (R343, R345). -/
def Obligations.TokenBuckets : Prop :=
  (∀ s : State, ∃ u, exec .weirRefill s = .next (serveWaits (admitWaiting u)) ∧ u.redivide = [] ∧ u.hbm = s.hbm ∧ u.runs = s.runs ∧
    (∀ o, (∀ tg, o ≠ tBase tg + 0x1708) → ∀ d, rg u o d = rg s o d) ∧
    ((∀ e ∈ s.terraces, ∀ x ∈ e.2.execs, x.2.owed = []) → u.regs = s.regs ∧ admitWaiting u = u) ∧
    ((∀ n, n < 2 → (saddle (admitWaiting u) n).waits = []) → serveWaits (admitWaiting u) = admitWaiting u) ∧
    (∀ tg, tg < 64 →
      let w := rg s (tBase tg + 0x1700) weirReset
      let n : Int := min (fld w 16 15 * 1024 : Nat) ((terrace s tg).tokens + (fld w 0 16 * 64 : Nat))
      terrace u tg = { terrace s tg with tokens := n }) ∧
    (∀ n p, n < 2 → p < 4 →
      let w := rg s (sBase n + 0x70000 + 8 * p) weirReset
      mget (saddle u n).ptok p 0 = min ((fld w 16 15 * 1024 : Nat) : Int) (mget (saddle s n).ptok p 0 + (fld w 0 16 * 64 : Nat))) ∧
    u.rsvs.map (fun r => { r with tok := [] }) = s.rsvs.map (fun r => { r with tok := [] }) ∧
    ∀ (j : Nat) (r : Rsv), s.rsvs[j]? = some r → ∃ r' : Rsv, u.rsvs[j]? = some r' ∧
      ∀ k, k < 6 → mget r'.tok k 0 = min 16384 (mget r.tok k 0 + (r.amount k * 64 : Nat))) ∧
  (∀ (s : State) (q : MemReq) (e : MemErrs) (bs : List Byte) (bad : Bool),
    serveWait s (.read q e) = (if requestWaits s q q.len false = true then
      updSaddle s (homeSaddle q.addr.toNat) (fun d => { d with waits := d.waits ++ [.read q e] }) else serveRead s q e) ∧
    serveWait s (.write q bs bad) = (if requestWaits s q bs.length true = true then
      updSaddle s (homeSaddle q.addr.toNat) (fun d => { d with waits := d.waits ++ [.write q bs bad] }) else serveWrite s q bs bad)) ∧
  (∀ (s : State) (al : Nat), sharers s al ≠ [] → (∀ tg ∈ sharers s al, tg < 64) →
    let total (u : State) : Int := ((u.shares.filter (fun e => e.1 / 64 = al)).map (fun e => e.2)).sum
    let u := redivideOne s al
    total u = total s ∧ (∀ b, b ≠ al → u.shares.filter (fun e => e.1 / 64 = b) = s.shares.filter (fun e => e.1 / 64 = b)) ∧
      u = { s with shares := u.shares }) ∧
  (∀ (c : TurnCfg) (a : Arb) (h : Nat) (r : ArbReq), a.holder = some h → mget? a.reqs h = some r →
    let loses := c.revEn = true ∧ c.revMin ≤ a.moved ∧ a.forced = false ∧ r.exempt = false ∧ ∃ e ∈ a.reqs, e.2.cls < r.cls
    (a.moved < c.burst → ¬ loses → arbGrant c a = (a, 0, 0)) ∧
    (a.moved < c.burst → loses → (arbGrant c a).1 =
      decideArb { a with progress := mset a.progress h (mget a.progress h 0 + a.moved) } c.w ∧ (arbGrant c a).2.2 = 1) ∧
    (c.burst ≤ a.moved → (arbGrant c a).1 = decideArb a c.w ∧ (arbGrant c a).2.2 = 0) ∧
    (∀ n x rest, r.parts = (n, x) :: rest → 0 < n → (∀ e ∈ rest, 0 < e.1) →
      (n = 1 ∧ rest = [] → (arbMove a).reqs = mdel a.reqs h ∧ (arbMove a).holder = none) ∧
      (n = 1 ∧ rest ≠ [] → (arbMove a).reqs = mset a.reqs h { r with parts := rest }) ∧
      (1 < n → (arbMove a).reqs = mset a.reqs h { r with parts := (n - 1, x) :: rest }))) ∧
  (∀ (w n x : Nat) (a : Nat → Arb), x < n →
    (∀ i, ∃ reqs progress stamp, a (i + 1) = { decideArb (a i) w with reqs, progress, stamp }) →
    (∀ i, ((a i).reqs.map (·.1)).Nodup ∧ (∀ e ∈ (a i).reqs, e.2.cls = prefetchClass ∨ e.1 < n) ∧
      ∃ r, (x, r) ∈ (a i).reqs ∧ r.cls < prefetchClass) →
    ∃ i, i ≤ w + n - 1 ∧ (decideArb (a i) w).holder = some x)

/-- The reservation commands of PF0: CREATE admits an amount that fits every resource it names and answers why it does not; RELEASE removes
one; QUERY reads one; a recomputation that is due comes first. A lower percentage makes one due, and more than 90 is dropped and logged. -/
def Obligations.ReservationCommands : Prop :=
  ∀ (p : Fin 2) (v : W32) (s : State), regsUp s = true → s.resetting = none →
    let t : State := setRg s 0x130000 (v &&& 0x3FFFFF00#32)
    let t : State := match s.rsvDue with
      | some c => recompute t c
      | none => t
    let x := rsvOf t v
    let al := fld v 16 10
    let i := fld v 8 8
    let short := (List.range 20).filter (fun b => decide (0 < x.takes b) && !(resFits t b (resSum t b + x.takes b)))
    (bit v 31 = true → fld v 28 2 = 0 →
      (rsvFind t al i = none → t.rsvs.length < 4096 → admissionsShut t = false →
        (short = [] → exec (.rsvCreate (.pf p) v) s =
          .next (rsvResult { t with rsvs := t.rsvs ++ [x], rsvRevoked := t.rsvRevoked.erase (al, i) } v 0 0)) ∧
        (short ≠ [] → exec (.rsvCreate (.pf p) v) s = .next (rsvResult t v 1 (short.foldl (fun n b => n + 2 ^ b) 0)))) ∧
      (rsvFind t al i ≠ none → exec (.rsvCreate (.pf p) v) s = .next (rsvResult t v 2 0))) ∧
    (bit v 31 = true → fld v 28 2 = 1 →
      (rsvState t al i = 0 → exec (.rsvRelease (.pf p) v) s = .next (rsvResult t v 2 0)) ∧
      (rsvState t al i ≠ 0 → exec (.rsvRelease (.pf p) v) s = .next (rsvResult { t with
        rsvs := t.rsvs.filter (fun x => !(x.allot == al && x.index == i)), rsvRevoked := t.rsvRevoked.erase (al, i) } v 0 0))) ∧
    (bit v 31 = true → fld v 28 2 = 2 → ∀ y, rsvFind t al i = some y → exec (.rsvQuery (.pf p) v) s = .next (rsvResult
      (setRg (setRg (setRg t 0x130004 (BitVec.ofNat 32 (y.g0r * 2 ^ 16 + y.g0w))) 0x130008 (BitVec.ofNat 32 (y.g1r * 2 ^ 16 + y.g1w)))
        0x13000C (BitVec.ofNat 32 (y.port * 2 ^ 16 + y.fr * 2 ^ 8 + y.fw))) v 0 0)) ∧
    (bit v 31 = false → fld v 28 2 ≠ 3 → exec (.rsvCreate (.pf p) v) s = .next (setRg s 0x130000 (v &&& 0x3FFFFF00#32))) ∧
    (fld v 28 2 = 3 → exec (.rsvCreate (.pf p) v) s = .next (logDropped s 0x130000 v.toNat)) ∧
    (let n := fld v 0 7
      let set : State := setRg s 0x130014 (BitVec.ofNat 32 n)
      (n ≤ 90 → exec (.rsvPctWrite (.pf p) v) s = .next (if n < rsvPct s then { set with rsvDue := some (s.rsvDue.getD 2) } else set)) ∧
      (90 < n → exec (.rsvPctWrite (.pf p) v) s = .next (logDropped s 0x130014 v.toNat))) ∧
    (∀ c, s.rsvDue = some c → exec .rsvRecompute s = .next (recompute s c)) ∧ (s.rsvDue = none → exec .rsvRecompute s = .next s)

/-- A recomputation leaves no resource over its reservable part, and revokes only what it must to get there: with nothing over, nothing
is revoked (R339). -/
def Obligations.RecomputationFits : Prop :=
  ∀ (s : State) (c : Nat),
    (∀ b, b < 20 → resFits (recompute s c) b (resSum (recompute s c) b) = true) ∧
    (∀ r ∈ (recompute s c).rsvs, r ∈ s.rsvs) ∧ (recompute s c).rsvDue = none ∧
    ((∀ b, b < 20 → resFits s b (resSum s b) = true) → recompute s c = { s with rsvDue := none })

/-- The translation registers of PF0: a root holds while its context is enabled; clearing EN invalidates the allotment; an invalidation drops
every cached translation in its scope and stays BUSY until its accesses are done, contributions on their way among them; one that a cleared EN asks for meanwhile comes after it.
An invalidation drops exactly the cached translations its scope names: of a range, an allotment, or all.
The fault log gives PF0 its oldest record and removes it, and reads 0 when empty. An ATS Invalidate Request drops the entries it covers; a port
takes 32 of them (R381). What the host answers is delivered: read data to the sectors asked for, an ATS answer to the Headwork's cache, and the stores and
items that waited for them go on (R324, R331). -/
def Obligations.Translation : Prop :=
  (∀ (p : Fin 2) (al : Fin 1024) (v : W32) (s : State), regsUp s = true → s.resetting = none →
    let ctx := 0x100000 + 0x10 * al.val + 8
    let on := bit (rg s ctx 0) 31
    (∀ hi, let off := 0x100000 + 0x10 * al.val + (if hi then 4 else 0)
      (on = false → exec (.xltRootWrite (.pf p) al hi v) s = .next (setRg s off (v &&& (if hi then 0xFFFFFF#32 else 0xFFFF0000#32)))) ∧
      (on = true → exec (.xltRootWrite (.pf p) al hi v) s = .next (logDropped s off v.toNat))) ∧
    (let set := setRg s ctx (v &&& 0xC0000000#32)
      let i : Inval := { scope := 1, allot := al.val, va := 0, len := 0 }
      (on = false ∨ bit v 31 = true → exec (.xltCtxWrite (.pf p) al v) s = .next set) ∧
      (on = true → bit v 31 = false → exec (.xltCtxWrite (.pf p) al v) s =
        .next (if s.inv.isSome then { dropCached set i with invQ := s.invQ ++ [i] } else beginInval set i))) ∧
    (bit v 30 = true → s.inv = none → fld v 28 2 < 3 → exec (.xltInvalidate (.pf p) v) s =
      .next (beginInval (setRg s 0x110008 (v &&& 0x33FFFFFF#32)) { scope := fld v 28 2, allot := fld v 16 10
                                                                   va := fld (rg s 0x110000 0) 16 16 * 2 ^ 16 + fld (rg s 0x110004 0) 0 20 * 2 ^ 32
                                                                   len := (fld v 0 16 + 1) * 65536 })) ∧
    (bit v 30 = true → s.inv ≠ none ∨ fld v 28 2 = 3 → exec (.xltInvalidate (.pf p) v) s = .next (logDropped s 0x110008 v.toNat)) ∧
    (let busy := (∃ q ∈ s.hostReqs, q.old = true) ∨ (∃ q ∈ s.skvReqs, q.old = true) ∨ ∃ e ∈ s.saddles, ∃ c ∈ e.2.vc2, c.old = true
      let done := setRg { s with inv := none } 0x11000C (rg s 0x11000C 0 + 1)
      (s.inv = none ∨ busy → exec .xltInvDone s = .next s) ∧
      (∀ i, s.inv = some i → ¬ busy → s.invQ = [] → exec .xltInvDone s = .next done) ∧
      (∀ i j rest, s.inv = some i → ¬ busy → s.invQ = j :: rest → exec .xltInvDone s = .next (beginInval { done with invQ := rest } j)))) ∧
  (∀ (s : State) (i : Inval) (tg n : Nat) (t : Tlb),
    let named := (i.scope = 0 → t.allot = i.allot ∧ t.va * 2 ^ t.size < i.va + i.len ∧ i.va < (t.va + 1) * 2 ^ t.size) ∧
      (i.scope = 1 → t.allot = i.allot)
    (t ∈ (terrace (dropCached s i) tg).tlb ↔ t ∈ (terrace s tg).tlb ∧ ¬ named) ∧
    (t ∈ (saddle (dropCached s i) n).stlb ↔ t ∈ (saddle s n).stlb ∧ ¬ named)) ∧
  ((∀ (p : Fin 2) (s : State), regsUp s = true →
    (s.flog = [] → exec (.xltFlogPop (.pf p)) s = .next { s with out := s.out ++ [.data [0, 0, 0, 0] false] }) ∧
    (∀ x rest, s.flog = x :: rest → exec (.xltFlogPop (.pf p)) s =
      .next { s with flog := rest, out := s.out ++ [.data (leBytes 4 (flogInfo x).toNat) false] })) ∧
  (∀ (hd : Fin 2) (addr len : Nat) (s : State), s.atsPend = [] → s.hostReqs = [] →
    exec (.atsInvalidate hd addr len) s = .next { s with
      ats := mset s.ats hd.val ((mget s.ats hd.val []).filter (fun t => !(decide (t.va * 65536 < addr + len) && decide (addr < (t.va + 1) * 65536))))
      out := s.out ++ [.atsDone hd.val addr] }) ∧
  (∀ (hd : Fin 2) (addr len : Nat) (s : State), 32 ≤ (s.atsPend.filter (fun p => p.1 = hd.val)).length →
    exec (.atsInvalidate hd addr len) s = .next s) ∧
  (∀ (hd : Fin 2) (addr : BitVec 64) (bs : List Byte) (bad : Bool) (s : State),
    exec (.hostWindowCompletion hd (.read addr bs bad)) s = .next (retryStarts (retryStores (finishAts (hostData s hd.val addr.toNat bs bad))))) ∧
  (∀ (hd : Fin 2) (al : Fin 1024) (pg : BitVec 48) (a : BitVec 48) (s : State),
    s.atsWant.contains (hd.val, al.val, pg.toNat) = true → (mget s.ats hd.val []).length < 4096 →
    exec (.hostWindowCompletion hd (.ats al pg (some a))) s = .next (retryStarts (retryStores { s with
      atsWant := s.atsWant.erase (hd.val, al.val, pg.toNat)
      ats := mset s.ats hd.val (mget s.ats hd.val [] ++ [{ allot := al.val, va := pg.toNat, size := 16, pa := a.toNat * 65536, perm := 7 }]) }))))

/-! ## Queues, rings and allotments (14, 15 R408 to R415) -/

/-- A doorbell of PF0 to an enabled queue of an allotment that has been rung: a valid tail or head moves the count and is journaled, an invalid one
is a DOORBELL packet, any tail restarts a stopped queue; to a disabled target it is a packet of kind 2; during a reset it waits. A tail that ends a
queue's idleness takes the next arrival number (R391).
The registers of a queue: the ring bases keep their low 12 bits 0; a write that breaks a rule is dropped and logged; enabling sets the four
counts to 0 and takes the rings, disabling clears the entry (R387, R388). A write that leaves as many completions counted as a message takes sends the
queue's message, which waits while the port is Down (R383, R398). -/
def Obligations.DoorbellsAndQueueRegisters : Prop :=
  (∀ (p : Fin 2) (al : Fin 1024) (n : Fin 64) (v : W32) (s : State),
    let q := 64 * al.val + n.val
    let x := que s q
    let size := 2 ^ fld (qCfg s q) 26 5
    let word (kind : Nat) : List W64 := [BitVec.ofNat 64 (n.val + kind * 2 ^ 6 + v.toNat * 2 ^ 32)]
    let tail (r : State) : Prop := exec (.sqTailWrite (.pf p) al n v) s = .next r
    let head (r : State) : Prop := exec (.cqHeadWrite (.pf p) al n v) s = .next r
    regsUp s = true → s.mode ≠ .maintenance →
    (s.resetting ≠ none →
      tail { s with bells := s.bells ++ [{ hd := p.val, allot := al.val, q := n.val, head := false, v }] } ∧
      head { s with bells := s.bells ++ [{ hd := p.val, allot := al.val, q := n.val, head := true, v }] }) ∧
    (s.resetting = none → allotEn s al.val = false → tail (gaugePf s p.val 2 al.val (word 2) false) ∧ head (gaugePf s p.val 2 al.val (word 2) false)) ∧
    (s.resetting = none → allotEn s al.val = true → (allot s al.val).rung = true →
      (qEn s q = false → tail (gaugePost s 2 al.val (word 2) false) ∧ head (gaugePost s 2 al.val (word 2) false)) ∧
      (qEn s q = true →
        (x.stopped = false →
          (v = x.tail → tail s) ∧
          (v ≠ x.tail → (v - x.tail).toNat ≤ size → (v - x.acc).toNat ≤ size →
            tail (request (updQue { s with bellNo := s.bellNo + 1 } q (fun x =>
              { x with tail := v, order := if x.tail = x.acc then s.bellNo + 1 else x.order })) { qs := [(q, { qent s q with tail := v })] })) ∧
          (size < (v - x.tail).toNat ∨ size < (v - x.acc).toNat → v ≠ x.tail → tail (gaugePost s 2 al.val (word 0) false))) ∧
        (x.stopped = true → v = x.tail → tail (updQue s q (fun x => { x with stopped := false, tries := 0 }))) ∧
        (v = x.head → head s) ∧
        (v ≠ x.head → (v - x.head).toNat ≤ (x.seq - x.head).toNat →
          let gone := (slotsOfQ s q).filter (fun e => e.2.st == .posted && decide ((e.2.seq - x.head).toNat < (v - x.head).toNat))
          head (request (updQue s q (fun x => { x with head := v, unsent := x.unsent.filter (fun u => !(gone.any (fun e => e.1 = u.1))) }))
            { slots := gone.map (fun e => (e.1, none)), qs := [(q, { qent s q with head := v })], eff := .freed })) ∧
        ((x.seq - x.head).toNat < (v - x.head).toNat → head (gaugePost s 2 al.val (word 1) false))))) ∧
  (∀ (p : Fin 2) (q : Fin 65536) (v : W32) (s : State), regsUp s = true → s.resetting = none →
    let off := 0x200000 + 0x20 * q.val
    let wr (reg : Fin 6) (r : State) : Prop := exec (.qCfgWrite (.pf p) q reg v) s = .next r
    let set := setRg s (off + 0x10) (v &&& 0xFFFFFE00#32)
    let told (u : State) : State :=
      if bit (qCfg u q.val) 20 = true ∧ fld (rg u (off + 20) 0x10000) 16 16 ≤ (que u q.val).irqs then queMsg u q.val else u
    wr 0 (setRg s off (v &&& 0xFFFFF000#32)) ∧ wr 1 (setRg s (off + 4) v) ∧ wr 2 (setRg s (off + 8) (v &&& 0xFFFFF000#32)) ∧
    wr 3 (setRg s (off + 12) v) ∧
    (fld v 16 16 = 0 → wr 5 (logDropped s (off + 20) v.toNat)) ∧ (fld v 16 16 ≠ 0 → wr 5 (told (setRg s (off + 20) v))) ∧
    (qCfgBad s q.val v = true → wr 4 (logDropped s (off + 16) v.toNat)) ∧
    (qCfgBad s q.val v = false →
      (bit v 31 = true → qEn s q.val = false → wr 4 (told (request { set with ques := mset s.ques q.val {} } { qs := [(q.val,
        { sqBase := sqBaseReg s q.val, cqBase := cqBaseReg s q.val, log2sq := fld v 26 5, log2cq := fld v 21 5 })] }))) ∧
      (bit v 31 = false → qEn s q.val = true → wr 4 (told (request { set with ques := mset s.ques q.val {} } { qs := [(q.val, {})] }))) ∧
      (bit v 31 = qEn s q.val → wr 4 (told set)))) ∧
  (∀ (s : State) (q : Nat),
    let a := allot s (q / 64)
    (portUp s a.owner = true → queMsg s q = { updQue s q (fun x => { x with irqs := 0, timer := false, due := false }) with
      out := s.out ++ [.msix a.owner (allotFn s (q / 64)) (fld (qCfg s q) 9 11)] }) ∧
    (portUp s a.owner = false → queMsg s q = updQue s q (fun x => { x with due := true })))

/-- Entries that are read, through the owner's port, are accepted in order into free slots, each with the next SEQ and the next tag, which is never 0; a
read in error is retried twice and then stops the queue. After a pause of the journal the queues go on in the order of their doorbells. A completion posts
once it is the next of its queue and its accesses have arrived, and its interrupt timer sends the vector (R390 to R399, R415). -/
def Obligations.AcceptanceAndCompletion : Prop :=
  ∀ (q : Fin 65536) (s : State),
    let e := qent s q.val
    let n := min 16 (e.tail - e.acc).toNat
    let rows := (List.range n).map (fun i => s.host.read (e.sqBase + (e.acc.toNat + i) % 2 ^ e.log2sq * 64) 64)
    let slots := lowestSlots s (min n (freeSlots s))
    let asked := askEntries s q.val n
    let whole := ∀ r ∈ rows, ∀ b ∈ r, b.2 = false
    (accepts s q.val = true ↔ mayAccept s q.val = true ∧ ∀ x ∈ s.ques, 0 < x.2.order → x.2.order ≤ s.resumeTo → x.2.order < (que s q.val).order →
      x.2.tail ≠ x.2.acc → mayAccept s x.1 = false) ∧
    (∃ l, asked = { s with out := s.out ++ l } ∧ ∀ m ∈ l, ∃ a k, m = .hostRead (allot s (q.val / 64)).owner (allotFn s (q.val / 64)) a k) ∧
    (accepts s q.val = false ∨ n = 0 → ∀ x, exec (.sqReadComplete q x) s = .next s) ∧
    (accepts s q.val = true → 0 < n →
      (0 < freeSlots s → whole → exec (.sqReadComplete q false) s = .next (acceptEntries (updQue asked q.val (fun x => { x with tries := 0 })) q.val
        slots (rows.map (fun r => r.map (·.1))))) ∧
      (∀ x, 0 < freeSlots s → (x = true ∨ ¬ whole) → exec (.sqReadComplete q x) s = .next
        (if (que s q.val).tries < 2 then updQue asked q.val (fun x => { x with tries := x.tries + 1 })
          else gaugePost (updQue asked q.val (fun x => { x with tries := 0, stopped := true })) 3 (q.val / 64) [BitVec.ofNat 64 (q.val % 64)] true)) ∧
      (freeSlots s = 0 → ∀ x, exec (.sqReadComplete q x) s = .next (journalFull s true))) ∧
    (∀ (l : List Nat) (rs : List (List Byte)) (j k : Nat) (r : List Byte), l.Nodup → l[j]? = some k → rs[j]? = some r → ∃ x,
      slotAt (acceptEntries s q.val l rs) k = some x ∧ x.q = q.val ∧ x.seq = e.acc + BitVec.ofNat 32 j ∧ x.entry = r ∧ x.tag ≠ 0 ∧
        x.tag = (mget (jrn s).tags (q.val / 64) 1 - 1 + j) % (2 ^ 48 - 1) + 1 ∧
        x.st = (if (Entry64.ofBytes r).breaks ∨ (Entry64.ofBytes r).op = 0 then .completed else .accepted)) ∧
    (∀ k x, working s = true → portUp s (allot s (q.val / 64)).owner = true → (e.seq - e.head).toNat < 2 ^ e.log2cq →
      (slotsOfQ s q.val).find? (fun x => x.2.seq = e.seq && x.2.st == .completed) = some (k, x) →
      (itemQuiet s k true = false → ∀ f, exec (.completionPost { q, fail := f }) s = .next s) ∧
      (itemQuiet s k true = true →
        exec (.completionPost { q, fail := true }) s = .next (gaugePost s 3 (q.val / 64) [BitVec.ofNat 64 (q.val % 64 + 2 ^ 6)] true) ∧
        exec (.completionPost { q, fail := false }) s = .next (request s
          { slots := [(k, some { x with st := .posted, compl := x.compl.map (fun c => { c with lat := latNs s x }) })]
            qs := [(q.val, { e with seq := e.seq + 1 })], eff := .write k }))) ∧
    (bit (qCfg s q.val) 20 = true → (que s q.val).timer = true → fld (rg s (0x200000 + 0x20 * q.val + 0x14) 0x10000) 0 16 ≠ 0 →
      exec (.qIntTimer q) s = .next (queMsg s q.val)) ∧
    (bit (qCfg s q.val) 20 = false ∨ (que s q.val).timer = false ∨ fld (rg s (0x200000 + 0x20 * q.val + 0x14) 0x10000) 0 16 = 0 →
      exec (.qIntTimer q) s = .next s)

/-- A line of an open ring is eight words: whole packets in order and idle words after them; it leaves the FIFO, moves the write count by 8 and
sends the ring's vector. A packet that does not fit the ring's share is dropped and counted.
The registers of a ring: the host's head is taken as written, but that of a doorbell page is dropped in Maintenance (R504); a base restarts an enabled ring, and so do enabling it and a write of its size and configuration while it is enabled; a
field out of range drops the write, logged (R401, R405). A line leaves by the owner's port, that of a PF0 ring by the other port while its own is Down (R383). -/
def Obligations.Gauge : Prop :=
  (∀ (ring : Fin 1026) (s : State),
    let k := ring.val
    let r := ringOf s k
    let fn := if k < 2 then 0 else allotFn s (k - 2)
    (ringOpen s k = true → lineDue r = true → r.sinceOvf = 0 → ∃ u, exec (.gaugeLineWrite ring) s = .next u ∧
      ringOf u k = { r with wcount := r.wcount + 8, waiting := r.waiting.drop (linePackets 8 r.waiting).length
                            written := r.written + (linePackets 8 r.waiting).length
                            flush := false } ∧
      u.host = (busWrite s (ringBase s k + r.wcount % ringWords s k * 8) (lineBytes (linePackets 8 r.waiting))).host ∧
      (∀ j, j ≠ k → ringOf u j = ringOf s j) ∧
      u.out = s.out ++ [.hostWrite (ringPort s k) fn (ringBase s k + r.wcount % ringWords s k * 8) (lineBytes (linePackets 8 r.waiting)) false] ++
        (if bit (ringCfg s k) 30 then [.msix (ringPort s k) fn (fld (ringCfg s k) 14 11)] else [])) ∧
    (ringOpen s k = true → ringOn s k = true ∧ portUp s (ringPort s k) = true) ∧
    ringPort s k = (if k < 2 then (if portUp s k = false ∧ portUp s (1 - k) = true then 1 - k else k) else (allot s (k - 2)).owner) ∧
    (ringOpen s k = false ∨ lineDue r = false → exec (.gaugeLineWrite ring) s = .next s) ∧
    (r.waiting = [] → exec (.gaugeFlushTimer ring) s = .next s) ∧
    (r.waiting ≠ [] →
      let f : State := { s with rings := mset s.rings k { r with flush := true } }
      exec (.gaugeFlushTimer ring) s = .next (if ringOpen s k then writeLine f k else f)) ∧
    (∀ w : Packet, waitingWords r + w.words.length ≤ ringQuota k - 2 → ringPut s k w =
      { s with rings := mset s.rings k { r with posted := r.posted + 1, waiting := r.waiting ++ [w] } }) ∧
    (∀ w : Packet, ringQuota k - 2 < waitingWords r + w.words.length → ringPut s k w =
      satAdd { s with rings := mset s.rings k { r with posted := r.posted + 1, dropped := r.dropped + 1, sinceOvf := r.sinceOvf + 1 } }
        (hBase (ringHd s k) + 0x50014) 0 0 32 1)) ∧
  (∀ (p : Fin 2) (ring : Fin 1026) (v : W32) (s : State), regsUp s = true → s.resetting = none →
    let k := ring.val
    let off := if k < 2 then hBase k + 0x50000 else allotBase (k - 2) + 0x1C
    let was := ringCfg s k
    let good := 9 ≤ fld v 25 5 ∧ fld v 25 5 ≤ 16 ∧ fld v 0 8 ≠ 0 ∧
      (if k < 2 then 16 ≤ fld v 14 11 else vecOk s (k - 2) (fld v 14 11) 64 = true)
    let starts := bit v 31 = true ∨ bit was 31 = true
    let wr (reg : Fin 3) (u : State) : Prop := exec (.gaugeCfgWrite (.pf p) ring reg v) s = .next u
    exec (.gaugeHeadWrite (.pf p) ring v) s = .next (if 2 ≤ k ∧ s.mode = .maintenance then s else setRg s (ringHeadReg k) v) ∧
    (bit was 31 = false → wr 0 (setRg s off (v &&& 0xFFFFFFC0#32)) ∧ wr 1 (setRg s (off + 4) v)) ∧
    (bit was 31 = true → wr 0 (restartRing (setRg s off (v &&& 0xFFFFFFC0#32)) k) ∧ wr 1 (restartRing (setRg s (off + 4) v) k)) ∧
    (good → ¬ starts → wr 2 (setRg s (off + 8) (v &&& 0xFFFFC0FF#32))) ∧
    (good → starts → wr 2 (restartRing (setRg s (off + 8) (v &&& 0xFFFFC0FF#32)) k)) ∧
    (¬ good → wr 2 (logDropped s (off + 8) v.toNat)))

/-- The registers of an allotment: configuration that breaks a rule is dropped and logged; enabling makes the sequencer's Headwork the owner until
the first doorbell; a grant may not mix Express terraces with those of another class.
RESET replays the items of an allotment that are in flight and KILL completes those that are not in their commit ABORTED; both then scrub the
terraces' stores, and the command ends, with its ALLOT_DONE packet, when the scrubs are over. While one runs, another is dropped and logged. -/
def Obligations.Allotments : Prop :=
  (∀ (p : Fin 2) (al : Fin 1024) (v : W32) (s : State), regsUp s = true → s.resetting = none →
    let a := al.val
    let wr (reg : Fin 5) (u : State) : Prop := exec (.allotCfgWrite (.pf p) al reg v) s = .next u
    let set := setRg s (allotBase a) (v &&& 0xFFFE007F#32)
    (allotCfgBad s a v = true → wr 0 (logDropped s (allotBase a) v.toNat)) ∧
    (allotCfgBad s a v = false →
      (bit v 31 = true → allotEn s a = false → wr 0 (updAllot set a (fun x => { x with owner := seqHd s, rung := false }))) ∧
      (bit v 31 = false ∨ allotEn s a = true → wr 0 set)) ∧
    wr 3 (setRg s (allotBase a + 12) (v &&& 0xFFFFF000#32)) ∧ wr 4 (setRg s (allotBase a + 16) (v &&& 0xFFFFF#32)) ∧
    (∀ h : Fin 2,
      let mixes := mixesExpress s a (allotClass s a == 2) (fun tg => if tg / 32 = h.val then bit v (tg % 32) else allotGrant s a tg)
      let reg : Fin 5 := if h = 0 then 1 else 2
      (mixes = true → wr reg (logDropped s (allotBase a + 4 * reg.val) v.toNat)) ∧
      (mixes = false → wr reg (setRg s (allotBase a + 4 * reg.val) v)))) ∧
  (∀ (p : Fin 2) (al : Fin 1024) (s : State), regsUp s = true → s.resetting = none →
    let a := al.val
    let begun (u : State) (c : AllotCmd) : State := scrubAllot (updAllot u a (fun x => { x with cmd := some c })) a
    ((allot s a).cmd = none →
      exec (.allotReset (.pf p) al) s = .next (begun ((inFlight s a).foldl (fun s e => replayItem s e.1) s) .reset) ∧
      exec (.allotKill (.pf p) al) s = .next (begun ((inFlight s a).foldl (fun s e =>
        if e.2.st = .committing then s else completeItem (stopItem s e.1) e.1 4 0) s) .kill)) ∧
    ((allot s a).cmd ≠ none →
      exec (.allotReset (.pf p) al) s = .next (logDropped s (allotBase a + 0x14) (2 ^ 29)) ∧
      exec (.allotKill (.pf p) al) s = .next (logDropped s (allotBase a + 0x14) (2 ^ 30))) ∧
    (∀ c, (allot s a).cmd = some c → (allot s a).scrubs = [] → (c = .kill → abortedPosted s a = true) → exec (.allotCmdDone al) s =
      .next (gaugePost (updAllot s a (fun x => { x with cmd := none })) 4 a [if c = .kill then 2 else 1] true)) ∧
    ((allot s a).cmd = none ∨ (allot s a).scrubs ≠ [] → exec (.allotCmdDone al) s = .next s))

/-! ## Registers, interrupts and windows (00 R8 to R12, 19 R513 to R530) -/

/-- PF0 reads a counter's low half, which latches its high half for it, and a register with fields that a read clears; a read of 8 bytes is two, the
lower address first, and one of 1 byte gives that byte of its register. A virtual function reads neither, and during a boot every register but the
identity reads 0.
A write narrower than 32 bits or off its alignment is dropped whole and logged; a 64-bit one is two, the lower address first; one of a plain
register changes its writable bits and clears those that a 1 clears; no register is written by a requester its BAR does not serve. -/
def Obligations.Registers : Prop :=
  (∀ (p : Fin 2) (off : BitVec 28) (s : State),
    let o := off.toNat
    let answers (u : State) (bs : List Byte) : State := { u with out := u.out ++ [.data bs false] }
    (∀ n q sz, exec (.counterLoRead (.vf n q) ⟨.bar0, off, sz⟩) s = .next s ∧ exec (.rcFieldRead (.vf n q) ⟨.bar0, off, sz⟩) s = .next s) ∧
    (regsUp s = true → o % 4 = 0 → blockAnswers s o = true →
      let low := leBytes 4 ((counter s o).setWidth 32).toNat
      let high := (counter s o >>> 32).setWidth 32
      let latched : State := { s with shadows := mset s.shadows o high }
      (isCounterLow o = true → exec (.counterLoRead (.pf p) ⟨.bar0, off, .b4⟩) s = .next (answers latched low)) ∧
      (isCounterLow o = true → isCounterLow (o + 4) = false → blockAnswers s (o + 4) = true →
        exec (.counterLoRead (.pf p) ⟨.bar0, off, .b8⟩) s = .next (answers latched (low ++ leBytes 4 high.toNat))) ∧
      (isCounterLow o = false → 4 ≤ o → isCounterLow (o - 4) = true →
        exec (.counterLoRead (.pf p) ⟨.bar0, off, .b4⟩) s = .next (answers s (leBytes 4 (mget s.shadows (o - 4) 0).toNat))) ∧
      (isCounterLow o = false → (o < 4 ∨ isCounterLow (o - 4) = false) →
        exec (.rcFieldRead (.pf p) ⟨.bar0, off, .b4⟩) s = .next (answers (clearRc s o) (leBytes 4 (regRead s o).toNat)))) ∧
    (regsUp s = true →
      let r := o / 4 * 4
      isCounterLow r = false → (r < 4 ∨ isCounterLow (r - 4) = false) → blockAnswers s r = true →
        exec (.rcFieldRead (.pf p) ⟨.bar0, off, .b1⟩) s = .next (answers (clearRc s r) [(leBytes 4 (regRead s r).toNat).getD (o % 4) 0])) ∧
    (s.mode = .boot → 0x14 ≤ o → exec (.rcFieldRead (.pf p) ⟨.bar0, off, .b4⟩) s = .next (answers s [0, 0, 0, 0]))) ∧
  (∀ (p : Fin 2) (off : BitVec 28) (v : BitVec 64) (s : State), regsUp s = true →
    let o := off.toNat
    (∀ bar n, bar = .bar0 ∨ bar = .bar2 → (n = .b1 ∨ n = .b2 ∨ o % 4 ≠ 0) →
      exec (.regWrite (.pf p) bar off n v) s = .next (rasAppend s 0x01 0 0 0 none (writeDetail bar (.pf p) o))) ∧
    (∀ n q sz, exec (.regWrite (.pf p) .vfbar0 off sz v) s = .next s ∧ exec (.regWrite (.vf n q) .bar0 off sz v) s = .next s ∧
      exec (.regWrite (.vf n q) .bar2 off sz v) s = .next s) ∧
    (o % 4 = 0 → exec (.regWrite (.pf p) .bar0 off .b8 v) s =
      .next (write32 (.pf p) (o + 4) ((v >>> 32).setWidth 32) (write32 (.pf p) o (v.setWidth 32) s))) ∧
    (∀ tg rel row, o % 4 = 0 → placeOf o = (.terr, tg, rel) → rel ≠ 0x1120 → regRow o = some row → s.resetting = none →
      s.ridgeFailed.contains (tg / 4) = false → row.rw ||| row.rws ||| row.w1c ≠ 0 → outOfRange o (v.setWidth 32) = false →
      exec (.regWrite (.pf p) .bar0 off .b4 v) s = .next (setRg s o
        (((rg s o row.reset &&& ~~~(row.rw ||| row.rws)) ||| (v.setWidth 32 &&& (row.rw ||| row.rws))) &&& ~~~(v.setWidth 32 &&& row.w1c)))))

/-- The RAS log pops its head; a cause is cleared by writing 1; what is left enabled and set asks for another message; the end of a window sends one
message of a vector that rose in it. The cap, a route and a window entry take values in their ranges.
BAR4 reads HBM with its poison as EP, and writes it, past the Reservoir of its address; what lies beyond the capacity reads 0, is not written, and
is logged (R299, R519). -/
def Obligations.InterruptsTablesAndWindow : Prop :=
  (∀ (p : Fin 2) (v : W32) (s : State), regsUp s = true →
    exec (.rasPop (.pf p) v) s = .next (if bit v 31 then { s with ras := s.ras.drop 1 } else s) ∧
    exec (.intStatClear (.pf p) v) s = .next (wantSet (setRg s 0x2000 (intStat s &&& ~~~(v &&& 0x7FFF#32)))) ∧
    exec (.intEnWrite (.pf p) v) s = .next (wantSet (setRg s 0x2004 (v &&& 0x7FFF#32))) ∧
    (∀ k : Fin 16, (bit s.intPend k.val = false → exec (.intMessage k) s = .next s) ∧
      (∀ q, bit s.intPend k.val = true → modulePort s = some q → exec (.intMessage k) s =
        .next (emit (satAdd { s with intPend := setFld s.intPend k.val 1 0 } 0x2008 0 0 32 1) (.msix q 0 k.val)))) ∧
    (s.resetting = none →
      (900 ≤ fld v 0 12 ∧ fld v 0 12 ≤ 2800 ∧ fld v 0 12 % 10 = 0 → exec (.fbCapWrite (.pf p) v) s = .next (setRg s 0x150004 (v &&& 0xFFF#32))) ∧
      (fld v 0 12 < 900 ∨ 2800 < fld v 0 12 ∨ fld v 0 12 % 10 ≠ 0 → exec (.fbCapWrite (.pf p) v) s = .next (logDropped s 0x150004 v.toNat)) ∧
      (let sel := rg s 0x7000200 0
        let k := skvDest (bit sel 14) (fld sel 0 14)
        ((bit sel 14 = true → fld sel 0 14 ≤ 255) → (bit (mget s.rte k 0) 31 = false ∨ holdsFor s k = false) →
          exec (.skvRteWrite (.pf p) v) s = .next { s with rte := mset s.rte k (v &&& 0x80000077#32) }) ∧
        (bit (mget s.rte k 0) 31 = true → holdsFor s k = true → exec (.skvRteWrite (.pf p) v) s = .next (logDropped s 0x7000204 v.toNat))) ∧
      (let k := fld (rg s 0x7000300 0) 0 8
        let e := mget s.win k {}
        let wr (reg : Fin 4) (e' : SkvWin) : Prop := exec (.skvWinWrite (.pf p) reg v) s = .next { s with win := mset s.win k e' }
        wr 0 { e with base := v &&& 0xF007FFFF#32 } ∧ wr 1 { e with len := v &&& 0x7FFFF#32 } ∧ wr 2 { e with src := v &&& 0xFFFFFFF#32 } ∧
          wr 3 { e with sal := v &&& 0x3FF03FF#32 }))) ∧
  (∀ (p : Fin 2) (off : BitVec 40) (s : State), regsUp s = true →
    let o := off.toNat
    let cap := hbmCap s.guarded
    (∀ len, o + len ≤ cap → exec (.bar4Read p off len) s =
      .next (emit (saddlePass s bar4Path o len false).2 (.data ((dpaRead s o len).map (·.1)) ((dpaRead s o len).any (·.2))))) ∧
    (∀ bs ep, o + bs.length ≤ cap → exec (.bar4Write p off bs ep) s =
      .next (dpaWrite (saddlePass s bar4Path o bs.length true).2 o (bs.map (fun (b : Byte) => ((b, ep) : PByte))))) ∧
    (∀ len, o ≤ cap → cap < o + len → exec (.bar4Read p off len) s = .next (emit
      (saddlePass (rasAppend s 0x05 0 0 0 none (cap % 2 ^ 40)) bar4Path o (cap - o) false).2
      (.data ((dpaRead s o (cap - o)).map (·.1) ++ List.replicate (len - (cap - o)) 0) ((dpaRead s o (cap - o)).any (·.2))))) ∧
    (cap ≤ o → (∀ len, 0 < len → exec (.bar4Read p off len) s =
        .next (emit (rasAppend s 0x05 0 0 0 none (o % 2 ^ 40)) (.data (List.replicate len 0) false))) ∧
      ∀ bs ep, bs ≠ [] → exec (.bar4Write p off bs ep) s = .next (rasAppend s 0x05 0 0 0 none (o % 2 ^ 40))))

/-! ## The accepted-work guarantee (15 R406 to R429, 14 R383) -/

/-- The oldest journal step in flight completes: the other copy takes it, both count it, and then its effect leaves the module.
A retirement runs in seven steps, each journaled when it is done: mark, replay, drain, close the reach queues, evacuate, record, close. A part that
fails is logged once and asks for the retirement of its terraces; the drain of a failed ridge waits for its route fence.
A ridge die fails: every pair of dies whose route crosses it takes the other dimension order, at once when no packet of the pair is under way and
else behind a route fence that keeps the old route; every other pair keeps its route. A route starts and ends at its dies, passes only
linked dies, and no Saddle or Headwork forwards (R19, R22, R26). -/
def Obligations.JournalAndRetirement : Prop :=
  (∀ (s : State) (st : JStep) (rest : List JStep), s.jsteps = st :: rest →
    let both : State := { s with jsteps := rest, jrn1 := applyStep s.jrn1 st }
    let held : State := if st.replays then countReplays both 1 1 else both
    (s.hdFailed = [] → exec .journalStepComplete s = .next (stepEffect held st.eff)) ∧
    (s.hdFailed ≠ [] → exec .journalStepComplete s = .next (stepEffect { s with jsteps := rest } st.eff)) ∧
    (∀ q acc, s.hdFailed = [] → st.eff = .accept q acc → 0 < freeSlots held →
      exec .journalStepComplete s = .next (updQue held q (fun x => { x with acc }))) ∧
    (∀ k, s.hdFailed = [] → st.eff = .start k → (∃ j ∈ rest, ∃ e ∈ j.slots, e.1 = k) → exec .journalStepComplete s = .next held)) ∧
  ((∀ (s : State) (trigger : Nat) (tgs : List Nat) (rest : List (Nat × List Nat)), regsUp s = true → s.resetting = none → retiring s = none →
    s.retQ = (trigger, tgs) :: rest → tgs ≠ [] → (∀ tg ∈ tgs, (terrace s tg).retired = false) → exec .retirementStart s = .next (recordStep
      (tgs.foldl (fun s tg => updTerrace s tg (fun t => { t with retiring := true })) { s with retQ := rest })
      { tgs, trigger, ridge := tgs.length = 4, rstep := 0 } 0)) ∧
  (∀ (s : State) (r : RetRec), s.resetting = none → retiring s = some r →
    let fence := r.rstep = 2 ∧ (∃ tg ∈ r.tgs, tg / 4 ∈ s.ridgeFailed) ∧ s.canalFence ≠ []
    (fence → exec .retirementStepDone s = .next s) ∧
    (¬ fence → exec .retirementStepDone s = .next (followRidges (recordStep (retireStep s r (r.rstep + 1)) r (r.rstep + 1))))) ∧
  (∀ (s : State) (r : RetRec), ∀ tg ∈ r.tgs, (terrace (retireStep s r 7) tg).retired = true ∧ (terrace (retireStep s r 7) tg).pstate = .gated) ∧
  (∀ (n : Fin 16) (s : State), watched s = true →
    (s.ridgeFailed.contains n.val = true → exec (.ridgeDieFail n) s = .next s) ∧
    (s.ridgeFailed.contains n.val = false → ∃ u, exec (.ridgeDieFail n) s = .next u ∧ n.val ∈ u.ridgeFailed ∧
      (laneAt u (2 * n.val)).failed = true ∧ (laneAt u (2 * n.val + 1)).failed = true)) ∧
  (∀ (tg : Fin 64) (s : State), watched s = true → exec (.islandHeartbeatLoss tg) s = .next (askRetire s 3 [tg.val])) ∧
  (∀ (n : Fin 32) (s : State), watched s = true → (laneAt s n.val).failed = false →
    let o := if n.val % 2 = 0 then n.val + 1 else n.val - 1
    let dead := rasAppend (updLane s n.val (fun l => { l with failed := true, ctxs := [], running := 0, used := 0 })) 0x22 2 10 n.val none 0
    ((laneAt s o).failed = true → exec (.flumeLaneFail n) s =
      .next (askRetire dead 1 ((List.range 4).map (fun k => n.val / 2 * 4 + k)))) ∧
    ((laneAt s o).failed = false → exec (.flumeLaneFail n) s =
      .next (followRidge (updLane dead o (fun l => l.takeOver (laneAt s n.val).ctxs)) (n.val / 2)) ∧
      ∀ (l : FLane) x, x ∈ (l.takeOver (laneAt s n.val).ctxs).ctxs ↔ x ∈ l.ctxs ∨ x ∈ (laneAt s n.val).ctxs))) ∧
  ((∀ (n : Fin 16) (s : State), watched s = true → n.val ∉ s.ridgeFailed → s.canalFence = [] →
    ∃ u, exec (.ridgeDieFail n) s = .next u ∧ ∀ a b, a < 20 → b < 20 → a ≠ b → a ≠ n.val → b ≠ n.val →
      (n.val ∉ canalPath false a b ∨ (a, b) ∈ s.canalAlt → canalRoute u a b = canalRoute s a b) ∧
      (n.val ∈ canalPath false a b → (a, b) ∉ s.canalAlt →
        (canalWaiting s a b = [] → canalRoute u a b = canalPath true a b ∧ pairFenced u a b = false) ∧
        (canalWaiting s a b ≠ [] → canalRoute u a b = canalPath false a b ∧ pairFenced u a b = true))) ∧
  ∀ (c : Bool) (a b : Nat), a < 20 → b < 20 →
    let p := canalPath c a b
    p.head? = some a ∧ p.getLast? = some b ∧ (∀ d ∈ p, 16 ≤ d → d = a ∨ d = b) ∧
      ∀ i x y, p[i]? = some x → p[i + 1]? = some y → 0 < canalEdges x y)

/-- When a host port goes Down the other Headwork, if its port is Up, owns the allotments and hears of it; a port that comes Up is at full or reduced
width or rate. A Headwork that fails is marked, its port is Down, and the survivor takes the journal; both failed is Faulted. -/
def Obligations.PortsAndHeadworks : Prop :=
  ∀ (p : Fin 2) (s : State),
    let o := 1 - p.val
    let down (fatal : Bool) : State := rasAppend (setHostPort s p.val {}) 0x27 2 8 p.val none fatal.toNat
    ((mget s.hostPorts p.val {}).state = 0 → ∀ f, exec (.hostPortDown p f) s = .next s) ∧
    ((mget s.hostPorts p.val {}).state ≠ 0 →
      (∀ f, portUp (down f) o = true → exec (.hostPortDown p f) s = .next (moveOwners (down f) p.val)) ∧
      (∀ f, portUp (down f) o = false → hdAlive s o = true → exec (.hostPortDown p f) s =
        .next (gaugePf (down f) o 5 0 [BitVec.ofNat 64 p.val] true))) ∧
    (∀ a, a < 1024 → allotEn s a = true → (allot s a).owner = p.val → (allot (moveOwners s p.val) a).owner = o) ∧
    (∀ w (rate : Fin 5), w ∉ [1, 4, 8, 16] → exec (.hostPortUp p w rate) s = .next s) ∧
    (∀ w (rate : Fin 5), hdAlive s p.val = true → s.perst.contains p.val = false → s.mode ≠ .off → s.mode ≠ .standby → w ∈ [1, 4, 8, 16] →
      ∃ u, exec (.hostPortUp p w rate) s = .next u ∧
        mget u.hostPorts p.val {} = { state := if w = 16 ∧ rate = 0 then 2 else 3, width := w, rate := rate.val } ∧
        mget u.hostPorts o {} = mget s.hostPorts o {}) ∧
    (watched s = true →
      (s.hdFailed.contains p.val = true → exec (.headworkFail p) s = .next s) ∧
      (s.hdFailed = [] → ∃ u, exec (.headworkFail p) s = .next u ∧ u.hdFailed = [p.val] ∧ mget u.hostPorts p.val {} = {} ∧
        u.mode = s.mode) ∧
      (s.hdFailed = [o] → ∃ u, exec (.headworkFail p) s = .next u ∧ u.mode = .faulted ∧ u.freason = 4 ∧ p.val ∈ u.hdFailed ∧ o ∈ u.hdFailed))

/-! ## Feeds, rails, Freeboard and heat (17, 20 R533) -/

/-- A feed that leaves 38 to 62 V is neither in range nor valid; the load moves to the other when that is valid, and without one the module enters
Off. A feed that is valid again takes Off to Standby; the load returns to feed A; the bus is discharged when both are low.
A rail's sample is kept, three missing samples in a row or 1 ms of disagreement make it an estimate at 85 % of its ceiling, a lost phase lowers the
ceiling in proportion, and a rail below its floor fails with the die it feeds. A ridge rail that draws more than its ceiling lowers the duty of its terraces
in proportion, and at duty 1/16 their point by a step; one within it gives a step back; the rung of a die moves by one (the step back: log 57). The time until
a discharge ends (log 7) and the power of an estimate, before the 10 % added to it (log 57), are free values. -/
def Obligations.FeedsAndRails : Prop :=
  (∀ (k : Fin 2) (v : Nat) (s : State),
    let left : State := { s with feeds := mset s.feeds k.val { feed s k.val with volts := v, inRange := false, valid := false } }
    let opened : State := { s with feeds := mset s.feeds k.val { feed s k.val with mateOpen := true, inRange := false, valid := false } }
    let fresh : Feed := { inRange := true, valid := true, volts := v, mateOpen := false }
    let o := 1 - k.val
    (380 ≤ v → v ≤ 620 → exec (.feedOutOfRange k v) s = .next s) ∧
    (v < 380 ∨ 620 < v → s.mode ≠ .off →
      (feedNo s.feedB ≠ k.val → (feed s o).inRange = true → exec (.feedOutOfRange k v) s = .next left) ∧
      (feedNo s.feedB = k.val → (feed s o).inRange = true → (feed s o).valid = true →
        exec (.feedOutOfRange k v) s = .next (switchFeed left (decide (k.val = 0)))) ∧
      ((feed s o).inRange = false → exec (.feedOutOfRange k v) s = .next (enterOff left) ∧ (enterOff left).mode = .off)) ∧
    (s.mode ≠ .off → s.mode ≠ .standby → (feedNo s.feedB ≠ k.val → (feed s o).inRange = true → exec (.matePinOpen k) s = .next opened) ∧
      (feedNo s.feedB = k.val → (feed s o).inRange = true → (feed s o).valid = true →
        exec (.matePinOpen k) s = .next (switchFeed opened (decide (k.val = 0))))) ∧
    (405 ≤ v → v ≤ 595 → exec (.feedValid k v) s = .next (if s.mode = .off
      then { s with feeds := mset s.feeds k.val fresh, discharging := none, mode := .standby, feedB := decide (k.val = 1), fb := { s.fb with win := some 0 } }
      else { s with feeds := mset s.feeds k.val fresh, discharging := none })) ∧
    (v < 405 ∨ 595 < v → exec (.feedValid k v) s = .next s) ∧
    (s.mode ≠ .off → s.feedB = true → (feed s 0).valid = true → (feed s 1).inRange = true →
      exec (.feedReturn 0) s = .next (switchFeed s false)) ∧
    ((feed s 0).volts < 380 → (feed s 1).volts < 380 → exec .dischargeStart s = .next
      { s with freeCtr := s.freeCtr + 1, discharging := some (s.clockNs + (Config.freeValue s.freeCtr).toNat % 810000001) }) ∧
    (380 ≤ (feed s 0).volts ∨ 380 ≤ (feed s 1).volts → exec .dischargeStart s = .next s)) ∧
  (∀ (k : Fin 29) (s : State), watched s = true →
    let n := k.val
    let r := rail s n
    let phases := (railTable n).1
    let guess (t : State) : State := { updRail t n (fun x => { x with
      pwr := min 4095 ((Config.freeValue t.freeCtr).toNat % 4096 + (railTable n).2 / 10) }) with freeCtr := t.freeCtr + 1 }
    let est (cause : Nat) : State :=
      let t := guess (updRail s n (fun x => { x with st := 2, ceil := some (railCeil s n * 85 / 100), missed := 0, disagree := 0 }))
      railThrottle (rasAppend (fbEvent t 2) 0x32 2 9 n none cause) n
    (∀ c : Fin 3, (r.st < 2 → exec (.railEstimation k c) s = .next (est c.val)) ∧ (2 ≤ r.st → exec (.railEstimation k c) s = .next s)) ∧
    (∀ m : RailSample, (r.st = 3 → exec (.railTelemetry k m) s = .next s) ∧
      (r.st = 2 → exec (.railTelemetry k m) s = .next (railThrottle (guess s) n))) ∧
    (∀ m : RailSample, r.st < 2 →
      (m.missing = true → r.missed < 2 → exec (.railTelemetry k m) s = .next (updRail s n (fun x => { x with missed := x.missed + 1 }))) ∧
      (m.missing = true → 2 ≤ r.missed → exec (.railTelemetry k m) s = .next (est 2)) ∧
      (m.missing = false → m.disagree = true → 19 ≤ r.disagree → exec (.railTelemetry k m) s = .next (est 0)) ∧
      (m.missing = false → (m.disagree = false ∨ r.disagree < 19) → exec (.railTelemetry k m) s = .next (railThrottle (updRail s n (fun x => { x with
        pwr := min 4095 m.power, missed := 0, disagree := if m.disagree then x.disagree + 1 else 0
        volts := m.volts, current := m.current, temp := m.temp })) n))) ∧
    (∀ (t : State) (i : Fin 4), 4 ≤ n → n < 20 →
      let tg := 4 * (n - 4) + i.val
      let x := terrace t tg
      let y := terrace (railThrottle t n) tg
      let d := dutyNow t tg
      ((rail t n).pwr ≤ railCeil t n → (y.railOp, y.railDuty) = (if x.railOp < 7 then (x.railOp + 1, x.railDuty) else (x.railOp, min 16 (x.railDuty + 1)))) ∧
      (railCeil t n < (rail t n).pwr → d ≤ 1 → (y.railOp, y.railDuty) = (min x.railOp x.target - 1, 1)) ∧
      (railCeil t n < (rail t n).pwr → 1 < d → (y.railOp, y.railDuty) = (x.railOp, max 1 (d * railCeil t n / (rail t n).pwr)))) ∧
    (∀ t : State, 20 ≤ n → n < 28 →
      let die := if n < 22 then 480 + (n - 20) else if n < 26 then 482 + n % 2 else 480 + (n - 26)
      (sensor (railThrottle t n) die).rung = (if railCeil t n < (rail t n).pwr then min 3 ((sensor t die).rung + 1) else (sensor t die).rung - 1)) ∧
    (r.lost < phases → r.st ≠ 3 →
      let up := phases - (r.lost + 1)
      exec (.phaseFail k) s = .next (railThrottle (rasAppend (fbEvent { s with rails := mset s.rails n { r with
        st := max 1 r.st, lost := r.lost + 1, ceil := some (min (railCeil s n) (up * (railTable n).2 / phases)) } } 2) 0x31 2 9 n none up) n)) ∧
    (∀ u : Fin 4, (rail s u.val).st ≠ 3 → exec (.ibcFail u) s =
      .next (fbEvent { s with rails := mset s.rails u.val { rail s u.val with st := 3, pwr := 0 } } 2)) ∧
    (r.st ≠ 3 →
      let dead := rasAppend (fbEvent { s with rails := mset s.rails n { r with st := 3 } } 2) 0x33 2 9 n none 0
      (4 ≤ n → n < 20 → exec (.railFail k) s = .next (askRetire dead 1 ((List.range 4).map (fun i => 4 * (n - 4) + i)))) ∧
      (20 ≤ n → n < 22 → exec (.railFail k) s = .next (loseGroup dead (n - 20))) ∧
      (22 ≤ n → n < 26 → exec (.railFail k) s = .next (headworkFail dead (n % 2))) ∧
      (26 ≤ n → n < 28 → exec (.railFail k) s = .next (loseGroup dead (n - 26))) ∧
      (n < 4 ∨ n = 28 → exec (.railFail k) s = .next dead)) ∧
    (∀ (tg : Fin 64) (isl : Island), exec (.droopDetect tg isl) s = .next (satAdd s (tBase tg.val + 0x1804) 0 0 32 1)))

/-- The loops of Freeboard: the fast one closes the window, whose power moves by no more than the ramp allows, sets the duty and takes or releases a rung; the
slow one moves the operating point by the duty of the millisecond; the target follows a lowered cap at RAMP; FLOOR above the cap throttles everything, and 10 ms
in a row below it return the awake terraces; the cap guard holds duty 1/16 until it is acknowledged. How the ramp clamps a window, and what takes a rung ahead
of a descending cap, are the model's reading (log 56). -/
def Obligations.FreeboardLoops : Prop :=
  ∀ s : State, watched s = true →
    (∀ m : FastSample,
      let c := closeWindow s (inputPower s m.ibc)
      let p := c.fb.win.getD 0
      let d := nextDuty c (m.duty.val + 1)
      let t : State := (m.droop.map (fun r => r.val)).foldl droopDuty { c with capGuard := false, fb := { c.fb with
        duty := d, dutyLow := min c.fb.dutyLow d, dutyHigh := max c.fb.dutyHigh d, target := nextTarget c p, xlow := c.fb.xlow && d == 1 } }
      let short := t.fb.target < p ∨ (m.ahead = true ∧ capInForce t < t.fb.target)
      (short → computeFloor t = true → exec (.fbFastLoop m) s = .next (applyLoops (setRung t (min 7 (t.fb.rung + 1))))) ∧
      ((¬ short ∨ computeFloor t = false) → p + 40 ≤ t.fb.target → t.fb.unach = false →
        exec (.fbFastLoop m) s = .next (applyLoops (setRung t (t.fb.rung - 1)))) ∧
      ((¬ short ∨ computeFloor t = false) → (t.fb.target < p + 40 ∨ t.fb.unach = true) → exec (.fbFastLoop m) s = .next (applyLoops t))) ∧
    (∀ a b c d, (∀ k : Fin 4, (rail s k.val).st < 2) → inputPower s [a, b, c, d] = a + b + c + d) ∧
    (∀ ask, ∃ w,
      let u := (closeWindow s ask).fb
      let last := s.fb.win.getD ask
      u.win = some w ∧ w ≤ last + rampStep s ∧ last ≤ w + rampStep s ∧ u.ballast = w - ask ∧ u.rising = ask - w ∧
      (last ≤ ask + rampStep s → ask ≤ last + rampStep s → w = ask) ∧
      u.winN = s.fb.winN + 1 ∧ u.winSum = s.fb.winSum + w ∧ u.balSum = s.fb.balSum + (w - ask)) ∧
    (∀ pwr, (s.fb.target ≤ capInForce s → nextTarget s pwr = capInForce s) ∧
      (capInForce s < s.fb.target → capInForce s ≤ nextTarget s pwr ∧
        nextTarget s pwr ≤ max (capInForce s) (s.fb.target - rampInForce s / 10))) ∧
    (∀ d, (s.fb.unach = true → nextDuty s d = 1) ∧ (s.fb.unach = false → 0 < s.fb.rising → nextDuty s d = min d s.fb.duty) ∧
      (s.fb.unach = false → s.fb.rising = 0 → nextDuty s d = d)) ∧
    (∀ m : SlowSample,
      let pwr := if s.fb.winN = 0 then s.fb.pwr else s.fb.winSum / s.fb.winN
      let bal := if s.fb.winN = 0 then s.fb.balMs else s.fb.balSum / s.fb.winN
      let t : State := { s with fb := { s.fb with
        pwr := pwr, balMs := bal, winN := 0, winSum := 0, balSum := 0
        withheld := m.withheld, inlet := m.inlet, outlet := m.outlet, flow := m.flow, coolCap := coolCap m
        grant := s.fb.grant.map (fun g => { g with life := g.life - 1 }) } }
      let op := if s.fb.dutyHigh < 12 then s.fb.op - 1
        else if s.fb.dutyLow = 16 ∧ pwr - bal + m.withheld < capInForce t ∧ s.fb.unach = false then min 7 (s.fb.op + 1) else s.fb.op
      exec (.fbSlowLoop m) s = .next (applyLoops { t with fb := { t.fb with op, dutyLow := s.fb.duty, dutyHigh := s.fb.duty } })) ∧
    (∀ floor per,
      let cap := capInForce s
      let t (un : Bool) (ok : Nat) : State := { s with fb := { s.fb with floor, unach := un, okMs := ok, perTerrace := per } }
      (floor ≤ cap → cap < floor + 20 → exec (.fbFloorEval floor per) s = .next (t false 0)) ∧
      (floor + 20 ≤ cap → s.fb.okMs < 10 → exec (.fbFloorEval floor per) s = .next (t false (s.fb.okMs + 1))) ∧
      (floor + 20 ≤ cap → 10 ≤ s.fb.okMs → exec (.fbFloorEval floor per) s = .next { t false 11 with awakeMax := 64 }) ∧
      (cap < floor → ∃ u, exec (.fbFloorEval floor per) s = .next u ∧ u.fb.duty = 1 ∧ u.fb.op = 0 ∧ u.fb.rung = 7 ∧ u.fb.unach = true ∧ u.fb.floor = floor)) ∧
    (∀ avg, (11 * capInForce s < 10 * avg ∨ 2900 < avg → exec (.capGuard avg) s = .next (fbEvent { s with capGuard := true } 4)) ∧
      (10 * avg ≤ 11 * capInForce s → avg ≤ 2900 → exec (.capGuard avg) s = .next s)) ∧
    (s.hdFailed = [] → exec .fbShadowSync s = .next { s with fbShadow := s.fb, fbSync := s.clockNs })

/-- A slew settles at the target; the ceiling of a terrace or a lane falls a step while it is at 100 degrees or more and rises again in Normal; Warm lasts from
100 down to 95 degrees and Hot from 110 to 105; 118 degrees trip the module, which keeps its journal and loses HBM.
A domain that Freeboard may gate drains unless ballast covers a fall, is gated when its port is empty and nothing it awaits is outstanding, with a terrace's
translations gone, and wakes at OP0, a terrace with its ridge and lane, a lane with its ridge, unless a rise is held back or a descending cap holds it; the time
a terrace needs to wake is a free value (log 58); a dispatch that comes back is decided again. The energy of a window is charged to allotments and overhead
without remainder. -/
def Obligations.HeatAndGating : Prop :=
  ((∀ (tg : Fin 64) (s : State), (terrace s tg.val).slew = true → exec (.voltageSettled tg) s = .next (followRidge (updTerrace s tg.val (fun t =>
    { t with op := t.target, mv := t.opMv t.target, slew := false, prevDuty := t.duty })) (tg.val / 4))) ∧
  (∀ (tg : Fin 64) (s : State), (terrace s tg.val).slew = false → exec (.voltageSettled tg) s = .next s) ∧
  (∀ (tg : Fin 64) (s : State), watched s = true →
    let old := (terrace s tg.val).ceil
    let goes (c : Nat) : Prop := exec (.thermalCeilingStep (.terrace tg)) s =
      .next (followRidge (applyLoop (updTerrace s tg.val (fun t => { t with ceil := c })) tg.val) (tg.val / 4))
    (100 ≤ terraceTj s tg.val → goes (old - 1)) ∧
      (terraceTj s tg.val < 100 → terraceStage s tg.val = .normal → goes (min 7 (old + 1))) ∧
      (terraceTj s tg.val < 100 → terraceStage s tg.val ≠ .normal → goes old)) ∧
  (∀ (fg : Fin 32) (s : State), watched s = true →
    let old := (laneAt s fg.val).ceil
    let x := sensor s (448 + fg.val)
    let goes (c : Nat) : Prop := exec (.thermalCeilingStep (.lane fg)) s =
      .next (followLane (updLane s fg.val (fun l => { l with ceil := c })) fg.val)
    (100 ≤ x.tj → goes (old - 1)) ∧ (x.tj < 100 → x.stage = .normal → goes (min 7 (old + 1))) ∧ (x.tj < 100 → x.stage ≠ .normal → goes old)) ∧
  (∀ (r : Fin 16) (s : State), exec (.thermalCeilingStep (.ridge r)) s = .next s) ∧
  (∀ (p : Junction) (temp : Nat) (s : State), s.mode ≠ .off → s.mode ≠ .standby →
    (118 ≤ temp → exec (.junctionSample p temp) s = .next (trip s)) ∧
    (temp < 118 → ∃ u, exec (.junctionSample p temp) s = .next u ∧ u.mode = s.mode ∧ u.hbm = s.hbm ∧
      (sensor u (sensorNo p)).tj = temp ∧ (sensor u (sensorNo p)).stage = junctionStage (sensor s (sensorNo p)).stage temp ∧
      ∀ n, n ≠ sensorNo p → sensor u n = sensor s n)) ∧
  (∀ s : State, s.mode ≠ .off → s.mode ≠ .standby → ∃ u, exec .spillwayTrip s = .next u ∧ u.mode = .faulted ∧ u.tripped = true ∧ u.runs = [] ∧
    u.hbm = {} ∧ u.jrn0 = s.jrn0 ∧ u.jrn1 = s.jrn1 ∧ u.freason = (if s.mode = .faulted then s.freason else 3)) ∧
  (∀ t : Nat, (110 ≤ t → ∀ o, junctionStage o t = .hot) ∧ (105 < t → t < 110 → junctionStage .hot t = .hot) ∧
    (100 ≤ t → t ≤ 105 → ∀ o, junctionStage o t = .warm) ∧ (95 < t → t < 100 → junctionStage .normal t = .normal ∧ junctionStage .warm t = .warm) ∧
    (t ≤ 95 → ∀ o, junctionStage o t = .normal))) ∧
  ((∀ (d : Domain) (s : State), working s = true → domainState s d = .awake →
    (mayGate s d = true → s.fb.ballast = 0 → exec (.powerGate d) s = .next (setDomain s d .drain)) ∧
    (mayGate s d = false ∨ s.fb.ballast ≠ 0 → exec (.powerGate d) s = .next s)) ∧
  (∀ (d : Domain) (s : State), (domainState s d ≠ .drain ∨ domainBusy s d = true → exec (.domainGated d) s = .next s) ∧
    (domainState s d = .drain → domainBusy s d = false → ∃ u, exec (.domainGated d) s = .next u ∧ domainState u d = .gated ∧
      ∀ tg, d = .terrace tg → terrace u tg.val = { terrace s tg.val with pstate := .gated, tlb := [], pins := [] })) ∧
  (∀ (tg : Fin 64) (s : State) (k : Nat) (r : Run) (x : Slot), domainState s (.terrace tg) ≠ .awake → runOfT s tg.val = some (k, r) →
    slotAt s k = some x → r.started = false → x.st = .running →
    exec (.returnedPacket (.terrace tg)) s = .next (request (freeRun s k) { slots := [(k, some { x with st := .accepted })] })) ∧
  (∀ (d : Domain) (s : State), (working s = false ∨ domainState s d ≠ .gated ∨ wakeHeld s = true) → exec (.domainWake d) s = .next s) ∧
  (∀ s : State, 0 < s.fb.rising → wakeHeld s = true) ∧
  (∀ (tg : Fin 64) (s : State), working s = true → (terrace s tg.val).pstate = .gated → wakeHeld s = false →
    ((terrace s tg.val).retired = true → exec (.domainWake (.terrace tg)) s = .next s) ∧
    ((terrace s tg.val).retired = false → ∃ u, exec (.domainWake (.terrace tg)) s = .next u ∧ terrace u tg.val = { terrace s tg.val with
      pstate := .awake, op := 0, target := 0, mv := (terrace s tg.val).opMv 0, slew := false, duty := s.fb.duty, prevDuty := s.fb.duty
      wakeUntil := s.clockNs + (Config.freeValue s.freeCtr).toNat % 15001 } ∧ u.freeCtr = s.freeCtr + 1 ∧
      ridgePState u (tg.val / 4) = .awake ∧ (laneAt u (laneOf s tg.val)).pstate = .awake)) ∧
  (∀ (fg : Fin 32) (s : State), working s = true → (laneAt s fg.val).pstate = .gated → wakeHeld s = false →
    ∃ u, exec (.domainWake (.lane fg)) s = .next u ∧ (laneAt u fg.val).pstate = .awake ∧ ridgePState u (fg.val / 2) = .awake ∧
      ∀ tg, terrace u tg = terrace s tg) ∧
  (∀ (r : Fin 16) (s : State), working s = true → ridgePState s r.val = .gated → wakeHeld s = false →
    exec (.domainWake (.ridge r)) s = .next { s with ridgePower := mset s.ridgePower r.val .awake }) ∧
  (∀ (m : EnergySample) (s : State), watched s = true → ∃ u, exec (.energyWindowClose m) s = .next u ∧
    mget u.ctrs 0x162008 0 = mget s.ctrs 0x162008 0 + BitVec.ofNat 64 m.uj ∧
    ((mget u.ctrs 0x162000 0 - mget s.ctrs 0x162000 0) +
      ((List.range 1024).map (fun a => mget u.ctrs (0x160000 + 8 * a) 0 - mget s.ctrs (0x160000 + 8 * a) 0)).foldl (fun x y => x + y) 0
        = BitVec.ofNat 64 m.uj)))

/-! ## Resets, Exmas and firmware (15 R423, R424, 18 R487 to R512) -/

/-- RST_CTL: with the key, in its states and with no reset running, each operation is performed; otherwise the write is dropped and logged.
The resets from outside: PERST_N takes a fundamental reset and ends the port, and its rise trains the port again; a hot reset is a warm one; an FLR
resets the allotment its function binds; a rise of MOD_EN powers on; the end of a reset restores the RW fields and the work, once every Cistern scan has ended
(R274, R424), or enters Maintenance. -/
def Obligations.Resets : Prop :=
  (∀ (p : Fin 2) (v : W32) (s : State), regsUp s = true →
    let good := fld v 0 8 = 0xB7 ∧ s.resetting = none
    let log := logDropped s 0x170000 v.toNat
    (fld v 28 3 = 1 → (good → takesReset s = true → exec (.rstCtlWarm (.pf p) v) s = .next (startReset s 1 1 s.mode)) ∧
      (¬ good ∨ takesReset s = false → exec (.rstCtlWarm (.pf p) v) s = .next log)) ∧
    (fld v 28 3 = 2 → (good → takesReset s = true → exec (.rstCtlCold (.pf p) v) s = .next (startReset s 3 1 .ready)) ∧
      (¬ good ∨ takesReset s = false → exec (.rstCtlCold (.pf p) v) s = .next log)) ∧
    (fld v 28 3 = 3 → (good → s.mode = .ready → exec (.rstCtlDrain (.pf p) v) s = .next (setMode s .draining)) ∧
      (¬ good ∨ s.mode ≠ .ready → exec (.rstCtlDrain (.pf p) v) s = .next log)) ∧
    (fld v 28 3 = 4 → (good → s.mode = .draining → exec (.rstCtlResume (.pf p) v) s = .next (setMode s .ready)) ∧
      (¬ good ∨ s.mode ≠ .draining → exec (.rstCtlResume (.pf p) v) s = .next log))) ∧
  ((∀ (p : Fin 2) (s : State), s.mode = .off → exec (.perstAssert p) s = .next { s with perst := setIns s.perst p.val }) ∧
  (∀ (p : Fin 2) (s : State), s.mode ≠ .off → (mget s.hostPorts p.val {}).state ≠ 0 →
    let held := setHostPort { s with perst := setIns s.perst p.val } p.val {}
    (takesReset s = true → exec (.perstAssert p) s = .next (startReset held 2 (3 + p.val) s.mode)) ∧
    (takesReset s = false → exec (.perstAssert p) s = .next held)) ∧
  (∀ (p : Fin 2) (s : State), s.perst.contains p.val = true → hdAlive s p.val = true → s.mode ≠ .off → s.mode ≠ .standby →
    exec (.perstDeassert p) s = .next (setHostPort { s with perst := setDel s.perst p.val } p.val { state := 1 })) ∧
  (∀ (p : Fin 2) (s : State), (takesReset s = true → exec (.pcieHotReset p) s = .next (startReset s 1 6 s.mode)) ∧
    (takesReset s = false → exec (.pcieHotReset p) s = .next s)) ∧
  (∀ (vf : Fin 1024) (s : State) (a : Nat), (List.range 1024).find? (fun a => allotVf s a == some vf.val) = some a → watched s = true →
    s.resetting = none → (allot s a).cmd = none → exec (.vfFlr vf) s = .next (allotResetOp s a)) ∧
  (∀ (b : BootSample) (s : State), (s.mode = .standby → b.hot < 90 → b.coolOk = true → exec (.modEnRise b) s = .next (powerOn s 0 b) ∧
      (powerOn s 0 b).mode = .boot) ∧
    (s.mode ≠ .standby ∨ 90 ≤ b.hot ∨ b.coolOk = false → exec (.modEnRise b) s = .next s)) ∧
  (∀ (hd : Fin 2) (s : State) (r : Reset), s.mode = .boot → s.resetting = some r → hdAlive s hd.val = true → r.wdog = [] →
    runnable s 0 (!(s.fw.run.getD 0 false)) = false → ∃ u, exec (.riderWatchdog hd) s = .next u ∧ u.mode = .maintenance ∧ u.resetting = none ∧
      fld (rg u 0x170008 0) 24 4 = 6) ∧
  (∀ (hd : Fin 2) (s : State) (r : Reset), s.mode = .boot → s.resetting = some r → hdAlive s hd.val = true → r.wdog = [] →
    runnable s 0 (!(s.fw.run.getD 0 false)) = true → s.fw.run.length = 3 → ∃ u, exec (.riderWatchdog hd) s = .next u ∧ u.mode = .boot ∧
      u.fw.run.getD 0 false = (if hd.val = seqHd s then !(s.fw.run.getD 0 false) else s.fw.run.getD 0 false) ∧
      ∃ r', u.resetting = some r' ∧ r'.wdog = [hd.val] ∧ r'.kind = r.kind) ∧
  (∀ (hd : Fin 2) (s : State) (r : Reset), s.mode = .boot → s.resetting = some r → hdAlive s hd.val = true → r.wdog = [1 - hd.val] →
    (∀ b, runnable s 0 b = true) → ∃ u r', exec (.riderWatchdog hd) s = .next u ∧ u.mode = .boot ∧ u.resetting = some r' ∧ r'.kind = 3 ∧
      r'.source = 5) ∧
  (∀ (s : State) (r : Reset), s.resetting = some r →
    let put : State := if r.kind = 1 ∨ r.kind = 2 then s.rwSaved.foldl putRw s else s
    let b := if r.scan then s else beginRestore s r
    (r.kind = 2 → s.perst ≠ [] → exec .postResetRestore s = .next s) ∧
    ((r.kind = 2 → s.perst = []) →
      (∀ off, s.mode = .boot → shortfall s = some off → exec .postResetRestore s = .next (shortfallFault s off) ∧ (shortfallFault s off).mode = .faulted) ∧
      ((s.mode = .boot → shortfall s = none) →
        (r.goal = .maintenance → exec .postResetRestore s =
          .next (setMode { bootEnds put r.goal with rwSaved := [], resetting := none, bells := [] } .maintenance)) ∧
        (r.goal ≠ .maintenance → scansLeft b = true → exec .postResetRestore s = .next b) ∧
        (r.goal ≠ .maintenance → scansLeft b = false → exec .postResetRestore s = .next (endRestore (setMode (bootEnds b r.goal) r.goal)))))) ∧
  (∀ s : State, s.resetting = none → exec .postResetRestore s = .next s))

/-- A warm reset keeps HBM, the far tier, the RAS log, the Freeboard and the marks of failed parts; the journal's slots and queue table with the steps in
flight complete and the items that a fault of their own had stopped completed (R409, R421); the translation fault log and its counts with the faults of the
accesses that the stopped items had made (R331); it clears the terrace memories, the residency tables, the latched counter halves and every translation that
was cached, and keeps the RW fields for Rider to restore (log 75). -/
def Obligations.WarmResetKeeps : Prop :=
  ∀ (s : State) (src : Nat) (g : Mode), s.resetting = none →
    let u := startReset s 1 src g
    let own := (s.runs.filter (fun e => e.2.stopped && !e.2.parked && faulted s e.1)).map (fun e => e.1)
    let v := dropRuns (flushSteps (own.foldl (fun s k => completeItem s k 2 0) s))
    u.hbm = s.hbm ∧ u.hbmPoison = s.hbmPoison ∧ u.far = s.far ∧ u.jrn0 = v.jrn0 ∧ u.jrn1 = v.jrn1 ∧ u.jsteps = [] ∧ u.ras = s.ras ∧ u.flog = v.flog ∧
      u.fb = s.fb ∧ u.shadows = [] ∧ rg u 0x110010 0 = rg v 0x110010 0 ∧
      (∀ a, a < 1024 → rg u (0x100000 + 0x10 * a + 0xC) 0 = rg v (0x100000 + 0x10 * a + 0xC) 0) ∧
      (own = [] → s.jsteps = [] → v.jrn0 = s.jrn0 ∧ v.jrn1 = s.jrn1) ∧
      (s.runs = [] → s.jsteps = [] → v.flog = s.flog ∧ rg v 0x110010 0 = rg s 0x110010 0 ∧
        ∀ a, a < 1024 → rg v (0x100000 + 0x10 * a + 0xC) 0 = rg s (0x100000 + 0x10 * a + 0xC) 0) ∧
      u.rwSaved = rwFields v.regs ∧
      u.hdFailed = s.hdFailed ∧ u.ridgeFailed = s.ridgeFailed ∧ u.skv = s.skv ∧ u.mode = s.mode ∧
      u.resetting = some { kind := 1, source := src, goal := g } ∧
      (∀ tg, (terrace u tg).ws = {} ∧ (terrace u tg).as = {} ∧ (terrace u tg).ps = {} ∧ (terrace u tg).res = [] ∧ (terrace u tg).tlb = [] ∧
        (terrace u tg).threads = [] ∧ (terrace u tg).slot = none ∧ (terrace u tg).degraded = (terrace s tg).degraded ∧
        (terrace u tg).retired = (terrace s tg).retired) ∧
      ∀ n, (saddle u n).hbmStacks = (saddle s n).hbmStacks ∧ (saddle u n).lines = [] ∧ (saddle u n).stlb = []

/-- The state commands of Exmas: each does what it says and answers SUCCESS in its states, and answers BAD_STATE in another, with nothing changed. In Off,
in recovery Maintenance and where only the always-on domain is awake, the module says nothing to a command that is not heard there.
The other commands of Exmas: the four bytes at an offset are read, and registers written where Exmas writes them, with a misaligned write, one of an unoccupied
offset and one that is dropped logged; events leave oldest first; a configuration goes to the older
copy and is read back; a diagnostic that passes clears the degraded marks of a terrace without a retirement record, and its result is an event. -/
def Obligations.Exmas : Prop :=
  (∀ s : State,
    let ok (u : State) : State := { u with out := u.out ++ [.exmas .success []] }
    let heard := recovery s = false ∧ s.resetting = none
    (s.mode ≠ .off → recovery s = false → exec .getState s =
      .next { s with out := s.out ++ [.exmas .success [modeCode s.mode, (rg s 0x170008 0).toNat, (fbStat s).toNat]] }) ∧
    (s.mode = .off → exec .getState s = .next s ∧ exec .drain s = .next s ∧ exec .powerOff s = .next s) ∧
    (∀ b, s.mode = .standby → s.resetting = none → bootAllowed s b = true → exec (.powerOn b) s = .next (ok (powerOn s 2 b))) ∧
    (heard →
      (s.mode = .maintenance ∨ s.mode = .faulted ∨ s.mode = .draining ∧ (jrn s).qtab.all (fun e => e.2.acc == e.2.seq) = true →
        exec .powerOff s = .next (ok (enterStandby s))) ∧
      (s.mode = .ready → exec .powerOff s = .next { s with out := s.out ++ [.exmas .badState []] }) ∧
      (s.mode = .ready → exec .drain s = .next (ok (setMode s .draining))) ∧
      (s.mode = .draining → exec .drain s = .next { s with out := s.out ++ [.exmas .badState []] }) ∧
      (s.mode = .draining → exec .resume s = .next (ok (setMode s .ready))) ∧
      (operatorMaint s = true → exec .resume s = .next (ok (startReset (setRg s 0x170008 (setFld (rg s 0x170008 0) 24 4 0)) 1 2 .ready))) ∧
      (takesReset s = true → exec .exmasResetWarm s = .next (ok (startReset s 1 2 s.mode)) ∧
        exec .exmasResetCold s = .next (ok (startReset s 3 2 .ready))) ∧
      (s.mode = .ready ∨ s.mode = .draining → exec .maintEnter s =
        .next (ok (setMode (setRg (dropRuns s) 0x170008 (setFld (rg s 0x170008 0) 24 4 5)) .maintenance))) ∧
      (∀ (tg : Fin 64) (ridge : Bool), s.mode = .ready ∨ s.mode = .draining → exec (.retire tg ridge) s =
        .next (ok (askRetire s 4 (if ridge then (List.range 4).map (fun k => tg.val / 4 * 4 + k) else [tg.val])))) ∧
      (∀ n, s.mode = .maintenance → s.diag = none → n < 64 → exec (.diagRun n) s = .next (ok { s with diag := some n })))) ∧
  (∀ s : State,
    let ok (u : State) (ws : List Nat) : State := { u with out := u.out ++ [.exmas .success ws] }
    let bad (u : State) (st : ExStatus) : State := { u with out := u.out ++ [.exmas st []] }
    (s.mode ≠ .off → s.mode ≠ .standby → s.mode ≠ .boot → alwaysOnOnly s = false → recovery s = false →
      (∀ off : BitVec 28, exec (.readReg off) s =
        .next (ok (readBytes s .exmas .bar0 off.toNat 4).2 [leNat (readBytes s .exmas .bar0 off.toNat 4).1])) ∧
      (∀ off : BitVec 28, off.toNat % 4 = 0 → exec (.readReg off) s = .next (ok (readReg s 1 off.toNat).2 [(readReg s 1 off.toNat).1.toNat])) ∧
      (∀ (off : BitVec 28) v, off.toNat % 4 ≠ 0 → exec (.writeReg off v) s =
        .next (bad (rasAppend s 0x01 0 0 0 none (off.toNat + 3 * 2 ^ 34)) .invalid)) ∧
      (∀ (off : BitVec 28) v, off.toNat % 4 = 0 → regRow off.toNat = none → off.toNat ≠ 0x150004 → off.toNat ≠ 0x170000 →
        exec (.writeReg off v) s = .next (bad (rasAppend s 0x02 0 0 0 none (off.toNat + 3 * 2 ^ 34)) .invalid)) ∧
      (∀ (off : BitVec 28) v, off.toNat % 4 = 0 → regRow off.toNat ≠ none → off.toNat ≠ 0x150004 → off.toNat ≠ 0x170000 →
        exmasPlain off.toNat = false → exec (.writeReg off v) s = .next (bad s .invalid)) ∧
      (∀ (off : BitVec 28) v, exmasPlain off.toNat = true →
        (s.resetting = none → exec (.writeReg off v) s = .next (ok (plainWrite s .exmas off.toNat v) [])) ∧
        (s.resetting ≠ none → exec (.writeReg off v) s = .next (bad (logDropped s off.toNat v.toNat) .busy))) ∧
      (∀ v, s.resetting = none →
        let n := fld v 0 12
        (900 ≤ n → n ≤ 2800 → n % 10 = 0 → exec (.writeReg 0x150004 v) s = .next (ok (setRg s 0x150004 (v &&& 0xFFF#32)) [])) ∧
        (n < 900 ∨ 2800 < n ∨ n % 10 ≠ 0 → exec (.writeReg 0x150004 v) s = .next (bad (logDropped s 0x150004 v.toNat) .invalid))) ∧
      (s.evq = [] → exec .getEvent s = .next (ok s [])) ∧
      (∀ e rest, s.evq = e :: rest → exec .getEvent s = .next (ok { s with evq := rest } (e.dropped :: e.words))) ∧
      (∀ e, exec (.setEventReceiver e) s = .next (ok { s with receiver := e } [])) ∧
      exec .configGet s = .next (ok s (nvWords (nvNow s)))) ∧
    (∀ c : NvConfig, s.mode = .maintenance ∨ s.mode = .draining → recovery s = false → s.resetting = none → configBad c = false →
      ∃ u, exec (.configSet c) s = .next u ∧ nvNow u = { (nvNow s).apply c with seq := max s.nv0.seq s.nv1.seq + 1 } ∧ u.guarded = s.guarded ∧
        u.mir = s.mir ∧ u.mode = s.mode) ∧
    (∀ (r : DiagResult) tg, s.diag = some tg → r.pass = true → (terrace s tg).recorded = false → exec (.diagDone r) s =
      .next (exEvent (verifyRails (updTerrace { s with diag := none } tg (fun t => { t with degraded := [] }))) ([0x1010, tg, 1] ++ r.failed))) ∧
    (∀ (r : DiagResult) tg, s.diag = some tg → r.pass = false → (terrace s tg).recorded = false → exec (.diagDone r) s =
      .next (exEvent (askRetire (updTerrace { s with diag := none } tg (fun t => { t with degraded := [0, 1, 2, 3] })) 0 [tg]) ([0x1010, tg, 0] ++ r.failed))))

/-- The management protocols and firmware update: an endpoint ID that is set is the one read back; monitoring answers readings and changes nothing; an
update invalidates the slot that does not run, an image is valid once verified, and its slot is chosen at activation.
SPDM answers what the spec states of an answer, with free values for the rest (log 3), and changes nothing else: versions 1.2 and 1.3, P-384 with
SHA-384, the chain of slot 0 only, and measurements 1 to 6. -/
def Obligations.ManagementAndSpdm : Prop :=
  (∀ s : State, s.mode ≠ .off → recovery s = false → alwaysOnOnly s = false →
    let slot (u : Option Update) (c : Nat) (i : Image) : State := { s with update := u, flash := mset s.flash (inactiveSlot s c) i }
    let tells (u : State) (ok : Bool) (ws : List Nat) : State := { u with out := u.out ++ [.reply 2 ok ws []] }
    (∀ m : List Byte, m.getD 2 0 = 1 → (m.getD 3 0).toNat % 4 < 2 → 8 ≤ (m.getD 4 0).toNat → (m.getD 4 0).toNat < 255 →
      exec (.mctpControl m) s = .next { s with eid := m.getD 4 0, out := s.out ++ [.reply 0 true [1, (m.getD 4 0).toNat] []] }) ∧
    (∀ m : List Byte, m.getD 2 0 = 2 → exec (.mctpControl m) s = .next { s with out := s.out ++ [.reply 0 true [2, s.eid.toNat] []] }) ∧
    (∀ m : List Byte, ∃ ws, exec (.pldmMonitoring m) s = .next { s with out := s.out ++ [.reply 1 true ws []] } ∧ ws.length = 531 ∧
      (∀ n, n < 484 → ws[n]? = some (sensor s n).tj) ∧ (∀ k, k < 12 → ws[484 + k]? = some (stackOf s k).temp) ∧
      (∀ k, k < 29 → ws[496 + k]? = some (rail s k).pwr) ∧ ws[525]? = some s.fb.pwr) ∧
    (∀ (c : Fin 3) ver svn, s.update = none → updateStates s c.val = true → s.resetting = none → svn ≤ 63 →
      exec (.requestUpdate c ver svn) s = .next (tells (slot (some { comp := c.val, ver, svn, verified := false }) c.val {}) true [c.val])) ∧
    (∀ (c : Fin 3) ver svn u, s.update = some u → exec (.requestUpdate c ver svn) s = .next (tells s false [c.val, 1])) ∧
    (∀ u, s.update = some u → u.verified = false →
      (s.fw.svnMin.getD u.comp 0 ≤ u.svn → exec (.verifyComplete true) s = .next (tells
        (slot (some { u with verified := true }) u.comp { valid := true, ver := u.ver, svn := u.svn }) true [u.comp, 2])) ∧
      exec (.verifyComplete false) s = .next (tells { s with update := none } false [u.comp, 2]) ∧
      ∀ b, exec (.activateFirmware b) s = .next (tells s false [u.comp, 3])) ∧
    (∀ u b, s.update = some u → u.verified = true → ∃ t, exec (.activateFirmware b) s = .next (tells t true [u.comp, 3]) ∧ t.update = none ∧
      (nvNow t).slots = (nvNow s).slots.set u.comp (!(s.fw.run.getD u.comp false)) ∧ t.fw.run = s.fw.run ∧ t.flash = s.flash)) ∧
  (∀ s : State, s.mode ≠ .off → s.mode ≠ .standby → recovery s = false →
    let answers (c : Instr) (ok : Bool) (ws : List Nat) (n : Nat) : Prop := exec c s = .next { s with
      freeCtr := s.freeCtr + n
      out := s.out ++ [.reply 3 ok ws ((List.range n).map (fun k => Config.freeValue (s.freeCtr + k)))] }
    answers .getVersion true [0x12, 0x13] 0 ∧ answers .getCapabilities true [1, 1, 1] 1 ∧ answers .getDigests true [0] 6 ∧
    (∀ a, (a % 4 = 3 → answers (.negotiateAlgorithms a) true [3] 0) ∧ (a % 4 ≠ 3 → answers (.negotiateAlgorithms a) false [a] 0)) ∧
    (∀ off len, answers (.getCertificate 0 off len) true [0, off, len] ((len + 7) / 8)) ∧
    (∀ slot off len, slot ≠ 0 → answers (.getCertificate slot off len) false [slot] 0) ∧
    answers (.challenge 0) true [0] 12 ∧ (∀ slot, slot ≠ 0 → answers (.challenge slot) false [slot] 0) ∧
    (∀ k, (1 ≤ k → k ≤ 6 → answers (.getMeasurements k) true [k] 18) ∧ (k = 0 ∨ 6 < k → answers (.getMeasurements k) false [k] 0)))

/-! ## Skovuk and the sideband (16 R432 to R450, 20 R535 to R542) -/

/-- The link layer: a port that trains reports this module's ID, and runs on four lanes or more, none of them one removed since it last trained for another
reason, with a partner other than this module; it sends again what its retry buffer holds; it retrains when it loses a lane, in training too, and goes Down
below four; a flit in sequence is taken and its credit returned, in an idle flit when no other leaves; a bad flit asks for a replay and an early one asks once;
100 us of silence retrain.
A flit on the wire is 256 bytes, and what is received of it is what was sent, its CRC right: sequence numbers, kind, channel and credits (R437,
Table 16-7; the order of the CRC's bits is the model's, log 76). -/
def Obligations.SkovukLinks : Prop :=
  (∀ (k : Fin 8) (s : State),
    let x := skvPort s k.val
    (∀ mask mgr (partner : BitVec 14) rtt, skvIdValid s = true →
      let told : State := { s with out := s.out ++ [.report k.val (skvId s) false] }
      let lanes := mask &&& ~~~x.removed
      let v := setPortState (updPort told k.val (fun x => { x with
        lanes := lanes, mgr, partner := partner.toNat, rtt := min 0xFFFF rtt, asked := false })) k.val (if lanes = 0xFF#8 then 2 else 3)
      (mgr = false → partner.toNat = skvId s → exec (.skvPortTrained k mask mgr partner rtt) s =
        .next (skvLog (portDown told k.val) k.val partner.toNat 0)) ∧
      (mgr = true ∨ partner.toNat ≠ skvId s → laneCount lanes < 4 → exec (.skvPortTrained k mask mgr partner rtt) s = .next (portDown told k.val)) ∧
      (mgr = true ∨ partner.toNat ≠ skvId s → 4 ≤ laneCount lanes →
        (x.retry = [] → exec (.skvPortTrained k mask mgr partner rtt) s = .next (drainPort v k.val)) ∧
        (∀ e rest, x.retry = e :: rest → exec (.skvPortTrained k mask mgr partner rtt) s = .next (drainPort (replay v k.val e.1) k.val)))) ∧
    (∀ mask mgr (partner : BitVec 14) rtt, skvIdValid s = false → exec (.skvPortTrained k mask mgr partner rtt) s = .next s) ∧
    (∀ lane : Fin 8, x.state ≠ 0 → bit x.lanes lane.val = true →
      let lost := satAdd s (0x7000104 + 0x10 * k.val) 0 0 8 1
      let ls := setFld x.lanes lane.val 1 0
      (laneCount ls < 4 → exec (.skvLaneRemove k lane) s = .next (portDown lost k.val)) ∧
      (4 ≤ laneCount ls → exec (.skvLaneRemove k lane) s = .next (setPortState (updPort lost k.val (fun x => { x with
        lanes := ls, removed := setFld x.removed lane.val 1 1 })) k.val 1))) ∧
    (∀ lane : Fin 8, (x.state = 0 ∨ bit x.lanes lane.val = false) → exec (.skvLaneRemove k lane) s = .next s) ∧
    (∀ f : Flit, skvUp s k.val = true →
      let late := (f.lseq - x.rxNext).toNat
      let acked := updPort (ackFlits s k.val f.ack) k.val (fun x => takeCredits x f.cred)
      (f.ok = false → ∃ u, exec (.skvFlitReceive k f) s = .next u ∧ skvPort u k.val = { x with asked := true, owed := x.rest } ∧
        u.out = s.out ++ [.flit k.val (bareFlit 2 (x.txSeq - 1) (x.rxNext - 1) x.credits)]) ∧
      (f.ok = true → 3 ≤ f.ftype → exec (.skvFlitReceive k f) s = .next s) ∧
      (f.ok = true → f.ftype = 0 → late = 0 → x.waitQ = [] → ∃ u, exec (.skvFlitReceive k f) s = .next u ∧
        let got : SkvPort := { x with rxNext := x.rxNext + 1, owed := mset x.owed f.vc.val (mget x.owed f.vc.val 0 + 1) }
        u.out = s.out ++ [.flit k.val (bareFlit 1 (x.txSeq - 1) x.rxNext got.credits)] ∧
        (skvPort u k.val).rxNext = x.rxNext + 1 ∧ (skvPort u k.val).asked = false ∧ (skvPort u k.val).owed = got.rest ∧
        (∀ c, c < 4 → mget (skvPort u k.val).sent c 0 = mget x.sent c 0 - f.cred.getD c 0) ∧
        (∀ e, e ∈ (skvPort u k.val).retry ↔ e ∈ x.retry ∧ 2 ^ 15 ≤ (f.ack - e.1).toNat)) ∧
      (f.ok = true → f.ftype = 0 → 0 < late → late < 2 ^ 15 → exec (.skvFlitReceive k f) s =
        .next (returnCredits (drainPort (askReplay acked k.val) k.val) k.val)) ∧
      (f.ok = true → f.ftype = 0 → 2 ^ 15 ≤ late → exec (.skvFlitReceive k f) s = .next (returnCredits (drainPort acked k.val) k.val)) ∧
      (x.asked = true → askReplay s k.val = s)) ∧
    (∀ f : Flit, skvUp s k.val = false → exec (.skvFlitReceive k f) s = .next s) ∧
    (∀ n, skvUp s k.val = true → exec (.skvReplayRequest k n) s = .next (onReplay s k.val n)) ∧
    (skvUp s k.val = true → x.retry ≠ [] → exec (.skvLinkAckTimeout k) s =
      .next (setPortState (updPort s k.val (fun x => { x with removed := 0 })) k.val 1)) ∧
    (x.retry = [] → exec (.skvLinkAckTimeout k) s = .next s)) ∧
  (∀ (f : Flit) (sop eop : Bool) (body : List Byte), f.ok = true → f.ftype < 16 → f.cred.length = 4 → (∀ c ∈ f.cred, c < 1024) →
    (flitWire f sop eop body).length = 256 ∧ Flit.ofWire (flitWire f sop eop body) = f ∧
      ∀ k, k < 240 → (flitWire f sop eop body)[k]? = some (body.getD k 0))

/-- Delivery: the next packet of a source on its channel is taken once and acknowledged, one seen before only acknowledged again, one too early dropped;
one that breaks a rule is logged; one for another module goes on with a hop less.
What a delivered packet does: READ and WRITE reach HBM, past its Reservoir, through an entry that allows them, once their port bucket and those of their source
before them let them, and are refused otherwise; the answers end their requests, a refused one as a fault, and let waiting stores go;
CONTRIB goes to the guard of its tile; BUDGET sets the grant; MGMT reaches Exmas; an acknowledgement frees what is held. -/
def Obligations.PacketDelivery : Prop :=
  (∀ e ∈ ([(1, 0, .read), (2, 0, .write), (3, 1, .rdata), (4, 1, .wack), (6, 2, .contrib), (7, 3, .budget), (9, 3, .mgmt)] :
      List (Nat × Nat × (SkvPacket → Instr))), ∀ (p : SkvPacket) (s : State),
    let x := (e2eOf s (pktSrc p) p.vc).expect
    skvUp s p.port.val = true →
    (skvMalformed p = true → exec (e.2.2 p) s = .next (skvLog s p.port.val p.src.toNat p.ptype)) ∧
    (skvMalformed p = false → p.ptype ≠ e.1 → exec (e.2.2 p) s = .next s) ∧
    (skvMalformed p = false → p.ptype = e.1 →
      (p.vc = e.2.1) ∧
      (forUs s p = false → exec (e.2.2 p) s = .next (transit s p)) ∧
      (forUs s p = true →
        (p.eseq ≠ x → (p.eseq - x).toNat < 2 ^ 31 → exec (e.2.2 p) s = .next s) ∧
        (2 ^ 31 ≤ (p.eseq - x).toNat → exec (e.2.2 p) s = .next (sendEack (satAdd s 0x7000184 0 0 16 1) p))))) ∧
  (∀ (p : SkvPacket) (s : State), skvUp s p.port.val = true → skvMalformed p = false → forUs s p = true →
    let t := updE2e s (pktSrc p) p.vc (fun e => { e with expect := e.expect + 1 })
    let acked (c : Instr) (u : State) : Prop := exec c s = .next (sendEack u p)
    let a := peerAddr p
    let waits (o n : Nat) (wr : Bool) : Prop := mustWait t (peerPath t o) a n wr = true ∨
      ∃ m o' q, m < 2 ∧ SadWait.peer o' q ∈ (saddle t m).waits ∧ pktSrc q = pktSrc p
    (p.eseq = (e2eOf s (pktSrc p) p.vc).expect →
      (p.ptype = 1 → (∀ o, winOwner t p 1 [(a, p.dlen)] = some o →
          let v := (saddlePass t (peerPath t o) a p.dlen false).2
          (¬ waits o p.dlen false → acked (.read p) (skvSend v none (answerPeer p 3 false
            ((dpaRead v a p.dlen).map (·.1)) (imgOf (dpaRead v a p.dlen)).bad))) ∧
          (waits o p.dlen false → acked (.read p) (updSaddle t (homeSaddle a) (fun d => { d with waits := d.waits ++ [.peer o p] })))) ∧
        (winOwner t p 1 [(a, p.dlen)] = none → acked (.read p) (skvSend (refusePeer t p) none
          (answerPeer p 3 true (List.replicate p.dlen 0) (List.range ((p.dlen + 31) / 32)))))) ∧
      (p.ptype = 2 → (∀ o, winOwner t p 2 [(a, p.data.length)] = some o →
          let v := (saddlePass t (peerPath t o) a p.data.length true).2
          (¬ waits o p.data.length true → acked (.write p) (skvSend
            (dpaWrite v a ({ bytes := p.data, bad := p.bad } : Img).pbytes) none (answerPeer p 4 false [] []))) ∧
          (waits o p.data.length true → acked (.write p) (updSaddle t (homeSaddle a) (fun d => { d with waits := d.waits ++ [.peer o p] })))) ∧
        (winOwner t p 2 [(a, p.data.length)] = none → acked (.write p) (skvSend (refusePeer t p) none (answerPeer p 4 true [] [])))) ∧
      (p.ptype = 3 → (∀ q rest, takeReq t p false = some (q, rest) →
          let v : State := { t with skvReqs := rest }
          (bit p.addr 32 = false → acked (.rdata p)
            (retryStarts (retryStores (reqData v q (({ bytes := p.data, bad := p.bad } : Img).pbytes.take q.len))))) ∧
          (bit p.addr 32 = true → acked (.rdata p) (retryStarts (retryStores (reqData (reqFault v q) q (badZeros q.len)))))) ∧
        (takeReq t p false = none → acked (.rdata p) t)) ∧
      (p.ptype = 4 → (∀ q rest, takeReq t p true = some (q, rest) →
          let v : State := { t with skvReqs := rest }
          (bit p.addr 32 = false → acked (.wack p) (retryStores v)) ∧ (bit p.addr 32 = true → acked (.wack p) (retryStores (reqFault v q)))) ∧
        (takeReq t p true = none → acked (.wack p) t)) ∧
      (p.ptype = 6 → (∀ o, winOwner t p 6 [(a, p.data.length), (p.goff.toNat, 64)] = some o →
          let c : Contribution := { contribOf p o with src := headworkDie (p.port.val / 4) }
          acked (.contrib p) (updSaddle t (homeSaddle c.tile) (fun d => { d with vc2 := d.vc2 ++ [{ c with
            sent := mayInject t c.src (saddleDie (homeSaddle c.tile)) CanalKind.contribution.vc c.flits && !(heldOf d.vc2 c.src) }] }))) ∧
        (winOwner t p 6 [(a, p.data.length), (p.goff.toNat, 64)] = none → acked (.contrib p) (refusePeer t p))) ∧
      (p.ptype = 7 → (grantOk t p (grantOf p) = true → acked (.budget p) { t with fb := { t.fb with grant := some (grantOf p) } }) ∧
        (grantOk t p (grantOf p) = false → acked (.budget p) (satAdd t 0x7000188 0 0 8 1))) ∧
      (p.ptype = 9 → acked (.mgmt p) { t with mgmtIn := t.mgmtIn ++ [(pktSrc p, p.data)] })) ∧
    (p.ptype = 5 → exec (.eack p) s = .next (skvRetry (updE2e s (pktSrc p) (fld p.addr 32 2) (fun e => { e with
      held := e.held.filter (fun h => !(decide ((BitVec.ofNat 32 p.addr.toNat - h.pkt.eseq).toNat < 2 ^ 31))) })))))

/-- Sources: packets held too long are sent again, those for a destination that stays silent are dropped with their requests, which end as faults of KIND PERM (a read with poison), a packet for another module
goes on, SLACK goes to the manager, and a grant that expires is stale (R441 to R443, R449). -/
def Obligations.SkovukSources : Prop :=
  (∀ (mgr : Bool) (d : BitVec 14) (c : Fin 4) (s : State), exec (.skvE2eTimeout mgr d c) s =
    .next (resend s ((mgr.toNat * 2 ^ 14 + d.toNat) * 4 + c.val))) ∧
  (∀ (mgr : Bool) (d : BitVec 14) (s : State),
    let k := mgr.toNat * 2 ^ 14 + d.toNat
    ((∀ c, c < 4 → (e2eOf s k c).held = []) → exec (.skvDestUnreachable mgr d) s = .next s) ∧
    ((∃ c, c < 4 ∧ (e2eOf s k c).held ≠ []) → ∃ v : State,
      let given := (s.e2e.filter (fun e => e.1 / 4 = k)).flatMap (fun e => e.2.held.map (fun h => (h.origin, h.pkt))) ++
        s.skvWait.filter (fun w => pktDest w.2 = k)
      let faults := (s.skvReqs.filter (fun q => q.dest = k)).foldl (fun s q => let f := reqFault s q; if q.wr then f else reqData f q (badZeros q.len)) v
      exec (.skvDestUnreachable mgr d) s = .next (retryStarts (retryStores (skvRetry
        (rasAppend (given.foldl (fun s w => contribLost s w.1 w.2) faults) 0x16 1 4 (skvHd s k) none d.toNat)))) ∧
      (∀ c, c < 4 → (e2eOf v k c).held = [] ∧ (e2eOf v k c).next = (e2eOf s k c).next) ∧
      (∀ k' c, k' ≠ k → c < 4 → e2eOf v k' c = e2eOf s k' c) ∧ (∀ w, w ∈ v.skvWait ↔ w ∈ s.skvWait ∧ pktDest w.2 ≠ k) ∧
      (∀ q, q ∈ v.skvReqs ↔ q ∈ s.skvReqs ∧ q.dest ≠ k) ∧ v.hbm = s.hbm ∧ v.flog = s.flog)) ∧
  (∀ (s : State) (q : SkvReq), reqFault s q = logXlt s q.slot
    { va := q.va, kind := 1, acc := if q.wr then 1 else 0, allot := q.allot, src := q.src, count := min 0x1FF ((sectorParts q.addr q.len).length) }) ∧
  (∀ (p : SkvPacket) (s : State), skvUp s p.port.val = true → skvMalformed p = false → forUs s p = false →
    (2 ≤ p.hops → exec (.skvTransit p) s = .next (skvOut s { p with hops := p.hops - 1 })) ∧
    (p.hops < 2 → exec (.skvTransit p) s = .next (skvLog s p.port.val p.src.toNat p.ptype))) ∧
  (∀ s : State, watched s = true → skvIdValid s = true → exec .slack s =
    .next (skvSend s none { skvPacket 8 3 true (fld (rg s 0x7000208 0) 0 8) with dlen := 16, data := slackBytes s }) ∧ (slackBytes s).length = 16) ∧
  (∀ (s : State) (g : Grant), s.fb.grant = some g → exec .budgetLifeExpire s =
    .next { s with fb := { s.fb with grant := some { g with life := 0, stale := true } } })

/-- An expander that is pulled fails its port and is held in reset; one put in that keeps R311 and R312 trains, and is resilvered first when its port is
mirrored and the partner serves; one that breaks them leaves the port Absent; outside Ready and Draining the next boot finds it. The test access
port runs its instructions outside Off, EXTEST and the network in Maintenance only. -/
def Obligations.ExpandersAndTestPort : Prop :=
  (∀ (p : Fin 8) (s : State),
    let out : State := { s with farDevs := mdel s.farDevs p.val }
    (serving s = true → hdAlive s (p.val / 4) = true → exec (.xprsntRemove p) s =
      .next { failFar out p.val false with xperst := setIns s.xperst p.val }) ∧
    (serving s = false ∨ hdAlive s (p.val / 4) = false → exec (.xprsntRemove p) s = .next out)) ∧
  (∀ (p : Fin 8) (d : Expander) (s : State),
    let base := farBase + p.val * 0x20000000000
    let here : State := { s with farDevs := mset s.farDevs p.val d, far := s.far.scrub base (base + 0x20000000000) }
    let takes := d.kind = 3 ∧ d.multi = false ∧ d.dynamic = false ∧ d.levels ≤ 1 ∧ d.ranges = 1 ∧ d.poison = true ∧ d.events = true ∧
      1 ≤ d.cap ∧ d.cap ≤ 2048 ∧ d.width ∈ [4, 8, 16] ∧ d.rate ≤ 1
    let partner := (farPort s ((p.val + 4) % 8)).state
    (serving s = false → exec (.xprsntInsert p d) s = .next here) ∧
    (serving s = true → hdAlive s (p.val / 4) = true → ∃ u, exec (.xprsntInsert p d) s = .next u ∧ u.far = here.far ∧
      u.farDevs = here.farDevs ∧ u.xperst = setDel s.xperst p.val ∧ (∀ q, q ≠ p.val → farPort u q = farPort s q) ∧
      (takes → farPort u p.val = {
        state := if bit (mget s.mir (p.val % 4) 0) 31 ∧ (partner = 2 ∨ partner = 3) then 5 else if d.width = 16 ∧ d.rate = 0 then 2 else 3
        switch := decide (d.levels = 1), width := d.width, rate := d.rate, cap := d.cap }) ∧
      (¬ takes → farPort u p.val = {}))) ∧
  (∀ (hd : Fin 2) (v : Nat) (s : State), s.mode ≠ .off →
    let sets (c : Instr) (t : Tap) : Prop := exec c s = .next { s with taps := mset s.taps hd.val t }
    let t := tapOf s hd.val
    exec (.tapIdcode hd) s = .next { s with taps := mset s.taps hd.val { t with ir := 0 }, out := s.out ++ [.tap hd.val 0x116209CB] } ∧
    sets (.tapBypass hd) { t with ir := 1 } ∧ sets (.tapSamplePreload hd v) { t with ir := 2, boundary := v } ∧
    (s.mode = .maintenance → sets (.tapExtest hd) { t with ir := 3 } ∧ sets (.tapIeee1687Access hd v) { t with ir := 4, net := v }) ∧
    (s.mode ≠ .maintenance → sets (.tapExtest hd) { t with ir := 1 } ∧ sets (.tapIeee1687Access hd v) { t with ir := 1 }) ∧
    exec (.tapReset hd) s = .next { s with taps := [] })
end

