-- ==== Sys2Proof/Laws/Maps.lean ====
section
/-! SUPPORT. Laws of the sparse tables: what is read after a write, and the rising keys kept. -/

namespace Sys2Proof.Machine

variable {α : Type}

theorem mget?_mset_same (m : Map α) (k : Nat) (v : α) : mget? (mset m k v) k = some v := by
  induction m with
  | nil => simp [mset, mget?]
  | cons e r ih =>
    obtain ⟨k', v'⟩ := e
    simp only [mset]
    split
    · simp [mget?]
    · split
      · simp [mget?]
      · rename_i h _; simp [mget?, h, ih]

theorem mget?_mset_other (m : Map α) (k j : Nat) (v : α) (h : j ≠ k) : mget? (mset m k v) j = mget? m j := by
  induction m with
  | nil => simp [mset, mget?, Ne.symm h]
  | cons e r ih =>
    obtain ⟨k', v'⟩ := e
    simp only [mset]
    split
    · rename_i e; subst e; simp [mget?, Ne.symm h]
    · split
      · simp [mget?, Ne.symm h]
      · simp [mget?, ih]

theorem mget?_mset (m : Map α) (k j : Nat) (v : α) : mget? (mset m k v) j = if j = k then some v else mget? m j := by
  split
  · rename_i h; subst h; exact mget?_mset_same m j v
  · rename_i h; exact mget?_mset_other m k j v h

@[simp] theorem mget_mset_same (m : Map α) (k : Nat) (v d : α) : mget (mset m k v) k d = v := by
  simp [mget, mget?_mset_same]

theorem mget_mset_other (m : Map α) (k j : Nat) (v d : α) (h : j ≠ k) : mget (mset m k v) j d = mget m j d := by
  simp [mget, mget?_mset_other m k j v h]

theorem mget_mset (m : Map α) (k j : Nat) (v d : α) : mget (mset m k v) j d = if j = k then v else mget m j d := by
  simp only [mget, mget?_mset]; split <;> rfl

/-- The last write of a key is the one that stays. -/
@[simp] theorem mset_mset (m : Map α) (k : Nat) (v w : α) : mset (mset m k v) k w = mset m k w := by
  induction m with
  | nil => simp [mset]
  | cons e r ih =>
    obtain ⟨j, x⟩ := e
    by_cases h1 : j = k
    · simp [mset, h1]
    · by_cases h2 : k < j
      · simp [mset, h1, h2]
      · simp [mset, h1, h2, ih]

@[simp] theorem mget_nil (k : Nat) (d : α) : mget ([] : Map α) k d = d := rfl

@[simp] theorem mhas_mset_same (m : Map α) (k : Nat) (v : α) : mhas (mset m k v) k = true := by
  simp [mhas, mget?_mset_same]

/-- A table of rising keys stays one when a key not below its first is written. -/
theorem mrising_cons (a : Nat × α) (m : Map α) :
    mrising (a :: m) = true ↔ (∀ b ∈ m.head?, a.1 < b.1) ∧ mrising m = true := by
  cases m with
  | nil => simp [mrising]
  | cons b r => simp [mrising]

theorem head?_mset (m : Map α) (k : Nat) (v : α) (c : Nat) (hc : c < k) (h : ∀ b ∈ m.head?, c < b.1) :
    ∀ b ∈ (mset m k v).head?, c < b.1 := by
  cases m with
  | nil => simp [mset, hc]
  | cons e r =>
    obtain ⟨k', v'⟩ := e
    simp only [List.head?_cons, Option.mem_some_iff, forall_eq'] at h
    simp only [mset]
    split
    · simp [hc]
    · split
      · simp [hc]
      · simp [h]

theorem mrising_mset (m : Map α) (k : Nat) (v : α) (h : mrising m = true) : mrising (mset m k v) = true := by
  induction m with
  | nil => rfl
  | cons e r ih =>
    obtain ⟨k', v'⟩ := e
    obtain ⟨h1, h2⟩ := (mrising_cons _ _).mp h
    simp only [mset]
    split
    · rename_i e; subst e; exact (mrising_cons _ _).mpr ⟨h1, h2⟩
    · split
      · rename_i hlt; exact (mrising_cons _ _).mpr ⟨by simp [hlt], h⟩
      · exact (mrising_cons _ _).mpr ⟨head?_mset r k v k' (by omega) h1, ih h2⟩

end Sys2Proof.Machine
end

