-- ==== Sys2Proof/Laws/State.lean ====
section
/-! SUPPORT. What the named updates of State leave alone, one lemma per field per update, and what they put where. -/

namespace Sys2Proof.Machine

variable (s : State)

/-! ### setRg -/

@[simp] theorem setRg_pending (a : Nat) (v : W32) : (setRg s a v).pending = s.pending := rfl
@[simp] theorem setRg_freeCtr (a : Nat) (v : W32) : (setRg s a v).freeCtr = s.freeCtr := rfl
@[simp] theorem setRg_clockNs (a : Nat) (v : W32) : (setRg s a v).clockNs = s.clockNs := rfl
@[simp] theorem setRg_out (a : Nat) (v : W32) : (setRg s a v).out = s.out := rfl
@[simp] theorem setRg_mode (a : Nat) (v : W32) : (setRg s a v).mode = s.mode := rfl
@[simp] theorem setRg_freason (a : Nat) (v : W32) : (setRg s a v).freason = s.freason := rfl
@[simp] theorem setRg_tripped (a : Nat) (v : W32) : (setRg s a v).tripped = s.tripped := rfl
@[simp] theorem setRg_ctrs (a : Nat) (v : W32) : (setRg s a v).ctrs = s.ctrs := rfl
@[simp] theorem setRg_shadows (a : Nat) (v : W32) : (setRg s a v).shadows = s.shadows := rfl
@[simp] theorem setRg_rwSaved (a : Nat) (v : W32) : (setRg s a v).rwSaved = s.rwSaved := rfl
@[simp] theorem setRg_ras (a : Nat) (v : W32) : (setRg s a v).ras = s.ras := rfl
@[simp] theorem setRg_rasNext (a : Nat) (v : W32) : (setRg s a v).rasNext = s.rasNext := rfl
@[simp] theorem setRg_intPend (a : Nat) (v : W32) : (setRg s a v).intPend = s.intPend := rfl
@[simp] theorem setRg_terraces (a : Nat) (v : W32) : (setRg s a v).terraces = s.terraces := rfl
@[simp] theorem setRg_lanes (a : Nat) (v : W32) : (setRg s a v).lanes = s.lanes := rfl
@[simp] theorem setRg_saddles (a : Nat) (v : W32) : (setRg s a v).saddles = s.saddles := rfl
@[simp] theorem setRg_lats (a : Nat) (v : W32) : (setRg s a v).lats = s.lats := rfl
@[simp] theorem setRg_canalAlt (a : Nat) (v : W32) : (setRg s a v).canalAlt = s.canalAlt := rfl
@[simp] theorem setRg_canalFence (a : Nat) (v : W32) : (setRg s a v).canalFence = s.canalFence := rfl
@[simp] theorem setRg_hbm (a : Nat) (v : W32) : (setRg s a v).hbm = s.hbm := rfl
@[simp] theorem setRg_far (a : Nat) (v : W32) : (setRg s a v).far = s.far := rfl
@[simp] theorem setRg_host (a : Nat) (v : W32) : (setRg s a v).host = s.host := rfl
@[simp] theorem setRg_peer (a : Nat) (v : W32) : (setRg s a v).peer = s.peer := rfl
@[simp] theorem setRg_hbmPoison (a : Nat) (v : W32) : (setRg s a v).hbmPoison = s.hbmPoison := rfl
@[simp] theorem setRg_guarded (a : Nat) (v : W32) : (setRg s a v).guarded = s.guarded := rfl
@[simp] theorem setRg_ats (a : Nat) (v : W32) : (setRg s a v).ats = s.ats := rfl
@[simp] theorem setRg_atsWant (a : Nat) (v : W32) : (setRg s a v).atsWant = s.atsWant := rfl
@[simp] theorem setRg_got (a : Nat) (v : W32) : (setRg s a v).got = s.got := rfl
@[simp] theorem setRg_hostReqs (a : Nat) (v : W32) : (setRg s a v).hostReqs = s.hostReqs := rfl
@[simp] theorem setRg_atsPend (a : Nat) (v : W32) : (setRg s a v).atsPend = s.atsPend := rfl
@[simp] theorem setRg_skv (a : Nat) (v : W32) : (setRg s a v).skv = s.skv := rfl
@[simp] theorem setRg_skvArbs (a : Nat) (v : W32) : (setRg s a v).skvArbs = s.skvArbs := rfl
@[simp] theorem setRg_rte (a : Nat) (v : W32) : (setRg s a v).rte = s.rte := rfl
@[simp] theorem setRg_win (a : Nat) (v : W32) : (setRg s a v).win = s.win := rfl
@[simp] theorem setRg_e2e (a : Nat) (v : W32) : (setRg s a v).e2e = s.e2e := rfl
@[simp] theorem setRg_skvWait (a : Nat) (v : W32) : (setRg s a v).skvWait = s.skvWait := rfl
@[simp] theorem setRg_skvReqs (a : Nat) (v : W32) : (setRg s a v).skvReqs = s.skvReqs := rfl
@[simp] theorem setRg_mgmtIn (a : Nat) (v : W32) : (setRg s a v).mgmtIn = s.mgmtIn := rfl
@[simp] theorem setRg_resetting (a : Nat) (v : W32) : (setRg s a v).resetting = s.resetting := rfl
@[simp] theorem setRg_mir (a : Nat) (v : W32) : (setRg s a v).mir = s.mir := rfl
@[simp] theorem setRg_farPorts (a : Nat) (v : W32) : (setRg s a v).farPorts = s.farPorts := rfl
@[simp] theorem setRg_farDevs (a : Nat) (v : W32) : (setRg s a v).farDevs = s.farDevs := rfl
@[simp] theorem setRg_jrn0 (a : Nat) (v : W32) : (setRg s a v).jrn0 = s.jrn0 := rfl
@[simp] theorem setRg_jrn1 (a : Nat) (v : W32) : (setRg s a v).jrn1 = s.jrn1 := rfl
@[simp] theorem setRg_jsteps (a : Nat) (v : W32) : (setRg s a v).jsteps = s.jsteps := rfl
@[simp] theorem setRg_jfull (a : Nat) (v : W32) : (setRg s a v).jfull = s.jfull := rfl
@[simp] theorem setRg_bellNo (a : Nat) (v : W32) : (setRg s a v).bellNo = s.bellNo := rfl
@[simp] theorem setRg_resumeTo (a : Nat) (v : W32) : (setRg s a v).resumeTo = s.resumeTo := rfl
@[simp] theorem setRg_runs (a : Nat) (v : W32) : (setRg s a v).runs = s.runs := rfl
@[simp] theorem setRg_ques (a : Nat) (v : W32) : (setRg s a v).ques = s.ques := rfl
@[simp] theorem setRg_allots (a : Nat) (v : W32) : (setRg s a v).allots = s.allots := rfl
@[simp] theorem setRg_rings (a : Nat) (v : W32) : (setRg s a v).rings = s.rings := rfl
@[simp] theorem setRg_rr (a : Nat) (v : W32) : (setRg s a v).rr = s.rr := rfl
@[simp] theorem setRg_bells (a : Nat) (v : W32) : (setRg s a v).bells = s.bells := rfl
@[simp] theorem setRg_awakeMax (a : Nat) (v : W32) : (setRg s a v).awakeMax = s.awakeMax := rfl
@[simp] theorem setRg_feeds (a : Nat) (v : W32) : (setRg s a v).feeds = s.feeds := rfl
@[simp] theorem setRg_feedB (a : Nat) (v : W32) : (setRg s a v).feedB = s.feedB := rfl
@[simp] theorem setRg_discharging (a : Nat) (v : W32) : (setRg s a v).discharging = s.discharging := rfl
@[simp] theorem setRg_fb (a : Nat) (v : W32) : (setRg s a v).fb = s.fb := rfl
@[simp] theorem setRg_fbShadow (a : Nat) (v : W32) : (setRg s a v).fbShadow = s.fbShadow := rfl
@[simp] theorem setRg_fbSync (a : Nat) (v : W32) : (setRg s a v).fbSync = s.fbSync := rfl
@[simp] theorem setRg_capGuard (a : Nat) (v : W32) : (setRg s a v).capGuard = s.capGuard := rfl
@[simp] theorem setRg_rails (a : Nat) (v : W32) : (setRg s a v).rails = s.rails := rfl
@[simp] theorem setRg_sensors (a : Nat) (v : W32) : (setRg s a v).sensors = s.sensors := rfl
@[simp] theorem setRg_ridgePower (a : Nat) (v : W32) : (setRg s a v).ridgePower = s.ridgePower := rfl
@[simp] theorem setRg_ridgeFailed (a : Nat) (v : W32) : (setRg s a v).ridgeFailed = s.ridgeFailed := rfl
@[simp] theorem setRg_nv0 (a : Nat) (v : W32) : (setRg s a v).nv0 = s.nv0 := rfl
@[simp] theorem setRg_nv1 (a : Nat) (v : W32) : (setRg s a v).nv1 = s.nv1 := rfl
@[simp] theorem setRg_nvNew (a : Nat) (v : W32) : (setRg s a v).nvNew = s.nvNew := rfl
@[simp] theorem setRg_flash (a : Nat) (v : W32) : (setRg s a v).flash = s.flash := rfl
@[simp] theorem setRg_fw (a : Nat) (v : W32) : (setRg s a v).fw = s.fw := rfl
@[simp] theorem setRg_fuses (a : Nat) (v : W32) : (setRg s a v).fuses = s.fuses := rfl
@[simp] theorem setRg_update (a : Nat) (v : W32) : (setRg s a v).update = s.update := rfl
@[simp] theorem setRg_diag (a : Nat) (v : W32) : (setRg s a v).diag = s.diag := rfl
@[simp] theorem setRg_eid (a : Nat) (v : W32) : (setRg s a v).eid = s.eid := rfl
@[simp] theorem setRg_perst (a : Nat) (v : W32) : (setRg s a v).perst = s.perst := rfl
@[simp] theorem setRg_xperst (a : Nat) (v : W32) : (setRg s a v).xperst = s.xperst := rfl
@[simp] theorem setRg_flog (a : Nat) (v : W32) : (setRg s a v).flog = s.flog := rfl
@[simp] theorem setRg_inv (a : Nat) (v : W32) : (setRg s a v).inv = s.inv := rfl
@[simp] theorem setRg_invQ (a : Nat) (v : W32) : (setRg s a v).invQ = s.invQ := rfl
@[simp] theorem setRg_rsvs (a : Nat) (v : W32) : (setRg s a v).rsvs = s.rsvs := rfl
@[simp] theorem setRg_rsvRevoked (a : Nat) (v : W32) : (setRg s a v).rsvRevoked = s.rsvRevoked := rfl
@[simp] theorem setRg_rsvDue (a : Nat) (v : W32) : (setRg s a v).rsvDue = s.rsvDue := rfl
@[simp] theorem setRg_taps (a : Nat) (v : W32) : (setRg s a v).taps = s.taps := rfl
@[simp] theorem setRg_shares (a : Nat) (v : W32) : (setRg s a v).shares = s.shares := rfl
@[simp] theorem setRg_redivide (a : Nat) (v : W32) : (setRg s a v).redivide = s.redivide := rfl
@[simp] theorem setRg_retQ (a : Nat) (v : W32) : (setRg s a v).retQ = s.retQ := rfl
@[simp] theorem setRg_hdFailed (a : Nat) (v : W32) : (setRg s a v).hdFailed = s.hdFailed := rfl
@[simp] theorem setRg_hostPorts (a : Nat) (v : W32) : (setRg s a v).hostPorts = s.hostPorts := rfl
@[simp] theorem setRg_evq (a : Nat) (v : W32) : (setRg s a v).evq = s.evq := rfl
@[simp] theorem setRg_receiver (a : Nat) (v : W32) : (setRg s a v).receiver = s.receiver := rfl
@[simp] theorem setRg_hwEpoch (a : Nat) (v : W32) : (setRg s a v).hwEpoch = s.hwEpoch := rfl

/-! ### ctrAdd -/

@[simp] theorem ctrAdd_pending (a n : Nat) : (ctrAdd s a n).pending = s.pending := rfl
@[simp] theorem ctrAdd_freeCtr (a n : Nat) : (ctrAdd s a n).freeCtr = s.freeCtr := rfl
@[simp] theorem ctrAdd_clockNs (a n : Nat) : (ctrAdd s a n).clockNs = s.clockNs := rfl
@[simp] theorem ctrAdd_out (a n : Nat) : (ctrAdd s a n).out = s.out := rfl
@[simp] theorem ctrAdd_mode (a n : Nat) : (ctrAdd s a n).mode = s.mode := rfl
@[simp] theorem ctrAdd_freason (a n : Nat) : (ctrAdd s a n).freason = s.freason := rfl
@[simp] theorem ctrAdd_tripped (a n : Nat) : (ctrAdd s a n).tripped = s.tripped := rfl
@[simp] theorem ctrAdd_regs (a n : Nat) : (ctrAdd s a n).regs = s.regs := rfl
@[simp] theorem ctrAdd_shadows (a n : Nat) : (ctrAdd s a n).shadows = s.shadows := rfl
@[simp] theorem ctrAdd_rwSaved (a n : Nat) : (ctrAdd s a n).rwSaved = s.rwSaved := rfl
@[simp] theorem ctrAdd_ras (a n : Nat) : (ctrAdd s a n).ras = s.ras := rfl
@[simp] theorem ctrAdd_rasNext (a n : Nat) : (ctrAdd s a n).rasNext = s.rasNext := rfl
@[simp] theorem ctrAdd_intPend (a n : Nat) : (ctrAdd s a n).intPend = s.intPend := rfl
@[simp] theorem ctrAdd_terraces (a n : Nat) : (ctrAdd s a n).terraces = s.terraces := rfl
@[simp] theorem ctrAdd_lanes (a n : Nat) : (ctrAdd s a n).lanes = s.lanes := rfl
@[simp] theorem ctrAdd_saddles (a n : Nat) : (ctrAdd s a n).saddles = s.saddles := rfl
@[simp] theorem ctrAdd_lats (a n : Nat) : (ctrAdd s a n).lats = s.lats := rfl
@[simp] theorem ctrAdd_canalAlt (a n : Nat) : (ctrAdd s a n).canalAlt = s.canalAlt := rfl
@[simp] theorem ctrAdd_canalFence (a n : Nat) : (ctrAdd s a n).canalFence = s.canalFence := rfl
@[simp] theorem ctrAdd_hbm (a n : Nat) : (ctrAdd s a n).hbm = s.hbm := rfl
@[simp] theorem ctrAdd_far (a n : Nat) : (ctrAdd s a n).far = s.far := rfl
@[simp] theorem ctrAdd_host (a n : Nat) : (ctrAdd s a n).host = s.host := rfl
@[simp] theorem ctrAdd_peer (a n : Nat) : (ctrAdd s a n).peer = s.peer := rfl
@[simp] theorem ctrAdd_hbmPoison (a n : Nat) : (ctrAdd s a n).hbmPoison = s.hbmPoison := rfl
@[simp] theorem ctrAdd_guarded (a n : Nat) : (ctrAdd s a n).guarded = s.guarded := rfl
@[simp] theorem ctrAdd_ats (a n : Nat) : (ctrAdd s a n).ats = s.ats := rfl
@[simp] theorem ctrAdd_atsWant (a n : Nat) : (ctrAdd s a n).atsWant = s.atsWant := rfl
@[simp] theorem ctrAdd_got (a n : Nat) : (ctrAdd s a n).got = s.got := rfl
@[simp] theorem ctrAdd_hostReqs (a n : Nat) : (ctrAdd s a n).hostReqs = s.hostReqs := rfl
@[simp] theorem ctrAdd_atsPend (a n : Nat) : (ctrAdd s a n).atsPend = s.atsPend := rfl
@[simp] theorem ctrAdd_skv (a n : Nat) : (ctrAdd s a n).skv = s.skv := rfl
@[simp] theorem ctrAdd_skvArbs (a n : Nat) : (ctrAdd s a n).skvArbs = s.skvArbs := rfl
@[simp] theorem ctrAdd_rte (a n : Nat) : (ctrAdd s a n).rte = s.rte := rfl
@[simp] theorem ctrAdd_win (a n : Nat) : (ctrAdd s a n).win = s.win := rfl
@[simp] theorem ctrAdd_e2e (a n : Nat) : (ctrAdd s a n).e2e = s.e2e := rfl
@[simp] theorem ctrAdd_skvWait (a n : Nat) : (ctrAdd s a n).skvWait = s.skvWait := rfl
@[simp] theorem ctrAdd_skvReqs (a n : Nat) : (ctrAdd s a n).skvReqs = s.skvReqs := rfl
@[simp] theorem ctrAdd_mgmtIn (a n : Nat) : (ctrAdd s a n).mgmtIn = s.mgmtIn := rfl
@[simp] theorem ctrAdd_resetting (a n : Nat) : (ctrAdd s a n).resetting = s.resetting := rfl
@[simp] theorem ctrAdd_mir (a n : Nat) : (ctrAdd s a n).mir = s.mir := rfl
@[simp] theorem ctrAdd_farPorts (a n : Nat) : (ctrAdd s a n).farPorts = s.farPorts := rfl
@[simp] theorem ctrAdd_farDevs (a n : Nat) : (ctrAdd s a n).farDevs = s.farDevs := rfl
@[simp] theorem ctrAdd_jrn0 (a n : Nat) : (ctrAdd s a n).jrn0 = s.jrn0 := rfl
@[simp] theorem ctrAdd_jrn1 (a n : Nat) : (ctrAdd s a n).jrn1 = s.jrn1 := rfl
@[simp] theorem ctrAdd_jsteps (a n : Nat) : (ctrAdd s a n).jsteps = s.jsteps := rfl
@[simp] theorem ctrAdd_jfull (a n : Nat) : (ctrAdd s a n).jfull = s.jfull := rfl
@[simp] theorem ctrAdd_bellNo (a n : Nat) : (ctrAdd s a n).bellNo = s.bellNo := rfl
@[simp] theorem ctrAdd_resumeTo (a n : Nat) : (ctrAdd s a n).resumeTo = s.resumeTo := rfl
@[simp] theorem ctrAdd_runs (a n : Nat) : (ctrAdd s a n).runs = s.runs := rfl
@[simp] theorem ctrAdd_ques (a n : Nat) : (ctrAdd s a n).ques = s.ques := rfl
@[simp] theorem ctrAdd_allots (a n : Nat) : (ctrAdd s a n).allots = s.allots := rfl
@[simp] theorem ctrAdd_rings (a n : Nat) : (ctrAdd s a n).rings = s.rings := rfl
@[simp] theorem ctrAdd_rr (a n : Nat) : (ctrAdd s a n).rr = s.rr := rfl
@[simp] theorem ctrAdd_bells (a n : Nat) : (ctrAdd s a n).bells = s.bells := rfl
@[simp] theorem ctrAdd_awakeMax (a n : Nat) : (ctrAdd s a n).awakeMax = s.awakeMax := rfl
@[simp] theorem ctrAdd_feeds (a n : Nat) : (ctrAdd s a n).feeds = s.feeds := rfl
@[simp] theorem ctrAdd_feedB (a n : Nat) : (ctrAdd s a n).feedB = s.feedB := rfl
@[simp] theorem ctrAdd_discharging (a n : Nat) : (ctrAdd s a n).discharging = s.discharging := rfl
@[simp] theorem ctrAdd_fb (a n : Nat) : (ctrAdd s a n).fb = s.fb := rfl
@[simp] theorem ctrAdd_fbShadow (a n : Nat) : (ctrAdd s a n).fbShadow = s.fbShadow := rfl
@[simp] theorem ctrAdd_fbSync (a n : Nat) : (ctrAdd s a n).fbSync = s.fbSync := rfl
@[simp] theorem ctrAdd_capGuard (a n : Nat) : (ctrAdd s a n).capGuard = s.capGuard := rfl
@[simp] theorem ctrAdd_rails (a n : Nat) : (ctrAdd s a n).rails = s.rails := rfl
@[simp] theorem ctrAdd_sensors (a n : Nat) : (ctrAdd s a n).sensors = s.sensors := rfl
@[simp] theorem ctrAdd_ridgePower (a n : Nat) : (ctrAdd s a n).ridgePower = s.ridgePower := rfl
@[simp] theorem ctrAdd_ridgeFailed (a n : Nat) : (ctrAdd s a n).ridgeFailed = s.ridgeFailed := rfl
@[simp] theorem ctrAdd_nv0 (a n : Nat) : (ctrAdd s a n).nv0 = s.nv0 := rfl
@[simp] theorem ctrAdd_nv1 (a n : Nat) : (ctrAdd s a n).nv1 = s.nv1 := rfl
@[simp] theorem ctrAdd_nvNew (a n : Nat) : (ctrAdd s a n).nvNew = s.nvNew := rfl
@[simp] theorem ctrAdd_flash (a n : Nat) : (ctrAdd s a n).flash = s.flash := rfl
@[simp] theorem ctrAdd_fw (a n : Nat) : (ctrAdd s a n).fw = s.fw := rfl
@[simp] theorem ctrAdd_fuses (a n : Nat) : (ctrAdd s a n).fuses = s.fuses := rfl
@[simp] theorem ctrAdd_update (a n : Nat) : (ctrAdd s a n).update = s.update := rfl
@[simp] theorem ctrAdd_diag (a n : Nat) : (ctrAdd s a n).diag = s.diag := rfl
@[simp] theorem ctrAdd_eid (a n : Nat) : (ctrAdd s a n).eid = s.eid := rfl
@[simp] theorem ctrAdd_perst (a n : Nat) : (ctrAdd s a n).perst = s.perst := rfl
@[simp] theorem ctrAdd_xperst (a n : Nat) : (ctrAdd s a n).xperst = s.xperst := rfl
@[simp] theorem ctrAdd_flog (a n : Nat) : (ctrAdd s a n).flog = s.flog := rfl
@[simp] theorem ctrAdd_inv (a n : Nat) : (ctrAdd s a n).inv = s.inv := rfl
@[simp] theorem ctrAdd_invQ (a n : Nat) : (ctrAdd s a n).invQ = s.invQ := rfl
@[simp] theorem ctrAdd_rsvs (a n : Nat) : (ctrAdd s a n).rsvs = s.rsvs := rfl
@[simp] theorem ctrAdd_rsvRevoked (a n : Nat) : (ctrAdd s a n).rsvRevoked = s.rsvRevoked := rfl
@[simp] theorem ctrAdd_rsvDue (a n : Nat) : (ctrAdd s a n).rsvDue = s.rsvDue := rfl
@[simp] theorem ctrAdd_taps (a n : Nat) : (ctrAdd s a n).taps = s.taps := rfl
@[simp] theorem ctrAdd_shares (a n : Nat) : (ctrAdd s a n).shares = s.shares := rfl
@[simp] theorem ctrAdd_redivide (a n : Nat) : (ctrAdd s a n).redivide = s.redivide := rfl
@[simp] theorem ctrAdd_retQ (a n : Nat) : (ctrAdd s a n).retQ = s.retQ := rfl
@[simp] theorem ctrAdd_hdFailed (a n : Nat) : (ctrAdd s a n).hdFailed = s.hdFailed := rfl
@[simp] theorem ctrAdd_hostPorts (a n : Nat) : (ctrAdd s a n).hostPorts = s.hostPorts := rfl
@[simp] theorem ctrAdd_evq (a n : Nat) : (ctrAdd s a n).evq = s.evq := rfl
@[simp] theorem ctrAdd_receiver (a n : Nat) : (ctrAdd s a n).receiver = s.receiver := rfl
@[simp] theorem ctrAdd_hwEpoch (a n : Nat) : (ctrAdd s a n).hwEpoch = s.hwEpoch := rfl

/-! ### emit -/

@[simp] theorem emit_pending (m : OutMsg) : (emit s m).pending = s.pending := rfl
@[simp] theorem emit_freeCtr (m : OutMsg) : (emit s m).freeCtr = s.freeCtr := rfl
@[simp] theorem emit_clockNs (m : OutMsg) : (emit s m).clockNs = s.clockNs := rfl
@[simp] theorem emit_mode (m : OutMsg) : (emit s m).mode = s.mode := rfl
@[simp] theorem emit_freason (m : OutMsg) : (emit s m).freason = s.freason := rfl
@[simp] theorem emit_tripped (m : OutMsg) : (emit s m).tripped = s.tripped := rfl
@[simp] theorem emit_regs (m : OutMsg) : (emit s m).regs = s.regs := rfl
@[simp] theorem emit_ctrs (m : OutMsg) : (emit s m).ctrs = s.ctrs := rfl
@[simp] theorem emit_shadows (m : OutMsg) : (emit s m).shadows = s.shadows := rfl
@[simp] theorem emit_rwSaved (m : OutMsg) : (emit s m).rwSaved = s.rwSaved := rfl
@[simp] theorem emit_ras (m : OutMsg) : (emit s m).ras = s.ras := rfl
@[simp] theorem emit_rasNext (m : OutMsg) : (emit s m).rasNext = s.rasNext := rfl
@[simp] theorem emit_intPend (m : OutMsg) : (emit s m).intPend = s.intPend := rfl
@[simp] theorem emit_terraces (m : OutMsg) : (emit s m).terraces = s.terraces := rfl
@[simp] theorem emit_lanes (m : OutMsg) : (emit s m).lanes = s.lanes := rfl
@[simp] theorem emit_saddles (m : OutMsg) : (emit s m).saddles = s.saddles := rfl
@[simp] theorem emit_lats (m : OutMsg) : (emit s m).lats = s.lats := rfl
@[simp] theorem emit_canalAlt (m : OutMsg) : (emit s m).canalAlt = s.canalAlt := rfl
@[simp] theorem emit_canalFence (m : OutMsg) : (emit s m).canalFence = s.canalFence := rfl
@[simp] theorem emit_hbm (m : OutMsg) : (emit s m).hbm = s.hbm := rfl
@[simp] theorem emit_far (m : OutMsg) : (emit s m).far = s.far := rfl
@[simp] theorem emit_host (m : OutMsg) : (emit s m).host = s.host := rfl
@[simp] theorem emit_peer (m : OutMsg) : (emit s m).peer = s.peer := rfl
@[simp] theorem emit_hbmPoison (m : OutMsg) : (emit s m).hbmPoison = s.hbmPoison := rfl
@[simp] theorem emit_guarded (m : OutMsg) : (emit s m).guarded = s.guarded := rfl
@[simp] theorem emit_ats (m : OutMsg) : (emit s m).ats = s.ats := rfl
@[simp] theorem emit_atsWant (m : OutMsg) : (emit s m).atsWant = s.atsWant := rfl
@[simp] theorem emit_got (m : OutMsg) : (emit s m).got = s.got := rfl
@[simp] theorem emit_hostReqs (m : OutMsg) : (emit s m).hostReqs = s.hostReqs := rfl
@[simp] theorem emit_atsPend (m : OutMsg) : (emit s m).atsPend = s.atsPend := rfl
@[simp] theorem emit_skv (m : OutMsg) : (emit s m).skv = s.skv := rfl
@[simp] theorem emit_skvArbs (m : OutMsg) : (emit s m).skvArbs = s.skvArbs := rfl
@[simp] theorem emit_rte (m : OutMsg) : (emit s m).rte = s.rte := rfl
@[simp] theorem emit_win (m : OutMsg) : (emit s m).win = s.win := rfl
@[simp] theorem emit_e2e (m : OutMsg) : (emit s m).e2e = s.e2e := rfl
@[simp] theorem emit_skvWait (m : OutMsg) : (emit s m).skvWait = s.skvWait := rfl
@[simp] theorem emit_skvReqs (m : OutMsg) : (emit s m).skvReqs = s.skvReqs := rfl
@[simp] theorem emit_mgmtIn (m : OutMsg) : (emit s m).mgmtIn = s.mgmtIn := rfl
@[simp] theorem emit_resetting (m : OutMsg) : (emit s m).resetting = s.resetting := rfl
@[simp] theorem emit_mir (m : OutMsg) : (emit s m).mir = s.mir := rfl
@[simp] theorem emit_farPorts (m : OutMsg) : (emit s m).farPorts = s.farPorts := rfl
@[simp] theorem emit_farDevs (m : OutMsg) : (emit s m).farDevs = s.farDevs := rfl
@[simp] theorem emit_jrn0 (m : OutMsg) : (emit s m).jrn0 = s.jrn0 := rfl
@[simp] theorem emit_jrn1 (m : OutMsg) : (emit s m).jrn1 = s.jrn1 := rfl
@[simp] theorem emit_jsteps (m : OutMsg) : (emit s m).jsteps = s.jsteps := rfl
@[simp] theorem emit_jfull (m : OutMsg) : (emit s m).jfull = s.jfull := rfl
@[simp] theorem emit_bellNo (m : OutMsg) : (emit s m).bellNo = s.bellNo := rfl
@[simp] theorem emit_resumeTo (m : OutMsg) : (emit s m).resumeTo = s.resumeTo := rfl
@[simp] theorem emit_runs (m : OutMsg) : (emit s m).runs = s.runs := rfl
@[simp] theorem emit_ques (m : OutMsg) : (emit s m).ques = s.ques := rfl
@[simp] theorem emit_allots (m : OutMsg) : (emit s m).allots = s.allots := rfl
@[simp] theorem emit_rings (m : OutMsg) : (emit s m).rings = s.rings := rfl
@[simp] theorem emit_rr (m : OutMsg) : (emit s m).rr = s.rr := rfl
@[simp] theorem emit_bells (m : OutMsg) : (emit s m).bells = s.bells := rfl
@[simp] theorem emit_awakeMax (m : OutMsg) : (emit s m).awakeMax = s.awakeMax := rfl
@[simp] theorem emit_feeds (m : OutMsg) : (emit s m).feeds = s.feeds := rfl
@[simp] theorem emit_feedB (m : OutMsg) : (emit s m).feedB = s.feedB := rfl
@[simp] theorem emit_discharging (m : OutMsg) : (emit s m).discharging = s.discharging := rfl
@[simp] theorem emit_fb (m : OutMsg) : (emit s m).fb = s.fb := rfl
@[simp] theorem emit_fbShadow (m : OutMsg) : (emit s m).fbShadow = s.fbShadow := rfl
@[simp] theorem emit_fbSync (m : OutMsg) : (emit s m).fbSync = s.fbSync := rfl
@[simp] theorem emit_capGuard (m : OutMsg) : (emit s m).capGuard = s.capGuard := rfl
@[simp] theorem emit_rails (m : OutMsg) : (emit s m).rails = s.rails := rfl
@[simp] theorem emit_sensors (m : OutMsg) : (emit s m).sensors = s.sensors := rfl
@[simp] theorem emit_ridgePower (m : OutMsg) : (emit s m).ridgePower = s.ridgePower := rfl
@[simp] theorem emit_ridgeFailed (m : OutMsg) : (emit s m).ridgeFailed = s.ridgeFailed := rfl
@[simp] theorem emit_nv0 (m : OutMsg) : (emit s m).nv0 = s.nv0 := rfl
@[simp] theorem emit_nv1 (m : OutMsg) : (emit s m).nv1 = s.nv1 := rfl
@[simp] theorem emit_nvNew (m : OutMsg) : (emit s m).nvNew = s.nvNew := rfl
@[simp] theorem emit_flash (m : OutMsg) : (emit s m).flash = s.flash := rfl
@[simp] theorem emit_fw (m : OutMsg) : (emit s m).fw = s.fw := rfl
@[simp] theorem emit_fuses (m : OutMsg) : (emit s m).fuses = s.fuses := rfl
@[simp] theorem emit_update (m : OutMsg) : (emit s m).update = s.update := rfl
@[simp] theorem emit_diag (m : OutMsg) : (emit s m).diag = s.diag := rfl
@[simp] theorem emit_eid (m : OutMsg) : (emit s m).eid = s.eid := rfl
@[simp] theorem emit_perst (m : OutMsg) : (emit s m).perst = s.perst := rfl
@[simp] theorem emit_xperst (m : OutMsg) : (emit s m).xperst = s.xperst := rfl
@[simp] theorem emit_flog (m : OutMsg) : (emit s m).flog = s.flog := rfl
@[simp] theorem emit_inv (m : OutMsg) : (emit s m).inv = s.inv := rfl
@[simp] theorem emit_invQ (m : OutMsg) : (emit s m).invQ = s.invQ := rfl
@[simp] theorem emit_rsvs (m : OutMsg) : (emit s m).rsvs = s.rsvs := rfl
@[simp] theorem emit_rsvRevoked (m : OutMsg) : (emit s m).rsvRevoked = s.rsvRevoked := rfl
@[simp] theorem emit_rsvDue (m : OutMsg) : (emit s m).rsvDue = s.rsvDue := rfl
@[simp] theorem emit_taps (m : OutMsg) : (emit s m).taps = s.taps := rfl
@[simp] theorem emit_shares (m : OutMsg) : (emit s m).shares = s.shares := rfl
@[simp] theorem emit_redivide (m : OutMsg) : (emit s m).redivide = s.redivide := rfl
@[simp] theorem emit_retQ (m : OutMsg) : (emit s m).retQ = s.retQ := rfl
@[simp] theorem emit_hdFailed (m : OutMsg) : (emit s m).hdFailed = s.hdFailed := rfl
@[simp] theorem emit_hostPorts (m : OutMsg) : (emit s m).hostPorts = s.hostPorts := rfl
@[simp] theorem emit_evq (m : OutMsg) : (emit s m).evq = s.evq := rfl
@[simp] theorem emit_receiver (m : OutMsg) : (emit s m).receiver = s.receiver := rfl
@[simp] theorem emit_hwEpoch (m : OutMsg) : (emit s m).hwEpoch = s.hwEpoch := rfl

/-! ### intWant -/

@[simp] theorem intWant_pending (n : Nat) : (intWant s n).pending = s.pending := rfl
@[simp] theorem intWant_freeCtr (n : Nat) : (intWant s n).freeCtr = s.freeCtr := rfl
@[simp] theorem intWant_clockNs (n : Nat) : (intWant s n).clockNs = s.clockNs := rfl
@[simp] theorem intWant_out (n : Nat) : (intWant s n).out = s.out := rfl
@[simp] theorem intWant_mode (n : Nat) : (intWant s n).mode = s.mode := rfl
@[simp] theorem intWant_freason (n : Nat) : (intWant s n).freason = s.freason := rfl
@[simp] theorem intWant_tripped (n : Nat) : (intWant s n).tripped = s.tripped := rfl
@[simp] theorem intWant_regs (n : Nat) : (intWant s n).regs = s.regs := rfl
@[simp] theorem intWant_ctrs (n : Nat) : (intWant s n).ctrs = s.ctrs := rfl
@[simp] theorem intWant_shadows (n : Nat) : (intWant s n).shadows = s.shadows := rfl
@[simp] theorem intWant_rwSaved (n : Nat) : (intWant s n).rwSaved = s.rwSaved := rfl
@[simp] theorem intWant_ras (n : Nat) : (intWant s n).ras = s.ras := rfl
@[simp] theorem intWant_rasNext (n : Nat) : (intWant s n).rasNext = s.rasNext := rfl
@[simp] theorem intWant_terraces (n : Nat) : (intWant s n).terraces = s.terraces := rfl
@[simp] theorem intWant_lanes (n : Nat) : (intWant s n).lanes = s.lanes := rfl
@[simp] theorem intWant_saddles (n : Nat) : (intWant s n).saddles = s.saddles := rfl
@[simp] theorem intWant_lats (n : Nat) : (intWant s n).lats = s.lats := rfl
@[simp] theorem intWant_canalAlt (n : Nat) : (intWant s n).canalAlt = s.canalAlt := rfl
@[simp] theorem intWant_canalFence (n : Nat) : (intWant s n).canalFence = s.canalFence := rfl
@[simp] theorem intWant_hbm (n : Nat) : (intWant s n).hbm = s.hbm := rfl
@[simp] theorem intWant_far (n : Nat) : (intWant s n).far = s.far := rfl
@[simp] theorem intWant_host (n : Nat) : (intWant s n).host = s.host := rfl
@[simp] theorem intWant_peer (n : Nat) : (intWant s n).peer = s.peer := rfl
@[simp] theorem intWant_hbmPoison (n : Nat) : (intWant s n).hbmPoison = s.hbmPoison := rfl
@[simp] theorem intWant_guarded (n : Nat) : (intWant s n).guarded = s.guarded := rfl
@[simp] theorem intWant_ats (n : Nat) : (intWant s n).ats = s.ats := rfl
@[simp] theorem intWant_atsWant (n : Nat) : (intWant s n).atsWant = s.atsWant := rfl
@[simp] theorem intWant_got (n : Nat) : (intWant s n).got = s.got := rfl
@[simp] theorem intWant_hostReqs (n : Nat) : (intWant s n).hostReqs = s.hostReqs := rfl
@[simp] theorem intWant_atsPend (n : Nat) : (intWant s n).atsPend = s.atsPend := rfl
@[simp] theorem intWant_skv (n : Nat) : (intWant s n).skv = s.skv := rfl
@[simp] theorem intWant_skvArbs (n : Nat) : (intWant s n).skvArbs = s.skvArbs := rfl
@[simp] theorem intWant_rte (n : Nat) : (intWant s n).rte = s.rte := rfl
@[simp] theorem intWant_win (n : Nat) : (intWant s n).win = s.win := rfl
@[simp] theorem intWant_e2e (n : Nat) : (intWant s n).e2e = s.e2e := rfl
@[simp] theorem intWant_skvWait (n : Nat) : (intWant s n).skvWait = s.skvWait := rfl
@[simp] theorem intWant_skvReqs (n : Nat) : (intWant s n).skvReqs = s.skvReqs := rfl
@[simp] theorem intWant_mgmtIn (n : Nat) : (intWant s n).mgmtIn = s.mgmtIn := rfl
@[simp] theorem intWant_resetting (n : Nat) : (intWant s n).resetting = s.resetting := rfl
@[simp] theorem intWant_mir (n : Nat) : (intWant s n).mir = s.mir := rfl
@[simp] theorem intWant_farPorts (n : Nat) : (intWant s n).farPorts = s.farPorts := rfl
@[simp] theorem intWant_farDevs (n : Nat) : (intWant s n).farDevs = s.farDevs := rfl
@[simp] theorem intWant_jrn0 (n : Nat) : (intWant s n).jrn0 = s.jrn0 := rfl
@[simp] theorem intWant_jrn1 (n : Nat) : (intWant s n).jrn1 = s.jrn1 := rfl
@[simp] theorem intWant_jsteps (n : Nat) : (intWant s n).jsteps = s.jsteps := rfl
@[simp] theorem intWant_jfull (n : Nat) : (intWant s n).jfull = s.jfull := rfl
@[simp] theorem intWant_bellNo (n : Nat) : (intWant s n).bellNo = s.bellNo := rfl
@[simp] theorem intWant_resumeTo (n : Nat) : (intWant s n).resumeTo = s.resumeTo := rfl
@[simp] theorem intWant_runs (n : Nat) : (intWant s n).runs = s.runs := rfl
@[simp] theorem intWant_ques (n : Nat) : (intWant s n).ques = s.ques := rfl
@[simp] theorem intWant_allots (n : Nat) : (intWant s n).allots = s.allots := rfl
@[simp] theorem intWant_rings (n : Nat) : (intWant s n).rings = s.rings := rfl
@[simp] theorem intWant_rr (n : Nat) : (intWant s n).rr = s.rr := rfl
@[simp] theorem intWant_bells (n : Nat) : (intWant s n).bells = s.bells := rfl
@[simp] theorem intWant_awakeMax (n : Nat) : (intWant s n).awakeMax = s.awakeMax := rfl
@[simp] theorem intWant_feeds (n : Nat) : (intWant s n).feeds = s.feeds := rfl
@[simp] theorem intWant_feedB (n : Nat) : (intWant s n).feedB = s.feedB := rfl
@[simp] theorem intWant_discharging (n : Nat) : (intWant s n).discharging = s.discharging := rfl
@[simp] theorem intWant_fb (n : Nat) : (intWant s n).fb = s.fb := rfl
@[simp] theorem intWant_fbShadow (n : Nat) : (intWant s n).fbShadow = s.fbShadow := rfl
@[simp] theorem intWant_fbSync (n : Nat) : (intWant s n).fbSync = s.fbSync := rfl
@[simp] theorem intWant_capGuard (n : Nat) : (intWant s n).capGuard = s.capGuard := rfl
@[simp] theorem intWant_rails (n : Nat) : (intWant s n).rails = s.rails := rfl
@[simp] theorem intWant_sensors (n : Nat) : (intWant s n).sensors = s.sensors := rfl
@[simp] theorem intWant_ridgePower (n : Nat) : (intWant s n).ridgePower = s.ridgePower := rfl
@[simp] theorem intWant_ridgeFailed (n : Nat) : (intWant s n).ridgeFailed = s.ridgeFailed := rfl
@[simp] theorem intWant_nv0 (n : Nat) : (intWant s n).nv0 = s.nv0 := rfl
@[simp] theorem intWant_nv1 (n : Nat) : (intWant s n).nv1 = s.nv1 := rfl
@[simp] theorem intWant_nvNew (n : Nat) : (intWant s n).nvNew = s.nvNew := rfl
@[simp] theorem intWant_flash (n : Nat) : (intWant s n).flash = s.flash := rfl
@[simp] theorem intWant_fw (n : Nat) : (intWant s n).fw = s.fw := rfl
@[simp] theorem intWant_fuses (n : Nat) : (intWant s n).fuses = s.fuses := rfl
@[simp] theorem intWant_update (n : Nat) : (intWant s n).update = s.update := rfl
@[simp] theorem intWant_diag (n : Nat) : (intWant s n).diag = s.diag := rfl
@[simp] theorem intWant_eid (n : Nat) : (intWant s n).eid = s.eid := rfl
@[simp] theorem intWant_perst (n : Nat) : (intWant s n).perst = s.perst := rfl
@[simp] theorem intWant_xperst (n : Nat) : (intWant s n).xperst = s.xperst := rfl
@[simp] theorem intWant_flog (n : Nat) : (intWant s n).flog = s.flog := rfl
@[simp] theorem intWant_inv (n : Nat) : (intWant s n).inv = s.inv := rfl
@[simp] theorem intWant_invQ (n : Nat) : (intWant s n).invQ = s.invQ := rfl
@[simp] theorem intWant_rsvs (n : Nat) : (intWant s n).rsvs = s.rsvs := rfl
@[simp] theorem intWant_rsvRevoked (n : Nat) : (intWant s n).rsvRevoked = s.rsvRevoked := rfl
@[simp] theorem intWant_rsvDue (n : Nat) : (intWant s n).rsvDue = s.rsvDue := rfl
@[simp] theorem intWant_taps (n : Nat) : (intWant s n).taps = s.taps := rfl
@[simp] theorem intWant_shares (n : Nat) : (intWant s n).shares = s.shares := rfl
@[simp] theorem intWant_redivide (n : Nat) : (intWant s n).redivide = s.redivide := rfl
@[simp] theorem intWant_retQ (n : Nat) : (intWant s n).retQ = s.retQ := rfl
@[simp] theorem intWant_hdFailed (n : Nat) : (intWant s n).hdFailed = s.hdFailed := rfl
@[simp] theorem intWant_hostPorts (n : Nat) : (intWant s n).hostPorts = s.hostPorts := rfl
@[simp] theorem intWant_evq (n : Nat) : (intWant s n).evq = s.evq := rfl
@[simp] theorem intWant_receiver (n : Nat) : (intWant s n).receiver = s.receiver := rfl
@[simp] theorem intWant_hwEpoch (n : Nat) : (intWant s n).hwEpoch = s.hwEpoch := rfl

/-! ### updAllot -/

@[simp] theorem updAllot_pending (n : Nat) (f : Allot → Allot) : (updAllot s n f).pending = s.pending := rfl
@[simp] theorem updAllot_freeCtr (n : Nat) (f : Allot → Allot) : (updAllot s n f).freeCtr = s.freeCtr := rfl
@[simp] theorem updAllot_clockNs (n : Nat) (f : Allot → Allot) : (updAllot s n f).clockNs = s.clockNs := rfl
@[simp] theorem updAllot_out (n : Nat) (f : Allot → Allot) : (updAllot s n f).out = s.out := rfl
@[simp] theorem updAllot_mode (n : Nat) (f : Allot → Allot) : (updAllot s n f).mode = s.mode := rfl
@[simp] theorem updAllot_freason (n : Nat) (f : Allot → Allot) : (updAllot s n f).freason = s.freason := rfl
@[simp] theorem updAllot_tripped (n : Nat) (f : Allot → Allot) : (updAllot s n f).tripped = s.tripped := rfl
@[simp] theorem updAllot_regs (n : Nat) (f : Allot → Allot) : (updAllot s n f).regs = s.regs := rfl
@[simp] theorem updAllot_ctrs (n : Nat) (f : Allot → Allot) : (updAllot s n f).ctrs = s.ctrs := rfl
@[simp] theorem updAllot_shadows (n : Nat) (f : Allot → Allot) : (updAllot s n f).shadows = s.shadows := rfl
@[simp] theorem updAllot_rwSaved (n : Nat) (f : Allot → Allot) : (updAllot s n f).rwSaved = s.rwSaved := rfl
@[simp] theorem updAllot_ras (n : Nat) (f : Allot → Allot) : (updAllot s n f).ras = s.ras := rfl
@[simp] theorem updAllot_rasNext (n : Nat) (f : Allot → Allot) : (updAllot s n f).rasNext = s.rasNext := rfl
@[simp] theorem updAllot_intPend (n : Nat) (f : Allot → Allot) : (updAllot s n f).intPend = s.intPend := rfl
@[simp] theorem updAllot_terraces (n : Nat) (f : Allot → Allot) : (updAllot s n f).terraces = s.terraces := rfl
@[simp] theorem updAllot_lanes (n : Nat) (f : Allot → Allot) : (updAllot s n f).lanes = s.lanes := rfl
@[simp] theorem updAllot_saddles (n : Nat) (f : Allot → Allot) : (updAllot s n f).saddles = s.saddles := rfl
@[simp] theorem updAllot_lats (n : Nat) (f : Allot → Allot) : (updAllot s n f).lats = s.lats := rfl
@[simp] theorem updAllot_canalAlt (n : Nat) (f : Allot → Allot) : (updAllot s n f).canalAlt = s.canalAlt := rfl
@[simp] theorem updAllot_canalFence (n : Nat) (f : Allot → Allot) : (updAllot s n f).canalFence = s.canalFence := rfl
@[simp] theorem updAllot_hbm (n : Nat) (f : Allot → Allot) : (updAllot s n f).hbm = s.hbm := rfl
@[simp] theorem updAllot_far (n : Nat) (f : Allot → Allot) : (updAllot s n f).far = s.far := rfl
@[simp] theorem updAllot_host (n : Nat) (f : Allot → Allot) : (updAllot s n f).host = s.host := rfl
@[simp] theorem updAllot_peer (n : Nat) (f : Allot → Allot) : (updAllot s n f).peer = s.peer := rfl
@[simp] theorem updAllot_hbmPoison (n : Nat) (f : Allot → Allot) : (updAllot s n f).hbmPoison = s.hbmPoison := rfl
@[simp] theorem updAllot_guarded (n : Nat) (f : Allot → Allot) : (updAllot s n f).guarded = s.guarded := rfl
@[simp] theorem updAllot_ats (n : Nat) (f : Allot → Allot) : (updAllot s n f).ats = s.ats := rfl
@[simp] theorem updAllot_atsWant (n : Nat) (f : Allot → Allot) : (updAllot s n f).atsWant = s.atsWant := rfl
@[simp] theorem updAllot_got (n : Nat) (f : Allot → Allot) : (updAllot s n f).got = s.got := rfl
@[simp] theorem updAllot_hostReqs (n : Nat) (f : Allot → Allot) : (updAllot s n f).hostReqs = s.hostReqs := rfl
@[simp] theorem updAllot_atsPend (n : Nat) (f : Allot → Allot) : (updAllot s n f).atsPend = s.atsPend := rfl
@[simp] theorem updAllot_skv (n : Nat) (f : Allot → Allot) : (updAllot s n f).skv = s.skv := rfl
@[simp] theorem updAllot_skvArbs (n : Nat) (f : Allot → Allot) : (updAllot s n f).skvArbs = s.skvArbs := rfl
@[simp] theorem updAllot_rte (n : Nat) (f : Allot → Allot) : (updAllot s n f).rte = s.rte := rfl
@[simp] theorem updAllot_win (n : Nat) (f : Allot → Allot) : (updAllot s n f).win = s.win := rfl
@[simp] theorem updAllot_e2e (n : Nat) (f : Allot → Allot) : (updAllot s n f).e2e = s.e2e := rfl
@[simp] theorem updAllot_skvWait (n : Nat) (f : Allot → Allot) : (updAllot s n f).skvWait = s.skvWait := rfl
@[simp] theorem updAllot_skvReqs (n : Nat) (f : Allot → Allot) : (updAllot s n f).skvReqs = s.skvReqs := rfl
@[simp] theorem updAllot_mgmtIn (n : Nat) (f : Allot → Allot) : (updAllot s n f).mgmtIn = s.mgmtIn := rfl
@[simp] theorem updAllot_resetting (n : Nat) (f : Allot → Allot) : (updAllot s n f).resetting = s.resetting := rfl
@[simp] theorem updAllot_mir (n : Nat) (f : Allot → Allot) : (updAllot s n f).mir = s.mir := rfl
@[simp] theorem updAllot_farPorts (n : Nat) (f : Allot → Allot) : (updAllot s n f).farPorts = s.farPorts := rfl
@[simp] theorem updAllot_farDevs (n : Nat) (f : Allot → Allot) : (updAllot s n f).farDevs = s.farDevs := rfl
@[simp] theorem updAllot_jrn0 (n : Nat) (f : Allot → Allot) : (updAllot s n f).jrn0 = s.jrn0 := rfl
@[simp] theorem updAllot_jrn1 (n : Nat) (f : Allot → Allot) : (updAllot s n f).jrn1 = s.jrn1 := rfl
@[simp] theorem updAllot_jsteps (n : Nat) (f : Allot → Allot) : (updAllot s n f).jsteps = s.jsteps := rfl
@[simp] theorem updAllot_jfull (n : Nat) (f : Allot → Allot) : (updAllot s n f).jfull = s.jfull := rfl
@[simp] theorem updAllot_bellNo (n : Nat) (f : Allot → Allot) : (updAllot s n f).bellNo = s.bellNo := rfl
@[simp] theorem updAllot_resumeTo (n : Nat) (f : Allot → Allot) : (updAllot s n f).resumeTo = s.resumeTo := rfl
@[simp] theorem updAllot_runs (n : Nat) (f : Allot → Allot) : (updAllot s n f).runs = s.runs := rfl
@[simp] theorem updAllot_ques (n : Nat) (f : Allot → Allot) : (updAllot s n f).ques = s.ques := rfl
@[simp] theorem updAllot_rings (n : Nat) (f : Allot → Allot) : (updAllot s n f).rings = s.rings := rfl
@[simp] theorem updAllot_rr (n : Nat) (f : Allot → Allot) : (updAllot s n f).rr = s.rr := rfl
@[simp] theorem updAllot_bells (n : Nat) (f : Allot → Allot) : (updAllot s n f).bells = s.bells := rfl
@[simp] theorem updAllot_awakeMax (n : Nat) (f : Allot → Allot) : (updAllot s n f).awakeMax = s.awakeMax := rfl
@[simp] theorem updAllot_feeds (n : Nat) (f : Allot → Allot) : (updAllot s n f).feeds = s.feeds := rfl
@[simp] theorem updAllot_feedB (n : Nat) (f : Allot → Allot) : (updAllot s n f).feedB = s.feedB := rfl
@[simp] theorem updAllot_discharging (n : Nat) (f : Allot → Allot) : (updAllot s n f).discharging = s.discharging := rfl
@[simp] theorem updAllot_fb (n : Nat) (f : Allot → Allot) : (updAllot s n f).fb = s.fb := rfl
@[simp] theorem updAllot_fbShadow (n : Nat) (f : Allot → Allot) : (updAllot s n f).fbShadow = s.fbShadow := rfl
@[simp] theorem updAllot_fbSync (n : Nat) (f : Allot → Allot) : (updAllot s n f).fbSync = s.fbSync := rfl
@[simp] theorem updAllot_capGuard (n : Nat) (f : Allot → Allot) : (updAllot s n f).capGuard = s.capGuard := rfl
@[simp] theorem updAllot_rails (n : Nat) (f : Allot → Allot) : (updAllot s n f).rails = s.rails := rfl
@[simp] theorem updAllot_sensors (n : Nat) (f : Allot → Allot) : (updAllot s n f).sensors = s.sensors := rfl
@[simp] theorem updAllot_ridgePower (n : Nat) (f : Allot → Allot) : (updAllot s n f).ridgePower = s.ridgePower := rfl
@[simp] theorem updAllot_ridgeFailed (n : Nat) (f : Allot → Allot) : (updAllot s n f).ridgeFailed = s.ridgeFailed := rfl
@[simp] theorem updAllot_nv0 (n : Nat) (f : Allot → Allot) : (updAllot s n f).nv0 = s.nv0 := rfl
@[simp] theorem updAllot_nv1 (n : Nat) (f : Allot → Allot) : (updAllot s n f).nv1 = s.nv1 := rfl
@[simp] theorem updAllot_nvNew (n : Nat) (f : Allot → Allot) : (updAllot s n f).nvNew = s.nvNew := rfl
@[simp] theorem updAllot_flash (n : Nat) (f : Allot → Allot) : (updAllot s n f).flash = s.flash := rfl
@[simp] theorem updAllot_fw (n : Nat) (f : Allot → Allot) : (updAllot s n f).fw = s.fw := rfl
@[simp] theorem updAllot_fuses (n : Nat) (f : Allot → Allot) : (updAllot s n f).fuses = s.fuses := rfl
@[simp] theorem updAllot_update (n : Nat) (f : Allot → Allot) : (updAllot s n f).update = s.update := rfl
@[simp] theorem updAllot_diag (n : Nat) (f : Allot → Allot) : (updAllot s n f).diag = s.diag := rfl
@[simp] theorem updAllot_eid (n : Nat) (f : Allot → Allot) : (updAllot s n f).eid = s.eid := rfl
@[simp] theorem updAllot_perst (n : Nat) (f : Allot → Allot) : (updAllot s n f).perst = s.perst := rfl
@[simp] theorem updAllot_xperst (n : Nat) (f : Allot → Allot) : (updAllot s n f).xperst = s.xperst := rfl
@[simp] theorem updAllot_flog (n : Nat) (f : Allot → Allot) : (updAllot s n f).flog = s.flog := rfl
@[simp] theorem updAllot_inv (n : Nat) (f : Allot → Allot) : (updAllot s n f).inv = s.inv := rfl
@[simp] theorem updAllot_invQ (n : Nat) (f : Allot → Allot) : (updAllot s n f).invQ = s.invQ := rfl
@[simp] theorem updAllot_rsvs (n : Nat) (f : Allot → Allot) : (updAllot s n f).rsvs = s.rsvs := rfl
@[simp] theorem updAllot_rsvRevoked (n : Nat) (f : Allot → Allot) : (updAllot s n f).rsvRevoked = s.rsvRevoked := rfl
@[simp] theorem updAllot_rsvDue (n : Nat) (f : Allot → Allot) : (updAllot s n f).rsvDue = s.rsvDue := rfl
@[simp] theorem updAllot_taps (n : Nat) (f : Allot → Allot) : (updAllot s n f).taps = s.taps := rfl
@[simp] theorem updAllot_shares (n : Nat) (f : Allot → Allot) : (updAllot s n f).shares = s.shares := rfl
@[simp] theorem updAllot_redivide (n : Nat) (f : Allot → Allot) : (updAllot s n f).redivide = s.redivide := rfl
@[simp] theorem updAllot_retQ (n : Nat) (f : Allot → Allot) : (updAllot s n f).retQ = s.retQ := rfl
@[simp] theorem updAllot_hdFailed (n : Nat) (f : Allot → Allot) : (updAllot s n f).hdFailed = s.hdFailed := rfl
@[simp] theorem updAllot_hostPorts (n : Nat) (f : Allot → Allot) : (updAllot s n f).hostPorts = s.hostPorts := rfl
@[simp] theorem updAllot_evq (n : Nat) (f : Allot → Allot) : (updAllot s n f).evq = s.evq := rfl
@[simp] theorem updAllot_receiver (n : Nat) (f : Allot → Allot) : (updAllot s n f).receiver = s.receiver := rfl
@[simp] theorem updAllot_hwEpoch (n : Nat) (f : Allot → Allot) : (updAllot s n f).hwEpoch = s.hwEpoch := rfl

/-! ### updSaddle -/

@[simp] theorem updSaddle_pending (n : Nat) (f : Saddle → Saddle) : (updSaddle s n f).pending = s.pending := rfl
@[simp] theorem updSaddle_freeCtr (n : Nat) (f : Saddle → Saddle) : (updSaddle s n f).freeCtr = s.freeCtr := rfl
@[simp] theorem updSaddle_clockNs (n : Nat) (f : Saddle → Saddle) : (updSaddle s n f).clockNs = s.clockNs := rfl
@[simp] theorem updSaddle_out (n : Nat) (f : Saddle → Saddle) : (updSaddle s n f).out = s.out := rfl
@[simp] theorem updSaddle_mode (n : Nat) (f : Saddle → Saddle) : (updSaddle s n f).mode = s.mode := rfl
@[simp] theorem updSaddle_freason (n : Nat) (f : Saddle → Saddle) : (updSaddle s n f).freason = s.freason := rfl
@[simp] theorem updSaddle_tripped (n : Nat) (f : Saddle → Saddle) : (updSaddle s n f).tripped = s.tripped := rfl
@[simp] theorem updSaddle_regs (n : Nat) (f : Saddle → Saddle) : (updSaddle s n f).regs = s.regs := rfl
@[simp] theorem updSaddle_ctrs (n : Nat) (f : Saddle → Saddle) : (updSaddle s n f).ctrs = s.ctrs := rfl
@[simp] theorem updSaddle_shadows (n : Nat) (f : Saddle → Saddle) : (updSaddle s n f).shadows = s.shadows := rfl
@[simp] theorem updSaddle_rwSaved (n : Nat) (f : Saddle → Saddle) : (updSaddle s n f).rwSaved = s.rwSaved := rfl
@[simp] theorem updSaddle_ras (n : Nat) (f : Saddle → Saddle) : (updSaddle s n f).ras = s.ras := rfl
@[simp] theorem updSaddle_rasNext (n : Nat) (f : Saddle → Saddle) : (updSaddle s n f).rasNext = s.rasNext := rfl
@[simp] theorem updSaddle_intPend (n : Nat) (f : Saddle → Saddle) : (updSaddle s n f).intPend = s.intPend := rfl
@[simp] theorem updSaddle_terraces (n : Nat) (f : Saddle → Saddle) : (updSaddle s n f).terraces = s.terraces := rfl
@[simp] theorem updSaddle_lanes (n : Nat) (f : Saddle → Saddle) : (updSaddle s n f).lanes = s.lanes := rfl
@[simp] theorem updSaddle_lats (n : Nat) (f : Saddle → Saddle) : (updSaddle s n f).lats = s.lats := rfl
@[simp] theorem updSaddle_canalAlt (n : Nat) (f : Saddle → Saddle) : (updSaddle s n f).canalAlt = s.canalAlt := rfl
@[simp] theorem updSaddle_canalFence (n : Nat) (f : Saddle → Saddle) : (updSaddle s n f).canalFence = s.canalFence := rfl
@[simp] theorem updSaddle_hbm (n : Nat) (f : Saddle → Saddle) : (updSaddle s n f).hbm = s.hbm := rfl
@[simp] theorem updSaddle_far (n : Nat) (f : Saddle → Saddle) : (updSaddle s n f).far = s.far := rfl
@[simp] theorem updSaddle_host (n : Nat) (f : Saddle → Saddle) : (updSaddle s n f).host = s.host := rfl
@[simp] theorem updSaddle_peer (n : Nat) (f : Saddle → Saddle) : (updSaddle s n f).peer = s.peer := rfl
@[simp] theorem updSaddle_hbmPoison (n : Nat) (f : Saddle → Saddle) : (updSaddle s n f).hbmPoison = s.hbmPoison := rfl
@[simp] theorem updSaddle_guarded (n : Nat) (f : Saddle → Saddle) : (updSaddle s n f).guarded = s.guarded := rfl
@[simp] theorem updSaddle_ats (n : Nat) (f : Saddle → Saddle) : (updSaddle s n f).ats = s.ats := rfl
@[simp] theorem updSaddle_atsWant (n : Nat) (f : Saddle → Saddle) : (updSaddle s n f).atsWant = s.atsWant := rfl
@[simp] theorem updSaddle_got (n : Nat) (f : Saddle → Saddle) : (updSaddle s n f).got = s.got := rfl
@[simp] theorem updSaddle_hostReqs (n : Nat) (f : Saddle → Saddle) : (updSaddle s n f).hostReqs = s.hostReqs := rfl
@[simp] theorem updSaddle_atsPend (n : Nat) (f : Saddle → Saddle) : (updSaddle s n f).atsPend = s.atsPend := rfl
@[simp] theorem updSaddle_skv (n : Nat) (f : Saddle → Saddle) : (updSaddle s n f).skv = s.skv := rfl
@[simp] theorem updSaddle_skvArbs (n : Nat) (f : Saddle → Saddle) : (updSaddle s n f).skvArbs = s.skvArbs := rfl
@[simp] theorem updSaddle_rte (n : Nat) (f : Saddle → Saddle) : (updSaddle s n f).rte = s.rte := rfl
@[simp] theorem updSaddle_win (n : Nat) (f : Saddle → Saddle) : (updSaddle s n f).win = s.win := rfl
@[simp] theorem updSaddle_e2e (n : Nat) (f : Saddle → Saddle) : (updSaddle s n f).e2e = s.e2e := rfl
@[simp] theorem updSaddle_skvWait (n : Nat) (f : Saddle → Saddle) : (updSaddle s n f).skvWait = s.skvWait := rfl
@[simp] theorem updSaddle_skvReqs (n : Nat) (f : Saddle → Saddle) : (updSaddle s n f).skvReqs = s.skvReqs := rfl
@[simp] theorem updSaddle_mgmtIn (n : Nat) (f : Saddle → Saddle) : (updSaddle s n f).mgmtIn = s.mgmtIn := rfl
@[simp] theorem updSaddle_resetting (n : Nat) (f : Saddle → Saddle) : (updSaddle s n f).resetting = s.resetting := rfl
@[simp] theorem updSaddle_mir (n : Nat) (f : Saddle → Saddle) : (updSaddle s n f).mir = s.mir := rfl
@[simp] theorem updSaddle_farPorts (n : Nat) (f : Saddle → Saddle) : (updSaddle s n f).farPorts = s.farPorts := rfl
@[simp] theorem updSaddle_farDevs (n : Nat) (f : Saddle → Saddle) : (updSaddle s n f).farDevs = s.farDevs := rfl
@[simp] theorem updSaddle_jrn0 (n : Nat) (f : Saddle → Saddle) : (updSaddle s n f).jrn0 = s.jrn0 := rfl
@[simp] theorem updSaddle_jrn1 (n : Nat) (f : Saddle → Saddle) : (updSaddle s n f).jrn1 = s.jrn1 := rfl
@[simp] theorem updSaddle_jsteps (n : Nat) (f : Saddle → Saddle) : (updSaddle s n f).jsteps = s.jsteps := rfl
@[simp] theorem updSaddle_jfull (n : Nat) (f : Saddle → Saddle) : (updSaddle s n f).jfull = s.jfull := rfl
@[simp] theorem updSaddle_bellNo (n : Nat) (f : Saddle → Saddle) : (updSaddle s n f).bellNo = s.bellNo := rfl
@[simp] theorem updSaddle_resumeTo (n : Nat) (f : Saddle → Saddle) : (updSaddle s n f).resumeTo = s.resumeTo := rfl
@[simp] theorem updSaddle_runs (n : Nat) (f : Saddle → Saddle) : (updSaddle s n f).runs = s.runs := rfl
@[simp] theorem updSaddle_ques (n : Nat) (f : Saddle → Saddle) : (updSaddle s n f).ques = s.ques := rfl
@[simp] theorem updSaddle_allots (n : Nat) (f : Saddle → Saddle) : (updSaddle s n f).allots = s.allots := rfl
@[simp] theorem updSaddle_rings (n : Nat) (f : Saddle → Saddle) : (updSaddle s n f).rings = s.rings := rfl
@[simp] theorem updSaddle_rr (n : Nat) (f : Saddle → Saddle) : (updSaddle s n f).rr = s.rr := rfl
@[simp] theorem updSaddle_bells (n : Nat) (f : Saddle → Saddle) : (updSaddle s n f).bells = s.bells := rfl
@[simp] theorem updSaddle_awakeMax (n : Nat) (f : Saddle → Saddle) : (updSaddle s n f).awakeMax = s.awakeMax := rfl
@[simp] theorem updSaddle_feeds (n : Nat) (f : Saddle → Saddle) : (updSaddle s n f).feeds = s.feeds := rfl
@[simp] theorem updSaddle_feedB (n : Nat) (f : Saddle → Saddle) : (updSaddle s n f).feedB = s.feedB := rfl
@[simp] theorem updSaddle_discharging (n : Nat) (f : Saddle → Saddle) : (updSaddle s n f).discharging = s.discharging := rfl
@[simp] theorem updSaddle_fb (n : Nat) (f : Saddle → Saddle) : (updSaddle s n f).fb = s.fb := rfl
@[simp] theorem updSaddle_fbShadow (n : Nat) (f : Saddle → Saddle) : (updSaddle s n f).fbShadow = s.fbShadow := rfl
@[simp] theorem updSaddle_fbSync (n : Nat) (f : Saddle → Saddle) : (updSaddle s n f).fbSync = s.fbSync := rfl
@[simp] theorem updSaddle_capGuard (n : Nat) (f : Saddle → Saddle) : (updSaddle s n f).capGuard = s.capGuard := rfl
@[simp] theorem updSaddle_rails (n : Nat) (f : Saddle → Saddle) : (updSaddle s n f).rails = s.rails := rfl
@[simp] theorem updSaddle_sensors (n : Nat) (f : Saddle → Saddle) : (updSaddle s n f).sensors = s.sensors := rfl
@[simp] theorem updSaddle_ridgePower (n : Nat) (f : Saddle → Saddle) : (updSaddle s n f).ridgePower = s.ridgePower := rfl
@[simp] theorem updSaddle_ridgeFailed (n : Nat) (f : Saddle → Saddle) : (updSaddle s n f).ridgeFailed = s.ridgeFailed := rfl
@[simp] theorem updSaddle_nv0 (n : Nat) (f : Saddle → Saddle) : (updSaddle s n f).nv0 = s.nv0 := rfl
@[simp] theorem updSaddle_nv1 (n : Nat) (f : Saddle → Saddle) : (updSaddle s n f).nv1 = s.nv1 := rfl
@[simp] theorem updSaddle_nvNew (n : Nat) (f : Saddle → Saddle) : (updSaddle s n f).nvNew = s.nvNew := rfl
@[simp] theorem updSaddle_flash (n : Nat) (f : Saddle → Saddle) : (updSaddle s n f).flash = s.flash := rfl
@[simp] theorem updSaddle_fw (n : Nat) (f : Saddle → Saddle) : (updSaddle s n f).fw = s.fw := rfl
@[simp] theorem updSaddle_fuses (n : Nat) (f : Saddle → Saddle) : (updSaddle s n f).fuses = s.fuses := rfl
@[simp] theorem updSaddle_update (n : Nat) (f : Saddle → Saddle) : (updSaddle s n f).update = s.update := rfl
@[simp] theorem updSaddle_diag (n : Nat) (f : Saddle → Saddle) : (updSaddle s n f).diag = s.diag := rfl
@[simp] theorem updSaddle_eid (n : Nat) (f : Saddle → Saddle) : (updSaddle s n f).eid = s.eid := rfl
@[simp] theorem updSaddle_perst (n : Nat) (f : Saddle → Saddle) : (updSaddle s n f).perst = s.perst := rfl
@[simp] theorem updSaddle_xperst (n : Nat) (f : Saddle → Saddle) : (updSaddle s n f).xperst = s.xperst := rfl
@[simp] theorem updSaddle_flog (n : Nat) (f : Saddle → Saddle) : (updSaddle s n f).flog = s.flog := rfl
@[simp] theorem updSaddle_inv (n : Nat) (f : Saddle → Saddle) : (updSaddle s n f).inv = s.inv := rfl
@[simp] theorem updSaddle_invQ (n : Nat) (f : Saddle → Saddle) : (updSaddle s n f).invQ = s.invQ := rfl
@[simp] theorem updSaddle_rsvs (n : Nat) (f : Saddle → Saddle) : (updSaddle s n f).rsvs = s.rsvs := rfl
@[simp] theorem updSaddle_rsvRevoked (n : Nat) (f : Saddle → Saddle) : (updSaddle s n f).rsvRevoked = s.rsvRevoked := rfl
@[simp] theorem updSaddle_rsvDue (n : Nat) (f : Saddle → Saddle) : (updSaddle s n f).rsvDue = s.rsvDue := rfl
@[simp] theorem updSaddle_taps (n : Nat) (f : Saddle → Saddle) : (updSaddle s n f).taps = s.taps := rfl
@[simp] theorem updSaddle_shares (n : Nat) (f : Saddle → Saddle) : (updSaddle s n f).shares = s.shares := rfl
@[simp] theorem updSaddle_redivide (n : Nat) (f : Saddle → Saddle) : (updSaddle s n f).redivide = s.redivide := rfl
@[simp] theorem updSaddle_retQ (n : Nat) (f : Saddle → Saddle) : (updSaddle s n f).retQ = s.retQ := rfl
@[simp] theorem updSaddle_hdFailed (n : Nat) (f : Saddle → Saddle) : (updSaddle s n f).hdFailed = s.hdFailed := rfl
@[simp] theorem updSaddle_hostPorts (n : Nat) (f : Saddle → Saddle) : (updSaddle s n f).hostPorts = s.hostPorts := rfl
@[simp] theorem updSaddle_evq (n : Nat) (f : Saddle → Saddle) : (updSaddle s n f).evq = s.evq := rfl
@[simp] theorem updSaddle_receiver (n : Nat) (f : Saddle → Saddle) : (updSaddle s n f).receiver = s.receiver := rfl
@[simp] theorem updSaddle_hwEpoch (n : Nat) (f : Saddle → Saddle) : (updSaddle s n f).hwEpoch = s.hwEpoch := rfl

/-! ### setTerrace -/

@[simp] theorem setTerrace_pending (n : Nat) (t : Terrace) : (setTerrace s n t).pending = s.pending := rfl
@[simp] theorem setTerrace_freeCtr (n : Nat) (t : Terrace) : (setTerrace s n t).freeCtr = s.freeCtr := rfl
@[simp] theorem setTerrace_clockNs (n : Nat) (t : Terrace) : (setTerrace s n t).clockNs = s.clockNs := rfl
@[simp] theorem setTerrace_out (n : Nat) (t : Terrace) : (setTerrace s n t).out = s.out := rfl
@[simp] theorem setTerrace_mode (n : Nat) (t : Terrace) : (setTerrace s n t).mode = s.mode := rfl
@[simp] theorem setTerrace_freason (n : Nat) (t : Terrace) : (setTerrace s n t).freason = s.freason := rfl
@[simp] theorem setTerrace_tripped (n : Nat) (t : Terrace) : (setTerrace s n t).tripped = s.tripped := rfl
@[simp] theorem setTerrace_regs (n : Nat) (t : Terrace) : (setTerrace s n t).regs = s.regs := rfl
@[simp] theorem setTerrace_ctrs (n : Nat) (t : Terrace) : (setTerrace s n t).ctrs = s.ctrs := rfl
@[simp] theorem setTerrace_shadows (n : Nat) (t : Terrace) : (setTerrace s n t).shadows = s.shadows := rfl
@[simp] theorem setTerrace_rwSaved (n : Nat) (t : Terrace) : (setTerrace s n t).rwSaved = s.rwSaved := rfl
@[simp] theorem setTerrace_ras (n : Nat) (t : Terrace) : (setTerrace s n t).ras = s.ras := rfl
@[simp] theorem setTerrace_rasNext (n : Nat) (t : Terrace) : (setTerrace s n t).rasNext = s.rasNext := rfl
@[simp] theorem setTerrace_intPend (n : Nat) (t : Terrace) : (setTerrace s n t).intPend = s.intPend := rfl
@[simp] theorem setTerrace_lanes (n : Nat) (t : Terrace) : (setTerrace s n t).lanes = s.lanes := rfl
@[simp] theorem setTerrace_saddles (n : Nat) (t : Terrace) : (setTerrace s n t).saddles = s.saddles := rfl
@[simp] theorem setTerrace_lats (n : Nat) (t : Terrace) : (setTerrace s n t).lats = s.lats := rfl
@[simp] theorem setTerrace_canalAlt (n : Nat) (t : Terrace) : (setTerrace s n t).canalAlt = s.canalAlt := rfl
@[simp] theorem setTerrace_canalFence (n : Nat) (t : Terrace) : (setTerrace s n t).canalFence = s.canalFence := rfl
@[simp] theorem setTerrace_hbm (n : Nat) (t : Terrace) : (setTerrace s n t).hbm = s.hbm := rfl
@[simp] theorem setTerrace_far (n : Nat) (t : Terrace) : (setTerrace s n t).far = s.far := rfl
@[simp] theorem setTerrace_host (n : Nat) (t : Terrace) : (setTerrace s n t).host = s.host := rfl
@[simp] theorem setTerrace_peer (n : Nat) (t : Terrace) : (setTerrace s n t).peer = s.peer := rfl
@[simp] theorem setTerrace_hbmPoison (n : Nat) (t : Terrace) : (setTerrace s n t).hbmPoison = s.hbmPoison := rfl
@[simp] theorem setTerrace_guarded (n : Nat) (t : Terrace) : (setTerrace s n t).guarded = s.guarded := rfl
@[simp] theorem setTerrace_ats (n : Nat) (t : Terrace) : (setTerrace s n t).ats = s.ats := rfl
@[simp] theorem setTerrace_atsWant (n : Nat) (t : Terrace) : (setTerrace s n t).atsWant = s.atsWant := rfl
@[simp] theorem setTerrace_got (n : Nat) (t : Terrace) : (setTerrace s n t).got = s.got := rfl
@[simp] theorem setTerrace_hostReqs (n : Nat) (t : Terrace) : (setTerrace s n t).hostReqs = s.hostReqs := rfl
@[simp] theorem setTerrace_atsPend (n : Nat) (t : Terrace) : (setTerrace s n t).atsPend = s.atsPend := rfl
@[simp] theorem setTerrace_skv (n : Nat) (t : Terrace) : (setTerrace s n t).skv = s.skv := rfl
@[simp] theorem setTerrace_skvArbs (n : Nat) (t : Terrace) : (setTerrace s n t).skvArbs = s.skvArbs := rfl
@[simp] theorem setTerrace_rte (n : Nat) (t : Terrace) : (setTerrace s n t).rte = s.rte := rfl
@[simp] theorem setTerrace_win (n : Nat) (t : Terrace) : (setTerrace s n t).win = s.win := rfl
@[simp] theorem setTerrace_e2e (n : Nat) (t : Terrace) : (setTerrace s n t).e2e = s.e2e := rfl
@[simp] theorem setTerrace_skvWait (n : Nat) (t : Terrace) : (setTerrace s n t).skvWait = s.skvWait := rfl
@[simp] theorem setTerrace_skvReqs (n : Nat) (t : Terrace) : (setTerrace s n t).skvReqs = s.skvReqs := rfl
@[simp] theorem setTerrace_mgmtIn (n : Nat) (t : Terrace) : (setTerrace s n t).mgmtIn = s.mgmtIn := rfl
@[simp] theorem setTerrace_resetting (n : Nat) (t : Terrace) : (setTerrace s n t).resetting = s.resetting := rfl
@[simp] theorem setTerrace_mir (n : Nat) (t : Terrace) : (setTerrace s n t).mir = s.mir := rfl
@[simp] theorem setTerrace_farPorts (n : Nat) (t : Terrace) : (setTerrace s n t).farPorts = s.farPorts := rfl
@[simp] theorem setTerrace_farDevs (n : Nat) (t : Terrace) : (setTerrace s n t).farDevs = s.farDevs := rfl
@[simp] theorem setTerrace_jrn0 (n : Nat) (t : Terrace) : (setTerrace s n t).jrn0 = s.jrn0 := rfl
@[simp] theorem setTerrace_jrn1 (n : Nat) (t : Terrace) : (setTerrace s n t).jrn1 = s.jrn1 := rfl
@[simp] theorem setTerrace_jsteps (n : Nat) (t : Terrace) : (setTerrace s n t).jsteps = s.jsteps := rfl
@[simp] theorem setTerrace_jfull (n : Nat) (t : Terrace) : (setTerrace s n t).jfull = s.jfull := rfl
@[simp] theorem setTerrace_bellNo (n : Nat) (t : Terrace) : (setTerrace s n t).bellNo = s.bellNo := rfl
@[simp] theorem setTerrace_resumeTo (n : Nat) (t : Terrace) : (setTerrace s n t).resumeTo = s.resumeTo := rfl
@[simp] theorem setTerrace_runs (n : Nat) (t : Terrace) : (setTerrace s n t).runs = s.runs := rfl
@[simp] theorem setTerrace_ques (n : Nat) (t : Terrace) : (setTerrace s n t).ques = s.ques := rfl
@[simp] theorem setTerrace_allots (n : Nat) (t : Terrace) : (setTerrace s n t).allots = s.allots := rfl
@[simp] theorem setTerrace_rings (n : Nat) (t : Terrace) : (setTerrace s n t).rings = s.rings := rfl
@[simp] theorem setTerrace_rr (n : Nat) (t : Terrace) : (setTerrace s n t).rr = s.rr := rfl
@[simp] theorem setTerrace_bells (n : Nat) (t : Terrace) : (setTerrace s n t).bells = s.bells := rfl
@[simp] theorem setTerrace_awakeMax (n : Nat) (t : Terrace) : (setTerrace s n t).awakeMax = s.awakeMax := rfl
@[simp] theorem setTerrace_feeds (n : Nat) (t : Terrace) : (setTerrace s n t).feeds = s.feeds := rfl
@[simp] theorem setTerrace_feedB (n : Nat) (t : Terrace) : (setTerrace s n t).feedB = s.feedB := rfl
@[simp] theorem setTerrace_discharging (n : Nat) (t : Terrace) : (setTerrace s n t).discharging = s.discharging := rfl
@[simp] theorem setTerrace_fb (n : Nat) (t : Terrace) : (setTerrace s n t).fb = s.fb := rfl
@[simp] theorem setTerrace_fbShadow (n : Nat) (t : Terrace) : (setTerrace s n t).fbShadow = s.fbShadow := rfl
@[simp] theorem setTerrace_fbSync (n : Nat) (t : Terrace) : (setTerrace s n t).fbSync = s.fbSync := rfl
@[simp] theorem setTerrace_capGuard (n : Nat) (t : Terrace) : (setTerrace s n t).capGuard = s.capGuard := rfl
@[simp] theorem setTerrace_rails (n : Nat) (t : Terrace) : (setTerrace s n t).rails = s.rails := rfl
@[simp] theorem setTerrace_sensors (n : Nat) (t : Terrace) : (setTerrace s n t).sensors = s.sensors := rfl
@[simp] theorem setTerrace_ridgePower (n : Nat) (t : Terrace) : (setTerrace s n t).ridgePower = s.ridgePower := rfl
@[simp] theorem setTerrace_ridgeFailed (n : Nat) (t : Terrace) : (setTerrace s n t).ridgeFailed = s.ridgeFailed := rfl
@[simp] theorem setTerrace_nv0 (n : Nat) (t : Terrace) : (setTerrace s n t).nv0 = s.nv0 := rfl
@[simp] theorem setTerrace_nv1 (n : Nat) (t : Terrace) : (setTerrace s n t).nv1 = s.nv1 := rfl
@[simp] theorem setTerrace_nvNew (n : Nat) (t : Terrace) : (setTerrace s n t).nvNew = s.nvNew := rfl
@[simp] theorem setTerrace_flash (n : Nat) (t : Terrace) : (setTerrace s n t).flash = s.flash := rfl
@[simp] theorem setTerrace_fw (n : Nat) (t : Terrace) : (setTerrace s n t).fw = s.fw := rfl
@[simp] theorem setTerrace_fuses (n : Nat) (t : Terrace) : (setTerrace s n t).fuses = s.fuses := rfl
@[simp] theorem setTerrace_update (n : Nat) (t : Terrace) : (setTerrace s n t).update = s.update := rfl
@[simp] theorem setTerrace_diag (n : Nat) (t : Terrace) : (setTerrace s n t).diag = s.diag := rfl
@[simp] theorem setTerrace_eid (n : Nat) (t : Terrace) : (setTerrace s n t).eid = s.eid := rfl
@[simp] theorem setTerrace_perst (n : Nat) (t : Terrace) : (setTerrace s n t).perst = s.perst := rfl
@[simp] theorem setTerrace_xperst (n : Nat) (t : Terrace) : (setTerrace s n t).xperst = s.xperst := rfl
@[simp] theorem setTerrace_flog (n : Nat) (t : Terrace) : (setTerrace s n t).flog = s.flog := rfl
@[simp] theorem setTerrace_inv (n : Nat) (t : Terrace) : (setTerrace s n t).inv = s.inv := rfl
@[simp] theorem setTerrace_invQ (n : Nat) (t : Terrace) : (setTerrace s n t).invQ = s.invQ := rfl
@[simp] theorem setTerrace_rsvs (n : Nat) (t : Terrace) : (setTerrace s n t).rsvs = s.rsvs := rfl
@[simp] theorem setTerrace_rsvRevoked (n : Nat) (t : Terrace) : (setTerrace s n t).rsvRevoked = s.rsvRevoked := rfl
@[simp] theorem setTerrace_rsvDue (n : Nat) (t : Terrace) : (setTerrace s n t).rsvDue = s.rsvDue := rfl
@[simp] theorem setTerrace_taps (n : Nat) (t : Terrace) : (setTerrace s n t).taps = s.taps := rfl
@[simp] theorem setTerrace_shares (n : Nat) (t : Terrace) : (setTerrace s n t).shares = s.shares := rfl
@[simp] theorem setTerrace_redivide (n : Nat) (t : Terrace) : (setTerrace s n t).redivide = s.redivide := rfl
@[simp] theorem setTerrace_retQ (n : Nat) (t : Terrace) : (setTerrace s n t).retQ = s.retQ := rfl
@[simp] theorem setTerrace_hdFailed (n : Nat) (t : Terrace) : (setTerrace s n t).hdFailed = s.hdFailed := rfl
@[simp] theorem setTerrace_hostPorts (n : Nat) (t : Terrace) : (setTerrace s n t).hostPorts = s.hostPorts := rfl
@[simp] theorem setTerrace_evq (n : Nat) (t : Terrace) : (setTerrace s n t).evq = s.evq := rfl
@[simp] theorem setTerrace_receiver (n : Nat) (t : Terrace) : (setTerrace s n t).receiver = s.receiver := rfl
@[simp] theorem setTerrace_hwEpoch (n : Nat) (t : Terrace) : (setTerrace s n t).hwEpoch = s.hwEpoch := rfl

/-! ### updTerrace -/

@[simp] theorem updTerrace_pending (n : Nat) (f : Terrace → Terrace) : (updTerrace s n f).pending = s.pending := rfl
@[simp] theorem updTerrace_freeCtr (n : Nat) (f : Terrace → Terrace) : (updTerrace s n f).freeCtr = s.freeCtr := rfl
@[simp] theorem updTerrace_clockNs (n : Nat) (f : Terrace → Terrace) : (updTerrace s n f).clockNs = s.clockNs := rfl
@[simp] theorem updTerrace_out (n : Nat) (f : Terrace → Terrace) : (updTerrace s n f).out = s.out := rfl
@[simp] theorem updTerrace_mode (n : Nat) (f : Terrace → Terrace) : (updTerrace s n f).mode = s.mode := rfl
@[simp] theorem updTerrace_freason (n : Nat) (f : Terrace → Terrace) : (updTerrace s n f).freason = s.freason := rfl
@[simp] theorem updTerrace_tripped (n : Nat) (f : Terrace → Terrace) : (updTerrace s n f).tripped = s.tripped := rfl
@[simp] theorem updTerrace_regs (n : Nat) (f : Terrace → Terrace) : (updTerrace s n f).regs = s.regs := rfl
@[simp] theorem updTerrace_ctrs (n : Nat) (f : Terrace → Terrace) : (updTerrace s n f).ctrs = s.ctrs := rfl
@[simp] theorem updTerrace_shadows (n : Nat) (f : Terrace → Terrace) : (updTerrace s n f).shadows = s.shadows := rfl
@[simp] theorem updTerrace_rwSaved (n : Nat) (f : Terrace → Terrace) : (updTerrace s n f).rwSaved = s.rwSaved := rfl
@[simp] theorem updTerrace_ras (n : Nat) (f : Terrace → Terrace) : (updTerrace s n f).ras = s.ras := rfl
@[simp] theorem updTerrace_rasNext (n : Nat) (f : Terrace → Terrace) : (updTerrace s n f).rasNext = s.rasNext := rfl
@[simp] theorem updTerrace_intPend (n : Nat) (f : Terrace → Terrace) : (updTerrace s n f).intPend = s.intPend := rfl
@[simp] theorem updTerrace_lanes (n : Nat) (f : Terrace → Terrace) : (updTerrace s n f).lanes = s.lanes := rfl
@[simp] theorem updTerrace_saddles (n : Nat) (f : Terrace → Terrace) : (updTerrace s n f).saddles = s.saddles := rfl
@[simp] theorem updTerrace_lats (n : Nat) (f : Terrace → Terrace) : (updTerrace s n f).lats = s.lats := rfl
@[simp] theorem updTerrace_canalAlt (n : Nat) (f : Terrace → Terrace) : (updTerrace s n f).canalAlt = s.canalAlt := rfl
@[simp] theorem updTerrace_canalFence (n : Nat) (f : Terrace → Terrace) : (updTerrace s n f).canalFence = s.canalFence := rfl
@[simp] theorem updTerrace_hbm (n : Nat) (f : Terrace → Terrace) : (updTerrace s n f).hbm = s.hbm := rfl
@[simp] theorem updTerrace_far (n : Nat) (f : Terrace → Terrace) : (updTerrace s n f).far = s.far := rfl
@[simp] theorem updTerrace_host (n : Nat) (f : Terrace → Terrace) : (updTerrace s n f).host = s.host := rfl
@[simp] theorem updTerrace_peer (n : Nat) (f : Terrace → Terrace) : (updTerrace s n f).peer = s.peer := rfl
@[simp] theorem updTerrace_hbmPoison (n : Nat) (f : Terrace → Terrace) : (updTerrace s n f).hbmPoison = s.hbmPoison := rfl
@[simp] theorem updTerrace_guarded (n : Nat) (f : Terrace → Terrace) : (updTerrace s n f).guarded = s.guarded := rfl
@[simp] theorem updTerrace_ats (n : Nat) (f : Terrace → Terrace) : (updTerrace s n f).ats = s.ats := rfl
@[simp] theorem updTerrace_atsWant (n : Nat) (f : Terrace → Terrace) : (updTerrace s n f).atsWant = s.atsWant := rfl
@[simp] theorem updTerrace_got (n : Nat) (f : Terrace → Terrace) : (updTerrace s n f).got = s.got := rfl
@[simp] theorem updTerrace_hostReqs (n : Nat) (f : Terrace → Terrace) : (updTerrace s n f).hostReqs = s.hostReqs := rfl
@[simp] theorem updTerrace_atsPend (n : Nat) (f : Terrace → Terrace) : (updTerrace s n f).atsPend = s.atsPend := rfl
@[simp] theorem updTerrace_skv (n : Nat) (f : Terrace → Terrace) : (updTerrace s n f).skv = s.skv := rfl
@[simp] theorem updTerrace_skvArbs (n : Nat) (f : Terrace → Terrace) : (updTerrace s n f).skvArbs = s.skvArbs := rfl
@[simp] theorem updTerrace_rte (n : Nat) (f : Terrace → Terrace) : (updTerrace s n f).rte = s.rte := rfl
@[simp] theorem updTerrace_win (n : Nat) (f : Terrace → Terrace) : (updTerrace s n f).win = s.win := rfl
@[simp] theorem updTerrace_e2e (n : Nat) (f : Terrace → Terrace) : (updTerrace s n f).e2e = s.e2e := rfl
@[simp] theorem updTerrace_skvWait (n : Nat) (f : Terrace → Terrace) : (updTerrace s n f).skvWait = s.skvWait := rfl
@[simp] theorem updTerrace_skvReqs (n : Nat) (f : Terrace → Terrace) : (updTerrace s n f).skvReqs = s.skvReqs := rfl
@[simp] theorem updTerrace_mgmtIn (n : Nat) (f : Terrace → Terrace) : (updTerrace s n f).mgmtIn = s.mgmtIn := rfl
@[simp] theorem updTerrace_resetting (n : Nat) (f : Terrace → Terrace) : (updTerrace s n f).resetting = s.resetting := rfl
@[simp] theorem updTerrace_mir (n : Nat) (f : Terrace → Terrace) : (updTerrace s n f).mir = s.mir := rfl
@[simp] theorem updTerrace_farPorts (n : Nat) (f : Terrace → Terrace) : (updTerrace s n f).farPorts = s.farPorts := rfl
@[simp] theorem updTerrace_farDevs (n : Nat) (f : Terrace → Terrace) : (updTerrace s n f).farDevs = s.farDevs := rfl
@[simp] theorem updTerrace_jrn0 (n : Nat) (f : Terrace → Terrace) : (updTerrace s n f).jrn0 = s.jrn0 := rfl
@[simp] theorem updTerrace_jrn1 (n : Nat) (f : Terrace → Terrace) : (updTerrace s n f).jrn1 = s.jrn1 := rfl
@[simp] theorem updTerrace_jsteps (n : Nat) (f : Terrace → Terrace) : (updTerrace s n f).jsteps = s.jsteps := rfl
@[simp] theorem updTerrace_jfull (n : Nat) (f : Terrace → Terrace) : (updTerrace s n f).jfull = s.jfull := rfl
@[simp] theorem updTerrace_bellNo (n : Nat) (f : Terrace → Terrace) : (updTerrace s n f).bellNo = s.bellNo := rfl
@[simp] theorem updTerrace_resumeTo (n : Nat) (f : Terrace → Terrace) : (updTerrace s n f).resumeTo = s.resumeTo := rfl
@[simp] theorem updTerrace_runs (n : Nat) (f : Terrace → Terrace) : (updTerrace s n f).runs = s.runs := rfl
@[simp] theorem updTerrace_ques (n : Nat) (f : Terrace → Terrace) : (updTerrace s n f).ques = s.ques := rfl
@[simp] theorem updTerrace_allots (n : Nat) (f : Terrace → Terrace) : (updTerrace s n f).allots = s.allots := rfl
@[simp] theorem updTerrace_rings (n : Nat) (f : Terrace → Terrace) : (updTerrace s n f).rings = s.rings := rfl
@[simp] theorem updTerrace_rr (n : Nat) (f : Terrace → Terrace) : (updTerrace s n f).rr = s.rr := rfl
@[simp] theorem updTerrace_bells (n : Nat) (f : Terrace → Terrace) : (updTerrace s n f).bells = s.bells := rfl
@[simp] theorem updTerrace_awakeMax (n : Nat) (f : Terrace → Terrace) : (updTerrace s n f).awakeMax = s.awakeMax := rfl
@[simp] theorem updTerrace_feeds (n : Nat) (f : Terrace → Terrace) : (updTerrace s n f).feeds = s.feeds := rfl
@[simp] theorem updTerrace_feedB (n : Nat) (f : Terrace → Terrace) : (updTerrace s n f).feedB = s.feedB := rfl
@[simp] theorem updTerrace_discharging (n : Nat) (f : Terrace → Terrace) : (updTerrace s n f).discharging = s.discharging := rfl
@[simp] theorem updTerrace_fb (n : Nat) (f : Terrace → Terrace) : (updTerrace s n f).fb = s.fb := rfl
@[simp] theorem updTerrace_fbShadow (n : Nat) (f : Terrace → Terrace) : (updTerrace s n f).fbShadow = s.fbShadow := rfl
@[simp] theorem updTerrace_fbSync (n : Nat) (f : Terrace → Terrace) : (updTerrace s n f).fbSync = s.fbSync := rfl
@[simp] theorem updTerrace_capGuard (n : Nat) (f : Terrace → Terrace) : (updTerrace s n f).capGuard = s.capGuard := rfl
@[simp] theorem updTerrace_rails (n : Nat) (f : Terrace → Terrace) : (updTerrace s n f).rails = s.rails := rfl
@[simp] theorem updTerrace_sensors (n : Nat) (f : Terrace → Terrace) : (updTerrace s n f).sensors = s.sensors := rfl
@[simp] theorem updTerrace_ridgePower (n : Nat) (f : Terrace → Terrace) : (updTerrace s n f).ridgePower = s.ridgePower := rfl
@[simp] theorem updTerrace_ridgeFailed (n : Nat) (f : Terrace → Terrace) : (updTerrace s n f).ridgeFailed = s.ridgeFailed := rfl
@[simp] theorem updTerrace_nv0 (n : Nat) (f : Terrace → Terrace) : (updTerrace s n f).nv0 = s.nv0 := rfl
@[simp] theorem updTerrace_nv1 (n : Nat) (f : Terrace → Terrace) : (updTerrace s n f).nv1 = s.nv1 := rfl
@[simp] theorem updTerrace_nvNew (n : Nat) (f : Terrace → Terrace) : (updTerrace s n f).nvNew = s.nvNew := rfl
@[simp] theorem updTerrace_flash (n : Nat) (f : Terrace → Terrace) : (updTerrace s n f).flash = s.flash := rfl
@[simp] theorem updTerrace_fw (n : Nat) (f : Terrace → Terrace) : (updTerrace s n f).fw = s.fw := rfl
@[simp] theorem updTerrace_fuses (n : Nat) (f : Terrace → Terrace) : (updTerrace s n f).fuses = s.fuses := rfl
@[simp] theorem updTerrace_update (n : Nat) (f : Terrace → Terrace) : (updTerrace s n f).update = s.update := rfl
@[simp] theorem updTerrace_diag (n : Nat) (f : Terrace → Terrace) : (updTerrace s n f).diag = s.diag := rfl
@[simp] theorem updTerrace_eid (n : Nat) (f : Terrace → Terrace) : (updTerrace s n f).eid = s.eid := rfl
@[simp] theorem updTerrace_perst (n : Nat) (f : Terrace → Terrace) : (updTerrace s n f).perst = s.perst := rfl
@[simp] theorem updTerrace_xperst (n : Nat) (f : Terrace → Terrace) : (updTerrace s n f).xperst = s.xperst := rfl
@[simp] theorem updTerrace_flog (n : Nat) (f : Terrace → Terrace) : (updTerrace s n f).flog = s.flog := rfl
@[simp] theorem updTerrace_inv (n : Nat) (f : Terrace → Terrace) : (updTerrace s n f).inv = s.inv := rfl
@[simp] theorem updTerrace_invQ (n : Nat) (f : Terrace → Terrace) : (updTerrace s n f).invQ = s.invQ := rfl
@[simp] theorem updTerrace_rsvs (n : Nat) (f : Terrace → Terrace) : (updTerrace s n f).rsvs = s.rsvs := rfl
@[simp] theorem updTerrace_rsvRevoked (n : Nat) (f : Terrace → Terrace) : (updTerrace s n f).rsvRevoked = s.rsvRevoked := rfl
@[simp] theorem updTerrace_rsvDue (n : Nat) (f : Terrace → Terrace) : (updTerrace s n f).rsvDue = s.rsvDue := rfl
@[simp] theorem updTerrace_taps (n : Nat) (f : Terrace → Terrace) : (updTerrace s n f).taps = s.taps := rfl
@[simp] theorem updTerrace_shares (n : Nat) (f : Terrace → Terrace) : (updTerrace s n f).shares = s.shares := rfl
@[simp] theorem updTerrace_redivide (n : Nat) (f : Terrace → Terrace) : (updTerrace s n f).redivide = s.redivide := rfl
@[simp] theorem updTerrace_retQ (n : Nat) (f : Terrace → Terrace) : (updTerrace s n f).retQ = s.retQ := rfl
@[simp] theorem updTerrace_hdFailed (n : Nat) (f : Terrace → Terrace) : (updTerrace s n f).hdFailed = s.hdFailed := rfl
@[simp] theorem updTerrace_hostPorts (n : Nat) (f : Terrace → Terrace) : (updTerrace s n f).hostPorts = s.hostPorts := rfl
@[simp] theorem updTerrace_evq (n : Nat) (f : Terrace → Terrace) : (updTerrace s n f).evq = s.evq := rfl
@[simp] theorem updTerrace_receiver (n : Nat) (f : Terrace → Terrace) : (updTerrace s n f).receiver = s.receiver := rfl
@[simp] theorem updTerrace_hwEpoch (n : Nat) (f : Terrace → Terrace) : (updTerrace s n f).hwEpoch = s.hwEpoch := rfl

/-! ### updThread -/

@[simp] theorem updThread_pending (n k : Nat) (f : Thread → Thread) : (updThread s n k f).pending = s.pending := rfl
@[simp] theorem updThread_freeCtr (n k : Nat) (f : Thread → Thread) : (updThread s n k f).freeCtr = s.freeCtr := rfl
@[simp] theorem updThread_clockNs (n k : Nat) (f : Thread → Thread) : (updThread s n k f).clockNs = s.clockNs := rfl
@[simp] theorem updThread_out (n k : Nat) (f : Thread → Thread) : (updThread s n k f).out = s.out := rfl
@[simp] theorem updThread_mode (n k : Nat) (f : Thread → Thread) : (updThread s n k f).mode = s.mode := rfl
@[simp] theorem updThread_freason (n k : Nat) (f : Thread → Thread) : (updThread s n k f).freason = s.freason := rfl
@[simp] theorem updThread_tripped (n k : Nat) (f : Thread → Thread) : (updThread s n k f).tripped = s.tripped := rfl
@[simp] theorem updThread_regs (n k : Nat) (f : Thread → Thread) : (updThread s n k f).regs = s.regs := rfl
@[simp] theorem updThread_ctrs (n k : Nat) (f : Thread → Thread) : (updThread s n k f).ctrs = s.ctrs := rfl
@[simp] theorem updThread_shadows (n k : Nat) (f : Thread → Thread) : (updThread s n k f).shadows = s.shadows := rfl
@[simp] theorem updThread_rwSaved (n k : Nat) (f : Thread → Thread) : (updThread s n k f).rwSaved = s.rwSaved := rfl
@[simp] theorem updThread_ras (n k : Nat) (f : Thread → Thread) : (updThread s n k f).ras = s.ras := rfl
@[simp] theorem updThread_rasNext (n k : Nat) (f : Thread → Thread) : (updThread s n k f).rasNext = s.rasNext := rfl
@[simp] theorem updThread_intPend (n k : Nat) (f : Thread → Thread) : (updThread s n k f).intPend = s.intPend := rfl
@[simp] theorem updThread_lanes (n k : Nat) (f : Thread → Thread) : (updThread s n k f).lanes = s.lanes := rfl
@[simp] theorem updThread_saddles (n k : Nat) (f : Thread → Thread) : (updThread s n k f).saddles = s.saddles := rfl
@[simp] theorem updThread_lats (n k : Nat) (f : Thread → Thread) : (updThread s n k f).lats = s.lats := rfl
@[simp] theorem updThread_canalAlt (n k : Nat) (f : Thread → Thread) : (updThread s n k f).canalAlt = s.canalAlt := rfl
@[simp] theorem updThread_canalFence (n k : Nat) (f : Thread → Thread) : (updThread s n k f).canalFence = s.canalFence := rfl
@[simp] theorem updThread_hbm (n k : Nat) (f : Thread → Thread) : (updThread s n k f).hbm = s.hbm := rfl
@[simp] theorem updThread_far (n k : Nat) (f : Thread → Thread) : (updThread s n k f).far = s.far := rfl
@[simp] theorem updThread_host (n k : Nat) (f : Thread → Thread) : (updThread s n k f).host = s.host := rfl
@[simp] theorem updThread_peer (n k : Nat) (f : Thread → Thread) : (updThread s n k f).peer = s.peer := rfl
@[simp] theorem updThread_hbmPoison (n k : Nat) (f : Thread → Thread) : (updThread s n k f).hbmPoison = s.hbmPoison := rfl
@[simp] theorem updThread_guarded (n k : Nat) (f : Thread → Thread) : (updThread s n k f).guarded = s.guarded := rfl
@[simp] theorem updThread_ats (n k : Nat) (f : Thread → Thread) : (updThread s n k f).ats = s.ats := rfl
@[simp] theorem updThread_atsWant (n k : Nat) (f : Thread → Thread) : (updThread s n k f).atsWant = s.atsWant := rfl
@[simp] theorem updThread_got (n k : Nat) (f : Thread → Thread) : (updThread s n k f).got = s.got := rfl
@[simp] theorem updThread_hostReqs (n k : Nat) (f : Thread → Thread) : (updThread s n k f).hostReqs = s.hostReqs := rfl
@[simp] theorem updThread_atsPend (n k : Nat) (f : Thread → Thread) : (updThread s n k f).atsPend = s.atsPend := rfl
@[simp] theorem updThread_skv (n k : Nat) (f : Thread → Thread) : (updThread s n k f).skv = s.skv := rfl
@[simp] theorem updThread_skvArbs (n k : Nat) (f : Thread → Thread) : (updThread s n k f).skvArbs = s.skvArbs := rfl
@[simp] theorem updThread_rte (n k : Nat) (f : Thread → Thread) : (updThread s n k f).rte = s.rte := rfl
@[simp] theorem updThread_win (n k : Nat) (f : Thread → Thread) : (updThread s n k f).win = s.win := rfl
@[simp] theorem updThread_e2e (n k : Nat) (f : Thread → Thread) : (updThread s n k f).e2e = s.e2e := rfl
@[simp] theorem updThread_skvWait (n k : Nat) (f : Thread → Thread) : (updThread s n k f).skvWait = s.skvWait := rfl
@[simp] theorem updThread_skvReqs (n k : Nat) (f : Thread → Thread) : (updThread s n k f).skvReqs = s.skvReqs := rfl
@[simp] theorem updThread_mgmtIn (n k : Nat) (f : Thread → Thread) : (updThread s n k f).mgmtIn = s.mgmtIn := rfl
@[simp] theorem updThread_resetting (n k : Nat) (f : Thread → Thread) : (updThread s n k f).resetting = s.resetting := rfl
@[simp] theorem updThread_mir (n k : Nat) (f : Thread → Thread) : (updThread s n k f).mir = s.mir := rfl
@[simp] theorem updThread_farPorts (n k : Nat) (f : Thread → Thread) : (updThread s n k f).farPorts = s.farPorts := rfl
@[simp] theorem updThread_farDevs (n k : Nat) (f : Thread → Thread) : (updThread s n k f).farDevs = s.farDevs := rfl
@[simp] theorem updThread_jrn0 (n k : Nat) (f : Thread → Thread) : (updThread s n k f).jrn0 = s.jrn0 := rfl
@[simp] theorem updThread_jrn1 (n k : Nat) (f : Thread → Thread) : (updThread s n k f).jrn1 = s.jrn1 := rfl
@[simp] theorem updThread_jsteps (n k : Nat) (f : Thread → Thread) : (updThread s n k f).jsteps = s.jsteps := rfl
@[simp] theorem updThread_jfull (n k : Nat) (f : Thread → Thread) : (updThread s n k f).jfull = s.jfull := rfl
@[simp] theorem updThread_bellNo (n k : Nat) (f : Thread → Thread) : (updThread s n k f).bellNo = s.bellNo := rfl
@[simp] theorem updThread_resumeTo (n k : Nat) (f : Thread → Thread) : (updThread s n k f).resumeTo = s.resumeTo := rfl
@[simp] theorem updThread_runs (n k : Nat) (f : Thread → Thread) : (updThread s n k f).runs = s.runs := rfl
@[simp] theorem updThread_ques (n k : Nat) (f : Thread → Thread) : (updThread s n k f).ques = s.ques := rfl
@[simp] theorem updThread_allots (n k : Nat) (f : Thread → Thread) : (updThread s n k f).allots = s.allots := rfl
@[simp] theorem updThread_rings (n k : Nat) (f : Thread → Thread) : (updThread s n k f).rings = s.rings := rfl
@[simp] theorem updThread_rr (n k : Nat) (f : Thread → Thread) : (updThread s n k f).rr = s.rr := rfl
@[simp] theorem updThread_bells (n k : Nat) (f : Thread → Thread) : (updThread s n k f).bells = s.bells := rfl
@[simp] theorem updThread_awakeMax (n k : Nat) (f : Thread → Thread) : (updThread s n k f).awakeMax = s.awakeMax := rfl
@[simp] theorem updThread_feeds (n k : Nat) (f : Thread → Thread) : (updThread s n k f).feeds = s.feeds := rfl
@[simp] theorem updThread_feedB (n k : Nat) (f : Thread → Thread) : (updThread s n k f).feedB = s.feedB := rfl
@[simp] theorem updThread_discharging (n k : Nat) (f : Thread → Thread) : (updThread s n k f).discharging = s.discharging := rfl
@[simp] theorem updThread_fb (n k : Nat) (f : Thread → Thread) : (updThread s n k f).fb = s.fb := rfl
@[simp] theorem updThread_fbShadow (n k : Nat) (f : Thread → Thread) : (updThread s n k f).fbShadow = s.fbShadow := rfl
@[simp] theorem updThread_fbSync (n k : Nat) (f : Thread → Thread) : (updThread s n k f).fbSync = s.fbSync := rfl
@[simp] theorem updThread_capGuard (n k : Nat) (f : Thread → Thread) : (updThread s n k f).capGuard = s.capGuard := rfl
@[simp] theorem updThread_rails (n k : Nat) (f : Thread → Thread) : (updThread s n k f).rails = s.rails := rfl
@[simp] theorem updThread_sensors (n k : Nat) (f : Thread → Thread) : (updThread s n k f).sensors = s.sensors := rfl
@[simp] theorem updThread_ridgePower (n k : Nat) (f : Thread → Thread) : (updThread s n k f).ridgePower = s.ridgePower := rfl
@[simp] theorem updThread_ridgeFailed (n k : Nat) (f : Thread → Thread) : (updThread s n k f).ridgeFailed = s.ridgeFailed := rfl
@[simp] theorem updThread_nv0 (n k : Nat) (f : Thread → Thread) : (updThread s n k f).nv0 = s.nv0 := rfl
@[simp] theorem updThread_nv1 (n k : Nat) (f : Thread → Thread) : (updThread s n k f).nv1 = s.nv1 := rfl
@[simp] theorem updThread_nvNew (n k : Nat) (f : Thread → Thread) : (updThread s n k f).nvNew = s.nvNew := rfl
@[simp] theorem updThread_flash (n k : Nat) (f : Thread → Thread) : (updThread s n k f).flash = s.flash := rfl
@[simp] theorem updThread_fw (n k : Nat) (f : Thread → Thread) : (updThread s n k f).fw = s.fw := rfl
@[simp] theorem updThread_fuses (n k : Nat) (f : Thread → Thread) : (updThread s n k f).fuses = s.fuses := rfl
@[simp] theorem updThread_update (n k : Nat) (f : Thread → Thread) : (updThread s n k f).update = s.update := rfl
@[simp] theorem updThread_diag (n k : Nat) (f : Thread → Thread) : (updThread s n k f).diag = s.diag := rfl
@[simp] theorem updThread_eid (n k : Nat) (f : Thread → Thread) : (updThread s n k f).eid = s.eid := rfl
@[simp] theorem updThread_perst (n k : Nat) (f : Thread → Thread) : (updThread s n k f).perst = s.perst := rfl
@[simp] theorem updThread_xperst (n k : Nat) (f : Thread → Thread) : (updThread s n k f).xperst = s.xperst := rfl
@[simp] theorem updThread_flog (n k : Nat) (f : Thread → Thread) : (updThread s n k f).flog = s.flog := rfl
@[simp] theorem updThread_inv (n k : Nat) (f : Thread → Thread) : (updThread s n k f).inv = s.inv := rfl
@[simp] theorem updThread_invQ (n k : Nat) (f : Thread → Thread) : (updThread s n k f).invQ = s.invQ := rfl
@[simp] theorem updThread_rsvs (n k : Nat) (f : Thread → Thread) : (updThread s n k f).rsvs = s.rsvs := rfl
@[simp] theorem updThread_rsvRevoked (n k : Nat) (f : Thread → Thread) : (updThread s n k f).rsvRevoked = s.rsvRevoked := rfl
@[simp] theorem updThread_rsvDue (n k : Nat) (f : Thread → Thread) : (updThread s n k f).rsvDue = s.rsvDue := rfl
@[simp] theorem updThread_taps (n k : Nat) (f : Thread → Thread) : (updThread s n k f).taps = s.taps := rfl
@[simp] theorem updThread_shares (n k : Nat) (f : Thread → Thread) : (updThread s n k f).shares = s.shares := rfl
@[simp] theorem updThread_redivide (n k : Nat) (f : Thread → Thread) : (updThread s n k f).redivide = s.redivide := rfl
@[simp] theorem updThread_retQ (n k : Nat) (f : Thread → Thread) : (updThread s n k f).retQ = s.retQ := rfl
@[simp] theorem updThread_hdFailed (n k : Nat) (f : Thread → Thread) : (updThread s n k f).hdFailed = s.hdFailed := rfl
@[simp] theorem updThread_hostPorts (n k : Nat) (f : Thread → Thread) : (updThread s n k f).hostPorts = s.hostPorts := rfl
@[simp] theorem updThread_evq (n k : Nat) (f : Thread → Thread) : (updThread s n k f).evq = s.evq := rfl
@[simp] theorem updThread_receiver (n k : Nat) (f : Thread → Thread) : (updThread s n k f).receiver = s.receiver := rfl
@[simp] theorem updThread_hwEpoch (n k : Nat) (f : Thread → Thread) : (updThread s n k f).hwEpoch = s.hwEpoch := rfl

/-! ### What they put where -/

@[simp] theorem rg_setRg_same (a : Nat) (v d : W32) : rg (setRg s a v) a d = v := mget_mset_same _ _ _ _

theorem rg_setRg_other (a b : Nat) (v d : W32) (h : b ≠ a) : rg (setRg s a v) b d = rg s b d := mget_mset_other _ _ _ _ _ h

@[simp] theorem terrace_setTerrace_same (n : Nat) (t : Terrace) : terrace (setTerrace s n t) n = t := mget_mset_same _ _ _ _

theorem terrace_setTerrace_other (n k : Nat) (t : Terrace) (h : k ≠ n) : terrace (setTerrace s n t) k = terrace s k :=
  mget_mset_other _ _ _ _ _ h

@[simp] theorem terrace_updTerrace_same (n : Nat) (f : Terrace → Terrace) : terrace (updTerrace s n f) n = f (terrace s n) :=
  terrace_setTerrace_same _ _ _

theorem terrace_updTerrace_other (n k : Nat) (f : Terrace → Terrace) (h : k ≠ n) : terrace (updTerrace s n f) k = terrace s k :=
  terrace_setTerrace_other _ _ _ _ h

@[simp] theorem thread_updThread_same (n k : Nat) (f : Thread → Thread) : thread (updThread s n k f) n k = f (thread s n k) := by
  simp [updThread, setThread, thread]

theorem thread_updThread_other (n k j : Nat) (f : Thread → Thread) (h : j ≠ k) : thread (updThread s n k f) n j = thread s n j := by
  simp [updThread, setThread, thread, mget_mset_other, h]

@[simp] theorem saddle_updSaddle_same (n : Nat) (f : Saddle → Saddle) : saddle (updSaddle s n f) n = f (saddle s n) := mget_mset_same _ _ _ _

theorem saddle_updSaddle_other (n k : Nat) (f : Saddle → Saddle) (h : k ≠ n) : saddle (updSaddle s n f) k = saddle s k :=
  mget_mset_other _ _ _ _ _ h

@[simp] theorem allot_updAllot_same (n : Nat) (f : Allot → Allot) : allot (updAllot s n f) n = f (allot s n) := mget_mset_same _ _ _ _

theorem allot_updAllot_other (n k : Nat) (f : Allot → Allot) (h : k ≠ n) : allot (updAllot s n f) k = allot s k :=
  mget_mset_other _ _ _ _ _ h

/-! ### Registers of a thread -/

variable (t : Thread)

@[simp] theorem Thread.setS_st (n : Nat) (v : W64) : (t.setS n v).st = t.st := rfl
@[simp] theorem Thread.setS_pc (n : Nat) (v : W64) : (t.setS n v).pc = t.pc := rfl
@[simp] theorem Thread.setS_p (n : Nat) (v : W64) : (t.setS n v).p = t.p := rfl
@[simp] theorem Thread.setS_d (n : Nat) (v : W64) : (t.setS n v).d = t.d := rfl
@[simp] theorem Thread.setS_h (n : Nat) (v : W64) : (t.setS n v).h = t.h := rfl
@[simp] theorem Thread.setD_st (n : Nat) (v : BitVec 256) : (t.setD n v).st = t.st := rfl
@[simp] theorem Thread.setD_pc (n : Nat) (v : BitVec 256) : (t.setD n v).pc = t.pc := rfl
@[simp] theorem Thread.setD_s (n : Nat) (v : BitVec 256) : (t.setD n v).s = t.s := rfl
@[simp] theorem Thread.setD_p (n : Nat) (v : BitVec 256) : (t.setD n v).p = t.p := rfl
@[simp] theorem Thread.setD_h (n : Nat) (v : BitVec 256) : (t.setD n v).h = t.h := rfl
@[simp] theorem Thread.setH_st (n : Nat) (v : BitVec 16) : (t.setH n v).st = t.st := rfl
@[simp] theorem Thread.setH_pc (n : Nat) (v : BitVec 16) : (t.setH n v).pc = t.pc := rfl
@[simp] theorem Thread.setH_s (n : Nat) (v : BitVec 16) : (t.setH n v).s = t.s := rfl
@[simp] theorem Thread.setH_p (n : Nat) (v : BitVec 16) : (t.setH n v).p = t.p := rfl
@[simp] theorem Thread.setH_d (n : Nat) (v : BitVec 16) : (t.setH n v).d = t.d := rfl
@[simp] theorem Thread.setPc_pc (v : BitVec 52) : (t.setPc v).pc = v := rfl
@[simp] theorem Thread.setPc_st (v : BitVec 52) : (t.setPc v).st = t.st := rfl
@[simp] theorem Thread.setPc_s (v : BitVec 52) : (t.setPc v).s = t.s := rfl
@[simp] theorem Thread.setPc_p (v : BitVec 52) : (t.setPc v).p = t.p := rfl
@[simp] theorem Thread.setPc_d (v : BitVec 52) : (t.setPc v).d = t.d := rfl
@[simp] theorem Thread.setPc_h (v : BitVec 52) : (t.setPc v).h = t.h := rfl

@[simp] theorem Thread.sreg_setS_same (n : Nat) (v : W64) : (t.setS n v).sreg n = v := mget_mset_same _ _ _ _
theorem Thread.sreg_setS_other (n k : Nat) (v : W64) (h : k ≠ n) : (t.setS n v).sreg k = t.sreg k := mget_mset_other _ _ _ _ _ h
@[simp] theorem Thread.dreg_setD_same (n : Nat) (v : BitVec 256) : (t.setD n v).dreg n = v := mget_mset_same _ _ _ _
theorem Thread.dreg_setD_other (n k : Nat) (v : BitVec 256) (h : k ≠ n) : (t.setD n v).dreg k = t.dreg k := mget_mset_other _ _ _ _ _ h
@[simp] theorem Thread.hreg_setH_same (n : Nat) (v : BitVec 16) : (t.setH n v).hreg n = v := mget_mset_same _ _ _ _
theorem Thread.hreg_setH_other (n k : Nat) (v : BitVec 16) (h : k ≠ n) : (t.setH n v).hreg k = t.hreg k := mget_mset_other _ _ _ _ _ h
@[simp] theorem Thread.preg_zero : t.preg 0 = true := by simp [Thread.preg]

end Sys2Proof.Machine
end

