-- ==== Sys2Proof/Laws/Fetch.lean ====
section
/-! SUPPORT. What a read of memory does at most, be it a fetch or a load: CacheOnly says it once, and each operation on its way keeps to it. -/

set_option linter.unreachableTactic false
set_option linter.unusedTactic false
set_option linter.unusedVariables false
set_option linter.tactic.unusedName false

namespace Sys2Proof.Machine

def FetchP {α : Type} (s₀ : State) (p : α × State) : Prop := CacheOnly s₀ p.2

def FetchQ {α : Type} (s₀ : State) (p : State × α) : Prop := CacheOnly s₀ p.1

variable {s₀ s t : State} {α β : Type}

theorem CacheOnly.refl (s : State) : CacheOnly s s :=
  ⟨rfl, fun _ _ _ => rfl, fun _ => ⟨_, _, rfl⟩, fun _ => ⟨_, _, _, _, _, _, rfl⟩⟩

theorem CacheOnly.trans {u : State} (h : CacheOnly s t) (h' : CacheOnly t u) : CacheOnly s u := by
  obtain ⟨a, r, b, c⟩ := h
  obtain ⟨a', r', b', c'⟩ := h'
  refine ⟨?_, fun o x ho => (r' o x ho).trans (r o x ho), fun k => ?_, fun n => ?_⟩
  · rw [a', a]
  · obtain ⟨x, y, hx⟩ := b k
    obtain ⟨x', y', hx'⟩ := b' k
    exact ⟨x', y', by rw [hx', hx]⟩
  · obtain ⟨x1, x2, x3, x4, x5, x6, hx⟩ := c n
    obtain ⟨y1, y2, y3, y4, y5, y6, hy⟩ := c' n
    exact ⟨y1, y2, y3, y4, y5, y6, by rw [hy, hx]⟩

/-- A line that enters or is touched changes the directory and the replacement bits alone. -/
theorem putLine_only (g : Bool) (d : Saddle) (line : Nat) (v m : BitVec 4) (pf : Bool) :
    ∃ ls pl, (putLine g d line v m pf).1 = { d with lines := ls, plru := pl } := by
  have he : ∀ (d : Saddle) k, ∃ ls, (evict g d k).1 = { d with lines := ls } := by
    intro d k
    unfold evict
    repeat' split
    all_goals exact ⟨_, rfl⟩
  have hm : ∃ ls, (makeRoom g d line).1 = { d with lines := ls } := by
    unfold makeRoom
    extract_lets st
    split
    · exact ⟨_, rfl⟩
    · exact he _ _
  have hx : ∃ ls, (wayFor g d line).1 = { d with lines := ls } := by
    unfold wayFor
    split
    · exact ⟨_, rfl⟩
    · exact hm
  unfold putLine
  generalize wayFor g d line = r at hx
  obtain ⟨ls, h⟩ := hx
  obtain ⟨d', w, n⟩ := r
  simp only at h
  subst h
  exact ⟨_, _, rfl⟩

theorem mod_six (k : Nat) : k % 6 < 6 := Nat.mod_lt _ (by decide)

theorem stackPort_lt (s : State) (line : Nat) : stackPort s line < 6 := by
  have h5 : groupOff (line * 256) / 256 % 5 < 5 := Nat.mod_lt _ (by decide)
  unfold stackPort hbmPlace
  simp only
  split
  · simp only
    split <;> omega
  · exact mod_six _

theorem parityStack_lt (a : Nat) : parityStack a < 6 := mod_six _

theorem mem_of_setIns (l : List Nat) (k y : Nat) (h : y ∈ setIns l k) : y = k ∨ y ∈ l := by
  induction l with
  | nil => exact .inl (List.mem_singleton.mp h)
  | cons b r ih =>
    unfold setIns at h
    split at h
    · exact .inr h
    · split at h
      · exact List.mem_cons.mp h
      · rcases List.mem_cons.mp h with h | h
        · exact .inr (h ▸ .head _)
        · rcases ih h with h | h
          · exact .inl h
          · exact .inr (.tail _ h)

theorem mem_of_distinct (l : List Nat) (x : Nat) (h : x ∈ distinct l) : x ∈ l := by
  have : ∀ (l acc : List Nat), ∀ y ∈ l.foldl setIns acc, y ∈ acc ∨ y ∈ l := by
    intro l
    induction l with
    | nil => exact fun acc y hy => .inl hy
    | cons b r ih =>
      intro acc y hy
      rcases ih _ y hy with h | h
      · rcases mem_of_setIns _ _ _ h with h | h
        · exact .inr (h ▸ .head _)
        · exact .inl h
      · exact .inr (.tail _ h)
  exact (this l [] x h).resolve_left (by simp)

theorem failingMates_lt (s : State) (e : MemErrs) (secs : List Nat) : ∀ k ∈ failingMates s e secs, k < 6 := by
  intro k hk
  have h := mem_of_distinct _ _ hk
  obtain ⟨sec, _, h⟩ := List.mem_flatMap.mp h
  rcases List.mem_append.mp h with h | h
  · obtain ⟨m, _, rfl⟩ := List.mem_map.mp h
    exact stackPort_lt _ _
  · split at h
    · rw [List.mem_singleton.mp h]; exact parityStack_lt _
    · cases h

theorem FetchP.of_eq {p : α × State} {a : α} (h : FetchP s₀ p) (e : p = (a, t)) : CacheOnly s₀ t := by subst e; exact h
theorem FetchQ.of_eq {p : State × α} {a : α} (h : FetchQ s₀ p) (e : p = (t, a)) : CacheOnly s₀ t := by subst e; exact h
theorem FetchP.mk {a : α} (h : CacheOnly s₀ t) : FetchP s₀ (a, t) := h
theorem FetchQ.mk {a : α} (h : CacheOnly s₀ t) : FetchQ s₀ (t, a) := h
theorem FetchP.snd {p : α × State} (h : FetchP s₀ p) : CacheOnly s₀ p.2 := h
theorem FetchQ.fst {p : State × α} (h : FetchQ s₀ p) : CacheOnly s₀ p.1 := h
theorem FetchP.val {a : α} (h : FetchP s₀ (a, t)) : CacheOnly s₀ t := h
theorem FetchQ.val {a : α} (h : FetchQ s₀ (t, a)) : CacheOnly s₀ t := h
theorem CacheOnly.ite {c : Prop} [Decidable c] {a b : State} (h : CacheOnly s₀ a) (h' : CacheOnly s₀ b) : CacheOnly s₀ (if c then a else b) := by
  split <;> assumption
theorem FetchP.ite {c : Prop} [Decidable c] {a b : α × State} (h : FetchP s₀ a) (h' : FetchP s₀ b) : FetchP s₀ (if c then a else b) := by
  split <;> assumption
theorem FetchQ.ite {c : Prop} [Decidable c] {a b : State × α} (h : FetchQ s₀ a) (h' : FetchQ s₀ b) : FetchQ s₀ (if c then a else b) := by
  split <;> assumption
theorem CacheOnly.cut {Q : Prop} {x : State} (a : CacheOnly s₀ x) (b : CacheOnly s₀ x → Q) : Q := b a
theorem FetchP.cut {Q : Prop} {x : α × State} (a : FetchP s₀ x) (b : FetchP s₀ x → Q) : Q := b a
theorem FetchQ.cut {Q : Prop} {x : State × α} (a : FetchQ s₀ x) (b : FetchQ s₀ x → Q) : Q := b a
theorem fetch_cut_val {Q : Prop} {x : β → State} (a : ∀ y, CacheOnly s₀ (x y)) (b : (∀ y, CacheOnly s₀ (x y)) → Q) : Q := b a
theorem fetch_cut_fun {Q : Prop} {x : State → State} (a : ∀ t, CacheOnly s₀ t → CacheOnly s₀ (x t)) (b : (∀ t, CacheOnly s₀ t → CacheOnly s₀ (x t)) → Q) : Q := b a
theorem fetch_cut_fun2 {Q : Prop} {x : State → β → State} (a : ∀ t y, CacheOnly s₀ t → CacheOnly s₀ (x t y))
    (b : (∀ t y, CacheOnly s₀ t → CacheOnly s₀ (x t y)) → Q) : Q := b a

theorem fetch_cut_fun3 {γ : Type} {Q : Prop} {x : State → β → γ → State} (a : ∀ t y z, CacheOnly s₀ t → CacheOnly s₀ (x t y z))
    (b : (∀ t y z, CacheOnly s₀ t → CacheOnly s₀ (x t y z)) → Q) : Q := b a

theorem CacheOnly.foldl {l : List β} {f : State → β → State} (h : CacheOnly s₀ s) (hf : ∀ t b, CacheOnly s₀ t → CacheOnly s₀ (f t b)) :
    CacheOnly s₀ (l.foldl f s) := by
  induction l generalizing s with
  | nil => exact h
  | cons b r ih => exact ih (hf s b h)

theorem FetchP.foldl {l : List β} {f : α × State → β → α × State} {p : α × State} (h : FetchP s₀ p)
    (hf : ∀ p b, FetchP s₀ p → FetchP s₀ (f p b)) : FetchP s₀ (l.foldl f p) := by
  induction l generalizing p with
  | nil => exact h
  | cons b r ih => exact ih (hf p b h)

theorem FetchQ.foldl {l : List β} {f : State × α → β → State × α} {p : State × α} (h : FetchQ s₀ p)
    (hf : ∀ p b, FetchQ s₀ p → FetchQ s₀ (f p b)) : FetchQ s₀ (l.foldl f p) := by
  induction l generalizing p with
  | nil => exact h
  | cons b r ih => exact ih (hf p b h)


/-! ## The fields that may differ -/

theorem set_ras_fetch {v} (h : CacheOnly s₀ s) : CacheOnly s₀ { s with ras := v } :=
  h.trans ⟨rfl, fun _ _ _ => rfl, fun _ => ⟨_, _, rfl⟩, fun _ => ⟨_, _, _, _, _, _, rfl⟩⟩
theorem set_rasNext_fetch {v} (h : CacheOnly s₀ s) : CacheOnly s₀ { s with rasNext := v } :=
  h.trans ⟨rfl, fun _ _ _ => rfl, fun _ => ⟨_, _, rfl⟩, fun _ => ⟨_, _, _, _, _, _, rfl⟩⟩
theorem set_intPend_fetch {v} (h : CacheOnly s₀ s) : CacheOnly s₀ { s with intPend := v } :=
  h.trans ⟨rfl, fun _ _ _ => rfl, fun _ => ⟨_, _, rfl⟩, fun _ => ⟨_, _, _, _, _, _, rfl⟩⟩
theorem set_evq_fetch {v} (h : CacheOnly s₀ s) : CacheOnly s₀ { s with evq := v } :=
  h.trans ⟨rfl, fun _ _ _ => rfl, fun _ => ⟨_, _, rfl⟩, fun _ => ⟨_, _, _, _, _, _, rfl⟩⟩
theorem set_out_fetch {v} (h : CacheOnly s₀ s) : CacheOnly s₀ { s with out := v } :=
  h.trans ⟨rfl, fun _ _ _ => rfl, fun _ => ⟨_, _, rfl⟩, fun _ => ⟨_, _, _, _, _, _, rfl⟩⟩
theorem set_runs_fetch {v} (h : CacheOnly s₀ s) : CacheOnly s₀ { s with runs := v } :=
  h.trans ⟨rfl, fun _ _ _ => rfl, fun _ => ⟨_, _, rfl⟩, fun _ => ⟨_, _, _, _, _, _, rfl⟩⟩
theorem set_hbmPoison_fetch {v} (h : CacheOnly s₀ s) : CacheOnly s₀ { s with hbmPoison := v } :=
  h.trans ⟨rfl, fun _ _ _ => rfl, fun _ => ⟨_, _, rfl⟩, fun _ => ⟨_, _, _, _, _, _, rfl⟩⟩
theorem set_got_fetch {v} (h : CacheOnly s₀ s) : CacheOnly s₀ { s with got := v } :=
  h.trans ⟨rfl, fun _ _ _ => rfl, fun _ => ⟨_, _, rfl⟩, fun _ => ⟨_, _, _, _, _, _, rfl⟩⟩
theorem set_rsvs_fetch {v} (h : CacheOnly s₀ s) : CacheOnly s₀ { s with rsvs := v } :=
  h.trans ⟨rfl, fun _ _ _ => rfl, fun _ => ⟨_, _, rfl⟩, fun _ => ⟨_, _, _, _, _, _, rfl⟩⟩
theorem set_farPoison_fetch {v} (h : CacheOnly s₀ s) : CacheOnly s₀ { s with far := { s.far with poison := v } } :=
  h.trans ⟨rfl, fun _ _ _ => rfl, fun _ => ⟨_, _, rfl⟩, fun _ => ⟨_, _, _, _, _, _, rfl⟩⟩

/-! ## The operations on the way of a fetch -/

theorem updTerrace_fetch {s₀ s : State} {tg : Nat} {f : Terrace → Terrace} (hK : CacheOnly s₀ s)
    (hf : ∃ tl ib, f (terrace s tg) = { terrace s tg with tlb := tl, ibuf := ib }) : CacheOnly s₀ (updTerrace s tg f) := by
  refine hK.trans ⟨rfl, fun _ _ _ => rfl, fun k => ?_, fun _ => ⟨_, _, _, _, _, _, rfl⟩⟩
  by_cases h : k = tg
  · subst h; rw [terrace_updTerrace_same]; exact hf
  · exact ⟨_, _, by rw [terrace_updTerrace_other _ _ _ _ h]⟩

theorem setRg_fetch {s₀ s : State} {off : Nat} {v : W32} (hK : CacheOnly s₀ s) (hc : CountedAt off) : CacheOnly s₀ (setRg s off v) :=
  hK.trans ⟨rfl, fun o x ho => rg_setRg_other _ _ _ _ _ (fun e => ho (e ▸ hc)), fun _ => ⟨_, _, rfl⟩, fun _ => ⟨_, _, _, _, _, _, rfl⟩⟩

theorem satAdd_fetch {s₀ s : State} {off : Nat} {d : W32} {lo len n : Nat} (hK : CacheOnly s₀ s) (hc : CountedAt off) :
    CacheOnly s₀ (satAdd s off d lo len n) := setRg_fetch hK hc

theorem spend_fetch {s₀ s : State} {w : Who} {al : Nat} {a : Acc} (hK : CacheOnly s₀ s) :
    CacheOnly s₀ (spend s w al a) := by
  unfold spend
  repeat' first
    | with_reducible assumption
    | intro _
    | (extract_lets +onlyGivenNames x; first | (refine CacheOnly.cut (s₀ := s₀) (x := x) ?_ ?_; rotate_left; intro _; clear_value x; rotate_left; unfold x; clear x) | clear_value x | skip)
    | with_reducible apply CacheOnly.ite
    | (with_reducible refine set_got_fetch ?_; with_reducible assumption)
    | split

theorem turnStat_fetch {s₀ s : State} {off f r : Nat} (hK : CacheOnly s₀ s) (hc : CountedAt off) : CacheOnly s₀ (turnStat s off f r) := by
  unfold turnStat
  extract_lets s1
  have h1 : CacheOnly s₀ s1 := CacheOnly.ite hK (satAdd_fetch hK hc)
  exact CacheOnly.ite h1 (satAdd_fetch h1 hc)

theorem updSaddle_fetch {s₀ s : State} {n : Nat} {f : Saddle → Saddle} (hK : CacheOnly s₀ s)
    (hf : ∃ ls pl pf pt ar tl, f (saddle s n) =
      { saddle s n with lines := ls, plru := pl, pfs := pf, ptok := pt, arbs := ar, stlb := tl }) : CacheOnly s₀ (updSaddle s n f) := by
  refine hK.trans ⟨rfl, fun _ _ _ => rfl, fun _ => ⟨_, _, rfl⟩, fun k => ?_⟩
  by_cases h : k = n
  · subst h; rw [saddle_updSaddle_same]; exact hf
  · exact ⟨_, _, _, _, _, _, by rw [saddle_updSaddle_other _ _ _ _ h]⟩

theorem passArb_fetch {s₀ s : State} {n port : Nat} {reqs : List (Nat × ArbReq)} (hK : CacheOnly s₀ s) :
    CacheOnly s₀ (passArb s n port reqs) := by
  unfold passArb
  exact turnStat_fetch (updSaddle_fetch hK ⟨_, _, _, _, _, _, rfl⟩) (.arbiter n)

theorem passStacks_fetch {s₀ s : State} {n : Nat} {cls : Nat} {exempt : Bool} {ls : List (Nat × Nat)} (hK : CacheOnly s₀ s) :
    CacheOnly s₀ (passStacks s n cls exempt ls) := by
  unfold passStacks
  repeat' first
    | with_reducible assumption
    | intro _
    | (extract_lets +onlyGivenNames x; first | (refine CacheOnly.cut (s₀ := s₀) (x := x) ?_ ?_; rotate_left; intro _; clear_value x; rotate_left; unfold x; clear x) | clear_value x | skip)
    | with_reducible apply CacheOnly.ite
    | with_reducible apply CacheOnly.foldl
    | with_reducible apply passArb_fetch
    | split

theorem prefetch_fetch {s₀ s : State} {lines : List Nat} (hK : CacheOnly s₀ s) : CacheOnly s₀ (prefetch s lines) := by
  unfold prefetch
  refine CacheOnly.foldl hK (fun t l ht => ?_)
  extract_lets n
  refine CacheOnly.ite ht (satAdd_fetch (updSaddle_fetch ht ?_) (.fetched n))
  obtain ⟨ls, pl, hp⟩ := putLine_only t.guarded (saddle t n) l 0xF#4 0 true
  exact ⟨ls, pl, _, _, _, _, hp⟩

theorem farCount_fetch {s₀ s : State} {x : Nat} (hK : CacheOnly s₀ s) : CacheOnly s₀ (farCount s x) := by
  unfold farCount
  split
  · rename_i q _
    extract_lets off reg bad poison lo s1
    have hp : ∀ t p, CacheOnly s₀ t → CacheOnly s₀ (poison t p) := fun t p h => CacheOnly.ite (satAdd_fetch h (.far p)) h
    have h1 : CacheOnly s₀ s1 := CacheOnly.ite (hp _ _ hK) hK
    refine CacheOnly.ite (CacheOnly.ite hK (CacheOnly.ite h1 (CacheOnly.ite (hp _ _ h1) (satAdd_fetch h1 (.far lo))))) (CacheOnly.ite (hp _ _ hK) hK)
  · exact hK

theorem countUnc_fetch {s₀ s : State} {n k : Nat} (hK : CacheOnly s₀ s) (hk : k < 6) : CacheOnly s₀ (countUnc s n k) :=
  satAdd_fetch hK (.stack n k hk)

theorem rebuildPass_fetch {s₀ s : State} {n : Nat} {k : Nat} {beats : Nat} (hK : CacheOnly s₀ s) :
    CacheOnly s₀ (rebuildPass s n k beats) := by
  unfold rebuildPass
  repeat' first
    | with_reducible assumption
    | intro _
    | (extract_lets +onlyGivenNames x; first | (refine CacheOnly.cut (s₀ := s₀) (x := x) ?_ ?_; rotate_left; intro _; clear_value x; rotate_left; unfold x; clear x) | clear_value x | skip)
    | with_reducible apply CacheOnly.ite
    | with_reducible apply CacheOnly.foldl
    | with_reducible apply passArb_fetch
    | split

theorem rebuildUnit_fetch {s₀ s : State} {n : Nat} {e : MemErrs} {gone : Bool} {secs : List Nat} (hK : CacheOnly s₀ s) :
    CacheOnly s₀ (rebuildUnit s n e gone secs) := by
  unfold rebuildUnit
  extract_lets k s1 lost s2
  have hm : ∀ (l : List Nat) (t : State), (∀ j ∈ l, j < 6) → CacheOnly s₀ t → CacheOnly s₀ (l.foldl (fun s j => countUnc s n j) t) := by
    intro l
    induction l with
    | nil => exact fun _ _ h => h
    | cons j r ih => exact fun t hj h => ih _ (fun x hx => hj x (.tail _ hx)) (countUnc_fetch h (hj j (.head _)))
  have h1 : CacheOnly s₀ s1 := CacheOnly.ite hK (rebuildPass_fetch (hm _ _ (failingMates_lt _ _ _) hK))
  have h2 : CacheOnly s₀ s2 := set_hbmPoison_fetch h1
  exact CacheOnly.ite (satAdd_fetch h2 (.rebuilt n)) h2

theorem fetchUnits_fetch {s₀ s : State} {n : Nat} {e : MemErrs} {miss : List (Nat × BitVec 4)} (hK : CacheOnly s₀ s) :
    CacheOnly s₀ (fetchUnits s n e miss) := by
  unfold fetchUnits
  refine CacheOnly.foldl hK (fun t m ht => CacheOnly.ite ht ?_)
  extract_lets k secs fixed s1 bad
  refine CacheOnly.ite (rebuildUnit_fetch ht) ?_
  have h1 : CacheOnly s₀ s1 := CacheOnly.ite ht (satAdd_fetch ht (.stack n k (stackPort_lt _ _)))
  exact CacheOnly.ite h1 (rebuildUnit_fetch (countUnc_fetch h1 (stackPort_lt _ _)))

theorem fetchAhead_fetch {s₀ s : State} {n : Nat} {ls : List Nat} (hK : CacheOnly s₀ s) :
    CacheOnly s₀ (fetchAhead s n ls) := by
  unfold fetchAhead
  repeat' first
    | with_reducible assumption
    | intro _
    | (extract_lets +onlyGivenNames x; first | (refine CacheOnly.cut (s₀ := s₀) (x := x) ?_ ?_; rotate_left; intro _; clear_value x; rotate_left; unfold x; clear x) | clear_value x | skip)
    | with_reducible apply CacheOnly.ite
    | with_reducible apply CacheOnly.foldl
    | with_reducible apply prefetch_fetch
    | with_reducible apply passStacks_fetch
    | with_reducible apply farCount_fetch
    | with_reducible apply fetchUnits_fetch
    | split

theorem pfFetch_fetch {s₀ s : State} {n : Nat} {k : Nat} {al : Nat} {a : Nat} {p : Prefetcher} (hK : CacheOnly s₀ s) :
    CacheOnly s₀ (pfFetch s n k al a p) := by
  unfold pfFetch
  repeat' first
    | with_reducible assumption
    | intro _
    | (extract_lets +onlyGivenNames x; first | (refine CacheOnly.cut (s₀ := s₀) (x := x) ?_ ?_; rotate_left; intro _; clear_value x; rotate_left; unfold x; clear x) | clear_value x | skip)
    | with_reducible apply CacheOnly.ite
    | with_reducible apply fetchAhead_fetch
    | (with_reducible refine updSaddle_fetch ?_ ⟨_, _, _, _, _, _, rfl⟩)
    | split

theorem pfHits_fetch {s₀ s : State} {n : Nat} {st : Option Nat} {al : Nat} {a : Nat} {ls : List Nat} (hK : CacheOnly s₀ s) :
    CacheOnly s₀ (pfHits s n st al a ls) := by
  unfold pfHits
  repeat' first
    | with_reducible assumption
    | intro _
    | (extract_lets +onlyGivenNames x; first | (refine CacheOnly.cut (s₀ := s₀) (x := x) ?_ ?_; rotate_left; intro _; clear_value x; rotate_left; unfold x; clear x) | clear_value x | skip)
    | with_reducible apply CacheOnly.ite
    | with_reducible apply pfFetch_fetch
    | (with_reducible refine updSaddle_fetch ?_ ⟨_, _, _, _, _, _, rfl⟩)
    | split

theorem portCharge_fetch {s₀ s : State} {n : Nat} {p : Nat} {bytes : Nat} (hK : CacheOnly s₀ s) :
    CacheOnly s₀ (portCharge s n p bytes) := by
  unfold portCharge
  repeat' first
    | with_reducible assumption
    | intro _
    | (extract_lets +onlyGivenNames x; first | (refine CacheOnly.cut (s₀ := s₀) (x := x) ?_ ?_; rotate_left; intro _; clear_value x; rotate_left; unfold x; clear x) | clear_value x | skip)
    | with_reducible apply CacheOnly.ite
    | (with_reducible refine updSaddle_fetch ?_ ⟨_, _, _, _, _, _, rfl⟩)
    | split

theorem chargePorts_fetch {s₀ s : State} {l : List (Nat × Nat × Nat)} (hK : CacheOnly s₀ s) :
    CacheOnly s₀ (chargePorts s l) := by
  unfold chargePorts
  repeat' first
    | with_reducible assumption
    | intro _
    | (extract_lets +onlyGivenNames x; first | (refine CacheOnly.cut (s₀ := s₀) (x := x) ?_ ?_; rotate_left; intro _; clear_value x; rotate_left; unfold x; clear x) | clear_value x | skip)
    | with_reducible apply CacheOnly.ite
    | with_reducible apply CacheOnly.foldl
    | with_reducible apply portCharge_fetch
    | split

theorem boundPass_fetch {s₀ s : State} {q : Path} {a n : Nat} {wr : Bool} (hK : CacheOnly s₀ s) : FetchP s₀ (boundPass s q a n wr) := by
  unfold boundPass
  split
  · exact hK
  · split
    · exact FetchP.ite (set_rsvs_fetch hK) (satAdd_fetch hK .bound)
    · exact satAdd_fetch hK .bound

theorem passRsvPort_fetch {s₀ s : State} {n : Nat} {q : Path} {cls : Nat} {a : Nat} {bytes : Nat} (hK : CacheOnly s₀ s) :
    CacheOnly s₀ (passRsvPort s n q cls a bytes) := by
  unfold passRsvPort
  repeat' first
    | with_reducible assumption
    | intro _
    | (extract_lets +onlyGivenNames x; first | (refine CacheOnly.cut (s₀ := s₀) (x := x) ?_ ?_; rotate_left; intro _; clear_value x; rotate_left; unfold x; clear x) | clear_value x | skip)
    | with_reducible apply CacheOnly.ite
    | with_reducible apply passArb_fetch
    | split

theorem rsvCount_fetch {s₀ s : State} {n : Nat} {x : RLine} {m : BitVec 4} {wr : Bool} (hK : CacheOnly s₀ s) :
    CacheOnly s₀ (rsvCount s n x m wr) := by
  unfold rsvCount
  extract_lets miss s1
  have h1 : CacheOnly s₀ s1 := CacheOnly.ite (satAdd_fetch hK (.used n)) hK
  exact CacheOnly.ite h1 (satAdd_fetch h1 (.missed n))

theorem rsvLine_fetch {s₀ : State} {wr : Bool} {st : State × Nat} {e : Nat × BitVec 4} (hK : FetchQ s₀ st) : FetchQ s₀ (rsvLine wr st e) := by
  unfold rsvLine
  extract_lets n thr s1
  refine FetchQ.ite hK ?_
  have h1 : CacheOnly s₀ s1 := rsvCount_fetch hK
  obtain ⟨ls, pl, hp⟩ := putLine_only s1.guarded (saddle s1 n) e.1 (if thr = true then 0 else e.2) (if (wr && !thr) = true then e.2 else 0) false
  exact updSaddle_fetch (f := fun _ => _) h1 ⟨ls, pl, _, _, _, _, hp⟩

theorem rsvAccess_fetch {s₀ s : State} {a : Nat} {n : Nat} {wr : Bool} (hK : CacheOnly s₀ s) :
    FetchQ s₀ (rsvAccess s a n wr) := by
  unfold rsvAccess
  repeat' first
    | with_reducible assumption
    | intro _
    | (extract_lets +onlyGivenNames x; first | (refine CacheOnly.cut (s₀ := s₀) (x := x) ?_ ?_; rotate_left; intro _; clear_value x; rotate_left; unfold x; clear x) | (refine FetchQ.cut (s₀ := s₀) (x := x) ?_ ?_; rotate_left; intro _; clear_value x; rotate_left; unfold x; clear x) | clear_value x | skip)
    | with_reducible apply CacheOnly.ite
    | with_reducible apply FetchQ.ite
    | (with_reducible refine FetchQ.fst ?_; with_reducible assumption)
    | with_reducible exact FetchQ.val ‹_›
    | with_reducible refine FetchQ.fst (rsvLine_fetch ?_)
    | with_reducible refine FetchQ.fst (FetchQ.foldl ?_ ?_)
    | with_reducible apply CacheOnly.foldl
    | with_reducible apply FetchQ.foldl
    | with_reducible apply rsvLine_fetch
    | (with_reducible refine FetchQ.of_eq ?_ ‹_›)
    | split
    | with_reducible apply FetchQ.mk

theorem trainPf_fetch {s₀ s : State} {n : Nat} {st : Nat} {al : Nat} {a : Nat} (hK : CacheOnly s₀ s) :
    CacheOnly s₀ (trainPf s n st al a) := by
  unfold trainPf
  repeat' first
    | with_reducible assumption
    | intro _
    | (extract_lets +onlyGivenNames x; first | (refine CacheOnly.cut (s₀ := s₀) (x := x) ?_ ?_; rotate_left; intro _; clear_value x; rotate_left; unfold x; clear x) | clear_value x | skip)
    | with_reducible apply CacheOnly.ite
    | with_reducible apply pfFetch_fetch
    | (with_reducible refine updSaddle_fetch ?_ ⟨_, _, _, _, _, _, rfl⟩)
    | split

theorem expanderErrs_fetch {s₀ s : State} {secs : List Nat} (hK : CacheOnly s₀ s) : CacheOnly s₀ (expanderErrs s secs) := by
  unfold expanderErrs
  exact CacheOnly.ite hK (set_farPoison_fetch hK)

theorem writeBacks_fetch {s₀ s : State} {n : Nat} {wb : Nat} {line : Nat} (hK : CacheOnly s₀ s) :
    CacheOnly s₀ (writeBacks s n wb line) := by
  unfold writeBacks
  repeat' first
    | with_reducible assumption
    | intro _
    | (extract_lets +onlyGivenNames x; first | (refine CacheOnly.cut (s₀ := s₀) (x := x) ?_ ?_; rotate_left; intro _; clear_value x; rotate_left; unfold x; clear x) | clear_value x | skip)
    | with_reducible apply CacheOnly.ite
    | with_reducible apply passStacks_fetch
    | split

theorem rsvErrs_fetch {s₀ s : State} {n a len : Nat} {secs : List Nat} (hK : CacheOnly s₀ s) : CacheOnly s₀ (rsvErrs s n a len secs) := by
  unfold rsvErrs
  refine CacheOnly.foldl hK (fun t e ht => ?_)
  split
  · exact ht
  · extract_lets x bad clean dirty s1
    have h1 : CacheOnly s₀ s1 := set_hbmPoison_fetch ht
    exact CacheOnly.ite h1 (updSaddle_fetch h1 ⟨_, _, _, _, _, _, rfl⟩)

theorem windowPass_fetch {s₀ s : State} {q : Path} {a : Nat} {n : Nat} {wr : Bool} {e : MemErrs} (hK : CacheOnly s₀ s) :
    FetchP s₀ (windowPass s q a n wr e) := by
  unfold windowPass
  repeat' first
    | with_reducible assumption
    | intro _
    | (extract_lets +onlyGivenNames x; first | (refine CacheOnly.cut (s₀ := s₀) (x := x) ?_ ?_; rotate_left; intro _; clear_value x; rotate_left; unfold x; clear x) | (refine FetchP.cut (s₀ := s₀) (x := x) ?_ ?_; rotate_left; intro _; clear_value x; rotate_left; unfold x; clear x) | (refine FetchQ.cut (s₀ := s₀) (x := x) ?_ ?_; rotate_left; intro _; clear_value x; rotate_left; unfold x; clear x) | clear_value x | skip)
    | with_reducible apply CacheOnly.ite
    | with_reducible apply FetchP.ite
    | (with_reducible refine FetchP.snd ?_; with_reducible assumption)
    | with_reducible exact FetchP.val ‹_›
    | with_reducible refine FetchP.snd (boundPass_fetch ?_)
    | with_reducible refine FetchP.snd (FetchP.foldl ?_ ?_)
    | with_reducible apply FetchQ.ite
    | (with_reducible refine FetchQ.fst ?_; with_reducible assumption)
    | with_reducible exact FetchQ.val ‹_›
    | with_reducible refine FetchQ.fst (rsvAccess_fetch ?_)
    | with_reducible refine FetchQ.fst (FetchQ.foldl ?_ ?_)
    | with_reducible apply CacheOnly.foldl
    | with_reducible apply FetchP.foldl
    | with_reducible apply FetchQ.foldl
    | with_reducible apply passStacks_fetch
    | with_reducible apply pfHits_fetch
    | with_reducible apply chargePorts_fetch
    | with_reducible apply boundPass_fetch
    | with_reducible apply passRsvPort_fetch
    | with_reducible apply rsvAccess_fetch
    | with_reducible apply farCount_fetch
    | with_reducible apply fetchUnits_fetch
    | with_reducible apply trainPf_fetch
    | with_reducible apply expanderErrs_fetch
    | with_reducible apply writeBacks_fetch
    | with_reducible apply rsvErrs_fetch
    | (with_reducible refine FetchP.of_eq ?_ ‹_›)
    | (with_reducible refine FetchQ.of_eq ?_ ‹_›)
    | split
    | with_reducible apply FetchP.mk
    | with_reducible apply FetchQ.mk

theorem saddlePass_fetch {s₀ s : State} {q : Path} {a : Nat} {n : Nat} {wr : Bool} {e : MemErrs} (hK : CacheOnly s₀ s) :
    FetchP s₀ (saddlePass s q a n wr e) := by
  unfold saddlePass
  repeat' first
    | with_reducible assumption
    | intro _
    | (extract_lets +onlyGivenNames x; first | (refine CacheOnly.cut (s₀ := s₀) (x := x) ?_ ?_; rotate_left; intro _; clear_value x; rotate_left; unfold x; clear x) | (refine FetchP.cut (s₀ := s₀) (x := x) ?_ ?_; rotate_left; intro _; clear_value x; rotate_left; unfold x; clear x) | clear_value x | skip)
    | with_reducible apply CacheOnly.ite
    | with_reducible apply FetchP.ite
    | (with_reducible refine FetchP.snd ?_; with_reducible assumption)
    | with_reducible exact FetchP.val ‹_›
    | with_reducible refine FetchP.snd (windowPass_fetch ?_)
    | with_reducible refine FetchP.snd (FetchP.foldl ?_ ?_)
    | with_reducible apply CacheOnly.foldl
    | with_reducible apply FetchP.foldl
    | with_reducible apply windowPass_fetch
    | (with_reducible refine FetchP.of_eq ?_ ‹_›)
    | split
    | with_reducible apply FetchP.mk

theorem passWalk_fetch {s₀ s : State} {q : Path} {w : Who} {al : Nat} {va : Nat} (hK : CacheOnly s₀ s) :
    CacheOnly s₀ (passWalk s q w al va) := by
  unfold passWalk
  repeat' first
    | with_reducible assumption
    | intro _
    | (extract_lets +onlyGivenNames x; first | (refine CacheOnly.cut (s₀ := s₀) (x := x) ?_ ?_; rotate_left; intro _; clear_value x; rotate_left; unfold x; clear x) | (refine FetchP.cut (s₀ := s₀) (x := x) ?_ ?_; rotate_left; intro _; clear_value x; rotate_left; unfold x; clear x) | clear_value x | skip)
    | with_reducible apply CacheOnly.ite
    | with_reducible apply FetchP.ite
    | (with_reducible refine FetchP.snd ?_; with_reducible assumption)
    | with_reducible exact FetchP.val ‹_›
    | with_reducible refine FetchP.snd (saddlePass_fetch ?_)
    | with_reducible refine FetchP.snd (FetchP.foldl ?_ ?_)
    | with_reducible apply CacheOnly.foldl
    | with_reducible apply FetchP.foldl
    | with_reducible apply saddlePass_fetch
    | (with_reducible refine FetchP.of_eq ?_ ‹_›)
    | split
    | with_reducible apply FetchP.mk

theorem cacheLeaf_fetch {s₀ s : State} {w : Who} {al : Nat} {va : Nat} (hK : CacheOnly s₀ s) :
    CacheOnly s₀ (cacheLeaf s w al va) := by
  unfold cacheLeaf
  repeat' first
    | with_reducible assumption
    | intro _
    | (extract_lets +onlyGivenNames x; first | (refine CacheOnly.cut (s₀ := s₀) (x := x) ?_ ?_; rotate_left; intro _; clear_value x; rotate_left; unfold x; clear x) | (refine fetch_cut_fun (s₀ := s₀) (x := x) ?_ ?_; rotate_left; intro _; clear_value x; rotate_left; unfold x; clear x) | (refine fetch_cut_fun2 (s₀ := s₀) (x := x) ?_ ?_; rotate_left; intro _; clear_value x; rotate_left; unfold x; clear x) | (refine fetch_cut_fun3 (s₀ := s₀) (x := x) ?_ ?_; rotate_left; intro _; clear_value x; rotate_left; unfold x; clear x) | (refine fetch_cut_val (s₀ := s₀) (x := x) ?_ ?_; rotate_left; intro _; clear_value x; rotate_left; unfold x; clear x) | clear_value x | skip)
    | with_reducible apply CacheOnly.ite
    | (with_reducible refine updTerrace_fetch ?_ ⟨_, _, rfl⟩)
    | (with_reducible refine updSaddle_fetch ?_ ⟨_, _, _, _, _, _, rfl⟩)
    | with_reducible apply_assumption -exfalso -symm
    | split

theorem intWant_fetch {s₀ s : State} {v : Nat} (hK : CacheOnly s₀ s) :
    CacheOnly s₀ (intWant s v) := by
  unfold intWant
  repeat' first
    | with_reducible assumption
    | intro _
    | (extract_lets +onlyGivenNames x; first | (refine CacheOnly.cut (s₀ := s₀) (x := x) ?_ ?_; rotate_left; intro _; clear_value x; rotate_left; unfold x; clear x) | clear_value x | skip)
    | with_reducible apply CacheOnly.ite
    | (with_reducible refine set_intPend_fetch ?_; with_reducible assumption)
    | split

theorem intCause_fetch {s₀ s : State} {c : Nat} (hK : CacheOnly s₀ s) : CacheOnly s₀ (intCause s c) := by
  unfold intCause
  have h1 := setRg_fetch (v := intStat s ||| BitVec.ofNat 32 (2 ^ c)) hK .intStat
  exact CacheOnly.ite (intWant_fetch h1) h1

theorem emit_fetch {s₀ s : State} {m : OutMsg} (hK : CacheOnly s₀ s) :
    CacheOnly s₀ (emit s m) := by
  unfold emit
  repeat' first
    | with_reducible assumption
    | intro _
    | (extract_lets +onlyGivenNames x; first | (refine CacheOnly.cut (s₀ := s₀) (x := x) ?_ ?_; rotate_left; intro _; clear_value x; rotate_left; unfold x; clear x) | clear_value x | skip)
    | with_reducible apply CacheOnly.ite
    | (with_reducible refine set_out_fetch ?_; with_reducible assumption)
    | split

theorem exEvent_fetch {s₀ s : State} {ws : List Nat} (h : CacheOnly s₀ s) : CacheOnly s₀ (exEvent s ws) := by
  unfold exEvent
  exact emit_fetch (set_evq_fetch h)

theorem rasAppend.append_fetch {s₀ s : State} {ev : List Nat} {r : RasRec} (h : CacheOnly s₀ s) : CacheOnly s₀ (rasAppend.append s ev r) := by
  unfold rasAppend.append
  extract_lets s1 s2 s3 s4 s5
  have h1 : CacheOnly s₀ s1 := set_rasNext_fetch h
  split
  · have h2 : CacheOnly s₀ s2 := satAdd_fetch h1 .rasLost
    exact exEvent_fetch (CacheOnly.ite h2 (intCause_fetch (setRg_fetch h2 .rasStat)))
  · have h4 : CacheOnly s₀ s4 := set_ras_fetch h1
    exact exEvent_fetch (intCause_fetch (satAdd_fetch h4 .rasCount))

theorem rasAppend_fetch {s₀ s : State} {code sev skind unit : Nat} {al : Option Nat} {detail : Nat} (h : CacheOnly s₀ s) :
    CacheOnly s₀ (rasAppend s code sev skind unit al detail) := by
  unfold rasAppend
  extract_lets a t d ev f
  split
  · exact CacheOnly.ite (set_ras_fetch h) (rasAppend.append_fetch h)
  · exact rasAppend.append_fetch h

theorem updRun_fetch {s₀ s : State} {k : Nat} {f : Run → Run} (hK : CacheOnly s₀ s) :
    CacheOnly s₀ (updRun s k f) := by
  unfold updRun
  repeat' first
    | with_reducible assumption
    | intro _
    | (extract_lets +onlyGivenNames x; first | (refine CacheOnly.cut (s₀ := s₀) (x := x) ?_ ?_; rotate_left; intro _; clear_value x; rotate_left; unfold x; clear x) | clear_value x | skip)
    | with_reducible apply CacheOnly.ite
    | (with_reducible refine set_runs_fetch ?_; with_reducible assumption)
    | split

theorem runErr_fetch {s₀ s : State} {k : Nat} {bitNo : Nat} (hK : CacheOnly s₀ s) :
    CacheOnly s₀ (runErr s k bitNo) := by
  unfold runErr
  repeat' first
    | with_reducible assumption
    | intro _
    | (extract_lets +onlyGivenNames x; first | (refine CacheOnly.cut (s₀ := s₀) (x := x) ?_ ?_; rotate_left; intro _; clear_value x; rotate_left; unfold x; clear x) | clear_value x | skip)
    | with_reducible apply CacheOnly.ite
    | with_reducible apply updRun_fetch
    | split

theorem noteAcc_fetch {s₀ s : State} {w : Who} {slot : Option Nat} {al : Nat} {q : Path} {a : Acc} (hK : CacheOnly s₀ s) :
    CacheOnly s₀ (noteAcc w slot al q s a) := by
  unfold noteAcc
  split
  · split
    · have h1 := rasAppend_fetch (code := 0x12) (sev := 1) (skind := 1) (unit := ‹Nat›) (al := some al) (detail := a.va % 2 ^ 24)
        (satAdd_fetch (d := 0) (lo := 0) (len := 32) (n := 1) hK (.fence ‹Nat›))
      split
      · exact runErr_fetch h1
      · exact h1
    · exact hK
  · extract_lets s1
    have h1 : CacheOnly s₀ s1 := passWalk_fetch hK
    split
    · split
      · exact runErr_fetch (rasAppend_fetch h1)
      · exact rasAppend_fetch h1
    · exact h1
  · exact spend_fetch (cacheLeaf_fetch (passWalk_fetch hK))
  · exact passWalk_fetch hK

theorem passPackets_fetch {s₀ s : State} {w : Who} {al : Nat} {q : Path} {l : List Acc} (hK : CacheOnly s₀ s) :
    FetchQ s₀ (passPackets s w al q l) := by
  unfold passPackets
  repeat' first
    | with_reducible assumption
    | intro _
    | (extract_lets +onlyGivenNames x; first | (refine CacheOnly.cut (s₀ := s₀) (x := x) ?_ ?_; rotate_left; intro _; clear_value x; rotate_left; unfold x; clear x) | (refine FetchP.cut (s₀ := s₀) (x := x) ?_ ?_; rotate_left; intro _; clear_value x; rotate_left; unfold x; clear x) | (refine FetchQ.cut (s₀ := s₀) (x := x) ?_ ?_; rotate_left; intro _; clear_value x; rotate_left; unfold x; clear x) | clear_value x | skip)
    | with_reducible apply CacheOnly.ite
    | with_reducible apply FetchP.ite
    | (with_reducible refine FetchP.snd ?_; with_reducible assumption)
    | with_reducible exact FetchP.val ‹_›
    | with_reducible refine FetchP.snd (saddlePass_fetch ?_)
    | with_reducible refine FetchP.snd (FetchP.foldl ?_ ?_)
    | with_reducible apply FetchQ.ite
    | (with_reducible refine FetchQ.fst ?_; with_reducible assumption)
    | with_reducible exact FetchQ.val ‹_›
    | with_reducible refine FetchQ.fst (FetchQ.foldl ?_ ?_)
    | with_reducible apply CacheOnly.foldl
    | with_reducible apply FetchP.foldl
    | with_reducible apply FetchQ.foldl
    | with_reducible apply saddlePass_fetch
    | (with_reducible refine FetchP.of_eq ?_ ‹_›)
    | (with_reducible refine FetchQ.of_eq ?_ ‹_›)
    | split
    | with_reducible apply FetchP.mk
    | with_reducible apply FetchQ.mk

theorem noteOwed_fetch {s₀ s : State} {w : Who} {slot : Option Nat} {al : Nat} {q : Path} {l : List Acc} (hK : CacheOnly s₀ s) :
    FetchQ s₀ (noteOwed s w slot al q l) := by
  unfold noteOwed
  repeat' first
    | with_reducible assumption
    | intro _
    | (extract_lets +onlyGivenNames x; first | (refine CacheOnly.cut (s₀ := s₀) (x := x) ?_ ?_; rotate_left; intro _; clear_value x; rotate_left; unfold x; clear x) | (refine FetchQ.cut (s₀ := s₀) (x := x) ?_ ?_; rotate_left; intro _; clear_value x; rotate_left; unfold x; clear x) | clear_value x | skip)
    | with_reducible apply CacheOnly.ite
    | with_reducible apply FetchQ.ite
    | (with_reducible refine FetchQ.fst ?_; with_reducible assumption)
    | with_reducible exact FetchQ.val ‹_›
    | with_reducible refine FetchQ.fst (passPackets_fetch ?_)
    | with_reducible refine FetchQ.fst (FetchQ.foldl ?_ ?_)
    | with_reducible apply CacheOnly.foldl
    | with_reducible apply FetchQ.foldl
    | with_reducible apply noteAcc_fetch
    | with_reducible apply passPackets_fetch
    | (with_reducible refine FetchQ.of_eq ?_ ‹_›)
    | split
    | with_reducible apply FetchQ.mk

theorem noteAccs_fetch {s₀ s : State} {w : Who} {slot : Option Nat} {al : Nat} {l : List Acc} (hK : CacheOnly s₀ s) :
    CacheOnly s₀ (noteAccs s w slot al l) := by
  unfold noteAccs
  repeat' first
    | with_reducible assumption
    | intro _
    | (extract_lets +onlyGivenNames x; first | (refine CacheOnly.cut (s₀ := s₀) (x := x) ?_ ?_; rotate_left; intro _; clear_value x; rotate_left; unfold x; clear x) | (refine FetchQ.cut (s₀ := s₀) (x := x) ?_ ?_; rotate_left; intro _; clear_value x; rotate_left; unfold x; clear x) | clear_value x | skip)
    | with_reducible apply CacheOnly.ite
    | with_reducible apply FetchQ.ite
    | (with_reducible refine FetchQ.fst ?_; with_reducible assumption)
    | with_reducible exact FetchQ.val ‹_›
    | with_reducible refine FetchQ.fst (noteOwed_fetch ?_)
    | with_reducible apply noteOwed_fetch
    | (with_reducible refine FetchQ.of_eq ?_ ‹_›)
    | split
    | with_reducible apply FetchQ.mk

theorem bufferLine_fetch {s₀ s : State} {tg : Nat} {pc : Nat} (hK : CacheOnly s₀ s) :
    CacheOnly s₀ (bufferLine s tg pc) := by
  unfold bufferLine
  repeat' first
    | with_reducible assumption
    | intro _
    | (extract_lets +onlyGivenNames x; first | (refine CacheOnly.cut (s₀ := s₀) (x := x) ?_ ?_; rotate_left; intro _; clear_value x; rotate_left; unfold x; clear x) | clear_value x | skip)
    | with_reducible apply CacheOnly.ite
    | (with_reducible refine updTerrace_fetch ?_ ⟨_, _, rfl⟩)
    | with_reducible apply noteAccs_fetch
    | split

theorem bufferLines_fetch {s₀ s : State} {tg : Nat} {pc : Nat} {words : Nat} (hK : CacheOnly s₀ s) :
    CacheOnly s₀ (bufferLines s tg pc words) := by
  unfold bufferLines
  repeat' first
    | with_reducible assumption
    | intro _
    | (extract_lets +onlyGivenNames x; first | (refine CacheOnly.cut (s₀ := s₀) (x := x) ?_ ?_; rotate_left; intro _; clear_value x; rotate_left; unfold x; clear x) | clear_value x | skip)
    | with_reducible apply CacheOnly.ite
    | with_reducible apply bufferLine_fetch
    | split


theorem CacheOnly.thread (h : CacheOnly s t) (k j : Nat) : thread t k j = thread s k j := by
  obtain ⟨tl, ib, e⟩ := h.2.2.1 k
  unfold Machine.thread
  rw [e]

theorem held_cacheOnly (i : Issue) (s : State) : CacheOnly s (held i s) := bufferLines_fetch (.refl s)

end Sys2Proof.Machine
end

