-- ==== Sys2Proof/Laws/Issue.lean ====
section
/-! SUPPORT. What issue, strict and checked do: every way an instruction can issue, once. -/

namespace Sys2Proof.Machine

/-- Everything that issue can answer. -/
theorem issue_cases (row : OpRow) (i : Issue) (s : State) (body : Ctx → State → Option State) :
    (((ctxOf i s).t.st ≠ .ready ∨ (legalOp i.w0 = true ∧ row.has i.w0 = false)) ∧ issue row i s body = .next s) ∨
    ((ctxOf i s).t.st = .ready ∧ fetch s (ctxOf i s).tg (ctxOf i s).pc (opWords i.w0) = .wait ∧
      issue row i s body = .next (if terraceFenced s (ctxOf i s).tg then s else
        atsAsk s (.terrace (ctxOf i s).tg) (allotOf s (ctxOf i s).tg) (fetchMissing s (ctxOf i s).tg (ctxOf i s).pc))) ∨
    ((ctxOf i s).t.st = .ready ∧ fetch s (ctxOf i s).tg (ctxOf i s).pc (opWords i.w0) = .fault ∧
      issue row i s body = .next (raise (ctxOf i s) fFETCH (logFetch s (ctxOf i s).tg (ctxOf i s).pc))) ∨
    (Fetched i s ∧ legalOp i.w0 = false ∧
      issue row i s body = .next (raise (ctxOf i s) fILLEGAL (held i s))) ∨
    (Fetched i s ∧ legalOp i.w0 = true ∧ row.has i.w0 = true ∧ takesEffect (ctxOf i s).t i.w0 = false ∧
      issue row i s body = .next (past i s)) ∨
    (Issues row i s ∧
      issue row i s body = .next ((body (ctxOf i s) (past i s)).getD (held i s))) := by
  unfold issue Issues Fetched past held ctxOf
  by_cases h : (thread s i.tg.val i.thr.val).st = .ready
  · cases hf : fetch s i.tg.val (thread s i.tg.val i.thr.val).pc.toNat (opWords i.w0) <;> cases hl : legalOp i.w0 <;>
      cases hr : row.has i.w0 <;> cases ht : takesEffect (thread s i.tg.val i.thr.val) i.w0 <;> simp [h, hf, ht]
  · simp [h]

theorem issue_effect (row : OpRow) (i : Issue) (s : State) (body : Ctx → State → Option State) (h : Issues row i s) :
    issue row i s body = .next ((body (ctxOf i s) (past i s)).getD (held i s)) := by
  obtain ⟨⟨hr, hf⟩, hl, hm, ht⟩ := h
  unfold ctxOf at hr hf ht
  simp_all [issue, past, held, ctxOf]

theorem issue_some {row : OpRow} {i : Issue} {s t : State} {body : Ctx → State → Option State} (h : Issues row i s)
    (hb : body (ctxOf i s) (past i s) = some t) : issue row i s body = .next t := by
  rw [issue_effect row i s body h, hb]; rfl

/-- A body that checks its unused fields, on a word that leaves them 0. -/
theorem strict_zero {l : List (Nat × Nat)} {k : Ctx → State → Option State} {c : Ctx} {s : State} (h : zeroFields c.w0 l = true) :
    strict l k c s = k c s := by simp [strict, h]

theorem strict_nonzero {l : List (Nat × Nat)} {k : Ctx → State → Option State} {c : Ctx} {s : State} (h : zeroFields c.w0 l = false) :
    strict l k c s = some (raise c fILLEGAL s) := by simp [strict, h]

theorem checked_ok {f : Ctx → State → Option Nat} {k : Ctx → State → Option State} {c : Ctx} {s : State} (h : f c s = none) :
    checked f k c s = k c s := by simp [checked, h]

theorem checked_fault {f : Ctx → State → Option Nat} {k : Ctx → State → Option State} {c : Ctx} {s : State} {e : Nat} (h : f c s = some e) :
    checked f k c s = some (raise c e s) := by simp [checked, h]

/-! What stands past an instruction. -/

variable (i : Issue) (s : State)

@[simp] theorem ctxOf_w0 : (ctxOf i s).w0 = i.w0 := rfl
@[simp] theorem ctxOf_w1 : (ctxOf i s).w1 = i.w1 := rfl
@[simp] theorem ctxOf_tg : (ctxOf i s).tg = i.tg.val := rfl
@[simp] theorem ctxOf_thr : (ctxOf i s).thr = i.thr.val := rfl
@[simp] theorem ctxOf_t : (ctxOf i s).t = thread s i.tg.val i.thr.val := rfl
@[simp] theorem ctxOf_pc : (ctxOf i s).pc = (thread s i.tg.val i.thr.val).pc.toNat := rfl

@[simp] theorem thread_held (k j : Nat) : thread (held i s) k j = thread s k j := (held_cacheOnly i s).thread k j

/-- Past an instruction its thread is as it was, but for the PC. -/
@[simp] theorem thread_past : thread (past i s) i.tg.val i.thr.val = stepped i s := by
  simp only [past, advance, thread_updThread_same, stepped, ctxOf_tg, ctxOf_thr, ctxOf_t]
  rw [← thread_held i s i.tg.val i.thr.val]
  simp only [thread, terrace_updTerrace_same]
  rfl

theorem onlyThread_past : OnlyThread i s (past i s) := by
  unfold OnlyThread past advance
  refine ⟨held_cacheOnly i s, rfl, fun k h => ?_, ?_, fun k h => ?_⟩
  · simp only [updThread, setThread, ctxOf_tg]
    rw [terrace_updTerrace_other _ _ _ _ h, terrace_updTerrace_other _ _ _ _ h]
  · simp only [updThread, setThread, ctxOf_tg, ctxOf_thr, terrace_updTerrace_same]
    exact ⟨_, _, rfl⟩
  · simp only [ctxOf_tg, ctxOf_thr, thread_updThread_other _ _ _ _ _ h]
    rw [← thread_held i s i.tg.val k]
    simp only [thread, terrace_updTerrace_same]

theorem OnlyThread.updThread {i : Issue} {s t : State} (h : OnlyThread i s t) (f : Thread → Thread) :
    OnlyThread i s (updThread t i.tg.val i.thr.val f) := by
  obtain ⟨h0, h1, h2, ⟨th, cy, h3⟩, h4⟩ := h
  refine ⟨h0, ?_, fun k hk => ?_, ?_, fun k hk => ?_⟩
  · rw [h1]; rfl
  · simp [Machine.updThread, setThread, terrace_updTerrace_other, hk, h2]
  · simp only [Machine.updThread, setThread, terrace_updTerrace_same, h3]
    exact ⟨_, _, rfl⟩
  · rw [thread_updThread_other _ _ _ _ _ hk, h4 k hk]

/-- An instruction whose whole effect is one change of its thread. -/
theorem issue_onThread {row : OpRow} {i : Issue} {s : State} {body : Ctx → State → Option State} {f : Thread → Thread}
    {r : Thread} (h : Issues row i s) (hb : body (ctxOf i s) (past i s) = some (onThread (ctxOf i s) (past i s) f)) (hr : f (stepped i s) = r) :
    ∃ t, issue row i s body = .next t ∧ OnlyThread i s t ∧ thread t i.tg.val i.thr.val = r :=
  ⟨_, issue_some h hb, (onlyThread_past i s).updThread f, by simp [onThread, hr]⟩

end Sys2Proof.Machine
end

