-- ==== Sys2Proof/Laws/Memory.lean ====
section
/-! SUPPORT. Laws of one memory: every operation keeps the canonical form, a read after a write gives the byte written, and a
write leaves every other byte alone. -/

namespace Sys2Proof.Machine

/-! ## Rising lists -/

theorem rising_cons (a : Nat) (l : List Nat) : rising (a :: l) = true ↔ (∀ b ∈ l, a < b) ∧ rising l = true := by
  induction l generalizing a with
  | nil => simp [rising]
  | cons b r ih =>
    simp only [rising, Bool.and_eq_true, decide_eq_true_eq, List.mem_cons, forall_eq_or_imp]
    constructor
    · rintro ⟨h1, h2⟩
      exact ⟨⟨h1, fun c hc => Nat.lt_trans h1 (((ih b).mp h2).1 c hc)⟩, h2⟩
    · rintro ⟨⟨h1, _⟩, h3⟩
      exact ⟨h1, h3⟩

theorem rising_filter (p : Nat → Bool) (l : List Nat) (h : rising l = true) : rising (l.filter p) = true := by
  induction l with
  | nil => rfl
  | cons a r ih =>
    obtain ⟨h1, h2⟩ := (rising_cons a r).mp h
    simp only [List.filter_cons]
    split
    · exact (rising_cons _ _).mpr ⟨fun b hb => h1 b (List.mem_filter.mp hb).1, ih h2⟩
    · exact ih h2

theorem mem_sectorIns (l : List Nat) (k b : Nat) : b ∈ sectorIns l k ↔ b = k ∨ b ∈ l := by
  induction l with
  | nil => simp [sectorIns]
  | cons a r ih =>
    simp only [sectorIns]
    split
    · simp
    · simp only [List.mem_cons, ih]; tauto

theorem rising_sectorIns (l : List Nat) (k : Nat) (h : rising l = true) (hk : k ∉ l) : rising (sectorIns l k) = true := by
  induction l with
  | nil => rfl
  | cons a r ih =>
    obtain ⟨h1, h2⟩ := (rising_cons a r).mp h
    simp only [sectorIns]
    simp only [List.mem_cons, not_or] at hk
    split
    · rename_i hlt
      refine (rising_cons _ _).mpr ⟨?_, h⟩
      intro b hb
      rcases List.mem_cons.mp hb with rfl | hb
      · exact hlt
      · exact Nat.lt_trans hlt (h1 b hb)
    · refine (rising_cons _ _).mpr ⟨?_, ih h2 hk.2⟩
      intro b hb
      rcases (mem_sectorIns r k b).mp hb with rfl | hb
      · omega
      · exact h1 b hb

theorem rising_sectorSet (l : List Nat) (k : Nat) (b : Bool) (h : rising l = true) : rising (sectorSet l k b) = true := by
  unfold sectorSet
  have hf := rising_filter (fun a => decide (a ≠ k)) l h
  cases b
  · exact hf
  · exact rising_sectorIns _ _ hf (by simp)

theorem mem_sectorSet (l : List Nat) (k j : Nat) (b : Bool) :
    j ∈ sectorSet l k b ↔ (if j = k then b = true else j ∈ l) := by
  unfold sectorSet
  cases b
  · by_cases h : j = k <;> simp [h]
  · by_cases h : j = k <;> simp [h, mem_sectorIns]

/-! ## Cells -/

theorem cellGet_filter_other (l : List Host.Cell) (a b : Nat) (h : b ≠ a) :
    cellGet (l.filter (fun c => c.1 ≠ a)) b = cellGet l b := by
  induction l with
  | nil => rfl
  | cons c r ih =>
    by_cases hc : c.1 = a
    · rw [List.filter_cons_of_neg (by simp [hc]), ih]
      simp only [cellGet]; rw [if_neg (by rw [hc]; exact Ne.symm h)]
    · rw [List.filter_cons_of_pos (by simp [hc])]
      simp only [cellGet, ih]

theorem cellGet_filter_same (l : List Host.Cell) (a : Nat) : cellGet (l.filter (fun c => c.1 ≠ a)) a = 0 := by
  induction l with
  | nil => rfl
  | cons c r ih =>
    by_cases hc : c.1 = a
    · rw [List.filter_cons_of_neg (by simp [hc]), ih]
    · rw [List.filter_cons_of_pos (by simp [hc])]
      simp only [cellGet, ih]; rw [if_neg hc]

theorem cellGet_cellIns_same (l : List Host.Cell) (a : Nat) (b : Byte) (h : ∀ c ∈ l, c.1 ≠ a) :
    cellGet (cellIns l a b) a = b := by
  induction l with
  | nil => simp [cellIns, cellGet]
  | cons c r ih =>
    simp only [cellIns]
    split
    · simp [cellGet]
    · simp only [cellGet]
      rw [if_neg (h c List.mem_cons_self), ih (fun x hx => h x (List.mem_cons_of_mem _ hx))]

theorem cellGet_cellIns_other (l : List Host.Cell) (a j : Nat) (b : Byte) (h : j ≠ a) :
    cellGet (cellIns l a b) j = cellGet l j := by
  induction l with
  | nil => simp [cellIns, cellGet, Ne.symm h]
  | cons c r ih =>
    simp only [cellIns]
    split
    · simp [cellGet, Ne.symm h]
    · simp only [cellGet, ih]

theorem cellGet_cellSet (l : List Host.Cell) (a j : Nat) (b : Byte) :
    cellGet (cellSet l a b) j = if j = a then b else cellGet l j := by
  unfold cellSet
  by_cases h : j = a
  · subst h
    by_cases hb : b = 0
    · simp only [hb, if_true]; exact cellGet_filter_same l j
    · simp only [hb, if_false, if_true]
      exact cellGet_cellIns_same _ _ _ (by simp)
  · rw [if_neg h]
    by_cases hb : b = 0
    · simp only [hb, if_true]; exact cellGet_filter_other l a j h
    · simp only [hb, if_false]; rw [cellGet_cellIns_other _ _ _ _ h, cellGet_filter_other l a j h]

theorem map_filter_ne (l : List Host.Cell) (a : Nat) :
    (l.filter (fun c => c.1 ≠ a)).map (·.1) = (l.map (·.1)).filter (fun x => decide (x ≠ a)) := by
  induction l with
  | nil => rfl
  | cons c r ih => by_cases h : c.1 = a <;> simp_all

theorem map_cellIns (l : List Host.Cell) (a : Nat) (b : Byte) : (cellIns l a b).map (·.1) = sectorIns (l.map (·.1)) a := by
  induction l with
  | nil => rfl
  | cons c r ih =>
    simp only [cellIns, List.map_cons, sectorIns]
    split <;> simp [ih]

theorem all_cellIns (l : List Host.Cell) (a : Nat) (b : Byte) (p : Host.Cell → Bool) (h : l.all p = true) (hp : p (a, b) = true) :
    (cellIns l a b).all p = true := by
  induction l with
  | nil => simp [cellIns, hp]
  | cons c r ih =>
    simp only [List.all_cons, Bool.and_eq_true] at h
    simp only [cellIns]
    split <;> simp_all

/-! ## The canonical form -/

theorem Mem.wf_iff (m : Mem) :
    m.wf = true ↔ rising (m.cells.map (·.1)) = true ∧ m.cells.all (fun c => c.2 != 0) = true ∧ rising m.poison = true := by
  simp [Mem.wf, and_assoc]

theorem Mem.wf_empty : ({} : Mem).wf = true := by decide

theorem Mem.put_wf (m : Mem) (a : Nat) (b : Byte) (h : m.wf = true) : (m.put a b).wf = true := by
  obtain ⟨h1, h2, h3⟩ := m.wf_iff.mp h
  have hf : rising ((m.cells.filter (fun c => c.1 ≠ a)).map (·.1)) = true := by
    rw [map_filter_ne]; exact rising_filter _ _ h1
  have hz : (m.cells.filter (fun c => c.1 ≠ a)).all (fun c => c.2 != 0) = true := by
    rw [List.all_eq_true] at h2 ⊢
    exact fun c hc => h2 c (List.mem_filter.mp hc).1
  refine (Mem.wf_iff _).mpr ?_
  simp only [Mem.put, cellSet]
  by_cases hb : b = 0
  · simp only [hb, if_true]; exact ⟨hf, hz, h3⟩
  · simp only [hb, if_false]
    refine ⟨?_, all_cellIns _ _ _ _ hz (by simpa using hb), h3⟩
    rw [map_cellIns]
    exact rising_sectorIns _ _ hf (by simp)

theorem Mem.putBytes_wf (bs : List Byte) (m : Mem) (a : Nat) (h : m.wf = true) : (m.putBytes a bs).wf = true := by
  induction bs generalizing m a with
  | nil => exact h
  | cons b r ih => exact ih _ _ (m.put_wf a b h)

/-- A memory stays canonical when its poison is replaced by a rising list. -/
theorem Mem.wf_poison (m : Mem) (l : List Nat) (h : m.wf = true) (hl : rising l = true) : ({ m with poison := l } : Mem).wf = true := by
  obtain ⟨h1, h2, _⟩ := m.wf_iff.mp h
  exact (Mem.wf_iff _).mpr ⟨h1, h2, hl⟩

theorem Mem.rising_poison (m : Mem) (h : m.wf = true) : rising m.poison = true := (m.wf_iff.mp h).2.2

theorem Mem.writeSector_wf (m : Mem) (a : Nat) (bs : List PByte) (h : m.wf = true) : (m.writeSector a bs).wf = true := by
  have hp := Mem.putBytes_wf (bs.map (·.1)) m a h
  exact Mem.wf_poison _ _ hp (rising_sectorSet _ _ _ (Mem.rising_poison _ hp))

theorem Mem.foldl_wf {β : Type} (l : List β) (f : Mem → β → Mem) (m : Mem) (h : m.wf = true)
    (hf : ∀ m b, m.wf = true → (f m b).wf = true) : (l.foldl f m).wf = true := by
  induction l generalizing m with
  | nil => exact h
  | cons b r ih => exact ih _ (hf m b h)

theorem Mem.write_wf (m : Mem) (a : Nat) (bs : List PByte) (h : m.wf = true) : (m.write a bs).wf = true :=
  Mem.foldl_wf _ _ m h (fun m _ hm => m.writeSector_wf _ _ hm)

theorem map_filter_fst (l : List Host.Cell) (q : Nat → Bool) :
    (l.filter (fun c => q c.1)).map (·.1) = (l.map (·.1)).filter q := by
  induction l with
  | nil => rfl
  | cons c r ih => by_cases h : q c.1 <;> simp_all

theorem Mem.scrub_wf (m : Mem) (lo hi : Nat) (h : m.wf = true) : (m.scrub lo hi).wf = true := by
  obtain ⟨h1, h2, h3⟩ := m.wf_iff.mp h
  refine (Mem.wf_iff _).mpr ⟨?_, ?_, rising_filter _ _ h3⟩
  · simp only [Mem.scrub]
    rw [map_filter_fst m.cells (fun a => decide (a < lo) || decide (hi ≤ a))]
    exact rising_filter _ _ h1
  · rw [List.all_eq_true] at h2 ⊢
    exact fun c hc => h2 c (List.mem_filter.mp hc).1

theorem rising_foldl_sectorSet {β : Type} (l : List β) (f : β → Nat) (b : Bool) (p : List Nat) (h : rising p = true) :
    rising (l.foldl (fun l x => sectorSet l (f x) b) p) = true := by
  induction l generalizing p with
  | nil => exact h
  | cons x r ih => exact ih _ (rising_sectorSet p (f x) b h)

theorem rising_sectorsBad (l secs : List Nat) (h : rising l = true) : rising (sectorsBad l secs) = true :=
  rising_foldl_sectorSet secs _ _ l h

theorem Mem.mark_wf (m : Mem) (a n : Nat) (h : m.wf = true) : (m.mark a n).wf = true :=
  Mem.wf_poison m _ h (rising_foldl_sectorSet _ _ _ _ (Mem.rising_poison m h))

/-! ## Reads after writes -/

@[simp] theorem Mem.get_empty (a : Nat) : ({} : Mem).get a = 0 := rfl

theorem Mem.get_put (m : Mem) (a j : Nat) (b : Byte) : (m.put a b).get j = if j = a then b else m.get j :=
  cellGet_cellSet m.cells a j b

@[simp] theorem Mem.get_put_same (m : Mem) (a : Nat) (b : Byte) : (m.put a b).get a = b := by simp [Mem.get_put]

theorem Mem.get_put_other (m : Mem) (a j : Nat) (b : Byte) (h : j ≠ a) : (m.put a b).get j = m.get j := by
  simp [Mem.get_put, h]

theorem Mem.get_putBytes (bs : List Byte) (m : Mem) (a j : Nat) :
    (m.putBytes a bs).get j = if a ≤ j ∧ j < a + bs.length then bs.getD (j - a) 0 else m.get j := by
  induction bs generalizing m a with
  | nil =>
    rw [if_neg (by simp only [List.length_nil]; omega)]; rfl
  | cons b r ih =>
    simp only [Mem.putBytes, ih, List.length_cons]
    by_cases h : j = a
    · subst h
      rw [if_neg (by omega), if_pos (by omega)]
      simp
    · rw [Mem.get_put_other m a j b h]
      by_cases h2 : a + 1 ≤ j ∧ j < a + 1 + r.length
      · rw [if_pos h2, if_pos (by omega)]
        obtain ⟨d, hd⟩ : ∃ d, j - a = d + 1 := ⟨j - a - 1, by omega⟩
        rw [hd, show j - (a + 1) = d by omega]
        simp
      · rw [if_neg h2, if_neg (by omega)]

theorem Mem.get_writeSector (m : Mem) (a j : Nat) (bs : List PByte) :
    (m.writeSector a bs).get j = if a ≤ j ∧ j < a + bs.length then (bs.map (·.1)).getD (j - a) 0 else m.get j := by
  have h : (m.writeSector a bs).get j = (m.putBytes a (bs.map (·.1))).get j := rfl
  rw [h, Mem.get_putBytes, List.length_map]

theorem Mem.bad_writeSector (m : Mem) (a j : Nat) (bs : List PByte) :
    (m.writeSector a bs).bad j =
      if j / 32 = a / 32 then poisonAfter (m.bad a) (bs.any (·.2)) bs.length else m.bad j := by
  have hp : (m.putBytes a (bs.map (·.1))).poison = m.poison := by
    generalize bs.map (·.1) = l
    induction l generalizing m a with
    | nil => rfl
    | cons b r ih => exact ih (m.put a b) (a + 1)
  simp only [Mem.bad, Mem.writeSector, hp]
  rw [Bool.eq_iff_iff]
  simp only [List.contains_iff_mem, mem_sectorSet]
  split <;> simp

end Sys2Proof.Machine
end

