-- ==== Sys2Proof/Laws/Kept.lean ====
section
/-! SUPPORT. What every meaning keeps: the queue as it is, the canonical form of the memories, and the bounds of the logs. One rule per way
a meaning is put together; the lemmas of the operations and of the meanings follow in the files Kept*.lean. -/

namespace Sys2Proof.Machine

/-- The state t has the queue of s₀, and keeps what s₀ keeps. -/
def Kept (s₀ t : State) : Prop :=
  t.pending = s₀.pending ∧ (MemWf s₀ → MemWf t) ∧ (LogsBounded s₀ → LogsBounded t)

def KeptO (s₀ : State) : Option State → Prop
  | some t => Kept s₀ t
  | none => True

def KeptX (s₀ : State) : Host.Outcome State Fault Refusal → Prop
  | .next t => Kept s₀ t
  | _ => True

def KeptP {α : Type} (s₀ : State) (p : α × State) : Prop := Kept s₀ p.2

def KeptQ {α : Type} (s₀ : State) (p : State × α) : Prop := Kept s₀ p.1

def KeptR {α : Type} (s₀ : State) : Option (α × State) → Prop
  | some p => Kept s₀ p.2
  | none => True

def KeptP2 {α β : Type} (s₀ : State) (p : α × β × State) : Prop := Kept s₀ p.2.2

def KeptO1 {α : Type} (s₀ : State) (p : Option State × α) : Prop := KeptO s₀ p.1

variable {s₀ s t : State} {α β : Type}

theorem Kept.refl (s : State) : Kept s s := ⟨rfl, id, id⟩

theorem Kept.trans {u : State} (h : Kept s t) (h' : Kept t u) : Kept s u :=
  ⟨h'.1.trans h.1, fun x => h'.2.1 (h.2.1 x), fun x => h'.2.2 (h.2.2 x)⟩

theorem Kept.into (h : Kept s₀ s) (hp : t.pending = s.pending) (hm : MemWf s → MemWf t) (hl : LogsBounded s → LogsBounded t) : Kept s₀ t :=
  h.trans ⟨hp, hm, hl⟩

theorem KeptO.of_eq {o : Option State} (h : KeptO s₀ o) (e : o = some t) : Kept s₀ t := by subst e; exact h
theorem KeptX.of_eq {o : Host.Outcome State Fault Refusal} (h : KeptX s₀ o) (e : o = .next t) : Kept s₀ t := by subst e; exact h
theorem KeptP.of_eq {p : α × State} {a : α} (h : KeptP s₀ p) (e : p = (a, t)) : Kept s₀ t := by subst e; exact h
theorem KeptQ.of_eq {p : State × α} {a : α} (h : KeptQ s₀ p) (e : p = (t, a)) : Kept s₀ t := by subst e; exact h
theorem KeptP2.of_eq {p : α × β × State} {a : α} {b : β} (h : KeptP2 s₀ p) (e : p = (a, b, t)) : Kept s₀ t := by subst e; exact h
theorem KeptP2.mk {a : α} {b : β} (h : Kept s₀ t) : KeptP2 s₀ (a, b, t) := h
theorem KeptP2.val {a : α} {b : β} (h : KeptP2 s₀ (a, b, t)) : Kept s₀ t := h
theorem KeptR.of_eq {o : Option (α × State)} {a : α} (h : KeptR s₀ o) (e : o = some (a, t)) : Kept s₀ t := by subst e; exact h
theorem KeptO1.of_eq {p : Option State × α} {a : α} (h : KeptO1 s₀ p) (e : p = (some t, a)) : Kept s₀ t := by subst e; exact h

theorem KeptO.some (h : Kept s₀ t) : KeptO s₀ (some t) := h
theorem KeptO.none : KeptO s₀ none := trivial
theorem KeptX.next (h : Kept s₀ t) : KeptX s₀ (.next t) := h
theorem KeptX.fault {f : Fault} : KeptX s₀ (.fault f) := trivial
theorem KeptX.refused {f : Refusal} : KeptX s₀ (.refused f) := trivial
theorem KeptP.mk {a : α} (h : Kept s₀ t) : KeptP s₀ (a, t) := h
theorem KeptQ.mk {a : α} (h : Kept s₀ t) : KeptQ s₀ (t, a) := h
theorem KeptP.snd {p : α × State} (h : KeptP s₀ p) : Kept s₀ p.2 := h
theorem KeptQ.fst {p : State × α} (h : KeptQ s₀ p) : Kept s₀ p.1 := h
theorem KeptP.val {a : α} (h : KeptP s₀ (a, t)) : Kept s₀ t := h
theorem KeptQ.val {a : α} (h : KeptQ s₀ (t, a)) : Kept s₀ t := h
theorem KeptR.some {a : α} (h : Kept s₀ t) : KeptR s₀ (some (a, t)) := h
theorem KeptR.val {a : α} (h : KeptR s₀ (Option.some (a, t))) : Kept s₀ t := h
theorem KeptO.val (h : KeptO s₀ (Option.some t)) : Kept s₀ t := h
theorem KeptP2.thd {p : α × β × State} (h : KeptP2 s₀ p) : Kept s₀ p.2.2 := h
theorem KeptR.none : KeptR s₀ (none : Option (α × State)) := trivial
theorem KeptO1.some {a : α} (h : Kept s₀ t) : KeptO1 s₀ (some t, a) := h
theorem KeptO1.none {a : α} : KeptO1 s₀ ((none : Option State), a) := trivial

theorem KeptO.getD {o : Option State} {d : State} (h : KeptO s₀ o) (hd : Kept s₀ d) : Kept s₀ (o.getD d) := by
  cases o with
  | none => exact hd
  | some t => exact h

theorem KeptO.map {o : Option State} {f : State → State} (h : KeptO s₀ o) (hf : ∀ t, Kept s₀ t → Kept s₀ (f t)) : KeptO s₀ (o.map f) := by
  cases o with
  | none => trivial
  | some t => exact hf t h

/-! ## Conditionals and names -/

theorem Kept.ite {c : Prop} [Decidable c] {a b : State} (h : Kept s₀ a) (h' : Kept s₀ b) : Kept s₀ (if c then a else b) := by
  split <;> assumption
theorem KeptO.ite {c : Prop} [Decidable c] {a b : Option State} (h : KeptO s₀ a) (h' : KeptO s₀ b) : KeptO s₀ (if c then a else b) := by
  split <;> assumption
theorem KeptX.ite {c : Prop} [Decidable c] {a b : Host.Outcome State Fault Refusal} (h : KeptX s₀ a) (h' : KeptX s₀ b) : KeptX s₀ (if c then a else b) := by
  split <;> assumption
theorem KeptP.ite {c : Prop} [Decidable c] {a b : α × State} (h : KeptP s₀ a) (h' : KeptP s₀ b) : KeptP s₀ (if c then a else b) := by
  split <;> assumption
theorem KeptP2.ite {γ : Type} {c : Prop} [Decidable c] {a b : α × γ × State} (h : KeptP2 s₀ a) (h' : KeptP2 s₀ b) : KeptP2 s₀ (if c then a else b) := by
  split <;> assumption
theorem KeptP2.cut {γ : Type} {Q : Prop} {x : α × γ × State} (a : KeptP2 s₀ x) (b : KeptP2 s₀ x → Q) : Q := b a
theorem KeptQ.ite {c : Prop} [Decidable c] {a b : State × α} (h : KeptQ s₀ a) (h' : KeptQ s₀ b) : KeptQ s₀ (if c then a else b) := by
  split <;> assumption
theorem KeptR.ite {c : Prop} [Decidable c] {a b : Option (α × State)} (h : KeptR s₀ a) (h' : KeptR s₀ b) : KeptR s₀ (if c then a else b) := by
  split <;> assumption
theorem KeptO1.ite {c : Prop} [Decidable c] {a b : Option State × α} (h : KeptO1 s₀ a) (h' : KeptO1 s₀ b) : KeptO1 s₀ (if c then a else b) := by
  split <;> assumption

/-! A named value in a meaning is kept, and then so is what is made of it. -/

theorem Kept.cut {Q : Prop} {x : State} (a : Kept s₀ x) (b : Kept s₀ x → Q) : Q := b a
theorem KeptO.cut {Q : Prop} {x : Option State} (a : KeptO s₀ x) (b : KeptO s₀ x → Q) : Q := b a
theorem KeptX.cut {Q : Prop} {x : Host.Outcome State Fault Refusal} (a : KeptX s₀ x) (b : KeptX s₀ x → Q) : Q := b a
theorem KeptP.cut {Q : Prop} {x : α × State} (a : KeptP s₀ x) (b : KeptP s₀ x → Q) : Q := b a
theorem KeptQ.cut {Q : Prop} {x : State × α} (a : KeptQ s₀ x) (b : KeptQ s₀ x → Q) : Q := b a
theorem KeptR.cut {Q : Prop} {x : Option (α × State)} (a : KeptR s₀ x) (b : KeptR s₀ x → Q) : Q := b a
theorem KeptO1.cut {Q : Prop} {x : Option State × α} (a : KeptO1 s₀ x) (b : KeptO1 s₀ x → Q) : Q := b a

/-- A named operation on states in a meaning. -/
theorem kept_cut_val {Q : Prop} {x : β → State} (a : ∀ y, Kept s₀ (x y)) (b : (∀ y, Kept s₀ (x y)) → Q) : Q := b a
theorem kept_cut_fun {Q : Prop} {x : State → State} (a : ∀ t, Kept s₀ t → Kept s₀ (x t)) (b : (∀ t, Kept s₀ t → Kept s₀ (x t)) → Q) : Q := b a
theorem kept_cut_funP {Q : Prop} {x : State → α × State} (a : ∀ t, Kept s₀ t → KeptP s₀ (x t)) (b : (∀ t, Kept s₀ t → KeptP s₀ (x t)) → Q) :
    Q := b a
theorem kept_cut_fun2 {Q : Prop} {x : State → β → State} (a : ∀ t y, Kept s₀ t → Kept s₀ (x t y))
    (b : (∀ t y, Kept s₀ t → Kept s₀ (x t y)) → Q) : Q := b a

theorem kept_cut_fun3 {γ : Type} {Q : Prop} {x : State → β → γ → State} (a : ∀ t y z, Kept s₀ t → Kept s₀ (x t y z))
    (b : (∀ t y z, Kept s₀ t → Kept s₀ (x t y z)) → Q) : Q := b a

/-! ## The fields that Kept looks at -/

theorem set_hbm {m : Mem} (h : Kept s₀ s) (hm : s.hbm.wf = true → m.wf = true) : Kept s₀ { s with hbm := m } :=
  ⟨h.1, fun x => let y := h.2.1 x; ⟨hm y.1, y.2⟩, h.2.2⟩
theorem set_far {m : Mem} (h : Kept s₀ s) (hm : s.far.wf = true → m.wf = true) : Kept s₀ { s with far := m } :=
  ⟨h.1, fun x => let y := h.2.1 x; ⟨y.1, hm y.2.1, y.2.2⟩, h.2.2⟩
theorem set_host {m : Mem} (h : Kept s₀ s) (hm : s.host.wf = true → m.wf = true) : Kept s₀ { s with host := m } :=
  ⟨h.1, fun x => let y := h.2.1 x; ⟨y.1, y.2.1, hm y.2.2.1, y.2.2.2⟩, h.2.2⟩
theorem set_peer {m : Mem} (h : Kept s₀ s) (hm : s.peer.wf = true → m.wf = true) : Kept s₀ { s with peer := m } :=
  ⟨h.1, fun x => let y := h.2.1 x; ⟨y.1, y.2.1, y.2.2.1, hm y.2.2.2.1, y.2.2.2.2⟩, h.2.2⟩
theorem set_hbmPoison {l : List Nat} (h : Kept s₀ s) (hl : rising s.hbmPoison = true → rising l = true) :
    Kept s₀ { s with hbmPoison := l } :=
  ⟨h.1, fun x => let y := h.2.1 x; ⟨y.1, y.2.1, y.2.2.1, y.2.2.2.1, hl y.2.2.2.2⟩, h.2.2⟩
theorem set_ras {l : List RasRec} (h : Kept s₀ s) (hl : s.ras.length ≤ 1024 → l.length ≤ 1024) : Kept s₀ { s with ras := l } :=
  ⟨h.1, h.2.1, fun x => let y := h.2.2 x; ⟨hl y.1, y.2⟩⟩
theorem set_flog {l : List XRec} (h : Kept s₀ s) (hl : s.flog.length ≤ 16 → l.length ≤ 16) : Kept s₀ { s with flog := l } :=
  ⟨h.1, h.2.1, fun x => let y := h.2.2 x; ⟨y.1, hl y.2.1, y.2.2⟩⟩
theorem set_evq {l : List ExEvent} (h : Kept s₀ s) (hl : s.evq.length ≤ 256 → l.length ≤ 256) : Kept s₀ { s with evq := l } :=
  ⟨h.1, h.2.1, fun x => let y := h.2.2 x; ⟨y.1, y.2.1, hl y.2.2⟩⟩

/-! ## Folds -/

theorem Kept.foldl {l : List β} {f : State → β → State} (h : Kept s₀ s) (hf : ∀ t b, Kept s₀ t → Kept s₀ (f t b)) :
    Kept s₀ (l.foldl f s) := by
  induction l generalizing s with
  | nil => exact h
  | cons b r ih => exact ih (hf s b h)

theorem KeptP.foldl {l : List β} {f : α × State → β → α × State} {p : α × State} (h : KeptP s₀ p)
    (hf : ∀ p b, KeptP s₀ p → KeptP s₀ (f p b)) : KeptP s₀ (l.foldl f p) := by
  induction l generalizing p with
  | nil => exact h
  | cons b r ih => exact ih (hf p b h)

theorem KeptP2.foldl {γ : Type} {l : List β} {f : α × γ × State → β → α × γ × State} {p : α × γ × State} (h : KeptP2 s₀ p)
    (hf : ∀ p b, KeptP2 s₀ p → KeptP2 s₀ (f p b)) : KeptP2 s₀ (l.foldl f p) := by
  induction l generalizing p with
  | nil => exact h
  | cons b r ih => exact ih (hf p b h)

theorem KeptQ.foldl {l : List β} {f : State × α → β → State × α} {p : State × α} (h : KeptQ s₀ p)
    (hf : ∀ p b, KeptQ s₀ p → KeptQ s₀ (f p b)) : KeptQ s₀ (l.foldl f p) := by
  induction l generalizing p with
  | nil => exact h
  | cons b r ih => exact ih (hf p b h)

theorem Kept.loopFrom {n k : Nat} {f : Nat → State → State} (h : Kept s₀ s) (hf : ∀ i t, Kept s₀ t → Kept s₀ (f i t)) :
    Kept s₀ (loopFrom n k f s) := by
  induction k generalizing n s with
  | zero => exact h
  | succ k ih => exact ih (hf n s h)

theorem Kept.loop {k : Nat} {f : Nat → State → State} (h : Kept s₀ s) (hf : ∀ i t, Kept s₀ t → Kept s₀ (f i t)) :
    Kept s₀ (loop k f s) := Kept.loopFrom h hf

end Sys2Proof.Machine
end

