-- ==== Sys2Proof/Laws/KeptSets.lean ====
section
/-! SUPPORT. Updates of fields that no part of Kept looks at. -/

namespace Sys2Proof.Machine

variable {s₀ s : State}

theorem set_allots {v0} (h : Kept s₀ s) :
    Kept s₀ { s with allots := v0 } := h
theorem set_allots_runs {v0} {v1} (h : Kept s₀ s) :
    Kept s₀ { s with allots := v0, runs := v1 } := h
theorem set_ats_atsPend {v0} {v1} (h : Kept s₀ s) :
    Kept s₀ { s with ats := v0, atsPend := v1 } := h
theorem set_atsPend {v0} (h : Kept s₀ s) :
    Kept s₀ { s with atsPend := v0 } := h
theorem set_atsWant {v0} (h : Kept s₀ s) :
    Kept s₀ { s with atsWant := v0 } := h
theorem set_atsWant_ats {v0} {v1} (h : Kept s₀ s) :
    Kept s₀ { s with atsWant := v0, ats := v1 } := h
theorem set_awakeMax {v0} (h : Kept s₀ s) :
    Kept s₀ { s with awakeMax := v0 } := h
theorem set_bellNo {v0} (h : Kept s₀ s) :
    Kept s₀ { s with bellNo := v0 } := h
theorem set_bells {v0} (h : Kept s₀ s) :
    Kept s₀ { s with bells := v0 } := h
theorem set_canalAlt_canalFence {v0} {v1} (h : Kept s₀ s) :
    Kept s₀ { s with canalAlt := v0, canalFence := v1 } := h
theorem set_canalFence {v0} (h : Kept s₀ s) :
    Kept s₀ { s with canalFence := v0 } := h
theorem set_capGuard {v0} (h : Kept s₀ s) :
    Kept s₀ { s with capGuard := v0 } := h
theorem set_capGuard_fb {v0} {v1} (h : Kept s₀ s) :
    Kept s₀ { s with capGuard := v0, fb := v1 } := h
theorem set_ctrs {v0} (h : Kept s₀ s) :
    Kept s₀ { s with ctrs := v0 } := h
theorem set_diag {v0} (h : Kept s₀ s) :
    Kept s₀ { s with diag := v0 } := h
theorem set_discharging {v0} (h : Kept s₀ s) :
    Kept s₀ { s with discharging := v0 } := h
theorem set_e2e {v0} (h : Kept s₀ s) :
    Kept s₀ { s with e2e := v0 } := h
theorem set_e2e_skvWait_skv {v0} {v1} {v2} (h : Kept s₀ s) :
    Kept s₀ { s with e2e := v0, skvWait := v1, skv := v2 } := h
theorem set_eid {v0} (h : Kept s₀ s) :
    Kept s₀ { s with eid := v0 } := h
theorem set_farDevs {v0} (h : Kept s₀ s) :
    Kept s₀ { s with farDevs := v0 } := h
theorem set_farPorts {v0} (h : Kept s₀ s) :
    Kept s₀ { s with farPorts := v0 } := h
theorem set_farPorts_xperst_guarded_mir_nvNew_fb_fbShadow_hwEpoch {v0} {v1} {v2} {v3} {v4} {v5} {v6} {v7} (h : Kept s₀ s) :
    Kept s₀ { s with farPorts := v0, xperst := v1, guarded := v2, mir := v3, nvNew := v4, fb := v5, fbShadow := v6, hwEpoch := v7 } := h
theorem set_fb {v0} (h : Kept s₀ s) :
    Kept s₀ { s with fb := v0 } := h
theorem set_fbShadow_fbSync {v0} {v1} (h : Kept s₀ s) :
    Kept s₀ { s with fbShadow := v0, fbSync := v1 } := h
theorem set_feedB {v0} (h : Kept s₀ s) :
    Kept s₀ { s with feedB := v0 } := h
theorem set_feeds {v0} (h : Kept s₀ s) :
    Kept s₀ { s with feeds := v0 } := h
theorem set_feeds_discharging {v0} {v1} (h : Kept s₀ s) :
    Kept s₀ { s with feeds := v0, discharging := v1 } := h
theorem set_freason_resetting {v0} {v1} (h : Kept s₀ s) :
    Kept s₀ { s with freason := v0, resetting := v1 } := h
theorem set_freeCtr {v0} (h : Kept s₀ s) :
    Kept s₀ { s with freeCtr := v0 } := h
theorem set_fw {v0} (h : Kept s₀ s) :
    Kept s₀ { s with fw := v0 } := h
theorem set_got {v0} (h : Kept s₀ s) :
    Kept s₀ { s with got := v0 } := h
theorem set_got_lanes_saddles {v0} {v1} {v2} (h : Kept s₀ s) :
    Kept s₀ { s with got := v0, lanes := v1, saddles := v2 } := h
theorem set_hdFailed_jrn1_fb {v0} {v1} {v2} (h : Kept s₀ s) :
    Kept s₀ { s with hdFailed := v0, jrn1 := v1, fb := v2 } := h
theorem set_hostPorts {v0} (h : Kept s₀ s) :
    Kept s₀ { s with hostPorts := v0 } := h
theorem set_hostReqs {v0} (h : Kept s₀ s) :
    Kept s₀ { s with hostReqs := v0 } := h
theorem set_hostReqs_got {v0} {v1} (h : Kept s₀ s) :
    Kept s₀ { s with hostReqs := v0, got := v1 } := h
theorem set_hostReqs_skvReqs_saddles {v0} {v1} {v2} (h : Kept s₀ s) :
    Kept s₀ { s with hostReqs := v0, skvReqs := v1, saddles := v2 } := h
theorem set_intPend {v0} (h : Kept s₀ s) :
    Kept s₀ { s with intPend := v0 } := h
theorem set_inv {v0} (h : Kept s₀ s) :
    Kept s₀ { s with inv := v0 } := h
theorem set_invQ {v0} (h : Kept s₀ s) :
    Kept s₀ { s with invQ := v0 } := h
theorem set_jfull_resumeTo {v0} {v1} (h : Kept s₀ s) :
    Kept s₀ { s with jfull := v0, resumeTo := v1 } := h
theorem set_jrn0 {v0} (h : Kept s₀ s) :
    Kept s₀ { s with jrn0 := v0 } := h
theorem set_jrn1 {v0} (h : Kept s₀ s) :
    Kept s₀ { s with jrn1 := v0 } := h
theorem set_jsteps {v0} (h : Kept s₀ s) :
    Kept s₀ { s with jsteps := v0 } := h
theorem set_lanes {v0} (h : Kept s₀ s) :
    Kept s₀ { s with lanes := v0 } := h
theorem set_lats {v0} (h : Kept s₀ s) :
    Kept s₀ { s with lats := v0 } := h
theorem set_mgmtIn {v0} (h : Kept s₀ s) :
    Kept s₀ { s with mgmtIn := v0 } := h
theorem set_mode {v0} (h : Kept s₀ s) :
    Kept s₀ { s with mode := v0 } := h
theorem set_mode_feedB_fb {v0} {v1} {v2} (h : Kept s₀ s) :
    Kept s₀ { s with mode := v0, feedB := v1, fb := v2 } := h
theorem set_mode_taps_terraces {v0} {v1} {v2} (h : Kept s₀ s) :
    Kept s₀ { s with mode := v0, taps := v1, terraces := v2 } := h
theorem set_mode_tripped_jrn0_jrn1_rails_regs {v0} {v1} {v2} {v3} {v4} {v5} (h : Kept s₀ s) :
    Kept s₀ { s with mode := v0, tripped := v1, jrn0 := v2, jrn1 := v3, rails := v4, regs := v5 } := h
theorem set_nv0 {v0} (h : Kept s₀ s) :
    Kept s₀ { s with nv0 := v0 } := h
theorem set_nv1 {v0} (h : Kept s₀ s) :
    Kept s₀ { s with nv1 := v0 } := h
theorem set_nvNew_fw {v0} {v1} (h : Kept s₀ s) :
    Kept s₀ { s with nvNew := v0, fw := v1 } := h
theorem set_out {v0} (h : Kept s₀ s) :
    Kept s₀ { s with out := v0 } := h
theorem set_perst {v0} (h : Kept s₀ s) :
    Kept s₀ { s with perst := v0 } := h
theorem set_ques {v0} (h : Kept s₀ s) :
    Kept s₀ { s with ques := v0 } := h
theorem set_rails {v0} (h : Kept s₀ s) :
    Kept s₀ { s with rails := v0 } := h
theorem set_receiver {v0} (h : Kept s₀ s) :
    Kept s₀ { s with receiver := v0 } := h
theorem set_redivide {v0} (h : Kept s₀ s) :
    Kept s₀ { s with redivide := v0 } := h
theorem set_regs {v0} (h : Kept s₀ s) :
    Kept s₀ { s with regs := v0 } := h
theorem set_regs_ctrs_shadows {v0} {v1} {v2} (h : Kept s₀ s) :
    Kept s₀ { s with regs := v0, ctrs := v1, shadows := v2 } := h
theorem set_regs_fw {v0} {v1} (h : Kept s₀ s) :
    Kept s₀ { s with regs := v0, fw := v1 } := h
theorem set_resetting {v0} (h : Kept s₀ s) :
    Kept s₀ { s with resetting := v0 } := h
theorem set_resetting_bells {v0} {v1} (h : Kept s₀ s) :
    Kept s₀ { s with resetting := v0, bells := v1 } := h
theorem set_retQ {v0} (h : Kept s₀ s) :
    Kept s₀ { s with retQ := v0 } := h
theorem set_ridgeFailed {v0} (h : Kept s₀ s) :
    Kept s₀ { s with ridgeFailed := v0 } := h
theorem set_ridgePower {v0} (h : Kept s₀ s) :
    Kept s₀ { s with ridgePower := v0 } := h
theorem set_rings {v0} (h : Kept s₀ s) :
    Kept s₀ { s with rings := v0 } := h
theorem set_rr {v0} (h : Kept s₀ s) :
    Kept s₀ { s with rr := v0 } := h
theorem set_rsvDue {v0} (h : Kept s₀ s) :
    Kept s₀ { s with rsvDue := v0 } := h
theorem set_rsvs {v0} (h : Kept s₀ s) :
    Kept s₀ { s with rsvs := v0 } := h
theorem set_rsvs_rsvDue {v0} {v1} (h : Kept s₀ s) :
    Kept s₀ { s with rsvs := v0, rsvDue := v1 } := h
theorem set_rsvs_rsvRevoked {v0} {v1} (h : Kept s₀ s) :
    Kept s₀ { s with rsvs := v0, rsvRevoked := v1 } := h
theorem set_rte {v0} (h : Kept s₀ s) :
    Kept s₀ { s with rte := v0 } := h
theorem set_runs {v0} (h : Kept s₀ s) :
    Kept s₀ { s with runs := v0 } := h
theorem set_runs_redivide_lats {v0} {v1} {v2} (h : Kept s₀ s) :
    Kept s₀ { s with runs := v0, redivide := v1, lats := v2 } := h
theorem set_runs_redivide_skvReqs {v0} {v1} {v2} (h : Kept s₀ s) :
    Kept s₀ { s with runs := v0, redivide := v1, skvReqs := v2 } := h
theorem set_runs_terraces_lats {v0} {v1} {v2} (h : Kept s₀ s) :
    Kept s₀ { s with runs := v0, terraces := v1, lats := v2 } := h
theorem set_rwSaved_resetting {v0} {v1} (h : Kept s₀ s) :
    Kept s₀ { s with rwSaved := v0, resetting := v1 } := h
theorem set_rwSaved_resetting_bells {v0} {v1} {v2} (h : Kept s₀ s) :
    Kept s₀ { s with rwSaved := v0, resetting := v1, bells := v2 } := h
theorem set_saddles {v0} (h : Kept s₀ s) :
    Kept s₀ { s with saddles := v0 } := h
theorem set_sensors {v0} (h : Kept s₀ s) :
    Kept s₀ { s with sensors := v0 } := h
theorem set_shadows {v0} (h : Kept s₀ s) :
    Kept s₀ { s with shadows := v0 } := h
theorem set_shares {v0} (h : Kept s₀ s) :
    Kept s₀ { s with shares := v0 } := h
theorem set_skv {v0} (h : Kept s₀ s) :
    Kept s₀ { s with skv := v0 } := h
theorem set_skvArbs {v0} (h : Kept s₀ s) :
    Kept s₀ { s with skvArbs := v0 } := h
theorem set_skvReqs {v0} (h : Kept s₀ s) :
    Kept s₀ { s with skvReqs := v0 } := h
theorem set_skvWait {v0} (h : Kept s₀ s) :
    Kept s₀ { s with skvWait := v0 } := h
theorem set_taps {v0} (h : Kept s₀ s) :
    Kept s₀ { s with taps := v0 } := h
theorem set_terraces {v0} (h : Kept s₀ s) :
    Kept s₀ { s with terraces := v0 } := h
theorem set_terraces_saddles_ats {v0} {v1} {v2} (h : Kept s₀ s) :
    Kept s₀ { s with terraces := v0, saddles := v1, ats := v2 } := h
theorem set_update {v0} (h : Kept s₀ s) :
    Kept s₀ { s with update := v0 } := h
theorem set_update_flash {v0} {v1} (h : Kept s₀ s) :
    Kept s₀ { s with update := v0, flash := v1 } := h
theorem set_update_fw {v0} {v1} (h : Kept s₀ s) :
    Kept s₀ { s with update := v0, fw := v1 } := h
theorem set_win {v0} (h : Kept s₀ s) :
    Kept s₀ { s with win := v0 } := h
theorem set_xperst {v0} (h : Kept s₀ s) :
    Kept s₀ { s with xperst := v0 } := h

end Sys2Proof.Machine
end

