-- ==== Sys2Proof/Laws/KeptMemory.lean ====
section
/-! SUPPORT. What the operations and meanings of Machine/Memory.lean keep. -/

set_option linter.unreachableTactic false
set_option linter.unusedTactic false
set_option linter.unusedVariables false
set_option linter.tactic.unusedName false

namespace Sys2Proof.Machine

theorem setTerrace_kept {s₀ s : State} {tg : Nat} {t : Terrace} (hK : Kept s₀ s) :
    Kept s₀ (setTerrace s tg t) := by
  unfold setTerrace
  repeat' first
    | with_reducible assumption
    | intro _
    | (extract_lets +onlyGivenNames x; first | (refine Kept.cut (s₀ := s₀) (x := x) ?_ ?_; rotate_left; intro _; clear_value x; rotate_left; unfold x; clear x) | clear_value x | skip)
    | with_reducible apply Kept.ite
    | (with_reducible refine set_terraces ?_; with_reducible assumption)
    | split

theorem updTerrace_kept {s₀ s : State} {tg : Nat} {f : Terrace → Terrace} (hK : Kept s₀ s) :
    Kept s₀ (updTerrace s tg f) := by
  unfold updTerrace
  repeat' first
    | with_reducible assumption
    | intro _
    | (extract_lets +onlyGivenNames x; first | (refine Kept.cut (s₀ := s₀) (x := x) ?_ ?_; rotate_left; intro _; clear_value x; rotate_left; unfold x; clear x) | clear_value x | skip)
    | with_reducible apply Kept.ite
    | with_reducible apply setTerrace_kept
    | split

theorem updSaddle_kept {s₀ s : State} {n : Nat} {f : Saddle → Saddle} (hK : Kept s₀ s) :
    Kept s₀ (updSaddle s n f) := by
  unfold updSaddle
  repeat' first
    | with_reducible assumption
    | intro _
    | (extract_lets +onlyGivenNames x; first | (refine Kept.cut (s₀ := s₀) (x := x) ?_ ?_; rotate_left; intro _; clear_value x; rotate_left; unfold x; clear x) | clear_value x | skip)
    | with_reducible apply Kept.ite
    | (with_reducible refine set_saddles ?_; with_reducible assumption)
    | split

theorem setRg_kept {s₀ s : State} {off : Nat} {v : W32} (hK : Kept s₀ s) :
    Kept s₀ (setRg s off v) := by
  unfold setRg
  repeat' first
    | with_reducible assumption
    | intro _
    | (extract_lets +onlyGivenNames x; first | (refine Kept.cut (s₀ := s₀) (x := x) ?_ ?_; rotate_left; intro _; clear_value x; rotate_left; unfold x; clear x) | clear_value x | skip)
    | with_reducible apply Kept.ite
    | (with_reducible refine set_regs ?_; with_reducible assumption)
    | split

theorem hbmPut_kept {s₀ s : State} {a : Nat} {b : Byte} (h : Kept s₀ s) : Kept s₀ (hbmPut s a b) := by
  unfold hbmPut
  extract_lets g
  split
  split
  · exact h
  · extract_lets m m'
    refine set_hbm h (fun hm => ?_)
    have hm1 : m.wf = true := by unfold m; split; exacts [hm, Mem.put_wf _ _ _ hm]
    unfold m'; split; exacts [Mem.put_wf _ _ _ hm1, hm1]

theorem farWrite_kept {s₀ s : State} {a : Nat} {bs : List PByte} (h : Kept s₀ s) : Kept s₀ (farWrite s a bs) := by
  unfold farWrite
  extract_lets p off at' put
  have hp : ∀ t q, Kept s₀ t → Kept s₀ (put t q) := by
    intro t q ht
    unfold put
    exact Kept.ite (set_far ht (fun hm => Mem.writeSector_wf _ _ _ hm)) ht
  exact Kept.ite (hp _ _ (hp _ _ h)) (hp _ _ h)

theorem hbmPutBytes_kept {s₀ s : State} {a : Nat} {bs : List Byte} (h : Kept s₀ s) : Kept s₀ (hbmPutBytes s a bs) := by
  induction bs generalizing s a with
  | nil => exact h
  | cons b r ih => exact ih (hbmPut_kept h)

theorem dpaWriteSector_kept {s₀ s : State} {a : Nat} {bs : List PByte} (h : Kept s₀ s) : Kept s₀ (dpaWriteSector s a bs) := by
  unfold dpaWriteSector
  split
  · exact Kept.ite h (set_hbmPoison (hbmPutBytes_kept h) (fun hl => rising_sectorSet _ _ _ hl))
  · exact farWrite_kept h
  · exact set_host h (fun hm => Mem.writeSector_wf _ _ _ hm)
  · exact h
  · exact h

theorem dpaWrite_kept {s₀ s : State} {a : Nat} {bs : List PByte} (hK : Kept s₀ s) :
    Kept s₀ (dpaWrite s a bs) := by
  unfold dpaWrite
  repeat' first
    | with_reducible assumption
    | intro _
    | (extract_lets +onlyGivenNames x; first | (refine Kept.cut (s₀ := s₀) (x := x) ?_ ?_; rotate_left; intro _; clear_value x; rotate_left; unfold x; clear x) | clear_value x | skip)
    | with_reducible apply Kept.ite
    | with_reducible apply Kept.foldl
    | with_reducible apply dpaWriteSector_kept
    | split

theorem busWrite_kept {s₀ s : State} {a : Nat} {bs : List Byte} (h : Kept s₀ s) : Kept s₀ (busWrite s a bs) :=
  set_host h (fun hm => Mem.foldl_wf _ _ _ hm (fun _ _ hk => Mem.writeSector_wf _ _ _ hk))

end Sys2Proof.Machine
end

