-- ==== Sys2Proof/Laws/KeptOps.lean ====
section
/-! SUPPORT. What the operations and meanings of Machine/Ops.lean keep. -/

set_option linter.unreachableTactic false
set_option linter.unusedTactic false
set_option linter.unusedVariables false
set_option linter.tactic.unusedName false

namespace Sys2Proof.Machine

theorem fresh_kept {s₀ s : State}  (hK : Kept s₀ s) :
    KeptP s₀ (fresh s) := by
  unfold fresh
  repeat' first
    | with_reducible assumption
    | intro _
    | (extract_lets +onlyGivenNames x; first | (refine Kept.cut (s₀ := s₀) (x := x) ?_ ?_; rotate_left; intro _; clear_value x; rotate_left; unfold x; clear x) | (refine KeptP.cut (s₀ := s₀) (x := x) ?_ ?_; rotate_left; intro _; clear_value x; rotate_left; unfold x; clear x) | clear_value x | skip)
    | with_reducible apply Kept.ite
    | with_reducible apply KeptP.ite
    | (with_reducible refine KeptP.snd ?_; with_reducible assumption)
    | with_reducible exact KeptP.val ‹_›
    | (with_reducible refine set_freeCtr ?_; first | with_reducible assumption | with_reducible exact KeptP.val ‹_› | (with_reducible refine KeptP.of_eq ?_ ‹_›; first | with_reducible assumption))
    | (with_reducible refine KeptP.of_eq ?_ ‹_›)
    | split
    | with_reducible apply KeptP.mk

theorem satAdd_kept {s₀ s : State} {off : Nat} {d : W32} {lo : Nat} {len : Nat} {n : Nat} (hK : Kept s₀ s) :
    Kept s₀ (satAdd s off d lo len n) := by
  unfold satAdd
  repeat' first
    | with_reducible assumption
    | intro _
    | (extract_lets +onlyGivenNames x; first | (refine Kept.cut (s₀ := s₀) (x := x) ?_ ?_; rotate_left; intro _; clear_value x; rotate_left; unfold x; clear x) | clear_value x | skip)
    | with_reducible apply Kept.ite
    | with_reducible apply setRg_kept
    | split

theorem ctrAdd_kept {s₀ s : State} {off : Nat} {n : Nat} (hK : Kept s₀ s) :
    Kept s₀ (ctrAdd s off n) := by
  unfold ctrAdd
  repeat' first
    | with_reducible assumption
    | intro _
    | (extract_lets +onlyGivenNames x; first | (refine Kept.cut (s₀ := s₀) (x := x) ?_ ?_; rotate_left; intro _; clear_value x; rotate_left; unfold x; clear x) | clear_value x | skip)
    | with_reducible apply Kept.ite
    | (with_reducible refine set_ctrs ?_; with_reducible assumption)
    | split

theorem emit_kept {s₀ s : State} {m : OutMsg} (hK : Kept s₀ s) :
    Kept s₀ (emit s m) := by
  unfold emit
  repeat' first
    | with_reducible assumption
    | intro _
    | (extract_lets +onlyGivenNames x; first | (refine Kept.cut (s₀ := s₀) (x := x) ?_ ?_; rotate_left; intro _; clear_value x; rotate_left; unfold x; clear x) | clear_value x | skip)
    | with_reducible apply Kept.ite
    | (with_reducible refine set_out ?_; with_reducible assumption)
    | split

theorem updAllot_kept {s₀ s : State} {a : Nat} {f : Allot → Allot} (hK : Kept s₀ s) :
    Kept s₀ (updAllot s a f) := by
  unfold updAllot
  repeat' first
    | with_reducible assumption
    | intro _
    | (extract_lets +onlyGivenNames x; first | (refine Kept.cut (s₀ := s₀) (x := x) ?_ ?_; rotate_left; intro _; clear_value x; rotate_left; unfold x; clear x) | clear_value x | skip)
    | with_reducible apply Kept.ite
    | (with_reducible refine set_allots ?_; with_reducible assumption)
    | split

theorem intWant_kept {s₀ s : State} {v : Nat} (hK : Kept s₀ s) :
    Kept s₀ (intWant s v) := by
  unfold intWant
  repeat' first
    | with_reducible assumption
    | intro _
    | (extract_lets +onlyGivenNames x; first | (refine Kept.cut (s₀ := s₀) (x := x) ?_ ?_; rotate_left; intro _; clear_value x; rotate_left; unfold x; clear x) | clear_value x | skip)
    | with_reducible apply Kept.ite
    | (with_reducible refine set_intPend ?_; with_reducible assumption)
    | split

theorem intCause_kept {s₀ s : State} {c : Nat} (hK : Kept s₀ s) :
    Kept s₀ (intCause s c) := by
  unfold intCause
  repeat' first
    | with_reducible assumption
    | intro _
    | (extract_lets +onlyGivenNames x; first | (refine Kept.cut (s₀ := s₀) (x := x) ?_ ?_; rotate_left; intro _; clear_value x; rotate_left; unfold x; clear x) | clear_value x | skip)
    | with_reducible apply Kept.ite
    | with_reducible apply intWant_kept
    | with_reducible apply setRg_kept
    | split

theorem exEvent_kept {s₀ s : State} {ws : List Nat} (h : Kept s₀ s) : Kept s₀ (exEvent s ws) := by
  unfold exEvent
  extract_lets full e q
  refine emit_kept (set_evq h (fun hl => ?_))
  unfold q full
  split
  · rename_i hf
    simp only [List.length_append, List.length_drop, List.length_cons, List.length_nil]
    have := of_decide_eq_true hf; omega
  · rename_i hf
    simp only [List.length_append, List.length_cons, List.length_nil]
    have : ¬ 256 ≤ s.evq.length := fun h => hf (decide_eq_true h)
    omega

theorem rasAppend.append_kept {s₀ s : State} {ev : List Nat} {r : RasRec} (h : Kept s₀ s) : Kept s₀ (rasAppend.append s ev r) := by
  unfold rasAppend.append
  extract_lets s1 s2 s3 s4 s5
  have h1 : Kept s₀ s1 := h
  split
  · have h2 : Kept s₀ s2 := satAdd_kept h1
    exact exEvent_kept (Kept.ite h2 (intCause_kept (setRg_kept h2)))
  · rename_i hl
    have h4 : Kept s₀ s4 := set_ras h1 (fun _ => by
      simp only [List.length_append, List.length_cons, List.length_nil]; omega)
    exact exEvent_kept (intCause_kept (satAdd_kept h4))

theorem rasAppend_kept {s₀ s : State} {code sev skind unit : Nat} {al : Option Nat} {detail : Nat} (h : Kept s₀ s) :
    Kept s₀ (rasAppend s code sev skind unit al detail) := by
  unfold rasAppend
  extract_lets a t d ev f
  split
  · rename_i r hr
    refine Kept.ite (set_ras h (fun hl => ?_)) (rasAppend.append_kept h)
    have hn : s.ras ≠ [] := by intro e; rw [e] at hr; simp at hr
    have hp : 0 < s.ras.length := List.length_pos_of_ne_nil hn
    simp only [List.length_append, List.length_dropLast, List.length_cons, List.length_nil]
    omega
  · exact rasAppend.append_kept h

theorem logDropped_kept {s₀ s : State} {off : Nat} {v : Nat} (hK : Kept s₀ s) :
    Kept s₀ (logDropped s off v) := by
  unfold logDropped
  repeat' first
    | with_reducible assumption
    | intro _
    | (extract_lets +onlyGivenNames x; first | (refine Kept.cut (s₀ := s₀) (x := x) ?_ ?_; rotate_left; intro _; clear_value x; rotate_left; unfold x; clear x) | clear_value x | skip)
    | with_reducible apply Kept.ite
    | with_reducible apply rasAppend_kept
    | split

theorem ringPut_kept {s₀ s : State} {k : Nat} {p : Packet} (hK : Kept s₀ s) :
    Kept s₀ (ringPut s k p) := by
  unfold ringPut
  repeat' first
    | with_reducible assumption
    | intro _
    | (extract_lets +onlyGivenNames x; first | (refine Kept.cut (s₀ := s₀) (x := x) ?_ ?_; rotate_left; intro _; clear_value x; rotate_left; unfold x; clear x) | clear_value x | skip)
    | with_reducible apply Kept.ite
    | with_reducible apply satAdd_kept
    | (with_reducible refine set_rings ?_; with_reducible assumption)
    | split

theorem gaugePf_kept {s₀ s : State} {hd : Nat} {type : Nat} {al : Nat} {words : List W64} {notice : Bool} (hK : Kept s₀ s) :
    Kept s₀ (gaugePf s hd type al words notice) := by
  unfold gaugePf
  repeat' first
    | with_reducible assumption
    | intro _
    | (extract_lets +onlyGivenNames x; first | (refine Kept.cut (s₀ := s₀) (x := x) ?_ ?_; rotate_left; intro _; clear_value x; rotate_left; unfold x; clear x) | clear_value x | skip)
    | with_reducible apply Kept.ite
    | with_reducible apply ringPut_kept
    | split

theorem gaugePost_kept {s₀ s : State} {type : Nat} {al : Nat} {words : List W64} {notice : Bool} (hK : Kept s₀ s) :
    Kept s₀ (gaugePost s type al words notice) := by
  unfold gaugePost
  repeat' first
    | with_reducible assumption
    | intro _
    | (extract_lets +onlyGivenNames x; first | (refine Kept.cut (s₀ := s₀) (x := x) ?_ ?_; rotate_left; intro _; clear_value x; rotate_left; unfold x; clear x) | clear_value x | skip)
    | with_reducible apply Kept.ite
    | with_reducible apply ringPut_kept
    | split

theorem updRun_kept {s₀ s : State} {k : Nat} {f : Run → Run} (hK : Kept s₀ s) :
    Kept s₀ (updRun s k f) := by
  unfold updRun
  repeat' first
    | with_reducible assumption
    | intro _
    | (extract_lets +onlyGivenNames x; first | (refine Kept.cut (s₀ := s₀) (x := x) ?_ ?_; rotate_left; intro _; clear_value x; rotate_left; unfold x; clear x) | clear_value x | skip)
    | with_reducible apply Kept.ite
    | (with_reducible refine set_runs ?_; with_reducible assumption)
    | split

theorem runErr_kept {s₀ s : State} {k : Nat} {bitNo : Nat} (hK : Kept s₀ s) :
    Kept s₀ (runErr s k bitNo) := by
  unfold runErr
  repeat' first
    | with_reducible assumption
    | intro _
    | (extract_lets +onlyGivenNames x; first | (refine Kept.cut (s₀ := s₀) (x := x) ?_ ?_; rotate_left; intro _; clear_value x; rotate_left; unfold x; clear x) | clear_value x | skip)
    | with_reducible apply Kept.ite
    | with_reducible apply updRun_kept
    | split

theorem runPoison_kept {s₀ s : State} {k : Nat} {n : Nat} (hK : Kept s₀ s) :
    Kept s₀ (runPoison s k n) := by
  unfold runPoison
  repeat' first
    | with_reducible assumption
    | intro _
    | (extract_lets +onlyGivenNames x; first | (refine Kept.cut (s₀ := s₀) (x := x) ?_ ?_; rotate_left; intro _; clear_value x; rotate_left; unfold x; clear x) | clear_value x | skip)
    | with_reducible apply Kept.ite
    | with_reducible apply updRun_kept
    | split

theorem discardReaches_kept {s₀ s : State} {k : Nat} (hK : Kept s₀ s) :
    Kept s₀ (discardReaches s k) := by
  unfold discardReaches
  repeat' first
    | with_reducible assumption
    | intro _
    | (extract_lets +onlyGivenNames x; first | (refine Kept.cut (s₀ := s₀) (x := x) ?_ ?_; rotate_left; intro _; clear_value x; rotate_left; unfold x; clear x) | clear_value x | skip)
    | with_reducible apply Kept.ite
    | with_reducible apply Kept.foldl
    | with_reducible apply updRun_kept
    | with_reducible apply updTerrace_kept
    | with_reducible apply satAdd_kept
    | split

theorem logXlt_kept {s₀ s : State} {slot : Option Nat} {r : XRec} (h : Kept s₀ s) : Kept s₀ (logXlt s slot r) := by
  unfold logXlt
  extract_lets s1 s2 s3
  have h1 : Kept s₀ s1 := satAdd_kept h
  have h3 : Kept s₀ s3 := by
    unfold s3
    split
    · rename_i hl
      have h2 : Kept s₀ s2 := set_flog h1 (fun _ => by simp only [List.length_append, List.length_cons, List.length_nil]; omega)
      exact Kept.ite (intCause_kept h2) h2
    · exact Kept.ite h1 (intCause_kept (setRg_kept h1))
  split
  · exact runErr_kept (updRun_kept h3)
  · exact h3

theorem logStream_kept {s₀ s : State} {slot : Option Nat} {al : Nat} {src : Nat} {l : List Acc} (hK : Kept s₀ s) :
    Kept s₀ (logStream s slot al src l) := by
  unfold logStream
  repeat' first
    | with_reducible assumption
    | intro _
    | (extract_lets +onlyGivenNames x; first | (refine Kept.cut (s₀ := s₀) (x := x) ?_ ?_; rotate_left; intro _; clear_value x; rotate_left; unfold x; clear x) | clear_value x | skip)
    | with_reducible apply Kept.ite
    | with_reducible apply Kept.foldl
    | with_reducible apply logXlt_kept
    | split

theorem logStopped_kept {s₀ s : State} {k : Nat} {r : Run} (hK : Kept s₀ s) :
    Kept s₀ (logStopped s k r) := by
  unfold logStopped
  repeat' first
    | with_reducible assumption
    | intro _
    | (extract_lets +onlyGivenNames x; first | (refine Kept.cut (s₀ := s₀) (x := x) ?_ ?_; rotate_left; intro _; clear_value x; rotate_left; unfold x; clear x) | clear_value x | skip)
    | with_reducible apply Kept.ite
    | with_reducible apply Kept.foldl
    | with_reducible apply logStream_kept
    | split

theorem stopItem_kept {s₀ s : State} {k : Nat} (hK : Kept s₀ s) :
    Kept s₀ (stopItem s k) := by
  unfold stopItem
  repeat' first
    | with_reducible assumption
    | intro _
    | (extract_lets +onlyGivenNames x; first | (refine Kept.cut (s₀ := s₀) (x := x) ?_ ?_; rotate_left; intro _; clear_value x; rotate_left; unfold x; clear x) | clear_value x | skip)
    | with_reducible apply Kept.ite
    | with_reducible apply Kept.foldl
    | with_reducible apply logStopped_kept
    | with_reducible apply updRun_kept
    | with_reducible apply discardReaches_kept
    | with_reducible apply updTerrace_kept
    | (with_reducible refine set_got_lanes_saddles ?_; with_reducible assumption)
    | split

theorem itemFault_kept {s₀ s : State} {tg : Nat} {thr : Nat} {pc : Nat} {code : Nat} (hK : Kept s₀ s) :
    Kept s₀ (itemFault s tg thr pc code) := by
  unfold itemFault
  repeat' first
    | with_reducible assumption
    | intro _
    | (extract_lets +onlyGivenNames x; first | (refine Kept.cut (s₀ := s₀) (x := x) ?_ ?_; rotate_left; intro _; clear_value x; rotate_left; unfold x; clear x) | clear_value x | skip)
    | with_reducible apply Kept.ite
    | with_reducible apply rasAppend_kept
    | with_reducible apply updRun_kept
    | with_reducible apply stopItem_kept
    | split

theorem setThread_kept {s₀ s : State} {tg : Nat} {thr : Nat} {t : Thread} (hK : Kept s₀ s) :
    Kept s₀ (setThread s tg thr t) := by
  unfold setThread
  repeat' first
    | with_reducible assumption
    | intro _
    | (extract_lets +onlyGivenNames x; first | (refine Kept.cut (s₀ := s₀) (x := x) ?_ ?_; rotate_left; intro _; clear_value x; rotate_left; unfold x; clear x) | clear_value x | skip)
    | with_reducible apply Kept.ite
    | with_reducible apply updTerrace_kept
    | split

theorem updThread_kept {s₀ s : State} {tg : Nat} {thr : Nat} {f : Thread → Thread} (hK : Kept s₀ s) :
    Kept s₀ (updThread s tg thr f) := by
  unfold updThread
  repeat' first
    | with_reducible assumption
    | intro _
    | (extract_lets +onlyGivenNames x; first | (refine Kept.cut (s₀ := s₀) (x := x) ?_ ?_; rotate_left; intro _; clear_value x; rotate_left; unfold x; clear x) | clear_value x | skip)
    | with_reducible apply Kept.ite
    | with_reducible apply setThread_kept
    | split

end Sys2Proof.Machine
end

