-- ==== Sys2Proof/Laws/KeptAccess.lean ====
section
/-! SUPPORT. What the operations and meanings of Machine/Access.lean keep. -/

set_option linter.unreachableTactic false
set_option linter.unusedTactic false
set_option linter.unusedVariables false
set_option linter.tactic.unusedName false

namespace Sys2Proof.Machine

theorem exAnswer_kept {s₀ s : State} {st : ExStatus} {ws : List Nat} (hK : Kept s₀ s) :
    Kept s₀ (exAnswer s st ws) := by
  unfold exAnswer
  repeat' first
    | with_reducible assumption
    | intro _
    | (extract_lets +onlyGivenNames x; first | (refine Kept.cut (s₀ := s₀) (x := x) ?_ ?_; rotate_left; intro _; clear_value x; rotate_left; unfold x; clear x) | clear_value x | skip)
    | with_reducible apply Kept.ite
    | with_reducible apply exmas_kept
    | with_reducible apply emit_kept
    | split

theorem pfWrite_kept {s₀ s : State} {r : Requester} {off : Nat} {v : Nat} {f : State → State} (hK : Kept s₀ s) (h_f : ∀ x0, Kept s₀ x0 → Kept s₀ (f x0)) :
    Kept s₀ (pfWrite s r off v f) := by
  unfold pfWrite
  repeat' first
    | with_reducible assumption
    | intro _
    | (extract_lets +onlyGivenNames x; first | (refine Kept.cut (s₀ := s₀) (x := x) ?_ ?_; rotate_left; intro _; clear_value x; rotate_left; unfold x; clear x) | clear_value x | skip)
    | with_reducible apply Kept.ite
    | with_reducible apply exmas_kept
    | with_reducible apply logDropped_kept
    | with_reducible apply exAnswer_kept
    | with_reducible apply h_f
    | split

theorem pfWriteAlways_kept {s₀ s : State} {r : Requester} {f : State → State} (hK : Kept s₀ s) (h_f : ∀ x0, Kept s₀ x0 → Kept s₀ (f x0)) :
    Kept s₀ (pfWriteAlways s r f) := by
  unfold pfWriteAlways
  repeat' first
    | with_reducible assumption
    | intro _
    | (extract_lets +onlyGivenNames x; first | (refine Kept.cut (s₀ := s₀) (x := x) ?_ ?_; rotate_left; intro _; clear_value x; rotate_left; unfold x; clear x) | clear_value x | skip)
    | with_reducible apply Kept.ite
    | with_reducible apply exmas_kept
    | with_reducible apply exAnswer_kept
    | with_reducible apply h_f
    | split

theorem setMode_kept {s₀ s : State} {m : Mode} (hK : Kept s₀ s) :
    Kept s₀ (setMode s m) := by
  unfold setMode
  repeat' first
    | with_reducible assumption
    | intro _
    | (extract_lets +onlyGivenNames x; first | (refine Kept.cut (s₀ := s₀) (x := x) ?_ ?_; rotate_left; intro _; clear_value x; rotate_left; unfold x; clear x) | clear_value x | skip)
    | with_reducible apply Kept.ite
    | with_reducible apply intCause_kept
    | (with_reducible refine set_mode ?_; with_reducible assumption)
    | (with_reducible refine set_mode_taps_terraces ?_; with_reducible assumption)
    | split

theorem dropRuns_kept {s₀ s : State}  (hK : Kept s₀ s) :
    Kept s₀ (dropRuns s) := by
  unfold dropRuns
  repeat' first
    | with_reducible assumption
    | intro _
    | (extract_lets +onlyGivenNames x; first | (refine Kept.cut (s₀ := s₀) (x := x) ?_ ?_; rotate_left; intro _; clear_value x; rotate_left; unfold x; clear x) | clear_value x | skip)
    | with_reducible apply Kept.ite
    | with_reducible apply Kept.foldl
    | with_reducible apply stopItem_kept
    | (with_reducible refine set_runs_terraces_lats ?_; with_reducible assumption)
    | split

theorem enterFaulted_kept {s₀ s : State} {reason : Nat} (hK : Kept s₀ s) :
    Kept s₀ (enterFaulted s reason) := by
  unfold enterFaulted
  repeat' first
    | with_reducible assumption
    | intro _
    | (extract_lets +onlyGivenNames x; first | (refine Kept.cut (s₀ := s₀) (x := x) ?_ ?_; rotate_left; intro _; clear_value x; rotate_left; unfold x; clear x) | clear_value x | skip)
    | with_reducible apply Kept.ite
    | with_reducible apply dropRuns_kept
    | with_reducible apply setMode_kept
    | (with_reducible refine set_freason_resetting ?_; with_reducible assumption)
    | split

end Sys2Proof.Machine
end

