-- ==== Sys2Proof/Laws/KeptCanal.lean ====
section
/-! SUPPORT. What the operations and meanings of Machine/Canal.lean keep. -/

set_option linter.unreachableTactic false
set_option linter.unusedTactic false
set_option linter.unusedVariables false
set_option linter.tactic.unusedName false

namespace Sys2Proof.Machine

theorem sendVc2_kept {s₀ s : State} {n : Nat} {c : Contribution} (hK : Kept s₀ s) :
    Kept s₀ (sendVc2 s n c) := by
  unfold sendVc2
  repeat' first
    | with_reducible assumption
    | intro _
    | (extract_lets +onlyGivenNames x; first | (refine Kept.cut (s₀ := s₀) (x := x) ?_ ?_; rotate_left; intro _; clear_value x; rotate_left; unfold x; clear x) | clear_value x | skip)
    | with_reducible apply Kept.ite
    | (with_reducible refine set_saddles ?_; with_reducible assumption)
    | split

theorem injectOne_kept {s₀ s : State} {n : Nat} {i : Nat} (hK : Kept s₀ s) :
    Kept s₀ (injectOne s n i) := by
  unfold injectOne
  repeat' first
    | with_reducible assumption
    | intro _
    | (extract_lets +onlyGivenNames x; first | (refine Kept.cut (s₀ := s₀) (x := x) ?_ ?_; rotate_left; intro _; clear_value x; rotate_left; unfold x; clear x) | clear_value x | skip)
    | with_reducible apply Kept.ite
    | with_reducible apply Put.sent_kept
    | (with_reducible refine set_saddles ?_; with_reducible assumption)
    | split

theorem injectHeld_kept {s₀ s : State}  (hK : Kept s₀ s) :
    Kept s₀ (injectHeld s) := by
  unfold injectHeld
  repeat' first
    | with_reducible assumption
    | intro _
    | (extract_lets +onlyGivenNames x; first | (refine Kept.cut (s₀ := s₀) (x := x) ?_ ?_; rotate_left; intro _; clear_value x; rotate_left; unfold x; clear x) | clear_value x | skip)
    | with_reducible apply Kept.ite
    | with_reducible apply Kept.foldl
    | with_reducible apply injectOne_kept
    | split

theorem fenceArrivals_kept {s₀ s : State}  (hK : Kept s₀ s) :
    Kept s₀ (fenceArrivals s) := by
  unfold fenceArrivals
  repeat' first
    | with_reducible assumption
    | intro _
    | (extract_lets +onlyGivenNames x; first | (refine Kept.cut (s₀ := s₀) (x := x) ?_ ?_; rotate_left; intro _; clear_value x; rotate_left; unfold x; clear x) | clear_value x | skip)
    | with_reducible apply Kept.ite
    | with_reducible apply injectHeld_kept
    | (with_reducible refine set_canalAlt_canalFence ?_; with_reducible assumption)
    | split

theorem fenceRoutes_kept {s₀ s : State} {d : Nat} (hK : Kept s₀ s) :
    Kept s₀ (fenceRoutes s d) := by
  unfold fenceRoutes
  repeat' first
    | with_reducible assumption
    | intro _
    | (extract_lets +onlyGivenNames x; first | (refine Kept.cut (s₀ := s₀) (x := x) ?_ ?_; rotate_left; intro _; clear_value x; rotate_left; unfold x; clear x) | clear_value x | skip)
    | with_reducible apply Kept.ite
    | with_reducible apply fenceArrivals_kept
    | (with_reducible refine set_canalFence ?_; with_reducible assumption)
    | split

end Sys2Proof.Machine
end

