-- ==== Sys2Proof/Laws/KeptTurnout.lean ====
section
/-! SUPPORT. What the operations and meanings of Machine/Turnout.lean keep. -/

set_option linter.unreachableTactic false
set_option linter.unusedTactic false
set_option linter.unusedVariables false
set_option linter.tactic.unusedName false

namespace Sys2Proof.Machine

theorem turnStat_kept {s₀ s : State} {off : Nat} {f : Nat} {r : Nat} (hK : Kept s₀ s) :
    Kept s₀ (turnStat s off f r) := by
  unfold turnStat
  repeat' first
    | with_reducible assumption
    | intro _
    | (extract_lets +onlyGivenNames x; first | (refine Kept.cut (s₀ := s₀) (x := x) ?_ ?_; rotate_left; intro _; clear_value x; rotate_left; unfold x; clear x) | clear_value x | skip)
    | with_reducible apply Kept.ite
    | with_reducible apply satAdd_kept
    | split

theorem passArb_kept {s₀ s : State} {n : Nat} {port : Nat} {reqs : List (Nat × ArbReq)} (hK : Kept s₀ s) :
    Kept s₀ (passArb s n port reqs) := by
  unfold passArb
  repeat' first
    | with_reducible assumption
    | intro _
    | (extract_lets +onlyGivenNames x; first | (refine Kept.cut (s₀ := s₀) (x := x) ?_ ?_; rotate_left; intro _; clear_value x; rotate_left; unfold x; clear x) | clear_value x | skip)
    | with_reducible apply Kept.ite
    | with_reducible apply turnStat_kept
    | with_reducible apply updSaddle_kept
    | split

theorem passSkv_kept {s₀ s : State} {k : Nat} {reqs : Map ArbReq} (hK : Kept s₀ s) :
    KeptP s₀ (passSkv s k reqs) := by
  unfold passSkv
  repeat' first
    | with_reducible assumption
    | intro _
    | (extract_lets +onlyGivenNames x; first | (refine Kept.cut (s₀ := s₀) (x := x) ?_ ?_; rotate_left; intro _; clear_value x; rotate_left; unfold x; clear x) | (refine KeptP.cut (s₀ := s₀) (x := x) ?_ ?_; rotate_left; intro _; clear_value x; rotate_left; unfold x; clear x) | clear_value x | skip)
    | with_reducible apply Kept.ite
    | with_reducible apply KeptP.ite
    | (with_reducible refine KeptP.snd ?_; with_reducible assumption)
    | with_reducible exact KeptP.val ‹_›
    | with_reducible apply turnStat_kept
    | (with_reducible refine set_skvArbs ?_; first | with_reducible assumption | with_reducible exact KeptP.val ‹_› | (with_reducible refine KeptP.of_eq ?_ ‹_›; first | with_reducible assumption))
    | (with_reducible refine KeptP.of_eq ?_ ‹_›)
    | split
    | with_reducible apply KeptP.mk

end Sys2Proof.Machine
end

