-- ==== Sys2Proof/Laws/KeptLink.lean ====
section
/-! SUPPORT. What the operations and meanings of Machine/Link.lean keep. -/

set_option linter.unreachableTactic false
set_option linter.unusedTactic false
set_option linter.unusedVariables false
set_option linter.tactic.unusedName false

namespace Sys2Proof.Machine

theorem updPort_kept {s₀ s : State} {k : Nat} {f : SkvPort → SkvPort} (hK : Kept s₀ s) :
    Kept s₀ (updPort s k f) := by
  unfold updPort
  repeat' first
    | with_reducible assumption
    | intro _
    | (extract_lets +onlyGivenNames x; first | (refine Kept.cut (s₀ := s₀) (x := x) ?_ ?_; rotate_left; intro _; clear_value x; rotate_left; unfold x; clear x) | clear_value x | skip)
    | with_reducible apply Kept.ite
    | (with_reducible refine set_skv ?_; with_reducible assumption)
    | split

theorem sendFlit_kept {s₀ s : State} {k : Nat} {f : BitVec 16 → List Nat → List Byte} (hK : Kept s₀ s) :
    Kept s₀ (sendFlit s k f) := by
  unfold sendFlit
  repeat' first
    | with_reducible assumption
    | intro _
    | (extract_lets +onlyGivenNames x; first | (refine Kept.cut (s₀ := s₀) (x := x) ?_ ?_; rotate_left; intro _; clear_value x; rotate_left; unfold x; clear x) | clear_value x | skip)
    | with_reducible apply Kept.ite
    | with_reducible apply updPort_kept
    | with_reducible apply emit_kept
    | split

theorem sendBare_kept {s₀ s : State} {k : Nat} {ftype : Nat} (hK : Kept s₀ s) :
    Kept s₀ (sendBare s k ftype) := by
  unfold sendBare
  repeat' first
    | with_reducible assumption
    | intro _
    | (extract_lets +onlyGivenNames x; first | (refine Kept.cut (s₀ := s₀) (x := x) ?_ ?_; rotate_left; intro _; clear_value x; rotate_left; unfold x; clear x) | clear_value x | skip)
    | with_reducible apply Kept.ite
    | with_reducible apply sendFlit_kept
    | split

theorem sendPacket_kept {s₀ s : State} {k : Nat} {p : SkvPacket} (hK : Kept s₀ s) :
    Kept s₀ (sendPacket s k p) := by
  unfold sendPacket
  repeat' first
    | with_reducible assumption
    | intro _
    | (extract_lets +onlyGivenNames x; first | (refine Kept.cut (s₀ := s₀) (x := x) ?_ ?_; rotate_left; intro _; clear_value x; rotate_left; unfold x; clear x) | clear_value x | skip)
    | with_reducible apply Kept.ite
    | with_reducible apply Kept.foldl
    | with_reducible apply updPort_kept
    | with_reducible apply Put.sent_kept
    | with_reducible apply sendFlit_kept
    | with_reducible apply emit_kept
    | split

theorem drainOne_kept {s₀ s : State} {k : Nat} (hK : Kept s₀ s) :
    Kept s₀ (drainOne s k) := by
  unfold drainOne
  repeat' first
    | with_reducible assumption
    | intro _
    | (extract_lets +onlyGivenNames x; first | (refine Kept.cut (s₀ := s₀) (x := x) ?_ ?_; rotate_left; intro _; clear_value x; rotate_left; unfold x; clear x) | (refine KeptP.cut (s₀ := s₀) (x := x) ?_ ?_; rotate_left; intro _; clear_value x; rotate_left; unfold x; clear x) | clear_value x | skip)
    | with_reducible apply Kept.ite
    | with_reducible apply KeptP.ite
    | (with_reducible refine KeptP.snd ?_; with_reducible assumption)
    | with_reducible exact KeptP.val ‹_›
    | with_reducible refine KeptP.snd (passSkv_kept ?_)
    | with_reducible refine KeptP.snd (KeptP.foldl ?_ ?_)
    | with_reducible apply Kept.foldl
    | with_reducible apply KeptP.foldl
    | with_reducible apply sendPacket_kept
    | with_reducible apply passSkv_kept
    | (with_reducible refine KeptP.of_eq ?_ ‹_›)
    | split
    | with_reducible apply KeptP.mk

theorem drainPort_kept {s₀ s : State} {k : Nat} (hK : Kept s₀ s) :
    Kept s₀ (drainPort s k) := by
  unfold drainPort
  repeat' first
    | with_reducible assumption
    | intro _
    | (extract_lets +onlyGivenNames x; first | (refine Kept.cut (s₀ := s₀) (x := x) ?_ ?_; rotate_left; intro _; clear_value x; rotate_left; unfold x; clear x) | clear_value x | skip)
    | with_reducible apply Kept.ite
    | with_reducible apply Kept.foldl
    | with_reducible apply drainOne_kept
    | split

theorem portSend_kept {s₀ s : State} {k : Nat} {p : SkvPacket} (hK : Kept s₀ s) :
    Kept s₀ (portSend s k p) := by
  unfold portSend
  repeat' first
    | with_reducible assumption
    | intro _
    | (extract_lets +onlyGivenNames x; first | (refine Kept.cut (s₀ := s₀) (x := x) ?_ ?_; rotate_left; intro _; clear_value x; rotate_left; unfold x; clear x) | clear_value x | skip)
    | with_reducible apply Kept.ite
    | with_reducible apply updPort_kept
    | with_reducible apply drainPort_kept
    | split

theorem skvOut_kept {s₀ s : State} {p : SkvPacket} (hK : Kept s₀ s) :
    Kept s₀ (skvOut s p) := by
  unfold skvOut
  repeat' first
    | with_reducible assumption
    | intro _
    | (extract_lets +onlyGivenNames x; first | (refine Kept.cut (s₀ := s₀) (x := x) ?_ ?_; rotate_left; intro _; clear_value x; rotate_left; unfold x; clear x) | clear_value x | skip)
    | with_reducible apply Kept.ite
    | with_reducible apply portSend_kept
    | split

theorem updE2e_kept {s₀ s : State} {dest : Nat} {ch : Nat} {f : E2e → E2e} (hK : Kept s₀ s) :
    Kept s₀ (updE2e s dest ch f) := by
  unfold updE2e
  repeat' first
    | with_reducible assumption
    | intro _
    | (extract_lets +onlyGivenNames x; first | (refine Kept.cut (s₀ := s₀) (x := x) ?_ ?_; rotate_left; intro _; clear_value x; rotate_left; unfold x; clear x) | clear_value x | skip)
    | with_reducible apply Kept.ite
    | (with_reducible refine set_e2e ?_; with_reducible assumption)
    | split

theorem skvNumber_kept {s₀ s : State} {origin : Option Origin} {p : SkvPacket} (hK : Kept s₀ s) :
    Kept s₀ (skvNumber s origin p) := by
  unfold skvNumber
  repeat' first
    | with_reducible assumption
    | intro _
    | (extract_lets +onlyGivenNames x; first | (refine Kept.cut (s₀ := s₀) (x := x) ?_ ?_; rotate_left; intro _; clear_value x; rotate_left; unfold x; clear x) | clear_value x | skip)
    | with_reducible apply Kept.ite
    | with_reducible apply updE2e_kept
    | with_reducible apply skvOut_kept
    | split

theorem skvSend_kept {s₀ s : State} {origin : Option Origin} {p : SkvPacket} (hK : Kept s₀ s) :
    Kept s₀ (skvSend s origin p) := by
  unfold skvSend
  repeat' first
    | with_reducible assumption
    | intro _
    | (extract_lets +onlyGivenNames x; first | (refine Kept.cut (s₀ := s₀) (x := x) ?_ ?_; rotate_left; intro _; clear_value x; rotate_left; unfold x; clear x) | clear_value x | skip)
    | with_reducible apply Kept.ite
    | with_reducible apply skvNumber_kept
    | (with_reducible refine set_skvWait ?_; with_reducible assumption)
    | split

theorem skvRetry_kept {s₀ s : State}  (hK : Kept s₀ s) :
    Kept s₀ (skvRetry s) := by
  unfold skvRetry
  repeat' first
    | with_reducible assumption
    | intro _
    | (extract_lets +onlyGivenNames x; first | (refine Kept.cut (s₀ := s₀) (x := x) ?_ ?_; rotate_left; intro _; clear_value x; rotate_left; unfold x; clear x) | clear_value x | skip)
    | with_reducible apply Kept.ite
    | with_reducible apply Kept.foldl
    | with_reducible apply skvSend_kept
    | (with_reducible refine set_skvWait ?_; with_reducible assumption)
    | split

theorem tagThread_kept {s₀ s : State} {tg : Nat} {thr : Nat} (hK : Kept s₀ s) :
    Kept s₀ (tagThread s tg thr) := by
  unfold tagThread
  repeat' first
    | with_reducible assumption
    | intro _
    | (extract_lets +onlyGivenNames x; first | (refine Kept.cut (s₀ := s₀) (x := x) ?_ ?_; rotate_left; intro _; clear_value x; rotate_left; unfold x; clear x) | clear_value x | skip)
    | with_reducible apply Kept.ite
    | with_reducible apply updTerrace_kept
    | (with_reducible refine set_skvReqs ?_; with_reducible assumption)
    | split

theorem peerRequest_kept {s₀ s : State} {u : PeerUse} {wr : Bool} {va : Nat} {addr : Nat} {len : Nat} {data : List Byte} {bad : List Nat} (hK : Kept s₀ s) :
    Kept s₀ (peerRequest s u wr va addr len data bad) := by
  unfold peerRequest
  repeat' first
    | with_reducible assumption
    | intro _
    | (extract_lets +onlyGivenNames x; first | (refine Kept.cut (s₀ := s₀) (x := x) ?_ ?_; rotate_left; intro _; clear_value x; rotate_left; unfold x; clear x) | clear_value x | skip)
    | with_reducible apply Kept.ite
    | with_reducible apply skvSend_kept
    | (with_reducible refine set_skvReqs ?_; with_reducible assumption)
    | split

end Sys2Proof.Machine
end

