-- ==== Sys2Proof/Laws/KeptReservoir.lean ====
section
/-! SUPPORT. What the operations and meanings of Machine/Reservoir.lean keep. -/

set_option linter.unreachableTactic false
set_option linter.unusedTactic false
set_option linter.unusedVariables false
set_option linter.tactic.unusedName false

namespace Sys2Proof.Machine

theorem rsvCount_kept {s₀ s : State} {n : Nat} {x : RLine} {m : BitVec 4} {wr : Bool} (hK : Kept s₀ s) :
    Kept s₀ (rsvCount s n x m wr) := by
  unfold rsvCount
  repeat' first
    | with_reducible assumption
    | intro _
    | (extract_lets +onlyGivenNames x; first | (refine Kept.cut (s₀ := s₀) (x := x) ?_ ?_; rotate_left; intro _; clear_value x; rotate_left; unfold x; clear x) | clear_value x | skip)
    | with_reducible apply Kept.ite
    | with_reducible apply satAdd_kept
    | split

theorem rsvLine_kept {s₀  : State} {wr : Bool} {st : State × Nat} {e : Nat × BitVec 4} (h_st : KeptQ s₀ st) :
    KeptQ s₀ (rsvLine wr st e) := by
  unfold rsvLine
  repeat' first
    | with_reducible assumption
    | intro _
    | (extract_lets +onlyGivenNames x; first | (refine Kept.cut (s₀ := s₀) (x := x) ?_ ?_; rotate_left; intro _; clear_value x; rotate_left; unfold x; clear x) | (refine KeptQ.cut (s₀ := s₀) (x := x) ?_ ?_; rotate_left; intro _; clear_value x; rotate_left; unfold x; clear x) | clear_value x | skip)
    | with_reducible apply Kept.ite
    | with_reducible apply KeptQ.ite
    | (with_reducible refine KeptQ.fst ?_; with_reducible assumption)
    | with_reducible exact KeptQ.val ‹_›
    | with_reducible apply updSaddle_kept
    | with_reducible apply rsvCount_kept
    | (with_reducible refine KeptQ.of_eq ?_ ‹_›)
    | with_reducible apply h_st
    | split
    | with_reducible apply KeptQ.mk

theorem rsvAccess_kept {s₀ s : State} {a : Nat} {n : Nat} {wr : Bool} (hK : Kept s₀ s) :
    KeptQ s₀ (rsvAccess s a n wr) := by
  unfold rsvAccess
  repeat' first
    | with_reducible assumption
    | intro _
    | (extract_lets +onlyGivenNames x; first | (refine Kept.cut (s₀ := s₀) (x := x) ?_ ?_; rotate_left; intro _; clear_value x; rotate_left; unfold x; clear x) | (refine KeptQ.cut (s₀ := s₀) (x := x) ?_ ?_; rotate_left; intro _; clear_value x; rotate_left; unfold x; clear x) | clear_value x | skip)
    | with_reducible apply Kept.ite
    | with_reducible apply KeptQ.ite
    | (with_reducible refine KeptQ.fst ?_; with_reducible assumption)
    | with_reducible exact KeptQ.val ‹_›
    | with_reducible refine KeptQ.fst (rsvLine_kept ?_)
    | with_reducible refine KeptQ.fst (KeptQ.foldl ?_ ?_)
    | with_reducible apply Kept.foldl
    | with_reducible apply KeptQ.foldl
    | with_reducible apply rsvLine_kept
    | (with_reducible refine KeptQ.of_eq ?_ ‹_›)
    | split
    | with_reducible apply KeptQ.mk

theorem prefetch_kept {s₀ s : State} {lines : List Nat} (hK : Kept s₀ s) :
    Kept s₀ (prefetch s lines) := by
  unfold prefetch
  repeat' first
    | with_reducible assumption
    | intro _
    | (extract_lets +onlyGivenNames x; first | (refine Kept.cut (s₀ := s₀) (x := x) ?_ ?_; rotate_left; intro _; clear_value x; rotate_left; unfold x; clear x) | clear_value x | skip)
    | with_reducible apply Kept.ite
    | with_reducible apply Kept.foldl
    | with_reducible apply satAdd_kept
    | with_reducible apply updSaddle_kept
    | split

end Sys2Proof.Machine
end

