-- ==== Sys2Proof/Laws/KeptPass.lean ====
section
/-! SUPPORT. What the operations and meanings of Machine/Pass.lean keep. -/

set_option linter.unreachableTactic false
set_option linter.unusedTactic false
set_option linter.unusedVariables false
set_option linter.tactic.unusedName false

namespace Sys2Proof.Machine

theorem portCharge_kept {s₀ s : State} {n : Nat} {p : Nat} {bytes : Nat} (hK : Kept s₀ s) :
    Kept s₀ (portCharge s n p bytes) := by
  unfold portCharge
  repeat' first
    | with_reducible assumption
    | intro _
    | (extract_lets +onlyGivenNames x; first | (refine Kept.cut (s₀ := s₀) (x := x) ?_ ?_; rotate_left; intro _; clear_value x; rotate_left; unfold x; clear x) | clear_value x | skip)
    | with_reducible apply Kept.ite
    | with_reducible apply updSaddle_kept
    | split

theorem boundPass_kept {s₀ s : State} {q : Path} {a : Nat} {n : Nat} {wr : Bool} (hK : Kept s₀ s) :
    KeptP s₀ (boundPass s q a n wr) := by
  unfold boundPass
  repeat' first
    | with_reducible assumption
    | intro _
    | (extract_lets +onlyGivenNames x; first | (refine Kept.cut (s₀ := s₀) (x := x) ?_ ?_; rotate_left; intro _; clear_value x; rotate_left; unfold x; clear x) | (refine KeptP.cut (s₀ := s₀) (x := x) ?_ ?_; rotate_left; intro _; clear_value x; rotate_left; unfold x; clear x) | clear_value x | skip)
    | with_reducible apply Kept.ite
    | with_reducible apply KeptP.ite
    | (with_reducible refine KeptP.snd ?_; with_reducible assumption)
    | with_reducible exact KeptP.val ‹_›
    | with_reducible apply satAdd_kept
    | (with_reducible refine set_rsvs ?_; first | with_reducible assumption | with_reducible exact KeptP.val ‹_› | (with_reducible refine KeptP.of_eq ?_ ‹_›; first | with_reducible assumption))
    | (with_reducible refine KeptP.of_eq ?_ ‹_›)
    | split
    | with_reducible apply KeptP.mk

theorem passRsvPort_kept {s₀ s : State} {n : Nat} {q : Path} {cls : Nat} {a : Nat} {bytes : Nat} (hK : Kept s₀ s) :
    Kept s₀ (passRsvPort s n q cls a bytes) := by
  unfold passRsvPort
  repeat' first
    | with_reducible assumption
    | intro _
    | (extract_lets +onlyGivenNames x; first | (refine Kept.cut (s₀ := s₀) (x := x) ?_ ?_; rotate_left; intro _; clear_value x; rotate_left; unfold x; clear x) | clear_value x | skip)
    | with_reducible apply Kept.ite
    | with_reducible apply passArb_kept
    | split

theorem passStacks_kept {s₀ s : State} {n : Nat} {cls : Nat} {exempt : Bool} {ls : List (Nat × Nat)} (hK : Kept s₀ s) :
    Kept s₀ (passStacks s n cls exempt ls) := by
  unfold passStacks
  repeat' first
    | with_reducible assumption
    | intro _
    | (extract_lets +onlyGivenNames x; first | (refine Kept.cut (s₀ := s₀) (x := x) ?_ ?_; rotate_left; intro _; clear_value x; rotate_left; unfold x; clear x) | clear_value x | skip)
    | with_reducible apply Kept.ite
    | with_reducible apply Kept.foldl
    | with_reducible apply passArb_kept
    | split

theorem countUnc_kept {s₀ s : State} {n : Nat} {k : Nat} (hK : Kept s₀ s) :
    Kept s₀ (countUnc s n k) := by
  unfold countUnc
  repeat' first
    | with_reducible assumption
    | intro _
    | (extract_lets +onlyGivenNames x; first | (refine Kept.cut (s₀ := s₀) (x := x) ?_ ?_; rotate_left; intro _; clear_value x; rotate_left; unfold x; clear x) | clear_value x | skip)
    | with_reducible apply Kept.ite
    | with_reducible apply satAdd_kept
    | split

theorem rebuildPass_kept {s₀ s : State} {n : Nat} {k : Nat} {beats : Nat} (hK : Kept s₀ s) :
    Kept s₀ (rebuildPass s n k beats) := by
  unfold rebuildPass
  repeat' first
    | with_reducible assumption
    | intro _
    | (extract_lets +onlyGivenNames x; first | (refine Kept.cut (s₀ := s₀) (x := x) ?_ ?_; rotate_left; intro _; clear_value x; rotate_left; unfold x; clear x) | clear_value x | skip)
    | with_reducible apply Kept.ite
    | with_reducible apply Kept.foldl
    | with_reducible apply passArb_kept
    | split

theorem rebuildUnit_kept {s₀ s : State} {n : Nat} {e : MemErrs} {gone : Bool} {secs : List Nat} (hK : Kept s₀ s) :
    Kept s₀ (rebuildUnit s n e gone secs) := by
  unfold rebuildUnit
  extract_lets k s1 lost s2
  have h1 : Kept s₀ s1 := Kept.ite hK (rebuildPass_kept (Kept.foldl hK (fun _ _ h => countUnc_kept h)))
  have h2 : Kept s₀ s2 := set_hbmPoison h1 (fun hl => rising_sectorsBad _ _ hl)
  exact Kept.ite (satAdd_kept h2) h2

theorem fetchUnits_kept {s₀ s : State} {n : Nat} {e : MemErrs} {miss : List (Nat × BitVec 4)} (hK : Kept s₀ s) :
    Kept s₀ (fetchUnits s n e miss) := by
  unfold fetchUnits
  repeat' first
    | with_reducible assumption
    | intro _
    | (extract_lets +onlyGivenNames x; first | (refine Kept.cut (s₀ := s₀) (x := x) ?_ ?_; rotate_left; intro _; clear_value x; rotate_left; unfold x; clear x) | clear_value x | skip)
    | with_reducible apply Kept.ite
    | with_reducible apply Kept.foldl
    | with_reducible apply rebuildUnit_kept
    | with_reducible apply countUnc_kept
    | with_reducible apply satAdd_kept
    | split

theorem rsvErrs_kept {s₀ s : State} {n a len : Nat} {secs : List Nat} (hK : Kept s₀ s) : Kept s₀ (rsvErrs s n a len secs) := by
  unfold rsvErrs
  refine Kept.foldl hK (fun t e ht => ?_)
  split
  · exact ht
  · extract_lets x bad clean dirty s1
    have h1 : Kept s₀ s1 := set_hbmPoison ht (fun hl => rising_sectorsBad _ _ hl)
    exact Kept.ite h1 (updSaddle_kept h1)

theorem expanderErrs_kept {s₀ s : State} {secs : List Nat} (hK : Kept s₀ s) : Kept s₀ (expanderErrs s secs) := by
  unfold expanderErrs
  exact Kept.ite hK (set_far hK (fun hm => Mem.wf_poison _ _ hm (rising_sectorsBad _ _ (Mem.rising_poison _ hm))))

theorem farCount_kept {s₀ s : State} {x : Nat} (hK : Kept s₀ s) :
    Kept s₀ (farCount s x) := by
  unfold farCount
  repeat' first
    | with_reducible assumption
    | intro _
    | (extract_lets +onlyGivenNames x; first | (refine Kept.cut (s₀ := s₀) (x := x) ?_ ?_; rotate_left; intro _; clear_value x; rotate_left; unfold x; clear x) | (refine kept_cut_fun (s₀ := s₀) (x := x) ?_ ?_; rotate_left; intro _; clear_value x; rotate_left; unfold x; clear x) | (refine kept_cut_fun2 (s₀ := s₀) (x := x) ?_ ?_; rotate_left; intro _; clear_value x; rotate_left; unfold x; clear x) | (refine kept_cut_fun3 (s₀ := s₀) (x := x) ?_ ?_; rotate_left; intro _; clear_value x; rotate_left; unfold x; clear x) | (refine kept_cut_val (s₀ := s₀) (x := x) ?_ ?_; rotate_left; intro _; clear_value x; rotate_left; unfold x; clear x) | clear_value x | skip)
    | with_reducible apply Kept.ite
    | with_reducible apply satAdd_kept
    | with_reducible apply_assumption -exfalso -symm
    | split

theorem fetchAhead_kept {s₀ s : State} {n : Nat} {ls : List Nat} (hK : Kept s₀ s) :
    Kept s₀ (fetchAhead s n ls) := by
  unfold fetchAhead
  repeat' first
    | with_reducible assumption
    | intro _
    | (extract_lets +onlyGivenNames x; first | (refine Kept.cut (s₀ := s₀) (x := x) ?_ ?_; rotate_left; intro _; clear_value x; rotate_left; unfold x; clear x) | clear_value x | skip)
    | with_reducible apply Kept.ite
    | with_reducible apply Kept.foldl
    | with_reducible apply farCount_kept
    | with_reducible apply passStacks_kept
    | with_reducible apply prefetch_kept
    | with_reducible apply fetchUnits_kept
    | split

theorem pfFetch_kept {s₀ s : State} {n : Nat} {k : Nat} {al : Nat} {a : Nat} {p : Prefetcher} (hK : Kept s₀ s) :
    Kept s₀ (pfFetch s n k al a p) := by
  unfold pfFetch
  repeat' first
    | with_reducible assumption
    | intro _
    | (extract_lets +onlyGivenNames x; first | (refine Kept.cut (s₀ := s₀) (x := x) ?_ ?_; rotate_left; intro _; clear_value x; rotate_left; unfold x; clear x) | clear_value x | skip)
    | with_reducible apply Kept.ite
    | with_reducible apply fetchAhead_kept
    | with_reducible apply updSaddle_kept
    | split

theorem trainPf_kept {s₀ s : State} {n : Nat} {st : Nat} {al : Nat} {a : Nat} (hK : Kept s₀ s) :
    Kept s₀ (trainPf s n st al a) := by
  unfold trainPf
  repeat' first
    | with_reducible assumption
    | intro _
    | (extract_lets +onlyGivenNames x; first | (refine Kept.cut (s₀ := s₀) (x := x) ?_ ?_; rotate_left; intro _; clear_value x; rotate_left; unfold x; clear x) | clear_value x | skip)
    | with_reducible apply Kept.ite
    | with_reducible apply updSaddle_kept
    | with_reducible apply pfFetch_kept
    | split

theorem pfHits_kept {s₀ s : State} {n : Nat} {st : Option Nat} {al : Nat} {a : Nat} {ls : List Nat} (hK : Kept s₀ s) :
    Kept s₀ (pfHits s n st al a ls) := by
  unfold pfHits
  repeat' first
    | with_reducible assumption
    | intro _
    | (extract_lets +onlyGivenNames x; first | (refine Kept.cut (s₀ := s₀) (x := x) ?_ ?_; rotate_left; intro _; clear_value x; rotate_left; unfold x; clear x) | clear_value x | skip)
    | with_reducible apply Kept.ite
    | with_reducible apply updSaddle_kept
    | with_reducible apply pfFetch_kept
    | split

theorem writeBacks_kept {s₀ s : State} {n : Nat} {wb : Nat} {line : Nat} (hK : Kept s₀ s) :
    Kept s₀ (writeBacks s n wb line) := by
  unfold writeBacks
  repeat' first
    | with_reducible assumption
    | intro _
    | (extract_lets +onlyGivenNames x; first | (refine Kept.cut (s₀ := s₀) (x := x) ?_ ?_; rotate_left; intro _; clear_value x; rotate_left; unfold x; clear x) | clear_value x | skip)
    | with_reducible apply Kept.ite
    | with_reducible apply passStacks_kept
    | split

theorem chargePorts_kept {s₀ s : State} {l : List (Nat × Nat × Nat)} (hK : Kept s₀ s) :
    Kept s₀ (chargePorts s l) := by
  unfold chargePorts
  repeat' first
    | with_reducible assumption
    | intro _
    | (extract_lets +onlyGivenNames x; first | (refine Kept.cut (s₀ := s₀) (x := x) ?_ ?_; rotate_left; intro _; clear_value x; rotate_left; unfold x; clear x) | clear_value x | skip)
    | with_reducible apply Kept.ite
    | with_reducible apply Kept.foldl
    | with_reducible apply portCharge_kept
    | split

theorem windowPass_kept {s₀ s : State} {q : Path} {a : Nat} {n : Nat} {wr : Bool} {e : MemErrs} (hK : Kept s₀ s) :
    KeptP s₀ (windowPass s q a n wr e) := by
  unfold windowPass
  repeat' first
    | with_reducible assumption
    | intro _
    | (extract_lets +onlyGivenNames x; first | (refine Kept.cut (s₀ := s₀) (x := x) ?_ ?_; rotate_left; intro _; clear_value x; rotate_left; unfold x; clear x) | (refine KeptP.cut (s₀ := s₀) (x := x) ?_ ?_; rotate_left; intro _; clear_value x; rotate_left; unfold x; clear x) | (refine KeptQ.cut (s₀ := s₀) (x := x) ?_ ?_; rotate_left; intro _; clear_value x; rotate_left; unfold x; clear x) | clear_value x | skip)
    | with_reducible apply Kept.ite
    | with_reducible apply KeptP.ite
    | (with_reducible refine KeptP.snd ?_; with_reducible assumption)
    | with_reducible exact KeptP.val ‹_›
    | with_reducible refine KeptP.snd (boundPass_kept ?_)
    | with_reducible refine KeptP.snd (KeptP.foldl ?_ ?_)
    | with_reducible apply KeptQ.ite
    | (with_reducible refine KeptQ.fst ?_; with_reducible assumption)
    | with_reducible exact KeptQ.val ‹_›
    | with_reducible refine KeptQ.fst (rsvAccess_kept ?_)
    | with_reducible refine KeptQ.fst (KeptQ.foldl ?_ ?_)
    | with_reducible apply Kept.foldl
    | with_reducible apply KeptP.foldl
    | with_reducible apply KeptQ.foldl
    | with_reducible apply writeBacks_kept
    | with_reducible apply chargePorts_kept
    | with_reducible apply boundPass_kept
    | with_reducible apply farCount_kept
    | with_reducible apply expanderErrs_kept
    | with_reducible apply passRsvPort_kept
    | with_reducible apply trainPf_kept
    | with_reducible apply pfHits_kept
    | with_reducible apply passStacks_kept
    | with_reducible apply fetchUnits_kept
    | with_reducible apply rsvAccess_kept
    | with_reducible apply rsvErrs_kept
    | (with_reducible refine KeptP.of_eq ?_ ‹_›)
    | (with_reducible refine KeptQ.of_eq ?_ ‹_›)
    | split
    | with_reducible apply KeptP.mk
    | with_reducible apply KeptQ.mk

theorem saddlePass_kept {s₀ s : State} {q : Path} {a : Nat} {n : Nat} {wr : Bool} {e : MemErrs} (hK : Kept s₀ s) :
    KeptP s₀ (saddlePass s q a n wr e) := by
  unfold saddlePass
  repeat' first
    | with_reducible assumption
    | intro _
    | (extract_lets +onlyGivenNames x; first | (refine Kept.cut (s₀ := s₀) (x := x) ?_ ?_; rotate_left; intro _; clear_value x; rotate_left; unfold x; clear x) | (refine KeptP.cut (s₀ := s₀) (x := x) ?_ ?_; rotate_left; intro _; clear_value x; rotate_left; unfold x; clear x) | clear_value x | skip)
    | with_reducible apply Kept.ite
    | with_reducible apply KeptP.ite
    | (with_reducible refine KeptP.snd ?_; with_reducible assumption)
    | with_reducible exact KeptP.val ‹_›
    | with_reducible refine KeptP.snd (windowPass_kept ?_)
    | with_reducible refine KeptP.snd (KeptP.foldl ?_ ?_)
    | with_reducible apply Kept.foldl
    | with_reducible apply KeptP.foldl
    | with_reducible apply windowPass_kept
    | (with_reducible refine KeptP.of_eq ?_ ‹_›)
    | split
    | with_reducible apply KeptP.mk

end Sys2Proof.Machine
end

