-- ==== Sys2Proof/Laws/KeptTranslate.lean ====
section
/-! SUPPORT. What the operations and meanings of Machine/Translate.lean keep. -/

set_option linter.unreachableTactic false
set_option linter.unusedTactic false
set_option linter.unusedVariables false
set_option linter.tactic.unusedName false

namespace Sys2Proof.Machine

theorem cacheLeaf_kept {s₀ s : State} {w : Who} {al : Nat} {va : Nat} (hK : Kept s₀ s) :
    Kept s₀ (cacheLeaf s w al va) := by
  unfold cacheLeaf
  repeat' first
    | with_reducible assumption
    | intro _
    | (extract_lets +onlyGivenNames x; first | (refine Kept.cut (s₀ := s₀) (x := x) ?_ ?_; rotate_left; intro _; clear_value x; rotate_left; unfold x; clear x) | (refine kept_cut_fun (s₀ := s₀) (x := x) ?_ ?_; rotate_left; intro _; clear_value x; rotate_left; unfold x; clear x) | (refine kept_cut_fun2 (s₀ := s₀) (x := x) ?_ ?_; rotate_left; intro _; clear_value x; rotate_left; unfold x; clear x) | (refine kept_cut_fun3 (s₀ := s₀) (x := x) ?_ ?_; rotate_left; intro _; clear_value x; rotate_left; unfold x; clear x) | (refine kept_cut_val (s₀ := s₀) (x := x) ?_ ?_; rotate_left; intro _; clear_value x; rotate_left; unfold x; clear x) | clear_value x | skip)
    | with_reducible apply Kept.ite
    | with_reducible apply updTerrace_kept
    | with_reducible apply updSaddle_kept
    | with_reducible apply_assumption -exfalso -symm
    | split

theorem hostWrites_kept {s₀ s : State} {hd : Nat} {fn : Nat} {a : Nat} {bs : List PByte} (hK : Kept s₀ s) :
    Kept s₀ (hostWrites s hd fn a bs) := by
  unfold hostWrites
  repeat' first
    | with_reducible assumption
    | intro _
    | (extract_lets +onlyGivenNames x; first | (refine Kept.cut (s₀ := s₀) (x := x) ?_ ?_; rotate_left; intro _; clear_value x; rotate_left; unfold x; clear x) | clear_value x | skip)
    | with_reducible apply Kept.ite
    | with_reducible apply Kept.foldl
    | with_reducible apply emit_kept
    | split

theorem sendWrite_kept {s₀ s : State} {w : Who} {al : Nat} {r : Nat × Nat × List PByte} (hK : Kept s₀ s) :
    Kept s₀ (sendWrite s w al r) := by
  unfold sendWrite
  repeat' first
    | with_reducible assumption
    | intro _
    | (extract_lets +onlyGivenNames x; first | (refine Kept.cut (s₀ := s₀) (x := x) ?_ ?_; rotate_left; intro _; clear_value x; rotate_left; unfold x; clear x) | clear_value x | skip)
    | with_reducible apply Kept.ite
    | with_reducible apply Kept.foldl
    | with_reducible apply peerRequest_kept
    | with_reducible apply updTerrace_kept
    | with_reducible apply hostWrites_kept
    | split

theorem vWriteRuns_kept {s₀ s : State} {w : Who} {al : Nat} {va : Nat} {bs : List PByte} (hK : Kept s₀ s) :
    KeptQ s₀ (vWriteRuns s w al va bs) := by
  unfold vWriteRuns
  repeat' first
    | with_reducible assumption
    | intro _
    | (extract_lets +onlyGivenNames x; first | (refine Kept.cut (s₀ := s₀) (x := x) ?_ ?_; rotate_left; intro _; clear_value x; rotate_left; unfold x; clear x) | (refine KeptQ.cut (s₀ := s₀) (x := x) ?_ ?_; rotate_left; intro _; clear_value x; rotate_left; unfold x; clear x) | clear_value x | skip)
    | with_reducible apply Kept.ite
    | with_reducible apply KeptQ.ite
    | (with_reducible refine KeptQ.fst ?_; with_reducible assumption)
    | with_reducible exact KeptQ.val ‹_›
    | with_reducible refine KeptQ.fst (KeptQ.foldl ?_ ?_)
    | with_reducible apply Kept.foldl
    | with_reducible apply KeptQ.foldl
    | with_reducible apply dpaWriteSector_kept
    | (with_reducible refine KeptQ.of_eq ?_ ‹_›)
    | split
    | with_reducible apply KeptQ.mk

theorem sendRuns_kept {s₀ s : State} {w : Who} {al : Nat} {ps : List (Nat × Nat × List PByte)} (hK : Kept s₀ s) :
    Kept s₀ (sendRuns s w al ps) := by
  unfold sendRuns
  repeat' first
    | with_reducible assumption
    | intro _
    | (extract_lets +onlyGivenNames x; first | (refine Kept.cut (s₀ := s₀) (x := x) ?_ ?_; rotate_left; intro _; clear_value x; rotate_left; unfold x; clear x) | clear_value x | skip)
    | with_reducible apply Kept.ite
    | with_reducible apply Kept.foldl
    | with_reducible apply sendWrite_kept
    | split

theorem vWrite_kept {s₀ s : State} {w : Who} {al : Nat} {va : Nat} {bs : List PByte} (hK : Kept s₀ s) :
    KeptQ s₀ (vWrite s w al va bs) := by
  unfold vWrite
  repeat' first
    | with_reducible assumption
    | intro _
    | (extract_lets +onlyGivenNames x; first | (refine Kept.cut (s₀ := s₀) (x := x) ?_ ?_; rotate_left; intro _; clear_value x; rotate_left; unfold x; clear x) | (refine KeptQ.cut (s₀ := s₀) (x := x) ?_ ?_; rotate_left; intro _; clear_value x; rotate_left; unfold x; clear x) | clear_value x | skip)
    | with_reducible apply Kept.ite
    | with_reducible apply KeptQ.ite
    | (with_reducible refine KeptQ.fst ?_; with_reducible assumption)
    | with_reducible exact KeptQ.val ‹_›
    | with_reducible refine KeptQ.fst (vWriteRuns_kept ?_)
    | with_reducible apply vWriteRuns_kept
    | with_reducible apply sendRuns_kept
    | (with_reducible refine KeptQ.of_eq ?_ ‹_›)
    | split
    | with_reducible apply KeptQ.mk

theorem spWrite_kept {s₀ s : State} {tg : Nat} {al : Nat} {space : Nat} {a : Nat} {bs : List PByte} (hK : Kept s₀ s) :
    KeptQ s₀ (spWrite s tg al space a bs) := by
  unfold spWrite
  repeat' first
    | with_reducible assumption
    | intro _
    | (extract_lets +onlyGivenNames x; first | (refine Kept.cut (s₀ := s₀) (x := x) ?_ ?_; rotate_left; intro _; clear_value x; rotate_left; unfold x; clear x) | (refine KeptQ.cut (s₀ := s₀) (x := x) ?_ ?_; rotate_left; intro _; clear_value x; rotate_left; unfold x; clear x) | clear_value x | skip)
    | with_reducible apply Kept.ite
    | with_reducible apply KeptQ.ite
    | (with_reducible refine KeptQ.fst ?_; with_reducible assumption)
    | with_reducible exact KeptQ.val ‹_›
    | with_reducible refine KeptQ.fst (vWriteRuns_kept ?_)
    | with_reducible apply vWriteRuns_kept
    | with_reducible apply setTerrace_kept
    | (with_reducible refine KeptQ.of_eq ?_ ‹_›)
    | split
    | with_reducible apply KeptQ.mk

theorem passWalk_kept {s₀ s : State} {q : Path} {w : Who} {al : Nat} {va : Nat} (hK : Kept s₀ s) :
    Kept s₀ (passWalk s q w al va) := by
  unfold passWalk
  repeat' first
    | with_reducible assumption
    | intro _
    | (extract_lets +onlyGivenNames x; first | (refine Kept.cut (s₀ := s₀) (x := x) ?_ ?_; rotate_left; intro _; clear_value x; rotate_left; unfold x; clear x) | (refine KeptP.cut (s₀ := s₀) (x := x) ?_ ?_; rotate_left; intro _; clear_value x; rotate_left; unfold x; clear x) | clear_value x | skip)
    | with_reducible apply Kept.ite
    | with_reducible apply KeptP.ite
    | (with_reducible refine KeptP.snd ?_; with_reducible assumption)
    | with_reducible exact KeptP.val ‹_›
    | with_reducible refine KeptP.snd (saddlePass_kept ?_)
    | with_reducible refine KeptP.snd (KeptP.foldl ?_ ?_)
    | with_reducible apply Kept.foldl
    | with_reducible apply KeptP.foldl
    | with_reducible apply saddlePass_kept
    | (with_reducible refine KeptP.of_eq ?_ ‹_›)
    | split
    | with_reducible apply KeptP.mk

theorem spend_kept {s₀ s : State} {w : Who} {al : Nat} {a : Acc} (hK : Kept s₀ s) :
    Kept s₀ (spend s w al a) := by
  unfold spend
  repeat' first
    | with_reducible assumption
    | intro _
    | (extract_lets +onlyGivenNames x; first | (refine Kept.cut (s₀ := s₀) (x := x) ?_ ?_; rotate_left; intro _; clear_value x; rotate_left; unfold x; clear x) | clear_value x | skip)
    | with_reducible apply Kept.ite
    | (with_reducible refine set_got ?_; with_reducible assumption)
    | split

theorem noteAcc_kept {s₀ s : State} {w : Who} {slot : Option Nat} {al : Nat} {q : Path} {a : Acc} (hK : Kept s₀ s) :
    Kept s₀ (noteAcc w slot al q s a) := by
  unfold noteAcc
  repeat' first
    | with_reducible assumption
    | intro _
    | (extract_lets +onlyGivenNames x; first | (refine Kept.cut (s₀ := s₀) (x := x) ?_ ?_; rotate_left; intro _; clear_value x; rotate_left; unfold x; clear x) | clear_value x | skip)
    | with_reducible apply Kept.ite
    | with_reducible apply rasAppend_kept
    | with_reducible apply spend_kept
    | with_reducible apply runErr_kept
    | with_reducible apply passWalk_kept
    | with_reducible apply satAdd_kept
    | with_reducible apply cacheLeaf_kept
    | split

theorem passPackets_kept {s₀ s : State} {w : Who} {al : Nat} {q : Path} {l : List Acc} (hK : Kept s₀ s) :
    KeptQ s₀ (passPackets s w al q l) := by
  unfold passPackets
  repeat' first
    | with_reducible assumption
    | intro _
    | (extract_lets +onlyGivenNames x; first | (refine Kept.cut (s₀ := s₀) (x := x) ?_ ?_; rotate_left; intro _; clear_value x; rotate_left; unfold x; clear x) | (refine KeptP.cut (s₀ := s₀) (x := x) ?_ ?_; rotate_left; intro _; clear_value x; rotate_left; unfold x; clear x) | (refine KeptQ.cut (s₀ := s₀) (x := x) ?_ ?_; rotate_left; intro _; clear_value x; rotate_left; unfold x; clear x) | clear_value x | skip)
    | with_reducible apply Kept.ite
    | with_reducible apply KeptP.ite
    | (with_reducible refine KeptP.snd ?_; with_reducible assumption)
    | with_reducible exact KeptP.val ‹_›
    | with_reducible refine KeptP.snd (saddlePass_kept ?_)
    | with_reducible refine KeptP.snd (KeptP.foldl ?_ ?_)
    | with_reducible apply KeptQ.ite
    | (with_reducible refine KeptQ.fst ?_; with_reducible assumption)
    | with_reducible exact KeptQ.val ‹_›
    | with_reducible refine KeptQ.fst (KeptQ.foldl ?_ ?_)
    | with_reducible apply Kept.foldl
    | with_reducible apply KeptP.foldl
    | with_reducible apply KeptQ.foldl
    | with_reducible apply saddlePass_kept
    | (with_reducible refine KeptP.of_eq ?_ ‹_›)
    | (with_reducible refine KeptQ.of_eq ?_ ‹_›)
    | split
    | with_reducible apply KeptP.mk
    | with_reducible apply KeptQ.mk

theorem noteOwed_kept {s₀ s : State} {w : Who} {slot : Option Nat} {al : Nat} {q : Path} {l : List Acc} (hK : Kept s₀ s) :
    KeptQ s₀ (noteOwed s w slot al q l) := by
  unfold noteOwed
  repeat' first
    | with_reducible assumption
    | intro _
    | (extract_lets +onlyGivenNames x; first | (refine Kept.cut (s₀ := s₀) (x := x) ?_ ?_; rotate_left; intro _; clear_value x; rotate_left; unfold x; clear x) | (refine KeptQ.cut (s₀ := s₀) (x := x) ?_ ?_; rotate_left; intro _; clear_value x; rotate_left; unfold x; clear x) | clear_value x | skip)
    | with_reducible apply Kept.ite
    | with_reducible apply KeptQ.ite
    | (with_reducible refine KeptQ.fst ?_; with_reducible assumption)
    | with_reducible exact KeptQ.val ‹_›
    | with_reducible refine KeptQ.fst (passPackets_kept ?_)
    | with_reducible refine KeptQ.fst (KeptQ.foldl ?_ ?_)
    | with_reducible apply Kept.foldl
    | with_reducible apply KeptQ.foldl
    | with_reducible apply passPackets_kept
    | with_reducible apply noteAcc_kept
    | (with_reducible refine KeptQ.of_eq ?_ ‹_›)
    | split
    | with_reducible apply KeptQ.mk

theorem noteAccs_kept {s₀ s : State} {w : Who} {slot : Option Nat} {al : Nat} {l : List Acc} (hK : Kept s₀ s) :
    Kept s₀ (noteAccs s w slot al l) := by
  unfold noteAccs
  repeat' first
    | with_reducible assumption
    | intro _
    | (extract_lets +onlyGivenNames x; first | (refine Kept.cut (s₀ := s₀) (x := x) ?_ ?_; rotate_left; intro _; clear_value x; rotate_left; unfold x; clear x) | (refine KeptQ.cut (s₀ := s₀) (x := x) ?_ ?_; rotate_left; intro _; clear_value x; rotate_left; unfold x; clear x) | clear_value x | skip)
    | with_reducible apply Kept.ite
    | with_reducible apply KeptQ.ite
    | (with_reducible refine KeptQ.fst ?_; with_reducible assumption)
    | with_reducible exact KeptQ.val ‹_›
    | with_reducible refine KeptQ.fst (noteOwed_kept ?_)
    | with_reducible apply noteOwed_kept
    | (with_reducible refine KeptQ.of_eq ?_ ‹_›)
    | split
    | with_reducible apply KeptQ.mk

theorem askRun_kept {s₀ s : State} {w : Who} {al : Nat} {r : Nat × Nat × List PByte} (hK : Kept s₀ s) :
    Kept s₀ (askRun s w al r) := by
  unfold askRun
  repeat' first
    | with_reducible assumption
    | intro _
    | (extract_lets +onlyGivenNames x; first | (refine Kept.cut (s₀ := s₀) (x := x) ?_ ?_; rotate_left; intro _; clear_value x; rotate_left; unfold x; clear x) | clear_value x | skip)
    | with_reducible apply Kept.ite
    | with_reducible apply peerRequest_kept
    | with_reducible apply hostRead_kept
    | with_reducible apply emit_kept
    | (with_reducible refine set_hostReqs ?_; with_reducible assumption)
    | split

theorem atsAsk_kept {s₀ s : State} {w : Who} {al : Nat} {vas : List Nat} (hK : Kept s₀ s) :
    Kept s₀ (atsAsk s w al vas) := by
  unfold atsAsk
  repeat' first
    | with_reducible assumption
    | intro _
    | (extract_lets +onlyGivenNames x; first | (refine Kept.cut (s₀ := s₀) (x := x) ?_ ?_; rotate_left; intro _; clear_value x; rotate_left; unfold x; clear x) | (refine KeptQ.cut (s₀ := s₀) (x := x) ?_ ?_; rotate_left; intro _; clear_value x; rotate_left; unfold x; clear x) | (refine kept_cut_fun (s₀ := s₀) (x := x) ?_ ?_; rotate_left; intro _; clear_value x; rotate_left; unfold x; clear x) | (refine kept_cut_fun2 (s₀ := s₀) (x := x) ?_ ?_; rotate_left; intro _; clear_value x; rotate_left; unfold x; clear x) | (refine kept_cut_fun3 (s₀ := s₀) (x := x) ?_ ?_; rotate_left; intro _; clear_value x; rotate_left; unfold x; clear x) | (refine kept_cut_val (s₀ := s₀) (x := x) ?_ ?_; rotate_left; intro _; clear_value x; rotate_left; unfold x; clear x) | clear_value x | skip)
    | with_reducible apply Kept.ite
    | with_reducible apply KeptQ.ite
    | (with_reducible refine KeptQ.fst ?_; with_reducible assumption)
    | with_reducible exact KeptQ.val ‹_›
    | with_reducible refine KeptQ.fst (KeptQ.foldl ?_ ?_)
    | with_reducible apply Kept.foldl
    | with_reducible apply KeptQ.foldl
    | with_reducible apply askRun_kept
    | with_reducible apply Cb.wr_kept
    | (with_reducible refine set_atsWant ?_; first | with_reducible assumption | with_reducible exact KeptQ.val ‹_› | (with_reducible refine KeptQ.of_eq ?_ ‹_›; first | with_reducible assumption))
    | (with_reducible refine KeptQ.of_eq ?_ ‹_›)
    | with_reducible apply_assumption -exfalso -symm
    | split
    | with_reducible apply KeptQ.mk

end Sys2Proof.Machine
end

