-- ==== Sys2Proof/Laws/KeptOperands.lean ====
section
/-! SUPPORT. What the operations and meanings of Machine/Operands.lean keep. -/

set_option linter.unreachableTactic false
set_option linter.unusedTactic false
set_option linter.unusedVariables false
set_option linter.tactic.unusedName false

namespace Sys2Proof.Machine

theorem storeVirtual_kept {s₀ s : State} {tg : Nat} {va : Nat} {bs : List PByte} (hK : Kept s₀ s) :
    KeptO s₀ (storeVirtual s tg va bs) := by
  unfold storeVirtual
  repeat' first
    | with_reducible assumption
    | intro _
    | (extract_lets +onlyGivenNames x; first | (refine Kept.cut (s₀ := s₀) (x := x) ?_ ?_; rotate_left; intro _; clear_value x; rotate_left; unfold x; clear x) | (refine KeptQ.cut (s₀ := s₀) (x := x) ?_ ?_; rotate_left; intro _; clear_value x; rotate_left; unfold x; clear x) | (refine KeptO.cut (s₀ := s₀) (x := x) ?_ ?_; rotate_left; intro _; clear_value x; rotate_left; unfold x; clear x) | clear_value x | skip)
    | with_reducible apply Kept.ite
    | with_reducible apply KeptO.ite
    | with_reducible exact KeptO.val ‹_›
    | with_reducible apply KeptO.some
    | with_reducible exact KeptO.none
    | with_reducible apply KeptQ.ite
    | (with_reducible refine KeptQ.fst ?_; with_reducible assumption)
    | with_reducible exact KeptQ.val ‹_›
    | with_reducible refine KeptQ.fst (vWrite_kept ?_)
    | with_reducible apply vWrite_kept
    | with_reducible apply noteAccs_kept
    | with_reducible apply logStream_kept
    | (with_reducible refine KeptO.of_eq ?_ ‹_›)
    | (with_reducible refine KeptQ.of_eq ?_ ‹_›)
    | split
    | with_reducible apply KeptQ.mk

theorem retryStore_kept {s₀ s : State} {tg : Nat} {w : StoreWait} (hK : Kept s₀ s) :
    Kept s₀ (retryStore s tg w) := by
  unfold retryStore
  repeat' first
    | with_reducible assumption
    | intro _
    | (extract_lets +onlyGivenNames x; first | (refine Kept.cut (s₀ := s₀) (x := x) ?_ ?_; rotate_left; intro _; clear_value x; rotate_left; unfold x; clear x) | (refine KeptO.cut (s₀ := s₀) (x := x) ?_ ?_; rotate_left; intro _; clear_value x; rotate_left; unfold x; clear x) | clear_value x | skip)
    | with_reducible apply Kept.ite
    | with_reducible apply KeptO.ite
    | with_reducible exact KeptO.val ‹_›
    | with_reducible apply KeptO.some
    | with_reducible exact KeptO.none
    | with_reducible apply storeVirtual_kept
    | with_reducible apply atsAsk_kept
    | with_reducible apply tagThread_kept
    | with_reducible apply sendWrite_kept
    | with_reducible apply updTerrace_kept
    | (with_reducible refine KeptO.of_eq ?_ ‹_›)
    | split

theorem retryStores_kept {s₀ s : State}  (hK : Kept s₀ s) :
    Kept s₀ (retryStores s) := by
  unfold retryStores
  repeat' first
    | with_reducible assumption
    | intro _
    | (extract_lets +onlyGivenNames x; first | (refine Kept.cut (s₀ := s₀) (x := x) ?_ ?_; rotate_left; intro _; clear_value x; rotate_left; unfold x; clear x) | clear_value x | skip)
    | with_reducible apply Kept.ite
    | with_reducible apply Kept.foldl
    | with_reducible apply retryStore_kept
    | with_reducible apply updTerrace_kept
    | split

theorem raise_kept {s₀ s : State} {c : Ctx} {code : Nat} (hK : Kept s₀ s) :
    Kept s₀ (raise c code s) := by
  unfold raise
  repeat' first
    | with_reducible assumption
    | intro _
    | (extract_lets +onlyGivenNames x; first | (refine Kept.cut (s₀ := s₀) (x := x) ?_ ?_; rotate_left; intro _; clear_value x; rotate_left; unfold x; clear x) | clear_value x | skip)
    | with_reducible apply Kept.ite
    | with_reducible apply itemFault_kept
    | split

theorem bufferLine_kept {s₀ s : State} {tg : Nat} {pc : Nat} (hK : Kept s₀ s) :
    Kept s₀ (bufferLine s tg pc) := by
  unfold bufferLine
  repeat' first
    | with_reducible assumption
    | intro _
    | (extract_lets +onlyGivenNames x; first | (refine Kept.cut (s₀ := s₀) (x := x) ?_ ?_; rotate_left; intro _; clear_value x; rotate_left; unfold x; clear x) | clear_value x | skip)
    | with_reducible apply Kept.ite
    | with_reducible apply updTerrace_kept
    | with_reducible apply noteAccs_kept
    | split

theorem bufferLines_kept {s₀ s : State} {tg : Nat} {pc : Nat} {words : Nat} (hK : Kept s₀ s) :
    Kept s₀ (bufferLines s tg pc words) := by
  unfold bufferLines
  repeat' first
    | with_reducible assumption
    | intro _
    | (extract_lets +onlyGivenNames x; first | (refine Kept.cut (s₀ := s₀) (x := x) ?_ ?_; rotate_left; intro _; clear_value x; rotate_left; unfold x; clear x) | clear_value x | skip)
    | with_reducible apply Kept.ite
    | with_reducible apply bufferLine_kept
    | split

theorem logFetch_kept {s₀ s : State} {tg : Nat} {pc : Nat} (hK : Kept s₀ s) :
    Kept s₀ (logFetch s tg pc) := by
  unfold logFetch
  repeat' first
    | with_reducible assumption
    | intro _
    | (extract_lets +onlyGivenNames x; first | (refine Kept.cut (s₀ := s₀) (x := x) ?_ ?_; rotate_left; intro _; clear_value x; rotate_left; unfold x; clear x) | clear_value x | skip)
    | with_reducible apply Kept.ite
    | with_reducible apply noteAccs_kept
    | with_reducible apply logStream_kept
    | split

theorem advance_kept {s₀ s : State} {c : Ctx} (hK : Kept s₀ s) :
    Kept s₀ (advance c s) := by
  unfold advance
  repeat' first
    | with_reducible assumption
    | intro _
    | (extract_lets +onlyGivenNames x; first | (refine Kept.cut (s₀ := s₀) (x := x) ?_ ?_; rotate_left; intro _; clear_value x; rotate_left; unfold x; clear x) | clear_value x | skip)
    | with_reducible apply Kept.ite
    | with_reducible apply updThread_kept
    | with_reducible apply updTerrace_kept
    | split

theorem issue_kept {s₀ s : State} {row : OpRow} {i : Issue} {body : Ctx → State → Option State} (hK : Kept s₀ s) (h_body : ∀ x0 x1, Kept s₀ x1 → KeptO s₀ (body x0 x1)) :
    KeptX s₀ (issue row i s body) := by
  unfold issue
  repeat' first
    | with_reducible assumption
    | intro _
    | (extract_lets +onlyGivenNames x; first | (refine Kept.cut (s₀ := s₀) (x := x) ?_ ?_; rotate_left; intro _; clear_value x; rotate_left; unfold x; clear x) | (refine KeptX.cut (s₀ := s₀) (x := x) ?_ ?_; rotate_left; intro _; clear_value x; rotate_left; unfold x; clear x) | clear_value x | skip)
    | with_reducible apply Kept.ite
    | with_reducible apply KeptX.ite
    | with_reducible apply KeptX.next
    | with_reducible exact KeptX.refused
    | with_reducible apply KeptO.getD
    | with_reducible apply advance_kept
    | with_reducible apply bufferLines_kept
    | with_reducible apply atsAsk_kept
    | with_reducible apply raise_kept
    | with_reducible apply logFetch_kept
    | (with_reducible refine KeptX.of_eq ?_ ‹_›)
    | with_reducible apply h_body
    | split

theorem strict_kept {s₀ s : State} {l : List (Nat × Nat)} {k : Ctx → State → Option State} {c : Ctx} (hK : Kept s₀ s) (h_k : ∀ x0 x1, Kept s₀ x1 → KeptO s₀ (k x0 x1)) :
    KeptO s₀ (strict l k c s) := by
  unfold strict
  repeat' first
    | with_reducible assumption
    | intro _
    | (extract_lets +onlyGivenNames x; first | (refine Kept.cut (s₀ := s₀) (x := x) ?_ ?_; rotate_left; intro _; clear_value x; rotate_left; unfold x; clear x) | (refine KeptO.cut (s₀ := s₀) (x := x) ?_ ?_; rotate_left; intro _; clear_value x; rotate_left; unfold x; clear x) | clear_value x | skip)
    | with_reducible apply Kept.ite
    | with_reducible apply KeptO.ite
    | with_reducible exact KeptO.val ‹_›
    | with_reducible apply KeptO.some
    | with_reducible exact KeptO.none
    | with_reducible apply raise_kept
    | (with_reducible refine KeptO.of_eq ?_ ‹_›)
    | with_reducible apply h_k
    | split

theorem checked_kept {s₀ s : State} {f : Ctx → State → Option Nat} {k : Ctx → State → Option State} {c : Ctx} (hK : Kept s₀ s) (h_k : ∀ x0 x1, Kept s₀ x1 → KeptO s₀ (k x0 x1)) :
    KeptO s₀ (checked f k c s) := by
  unfold checked
  repeat' first
    | with_reducible assumption
    | intro _
    | (extract_lets +onlyGivenNames x; first | (refine Kept.cut (s₀ := s₀) (x := x) ?_ ?_; rotate_left; intro _; clear_value x; rotate_left; unfold x; clear x) | (refine KeptO.cut (s₀ := s₀) (x := x) ?_ ?_; rotate_left; intro _; clear_value x; rotate_left; unfold x; clear x) | clear_value x | skip)
    | with_reducible apply Kept.ite
    | with_reducible apply KeptO.ite
    | with_reducible exact KeptO.val ‹_›
    | with_reducible apply KeptO.some
    | with_reducible exact KeptO.none
    | with_reducible apply raise_kept
    | (with_reducible refine KeptO.of_eq ?_ ‹_›)
    | with_reducible apply h_k
    | split

theorem onThread_kept {s₀ s : State} {c : Ctx} {f : Thread → Thread} (hK : Kept s₀ s) :
    Kept s₀ (onThread c s f) := by
  unfold onThread
  repeat' first
    | with_reducible assumption
    | intro _
    | (extract_lets +onlyGivenNames x; first | (refine Kept.cut (s₀ := s₀) (x := x) ?_ ?_; rotate_left; intro _; clear_value x; rotate_left; unfold x; clear x) | clear_value x | skip)
    | with_reducible apply Kept.ite
    | with_reducible apply updThread_kept
    | split

end Sys2Proof.Machine
end

