-- ==== Sys2Proof/Laws/KeptFlags.lean ====
section
/-! SUPPORT. What the operations and meanings of Machine/Flags.lean keep. -/

set_option linter.unreachableTactic false
set_option linter.unusedTactic false
set_option linter.unusedVariables false
set_option linter.tactic.unusedName false

namespace Sys2Proof.Machine

theorem setFlags_kept {s₀ s : State} {slot : Option Nat} {ovf : Bool} {inv : Bool} (hK : Kept s₀ s) :
    Kept s₀ (setFlags s slot ovf inv) := by
  unfold setFlags
  repeat' first
    | with_reducible assumption
    | intro _
    | (extract_lets +onlyGivenNames x; first | (refine Kept.cut (s₀ := s₀) (x := x) ?_ ?_; rotate_left; intro _; clear_value x; rotate_left; unfold x; clear x) | clear_value x | skip)
    | with_reducible apply Kept.ite
    | with_reducible apply runErr_kept
    | split

end Sys2Proof.Machine
end

