-- ==== Sys2Proof/Laws/KeptPools.lean ====
section
/-! SUPPORT. What the operations and meanings of Machine/Pools.lean keep. -/

set_option linter.unreachableTactic false
set_option linter.unusedTactic false
set_option linter.unusedVariables false
set_option linter.tactic.unusedName false

namespace Sys2Proof.Machine

theorem freeHandle_kept {s₀ s : State} {tg : Nat} {thr : Nat} {pc : Nat} {h : BitVec 16} (hK : Kept s₀ s) :
    Kept s₀ (freeHandle s tg thr pc h) := by
  unfold freeHandle
  repeat' first
    | with_reducible assumption
    | intro _
    | (extract_lets +onlyGivenNames x; first | (refine Kept.cut (s₀ := s₀) (x := x) ?_ ?_; rotate_left; intro _; clear_value x; rotate_left; unfold x; clear x) | clear_value x | skip)
    | with_reducible apply Kept.ite
    | with_reducible apply itemFault_kept
    | with_reducible apply setTerrace_kept
    | split

theorem freeHandles_kept {s₀ s : State} {tg : Nat} {thr : Nat} {pc : Nat} {l : List (BitVec 16)} (hK : Kept s₀ s) :
    Kept s₀ (freeHandles s tg thr pc l) := by
  unfold freeHandles
  repeat' first
    | with_reducible assumption
    | intro _
    | (extract_lets +onlyGivenNames x; first | (refine Kept.cut (s₀ := s₀) (x := x) ?_ ?_; rotate_left; intro _; clear_value x; rotate_left; unfold x; clear x) | clear_value x | skip)
    | with_reducible apply Kept.ite
    | with_reducible apply Kept.foldl
    | with_reducible apply freeHandle_kept
    | split

theorem writeRegion_kept {s₀ s : State} {tg : Nat} {h : BitVec 16} {off : Nat} {bs : List PByte} (hK : Kept s₀ s) :
    Kept s₀ (writeRegion s tg h off bs) := by
  unfold writeRegion
  repeat' first
    | with_reducible assumption
    | intro _
    | (extract_lets +onlyGivenNames x; first | (refine Kept.cut (s₀ := s₀) (x := x) ?_ ?_; rotate_left; intro _; clear_value x; rotate_left; unfold x; clear x) | clear_value x | skip)
    | with_reducible apply Kept.ite
    | with_reducible apply setTerrace_kept
    | with_reducible apply noteAccs_kept
    | split

theorem boundMiss_kept {s₀ s : State} {tg : Nat} {q : Nat} (hK : Kept s₀ s) :
    Kept s₀ (boundMiss s tg q) := by
  unfold boundMiss
  repeat' first
    | with_reducible assumption
    | intro _
    | (extract_lets +onlyGivenNames x; first | (refine Kept.cut (s₀ := s₀) (x := x) ?_ ?_; rotate_left; intro _; clear_value x; rotate_left; unfold x; clear x) | clear_value x | skip)
    | with_reducible apply Kept.ite
    | with_reducible apply rasAppend_kept
    | with_reducible apply runErr_kept
    | split

theorem forward_kept {s₀ s : State} {c : Ctx} {isl : Nat} {aud : Bool} {tile : Option AccTag} (hK : Kept s₀ s) :
    KeptO s₀ (forward c s isl aud tile) := by
  unfold forward
  repeat' first
    | with_reducible assumption
    | intro _
    | (extract_lets +onlyGivenNames x; first | (refine Kept.cut (s₀ := s₀) (x := x) ?_ ?_; rotate_left; intro _; clear_value x; rotate_left; unfold x; clear x) | (refine KeptO.cut (s₀ := s₀) (x := x) ?_ ?_; rotate_left; intro _; clear_value x; rotate_left; unfold x; clear x) | clear_value x | skip)
    | with_reducible apply Kept.ite
    | with_reducible apply KeptO.ite
    | with_reducible exact KeptO.val ‹_›
    | with_reducible apply KeptO.some
    | with_reducible exact KeptO.none
    | with_reducible apply setTerrace_kept
    | (with_reducible refine KeptO.of_eq ?_ ‹_›)
    | split

theorem forwardStream_kept {s₀ s : State} {c : Ctx} (hK : Kept s₀ s) :
    KeptO s₀ (forwardStream c s) := by
  unfold forwardStream
  repeat' first
    | with_reducible assumption
    | intro _
    | (extract_lets +onlyGivenNames x; first | (refine Kept.cut (s₀ := s₀) (x := x) ?_ ?_; rotate_left; intro _; clear_value x; rotate_left; unfold x; clear x) | (refine KeptO.cut (s₀ := s₀) (x := x) ?_ ?_; rotate_left; intro _; clear_value x; rotate_left; unfold x; clear x) | clear_value x | skip)
    | with_reducible apply Kept.ite
    | with_reducible apply KeptO.ite
    | with_reducible exact KeptO.val ‹_›
    | with_reducible apply KeptO.some
    | with_reducible exact KeptO.none
    | with_reducible apply forward_kept
    | (with_reducible refine KeptO.of_eq ?_ ‹_›)
    | split

theorem stageFault_kept {s₀ s : State} {tg : Nat} {c : Cmd} {code : Nat} (hK : Kept s₀ s) :
    Kept s₀ (stageFault s tg c code) := by
  unfold stageFault
  repeat' first
    | with_reducible assumption
    | intro _
    | (extract_lets +onlyGivenNames x; first | (refine Kept.cut (s₀ := s₀) (x := x) ?_ ?_; rotate_left; intro _; clear_value x; rotate_left; unfold x; clear x) | clear_value x | skip)
    | with_reducible apply Kept.ite
    | with_reducible apply itemFault_kept
    | split

theorem flagT_kept {s₀ s : State} {tg : Nat} {ovf : Bool} {inv : Bool} (hK : Kept s₀ s) :
    Kept s₀ (flagT s tg ovf inv) := by
  unfold flagT
  repeat' first
    | with_reducible assumption
    | intro _
    | (extract_lets +onlyGivenNames x; first | (refine Kept.cut (s₀ := s₀) (x := x) ?_ ?_; rotate_left; intro _; clear_value x; rotate_left; unfold x; clear x) | clear_value x | skip)
    | with_reducible apply Kept.ite
    | with_reducible apply setFlags_kept
    | split

theorem performed_kept {s₀ s : State} {tg : Nat} {l : List Acc} (hK : Kept s₀ s) :
    Kept s₀ (performed s tg l) := by
  unfold performed
  repeat' first
    | with_reducible assumption
    | intro _
    | (extract_lets +onlyGivenNames x; first | (refine Kept.cut (s₀ := s₀) (x := x) ?_ ?_; rotate_left; intro _; clear_value x; rotate_left; unfold x; clear x) | clear_value x | skip)
    | with_reducible apply Kept.ite
    | with_reducible apply noteAccs_kept
    | split

theorem logUnit_kept {s₀ s : State} {tg : Nat} {l : List Acc} (hK : Kept s₀ s) :
    Kept s₀ (logUnit s tg l) := by
  unfold logUnit
  repeat' first
    | with_reducible assumption
    | intro _
    | (extract_lets +onlyGivenNames x; first | (refine Kept.cut (s₀ := s₀) (x := x) ?_ ?_; rotate_left; intro _; clear_value x; rotate_left; unfold x; clear x) | clear_value x | skip)
    | with_reducible apply Kept.ite
    | with_reducible apply logStream_kept
    | split

theorem missNext_kept {s₀ s : State} {tg : Nat} {u : Nat} {q : Nat} (hK : Kept s₀ s) :
    Kept s₀ (missNext s tg u q) := by
  unfold missNext
  repeat' first
    | with_reducible assumption
    | intro _
    | (extract_lets +onlyGivenNames x; first | (refine Kept.cut (s₀ := s₀) (x := x) ?_ ?_; rotate_left; intro _; clear_value x; rotate_left; unfold x; clear x) | clear_value x | skip)
    | with_reducible apply Kept.ite
    | with_reducible apply boundMiss_kept
    | with_reducible apply updTerrace_kept
    | split

theorem weirCharge_kept {s₀ s : State} {tg : Nat} {n : Nat} (hK : Kept s₀ s) :
    Kept s₀ (weirCharge s tg n) := by
  unfold weirCharge
  repeat' first
    | with_reducible assumption
    | intro _
    | (extract_lets +onlyGivenNames x; first | (refine Kept.cut (s₀ := s₀) (x := x) ?_ ?_; rotate_left; intro _; clear_value x; rotate_left; unfold x; clear x) | clear_value x | skip)
    | with_reducible apply Kept.ite
    | with_reducible apply updTerrace_kept
    | (with_reducible refine set_shares ?_; with_reducible assumption)
    | split

theorem admitAll_kept {s₀ s : State} {tg : Nat} {y0 : List Owed} (hK : Kept s₀ s) :
    KeptP s₀ (admitAll s tg y0) := by
  induction y0 generalizing tg s
  all_goals
    unfold admitAll
    repeat' first
      | with_reducible assumption
      | intro _
      | (extract_lets +onlyGivenNames x; first | (refine Kept.cut (s₀ := s₀) (x := x) ?_ ?_; rotate_left; intro _; clear_value x; rotate_left; unfold x; clear x) | (refine KeptP.cut (s₀ := s₀) (x := x) ?_ ?_; rotate_left; intro _; clear_value x; rotate_left; unfold x; clear x) | clear_value x | skip)
      | with_reducible apply Kept.ite
      | with_reducible apply KeptP.ite
      | (with_reducible refine KeptP.snd ?_; with_reducible assumption)
      | with_reducible exact KeptP.val ‹_›
      | with_reducible apply chargePorts_kept
      | with_reducible apply weirCharge_kept
      | (with_reducible refine KeptP.of_eq ?_ ‹_›)
      | with_reducible apply_assumption -exfalso -symm
      | split
      | with_reducible apply KeptP.mk

theorem passOwed_kept {s₀ s : State} {tg : Nat} {u : Nat} (hK : Kept s₀ s) :
    Kept s₀ (passOwed s tg u) := by
  unfold passOwed
  repeat' first
    | with_reducible assumption
    | intro _
    | (extract_lets +onlyGivenNames x; first | (refine Kept.cut (s₀ := s₀) (x := x) ?_ ?_; rotate_left; intro _; clear_value x; rotate_left; unfold x; clear x) | (refine KeptP.cut (s₀ := s₀) (x := x) ?_ ?_; rotate_left; intro _; clear_value x; rotate_left; unfold x; clear x) | clear_value x | skip)
    | with_reducible apply Kept.ite
    | with_reducible apply KeptP.ite
    | (with_reducible refine KeptP.snd ?_; with_reducible assumption)
    | with_reducible exact KeptP.val ‹_›
    | with_reducible refine KeptP.snd (admitAll_kept ?_)
    | with_reducible apply admitAll_kept
    | with_reducible apply updTerrace_kept
    | (with_reducible refine KeptP.of_eq ?_ ‹_›)
    | split
    | with_reducible apply KeptP.mk

theorem streamed_kept {s₀ s : State} {tg : Nat} {u : Nat} {resv : Option Nat} {l : List Acc} (hK : Kept s₀ s) :
    KeptQ s₀ (streamed s tg u resv l) := by
  unfold streamed
  repeat' first
    | with_reducible assumption
    | intro _
    | (extract_lets +onlyGivenNames x; first | (refine Kept.cut (s₀ := s₀) (x := x) ?_ ?_; rotate_left; intro _; clear_value x; rotate_left; unfold x; clear x) | (refine KeptQ.cut (s₀ := s₀) (x := x) ?_ ?_; rotate_left; intro _; clear_value x; rotate_left; unfold x; clear x) | clear_value x | skip)
    | with_reducible apply Kept.ite
    | with_reducible apply KeptQ.ite
    | (with_reducible refine KeptQ.fst ?_; with_reducible assumption)
    | with_reducible exact KeptQ.val ‹_›
    | with_reducible refine KeptQ.fst (noteOwed_kept ?_)
    | with_reducible apply noteOwed_kept
    | (with_reducible refine KeptQ.of_eq ?_ ‹_›)
    | split
    | with_reducible apply KeptQ.mk

theorem deliver_kept {s₀ s : State} {tg : Nat} {u : Nat} {h : BitVec 16} (hK : Kept s₀ s) :
    Kept s₀ (deliver s tg u h) := by
  unfold deliver
  repeat' first
    | with_reducible assumption
    | intro _
    | (extract_lets +onlyGivenNames x; first | (refine Kept.cut (s₀ := s₀) (x := x) ?_ ?_; rotate_left; intro _; clear_value x; rotate_left; unfold x; clear x) | clear_value x | skip)
    | with_reducible apply Kept.ite
    | with_reducible apply updTerrace_kept
    | with_reducible apply writeRegion_kept
    | split

theorem retryPushes_kept {s₀ s : State} {tg : Nat} (hK : Kept s₀ s) :
    Kept s₀ (retryPushes s tg) := by
  unfold retryPushes
  repeat' first
    | with_reducible assumption
    | intro _
    | (extract_lets +onlyGivenNames x; first | (refine Kept.cut (s₀ := s₀) (x := x) ?_ ?_; rotate_left; intro _; clear_value x; rotate_left; unfold x; clear x) | clear_value x | skip)
    | with_reducible apply Kept.ite
    | with_reducible apply Kept.foldl
    | with_reducible apply updTerrace_kept
    | (with_reducible refine set_got ?_; with_reducible assumption)
    | split

end Sys2Proof.Machine
end

