-- ==== Sys2Proof/Laws/KeptGauge.lean ====
section
/-! SUPPORT. What the operations and meanings of Machine/Gauge.lean keep. -/

set_option linter.unreachableTactic false
set_option linter.unusedTactic false
set_option linter.unusedVariables false
set_option linter.tactic.unusedName false

namespace Sys2Proof.Machine

theorem allotMsg_kept {s₀ s : State} {al : Nat} {vec : Nat} (hK : Kept s₀ s) :
    Kept s₀ (allotMsg s al vec) := by
  unfold allotMsg
  repeat' first
    | with_reducible assumption
    | intro _
    | (extract_lets +onlyGivenNames x; first | (refine Kept.cut (s₀ := s₀) (x := x) ?_ ?_; rotate_left; intro _; clear_value x; rotate_left; unfold x; clear x) | clear_value x | skip)
    | with_reducible apply Kept.ite
    | with_reducible apply emit_kept
    | split

theorem hostPut_kept {s₀ s : State} {hd : Nat} {fn : Nat} {a : Nat} {bs : List Byte} (hK : Kept s₀ s) :
    Kept s₀ (hostPut s hd fn a bs) := by
  unfold hostPut
  repeat' first
    | with_reducible assumption
    | intro _
    | (extract_lets +onlyGivenNames x; first | (refine Kept.cut (s₀ := s₀) (x := x) ?_ ?_; rotate_left; intro _; clear_value x; rotate_left; unfold x; clear x) | clear_value x | skip)
    | with_reducible apply Kept.ite
    | with_reducible apply busWrite_kept
    | with_reducible apply emit_kept
    | split

theorem postOverflow_kept {s₀ s : State} {k : Nat} (hK : Kept s₀ s) :
    Kept s₀ (postOverflow s k) := by
  unfold postOverflow
  repeat' first
    | with_reducible assumption
    | intro _
    | (extract_lets +onlyGivenNames x; first | (refine Kept.cut (s₀ := s₀) (x := x) ?_ ?_; rotate_left; intro _; clear_value x; rotate_left; unfold x; clear x) | clear_value x | skip)
    | with_reducible apply Kept.ite
    | (with_reducible refine set_rings ?_; with_reducible assumption)
    | split

theorem writeLine_kept {s₀ s : State} {k : Nat} (hK : Kept s₀ s) :
    Kept s₀ (writeLine s k) := by
  unfold writeLine
  repeat' first
    | with_reducible assumption
    | intro _
    | (extract_lets +onlyGivenNames x; first | (refine Kept.cut (s₀ := s₀) (x := x) ?_ ?_; rotate_left; intro _; clear_value x; rotate_left; unfold x; clear x) | clear_value x | skip)
    | with_reducible apply Kept.ite
    | with_reducible apply hostPut_kept
    | with_reducible apply allotMsg_kept
    | with_reducible apply postOverflow_kept
    | with_reducible apply emit_kept
    | (with_reducible refine set_rings ?_; with_reducible assumption)
    | split

theorem flushRing_kept {s₀ s : State} {k : Nat} {fuel : Nat} (hK : Kept s₀ s) :
    Kept s₀ (flushRing s k fuel) := by
  induction fuel generalizing k s
  all_goals
    unfold flushRing
    repeat' first
      | with_reducible assumption
      | intro _
      | (extract_lets +onlyGivenNames x; first | (refine Kept.cut (s₀ := s₀) (x := x) ?_ ?_; rotate_left; intro _; clear_value x; rotate_left; unfold x; clear x) | clear_value x | skip)
      | with_reducible apply Kept.ite
      | with_reducible apply writeLine_kept
      | with_reducible apply_assumption -exfalso -symm
      | split

theorem execGaugeLineWrite_kept {s₀ s : State} {ring : Fin 1026} (hK : Kept s₀ s) :
    KeptX s₀ (execGaugeLineWrite ring s) := by
  unfold execGaugeLineWrite
  repeat' first
    | with_reducible assumption
    | intro _
    | (extract_lets +onlyGivenNames x; first | (refine Kept.cut (s₀ := s₀) (x := x) ?_ ?_; rotate_left; intro _; clear_value x; rotate_left; unfold x; clear x) | (refine KeptX.cut (s₀ := s₀) (x := x) ?_ ?_; rotate_left; intro _; clear_value x; rotate_left; unfold x; clear x) | clear_value x | skip)
    | with_reducible apply Kept.ite
    | with_reducible apply KeptX.ite
    | with_reducible apply KeptX.next
    | with_reducible exact KeptX.refused
    | with_reducible apply writeLine_kept
    | (with_reducible refine KeptX.of_eq ?_ ‹_›)
    | split

theorem execGaugeFlushTimer_kept {s₀ s : State} {ring : Fin 1026} (hK : Kept s₀ s) :
    KeptX s₀ (execGaugeFlushTimer ring s) := by
  unfold execGaugeFlushTimer
  repeat' first
    | with_reducible assumption
    | intro _
    | (extract_lets +onlyGivenNames x; first | (refine Kept.cut (s₀ := s₀) (x := x) ?_ ?_; rotate_left; intro _; clear_value x; rotate_left; unfold x; clear x) | (refine KeptX.cut (s₀ := s₀) (x := x) ?_ ?_; rotate_left; intro _; clear_value x; rotate_left; unfold x; clear x) | clear_value x | skip)
    | with_reducible apply Kept.ite
    | with_reducible apply KeptX.ite
    | with_reducible apply KeptX.next
    | with_reducible exact KeptX.refused
    | with_reducible apply writeLine_kept
    | (with_reducible refine set_rings ?_; with_reducible assumption)
    | (with_reducible refine KeptX.of_eq ?_ ‹_›)
    | split

theorem unboundVf_kept {s₀ s : State} {r : Requester} {off : Nat} (hK : Kept s₀ s) :
    Kept s₀ (unboundVf s r off) := by
  unfold unboundVf
  repeat' first
    | with_reducible assumption
    | intro _
    | (extract_lets +onlyGivenNames x; first | (refine Kept.cut (s₀ := s₀) (x := x) ?_ ?_; rotate_left; intro _; clear_value x; rotate_left; unfold x; clear x) | clear_value x | skip)
    | with_reducible apply Kept.ite
    | with_reducible apply rasAppend_kept
    | split

theorem execGaugeHeadWrite_kept {s₀ s : State} {r : Requester} {ring : Fin 1026} {v : W32} (hK : Kept s₀ s) :
    KeptX s₀ (execGaugeHeadWrite r ring v s) := by
  unfold execGaugeHeadWrite
  repeat' first
    | with_reducible assumption
    | intro _
    | (extract_lets +onlyGivenNames x; first | (refine Kept.cut (s₀ := s₀) (x := x) ?_ ?_; rotate_left; intro _; clear_value x; rotate_left; unfold x; clear x) | (refine KeptX.cut (s₀ := s₀) (x := x) ?_ ?_; rotate_left; intro _; clear_value x; rotate_left; unfold x; clear x) | clear_value x | skip)
    | with_reducible apply Kept.ite
    | with_reducible apply KeptX.ite
    | with_reducible apply KeptX.next
    | with_reducible exact KeptX.refused
    | with_reducible apply pfWrite_kept
    | with_reducible apply setRg_kept
    | with_reducible apply unboundVf_kept
    | (with_reducible refine KeptX.of_eq ?_ ‹_›)
    | split

theorem restartRing_kept {s₀ s : State} {k : Nat} (hK : Kept s₀ s) :
    Kept s₀ (restartRing s k) := by
  unfold restartRing
  repeat' first
    | with_reducible assumption
    | intro _
    | (extract_lets +onlyGivenNames x; first | (refine Kept.cut (s₀ := s₀) (x := x) ?_ ?_; rotate_left; intro _; clear_value x; rotate_left; unfold x; clear x) | clear_value x | skip)
    | with_reducible apply Kept.ite
    | with_reducible apply setRg_kept
    | (with_reducible refine set_rings ?_; with_reducible assumption)
    | split

theorem execGaugeCfgWrite_kept {s₀ s : State} {r : Requester} {ring : Fin 1026} {reg : Fin 3} {v : W32} (hK : Kept s₀ s) :
    KeptX s₀ (execGaugeCfgWrite r ring reg v s) := by
  unfold execGaugeCfgWrite
  repeat' first
    | with_reducible assumption
    | intro _
    | (extract_lets +onlyGivenNames x; first | (refine Kept.cut (s₀ := s₀) (x := x) ?_ ?_; rotate_left; intro _; clear_value x; rotate_left; unfold x; clear x) | (refine KeptX.cut (s₀ := s₀) (x := x) ?_ ?_; rotate_left; intro _; clear_value x; rotate_left; unfold x; clear x) | clear_value x | skip)
    | with_reducible apply Kept.ite
    | with_reducible apply KeptX.ite
    | with_reducible apply KeptX.next
    | with_reducible exact KeptX.refused
    | with_reducible apply pfWrite_kept
    | with_reducible apply logDropped_kept
    | with_reducible apply restartRing_kept
    | with_reducible apply setRg_kept
    | (with_reducible refine KeptX.of_eq ?_ ‹_›)
    | split

end Sys2Proof.Machine
end

