-- ==== Sys2Proof/Laws/KeptQueue.lean ====
section
/-! SUPPORT. What the operations and meanings of Machine/Queue.lean keep. -/

set_option linter.unreachableTactic false
set_option linter.unusedTactic false
set_option linter.unusedVariables false
set_option linter.tactic.unusedName false

namespace Sys2Proof.Machine

theorem setJrn_kept {s₀ s : State} {j : Journal} (hK : Kept s₀ s) :
    Kept s₀ (setJrn s j) := by
  unfold setJrn
  repeat' first
    | with_reducible assumption
    | intro _
    | (extract_lets +onlyGivenNames x; first | (refine Kept.cut (s₀ := s₀) (x := x) ?_ ?_; rotate_left; intro _; clear_value x; rotate_left; unfold x; clear x) | clear_value x | skip)
    | with_reducible apply Kept.ite
    | (with_reducible refine set_jrn0 ?_; with_reducible assumption)
    | (with_reducible refine set_jrn1 ?_; with_reducible assumption)
    | split

theorem request_kept {s₀ s : State} {st : JStep} (hK : Kept s₀ s) :
    Kept s₀ (request s st) := by
  unfold request
  repeat' first
    | with_reducible assumption
    | intro _
    | (extract_lets +onlyGivenNames x; first | (refine Kept.cut (s₀ := s₀) (x := x) ?_ ?_; rotate_left; intro _; clear_value x; rotate_left; unfold x; clear x) | clear_value x | skip)
    | with_reducible apply Kept.ite
    | with_reducible apply setJrn_kept
    | (with_reducible refine set_jsteps ?_; with_reducible assumption)
    | split

theorem updQue_kept {s₀ s : State} {q : Nat} {f : Que → Que} (hK : Kept s₀ s) :
    Kept s₀ (updQue s q f) := by
  unfold updQue
  repeat' first
    | with_reducible assumption
    | intro _
    | (extract_lets +onlyGivenNames x; first | (refine Kept.cut (s₀ := s₀) (x := x) ?_ ?_; rotate_left; intro _; clear_value x; rotate_left; unfold x; clear x) | clear_value x | skip)
    | with_reducible apply Kept.ite
    | (with_reducible refine set_ques ?_; with_reducible assumption)
    | split

theorem firstBell_kept {s₀ s : State} {hd : Nat} {al : Nat} (hK : Kept s₀ s) :
    Kept s₀ (firstBell s hd al) := by
  unfold firstBell
  repeat' first
    | with_reducible assumption
    | intro _
    | (extract_lets +onlyGivenNames x; first | (refine Kept.cut (s₀ := s₀) (x := x) ?_ ?_; rotate_left; intro _; clear_value x; rotate_left; unfold x; clear x) | clear_value x | skip)
    | with_reducible apply Kept.ite
    | with_reducible apply flushRing_kept
    | with_reducible apply updAllot_kept
    | split

theorem tailBell_kept {s₀ s : State} {al : Nat} {q : Nat} {v : W32} (hK : Kept s₀ s) :
    Kept s₀ (tailBell s al q v) := by
  unfold tailBell
  repeat' first
    | with_reducible assumption
    | intro _
    | (extract_lets +onlyGivenNames x; first | (refine Kept.cut (s₀ := s₀) (x := x) ?_ ?_; rotate_left; intro _; clear_value x; rotate_left; unfold x; clear x) | clear_value x | skip)
    | with_reducible apply Kept.ite
    | with_reducible apply updQue_kept
    | with_reducible apply request_kept
    | with_reducible apply gaugePost_kept
    | (with_reducible refine set_bellNo ?_; with_reducible assumption)
    | split

theorem headBell_kept {s₀ s : State} {al : Nat} {q : Nat} {v : W32} (hK : Kept s₀ s) :
    Kept s₀ (headBell s al q v) := by
  unfold headBell
  repeat' first
    | with_reducible assumption
    | intro _
    | (extract_lets +onlyGivenNames x; first | (refine Kept.cut (s₀ := s₀) (x := x) ?_ ?_; rotate_left; intro _; clear_value x; rotate_left; unfold x; clear x) | clear_value x | skip)
    | with_reducible apply Kept.ite
    | with_reducible apply updQue_kept
    | with_reducible apply request_kept
    | with_reducible apply gaugePost_kept
    | split

theorem bellAt_kept {s₀ s : State} {b : Bell} (hK : Kept s₀ s) :
    Kept s₀ (bellAt s b) := by
  unfold bellAt
  repeat' first
    | with_reducible assumption
    | intro _
    | (extract_lets +onlyGivenNames x; first | (refine Kept.cut (s₀ := s₀) (x := x) ?_ ?_; rotate_left; intro _; clear_value x; rotate_left; unfold x; clear x) | clear_value x | skip)
    | with_reducible apply Kept.ite
    | with_reducible apply tailBell_kept
    | with_reducible apply gaugePf_kept
    | with_reducible apply headBell_kept
    | with_reducible apply firstBell_kept
    | with_reducible apply gaugePost_kept
    | split

theorem doorbell_kept {s₀ s : State} {r : Requester} {al : Nat} {q : Nat} {head : Bool} {v : W32} (hK : Kept s₀ s) :
    Kept s₀ (doorbell r al q head v s) := by
  unfold doorbell
  repeat' first
    | with_reducible assumption
    | intro _
    | (extract_lets +onlyGivenNames x; first | (refine Kept.cut (s₀ := s₀) (x := x) ?_ ?_; rotate_left; intro _; clear_value x; rotate_left; unfold x; clear x) | clear_value x | skip)
    | with_reducible apply Kept.ite
    | with_reducible apply bellAt_kept
    | with_reducible apply unboundVf_kept
    | (with_reducible refine set_bells ?_; with_reducible assumption)
    | split

theorem execSqTailWrite_kept {s₀ s : State} {r : Requester} {allot : Fin 1024} {q : Fin 64} {v : W32} (hK : Kept s₀ s) :
    KeptX s₀ (execSqTailWrite r allot q v s) := by
  unfold execSqTailWrite
  repeat' first
    | with_reducible assumption
    | intro _
    | (extract_lets +onlyGivenNames x; first | (refine Kept.cut (s₀ := s₀) (x := x) ?_ ?_; rotate_left; intro _; clear_value x; rotate_left; unfold x; clear x) | (refine KeptX.cut (s₀ := s₀) (x := x) ?_ ?_; rotate_left; intro _; clear_value x; rotate_left; unfold x; clear x) | clear_value x | skip)
    | with_reducible apply Kept.ite
    | with_reducible apply KeptX.ite
    | with_reducible apply KeptX.next
    | with_reducible exact KeptX.refused
    | with_reducible apply doorbell_kept
    | (with_reducible refine KeptX.of_eq ?_ ‹_›)
    | split

theorem execCqHeadWrite_kept {s₀ s : State} {r : Requester} {allot : Fin 1024} {q : Fin 64} {v : W32} (hK : Kept s₀ s) :
    KeptX s₀ (execCqHeadWrite r allot q v s) := by
  unfold execCqHeadWrite
  repeat' first
    | with_reducible assumption
    | intro _
    | (extract_lets +onlyGivenNames x; first | (refine Kept.cut (s₀ := s₀) (x := x) ?_ ?_; rotate_left; intro _; clear_value x; rotate_left; unfold x; clear x) | (refine KeptX.cut (s₀ := s₀) (x := x) ?_ ?_; rotate_left; intro _; clear_value x; rotate_left; unfold x; clear x) | clear_value x | skip)
    | with_reducible apply Kept.ite
    | with_reducible apply KeptX.ite
    | with_reducible apply KeptX.next
    | with_reducible exact KeptX.refused
    | with_reducible apply doorbell_kept
    | (with_reducible refine KeptX.of_eq ?_ ‹_›)
    | split

theorem writeQCfg_kept {s₀ s : State} {q : Nat} {v : W32} (hK : Kept s₀ s) :
    Kept s₀ (writeQCfg s q v) := by
  unfold writeQCfg
  repeat' first
    | with_reducible assumption
    | intro _
    | (extract_lets +onlyGivenNames x; first | (refine Kept.cut (s₀ := s₀) (x := x) ?_ ?_; rotate_left; intro _; clear_value x; rotate_left; unfold x; clear x) | clear_value x | skip)
    | with_reducible apply Kept.ite
    | with_reducible apply request_kept
    | with_reducible apply setRg_kept
    | (with_reducible refine set_ques ?_; with_reducible assumption)
    | split

theorem journalFull_kept {s₀ s : State} {full : Bool} (hK : Kept s₀ s) :
    Kept s₀ (journalFull s full) := by
  unfold journalFull
  repeat' first
    | with_reducible assumption
    | intro _
    | (extract_lets +onlyGivenNames x; first | (refine Kept.cut (s₀ := s₀) (x := x) ?_ ?_; rotate_left; intro _; clear_value x; rotate_left; unfold x; clear x) | clear_value x | skip)
    | with_reducible apply Kept.ite
    | with_reducible apply Kept.foldl
    | with_reducible apply gaugePf_kept
    | with_reducible apply intCause_kept
    | (with_reducible refine set_jfull_resumeTo ?_; with_reducible assumption)
    | split

theorem readFailed_kept {s₀ s : State} {q : Nat} (hK : Kept s₀ s) :
    Kept s₀ (readFailed s q) := by
  unfold readFailed
  repeat' first
    | with_reducible assumption
    | intro _
    | (extract_lets +onlyGivenNames x; first | (refine Kept.cut (s₀ := s₀) (x := x) ?_ ?_; rotate_left; intro _; clear_value x; rotate_left; unfold x; clear x) | clear_value x | skip)
    | with_reducible apply Kept.ite
    | with_reducible apply updQue_kept
    | with_reducible apply gaugePost_kept
    | split

theorem acceptEntries_kept {s₀ s : State} {q : Nat} {slots : List Nat} {entries : List (List Byte)} (hK : Kept s₀ s) :
    Kept s₀ (acceptEntries s q slots entries) := by
  unfold acceptEntries
  repeat' first
    | with_reducible assumption
    | intro _
    | (extract_lets +onlyGivenNames x; first | (refine Kept.cut (s₀ := s₀) (x := x) ?_ ?_; rotate_left; intro _; clear_value x; rotate_left; unfold x; clear x) | clear_value x | skip)
    | with_reducible apply Kept.ite
    | with_reducible apply request_kept
    | split

theorem askEntries_kept {s₀ s : State} {q : Nat} {n : Nat} (hK : Kept s₀ s) :
    Kept s₀ (askEntries s q n) := by
  unfold askEntries
  repeat' first
    | with_reducible assumption
    | intro _
    | (extract_lets +onlyGivenNames x; first | (refine Kept.cut (s₀ := s₀) (x := x) ?_ ?_; rotate_left; intro _; clear_value x; rotate_left; unfold x; clear x) | (refine kept_cut_fun (s₀ := s₀) (x := x) ?_ ?_; rotate_left; intro _; clear_value x; rotate_left; unfold x; clear x) | (refine kept_cut_fun2 (s₀ := s₀) (x := x) ?_ ?_; rotate_left; intro _; clear_value x; rotate_left; unfold x; clear x) | (refine kept_cut_fun3 (s₀ := s₀) (x := x) ?_ ?_; rotate_left; intro _; clear_value x; rotate_left; unfold x; clear x) | (refine kept_cut_val (s₀ := s₀) (x := x) ?_ ?_; rotate_left; intro _; clear_value x; rotate_left; unfold x; clear x) | clear_value x | skip)
    | with_reducible apply Kept.ite
    | with_reducible apply hostRead_kept
    | with_reducible apply emit_kept
    | with_reducible apply_assumption -exfalso -symm
    | split

theorem execSqReadComplete_kept {s₀ s : State} {q : Fin 65536} {err : Bool} (hK : Kept s₀ s) :
    KeptX s₀ (execSqReadComplete q err s) := by
  unfold execSqReadComplete
  repeat' first
    | with_reducible assumption
    | intro _
    | (extract_lets +onlyGivenNames x; first | (refine Kept.cut (s₀ := s₀) (x := x) ?_ ?_; rotate_left; intro _; clear_value x; rotate_left; unfold x; clear x) | (refine KeptX.cut (s₀ := s₀) (x := x) ?_ ?_; rotate_left; intro _; clear_value x; rotate_left; unfold x; clear x) | (refine kept_cut_fun (s₀ := s₀) (x := x) ?_ ?_; rotate_left; intro _; clear_value x; rotate_left; unfold x; clear x) | (refine kept_cut_fun2 (s₀ := s₀) (x := x) ?_ ?_; rotate_left; intro _; clear_value x; rotate_left; unfold x; clear x) | (refine kept_cut_fun3 (s₀ := s₀) (x := x) ?_ ?_; rotate_left; intro _; clear_value x; rotate_left; unfold x; clear x) | (refine kept_cut_val (s₀ := s₀) (x := x) ?_ ?_; rotate_left; intro _; clear_value x; rotate_left; unfold x; clear x) | clear_value x | skip)
    | with_reducible apply Kept.ite
    | with_reducible apply KeptX.ite
    | with_reducible apply KeptX.next
    | with_reducible exact KeptX.refused
    | with_reducible apply readFailed_kept
    | with_reducible apply updQue_kept
    | with_reducible apply journalFull_kept
    | with_reducible apply acceptEntries_kept
    | with_reducible apply askEntries_kept
    | (with_reducible refine KeptX.of_eq ?_ ‹_›)
    | with_reducible apply_assumption -exfalso -symm
    | split

theorem writeCompl_kept {s₀ s : State} {q : Nat} {c : Compl} (hK : Kept s₀ s) :
    Kept s₀ (writeCompl s q c) := by
  unfold writeCompl
  repeat' first
    | with_reducible assumption
    | intro _
    | (extract_lets +onlyGivenNames x; first | (refine Kept.cut (s₀ := s₀) (x := x) ?_ ?_; rotate_left; intro _; clear_value x; rotate_left; unfold x; clear x) | clear_value x | skip)
    | with_reducible apply Kept.ite
    | with_reducible apply hostPut_kept
    | split

theorem execCompletionPost_kept {s₀ s : State} {w : CqWrite} (hK : Kept s₀ s) :
    KeptX s₀ (execCompletionPost w s) := by
  unfold execCompletionPost
  repeat' first
    | with_reducible assumption
    | intro _
    | (extract_lets +onlyGivenNames x; first | (refine Kept.cut (s₀ := s₀) (x := x) ?_ ?_; rotate_left; intro _; clear_value x; rotate_left; unfold x; clear x) | (refine KeptX.cut (s₀ := s₀) (x := x) ?_ ?_; rotate_left; intro _; clear_value x; rotate_left; unfold x; clear x) | clear_value x | skip)
    | with_reducible apply Kept.ite
    | with_reducible apply KeptX.ite
    | with_reducible apply KeptX.next
    | with_reducible exact KeptX.refused
    | with_reducible apply request_kept
    | with_reducible apply gaugePost_kept
    | (with_reducible refine KeptX.of_eq ?_ ‹_›)
    | split

theorem queMsg_kept {s₀ s : State} {q : Nat} (hK : Kept s₀ s) :
    Kept s₀ (queMsg s q) := by
  unfold queMsg
  repeat' first
    | with_reducible assumption
    | intro _
    | (extract_lets +onlyGivenNames x; first | (refine Kept.cut (s₀ := s₀) (x := x) ?_ ?_; rotate_left; intro _; clear_value x; rotate_left; unfold x; clear x) | clear_value x | skip)
    | with_reducible apply Kept.ite
    | with_reducible apply updQue_kept
    | with_reducible apply allotMsg_kept
    | split

theorem countIrq_kept {s₀ s : State} {q : Nat} {irq : Bool} {aborted : Bool} (hK : Kept s₀ s) :
    Kept s₀ (countIrq s q irq aborted) := by
  unfold countIrq
  repeat' first
    | with_reducible assumption
    | intro _
    | (extract_lets +onlyGivenNames x; first | (refine Kept.cut (s₀ := s₀) (x := x) ?_ ?_; rotate_left; intro _; clear_value x; rotate_left; unfold x; clear x) | clear_value x | skip)
    | with_reducible apply Kept.ite
    | with_reducible apply queMsg_kept
    | with_reducible apply updQue_kept
    | split

theorem sendCompl_kept {s₀ s : State} {k : Nat} {first : Bool} (hK : Kept s₀ s) :
    Kept s₀ (sendCompl s k first) := by
  unfold sendCompl
  repeat' first
    | with_reducible assumption
    | intro _
    | (extract_lets +onlyGivenNames x; first | (refine Kept.cut (s₀ := s₀) (x := x) ?_ ?_; rotate_left; intro _; clear_value x; rotate_left; unfold x; clear x) | clear_value x | skip)
    | with_reducible apply Kept.ite
    | with_reducible apply updQue_kept
    | with_reducible apply countIrq_kept
    | with_reducible apply writeCompl_kept
    | split

theorem releaseQueues_kept {s₀ s : State}  (hK : Kept s₀ s) :
    Kept s₀ (releaseQueues s) := by
  unfold releaseQueues
  repeat' first
    | with_reducible assumption
    | intro _
    | (extract_lets +onlyGivenNames x; first | (refine Kept.cut (s₀ := s₀) (x := x) ?_ ?_; rotate_left; intro _; clear_value x; rotate_left; unfold x; clear x) | clear_value x | skip)
    | with_reducible apply Kept.ite
    | with_reducible apply Kept.foldl
    | with_reducible apply queMsg_kept
    | with_reducible apply sendCompl_kept
    | split

theorem execQIntTimer_kept {s₀ s : State} {q : Fin 65536} (hK : Kept s₀ s) :
    KeptX s₀ (execQIntTimer q s) := by
  unfold execQIntTimer
  repeat' first
    | with_reducible assumption
    | intro _
    | (extract_lets +onlyGivenNames x; first | (refine Kept.cut (s₀ := s₀) (x := x) ?_ ?_; rotate_left; intro _; clear_value x; rotate_left; unfold x; clear x) | (refine KeptX.cut (s₀ := s₀) (x := x) ?_ ?_; rotate_left; intro _; clear_value x; rotate_left; unfold x; clear x) | clear_value x | skip)
    | with_reducible apply Kept.ite
    | with_reducible apply KeptX.ite
    | with_reducible apply KeptX.next
    | with_reducible exact KeptX.refused
    | with_reducible apply queMsg_kept
    | (with_reducible refine KeptX.of_eq ?_ ‹_›)
    | split

theorem execQCfgWrite_kept {s₀ s : State} {r : Requester} {q : Fin 65536} {reg : Fin 6} {v : W32} (hK : Kept s₀ s) :
    KeptX s₀ (execQCfgWrite r q reg v s) := by
  unfold execQCfgWrite
  repeat' first
    | with_reducible assumption
    | intro _
    | (extract_lets +onlyGivenNames x; first | (refine Kept.cut (s₀ := s₀) (x := x) ?_ ?_; rotate_left; intro _; clear_value x; rotate_left; unfold x; clear x) | (refine KeptX.cut (s₀ := s₀) (x := x) ?_ ?_; rotate_left; intro _; clear_value x; rotate_left; unfold x; clear x) | (refine kept_cut_fun (s₀ := s₀) (x := x) ?_ ?_; rotate_left; intro _; clear_value x; rotate_left; unfold x; clear x) | (refine kept_cut_fun2 (s₀ := s₀) (x := x) ?_ ?_; rotate_left; intro _; clear_value x; rotate_left; unfold x; clear x) | (refine kept_cut_fun3 (s₀ := s₀) (x := x) ?_ ?_; rotate_left; intro _; clear_value x; rotate_left; unfold x; clear x) | (refine kept_cut_val (s₀ := s₀) (x := x) ?_ ?_; rotate_left; intro _; clear_value x; rotate_left; unfold x; clear x) | clear_value x | skip)
    | with_reducible apply Kept.ite
    | with_reducible apply KeptX.ite
    | with_reducible apply KeptX.next
    | with_reducible exact KeptX.refused
    | with_reducible apply queMsg_kept
    | with_reducible apply pfWrite_kept
    | with_reducible apply logDropped_kept
    | with_reducible apply writeQCfg_kept
    | with_reducible apply setRg_kept
    | (with_reducible refine KeptX.of_eq ?_ ‹_›)
    | with_reducible apply_assumption -exfalso -symm
    | split

end Sys2Proof.Machine
end

