-- ==== Sys2Proof/Laws/KeptItem.lean ====
section
/-! SUPPORT. What the operations and meanings of Machine/Item.lean keep. -/

set_option linter.unreachableTactic false
set_option linter.unusedTactic false
set_option linter.unusedVariables false
set_option linter.tactic.unusedName false

namespace Sys2Proof.Machine

theorem freeRun_kept {s₀ s : State} {k : Nat} (hK : Kept s₀ s) :
    Kept s₀ (freeRun s k) := by
  unfold freeRun
  repeat' first
    | with_reducible assumption
    | intro _
    | (extract_lets +onlyGivenNames x; first | (refine Kept.cut (s₀ := s₀) (x := x) ?_ ?_; rotate_left; intro _; clear_value x; rotate_left; unfold x; clear x) | clear_value x | skip)
    | with_reducible apply Kept.ite
    | with_reducible apply Kept.foldl
    | with_reducible apply discardReaches_kept
    | with_reducible apply updTerrace_kept
    | with_reducible apply fenceArrivals_kept
    | (with_reducible refine set_runs_redivide_lats ?_; with_reducible assumption)
    | split

theorem completeItem_kept {s₀ s : State} {k : Nat} {status : Nat} {fault : Nat} (hK : Kept s₀ s) :
    Kept s₀ (completeItem s k status fault) := by
  unfold completeItem
  repeat' first
    | with_reducible assumption
    | intro _
    | (extract_lets +onlyGivenNames x; first | (refine Kept.cut (s₀ := s₀) (x := x) ?_ ?_; rotate_left; intro _; clear_value x; rotate_left; unfold x; clear x) | clear_value x | skip)
    | with_reducible apply Kept.ite
    | with_reducible apply request_kept
    | with_reducible apply freeRun_kept
    | split

theorem replayItem_kept {s₀ s : State} {k : Nat} (hK : Kept s₀ s) :
    Kept s₀ (replayItem s k) := by
  unfold replayItem
  repeat' first
    | with_reducible assumption
    | intro _
    | (extract_lets +onlyGivenNames x; first | (refine Kept.cut (s₀ := s₀) (x := x) ?_ ?_; rotate_left; intro _; clear_value x; rotate_left; unfold x; clear x) | clear_value x | skip)
    | with_reducible apply Kept.ite
    | with_reducible apply replay_kept
    | with_reducible apply updQue_kept
    | with_reducible apply request_kept
    | with_reducible apply completeItem_kept
    | with_reducible apply freeRun_kept
    | with_reducible apply satAdd_kept
    | with_reducible apply stopItem_kept
    | split

theorem execDispatchDecision_kept {s₀ s : State} {pick : BitVec 64} (hK : Kept s₀ s) :
    KeptX s₀ (execDispatchDecision pick s) := by
  unfold execDispatchDecision
  repeat' first
    | with_reducible assumption
    | intro _
    | (extract_lets +onlyGivenNames x; first | (refine Kept.cut (s₀ := s₀) (x := x) ?_ ?_; rotate_left; intro _; clear_value x; rotate_left; unfold x; clear x) | (refine KeptX.cut (s₀ := s₀) (x := x) ?_ ?_; rotate_left; intro _; clear_value x; rotate_left; unfold x; clear x) | clear_value x | skip)
    | with_reducible apply Kept.ite
    | with_reducible apply KeptX.ite
    | with_reducible apply KeptX.next
    | with_reducible exact KeptX.refused
    | with_reducible apply Kept.foldl
    | with_reducible apply updQue_kept
    | with_reducible apply request_kept
    | with_reducible apply updTerrace_kept
    | with_reducible apply completeItem_kept
    | (with_reducible refine set_rr ?_; with_reducible assumption)
    | (with_reducible refine set_runs_redivide_skvReqs ?_; with_reducible assumption)
    | (with_reducible refine KeptX.of_eq ?_ ‹_›)
    | split

theorem logEngine_kept {s₀ s : State} {k : Nat} {al : Nat} {l : List Acc} (hK : Kept s₀ s) :
    Kept s₀ (logEngine s k al l) := by
  unfold logEngine
  repeat' first
    | with_reducible assumption
    | intro _
    | (extract_lets +onlyGivenNames x; first | (refine Kept.cut (s₀ := s₀) (x := x) ?_ ?_; rotate_left; intro _; clear_value x; rotate_left; unfold x; clear x) | (refine KeptP.cut (s₀ := s₀) (x := x) ?_ ?_; rotate_left; intro _; clear_value x; rotate_left; unfold x; clear x) | clear_value x | skip)
    | with_reducible apply Kept.ite
    | with_reducible apply KeptP.ite
    | (with_reducible refine KeptP.snd ?_; with_reducible assumption)
    | with_reducible exact KeptP.val ‹_›
    | with_reducible refine KeptP.snd (fresh_kept ?_)
    | with_reducible apply fresh_kept
    | with_reducible apply noteAccs_kept
    | with_reducible apply logStream_kept
    | (with_reducible refine KeptP.of_eq ?_ ‹_›)
    | split
    | with_reducible apply KeptP.mk

theorem clearItemRegs_kept {s₀ s : State} {tg : Nat} (hK : Kept s₀ s) :
    Kept s₀ (clearItemRegs s tg) := by
  unfold clearItemRegs
  repeat' first
    | with_reducible assumption
    | intro _
    | (extract_lets +onlyGivenNames x; first | (refine Kept.cut (s₀ := s₀) (x := x) ?_ ?_; rotate_left; intro _; clear_value x; rotate_left; unfold x; clear x) | (refine kept_cut_fun (s₀ := s₀) (x := x) ?_ ?_; rotate_left; intro _; clear_value x; rotate_left; unfold x; clear x) | (refine kept_cut_fun2 (s₀ := s₀) (x := x) ?_ ?_; rotate_left; intro _; clear_value x; rotate_left; unfold x; clear x) | (refine kept_cut_fun3 (s₀ := s₀) (x := x) ?_ ?_; rotate_left; intro _; clear_value x; rotate_left; unfold x; clear x) | (refine kept_cut_val (s₀ := s₀) (x := x) ?_ ?_; rotate_left; intro _; clear_value x; rotate_left; unfold x; clear x) | clear_value x | skip)
    | with_reducible apply Kept.ite
    | (with_reducible refine set_regs_ctrs_shadows ?_; with_reducible assumption)
    | with_reducible apply_assumption -exfalso -symm
    | split

theorem placeOn_kept {s₀ s : State} {k : Nat} {r : Run} {h : PHeader} {tg : Nat} {i : Nat} (hK : Kept s₀ s) :
    Kept s₀ (placeOn s k r h tg i) := by
  unfold placeOn
  repeat' first
    | with_reducible assumption
    | intro _
    | (extract_lets +onlyGivenNames x; first | (refine Kept.cut (s₀ := s₀) (x := x) ?_ ?_; rotate_left; intro _; clear_value x; rotate_left; unfold x; clear x) | clear_value x | skip)
    | with_reducible apply Kept.ite
    | with_reducible apply clearItemRegs_kept
    | with_reducible apply updRun_kept
    | with_reducible apply setTerrace_kept
    | with_reducible apply satAdd_kept
    | split

theorem tryStart_kept {s₀ s : State} {k : Nat} (hK : Kept s₀ s) :
    Kept s₀ (tryStart s k) := by
  unfold tryStart
  repeat' first
    | with_reducible assumption
    | intro _
    | (extract_lets +onlyGivenNames x; first | (refine Kept.cut (s₀ := s₀) (x := x) ?_ ?_; rotate_left; intro _; clear_value x; rotate_left; unfold x; clear x) | clear_value x | skip)
    | with_reducible apply Kept.ite
    | with_reducible apply Kept.foldl
    | with_reducible apply updRun_kept
    | with_reducible apply updTerrace_kept
    | split

theorem startRead_kept {s₀ s : State} {k : Nat} {r : Run} {hd : Option (List Byte)} {cr : Option (Option CommitRec)} (hK : Kept s₀ s) :
    Kept s₀ (startRead s k r hd cr) := by
  unfold startRead
  repeat' first
    | with_reducible assumption
    | intro _
    | (extract_lets +onlyGivenNames x; first | (refine Kept.cut (s₀ := s₀) (x := x) ?_ ?_; rotate_left; intro _; clear_value x; rotate_left; unfold x; clear x) | (refine kept_cut_fun (s₀ := s₀) (x := x) ?_ ?_; rotate_left; intro _; clear_value x; rotate_left; unfold x; clear x) | (refine kept_cut_fun2 (s₀ := s₀) (x := x) ?_ ?_; rotate_left; intro _; clear_value x; rotate_left; unfold x; clear x) | (refine kept_cut_fun3 (s₀ := s₀) (x := x) ?_ ?_; rotate_left; intro _; clear_value x; rotate_left; unfold x; clear x) | (refine kept_cut_val (s₀ := s₀) (x := x) ?_ ?_; rotate_left; intro _; clear_value x; rotate_left; unfold x; clear x) | clear_value x | skip)
    | with_reducible apply Kept.ite
    | with_reducible apply Kept.foldl
    | with_reducible apply rasAppend_kept
    | with_reducible apply updRun_kept
    | with_reducible apply placeOn_kept
    | with_reducible apply tryStart_kept
    | with_reducible apply completeItem_kept
    | (with_reducible refine set_runs ?_; with_reducible assumption)
    | with_reducible apply_assumption -exfalso -symm
    | split

theorem startItem_kept {s₀ s : State} {k : Nat} (hK : Kept s₀ s) :
    Kept s₀ (startItem s k) := by
  unfold startItem
  repeat' first
    | with_reducible assumption
    | intro _
    | (extract_lets +onlyGivenNames x; first | (refine Kept.cut (s₀ := s₀) (x := x) ?_ ?_; rotate_left; intro _; clear_value x; rotate_left; unfold x; clear x) | clear_value x | skip)
    | with_reducible apply Kept.ite
    | with_reducible apply updRun_kept
    | with_reducible apply atsAsk_kept
    | with_reducible apply logEngine_kept
    | with_reducible apply startRead_kept
    | split

theorem retryStarts_kept {s₀ s : State}  (hK : Kept s₀ s) :
    Kept s₀ (retryStarts s) := by
  unfold retryStarts
  repeat' first
    | with_reducible assumption
    | intro _
    | (extract_lets +onlyGivenNames x; first | (refine Kept.cut (s₀ := s₀) (x := x) ?_ ?_; rotate_left; intro _; clear_value x; rotate_left; unfold x; clear x) | clear_value x | skip)
    | with_reducible apply Kept.ite
    | with_reducible apply Kept.foldl
    | with_reducible apply startItem_kept
    | split

theorem execScrubComplete_kept {s₀ s : State} {tg : Fin 64} (hK : Kept s₀ s) :
    KeptX s₀ (execScrubComplete tg s) := by
  unfold execScrubComplete
  repeat' first
    | with_reducible assumption
    | intro _
    | (extract_lets +onlyGivenNames x; first | (refine Kept.cut (s₀ := s₀) (x := x) ?_ ?_; rotate_left; intro _; clear_value x; rotate_left; unfold x; clear x) | (refine KeptX.cut (s₀ := s₀) (x := x) ?_ ?_; rotate_left; intro _; clear_value x; rotate_left; unfold x; clear x) | clear_value x | skip)
    | with_reducible apply Kept.ite
    | with_reducible apply KeptX.ite
    | with_reducible apply KeptX.next
    | with_reducible exact KeptX.refused
    | with_reducible apply Kept.foldl
    | with_reducible apply updTerrace_kept
    | with_reducible apply tryStart_kept
    | (with_reducible refine set_allots_runs ?_; with_reducible assumption)
    | (with_reducible refine KeptX.of_eq ?_ ‹_›)
    | split

theorem endStopped_kept {s₀ s : State} {k : Nat} (hK : Kept s₀ s) :
    Kept s₀ (endStopped s k) := by
  unfold endStopped
  repeat' first
    | with_reducible assumption
    | intro _
    | (extract_lets +onlyGivenNames x; first | (refine Kept.cut (s₀ := s₀) (x := x) ?_ ?_; rotate_left; intro _; clear_value x; rotate_left; unfold x; clear x) | clear_value x | skip)
    | with_reducible apply Kept.ite
    | with_reducible apply completeItem_kept
    | split

theorem execItemFinish_kept {s₀ s : State} {tg : Fin 64} (hK : Kept s₀ s) :
    KeptX s₀ (execItemFinish tg s) := by
  unfold execItemFinish
  repeat' first
    | with_reducible assumption
    | intro _
    | (extract_lets +onlyGivenNames x; first | (refine Kept.cut (s₀ := s₀) (x := x) ?_ ?_; rotate_left; intro _; clear_value x; rotate_left; unfold x; clear x) | (refine KeptX.cut (s₀ := s₀) (x := x) ?_ ?_; rotate_left; intro _; clear_value x; rotate_left; unfold x; clear x) | clear_value x | skip)
    | with_reducible apply Kept.ite
    | with_reducible apply KeptX.ite
    | with_reducible apply KeptX.next
    | with_reducible exact KeptX.refused
    | with_reducible apply updRun_kept
    | with_reducible apply discardReaches_kept
    | with_reducible apply endStopped_kept
    | with_reducible apply updTerrace_kept
    | (with_reducible refine set_lanes ?_; with_reducible assumption)
    | (with_reducible refine KeptX.of_eq ?_ ‹_›)
    | split

theorem copyRange_kept {s₀ s : State} {k : Nat} {al : Nat} {src : Nat} {dst : Nat} {n : Nat} (hK : Kept s₀ s) :
    Kept s₀ (copyRange s k al src dst n) := by
  unfold copyRange
  repeat' first
    | with_reducible assumption
    | intro _
    | (extract_lets +onlyGivenNames x; first | (refine Kept.cut (s₀ := s₀) (x := x) ?_ ?_; rotate_left; intro _; clear_value x; rotate_left; unfold x; clear x) | (refine KeptQ.cut (s₀ := s₀) (x := x) ?_ ?_; rotate_left; intro _; clear_value x; rotate_left; unfold x; clear x) | clear_value x | skip)
    | with_reducible apply Kept.ite
    | with_reducible apply KeptQ.ite
    | (with_reducible refine KeptQ.fst ?_; with_reducible assumption)
    | with_reducible exact KeptQ.val ‹_›
    | with_reducible refine KeptQ.fst (vWrite_kept ?_)
    | with_reducible apply vWrite_kept
    | with_reducible apply logEngine_kept
    | (with_reducible refine KeptQ.of_eq ?_ ‹_›)
    | split
    | with_reducible apply KeptQ.mk

theorem finishCommit_kept {s₀ s : State} {k : Nat} {x : Slot} {r : Run} (hK : Kept s₀ s) :
    Kept s₀ (finishCommit s k x r) := by
  unfold finishCommit
  repeat' first
    | with_reducible assumption
    | intro _
    | (extract_lets +onlyGivenNames x; first | (refine Kept.cut (s₀ := s₀) (x := x) ?_ ?_; rotate_left; intro _; clear_value x; rotate_left; unfold x; clear x) | (refine KeptQ.cut (s₀ := s₀) (x := x) ?_ ?_; rotate_left; intro _; clear_value x; rotate_left; unfold x; clear x) | clear_value x | skip)
    | with_reducible apply Kept.ite
    | with_reducible apply KeptQ.ite
    | (with_reducible refine KeptQ.fst ?_; with_reducible assumption)
    | with_reducible exact KeptQ.val ‹_›
    | with_reducible refine KeptQ.fst (vWrite_kept ?_)
    | with_reducible apply atsAsk_kept
    | with_reducible apply vWrite_kept
    | with_reducible apply logEngine_kept
    | with_reducible apply completeItem_kept
    | (with_reducible refine KeptQ.of_eq ?_ ‹_›)
    | split
    | with_reducible apply KeptQ.mk

theorem commitCopies_kept {s₀ s : State} {k : Nat} (hK : Kept s₀ s) :
    Kept s₀ (commitCopies s k) := by
  unfold commitCopies
  repeat' first
    | with_reducible assumption
    | intro _
    | (extract_lets +onlyGivenNames x; first | (refine Kept.cut (s₀ := s₀) (x := x) ?_ ?_; rotate_left; intro _; clear_value x; rotate_left; unfold x; clear x) | clear_value x | skip)
    | with_reducible apply Kept.ite
    | with_reducible apply Kept.foldl
    | with_reducible apply updRun_kept
    | with_reducible apply atsAsk_kept
    | with_reducible apply finishCommit_kept
    | with_reducible apply copyRange_kept
    | split

theorem execCommit_kept {s₀ s : State} {slot : Fin 65536} (hK : Kept s₀ s) :
    KeptX s₀ (execCommit slot s) := by
  unfold execCommit
  repeat' first
    | with_reducible assumption
    | intro _
    | (extract_lets +onlyGivenNames x; first | (refine Kept.cut (s₀ := s₀) (x := x) ?_ ?_; rotate_left; intro _; clear_value x; rotate_left; unfold x; clear x) | (refine KeptX.cut (s₀ := s₀) (x := x) ?_ ?_; rotate_left; intro _; clear_value x; rotate_left; unfold x; clear x) | clear_value x | skip)
    | with_reducible apply Kept.ite
    | with_reducible apply KeptX.ite
    | with_reducible apply KeptX.next
    | with_reducible exact KeptX.refused
    | with_reducible apply finishCommit_kept
    | with_reducible apply endStopped_kept
    | with_reducible apply request_kept
    | with_reducible apply commitCopies_kept
    | (with_reducible refine KeptX.of_eq ?_ ‹_›)
    | split

end Sys2Proof.Machine
end

