-- ==== Sys2Proof/Laws/KeptAllot.lean ====
section
/-! SUPPORT. What the operations and meanings of Machine/Allot.lean keep. -/

set_option linter.unreachableTactic false
set_option linter.unusedTactic false
set_option linter.unusedVariables false
set_option linter.tactic.unusedName false

namespace Sys2Proof.Machine

theorem writeAllotCfg_kept {s₀ s : State} {al : Nat} {v : W32} (hK : Kept s₀ s) :
    Kept s₀ (writeAllotCfg s al v) := by
  unfold writeAllotCfg
  repeat' first
    | with_reducible assumption
    | intro _
    | (extract_lets +onlyGivenNames x; first | (refine Kept.cut (s₀ := s₀) (x := x) ?_ ?_; rotate_left; intro _; clear_value x; rotate_left; unfold x; clear x) | clear_value x | skip)
    | with_reducible apply Kept.ite
    | with_reducible apply setRg_kept
    | with_reducible apply updAllot_kept
    | split

theorem execAllotCfgWrite_kept {s₀ s : State} {r : Requester} {allot : Fin 1024} {reg : Fin 5} {v : W32} (hK : Kept s₀ s) :
    KeptX s₀ (execAllotCfgWrite r allot reg v s) := by
  unfold execAllotCfgWrite
  repeat' first
    | with_reducible assumption
    | intro _
    | (extract_lets +onlyGivenNames x; first | (refine Kept.cut (s₀ := s₀) (x := x) ?_ ?_; rotate_left; intro _; clear_value x; rotate_left; unfold x; clear x) | (refine KeptX.cut (s₀ := s₀) (x := x) ?_ ?_; rotate_left; intro _; clear_value x; rotate_left; unfold x; clear x) | (refine kept_cut_fun (s₀ := s₀) (x := x) ?_ ?_; rotate_left; intro _; clear_value x; rotate_left; unfold x; clear x) | (refine kept_cut_fun2 (s₀ := s₀) (x := x) ?_ ?_; rotate_left; intro _; clear_value x; rotate_left; unfold x; clear x) | (refine kept_cut_fun3 (s₀ := s₀) (x := x) ?_ ?_; rotate_left; intro _; clear_value x; rotate_left; unfold x; clear x) | (refine kept_cut_val (s₀ := s₀) (x := x) ?_ ?_; rotate_left; intro _; clear_value x; rotate_left; unfold x; clear x) | clear_value x | skip)
    | with_reducible apply Kept.ite
    | with_reducible apply KeptX.ite
    | with_reducible apply KeptX.next
    | with_reducible exact KeptX.refused
    | with_reducible apply pfWrite_kept
    | with_reducible apply writeAllotCfg_kept
    | with_reducible apply logDropped_kept
    | with_reducible apply setRg_kept
    | (with_reducible refine KeptX.of_eq ?_ ‹_›)
    | with_reducible apply_assumption -exfalso -symm
    | split

theorem scrubAllot_kept {s₀ s : State} {al : Nat} (hK : Kept s₀ s) :
    Kept s₀ (scrubAllot s al) := by
  unfold scrubAllot
  repeat' first
    | with_reducible assumption
    | intro _
    | (extract_lets +onlyGivenNames x; first | (refine Kept.cut (s₀ := s₀) (x := x) ?_ ?_; rotate_left; intro _; clear_value x; rotate_left; unfold x; clear x) | clear_value x | skip)
    | with_reducible apply Kept.ite
    | with_reducible apply Kept.foldl
    | with_reducible apply setTerrace_kept
    | with_reducible apply satAdd_kept
    | with_reducible apply updAllot_kept
    | split

theorem allotResetOp_kept {s₀ s : State} {al : Nat} (hK : Kept s₀ s) :
    Kept s₀ (allotResetOp s al) := by
  unfold allotResetOp
  repeat' first
    | with_reducible assumption
    | intro _
    | (extract_lets +onlyGivenNames x; first | (refine Kept.cut (s₀ := s₀) (x := x) ?_ ?_; rotate_left; intro _; clear_value x; rotate_left; unfold x; clear x) | clear_value x | skip)
    | with_reducible apply Kept.ite
    | with_reducible apply Kept.foldl
    | with_reducible apply replayItem_kept
    | with_reducible apply scrubAllot_kept
    | with_reducible apply updAllot_kept
    | split

theorem allotKillOp_kept {s₀ s : State} {al : Nat} (hK : Kept s₀ s) :
    Kept s₀ (allotKillOp s al) := by
  unfold allotKillOp
  repeat' first
    | with_reducible assumption
    | intro _
    | (extract_lets +onlyGivenNames x; first | (refine Kept.cut (s₀ := s₀) (x := x) ?_ ?_; rotate_left; intro _; clear_value x; rotate_left; unfold x; clear x) | clear_value x | skip)
    | with_reducible apply Kept.ite
    | with_reducible apply Kept.foldl
    | with_reducible apply scrubAllot_kept
    | with_reducible apply completeItem_kept
    | with_reducible apply stopItem_kept
    | with_reducible apply updAllot_kept
    | split

theorem allotCommand_kept {s₀ s : State} {r : Requester} {al : Nat} {op : Nat} {f : State → State} (hK : Kept s₀ s) (h_f : ∀ x0, Kept s₀ x0 → Kept s₀ (f x0)) :
    Kept s₀ (allotCommand r al op s f) := by
  unfold allotCommand
  repeat' first
    | with_reducible assumption
    | intro _
    | (extract_lets +onlyGivenNames x; first | (refine Kept.cut (s₀ := s₀) (x := x) ?_ ?_; rotate_left; intro _; clear_value x; rotate_left; unfold x; clear x) | clear_value x | skip)
    | with_reducible apply Kept.ite
    | with_reducible apply pfWrite_kept
    | with_reducible apply logDropped_kept
    | with_reducible apply h_f
    | split

theorem execAllotReset_kept {s₀ s : State} {r : Requester} {allot : Fin 1024} (hK : Kept s₀ s) :
    KeptX s₀ (execAllotReset r allot s) := by
  unfold execAllotReset
  repeat' first
    | with_reducible assumption
    | intro _
    | (extract_lets +onlyGivenNames x; first | (refine Kept.cut (s₀ := s₀) (x := x) ?_ ?_; rotate_left; intro _; clear_value x; rotate_left; unfold x; clear x) | (refine KeptX.cut (s₀ := s₀) (x := x) ?_ ?_; rotate_left; intro _; clear_value x; rotate_left; unfold x; clear x) | clear_value x | skip)
    | with_reducible apply Kept.ite
    | with_reducible apply KeptX.ite
    | with_reducible apply KeptX.next
    | with_reducible exact KeptX.refused
    | with_reducible apply allotResetOp_kept
    | with_reducible apply allotCommand_kept
    | (with_reducible refine KeptX.of_eq ?_ ‹_›)
    | split

theorem execAllotKill_kept {s₀ s : State} {r : Requester} {allot : Fin 1024} (hK : Kept s₀ s) :
    KeptX s₀ (execAllotKill r allot s) := by
  unfold execAllotKill
  repeat' first
    | with_reducible assumption
    | intro _
    | (extract_lets +onlyGivenNames x; first | (refine Kept.cut (s₀ := s₀) (x := x) ?_ ?_; rotate_left; intro _; clear_value x; rotate_left; unfold x; clear x) | (refine KeptX.cut (s₀ := s₀) (x := x) ?_ ?_; rotate_left; intro _; clear_value x; rotate_left; unfold x; clear x) | clear_value x | skip)
    | with_reducible apply Kept.ite
    | with_reducible apply KeptX.ite
    | with_reducible apply KeptX.next
    | with_reducible exact KeptX.refused
    | with_reducible apply allotKillOp_kept
    | with_reducible apply allotCommand_kept
    | (with_reducible refine KeptX.of_eq ?_ ‹_›)
    | split

theorem execAllotCmdDone_kept {s₀ s : State} {allot : Fin 1024} (hK : Kept s₀ s) :
    KeptX s₀ (execAllotCmdDone allot s) := by
  unfold execAllotCmdDone
  repeat' first
    | with_reducible assumption
    | intro _
    | (extract_lets +onlyGivenNames x; first | (refine Kept.cut (s₀ := s₀) (x := x) ?_ ?_; rotate_left; intro _; clear_value x; rotate_left; unfold x; clear x) | (refine KeptX.cut (s₀ := s₀) (x := x) ?_ ?_; rotate_left; intro _; clear_value x; rotate_left; unfold x; clear x) | clear_value x | skip)
    | with_reducible apply Kept.ite
    | with_reducible apply KeptX.ite
    | with_reducible apply KeptX.next
    | with_reducible exact KeptX.refused
    | with_reducible apply gaugePost_kept
    | with_reducible apply updAllot_kept
    | (with_reducible refine KeptX.of_eq ?_ ‹_›)
    | split

end Sys2Proof.Machine
end

