-- ==== Sys2Proof/Laws/KeptArrays.lean ====
section
/-! SUPPORT. What the operations and meanings of Machine/Arrays.lean keep. -/

set_option linter.unreachableTactic false
set_option linter.unusedTactic false
set_option linter.unusedVariables false
set_option linter.tactic.unusedName false

namespace Sys2Proof.Machine

theorem askRetire_kept {s₀ s : State} {trigger : Nat} {tgs : List Nat} (hK : Kept s₀ s) :
    Kept s₀ (askRetire s trigger tgs) := by
  unfold askRetire
  repeat' first
    | with_reducible assumption
    | intro _
    | (extract_lets +onlyGivenNames x; first | (refine Kept.cut (s₀ := s₀) (x := x) ?_ ?_; rotate_left; intro _; clear_value x; rotate_left; unfold x; clear x) | clear_value x | skip)
    | with_reducible apply Kept.ite
    | (with_reducible refine set_retQ ?_; with_reducible assumption)
    | split

theorem fourthArray_kept {s₀ s : State} {tg : Nat} {thr : Nat} {pc : Nat} (hK : Kept s₀ s) :
    Kept s₀ (fourthArray s tg thr pc) := by
  unfold fourthArray
  repeat' first
    | with_reducible assumption
    | intro _
    | (extract_lets +onlyGivenNames x; first | (refine Kept.cut (s₀ := s₀) (x := x) ?_ ?_; rotate_left; intro _; clear_value x; rotate_left; unfold x; clear x) | clear_value x | skip)
    | with_reducible apply Kept.ite
    | with_reducible apply rasAppend_kept
    | with_reducible apply updRun_kept
    | with_reducible apply askRetire_kept
    | with_reducible apply stopItem_kept
    | split

theorem execArrayCheckFail_kept {s₀ s : State} {tg : Fin 64} {check : ArrayCheck} (hK : Kept s₀ s) :
    KeptX s₀ (execArrayCheckFail tg check s) := by
  unfold execArrayCheckFail
  repeat' first
    | with_reducible assumption
    | intro _
    | (extract_lets +onlyGivenNames x; first | (refine Kept.cut (s₀ := s₀) (x := x) ?_ ?_; rotate_left; intro _; clear_value x; rotate_left; unfold x; clear x) | (refine KeptX.cut (s₀ := s₀) (x := x) ?_ ?_; rotate_left; intro _; clear_value x; rotate_left; unfold x; clear x) | clear_value x | skip)
    | with_reducible apply Kept.ite
    | with_reducible apply KeptX.ite
    | with_reducible apply KeptX.next
    | with_reducible exact KeptX.refused
    | with_reducible apply rasAppend_kept
    | with_reducible apply Cb.again_kept
    | with_reducible apply fourthArray_kept
    | with_reducible apply updTerrace_kept
    | with_reducible apply intCause_kept
    | with_reducible apply satAdd_kept
    | (with_reducible refine KeptX.of_eq ?_ ‹_›)
    | split

end Sys2Proof.Machine
end

