-- ==== Sys2Proof/Laws/KeptCistern.lean ====
section
/-! SUPPORT. What the operations and meanings of Machine/Cistern.lean keep. -/

set_option linter.unreachableTactic false
set_option linter.unusedTactic false
set_option linter.unusedVariables false
set_option linter.tactic.unusedName false

namespace Sys2Proof.Machine

def KeptG (s₀ : State) : Grab → Prop
  | .got _ t => Kept s₀ t
  | .wait t => Kept s₀ t
  | .exhausted => True

theorem KeptG.got {s₀ t : State} {i : Nat} (h : Kept s₀ t) : KeptG s₀ (.got i t) := h
theorem KeptG.wait {s₀ t : State} (h : Kept s₀ t) : KeptG s₀ (.wait t) := h
theorem KeptG.none {s₀ : State} : KeptG s₀ .exhausted := trivial
theorem KeptG.of_got {s₀ t : State} {i : Nat} {g : Grab} (h : KeptG s₀ g) (e : g = .got i t) : Kept s₀ t := by subst e; exact h
theorem KeptG.of_wait {s₀ t : State} {g : Grab} (h : KeptG s₀ g) (e : g = .wait t) : Kept s₀ t := by subst e; exact h
theorem KeptG.ite {s₀ : State} {c : Prop} [Decidable c] {a b : Grab} (h : KeptG s₀ a) (h' : KeptG s₀ b) : KeptG s₀ (if c then a else b) := by
  split <;> assumption
theorem KeptG.cut {s₀ : State} {Q : Prop} {x : Grab} (a : KeptG s₀ x) (b : KeptG s₀ x → Q) : Q := b a

/-- The answer of an agent keeps what the meanings keep. -/
def KeptA (s₀ : State) : CisAns → Prop
  | .done _ t => Kept s₀ t
  | .wait _ t => Kept s₀ t

/-- The end of an append keeps what the meanings keep. -/
def KeptE (s₀ : State) : AppEnd → Prop
  | .done t => Kept s₀ t
  | .wait t => Kept s₀ t
  | .exhausted t => Kept s₀ t

theorem KeptE.ite {s₀ : State} {c : Prop} [Decidable c] {a b : AppEnd} (h : KeptE s₀ a) (h' : KeptE s₀ b) : KeptE s₀ (if c then a else b) := by
  split <;> assumption

theorem KeptA.done {s₀ t : State} {k : Nat} (h : Kept s₀ t) : KeptA s₀ (.done k t) := h
theorem KeptA.wait {s₀ t : State} {o : CisOp} (h : Kept s₀ t) : KeptA s₀ (.wait o t) := h
theorem KeptA.of_done {s₀ t : State} {k : Nat} {a : CisAns} (h : KeptA s₀ a) (e : a = .done k t) : Kept s₀ t := by subst e; exact h
theorem KeptA.of_wait {s₀ t : State} {o : CisOp} {a : CisAns} (h : KeptA s₀ a) (e : a = .wait o t) : Kept s₀ t := by subst e; exact h
theorem KeptA.cut {s₀ : State} {Q : Prop} {x : CisAns} (a : KeptA s₀ x) (b : KeptA s₀ x → Q) : Q := b a
theorem KeptA.ite {s₀ : State} {c : Prop} [Decidable c] {a b : CisAns} (h : KeptA s₀ a) (h' : KeptA s₀ b) : KeptA s₀ (if c then a else b) := by
  split <;> assumption

theorem cisNote_kept {s₀ s : State} {n : Nat} {al : Nat} {copy : Bool} {l : List Acc} (hK : Kept s₀ s) :
    Kept s₀ (cisNote s n al copy l) := by
  unfold cisNote
  repeat' first
    | with_reducible assumption
    | intro _
    | (extract_lets +onlyGivenNames x; first | (refine Kept.cut (s₀ := s₀) (x := x) ?_ ?_; rotate_left; intro _; clear_value x; rotate_left; unfold x; clear x) | (refine KeptQ.cut (s₀ := s₀) (x := x) ?_ ?_; rotate_left; intro _; clear_value x; rotate_left; unfold x; clear x) | clear_value x | skip)
    | with_reducible apply Kept.ite
    | with_reducible apply KeptQ.ite
    | (with_reducible refine KeptQ.fst ?_; with_reducible assumption)
    | with_reducible exact KeptQ.val ‹_›
    | with_reducible refine KeptQ.fst (noteOwed_kept ?_)
    | with_reducible apply noteOwed_kept
    | (with_reducible refine KeptQ.of_eq ?_ ‹_›)
    | split
    | with_reducible apply KeptQ.mk

theorem cisStore_kept {s₀ s : State} {n : Nat} {al : Nat} {va : Nat} {copy : Bool} {bs : List PByte} (hK : Kept s₀ s) :
    Kept s₀ (cisStore s n al va copy bs) := by
  unfold cisStore
  repeat' first
    | with_reducible assumption
    | intro _
    | (extract_lets +onlyGivenNames x; first | (refine Kept.cut (s₀ := s₀) (x := x) ?_ ?_; rotate_left; intro _; clear_value x; rotate_left; unfold x; clear x) | (refine KeptQ.cut (s₀ := s₀) (x := x) ?_ ?_; rotate_left; intro _; clear_value x; rotate_left; unfold x; clear x) | clear_value x | skip)
    | with_reducible apply Kept.ite
    | with_reducible apply KeptQ.ite
    | (with_reducible refine KeptQ.fst ?_; with_reducible assumption)
    | with_reducible exact KeptQ.val ‹_›
    | with_reducible refine KeptQ.fst (vWrite_kept ?_)
    | with_reducible apply vWrite_kept
    | with_reducible apply cisNote_kept
    | (with_reducible refine KeptQ.of_eq ?_ ‹_›)
    | split
    | with_reducible apply KeptQ.mk

theorem cisRecord_kept {s₀ s : State} {n : Nat} {al : Nat} {va : Nat} {bs : List Byte} (hK : Kept s₀ s) :
    Kept s₀ (cisRecord s n al va bs) := by
  unfold cisRecord
  repeat' first
    | with_reducible assumption
    | intro _
    | (extract_lets +onlyGivenNames x; first | (refine Kept.cut (s₀ := s₀) (x := x) ?_ ?_; rotate_left; intro _; clear_value x; rotate_left; unfold x; clear x) | clear_value x | skip)
    | with_reducible apply Kept.ite
    | with_reducible apply cisStore_kept
    | with_reducible apply cisNote_kept
    | split

theorem cWrite_kept {s₀ s : State} {al : Nat} {n : Nat} {va : Nat} {k : Nat} {v : Nat} (hK : Kept s₀ s) :
    Kept s₀ (cWrite s al n va k v) := by
  unfold cWrite
  repeat' first
    | with_reducible assumption
    | intro _
    | (extract_lets +onlyGivenNames x; first | (refine Kept.cut (s₀ := s₀) (x := x) ?_ ?_; rotate_left; intro _; clear_value x; rotate_left; unfold x; clear x) | clear_value x | skip)
    | with_reducible apply Kept.ite
    | with_reducible apply cisStore_kept
    | split

theorem Cb.wr_kept {s₀ s : State} {c : Cb} {va : Nat} {k : Nat} {v : Nat} (hK : Kept s₀ s) :
    Kept s₀ (Cb.wr c s va k v) := by
  unfold Cb.wr
  repeat' first
    | with_reducible assumption
    | intro _
    | (extract_lets +onlyGivenNames x; first | (refine Kept.cut (s₀ := s₀) (x := x) ?_ ?_; rotate_left; intro _; clear_value x; rotate_left; unfold x; clear x) | clear_value x | skip)
    | with_reducible apply Kept.ite
    | with_reducible apply cWrite_kept
    | split

theorem Cb.pop_kept {s₀ s : State} {c : Cb} {a : Nat} (hK : Kept s₀ s) :
    KeptR s₀ (Cb.pop c s a) := by
  unfold Cb.pop
  repeat' first
    | with_reducible assumption
    | intro _
    | (extract_lets +onlyGivenNames x; first | (refine Kept.cut (s₀ := s₀) (x := x) ?_ ?_; rotate_left; intro _; clear_value x; rotate_left; unfold x; clear x) | (refine KeptR.cut (s₀ := s₀) (x := x) ?_ ?_; rotate_left; intro _; clear_value x; rotate_left; unfold x; clear x) | clear_value x | skip)
    | with_reducible apply Kept.ite
    | with_reducible apply KeptR.ite
    | with_reducible exact KeptR.val ‹_›
    | with_reducible apply KeptR.some
    | with_reducible exact KeptR.none
    | with_reducible apply Cb.wr_kept
    | (with_reducible refine KeptR.of_eq ?_ ‹_›)
    | split

theorem Cb.push_kept {s₀ s : State} {c : Cb} {a : Nat} {i : Nat} (hK : Kept s₀ s) :
    Kept s₀ (Cb.push c s a i) := by
  unfold Cb.push
  repeat' first
    | with_reducible assumption
    | intro _
    | (extract_lets +onlyGivenNames x; first | (refine Kept.cut (s₀ := s₀) (x := x) ?_ ?_; rotate_left; intro _; clear_value x; rotate_left; unfold x; clear x) | clear_value x | skip)
    | with_reducible apply Kept.ite
    | with_reducible apply Cb.wr_kept
    | split

theorem Cb.setRef_kept {s₀ s : State} {c : Cb} {p : Nat} {i : Nat} {v : Nat} (hK : Kept s₀ s) :
    Kept s₀ (Cb.setRef c s p i v) := by
  unfold Cb.setRef
  repeat' first
    | with_reducible assumption
    | intro _
    | (extract_lets +onlyGivenNames x; first | (refine Kept.cut (s₀ := s₀) (x := x) ?_ ?_; rotate_left; intro _; clear_value x; rotate_left; unfold x; clear x) | clear_value x | skip)
    | with_reducible apply Kept.ite
    | with_reducible apply Cb.wr_kept
    | split

theorem Cb.unref_kept {s₀ s : State} {c : Cb} {p : Nat} {i : Nat} (hK : Kept s₀ s) :
    Kept s₀ (Cb.unref c s p i) := by
  unfold Cb.unref
  repeat' first
    | with_reducible assumption
    | intro _
    | (extract_lets +onlyGivenNames x; first | (refine Kept.cut (s₀ := s₀) (x := x) ?_ ?_; rotate_left; intro _; clear_value x; rotate_left; unfold x; clear x) | clear_value x | skip)
    | with_reducible apply Kept.ite
    | with_reducible apply Cb.push_kept
    | with_reducible apply Cb.setRef_kept
    | split

theorem Cb.setSeq_kept {s₀ s : State} {c : Cb} {q : Nat} {x : CSeq} (hK : Kept s₀ s) :
    Kept s₀ (Cb.setSeq c s q x) := by
  unfold Cb.setSeq
  repeat' first
    | with_reducible assumption
    | intro _
    | (extract_lets +onlyGivenNames x; first | (refine Kept.cut (s₀ := s₀) (x := x) ?_ ?_; rotate_left; intro _; clear_value x; rotate_left; unfold x; clear x) | clear_value x | skip)
    | with_reducible apply Kept.ite
    | with_reducible apply cisRecord_kept
    | split

theorem Cb.setPte_kept {s₀ s : State} {c : Cb} {q : Nat} {i : Nat} {e : CPte} (hK : Kept s₀ s) :
    Kept s₀ (Cb.setPte c s q i e) := by
  unfold Cb.setPte
  repeat' first
    | with_reducible assumption
    | intro _
    | (extract_lets +onlyGivenNames x; first | (refine Kept.cut (s₀ := s₀) (x := x) ?_ ?_; rotate_left; intro _; clear_value x; rotate_left; unfold x; clear x) | clear_value x | skip)
    | with_reducible apply Kept.ite
    | with_reducible apply cisRecord_kept
    | split

theorem Cb.copy_kept {s₀ s : State} {c : Cb} {src : Nat} {dst : Nat} {k : Nat} (hK : Kept s₀ s) :
    Kept s₀ (Cb.copy c s src dst k) := by
  unfold Cb.copy
  repeat' first
    | with_reducible assumption
    | intro _
    | (extract_lets +onlyGivenNames x; first | (refine Kept.cut (s₀ := s₀) (x := x) ?_ ?_; rotate_left; intro _; clear_value x; rotate_left; unfold x; clear x) | clear_value x | skip)
    | with_reducible apply Kept.ite
    | with_reducible apply cisStore_kept
    | with_reducible apply cisNote_kept
    | split

theorem Cb.copyTokens_kept {s₀ s : State} {c : Cb} {x : CPool} {src : Nat} {n : Nat} {t : Nat} {dst : Nat} {m : Nat} {u : Nat} {k : Nat} (hK : Kept s₀ s) :
    Kept s₀ (Cb.copyTokens c s x src n t dst m u k) := by
  unfold Cb.copyTokens
  repeat' first
    | with_reducible assumption
    | intro _
    | (extract_lets +onlyGivenNames x; first | (refine Kept.cut (s₀ := s₀) (x := x) ?_ ?_; rotate_left; intro _; clear_value x; rotate_left; unfold x; clear x) | clear_value x | skip)
    | with_reducible apply Kept.ite
    | with_reducible apply Kept.foldl
    | with_reducible apply Cb.copy_kept
    | split

theorem Cb.release_kept {s₀ s : State} {c : Cb} {q : Nat} {p : Nat} {i : Nat} (hK : Kept s₀ s) :
    Kept s₀ (Cb.release c s q p i) := by
  unfold Cb.release
  repeat' first
    | with_reducible assumption
    | intro _
    | (extract_lets +onlyGivenNames x; first | (refine Kept.cut (s₀ := s₀) (x := x) ?_ ?_; rotate_left; intro _; clear_value x; rotate_left; unfold x; clear x) | clear_value x | skip)
    | with_reducible apply Kept.ite
    | with_reducible apply Cb.setPte_kept
    | with_reducible apply Cb.push_kept
    | with_reducible apply Cb.unref_kept
    | split

theorem Cb.releaseDown_kept {s₀ s : State} {c : Cb} {q : Nat} {p : Nat} {lo : Nat} {hi : Nat} (hK : Kept s₀ s) :
    Kept s₀ (Cb.releaseDown c s q p lo hi) := by
  unfold Cb.releaseDown
  repeat' first
    | with_reducible assumption
    | intro _
    | (extract_lets +onlyGivenNames x; first | (refine Kept.cut (s₀ := s₀) (x := x) ?_ ?_; rotate_left; intro _; clear_value x; rotate_left; unfold x; clear x) | clear_value x | skip)
    | with_reducible apply Kept.ite
    | with_reducible apply Kept.foldl
    | with_reducible apply Cb.release_kept
    | split

theorem Cb.beginOut_kept {s₀ s : State} {c : Cb} {v : Nat} (hK : Kept s₀ s) :
    KeptO s₀ (Cb.beginOut c s v) := by
  unfold Cb.beginOut
  repeat' first
    | with_reducible assumption
    | intro _
    | (extract_lets +onlyGivenNames x; first | (refine Kept.cut (s₀ := s₀) (x := x) ?_ ?_; rotate_left; intro _; clear_value x; rotate_left; unfold x; clear x) | (refine KeptO.cut (s₀ := s₀) (x := x) ?_ ?_; rotate_left; intro _; clear_value x; rotate_left; unfold x; clear x) | (refine KeptR.cut (s₀ := s₀) (x := x) ?_ ?_; rotate_left; intro _; clear_value x; rotate_left; unfold x; clear x) | clear_value x | skip)
    | with_reducible apply Kept.ite
    | with_reducible apply KeptO.ite
    | with_reducible exact KeptO.val ‹_›
    | with_reducible apply KeptO.some
    | with_reducible exact KeptO.none
    | with_reducible apply KeptR.ite
    | with_reducible exact KeptR.val ‹_›
    | with_reducible apply KeptR.some
    | with_reducible exact KeptR.none
    | with_reducible apply Cb.setSeq_kept
    | with_reducible apply Cb.pop_kept
    | (with_reducible refine KeptO.of_eq ?_ ‹_›)
    | (with_reducible refine KeptR.of_eq ?_ ‹_›)
    | split

theorem Cb.swapVictim_kept {s₀ s : State} {c : Cb} {p : Nat} (hK : Kept s₀ s) :
    KeptG s₀ (Cb.swapVictim c s p) := by
  unfold Cb.swapVictim
  repeat' first
    | with_reducible assumption
    | intro _
    | (extract_lets +onlyGivenNames x; first | (refine Kept.cut (s₀ := s₀) (x := x) ?_ ?_; rotate_left; intro _; clear_value x; rotate_left; unfold x; clear x) | (refine KeptG.cut (s₀ := s₀) (x := x) ?_ ?_; rotate_left; intro _; clear_value x; rotate_left; unfold x; clear x) | (refine KeptO.cut (s₀ := s₀) (x := x) ?_ ?_; rotate_left; intro _; clear_value x; rotate_left; unfold x; clear x) | clear_value x | skip)
    | with_reducible apply Kept.ite
    | with_reducible apply KeptG.ite
    | with_reducible apply KeptO.ite
    | with_reducible exact KeptO.val ‹_›
    | with_reducible apply KeptO.some
    | with_reducible exact KeptO.none
    | with_reducible apply Cb.beginOut_kept
    | (with_reducible refine KeptO.of_eq ?_ ‹_›)
    | (with_reducible refine KeptG.of_got ?_ ‹_›)
    | (with_reducible refine KeptG.of_wait ?_ ‹_›)
    | with_reducible apply KeptG.got
    | with_reducible apply KeptG.wait
    | with_reducible exact KeptG.none
    | split

theorem Cb.spillOne_kept {s₀ s t : State} {c : Cb} {p v i : Nat} (hK : Kept s₀ s)
    (e : c.spillOne s p v = some (some (i, t))) : Kept s₀ t := by
  unfold Cb.spillOne at e
  extract_lets x at e
  split at e
  · cases e
  · extract_lets y slot at e
    have hs : KeptR s₀ slot := by
      unfold slot
      refine KeptR.ite (KeptR.some hK) ?_
      split
      · exact KeptR.none
      · exact KeptR.some (Cb.copy_kept (KeptR.of_eq (Cb.pop_kept hK) ‹_›))
    clear_value slot
    split at e
    · cases e
    · extract_lets s1 at e
      have h1 : Kept s₀ s1 := Cb.setRef_kept (Cb.setPte_kept (KeptR.val hs))
      cases e
      exact satAdd_kept h1

theorem Cb.grabPage_kept {s₀ s : State} {c : Cb} {p : Nat} (hK : Kept s₀ s) : KeptG s₀ (c.grabPage s p) := by
  unfold Cb.grabPage
  split
  · rename_i e
    exact Cb.setRef_kept (KeptR.of_eq (Cb.pop_kept hK) e)
  · split
    · split
      · rename_i e
        obtain ⟨v, _, hv⟩ := List.exists_of_findSome?_eq_some e
        exact Cb.setRef_kept (Cb.spillOne_kept hK hv)
      · trivial
    · exact Cb.swapVictim_kept hK

theorem Cb.grabStage_kept {s₀ s : State} {c : Cb} {p : Nat} (hK : Kept s₀ s) :
    KeptG s₀ (Cb.grabStage c s p) := by
  unfold Cb.grabStage
  repeat' first
    | with_reducible assumption
    | intro _
    | (extract_lets +onlyGivenNames x; first | (refine Kept.cut (s₀ := s₀) (x := x) ?_ ?_; rotate_left; intro _; clear_value x; rotate_left; unfold x; clear x) | (refine KeptG.cut (s₀ := s₀) (x := x) ?_ ?_; rotate_left; intro _; clear_value x; rotate_left; unfold x; clear x) | (refine KeptR.cut (s₀ := s₀) (x := x) ?_ ?_; rotate_left; intro _; clear_value x; rotate_left; unfold x; clear x) | clear_value x | skip)
    | with_reducible apply Kept.ite
    | with_reducible apply KeptG.ite
    | with_reducible apply KeptR.ite
    | with_reducible exact KeptR.val ‹_›
    | with_reducible apply KeptR.some
    | with_reducible exact KeptR.none
    | with_reducible apply Cb.pop_kept
    | with_reducible apply Cb.swapVictim_kept
    | (with_reducible refine KeptR.of_eq ?_ ‹_›)
    | (with_reducible refine KeptG.of_got ?_ ‹_›)
    | (with_reducible refine KeptG.of_wait ?_ ‹_›)
    | with_reducible apply KeptG.got
    | with_reducible apply KeptG.wait
    | with_reducible exact KeptG.none
    | split

theorem cisFaulted_kept {s₀ s : State} {slot : Option Nat} {al : Nat} {n : Nat} {e : Nat × Option AccKind} (hK : Kept s₀ s) :
    Kept s₀ (cisFaulted s slot al n e) := by
  unfold cisFaulted
  repeat' first
    | with_reducible assumption
    | intro _
    | (extract_lets +onlyGivenNames x; first | (refine Kept.cut (s₀ := s₀) (x := x) ?_ ?_; rotate_left; intro _; clear_value x; rotate_left; unfold x; clear x) | clear_value x | skip)
    | with_reducible apply Kept.ite
    | with_reducible apply logStream_kept
    | split

theorem cisLost_kept {s₀ s : State} {slot : Option Nat} {al : Nat} (hK : Kept s₀ s) :
    Kept s₀ (cisLost s slot al) := by
  unfold cisLost
  repeat' first
    | with_reducible assumption
    | intro _
    | (extract_lets +onlyGivenNames x; first | (refine Kept.cut (s₀ := s₀) (x := x) ?_ ?_; rotate_left; intro _; clear_value x; rotate_left; unfold x; clear x) | clear_value x | skip)
    | with_reducible apply Kept.ite
    | with_reducible apply cisFaulted_kept
    | split

theorem Cb.again_kept {s₀ s : State} {c : Cb} {q : Nat} {x : CSeq} {tag : Nat} (hK : Kept s₀ s) :
    Kept s₀ (Cb.again c s q x tag) := by
  unfold Cb.again
  repeat' first
    | with_reducible assumption
    | intro _
    | (extract_lets +onlyGivenNames x; first | (refine Kept.cut (s₀ := s₀) (x := x) ?_ ?_; rotate_left; intro _; clear_value x; rotate_left; unfold x; clear x) | clear_value x | skip)
    | with_reducible apply Kept.ite
    | with_reducible apply Cb.setSeq_kept
    | split

theorem cisOpen_kept {s₀ s : State} {c : Cb} {o : CisOp} (hK : Kept s₀ s) :
    KeptA s₀ (cisOpen c s o) := by
  unfold cisOpen
  repeat' first
    | with_reducible assumption
    | intro _
    | (extract_lets +onlyGivenNames x; first | (refine Kept.cut (s₀ := s₀) (x := x) ?_ ?_; rotate_left; intro _; clear_value x; rotate_left; unfold x; clear x) | (refine KeptA.cut (s₀ := s₀) (x := x) ?_ ?_; rotate_left; intro _; clear_value x; rotate_left; unfold x; clear x) | (refine KeptG.cut (s₀ := s₀) (x := x) ?_ ?_; rotate_left; intro _; clear_value x; rotate_left; unfold x; clear x) | clear_value x | skip)
    | with_reducible apply Kept.ite
    | with_reducible apply KeptA.ite
    | with_reducible apply KeptA.done
    | with_reducible apply KeptA.wait
    | with_reducible apply KeptG.ite
    | with_reducible apply Cb.again_kept
    | with_reducible apply Cb.grabStage_kept
    | with_reducible apply Cb.setSeq_kept
    | (with_reducible refine KeptA.of_done ?_ ‹_›)
    | (with_reducible refine KeptA.of_wait ?_ ‹_›)
    | (with_reducible refine KeptG.of_got ?_ ‹_›)
    | (with_reducible refine KeptG.of_wait ?_ ‹_›)
    | with_reducible apply KeptG.got
    | with_reducible apply KeptG.wait
    | with_reducible exact KeptG.none
    | split

theorem Cb.forkEntries_kept {s₀ s : State} {c : Cb} {q : Nat} {par : Nat} {p : Nat} {n : Nat} (hK : Kept s₀ s) :
    Kept s₀ (Cb.forkEntries c s q par p n) := by
  unfold Cb.forkEntries
  repeat' first
    | with_reducible assumption
    | intro _
    | (extract_lets +onlyGivenNames x; first | (refine Kept.cut (s₀ := s₀) (x := x) ?_ ?_; rotate_left; intro _; clear_value x; rotate_left; unfold x; clear x) | clear_value x | skip)
    | with_reducible apply Kept.ite
    | with_reducible apply Kept.foldl
    | with_reducible apply Cb.setPte_kept
    | with_reducible apply Cb.setRef_kept
    | split

theorem Cb.copyTail_kept {s₀ s : State} {c : Cb} {par : Nat} {x : CSeq} {k : Nat} {n : Nat} {dst : Nat} (hK : Kept s₀ s) :
    Kept s₀ (Cb.copyTail c s par x k n dst) := by
  unfold Cb.copyTail
  repeat' first
    | with_reducible assumption
    | intro _
    | (extract_lets +onlyGivenNames x; first | (refine Kept.cut (s₀ := s₀) (x := x) ?_ ?_; rotate_left; intro _; clear_value x; rotate_left; unfold x; clear x) | clear_value x | skip)
    | with_reducible apply Kept.ite
    | with_reducible apply Cb.copyTokens_kept
    | split

theorem cisFork_kept {s₀ s : State} {c : Cb} {o : CisOp} (hK : Kept s₀ s) :
    KeptA s₀ (cisFork c s o) := by
  unfold cisFork
  repeat' first
    | with_reducible assumption
    | intro _
    | (extract_lets +onlyGivenNames x; first | (refine Kept.cut (s₀ := s₀) (x := x) ?_ ?_; rotate_left; intro _; clear_value x; rotate_left; unfold x; clear x) | (refine KeptA.cut (s₀ := s₀) (x := x) ?_ ?_; rotate_left; intro _; clear_value x; rotate_left; unfold x; clear x) | (refine KeptG.cut (s₀ := s₀) (x := x) ?_ ?_; rotate_left; intro _; clear_value x; rotate_left; unfold x; clear x) | clear_value x | skip)
    | with_reducible apply Kept.ite
    | with_reducible apply KeptA.ite
    | with_reducible apply KeptA.done
    | with_reducible apply KeptA.wait
    | with_reducible apply KeptG.ite
    | with_reducible apply Cb.again_kept
    | with_reducible apply Cb.copyTail_kept
    | with_reducible apply Cb.grabStage_kept
    | with_reducible apply Cb.setSeq_kept
    | with_reducible apply Cb.forkEntries_kept
    | (with_reducible refine KeptA.of_done ?_ ‹_›)
    | (with_reducible refine KeptA.of_wait ?_ ‹_›)
    | (with_reducible refine KeptG.of_got ?_ ‹_›)
    | (with_reducible refine KeptG.of_wait ?_ ‹_›)
    | with_reducible apply KeptG.got
    | with_reducible apply KeptG.wait
    | with_reducible exact KeptG.none
    | split

theorem Cb.abortIn_kept {s₀ s : State} {c : Cb} {q : Nat} (hK : Kept s₀ s) :
    Kept s₀ (Cb.abortIn c s q) := by
  unfold Cb.abortIn
  repeat' first
    | with_reducible assumption
    | intro _
    | (extract_lets +onlyGivenNames x; first | (refine Kept.cut (s₀ := s₀) (x := x) ?_ ?_; rotate_left; intro _; clear_value x; rotate_left; unfold x; clear x) | clear_value x | skip)
    | with_reducible apply Kept.ite
    | with_reducible apply Kept.foldl
    | with_reducible apply Cb.setSeq_kept
    | with_reducible apply Cb.setPte_kept
    | with_reducible apply Cb.push_kept
    | with_reducible apply Cb.unref_kept
    | split

theorem Cb.pageIn_kept {s₀ s : State} {c : Cb} {q : Nat} (hK : Kept s₀ s) :
    KeptG s₀ (Cb.pageIn c s q) := by
  unfold Cb.pageIn
  repeat' first
    | with_reducible assumption
    | intro _
    | (extract_lets +onlyGivenNames x; first | (refine Kept.cut (s₀ := s₀) (x := x) ?_ ?_; rotate_left; intro _; clear_value x; rotate_left; unfold x; clear x) | (refine KeptG.cut (s₀ := s₀) (x := x) ?_ ?_; rotate_left; intro _; clear_value x; rotate_left; unfold x; clear x) | clear_value x | skip)
    | with_reducible apply Kept.ite
    | with_reducible apply KeptG.ite
    | with_reducible apply Cb.setPte_kept
    | with_reducible apply Cb.grabPage_kept
    | (with_reducible refine KeptG.of_got ?_ ‹_›)
    | (with_reducible refine KeptG.of_wait ?_ ‹_›)
    | with_reducible apply KeptG.got
    | with_reducible apply KeptG.wait
    | with_reducible exact KeptG.none
    | split

theorem cisHold_kept {s₀ s : State} {c : Cb} {o : CisOp} (hK : Kept s₀ s) :
    KeptA s₀ (cisHold c s o) := by
  unfold cisHold
  repeat' first
    | with_reducible assumption
    | intro _
    | (extract_lets +onlyGivenNames x; first | (refine Kept.cut (s₀ := s₀) (x := x) ?_ ?_; rotate_left; intro _; clear_value x; rotate_left; unfold x; clear x) | (refine KeptA.cut (s₀ := s₀) (x := x) ?_ ?_; rotate_left; intro _; clear_value x; rotate_left; unfold x; clear x) | (refine KeptG.cut (s₀ := s₀) (x := x) ?_ ?_; rotate_left; intro _; clear_value x; rotate_left; unfold x; clear x) | clear_value x | skip)
    | with_reducible apply Kept.ite
    | with_reducible apply KeptA.ite
    | with_reducible apply KeptA.done
    | with_reducible apply KeptA.wait
    | with_reducible apply KeptG.ite
    | with_reducible apply Cb.pageIn_kept
    | with_reducible apply Cb.grabStage_kept
    | with_reducible apply Cb.setSeq_kept
    | with_reducible apply Cb.abortIn_kept
    | (with_reducible refine KeptA.of_done ?_ ‹_›)
    | (with_reducible refine KeptA.of_wait ?_ ‹_›)
    | (with_reducible refine KeptG.of_got ?_ ‹_›)
    | (with_reducible refine KeptG.of_wait ?_ ‹_›)
    | with_reducible apply KeptG.got
    | with_reducible apply KeptG.wait
    | with_reducible exact KeptG.none
    | split

theorem cisRelease_kept {s₀ s : State} {c : Cb} {o : CisOp} (hK : Kept s₀ s) :
    KeptA s₀ (cisRelease c s o) := by
  unfold cisRelease
  repeat' first
    | with_reducible assumption
    | intro _
    | (extract_lets +onlyGivenNames x; first | (refine Kept.cut (s₀ := s₀) (x := x) ?_ ?_; rotate_left; intro _; clear_value x; rotate_left; unfold x; clear x) | (refine KeptA.cut (s₀ := s₀) (x := x) ?_ ?_; rotate_left; intro _; clear_value x; rotate_left; unfold x; clear x) | clear_value x | skip)
    | with_reducible apply Kept.ite
    | with_reducible apply KeptA.ite
    | with_reducible apply KeptA.done
    | with_reducible apply KeptA.wait
    | with_reducible apply Cb.setSeq_kept
    | (with_reducible refine KeptA.of_done ?_ ‹_›)
    | (with_reducible refine KeptA.of_wait ?_ ‹_›)
    | split

theorem Cb.flush_kept {s₀ s : State} {c : Cb} {q : Nat} (hK : Kept s₀ s) :
    KeptG s₀ (Cb.flush c s q) := by
  unfold Cb.flush
  repeat' first
    | with_reducible assumption
    | intro _
    | (extract_lets +onlyGivenNames x; first | (refine Kept.cut (s₀ := s₀) (x := x) ?_ ?_; rotate_left; intro _; clear_value x; rotate_left; unfold x; clear x) | (refine KeptG.cut (s₀ := s₀) (x := x) ?_ ?_; rotate_left; intro _; clear_value x; rotate_left; unfold x; clear x) | clear_value x | skip)
    | with_reducible apply Kept.ite
    | with_reducible apply KeptG.ite
    | with_reducible apply Cb.setSeq_kept
    | with_reducible apply Cb.setPte_kept
    | with_reducible apply Cb.copy_kept
    | with_reducible apply satAdd_kept
    | with_reducible apply Cb.grabPage_kept
    | (with_reducible refine KeptG.of_got ?_ ‹_›)
    | (with_reducible refine KeptG.of_wait ?_ ‹_›)
    | with_reducible apply KeptG.got
    | with_reducible apply KeptG.wait
    | with_reducible exact KeptG.none
    | split

theorem Cb.putToken_kept {s₀ s : State} {c : Cb} {pl : CPool} {img : List PByte} {n : Nat} {t : Nat} {dst : Nat} {u : Nat} (hK : Kept s₀ s) :
    Kept s₀ (Cb.putToken c s pl img n t dst u) := by
  unfold Cb.putToken
  repeat' first
    | with_reducible assumption
    | intro _
    | (extract_lets +onlyGivenNames x; first | (refine Kept.cut (s₀ := s₀) (x := x) ?_ ?_; rotate_left; intro _; clear_value x; rotate_left; unfold x; clear x) | clear_value x | skip)
    | with_reducible apply Kept.ite
    | with_reducible apply Kept.foldl
    | with_reducible apply cisStore_kept
    | split

theorem Cb.append_kept {s₀ kept s : State} {c : Cb} {q pos n : Nat} {img : List PByte} {fuel at' : Nat} (hk : Kept s₀ kept) (hK : Kept s₀ s) :
    KeptE s₀ (Cb.append c kept s q pos n img fuel at') := by
  induction fuel generalizing kept s at' with
  | zero => exact hK
  | succ fuel ih =>
    unfold Cb.append
    extract_lets x pl s1
    have h1 : Kept s₀ s1 := Cb.putToken_kept hK
    refine KeptE.ite (Cb.setSeq_kept hK) (KeptE.ite ?_ (ih hk h1))
    split
    · have hf := KeptG.of_got (Cb.flush_kept h1) ‹_›
      exact ih hf hf
    · exact KeptG.of_wait (Cb.flush_kept h1) ‹_›
    · exact hk

theorem cisAppend_kept {s₀ s : State} {c : Cb} {o : CisOp} (hK : Kept s₀ s) : KeptA s₀ (cisAppend c s o) := by
  unfold cisAppend
  extract_lets q pos n x pl o2 s1 s2
  have h1 : Kept s₀ s1 := Cb.setSeq_kept hK
  have h2 : Kept s₀ s2 := Kept.ite (satAdd_kept h1) h1
  refine KeptA.ite hK (KeptA.ite hK (KeptA.ite hK ?_))
  have he := Cb.append_kept (c := c) (q := q) (pos := pos) (n := n) (img := o.img.pbytes) (fuel := n + 1) (at' := max pos x.len) h2 h2
  generalize c.append s2 s2 q pos n o.img.pbytes (n + 1) (max pos x.len) = e at he
  cases e with
  | done t => exact KeptA.done he
  | wait t => exact KeptA.wait he
  | exhausted t => exact KeptA.done he

theorem cisTrim_kept {s₀ s : State} {c : Cb} {o : CisOp} (hK : Kept s₀ s) :
    KeptA s₀ (cisTrim c s o) := by
  unfold cisTrim
  repeat' first
    | with_reducible assumption
    | intro _
    | (extract_lets +onlyGivenNames x; first | (refine Kept.cut (s₀ := s₀) (x := x) ?_ ?_; rotate_left; intro _; clear_value x; rotate_left; unfold x; clear x) | (refine KeptA.cut (s₀ := s₀) (x := x) ?_ ?_; rotate_left; intro _; clear_value x; rotate_left; unfold x; clear x) | clear_value x | skip)
    | with_reducible apply Kept.ite
    | with_reducible apply KeptA.ite
    | with_reducible apply KeptA.done
    | with_reducible apply KeptA.wait
    | with_reducible apply Cb.copyTail_kept
    | with_reducible apply Cb.setSeq_kept
    | with_reducible apply Cb.releaseDown_kept
    | (with_reducible refine KeptA.of_done ?_ ‹_›)
    | (with_reducible refine KeptA.of_wait ?_ ‹_›)
    | split

theorem cisClose_kept {s₀ s : State} {c : Cb} {o : CisOp} (hK : Kept s₀ s) :
    KeptA s₀ (cisClose c s o) := by
  unfold cisClose
  repeat' first
    | with_reducible assumption
    | intro _
    | (extract_lets +onlyGivenNames x; first | (refine Kept.cut (s₀ := s₀) (x := x) ?_ ?_; rotate_left; intro _; clear_value x; rotate_left; unfold x; clear x) | (refine KeptA.cut (s₀ := s₀) (x := x) ?_ ?_; rotate_left; intro _; clear_value x; rotate_left; unfold x; clear x) | clear_value x | skip)
    | with_reducible apply Kept.ite
    | with_reducible apply KeptA.ite
    | with_reducible apply KeptA.done
    | with_reducible apply KeptA.wait
    | with_reducible apply Cb.setSeq_kept
    | with_reducible apply Cb.push_kept
    | with_reducible apply Cb.releaseDown_kept
    | (with_reducible refine KeptA.of_done ?_ ‹_›)
    | (with_reducible refine KeptA.of_wait ?_ ‹_›)
    | split

theorem cisDo_kept {s₀ s : State} {c : Cb} {o : CisOp} (hK : Kept s₀ s) :
    KeptA s₀ (cisDo c s o) := by
  unfold cisDo
  repeat' first
    | with_reducible assumption
    | intro _
    | (extract_lets +onlyGivenNames x; first | (refine Kept.cut (s₀ := s₀) (x := x) ?_ ?_; rotate_left; intro _; clear_value x; rotate_left; unfold x; clear x) | (refine KeptA.cut (s₀ := s₀) (x := x) ?_ ?_; rotate_left; intro _; clear_value x; rotate_left; unfold x; clear x) | clear_value x | skip)
    | with_reducible apply Kept.ite
    | with_reducible apply KeptA.ite
    | with_reducible apply KeptA.done
    | with_reducible apply KeptA.wait
    | with_reducible apply cisHold_kept
    | with_reducible apply cisTrim_kept
    | with_reducible apply cisOpen_kept
    | with_reducible apply cisFork_kept
    | with_reducible apply cisAppend_kept
    | with_reducible apply cisClose_kept
    | with_reducible apply cisRelease_kept
    | (with_reducible refine KeptA.of_done ?_ ‹_›)
    | (with_reducible refine KeptA.of_wait ?_ ‹_›)
    | split

theorem cisDoAt_kept {s₀ s : State} {o : CisOp} {b : Option Cb} (hK : Kept s₀ s) :
    KeptA s₀ (cisDoAt s o b) := by
  unfold cisDoAt
  repeat' first
    | with_reducible assumption
    | intro _
    | (extract_lets +onlyGivenNames x; first | (refine Kept.cut (s₀ := s₀) (x := x) ?_ ?_; rotate_left; intro _; clear_value x; rotate_left; unfold x; clear x) | (refine KeptA.cut (s₀ := s₀) (x := x) ?_ ?_; rotate_left; intro _; clear_value x; rotate_left; unfold x; clear x) | clear_value x | skip)
    | with_reducible apply Kept.ite
    | with_reducible apply KeptA.ite
    | with_reducible apply KeptA.done
    | with_reducible apply KeptA.wait
    | with_reducible apply cisLost_kept
    | with_reducible apply cisFaulted_kept
    | with_reducible apply cisDo_kept
    | (with_reducible refine KeptA.of_done ?_ ‹_›)
    | (with_reducible refine KeptA.of_wait ?_ ‹_›)
    | split

theorem cisRun_kept {s₀ s : State} {o : CisOp} (hK : Kept s₀ s) :
    KeptA s₀ (cisRun s o) := by
  unfold cisRun
  repeat' first
    | with_reducible assumption
    | intro _
    | (extract_lets +onlyGivenNames x; first | (refine Kept.cut (s₀ := s₀) (x := x) ?_ ?_; rotate_left; intro _; clear_value x; rotate_left; unfold x; clear x) | (refine KeptA.cut (s₀ := s₀) (x := x) ?_ ?_; rotate_left; intro _; clear_value x; rotate_left; unfold x; clear x) | clear_value x | skip)
    | with_reducible apply Kept.ite
    | with_reducible apply KeptA.ite
    | with_reducible apply KeptA.done
    | with_reducible apply KeptA.wait
    | with_reducible apply cisDoAt_kept
    | (with_reducible refine KeptA.of_done ?_ ‹_›)
    | (with_reducible refine KeptA.of_wait ?_ ‹_›)
    | split

theorem cisAnswer_kept {s₀ s : State} {o : CisOp} {code : Nat} (hK : Kept s₀ s) :
    Kept s₀ (cisAnswer s o code) := by
  unfold cisAnswer
  repeat' first
    | with_reducible assumption
    | intro _
    | (extract_lets +onlyGivenNames x; first | (refine Kept.cut (s₀ := s₀) (x := x) ?_ ?_; rotate_left; intro _; clear_value x; rotate_left; unfold x; clear x) | clear_value x | skip)
    | with_reducible apply Kept.ite
    | with_reducible apply updThread_kept
    | with_reducible apply satAdd_kept
    | split

theorem noteOuts_kept {s₀ before : State} {c : Cb} {s : State} {o : CisOp} (hK : Kept s₀ before) (h_s : Kept s₀ s) :
    Kept s₀ (noteOuts c before s o) := by
  unfold noteOuts
  repeat' first
    | with_reducible assumption
    | intro _
    | (extract_lets +onlyGivenNames x; first | (refine Kept.cut (s₀ := s₀) (x := x) ?_ ?_; rotate_left; intro _; clear_value x; rotate_left; unfold x; clear x) | clear_value x | skip)
    | with_reducible apply Kept.ite
    | with_reducible apply updSaddle_kept
    | with_reducible apply h_s
    | split

theorem cisBegan_kept {s₀ before : State} {o : CisOp} {a : CisAns} (hK : Kept s₀ before) (h_a : KeptA s₀ a) :
    KeptA s₀ (cisBegan before o a) := by
  unfold cisBegan
  split
  · exact KeptA.wait (noteOuts_kept hK h_a)
  · exact h_a

theorem cisTake_kept {s₀ : State} {n : Nat} {o : CisOp} {a : CisAns} (h_a : KeptA s₀ a) : Kept s₀ (cisTake n o a) := by
  unfold cisTake
  split
  · exact cisAnswer_kept h_a
  · exact updSaddle_kept h_a

theorem cisRetry_kept {s₀ s : State} {n : Nat} (hK : Kept s₀ s) :
    Kept s₀ (cisRetry s n) := by
  unfold cisRetry
  repeat' first
    | with_reducible assumption
    | intro _
    | (extract_lets +onlyGivenNames x; first | (refine Kept.cut (s₀ := s₀) (x := x) ?_ ?_; rotate_left; intro _; clear_value x; rotate_left; unfold x; clear x) | (refine KeptA.cut (s₀ := s₀) (x := x) ?_ ?_; rotate_left; intro _; clear_value x; rotate_left; unfold x; clear x) | clear_value x | skip)
    | with_reducible apply Kept.ite
    | with_reducible apply KeptA.ite
    | with_reducible apply KeptA.done
    | with_reducible apply KeptA.wait
    | with_reducible apply Kept.foldl
    | with_reducible apply cisBegan_kept
    | with_reducible apply cisRun_kept
    | with_reducible apply cisTake_kept
    | with_reducible apply updSaddle_kept
    | (with_reducible refine KeptA.of_done ?_ ‹_›)
    | (with_reducible refine KeptA.of_wait ?_ ‹_›)
    | split

theorem cisSend_kept {s₀ s : State} {c : Ctx} {img : Img} (hK : Kept s₀ s) :
    Kept s₀ (cisSend c s img) := by
  unfold cisSend
  repeat' first
    | with_reducible assumption
    | intro _
    | (extract_lets +onlyGivenNames x; first | (refine Kept.cut (s₀ := s₀) (x := x) ?_ ?_; rotate_left; intro _; clear_value x; rotate_left; unfold x; clear x) | (refine KeptA.cut (s₀ := s₀) (x := x) ?_ ?_; rotate_left; intro _; clear_value x; rotate_left; unfold x; clear x) | clear_value x | skip)
    | with_reducible apply Kept.ite
    | with_reducible apply KeptA.ite
    | with_reducible apply KeptA.done
    | with_reducible apply KeptA.wait
    | with_reducible apply replay_kept
    | with_reducible apply cisBegan_kept
    | with_reducible apply cisRun_kept
    | with_reducible apply cisTake_kept
    | with_reducible apply onThread_kept
    | with_reducible apply updSaddle_kept
    | (with_reducible refine KeptA.of_done ?_ ‹_›)
    | (with_reducible refine KeptA.of_wait ?_ ‹_›)
    | split

theorem cisPlain_kept {s₀ s : State} {c : Ctx} (hK : Kept s₀ s) :
    KeptO s₀ (cisPlain c s) := by
  unfold cisPlain
  repeat' first
    | with_reducible assumption
    | intro _
    | (extract_lets +onlyGivenNames x; first | (refine Kept.cut (s₀ := s₀) (x := x) ?_ ?_; rotate_left; intro _; clear_value x; rotate_left; unfold x; clear x) | (refine KeptO.cut (s₀ := s₀) (x := x) ?_ ?_; rotate_left; intro _; clear_value x; rotate_left; unfold x; clear x) | clear_value x | skip)
    | with_reducible apply Kept.ite
    | with_reducible apply KeptO.ite
    | with_reducible exact KeptO.val ‹_›
    | with_reducible apply KeptO.some
    | with_reducible exact KeptO.none
    | with_reducible apply cisSend_kept
    | (with_reducible refine KeptO.of_eq ?_ ‹_›)
    | split

theorem execCisOpen_kept {s₀ s : State} {i : Issue} (hK : Kept s₀ s) :
    KeptX s₀ (execCisOpen i s) := by
  unfold execCisOpen
  repeat' first
    | with_reducible assumption
    | intro _
    | (extract_lets +onlyGivenNames x; first | (refine Kept.cut (s₀ := s₀) (x := x) ?_ ?_; rotate_left; intro _; clear_value x; rotate_left; unfold x; clear x) | (refine KeptX.cut (s₀ := s₀) (x := x) ?_ ?_; rotate_left; intro _; clear_value x; rotate_left; unfold x; clear x) | (refine KeptO.cut (s₀ := s₀) (x := x) ?_ ?_; rotate_left; intro _; clear_value x; rotate_left; unfold x; clear x) | clear_value x | skip)
    | with_reducible apply Kept.ite
    | with_reducible apply KeptO.ite
    | with_reducible exact KeptO.val ‹_›
    | with_reducible apply KeptO.some
    | with_reducible exact KeptO.none
    | with_reducible apply KeptX.ite
    | with_reducible apply KeptX.next
    | with_reducible exact KeptX.refused
    | with_reducible apply strict_kept
    | with_reducible apply issue_kept
    | with_reducible apply cisPlain_kept
    | (with_reducible refine KeptO.of_eq ?_ ‹_›)
    | (with_reducible refine KeptX.of_eq ?_ ‹_›)
    | split

theorem execCisFork_kept {s₀ s : State} {i : Issue} (hK : Kept s₀ s) :
    KeptX s₀ (execCisFork i s) := by
  unfold execCisFork
  repeat' first
    | with_reducible assumption
    | intro _
    | (extract_lets +onlyGivenNames x; first | (refine Kept.cut (s₀ := s₀) (x := x) ?_ ?_; rotate_left; intro _; clear_value x; rotate_left; unfold x; clear x) | (refine KeptX.cut (s₀ := s₀) (x := x) ?_ ?_; rotate_left; intro _; clear_value x; rotate_left; unfold x; clear x) | (refine KeptO.cut (s₀ := s₀) (x := x) ?_ ?_; rotate_left; intro _; clear_value x; rotate_left; unfold x; clear x) | clear_value x | skip)
    | with_reducible apply Kept.ite
    | with_reducible apply KeptO.ite
    | with_reducible exact KeptO.val ‹_›
    | with_reducible apply KeptO.some
    | with_reducible exact KeptO.none
    | with_reducible apply KeptX.ite
    | with_reducible apply KeptX.next
    | with_reducible exact KeptX.refused
    | with_reducible apply strict_kept
    | with_reducible apply issue_kept
    | with_reducible apply cisPlain_kept
    | (with_reducible refine KeptO.of_eq ?_ ‹_›)
    | (with_reducible refine KeptX.of_eq ?_ ‹_›)
    | split

theorem execCisHold_kept {s₀ s : State} {i : Issue} (hK : Kept s₀ s) :
    KeptX s₀ (execCisHold i s) := by
  unfold execCisHold
  repeat' first
    | with_reducible assumption
    | intro _
    | (extract_lets +onlyGivenNames x; first | (refine Kept.cut (s₀ := s₀) (x := x) ?_ ?_; rotate_left; intro _; clear_value x; rotate_left; unfold x; clear x) | (refine KeptX.cut (s₀ := s₀) (x := x) ?_ ?_; rotate_left; intro _; clear_value x; rotate_left; unfold x; clear x) | (refine KeptO.cut (s₀ := s₀) (x := x) ?_ ?_; rotate_left; intro _; clear_value x; rotate_left; unfold x; clear x) | clear_value x | skip)
    | with_reducible apply Kept.ite
    | with_reducible apply KeptO.ite
    | with_reducible exact KeptO.val ‹_›
    | with_reducible apply KeptO.some
    | with_reducible exact KeptO.none
    | with_reducible apply KeptX.ite
    | with_reducible apply KeptX.next
    | with_reducible exact KeptX.refused
    | with_reducible apply strict_kept
    | with_reducible apply issue_kept
    | with_reducible apply cisPlain_kept
    | (with_reducible refine KeptO.of_eq ?_ ‹_›)
    | (with_reducible refine KeptX.of_eq ?_ ‹_›)
    | split

theorem execCisRelease_kept {s₀ s : State} {i : Issue} (hK : Kept s₀ s) :
    KeptX s₀ (execCisRelease i s) := by
  unfold execCisRelease
  repeat' first
    | with_reducible assumption
    | intro _
    | (extract_lets +onlyGivenNames x; first | (refine Kept.cut (s₀ := s₀) (x := x) ?_ ?_; rotate_left; intro _; clear_value x; rotate_left; unfold x; clear x) | (refine KeptX.cut (s₀ := s₀) (x := x) ?_ ?_; rotate_left; intro _; clear_value x; rotate_left; unfold x; clear x) | (refine KeptO.cut (s₀ := s₀) (x := x) ?_ ?_; rotate_left; intro _; clear_value x; rotate_left; unfold x; clear x) | clear_value x | skip)
    | with_reducible apply Kept.ite
    | with_reducible apply KeptO.ite
    | with_reducible exact KeptO.val ‹_›
    | with_reducible apply KeptO.some
    | with_reducible exact KeptO.none
    | with_reducible apply KeptX.ite
    | with_reducible apply KeptX.next
    | with_reducible exact KeptX.refused
    | with_reducible apply strict_kept
    | with_reducible apply issue_kept
    | with_reducible apply cisPlain_kept
    | (with_reducible refine KeptO.of_eq ?_ ‹_›)
    | (with_reducible refine KeptX.of_eq ?_ ‹_›)
    | split

theorem appendBody_kept {s₀ s : State} {c : Ctx} (hK : Kept s₀ s) :
    KeptO s₀ (appendBody c s) := by
  unfold appendBody
  repeat' first
    | with_reducible assumption
    | intro _
    | (extract_lets +onlyGivenNames x; first | (refine Kept.cut (s₀ := s₀) (x := x) ?_ ?_; rotate_left; intro _; clear_value x; rotate_left; unfold x; clear x) | (refine KeptO.cut (s₀ := s₀) (x := x) ?_ ?_; rotate_left; intro _; clear_value x; rotate_left; unfold x; clear x) | clear_value x | skip)
    | with_reducible apply Kept.ite
    | with_reducible apply KeptO.ite
    | with_reducible exact KeptO.val ‹_›
    | with_reducible apply KeptO.some
    | with_reducible exact KeptO.none
    | with_reducible apply cisSend_kept
    | with_reducible apply freeHandle_kept
    | (with_reducible refine KeptO.of_eq ?_ ‹_›)
    | split

theorem execCisAppend_kept {s₀ s : State} {i : Issue} (hK : Kept s₀ s) :
    KeptX s₀ (execCisAppend i s) := by
  unfold execCisAppend
  repeat' first
    | with_reducible assumption
    | intro _
    | (extract_lets +onlyGivenNames x; first | (refine Kept.cut (s₀ := s₀) (x := x) ?_ ?_; rotate_left; intro _; clear_value x; rotate_left; unfold x; clear x) | (refine KeptX.cut (s₀ := s₀) (x := x) ?_ ?_; rotate_left; intro _; clear_value x; rotate_left; unfold x; clear x) | (refine KeptO.cut (s₀ := s₀) (x := x) ?_ ?_; rotate_left; intro _; clear_value x; rotate_left; unfold x; clear x) | clear_value x | skip)
    | with_reducible apply Kept.ite
    | with_reducible apply KeptO.ite
    | with_reducible exact KeptO.val ‹_›
    | with_reducible apply KeptO.some
    | with_reducible exact KeptO.none
    | with_reducible apply KeptX.ite
    | with_reducible apply KeptX.next
    | with_reducible exact KeptX.refused
    | with_reducible apply strict_kept
    | with_reducible apply issue_kept
    | with_reducible apply appendBody_kept
    | with_reducible apply checked_kept
    | (with_reducible refine KeptO.of_eq ?_ ‹_›)
    | (with_reducible refine KeptX.of_eq ?_ ‹_›)
    | split

theorem execCisTrim_kept {s₀ s : State} {i : Issue} (hK : Kept s₀ s) :
    KeptX s₀ (execCisTrim i s) := by
  unfold execCisTrim
  repeat' first
    | with_reducible assumption
    | intro _
    | (extract_lets +onlyGivenNames x; first | (refine Kept.cut (s₀ := s₀) (x := x) ?_ ?_; rotate_left; intro _; clear_value x; rotate_left; unfold x; clear x) | (refine KeptX.cut (s₀ := s₀) (x := x) ?_ ?_; rotate_left; intro _; clear_value x; rotate_left; unfold x; clear x) | (refine KeptO.cut (s₀ := s₀) (x := x) ?_ ?_; rotate_left; intro _; clear_value x; rotate_left; unfold x; clear x) | clear_value x | skip)
    | with_reducible apply Kept.ite
    | with_reducible apply KeptO.ite
    | with_reducible exact KeptO.val ‹_›
    | with_reducible apply KeptO.some
    | with_reducible exact KeptO.none
    | with_reducible apply KeptX.ite
    | with_reducible apply KeptX.next
    | with_reducible exact KeptX.refused
    | with_reducible apply strict_kept
    | with_reducible apply issue_kept
    | with_reducible apply cisPlain_kept
    | (with_reducible refine KeptO.of_eq ?_ ‹_›)
    | (with_reducible refine KeptX.of_eq ?_ ‹_›)
    | split

theorem execCisClose_kept {s₀ s : State} {i : Issue} (hK : Kept s₀ s) :
    KeptX s₀ (execCisClose i s) := by
  unfold execCisClose
  repeat' first
    | with_reducible assumption
    | intro _
    | (extract_lets +onlyGivenNames x; first | (refine Kept.cut (s₀ := s₀) (x := x) ?_ ?_; rotate_left; intro _; clear_value x; rotate_left; unfold x; clear x) | (refine KeptX.cut (s₀ := s₀) (x := x) ?_ ?_; rotate_left; intro _; clear_value x; rotate_left; unfold x; clear x) | (refine KeptO.cut (s₀ := s₀) (x := x) ?_ ?_; rotate_left; intro _; clear_value x; rotate_left; unfold x; clear x) | clear_value x | skip)
    | with_reducible apply Kept.ite
    | with_reducible apply KeptO.ite
    | with_reducible exact KeptO.val ‹_›
    | with_reducible apply KeptO.some
    | with_reducible exact KeptO.none
    | with_reducible apply KeptX.ite
    | with_reducible apply KeptX.next
    | with_reducible exact KeptX.refused
    | with_reducible apply strict_kept
    | with_reducible apply issue_kept
    | with_reducible apply cisPlain_kept
    | (with_reducible refine KeptO.of_eq ?_ ‹_›)
    | (with_reducible refine KeptX.of_eq ?_ ‹_›)
    | split

theorem execCisQuery_kept {s₀ s : State} {i : Issue} (hK : Kept s₀ s) :
    KeptX s₀ (execCisQuery i s) := by
  unfold execCisQuery
  repeat' first
    | with_reducible assumption
    | intro _
    | (extract_lets +onlyGivenNames x; first | (refine Kept.cut (s₀ := s₀) (x := x) ?_ ?_; rotate_left; intro _; clear_value x; rotate_left; unfold x; clear x) | (refine KeptX.cut (s₀ := s₀) (x := x) ?_ ?_; rotate_left; intro _; clear_value x; rotate_left; unfold x; clear x) | (refine KeptO.cut (s₀ := s₀) (x := x) ?_ ?_; rotate_left; intro _; clear_value x; rotate_left; unfold x; clear x) | clear_value x | skip)
    | with_reducible apply Kept.ite
    | with_reducible apply KeptO.ite
    | with_reducible exact KeptO.val ‹_›
    | with_reducible apply KeptO.some
    | with_reducible exact KeptO.none
    | with_reducible apply KeptX.ite
    | with_reducible apply KeptX.next
    | with_reducible exact KeptX.refused
    | with_reducible apply strict_kept
    | with_reducible apply issue_kept
    | with_reducible apply cisPlain_kept
    | (with_reducible refine KeptO.of_eq ?_ ‹_›)
    | (with_reducible refine KeptX.of_eq ?_ ‹_›)
    | split

theorem Cb.promote_kept {s₀ s : State} {c : Cb} {q : Nat} {p : Nat} {i : Nat} (hK : Kept s₀ s) :
    Kept s₀ (Cb.promote c s q p i) := by
  unfold Cb.promote
  repeat' first
    | with_reducible assumption
    | intro _
    | (extract_lets +onlyGivenNames x; first | (refine Kept.cut (s₀ := s₀) (x := x) ?_ ?_; rotate_left; intro _; clear_value x; rotate_left; unfold x; clear x) | (refine KeptR.cut (s₀ := s₀) (x := x) ?_ ?_; rotate_left; intro _; clear_value x; rotate_left; unfold x; clear x) | clear_value x | skip)
    | with_reducible apply Kept.ite
    | with_reducible apply KeptR.ite
    | with_reducible exact KeptR.val ‹_›
    | with_reducible apply KeptR.some
    | with_reducible exact KeptR.none
    | with_reducible apply Cb.setPte_kept
    | with_reducible apply Cb.pop_kept
    | with_reducible apply Cb.copy_kept
    | with_reducible apply satAdd_kept
    | with_reducible apply Cb.setRef_kept
    | (with_reducible refine KeptR.of_eq ?_ ‹_›)
    | split

theorem cisNoted_kept {s₀ s : State} {q : Nat} {i : Nat} {b : Option Cb} (hK : Kept s₀ s) :
    Kept s₀ (cisNoted s q i b) := by
  unfold cisNoted
  repeat' first
    | with_reducible assumption
    | intro _
    | (extract_lets +onlyGivenNames x; first | (refine Kept.cut (s₀ := s₀) (x := x) ?_ ?_; rotate_left; intro _; clear_value x; rotate_left; unfold x; clear x) | clear_value x | skip)
    | with_reducible apply Kept.ite
    | with_reducible apply Kept.foldl
    | with_reducible apply Cb.promote_kept
    | with_reducible apply Cb.setSeq_kept
    | split

theorem cisNotice_kept {s₀ s : State} {al : Nat} {page : Nat} {agent : Option Nat} (hK : Kept s₀ s) :
    Kept s₀ (cisNotice s al page agent) := by
  unfold cisNotice
  repeat' first
    | with_reducible assumption
    | intro _
    | (extract_lets +onlyGivenNames x; first | (refine Kept.cut (s₀ := s₀) (x := x) ?_ ?_; rotate_left; intro _; clear_value x; rotate_left; unfold x; clear x) | clear_value x | skip)
    | with_reducible apply Kept.ite
    | with_reducible apply cisNoted_kept
    | with_reducible apply updSaddle_kept
    | split

theorem execCisReadNotice_kept {s₀ s : State} {allot : Fin 1024} {page : Nat} (hK : Kept s₀ s) :
    KeptX s₀ (execCisReadNotice allot page s) := by
  unfold execCisReadNotice
  repeat' first
    | with_reducible assumption
    | intro _
    | (extract_lets +onlyGivenNames x; first | (refine Kept.cut (s₀ := s₀) (x := x) ?_ ?_; rotate_left; intro _; clear_value x; rotate_left; unfold x; clear x) | (refine KeptX.cut (s₀ := s₀) (x := x) ?_ ?_; rotate_left; intro _; clear_value x; rotate_left; unfold x; clear x) | clear_value x | skip)
    | with_reducible apply Kept.ite
    | with_reducible apply KeptX.ite
    | with_reducible apply KeptX.next
    | with_reducible exact KeptX.refused
    | with_reducible apply cisNotice_kept
    | (with_reducible refine KeptX.of_eq ?_ ‹_›)
    | split

theorem Cb.abortOut_kept {s₀ s : State} {c : Cb} {q : Nat} (hK : Kept s₀ s) :
    Kept s₀ (Cb.abortOut c s q) := by
  unfold Cb.abortOut
  repeat' first
    | with_reducible assumption
    | intro _
    | (extract_lets +onlyGivenNames x; first | (refine Kept.cut (s₀ := s₀) (x := x) ?_ ?_; rotate_left; intro _; clear_value x; rotate_left; unfold x; clear x) | clear_value x | skip)
    | with_reducible apply Kept.ite
    | with_reducible apply Kept.foldl
    | with_reducible apply Cb.setSeq_kept
    | with_reducible apply Cb.setPte_kept
    | with_reducible apply Cb.push_kept
    | split

theorem Cb.swapStep_kept {s₀ s : State} {c : Cb} {q : Nat} (hK : Kept s₀ s) :
    Kept s₀ (Cb.swapStep c s q) := by
  unfold Cb.swapStep
  repeat' first
    | with_reducible assumption
    | intro _
    | (extract_lets +onlyGivenNames x; first | (refine Kept.cut (s₀ := s₀) (x := x) ?_ ?_; rotate_left; intro _; clear_value x; rotate_left; unfold x; clear x) | (refine KeptG.cut (s₀ := s₀) (x := x) ?_ ?_; rotate_left; intro _; clear_value x; rotate_left; unfold x; clear x) | (refine KeptP.cut (s₀ := s₀) (x := x) ?_ ?_; rotate_left; intro _; clear_value x; rotate_left; unfold x; clear x) | (refine KeptR.cut (s₀ := s₀) (x := x) ?_ ?_; rotate_left; intro _; clear_value x; rotate_left; unfold x; clear x) | clear_value x | skip)
    | with_reducible apply Kept.ite
    | with_reducible apply KeptG.ite
    | with_reducible apply KeptP.ite
    | (with_reducible refine KeptP.snd ?_; with_reducible assumption)
    | with_reducible exact KeptP.val ‹_›
    | with_reducible apply KeptR.ite
    | with_reducible exact KeptR.val ‹_›
    | with_reducible apply KeptR.some
    | with_reducible exact KeptR.none
    | with_reducible apply cisStore_kept
    | with_reducible apply atsAsk_kept
    | with_reducible apply Cb.pageIn_kept
    | with_reducible apply Cb.abortOut_kept
    | with_reducible apply Cb.setSeq_kept
    | with_reducible apply cisNote_kept
    | with_reducible apply Cb.setPte_kept
    | with_reducible apply Cb.pop_kept
    | with_reducible apply Cb.push_kept
    | with_reducible apply Cb.unref_kept
    | with_reducible apply Cb.abortIn_kept
    | with_reducible apply Cb.copy_kept
    | with_reducible apply satAdd_kept
    | (with_reducible refine KeptP.of_eq ?_ ‹_›)
    | (with_reducible refine KeptR.of_eq ?_ ‹_›)
    | (with_reducible refine KeptG.of_got ?_ ‹_›)
    | (with_reducible refine KeptG.of_wait ?_ ‹_›)
    | with_reducible apply KeptG.got
    | with_reducible apply KeptG.wait
    | with_reducible exact KeptG.none
    | split
    | with_reducible apply KeptP.mk

theorem cisFailHolds_kept {s₀ before : State} {c : Cb} {s : State} {q : Nat} (hK : Kept s₀ before) (h_s : Kept s₀ s) :
    Kept s₀ (cisFailHolds c before s q) := by
  unfold cisFailHolds
  repeat' first
    | with_reducible assumption
    | intro _
    | (extract_lets +onlyGivenNames x; first | (refine Kept.cut (s₀ := s₀) (x := x) ?_ ?_; rotate_left; intro _; clear_value x; rotate_left; unfold x; clear x) | clear_value x | skip)
    | with_reducible apply Kept.ite
    | with_reducible apply Kept.foldl
    | with_reducible apply cisAnswer_kept
    | with_reducible apply updSaddle_kept
    | with_reducible apply h_s
    | split

theorem cisFailRoom_kept {s₀ before : State} {c : Cb} {s : State} {q : Nat} (hK : Kept s₀ before) (h_s : Kept s₀ s) :
    Kept s₀ (cisFailRoom c before s q) := by
  unfold cisFailRoom
  repeat' first
    | with_reducible assumption
    | intro _
    | (extract_lets +onlyGivenNames x; first | (refine Kept.cut (s₀ := s₀) (x := x) ?_ ?_; rotate_left; intro _; clear_value x; rotate_left; unfold x; clear x) | (refine kept_cut_fun (s₀ := s₀) (x := x) ?_ ?_; rotate_left; intro _; clear_value x; rotate_left; unfold x; clear x) | (refine kept_cut_fun2 (s₀ := s₀) (x := x) ?_ ?_; rotate_left; intro _; clear_value x; rotate_left; unfold x; clear x) | (refine kept_cut_fun3 (s₀ := s₀) (x := x) ?_ ?_; rotate_left; intro _; clear_value x; rotate_left; unfold x; clear x) | (refine kept_cut_val (s₀ := s₀) (x := x) ?_ ?_; rotate_left; intro _; clear_value x; rotate_left; unfold x; clear x) | clear_value x | skip)
    | with_reducible apply Kept.ite
    | with_reducible apply Kept.foldl
    | with_reducible apply cisAnswer_kept
    | with_reducible apply Cb.abortIn_kept
    | with_reducible apply updSaddle_kept
    | with_reducible apply h_s
    | with_reducible apply_assumption -exfalso -symm
    | split

theorem cisOutsOver_kept {s₀ s : State} {c : Cb} (hK : Kept s₀ s) :
    Kept s₀ (cisOutsOver c s) := by
  unfold cisOutsOver
  repeat' first
    | with_reducible assumption
    | intro _
    | (extract_lets +onlyGivenNames x; first | (refine Kept.cut (s₀ := s₀) (x := x) ?_ ?_; rotate_left; intro _; clear_value x; rotate_left; unfold x; clear x) | clear_value x | skip)
    | with_reducible apply Kept.ite
    | with_reducible apply updSaddle_kept
    | split

theorem cisSwap_kept {s₀ s : State} {al : Nat} {b : Option Cb} (hK : Kept s₀ s) :
    Kept s₀ (cisSwap s al b) := by
  unfold cisSwap
  repeat' first
    | with_reducible assumption
    | intro _
    | (extract_lets +onlyGivenNames x; first | (refine Kept.cut (s₀ := s₀) (x := x) ?_ ?_; rotate_left; intro _; clear_value x; rotate_left; unfold x; clear x) | clear_value x | skip)
    | with_reducible apply Kept.ite
    | with_reducible apply cisFailHolds_kept
    | with_reducible apply cisRetry_kept
    | with_reducible apply cisOutsOver_kept
    | with_reducible apply noteOuts_kept
    | with_reducible apply Cb.swapStep_kept
    | with_reducible apply cisFailRoom_kept
    | split

theorem execCisSwapStep_kept {s₀ s : State} {allot : Fin 1024} (hK : Kept s₀ s) :
    KeptX s₀ (execCisSwapStep allot s) := by
  unfold execCisSwapStep
  repeat' first
    | with_reducible assumption
    | intro _
    | (extract_lets +onlyGivenNames x; first | (refine Kept.cut (s₀ := s₀) (x := x) ?_ ?_; rotate_left; intro _; clear_value x; rotate_left; unfold x; clear x) | (refine KeptX.cut (s₀ := s₀) (x := x) ?_ ?_; rotate_left; intro _; clear_value x; rotate_left; unfold x; clear x) | clear_value x | skip)
    | with_reducible apply Kept.ite
    | with_reducible apply KeptX.ite
    | with_reducible apply KeptX.next
    | with_reducible exact KeptX.refused
    | with_reducible apply cisSwap_kept
    | (with_reducible refine KeptX.of_eq ?_ ‹_›)
    | split

theorem Cb.orphans_kept {s₀ s : State} {c : Cb} {q : Nat} {x : CSeq} (hK : Kept s₀ s) :
    Kept s₀ (Cb.orphans c s q x) := by
  unfold Cb.orphans
  repeat' first
    | with_reducible assumption
    | intro _
    | (extract_lets +onlyGivenNames x; first | (refine Kept.cut (s₀ := s₀) (x := x) ?_ ?_; rotate_left; intro _; clear_value x; rotate_left; unfold x; clear x) | clear_value x | skip)
    | with_reducible apply Kept.ite
    | with_reducible apply Cb.releaseDown_kept
    | split

theorem Cb.scanSeq_kept {s₀ s : State} {c : Cb} {q : Nat} (hK : Kept s₀ s) :
    Kept s₀ (Cb.scanSeq c s q) := by
  unfold Cb.scanSeq
  repeat' first
    | with_reducible assumption
    | intro _
    | (extract_lets +onlyGivenNames x; first | (refine Kept.cut (s₀ := s₀) (x := x) ?_ ?_; rotate_left; intro _; clear_value x; rotate_left; unfold x; clear x) | clear_value x | skip)
    | with_reducible apply Kept.ite
    | with_reducible apply Kept.foldl
    | with_reducible apply Cb.setSeq_kept
    | with_reducible apply Cb.setPte_kept
    | with_reducible apply Cb.push_kept
    | with_reducible apply Cb.copy_kept
    | with_reducible apply Cb.orphans_kept
    | with_reducible apply Cb.releaseDown_kept
    | split

theorem Cb.finishSwaps_kept {s₀ s : State} {c : Cb} {fuel : Nat} (hK : Kept s₀ s) : Kept s₀ (c.finishSwaps fuel s) := by
  induction fuel generalizing s with
  | zero => exact hK
  | succ n ih =>
    unfold Cb.finishSwaps
    split
    · exact hK
    · exact ih (Cb.swapStep_kept hK)

theorem Cb.finishAll_kept {s₀ s : State} {c : Cb} (hK : Kept s₀ s) :
    Kept s₀ (Cb.finishAll c s) := by
  unfold Cb.finishAll
  repeat' first
    | with_reducible assumption
    | intro _
    | (extract_lets +onlyGivenNames x; first | (refine Kept.cut (s₀ := s₀) (x := x) ?_ ?_; rotate_left; intro _; clear_value x; rotate_left; unfold x; clear x) | clear_value x | skip)
    | with_reducible apply Kept.ite
    | with_reducible apply Cb.finishSwaps_kept
    | split

theorem Cb.scanned_kept {s₀ s : State} {c : Cb} {bad : Option (Nat × Option AccKind)} (hK : Kept s₀ s) : Kept s₀ (c.scanned s bad) := by
  unfold Cb.scanned
  cases bad with
  | some e => exact cisFaulted_kept hK
  | none => exact Cb.finishAll_kept (Kept.foldl hK (fun _ _ h => Cb.scanSeq_kept h))

theorem cisScanned_kept {s₀ s : State} {b : Option Cb} (hK : Kept s₀ s) : Kept s₀ (cisScanned s b) := by
  unfold cisScanned
  cases b with
  | none => exact hK
  | some c => exact Cb.scanned_kept hK

theorem execCisResumeScan_kept {s₀ s : State} {allot : Fin 1024} (hK : Kept s₀ s) :
    KeptX s₀ (execCisResumeScan allot s) := by
  unfold execCisResumeScan
  repeat' first
    | with_reducible assumption
    | intro _
    | (extract_lets +onlyGivenNames x; first | (refine Kept.cut (s₀ := s₀) (x := x) ?_ ?_; rotate_left; intro _; clear_value x; rotate_left; unfold x; clear x) | (refine KeptX.cut (s₀ := s₀) (x := x) ?_ ?_; rotate_left; intro _; clear_value x; rotate_left; unfold x; clear x) | clear_value x | skip)
    | with_reducible apply Kept.ite
    | with_reducible apply KeptX.ite
    | with_reducible apply KeptX.next
    | with_reducible exact KeptX.refused
    | with_reducible apply cisScanned_kept
    | with_reducible apply cisRetry_kept
    | with_reducible apply updSaddle_kept
    | (with_reducible refine KeptX.of_eq ?_ ‹_›)
    | split

end Sys2Proof.Machine
end

