-- ==== Sys2Proof/Laws/KeptSparse.lean ====
section
/-! SUPPORT. What the operations and meanings of Machine/Sparse.lean keep. -/

set_option linter.unreachableTactic false
set_option linter.unusedTactic false
set_option linter.unusedVariables false
set_option linter.tactic.unusedName false

namespace Sys2Proof.Machine

/-- What a store has done keeps what the meanings keep. -/
def KeptU (s₀ : State) (p : Put) : Prop := Kept s₀ p.s
def KeptV {α : Type} (s₀ : State) (p : Put × α) : Prop := Kept s₀ p.1.s
def KeptOU (s₀ : State) : Option Put → Prop
  | some p => KeptU s₀ p
  | none => True
def KeptOV {α : Type} (s₀ : State) : Option (Put × α) → Prop
  | some p => KeptV s₀ p
  | none => True

section
variable {s₀ s : State} {α β : Type}

theorem KeptU.mk {l : List Acc} {rs : List (Nat × Nat × List PByte)} {o i : Bool} {n : Nat} (h : Kept s₀ s) :
    KeptU s₀ { s := s, accs := l, runs := rs, ovf := o, inv := i, bad := n } := h
theorem KeptU.st {p : Put} (h : KeptU s₀ p) : Kept s₀ p.s := h
theorem KeptV.mk {p : Put} {a : α} (h : KeptU s₀ p) : KeptV s₀ (p, a) := h
theorem KeptV.fst {p : Put × α} (h : KeptV s₀ p) : KeptU s₀ p.1 := h
theorem KeptV.val {p : Put} {a : α} (h : KeptV s₀ (p, a)) : KeptU s₀ p := h
theorem KeptV.of_eq {p : Put × α} {q : Put} {a : α} (h : KeptV s₀ p) (e : p = (q, a)) : KeptU s₀ q := by subst e; exact h
theorem KeptOU.some {p : Put} (h : KeptU s₀ p) : KeptOU s₀ (Option.some p) := h
theorem KeptOU.none : KeptOU s₀ none := trivial
theorem KeptOU.of_eq {o : Option Put} {p : Put} (h : KeptOU s₀ o) (e : o = Option.some p) : KeptU s₀ p := by subst e; exact h
theorem KeptOV.some {p : Put × α} (h : KeptV s₀ p) : KeptOV s₀ (Option.some p) := h
theorem KeptOV.none : KeptOV s₀ (none : Option (Put × α)) := trivial
theorem KeptOV.of_eq {o : Option (Put × α)} {p : Put × α} (h : KeptOV s₀ o) (e : o = Option.some p) : KeptV s₀ p := by subst e; exact h
theorem KeptU.ite {c : Prop} [Decidable c] {a b : Put} (h : KeptU s₀ a) (h' : KeptU s₀ b) : KeptU s₀ (if c then a else b) := by
  split <;> assumption
theorem KeptV.ite {c : Prop} [Decidable c] {a b : Put × α} (h : KeptV s₀ a) (h' : KeptV s₀ b) : KeptV s₀ (if c then a else b) := by
  split <;> assumption
theorem KeptOU.ite {c : Prop} [Decidable c] {a b : Option Put} (h : KeptOU s₀ a) (h' : KeptOU s₀ b) : KeptOU s₀ (if c then a else b) := by
  split <;> assumption
theorem KeptOV.ite {c : Prop} [Decidable c] {a b : Option (Put × α)} (h : KeptOV s₀ a) (h' : KeptOV s₀ b) :
    KeptOV s₀ (if c then a else b) := by
  split <;> assumption
theorem KeptU.cut {Q : Prop} {x : Put} (a : KeptU s₀ x) (b : KeptU s₀ x → Q) : Q := b a
theorem KeptV.cut {Q : Prop} {x : Put × α} (a : KeptV s₀ x) (b : KeptV s₀ x → Q) : Q := b a
theorem KeptOU.cut {Q : Prop} {x : Option Put} (a : KeptOU s₀ x) (b : KeptOU s₀ x → Q) : Q := b a
theorem KeptOV.cut {Q : Prop} {x : Option (Put × α)} (a : KeptOV s₀ x) (b : KeptOV s₀ x → Q) : Q := b a

theorem kept_cut_funV {Q : Prop} {x : Put × β → α × State} (a : ∀ r, KeptV s₀ r → KeptP s₀ (x r)) (b : (∀ r, KeptV s₀ r → KeptP s₀ (x r)) → Q) :
    Q := b a

theorem KeptU.foldl {l : List β} {f : Put → β → Put} {p : Put} (h : KeptU s₀ p) (hf : ∀ p b, KeptU s₀ p → KeptU s₀ (f p b)) :
    KeptU s₀ (l.foldl f p) := by
  induction l generalizing p with
  | nil => exact h
  | cons b r ih => exact ih (hf p b h)

theorem KeptV.foldl {l : List β} {f : Put × α → β → Put × α} {p : Put × α} (h : KeptV s₀ p)
    (hf : ∀ p b, KeptV s₀ p → KeptV s₀ (f p b)) : KeptV s₀ (l.foldl f p) := by
  induction l generalizing p with
  | nil => exact h
  | cons b r ih => exact ih (hf p b h)
end

theorem Put.write_kept {s₀  : State} {p : Put} {tg : Nat} {al : Nat} {space : Nat} {a : Nat} {bs : List PByte} (h_p : KeptU s₀ p) :
    KeptU s₀ (Put.write p tg al space a bs) := by
  unfold Put.write
  repeat' first
    | with_reducible assumption
    | intro _
    | (extract_lets +onlyGivenNames x; first | (refine Kept.cut (s₀ := s₀) (x := x) ?_ ?_; rotate_left; intro _; clear_value x; rotate_left; unfold x; clear x) | (refine KeptQ.cut (s₀ := s₀) (x := x) ?_ ?_; rotate_left; intro _; clear_value x; rotate_left; unfold x; clear x) | (refine KeptU.cut (s₀ := s₀) (x := x) ?_ ?_; rotate_left; intro _; clear_value x; rotate_left; unfold x; clear x) | clear_value x | skip)
    | with_reducible apply Kept.ite
    | with_reducible apply KeptQ.ite
    | (with_reducible refine KeptQ.fst ?_; with_reducible assumption)
    | with_reducible exact KeptQ.val ‹_›
    | with_reducible refine KeptQ.fst (spWrite_kept ?_)
    | with_reducible apply KeptU.ite
    | (with_reducible refine KeptU.st ?_; with_reducible assumption)
    | with_reducible apply spWrite_kept
    | (with_reducible refine KeptQ.of_eq ?_ ‹_›)
    | with_reducible apply h_p
    | split
    | with_reducible apply KeptQ.mk
    | with_reducible apply KeptU.mk

theorem Put.sent_kept {s₀  : State} {p : Put} {tg : Nat} {al : Nat} (h_p : KeptU s₀ p) :
    Kept s₀ (Put.sent p tg al) := by
  unfold Put.sent
  repeat' first
    | with_reducible assumption
    | intro _
    | (extract_lets +onlyGivenNames x; first | (refine Kept.cut (s₀ := s₀) (x := x) ?_ ?_; rotate_left; intro _; clear_value x; rotate_left; unfold x; clear x) | (refine KeptU.cut (s₀ := s₀) (x := x) ?_ ?_; rotate_left; intro _; clear_value x; rotate_left; unfold x; clear x) | clear_value x | skip)
    | with_reducible apply Kept.ite
    | with_reducible apply KeptU.ite
    | (with_reducible refine KeptU.st ?_; with_reducible assumption)
    | with_reducible apply sendRuns_kept
    | with_reducible apply h_p
    | split
    | with_reducible apply KeptU.mk

theorem putRow_kept {s₀  : State} {p : Put} {tg : Nat} {al : Nat} {x : Desc} {r : Nat} {row : Row} (h_p : KeptU s₀ p) :
    KeptU s₀ (putRow p tg al x r row) := by
  unfold putRow
  repeat' first
    | with_reducible assumption
    | intro _
    | (extract_lets +onlyGivenNames x; first | (refine Kept.cut (s₀ := s₀) (x := x) ?_ ?_; rotate_left; intro _; clear_value x; rotate_left; unfold x; clear x) | (refine KeptU.cut (s₀ := s₀) (x := x) ?_ ?_; rotate_left; intro _; clear_value x; rotate_left; unfold x; clear x) | clear_value x | skip)
    | with_reducible apply Kept.ite
    | with_reducible apply KeptU.ite
    | (with_reducible refine KeptU.st ?_; with_reducible assumption)
    | with_reducible refine KeptU.st (Put.write_kept ?_)
    | with_reducible apply Put.write_kept
    | with_reducible apply h_p
    | split
    | with_reducible apply KeptU.mk

theorem putRows_kept {s₀  : State} {p : Put} {tg : Nat} {al : Nat} {x : Desc} {rows : List Row} (h_p : KeptU s₀ p) :
    KeptU s₀ (putRows p tg al x rows) := by
  unfold putRows
  repeat' first
    | with_reducible assumption
    | intro _
    | (extract_lets +onlyGivenNames x; first | (refine Kept.cut (s₀ := s₀) (x := x) ?_ ?_; rotate_left; intro _; clear_value x; rotate_left; unfold x; clear x) | (refine KeptU.cut (s₀ := s₀) (x := x) ?_ ?_; rotate_left; intro _; clear_value x; rotate_left; unfold x; clear x) | clear_value x | skip)
    | with_reducible apply Kept.ite
    | with_reducible apply KeptU.ite
    | (with_reducible refine KeptU.st ?_; with_reducible assumption)
    | with_reducible refine KeptU.st (putRow_kept ?_)
    | with_reducible apply Kept.foldl
    | with_reducible apply KeptU.foldl
    | with_reducible apply putRow_kept
    | with_reducible apply h_p
    | split
    | with_reducible apply KeptU.mk

theorem putVals_kept {s₀  : State} {p : Put} {tg : Nat} {al : Nat} {x : Desc} {rows : List (List Val)} (h_p : KeptU s₀ p) :
    KeptU s₀ (putVals p tg al x rows) := by
  unfold putVals
  repeat' first
    | with_reducible assumption
    | intro _
    | (extract_lets +onlyGivenNames x; first | (refine Kept.cut (s₀ := s₀) (x := x) ?_ ?_; rotate_left; intro _; clear_value x; rotate_left; unfold x; clear x) | (refine KeptU.cut (s₀ := s₀) (x := x) ?_ ?_; rotate_left; intro _; clear_value x; rotate_left; unfold x; clear x) | clear_value x | skip)
    | with_reducible apply Kept.ite
    | with_reducible apply KeptU.ite
    | (with_reducible refine KeptU.st ?_; with_reducible assumption)
    | with_reducible refine KeptU.st (putRow_kept ?_)
    | with_reducible apply Kept.foldl
    | with_reducible apply KeptU.foldl
    | with_reducible apply putRow_kept
    | with_reducible apply h_p
    | split
    | with_reducible apply KeptU.mk

theorem detectStore_kept {s₀  : State} {p : Put} {tg : Nat} {al : Nat} {x : Desc} {h0 : Header} {d : Dense} (h_p : KeptU s₀ p) :
    KeptV s₀ (detectStore p tg al x h0 d) := by
  unfold detectStore
  repeat' first
    | with_reducible assumption
    | intro _
    | (extract_lets +onlyGivenNames x; first | (refine Kept.cut (s₀ := s₀) (x := x) ?_ ?_; rotate_left; intro _; clear_value x; rotate_left; unfold x; clear x) | (refine KeptU.cut (s₀ := s₀) (x := x) ?_ ?_; rotate_left; intro _; clear_value x; rotate_left; unfold x; clear x) | (refine KeptV.cut (s₀ := s₀) (x := x) ?_ ?_; rotate_left; intro _; clear_value x; rotate_left; unfold x; clear x) | clear_value x | skip)
    | with_reducible apply Kept.ite
    | with_reducible apply KeptU.ite
    | (with_reducible refine KeptU.st ?_; with_reducible assumption)
    | with_reducible refine KeptU.st (Put.write_kept ?_)
    | with_reducible apply KeptV.ite
    | (with_reducible refine KeptV.fst ?_; with_reducible assumption)
    | with_reducible exact KeptV.val ‹_›
    | with_reducible apply Put.write_kept
    | (with_reducible refine KeptV.of_eq ?_ ‹_›)
    | with_reducible apply h_p
    | split
    | with_reducible apply KeptU.mk
    | with_reducible apply KeptV.mk

theorem putElem_kept {s₀  : State} {p : Put} {tg : Nat} {al : Nat} {space : Nat} {base : Nat} {k : Nat} {w : Nat} {code : Code} (h_p : KeptU s₀ p) :
    KeptU s₀ (putElem p tg al space base k w code) := by
  unfold putElem
  repeat' first
    | with_reducible assumption
    | intro _
    | (extract_lets +onlyGivenNames x; first | (refine Kept.cut (s₀ := s₀) (x := x) ?_ ?_; rotate_left; intro _; clear_value x; rotate_left; unfold x; clear x) | (refine KeptU.cut (s₀ := s₀) (x := x) ?_ ?_; rotate_left; intro _; clear_value x; rotate_left; unfold x; clear x) | clear_value x | skip)
    | with_reducible apply Kept.ite
    | with_reducible apply KeptU.ite
    | (with_reducible refine KeptU.st ?_; with_reducible assumption)
    | with_reducible refine KeptU.st (Put.write_kept ?_)
    | with_reducible apply Put.write_kept
    | with_reducible apply h_p
    | split
    | with_reducible apply KeptU.mk

theorem putPayload_kept {s₀  : State} {p : Put} {tg : Nat} {al : Nat} {x : Desc} {h : Header} {k : Nat} {vs : List (Val × Nat)} (h_p : KeptU s₀ p) :
    KeptU s₀ (putPayload p tg al x h k vs) := by
  unfold putPayload
  repeat' first
    | with_reducible assumption
    | intro _
    | (extract_lets +onlyGivenNames x; first | (refine Kept.cut (s₀ := s₀) (x := x) ?_ ?_; rotate_left; intro _; clear_value x; rotate_left; unfold x; clear x) | (refine KeptU.cut (s₀ := s₀) (x := x) ?_ ?_; rotate_left; intro _; clear_value x; rotate_left; unfold x; clear x) | clear_value x | skip)
    | with_reducible apply Kept.ite
    | with_reducible apply KeptU.ite
    | (with_reducible refine KeptU.st ?_; with_reducible assumption)
    | with_reducible refine KeptU.st (Put.write_kept ?_)
    | with_reducible refine KeptU.st (putElem_kept ?_)
    | with_reducible apply Put.write_kept
    | with_reducible apply putElem_kept
    | with_reducible apply h_p
    | split
    | with_reducible apply KeptU.mk

theorem maskedStore_kept {s₀  : State} {p : Put} {tg : Nat} {al : Nat} {x : Desc} {h : Header} {d : Dense} (h_p : KeptU s₀ p) :
    KeptU s₀ (maskedStore p tg al x h d) := by
  unfold maskedStore
  repeat' first
    | with_reducible assumption
    | intro _
    | (extract_lets +onlyGivenNames x; first | (refine Kept.cut (s₀ := s₀) (x := x) ?_ ?_; rotate_left; intro _; clear_value x; rotate_left; unfold x; clear x) | (refine KeptP.cut (s₀ := s₀) (x := x) ?_ ?_; rotate_left; intro _; clear_value x; rotate_left; unfold x; clear x) | (refine KeptU.cut (s₀ := s₀) (x := x) ?_ ?_; rotate_left; intro _; clear_value x; rotate_left; unfold x; clear x) | clear_value x | skip)
    | with_reducible apply Kept.ite
    | with_reducible apply KeptP.ite
    | (with_reducible refine KeptP.snd ?_; with_reducible assumption)
    | with_reducible exact KeptP.val ‹_›
    | with_reducible refine KeptP.snd (fresh_kept ?_)
    | with_reducible refine KeptP.snd (KeptP.foldl ?_ ?_)
    | with_reducible apply KeptU.ite
    | (with_reducible refine KeptU.st ?_; with_reducible assumption)
    | with_reducible refine KeptU.st (Put.write_kept ?_)
    | with_reducible refine KeptU.st (putPayload_kept ?_)
    | with_reducible refine KeptU.st (putElem_kept ?_)
    | with_reducible apply Kept.foldl
    | with_reducible apply KeptP.foldl
    | with_reducible apply KeptU.foldl
    | with_reducible apply fresh_kept
    | with_reducible apply Put.write_kept
    | with_reducible apply putPayload_kept
    | with_reducible apply putElem_kept
    | (with_reducible refine KeptP.of_eq ?_ ‹_›)
    | with_reducible apply h_p
    | split
    | with_reducible apply KeptP.mk
    | with_reducible apply KeptU.mk

theorem maskedRowStore_kept {s₀  : State} {p : Put} {tg : Nat} {al : Nat} {x : Desc} {h : Header} {i : Nat} {d : Dense} (h_p : KeptU s₀ p) :
    KeptU s₀ (maskedRowStore p tg al x h i d) := by
  unfold maskedRowStore
  repeat' first
    | with_reducible assumption
    | intro _
    | (extract_lets +onlyGivenNames x; first | (refine Kept.cut (s₀ := s₀) (x := x) ?_ ?_; rotate_left; intro _; clear_value x; rotate_left; unfold x; clear x) | (refine KeptU.cut (s₀ := s₀) (x := x) ?_ ?_; rotate_left; intro _; clear_value x; rotate_left; unfold x; clear x) | clear_value x | skip)
    | with_reducible apply Kept.ite
    | with_reducible apply KeptU.ite
    | (with_reducible refine KeptU.st ?_; with_reducible assumption)
    | with_reducible refine KeptU.st (putPayload_kept ?_)
    | with_reducible apply Kept.foldl
    | with_reducible apply KeptU.foldl
    | with_reducible apply putPayload_kept
    | with_reducible apply h_p
    | split
    | with_reducible apply KeptU.mk

theorem putStray_kept {s₀  : State} {p : Put} {tg : Nat} {al : Nat} {d : Desc} {e : Stray} (h_p : KeptU s₀ p) :
    KeptU s₀ (putStray p tg al d e) := by
  unfold putStray
  repeat' first
    | with_reducible assumption
    | intro _
    | (extract_lets +onlyGivenNames x; first | (refine Kept.cut (s₀ := s₀) (x := x) ?_ ?_; rotate_left; intro _; clear_value x; rotate_left; unfold x; clear x) | (refine KeptU.cut (s₀ := s₀) (x := x) ?_ ?_; rotate_left; intro _; clear_value x; rotate_left; unfold x; clear x) | clear_value x | skip)
    | with_reducible apply Kept.ite
    | with_reducible apply KeptU.ite
    | (with_reducible refine KeptU.st ?_; with_reducible assumption)
    | with_reducible refine KeptU.st (Put.write_kept ?_)
    | with_reducible refine KeptU.st (putElem_kept ?_)
    | with_reducible apply Put.write_kept
    | with_reducible apply putElem_kept
    | with_reducible apply h_p
    | split
    | with_reducible apply KeptU.mk

theorem copySegment_kept {s₀  : State} {p : Put} {tg : Nat} {al : Nat} {xs : Desc} {xd : Desc} {h : Header} (h_p : KeptU s₀ p) :
    KeptOV s₀ (copySegment p tg al xs xd h) := by
  unfold copySegment
  repeat' first
    | with_reducible assumption
    | intro _
    | (extract_lets +onlyGivenNames x; first | (refine Kept.cut (s₀ := s₀) (x := x) ?_ ?_; rotate_left; intro _; clear_value x; rotate_left; unfold x; clear x) | (refine KeptU.cut (s₀ := s₀) (x := x) ?_ ?_; rotate_left; intro _; clear_value x; rotate_left; unfold x; clear x) | (refine KeptV.cut (s₀ := s₀) (x := x) ?_ ?_; rotate_left; intro _; clear_value x; rotate_left; unfold x; clear x) | (refine KeptOV.cut (s₀ := s₀) (x := x) ?_ ?_; rotate_left; intro _; clear_value x; rotate_left; unfold x; clear x) | (refine kept_cut_fun (s₀ := s₀) (x := x) ?_ ?_; rotate_left; intro _; clear_value x; rotate_left; unfold x; clear x) | (refine kept_cut_fun2 (s₀ := s₀) (x := x) ?_ ?_; rotate_left; intro _; clear_value x; rotate_left; unfold x; clear x) | (refine kept_cut_fun3 (s₀ := s₀) (x := x) ?_ ?_; rotate_left; intro _; clear_value x; rotate_left; unfold x; clear x) | (refine kept_cut_val (s₀ := s₀) (x := x) ?_ ?_; rotate_left; intro _; clear_value x; rotate_left; unfold x; clear x) | clear_value x | skip)
    | with_reducible apply Kept.ite
    | with_reducible apply KeptOV.ite
    | with_reducible apply KeptOV.some
    | with_reducible exact KeptOV.none
    | with_reducible apply KeptU.ite
    | (with_reducible refine KeptU.st ?_; with_reducible assumption)
    | with_reducible refine KeptU.st (Put.write_kept ?_)
    | with_reducible apply KeptV.ite
    | (with_reducible refine KeptV.fst ?_; with_reducible assumption)
    | with_reducible exact KeptV.val ‹_›
    | with_reducible apply Kept.foldl
    | with_reducible apply KeptU.foldl
    | with_reducible apply KeptV.foldl
    | with_reducible apply Put.write_kept
    | (with_reducible refine KeptOV.of_eq ?_ ‹_›)
    | (with_reducible refine KeptV.of_eq ?_ ‹_›)
    | with_reducible apply h_p
    | with_reducible apply_assumption -exfalso -symm
    | split
    | with_reducible apply KeptU.mk
    | with_reducible apply KeptV.mk

end Sys2Proof.Machine
end

