-- ==== Sys2Proof/Laws/KeptConfluence.lean ====
section
/-! SUPPORT. What the operations and meanings of Machine/Confluence.lean keep. -/

set_option linter.unreachableTactic false
set_option linter.unusedTactic false
set_option linter.unusedVariables false
set_option linter.tactic.unusedName false

namespace Sys2Proof.Machine

theorem issueLane_kept {s₀ s : State} {op : Nat} {y0 : Ctx} (hK : Kept s₀ s) :
    KeptO s₀ (issueLane op y0 s) := by
  unfold issueLane
  repeat' first
    | with_reducible assumption
    | intro _
    | (extract_lets +onlyGivenNames x; first | (refine Kept.cut (s₀ := s₀) (x := x) ?_ ?_; rotate_left; intro _; clear_value x; rotate_left; unfold x; clear x) | (refine KeptO.cut (s₀ := s₀) (x := x) ?_ ?_; rotate_left; intro _; clear_value x; rotate_left; unfold x; clear x) | clear_value x | skip)
    | with_reducible apply Kept.ite
    | with_reducible apply KeptO.ite
    | with_reducible exact KeptO.val ‹_›
    | with_reducible apply KeptO.some
    | with_reducible exact KeptO.none
    | with_reducible apply forward_kept
    | with_reducible apply checked_kept
    | (with_reducible refine KeptO.of_eq ?_ ‹_›)
    | split

theorem execCflScan_kept {s₀ s : State} {i : Issue} (hK : Kept s₀ s) :
    KeptX s₀ (execCflScan i s) := by
  unfold execCflScan
  repeat' first
    | with_reducible assumption
    | intro _
    | (extract_lets +onlyGivenNames x; first | (refine Kept.cut (s₀ := s₀) (x := x) ?_ ?_; rotate_left; intro _; clear_value x; rotate_left; unfold x; clear x) | (refine KeptX.cut (s₀ := s₀) (x := x) ?_ ?_; rotate_left; intro _; clear_value x; rotate_left; unfold x; clear x) | (refine KeptO.cut (s₀ := s₀) (x := x) ?_ ?_; rotate_left; intro _; clear_value x; rotate_left; unfold x; clear x) | clear_value x | skip)
    | with_reducible apply Kept.ite
    | with_reducible apply KeptO.ite
    | with_reducible exact KeptO.val ‹_›
    | with_reducible apply KeptO.some
    | with_reducible exact KeptO.none
    | with_reducible apply KeptX.ite
    | with_reducible apply KeptX.next
    | with_reducible exact KeptX.refused
    | with_reducible apply issue_kept
    | with_reducible apply issueLane_kept
    | (with_reducible refine KeptO.of_eq ?_ ‹_›)
    | (with_reducible refine KeptX.of_eq ?_ ‹_›)
    | split

theorem execCflIsectK2_kept {s₀ s : State} {i : Issue} (hK : Kept s₀ s) :
    KeptX s₀ (execCflIsectK2 i s) := by
  unfold execCflIsectK2
  repeat' first
    | with_reducible assumption
    | intro _
    | (extract_lets +onlyGivenNames x; first | (refine Kept.cut (s₀ := s₀) (x := x) ?_ ?_; rotate_left; intro _; clear_value x; rotate_left; unfold x; clear x) | (refine KeptX.cut (s₀ := s₀) (x := x) ?_ ?_; rotate_left; intro _; clear_value x; rotate_left; unfold x; clear x) | (refine KeptO.cut (s₀ := s₀) (x := x) ?_ ?_; rotate_left; intro _; clear_value x; rotate_left; unfold x; clear x) | clear_value x | skip)
    | with_reducible apply Kept.ite
    | with_reducible apply KeptO.ite
    | with_reducible exact KeptO.val ‹_›
    | with_reducible apply KeptO.some
    | with_reducible exact KeptO.none
    | with_reducible apply KeptX.ite
    | with_reducible apply KeptX.next
    | with_reducible exact KeptX.refused
    | with_reducible apply issue_kept
    | with_reducible apply issueLane_kept
    | (with_reducible refine KeptO.of_eq ?_ ‹_›)
    | (with_reducible refine KeptX.of_eq ?_ ‹_›)
    | split

theorem execCflUnionK2_kept {s₀ s : State} {i : Issue} (hK : Kept s₀ s) :
    KeptX s₀ (execCflUnionK2 i s) := by
  unfold execCflUnionK2
  repeat' first
    | with_reducible assumption
    | intro _
    | (extract_lets +onlyGivenNames x; first | (refine Kept.cut (s₀ := s₀) (x := x) ?_ ?_; rotate_left; intro _; clear_value x; rotate_left; unfold x; clear x) | (refine KeptX.cut (s₀ := s₀) (x := x) ?_ ?_; rotate_left; intro _; clear_value x; rotate_left; unfold x; clear x) | (refine KeptO.cut (s₀ := s₀) (x := x) ?_ ?_; rotate_left; intro _; clear_value x; rotate_left; unfold x; clear x) | clear_value x | skip)
    | with_reducible apply Kept.ite
    | with_reducible apply KeptO.ite
    | with_reducible exact KeptO.val ‹_›
    | with_reducible apply KeptO.some
    | with_reducible exact KeptO.none
    | with_reducible apply KeptX.ite
    | with_reducible apply KeptX.next
    | with_reducible exact KeptX.refused
    | with_reducible apply issue_kept
    | with_reducible apply issueLane_kept
    | (with_reducible refine KeptO.of_eq ?_ ‹_›)
    | (with_reducible refine KeptX.of_eq ?_ ‹_›)
    | split

theorem execCflMergeKk_kept {s₀ s : State} {i : Issue} (hK : Kept s₀ s) :
    KeptX s₀ (execCflMergeKk i s) := by
  unfold execCflMergeKk
  repeat' first
    | with_reducible assumption
    | intro _
    | (extract_lets +onlyGivenNames x; first | (refine Kept.cut (s₀ := s₀) (x := x) ?_ ?_; rotate_left; intro _; clear_value x; rotate_left; unfold x; clear x) | (refine KeptX.cut (s₀ := s₀) (x := x) ?_ ?_; rotate_left; intro _; clear_value x; rotate_left; unfold x; clear x) | (refine KeptO.cut (s₀ := s₀) (x := x) ?_ ?_; rotate_left; intro _; clear_value x; rotate_left; unfold x; clear x) | clear_value x | skip)
    | with_reducible apply Kept.ite
    | with_reducible apply KeptO.ite
    | with_reducible exact KeptO.val ‹_›
    | with_reducible apply KeptO.some
    | with_reducible exact KeptO.none
    | with_reducible apply KeptX.ite
    | with_reducible apply KeptX.next
    | with_reducible exact KeptX.refused
    | with_reducible apply issue_kept
    | with_reducible apply issueLane_kept
    | (with_reducible refine KeptO.of_eq ?_ ‹_›)
    | (with_reducible refine KeptX.of_eq ?_ ‹_›)
    | split

theorem execCflCmpct_kept {s₀ s : State} {i : Issue} (hK : Kept s₀ s) :
    KeptX s₀ (execCflCmpct i s) := by
  unfold execCflCmpct
  repeat' first
    | with_reducible assumption
    | intro _
    | (extract_lets +onlyGivenNames x; first | (refine Kept.cut (s₀ := s₀) (x := x) ?_ ?_; rotate_left; intro _; clear_value x; rotate_left; unfold x; clear x) | (refine KeptX.cut (s₀ := s₀) (x := x) ?_ ?_; rotate_left; intro _; clear_value x; rotate_left; unfold x; clear x) | (refine KeptO.cut (s₀ := s₀) (x := x) ?_ ?_; rotate_left; intro _; clear_value x; rotate_left; unfold x; clear x) | clear_value x | skip)
    | with_reducible apply Kept.ite
    | with_reducible apply KeptO.ite
    | with_reducible exact KeptO.val ‹_›
    | with_reducible apply KeptO.some
    | with_reducible exact KeptO.none
    | with_reducible apply KeptX.ite
    | with_reducible apply KeptX.next
    | with_reducible exact KeptX.refused
    | with_reducible apply issue_kept
    | with_reducible apply issueLane_kept
    | (with_reducible refine KeptO.of_eq ?_ ‹_›)
    | (with_reducible refine KeptX.of_eq ?_ ‹_›)
    | split

theorem laneForm_kept {s₀ s : State} {tg : Nat} {u : Nat} {e : Exec} (hK : Kept s₀ s) :
    Kept s₀ (laneForm s tg u e) := by
  unfold laneForm
  repeat' first
    | with_reducible assumption
    | intro _
    | (extract_lets +onlyGivenNames x; first | (refine Kept.cut (s₀ := s₀) (x := x) ?_ ?_; rotate_left; intro _; clear_value x; rotate_left; unfold x; clear x) | clear_value x | skip)
    | with_reducible apply Kept.ite
    | with_reducible apply ctrAdd_kept
    | with_reducible apply stageFault_kept
    | with_reducible apply updTerrace_kept
    | split

theorem laneTake_kept {s₀ s : State} {tg : Nat} {u : Nat} {i : Nat} (hK : Kept s₀ s) :
    Kept s₀ (laneTake s tg u i) := by
  unfold laneTake
  repeat' first
    | with_reducible assumption
    | intro _
    | (extract_lets +onlyGivenNames x; first | (refine Kept.cut (s₀ := s₀) (x := x) ?_ ?_; rotate_left; intro _; clear_value x; rotate_left; unfold x; clear x) | clear_value x | skip)
    | with_reducible apply Kept.ite
    | with_reducible apply missNext_kept
    | with_reducible apply setTerrace_kept
    | with_reducible apply updTerrace_kept
    | with_reducible apply freeHandle_kept
    | split

theorem feedLane_kept {s₀ s : State} {tg : Nat} {u : Nat} (hK : Kept s₀ s) :
    Kept s₀ (feedLane s tg u) := by
  unfold feedLane
  repeat' first
    | with_reducible assumption
    | intro _
    | (extract_lets +onlyGivenNames x; first | (refine Kept.cut (s₀ := s₀) (x := x) ?_ ?_; rotate_left; intro _; clear_value x; rotate_left; unfold x; clear x) | clear_value x | skip)
    | with_reducible apply Kept.ite
    | with_reducible apply Kept.foldl
    | with_reducible apply laneTake_kept
    | with_reducible apply laneForm_kept
    | split

theorem startLane_kept {s₀ s : State} {tg : Nat} {c : Cmd} (hK : Kept s₀ s) :
    KeptP s₀ (startLane s tg c) := by
  unfold startLane
  repeat' first
    | with_reducible assumption
    | intro _
    | (extract_lets +onlyGivenNames x; first | (refine Kept.cut (s₀ := s₀) (x := x) ?_ ?_; rotate_left; intro _; clear_value x; rotate_left; unfold x; clear x) | (refine KeptP.cut (s₀ := s₀) (x := x) ?_ ?_; rotate_left; intro _; clear_value x; rotate_left; unfold x; clear x) | (refine kept_cut_fun (s₀ := s₀) (x := x) ?_ ?_; rotate_left; intro _; clear_value x; rotate_left; unfold x; clear x) | (refine kept_cut_fun2 (s₀ := s₀) (x := x) ?_ ?_; rotate_left; intro _; clear_value x; rotate_left; unfold x; clear x) | (refine kept_cut_fun3 (s₀ := s₀) (x := x) ?_ ?_; rotate_left; intro _; clear_value x; rotate_left; unfold x; clear x) | (refine kept_cut_val (s₀ := s₀) (x := x) ?_ ?_; rotate_left; intro _; clear_value x; rotate_left; unfold x; clear x) | clear_value x | skip)
    | with_reducible apply Kept.ite
    | with_reducible apply KeptP.ite
    | (with_reducible refine KeptP.snd ?_; with_reducible assumption)
    | with_reducible exact KeptP.val ‹_›
    | with_reducible apply updTerrace_kept
    | with_reducible apply feedLane_kept
    | (with_reducible refine KeptP.of_eq ?_ ‹_›)
    | with_reducible apply_assumption -exfalso -symm
    | split
    | with_reducible apply KeptP.mk

end Sys2Proof.Machine
end

