-- ==== Sys2Proof/Laws/KeptControl.lean ====
section
/-! SUPPORT. What the operations and meanings of Machine/Control.lean keep. -/

set_option linter.unreachableTactic false
set_option linter.unusedTactic false
set_option linter.unusedVariables false
set_option linter.tactic.unusedName false

namespace Sys2Proof.Machine

theorem execCtlNop_kept {s₀ s : State} {i : Issue} (hK : Kept s₀ s) :
    KeptX s₀ (execCtlNop i s) := by
  unfold execCtlNop
  repeat' first
    | with_reducible assumption
    | intro _
    | (extract_lets +onlyGivenNames x; first | (refine Kept.cut (s₀ := s₀) (x := x) ?_ ?_; rotate_left; intro _; clear_value x; rotate_left; unfold x; clear x) | (refine KeptX.cut (s₀ := s₀) (x := x) ?_ ?_; rotate_left; intro _; clear_value x; rotate_left; unfold x; clear x) | (refine KeptO.cut (s₀ := s₀) (x := x) ?_ ?_; rotate_left; intro _; clear_value x; rotate_left; unfold x; clear x) | clear_value x | skip)
    | with_reducible apply Kept.ite
    | with_reducible apply KeptO.ite
    | with_reducible exact KeptO.val ‹_›
    | with_reducible apply KeptO.some
    | with_reducible exact KeptO.none
    | with_reducible apply KeptX.ite
    | with_reducible apply KeptX.next
    | with_reducible exact KeptX.refused
    | with_reducible apply strict_kept
    | with_reducible apply issue_kept
    | (with_reducible refine KeptO.of_eq ?_ ‹_›)
    | (with_reducible refine KeptX.of_eq ?_ ‹_›)
    | split

theorem execCtlEnd_kept {s₀ s : State} {i : Issue} (hK : Kept s₀ s) :
    KeptX s₀ (execCtlEnd i s) := by
  unfold execCtlEnd
  repeat' first
    | with_reducible assumption
    | intro _
    | (extract_lets +onlyGivenNames x; first | (refine Kept.cut (s₀ := s₀) (x := x) ?_ ?_; rotate_left; intro _; clear_value x; rotate_left; unfold x; clear x) | (refine KeptX.cut (s₀ := s₀) (x := x) ?_ ?_; rotate_left; intro _; clear_value x; rotate_left; unfold x; clear x) | (refine KeptO.cut (s₀ := s₀) (x := x) ?_ ?_; rotate_left; intro _; clear_value x; rotate_left; unfold x; clear x) | clear_value x | skip)
    | with_reducible apply Kept.ite
    | with_reducible apply KeptO.ite
    | with_reducible exact KeptO.val ‹_›
    | with_reducible apply KeptO.some
    | with_reducible exact KeptO.none
    | with_reducible apply KeptX.ite
    | with_reducible apply KeptX.next
    | with_reducible exact KeptX.refused
    | with_reducible apply strict_kept
    | with_reducible apply issue_kept
    | with_reducible apply onThread_kept
    | (with_reducible refine KeptO.of_eq ?_ ‹_›)
    | (with_reducible refine KeptX.of_eq ?_ ‹_›)
    | split

theorem execCtlJmp_kept {s₀ s : State} {i : Issue} (hK : Kept s₀ s) :
    KeptX s₀ (execCtlJmp i s) := by
  unfold execCtlJmp
  repeat' first
    | with_reducible assumption
    | intro _
    | (extract_lets +onlyGivenNames x; first | (refine Kept.cut (s₀ := s₀) (x := x) ?_ ?_; rotate_left; intro _; clear_value x; rotate_left; unfold x; clear x) | (refine KeptX.cut (s₀ := s₀) (x := x) ?_ ?_; rotate_left; intro _; clear_value x; rotate_left; unfold x; clear x) | (refine KeptO.cut (s₀ := s₀) (x := x) ?_ ?_; rotate_left; intro _; clear_value x; rotate_left; unfold x; clear x) | clear_value x | skip)
    | with_reducible apply Kept.ite
    | with_reducible apply KeptO.ite
    | with_reducible exact KeptO.val ‹_›
    | with_reducible apply KeptO.some
    | with_reducible exact KeptO.none
    | with_reducible apply KeptX.ite
    | with_reducible apply KeptX.next
    | with_reducible exact KeptX.refused
    | with_reducible apply strict_kept
    | with_reducible apply issue_kept
    | with_reducible apply onThread_kept
    | (with_reducible refine KeptO.of_eq ?_ ‹_›)
    | (with_reducible refine KeptX.of_eq ?_ ‹_›)
    | split

theorem execCtlJal_kept {s₀ s : State} {i : Issue} (hK : Kept s₀ s) :
    KeptX s₀ (execCtlJal i s) := by
  unfold execCtlJal
  repeat' first
    | with_reducible assumption
    | intro _
    | (extract_lets +onlyGivenNames x; first | (refine Kept.cut (s₀ := s₀) (x := x) ?_ ?_; rotate_left; intro _; clear_value x; rotate_left; unfold x; clear x) | (refine KeptX.cut (s₀ := s₀) (x := x) ?_ ?_; rotate_left; intro _; clear_value x; rotate_left; unfold x; clear x) | (refine KeptO.cut (s₀ := s₀) (x := x) ?_ ?_; rotate_left; intro _; clear_value x; rotate_left; unfold x; clear x) | clear_value x | skip)
    | with_reducible apply Kept.ite
    | with_reducible apply KeptO.ite
    | with_reducible exact KeptO.val ‹_›
    | with_reducible apply KeptO.some
    | with_reducible exact KeptO.none
    | with_reducible apply KeptX.ite
    | with_reducible apply KeptX.next
    | with_reducible exact KeptX.refused
    | with_reducible apply strict_kept
    | with_reducible apply issue_kept
    | with_reducible apply onThread_kept
    | (with_reducible refine KeptO.of_eq ?_ ‹_›)
    | (with_reducible refine KeptX.of_eq ?_ ‹_›)
    | split

theorem execCtlJr_kept {s₀ s : State} {i : Issue} (hK : Kept s₀ s) :
    KeptX s₀ (execCtlJr i s) := by
  unfold execCtlJr
  repeat' first
    | with_reducible assumption
    | intro _
    | (extract_lets +onlyGivenNames x; first | (refine Kept.cut (s₀ := s₀) (x := x) ?_ ?_; rotate_left; intro _; clear_value x; rotate_left; unfold x; clear x) | (refine KeptX.cut (s₀ := s₀) (x := x) ?_ ?_; rotate_left; intro _; clear_value x; rotate_left; unfold x; clear x) | (refine KeptO.cut (s₀ := s₀) (x := x) ?_ ?_; rotate_left; intro _; clear_value x; rotate_left; unfold x; clear x) | clear_value x | skip)
    | with_reducible apply Kept.ite
    | with_reducible apply KeptO.ite
    | with_reducible exact KeptO.val ‹_›
    | with_reducible apply KeptO.some
    | with_reducible exact KeptO.none
    | with_reducible apply KeptX.ite
    | with_reducible apply KeptX.next
    | with_reducible exact KeptX.refused
    | with_reducible apply strict_kept
    | with_reducible apply issue_kept
    | with_reducible apply onThread_kept
    | (with_reducible refine KeptO.of_eq ?_ ‹_›)
    | (with_reducible refine KeptX.of_eq ?_ ‹_›)
    | split

theorem semAdd_kept {s₀ s : State} {tg : Nat} {span : Bool} {i : Nat} {v : W32} (hK : Kept s₀ s) :
    Kept s₀ (semAdd s tg span i v) := by
  unfold semAdd
  repeat' first
    | with_reducible assumption
    | intro _
    | (extract_lets +onlyGivenNames x; first | (refine Kept.cut (s₀ := s₀) (x := x) ?_ ?_; rotate_left; intro _; clear_value x; rotate_left; unfold x; clear x) | clear_value x | skip)
    | with_reducible apply Kept.ite
    | with_reducible apply updRun_kept
    | with_reducible apply updTerrace_kept
    | split

theorem execCtlSig_kept {s₀ s : State} {i : Issue} (hK : Kept s₀ s) :
    KeptX s₀ (execCtlSig i s) := by
  unfold execCtlSig
  repeat' first
    | with_reducible assumption
    | intro _
    | (extract_lets +onlyGivenNames x; first | (refine Kept.cut (s₀ := s₀) (x := x) ?_ ?_; rotate_left; intro _; clear_value x; rotate_left; unfold x; clear x) | (refine KeptX.cut (s₀ := s₀) (x := x) ?_ ?_; rotate_left; intro _; clear_value x; rotate_left; unfold x; clear x) | (refine KeptO.cut (s₀ := s₀) (x := x) ?_ ?_; rotate_left; intro _; clear_value x; rotate_left; unfold x; clear x) | clear_value x | skip)
    | with_reducible apply Kept.ite
    | with_reducible apply KeptO.ite
    | with_reducible exact KeptO.val ‹_›
    | with_reducible apply KeptO.some
    | with_reducible exact KeptO.none
    | with_reducible apply KeptX.ite
    | with_reducible apply KeptX.next
    | with_reducible exact KeptX.refused
    | with_reducible apply strict_kept
    | with_reducible apply issue_kept
    | with_reducible apply semAdd_kept
    | (with_reducible refine KeptO.of_eq ?_ ‹_›)
    | (with_reducible refine KeptX.of_eq ?_ ‹_›)
    | split

theorem execCtlWait_kept {s₀ s : State} {i : Issue} (hK : Kept s₀ s) :
    KeptX s₀ (execCtlWait i s) := by
  unfold execCtlWait
  repeat' first
    | with_reducible assumption
    | intro _
    | (extract_lets +onlyGivenNames x; first | (refine Kept.cut (s₀ := s₀) (x := x) ?_ ?_; rotate_left; intro _; clear_value x; rotate_left; unfold x; clear x) | (refine KeptX.cut (s₀ := s₀) (x := x) ?_ ?_; rotate_left; intro _; clear_value x; rotate_left; unfold x; clear x) | (refine KeptO.cut (s₀ := s₀) (x := x) ?_ ?_; rotate_left; intro _; clear_value x; rotate_left; unfold x; clear x) | clear_value x | skip)
    | with_reducible apply Kept.ite
    | with_reducible apply KeptO.ite
    | with_reducible exact KeptO.val ‹_›
    | with_reducible apply KeptO.some
    | with_reducible exact KeptO.none
    | with_reducible apply KeptX.ite
    | with_reducible apply KeptX.next
    | with_reducible exact KeptX.refused
    | with_reducible apply strict_kept
    | with_reducible apply issue_kept
    | with_reducible apply onThread_kept
    | (with_reducible refine KeptO.of_eq ?_ ‹_›)
    | (with_reducible refine KeptX.of_eq ?_ ‹_›)
    | split

end Sys2Proof.Machine
end

