-- ==== Sys2Proof/Laws/KeptScalar.lean ====
section
/-! SUPPORT. What the operations and meanings of Machine/Scalar.lean keep. -/

set_option linter.unreachableTactic false
set_option linter.unusedTactic false
set_option linter.unusedVariables false
set_option linter.tactic.unusedName false

namespace Sys2Proof.Machine

theorem aluBody_kept {s₀ s : State} {f : W64 → W64 → W64} {c : Ctx} (hK : Kept s₀ s) :
    KeptO s₀ (aluBody f c s) := by
  unfold aluBody
  repeat' first
    | with_reducible assumption
    | intro _
    | (extract_lets +onlyGivenNames x; first | (refine Kept.cut (s₀ := s₀) (x := x) ?_ ?_; rotate_left; intro _; clear_value x; rotate_left; unfold x; clear x) | (refine KeptO.cut (s₀ := s₀) (x := x) ?_ ?_; rotate_left; intro _; clear_value x; rotate_left; unfold x; clear x) | clear_value x | skip)
    | with_reducible apply Kept.ite
    | with_reducible apply KeptO.ite
    | with_reducible exact KeptO.val ‹_›
    | with_reducible apply KeptO.some
    | with_reducible exact KeptO.none
    | with_reducible apply onThread_kept
    | (with_reducible refine KeptO.of_eq ?_ ‹_›)
    | split

theorem execSclAdd_kept {s₀ s : State} {i : Issue} (hK : Kept s₀ s) :
    KeptX s₀ (execSclAdd i s) := by
  unfold execSclAdd
  repeat' first
    | with_reducible assumption
    | intro _
    | (extract_lets +onlyGivenNames x; first | (refine Kept.cut (s₀ := s₀) (x := x) ?_ ?_; rotate_left; intro _; clear_value x; rotate_left; unfold x; clear x) | (refine KeptX.cut (s₀ := s₀) (x := x) ?_ ?_; rotate_left; intro _; clear_value x; rotate_left; unfold x; clear x) | (refine KeptO.cut (s₀ := s₀) (x := x) ?_ ?_; rotate_left; intro _; clear_value x; rotate_left; unfold x; clear x) | clear_value x | skip)
    | with_reducible apply Kept.ite
    | with_reducible apply KeptO.ite
    | with_reducible exact KeptO.val ‹_›
    | with_reducible apply KeptO.some
    | with_reducible exact KeptO.none
    | with_reducible apply KeptX.ite
    | with_reducible apply KeptX.next
    | with_reducible exact KeptX.refused
    | with_reducible apply issue_kept
    | with_reducible apply aluBody_kept
    | (with_reducible refine KeptO.of_eq ?_ ‹_›)
    | (with_reducible refine KeptX.of_eq ?_ ‹_›)
    | split

theorem execSclSub_kept {s₀ s : State} {i : Issue} (hK : Kept s₀ s) :
    KeptX s₀ (execSclSub i s) := by
  unfold execSclSub
  repeat' first
    | with_reducible assumption
    | intro _
    | (extract_lets +onlyGivenNames x; first | (refine Kept.cut (s₀ := s₀) (x := x) ?_ ?_; rotate_left; intro _; clear_value x; rotate_left; unfold x; clear x) | (refine KeptX.cut (s₀ := s₀) (x := x) ?_ ?_; rotate_left; intro _; clear_value x; rotate_left; unfold x; clear x) | (refine KeptO.cut (s₀ := s₀) (x := x) ?_ ?_; rotate_left; intro _; clear_value x; rotate_left; unfold x; clear x) | clear_value x | skip)
    | with_reducible apply Kept.ite
    | with_reducible apply KeptO.ite
    | with_reducible exact KeptO.val ‹_›
    | with_reducible apply KeptO.some
    | with_reducible exact KeptO.none
    | with_reducible apply KeptX.ite
    | with_reducible apply KeptX.next
    | with_reducible exact KeptX.refused
    | with_reducible apply issue_kept
    | with_reducible apply aluBody_kept
    | (with_reducible refine KeptO.of_eq ?_ ‹_›)
    | (with_reducible refine KeptX.of_eq ?_ ‹_›)
    | split

theorem execSclMul_kept {s₀ s : State} {i : Issue} (hK : Kept s₀ s) :
    KeptX s₀ (execSclMul i s) := by
  unfold execSclMul
  repeat' first
    | with_reducible assumption
    | intro _
    | (extract_lets +onlyGivenNames x; first | (refine Kept.cut (s₀ := s₀) (x := x) ?_ ?_; rotate_left; intro _; clear_value x; rotate_left; unfold x; clear x) | (refine KeptX.cut (s₀ := s₀) (x := x) ?_ ?_; rotate_left; intro _; clear_value x; rotate_left; unfold x; clear x) | (refine KeptO.cut (s₀ := s₀) (x := x) ?_ ?_; rotate_left; intro _; clear_value x; rotate_left; unfold x; clear x) | clear_value x | skip)
    | with_reducible apply Kept.ite
    | with_reducible apply KeptO.ite
    | with_reducible exact KeptO.val ‹_›
    | with_reducible apply KeptO.some
    | with_reducible exact KeptO.none
    | with_reducible apply KeptX.ite
    | with_reducible apply KeptX.next
    | with_reducible exact KeptX.refused
    | with_reducible apply issue_kept
    | with_reducible apply aluBody_kept
    | (with_reducible refine KeptO.of_eq ?_ ‹_›)
    | (with_reducible refine KeptX.of_eq ?_ ‹_›)
    | split

theorem execSclAnd_kept {s₀ s : State} {i : Issue} (hK : Kept s₀ s) :
    KeptX s₀ (execSclAnd i s) := by
  unfold execSclAnd
  repeat' first
    | with_reducible assumption
    | intro _
    | (extract_lets +onlyGivenNames x; first | (refine Kept.cut (s₀ := s₀) (x := x) ?_ ?_; rotate_left; intro _; clear_value x; rotate_left; unfold x; clear x) | (refine KeptX.cut (s₀ := s₀) (x := x) ?_ ?_; rotate_left; intro _; clear_value x; rotate_left; unfold x; clear x) | (refine KeptO.cut (s₀ := s₀) (x := x) ?_ ?_; rotate_left; intro _; clear_value x; rotate_left; unfold x; clear x) | clear_value x | skip)
    | with_reducible apply Kept.ite
    | with_reducible apply KeptO.ite
    | with_reducible exact KeptO.val ‹_›
    | with_reducible apply KeptO.some
    | with_reducible exact KeptO.none
    | with_reducible apply KeptX.ite
    | with_reducible apply KeptX.next
    | with_reducible exact KeptX.refused
    | with_reducible apply issue_kept
    | with_reducible apply aluBody_kept
    | (with_reducible refine KeptO.of_eq ?_ ‹_›)
    | (with_reducible refine KeptX.of_eq ?_ ‹_›)
    | split

theorem execSclOr_kept {s₀ s : State} {i : Issue} (hK : Kept s₀ s) :
    KeptX s₀ (execSclOr i s) := by
  unfold execSclOr
  repeat' first
    | with_reducible assumption
    | intro _
    | (extract_lets +onlyGivenNames x; first | (refine Kept.cut (s₀ := s₀) (x := x) ?_ ?_; rotate_left; intro _; clear_value x; rotate_left; unfold x; clear x) | (refine KeptX.cut (s₀ := s₀) (x := x) ?_ ?_; rotate_left; intro _; clear_value x; rotate_left; unfold x; clear x) | (refine KeptO.cut (s₀ := s₀) (x := x) ?_ ?_; rotate_left; intro _; clear_value x; rotate_left; unfold x; clear x) | clear_value x | skip)
    | with_reducible apply Kept.ite
    | with_reducible apply KeptO.ite
    | with_reducible exact KeptO.val ‹_›
    | with_reducible apply KeptO.some
    | with_reducible exact KeptO.none
    | with_reducible apply KeptX.ite
    | with_reducible apply KeptX.next
    | with_reducible exact KeptX.refused
    | with_reducible apply issue_kept
    | with_reducible apply aluBody_kept
    | (with_reducible refine KeptO.of_eq ?_ ‹_›)
    | (with_reducible refine KeptX.of_eq ?_ ‹_›)
    | split

theorem execSclXor_kept {s₀ s : State} {i : Issue} (hK : Kept s₀ s) :
    KeptX s₀ (execSclXor i s) := by
  unfold execSclXor
  repeat' first
    | with_reducible assumption
    | intro _
    | (extract_lets +onlyGivenNames x; first | (refine Kept.cut (s₀ := s₀) (x := x) ?_ ?_; rotate_left; intro _; clear_value x; rotate_left; unfold x; clear x) | (refine KeptX.cut (s₀ := s₀) (x := x) ?_ ?_; rotate_left; intro _; clear_value x; rotate_left; unfold x; clear x) | (refine KeptO.cut (s₀ := s₀) (x := x) ?_ ?_; rotate_left; intro _; clear_value x; rotate_left; unfold x; clear x) | clear_value x | skip)
    | with_reducible apply Kept.ite
    | with_reducible apply KeptO.ite
    | with_reducible exact KeptO.val ‹_›
    | with_reducible apply KeptO.some
    | with_reducible exact KeptO.none
    | with_reducible apply KeptX.ite
    | with_reducible apply KeptX.next
    | with_reducible exact KeptX.refused
    | with_reducible apply issue_kept
    | with_reducible apply aluBody_kept
    | (with_reducible refine KeptO.of_eq ?_ ‹_›)
    | (with_reducible refine KeptX.of_eq ?_ ‹_›)
    | split

theorem execSclShl_kept {s₀ s : State} {i : Issue} (hK : Kept s₀ s) :
    KeptX s₀ (execSclShl i s) := by
  unfold execSclShl
  repeat' first
    | with_reducible assumption
    | intro _
    | (extract_lets +onlyGivenNames x; first | (refine Kept.cut (s₀ := s₀) (x := x) ?_ ?_; rotate_left; intro _; clear_value x; rotate_left; unfold x; clear x) | (refine KeptX.cut (s₀ := s₀) (x := x) ?_ ?_; rotate_left; intro _; clear_value x; rotate_left; unfold x; clear x) | (refine KeptO.cut (s₀ := s₀) (x := x) ?_ ?_; rotate_left; intro _; clear_value x; rotate_left; unfold x; clear x) | clear_value x | skip)
    | with_reducible apply Kept.ite
    | with_reducible apply KeptO.ite
    | with_reducible exact KeptO.val ‹_›
    | with_reducible apply KeptO.some
    | with_reducible exact KeptO.none
    | with_reducible apply KeptX.ite
    | with_reducible apply KeptX.next
    | with_reducible exact KeptX.refused
    | with_reducible apply issue_kept
    | with_reducible apply aluBody_kept
    | (with_reducible refine KeptO.of_eq ?_ ‹_›)
    | (with_reducible refine KeptX.of_eq ?_ ‹_›)
    | split

theorem execSclShr_kept {s₀ s : State} {i : Issue} (hK : Kept s₀ s) :
    KeptX s₀ (execSclShr i s) := by
  unfold execSclShr
  repeat' first
    | with_reducible assumption
    | intro _
    | (extract_lets +onlyGivenNames x; first | (refine Kept.cut (s₀ := s₀) (x := x) ?_ ?_; rotate_left; intro _; clear_value x; rotate_left; unfold x; clear x) | (refine KeptX.cut (s₀ := s₀) (x := x) ?_ ?_; rotate_left; intro _; clear_value x; rotate_left; unfold x; clear x) | (refine KeptO.cut (s₀ := s₀) (x := x) ?_ ?_; rotate_left; intro _; clear_value x; rotate_left; unfold x; clear x) | clear_value x | skip)
    | with_reducible apply Kept.ite
    | with_reducible apply KeptO.ite
    | with_reducible exact KeptO.val ‹_›
    | with_reducible apply KeptO.some
    | with_reducible exact KeptO.none
    | with_reducible apply KeptX.ite
    | with_reducible apply KeptX.next
    | with_reducible exact KeptX.refused
    | with_reducible apply issue_kept
    | with_reducible apply aluBody_kept
    | (with_reducible refine KeptO.of_eq ?_ ‹_›)
    | (with_reducible refine KeptX.of_eq ?_ ‹_›)
    | split

theorem execSclSar_kept {s₀ s : State} {i : Issue} (hK : Kept s₀ s) :
    KeptX s₀ (execSclSar i s) := by
  unfold execSclSar
  repeat' first
    | with_reducible assumption
    | intro _
    | (extract_lets +onlyGivenNames x; first | (refine Kept.cut (s₀ := s₀) (x := x) ?_ ?_; rotate_left; intro _; clear_value x; rotate_left; unfold x; clear x) | (refine KeptX.cut (s₀ := s₀) (x := x) ?_ ?_; rotate_left; intro _; clear_value x; rotate_left; unfold x; clear x) | (refine KeptO.cut (s₀ := s₀) (x := x) ?_ ?_; rotate_left; intro _; clear_value x; rotate_left; unfold x; clear x) | clear_value x | skip)
    | with_reducible apply Kept.ite
    | with_reducible apply KeptO.ite
    | with_reducible exact KeptO.val ‹_›
    | with_reducible apply KeptO.some
    | with_reducible exact KeptO.none
    | with_reducible apply KeptX.ite
    | with_reducible apply KeptX.next
    | with_reducible exact KeptX.refused
    | with_reducible apply issue_kept
    | with_reducible apply aluBody_kept
    | (with_reducible refine KeptO.of_eq ?_ ‹_›)
    | (with_reducible refine KeptX.of_eq ?_ ‹_›)
    | split

theorem execSclMin_kept {s₀ s : State} {i : Issue} (hK : Kept s₀ s) :
    KeptX s₀ (execSclMin i s) := by
  unfold execSclMin
  repeat' first
    | with_reducible assumption
    | intro _
    | (extract_lets +onlyGivenNames x; first | (refine Kept.cut (s₀ := s₀) (x := x) ?_ ?_; rotate_left; intro _; clear_value x; rotate_left; unfold x; clear x) | (refine KeptX.cut (s₀ := s₀) (x := x) ?_ ?_; rotate_left; intro _; clear_value x; rotate_left; unfold x; clear x) | (refine KeptO.cut (s₀ := s₀) (x := x) ?_ ?_; rotate_left; intro _; clear_value x; rotate_left; unfold x; clear x) | clear_value x | skip)
    | with_reducible apply Kept.ite
    | with_reducible apply KeptO.ite
    | with_reducible exact KeptO.val ‹_›
    | with_reducible apply KeptO.some
    | with_reducible exact KeptO.none
    | with_reducible apply KeptX.ite
    | with_reducible apply KeptX.next
    | with_reducible exact KeptX.refused
    | with_reducible apply issue_kept
    | with_reducible apply aluBody_kept
    | (with_reducible refine KeptO.of_eq ?_ ‹_›)
    | (with_reducible refine KeptX.of_eq ?_ ‹_›)
    | split

theorem execSclMax_kept {s₀ s : State} {i : Issue} (hK : Kept s₀ s) :
    KeptX s₀ (execSclMax i s) := by
  unfold execSclMax
  repeat' first
    | with_reducible assumption
    | intro _
    | (extract_lets +onlyGivenNames x; first | (refine Kept.cut (s₀ := s₀) (x := x) ?_ ?_; rotate_left; intro _; clear_value x; rotate_left; unfold x; clear x) | (refine KeptX.cut (s₀ := s₀) (x := x) ?_ ?_; rotate_left; intro _; clear_value x; rotate_left; unfold x; clear x) | (refine KeptO.cut (s₀ := s₀) (x := x) ?_ ?_; rotate_left; intro _; clear_value x; rotate_left; unfold x; clear x) | clear_value x | skip)
    | with_reducible apply Kept.ite
    | with_reducible apply KeptO.ite
    | with_reducible exact KeptO.val ‹_›
    | with_reducible apply KeptO.some
    | with_reducible exact KeptO.none
    | with_reducible apply KeptX.ite
    | with_reducible apply KeptX.next
    | with_reducible exact KeptX.refused
    | with_reducible apply issue_kept
    | with_reducible apply aluBody_kept
    | (with_reducible refine KeptO.of_eq ?_ ‹_›)
    | (with_reducible refine KeptX.of_eq ?_ ‹_›)
    | split

theorem execSclMinu_kept {s₀ s : State} {i : Issue} (hK : Kept s₀ s) :
    KeptX s₀ (execSclMinu i s) := by
  unfold execSclMinu
  repeat' first
    | with_reducible assumption
    | intro _
    | (extract_lets +onlyGivenNames x; first | (refine Kept.cut (s₀ := s₀) (x := x) ?_ ?_; rotate_left; intro _; clear_value x; rotate_left; unfold x; clear x) | (refine KeptX.cut (s₀ := s₀) (x := x) ?_ ?_; rotate_left; intro _; clear_value x; rotate_left; unfold x; clear x) | (refine KeptO.cut (s₀ := s₀) (x := x) ?_ ?_; rotate_left; intro _; clear_value x; rotate_left; unfold x; clear x) | clear_value x | skip)
    | with_reducible apply Kept.ite
    | with_reducible apply KeptO.ite
    | with_reducible exact KeptO.val ‹_›
    | with_reducible apply KeptO.some
    | with_reducible exact KeptO.none
    | with_reducible apply KeptX.ite
    | with_reducible apply KeptX.next
    | with_reducible exact KeptX.refused
    | with_reducible apply issue_kept
    | with_reducible apply aluBody_kept
    | (with_reducible refine KeptO.of_eq ?_ ‹_›)
    | (with_reducible refine KeptX.of_eq ?_ ‹_›)
    | split

theorem execSclMaxu_kept {s₀ s : State} {i : Issue} (hK : Kept s₀ s) :
    KeptX s₀ (execSclMaxu i s) := by
  unfold execSclMaxu
  repeat' first
    | with_reducible assumption
    | intro _
    | (extract_lets +onlyGivenNames x; first | (refine Kept.cut (s₀ := s₀) (x := x) ?_ ?_; rotate_left; intro _; clear_value x; rotate_left; unfold x; clear x) | (refine KeptX.cut (s₀ := s₀) (x := x) ?_ ?_; rotate_left; intro _; clear_value x; rotate_left; unfold x; clear x) | (refine KeptO.cut (s₀ := s₀) (x := x) ?_ ?_; rotate_left; intro _; clear_value x; rotate_left; unfold x; clear x) | clear_value x | skip)
    | with_reducible apply Kept.ite
    | with_reducible apply KeptO.ite
    | with_reducible exact KeptO.val ‹_›
    | with_reducible apply KeptO.some
    | with_reducible exact KeptO.none
    | with_reducible apply KeptX.ite
    | with_reducible apply KeptX.next
    | with_reducible exact KeptX.refused
    | with_reducible apply issue_kept
    | with_reducible apply aluBody_kept
    | (with_reducible refine KeptO.of_eq ?_ ‹_›)
    | (with_reducible refine KeptX.of_eq ?_ ‹_›)
    | split

theorem execSclDivu_kept {s₀ s : State} {i : Issue} (hK : Kept s₀ s) :
    KeptX s₀ (execSclDivu i s) := by
  unfold execSclDivu
  repeat' first
    | with_reducible assumption
    | intro _
    | (extract_lets +onlyGivenNames x; first | (refine Kept.cut (s₀ := s₀) (x := x) ?_ ?_; rotate_left; intro _; clear_value x; rotate_left; unfold x; clear x) | (refine KeptX.cut (s₀ := s₀) (x := x) ?_ ?_; rotate_left; intro _; clear_value x; rotate_left; unfold x; clear x) | (refine KeptO.cut (s₀ := s₀) (x := x) ?_ ?_; rotate_left; intro _; clear_value x; rotate_left; unfold x; clear x) | clear_value x | skip)
    | with_reducible apply Kept.ite
    | with_reducible apply KeptO.ite
    | with_reducible exact KeptO.val ‹_›
    | with_reducible apply KeptO.some
    | with_reducible exact KeptO.none
    | with_reducible apply KeptX.ite
    | with_reducible apply KeptX.next
    | with_reducible exact KeptX.refused
    | with_reducible apply issue_kept
    | with_reducible apply aluBody_kept
    | (with_reducible refine KeptO.of_eq ?_ ‹_›)
    | (with_reducible refine KeptX.of_eq ?_ ‹_›)
    | split

theorem execSclRemu_kept {s₀ s : State} {i : Issue} (hK : Kept s₀ s) :
    KeptX s₀ (execSclRemu i s) := by
  unfold execSclRemu
  repeat' first
    | with_reducible assumption
    | intro _
    | (extract_lets +onlyGivenNames x; first | (refine Kept.cut (s₀ := s₀) (x := x) ?_ ?_; rotate_left; intro _; clear_value x; rotate_left; unfold x; clear x) | (refine KeptX.cut (s₀ := s₀) (x := x) ?_ ?_; rotate_left; intro _; clear_value x; rotate_left; unfold x; clear x) | (refine KeptO.cut (s₀ := s₀) (x := x) ?_ ?_; rotate_left; intro _; clear_value x; rotate_left; unfold x; clear x) | clear_value x | skip)
    | with_reducible apply Kept.ite
    | with_reducible apply KeptO.ite
    | with_reducible exact KeptO.val ‹_›
    | with_reducible apply KeptO.some
    | with_reducible exact KeptO.none
    | with_reducible apply KeptX.ite
    | with_reducible apply KeptX.next
    | with_reducible exact KeptX.refused
    | with_reducible apply issue_kept
    | with_reducible apply aluBody_kept
    | (with_reducible refine KeptO.of_eq ?_ ‹_›)
    | (with_reducible refine KeptX.of_eq ?_ ‹_›)
    | split

theorem execSclMovi_kept {s₀ s : State} {i : Issue} (hK : Kept s₀ s) :
    KeptX s₀ (execSclMovi i s) := by
  unfold execSclMovi
  repeat' first
    | with_reducible assumption
    | intro _
    | (extract_lets +onlyGivenNames x; first | (refine Kept.cut (s₀ := s₀) (x := x) ?_ ?_; rotate_left; intro _; clear_value x; rotate_left; unfold x; clear x) | (refine KeptX.cut (s₀ := s₀) (x := x) ?_ ?_; rotate_left; intro _; clear_value x; rotate_left; unfold x; clear x) | (refine KeptO.cut (s₀ := s₀) (x := x) ?_ ?_; rotate_left; intro _; clear_value x; rotate_left; unfold x; clear x) | clear_value x | skip)
    | with_reducible apply Kept.ite
    | with_reducible apply KeptO.ite
    | with_reducible exact KeptO.val ‹_›
    | with_reducible apply KeptO.some
    | with_reducible exact KeptO.none
    | with_reducible apply KeptX.ite
    | with_reducible apply KeptX.next
    | with_reducible exact KeptX.refused
    | with_reducible apply strict_kept
    | with_reducible apply issue_kept
    | with_reducible apply onThread_kept
    | (with_reducible refine KeptO.of_eq ?_ ‹_›)
    | (with_reducible refine KeptX.of_eq ?_ ‹_›)
    | split

theorem execSclPlog_kept {s₀ s : State} {i : Issue} (hK : Kept s₀ s) :
    KeptX s₀ (execSclPlog i s) := by
  unfold execSclPlog
  repeat' first
    | with_reducible assumption
    | intro _
    | (extract_lets +onlyGivenNames x; first | (refine Kept.cut (s₀ := s₀) (x := x) ?_ ?_; rotate_left; intro _; clear_value x; rotate_left; unfold x; clear x) | (refine KeptX.cut (s₀ := s₀) (x := x) ?_ ?_; rotate_left; intro _; clear_value x; rotate_left; unfold x; clear x) | (refine KeptO.cut (s₀ := s₀) (x := x) ?_ ?_; rotate_left; intro _; clear_value x; rotate_left; unfold x; clear x) | clear_value x | skip)
    | with_reducible apply Kept.ite
    | with_reducible apply KeptO.ite
    | with_reducible exact KeptO.val ‹_›
    | with_reducible apply KeptO.some
    | with_reducible exact KeptO.none
    | with_reducible apply KeptX.ite
    | with_reducible apply KeptX.next
    | with_reducible exact KeptX.refused
    | with_reducible apply strict_kept
    | with_reducible apply issue_kept
    | with_reducible apply onThread_kept
    | (with_reducible refine KeptO.of_eq ?_ ‹_›)
    | (with_reducible refine KeptX.of_eq ?_ ‹_›)
    | split

theorem execSclSel_kept {s₀ s : State} {i : Issue} (hK : Kept s₀ s) :
    KeptX s₀ (execSclSel i s) := by
  unfold execSclSel
  repeat' first
    | with_reducible assumption
    | intro _
    | (extract_lets +onlyGivenNames x; first | (refine Kept.cut (s₀ := s₀) (x := x) ?_ ?_; rotate_left; intro _; clear_value x; rotate_left; unfold x; clear x) | (refine KeptX.cut (s₀ := s₀) (x := x) ?_ ?_; rotate_left; intro _; clear_value x; rotate_left; unfold x; clear x) | (refine KeptO.cut (s₀ := s₀) (x := x) ?_ ?_; rotate_left; intro _; clear_value x; rotate_left; unfold x; clear x) | clear_value x | skip)
    | with_reducible apply Kept.ite
    | with_reducible apply KeptO.ite
    | with_reducible exact KeptO.val ‹_›
    | with_reducible apply KeptO.some
    | with_reducible exact KeptO.none
    | with_reducible apply KeptX.ite
    | with_reducible apply KeptX.next
    | with_reducible exact KeptX.refused
    | with_reducible apply strict_kept
    | with_reducible apply issue_kept
    | with_reducible apply onThread_kept
    | (with_reducible refine KeptO.of_eq ?_ ‹_›)
    | (with_reducible refine KeptX.of_eq ?_ ‹_›)
    | split

theorem cmpBody_kept {s₀ s : State} {k : Cmp} {y0 : Ctx} (hK : Kept s₀ s) :
    KeptO s₀ (cmpBody k y0 s) := by
  unfold cmpBody
  repeat' first
    | with_reducible assumption
    | intro _
    | (extract_lets +onlyGivenNames x; first | (refine Kept.cut (s₀ := s₀) (x := x) ?_ ?_; rotate_left; intro _; clear_value x; rotate_left; unfold x; clear x) | (refine KeptO.cut (s₀ := s₀) (x := x) ?_ ?_; rotate_left; intro _; clear_value x; rotate_left; unfold x; clear x) | clear_value x | skip)
    | with_reducible apply Kept.ite
    | with_reducible apply KeptO.ite
    | with_reducible exact KeptO.val ‹_›
    | with_reducible apply KeptO.some
    | with_reducible exact KeptO.none
    | with_reducible apply strict_kept
    | with_reducible apply onThread_kept
    | (with_reducible refine KeptO.of_eq ?_ ‹_›)
    | split

theorem execSclCmpEq_kept {s₀ s : State} {i : Issue} (hK : Kept s₀ s) :
    KeptX s₀ (execSclCmpEq i s) := by
  unfold execSclCmpEq
  repeat' first
    | with_reducible assumption
    | intro _
    | (extract_lets +onlyGivenNames x; first | (refine Kept.cut (s₀ := s₀) (x := x) ?_ ?_; rotate_left; intro _; clear_value x; rotate_left; unfold x; clear x) | (refine KeptX.cut (s₀ := s₀) (x := x) ?_ ?_; rotate_left; intro _; clear_value x; rotate_left; unfold x; clear x) | (refine KeptO.cut (s₀ := s₀) (x := x) ?_ ?_; rotate_left; intro _; clear_value x; rotate_left; unfold x; clear x) | clear_value x | skip)
    | with_reducible apply Kept.ite
    | with_reducible apply KeptO.ite
    | with_reducible exact KeptO.val ‹_›
    | with_reducible apply KeptO.some
    | with_reducible exact KeptO.none
    | with_reducible apply KeptX.ite
    | with_reducible apply KeptX.next
    | with_reducible exact KeptX.refused
    | with_reducible apply issue_kept
    | with_reducible apply cmpBody_kept
    | (with_reducible refine KeptO.of_eq ?_ ‹_›)
    | (with_reducible refine KeptX.of_eq ?_ ‹_›)
    | split

theorem execSclCmpNe_kept {s₀ s : State} {i : Issue} (hK : Kept s₀ s) :
    KeptX s₀ (execSclCmpNe i s) := by
  unfold execSclCmpNe
  repeat' first
    | with_reducible assumption
    | intro _
    | (extract_lets +onlyGivenNames x; first | (refine Kept.cut (s₀ := s₀) (x := x) ?_ ?_; rotate_left; intro _; clear_value x; rotate_left; unfold x; clear x) | (refine KeptX.cut (s₀ := s₀) (x := x) ?_ ?_; rotate_left; intro _; clear_value x; rotate_left; unfold x; clear x) | (refine KeptO.cut (s₀ := s₀) (x := x) ?_ ?_; rotate_left; intro _; clear_value x; rotate_left; unfold x; clear x) | clear_value x | skip)
    | with_reducible apply Kept.ite
    | with_reducible apply KeptO.ite
    | with_reducible exact KeptO.val ‹_›
    | with_reducible apply KeptO.some
    | with_reducible exact KeptO.none
    | with_reducible apply KeptX.ite
    | with_reducible apply KeptX.next
    | with_reducible exact KeptX.refused
    | with_reducible apply issue_kept
    | with_reducible apply cmpBody_kept
    | (with_reducible refine KeptO.of_eq ?_ ‹_›)
    | (with_reducible refine KeptX.of_eq ?_ ‹_›)
    | split

theorem execSclCmpLt_kept {s₀ s : State} {i : Issue} (hK : Kept s₀ s) :
    KeptX s₀ (execSclCmpLt i s) := by
  unfold execSclCmpLt
  repeat' first
    | with_reducible assumption
    | intro _
    | (extract_lets +onlyGivenNames x; first | (refine Kept.cut (s₀ := s₀) (x := x) ?_ ?_; rotate_left; intro _; clear_value x; rotate_left; unfold x; clear x) | (refine KeptX.cut (s₀ := s₀) (x := x) ?_ ?_; rotate_left; intro _; clear_value x; rotate_left; unfold x; clear x) | (refine KeptO.cut (s₀ := s₀) (x := x) ?_ ?_; rotate_left; intro _; clear_value x; rotate_left; unfold x; clear x) | clear_value x | skip)
    | with_reducible apply Kept.ite
    | with_reducible apply KeptO.ite
    | with_reducible exact KeptO.val ‹_›
    | with_reducible apply KeptO.some
    | with_reducible exact KeptO.none
    | with_reducible apply KeptX.ite
    | with_reducible apply KeptX.next
    | with_reducible exact KeptX.refused
    | with_reducible apply issue_kept
    | with_reducible apply cmpBody_kept
    | (with_reducible refine KeptO.of_eq ?_ ‹_›)
    | (with_reducible refine KeptX.of_eq ?_ ‹_›)
    | split

theorem execSclCmpGe_kept {s₀ s : State} {i : Issue} (hK : Kept s₀ s) :
    KeptX s₀ (execSclCmpGe i s) := by
  unfold execSclCmpGe
  repeat' first
    | with_reducible assumption
    | intro _
    | (extract_lets +onlyGivenNames x; first | (refine Kept.cut (s₀ := s₀) (x := x) ?_ ?_; rotate_left; intro _; clear_value x; rotate_left; unfold x; clear x) | (refine KeptX.cut (s₀ := s₀) (x := x) ?_ ?_; rotate_left; intro _; clear_value x; rotate_left; unfold x; clear x) | (refine KeptO.cut (s₀ := s₀) (x := x) ?_ ?_; rotate_left; intro _; clear_value x; rotate_left; unfold x; clear x) | clear_value x | skip)
    | with_reducible apply Kept.ite
    | with_reducible apply KeptO.ite
    | with_reducible exact KeptO.val ‹_›
    | with_reducible apply KeptO.some
    | with_reducible exact KeptO.none
    | with_reducible apply KeptX.ite
    | with_reducible apply KeptX.next
    | with_reducible exact KeptX.refused
    | with_reducible apply issue_kept
    | with_reducible apply cmpBody_kept
    | (with_reducible refine KeptO.of_eq ?_ ‹_›)
    | (with_reducible refine KeptX.of_eq ?_ ‹_›)
    | split

theorem execSclCmpLtu_kept {s₀ s : State} {i : Issue} (hK : Kept s₀ s) :
    KeptX s₀ (execSclCmpLtu i s) := by
  unfold execSclCmpLtu
  repeat' first
    | with_reducible assumption
    | intro _
    | (extract_lets +onlyGivenNames x; first | (refine Kept.cut (s₀ := s₀) (x := x) ?_ ?_; rotate_left; intro _; clear_value x; rotate_left; unfold x; clear x) | (refine KeptX.cut (s₀ := s₀) (x := x) ?_ ?_; rotate_left; intro _; clear_value x; rotate_left; unfold x; clear x) | (refine KeptO.cut (s₀ := s₀) (x := x) ?_ ?_; rotate_left; intro _; clear_value x; rotate_left; unfold x; clear x) | clear_value x | skip)
    | with_reducible apply Kept.ite
    | with_reducible apply KeptO.ite
    | with_reducible exact KeptO.val ‹_›
    | with_reducible apply KeptO.some
    | with_reducible exact KeptO.none
    | with_reducible apply KeptX.ite
    | with_reducible apply KeptX.next
    | with_reducible exact KeptX.refused
    | with_reducible apply issue_kept
    | with_reducible apply cmpBody_kept
    | (with_reducible refine KeptO.of_eq ?_ ‹_›)
    | (with_reducible refine KeptX.of_eq ?_ ‹_›)
    | split

theorem execSclCmpGeu_kept {s₀ s : State} {i : Issue} (hK : Kept s₀ s) :
    KeptX s₀ (execSclCmpGeu i s) := by
  unfold execSclCmpGeu
  repeat' first
    | with_reducible assumption
    | intro _
    | (extract_lets +onlyGivenNames x; first | (refine Kept.cut (s₀ := s₀) (x := x) ?_ ?_; rotate_left; intro _; clear_value x; rotate_left; unfold x; clear x) | (refine KeptX.cut (s₀ := s₀) (x := x) ?_ ?_; rotate_left; intro _; clear_value x; rotate_left; unfold x; clear x) | (refine KeptO.cut (s₀ := s₀) (x := x) ?_ ?_; rotate_left; intro _; clear_value x; rotate_left; unfold x; clear x) | clear_value x | skip)
    | with_reducible apply Kept.ite
    | with_reducible apply KeptO.ite
    | with_reducible exact KeptO.val ‹_›
    | with_reducible apply KeptO.some
    | with_reducible exact KeptO.none
    | with_reducible apply KeptX.ite
    | with_reducible apply KeptX.next
    | with_reducible exact KeptX.refused
    | with_reducible apply issue_kept
    | with_reducible apply cmpBody_kept
    | (with_reducible refine KeptO.of_eq ?_ ‹_›)
    | (with_reducible refine KeptX.of_eq ?_ ‹_›)
    | split

theorem loadBytes_kept {s₀ s : State} {c : Ctx} {space : Nat} {a : Nat} {n : Nat} {k : List Byte → Thread → Thread} (hK : Kept s₀ s) :
    KeptO s₀ (loadBytes c s space a n k) := by
  unfold loadBytes
  repeat' first
    | with_reducible assumption
    | intro _
    | (extract_lets +onlyGivenNames x; first | (refine Kept.cut (s₀ := s₀) (x := x) ?_ ?_; rotate_left; intro _; clear_value x; rotate_left; unfold x; clear x) | (refine KeptO.cut (s₀ := s₀) (x := x) ?_ ?_; rotate_left; intro _; clear_value x; rotate_left; unfold x; clear x) | clear_value x | skip)
    | with_reducible apply Kept.ite
    | with_reducible apply KeptO.ite
    | with_reducible exact KeptO.val ‹_›
    | with_reducible apply KeptO.some
    | with_reducible exact KeptO.none
    | with_reducible apply atsAsk_kept
    | with_reducible apply raise_kept
    | with_reducible apply tagThread_kept
    | with_reducible apply noteAccs_kept
    | with_reducible apply onThread_kept
    | with_reducible apply logStream_kept
    | (with_reducible refine KeptO.of_eq ?_ ‹_›)
    | split

theorem storeBytes_kept {s₀ s : State} {c : Ctx} {space : Nat} {a : Nat} {bs : List Byte} (hK : Kept s₀ s) :
    KeptO s₀ (storeBytes c s space a bs) := by
  unfold storeBytes
  repeat' first
    | with_reducible assumption
    | intro _
    | (extract_lets +onlyGivenNames x; first | (refine Kept.cut (s₀ := s₀) (x := x) ?_ ?_; rotate_left; intro _; clear_value x; rotate_left; unfold x; clear x) | (refine KeptO.cut (s₀ := s₀) (x := x) ?_ ?_; rotate_left; intro _; clear_value x; rotate_left; unfold x; clear x) | clear_value x | skip)
    | with_reducible apply Kept.ite
    | with_reducible apply KeptO.ite
    | with_reducible exact KeptO.val ‹_›
    | with_reducible apply KeptO.some
    | with_reducible exact KeptO.none
    | with_reducible apply retryStore_kept
    | with_reducible apply setTerrace_kept
    | with_reducible apply noteAccs_kept
    | (with_reducible refine KeptO.of_eq ?_ ‹_›)
    | split

theorem sclLdBody_kept {s₀ s : State} {c : Ctx} (hK : Kept s₀ s) :
    KeptO s₀ (sclLdBody c s) := by
  unfold sclLdBody
  repeat' first
    | with_reducible assumption
    | intro _
    | (extract_lets +onlyGivenNames x; first | (refine Kept.cut (s₀ := s₀) (x := x) ?_ ?_; rotate_left; intro _; clear_value x; rotate_left; unfold x; clear x) | (refine KeptO.cut (s₀ := s₀) (x := x) ?_ ?_; rotate_left; intro _; clear_value x; rotate_left; unfold x; clear x) | clear_value x | skip)
    | with_reducible apply Kept.ite
    | with_reducible apply KeptO.ite
    | with_reducible exact KeptO.val ‹_›
    | with_reducible apply KeptO.some
    | with_reducible exact KeptO.none
    | with_reducible apply loadBytes_kept
    | (with_reducible refine KeptO.of_eq ?_ ‹_›)
    | split

theorem execSclLd_kept {s₀ s : State} {i : Issue} (hK : Kept s₀ s) :
    KeptX s₀ (execSclLd i s) := by
  unfold execSclLd
  repeat' first
    | with_reducible assumption
    | intro _
    | (extract_lets +onlyGivenNames x; first | (refine Kept.cut (s₀ := s₀) (x := x) ?_ ?_; rotate_left; intro _; clear_value x; rotate_left; unfold x; clear x) | (refine KeptX.cut (s₀ := s₀) (x := x) ?_ ?_; rotate_left; intro _; clear_value x; rotate_left; unfold x; clear x) | (refine KeptO.cut (s₀ := s₀) (x := x) ?_ ?_; rotate_left; intro _; clear_value x; rotate_left; unfold x; clear x) | clear_value x | skip)
    | with_reducible apply Kept.ite
    | with_reducible apply KeptO.ite
    | with_reducible exact KeptO.val ‹_›
    | with_reducible apply KeptO.some
    | with_reducible exact KeptO.none
    | with_reducible apply KeptX.ite
    | with_reducible apply KeptX.next
    | with_reducible exact KeptX.refused
    | with_reducible apply issue_kept
    | with_reducible apply sclLdBody_kept
    | with_reducible apply checked_kept
    | (with_reducible refine KeptO.of_eq ?_ ‹_›)
    | (with_reducible refine KeptX.of_eq ?_ ‹_›)
    | split

theorem sclStBody_kept {s₀ s : State} {c : Ctx} (hK : Kept s₀ s) :
    KeptO s₀ (sclStBody c s) := by
  unfold sclStBody
  repeat' first
    | with_reducible assumption
    | intro _
    | (extract_lets +onlyGivenNames x; first | (refine Kept.cut (s₀ := s₀) (x := x) ?_ ?_; rotate_left; intro _; clear_value x; rotate_left; unfold x; clear x) | (refine KeptO.cut (s₀ := s₀) (x := x) ?_ ?_; rotate_left; intro _; clear_value x; rotate_left; unfold x; clear x) | clear_value x | skip)
    | with_reducible apply Kept.ite
    | with_reducible apply KeptO.ite
    | with_reducible exact KeptO.val ‹_›
    | with_reducible apply KeptO.some
    | with_reducible exact KeptO.none
    | with_reducible apply storeBytes_kept
    | (with_reducible refine KeptO.of_eq ?_ ‹_›)
    | split

theorem execSclSt_kept {s₀ s : State} {i : Issue} (hK : Kept s₀ s) :
    KeptX s₀ (execSclSt i s) := by
  unfold execSclSt
  repeat' first
    | with_reducible assumption
    | intro _
    | (extract_lets +onlyGivenNames x; first | (refine Kept.cut (s₀ := s₀) (x := x) ?_ ?_; rotate_left; intro _; clear_value x; rotate_left; unfold x; clear x) | (refine KeptX.cut (s₀ := s₀) (x := x) ?_ ?_; rotate_left; intro _; clear_value x; rotate_left; unfold x; clear x) | (refine KeptO.cut (s₀ := s₀) (x := x) ?_ ?_; rotate_left; intro _; clear_value x; rotate_left; unfold x; clear x) | clear_value x | skip)
    | with_reducible apply Kept.ite
    | with_reducible apply KeptO.ite
    | with_reducible exact KeptO.val ‹_›
    | with_reducible apply KeptO.some
    | with_reducible exact KeptO.none
    | with_reducible apply KeptX.ite
    | with_reducible apply KeptX.next
    | with_reducible exact KeptX.refused
    | with_reducible apply sclStBody_kept
    | with_reducible apply strict_kept
    | with_reducible apply issue_kept
    | with_reducible apply checked_kept
    | (with_reducible refine KeptO.of_eq ?_ ‹_›)
    | (with_reducible refine KeptX.of_eq ?_ ‹_›)
    | split

end Sys2Proof.Machine
end

