-- ==== Sys2Proof/Laws/KeptFlume.lean ====
section
/-! SUPPORT. What the operations and meanings of Machine/Flume.lean keep. -/

set_option linter.unreachableTactic false
set_option linter.unusedTactic false
set_option linter.unusedVariables false
set_option linter.tactic.unusedName false

namespace Sys2Proof.Machine

theorem updLane_kept {s₀ s : State} {fg : Nat} {f : FLane → FLane} (hK : Kept s₀ s) :
    Kept s₀ (updLane s fg f) := by
  unfold updLane
  repeat' first
    | with_reducible assumption
    | intro _
    | (extract_lets +onlyGivenNames x; first | (refine Kept.cut (s₀ := s₀) (x := x) ?_ ?_; rotate_left; intro _; clear_value x; rotate_left; unfold x; clear x) | clear_value x | skip)
    | with_reducible apply Kept.ite
    | (with_reducible refine set_lanes ?_; with_reducible assumption)
    | split

theorem toLane_kept {s₀ s : State} {attn : Bool} {c : Ctx} (hK : Kept s₀ s) :
    KeptO s₀ (toLane attn c s) := by
  unfold toLane
  repeat' first
    | with_reducible assumption
    | intro _
    | (extract_lets +onlyGivenNames x; first | (refine Kept.cut (s₀ := s₀) (x := x) ?_ ?_; rotate_left; intro _; clear_value x; rotate_left; unfold x; clear x) | (refine KeptO.cut (s₀ := s₀) (x := x) ?_ ?_; rotate_left; intro _; clear_value x; rotate_left; unfold x; clear x) | clear_value x | skip)
    | with_reducible apply Kept.ite
    | with_reducible apply KeptO.ite
    | with_reducible exact KeptO.val ‹_›
    | with_reducible apply KeptO.some
    | with_reducible exact KeptO.none
    | with_reducible apply updLane_kept
    | (with_reducible refine KeptO.of_eq ?_ ‹_›)
    | split

theorem execFlmAttn_kept {s₀ s : State} {i : Issue} (hK : Kept s₀ s) :
    KeptX s₀ (execFlmAttn i s) := by
  unfold execFlmAttn
  repeat' first
    | with_reducible assumption
    | intro _
    | (extract_lets +onlyGivenNames x; first | (refine Kept.cut (s₀ := s₀) (x := x) ?_ ?_; rotate_left; intro _; clear_value x; rotate_left; unfold x; clear x) | (refine KeptX.cut (s₀ := s₀) (x := x) ?_ ?_; rotate_left; intro _; clear_value x; rotate_left; unfold x; clear x) | (refine KeptO.cut (s₀ := s₀) (x := x) ?_ ?_; rotate_left; intro _; clear_value x; rotate_left; unfold x; clear x) | clear_value x | skip)
    | with_reducible apply Kept.ite
    | with_reducible apply KeptO.ite
    | with_reducible exact KeptO.val ‹_›
    | with_reducible apply KeptO.some
    | with_reducible exact KeptO.none
    | with_reducible apply KeptX.ite
    | with_reducible apply KeptX.next
    | with_reducible exact KeptX.refused
    | with_reducible apply strict_kept
    | with_reducible apply issue_kept
    | with_reducible apply toLane_kept
    | with_reducible apply checked_kept
    | (with_reducible refine KeptO.of_eq ?_ ‹_›)
    | (with_reducible refine KeptX.of_eq ?_ ‹_›)
    | split

theorem execFlmMerge_kept {s₀ s : State} {i : Issue} (hK : Kept s₀ s) :
    KeptX s₀ (execFlmMerge i s) := by
  unfold execFlmMerge
  repeat' first
    | with_reducible assumption
    | intro _
    | (extract_lets +onlyGivenNames x; first | (refine Kept.cut (s₀ := s₀) (x := x) ?_ ?_; rotate_left; intro _; clear_value x; rotate_left; unfold x; clear x) | (refine KeptX.cut (s₀ := s₀) (x := x) ?_ ?_; rotate_left; intro _; clear_value x; rotate_left; unfold x; clear x) | (refine KeptO.cut (s₀ := s₀) (x := x) ?_ ?_; rotate_left; intro _; clear_value x; rotate_left; unfold x; clear x) | clear_value x | skip)
    | with_reducible apply Kept.ite
    | with_reducible apply KeptO.ite
    | with_reducible exact KeptO.val ‹_›
    | with_reducible apply KeptO.some
    | with_reducible exact KeptO.none
    | with_reducible apply KeptX.ite
    | with_reducible apply KeptX.next
    | with_reducible exact KeptX.refused
    | with_reducible apply strict_kept
    | with_reducible apply issue_kept
    | with_reducible apply toLane_kept
    | with_reducible apply checked_kept
    | (with_reducible refine KeptO.of_eq ?_ ‹_›)
    | (with_reducible refine KeptX.of_eq ?_ ‹_›)
    | split

theorem attnWrite_kept {s₀ s : State} {tg : Nat} {al : Nat} {c : Cmd} {o : AttnOut} (hK : Kept s₀ s) :
    KeptU s₀ (attnWrite s tg al c o) := by
  unfold attnWrite
  repeat' first
    | with_reducible assumption
    | intro _
    | (extract_lets +onlyGivenNames x; first | (refine Kept.cut (s₀ := s₀) (x := x) ?_ ?_; rotate_left; intro _; clear_value x; rotate_left; unfold x; clear x) | (refine KeptU.cut (s₀ := s₀) (x := x) ?_ ?_; rotate_left; intro _; clear_value x; rotate_left; unfold x; clear x) | clear_value x | skip)
    | with_reducible apply Kept.ite
    | with_reducible apply KeptU.ite
    | (with_reducible refine KeptU.st ?_; with_reducible assumption)
    | with_reducible refine KeptU.st (Put.write_kept ?_)
    | with_reducible refine KeptU.st (putRow_kept ?_)
    | with_reducible apply Kept.foldl
    | with_reducible apply KeptU.foldl
    | with_reducible apply Put.write_kept
    | with_reducible apply putRow_kept
    | split
    | with_reducible apply KeptU.mk

theorem mergeAll_kept {s₀ s : State} {tg : Nat} {al : Nat} {c : Cmd} (hK : Kept s₀ s) :
    KeptU s₀ (mergeAll s tg al c) := by
  unfold mergeAll
  repeat' first
    | with_reducible assumption
    | intro _
    | (extract_lets +onlyGivenNames x; first | (refine Kept.cut (s₀ := s₀) (x := x) ?_ ?_; rotate_left; intro _; clear_value x; rotate_left; unfold x; clear x) | (refine KeptU.cut (s₀ := s₀) (x := x) ?_ ?_; rotate_left; intro _; clear_value x; rotate_left; unfold x; clear x) | (refine kept_cut_fun (s₀ := s₀) (x := x) ?_ ?_; rotate_left; intro _; clear_value x; rotate_left; unfold x; clear x) | (refine kept_cut_fun2 (s₀ := s₀) (x := x) ?_ ?_; rotate_left; intro _; clear_value x; rotate_left; unfold x; clear x) | (refine kept_cut_fun3 (s₀ := s₀) (x := x) ?_ ?_; rotate_left; intro _; clear_value x; rotate_left; unfold x; clear x) | (refine kept_cut_val (s₀ := s₀) (x := x) ?_ ?_; rotate_left; intro _; clear_value x; rotate_left; unfold x; clear x) | clear_value x | skip)
    | with_reducible apply Kept.ite
    | with_reducible apply KeptU.ite
    | (with_reducible refine KeptU.st ?_; with_reducible assumption)
    | with_reducible refine KeptU.st (putRow_kept ?_)
    | with_reducible apply Kept.foldl
    | with_reducible apply KeptU.foldl
    | with_reducible apply putRow_kept
    | with_reducible apply_assumption -exfalso -symm
    | split
    | with_reducible apply KeptU.mk

theorem endCtx_kept {s₀ s : State} {fg : Nat} {x : FCtx} (hK : Kept s₀ s) :
    Kept s₀ (endCtx s fg x) := by
  unfold endCtx
  repeat' first
    | with_reducible assumption
    | intro _
    | (extract_lets +onlyGivenNames x; first | (refine Kept.cut (s₀ := s₀) (x := x) ?_ ?_; rotate_left; intro _; clear_value x; rotate_left; unfold x; clear x) | clear_value x | skip)
    | with_reducible apply Kept.ite
    | with_reducible apply updLane_kept
    | with_reducible apply updTerrace_kept
    | with_reducible apply freeHandle_kept
    | with_reducible apply satAdd_kept
    | split

theorem noteReads_kept {s₀ s : State} {b : Option Cb} {seqs : List Nat} (hK : Kept s₀ s) :
    Kept s₀ (noteReads s b seqs) := by
  unfold noteReads
  repeat' first
    | with_reducible assumption
    | intro _
    | (extract_lets +onlyGivenNames x; first | (refine Kept.cut (s₀ := s₀) (x := x) ?_ ?_; rotate_left; intro _; clear_value x; rotate_left; unfold x; clear x) | clear_value x | skip)
    | with_reducible apply Kept.ite
    | with_reducible apply Kept.foldl
    | with_reducible apply Cb.setSeq_kept
    | split

theorem giveNotes_kept {s₀ s : State} {al : Nat} {u : CisUse} {agent : Option Nat} (hK : Kept s₀ s) :
    Kept s₀ (giveNotes s al u agent) := by
  unfold giveNotes
  repeat' first
    | with_reducible assumption
    | intro _
    | (extract_lets +onlyGivenNames x; first | (refine Kept.cut (s₀ := s₀) (x := x) ?_ ?_; rotate_left; intro _; clear_value x; rotate_left; unfold x; clear x) | clear_value x | skip)
    | with_reducible apply Kept.ite
    | with_reducible apply noteReads_kept
    | with_reducible apply updSaddle_kept
    | split

theorem attnDone_kept {s₀ s : State} {fg : Nat} {x : FCtx} {o : AttnOut} {u : CisUse} (hK : Kept s₀ s) :
    Kept s₀ (attnDone s fg x o u) := by
  unfold attnDone
  repeat' first
    | with_reducible assumption
    | intro _
    | (extract_lets +onlyGivenNames x; first | (refine Kept.cut (s₀ := s₀) (x := x) ?_ ?_; rotate_left; intro _; clear_value x; rotate_left; unfold x; clear x) | (refine KeptU.cut (s₀ := s₀) (x := x) ?_ ?_; rotate_left; intro _; clear_value x; rotate_left; unfold x; clear x) | clear_value x | skip)
    | with_reducible apply Kept.ite
    | with_reducible apply KeptU.ite
    | (with_reducible refine KeptU.st ?_; with_reducible assumption)
    | with_reducible refine KeptU.st (attnWrite_kept ?_)
    | with_reducible apply endCtx_kept
    | with_reducible apply performed_kept
    | with_reducible apply logUnit_kept
    | with_reducible apply Put.sent_kept
    | with_reducible apply flagT_kept
    | with_reducible apply giveNotes_kept
    | with_reducible apply ctrAdd_kept
    | with_reducible apply runErr_kept
    | with_reducible apply attnWrite_kept
    | with_reducible apply stageFault_kept
    | with_reducible apply tagThread_kept
    | with_reducible apply updLane_kept
    | with_reducible apply satAdd_kept
    | split
    | with_reducible apply KeptU.mk

theorem attnComplete_kept {s₀ s : State} {fg : Nat} {x : FCtx} {r : AttnOut × CisUse} (hK : Kept s₀ s) :
    Kept s₀ (attnComplete s fg x r) := by
  unfold attnComplete
  repeat' first
    | with_reducible assumption
    | intro _
    | (extract_lets +onlyGivenNames x; first | (refine Kept.cut (s₀ := s₀) (x := x) ?_ ?_; rotate_left; intro _; clear_value x; rotate_left; unfold x; clear x) | (refine KeptU.cut (s₀ := s₀) (x := x) ?_ ?_; rotate_left; intro _; clear_value x; rotate_left; unfold x; clear x) | clear_value x | skip)
    | with_reducible apply Kept.ite
    | with_reducible apply KeptU.ite
    | (with_reducible refine KeptU.st ?_; with_reducible assumption)
    | with_reducible refine KeptU.st (attnWrite_kept ?_)
    | with_reducible apply atsAsk_kept
    | with_reducible apply attnWrite_kept
    | with_reducible apply tagThread_kept
    | with_reducible apply attnDone_kept
    | split
    | with_reducible apply KeptU.mk

theorem mergeComplete_kept {s₀ s : State} {fg : Nat} {x : FCtx} (hK : Kept s₀ s) :
    Kept s₀ (mergeComplete s fg x) := by
  unfold mergeComplete
  repeat' first
    | with_reducible assumption
    | intro _
    | (extract_lets +onlyGivenNames x; first | (refine Kept.cut (s₀ := s₀) (x := x) ?_ ?_; rotate_left; intro _; clear_value x; rotate_left; unfold x; clear x) | (refine KeptU.cut (s₀ := s₀) (x := x) ?_ ?_; rotate_left; intro _; clear_value x; rotate_left; unfold x; clear x) | clear_value x | skip)
    | with_reducible apply Kept.ite
    | with_reducible apply KeptU.ite
    | (with_reducible refine KeptU.st ?_; with_reducible assumption)
    | with_reducible refine KeptU.st (mergeAll_kept ?_)
    | with_reducible apply endCtx_kept
    | with_reducible apply performed_kept
    | with_reducible apply atsAsk_kept
    | with_reducible apply Put.sent_kept
    | with_reducible apply flagT_kept
    | with_reducible apply mergeAll_kept
    | with_reducible apply tagThread_kept
    | split
    | with_reducible apply KeptU.mk

theorem execFlmComplete_kept {s₀ s : State} {lane : Fin 32} (hK : Kept s₀ s) :
    KeptX s₀ (execFlmComplete lane s) := by
  unfold execFlmComplete
  repeat' first
    | with_reducible assumption
    | intro _
    | (extract_lets +onlyGivenNames x; first | (refine Kept.cut (s₀ := s₀) (x := x) ?_ ?_; rotate_left; intro _; clear_value x; rotate_left; unfold x; clear x) | (refine KeptX.cut (s₀ := s₀) (x := x) ?_ ?_; rotate_left; intro _; clear_value x; rotate_left; unfold x; clear x) | clear_value x | skip)
    | with_reducible apply Kept.ite
    | with_reducible apply KeptX.ite
    | with_reducible apply KeptX.next
    | with_reducible exact KeptX.refused
    | with_reducible apply mergeComplete_kept
    | with_reducible apply attnComplete_kept
    | (with_reducible refine KeptX.of_eq ?_ ‹_›)
    | split

theorem execFlmContextSwitch_kept {s₀ s : State} {lane : Fin 32} (hK : Kept s₀ s) :
    KeptX s₀ (execFlmContextSwitch lane s) := by
  unfold execFlmContextSwitch
  repeat' first
    | with_reducible assumption
    | intro _
    | (extract_lets +onlyGivenNames x; first | (refine Kept.cut (s₀ := s₀) (x := x) ?_ ?_; rotate_left; intro _; clear_value x; rotate_left; unfold x; clear x) | (refine KeptX.cut (s₀ := s₀) (x := x) ?_ ?_; rotate_left; intro _; clear_value x; rotate_left; unfold x; clear x) | clear_value x | skip)
    | with_reducible apply Kept.ite
    | with_reducible apply KeptX.ite
    | with_reducible apply KeptX.next
    | with_reducible exact KeptX.refused
    | with_reducible apply updLane_kept
    | (with_reducible refine KeptX.of_eq ?_ ‹_›)
    | split

end Sys2Proof.Machine
end

