-- ==== Sys2Proof/Laws/KeptLanes.lean ====
section
/-! SUPPORT. What the operations and meanings of Machine/Lanes.lean keep. -/

set_option linter.unreachableTactic false
set_option linter.unusedTactic false
set_option linter.unusedVariables false
set_option linter.tactic.unusedName false

namespace Sys2Proof.Machine

theorem followLane_kept {s₀ s : State} {fg : Nat} (hK : Kept s₀ s) :
    Kept s₀ (followLane s fg) := by
  unfold followLane
  repeat' first
    | with_reducible assumption
    | intro _
    | (extract_lets +onlyGivenNames x; first | (refine Kept.cut (s₀ := s₀) (x := x) ?_ ?_; rotate_left; intro _; clear_value x; rotate_left; unfold x; clear x) | clear_value x | skip)
    | with_reducible apply Kept.ite
    | with_reducible apply updLane_kept
    | split

theorem holdRail_kept {s₀ s : State} {r : Nat} (hK : Kept s₀ s) :
    Kept s₀ (holdRail s r) := by
  unfold holdRail
  repeat' first
    | with_reducible assumption
    | intro _
    | (extract_lets +onlyGivenNames x; first | (refine Kept.cut (s₀ := s₀) (x := x) ?_ ?_; rotate_left; intro _; clear_value x; rotate_left; unfold x; clear x) | clear_value x | skip)
    | with_reducible apply Kept.ite
    | (with_reducible refine set_rails ?_; with_reducible assumption)
    | split

theorem followRidge_kept {s₀ s : State} {r : Nat} (hK : Kept s₀ s) :
    Kept s₀ (followRidge s r) := by
  unfold followRidge
  repeat' first
    | with_reducible assumption
    | intro _
    | (extract_lets +onlyGivenNames x; first | (refine Kept.cut (s₀ := s₀) (x := x) ?_ ?_; rotate_left; intro _; clear_value x; rotate_left; unfold x; clear x) | clear_value x | skip)
    | with_reducible apply Kept.ite
    | with_reducible apply followLane_kept
    | with_reducible apply holdRail_kept
    | split

theorem followRidges_kept {s₀ s : State}  (hK : Kept s₀ s) :
    Kept s₀ (followRidges s) := by
  unfold followRidges
  repeat' first
    | with_reducible assumption
    | intro _
    | (extract_lets +onlyGivenNames x; first | (refine Kept.cut (s₀ := s₀) (x := x) ?_ ?_; rotate_left; intro _; clear_value x; rotate_left; unfold x; clear x) | clear_value x | skip)
    | with_reducible apply Kept.ite
    | with_reducible apply Kept.foldl
    | with_reducible apply followRidge_kept
    | split

end Sys2Proof.Machine
end

