-- ==== Sys2Proof/Laws/KeptWeir.lean ====
section
/-! SUPPORT. What the operations and meanings of Machine/Weir.lean keep. -/

set_option linter.unreachableTactic false
set_option linter.unusedTactic false
set_option linter.unusedVariables false
set_option linter.tactic.unusedName false

namespace Sys2Proof.Machine

theorem execXltRootWrite_kept {s₀ s : State} {r : Requester} {allot : Fin 1024} {hi : Bool} {v : W32} (hK : Kept s₀ s) :
    KeptX s₀ (execXltRootWrite r allot hi v s) := by
  unfold execXltRootWrite
  repeat' first
    | with_reducible assumption
    | intro _
    | (extract_lets +onlyGivenNames x; first | (refine Kept.cut (s₀ := s₀) (x := x) ?_ ?_; rotate_left; intro _; clear_value x; rotate_left; unfold x; clear x) | (refine KeptX.cut (s₀ := s₀) (x := x) ?_ ?_; rotate_left; intro _; clear_value x; rotate_left; unfold x; clear x) | clear_value x | skip)
    | with_reducible apply Kept.ite
    | with_reducible apply KeptX.ite
    | with_reducible apply KeptX.next
    | with_reducible exact KeptX.refused
    | with_reducible apply pfWrite_kept
    | with_reducible apply logDropped_kept
    | with_reducible apply setRg_kept
    | (with_reducible refine KeptX.of_eq ?_ ‹_›)
    | split

theorem dropCached_kept {s₀ s : State} {i : Inval} (hK : Kept s₀ s) :
    Kept s₀ (dropCached s i) := by
  unfold dropCached
  repeat' first
    | with_reducible assumption
    | intro _
    | (extract_lets +onlyGivenNames x; first | (refine Kept.cut (s₀ := s₀) (x := x) ?_ ?_; rotate_left; intro _; clear_value x; rotate_left; unfold x; clear x) | (refine kept_cut_fun (s₀ := s₀) (x := x) ?_ ?_; rotate_left; intro _; clear_value x; rotate_left; unfold x; clear x) | (refine kept_cut_fun2 (s₀ := s₀) (x := x) ?_ ?_; rotate_left; intro _; clear_value x; rotate_left; unfold x; clear x) | (refine kept_cut_fun3 (s₀ := s₀) (x := x) ?_ ?_; rotate_left; intro _; clear_value x; rotate_left; unfold x; clear x) | (refine kept_cut_val (s₀ := s₀) (x := x) ?_ ?_; rotate_left; intro _; clear_value x; rotate_left; unfold x; clear x) | clear_value x | skip)
    | with_reducible apply Kept.ite
    | (with_reducible refine set_terraces_saddles_ats ?_; with_reducible assumption)
    | with_reducible apply_assumption -exfalso -symm
    | split

theorem markOld_kept {s₀ s : State} {i : Inval} (hK : Kept s₀ s) :
    Kept s₀ (markOld s i) := by
  unfold markOld
  repeat' first
    | with_reducible assumption
    | intro _
    | (extract_lets +onlyGivenNames x; first | (refine Kept.cut (s₀ := s₀) (x := x) ?_ ?_; rotate_left; intro _; clear_value x; rotate_left; unfold x; clear x) | clear_value x | skip)
    | with_reducible apply Kept.ite
    | (with_reducible refine set_hostReqs_skvReqs_saddles ?_; with_reducible assumption)
    | split

theorem beginInval_kept {s₀ s : State} {i : Inval} (hK : Kept s₀ s) :
    Kept s₀ (beginInval s i) := by
  unfold beginInval
  repeat' first
    | with_reducible assumption
    | intro _
    | (extract_lets +onlyGivenNames x; first | (refine Kept.cut (s₀ := s₀) (x := x) ?_ ?_; rotate_left; intro _; clear_value x; rotate_left; unfold x; clear x) | clear_value x | skip)
    | with_reducible apply Kept.ite
    | with_reducible apply dropCached_kept
    | with_reducible apply markOld_kept
    | (with_reducible refine set_inv ?_; with_reducible assumption)
    | split

theorem queueInval_kept {s₀ s : State} {i : Inval} (hK : Kept s₀ s) :
    Kept s₀ (queueInval s i) := by
  unfold queueInval
  repeat' first
    | with_reducible assumption
    | intro _
    | (extract_lets +onlyGivenNames x; first | (refine Kept.cut (s₀ := s₀) (x := x) ?_ ?_; rotate_left; intro _; clear_value x; rotate_left; unfold x; clear x) | clear_value x | skip)
    | with_reducible apply Kept.ite
    | with_reducible apply dropCached_kept
    | (with_reducible refine set_invQ ?_; with_reducible assumption)
    | split

theorem execXltCtxWrite_kept {s₀ s : State} {r : Requester} {allot : Fin 1024} {v : W32} (hK : Kept s₀ s) :
    KeptX s₀ (execXltCtxWrite r allot v s) := by
  unfold execXltCtxWrite
  repeat' first
    | with_reducible assumption
    | intro _
    | (extract_lets +onlyGivenNames x; first | (refine Kept.cut (s₀ := s₀) (x := x) ?_ ?_; rotate_left; intro _; clear_value x; rotate_left; unfold x; clear x) | (refine KeptX.cut (s₀ := s₀) (x := x) ?_ ?_; rotate_left; intro _; clear_value x; rotate_left; unfold x; clear x) | clear_value x | skip)
    | with_reducible apply Kept.ite
    | with_reducible apply KeptX.ite
    | with_reducible apply KeptX.next
    | with_reducible exact KeptX.refused
    | with_reducible apply pfWrite_kept
    | with_reducible apply beginInval_kept
    | with_reducible apply setRg_kept
    | with_reducible apply queueInval_kept
    | (with_reducible refine KeptX.of_eq ?_ ‹_›)
    | split

theorem execXltInvalidate_kept {s₀ s : State} {r : Requester} {v : W32} (hK : Kept s₀ s) :
    KeptX s₀ (execXltInvalidate r v s) := by
  unfold execXltInvalidate
  repeat' first
    | with_reducible assumption
    | intro _
    | (extract_lets +onlyGivenNames x; first | (refine Kept.cut (s₀ := s₀) (x := x) ?_ ?_; rotate_left; intro _; clear_value x; rotate_left; unfold x; clear x) | (refine KeptX.cut (s₀ := s₀) (x := x) ?_ ?_; rotate_left; intro _; clear_value x; rotate_left; unfold x; clear x) | clear_value x | skip)
    | with_reducible apply Kept.ite
    | with_reducible apply KeptX.ite
    | with_reducible apply KeptX.next
    | with_reducible exact KeptX.refused
    | with_reducible apply pfWrite_kept
    | with_reducible apply logDropped_kept
    | with_reducible apply beginInval_kept
    | with_reducible apply setRg_kept
    | (with_reducible refine KeptX.of_eq ?_ ‹_›)
    | split

theorem execXltInvDone_kept {s₀ s : State}  (hK : Kept s₀ s) :
    KeptX s₀ (execXltInvDone s) := by
  unfold execXltInvDone
  repeat' first
    | with_reducible assumption
    | intro _
    | (extract_lets +onlyGivenNames x; first | (refine Kept.cut (s₀ := s₀) (x := x) ?_ ?_; rotate_left; intro _; clear_value x; rotate_left; unfold x; clear x) | (refine KeptX.cut (s₀ := s₀) (x := x) ?_ ?_; rotate_left; intro _; clear_value x; rotate_left; unfold x; clear x) | clear_value x | skip)
    | with_reducible apply Kept.ite
    | with_reducible apply KeptX.ite
    | with_reducible apply KeptX.next
    | with_reducible exact KeptX.refused
    | with_reducible apply beginInval_kept
    | with_reducible apply setRg_kept
    | (with_reducible refine set_inv ?_; with_reducible assumption)
    | (with_reducible refine set_invQ ?_; with_reducible assumption)
    | (with_reducible refine KeptX.of_eq ?_ ‹_›)
    | split

theorem answerRead_kept {s₀ s : State} {v : W32} (hK : Kept s₀ s) :
    Kept s₀ (answerRead s v) := by
  unfold answerRead
  repeat' first
    | with_reducible assumption
    | intro _
    | (extract_lets +onlyGivenNames x; first | (refine Kept.cut (s₀ := s₀) (x := x) ?_ ?_; rotate_left; intro _; clear_value x; rotate_left; unfold x; clear x) | clear_value x | skip)
    | with_reducible apply Kept.ite
    | with_reducible apply emit_kept
    | split

theorem execXltFlogPop_kept {s₀ s : State} {r : Requester} (hK : Kept s₀ s) : KeptX s₀ (execXltFlogPop r s) := by
  unfold execXltFlogPop
  split
  · exact hK
  · refine KeptX.ite (Kept.ite (answerRead_kept hK) hK) ?_
    split
    · exact answerRead_kept hK
    · rename_i e
      exact answerRead_kept (set_flog hK (fun hl => by rw [e] at hl; simp only [List.length_cons] at hl; omega))

theorem finishAts_kept {s₀ s : State}  (hK : Kept s₀ s) :
    Kept s₀ (finishAts s) := by
  unfold finishAts
  repeat' first
    | with_reducible assumption
    | intro _
    | (extract_lets +onlyGivenNames x; first | (refine Kept.cut (s₀ := s₀) (x := x) ?_ ?_; rotate_left; intro _; clear_value x; rotate_left; unfold x; clear x) | (refine kept_cut_fun (s₀ := s₀) (x := x) ?_ ?_; rotate_left; intro _; clear_value x; rotate_left; unfold x; clear x) | (refine kept_cut_fun2 (s₀ := s₀) (x := x) ?_ ?_; rotate_left; intro _; clear_value x; rotate_left; unfold x; clear x) | (refine kept_cut_fun3 (s₀ := s₀) (x := x) ?_ ?_; rotate_left; intro _; clear_value x; rotate_left; unfold x; clear x) | (refine kept_cut_val (s₀ := s₀) (x := x) ?_ ?_; rotate_left; intro _; clear_value x; rotate_left; unfold x; clear x) | clear_value x | skip)
    | with_reducible apply Kept.ite
    | with_reducible apply Kept.foldl
    | with_reducible apply emit_kept
    | (with_reducible refine set_atsPend ?_; with_reducible assumption)
    | with_reducible apply_assumption -exfalso -symm
    | split

theorem execAtsInvalidate_kept {s₀ s : State} {hd : Fin 2} {addr : Nat} {len : Nat} (hK : Kept s₀ s) :
    KeptX s₀ (execAtsInvalidate hd addr len s) := by
  unfold execAtsInvalidate
  repeat' first
    | with_reducible assumption
    | intro _
    | (extract_lets +onlyGivenNames x; first | (refine Kept.cut (s₀ := s₀) (x := x) ?_ ?_; rotate_left; intro _; clear_value x; rotate_left; unfold x; clear x) | (refine KeptX.cut (s₀ := s₀) (x := x) ?_ ?_; rotate_left; intro _; clear_value x; rotate_left; unfold x; clear x) | (refine kept_cut_fun (s₀ := s₀) (x := x) ?_ ?_; rotate_left; intro _; clear_value x; rotate_left; unfold x; clear x) | (refine kept_cut_fun2 (s₀ := s₀) (x := x) ?_ ?_; rotate_left; intro _; clear_value x; rotate_left; unfold x; clear x) | (refine kept_cut_fun3 (s₀ := s₀) (x := x) ?_ ?_; rotate_left; intro _; clear_value x; rotate_left; unfold x; clear x) | (refine kept_cut_val (s₀ := s₀) (x := x) ?_ ?_; rotate_left; intro _; clear_value x; rotate_left; unfold x; clear x) | clear_value x | skip)
    | with_reducible apply Kept.ite
    | with_reducible apply KeptX.ite
    | with_reducible apply KeptX.next
    | with_reducible exact KeptX.refused
    | with_reducible apply finishAts_kept
    | (with_reducible refine set_ats_atsPend ?_; with_reducible assumption)
    | (with_reducible refine KeptX.of_eq ?_ ‹_›)
    | with_reducible apply_assumption -exfalso -symm
    | split

theorem hostData_kept {s₀ s : State} {hd addr : Nat} {bytes : List Byte} {bad : Bool} (hK : Kept s₀ s) :
    Kept s₀ (hostData s hd addr bytes bad) := by
  unfold hostData
  refine Kept.foldl hK (fun t p ht => ?_)
  extract_lets a q
  exact Kept.ite (set_hostReqs_got (set_host ht (fun hm => Mem.writeSector_wf _ _ _ hm))) ht

theorem execHostWindowCompletion_kept {s₀ s : State} {hd : Fin 2} {c : HostCpl} (hK : Kept s₀ s) :
    KeptX s₀ (execHostWindowCompletion hd c s) := by
  unfold execHostWindowCompletion
  repeat' first
    | with_reducible assumption
    | intro _
    | (extract_lets +onlyGivenNames x; first | (refine Kept.cut (s₀ := s₀) (x := x) ?_ ?_; rotate_left; intro _; clear_value x; rotate_left; unfold x; clear x) | (refine KeptX.cut (s₀ := s₀) (x := x) ?_ ?_; rotate_left; intro _; clear_value x; rotate_left; unfold x; clear x) | clear_value x | skip)
    | with_reducible apply Kept.ite
    | with_reducible apply KeptX.ite
    | with_reducible apply KeptX.next
    | with_reducible exact KeptX.refused
    | with_reducible apply finishAts_kept
    | with_reducible apply retryStarts_kept
    | with_reducible apply hostData_kept
    | with_reducible apply retryStores_kept
    | (with_reducible refine set_atsWant_ats ?_; with_reducible assumption)
    | (with_reducible refine KeptX.of_eq ?_ ‹_›)
    | split

theorem redivideOne_kept {s₀ s : State} {al : Nat} (hK : Kept s₀ s) :
    Kept s₀ (redivideOne s al) := by
  unfold redivideOne
  repeat' first
    | with_reducible assumption
    | intro _
    | (extract_lets +onlyGivenNames x; first | (refine Kept.cut (s₀ := s₀) (x := x) ?_ ?_; rotate_left; intro _; clear_value x; rotate_left; unfold x; clear x) | clear_value x | skip)
    | with_reducible apply Kept.ite
    | with_reducible apply Kept.foldl
    | (with_reducible refine set_shares ?_; with_reducible assumption)
    | split

theorem refillShares_kept {s₀ s : State} {al : Nat} (hK : Kept s₀ s) :
    Kept s₀ (refillShares s al) := by
  unfold refillShares
  repeat' first
    | with_reducible assumption
    | intro _
    | (extract_lets +onlyGivenNames x; first | (refine Kept.cut (s₀ := s₀) (x := x) ?_ ?_; rotate_left; intro _; clear_value x; rotate_left; unfold x; clear x) | clear_value x | skip)
    | with_reducible apply Kept.ite
    | with_reducible apply Kept.foldl
    | (with_reducible refine set_shares ?_; with_reducible assumption)
    | split

theorem admitWaiting_kept {s₀ s : State}  (hK : Kept s₀ s) :
    Kept s₀ (admitWaiting s) := by
  unfold admitWaiting
  repeat' first
    | with_reducible assumption
    | intro _
    | (extract_lets +onlyGivenNames x; first | (refine Kept.cut (s₀ := s₀) (x := x) ?_ ?_; rotate_left; intro _; clear_value x; rotate_left; unfold x; clear x) | clear_value x | skip)
    | with_reducible apply Kept.ite
    | with_reducible apply Kept.foldl
    | with_reducible apply passOwed_kept
    | split

theorem countWaits_kept {s₀ s : State}  (hK : Kept s₀ s) :
    Kept s₀ (countWaits s) := by
  unfold countWaits
  repeat' first
    | with_reducible assumption
    | intro _
    | (extract_lets +onlyGivenNames x; first | (refine Kept.cut (s₀ := s₀) (x := x) ?_ ?_; rotate_left; intro _; clear_value x; rotate_left; unfold x; clear x) | clear_value x | skip)
    | with_reducible apply Kept.ite
    | with_reducible apply Kept.foldl
    | with_reducible apply satAdd_kept
    | split

theorem noteFigures_kept {s₀ before : State} {s : State} {cause : Nat} (hK : Kept s₀ before) (h_s : Kept s₀ s) :
    Kept s₀ (noteFigures before s cause) := by
  unfold noteFigures
  repeat' first
    | with_reducible assumption
    | intro _
    | (extract_lets +onlyGivenNames x; first | (refine Kept.cut (s₀ := s₀) (x := x) ?_ ?_; rotate_left; intro _; clear_value x; rotate_left; unfold x; clear x) | clear_value x | skip)
    | with_reducible apply Kept.ite
    | (with_reducible refine set_rsvDue ?_; with_reducible assumption)
    | with_reducible apply h_s
    | split

theorem revoke_kept {s₀ s : State} {r : Rsv} {cause : Nat} (hK : Kept s₀ s) :
    Kept s₀ (revoke s r cause) := by
  unfold revoke
  repeat' first
    | with_reducible assumption
    | intro _
    | (extract_lets +onlyGivenNames x; first | (refine Kept.cut (s₀ := s₀) (x := x) ?_ ?_; rotate_left; intro _; clear_value x; rotate_left; unfold x; clear x) | clear_value x | skip)
    | with_reducible apply Kept.ite
    | with_reducible apply rasAppend_kept
    | with_reducible apply gaugePost_kept
    | with_reducible apply satAdd_kept
    | (with_reducible refine set_rsvs_rsvRevoked ?_; with_reducible assumption)
    | split

theorem fitOne_kept {s₀ s : State} {cause : Nat} {b : Nat} {fuel : Nat} (hK : Kept s₀ s) :
    Kept s₀ (fitOne s cause b fuel) := by
  induction fuel generalizing cause b s
  all_goals
    unfold fitOne
    repeat' first
      | with_reducible assumption
      | intro _
      | (extract_lets +onlyGivenNames x; first | (refine Kept.cut (s₀ := s₀) (x := x) ?_ ?_; rotate_left; intro _; clear_value x; rotate_left; unfold x; clear x) | clear_value x | skip)
      | with_reducible apply Kept.ite
      | with_reducible apply revoke_kept
      | with_reducible apply_assumption -exfalso -symm
      | split

theorem recompute_kept {s₀ s : State} {cause : Nat} (hK : Kept s₀ s) :
    Kept s₀ (recompute s cause) := by
  unfold recompute
  repeat' first
    | with_reducible assumption
    | intro _
    | (extract_lets +onlyGivenNames x; first | (refine Kept.cut (s₀ := s₀) (x := x) ?_ ?_; rotate_left; intro _; clear_value x; rotate_left; unfold x; clear x) | clear_value x | skip)
    | with_reducible apply Kept.ite
    | with_reducible apply Kept.foldl
    | with_reducible apply fitOne_kept
    | (with_reducible refine set_rsvDue ?_; with_reducible assumption)
    | split

theorem execRsvRecompute_kept {s₀ s : State}  (hK : Kept s₀ s) :
    KeptX s₀ (execRsvRecompute s) := by
  unfold execRsvRecompute
  repeat' first
    | with_reducible assumption
    | intro _
    | (extract_lets +onlyGivenNames x; first | (refine Kept.cut (s₀ := s₀) (x := x) ?_ ?_; rotate_left; intro _; clear_value x; rotate_left; unfold x; clear x) | (refine KeptX.cut (s₀ := s₀) (x := x) ?_ ?_; rotate_left; intro _; clear_value x; rotate_left; unfold x; clear x) | clear_value x | skip)
    | with_reducible apply Kept.ite
    | with_reducible apply KeptX.ite
    | with_reducible apply KeptX.next
    | with_reducible exact KeptX.refused
    | with_reducible apply recompute_kept
    | (with_reducible refine KeptX.of_eq ?_ ‹_›)
    | split

theorem rsvResult_kept {s₀ s : State} {v : W32} {result : Nat} {short : Nat} (hK : Kept s₀ s) :
    Kept s₀ (rsvResult s v result short) := by
  unfold rsvResult
  repeat' first
    | with_reducible assumption
    | intro _
    | (extract_lets +onlyGivenNames x; first | (refine Kept.cut (s₀ := s₀) (x := x) ?_ ?_; rotate_left; intro _; clear_value x; rotate_left; unfold x; clear x) | clear_value x | skip)
    | with_reducible apply Kept.ite
    | with_reducible apply setRg_kept
    | split

theorem rsvCreate_kept {s₀ s : State} {v : W32} (hK : Kept s₀ s) :
    Kept s₀ (rsvCreate s v) := by
  unfold rsvCreate
  repeat' first
    | with_reducible assumption
    | intro _
    | (extract_lets +onlyGivenNames x; first | (refine Kept.cut (s₀ := s₀) (x := x) ?_ ?_; rotate_left; intro _; clear_value x; rotate_left; unfold x; clear x) | clear_value x | skip)
    | with_reducible apply Kept.ite
    | with_reducible apply Kept.foldl
    | with_reducible apply rsvResult_kept
    | (with_reducible refine set_rsvs_rsvRevoked ?_; with_reducible assumption)
    | split

theorem rsvRelease_kept {s₀ s : State} {v : W32} (hK : Kept s₀ s) :
    Kept s₀ (rsvRelease s v) := by
  unfold rsvRelease
  repeat' first
    | with_reducible assumption
    | intro _
    | (extract_lets +onlyGivenNames x; first | (refine Kept.cut (s₀ := s₀) (x := x) ?_ ?_; rotate_left; intro _; clear_value x; rotate_left; unfold x; clear x) | clear_value x | skip)
    | with_reducible apply Kept.ite
    | with_reducible apply rsvResult_kept
    | (with_reducible refine set_rsvs_rsvRevoked ?_; with_reducible assumption)
    | split

theorem rsvQuery_kept {s₀ s : State} {v : W32} (hK : Kept s₀ s) :
    Kept s₀ (rsvQuery s v) := by
  unfold rsvQuery
  repeat' first
    | with_reducible assumption
    | intro _
    | (extract_lets +onlyGivenNames x; first | (refine Kept.cut (s₀ := s₀) (x := x) ?_ ?_; rotate_left; intro _; clear_value x; rotate_left; unfold x; clear x) | clear_value x | skip)
    | with_reducible apply Kept.ite
    | with_reducible apply rsvResult_kept
    | with_reducible apply setRg_kept
    | split

theorem rsvRequest_kept {s₀ s : State} {r : Requester} {v : W32} (hK : Kept s₀ s) :
    Kept s₀ (rsvRequest r v s) := by
  unfold rsvRequest
  repeat' first
    | with_reducible assumption
    | intro _
    | (extract_lets +onlyGivenNames x; first | (refine Kept.cut (s₀ := s₀) (x := x) ?_ ?_; rotate_left; intro _; clear_value x; rotate_left; unfold x; clear x) | clear_value x | skip)
    | with_reducible apply Kept.ite
    | with_reducible apply recompute_kept
    | with_reducible apply pfWrite_kept
    | with_reducible apply rsvQuery_kept
    | with_reducible apply logDropped_kept
    | with_reducible apply rsvRelease_kept
    | with_reducible apply setRg_kept
    | with_reducible apply rsvCreate_kept
    | split

theorem execRsvCreate_kept {s₀ s : State} {r : Requester} {v : W32} (hK : Kept s₀ s) :
    KeptX s₀ (execRsvCreate r v s) := by
  unfold execRsvCreate
  repeat' first
    | with_reducible assumption
    | intro _
    | (extract_lets +onlyGivenNames x; first | (refine Kept.cut (s₀ := s₀) (x := x) ?_ ?_; rotate_left; intro _; clear_value x; rotate_left; unfold x; clear x) | (refine KeptX.cut (s₀ := s₀) (x := x) ?_ ?_; rotate_left; intro _; clear_value x; rotate_left; unfold x; clear x) | clear_value x | skip)
    | with_reducible apply Kept.ite
    | with_reducible apply KeptX.ite
    | with_reducible apply KeptX.next
    | with_reducible exact KeptX.refused
    | with_reducible apply rsvRequest_kept
    | (with_reducible refine KeptX.of_eq ?_ ‹_›)
    | split

theorem execRsvRelease_kept {s₀ s : State} {r : Requester} {v : W32} (hK : Kept s₀ s) :
    KeptX s₀ (execRsvRelease r v s) := by
  unfold execRsvRelease
  repeat' first
    | with_reducible assumption
    | intro _
    | (extract_lets +onlyGivenNames x; first | (refine Kept.cut (s₀ := s₀) (x := x) ?_ ?_; rotate_left; intro _; clear_value x; rotate_left; unfold x; clear x) | (refine KeptX.cut (s₀ := s₀) (x := x) ?_ ?_; rotate_left; intro _; clear_value x; rotate_left; unfold x; clear x) | clear_value x | skip)
    | with_reducible apply Kept.ite
    | with_reducible apply KeptX.ite
    | with_reducible apply KeptX.next
    | with_reducible exact KeptX.refused
    | with_reducible apply rsvRequest_kept
    | (with_reducible refine KeptX.of_eq ?_ ‹_›)
    | split

theorem execRsvQuery_kept {s₀ s : State} {r : Requester} {v : W32} (hK : Kept s₀ s) :
    KeptX s₀ (execRsvQuery r v s) := by
  unfold execRsvQuery
  repeat' first
    | with_reducible assumption
    | intro _
    | (extract_lets +onlyGivenNames x; first | (refine Kept.cut (s₀ := s₀) (x := x) ?_ ?_; rotate_left; intro _; clear_value x; rotate_left; unfold x; clear x) | (refine KeptX.cut (s₀ := s₀) (x := x) ?_ ?_; rotate_left; intro _; clear_value x; rotate_left; unfold x; clear x) | clear_value x | skip)
    | with_reducible apply Kept.ite
    | with_reducible apply KeptX.ite
    | with_reducible apply KeptX.next
    | with_reducible exact KeptX.refused
    | with_reducible apply rsvRequest_kept
    | (with_reducible refine KeptX.of_eq ?_ ‹_›)
    | split

theorem execRsvPctWrite_kept {s₀ s : State} {r : Requester} {v : W32} (hK : Kept s₀ s) :
    KeptX s₀ (execRsvPctWrite r v s) := by
  unfold execRsvPctWrite
  repeat' first
    | with_reducible assumption
    | intro _
    | (extract_lets +onlyGivenNames x; first | (refine Kept.cut (s₀ := s₀) (x := x) ?_ ?_; rotate_left; intro _; clear_value x; rotate_left; unfold x; clear x) | (refine KeptX.cut (s₀ := s₀) (x := x) ?_ ?_; rotate_left; intro _; clear_value x; rotate_left; unfold x; clear x) | clear_value x | skip)
    | with_reducible apply Kept.ite
    | with_reducible apply KeptX.ite
    | with_reducible apply KeptX.next
    | with_reducible exact KeptX.refused
    | with_reducible apply pfWrite_kept
    | with_reducible apply logDropped_kept
    | with_reducible apply setRg_kept
    | (with_reducible refine set_rsvDue ?_; with_reducible assumption)
    | (with_reducible refine KeptX.of_eq ?_ ‹_›)
    | split

end Sys2Proof.Machine
end

