-- ==== Sys2Proof/Laws/KeptSaddle.lean ====
section
/-! SUPPORT. What the operations and meanings of Machine/Saddle.lean keep. -/

set_option linter.unreachableTactic false
set_option linter.unusedTactic false
set_option linter.unusedVariables false
set_option linter.tactic.unusedName false

namespace Sys2Proof.Machine

theorem execPrefetcherRelease_kept {s₀ s : State} {sd : Fin 2} {pf : Fin 64} (hK : Kept s₀ s) :
    KeptX s₀ (execPrefetcherRelease sd pf s) := by
  unfold execPrefetcherRelease
  repeat' first
    | with_reducible assumption
    | intro _
    | (extract_lets +onlyGivenNames x; first | (refine Kept.cut (s₀ := s₀) (x := x) ?_ ?_; rotate_left; intro _; clear_value x; rotate_left; unfold x; clear x) | (refine KeptX.cut (s₀ := s₀) (x := x) ?_ ?_; rotate_left; intro _; clear_value x; rotate_left; unfold x; clear x) | clear_value x | skip)
    | with_reducible apply Kept.ite
    | with_reducible apply KeptX.ite
    | with_reducible apply KeptX.next
    | with_reducible exact KeptX.refused
    | with_reducible apply updSaddle_kept
    | (with_reducible refine KeptX.of_eq ?_ ‹_›)
    | split

theorem farNote_kept {s₀ s : State} {r : MemReq} {len : Nat} (hK : Kept s₀ s) :
    Kept s₀ (farNote s r len) := by
  unfold farNote
  repeat' first
    | with_reducible assumption
    | intro _
    | (extract_lets +onlyGivenNames x; first | (refine Kept.cut (s₀ := s₀) (x := x) ?_ ?_; rotate_left; intro _; clear_value x; rotate_left; unfold x; clear x) | clear_value x | skip)
    | with_reducible apply Kept.ite
    | with_reducible apply rasAppend_kept
    | with_reducible apply runErr_kept
    | split

theorem holdRequest_kept {s₀ s : State} {a : Nat} {x : SadWait} (hK : Kept s₀ s) :
    Kept s₀ (holdRequest s a x) := by
  unfold holdRequest
  repeat' first
    | with_reducible assumption
    | intro _
    | (extract_lets +onlyGivenNames x; first | (refine Kept.cut (s₀ := s₀) (x := x) ?_ ?_; rotate_left; intro _; clear_value x; rotate_left; unfold x; clear x) | clear_value x | skip)
    | with_reducible apply Kept.ite
    | with_reducible apply updSaddle_kept
    | split

theorem serveRead_kept {s₀ s : State} {r : MemReq} {e : MemErrs} (hK : Kept s₀ s) :
    Kept s₀ (serveRead s r e) := by
  unfold serveRead
  repeat' first
    | with_reducible assumption
    | intro _
    | (extract_lets +onlyGivenNames x; first | (refine Kept.cut (s₀ := s₀) (x := x) ?_ ?_; rotate_left; intro _; clear_value x; rotate_left; unfold x; clear x) | (refine KeptP.cut (s₀ := s₀) (x := x) ?_ ?_; rotate_left; intro _; clear_value x; rotate_left; unfold x; clear x) | clear_value x | skip)
    | with_reducible apply Kept.ite
    | with_reducible apply KeptP.ite
    | (with_reducible refine KeptP.snd ?_; with_reducible assumption)
    | with_reducible exact KeptP.val ‹_›
    | with_reducible refine KeptP.snd (saddlePass_kept ?_)
    | with_reducible apply saddlePass_kept
    | with_reducible apply emit_kept
    | with_reducible apply farNote_kept
    | (with_reducible refine KeptP.of_eq ?_ ‹_›)
    | split
    | with_reducible apply KeptP.mk

theorem serveWrite_kept {s₀ s : State} {r : MemReq} {bytes : List Byte} {bad : Bool} (hK : Kept s₀ s) :
    Kept s₀ (serveWrite s r bytes bad) := by
  unfold serveWrite
  repeat' first
    | with_reducible assumption
    | intro _
    | (extract_lets +onlyGivenNames x; first | (refine Kept.cut (s₀ := s₀) (x := x) ?_ ?_; rotate_left; intro _; clear_value x; rotate_left; unfold x; clear x) | (refine KeptP.cut (s₀ := s₀) (x := x) ?_ ?_; rotate_left; intro _; clear_value x; rotate_left; unfold x; clear x) | clear_value x | skip)
    | with_reducible apply Kept.ite
    | with_reducible apply KeptP.ite
    | (with_reducible refine KeptP.snd ?_; with_reducible assumption)
    | with_reducible exact KeptP.val ‹_›
    | with_reducible refine KeptP.snd (saddlePass_kept ?_)
    | with_reducible apply saddlePass_kept
    | with_reducible apply dpaWrite_kept
    | with_reducible apply farNote_kept
    | (with_reducible refine KeptP.of_eq ?_ ‹_›)
    | split
    | with_reducible apply KeptP.mk

theorem execSaddleRead_kept {s₀ s : State} {r : MemReq} {e : MemErrs} (hK : Kept s₀ s) :
    KeptX s₀ (execSaddleRead r e s) := by
  unfold execSaddleRead
  repeat' first
    | with_reducible assumption
    | intro _
    | (extract_lets +onlyGivenNames x; first | (refine Kept.cut (s₀ := s₀) (x := x) ?_ ?_; rotate_left; intro _; clear_value x; rotate_left; unfold x; clear x) | (refine KeptX.cut (s₀ := s₀) (x := x) ?_ ?_; rotate_left; intro _; clear_value x; rotate_left; unfold x; clear x) | clear_value x | skip)
    | with_reducible apply Kept.ite
    | with_reducible apply KeptX.ite
    | with_reducible apply KeptX.next
    | with_reducible exact KeptX.refused
    | with_reducible apply holdRequest_kept
    | with_reducible apply serveRead_kept
    | (with_reducible refine KeptX.of_eq ?_ ‹_›)
    | split

theorem execSaddleWrite_kept {s₀ s : State} {r : MemReq} {bytes : List Byte} {bad : Bool} (hK : Kept s₀ s) :
    KeptX s₀ (execSaddleWrite r bytes bad s) := by
  unfold execSaddleWrite
  repeat' first
    | with_reducible assumption
    | intro _
    | (extract_lets +onlyGivenNames x; first | (refine Kept.cut (s₀ := s₀) (x := x) ?_ ?_; rotate_left; intro _; clear_value x; rotate_left; unfold x; clear x) | (refine KeptX.cut (s₀ := s₀) (x := x) ?_ ?_; rotate_left; intro _; clear_value x; rotate_left; unfold x; clear x) | clear_value x | skip)
    | with_reducible apply Kept.ite
    | with_reducible apply KeptX.ite
    | with_reducible apply KeptX.next
    | with_reducible exact KeptX.refused
    | with_reducible apply serveWrite_kept
    | with_reducible apply holdRequest_kept
    | (with_reducible refine KeptX.of_eq ?_ ‹_›)
    | split

theorem noteDeliv_kept {s₀ before : State} {s : State} {g : Nat} {cause : Nat} (hK : Kept s₀ before) (h_s : Kept s₀ s) :
    Kept s₀ (noteDeliv before s g cause) := by
  unfold noteDeliv
  repeat' first
    | with_reducible assumption
    | intro _
    | (extract_lets +onlyGivenNames x; first | (refine Kept.cut (s₀ := s₀) (x := x) ?_ ?_; rotate_left; intro _; clear_value x; rotate_left; unfold x; clear x) | clear_value x | skip)
    | with_reducible apply Kept.ite
    | (with_reducible refine set_rsvDue ?_; with_reducible assumption)
    | with_reducible apply h_s
    | split

theorem failStack_kept {s₀ s : State} {k : Nat} {cause : Nat} (hK : Kept s₀ s) :
    Kept s₀ (failStack s k cause) := by
  unfold failStack
  repeat' first
    | with_reducible assumption
    | intro _
    | (extract_lets +onlyGivenNames x; first | (refine Kept.cut (s₀ := s₀) (x := x) ?_ ?_; rotate_left; intro _; clear_value x; rotate_left; unfold x; clear x) | clear_value x | skip)
    | with_reducible apply Kept.ite
    | with_reducible apply rasAppend_kept
    | with_reducible apply enterFaulted_kept
    | with_reducible apply noteDeliv_kept
    | with_reducible apply intCause_kept
    | with_reducible apply updSaddle_kept
    | split

theorem execHbmStackFail_kept {s₀ s : State} {stack : Fin 12} {cause : Fin 3} (hK : Kept s₀ s) :
    KeptX s₀ (execHbmStackFail stack cause s) := by
  unfold execHbmStackFail
  repeat' first
    | with_reducible assumption
    | intro _
    | (extract_lets +onlyGivenNames x; first | (refine Kept.cut (s₀ := s₀) (x := x) ?_ ?_; rotate_left; intro _; clear_value x; rotate_left; unfold x; clear x) | (refine KeptX.cut (s₀ := s₀) (x := x) ?_ ?_; rotate_left; intro _; clear_value x; rotate_left; unfold x; clear x) | clear_value x | skip)
    | with_reducible apply Kept.ite
    | with_reducible apply KeptX.ite
    | with_reducible apply KeptX.next
    | with_reducible exact KeptX.refused
    | with_reducible apply failStack_kept
    | (with_reducible refine KeptX.of_eq ?_ ‹_›)
    | split

theorem execHbmTempReport_kept {s₀ s : State} {stack : Fin 12} {temp : Nat} (hK : Kept s₀ s) :
    KeptX s₀ (execHbmTempReport stack temp s) := by
  unfold execHbmTempReport
  repeat' first
    | with_reducible assumption
    | intro _
    | (extract_lets +onlyGivenNames x; first | (refine Kept.cut (s₀ := s₀) (x := x) ?_ ?_; rotate_left; intro _; clear_value x; rotate_left; unfold x; clear x) | (refine KeptX.cut (s₀ := s₀) (x := x) ?_ ?_; rotate_left; intro _; clear_value x; rotate_left; unfold x; clear x) | clear_value x | skip)
    | with_reducible apply Kept.ite
    | with_reducible apply KeptX.ite
    | with_reducible apply KeptX.next
    | with_reducible exact KeptX.refused
    | with_reducible apply exEvent_kept
    | with_reducible apply noteDeliv_kept
    | with_reducible apply satAdd_kept
    | with_reducible apply updSaddle_kept
    | (with_reducible refine KeptX.of_eq ?_ ‹_›)
    | split

theorem setFarState_kept {s₀ s : State} {p : Nat} {st : Nat} (hK : Kept s₀ s) :
    Kept s₀ (setFarState s p st) := by
  unfold setFarState
  repeat' first
    | with_reducible assumption
    | intro _
    | (extract_lets +onlyGivenNames x; first | (refine Kept.cut (s₀ := s₀) (x := x) ?_ ?_; rotate_left; intro _; clear_value x; rotate_left; unfold x; clear x) | clear_value x | skip)
    | with_reducible apply Kept.ite
    | with_reducible apply intCause_kept
    | (with_reducible refine set_farPorts ?_; with_reducible assumption)
    | split

theorem failFar_kept {s₀ s : State} {p : Nat} {fatal : Bool} (hK : Kept s₀ s) :
    Kept s₀ (failFar s p fatal) := by
  unfold failFar
  repeat' first
    | with_reducible assumption
    | intro _
    | (extract_lets +onlyGivenNames x; first | (refine Kept.cut (s₀ := s₀) (x := x) ?_ ?_; rotate_left; intro _; clear_value x; rotate_left; unfold x; clear x) | clear_value x | skip)
    | with_reducible apply Kept.ite
    | with_reducible apply rasAppend_kept
    | with_reducible apply setFarState_kept
    | (with_reducible refine set_rsvDue ?_; with_reducible assumption)
    | split

theorem execFarPortFail_kept {s₀ s : State} {port : Fin 8} {fatal : Bool} (hK : Kept s₀ s) :
    KeptX s₀ (execFarPortFail port fatal s) := by
  unfold execFarPortFail
  repeat' first
    | with_reducible assumption
    | intro _
    | (extract_lets +onlyGivenNames x; first | (refine Kept.cut (s₀ := s₀) (x := x) ?_ ?_; rotate_left; intro _; clear_value x; rotate_left; unfold x; clear x) | (refine KeptX.cut (s₀ := s₀) (x := x) ?_ ?_; rotate_left; intro _; clear_value x; rotate_left; unfold x; clear x) | clear_value x | skip)
    | with_reducible apply Kept.ite
    | with_reducible apply KeptX.ite
    | with_reducible apply KeptX.next
    | with_reducible exact KeptX.refused
    | with_reducible apply failFar_kept
    | (with_reducible refine KeptX.of_eq ?_ ‹_›)
    | split

theorem resilver_kept {s₀ s : State} {p : Nat} (hK : Kept s₀ s) : Kept s₀ (resilver s p) := by
  unfold resilver
  extract_lets m lo hi base src dst clean moved bad
  refine Kept.ite hK (set_far hK (fun hm => ?_))
  have hc : clean.wf = true := Mem.scrub_wf _ _ _ hm
  have hv : moved.wf = true := Mem.foldl_wf _ _ _ hc (fun m b h => Mem.put_wf _ _ _ h)
  exact Mem.wf_poison _ _ hv (rising_foldl_sectorSet _ _ _ _ (Mem.rising_poison _ hv))

theorem execFarResilverDone_kept {s₀ s : State} {port : Fin 8} (hK : Kept s₀ s) :
    KeptX s₀ (execFarResilverDone port s) := by
  unfold execFarResilverDone
  repeat' first
    | with_reducible assumption
    | intro _
    | (extract_lets +onlyGivenNames x; first | (refine Kept.cut (s₀ := s₀) (x := x) ?_ ?_; rotate_left; intro _; clear_value x; rotate_left; unfold x; clear x) | (refine KeptX.cut (s₀ := s₀) (x := x) ?_ ?_; rotate_left; intro _; clear_value x; rotate_left; unfold x; clear x) | clear_value x | skip)
    | with_reducible apply Kept.ite
    | with_reducible apply KeptX.ite
    | with_reducible apply KeptX.next
    | with_reducible exact KeptX.refused
    | with_reducible apply resilver_kept
    | with_reducible apply setFarState_kept
    | (with_reducible refine KeptX.of_eq ?_ ‹_›)
    | split

end Sys2Proof.Machine
end

