-- ==== Sys2Proof/Laws/KeptSump.lean ====
section
/-! SUPPORT. What the operations and meanings of Machine/Sump.lean keep. -/

set_option linter.unreachableTactic false
set_option linter.unusedTactic false
set_option linter.unusedVariables false
set_option linter.tactic.unusedName false

namespace Sys2Proof.Machine

theorem agentNote_kept {s₀ s : State} {n : Nat} {slot : Nat} {al : Nat} {l : List Acc} (hK : Kept s₀ s) :
    Kept s₀ (agentNote s n slot al l) := by
  unfold agentNote
  repeat' first
    | with_reducible assumption
    | intro _
    | (extract_lets +onlyGivenNames x; first | (refine Kept.cut (s₀ := s₀) (x := x) ?_ ?_; rotate_left; intro _; clear_value x; rotate_left; unfold x; clear x) | (refine KeptQ.cut (s₀ := s₀) (x := x) ?_ ?_; rotate_left; intro _; clear_value x; rotate_left; unfold x; clear x) | clear_value x | skip)
    | with_reducible apply Kept.ite
    | with_reducible apply KeptQ.ite
    | (with_reducible refine KeptQ.fst ?_; with_reducible assumption)
    | with_reducible exact KeptQ.val ‹_›
    | with_reducible refine KeptQ.fst (noteOwed_kept ?_)
    | with_reducible apply noteOwed_kept
    | (with_reducible refine KeptQ.of_eq ?_ ‹_›)
    | split
    | with_reducible apply KeptQ.mk

theorem sumpPost_kept {s₀ s : State} {tg : Nat} {c : Cmd} {n : Nat} {addr : Nat} (hK : Kept s₀ s) :
    KeptP s₀ (sumpPost s tg c n addr) := by
  unfold sumpPost
  repeat' first
    | with_reducible assumption
    | intro _
    | (extract_lets +onlyGivenNames x; first | (refine Kept.cut (s₀ := s₀) (x := x) ?_ ?_; rotate_left; intro _; clear_value x; rotate_left; unfold x; clear x) | (refine KeptP.cut (s₀ := s₀) (x := x) ?_ ?_; rotate_left; intro _; clear_value x; rotate_left; unfold x; clear x) | clear_value x | skip)
    | with_reducible apply Kept.ite
    | with_reducible apply KeptP.ite
    | (with_reducible refine KeptP.snd ?_; with_reducible assumption)
    | with_reducible exact KeptP.val ‹_›
    | with_reducible apply agentNote_kept
    | with_reducible apply updRun_kept
    | with_reducible apply atsAsk_kept
    | with_reducible apply stageFault_kept
    | with_reducible apply updSaddle_kept
    | with_reducible apply logStream_kept
    | (with_reducible refine KeptP.of_eq ?_ ‹_›)
    | split
    | with_reducible apply KeptP.mk

theorem sumpPrefetch_kept {s₀ s : State} {n : Nat} {unit : Nat} {al : Nat} {r : SumpRec} {lo : Nat} {hi : Nat} (hK : Kept s₀ s) :
    Kept s₀ (sumpPrefetch s n unit al r lo hi) := by
  unfold sumpPrefetch
  repeat' first
    | with_reducible assumption
    | intro _
    | (extract_lets +onlyGivenNames x; first | (refine Kept.cut (s₀ := s₀) (x := x) ?_ ?_; rotate_left; intro _; clear_value x; rotate_left; unfold x; clear x) | clear_value x | skip)
    | with_reducible apply Kept.ite
    | with_reducible apply Kept.foldl
    | with_reducible apply fetchAhead_kept
    | with_reducible apply updSaddle_kept
    | split

theorem holdBag_kept {s₀ s : State} {n : Nat} {unit : Nat} {bag : Nat} (hK : Kept s₀ s) :
    Kept s₀ (holdBag s n unit bag) := by
  unfold holdBag
  repeat' first
    | with_reducible assumption
    | intro _
    | (extract_lets +onlyGivenNames x; first | (refine Kept.cut (s₀ := s₀) (x := x) ?_ ?_; rotate_left; intro _; clear_value x; rotate_left; unfold x; clear x) | clear_value x | skip)
    | with_reducible apply Kept.ite
    | with_reducible apply updSaddle_kept
    | split

theorem execSumpBag_kept {s₀ s : State} {sd : Fin 2} (hK : Kept s₀ s) :
    KeptX s₀ (execSumpBag sd s) := by
  unfold execSumpBag
  repeat' first
    | with_reducible assumption
    | intro _
    | (extract_lets +onlyGivenNames x; first | (refine Kept.cut (s₀ := s₀) (x := x) ?_ ?_; rotate_left; intro _; clear_value x; rotate_left; unfold x; clear x) | (refine KeptQ.cut (s₀ := s₀) (x := x) ?_ ?_; rotate_left; intro _; clear_value x; rotate_left; unfold x; clear x) | (refine KeptX.cut (s₀ := s₀) (x := x) ?_ ?_; rotate_left; intro _; clear_value x; rotate_left; unfold x; clear x) | clear_value x | skip)
    | with_reducible apply Kept.ite
    | with_reducible apply KeptQ.ite
    | (with_reducible refine KeptQ.fst ?_; with_reducible assumption)
    | with_reducible exact KeptQ.val ‹_›
    | with_reducible refine KeptQ.fst (vWrite_kept ?_)
    | with_reducible apply KeptX.ite
    | with_reducible apply KeptX.next
    | with_reducible exact KeptX.refused
    | with_reducible apply agentNote_kept
    | with_reducible apply atsAsk_kept
    | with_reducible apply holdBag_kept
    | with_reducible apply setFlags_kept
    | with_reducible apply vWrite_kept
    | with_reducible apply sumpPrefetch_kept
    | with_reducible apply satAdd_kept
    | with_reducible apply updSaddle_kept
    | with_reducible apply runPoison_kept
    | (with_reducible refine KeptQ.of_eq ?_ ‹_›)
    | (with_reducible refine KeptX.of_eq ?_ ‹_›)
    | split
    | with_reducible apply KeptQ.mk

theorem execSumpJobEnd_kept {s₀ s : State} {sd : Fin 2} (hK : Kept s₀ s) :
    KeptX s₀ (execSumpJobEnd sd s) := by
  unfold execSumpJobEnd
  repeat' first
    | with_reducible assumption
    | intro _
    | (extract_lets +onlyGivenNames x; first | (refine Kept.cut (s₀ := s₀) (x := x) ?_ ?_; rotate_left; intro _; clear_value x; rotate_left; unfold x; clear x) | (refine KeptX.cut (s₀ := s₀) (x := x) ?_ ?_; rotate_left; intro _; clear_value x; rotate_left; unfold x; clear x) | clear_value x | skip)
    | with_reducible apply Kept.ite
    | with_reducible apply KeptX.ite
    | with_reducible apply KeptX.next
    | with_reducible exact KeptX.refused
    | with_reducible apply updRun_kept
    | with_reducible apply updSaddle_kept
    | with_reducible apply logStream_kept
    | (with_reducible refine KeptX.of_eq ?_ ‹_›)
    | split

end Sys2Proof.Machine
end

