-- ==== Sys2Proof/Laws/KeptStream.lean ====
section
/-! SUPPORT. What the operations and meanings of Machine/Stream.lean keep. -/

set_option linter.unreachableTactic false
set_option linter.unusedTactic false
set_option linter.unusedVariables false
set_option linter.tactic.unusedName false

namespace Sys2Proof.Machine

theorem issueLd_kept {s₀ s : State} {kind : Nat} {y0 : Ctx} (hK : Kept s₀ s) :
    KeptO s₀ (issueLd kind y0 s) := by
  unfold issueLd
  repeat' first
    | with_reducible assumption
    | intro _
    | (extract_lets +onlyGivenNames x; first | (refine Kept.cut (s₀ := s₀) (x := x) ?_ ?_; rotate_left; intro _; clear_value x; rotate_left; unfold x; clear x) | (refine KeptO.cut (s₀ := s₀) (x := x) ?_ ?_; rotate_left; intro _; clear_value x; rotate_left; unfold x; clear x) | clear_value x | skip)
    | with_reducible apply Kept.ite
    | with_reducible apply KeptO.ite
    | with_reducible exact KeptO.val ‹_›
    | with_reducible apply KeptO.some
    | with_reducible exact KeptO.none
    | with_reducible apply forwardStream_kept
    | with_reducible apply checked_kept
    | (with_reducible refine KeptO.of_eq ?_ ‹_›)
    | split

theorem execStrLd_kept {s₀ s : State} {i : Issue} (hK : Kept s₀ s) :
    KeptX s₀ (execStrLd i s) := by
  unfold execStrLd
  repeat' first
    | with_reducible assumption
    | intro _
    | (extract_lets +onlyGivenNames x; first | (refine Kept.cut (s₀ := s₀) (x := x) ?_ ?_; rotate_left; intro _; clear_value x; rotate_left; unfold x; clear x) | (refine KeptX.cut (s₀ := s₀) (x := x) ?_ ?_; rotate_left; intro _; clear_value x; rotate_left; unfold x; clear x) | (refine KeptO.cut (s₀ := s₀) (x := x) ?_ ?_; rotate_left; intro _; clear_value x; rotate_left; unfold x; clear x) | clear_value x | skip)
    | with_reducible apply Kept.ite
    | with_reducible apply KeptO.ite
    | with_reducible exact KeptO.val ‹_›
    | with_reducible apply KeptO.some
    | with_reducible exact KeptO.none
    | with_reducible apply KeptX.ite
    | with_reducible apply KeptX.next
    | with_reducible exact KeptX.refused
    | with_reducible apply issue_kept
    | with_reducible apply issueLd_kept
    | (with_reducible refine KeptO.of_eq ?_ ‹_›)
    | (with_reducible refine KeptX.of_eq ?_ ‹_›)
    | split

theorem execStrLdGate_kept {s₀ s : State} {i : Issue} (hK : Kept s₀ s) :
    KeptX s₀ (execStrLdGate i s) := by
  unfold execStrLdGate
  repeat' first
    | with_reducible assumption
    | intro _
    | (extract_lets +onlyGivenNames x; first | (refine Kept.cut (s₀ := s₀) (x := x) ?_ ?_; rotate_left; intro _; clear_value x; rotate_left; unfold x; clear x) | (refine KeptX.cut (s₀ := s₀) (x := x) ?_ ?_; rotate_left; intro _; clear_value x; rotate_left; unfold x; clear x) | (refine KeptO.cut (s₀ := s₀) (x := x) ?_ ?_; rotate_left; intro _; clear_value x; rotate_left; unfold x; clear x) | clear_value x | skip)
    | with_reducible apply Kept.ite
    | with_reducible apply KeptO.ite
    | with_reducible exact KeptO.val ‹_›
    | with_reducible apply KeptO.some
    | with_reducible exact KeptO.none
    | with_reducible apply KeptX.ite
    | with_reducible apply KeptX.next
    | with_reducible exact KeptX.refused
    | with_reducible apply issue_kept
    | with_reducible apply issueLd_kept
    | (with_reducible refine KeptO.of_eq ?_ ‹_›)
    | (with_reducible refine KeptX.of_eq ?_ ‹_›)
    | split

theorem execStrLdReach_kept {s₀ s : State} {i : Issue} (hK : Kept s₀ s) :
    KeptX s₀ (execStrLdReach i s) := by
  unfold execStrLdReach
  repeat' first
    | with_reducible assumption
    | intro _
    | (extract_lets +onlyGivenNames x; first | (refine Kept.cut (s₀ := s₀) (x := x) ?_ ?_; rotate_left; intro _; clear_value x; rotate_left; unfold x; clear x) | (refine KeptX.cut (s₀ := s₀) (x := x) ?_ ?_; rotate_left; intro _; clear_value x; rotate_left; unfold x; clear x) | (refine KeptO.cut (s₀ := s₀) (x := x) ?_ ?_; rotate_left; intro _; clear_value x; rotate_left; unfold x; clear x) | clear_value x | skip)
    | with_reducible apply Kept.ite
    | with_reducible apply KeptO.ite
    | with_reducible exact KeptO.val ‹_›
    | with_reducible apply KeptO.some
    | with_reducible exact KeptO.none
    | with_reducible apply KeptX.ite
    | with_reducible apply KeptX.next
    | with_reducible exact KeptX.refused
    | with_reducible apply issue_kept
    | with_reducible apply issueLd_kept
    | (with_reducible refine KeptO.of_eq ?_ ‹_›)
    | (with_reducible refine KeptX.of_eq ?_ ‹_›)
    | split

theorem execStrLdOne_kept {s₀ s : State} {i : Issue} (hK : Kept s₀ s) :
    KeptX s₀ (execStrLdOne i s) := by
  unfold execStrLdOne
  repeat' first
    | with_reducible assumption
    | intro _
    | (extract_lets +onlyGivenNames x; first | (refine Kept.cut (s₀ := s₀) (x := x) ?_ ?_; rotate_left; intro _; clear_value x; rotate_left; unfold x; clear x) | (refine KeptX.cut (s₀ := s₀) (x := x) ?_ ?_; rotate_left; intro _; clear_value x; rotate_left; unfold x; clear x) | (refine KeptO.cut (s₀ := s₀) (x := x) ?_ ?_; rotate_left; intro _; clear_value x; rotate_left; unfold x; clear x) | clear_value x | skip)
    | with_reducible apply Kept.ite
    | with_reducible apply KeptO.ite
    | with_reducible exact KeptO.val ‹_›
    | with_reducible apply KeptO.some
    | with_reducible exact KeptO.none
    | with_reducible apply KeptX.ite
    | with_reducible apply KeptX.next
    | with_reducible exact KeptX.refused
    | with_reducible apply issue_kept
    | with_reducible apply issueLd_kept
    | (with_reducible refine KeptO.of_eq ?_ ‹_›)
    | (with_reducible refine KeptX.of_eq ?_ ‹_›)
    | split

theorem execStrSt_kept {s₀ s : State} {i : Issue} (hK : Kept s₀ s) :
    KeptX s₀ (execStrSt i s) := by
  unfold execStrSt
  repeat' first
    | with_reducible assumption
    | intro _
    | (extract_lets +onlyGivenNames x; first | (refine Kept.cut (s₀ := s₀) (x := x) ?_ ?_; rotate_left; intro _; clear_value x; rotate_left; unfold x; clear x) | (refine KeptX.cut (s₀ := s₀) (x := x) ?_ ?_; rotate_left; intro _; clear_value x; rotate_left; unfold x; clear x) | (refine KeptO.cut (s₀ := s₀) (x := x) ?_ ?_; rotate_left; intro _; clear_value x; rotate_left; unfold x; clear x) | clear_value x | skip)
    | with_reducible apply Kept.ite
    | with_reducible apply KeptO.ite
    | with_reducible exact KeptO.val ‹_›
    | with_reducible apply KeptO.some
    | with_reducible exact KeptO.none
    | with_reducible apply KeptX.ite
    | with_reducible apply KeptX.next
    | with_reducible exact KeptX.refused
    | with_reducible apply strict_kept
    | with_reducible apply issue_kept
    | with_reducible apply forwardStream_kept
    | with_reducible apply checked_kept
    | (with_reducible refine KeptO.of_eq ?_ ‹_›)
    | (with_reducible refine KeptX.of_eq ?_ ‹_›)
    | split

theorem execStrCpy_kept {s₀ s : State} {i : Issue} (hK : Kept s₀ s) :
    KeptX s₀ (execStrCpy i s) := by
  unfold execStrCpy
  repeat' first
    | with_reducible assumption
    | intro _
    | (extract_lets +onlyGivenNames x; first | (refine Kept.cut (s₀ := s₀) (x := x) ?_ ?_; rotate_left; intro _; clear_value x; rotate_left; unfold x; clear x) | (refine KeptX.cut (s₀ := s₀) (x := x) ?_ ?_; rotate_left; intro _; clear_value x; rotate_left; unfold x; clear x) | (refine KeptO.cut (s₀ := s₀) (x := x) ?_ ?_; rotate_left; intro _; clear_value x; rotate_left; unfold x; clear x) | clear_value x | skip)
    | with_reducible apply Kept.ite
    | with_reducible apply KeptO.ite
    | with_reducible exact KeptO.val ‹_›
    | with_reducible apply KeptO.some
    | with_reducible exact KeptO.none
    | with_reducible apply KeptX.ite
    | with_reducible apply KeptX.next
    | with_reducible exact KeptX.refused
    | with_reducible apply strict_kept
    | with_reducible apply issue_kept
    | with_reducible apply forwardStream_kept
    | with_reducible apply checked_kept
    | (with_reducible refine KeptO.of_eq ?_ ‹_›)
    | (with_reducible refine KeptX.of_eq ?_ ‹_›)
    | split

theorem execStrSump_kept {s₀ s : State} {i : Issue} (hK : Kept s₀ s) :
    KeptX s₀ (execStrSump i s) := by
  unfold execStrSump
  repeat' first
    | with_reducible assumption
    | intro _
    | (extract_lets +onlyGivenNames x; first | (refine Kept.cut (s₀ := s₀) (x := x) ?_ ?_; rotate_left; intro _; clear_value x; rotate_left; unfold x; clear x) | (refine KeptX.cut (s₀ := s₀) (x := x) ?_ ?_; rotate_left; intro _; clear_value x; rotate_left; unfold x; clear x) | (refine KeptO.cut (s₀ := s₀) (x := x) ?_ ?_; rotate_left; intro _; clear_value x; rotate_left; unfold x; clear x) | clear_value x | skip)
    | with_reducible apply Kept.ite
    | with_reducible apply KeptO.ite
    | with_reducible exact KeptO.val ‹_›
    | with_reducible apply KeptO.some
    | with_reducible exact KeptO.none
    | with_reducible apply KeptX.ite
    | with_reducible apply KeptX.next
    | with_reducible exact KeptX.refused
    | with_reducible apply forward_kept
    | with_reducible apply strict_kept
    | with_reducible apply issue_kept
    | (with_reducible refine KeptO.of_eq ?_ ‹_›)
    | (with_reducible refine KeptX.of_eq ?_ ‹_›)
    | split

theorem boundOn_kept {s₀ s : State} {tg : Nat} {x : Desc} (hK : Kept s₀ s) :
    KeptP s₀ (boundOn s tg x) := by
  unfold boundOn
  repeat' first
    | with_reducible assumption
    | intro _
    | (extract_lets +onlyGivenNames x; first | (refine Kept.cut (s₀ := s₀) (x := x) ?_ ?_; rotate_left; intro _; clear_value x; rotate_left; unfold x; clear x) | (refine KeptP.cut (s₀ := s₀) (x := x) ?_ ?_; rotate_left; intro _; clear_value x; rotate_left; unfold x; clear x) | clear_value x | skip)
    | with_reducible apply Kept.ite
    | with_reducible apply KeptP.ite
    | (with_reducible refine KeptP.snd ?_; with_reducible assumption)
    | with_reducible exact KeptP.val ‹_›
    | with_reducible apply runErr_kept
    | (with_reducible refine KeptP.of_eq ?_ ‹_›)
    | split
    | with_reducible apply KeptP.mk

theorem pinPages_kept {s₀ s : State} {tg : Nat} {u : Nat} {l : List Acc} (hK : Kept s₀ s) :
    KeptO1 s₀ (pinPages s tg u l) := by
  unfold pinPages
  repeat' first
    | with_reducible assumption
    | intro _
    | (extract_lets +onlyGivenNames x; first | (refine Kept.cut (s₀ := s₀) (x := x) ?_ ?_; rotate_left; intro _; clear_value x; rotate_left; unfold x; clear x) | (refine KeptO1.cut (s₀ := s₀) (x := x) ?_ ?_; rotate_left; intro _; clear_value x; rotate_left; unfold x; clear x) | clear_value x | skip)
    | with_reducible apply Kept.ite
    | with_reducible apply updTerrace_kept
    | (with_reducible refine KeptO1.of_eq ?_ ‹_›)
    | split
    | with_reducible apply KeptO1.ite
    | with_reducible apply KeptO1.some
    | with_reducible exact KeptO1.none

theorem streamParts_kept {s₀ s : State} {tg : Nat} {u : Nat} {parts : List (Desc × List Acc)} (hK : Kept s₀ s) :
    KeptQ s₀ (streamParts s tg u parts) := by
  unfold streamParts
  repeat' first
    | with_reducible assumption
    | intro _
    | (extract_lets +onlyGivenNames x; first | (refine Kept.cut (s₀ := s₀) (x := x) ?_ ?_; rotate_left; intro _; clear_value x; rotate_left; unfold x; clear x) | (refine KeptP.cut (s₀ := s₀) (x := x) ?_ ?_; rotate_left; intro _; clear_value x; rotate_left; unfold x; clear x) | (refine KeptQ.cut (s₀ := s₀) (x := x) ?_ ?_; rotate_left; intro _; clear_value x; rotate_left; unfold x; clear x) | clear_value x | skip)
    | with_reducible apply Kept.ite
    | with_reducible apply KeptP.ite
    | (with_reducible refine KeptP.snd ?_; with_reducible assumption)
    | with_reducible exact KeptP.val ‹_›
    | with_reducible refine KeptP.snd (boundOn_kept ?_)
    | with_reducible refine KeptP.snd (KeptP.foldl ?_ ?_)
    | with_reducible apply KeptQ.ite
    | (with_reducible refine KeptQ.fst ?_; with_reducible assumption)
    | with_reducible exact KeptQ.val ‹_›
    | with_reducible refine KeptQ.fst (streamed_kept ?_)
    | with_reducible refine KeptQ.fst (KeptQ.foldl ?_ ?_)
    | with_reducible apply Kept.foldl
    | with_reducible apply KeptP.foldl
    | with_reducible apply KeptQ.foldl
    | with_reducible apply streamed_kept
    | with_reducible apply boundOn_kept
    | (with_reducible refine KeptP.of_eq ?_ ‹_›)
    | (with_reducible refine KeptQ.of_eq ?_ ‹_›)
    | split
    | with_reducible apply KeptP.mk
    | with_reducible apply KeptQ.mk

theorem openStream_kept {s₀ s : State} {tg : Nat} {parts : List (Desc × List Acc)} {e : Exec} (hK : Kept s₀ s) :
    KeptP s₀ (openStream s tg parts e) := by
  unfold openStream
  repeat' first
    | with_reducible assumption
    | intro _
    | (extract_lets +onlyGivenNames x; first | (refine Kept.cut (s₀ := s₀) (x := x) ?_ ?_; rotate_left; intro _; clear_value x; rotate_left; unfold x; clear x) | (refine KeptO1.cut (s₀ := s₀) (x := x) ?_ ?_; rotate_left; intro _; clear_value x; rotate_left; unfold x; clear x) | (refine KeptP.cut (s₀ := s₀) (x := x) ?_ ?_; rotate_left; intro _; clear_value x; rotate_left; unfold x; clear x) | (refine KeptQ.cut (s₀ := s₀) (x := x) ?_ ?_; rotate_left; intro _; clear_value x; rotate_left; unfold x; clear x) | clear_value x | skip)
    | with_reducible apply Kept.ite
    | with_reducible apply KeptP.ite
    | (with_reducible refine KeptP.snd ?_; with_reducible assumption)
    | with_reducible exact KeptP.val ‹_›
    | with_reducible refine KeptP.snd (boundOn_kept ?_)
    | with_reducible apply KeptQ.ite
    | (with_reducible refine KeptQ.fst ?_; with_reducible assumption)
    | with_reducible exact KeptQ.val ‹_›
    | with_reducible refine KeptQ.fst (streamParts_kept ?_)
    | with_reducible apply pinPages_kept
    | with_reducible apply atsAsk_kept
    | with_reducible apply logUnit_kept
    | with_reducible apply passOwed_kept
    | with_reducible apply boundOn_kept
    | with_reducible apply stageFault_kept
    | with_reducible apply streamParts_kept
    | with_reducible apply updTerrace_kept
    | (with_reducible refine KeptO1.of_eq ?_ ‹_›)
    | (with_reducible refine KeptP.of_eq ?_ ‹_›)
    | (with_reducible refine KeptQ.of_eq ?_ ‹_›)
    | split
    | with_reducible apply KeptO1.ite
    | with_reducible apply KeptO1.some
    | with_reducible exact KeptO1.none
    | with_reducible apply KeptP.mk
    | with_reducible apply KeptQ.mk

theorem startLd_kept {s₀ s : State} {tg : Nat} {c : Cmd} (hK : Kept s₀ s) :
    KeptP s₀ (startLd s tg c) := by
  unfold startLd
  repeat' first
    | with_reducible assumption
    | intro _
    | (extract_lets +onlyGivenNames x; first | (refine Kept.cut (s₀ := s₀) (x := x) ?_ ?_; rotate_left; intro _; clear_value x; rotate_left; unfold x; clear x) | (refine KeptP.cut (s₀ := s₀) (x := x) ?_ ?_; rotate_left; intro _; clear_value x; rotate_left; unfold x; clear x) | (refine KeptX.cut (s₀ := s₀) (x := x) ?_ ?_; rotate_left; intro _; clear_value x; rotate_left; unfold x; clear x) | (refine kept_cut_fun (s₀ := s₀) (x := x) ?_ ?_; rotate_left; intro _; clear_value x; rotate_left; unfold x; clear x) | (refine kept_cut_fun2 (s₀ := s₀) (x := x) ?_ ?_; rotate_left; intro _; clear_value x; rotate_left; unfold x; clear x) | (refine kept_cut_fun3 (s₀ := s₀) (x := x) ?_ ?_; rotate_left; intro _; clear_value x; rotate_left; unfold x; clear x) | (refine kept_cut_val (s₀ := s₀) (x := x) ?_ ?_; rotate_left; intro _; clear_value x; rotate_left; unfold x; clear x) | clear_value x | skip)
    | with_reducible apply Kept.ite
    | with_reducible apply KeptP.ite
    | (with_reducible refine KeptP.snd ?_; with_reducible assumption)
    | with_reducible exact KeptP.val ‹_›
    | with_reducible refine KeptP.snd (openStream_kept ?_)
    | with_reducible apply KeptX.ite
    | with_reducible apply KeptX.next
    | with_reducible exact KeptX.refused
    | with_reducible apply exec_kept
    | with_reducible apply flagT_kept
    | with_reducible apply openStream_kept
    | with_reducible apply stageFault_kept
    | (with_reducible refine KeptP.of_eq ?_ ‹_›)
    | (with_reducible refine KeptX.of_eq ?_ ‹_›)
    | with_reducible apply_assumption -exfalso -symm
    | split
    | with_reducible apply KeptP.mk

theorem storeRows_kept {s₀ s : State} {tg : Nat} {al : Nat} {x : Desc} {cols : Nat} {rows : List Row} (hK : Kept s₀ s) :
    KeptV s₀ (storeRows s tg al x cols rows) := by
  unfold storeRows
  repeat' first
    | with_reducible assumption
    | intro _
    | (extract_lets +onlyGivenNames x; first | (refine Kept.cut (s₀ := s₀) (x := x) ?_ ?_; rotate_left; intro _; clear_value x; rotate_left; unfold x; clear x) | (refine KeptU.cut (s₀ := s₀) (x := x) ?_ ?_; rotate_left; intro _; clear_value x; rotate_left; unfold x; clear x) | (refine KeptV.cut (s₀ := s₀) (x := x) ?_ ?_; rotate_left; intro _; clear_value x; rotate_left; unfold x; clear x) | clear_value x | skip)
    | with_reducible apply Kept.ite
    | with_reducible apply KeptU.ite
    | (with_reducible refine KeptU.st ?_; with_reducible assumption)
    | with_reducible refine KeptU.st (putVals_kept ?_)
    | with_reducible refine KeptU.st (maskedRowStore_kept ?_)
    | with_reducible refine KeptU.st (putRows_kept ?_)
    | with_reducible refine KeptU.st (maskedStore_kept ?_)
    | with_reducible refine KeptU.st (KeptV.fst (detectStore_kept ?_))
    | with_reducible apply KeptV.ite
    | (with_reducible refine KeptV.fst ?_; with_reducible assumption)
    | with_reducible exact KeptV.val ‹_›
    | with_reducible refine KeptV.fst (detectStore_kept ?_)
    | with_reducible apply putVals_kept
    | with_reducible apply maskedRowStore_kept
    | with_reducible apply putRows_kept
    | with_reducible apply maskedStore_kept
    | with_reducible apply detectStore_kept
    | (with_reducible refine KeptV.of_eq ?_ ‹_›)
    | split
    | with_reducible apply KeptU.mk
    | with_reducible apply KeptV.mk

theorem storeNotes_kept {s₀ s : State} {tg : Nat} {r : Put × Bool} (hK : Kept s₀ s) (h_r : KeptV s₀ r) :
    Kept s₀ (storeNotes s tg r) := by
  unfold storeNotes
  repeat' first
    | with_reducible assumption
    | intro _
    | (extract_lets +onlyGivenNames x; first | (refine Kept.cut (s₀ := s₀) (x := x) ?_ ?_; rotate_left; intro _; clear_value x; rotate_left; unfold x; clear x) | (refine KeptV.cut (s₀ := s₀) (x := x) ?_ ?_; rotate_left; intro _; clear_value x; rotate_left; unfold x; clear x) | clear_value x | skip)
    | with_reducible apply Kept.ite
    | with_reducible apply KeptV.ite
    | (with_reducible refine KeptV.fst ?_; with_reducible assumption)
    | with_reducible exact KeptV.val ‹_›
    | with_reducible apply flagT_kept
    | with_reducible apply runErr_kept
    | (with_reducible refine KeptV.of_eq ?_ ‹_›)
    | with_reducible apply h_r
    | split
    | with_reducible apply KeptV.mk

theorem settle_kept {s₀  : State} {tg : Nat} {u : Nat} {resv : Option Nat} {r : Put × Bool} (h_r : KeptV s₀ r) :
    KeptQ s₀ (settle tg u resv r) := by
  unfold settle
  repeat' first
    | with_reducible assumption
    | intro _
    | (extract_lets +onlyGivenNames x; first | (refine Kept.cut (s₀ := s₀) (x := x) ?_ ?_; rotate_left; intro _; clear_value x; rotate_left; unfold x; clear x) | (refine KeptQ.cut (s₀ := s₀) (x := x) ?_ ?_; rotate_left; intro _; clear_value x; rotate_left; unfold x; clear x) | (refine KeptV.cut (s₀ := s₀) (x := x) ?_ ?_; rotate_left; intro _; clear_value x; rotate_left; unfold x; clear x) | clear_value x | skip)
    | with_reducible apply Kept.ite
    | with_reducible apply KeptQ.ite
    | (with_reducible refine KeptQ.fst ?_; with_reducible assumption)
    | with_reducible exact KeptQ.val ‹_›
    | with_reducible refine KeptQ.fst (streamed_kept ?_)
    | with_reducible apply KeptV.ite
    | (with_reducible refine KeptV.fst ?_; with_reducible assumption)
    | with_reducible exact KeptV.val ‹_›
    | with_reducible apply streamed_kept
    | with_reducible apply storeNotes_kept
    | with_reducible apply Put.sent_kept
    | (with_reducible refine KeptQ.of_eq ?_ ‹_›)
    | (with_reducible refine KeptV.of_eq ?_ ‹_›)
    | with_reducible apply h_r
    | split
    | with_reducible apply KeptQ.mk
    | with_reducible apply KeptV.mk

theorem tryStore_kept {s₀ s : State} {tg : Nat} {u : Nat} (hK : Kept s₀ s) :
    Kept s₀ (tryStore s tg u) := by
  unfold tryStore
  repeat' first
    | with_reducible assumption
    | intro _
    | (extract_lets +onlyGivenNames x; first | (refine Kept.cut (s₀ := s₀) (x := x) ?_ ?_; rotate_left; intro _; clear_value x; rotate_left; unfold x; clear x) | (refine KeptQ.cut (s₀ := s₀) (x := x) ?_ ?_; rotate_left; intro _; clear_value x; rotate_left; unfold x; clear x) | (refine KeptV.cut (s₀ := s₀) (x := x) ?_ ?_; rotate_left; intro _; clear_value x; rotate_left; unfold x; clear x) | clear_value x | skip)
    | with_reducible apply Kept.ite
    | with_reducible apply KeptQ.ite
    | (with_reducible refine KeptQ.fst ?_; with_reducible assumption)
    | with_reducible exact KeptQ.val ‹_›
    | with_reducible refine KeptQ.fst (settle_kept ?_)
    | with_reducible apply KeptV.ite
    | (with_reducible refine KeptV.fst ?_; with_reducible assumption)
    | with_reducible exact KeptV.val ‹_›
    | with_reducible refine KeptV.fst (storeRows_kept ?_)
    | with_reducible apply storeRows_kept
    | with_reducible apply atsAsk_kept
    | with_reducible apply passOwed_kept
    | with_reducible apply settle_kept
    | with_reducible apply stageFault_kept
    | with_reducible apply updTerrace_kept
    | (with_reducible refine KeptQ.of_eq ?_ ‹_›)
    | (with_reducible refine KeptV.of_eq ?_ ‹_›)
    | split
    | with_reducible apply KeptQ.mk
    | with_reducible apply KeptV.mk

theorem feedStore_kept {s₀ s : State} {tg : Nat} {u : Nat} (hK : Kept s₀ s) :
    Kept s₀ (feedStore s tg u) := by
  unfold feedStore
  repeat' first
    | with_reducible assumption
    | intro _
    | (extract_lets +onlyGivenNames x; first | (refine Kept.cut (s₀ := s₀) (x := x) ?_ ?_; rotate_left; intro _; clear_value x; rotate_left; unfold x; clear x) | clear_value x | skip)
    | with_reducible apply Kept.ite
    | with_reducible apply missNext_kept
    | with_reducible apply tryStore_kept
    | with_reducible apply setTerrace_kept
    | with_reducible apply updTerrace_kept
    | with_reducible apply freeHandle_kept
    | split

theorem startSt_kept {s₀ s : State} {tg : Nat} {c : Cmd} (hK : Kept s₀ s) :
    KeptP s₀ (startSt s tg c) := by
  unfold startSt
  repeat' first
    | with_reducible assumption
    | intro _
    | (extract_lets +onlyGivenNames x; first | (refine Kept.cut (s₀ := s₀) (x := x) ?_ ?_; rotate_left; intro _; clear_value x; rotate_left; unfold x; clear x) | (refine KeptO1.cut (s₀ := s₀) (x := x) ?_ ?_; rotate_left; intro _; clear_value x; rotate_left; unfold x; clear x) | (refine KeptP.cut (s₀ := s₀) (x := x) ?_ ?_; rotate_left; intro _; clear_value x; rotate_left; unfold x; clear x) | (refine kept_cut_fun (s₀ := s₀) (x := x) ?_ ?_; rotate_left; intro _; clear_value x; rotate_left; unfold x; clear x) | (refine kept_cut_fun2 (s₀ := s₀) (x := x) ?_ ?_; rotate_left; intro _; clear_value x; rotate_left; unfold x; clear x) | (refine kept_cut_fun3 (s₀ := s₀) (x := x) ?_ ?_; rotate_left; intro _; clear_value x; rotate_left; unfold x; clear x) | (refine kept_cut_val (s₀ := s₀) (x := x) ?_ ?_; rotate_left; intro _; clear_value x; rotate_left; unfold x; clear x) | clear_value x | skip)
    | with_reducible apply Kept.ite
    | with_reducible apply KeptP.ite
    | (with_reducible refine KeptP.snd ?_; with_reducible assumption)
    | with_reducible exact KeptP.val ‹_›
    | with_reducible refine KeptP.snd (boundOn_kept ?_)
    | with_reducible apply pinPages_kept
    | with_reducible apply atsAsk_kept
    | with_reducible apply logUnit_kept
    | with_reducible apply boundOn_kept
    | with_reducible apply feedStore_kept
    | with_reducible apply stageFault_kept
    | with_reducible apply updTerrace_kept
    | (with_reducible refine KeptO1.of_eq ?_ ‹_›)
    | (with_reducible refine KeptP.of_eq ?_ ‹_›)
    | with_reducible apply_assumption -exfalso -symm
    | split
    | with_reducible apply KeptO1.ite
    | with_reducible apply KeptO1.some
    | with_reducible exact KeptO1.none
    | with_reducible apply KeptP.mk

theorem copyInto_kept {s₀  : State} {p : Put} {tg : Nat} {al : Nat} {d : Desc} {vs : List (List Val)} (h_p : KeptU s₀ p) :
    KeptU s₀ (copyInto p tg al d vs) := by
  unfold copyInto
  repeat' first
    | with_reducible assumption
    | intro _
    | (extract_lets +onlyGivenNames x; first | (refine Kept.cut (s₀ := s₀) (x := x) ?_ ?_; rotate_left; intro _; clear_value x; rotate_left; unfold x; clear x) | (refine KeptU.cut (s₀ := s₀) (x := x) ?_ ?_; rotate_left; intro _; clear_value x; rotate_left; unfold x; clear x) | clear_value x | skip)
    | with_reducible apply Kept.ite
    | with_reducible apply KeptU.ite
    | (with_reducible refine KeptU.st ?_; with_reducible assumption)
    | with_reducible refine KeptU.st (putVals_kept ?_)
    | with_reducible apply putVals_kept
    | with_reducible apply h_p
    | split
    | with_reducible apply KeptU.mk

theorem startCpy_kept {s₀ s : State} {tg : Nat} {c : Cmd} (hK : Kept s₀ s) : KeptP s₀ (startCpy s tg c) := by
  unfold startCpy
  extract_lets al d x done fail
  have hf : KeptP s₀ fail := stageFault_kept hK
  have hd : ∀ r n, KeptV s₀ r → KeptP s₀ (done r n) := by
    intro r n h
    unfold done
    extract_lets opened probe
    have ho : ∀ t, Kept s₀ t → KeptP s₀ (opened t) := fun t ht => openStream_kept ht
    exact KeptP.ite (ho _ hK) (storeNotes_kept (Put.sent_kept (KeptU.mk (KeptP.snd (ho _ (KeptU.st h))))) h)
  clear_value done fail
  have hu : ∀ l, KeptU s₀ { s := s, accs := l } := fun l => KeptU.mk hK
  refine KeptP.ite ?_ ?_
  · split
    extract_lets p n
    refine KeptP.ite (KeptP.ite (hd _ _ (KeptV.mk ?_)) (hd _ _ (KeptV.mk ?_))) (KeptP.ite hf (KeptP.ite ?_ ?_))
    · with_reducible apply Put.write_kept; exact hu _
    · with_reducible apply putRows_kept; exact hu _
    · split
      · exact hd _ _ (KeptV.mk (KeptV.val (KeptOV.of_eq (copySegment_kept (hu _)) ‹_›)))
      · exact hf
    · split
      refine KeptP.ite hf (hd _ _ (KeptV.mk (KeptU.foldl ?_ (fun p e hp => putStray_kept hp))))
      with_reducible apply copyInto_kept; exact hu _
  · split
    refine KeptP.ite ?_ (hd _ _ (KeptV.mk ?_))
    on_goal 2 => with_reducible apply copyInto_kept; exact hu _
    split
    refine KeptP.ite (KeptP.mk (atsAsk_kept hK)) (KeptP.ite hf ?_)
    extract_lets dn p
    refine KeptP.ite (hd _ _ (KeptV.mk ?_)) (hd _ _ ?_)
    · with_reducible apply maskedStore_kept; exact hu _
    · with_reducible apply detectStore_kept; exact hu _

theorem startStr_kept {s₀ s : State} {tg : Nat} {c : Cmd} (hK : Kept s₀ s) :
    KeptP s₀ (startStr s tg c) := by
  unfold startStr
  repeat' first
    | with_reducible assumption
    | intro _
    | (extract_lets +onlyGivenNames x; first | (refine Kept.cut (s₀ := s₀) (x := x) ?_ ?_; rotate_left; intro _; clear_value x; rotate_left; unfold x; clear x) | (refine KeptP.cut (s₀ := s₀) (x := x) ?_ ?_; rotate_left; intro _; clear_value x; rotate_left; unfold x; clear x) | clear_value x | skip)
    | with_reducible apply Kept.ite
    | with_reducible apply KeptP.ite
    | (with_reducible refine KeptP.snd ?_; with_reducible assumption)
    | with_reducible exact KeptP.val ‹_›
    | with_reducible refine KeptP.snd (startSt_kept ?_)
    | with_reducible refine KeptP.snd (sumpPost_kept ?_)
    | with_reducible refine KeptP.snd (startLd_kept ?_)
    | with_reducible refine KeptP.snd (startCpy_kept ?_)
    | with_reducible apply startSt_kept
    | with_reducible apply sumpPost_kept
    | with_reducible apply startLd_kept
    | with_reducible apply startCpy_kept
    | (with_reducible refine KeptP.of_eq ?_ ‹_›)
    | split
    | with_reducible apply KeptP.mk

theorem execStreamDrained_kept {s₀ s : State} {tg : Fin 64} {ctx : Fin 16} (hK : Kept s₀ s) :
    KeptX s₀ (execStreamDrained tg ctx s) := by
  unfold execStreamDrained
  repeat' first
    | with_reducible assumption
    | intro _
    | (extract_lets +onlyGivenNames x; first | (refine Kept.cut (s₀ := s₀) (x := x) ?_ ?_; rotate_left; intro _; clear_value x; rotate_left; unfold x; clear x) | (refine KeptX.cut (s₀ := s₀) (x := x) ?_ ?_; rotate_left; intro _; clear_value x; rotate_left; unfold x; clear x) | clear_value x | skip)
    | with_reducible apply Kept.ite
    | with_reducible apply KeptX.ite
    | with_reducible apply KeptX.next
    | with_reducible exact KeptX.refused
    | with_reducible apply logUnit_kept
    | with_reducible apply freeHandles_kept
    | with_reducible apply updTerrace_kept
    | (with_reducible refine KeptX.of_eq ?_ ‹_›)
    | split

end Sys2Proof.Machine
end

