-- ==== Sys2Proof/Laws/KeptOutflow.lean ====
section
/-! SUPPORT. What the operations and meanings of Machine/Outflow.lean keep. -/

set_option linter.unreachableTactic false
set_option linter.unusedTactic false
set_option linter.unusedVariables false
set_option linter.tactic.unusedName false

namespace Sys2Proof.Machine

theorem putPart_kept {s₀  : State} {p : Put} {tg : Nat} {al : Nat} {x : Desc} {r : Nat} {row : Row} (h_p : KeptU s₀ p) :
    KeptU s₀ (putPart p tg al x r row) := by
  unfold putPart
  repeat' first
    | with_reducible assumption
    | intro _
    | (extract_lets +onlyGivenNames x; first | (refine Kept.cut (s₀ := s₀) (x := x) ?_ ?_; rotate_left; intro _; clear_value x; rotate_left; unfold x; clear x) | (refine KeptU.cut (s₀ := s₀) (x := x) ?_ ?_; rotate_left; intro _; clear_value x; rotate_left; unfold x; clear x) | clear_value x | skip)
    | with_reducible apply Kept.ite
    | with_reducible apply KeptU.ite
    | (with_reducible refine KeptU.st ?_; with_reducible assumption)
    | with_reducible refine KeptU.st (Put.write_kept ?_)
    | with_reducible apply Put.write_kept
    | with_reducible apply h_p
    | split
    | with_reducible apply KeptU.mk

theorem putGrid_kept {s₀  : State} {p : Put} {tg : Nat} {al : Nat} {x : Desc} {g : List (List REl)} (h_p : KeptU s₀ p) :
    KeptU s₀ (putGrid p tg al x g) := by
  unfold putGrid
  repeat' first
    | with_reducible assumption
    | intro _
    | (extract_lets +onlyGivenNames x; first | (refine Kept.cut (s₀ := s₀) (x := x) ?_ ?_; rotate_left; intro _; clear_value x; rotate_left; unfold x; clear x) | (refine KeptU.cut (s₀ := s₀) (x := x) ?_ ?_; rotate_left; intro _; clear_value x; rotate_left; unfold x; clear x) | clear_value x | skip)
    | with_reducible apply Kept.ite
    | with_reducible apply KeptU.ite
    | (with_reducible refine KeptU.st ?_; with_reducible assumption)
    | with_reducible refine KeptU.st (putPart_kept ?_)
    | with_reducible apply Kept.foldl
    | with_reducible apply KeptU.foldl
    | with_reducible apply putPart_kept
    | with_reducible apply h_p
    | split
    | with_reducible apply KeptU.mk

theorem notePoison_kept {s₀ s : State} {tg : Nat} {n : Nat} (hK : Kept s₀ s) :
    Kept s₀ (notePoison s tg n) := by
  unfold notePoison
  repeat' first
    | with_reducible assumption
    | intro _
    | (extract_lets +onlyGivenNames x; first | (refine Kept.cut (s₀ := s₀) (x := x) ?_ ?_; rotate_left; intro _; clear_value x; rotate_left; unfold x; clear x) | clear_value x | skip)
    | with_reducible apply Kept.ite
    | with_reducible apply ctrAdd_kept
    | with_reducible apply runPoison_kept
    | split

theorem markOpen_kept {s₀ s : State} {tg : Nat} {x : Desc} {resv : Option Nat} (hK : Kept s₀ s) :
    Kept s₀ (markOpen s tg x resv) := by
  unfold markOpen
  repeat' first
    | with_reducible assumption
    | intro _
    | (extract_lets +onlyGivenNames x; first | (refine Kept.cut (s₀ := s₀) (x := x) ?_ ?_; rotate_left; intro _; clear_value x; rotate_left; unfold x; clear x) | clear_value x | skip)
    | with_reducible apply Kept.ite
    | with_reducible apply runErr_kept
    | split

theorem outLeave_kept {s₀ s : State} {tg u : Nat} {c : Cmd} {r : Put × Bool} {bad : Nat} {resv : Option Nat} {device : Bool}
    (hK : Kept s₀ s) : Kept s₀ (outLeave s tg u c r bad resv device) := by
  unfold outLeave
  exact passOwed_kept (updTerrace_kept (notePoison_kept (settle_kept (KeptV.mk (KeptU.mk hK)))))

theorem outStore_kept {s₀ before : State} {tg u : Nat} {c : Cmd} {x : Desc} {r : Put × Bool} {bad : Nat} (hK : Kept s₀ before)
    (h_r : KeptV s₀ r) : KeptP s₀ (outStore before tg u c x r bad) := by
  unfold outStore
  extract_lets al l
  split
  · exact stageFault_kept (logUnit_kept hK)
  · refine KeptP.ite (atsAsk_kept hK) ?_
    extract_lets resv s2
    exact outLeave_kept (Kept.ite (markOpen_kept (updTerrace_kept h_r)) h_r)

theorem sendTile_kept {s₀ s : State} {tg : Nat} {c : Cmd} {base : Nat} {k : RedCtl} {tileVa : Nat} {es : List (Nat × Nat × Bool)} (hK : Kept s₀ s) :
    Kept s₀ (sendTile s tg c base k tileVa es) := by
  unfold sendTile
  repeat' first
    | with_reducible assumption
    | intro _
    | (extract_lets +onlyGivenNames x; first | (refine Kept.cut (s₀ := s₀) (x := x) ?_ ?_; rotate_left; intro _; clear_value x; rotate_left; unfold x; clear x) | (refine kept_cut_fun (s₀ := s₀) (x := x) ?_ ?_; rotate_left; intro _; clear_value x; rotate_left; unfold x; clear x) | (refine kept_cut_fun2 (s₀ := s₀) (x := x) ?_ ?_; rotate_left; intro _; clear_value x; rotate_left; unfold x; clear x) | (refine kept_cut_fun3 (s₀ := s₀) (x := x) ?_ ?_; rotate_left; intro _; clear_value x; rotate_left; unfold x; clear x) | (refine kept_cut_val (s₀ := s₀) (x := x) ?_ ?_; rotate_left; intro _; clear_value x; rotate_left; unfold x; clear x) | clear_value x | skip)
    | with_reducible apply Kept.ite
    | with_reducible apply runErr_kept
    | with_reducible apply skvSend_kept
    | with_reducible apply logXlt_kept
    | with_reducible apply satAdd_kept
    | with_reducible apply sendVc2_kept
    | with_reducible apply_assumption -exfalso -symm
    | split

theorem sendTiles_kept {s₀ s : State} {tg : Nat} {c : Cmd} {x : Desc} {k : RedCtl} {es : List (Nat × Nat × Bool)} (hK : Kept s₀ s) :
    Kept s₀ (sendTiles s tg c x k es) := by
  unfold sendTiles
  repeat' first
    | with_reducible assumption
    | intro _
    | (extract_lets +onlyGivenNames x; first | (refine Kept.cut (s₀ := s₀) (x := x) ?_ ?_; rotate_left; intro _; clear_value x; rotate_left; unfold x; clear x) | clear_value x | skip)
    | with_reducible apply Kept.ite
    | with_reducible apply Kept.foldl
    | with_reducible apply sendTile_kept
    | split

end Sys2Proof.Machine
end

