-- ==== Sys2Proof/Laws/KeptSkovuk.lean ====
section
/-! SUPPORT. What the operations and meanings of Machine/Skovuk.lean keep. -/

set_option linter.unreachableTactic false
set_option linter.unusedTactic false
set_option linter.unusedVariables false
set_option linter.tactic.unusedName false

namespace Sys2Proof.Machine

theorem setPortState_kept {s₀ s : State} {k : Nat} {st : Nat} (hK : Kept s₀ s) :
    Kept s₀ (setPortState s k st) := by
  unfold setPortState
  repeat' first
    | with_reducible assumption
    | intro _
    | (extract_lets +onlyGivenNames x; first | (refine Kept.cut (s₀ := s₀) (x := x) ?_ ?_; rotate_left; intro _; clear_value x; rotate_left; unfold x; clear x) | clear_value x | skip)
    | with_reducible apply Kept.ite
    | with_reducible apply updPort_kept
    | with_reducible apply intCause_kept
    | split

theorem resend_kept {s₀ s : State} {key : Nat} (hK : Kept s₀ s) :
    Kept s₀ (resend s key) := by
  unfold resend
  repeat' first
    | with_reducible assumption
    | intro _
    | (extract_lets +onlyGivenNames x; first | (refine Kept.cut (s₀ := s₀) (x := x) ?_ ?_; rotate_left; intro _; clear_value x; rotate_left; unfold x; clear x) | clear_value x | skip)
    | with_reducible apply Kept.ite
    | with_reducible apply Kept.foldl
    | with_reducible apply skvOut_kept
    | with_reducible apply satAdd_kept
    | split

theorem portDown_kept {s₀ s : State} {k : Nat} (hK : Kept s₀ s) :
    Kept s₀ (portDown s k) := by
  unfold portDown
  repeat' first
    | with_reducible assumption
    | intro _
    | (extract_lets +onlyGivenNames x; first | (refine Kept.cut (s₀ := s₀) (x := x) ?_ ?_; rotate_left; intro _; clear_value x; rotate_left; unfold x; clear x) | clear_value x | skip)
    | with_reducible apply Kept.ite
    | with_reducible apply Kept.foldl
    | with_reducible apply setPortState_kept
    | with_reducible apply updPort_kept
    | with_reducible apply resend_kept
    | split

theorem skvLog_kept {s₀ s : State} {k : Nat} {id : Nat} {ptype : Nat} (hK : Kept s₀ s) :
    Kept s₀ (skvLog s k id ptype) := by
  unfold skvLog
  repeat' first
    | with_reducible assumption
    | intro _
    | (extract_lets +onlyGivenNames x; first | (refine Kept.cut (s₀ := s₀) (x := x) ?_ ?_; rotate_left; intro _; clear_value x; rotate_left; unfold x; clear x) | clear_value x | skip)
    | with_reducible apply Kept.ite
    | with_reducible apply rasAppend_kept
    | split

theorem replay_kept {s₀ s : State} {k : Nat} {first : BitVec 16} (hK : Kept s₀ s) :
    Kept s₀ (replay s k first) := by
  unfold replay
  repeat' first
    | with_reducible assumption
    | intro _
    | (extract_lets +onlyGivenNames x; first | (refine Kept.cut (s₀ := s₀) (x := x) ?_ ?_; rotate_left; intro _; clear_value x; rotate_left; unfold x; clear x) | clear_value x | skip)
    | with_reducible apply Kept.ite
    | with_reducible apply Kept.foldl
    | with_reducible apply sendFlit_kept
    | with_reducible apply satAdd_kept
    | split

theorem retrain_kept {s₀ s : State} {k : Nat} (hK : Kept s₀ s) :
    Kept s₀ (retrain s k) := by
  unfold retrain
  repeat' first
    | with_reducible assumption
    | intro _
    | (extract_lets +onlyGivenNames x; first | (refine Kept.cut (s₀ := s₀) (x := x) ?_ ?_; rotate_left; intro _; clear_value x; rotate_left; unfold x; clear x) | clear_value x | skip)
    | with_reducible apply Kept.ite
    | with_reducible apply setPortState_kept
    | with_reducible apply updPort_kept
    | split

theorem execSkvPortTrained_kept {s₀ s : State} {port : Fin 8} {mask : Byte} {mgr : Bool} {partner : BitVec 14} {rtt : Nat} (hK : Kept s₀ s) :
    KeptX s₀ (execSkvPortTrained port mask mgr partner rtt s) := by
  unfold execSkvPortTrained
  repeat' first
    | with_reducible assumption
    | intro _
    | (extract_lets +onlyGivenNames x; first | (refine Kept.cut (s₀ := s₀) (x := x) ?_ ?_; rotate_left; intro _; clear_value x; rotate_left; unfold x; clear x) | (refine KeptX.cut (s₀ := s₀) (x := x) ?_ ?_; rotate_left; intro _; clear_value x; rotate_left; unfold x; clear x) | clear_value x | skip)
    | with_reducible apply Kept.ite
    | with_reducible apply KeptX.ite
    | with_reducible apply KeptX.next
    | with_reducible exact KeptX.refused
    | with_reducible apply replay_kept
    | with_reducible apply setPortState_kept
    | with_reducible apply updPort_kept
    | with_reducible apply portDown_kept
    | with_reducible apply skvLog_kept
    | with_reducible apply drainPort_kept
    | with_reducible apply emit_kept
    | (with_reducible refine KeptX.of_eq ?_ ‹_›)
    | split

theorem execSkvLaneRemove_kept {s₀ s : State} {port : Fin 8} {lane : Fin 8} (hK : Kept s₀ s) :
    KeptX s₀ (execSkvLaneRemove port lane s) := by
  unfold execSkvLaneRemove
  repeat' first
    | with_reducible assumption
    | intro _
    | (extract_lets +onlyGivenNames x; first | (refine Kept.cut (s₀ := s₀) (x := x) ?_ ?_; rotate_left; intro _; clear_value x; rotate_left; unfold x; clear x) | (refine KeptX.cut (s₀ := s₀) (x := x) ?_ ?_; rotate_left; intro _; clear_value x; rotate_left; unfold x; clear x) | clear_value x | skip)
    | with_reducible apply Kept.ite
    | with_reducible apply KeptX.ite
    | with_reducible apply KeptX.next
    | with_reducible exact KeptX.refused
    | with_reducible apply setPortState_kept
    | with_reducible apply updPort_kept
    | with_reducible apply portDown_kept
    | with_reducible apply satAdd_kept
    | (with_reducible refine KeptX.of_eq ?_ ‹_›)
    | split

theorem ackFlits_kept {s₀ s : State} {k : Nat} {ack : BitVec 16} (hK : Kept s₀ s) :
    Kept s₀ (ackFlits s k ack) := by
  unfold ackFlits
  repeat' first
    | with_reducible assumption
    | intro _
    | (extract_lets +onlyGivenNames x; first | (refine Kept.cut (s₀ := s₀) (x := x) ?_ ?_; rotate_left; intro _; clear_value x; rotate_left; unfold x; clear x) | clear_value x | skip)
    | with_reducible apply Kept.ite
    | with_reducible apply updPort_kept
    | split

theorem requestReplay_kept {s₀ s : State} {k : Nat} (hK : Kept s₀ s) :
    Kept s₀ (requestReplay s k) := by
  unfold requestReplay
  repeat' first
    | with_reducible assumption
    | intro _
    | (extract_lets +onlyGivenNames x; first | (refine Kept.cut (s₀ := s₀) (x := x) ?_ ?_; rotate_left; intro _; clear_value x; rotate_left; unfold x; clear x) | clear_value x | skip)
    | with_reducible apply Kept.ite
    | with_reducible apply updPort_kept
    | with_reducible apply sendBare_kept
    | split

theorem askReplay_kept {s₀ s : State} {k : Nat} (hK : Kept s₀ s) :
    Kept s₀ (askReplay s k) := by
  unfold askReplay
  repeat' first
    | with_reducible assumption
    | intro _
    | (extract_lets +onlyGivenNames x; first | (refine Kept.cut (s₀ := s₀) (x := x) ?_ ?_; rotate_left; intro _; clear_value x; rotate_left; unfold x; clear x) | clear_value x | skip)
    | with_reducible apply Kept.ite
    | with_reducible apply requestReplay_kept
    | split

theorem onReplay_kept {s₀ s : State} {k : Nat} {lseq : BitVec 16} (hK : Kept s₀ s) :
    Kept s₀ (onReplay s k lseq) := by
  unfold onReplay
  repeat' first
    | with_reducible assumption
    | intro _
    | (extract_lets +onlyGivenNames x; first | (refine Kept.cut (s₀ := s₀) (x := x) ?_ ?_; rotate_left; intro _; clear_value x; rotate_left; unfold x; clear x) | clear_value x | skip)
    | with_reducible apply Kept.ite
    | with_reducible apply replay_kept
    | with_reducible apply ackFlits_kept
    | with_reducible apply updPort_kept
    | with_reducible apply retrain_kept
    | split

theorem returnCredits_kept {s₀ s : State} {k : Nat} (hK : Kept s₀ s) :
    Kept s₀ (returnCredits s k) := by
  unfold returnCredits
  repeat' first
    | with_reducible assumption
    | intro _
    | (extract_lets +onlyGivenNames x; first | (refine Kept.cut (s₀ := s₀) (x := x) ?_ ?_; rotate_left; intro _; clear_value x; rotate_left; unfold x; clear x) | clear_value x | skip)
    | with_reducible apply Kept.ite
    | with_reducible apply sendBare_kept
    | split

theorem takeFlit_kept {s₀ s : State} {k : Nat} {f : Flit} (hK : Kept s₀ s) :
    Kept s₀ (takeFlit s k f) := by
  unfold takeFlit
  repeat' first
    | with_reducible assumption
    | intro _
    | (extract_lets +onlyGivenNames x; first | (refine Kept.cut (s₀ := s₀) (x := x) ?_ ?_; rotate_left; intro _; clear_value x; rotate_left; unfold x; clear x) | clear_value x | skip)
    | with_reducible apply Kept.ite
    | with_reducible apply ackFlits_kept
    | with_reducible apply updPort_kept
    | with_reducible apply onReplay_kept
    | with_reducible apply askReplay_kept
    | split

theorem execSkvFlitReceive_kept {s₀ s : State} {port : Fin 8} {f : Flit} (hK : Kept s₀ s) :
    KeptX s₀ (execSkvFlitReceive port f s) := by
  unfold execSkvFlitReceive
  repeat' first
    | with_reducible assumption
    | intro _
    | (extract_lets +onlyGivenNames x; first | (refine Kept.cut (s₀ := s₀) (x := x) ?_ ?_; rotate_left; intro _; clear_value x; rotate_left; unfold x; clear x) | (refine KeptX.cut (s₀ := s₀) (x := x) ?_ ?_; rotate_left; intro _; clear_value x; rotate_left; unfold x; clear x) | clear_value x | skip)
    | with_reducible apply Kept.ite
    | with_reducible apply KeptX.ite
    | with_reducible apply KeptX.next
    | with_reducible exact KeptX.refused
    | with_reducible apply takeFlit_kept
    | with_reducible apply requestReplay_kept
    | with_reducible apply drainPort_kept
    | with_reducible apply returnCredits_kept
    | (with_reducible refine KeptX.of_eq ?_ ‹_›)
    | split

theorem execSkvReplayRequest_kept {s₀ s : State} {port : Fin 8} {lseq : BitVec 16} (hK : Kept s₀ s) :
    KeptX s₀ (execSkvReplayRequest port lseq s) := by
  unfold execSkvReplayRequest
  repeat' first
    | with_reducible assumption
    | intro _
    | (extract_lets +onlyGivenNames x; first | (refine Kept.cut (s₀ := s₀) (x := x) ?_ ?_; rotate_left; intro _; clear_value x; rotate_left; unfold x; clear x) | (refine KeptX.cut (s₀ := s₀) (x := x) ?_ ?_; rotate_left; intro _; clear_value x; rotate_left; unfold x; clear x) | clear_value x | skip)
    | with_reducible apply Kept.ite
    | with_reducible apply KeptX.ite
    | with_reducible apply KeptX.next
    | with_reducible exact KeptX.refused
    | with_reducible apply onReplay_kept
    | (with_reducible refine KeptX.of_eq ?_ ‹_›)
    | split

theorem execSkvLinkAckTimeout_kept {s₀ s : State} {port : Fin 8} (hK : Kept s₀ s) :
    KeptX s₀ (execSkvLinkAckTimeout port s) := by
  unfold execSkvLinkAckTimeout
  repeat' first
    | with_reducible assumption
    | intro _
    | (extract_lets +onlyGivenNames x; first | (refine Kept.cut (s₀ := s₀) (x := x) ?_ ?_; rotate_left; intro _; clear_value x; rotate_left; unfold x; clear x) | (refine KeptX.cut (s₀ := s₀) (x := x) ?_ ?_; rotate_left; intro _; clear_value x; rotate_left; unfold x; clear x) | clear_value x | skip)
    | with_reducible apply Kept.ite
    | with_reducible apply KeptX.ite
    | with_reducible apply KeptX.next
    | with_reducible exact KeptX.refused
    | with_reducible apply retrain_kept
    | (with_reducible refine KeptX.of_eq ?_ ‹_›)
    | split

theorem transit_kept {s₀ s : State} {p : SkvPacket} (hK : Kept s₀ s) :
    Kept s₀ (transit s p) := by
  unfold transit
  repeat' first
    | with_reducible assumption
    | intro _
    | (extract_lets +onlyGivenNames x; first | (refine Kept.cut (s₀ := s₀) (x := x) ?_ ?_; rotate_left; intro _; clear_value x; rotate_left; unfold x; clear x) | clear_value x | skip)
    | with_reducible apply Kept.ite
    | with_reducible apply skvOut_kept
    | with_reducible apply skvLog_kept
    | split

theorem execSkvTransit_kept {s₀ s : State} {p : SkvPacket} (hK : Kept s₀ s) :
    KeptX s₀ (execSkvTransit p s) := by
  unfold execSkvTransit
  repeat' first
    | with_reducible assumption
    | intro _
    | (extract_lets +onlyGivenNames x; first | (refine Kept.cut (s₀ := s₀) (x := x) ?_ ?_; rotate_left; intro _; clear_value x; rotate_left; unfold x; clear x) | (refine KeptX.cut (s₀ := s₀) (x := x) ?_ ?_; rotate_left; intro _; clear_value x; rotate_left; unfold x; clear x) | clear_value x | skip)
    | with_reducible apply Kept.ite
    | with_reducible apply KeptX.ite
    | with_reducible apply KeptX.next
    | with_reducible exact KeptX.refused
    | with_reducible apply transit_kept
    | with_reducible apply skvLog_kept
    | (with_reducible refine KeptX.of_eq ?_ ‹_›)
    | split

theorem sendEack_kept {s₀ s : State} {p : SkvPacket} (hK : Kept s₀ s) :
    Kept s₀ (sendEack s p) := by
  unfold sendEack
  repeat' first
    | with_reducible assumption
    | intro _
    | (extract_lets +onlyGivenNames x; first | (refine Kept.cut (s₀ := s₀) (x := x) ?_ ?_; rotate_left; intro _; clear_value x; rotate_left; unfold x; clear x) | clear_value x | skip)
    | with_reducible apply Kept.ite
    | with_reducible apply skvOut_kept
    | split

theorem inbound_kept {s₀ s : State} {ptype : Nat} {p : SkvPacket} {k : State → State} (hK : Kept s₀ s) (h_k : ∀ x0, Kept s₀ x0 → Kept s₀ (k x0)) :
    KeptX s₀ (inbound ptype p s k) := by
  unfold inbound
  repeat' first
    | with_reducible assumption
    | intro _
    | (extract_lets +onlyGivenNames x; first | (refine Kept.cut (s₀ := s₀) (x := x) ?_ ?_; rotate_left; intro _; clear_value x; rotate_left; unfold x; clear x) | (refine KeptX.cut (s₀ := s₀) (x := x) ?_ ?_; rotate_left; intro _; clear_value x; rotate_left; unfold x; clear x) | clear_value x | skip)
    | with_reducible apply Kept.ite
    | with_reducible apply KeptX.ite
    | with_reducible apply KeptX.next
    | with_reducible exact KeptX.refused
    | with_reducible apply transit_kept
    | with_reducible apply sendEack_kept
    | with_reducible apply updE2e_kept
    | with_reducible apply skvLog_kept
    | with_reducible apply satAdd_kept
    | (with_reducible refine KeptX.of_eq ?_ ‹_›)
    | with_reducible apply h_k
    | split

theorem refusePeer_kept {s₀ s : State} {p : SkvPacket} (hK : Kept s₀ s) :
    Kept s₀ (refusePeer s p) := by
  unfold refusePeer
  repeat' first
    | with_reducible assumption
    | intro _
    | (extract_lets +onlyGivenNames x; first | (refine Kept.cut (s₀ := s₀) (x := x) ?_ ?_; rotate_left; intro _; clear_value x; rotate_left; unfold x; clear x) | clear_value x | skip)
    | with_reducible apply Kept.ite
    | with_reducible apply rasAppend_kept
    | with_reducible apply satAdd_kept
    | split

theorem servePeer_kept {s₀ s : State} {owner : Nat} {p : SkvPacket} (hK : Kept s₀ s) :
    Kept s₀ (servePeer s owner p) := by
  unfold servePeer
  repeat' first
    | with_reducible assumption
    | intro _
    | (extract_lets +onlyGivenNames x; first | (refine Kept.cut (s₀ := s₀) (x := x) ?_ ?_; rotate_left; intro _; clear_value x; rotate_left; unfold x; clear x) | (refine KeptP.cut (s₀ := s₀) (x := x) ?_ ?_; rotate_left; intro _; clear_value x; rotate_left; unfold x; clear x) | clear_value x | skip)
    | with_reducible apply Kept.ite
    | with_reducible apply KeptP.ite
    | (with_reducible refine KeptP.snd ?_; with_reducible assumption)
    | with_reducible exact KeptP.val ‹_›
    | with_reducible refine KeptP.snd (saddlePass_kept ?_)
    | with_reducible apply saddlePass_kept
    | with_reducible apply skvSend_kept
    | with_reducible apply dpaWrite_kept
    | (with_reducible refine KeptP.of_eq ?_ ‹_›)
    | split
    | with_reducible apply KeptP.mk

theorem takePeer_kept {s₀ s : State} {owner : Nat} {p : SkvPacket} (hK : Kept s₀ s) :
    Kept s₀ (takePeer s owner p) := by
  unfold takePeer
  repeat' first
    | with_reducible assumption
    | intro _
    | (extract_lets +onlyGivenNames x; first | (refine Kept.cut (s₀ := s₀) (x := x) ?_ ?_; rotate_left; intro _; clear_value x; rotate_left; unfold x; clear x) | clear_value x | skip)
    | with_reducible apply Kept.ite
    | with_reducible apply servePeer_kept
    | with_reducible apply updSaddle_kept
    | split

theorem execRead_kept {s₀ s : State} {p : SkvPacket} (hK : Kept s₀ s) :
    KeptX s₀ (execRead p s) := by
  unfold execRead
  repeat' first
    | with_reducible assumption
    | intro _
    | (extract_lets +onlyGivenNames x; first | (refine Kept.cut (s₀ := s₀) (x := x) ?_ ?_; rotate_left; intro _; clear_value x; rotate_left; unfold x; clear x) | (refine KeptX.cut (s₀ := s₀) (x := x) ?_ ?_; rotate_left; intro _; clear_value x; rotate_left; unfold x; clear x) | clear_value x | skip)
    | with_reducible apply Kept.ite
    | with_reducible apply KeptX.ite
    | with_reducible apply KeptX.next
    | with_reducible exact KeptX.refused
    | with_reducible apply inbound_kept
    | with_reducible apply skvSend_kept
    | with_reducible apply takePeer_kept
    | with_reducible apply refusePeer_kept
    | (with_reducible refine KeptX.of_eq ?_ ‹_›)
    | split

theorem execWrite_kept {s₀ s : State} {p : SkvPacket} (hK : Kept s₀ s) :
    KeptX s₀ (execWrite p s) := by
  unfold execWrite
  repeat' first
    | with_reducible assumption
    | intro _
    | (extract_lets +onlyGivenNames x; first | (refine Kept.cut (s₀ := s₀) (x := x) ?_ ?_; rotate_left; intro _; clear_value x; rotate_left; unfold x; clear x) | (refine KeptX.cut (s₀ := s₀) (x := x) ?_ ?_; rotate_left; intro _; clear_value x; rotate_left; unfold x; clear x) | clear_value x | skip)
    | with_reducible apply Kept.ite
    | with_reducible apply KeptX.ite
    | with_reducible apply KeptX.next
    | with_reducible exact KeptX.refused
    | with_reducible apply inbound_kept
    | with_reducible apply skvSend_kept
    | with_reducible apply takePeer_kept
    | with_reducible apply refusePeer_kept
    | (with_reducible refine KeptX.of_eq ?_ ‹_›)
    | split

theorem execContrib_kept {s₀ s : State} {p : SkvPacket} (hK : Kept s₀ s) :
    KeptX s₀ (execContrib p s) := by
  unfold execContrib
  repeat' first
    | with_reducible assumption
    | intro _
    | (extract_lets +onlyGivenNames x; first | (refine Kept.cut (s₀ := s₀) (x := x) ?_ ?_; rotate_left; intro _; clear_value x; rotate_left; unfold x; clear x) | (refine KeptX.cut (s₀ := s₀) (x := x) ?_ ?_; rotate_left; intro _; clear_value x; rotate_left; unfold x; clear x) | clear_value x | skip)
    | with_reducible apply Kept.ite
    | with_reducible apply KeptX.ite
    | with_reducible apply KeptX.next
    | with_reducible exact KeptX.refused
    | with_reducible apply inbound_kept
    | with_reducible apply refusePeer_kept
    | with_reducible apply sendVc2_kept
    | (with_reducible refine KeptX.of_eq ?_ ‹_›)
    | split

theorem reqFault_kept {s₀ s : State} {q : SkvReq} (hK : Kept s₀ s) :
    Kept s₀ (reqFault s q) := by
  unfold reqFault
  repeat' first
    | with_reducible assumption
    | intro _
    | (extract_lets +onlyGivenNames x; first | (refine Kept.cut (s₀ := s₀) (x := x) ?_ ?_; rotate_left; intro _; clear_value x; rotate_left; unfold x; clear x) | clear_value x | skip)
    | with_reducible apply Kept.ite
    | with_reducible apply logXlt_kept
    | with_reducible apply Cb.wr_kept
    | split

theorem reqData_kept {s₀ s : State} {q : SkvReq} {bs : List PByte} (hK : Kept s₀ s) : Kept s₀ (reqData s q bs) := by
  unfold reqData
  exact Kept.ite (set_got (set_peer hK (fun hm => Mem.write_wf _ _ _ hm))) hK

theorem execRdata_kept {s₀ s : State} {p : SkvPacket} (hK : Kept s₀ s) :
    KeptX s₀ (execRdata p s) := by
  unfold execRdata
  repeat' first
    | with_reducible assumption
    | intro _
    | (extract_lets +onlyGivenNames x; first | (refine Kept.cut (s₀ := s₀) (x := x) ?_ ?_; rotate_left; intro _; clear_value x; rotate_left; unfold x; clear x) | (refine KeptX.cut (s₀ := s₀) (x := x) ?_ ?_; rotate_left; intro _; clear_value x; rotate_left; unfold x; clear x) | clear_value x | skip)
    | with_reducible apply Kept.ite
    | with_reducible apply KeptX.ite
    | with_reducible apply KeptX.next
    | with_reducible exact KeptX.refused
    | with_reducible apply reqData_kept
    | with_reducible apply inbound_kept
    | with_reducible apply retryStarts_kept
    | with_reducible apply retryStores_kept
    | with_reducible apply reqFault_kept
    | (with_reducible refine set_skvReqs ?_; with_reducible assumption)
    | (with_reducible refine KeptX.of_eq ?_ ‹_›)
    | split

theorem execWack_kept {s₀ s : State} {p : SkvPacket} (hK : Kept s₀ s) :
    KeptX s₀ (execWack p s) := by
  unfold execWack
  repeat' first
    | with_reducible assumption
    | intro _
    | (extract_lets +onlyGivenNames x; first | (refine Kept.cut (s₀ := s₀) (x := x) ?_ ?_; rotate_left; intro _; clear_value x; rotate_left; unfold x; clear x) | (refine KeptX.cut (s₀ := s₀) (x := x) ?_ ?_; rotate_left; intro _; clear_value x; rotate_left; unfold x; clear x) | clear_value x | skip)
    | with_reducible apply Kept.ite
    | with_reducible apply KeptX.ite
    | with_reducible apply KeptX.next
    | with_reducible exact KeptX.refused
    | with_reducible apply inbound_kept
    | with_reducible apply retryStores_kept
    | with_reducible apply reqFault_kept
    | (with_reducible refine set_skvReqs ?_; with_reducible assumption)
    | (with_reducible refine KeptX.of_eq ?_ ‹_›)
    | split

theorem execEack_kept {s₀ s : State} {p : SkvPacket} (hK : Kept s₀ s) :
    KeptX s₀ (execEack p s) := by
  unfold execEack
  repeat' first
    | with_reducible assumption
    | intro _
    | (extract_lets +onlyGivenNames x; first | (refine Kept.cut (s₀ := s₀) (x := x) ?_ ?_; rotate_left; intro _; clear_value x; rotate_left; unfold x; clear x) | (refine KeptX.cut (s₀ := s₀) (x := x) ?_ ?_; rotate_left; intro _; clear_value x; rotate_left; unfold x; clear x) | clear_value x | skip)
    | with_reducible apply Kept.ite
    | with_reducible apply KeptX.ite
    | with_reducible apply KeptX.next
    | with_reducible exact KeptX.refused
    | with_reducible apply transit_kept
    | with_reducible apply updE2e_kept
    | with_reducible apply skvRetry_kept
    | with_reducible apply skvLog_kept
    | (with_reducible refine KeptX.of_eq ?_ ‹_›)
    | split

theorem execMgmt_kept {s₀ s : State} {p : SkvPacket} (hK : Kept s₀ s) :
    KeptX s₀ (execMgmt p s) := by
  unfold execMgmt
  repeat' first
    | with_reducible assumption
    | intro _
    | (extract_lets +onlyGivenNames x; first | (refine Kept.cut (s₀ := s₀) (x := x) ?_ ?_; rotate_left; intro _; clear_value x; rotate_left; unfold x; clear x) | (refine KeptX.cut (s₀ := s₀) (x := x) ?_ ?_; rotate_left; intro _; clear_value x; rotate_left; unfold x; clear x) | clear_value x | skip)
    | with_reducible apply Kept.ite
    | with_reducible apply KeptX.ite
    | with_reducible apply KeptX.next
    | with_reducible exact KeptX.refused
    | with_reducible apply inbound_kept
    | (with_reducible refine set_mgmtIn ?_; with_reducible assumption)
    | (with_reducible refine KeptX.of_eq ?_ ‹_›)
    | split

theorem execSkvE2eTimeout_kept {s₀ s : State} {mgr : Bool} {dest : BitVec 14} {ch : Fin 4} (hK : Kept s₀ s) :
    KeptX s₀ (execSkvE2eTimeout mgr dest ch s) := by
  unfold execSkvE2eTimeout
  repeat' first
    | with_reducible assumption
    | intro _
    | (extract_lets +onlyGivenNames x; first | (refine Kept.cut (s₀ := s₀) (x := x) ?_ ?_; rotate_left; intro _; clear_value x; rotate_left; unfold x; clear x) | (refine KeptX.cut (s₀ := s₀) (x := x) ?_ ?_; rotate_left; intro _; clear_value x; rotate_left; unfold x; clear x) | clear_value x | skip)
    | with_reducible apply Kept.ite
    | with_reducible apply KeptX.ite
    | with_reducible apply KeptX.next
    | with_reducible exact KeptX.refused
    | with_reducible apply resend_kept
    | (with_reducible refine KeptX.of_eq ?_ ‹_›)
    | split

theorem contribLost_kept {s₀ s : State} {origin : Option Origin} {p : SkvPacket} (hK : Kept s₀ s) :
    Kept s₀ (contribLost s origin p) := by
  unfold contribLost
  repeat' first
    | with_reducible assumption
    | intro _
    | (extract_lets +onlyGivenNames x; first | (refine Kept.cut (s₀ := s₀) (x := x) ?_ ?_; rotate_left; intro _; clear_value x; rotate_left; unfold x; clear x) | clear_value x | skip)
    | with_reducible apply Kept.ite
    | with_reducible apply logXlt_kept
    | split

theorem execSkvDestUnreachable_kept {s₀ s : State} {mgr : Bool} {dest : BitVec 14} (hK : Kept s₀ s) :
    KeptX s₀ (execSkvDestUnreachable mgr dest s) := by
  unfold execSkvDestUnreachable
  repeat' first
    | with_reducible assumption
    | intro _
    | (extract_lets +onlyGivenNames x; first | (refine Kept.cut (s₀ := s₀) (x := x) ?_ ?_; rotate_left; intro _; clear_value x; rotate_left; unfold x; clear x) | (refine KeptX.cut (s₀ := s₀) (x := x) ?_ ?_; rotate_left; intro _; clear_value x; rotate_left; unfold x; clear x) | clear_value x | skip)
    | with_reducible apply Kept.ite
    | with_reducible apply KeptX.ite
    | with_reducible apply KeptX.next
    | with_reducible exact KeptX.refused
    | with_reducible apply Kept.foldl
    | with_reducible apply rasAppend_kept
    | with_reducible apply reqData_kept
    | with_reducible apply skvRetry_kept
    | with_reducible apply contribLost_kept
    | with_reducible apply retryStarts_kept
    | with_reducible apply retryStores_kept
    | with_reducible apply reqFault_kept
    | with_reducible apply Cb.wr_kept
    | (with_reducible refine set_e2e_skvWait_skv ?_; with_reducible assumption)
    | (with_reducible refine set_skvReqs ?_; with_reducible assumption)
    | (with_reducible refine KeptX.of_eq ?_ ‹_›)
    | split

theorem execSkvRteWrite_kept {s₀ s : State} {r : Requester} {v : W32} (hK : Kept s₀ s) :
    KeptX s₀ (execSkvRteWrite r v s) := by
  unfold execSkvRteWrite
  repeat' first
    | with_reducible assumption
    | intro _
    | (extract_lets +onlyGivenNames x; first | (refine Kept.cut (s₀ := s₀) (x := x) ?_ ?_; rotate_left; intro _; clear_value x; rotate_left; unfold x; clear x) | (refine KeptX.cut (s₀ := s₀) (x := x) ?_ ?_; rotate_left; intro _; clear_value x; rotate_left; unfold x; clear x) | clear_value x | skip)
    | with_reducible apply Kept.ite
    | with_reducible apply KeptX.ite
    | with_reducible apply KeptX.next
    | with_reducible exact KeptX.refused
    | with_reducible apply pfWrite_kept
    | with_reducible apply logDropped_kept
    | (with_reducible refine set_rte ?_; with_reducible assumption)
    | (with_reducible refine KeptX.of_eq ?_ ‹_›)
    | split

theorem execSkvWinWrite_kept {s₀ s : State} {r : Requester} {reg : Fin 4} {v : W32} (hK : Kept s₀ s) :
    KeptX s₀ (execSkvWinWrite r reg v s) := by
  unfold execSkvWinWrite
  repeat' first
    | with_reducible assumption
    | intro _
    | (extract_lets +onlyGivenNames x; first | (refine Kept.cut (s₀ := s₀) (x := x) ?_ ?_; rotate_left; intro _; clear_value x; rotate_left; unfold x; clear x) | (refine KeptX.cut (s₀ := s₀) (x := x) ?_ ?_; rotate_left; intro _; clear_value x; rotate_left; unfold x; clear x) | clear_value x | skip)
    | with_reducible apply Kept.ite
    | with_reducible apply KeptX.ite
    | with_reducible apply KeptX.next
    | with_reducible exact KeptX.refused
    | with_reducible apply pfWrite_kept
    | (with_reducible refine set_win ?_; with_reducible assumption)
    | (with_reducible refine KeptX.of_eq ?_ ‹_›)
    | split

end Sys2Proof.Machine
end

