-- ==== Sys2Proof/Laws/KeptGuarantee.lean ====
section
/-! SUPPORT. What the operations and meanings of Machine/Guarantee.lean keep. -/

set_option linter.unreachableTactic false
set_option linter.unusedTactic false
set_option linter.unusedVariables false
set_option linter.tactic.unusedName false

namespace Sys2Proof.Machine

theorem countReplays_kept {s₀ s : State} {hd : Nat} {n : Nat} (hK : Kept s₀ s) :
    Kept s₀ (countReplays s hd n) := by
  unfold countReplays
  repeat' first
    | with_reducible assumption
    | intro _
    | (extract_lets +onlyGivenNames x; first | (refine Kept.cut (s₀ := s₀) (x := x) ?_ ?_; rotate_left; intro _; clear_value x; rotate_left; unfold x; clear x) | clear_value x | skip)
    | with_reducible apply Kept.ite
    | with_reducible apply satAdd_kept
    | split

theorem holdStep_kept {s₀ s : State} {st : JStep} (hK : Kept s₀ s) :
    Kept s₀ (holdStep s st) := by
  unfold holdStep
  repeat' first
    | with_reducible assumption
    | intro _
    | (extract_lets +onlyGivenNames x; first | (refine Kept.cut (s₀ := s₀) (x := x) ?_ ?_; rotate_left; intro _; clear_value x; rotate_left; unfold x; clear x) | clear_value x | skip)
    | with_reducible apply Kept.ite
    | with_reducible apply countReplays_kept
    | (with_reducible refine set_jrn1 ?_; with_reducible assumption)
    | split

theorem stepEffect_kept {s₀ s : State} {y0 : Effect} (hK : Kept s₀ s) :
    Kept s₀ (stepEffect s y0) := by
  unfold stepEffect
  repeat' first
    | with_reducible assumption
    | intro _
    | (extract_lets +onlyGivenNames x; first | (refine Kept.cut (s₀ := s₀) (x := x) ?_ ?_; rotate_left; intro _; clear_value x; rotate_left; unfold x; clear x) | clear_value x | skip)
    | with_reducible apply Kept.ite
    | with_reducible apply replay_kept
    | with_reducible apply updQue_kept
    | with_reducible apply journalFull_kept
    | with_reducible apply commitCopies_kept
    | with_reducible apply gaugePost_kept
    | with_reducible apply startItem_kept
    | with_reducible apply sendCompl_kept
    | split

theorem completeStep_kept {s₀ s : State}  (hK : Kept s₀ s) :
    Kept s₀ (completeStep s) := by
  unfold completeStep
  repeat' first
    | with_reducible assumption
    | intro _
    | (extract_lets +onlyGivenNames x; first | (refine Kept.cut (s₀ := s₀) (x := x) ?_ ?_; rotate_left; intro _; clear_value x; rotate_left; unfold x; clear x) | clear_value x | skip)
    | with_reducible apply Kept.ite
    | with_reducible apply holdStep_kept
    | with_reducible apply stepEffect_kept
    | (with_reducible refine set_jsteps ?_; with_reducible assumption)
    | split

theorem execJournalStepComplete_kept {s₀ s : State}  (hK : Kept s₀ s) :
    KeptX s₀ (execJournalStepComplete s) := by
  unfold execJournalStepComplete
  repeat' first
    | with_reducible assumption
    | intro _
    | (extract_lets +onlyGivenNames x; first | (refine Kept.cut (s₀ := s₀) (x := x) ?_ ?_; rotate_left; intro _; clear_value x; rotate_left; unfold x; clear x) | (refine KeptX.cut (s₀ := s₀) (x := x) ?_ ?_; rotate_left; intro _; clear_value x; rotate_left; unfold x; clear x) | clear_value x | skip)
    | with_reducible apply Kept.ite
    | with_reducible apply KeptX.ite
    | with_reducible apply KeptX.next
    | with_reducible exact KeptX.refused
    | with_reducible apply completeStep_kept
    | (with_reducible refine KeptX.of_eq ?_ ‹_›)
    | split

theorem recordStep_kept {s₀ s : State} {r : RetRec} {n : Nat} (hK : Kept s₀ s) :
    Kept s₀ (recordStep s r n) := by
  unfold recordStep
  repeat' first
    | with_reducible assumption
    | intro _
    | (extract_lets +onlyGivenNames x; first | (refine Kept.cut (s₀ := s₀) (x := x) ?_ ?_; rotate_left; intro _; clear_value x; rotate_left; unfold x; clear x) | clear_value x | skip)
    | with_reducible apply Kept.ite
    | with_reducible apply request_kept
    | split

theorem execRetirementStart_kept {s₀ s : State}  (hK : Kept s₀ s) :
    KeptX s₀ (execRetirementStart s) := by
  unfold execRetirementStart
  repeat' first
    | with_reducible assumption
    | intro _
    | (extract_lets +onlyGivenNames x; first | (refine Kept.cut (s₀ := s₀) (x := x) ?_ ?_; rotate_left; intro _; clear_value x; rotate_left; unfold x; clear x) | (refine KeptX.cut (s₀ := s₀) (x := x) ?_ ?_; rotate_left; intro _; clear_value x; rotate_left; unfold x; clear x) | clear_value x | skip)
    | with_reducible apply Kept.ite
    | with_reducible apply KeptX.ite
    | with_reducible apply KeptX.next
    | with_reducible exact KeptX.refused
    | with_reducible apply Kept.foldl
    | with_reducible apply updTerrace_kept
    | with_reducible apply recordStep_kept
    | (with_reducible refine set_retQ ?_; with_reducible assumption)
    | (with_reducible refine KeptX.of_eq ?_ ‹_›)
    | split

theorem evacEntry_kept {s₀ s : State} {tg : Nat} {e : Resid} (hK : Kept s₀ s) :
    Kept s₀ (evacEntry s tg e) := by
  unfold evacEntry
  repeat' first
    | with_reducible assumption
    | intro _
    | (extract_lets +onlyGivenNames x; first | (refine Kept.cut (s₀ := s₀) (x := x) ?_ ?_; rotate_left; intro _; clear_value x; rotate_left; unfold x; clear x) | clear_value x | skip)
    | with_reducible apply Kept.ite
    | with_reducible apply updTerrace_kept
    | split

theorem evacuate_kept {s₀ s : State} {tg : Nat} (hK : Kept s₀ s) :
    Kept s₀ (evacuate s tg) := by
  unfold evacuate
  repeat' first
    | with_reducible assumption
    | intro _
    | (extract_lets +onlyGivenNames x; first | (refine Kept.cut (s₀ := s₀) (x := x) ?_ ?_; rotate_left; intro _; clear_value x; rotate_left; unfold x; clear x) | clear_value x | skip)
    | with_reducible apply Kept.ite
    | with_reducible apply Kept.foldl
    | with_reducible apply evacEntry_kept
    | with_reducible apply updTerrace_kept
    | split

theorem closeRetirement_kept {s₀ s : State} {r : RetRec} (hK : Kept s₀ s) :
    Kept s₀ (closeRetirement s r) := by
  unfold closeRetirement
  repeat' first
    | with_reducible assumption
    | intro _
    | (extract_lets +onlyGivenNames x; first | (refine Kept.cut (s₀ := s₀) (x := x) ?_ ?_; rotate_left; intro _; clear_value x; rotate_left; unfold x; clear x) | clear_value x | skip)
    | with_reducible apply Kept.ite
    | with_reducible apply Kept.foldl
    | with_reducible apply rasAppend_kept
    | with_reducible apply updTerrace_kept
    | with_reducible apply intCause_kept
    | split

theorem retireStep_kept {s₀ s : State} {r : RetRec} {n : Nat} (hK : Kept s₀ s) :
    Kept s₀ (retireStep s r n) := by
  unfold retireStep
  repeat' first
    | with_reducible assumption
    | intro _
    | (extract_lets +onlyGivenNames x; first | (refine Kept.cut (s₀ := s₀) (x := x) ?_ ?_; rotate_left; intro _; clear_value x; rotate_left; unfold x; clear x) | (refine kept_cut_fun (s₀ := s₀) (x := x) ?_ ?_; rotate_left; intro _; clear_value x; rotate_left; unfold x; clear x) | (refine kept_cut_fun2 (s₀ := s₀) (x := x) ?_ ?_; rotate_left; intro _; clear_value x; rotate_left; unfold x; clear x) | (refine kept_cut_fun3 (s₀ := s₀) (x := x) ?_ ?_; rotate_left; intro _; clear_value x; rotate_left; unfold x; clear x) | (refine kept_cut_val (s₀ := s₀) (x := x) ?_ ?_; rotate_left; intro _; clear_value x; rotate_left; unfold x; clear x) | clear_value x | skip)
    | with_reducible apply Kept.ite
    | with_reducible apply Kept.foldl
    | with_reducible apply replayItem_kept
    | with_reducible apply closeRetirement_kept
    | with_reducible apply evacuate_kept
    | with_reducible apply updTerrace_kept
    | with_reducible apply_assumption -exfalso -symm
    | split

theorem execRetirementStepDone_kept {s₀ s : State}  (hK : Kept s₀ s) :
    KeptX s₀ (execRetirementStepDone s) := by
  unfold execRetirementStepDone
  repeat' first
    | with_reducible assumption
    | intro _
    | (extract_lets +onlyGivenNames x; first | (refine Kept.cut (s₀ := s₀) (x := x) ?_ ?_; rotate_left; intro _; clear_value x; rotate_left; unfold x; clear x) | (refine KeptX.cut (s₀ := s₀) (x := x) ?_ ?_; rotate_left; intro _; clear_value x; rotate_left; unfold x; clear x) | clear_value x | skip)
    | with_reducible apply Kept.ite
    | with_reducible apply KeptX.ite
    | with_reducible apply KeptX.next
    | with_reducible exact KeptX.refused
    | with_reducible apply followRidges_kept
    | with_reducible apply recordStep_kept
    | with_reducible apply retireStep_kept
    | (with_reducible refine KeptX.of_eq ?_ ‹_›)
    | split

theorem ridgeFail_kept {s₀ s : State} {r : Nat} (hK : Kept s₀ s) :
    Kept s₀ (ridgeFail s r) := by
  unfold ridgeFail
  repeat' first
    | with_reducible assumption
    | intro _
    | (extract_lets +onlyGivenNames x; first | (refine Kept.cut (s₀ := s₀) (x := x) ?_ ?_; rotate_left; intro _; clear_value x; rotate_left; unfold x; clear x) | clear_value x | skip)
    | with_reducible apply Kept.ite
    | with_reducible apply Kept.foldl
    | with_reducible apply rasAppend_kept
    | with_reducible apply askRetire_kept
    | with_reducible apply updLane_kept
    | with_reducible apply fenceRoutes_kept
    | (with_reducible refine set_ridgeFailed ?_; with_reducible assumption)
    | split

theorem execRidgeDieFail_kept {s₀ s : State} {ridge : Fin 16} (hK : Kept s₀ s) :
    KeptX s₀ (execRidgeDieFail ridge s) := by
  unfold execRidgeDieFail
  repeat' first
    | with_reducible assumption
    | intro _
    | (extract_lets +onlyGivenNames x; first | (refine Kept.cut (s₀ := s₀) (x := x) ?_ ?_; rotate_left; intro _; clear_value x; rotate_left; unfold x; clear x) | (refine KeptX.cut (s₀ := s₀) (x := x) ?_ ?_; rotate_left; intro _; clear_value x; rotate_left; unfold x; clear x) | clear_value x | skip)
    | with_reducible apply Kept.ite
    | with_reducible apply KeptX.ite
    | with_reducible apply KeptX.next
    | with_reducible exact KeptX.refused
    | with_reducible apply ridgeFail_kept
    | (with_reducible refine KeptX.of_eq ?_ ‹_›)
    | split

theorem execIslandHeartbeatLoss_kept {s₀ s : State} {tg : Fin 64} (hK : Kept s₀ s) :
    KeptX s₀ (execIslandHeartbeatLoss tg s) := by
  unfold execIslandHeartbeatLoss
  repeat' first
    | with_reducible assumption
    | intro _
    | (extract_lets +onlyGivenNames x; first | (refine Kept.cut (s₀ := s₀) (x := x) ?_ ?_; rotate_left; intro _; clear_value x; rotate_left; unfold x; clear x) | (refine KeptX.cut (s₀ := s₀) (x := x) ?_ ?_; rotate_left; intro _; clear_value x; rotate_left; unfold x; clear x) | clear_value x | skip)
    | with_reducible apply Kept.ite
    | with_reducible apply KeptX.ite
    | with_reducible apply KeptX.next
    | with_reducible exact KeptX.refused
    | with_reducible apply askRetire_kept
    | (with_reducible refine KeptX.of_eq ?_ ‹_›)
    | split

theorem execFlumeLaneFail_kept {s₀ s : State} {lane : Fin 32} (hK : Kept s₀ s) :
    KeptX s₀ (execFlumeLaneFail lane s) := by
  unfold execFlumeLaneFail
  repeat' first
    | with_reducible assumption
    | intro _
    | (extract_lets +onlyGivenNames x; first | (refine Kept.cut (s₀ := s₀) (x := x) ?_ ?_; rotate_left; intro _; clear_value x; rotate_left; unfold x; clear x) | (refine KeptX.cut (s₀ := s₀) (x := x) ?_ ?_; rotate_left; intro _; clear_value x; rotate_left; unfold x; clear x) | clear_value x | skip)
    | with_reducible apply Kept.ite
    | with_reducible apply KeptX.ite
    | with_reducible apply KeptX.next
    | with_reducible exact KeptX.refused
    | with_reducible apply rasAppend_kept
    | with_reducible apply followRidge_kept
    | with_reducible apply askRetire_kept
    | with_reducible apply updLane_kept
    | (with_reducible refine KeptX.of_eq ?_ ‹_›)
    | split

theorem setHostPort_kept {s₀ s : State} {p : Nat} {h : HostPort} (hK : Kept s₀ s) :
    Kept s₀ (setHostPort s p h) := by
  unfold setHostPort
  repeat' first
    | with_reducible assumption
    | intro _
    | (extract_lets +onlyGivenNames x; first | (refine Kept.cut (s₀ := s₀) (x := x) ?_ ?_; rotate_left; intro _; clear_value x; rotate_left; unfold x; clear x) | clear_value x | skip)
    | with_reducible apply Kept.ite
    | with_reducible apply intCause_kept
    | (with_reducible refine set_hostPorts ?_; with_reducible assumption)
    | split

theorem rewrite_kept {s₀ s : State} {p : Nat → Bool} (hK : Kept s₀ s) :
    Kept s₀ (rewrite s p) := by
  unfold rewrite
  repeat' first
    | with_reducible assumption
    | intro _
    | (extract_lets +onlyGivenNames x; first | (refine Kept.cut (s₀ := s₀) (x := x) ?_ ?_; rotate_left; intro _; clear_value x; rotate_left; unfold x; clear x) | clear_value x | skip)
    | with_reducible apply Kept.ite
    | with_reducible apply Kept.foldl
    | with_reducible apply sendCompl_kept
    | split

theorem moveOwners_kept {s₀ s : State} {p : Nat} (hK : Kept s₀ s) :
    Kept s₀ (moveOwners s p) := by
  unfold moveOwners
  repeat' first
    | with_reducible assumption
    | intro _
    | (extract_lets +onlyGivenNames x; first | (refine Kept.cut (s₀ := s₀) (x := x) ?_ ?_; rotate_left; intro _; clear_value x; rotate_left; unfold x; clear x) | clear_value x | skip)
    | with_reducible apply Kept.ite
    | with_reducible apply Kept.foldl
    | with_reducible apply releaseQueues_kept
    | with_reducible apply ringPut_kept
    | with_reducible apply gaugePf_kept
    | with_reducible apply rewrite_kept
    | with_reducible apply satAdd_kept
    | with_reducible apply updAllot_kept
    | split

theorem execHostPortDown_kept {s₀ s : State} {port : Fin 2} {fatal : Bool} (hK : Kept s₀ s) :
    KeptX s₀ (execHostPortDown port fatal s) := by
  unfold execHostPortDown
  repeat' first
    | with_reducible assumption
    | intro _
    | (extract_lets +onlyGivenNames x; first | (refine Kept.cut (s₀ := s₀) (x := x) ?_ ?_; rotate_left; intro _; clear_value x; rotate_left; unfold x; clear x) | (refine KeptX.cut (s₀ := s₀) (x := x) ?_ ?_; rotate_left; intro _; clear_value x; rotate_left; unfold x; clear x) | clear_value x | skip)
    | with_reducible apply Kept.ite
    | with_reducible apply KeptX.ite
    | with_reducible apply KeptX.next
    | with_reducible exact KeptX.refused
    | with_reducible apply rasAppend_kept
    | with_reducible apply moveOwners_kept
    | with_reducible apply gaugePf_kept
    | with_reducible apply setHostPort_kept
    | (with_reducible refine KeptX.of_eq ?_ ‹_›)
    | split

theorem wantSet_kept {s₀ s : State}  (hK : Kept s₀ s) :
    Kept s₀ (wantSet s) := by
  unfold wantSet
  repeat' first
    | with_reducible assumption
    | intro _
    | (extract_lets +onlyGivenNames x; first | (refine Kept.cut (s₀ := s₀) (x := x) ?_ ?_; rotate_left; intro _; clear_value x; rotate_left; unfold x; clear x) | clear_value x | skip)
    | with_reducible apply Kept.ite
    | with_reducible apply Kept.foldl
    | with_reducible apply intWant_kept
    | split

theorem execHostPortUp_kept {s₀ s : State} {port : Fin 2} {width : Nat} {rate : Fin 5} (hK : Kept s₀ s) :
    KeptX s₀ (execHostPortUp port width rate s) := by
  unfold execHostPortUp
  repeat' first
    | with_reducible assumption
    | intro _
    | (extract_lets +onlyGivenNames x; first | (refine Kept.cut (s₀ := s₀) (x := x) ?_ ?_; rotate_left; intro _; clear_value x; rotate_left; unfold x; clear x) | (refine KeptX.cut (s₀ := s₀) (x := x) ?_ ?_; rotate_left; intro _; clear_value x; rotate_left; unfold x; clear x) | clear_value x | skip)
    | with_reducible apply Kept.ite
    | with_reducible apply KeptX.ite
    | with_reducible apply KeptX.next
    | with_reducible exact KeptX.refused
    | with_reducible apply moveOwners_kept
    | with_reducible apply releaseQueues_kept
    | with_reducible apply setHostPort_kept
    | with_reducible apply wantSet_kept
    | (with_reducible refine KeptX.of_eq ?_ ‹_›)
    | split

theorem dropHeld_kept {s₀ s : State} {hd : Nat} (hK : Kept s₀ s) :
    Kept s₀ (dropHeld s hd) := by
  unfold dropHeld
  repeat' first
    | with_reducible assumption
    | intro _
    | (extract_lets +onlyGivenNames x; first | (refine Kept.cut (s₀ := s₀) (x := x) ?_ ?_; rotate_left; intro _; clear_value x; rotate_left; unfold x; clear x) | clear_value x | skip)
    | with_reducible apply Kept.ite
    | with_reducible apply Kept.foldl
    | with_reducible apply reqData_kept
    | with_reducible apply contribLost_kept
    | with_reducible apply reqFault_kept
    | with_reducible apply Cb.wr_kept
    | (with_reducible refine set_e2e ?_; with_reducible assumption)
    | (with_reducible refine set_skvReqs ?_; with_reducible assumption)
    | split

theorem dropRings_kept {s₀ s : State} {hd : Nat} (hK : Kept s₀ s) :
    Kept s₀ (dropRings s hd) := by
  unfold dropRings
  repeat' first
    | with_reducible assumption
    | intro _
    | (extract_lets +onlyGivenNames x; first | (refine Kept.cut (s₀ := s₀) (x := x) ?_ ?_; rotate_left; intro _; clear_value x; rotate_left; unfold x; clear x) | clear_value x | skip)
    | with_reducible apply Kept.ite
    | (with_reducible refine set_rings ?_; with_reducible assumption)
    | split

theorem headworkFail_kept {s₀ s : State} {hd : Nat} (hK : Kept s₀ s) :
    Kept s₀ (headworkFail s hd) := by
  unfold headworkFail
  repeat' first
    | with_reducible assumption
    | intro _
    | (extract_lets +onlyGivenNames x; first | (refine Kept.cut (s₀ := s₀) (x := x) ?_ ?_; rotate_left; intro _; clear_value x; rotate_left; unfold x; clear x) | clear_value x | skip)
    | with_reducible apply Kept.ite
    | with_reducible apply Kept.foldl
    | with_reducible apply dropRings_kept
    | with_reducible apply replayItem_kept
    | with_reducible apply rasAppend_kept
    | with_reducible apply enterFaulted_kept
    | with_reducible apply moveOwners_kept
    | with_reducible apply failFar_kept
    | with_reducible apply setHostPort_kept
    | with_reducible apply portDown_kept
    | with_reducible apply countReplays_kept
    | with_reducible apply noteFigures_kept
    | with_reducible apply fenceRoutes_kept
    | with_reducible apply dropHeld_kept
    | (with_reducible refine set_hdFailed_jrn1_fb ?_; with_reducible assumption)
    | split

theorem execHeadworkFail_kept {s₀ s : State} {hd : Fin 2} (hK : Kept s₀ s) :
    KeptX s₀ (execHeadworkFail hd s) := by
  unfold execHeadworkFail
  repeat' first
    | with_reducible assumption
    | intro _
    | (extract_lets +onlyGivenNames x; first | (refine Kept.cut (s₀ := s₀) (x := x) ?_ ?_; rotate_left; intro _; clear_value x; rotate_left; unfold x; clear x) | (refine KeptX.cut (s₀ := s₀) (x := x) ?_ ?_; rotate_left; intro _; clear_value x; rotate_left; unfold x; clear x) | clear_value x | skip)
    | with_reducible apply Kept.ite
    | with_reducible apply KeptX.ite
    | with_reducible apply KeptX.next
    | with_reducible exact KeptX.refused
    | with_reducible apply headworkFail_kept
    | (with_reducible refine KeptX.of_eq ?_ ‹_›)
    | split

end Sys2Proof.Machine
end

