-- ==== Sys2Proof/Laws/KeptReset.lean ====
section
/-! SUPPORT. What the operations and meanings of Machine/Reset.lean keep. -/

set_option linter.unreachableTactic false
set_option linter.unusedTactic false
set_option linter.unusedVariables false
set_option linter.tactic.unusedName false

namespace Sys2Proof.Machine

theorem fellBack_kept {s₀ s : State} {comp : Nat} {hd : Nat} (hK : Kept s₀ s) :
    Kept s₀ (fellBack s comp hd) := by
  unfold fellBack
  repeat' first
    | with_reducible assumption
    | intro _
    | (extract_lets +onlyGivenNames x; first | (refine Kept.cut (s₀ := s₀) (x := x) ?_ ?_; rotate_left; intro _; clear_value x; rotate_left; unfold x; clear x) | clear_value x | skip)
    | with_reducible apply Kept.ite
    | with_reducible apply rasAppend_kept
    | with_reducible apply setRg_kept
    | split

theorem loadImages_kept {s₀ s : State}  (hK : Kept s₀ s) :
    KeptQ s₀ (loadImages s) := by
  unfold loadImages
  repeat' first
    | with_reducible assumption
    | intro _
    | (extract_lets +onlyGivenNames x; first | (refine Kept.cut (s₀ := s₀) (x := x) ?_ ?_; rotate_left; intro _; clear_value x; rotate_left; unfold x; clear x) | (refine KeptQ.cut (s₀ := s₀) (x := x) ?_ ?_; rotate_left; intro _; clear_value x; rotate_left; unfold x; clear x) | (refine kept_cut_fun (s₀ := s₀) (x := x) ?_ ?_; rotate_left; intro _; clear_value x; rotate_left; unfold x; clear x) | (refine kept_cut_fun2 (s₀ := s₀) (x := x) ?_ ?_; rotate_left; intro _; clear_value x; rotate_left; unfold x; clear x) | (refine kept_cut_fun3 (s₀ := s₀) (x := x) ?_ ?_; rotate_left; intro _; clear_value x; rotate_left; unfold x; clear x) | (refine kept_cut_val (s₀ := s₀) (x := x) ?_ ?_; rotate_left; intro _; clear_value x; rotate_left; unfold x; clear x) | clear_value x | skip)
    | with_reducible apply Kept.ite
    | with_reducible apply KeptQ.ite
    | (with_reducible refine KeptQ.fst ?_; with_reducible assumption)
    | with_reducible exact KeptQ.val ‹_›
    | with_reducible refine KeptQ.fst (KeptQ.foldl ?_ ?_)
    | with_reducible apply Kept.foldl
    | with_reducible apply KeptQ.foldl
    | with_reducible apply setRg_kept
    | with_reducible apply fellBack_kept
    | (with_reducible refine set_regs_fw ?_; first | with_reducible assumption | with_reducible exact KeptQ.val ‹_› | (with_reducible refine KeptQ.of_eq ?_ ‹_›; first | with_reducible assumption))
    | (with_reducible refine KeptQ.of_eq ?_ ‹_›)
    | with_reducible apply_assumption -exfalso -symm
    | split
    | with_reducible apply KeptQ.mk

theorem setCause_kept {s₀ s : State} {kind : Nat} {source : Nat} {count : Nat} (hK : Kept s₀ s) :
    Kept s₀ (setCause s kind source count) := by
  unfold setCause
  repeat' first
    | with_reducible assumption
    | intro _
    | (extract_lets +onlyGivenNames x; first | (refine Kept.cut (s₀ := s₀) (x := x) ?_ ?_; rotate_left; intro _; clear_value x; rotate_left; unfold x; clear x) | clear_value x | skip)
    | with_reducible apply Kept.ite
    | with_reducible apply setRg_kept
    | split

theorem flushSteps_kept {s₀ s : State}  (hK : Kept s₀ s) :
    Kept s₀ (flushSteps s) := by
  unfold flushSteps
  repeat' first
    | with_reducible assumption
    | intro _
    | (extract_lets +onlyGivenNames x; first | (refine Kept.cut (s₀ := s₀) (x := x) ?_ ?_; rotate_left; intro _; clear_value x; rotate_left; unfold x; clear x) | clear_value x | skip)
    | with_reducible apply Kept.ite
    | with_reducible apply Kept.foldl
    | with_reducible apply replay_kept
    | with_reducible apply holdStep_kept
    | with_reducible apply updQue_kept
    | with_reducible apply stepEffect_kept
    | (with_reducible refine set_jsteps ?_; with_reducible assumption)
    | split

theorem putRw_kept {s₀ s : State} {e : Nat × W32} (hK : Kept s₀ s) :
    Kept s₀ (putRw s e) := by
  unfold putRw
  repeat' first
    | with_reducible assumption
    | intro _
    | (extract_lets +onlyGivenNames x; first | (refine Kept.cut (s₀ := s₀) (x := x) ?_ ?_; rotate_left; intro _; clear_value x; rotate_left; unfold x; clear x) | clear_value x | skip)
    | with_reducible apply Kept.ite
    | with_reducible apply State.reset_kept
    | with_reducible apply setRg_kept
    | split

theorem stopWork_kept {s₀ s : State} (hK : Kept s₀ s) : Kept s₀ (stopWork s) := by
  unfold stopWork
  extract_lets own s1
  have h1 : Kept s₀ s1 := dropRuns_kept (flushSteps_kept (Kept.foldl hK (fun _ _ h => completeItem_kept h)))
  exact fenceArrivals_kept (h1.into rfl id id)

theorem coldPart_kept {s₀ s : State} {source : Nat} (hK : Kept s₀ s) : Kept s₀ (coldPart s source) := by
  unfold coldPart
  extract_lets n new erase s1 s1b s2 s3
  have h1 : Kept s₀ s1 := by
    refine hK.into rfl (fun hm => ⟨?_, hm.2.1, hm.2.2.1, hm.2.2.2.1, ?_⟩) (fun _ => ⟨Nat.zero_le _, Nat.zero_le _, Nat.zero_le _⟩)
    · show (if erase then ({} : Mem) else s.hbm).wf = true
      split
      · exact Mem.wf_empty
      · exact hm.1
    · show rising (if erase then [] else s.hbmPoison) = true
      split
      · rfl
      · exact hm.2.2.2.2
  have h1 : Kept s₀ s1b := followRidges_kept h1
  have h2 : Kept s₀ s2 := Kept.ite (setRg_kept h1) h1
  have h3 : Kept s₀ s3 := Kept.ite (setRg_kept h2) h2
  have h4 : Kept s₀ (loadImages s3).1 := loadImages_kept h3
  exact setMode_kept h4

theorem startReset_kept {s₀ s : State} {kind : Nat} {source : Nat} {goal : Mode} (hK : Kept s₀ s) :
    Kept s₀ (startReset s kind source goal) := by
  unfold startReset
  repeat' first
    | with_reducible assumption
    | intro _
    | (extract_lets +onlyGivenNames x; first | (refine Kept.cut (s₀ := s₀) (x := x) ?_ ?_; rotate_left; intro _; clear_value x; rotate_left; unfold x; clear x) | clear_value x | skip)
    | with_reducible apply Kept.ite
    | with_reducible apply coldPart_kept
    | with_reducible apply stopWork_kept
    | with_reducible apply setCause_kept
    | (with_reducible refine set_resetting ?_; with_reducible assumption)
    | split

theorem restoreQueues_kept {s₀ s : State}  (hK : Kept s₀ s) :
    Kept s₀ (restoreQueues s) := by
  unfold restoreQueues
  repeat' first
    | with_reducible assumption
    | intro _
    | (extract_lets +onlyGivenNames x; first | (refine Kept.cut (s₀ := s₀) (x := x) ?_ ?_; rotate_left; intro _; clear_value x; rotate_left; unfold x; clear x) | clear_value x | skip)
    | with_reducible apply Kept.ite
    | with_reducible apply Kept.foldl
    | with_reducible apply updQue_kept
    | split

theorem readmit_kept {s₀ s : State}  (hK : Kept s₀ s) :
    Kept s₀ (readmit s) := by
  unfold readmit
  repeat' first
    | with_reducible assumption
    | intro _
    | (extract_lets +onlyGivenNames x; first | (refine Kept.cut (s₀ := s₀) (x := x) ?_ ?_; rotate_left; intro _; clear_value x; rotate_left; unfold x; clear x) | clear_value x | skip)
    | with_reducible apply Kept.ite
    | with_reducible apply Kept.foldl
    | with_reducible apply revoke_kept
    | (with_reducible refine set_rsvs ?_; with_reducible assumption)
    | (with_reducible refine set_rsvs_rsvDue ?_; with_reducible assumption)
    | split

theorem restoreSlot_kept {s₀ s : State} {k : Nat} (hK : Kept s₀ s) :
    Kept s₀ (restoreSlot s k) := by
  unfold restoreSlot
  repeat' first
    | with_reducible assumption
    | intro _
    | (extract_lets +onlyGivenNames x; first | (refine Kept.cut (s₀ := s₀) (x := x) ?_ ?_; rotate_left; intro _; clear_value x; rotate_left; unfold x; clear x) | clear_value x | skip)
    | with_reducible apply Kept.ite
    | with_reducible apply replay_kept
    | with_reducible apply updQue_kept
    | with_reducible apply request_kept
    | with_reducible apply satAdd_kept
    | split

theorem startScans_kept {s₀ s : State}  (hK : Kept s₀ s) :
    Kept s₀ (startScans s) := by
  unfold startScans
  repeat' first
    | with_reducible assumption
    | intro _
    | (extract_lets +onlyGivenNames x; first | (refine Kept.cut (s₀ := s₀) (x := x) ?_ ?_; rotate_left; intro _; clear_value x; rotate_left; unfold x; clear x) | clear_value x | skip)
    | with_reducible apply Kept.ite
    | with_reducible apply Kept.foldl
    | with_reducible apply updSaddle_kept
    | split

theorem beginRestore_kept {s₀ s : State} {r : Reset} (hK : Kept s₀ s) :
    Kept s₀ (beginRestore s r) := by
  unfold beginRestore
  repeat' first
    | with_reducible assumption
    | intro _
    | (extract_lets +onlyGivenNames x; first | (refine Kept.cut (s₀ := s₀) (x := x) ?_ ?_; rotate_left; intro _; clear_value x; rotate_left; unfold x; clear x) | clear_value x | skip)
    | with_reducible apply Kept.ite
    | with_reducible apply Kept.foldl
    | with_reducible apply restoreQueues_kept
    | with_reducible apply readmit_kept
    | with_reducible apply startScans_kept
    | with_reducible apply putRw_kept
    | (with_reducible refine set_rwSaved_resetting ?_; with_reducible assumption)
    | split

theorem endRestore_kept {s₀ s : State}  (hK : Kept s₀ s) :
    Kept s₀ (endRestore s) := by
  unfold endRestore
  repeat' first
    | with_reducible assumption
    | intro _
    | (extract_lets +onlyGivenNames x; first | (refine Kept.cut (s₀ := s₀) (x := x) ?_ ?_; rotate_left; intro _; clear_value x; rotate_left; unfold x; clear x) | clear_value x | skip)
    | with_reducible apply Kept.ite
    | with_reducible apply Kept.foldl
    | with_reducible apply bellAt_kept
    | with_reducible apply restoreSlot_kept
    | with_reducible apply releaseQueues_kept
    | with_reducible apply journalFull_kept
    | with_reducible apply rewrite_kept
    | (with_reducible refine set_resetting_bells ?_; with_reducible assumption)
    | split

theorem shortfallFault_kept {s₀ s : State} {off : Nat} (hK : Kept s₀ s) :
    Kept s₀ (shortfallFault s off) := by
  unfold shortfallFault
  repeat' first
    | with_reducible assumption
    | intro _
    | (extract_lets +onlyGivenNames x; first | (refine Kept.cut (s₀ := s₀) (x := x) ?_ ?_; rotate_left; intro _; clear_value x; rotate_left; unfold x; clear x) | clear_value x | skip)
    | with_reducible apply Kept.ite
    | with_reducible apply rasAppend_kept
    | with_reducible apply enterFaulted_kept
    | with_reducible apply setRg_kept
    | split

theorem bootEnds_kept {s₀ s : State} {goal : Mode} (hK : Kept s₀ s) :
    Kept s₀ (bootEnds s goal) := by
  unfold bootEnds
  repeat' first
    | with_reducible assumption
    | intro _
    | (extract_lets +onlyGivenNames x; first | (refine Kept.cut (s₀ := s₀) (x := x) ?_ ?_; rotate_left; intro _; clear_value x; rotate_left; unfold x; clear x) | clear_value x | skip)
    | with_reducible apply Kept.ite
    | with_reducible apply setRg_kept
    | (with_reducible refine set_fw ?_; with_reducible assumption)
    | split

theorem execPostResetRestore_kept {s₀ s : State}  (hK : Kept s₀ s) :
    KeptX s₀ (execPostResetRestore s) := by
  unfold execPostResetRestore
  repeat' first
    | with_reducible assumption
    | intro _
    | (extract_lets +onlyGivenNames x; first | (refine Kept.cut (s₀ := s₀) (x := x) ?_ ?_; rotate_left; intro _; clear_value x; rotate_left; unfold x; clear x) | (refine KeptX.cut (s₀ := s₀) (x := x) ?_ ?_; rotate_left; intro _; clear_value x; rotate_left; unfold x; clear x) | clear_value x | skip)
    | with_reducible apply Kept.ite
    | with_reducible apply KeptX.ite
    | with_reducible apply KeptX.next
    | with_reducible exact KeptX.refused
    | with_reducible apply Kept.foldl
    | with_reducible apply setMode_kept
    | with_reducible apply endRestore_kept
    | with_reducible apply bootEnds_kept
    | with_reducible apply beginRestore_kept
    | with_reducible apply shortfallFault_kept
    | with_reducible apply putRw_kept
    | (with_reducible refine set_rwSaved_resetting_bells ?_; with_reducible assumption)
    | (with_reducible refine KeptX.of_eq ?_ ‹_›)
    | split

theorem persisted_kept {s₀ s : State} (hK : Kept s₀ s) : Kept s₀ (persisted s) := by
  unfold persisted
  exact hK.into rfl (fun hm => ⟨Mem.wf_empty, hm.2.1, hm.2.2.1, hm.2.2.2.1, rfl⟩) (fun _ => ⟨Nat.zero_le _, Nat.zero_le _, Nat.zero_le _⟩)

theorem enterOff_kept {s₀ s : State} (hK : Kept s₀ s) : Kept s₀ (enterOff s) := by
  unfold enterOff
  exact set_mode (persisted_kept hK)

theorem enterStandby_kept {s₀ s : State} (hK : Kept s₀ s) : Kept s₀ (enterStandby s) := by
  unfold enterStandby
  exact set_mode_tripped_jrn0_jrn1_rails_regs (persisted_kept hK)

theorem markStack_kept {s₀ s : State} {k : Nat} (hK : Kept s₀ s) :
    Kept s₀ (markStack s k) := by
  unfold markStack
  repeat' first
    | with_reducible assumption
    | intro _
    | (extract_lets +onlyGivenNames x; first | (refine Kept.cut (s₀ := s₀) (x := x) ?_ ?_; rotate_left; intro _; clear_value x; rotate_left; unfold x; clear x) | clear_value x | skip)
    | with_reducible apply Kept.ite
    | with_reducible apply rasAppend_kept
    | with_reducible apply intCause_kept
    | with_reducible apply updSaddle_kept
    | split

theorem retireAgain_kept {s₀ s : State} {trigger : Nat} {tgs : List Nat} (hK : Kept s₀ s) :
    Kept s₀ (retireAgain s trigger tgs) := by
  unfold retireAgain
  repeat' first
    | with_reducible assumption
    | intro _
    | (extract_lets +onlyGivenNames x; first | (refine Kept.cut (s₀ := s₀) (x := x) ?_ ?_; rotate_left; intro _; clear_value x; rotate_left; unfold x; clear x) | clear_value x | skip)
    | with_reducible apply Kept.ite
    | with_reducible apply Kept.foldl
    | with_reducible apply updTerrace_kept
    | (with_reducible refine set_retQ ?_; with_reducible assumption)
    | split

theorem retireAtBoot_kept {s₀ s : State}  (hK : Kept s₀ s) :
    Kept s₀ (retireAtBoot s) := by
  unfold retireAtBoot
  repeat' first
    | with_reducible assumption
    | intro _
    | (extract_lets +onlyGivenNames x; first | (refine Kept.cut (s₀ := s₀) (x := x) ?_ ?_; rotate_left; intro _; clear_value x; rotate_left; unfold x; clear x) | clear_value x | skip)
    | with_reducible apply Kept.ite
    | with_reducible apply Kept.foldl
    | with_reducible apply updTerrace_kept
    | with_reducible apply retireAgain_kept
    | split

theorem setFmax_kept {s₀ s : State} {f : FuseSample} (hK : Kept s₀ s) :
    Kept s₀ (setFmax s f) := by
  unfold setFmax
  repeat' first
    | with_reducible assumption
    | intro _
    | (extract_lets +onlyGivenNames x; first | (refine Kept.cut (s₀ := s₀) (x := x) ?_ ?_; rotate_left; intro _; clear_value x; rotate_left; unfold x; clear x) | clear_value x | skip)
    | with_reducible apply Kept.ite
    | with_reducible apply updTerrace_kept
    | split

theorem powerOn_kept {s₀ s : State} {source : Nat} {b : BootSample} (hK : Kept s₀ s) :
    Kept s₀ (powerOn s source b) := by
  unfold powerOn
  repeat' first
    | with_reducible assumption
    | intro _
    | (extract_lets +onlyGivenNames x; first | (refine Kept.cut (s₀ := s₀) (x := x) ?_ ?_; rotate_left; intro _; clear_value x; rotate_left; unfold x; clear x) | (refine KeptQ.cut (s₀ := s₀) (x := x) ?_ ?_; rotate_left; intro _; clear_value x; rotate_left; unfold x; clear x) | clear_value x | skip)
    | with_reducible apply Kept.ite
    | with_reducible apply KeptQ.ite
    | (with_reducible refine KeptQ.fst ?_; with_reducible assumption)
    | with_reducible exact KeptQ.val ‹_›
    | with_reducible refine KeptQ.fst (loadImages_kept ?_)
    | with_reducible refine KeptQ.fst (KeptQ.foldl ?_ ?_)
    | with_reducible apply Kept.foldl
    | with_reducible apply KeptQ.foldl
    | with_reducible apply followRidges_kept
    | with_reducible apply setMode_kept
    | with_reducible apply retireAtBoot_kept
    | with_reducible apply setFmax_kept
    | with_reducible apply markStack_kept
    | with_reducible apply updTerrace_kept
    | with_reducible apply loadImages_kept
    | with_reducible apply setCause_kept
    | with_reducible apply persisted_kept
    | with_reducible apply setRg_kept
    | (with_reducible refine set_farPorts_xperst_guarded_mir_nvNew_fb_fbShadow_hwEpoch ?_; first | with_reducible assumption | with_reducible exact KeptQ.val ‹_› | (with_reducible refine KeptQ.of_eq ?_ ‹_›; first | with_reducible assumption | with_reducible apply loadImages_kept; with_reducible assumption))
    | (with_reducible refine set_resetting ?_; first | with_reducible assumption | with_reducible exact KeptQ.val ‹_› | (with_reducible refine KeptQ.of_eq ?_ ‹_›; first | with_reducible assumption | with_reducible apply loadImages_kept; with_reducible assumption))
    | (with_reducible refine KeptQ.of_eq ?_ ‹_›)
    | split
    | with_reducible apply KeptQ.mk

theorem execModEnRise_kept {s₀ s : State} {b : BootSample} (hK : Kept s₀ s) :
    KeptX s₀ (execModEnRise b s) := by
  unfold execModEnRise
  repeat' first
    | with_reducible assumption
    | intro _
    | (extract_lets +onlyGivenNames x; first | (refine Kept.cut (s₀ := s₀) (x := x) ?_ ?_; rotate_left; intro _; clear_value x; rotate_left; unfold x; clear x) | (refine KeptX.cut (s₀ := s₀) (x := x) ?_ ?_; rotate_left; intro _; clear_value x; rotate_left; unfold x; clear x) | clear_value x | skip)
    | with_reducible apply Kept.ite
    | with_reducible apply KeptX.ite
    | with_reducible apply KeptX.next
    | with_reducible exact KeptX.refused
    | with_reducible apply powerOn_kept
    | (with_reducible refine KeptX.of_eq ?_ ‹_›)
    | split

theorem execRiderWatchdog_kept {s₀ s : State} {hd : Fin 2} (hK : Kept s₀ s) :
    KeptX s₀ (execRiderWatchdog hd s) := by
  unfold execRiderWatchdog
  repeat' first
    | with_reducible assumption
    | intro _
    | (extract_lets +onlyGivenNames x; first | (refine Kept.cut (s₀ := s₀) (x := x) ?_ ?_; rotate_left; intro _; clear_value x; rotate_left; unfold x; clear x) | (refine KeptX.cut (s₀ := s₀) (x := x) ?_ ?_; rotate_left; intro _; clear_value x; rotate_left; unfold x; clear x) | clear_value x | skip)
    | with_reducible apply Kept.ite
    | with_reducible apply KeptX.ite
    | with_reducible apply KeptX.next
    | with_reducible exact KeptX.refused
    | with_reducible apply setMode_kept
    | with_reducible apply setCause_kept
    | with_reducible apply setRg_kept
    | with_reducible apply fellBack_kept
    | (with_reducible refine set_fw ?_; with_reducible assumption)
    | (with_reducible refine set_resetting ?_; with_reducible assumption)
    | (with_reducible refine set_resetting_bells ?_; with_reducible assumption)
    | (with_reducible refine KeptX.of_eq ?_ ‹_›)
    | split

theorem execPerstAssert_kept {s₀ s : State} {port : Fin 2} (hK : Kept s₀ s) :
    KeptX s₀ (execPerstAssert port s) := by
  unfold execPerstAssert
  repeat' first
    | with_reducible assumption
    | intro _
    | (extract_lets +onlyGivenNames x; first | (refine Kept.cut (s₀ := s₀) (x := x) ?_ ?_; rotate_left; intro _; clear_value x; rotate_left; unfold x; clear x) | (refine KeptX.cut (s₀ := s₀) (x := x) ?_ ?_; rotate_left; intro _; clear_value x; rotate_left; unfold x; clear x) | clear_value x | skip)
    | with_reducible apply Kept.ite
    | with_reducible apply KeptX.ite
    | with_reducible apply KeptX.next
    | with_reducible exact KeptX.refused
    | with_reducible apply setHostPort_kept
    | with_reducible apply startReset_kept
    | (with_reducible refine set_perst ?_; with_reducible assumption)
    | (with_reducible refine KeptX.of_eq ?_ ‹_›)
    | split

theorem execPerstDeassert_kept {s₀ s : State} {port : Fin 2} (hK : Kept s₀ s) :
    KeptX s₀ (execPerstDeassert port s) := by
  unfold execPerstDeassert
  repeat' first
    | with_reducible assumption
    | intro _
    | (extract_lets +onlyGivenNames x; first | (refine Kept.cut (s₀ := s₀) (x := x) ?_ ?_; rotate_left; intro _; clear_value x; rotate_left; unfold x; clear x) | (refine KeptX.cut (s₀ := s₀) (x := x) ?_ ?_; rotate_left; intro _; clear_value x; rotate_left; unfold x; clear x) | clear_value x | skip)
    | with_reducible apply Kept.ite
    | with_reducible apply KeptX.ite
    | with_reducible apply KeptX.next
    | with_reducible exact KeptX.refused
    | with_reducible apply setHostPort_kept
    | (with_reducible refine set_perst ?_; with_reducible assumption)
    | (with_reducible refine KeptX.of_eq ?_ ‹_›)
    | split

theorem execPcieHotReset_kept {s₀ s : State} {u0 : Fin 2} (hK : Kept s₀ s) :
    KeptX s₀ (execPcieHotReset u0 s) := by
  unfold execPcieHotReset
  repeat' first
    | with_reducible assumption
    | intro _
    | (extract_lets +onlyGivenNames x; first | (refine Kept.cut (s₀ := s₀) (x := x) ?_ ?_; rotate_left; intro _; clear_value x; rotate_left; unfold x; clear x) | (refine KeptX.cut (s₀ := s₀) (x := x) ?_ ?_; rotate_left; intro _; clear_value x; rotate_left; unfold x; clear x) | clear_value x | skip)
    | with_reducible apply Kept.ite
    | with_reducible apply KeptX.ite
    | with_reducible apply KeptX.next
    | with_reducible exact KeptX.refused
    | with_reducible apply startReset_kept
    | (with_reducible refine KeptX.of_eq ?_ ‹_›)
    | split

theorem flrReset_kept {s₀ s : State} {a : Option Nat} (hK : Kept s₀ s) :
    Kept s₀ (flrReset s a) := by
  unfold flrReset
  repeat' first
    | with_reducible assumption
    | intro _
    | (extract_lets +onlyGivenNames x; first | (refine Kept.cut (s₀ := s₀) (x := x) ?_ ?_; rotate_left; intro _; clear_value x; rotate_left; unfold x; clear x) | clear_value x | skip)
    | with_reducible apply Kept.ite
    | with_reducible apply allotResetOp_kept
    | split

theorem execVfFlr_kept {s₀ s : State} {vf : Fin 1024} (hK : Kept s₀ s) :
    KeptX s₀ (execVfFlr vf s) := by
  unfold execVfFlr
  repeat' first
    | with_reducible assumption
    | intro _
    | (extract_lets +onlyGivenNames x; first | (refine Kept.cut (s₀ := s₀) (x := x) ?_ ?_; rotate_left; intro _; clear_value x; rotate_left; unfold x; clear x) | (refine KeptX.cut (s₀ := s₀) (x := x) ?_ ?_; rotate_left; intro _; clear_value x; rotate_left; unfold x; clear x) | clear_value x | skip)
    | with_reducible apply Kept.ite
    | with_reducible apply KeptX.ite
    | with_reducible apply KeptX.next
    | with_reducible exact KeptX.refused
    | with_reducible apply flrReset_kept
    | (with_reducible refine KeptX.of_eq ?_ ‹_›)
    | split

theorem rstCtl_kept {s₀ s : State} {r : Requester} {v : W32} (hK : Kept s₀ s) :
    Kept s₀ (rstCtl r v s) := by
  unfold rstCtl
  repeat' first
    | with_reducible assumption
    | intro _
    | (extract_lets +onlyGivenNames x; first | (refine Kept.cut (s₀ := s₀) (x := x) ?_ ?_; rotate_left; intro _; clear_value x; rotate_left; unfold x; clear x) | (refine kept_cut_fun (s₀ := s₀) (x := x) ?_ ?_; rotate_left; intro _; clear_value x; rotate_left; unfold x; clear x) | (refine kept_cut_fun2 (s₀ := s₀) (x := x) ?_ ?_; rotate_left; intro _; clear_value x; rotate_left; unfold x; clear x) | (refine kept_cut_fun3 (s₀ := s₀) (x := x) ?_ ?_; rotate_left; intro _; clear_value x; rotate_left; unfold x; clear x) | (refine kept_cut_val (s₀ := s₀) (x := x) ?_ ?_; rotate_left; intro _; clear_value x; rotate_left; unfold x; clear x) | clear_value x | skip)
    | with_reducible apply Kept.ite
    | with_reducible apply setMode_kept
    | with_reducible apply exmas_kept
    | with_reducible apply logDropped_kept
    | with_reducible apply startReset_kept
    | with_reducible apply exAnswer_kept
    | with_reducible apply_assumption -exfalso -symm
    | split

theorem execRstCtlWarm_kept {s₀ s : State} {r : Requester} {v : W32} (hK : Kept s₀ s) :
    KeptX s₀ (execRstCtlWarm r v s) := by
  unfold execRstCtlWarm
  repeat' first
    | with_reducible assumption
    | intro _
    | (extract_lets +onlyGivenNames x; first | (refine Kept.cut (s₀ := s₀) (x := x) ?_ ?_; rotate_left; intro _; clear_value x; rotate_left; unfold x; clear x) | (refine KeptX.cut (s₀ := s₀) (x := x) ?_ ?_; rotate_left; intro _; clear_value x; rotate_left; unfold x; clear x) | clear_value x | skip)
    | with_reducible apply Kept.ite
    | with_reducible apply KeptX.ite
    | with_reducible apply KeptX.next
    | with_reducible exact KeptX.refused
    | with_reducible apply rstCtl_kept
    | (with_reducible refine KeptX.of_eq ?_ ‹_›)
    | split

theorem execRstCtlCold_kept {s₀ s : State} {r : Requester} {v : W32} (hK : Kept s₀ s) :
    KeptX s₀ (execRstCtlCold r v s) := by
  unfold execRstCtlCold
  repeat' first
    | with_reducible assumption
    | intro _
    | (extract_lets +onlyGivenNames x; first | (refine Kept.cut (s₀ := s₀) (x := x) ?_ ?_; rotate_left; intro _; clear_value x; rotate_left; unfold x; clear x) | (refine KeptX.cut (s₀ := s₀) (x := x) ?_ ?_; rotate_left; intro _; clear_value x; rotate_left; unfold x; clear x) | clear_value x | skip)
    | with_reducible apply Kept.ite
    | with_reducible apply KeptX.ite
    | with_reducible apply KeptX.next
    | with_reducible exact KeptX.refused
    | with_reducible apply rstCtl_kept
    | (with_reducible refine KeptX.of_eq ?_ ‹_›)
    | split

theorem execRstCtlDrain_kept {s₀ s : State} {r : Requester} {v : W32} (hK : Kept s₀ s) :
    KeptX s₀ (execRstCtlDrain r v s) := by
  unfold execRstCtlDrain
  repeat' first
    | with_reducible assumption
    | intro _
    | (extract_lets +onlyGivenNames x; first | (refine Kept.cut (s₀ := s₀) (x := x) ?_ ?_; rotate_left; intro _; clear_value x; rotate_left; unfold x; clear x) | (refine KeptX.cut (s₀ := s₀) (x := x) ?_ ?_; rotate_left; intro _; clear_value x; rotate_left; unfold x; clear x) | clear_value x | skip)
    | with_reducible apply Kept.ite
    | with_reducible apply KeptX.ite
    | with_reducible apply KeptX.next
    | with_reducible exact KeptX.refused
    | with_reducible apply rstCtl_kept
    | (with_reducible refine KeptX.of_eq ?_ ‹_›)
    | split

theorem execRstCtlResume_kept {s₀ s : State} {r : Requester} {v : W32} (hK : Kept s₀ s) :
    KeptX s₀ (execRstCtlResume r v s) := by
  unfold execRstCtlResume
  repeat' first
    | with_reducible assumption
    | intro _
    | (extract_lets +onlyGivenNames x; first | (refine Kept.cut (s₀ := s₀) (x := x) ?_ ?_; rotate_left; intro _; clear_value x; rotate_left; unfold x; clear x) | (refine KeptX.cut (s₀ := s₀) (x := x) ?_ ?_; rotate_left; intro _; clear_value x; rotate_left; unfold x; clear x) | clear_value x | skip)
    | with_reducible apply Kept.ite
    | with_reducible apply KeptX.ite
    | with_reducible apply KeptX.next
    | with_reducible exact KeptX.refused
    | with_reducible apply rstCtl_kept
    | (with_reducible refine KeptX.of_eq ?_ ‹_›)
    | split

end Sys2Proof.Machine
end

