-- ==== Sys2Proof/Laws/KeptPower.lean ====
section
/-! SUPPORT. What the operations and meanings of Machine/Power.lean keep. -/

set_option linter.unreachableTactic false
set_option linter.unusedTactic false
set_option linter.unusedVariables false
set_option linter.tactic.unusedName false

namespace Sys2Proof.Machine

theorem fbEvent_kept {s₀ s : State} {b : Nat} (hK : Kept s₀ s) :
    Kept s₀ (fbEvent s b) := by
  unfold fbEvent
  repeat' first
    | with_reducible assumption
    | intro _
    | (extract_lets +onlyGivenNames x; first | (refine Kept.cut (s₀ := s₀) (x := x) ?_ ?_; rotate_left; intro _; clear_value x; rotate_left; unfold x; clear x) | clear_value x | skip)
    | with_reducible apply Kept.ite
    | with_reducible apply intCause_kept
    | with_reducible apply setRg_kept
    | split

theorem switchFeed_kept {s₀ s : State} {b : Bool} (hK : Kept s₀ s) :
    Kept s₀ (switchFeed s b) := by
  unfold switchFeed
  repeat' first
    | with_reducible assumption
    | intro _
    | (extract_lets +onlyGivenNames x; first | (refine Kept.cut (s₀ := s₀) (x := x) ?_ ?_; rotate_left; intro _; clear_value x; rotate_left; unfold x; clear x) | clear_value x | skip)
    | with_reducible apply Kept.ite
    | with_reducible apply rasAppend_kept
    | with_reducible apply fbEvent_kept
    | with_reducible apply satAdd_kept
    | (with_reducible refine set_feedB ?_; with_reducible assumption)
    | split

theorem feedLeaves_kept {s₀ s : State} {k : Nat} {f : Feed} (hK : Kept s₀ s) :
    Kept s₀ (feedLeaves s k f) := by
  unfold feedLeaves
  repeat' first
    | with_reducible assumption
    | intro _
    | (extract_lets +onlyGivenNames x; first | (refine Kept.cut (s₀ := s₀) (x := x) ?_ ?_; rotate_left; intro _; clear_value x; rotate_left; unfold x; clear x) | clear_value x | skip)
    | with_reducible apply Kept.ite
    | with_reducible apply enterOff_kept
    | with_reducible apply switchFeed_kept
    | (with_reducible refine set_feeds ?_; with_reducible assumption)
    | split

theorem execFeedOutOfRange_kept {s₀ s : State} {k : Fin 2} {volts : Nat} (hK : Kept s₀ s) :
    KeptX s₀ (execFeedOutOfRange k volts s) := by
  unfold execFeedOutOfRange
  repeat' first
    | with_reducible assumption
    | intro _
    | (extract_lets +onlyGivenNames x; first | (refine Kept.cut (s₀ := s₀) (x := x) ?_ ?_; rotate_left; intro _; clear_value x; rotate_left; unfold x; clear x) | (refine KeptX.cut (s₀ := s₀) (x := x) ?_ ?_; rotate_left; intro _; clear_value x; rotate_left; unfold x; clear x) | clear_value x | skip)
    | with_reducible apply Kept.ite
    | with_reducible apply KeptX.ite
    | with_reducible apply KeptX.next
    | with_reducible exact KeptX.refused
    | with_reducible apply feedLeaves_kept
    | (with_reducible refine KeptX.of_eq ?_ ‹_›)
    | split

theorem execFeedValid_kept {s₀ s : State} {k : Fin 2} {volts : Nat} (hK : Kept s₀ s) :
    KeptX s₀ (execFeedValid k volts s) := by
  unfold execFeedValid
  repeat' first
    | with_reducible assumption
    | intro _
    | (extract_lets +onlyGivenNames x; first | (refine Kept.cut (s₀ := s₀) (x := x) ?_ ?_; rotate_left; intro _; clear_value x; rotate_left; unfold x; clear x) | (refine KeptX.cut (s₀ := s₀) (x := x) ?_ ?_; rotate_left; intro _; clear_value x; rotate_left; unfold x; clear x) | clear_value x | skip)
    | with_reducible apply Kept.ite
    | with_reducible apply KeptX.ite
    | with_reducible apply KeptX.next
    | with_reducible exact KeptX.refused
    | (with_reducible refine set_feeds_discharging ?_; with_reducible assumption)
    | (with_reducible refine set_mode_feedB_fb ?_; with_reducible assumption)
    | (with_reducible refine set_win ?_; with_reducible assumption)
    | (with_reducible refine KeptX.of_eq ?_ ‹_›)
    | split

theorem execFeedReturn_kept {s₀ s : State} {k : Fin 2} (hK : Kept s₀ s) :
    KeptX s₀ (execFeedReturn k s) := by
  unfold execFeedReturn
  repeat' first
    | with_reducible assumption
    | intro _
    | (extract_lets +onlyGivenNames x; first | (refine Kept.cut (s₀ := s₀) (x := x) ?_ ?_; rotate_left; intro _; clear_value x; rotate_left; unfold x; clear x) | (refine KeptX.cut (s₀ := s₀) (x := x) ?_ ?_; rotate_left; intro _; clear_value x; rotate_left; unfold x; clear x) | clear_value x | skip)
    | with_reducible apply Kept.ite
    | with_reducible apply KeptX.ite
    | with_reducible apply KeptX.next
    | with_reducible exact KeptX.refused
    | with_reducible apply switchFeed_kept
    | (with_reducible refine KeptX.of_eq ?_ ‹_›)
    | split

theorem execDischargeStart_kept {s₀ s : State} (hK : Kept s₀ s) : KeptX s₀ (execDischargeStart s) := by
  unfold execDischargeStart
  exact KeptX.ite (KeptX.next (set_discharging (KeptP.snd (fresh_kept hK)))) (KeptX.next hK)

theorem execMatePinOpen_kept {s₀ s : State} {k : Fin 2} (hK : Kept s₀ s) :
    KeptX s₀ (execMatePinOpen k s) := by
  unfold execMatePinOpen
  repeat' first
    | with_reducible assumption
    | intro _
    | (extract_lets +onlyGivenNames x; first | (refine Kept.cut (s₀ := s₀) (x := x) ?_ ?_; rotate_left; intro _; clear_value x; rotate_left; unfold x; clear x) | (refine KeptX.cut (s₀ := s₀) (x := x) ?_ ?_; rotate_left; intro _; clear_value x; rotate_left; unfold x; clear x) | clear_value x | skip)
    | with_reducible apply Kept.ite
    | with_reducible apply KeptX.ite
    | with_reducible apply KeptX.next
    | with_reducible exact KeptX.refused
    | with_reducible apply feedLeaves_kept
    | (with_reducible refine set_feeds ?_; with_reducible assumption)
    | (with_reducible refine KeptX.of_eq ?_ ‹_›)
    | split

theorem setTarget_kept {s₀ s : State} {tg : Nat} {n : Nat} {duty : Nat} (hK : Kept s₀ s) :
    Kept s₀ (setTarget s tg n duty) := by
  unfold setTarget
  repeat' first
    | with_reducible assumption
    | intro _
    | (extract_lets +onlyGivenNames x; first | (refine Kept.cut (s₀ := s₀) (x := x) ?_ ?_; rotate_left; intro _; clear_value x; rotate_left; unfold x; clear x) | clear_value x | skip)
    | with_reducible apply Kept.ite
    | with_reducible apply updTerrace_kept
    | with_reducible apply satAdd_kept
    | split

theorem execVoltageSettled_kept {s₀ s : State} {tg : Fin 64} (hK : Kept s₀ s) :
    KeptX s₀ (execVoltageSettled tg s) := by
  unfold execVoltageSettled
  repeat' first
    | with_reducible assumption
    | intro _
    | (extract_lets +onlyGivenNames x; first | (refine Kept.cut (s₀ := s₀) (x := x) ?_ ?_; rotate_left; intro _; clear_value x; rotate_left; unfold x; clear x) | (refine KeptX.cut (s₀ := s₀) (x := x) ?_ ?_; rotate_left; intro _; clear_value x; rotate_left; unfold x; clear x) | clear_value x | skip)
    | with_reducible apply Kept.ite
    | with_reducible apply KeptX.ite
    | with_reducible apply KeptX.next
    | with_reducible exact KeptX.refused
    | with_reducible apply followRidge_kept
    | with_reducible apply updTerrace_kept
    | (with_reducible refine KeptX.of_eq ?_ ‹_›)
    | split

theorem applyLoop_kept {s₀ s : State} {tg : Nat} (hK : Kept s₀ s) :
    Kept s₀ (applyLoop s tg) := by
  unfold applyLoop
  repeat' first
    | with_reducible assumption
    | intro _
    | (extract_lets +onlyGivenNames x; first | (refine Kept.cut (s₀ := s₀) (x := x) ?_ ?_; rotate_left; intro _; clear_value x; rotate_left; unfold x; clear x) | clear_value x | skip)
    | with_reducible apply Kept.ite
    | with_reducible apply setTarget_kept
    | split

theorem applyLoops_kept {s₀ s : State}  (hK : Kept s₀ s) :
    Kept s₀ (applyLoops s) := by
  unfold applyLoops
  repeat' first
    | with_reducible assumption
    | intro _
    | (extract_lets +onlyGivenNames x; first | (refine Kept.cut (s₀ := s₀) (x := x) ?_ ?_; rotate_left; intro _; clear_value x; rotate_left; unfold x; clear x) | clear_value x | skip)
    | with_reducible apply Kept.ite
    | with_reducible apply Kept.foldl
    | with_reducible apply followRidges_kept
    | with_reducible apply applyLoop_kept
    | split

theorem setRung_kept {s₀ s : State} {n : Nat} (hK : Kept s₀ s) :
    Kept s₀ (setRung s n) := by
  unfold setRung
  repeat' first
    | with_reducible assumption
    | intro _
    | (extract_lets +onlyGivenNames x; first | (refine Kept.cut (s₀ := s₀) (x := x) ?_ ?_; rotate_left; intro _; clear_value x; rotate_left; unfold x; clear x) | clear_value x | skip)
    | with_reducible apply Kept.ite
    | (with_reducible refine set_fb ?_; with_reducible assumption)
    | (with_reducible refine set_rsvDue ?_; with_reducible assumption)
    | split

theorem closeWindow_kept {s₀ s : State} {ask : Nat} (hK : Kept s₀ s) :
    Kept s₀ (closeWindow s ask) := by
  unfold closeWindow
  repeat' first
    | with_reducible assumption
    | intro _
    | (extract_lets +onlyGivenNames x; first | (refine Kept.cut (s₀ := s₀) (x := x) ?_ ?_; rotate_left; intro _; clear_value x; rotate_left; unfold x; clear x) | clear_value x | skip)
    | with_reducible apply Kept.ite
    | (with_reducible refine set_fb ?_; with_reducible assumption)
    | split

theorem droopDuty_kept {s₀ s : State} {r : Nat} (hK : Kept s₀ s) :
    Kept s₀ (droopDuty s r) := by
  unfold droopDuty
  repeat' first
    | with_reducible assumption
    | intro _
    | (extract_lets +onlyGivenNames x; first | (refine Kept.cut (s₀ := s₀) (x := x) ?_ ?_; rotate_left; intro _; clear_value x; rotate_left; unfold x; clear x) | clear_value x | skip)
    | with_reducible apply Kept.ite
    | with_reducible apply Kept.foldl
    | with_reducible apply updTerrace_kept
    | split

theorem execFbFastLoop_kept {s₀ s : State} {m : FastSample} (hK : Kept s₀ s) :
    KeptX s₀ (execFbFastLoop m s) := by
  unfold execFbFastLoop
  repeat' first
    | with_reducible assumption
    | intro _
    | (extract_lets +onlyGivenNames x; first | (refine Kept.cut (s₀ := s₀) (x := x) ?_ ?_; rotate_left; intro _; clear_value x; rotate_left; unfold x; clear x) | (refine KeptX.cut (s₀ := s₀) (x := x) ?_ ?_; rotate_left; intro _; clear_value x; rotate_left; unfold x; clear x) | clear_value x | skip)
    | with_reducible apply Kept.ite
    | with_reducible apply KeptX.ite
    | with_reducible apply KeptX.next
    | with_reducible exact KeptX.refused
    | with_reducible apply Kept.foldl
    | with_reducible apply setRung_kept
    | with_reducible apply closeWindow_kept
    | with_reducible apply droopDuty_kept
    | with_reducible apply applyLoops_kept
    | (with_reducible refine set_capGuard_fb ?_; with_reducible assumption)
    | (with_reducible refine KeptX.of_eq ?_ ‹_›)
    | split

theorem execFbSlowLoop_kept {s₀ s : State} {m : SlowSample} (hK : Kept s₀ s) :
    KeptX s₀ (execFbSlowLoop m s) := by
  unfold execFbSlowLoop
  repeat' first
    | with_reducible assumption
    | intro _
    | (extract_lets +onlyGivenNames x; first | (refine Kept.cut (s₀ := s₀) (x := x) ?_ ?_; rotate_left; intro _; clear_value x; rotate_left; unfold x; clear x) | (refine KeptX.cut (s₀ := s₀) (x := x) ?_ ?_; rotate_left; intro _; clear_value x; rotate_left; unfold x; clear x) | clear_value x | skip)
    | with_reducible apply Kept.ite
    | with_reducible apply KeptX.ite
    | with_reducible apply KeptX.next
    | with_reducible exact KeptX.refused
    | with_reducible apply applyLoops_kept
    | with_reducible apply grant_kept
    | (with_reducible refine set_fb ?_; with_reducible assumption)
    | (with_reducible refine KeptX.of_eq ?_ ‹_›)
    | split

theorem execFbFloorEval_kept {s₀ s : State} {floor : Nat} {perTerrace : Nat} (hK : Kept s₀ s) :
    KeptX s₀ (execFbFloorEval floor perTerrace s) := by
  unfold execFbFloorEval
  repeat' first
    | with_reducible assumption
    | intro _
    | (extract_lets +onlyGivenNames x; first | (refine Kept.cut (s₀ := s₀) (x := x) ?_ ?_; rotate_left; intro _; clear_value x; rotate_left; unfold x; clear x) | (refine KeptX.cut (s₀ := s₀) (x := x) ?_ ?_; rotate_left; intro _; clear_value x; rotate_left; unfold x; clear x) | clear_value x | skip)
    | with_reducible apply Kept.ite
    | with_reducible apply KeptX.ite
    | with_reducible apply KeptX.next
    | with_reducible exact KeptX.refused
    | with_reducible apply rasAppend_kept
    | with_reducible apply setRung_kept
    | with_reducible apply fbEvent_kept
    | with_reducible apply applyLoops_kept
    | (with_reducible refine set_awakeMax ?_; with_reducible assumption)
    | (with_reducible refine set_fb ?_; with_reducible assumption)
    | (with_reducible refine KeptX.of_eq ?_ ‹_›)
    | split

theorem execCapGuard_kept {s₀ s : State} {avg : Nat} (hK : Kept s₀ s) :
    KeptX s₀ (execCapGuard avg s) := by
  unfold execCapGuard
  repeat' first
    | with_reducible assumption
    | intro _
    | (extract_lets +onlyGivenNames x; first | (refine Kept.cut (s₀ := s₀) (x := x) ?_ ?_; rotate_left; intro _; clear_value x; rotate_left; unfold x; clear x) | (refine KeptX.cut (s₀ := s₀) (x := x) ?_ ?_; rotate_left; intro _; clear_value x; rotate_left; unfold x; clear x) | clear_value x | skip)
    | with_reducible apply Kept.ite
    | with_reducible apply KeptX.ite
    | with_reducible apply KeptX.next
    | with_reducible exact KeptX.refused
    | with_reducible apply fbEvent_kept
    | (with_reducible refine set_capGuard ?_; with_reducible assumption)
    | (with_reducible refine KeptX.of_eq ?_ ‹_›)
    | split

theorem execFbShadowSync_kept {s₀ s : State}  (hK : Kept s₀ s) :
    KeptX s₀ (execFbShadowSync s) := by
  unfold execFbShadowSync
  repeat' first
    | with_reducible assumption
    | intro _
    | (extract_lets +onlyGivenNames x; first | (refine Kept.cut (s₀ := s₀) (x := x) ?_ ?_; rotate_left; intro _; clear_value x; rotate_left; unfold x; clear x) | (refine KeptX.cut (s₀ := s₀) (x := x) ?_ ?_; rotate_left; intro _; clear_value x; rotate_left; unfold x; clear x) | clear_value x | skip)
    | with_reducible apply Kept.ite
    | with_reducible apply KeptX.ite
    | with_reducible apply KeptX.next
    | with_reducible exact KeptX.refused
    | (with_reducible refine set_fbShadow_fbSync ?_; with_reducible assumption)
    | (with_reducible refine KeptX.of_eq ?_ ‹_›)
    | split

theorem execFbCapWrite_kept {s₀ s : State} {r : Requester} {v : W32} (hK : Kept s₀ s) :
    KeptX s₀ (execFbCapWrite r v s) := by
  unfold execFbCapWrite
  repeat' first
    | with_reducible assumption
    | intro _
    | (extract_lets +onlyGivenNames x; first | (refine Kept.cut (s₀ := s₀) (x := x) ?_ ?_; rotate_left; intro _; clear_value x; rotate_left; unfold x; clear x) | (refine KeptX.cut (s₀ := s₀) (x := x) ?_ ?_; rotate_left; intro _; clear_value x; rotate_left; unfold x; clear x) | clear_value x | skip)
    | with_reducible apply Kept.ite
    | with_reducible apply KeptX.ite
    | with_reducible apply KeptX.next
    | with_reducible exact KeptX.refused
    | with_reducible apply pfWrite_kept
    | with_reducible apply exmas_kept
    | with_reducible apply logDropped_kept
    | with_reducible apply setRg_kept
    | with_reducible apply exAnswer_kept
    | (with_reducible refine KeptX.of_eq ?_ ‹_›)
    | split

theorem execBudget_kept {s₀ s : State} {p : SkvPacket} (hK : Kept s₀ s) :
    KeptX s₀ (execBudget p s) := by
  unfold execBudget
  repeat' first
    | with_reducible assumption
    | intro _
    | (extract_lets +onlyGivenNames x; first | (refine Kept.cut (s₀ := s₀) (x := x) ?_ ?_; rotate_left; intro _; clear_value x; rotate_left; unfold x; clear x) | (refine KeptX.cut (s₀ := s₀) (x := x) ?_ ?_; rotate_left; intro _; clear_value x; rotate_left; unfold x; clear x) | clear_value x | skip)
    | with_reducible apply Kept.ite
    | with_reducible apply KeptX.ite
    | with_reducible apply KeptX.next
    | with_reducible exact KeptX.refused
    | with_reducible apply inbound_kept
    | with_reducible apply satAdd_kept
    | with_reducible apply grant_kept
    | (with_reducible refine set_fb ?_; with_reducible assumption)
    | (with_reducible refine KeptX.of_eq ?_ ‹_›)
    | split

theorem execBudgetLifeExpire_kept {s₀ s : State}  (hK : Kept s₀ s) :
    KeptX s₀ (execBudgetLifeExpire s) := by
  unfold execBudgetLifeExpire
  repeat' first
    | with_reducible assumption
    | intro _
    | (extract_lets +onlyGivenNames x; first | (refine Kept.cut (s₀ := s₀) (x := x) ?_ ?_; rotate_left; intro _; clear_value x; rotate_left; unfold x; clear x) | (refine KeptX.cut (s₀ := s₀) (x := x) ?_ ?_; rotate_left; intro _; clear_value x; rotate_left; unfold x; clear x) | clear_value x | skip)
    | with_reducible apply Kept.ite
    | with_reducible apply KeptX.ite
    | with_reducible apply KeptX.next
    | with_reducible exact KeptX.refused
    | with_reducible apply grant_kept
    | (with_reducible refine set_fb ?_; with_reducible assumption)
    | (with_reducible refine KeptX.of_eq ?_ ‹_›)
    | split

theorem execSlack_kept {s₀ s : State}  (hK : Kept s₀ s) :
    KeptX s₀ (execSlack s) := by
  unfold execSlack
  repeat' first
    | with_reducible assumption
    | intro _
    | (extract_lets +onlyGivenNames x; first | (refine Kept.cut (s₀ := s₀) (x := x) ?_ ?_; rotate_left; intro _; clear_value x; rotate_left; unfold x; clear x) | (refine KeptX.cut (s₀ := s₀) (x := x) ?_ ?_; rotate_left; intro _; clear_value x; rotate_left; unfold x; clear x) | clear_value x | skip)
    | with_reducible apply Kept.ite
    | with_reducible apply KeptX.ite
    | with_reducible apply KeptX.next
    | with_reducible exact KeptX.refused
    | with_reducible apply skvSend_kept
    | (with_reducible refine KeptX.of_eq ?_ ‹_›)
    | split

theorem updRail_kept {s₀ s : State} {k : Nat} {f : Rail → Rail} (hK : Kept s₀ s) :
    Kept s₀ (updRail s k f) := by
  unfold updRail
  repeat' first
    | with_reducible assumption
    | intro _
    | (extract_lets +onlyGivenNames x; first | (refine Kept.cut (s₀ := s₀) (x := x) ?_ ?_; rotate_left; intro _; clear_value x; rotate_left; unfold x; clear x) | clear_value x | skip)
    | with_reducible apply Kept.ite
    | (with_reducible refine set_rails ?_; with_reducible assumption)
    | split

theorem railTerrace_kept {s₀ s : State} {tg : Nat} {p : Nat} {c : Nat} (hK : Kept s₀ s) :
    Kept s₀ (railTerrace s tg p c) := by
  unfold railTerrace
  repeat' first
    | with_reducible assumption
    | intro _
    | (extract_lets +onlyGivenNames x; first | (refine Kept.cut (s₀ := s₀) (x := x) ?_ ?_; rotate_left; intro _; clear_value x; rotate_left; unfold x; clear x) | clear_value x | skip)
    | with_reducible apply Kept.ite
    | with_reducible apply updTerrace_kept
    | split

theorem railThrottle_kept {s₀ s : State} {k : Nat} (hK : Kept s₀ s) :
    Kept s₀ (railThrottle s k) := by
  unfold railThrottle
  repeat' first
    | with_reducible assumption
    | intro _
    | (extract_lets +onlyGivenNames x; first | (refine Kept.cut (s₀ := s₀) (x := x) ?_ ?_; rotate_left; intro _; clear_value x; rotate_left; unfold x; clear x) | (refine kept_cut_fun (s₀ := s₀) (x := x) ?_ ?_; rotate_left; intro _; clear_value x; rotate_left; unfold x; clear x) | (refine kept_cut_fun2 (s₀ := s₀) (x := x) ?_ ?_; rotate_left; intro _; clear_value x; rotate_left; unfold x; clear x) | (refine kept_cut_fun3 (s₀ := s₀) (x := x) ?_ ?_; rotate_left; intro _; clear_value x; rotate_left; unfold x; clear x) | (refine kept_cut_val (s₀ := s₀) (x := x) ?_ ?_; rotate_left; intro _; clear_value x; rotate_left; unfold x; clear x) | clear_value x | skip)
    | with_reducible apply Kept.ite
    | with_reducible apply Kept.foldl
    | with_reducible apply applyLoop_kept
    | with_reducible apply followRidge_kept
    | with_reducible apply railTerrace_kept
    | (with_reducible refine set_rsvDue ?_; with_reducible assumption)
    | (with_reducible refine set_sensors ?_; with_reducible assumption)
    | with_reducible apply_assumption -exfalso -symm
    | split

theorem estimated_kept {s₀ s : State} {k : Nat} (hK : Kept s₀ s) :
    Kept s₀ (estimated s k) := by
  unfold estimated
  repeat' first
    | with_reducible assumption
    | intro _
    | (extract_lets +onlyGivenNames x; first | (refine Kept.cut (s₀ := s₀) (x := x) ?_ ?_; rotate_left; intro _; clear_value x; rotate_left; unfold x; clear x) | (refine KeptP.cut (s₀ := s₀) (x := x) ?_ ?_; rotate_left; intro _; clear_value x; rotate_left; unfold x; clear x) | clear_value x | skip)
    | with_reducible apply Kept.ite
    | with_reducible apply KeptP.ite
    | (with_reducible refine KeptP.snd ?_; with_reducible assumption)
    | with_reducible exact KeptP.val ‹_›
    | with_reducible refine KeptP.snd (fresh_kept ?_)
    | with_reducible apply fresh_kept
    | with_reducible apply updRail_kept
    | (with_reducible refine KeptP.of_eq ?_ ‹_›)
    | split
    | with_reducible apply KeptP.mk

theorem railEstimate_kept {s₀ s : State} {k : Nat} {cause : Nat} (hK : Kept s₀ s) :
    Kept s₀ (railEstimate s k cause) := by
  unfold railEstimate
  repeat' first
    | with_reducible assumption
    | intro _
    | (extract_lets +onlyGivenNames x; first | (refine Kept.cut (s₀ := s₀) (x := x) ?_ ?_; rotate_left; intro _; clear_value x; rotate_left; unfold x; clear x) | clear_value x | skip)
    | with_reducible apply Kept.ite
    | with_reducible apply rasAppend_kept
    | with_reducible apply estimated_kept
    | with_reducible apply fbEvent_kept
    | with_reducible apply railThrottle_kept
    | with_reducible apply updRail_kept
    | split

theorem execRailEstimation_kept {s₀ s : State} {k : Fin 29} {cause : Fin 3} (hK : Kept s₀ s) :
    KeptX s₀ (execRailEstimation k cause s) := by
  unfold execRailEstimation
  repeat' first
    | with_reducible assumption
    | intro _
    | (extract_lets +onlyGivenNames x; first | (refine Kept.cut (s₀ := s₀) (x := x) ?_ ?_; rotate_left; intro _; clear_value x; rotate_left; unfold x; clear x) | (refine KeptX.cut (s₀ := s₀) (x := x) ?_ ?_; rotate_left; intro _; clear_value x; rotate_left; unfold x; clear x) | clear_value x | skip)
    | with_reducible apply Kept.ite
    | with_reducible apply KeptX.ite
    | with_reducible apply KeptX.next
    | with_reducible exact KeptX.refused
    | with_reducible apply railEstimate_kept
    | (with_reducible refine KeptX.of_eq ?_ ‹_›)
    | split

theorem execRailTelemetry_kept {s₀ s : State} {k : Fin 29} {m : RailSample} (hK : Kept s₀ s) :
    KeptX s₀ (execRailTelemetry k m s) := by
  unfold execRailTelemetry
  repeat' first
    | with_reducible assumption
    | intro _
    | (extract_lets +onlyGivenNames x; first | (refine Kept.cut (s₀ := s₀) (x := x) ?_ ?_; rotate_left; intro _; clear_value x; rotate_left; unfold x; clear x) | (refine KeptX.cut (s₀ := s₀) (x := x) ?_ ?_; rotate_left; intro _; clear_value x; rotate_left; unfold x; clear x) | clear_value x | skip)
    | with_reducible apply Kept.ite
    | with_reducible apply KeptX.ite
    | with_reducible apply KeptX.next
    | with_reducible exact KeptX.refused
    | with_reducible apply estimated_kept
    | with_reducible apply railThrottle_kept
    | with_reducible apply updRail_kept
    | with_reducible apply railEstimate_kept
    | (with_reducible refine KeptX.of_eq ?_ ‹_›)
    | split

theorem execPhaseFail_kept {s₀ s : State} {k : Fin 29} (hK : Kept s₀ s) :
    KeptX s₀ (execPhaseFail k s) := by
  unfold execPhaseFail
  repeat' first
    | with_reducible assumption
    | intro _
    | (extract_lets +onlyGivenNames x; first | (refine Kept.cut (s₀ := s₀) (x := x) ?_ ?_; rotate_left; intro _; clear_value x; rotate_left; unfold x; clear x) | (refine KeptX.cut (s₀ := s₀) (x := x) ?_ ?_; rotate_left; intro _; clear_value x; rotate_left; unfold x; clear x) | clear_value x | skip)
    | with_reducible apply Kept.ite
    | with_reducible apply KeptX.ite
    | with_reducible apply KeptX.next
    | with_reducible exact KeptX.refused
    | with_reducible apply rasAppend_kept
    | with_reducible apply fbEvent_kept
    | with_reducible apply railThrottle_kept
    | with_reducible apply updRail_kept
    | (with_reducible refine KeptX.of_eq ?_ ‹_›)
    | split

theorem execIbcFail_kept {s₀ s : State} {unit : Fin 4} (hK : Kept s₀ s) :
    KeptX s₀ (execIbcFail unit s) := by
  unfold execIbcFail
  repeat' first
    | with_reducible assumption
    | intro _
    | (extract_lets +onlyGivenNames x; first | (refine Kept.cut (s₀ := s₀) (x := x) ?_ ?_; rotate_left; intro _; clear_value x; rotate_left; unfold x; clear x) | (refine KeptX.cut (s₀ := s₀) (x := x) ?_ ?_; rotate_left; intro _; clear_value x; rotate_left; unfold x; clear x) | clear_value x | skip)
    | with_reducible apply Kept.ite
    | with_reducible apply KeptX.ite
    | with_reducible apply KeptX.next
    | with_reducible exact KeptX.refused
    | with_reducible apply fbEvent_kept
    | with_reducible apply updRail_kept
    | (with_reducible refine KeptX.of_eq ?_ ‹_›)
    | split

theorem loseGroup_kept {s₀ s : State} {g : Nat} (hK : Kept s₀ s) :
    Kept s₀ (loseGroup s g) := by
  unfold loseGroup
  repeat' first
    | with_reducible assumption
    | intro _
    | (extract_lets +onlyGivenNames x; first | (refine Kept.cut (s₀ := s₀) (x := x) ?_ ?_; rotate_left; intro _; clear_value x; rotate_left; unfold x; clear x) | clear_value x | skip)
    | with_reducible apply Kept.ite
    | with_reducible apply Kept.foldl
    | with_reducible apply failStack_kept
    | split

theorem execRailFail_kept {s₀ s : State} {k : Fin 29} (hK : Kept s₀ s) :
    KeptX s₀ (execRailFail k s) := by
  unfold execRailFail
  repeat' first
    | with_reducible assumption
    | intro _
    | (extract_lets +onlyGivenNames x; first | (refine Kept.cut (s₀ := s₀) (x := x) ?_ ?_; rotate_left; intro _; clear_value x; rotate_left; unfold x; clear x) | (refine KeptX.cut (s₀ := s₀) (x := x) ?_ ?_; rotate_left; intro _; clear_value x; rotate_left; unfold x; clear x) | clear_value x | skip)
    | with_reducible apply Kept.ite
    | with_reducible apply KeptX.ite
    | with_reducible apply KeptX.next
    | with_reducible exact KeptX.refused
    | with_reducible apply rasAppend_kept
    | with_reducible apply loseGroup_kept
    | with_reducible apply fbEvent_kept
    | with_reducible apply askRetire_kept
    | with_reducible apply headworkFail_kept
    | with_reducible apply updRail_kept
    | (with_reducible refine KeptX.of_eq ?_ ‹_›)
    | split

theorem execDroopDetect_kept {s₀ s : State} {tg : Fin 64} {u0 : Island} (hK : Kept s₀ s) :
    KeptX s₀ (execDroopDetect tg u0 s) := by
  unfold execDroopDetect
  repeat' first
    | with_reducible assumption
    | intro _
    | (extract_lets +onlyGivenNames x; first | (refine Kept.cut (s₀ := s₀) (x := x) ?_ ?_; rotate_left; intro _; clear_value x; rotate_left; unfold x; clear x) | (refine KeptX.cut (s₀ := s₀) (x := x) ?_ ?_; rotate_left; intro _; clear_value x; rotate_left; unfold x; clear x) | clear_value x | skip)
    | with_reducible apply Kept.ite
    | with_reducible apply KeptX.ite
    | with_reducible apply KeptX.next
    | with_reducible exact KeptX.refused
    | with_reducible apply satAdd_kept
    | (with_reducible refine KeptX.of_eq ?_ ‹_›)
    | split

theorem setDomain_kept {s₀ s : State} {d : Domain} {p : PState} (hK : Kept s₀ s) :
    Kept s₀ (setDomain s d p) := by
  unfold setDomain
  repeat' first
    | with_reducible assumption
    | intro _
    | (extract_lets +onlyGivenNames x; first | (refine Kept.cut (s₀ := s₀) (x := x) ?_ ?_; rotate_left; intro _; clear_value x; rotate_left; unfold x; clear x) | clear_value x | skip)
    | with_reducible apply Kept.ite
    | with_reducible apply updLane_kept
    | with_reducible apply updTerrace_kept
    | (with_reducible refine set_ridgePower ?_; with_reducible assumption)
    | split

theorem execPowerGate_kept {s₀ s : State} {d : Domain} (hK : Kept s₀ s) :
    KeptX s₀ (execPowerGate d s) := by
  unfold execPowerGate
  repeat' first
    | with_reducible assumption
    | intro _
    | (extract_lets +onlyGivenNames x; first | (refine Kept.cut (s₀ := s₀) (x := x) ?_ ?_; rotate_left; intro _; clear_value x; rotate_left; unfold x; clear x) | (refine KeptX.cut (s₀ := s₀) (x := x) ?_ ?_; rotate_left; intro _; clear_value x; rotate_left; unfold x; clear x) | clear_value x | skip)
    | with_reducible apply Kept.ite
    | with_reducible apply KeptX.ite
    | with_reducible apply KeptX.next
    | with_reducible exact KeptX.refused
    | with_reducible apply setDomain_kept
    | (with_reducible refine KeptX.of_eq ?_ ‹_›)
    | split

theorem execDomainGated_kept {s₀ s : State} {d : Domain} (hK : Kept s₀ s) :
    KeptX s₀ (execDomainGated d s) := by
  unfold execDomainGated
  repeat' first
    | with_reducible assumption
    | intro _
    | (extract_lets +onlyGivenNames x; first | (refine Kept.cut (s₀ := s₀) (x := x) ?_ ?_; rotate_left; intro _; clear_value x; rotate_left; unfold x; clear x) | (refine KeptX.cut (s₀ := s₀) (x := x) ?_ ?_; rotate_left; intro _; clear_value x; rotate_left; unfold x; clear x) | clear_value x | skip)
    | with_reducible apply Kept.ite
    | with_reducible apply KeptX.ite
    | with_reducible apply KeptX.next
    | with_reducible exact KeptX.refused
    | with_reducible apply followRidge_kept
    | with_reducible apply setDomain_kept
    | with_reducible apply updTerrace_kept
    | (with_reducible refine KeptX.of_eq ?_ ‹_›)
    | split

theorem execReturnedPacket_kept {s₀ s : State} {d : Domain} (hK : Kept s₀ s) :
    KeptX s₀ (execReturnedPacket d s) := by
  unfold execReturnedPacket
  repeat' first
    | with_reducible assumption
    | intro _
    | (extract_lets +onlyGivenNames x; first | (refine Kept.cut (s₀ := s₀) (x := x) ?_ ?_; rotate_left; intro _; clear_value x; rotate_left; unfold x; clear x) | (refine KeptX.cut (s₀ := s₀) (x := x) ?_ ?_; rotate_left; intro _; clear_value x; rotate_left; unfold x; clear x) | clear_value x | skip)
    | with_reducible apply Kept.ite
    | with_reducible apply KeptX.ite
    | with_reducible apply KeptX.next
    | with_reducible exact KeptX.refused
    | with_reducible apply request_kept
    | with_reducible apply freeRun_kept
    | (with_reducible refine KeptX.of_eq ?_ ‹_›)
    | split

theorem wakeLane_kept {s₀ s : State} {fg : Nat} (hK : Kept s₀ s) :
    Kept s₀ (wakeLane s fg) := by
  unfold wakeLane
  repeat' first
    | with_reducible assumption
    | intro _
    | (extract_lets +onlyGivenNames x; first | (refine Kept.cut (s₀ := s₀) (x := x) ?_ ?_; rotate_left; intro _; clear_value x; rotate_left; unfold x; clear x) | clear_value x | skip)
    | with_reducible apply Kept.ite
    | with_reducible apply updLane_kept
    | split

theorem wakeRidge_kept {s₀ s : State} {r : Nat} (hK : Kept s₀ s) :
    Kept s₀ (wakeRidge s r) := by
  unfold wakeRidge
  repeat' first
    | with_reducible assumption
    | intro _
    | (extract_lets +onlyGivenNames x; first | (refine Kept.cut (s₀ := s₀) (x := x) ?_ ?_; rotate_left; intro _; clear_value x; rotate_left; unfold x; clear x) | clear_value x | skip)
    | with_reducible apply Kept.ite
    | (with_reducible refine set_ridgePower ?_; with_reducible assumption)
    | split

theorem execDomainWake_kept {s₀ s : State} {d : Domain} (hK : Kept s₀ s) :
    KeptX s₀ (execDomainWake d s) := by
  unfold execDomainWake
  repeat' first
    | with_reducible assumption
    | intro _
    | (extract_lets +onlyGivenNames x; first | (refine Kept.cut (s₀ := s₀) (x := x) ?_ ?_; rotate_left; intro _; clear_value x; rotate_left; unfold x; clear x) | (refine KeptP.cut (s₀ := s₀) (x := x) ?_ ?_; rotate_left; intro _; clear_value x; rotate_left; unfold x; clear x) | (refine KeptX.cut (s₀ := s₀) (x := x) ?_ ?_; rotate_left; intro _; clear_value x; rotate_left; unfold x; clear x) | clear_value x | skip)
    | with_reducible apply Kept.ite
    | with_reducible apply KeptP.ite
    | (with_reducible refine KeptP.snd ?_; with_reducible assumption)
    | with_reducible exact KeptP.val ‹_›
    | with_reducible refine KeptP.snd (fresh_kept ?_)
    | with_reducible apply KeptX.ite
    | with_reducible apply KeptX.next
    | with_reducible exact KeptX.refused
    | with_reducible apply fresh_kept
    | with_reducible apply followRidge_kept
    | with_reducible apply wakeLane_kept
    | with_reducible apply updTerrace_kept
    | with_reducible apply wakeRidge_kept
    | (with_reducible refine KeptP.of_eq ?_ ‹_›)
    | (with_reducible refine KeptX.of_eq ?_ ‹_›)
    | split
    | with_reducible apply KeptP.mk

theorem trip_kept {s₀ s : State} (hK : Kept s₀ s) : Kept s₀ (trip s) := by
  unfold trip
  extract_lets s1
  have h1 : Kept s₀ s1 := enterFaulted_kept hK
  exact h1.into rfl (fun hm => ⟨Mem.wf_empty, hm.2.1, hm.2.2.1, hm.2.2.2.1, rfl⟩) id

theorem execSpillwayTrip_kept {s₀ s : State}  (hK : Kept s₀ s) :
    KeptX s₀ (execSpillwayTrip s) := by
  unfold execSpillwayTrip
  repeat' first
    | with_reducible assumption
    | intro _
    | (extract_lets +onlyGivenNames x; first | (refine Kept.cut (s₀ := s₀) (x := x) ?_ ?_; rotate_left; intro _; clear_value x; rotate_left; unfold x; clear x) | (refine KeptX.cut (s₀ := s₀) (x := x) ?_ ?_; rotate_left; intro _; clear_value x; rotate_left; unfold x; clear x) | clear_value x | skip)
    | with_reducible apply Kept.ite
    | with_reducible apply KeptX.ite
    | with_reducible apply KeptX.next
    | with_reducible exact KeptX.refused
    | with_reducible apply trip_kept
    | (with_reducible refine KeptX.of_eq ?_ ‹_›)
    | split

theorem stageRose_kept {s₀ s : State} {p : Junction} {temp : Nat} {old : Stage} {new : Stage} (hK : Kept s₀ s) :
    Kept s₀ (stageRose s p temp old new) := by
  unfold stageRose
  repeat' first
    | with_reducible assumption
    | intro _
    | (extract_lets +onlyGivenNames x; first | (refine Kept.cut (s₀ := s₀) (x := x) ?_ ?_; rotate_left; intro _; clear_value x; rotate_left; unfold x; clear x) | clear_value x | skip)
    | with_reducible apply Kept.ite
    | with_reducible apply rasAppend_kept
    | with_reducible apply fbEvent_kept
    | with_reducible apply exEvent_kept
    | with_reducible apply satAdd_kept
    | (with_reducible refine set_rsvDue ?_; with_reducible assumption)
    | split

theorem execJunctionSample_kept {s₀ s : State} {p : Junction} {temp : Nat} (hK : Kept s₀ s) :
    KeptX s₀ (execJunctionSample p temp s) := by
  unfold execJunctionSample
  repeat' first
    | with_reducible assumption
    | intro _
    | (extract_lets +onlyGivenNames x; first | (refine Kept.cut (s₀ := s₀) (x := x) ?_ ?_; rotate_left; intro _; clear_value x; rotate_left; unfold x; clear x) | (refine KeptX.cut (s₀ := s₀) (x := x) ?_ ?_; rotate_left; intro _; clear_value x; rotate_left; unfold x; clear x) | clear_value x | skip)
    | with_reducible apply Kept.ite
    | with_reducible apply KeptX.ite
    | with_reducible apply KeptX.next
    | with_reducible exact KeptX.refused
    | with_reducible apply trip_kept
    | with_reducible apply stageRose_kept
    | (with_reducible refine set_sensors ?_; with_reducible assumption)
    | (with_reducible refine KeptX.of_eq ?_ ‹_›)
    | split

theorem execThermalCeilingStep_kept {s₀ s : State} {d : Domain} (hK : Kept s₀ s) :
    KeptX s₀ (execThermalCeilingStep d s) := by
  unfold execThermalCeilingStep
  repeat' first
    | with_reducible assumption
    | intro _
    | (extract_lets +onlyGivenNames x; first | (refine Kept.cut (s₀ := s₀) (x := x) ?_ ?_; rotate_left; intro _; clear_value x; rotate_left; unfold x; clear x) | (refine KeptX.cut (s₀ := s₀) (x := x) ?_ ?_; rotate_left; intro _; clear_value x; rotate_left; unfold x; clear x) | clear_value x | skip)
    | with_reducible apply Kept.ite
    | with_reducible apply KeptX.ite
    | with_reducible apply KeptX.next
    | with_reducible exact KeptX.refused
    | with_reducible apply applyLoop_kept
    | with_reducible apply followRidge_kept
    | with_reducible apply followLane_kept
    | with_reducible apply updLane_kept
    | with_reducible apply updTerrace_kept
    | (with_reducible refine KeptX.of_eq ?_ ‹_›)
    | split

theorem execEnergyWindowClose_kept {s₀ s : State} {m : EnergySample} (hK : Kept s₀ s) :
    KeptX s₀ (execEnergyWindowClose m s) := by
  unfold execEnergyWindowClose
  repeat' first
    | with_reducible assumption
    | intro _
    | (extract_lets +onlyGivenNames x; first | (refine Kept.cut (s₀ := s₀) (x := x) ?_ ?_; rotate_left; intro _; clear_value x; rotate_left; unfold x; clear x) | (refine KeptX.cut (s₀ := s₀) (x := x) ?_ ?_; rotate_left; intro _; clear_value x; rotate_left; unfold x; clear x) | (refine kept_cut_fun (s₀ := s₀) (x := x) ?_ ?_; rotate_left; intro _; clear_value x; rotate_left; unfold x; clear x) | (refine kept_cut_fun2 (s₀ := s₀) (x := x) ?_ ?_; rotate_left; intro _; clear_value x; rotate_left; unfold x; clear x) | (refine kept_cut_fun3 (s₀ := s₀) (x := x) ?_ ?_; rotate_left; intro _; clear_value x; rotate_left; unfold x; clear x) | (refine kept_cut_val (s₀ := s₀) (x := x) ?_ ?_; rotate_left; intro _; clear_value x; rotate_left; unfold x; clear x) | clear_value x | skip)
    | with_reducible apply Kept.ite
    | with_reducible apply KeptX.ite
    | with_reducible apply KeptX.next
    | with_reducible exact KeptX.refused
    | with_reducible apply Kept.foldl
    | with_reducible apply ctrAdd_kept
    | (with_reducible refine KeptX.of_eq ?_ ‹_›)
    | with_reducible apply_assumption -exfalso -symm
    | split

end Sys2Proof.Machine
end

