-- ==== Sys2Proof/Laws/KeptDieRegs.lean ====
section
/-! SUPPORT. What the operations and meanings of Machine/DieRegs.lean keep. -/

set_option linter.unreachableTactic false
set_option linter.unusedTactic false
set_option linter.unusedVariables false
set_option linter.tactic.unusedName false

namespace Sys2Proof.Machine

theorem clearRc_kept {s₀ s : State} {off : Nat} (hK : Kept s₀ s) : Kept s₀ (clearRc s off) := by
  unfold clearRc
  split
  · exact hK
  · refine Kept.ite hK ?_
    split
    · exact Kept.ite (updTerrace_kept hK) (setRg_kept hK)
    · exact Kept.ite (set_flog hK (fun hl => by rw [List.length_drop]; omega)) (setRg_kept hK)

theorem readReg_kept {s₀ s : State} {who : Nat} {off : Nat} (hK : Kept s₀ s) :
    KeptP s₀ (readReg s who off) := by
  unfold readReg
  repeat' first
    | with_reducible assumption
    | intro _
    | (extract_lets +onlyGivenNames x; first | (refine Kept.cut (s₀ := s₀) (x := x) ?_ ?_; rotate_left; intro _; clear_value x; rotate_left; unfold x; clear x) | (refine KeptP.cut (s₀ := s₀) (x := x) ?_ ?_; rotate_left; intro _; clear_value x; rotate_left; unfold x; clear x) | clear_value x | skip)
    | with_reducible apply Kept.ite
    | with_reducible apply KeptP.ite
    | (with_reducible refine KeptP.snd ?_; with_reducible assumption)
    | with_reducible exact KeptP.val ‹_›
    | with_reducible apply clearRc_kept
    | (with_reducible refine set_shadows ?_; first | with_reducible assumption | with_reducible exact KeptP.val ‹_› | (with_reducible refine KeptP.of_eq ?_ ‹_›; first | with_reducible assumption))
    | (with_reducible refine KeptP.of_eq ?_ ‹_›)
    | split
    | with_reducible apply KeptP.mk

theorem barRead_kept {s₀ s : State} {r : Requester} {bar : Bar} {off : Nat} (hK : Kept s₀ s) :
    KeptP s₀ (barRead s r bar off) := by
  unfold barRead
  repeat' first
    | with_reducible assumption
    | intro _
    | (extract_lets +onlyGivenNames x; first | (refine Kept.cut (s₀ := s₀) (x := x) ?_ ?_; rotate_left; intro _; clear_value x; rotate_left; unfold x; clear x) | (refine KeptP.cut (s₀ := s₀) (x := x) ?_ ?_; rotate_left; intro _; clear_value x; rotate_left; unfold x; clear x) | clear_value x | skip)
    | with_reducible apply Kept.ite
    | with_reducible apply KeptP.ite
    | (with_reducible refine KeptP.snd ?_; with_reducible assumption)
    | with_reducible exact KeptP.val ‹_›
    | with_reducible refine KeptP.snd (readReg_kept ?_)
    | with_reducible apply exmas_kept
    | with_reducible apply readReg_kept
    | (with_reducible refine KeptP.of_eq ?_ ‹_›)
    | split
    | with_reducible apply KeptP.mk

theorem readBytes_kept {s₀ s : State} {r : Requester} {bar : Bar} {off : Nat} {n : Nat} (hK : Kept s₀ s) :
    KeptP s₀ (readBytes s r bar off n) := by
  unfold readBytes
  repeat' first
    | with_reducible assumption
    | intro _
    | (extract_lets +onlyGivenNames x; first | (refine Kept.cut (s₀ := s₀) (x := x) ?_ ?_; rotate_left; intro _; clear_value x; rotate_left; unfold x; clear x) | (refine KeptP.cut (s₀ := s₀) (x := x) ?_ ?_; rotate_left; intro _; clear_value x; rotate_left; unfold x; clear x) | clear_value x | skip)
    | with_reducible apply Kept.ite
    | with_reducible apply KeptP.ite
    | (with_reducible refine KeptP.snd ?_; with_reducible assumption)
    | with_reducible exact KeptP.val ‹_›
    | with_reducible refine KeptP.snd (barRead_kept ?_)
    | with_reducible refine KeptP.snd (KeptP.foldl ?_ ?_)
    | with_reducible apply Kept.foldl
    | with_reducible apply KeptP.foldl
    | with_reducible apply barRead_kept
    | (with_reducible refine KeptP.of_eq ?_ ‹_›)
    | split
    | with_reducible apply KeptP.mk

theorem hostRead_kept {s₀ s : State} {r : Requester} {bar : Bar} {off : Nat} {size : AccSize} (hK : Kept s₀ s) :
    Kept s₀ (hostRead r bar off size s) := by
  unfold hostRead
  repeat' first
    | with_reducible assumption
    | intro _
    | (extract_lets +onlyGivenNames x; first | (refine Kept.cut (s₀ := s₀) (x := x) ?_ ?_; rotate_left; intro _; clear_value x; rotate_left; unfold x; clear x) | (refine KeptP.cut (s₀ := s₀) (x := x) ?_ ?_; rotate_left; intro _; clear_value x; rotate_left; unfold x; clear x) | clear_value x | skip)
    | with_reducible apply Kept.ite
    | with_reducible apply KeptP.ite
    | (with_reducible refine KeptP.snd ?_; with_reducible assumption)
    | with_reducible exact KeptP.val ‹_›
    | with_reducible refine KeptP.snd (readBytes_kept ?_)
    | with_reducible apply emit_kept
    | with_reducible apply readBytes_kept
    | (with_reducible refine KeptP.of_eq ?_ ‹_›)
    | split
    | with_reducible apply KeptP.mk

theorem execCounterLoRead_kept {s₀ s : State} {r : Requester} {place : RegAt} (hK : Kept s₀ s) :
    KeptX s₀ (execCounterLoRead r place s) := by
  unfold execCounterLoRead
  repeat' first
    | with_reducible assumption
    | intro _
    | (extract_lets +onlyGivenNames x; first | (refine Kept.cut (s₀ := s₀) (x := x) ?_ ?_; rotate_left; intro _; clear_value x; rotate_left; unfold x; clear x) | (refine KeptX.cut (s₀ := s₀) (x := x) ?_ ?_; rotate_left; intro _; clear_value x; rotate_left; unfold x; clear x) | clear_value x | skip)
    | with_reducible apply Kept.ite
    | with_reducible apply KeptX.ite
    | with_reducible apply KeptX.next
    | with_reducible exact KeptX.refused
    | with_reducible apply hostRead_kept
    | (with_reducible refine KeptX.of_eq ?_ ‹_›)
    | split

theorem execRcFieldRead_kept {s₀ s : State} {r : Requester} {place : RegAt} (hK : Kept s₀ s) :
    KeptX s₀ (execRcFieldRead r place s) := by
  unfold execRcFieldRead
  repeat' first
    | with_reducible assumption
    | intro _
    | (extract_lets +onlyGivenNames x; first | (refine Kept.cut (s₀ := s₀) (x := x) ?_ ?_; rotate_left; intro _; clear_value x; rotate_left; unfold x; clear x) | (refine KeptX.cut (s₀ := s₀) (x := x) ?_ ?_; rotate_left; intro _; clear_value x; rotate_left; unfold x; clear x) | clear_value x | skip)
    | with_reducible apply Kept.ite
    | with_reducible apply KeptX.ite
    | with_reducible apply KeptX.next
    | with_reducible exact KeptX.refused
    | with_reducible apply hostRead_kept
    | (with_reducible refine KeptX.of_eq ?_ ‹_›)
    | split

end Sys2Proof.Machine
end

