-- ==== Sys2Proof/Laws/KeptEpilogue.lean ====
section
/-! SUPPORT. What the operations and meanings of Machine/Epilogue.lean keep. -/

set_option linter.unreachableTactic false
set_option linter.unusedTactic false
set_option linter.unusedVariables false
set_option linter.tactic.unusedName false

namespace Sys2Proof.Machine

theorem execEpi_kept {s₀ s : State} {i : Issue} (hK : Kept s₀ s) :
    KeptX s₀ (execEpi i s) := by
  unfold execEpi
  repeat' first
    | with_reducible assumption
    | intro _
    | (extract_lets +onlyGivenNames x; first | (refine Kept.cut (s₀ := s₀) (x := x) ?_ ?_; rotate_left; intro _; clear_value x; rotate_left; unfold x; clear x) | (refine KeptX.cut (s₀ := s₀) (x := x) ?_ ?_; rotate_left; intro _; clear_value x; rotate_left; unfold x; clear x) | (refine KeptO.cut (s₀ := s₀) (x := x) ?_ ?_; rotate_left; intro _; clear_value x; rotate_left; unfold x; clear x) | clear_value x | skip)
    | with_reducible apply Kept.ite
    | with_reducible apply KeptO.ite
    | with_reducible exact KeptO.val ‹_›
    | with_reducible apply KeptO.some
    | with_reducible exact KeptO.none
    | with_reducible apply KeptX.ite
    | with_reducible apply KeptX.next
    | with_reducible exact KeptX.refused
    | with_reducible apply forward_kept
    | with_reducible apply issue_kept
    | with_reducible apply checked_kept
    | (with_reducible refine KeptO.of_eq ?_ ‹_›)
    | (with_reducible refine KeptX.of_eq ?_ ‹_›)
    | split

theorem observe_kept {s₀ s : State} {tg : Nat} {h : BitVec 16} {nz : List (List Bool)} {poison : Bool} (hK : Kept s₀ s) :
    Kept s₀ (observe s tg h nz poison) := by
  unfold observe
  repeat' first
    | with_reducible assumption
    | intro _
    | (extract_lets +onlyGivenNames x; first | (refine Kept.cut (s₀ := s₀) (x := x) ?_ ?_; rotate_left; intro _; clear_value x; rotate_left; unfold x; clear x) | (refine kept_cut_fun (s₀ := s₀) (x := x) ?_ ?_; rotate_left; intro _; clear_value x; rotate_left; unfold x; clear x) | (refine kept_cut_fun2 (s₀ := s₀) (x := x) ?_ ?_; rotate_left; intro _; clear_value x; rotate_left; unfold x; clear x) | (refine kept_cut_fun3 (s₀ := s₀) (x := x) ?_ ?_; rotate_left; intro _; clear_value x; rotate_left; unfold x; clear x) | (refine kept_cut_val (s₀ := s₀) (x := x) ?_ ?_; rotate_left; intro _; clear_value x; rotate_left; unfold x; clear x) | clear_value x | skip)
    | with_reducible apply Kept.ite
    | with_reducible apply Kept.foldl
    | with_reducible apply writeRegion_kept
    | with_reducible apply_assumption -exfalso -symm
    | split

theorem observeEnd_kept {s₀ s : State} {tg : Nat} {c : Cmd} (hK : Kept s₀ s) :
    Kept s₀ (observeEnd s tg c) := by
  unfold observeEnd
  repeat' first
    | with_reducible assumption
    | intro _
    | (extract_lets +onlyGivenNames x; first | (refine Kept.cut (s₀ := s₀) (x := x) ?_ ?_; rotate_left; intro _; clear_value x; rotate_left; unfold x; clear x) | clear_value x | skip)
    | with_reducible apply Kept.ite
    | with_reducible apply writeRegion_kept
    | split

theorem storeCompressed_kept {s₀ s : State} {tg : Nat} {al : Nat} {x : Desc} {g : List (List REl)} (hK : Kept s₀ s) :
    KeptOV s₀ (storeCompressed s tg al x g) := by
  unfold storeCompressed
  repeat' first
    | with_reducible assumption
    | intro _
    | (extract_lets +onlyGivenNames x; first | (refine Kept.cut (s₀ := s₀) (x := x) ?_ ?_; rotate_left; intro _; clear_value x; rotate_left; unfold x; clear x) | (refine KeptU.cut (s₀ := s₀) (x := x) ?_ ?_; rotate_left; intro _; clear_value x; rotate_left; unfold x; clear x) | (refine KeptV.cut (s₀ := s₀) (x := x) ?_ ?_; rotate_left; intro _; clear_value x; rotate_left; unfold x; clear x) | (refine KeptOV.cut (s₀ := s₀) (x := x) ?_ ?_; rotate_left; intro _; clear_value x; rotate_left; unfold x; clear x) | clear_value x | skip)
    | with_reducible apply Kept.ite
    | with_reducible apply KeptOV.ite
    | with_reducible apply KeptOV.some
    | with_reducible exact KeptOV.none
    | with_reducible apply KeptU.ite
    | (with_reducible refine KeptU.st ?_; with_reducible assumption)
    | with_reducible refine KeptU.st (maskedRowStore_kept ?_)
    | with_reducible refine KeptU.st (maskedStore_kept ?_)
    | with_reducible refine KeptU.st (KeptV.fst (detectStore_kept ?_))
    | with_reducible apply KeptV.ite
    | (with_reducible refine KeptV.fst ?_; with_reducible assumption)
    | with_reducible exact KeptV.val ‹_›
    | with_reducible refine KeptV.fst (detectStore_kept ?_)
    | with_reducible apply maskedRowStore_kept
    | with_reducible apply maskedStore_kept
    | with_reducible apply detectStore_kept
    | (with_reducible refine KeptOV.of_eq ?_ ‹_›)
    | (with_reducible refine KeptV.of_eq ?_ ‹_›)
    | split
    | with_reducible apply KeptU.mk
    | with_reducible apply KeptV.mk

theorem epiCount_kept {s₀ s : State} {tg : Nat} {k : EpiCtl} {bypass : Bool} {n : Nat} (hK : Kept s₀ s) :
    Kept s₀ (epiCount s tg k bypass n) := by
  unfold epiCount
  repeat' first
    | with_reducible assumption
    | intro _
    | (extract_lets +onlyGivenNames x; first | (refine Kept.cut (s₀ := s₀) (x := x) ?_ ?_; rotate_left; intro _; clear_value x; rotate_left; unfold x; clear x) | clear_value x | skip)
    | with_reducible apply Kept.ite
    | with_reducible apply ctrAdd_kept
    | with_reducible apply setRg_kept
    | split

theorem drainNote_kept {s₀ s : State} {tg : Nat} {c : Cmd} {tile : AccTag} {x : Desc} {d : Drain} (hK : Kept s₀ s) :
    Kept s₀ (drainNote s tg c tile x d) := by
  unfold drainNote
  repeat' first
    | with_reducible assumption
    | intro _
    | (extract_lets +onlyGivenNames x; first | (refine Kept.cut (s₀ := s₀) (x := x) ?_ ?_; rotate_left; intro _; clear_value x; rotate_left; unfold x; clear x) | clear_value x | skip)
    | with_reducible apply Kept.ite
    | with_reducible apply flagT_kept
    | with_reducible apply observe_kept
    | with_reducible apply epiCount_kept
    | split

theorem drainEnd_kept {s₀  : State} {tg : Nat} {c : Cmd} {tile : AccTag} {x : Desc} {d : Drain} {r : Bool × State} (h_r : KeptP s₀ r) :
    KeptP s₀ (drainEnd tg c tile x d r) := by
  unfold drainEnd
  repeat' first
    | with_reducible assumption
    | intro _
    | (extract_lets +onlyGivenNames x; first | (refine Kept.cut (s₀ := s₀) (x := x) ?_ ?_; rotate_left; intro _; clear_value x; rotate_left; unfold x; clear x) | (refine KeptP.cut (s₀ := s₀) (x := x) ?_ ?_; rotate_left; intro _; clear_value x; rotate_left; unfold x; clear x) | clear_value x | skip)
    | with_reducible apply Kept.ite
    | with_reducible apply KeptP.ite
    | (with_reducible refine KeptP.snd ?_; with_reducible assumption)
    | with_reducible exact KeptP.val ‹_›
    | with_reducible apply drainNote_kept
    | (with_reducible refine KeptP.of_eq ?_ ‹_›)
    | with_reducible apply h_r
    | split
    | with_reducible apply KeptP.mk

theorem startDrain_kept {s₀ s : State} {tg : Nat} {c : Cmd} (hK : Kept s₀ s) :
    KeptP s₀ (startDrain s tg c) := by
  unfold startDrain
  repeat' first
    | with_reducible assumption
    | intro _
    | (extract_lets +onlyGivenNames x; first | (refine Kept.cut (s₀ := s₀) (x := x) ?_ ?_; rotate_left; intro _; clear_value x; rotate_left; unfold x; clear x) | (refine KeptP.cut (s₀ := s₀) (x := x) ?_ ?_; rotate_left; intro _; clear_value x; rotate_left; unfold x; clear x) | (refine KeptU.cut (s₀ := s₀) (x := x) ?_ ?_; rotate_left; intro _; clear_value x; rotate_left; unfold x; clear x) | (refine KeptV.cut (s₀ := s₀) (x := x) ?_ ?_; rotate_left; intro _; clear_value x; rotate_left; unfold x; clear x) | (refine KeptOV.cut (s₀ := s₀) (x := x) ?_ ?_; rotate_left; intro _; clear_value x; rotate_left; unfold x; clear x) | clear_value x | skip)
    | with_reducible apply Kept.ite
    | with_reducible apply KeptOV.ite
    | with_reducible apply KeptOV.some
    | with_reducible exact KeptOV.none
    | with_reducible apply KeptP.ite
    | (with_reducible refine KeptP.snd ?_; with_reducible assumption)
    | with_reducible exact KeptP.val ‹_›
    | with_reducible refine KeptP.snd (outStore_kept ?_)
    | with_reducible refine KeptP.snd (drainEnd_kept ?_)
    | with_reducible apply KeptU.ite
    | (with_reducible refine KeptU.st ?_; with_reducible assumption)
    | with_reducible refine KeptU.st (putGrid_kept ?_)
    | with_reducible apply KeptV.ite
    | (with_reducible refine KeptV.fst ?_; with_reducible assumption)
    | with_reducible exact KeptV.val ‹_›
    | with_reducible apply sendTiles_kept
    | with_reducible apply passOwed_kept
    | with_reducible apply flagT_kept
    | with_reducible apply putGrid_kept
    | with_reducible apply stageFault_kept
    | with_reducible apply updTerrace_kept
    | with_reducible apply outStore_kept
    | with_reducible apply storeCompressed_kept
    | with_reducible apply notePoison_kept
    | with_reducible apply drainEnd_kept
    | (with_reducible refine KeptOV.of_eq ?_ ‹_›)
    | (with_reducible refine KeptP.of_eq ?_ ‹_›)
    | (with_reducible refine KeptV.of_eq ?_ ‹_›)
    | split
    | with_reducible apply KeptP.mk
    | with_reducible apply KeptU.mk
    | with_reducible apply KeptV.mk

end Sys2Proof.Machine
end

