-- ==== Sys2Proof/Laws/KeptRegWrite.lean ====
section
/-! SUPPORT. What the operations and meanings of Machine/RegWrite.lean keep. -/

set_option linter.unreachableTactic false
set_option linter.unusedTactic false
set_option linter.unusedVariables false
set_option linter.tactic.unusedName false

namespace Sys2Proof.Machine

theorem execRasPop_kept {s₀ s : State} {r : Requester} {v : W32} (hK : Kept s₀ s) : KeptX s₀ (execRasPop r v s) :=
  KeptX.next (pfWriteAlways_kept hK (fun _ h => Kept.ite (set_ras h (fun hl => by rw [List.length_drop]; omega)) h))

theorem execIntStatClear_kept {s₀ s : State} {r : Requester} {v : W32} (hK : Kept s₀ s) :
    KeptX s₀ (execIntStatClear r v s) := by
  unfold execIntStatClear
  repeat' first
    | with_reducible assumption
    | intro _
    | (extract_lets +onlyGivenNames x; first | (refine Kept.cut (s₀ := s₀) (x := x) ?_ ?_; rotate_left; intro _; clear_value x; rotate_left; unfold x; clear x) | (refine KeptX.cut (s₀ := s₀) (x := x) ?_ ?_; rotate_left; intro _; clear_value x; rotate_left; unfold x; clear x) | clear_value x | skip)
    | with_reducible apply Kept.ite
    | with_reducible apply KeptX.ite
    | with_reducible apply KeptX.next
    | with_reducible exact KeptX.refused
    | with_reducible apply wantSet_kept
    | with_reducible apply pfWriteAlways_kept
    | with_reducible apply setRg_kept
    | (with_reducible refine KeptX.of_eq ?_ ‹_›)
    | split

theorem execIntEnWrite_kept {s₀ s : State} {r : Requester} {v : W32} (hK : Kept s₀ s) :
    KeptX s₀ (execIntEnWrite r v s) := by
  unfold execIntEnWrite
  repeat' first
    | with_reducible assumption
    | intro _
    | (extract_lets +onlyGivenNames x; first | (refine Kept.cut (s₀ := s₀) (x := x) ?_ ?_; rotate_left; intro _; clear_value x; rotate_left; unfold x; clear x) | (refine KeptX.cut (s₀ := s₀) (x := x) ?_ ?_; rotate_left; intro _; clear_value x; rotate_left; unfold x; clear x) | clear_value x | skip)
    | with_reducible apply Kept.ite
    | with_reducible apply KeptX.ite
    | with_reducible apply KeptX.next
    | with_reducible exact KeptX.refused
    | with_reducible apply wantSet_kept
    | with_reducible apply pfWriteAlways_kept
    | with_reducible apply setRg_kept
    | (with_reducible refine KeptX.of_eq ?_ ‹_›)
    | split

theorem execIntMessage_kept {s₀ s : State} {vector : Fin 16} (hK : Kept s₀ s) :
    KeptX s₀ (execIntMessage vector s) := by
  unfold execIntMessage
  repeat' first
    | with_reducible assumption
    | intro _
    | (extract_lets +onlyGivenNames x; first | (refine Kept.cut (s₀ := s₀) (x := x) ?_ ?_; rotate_left; intro _; clear_value x; rotate_left; unfold x; clear x) | (refine KeptX.cut (s₀ := s₀) (x := x) ?_ ?_; rotate_left; intro _; clear_value x; rotate_left; unfold x; clear x) | clear_value x | skip)
    | with_reducible apply Kept.ite
    | with_reducible apply KeptX.ite
    | with_reducible apply KeptX.next
    | with_reducible exact KeptX.refused
    | with_reducible apply emit_kept
    | with_reducible apply satAdd_kept
    | (with_reducible refine set_intPend ?_; with_reducible assumption)
    | (with_reducible refine KeptX.of_eq ?_ ‹_›)
    | split

theorem skvIdWritten_kept {s₀ s : State}  (hK : Kept s₀ s) :
    Kept s₀ (skvIdWritten s) := by
  unfold skvIdWritten
  repeat' first
    | with_reducible assumption
    | intro _
    | (extract_lets +onlyGivenNames x; first | (refine Kept.cut (s₀ := s₀) (x := x) ?_ ?_; rotate_left; intro _; clear_value x; rotate_left; unfold x; clear x) | clear_value x | skip)
    | with_reducible apply Kept.ite
    | with_reducible apply Kept.foldl
    | with_reducible apply portDown_kept
    | split

theorem putReg_kept {s₀ s : State} {off : Nat} {row : RegRow} {v : W32} (hK : Kept s₀ s) :
    Kept s₀ (putReg s off row v) := by
  unfold putReg
  repeat' first
    | with_reducible assumption
    | intro _
    | (extract_lets +onlyGivenNames x; first | (refine Kept.cut (s₀ := s₀) (x := x) ?_ ?_; rotate_left; intro _; clear_value x; rotate_left; unfold x; clear x) | clear_value x | skip)
    | with_reducible apply Kept.ite
    | with_reducible apply State.reset_kept
    | with_reducible apply skvIdWritten_kept
    | with_reducible apply updTerrace_kept
    | with_reducible apply setRg_kept
    | split

theorem plainWrite_kept {s₀ s : State} {r : Requester} {off : Nat} {v : W32} (hK : Kept s₀ s) :
    Kept s₀ (plainWrite s r off v) := by
  unfold plainWrite
  repeat' first
    | with_reducible assumption
    | intro _
    | (extract_lets +onlyGivenNames x; first | (refine Kept.cut (s₀ := s₀) (x := x) ?_ ?_; rotate_left; intro _; clear_value x; rotate_left; unfold x; clear x) | clear_value x | skip)
    | with_reducible apply Kept.ite
    | with_reducible apply rasAppend_kept
    | with_reducible apply logDropped_kept
    | with_reducible apply putReg_kept
    | split

theorem nextOr_kept {s₀ s : State} {o : Host.Outcome State Fault Refusal} (hK : Kept s₀ s) (ho : KeptX s₀ o) :
    Kept s₀ (nextOr s o) := by
  unfold nextOr
  split
  · exact ho
  · exact hK

theorem allotCmdWrite_kept {s₀ s : State} {r : Requester} {a : Nat} {v : W32} (hK : Kept s₀ s) :
    Kept s₀ (allotCmdWrite r a v s) := by
  unfold allotCmdWrite
  repeat' first
    | with_reducible assumption
    | intro _
    | (extract_lets +onlyGivenNames x; first | (refine Kept.cut (s₀ := s₀) (x := x) ?_ ?_; rotate_left; intro _; clear_value x; rotate_left; unfold x; clear x) | (refine KeptX.cut (s₀ := s₀) (x := x) ?_ ?_; rotate_left; intro _; clear_value x; rotate_left; unfold x; clear x) | clear_value x | skip)
    | with_reducible apply Kept.ite
    | with_reducible apply KeptX.ite
    | with_reducible apply KeptX.next
    | with_reducible exact KeptX.refused
    | with_reducible apply nextOr_kept
    | with_reducible apply pfWrite_kept
    | with_reducible apply execAllotReset_kept
    | with_reducible apply execAllotKill_kept
    | (with_reducible refine KeptX.of_eq ?_ ‹_›)
    | split

theorem globWrite_kept {s₀ s : State} {r : Requester} {off : Nat} {v : W32} (hK : Kept s₀ s) :
    Kept s₀ (globWrite r off v s) := by
  unfold globWrite
  repeat' first
    | with_reducible assumption
    | intro _
    | (extract_lets +onlyGivenNames x; first | (refine Kept.cut (s₀ := s₀) (x := x) ?_ ?_; rotate_left; intro _; clear_value x; rotate_left; unfold x; clear x) | (refine KeptX.cut (s₀ := s₀) (x := x) ?_ ?_; rotate_left; intro _; clear_value x; rotate_left; unfold x; clear x) | clear_value x | skip)
    | with_reducible apply Kept.ite
    | with_reducible apply KeptX.ite
    | with_reducible apply KeptX.next
    | with_reducible exact KeptX.refused
    | with_reducible apply execXltCtxWrite_kept
    | with_reducible apply execFbCapWrite_kept
    | with_reducible apply execQCfgWrite_kept
    | with_reducible apply nextOr_kept
    | with_reducible apply execIntEnWrite_kept
    | with_reducible apply execGaugeCfgWrite_kept
    | with_reducible apply execAllotCfgWrite_kept
    | with_reducible apply execRsvPctWrite_kept
    | with_reducible apply execIntStatClear_kept
    | with_reducible apply execSkvWinWrite_kept
    | with_reducible apply execXltRootWrite_kept
    | with_reducible apply rsvRequest_kept
    | with_reducible apply execXltInvalidate_kept
    | with_reducible apply execSkvRteWrite_kept
    | with_reducible apply plainWrite_kept
    | with_reducible apply execRasPop_kept
    | with_reducible apply allotCmdWrite_kept
    | with_reducible apply rstCtl_kept
    | (with_reducible refine KeptX.of_eq ?_ ‹_›)
    | split

theorem write32_kept {s₀ s : State} {r : Requester} {off : Nat} {v : W32} (hK : Kept s₀ s) :
    Kept s₀ (write32 r off v s) := by
  unfold write32
  repeat' first
    | with_reducible assumption
    | intro _
    | (extract_lets +onlyGivenNames x; first | (refine Kept.cut (s₀ := s₀) (x := x) ?_ ?_; rotate_left; intro _; clear_value x; rotate_left; unfold x; clear x) | (refine KeptX.cut (s₀ := s₀) (x := x) ?_ ?_; rotate_left; intro _; clear_value x; rotate_left; unfold x; clear x) | clear_value x | skip)
    | with_reducible apply Kept.ite
    | with_reducible apply KeptX.ite
    | with_reducible apply KeptX.next
    | with_reducible exact KeptX.refused
    | with_reducible apply nextOr_kept
    | with_reducible apply execGaugeCfgWrite_kept
    | with_reducible apply globWrite_kept
    | with_reducible apply plainWrite_kept
    | with_reducible apply execGaugeHeadWrite_kept
    | (with_reducible refine KeptX.of_eq ?_ ‹_›)
    | split

theorem page32_kept {s₀ s : State} {bar : Bar} {r : Requester} {al : Nat} {off : Nat} {v : W32} (hK : Kept s₀ s) :
    Kept s₀ (page32 bar r al off v s) := by
  unfold page32
  repeat' first
    | with_reducible assumption
    | intro _
    | (extract_lets +onlyGivenNames x; first | (refine Kept.cut (s₀ := s₀) (x := x) ?_ ?_; rotate_left; intro _; clear_value x; rotate_left; unfold x; clear x) | (refine KeptX.cut (s₀ := s₀) (x := x) ?_ ?_; rotate_left; intro _; clear_value x; rotate_left; unfold x; clear x) | clear_value x | skip)
    | with_reducible apply Kept.ite
    | with_reducible apply KeptX.ite
    | with_reducible apply KeptX.next
    | with_reducible exact KeptX.refused
    | with_reducible apply rasAppend_kept
    | with_reducible apply execCqHeadWrite_kept
    | with_reducible apply nextOr_kept
    | with_reducible apply execGaugeHeadWrite_kept
    | with_reducible apply execSqTailWrite_kept
    | (with_reducible refine KeptX.of_eq ?_ ‹_›)
    | split

theorem barWrite_kept {s₀ s : State} {bar : Bar} {r : Requester} {off : Nat} {v : W32} (hK : Kept s₀ s) :
    Kept s₀ (barWrite bar r off v s) := by
  unfold barWrite
  repeat' first
    | with_reducible assumption
    | intro _
    | (extract_lets +onlyGivenNames x; first | (refine Kept.cut (s₀ := s₀) (x := x) ?_ ?_; rotate_left; intro _; clear_value x; rotate_left; unfold x; clear x) | clear_value x | skip)
    | with_reducible apply Kept.ite
    | with_reducible apply write32_kept
    | with_reducible apply page32_kept
    | with_reducible apply unboundVf_kept
    | split

theorem exmasWrite_kept {s₀ s : State} {off : Nat} {v : W32} (hK : Kept s₀ s) :
    Kept s₀ (exmasWrite off v s) := by
  unfold exmasWrite
  repeat' first
    | with_reducible assumption
    | intro _
    | (extract_lets +onlyGivenNames x; first | (refine Kept.cut (s₀ := s₀) (x := x) ?_ ?_; rotate_left; intro _; clear_value x; rotate_left; unfold x; clear x) | (refine KeptX.cut (s₀ := s₀) (x := x) ?_ ?_; rotate_left; intro _; clear_value x; rotate_left; unfold x; clear x) | clear_value x | skip)
    | with_reducible apply Kept.ite
    | with_reducible apply KeptX.ite
    | with_reducible apply KeptX.next
    | with_reducible exact KeptX.refused
    | with_reducible apply rasAppend_kept
    | with_reducible apply execFbCapWrite_kept
    | with_reducible apply nextOr_kept
    | with_reducible apply exmas_kept
    | with_reducible apply logDropped_kept
    | with_reducible apply plainWrite_kept
    | with_reducible apply exAnswer_kept
    | with_reducible apply rstCtl_kept
    | (with_reducible refine KeptX.of_eq ?_ ‹_›)
    | split

theorem writeWords_kept {s₀ s : State} {f : Nat → W32 → State → State} {o : Nat} {size : AccSize} {v : BitVec 64} (hK : Kept s₀ s) (h_f : ∀ x0 x1 x2, Kept s₀ x2 → Kept s₀ (f x0 x1 x2)) :
    Kept s₀ (writeWords f o size v s) := by
  unfold writeWords
  repeat' first
    | with_reducible assumption
    | intro _
    | (extract_lets +onlyGivenNames x; first | (refine Kept.cut (s₀ := s₀) (x := x) ?_ ?_; rotate_left; intro _; clear_value x; rotate_left; unfold x; clear x) | clear_value x | skip)
    | with_reducible apply Kept.ite
    | with_reducible apply h_f
    | split

theorem execRegWrite_kept {s₀ s : State} {r : Requester} {bar : Bar} {off : BitVec 28} {size : AccSize} {v : BitVec 64} (hK : Kept s₀ s) :
    KeptX s₀ (execRegWrite r bar off size v s) := by
  unfold execRegWrite
  repeat' first
    | with_reducible assumption
    | intro _
    | (extract_lets +onlyGivenNames x; first | (refine Kept.cut (s₀ := s₀) (x := x) ?_ ?_; rotate_left; intro _; clear_value x; rotate_left; unfold x; clear x) | (refine KeptX.cut (s₀ := s₀) (x := x) ?_ ?_; rotate_left; intro _; clear_value x; rotate_left; unfold x; clear x) | clear_value x | skip)
    | with_reducible apply Kept.ite
    | with_reducible apply KeptX.ite
    | with_reducible apply KeptX.next
    | with_reducible exact KeptX.refused
    | with_reducible apply rasAppend_kept
    | with_reducible apply exmasWrite_kept
    | with_reducible apply exmas_kept
    | with_reducible apply barWrite_kept
    | with_reducible apply exAnswer_kept
    | with_reducible apply writeWords_kept
    | (with_reducible refine KeptX.of_eq ?_ ‹_›)
    | split

theorem bar4Log_kept {s₀ s : State} {off : Nat} {len : Nat} (hK : Kept s₀ s) :
    Kept s₀ (bar4Log s off len) := by
  unfold bar4Log
  repeat' first
    | with_reducible assumption
    | intro _
    | (extract_lets +onlyGivenNames x; first | (refine Kept.cut (s₀ := s₀) (x := x) ?_ ?_; rotate_left; intro _; clear_value x; rotate_left; unfold x; clear x) | clear_value x | skip)
    | with_reducible apply Kept.ite
    | with_reducible apply rasAppend_kept
    | split

theorem execBar4Read_kept {s₀ s : State} {u0 : Fin 2} {off : BitVec 40} {len : Nat} (hK : Kept s₀ s) :
    KeptX s₀ (execBar4Read u0 off len s) := by
  unfold execBar4Read
  repeat' first
    | with_reducible assumption
    | intro _
    | (extract_lets +onlyGivenNames x; first | (refine Kept.cut (s₀ := s₀) (x := x) ?_ ?_; rotate_left; intro _; clear_value x; rotate_left; unfold x; clear x) | (refine KeptP.cut (s₀ := s₀) (x := x) ?_ ?_; rotate_left; intro _; clear_value x; rotate_left; unfold x; clear x) | (refine KeptX.cut (s₀ := s₀) (x := x) ?_ ?_; rotate_left; intro _; clear_value x; rotate_left; unfold x; clear x) | clear_value x | skip)
    | with_reducible apply Kept.ite
    | with_reducible apply KeptP.ite
    | (with_reducible refine KeptP.snd ?_; with_reducible assumption)
    | with_reducible exact KeptP.val ‹_›
    | with_reducible refine KeptP.snd (saddlePass_kept ?_)
    | with_reducible apply KeptX.ite
    | with_reducible apply KeptX.next
    | with_reducible exact KeptX.refused
    | with_reducible apply saddlePass_kept
    | with_reducible apply emit_kept
    | with_reducible apply bar4Log_kept
    | (with_reducible refine KeptP.of_eq ?_ ‹_›)
    | (with_reducible refine KeptX.of_eq ?_ ‹_›)
    | split
    | with_reducible apply KeptP.mk

theorem execBar4Write_kept {s₀ s : State} {u0 : Fin 2} {off : BitVec 40} {bytes : List Byte} {ep : Bool} (hK : Kept s₀ s) :
    KeptX s₀ (execBar4Write u0 off bytes ep s) := by
  unfold execBar4Write
  repeat' first
    | with_reducible assumption
    | intro _
    | (extract_lets +onlyGivenNames x; first | (refine Kept.cut (s₀ := s₀) (x := x) ?_ ?_; rotate_left; intro _; clear_value x; rotate_left; unfold x; clear x) | (refine KeptP.cut (s₀ := s₀) (x := x) ?_ ?_; rotate_left; intro _; clear_value x; rotate_left; unfold x; clear x) | (refine KeptX.cut (s₀ := s₀) (x := x) ?_ ?_; rotate_left; intro _; clear_value x; rotate_left; unfold x; clear x) | clear_value x | skip)
    | with_reducible apply Kept.ite
    | with_reducible apply KeptP.ite
    | (with_reducible refine KeptP.snd ?_; with_reducible assumption)
    | with_reducible exact KeptP.val ‹_›
    | with_reducible refine KeptP.snd (saddlePass_kept ?_)
    | with_reducible apply KeptX.ite
    | with_reducible apply KeptX.next
    | with_reducible exact KeptX.refused
    | with_reducible apply saddlePass_kept
    | with_reducible apply dpaWrite_kept
    | with_reducible apply bar4Log_kept
    | (with_reducible refine KeptP.of_eq ?_ ‹_›)
    | (with_reducible refine KeptX.of_eq ?_ ‹_›)
    | split
    | with_reducible apply KeptP.mk

end Sys2Proof.Machine
end

