-- ==== Sys2Proof/Laws/KeptExmas.lean ====
section
/-! SUPPORT. What the operations and meanings of Machine/Exmas.lean keep. -/

set_option linter.unreachableTactic false
set_option linter.unusedTactic false
set_option linter.unusedVariables false
set_option linter.tactic.unusedName false

namespace Sys2Proof.Machine

theorem exmas_kept {s₀ s : State} {low : Bool} {change : Bool} {ok : Bool} {f : State → State} (hK : Kept s₀ s) (h_f : ∀ x0, Kept s₀ x0 → Kept s₀ (f x0)) :
    Kept s₀ (exmas s low change ok f) := by
  unfold exmas
  repeat' first
    | with_reducible assumption
    | intro _
    | (extract_lets +onlyGivenNames x; first | (refine Kept.cut (s₀ := s₀) (x := x) ?_ ?_; rotate_left; intro _; clear_value x; rotate_left; unfold x; clear x) | clear_value x | skip)
    | with_reducible apply Kept.ite
    | with_reducible apply exAnswer_kept
    | with_reducible apply h_f
    | split

theorem exDone_kept {s₀ s : State} {f : State → State} (hK : Kept s₀ s) (h_f : ∀ x0, Kept s₀ x0 → Kept s₀ (f x0)) :
    Kept s₀ (exDone f s) := by
  unfold exDone
  repeat' first
    | with_reducible assumption
    | intro _
    | (extract_lets +onlyGivenNames x; first | (refine Kept.cut (s₀ := s₀) (x := x) ?_ ?_; rotate_left; intro _; clear_value x; rotate_left; unfold x; clear x) | clear_value x | skip)
    | with_reducible apply Kept.ite
    | with_reducible apply exAnswer_kept
    | with_reducible apply h_f
    | split

theorem execGetState_kept {s₀ s : State}  (hK : Kept s₀ s) :
    KeptX s₀ (execGetState s) := by
  unfold execGetState
  repeat' first
    | with_reducible assumption
    | intro _
    | (extract_lets +onlyGivenNames x; first | (refine Kept.cut (s₀ := s₀) (x := x) ?_ ?_; rotate_left; intro _; clear_value x; rotate_left; unfold x; clear x) | (refine KeptX.cut (s₀ := s₀) (x := x) ?_ ?_; rotate_left; intro _; clear_value x; rotate_left; unfold x; clear x) | clear_value x | skip)
    | with_reducible apply Kept.ite
    | with_reducible apply KeptX.ite
    | with_reducible apply KeptX.next
    | with_reducible exact KeptX.refused
    | with_reducible apply exmas_kept
    | with_reducible apply exAnswer_kept
    | (with_reducible refine KeptX.of_eq ?_ ‹_›)
    | split

theorem execPowerOn_kept {s₀ s : State} {b : BootSample} (hK : Kept s₀ s) :
    KeptX s₀ (execPowerOn b s) := by
  unfold execPowerOn
  repeat' first
    | with_reducible assumption
    | intro _
    | (extract_lets +onlyGivenNames x; first | (refine Kept.cut (s₀ := s₀) (x := x) ?_ ?_; rotate_left; intro _; clear_value x; rotate_left; unfold x; clear x) | (refine KeptX.cut (s₀ := s₀) (x := x) ?_ ?_; rotate_left; intro _; clear_value x; rotate_left; unfold x; clear x) | clear_value x | skip)
    | with_reducible apply Kept.ite
    | with_reducible apply KeptX.ite
    | with_reducible apply KeptX.next
    | with_reducible exact KeptX.refused
    | with_reducible apply exmas_kept
    | with_reducible apply exDone_kept
    | with_reducible apply powerOn_kept
    | (with_reducible refine KeptX.of_eq ?_ ‹_›)
    | split

theorem execPowerOff_kept {s₀ s : State}  (hK : Kept s₀ s) :
    KeptX s₀ (execPowerOff s) := by
  unfold execPowerOff
  repeat' first
    | with_reducible assumption
    | intro _
    | (extract_lets +onlyGivenNames x; first | (refine Kept.cut (s₀ := s₀) (x := x) ?_ ?_; rotate_left; intro _; clear_value x; rotate_left; unfold x; clear x) | (refine KeptX.cut (s₀ := s₀) (x := x) ?_ ?_; rotate_left; intro _; clear_value x; rotate_left; unfold x; clear x) | clear_value x | skip)
    | with_reducible apply Kept.ite
    | with_reducible apply KeptX.ite
    | with_reducible apply KeptX.next
    | with_reducible exact KeptX.refused
    | with_reducible apply exmas_kept
    | with_reducible apply exDone_kept
    | with_reducible apply enterStandby_kept
    | (with_reducible refine KeptX.of_eq ?_ ‹_›)
    | split

theorem execDrain_kept {s₀ s : State}  (hK : Kept s₀ s) :
    KeptX s₀ (execDrain s) := by
  unfold execDrain
  repeat' first
    | with_reducible assumption
    | intro _
    | (extract_lets +onlyGivenNames x; first | (refine Kept.cut (s₀ := s₀) (x := x) ?_ ?_; rotate_left; intro _; clear_value x; rotate_left; unfold x; clear x) | (refine KeptX.cut (s₀ := s₀) (x := x) ?_ ?_; rotate_left; intro _; clear_value x; rotate_left; unfold x; clear x) | clear_value x | skip)
    | with_reducible apply Kept.ite
    | with_reducible apply KeptX.ite
    | with_reducible apply KeptX.next
    | with_reducible exact KeptX.refused
    | with_reducible apply setMode_kept
    | with_reducible apply exmas_kept
    | with_reducible apply exDone_kept
    | (with_reducible refine KeptX.of_eq ?_ ‹_›)
    | split

theorem execResume_kept {s₀ s : State}  (hK : Kept s₀ s) :
    KeptX s₀ (execResume s) := by
  unfold execResume
  repeat' first
    | with_reducible assumption
    | intro _
    | (extract_lets +onlyGivenNames x; first | (refine Kept.cut (s₀ := s₀) (x := x) ?_ ?_; rotate_left; intro _; clear_value x; rotate_left; unfold x; clear x) | (refine KeptX.cut (s₀ := s₀) (x := x) ?_ ?_; rotate_left; intro _; clear_value x; rotate_left; unfold x; clear x) | clear_value x | skip)
    | with_reducible apply Kept.ite
    | with_reducible apply KeptX.ite
    | with_reducible apply KeptX.next
    | with_reducible exact KeptX.refused
    | with_reducible apply setMode_kept
    | with_reducible apply exmas_kept
    | with_reducible apply exDone_kept
    | with_reducible apply startReset_kept
    | with_reducible apply setRg_kept
    | (with_reducible refine KeptX.of_eq ?_ ‹_›)
    | split

theorem exReset_kept {s₀ s : State} {kind : Nat} {goal : Mode} (hK : Kept s₀ s) :
    Kept s₀ (exReset s kind goal) := by
  unfold exReset
  repeat' first
    | with_reducible assumption
    | intro _
    | (extract_lets +onlyGivenNames x; first | (refine Kept.cut (s₀ := s₀) (x := x) ?_ ?_; rotate_left; intro _; clear_value x; rotate_left; unfold x; clear x) | clear_value x | skip)
    | with_reducible apply Kept.ite
    | with_reducible apply exDone_kept
    | with_reducible apply startReset_kept
    | with_reducible apply exAnswer_kept
    | split

theorem execExmasResetWarm_kept {s₀ s : State}  (hK : Kept s₀ s) :
    KeptX s₀ (execExmasResetWarm s) := by
  unfold execExmasResetWarm
  repeat' first
    | with_reducible assumption
    | intro _
    | (extract_lets +onlyGivenNames x; first | (refine Kept.cut (s₀ := s₀) (x := x) ?_ ?_; rotate_left; intro _; clear_value x; rotate_left; unfold x; clear x) | (refine KeptX.cut (s₀ := s₀) (x := x) ?_ ?_; rotate_left; intro _; clear_value x; rotate_left; unfold x; clear x) | clear_value x | skip)
    | with_reducible apply Kept.ite
    | with_reducible apply KeptX.ite
    | with_reducible apply KeptX.next
    | with_reducible exact KeptX.refused
    | with_reducible apply exReset_kept
    | (with_reducible refine KeptX.of_eq ?_ ‹_›)
    | split

theorem execExmasResetCold_kept {s₀ s : State}  (hK : Kept s₀ s) :
    KeptX s₀ (execExmasResetCold s) := by
  unfold execExmasResetCold
  repeat' first
    | with_reducible assumption
    | intro _
    | (extract_lets +onlyGivenNames x; first | (refine Kept.cut (s₀ := s₀) (x := x) ?_ ?_; rotate_left; intro _; clear_value x; rotate_left; unfold x; clear x) | (refine KeptX.cut (s₀ := s₀) (x := x) ?_ ?_; rotate_left; intro _; clear_value x; rotate_left; unfold x; clear x) | clear_value x | skip)
    | with_reducible apply Kept.ite
    | with_reducible apply KeptX.ite
    | with_reducible apply KeptX.next
    | with_reducible exact KeptX.refused
    | with_reducible apply exReset_kept
    | (with_reducible refine KeptX.of_eq ?_ ‹_›)
    | split

theorem execMaintEnter_kept {s₀ s : State}  (hK : Kept s₀ s) :
    KeptX s₀ (execMaintEnter s) := by
  unfold execMaintEnter
  repeat' first
    | with_reducible assumption
    | intro _
    | (extract_lets +onlyGivenNames x; first | (refine Kept.cut (s₀ := s₀) (x := x) ?_ ?_; rotate_left; intro _; clear_value x; rotate_left; unfold x; clear x) | (refine KeptX.cut (s₀ := s₀) (x := x) ?_ ?_; rotate_left; intro _; clear_value x; rotate_left; unfold x; clear x) | clear_value x | skip)
    | with_reducible apply Kept.ite
    | with_reducible apply KeptX.ite
    | with_reducible apply KeptX.next
    | with_reducible exact KeptX.refused
    | with_reducible apply dropRuns_kept
    | with_reducible apply setMode_kept
    | with_reducible apply exmas_kept
    | with_reducible apply exDone_kept
    | with_reducible apply setRg_kept
    | (with_reducible refine KeptX.of_eq ?_ ‹_›)
    | split

theorem execReadReg_kept {s₀ s : State} {off : BitVec 28} (hK : Kept s₀ s) :
    KeptX s₀ (execReadReg off s) := by
  unfold execReadReg
  repeat' first
    | with_reducible assumption
    | intro _
    | (extract_lets +onlyGivenNames x; first | (refine Kept.cut (s₀ := s₀) (x := x) ?_ ?_; rotate_left; intro _; clear_value x; rotate_left; unfold x; clear x) | (refine KeptP.cut (s₀ := s₀) (x := x) ?_ ?_; rotate_left; intro _; clear_value x; rotate_left; unfold x; clear x) | (refine KeptX.cut (s₀ := s₀) (x := x) ?_ ?_; rotate_left; intro _; clear_value x; rotate_left; unfold x; clear x) | clear_value x | skip)
    | with_reducible apply Kept.ite
    | with_reducible apply KeptP.ite
    | (with_reducible refine KeptP.snd ?_; with_reducible assumption)
    | with_reducible exact KeptP.val ‹_›
    | with_reducible refine KeptP.snd (readBytes_kept ?_)
    | with_reducible apply KeptX.ite
    | with_reducible apply KeptX.next
    | with_reducible exact KeptX.refused
    | with_reducible apply exmas_kept
    | with_reducible apply readBytes_kept
    | with_reducible apply exAnswer_kept
    | (with_reducible refine KeptP.of_eq ?_ ‹_›)
    | (with_reducible refine KeptX.of_eq ?_ ‹_›)
    | split
    | with_reducible apply KeptP.mk

theorem execWriteReg_kept {s₀ s : State} {off : BitVec 28} {v : W32} (hK : Kept s₀ s) :
    KeptX s₀ (execWriteReg off v s) := by
  unfold execWriteReg
  repeat' first
    | with_reducible assumption
    | intro _
    | (extract_lets +onlyGivenNames x; first | (refine Kept.cut (s₀ := s₀) (x := x) ?_ ?_; rotate_left; intro _; clear_value x; rotate_left; unfold x; clear x) | (refine KeptX.cut (s₀ := s₀) (x := x) ?_ ?_; rotate_left; intro _; clear_value x; rotate_left; unfold x; clear x) | clear_value x | skip)
    | with_reducible apply Kept.ite
    | with_reducible apply KeptX.ite
    | with_reducible apply KeptX.next
    | with_reducible exact KeptX.refused
    | with_reducible apply exmasWrite_kept
    | with_reducible apply exmas_kept
    | (with_reducible refine KeptX.of_eq ?_ ‹_›)
    | split

theorem execGetEvent_kept {s₀ s : State} (hK : Kept s₀ s) : KeptX s₀ (execGetEvent s) := by
  unfold execGetEvent
  refine KeptX.next (exmas_kept hK (fun t ht => ?_))
  split
  · exact exAnswer_kept ht
  · rename_i e
    exact exAnswer_kept (set_evq ht (fun hl => by rw [e] at hl; simp only [List.length_cons] at hl; omega))

theorem execSetEventReceiver_kept {s₀ s : State} {eid : Byte} (hK : Kept s₀ s) :
    KeptX s₀ (execSetEventReceiver eid s) := by
  unfold execSetEventReceiver
  repeat' first
    | with_reducible assumption
    | intro _
    | (extract_lets +onlyGivenNames x; first | (refine Kept.cut (s₀ := s₀) (x := x) ?_ ?_; rotate_left; intro _; clear_value x; rotate_left; unfold x; clear x) | (refine KeptX.cut (s₀ := s₀) (x := x) ?_ ?_; rotate_left; intro _; clear_value x; rotate_left; unfold x; clear x) | clear_value x | skip)
    | with_reducible apply Kept.ite
    | with_reducible apply KeptX.ite
    | with_reducible apply KeptX.next
    | with_reducible exact KeptX.refused
    | with_reducible apply exmas_kept
    | with_reducible apply exDone_kept
    | (with_reducible refine set_receiver ?_; with_reducible assumption)
    | (with_reducible refine KeptX.of_eq ?_ ‹_›)
    | split

theorem execConfigGet_kept {s₀ s : State}  (hK : Kept s₀ s) :
    KeptX s₀ (execConfigGet s) := by
  unfold execConfigGet
  repeat' first
    | with_reducible assumption
    | intro _
    | (extract_lets +onlyGivenNames x; first | (refine Kept.cut (s₀ := s₀) (x := x) ?_ ?_; rotate_left; intro _; clear_value x; rotate_left; unfold x; clear x) | (refine KeptX.cut (s₀ := s₀) (x := x) ?_ ?_; rotate_left; intro _; clear_value x; rotate_left; unfold x; clear x) | clear_value x | skip)
    | with_reducible apply Kept.ite
    | with_reducible apply KeptX.ite
    | with_reducible apply KeptX.next
    | with_reducible exact KeptX.refused
    | with_reducible apply exmas_kept
    | with_reducible apply exAnswer_kept
    | (with_reducible refine KeptX.of_eq ?_ ‹_›)
    | split

theorem writeNv_kept {s₀ s : State} {f : Nv → Nv} (hK : Kept s₀ s) :
    Kept s₀ (writeNv s f) := by
  unfold writeNv
  repeat' first
    | with_reducible assumption
    | intro _
    | (extract_lets +onlyGivenNames x; first | (refine Kept.cut (s₀ := s₀) (x := x) ?_ ?_; rotate_left; intro _; clear_value x; rotate_left; unfold x; clear x) | clear_value x | skip)
    | with_reducible apply Kept.ite
    | (with_reducible refine set_nv0 ?_; with_reducible assumption)
    | (with_reducible refine set_nv1 ?_; with_reducible assumption)
    | split

theorem execConfigSet_kept {s₀ s : State} {c : NvConfig} (hK : Kept s₀ s) :
    KeptX s₀ (execConfigSet c s) := by
  unfold execConfigSet
  repeat' first
    | with_reducible assumption
    | intro _
    | (extract_lets +onlyGivenNames x; first | (refine Kept.cut (s₀ := s₀) (x := x) ?_ ?_; rotate_left; intro _; clear_value x; rotate_left; unfold x; clear x) | (refine KeptX.cut (s₀ := s₀) (x := x) ?_ ?_; rotate_left; intro _; clear_value x; rotate_left; unfold x; clear x) | clear_value x | skip)
    | with_reducible apply Kept.ite
    | with_reducible apply KeptX.ite
    | with_reducible apply KeptX.next
    | with_reducible exact KeptX.refused
    | with_reducible apply exmas_kept
    | with_reducible apply writeNv_kept
    | with_reducible apply exAnswer_kept
    | (with_reducible refine set_nvNew_fw ?_; with_reducible assumption)
    | (with_reducible refine KeptX.of_eq ?_ ‹_›)
    | split

theorem execRetire_kept {s₀ s : State} {tg : Fin 64} {ridge : Bool} (hK : Kept s₀ s) :
    KeptX s₀ (execRetire tg ridge s) := by
  unfold execRetire
  repeat' first
    | with_reducible assumption
    | intro _
    | (extract_lets +onlyGivenNames x; first | (refine Kept.cut (s₀ := s₀) (x := x) ?_ ?_; rotate_left; intro _; clear_value x; rotate_left; unfold x; clear x) | (refine KeptX.cut (s₀ := s₀) (x := x) ?_ ?_; rotate_left; intro _; clear_value x; rotate_left; unfold x; clear x) | clear_value x | skip)
    | with_reducible apply Kept.ite
    | with_reducible apply KeptX.ite
    | with_reducible apply KeptX.next
    | with_reducible exact KeptX.refused
    | with_reducible apply exmas_kept
    | with_reducible apply askRetire_kept
    | with_reducible apply exDone_kept
    | (with_reducible refine KeptX.of_eq ?_ ‹_›)
    | split

theorem execDiagRun_kept {s₀ s : State} {test : Nat} (hK : Kept s₀ s) :
    KeptX s₀ (execDiagRun test s) := by
  unfold execDiagRun
  repeat' first
    | with_reducible assumption
    | intro _
    | (extract_lets +onlyGivenNames x; first | (refine Kept.cut (s₀ := s₀) (x := x) ?_ ?_; rotate_left; intro _; clear_value x; rotate_left; unfold x; clear x) | (refine KeptX.cut (s₀ := s₀) (x := x) ?_ ?_; rotate_left; intro _; clear_value x; rotate_left; unfold x; clear x) | clear_value x | skip)
    | with_reducible apply Kept.ite
    | with_reducible apply KeptX.ite
    | with_reducible apply KeptX.next
    | with_reducible exact KeptX.refused
    | with_reducible apply exmas_kept
    | with_reducible apply exAnswer_kept
    | (with_reducible refine set_diag ?_; with_reducible assumption)
    | (with_reducible refine KeptX.of_eq ?_ ‹_›)
    | split

theorem verifyRails_kept {s₀ s : State}  (hK : Kept s₀ s) :
    Kept s₀ (verifyRails s) := by
  unfold verifyRails
  repeat' first
    | with_reducible assumption
    | intro _
    | (extract_lets +onlyGivenNames x; first | (refine Kept.cut (s₀ := s₀) (x := x) ?_ ?_; rotate_left; intro _; clear_value x; rotate_left; unfold x; clear x) | clear_value x | skip)
    | with_reducible apply Kept.ite
    | (with_reducible refine set_rails ?_; with_reducible assumption)
    | split

theorem execDiagDone_kept {s₀ s : State} {r : DiagResult} (hK : Kept s₀ s) :
    KeptX s₀ (execDiagDone r s) := by
  unfold execDiagDone
  repeat' first
    | with_reducible assumption
    | intro _
    | (extract_lets +onlyGivenNames x; first | (refine Kept.cut (s₀ := s₀) (x := x) ?_ ?_; rotate_left; intro _; clear_value x; rotate_left; unfold x; clear x) | (refine KeptX.cut (s₀ := s₀) (x := x) ?_ ?_; rotate_left; intro _; clear_value x; rotate_left; unfold x; clear x) | clear_value x | skip)
    | with_reducible apply Kept.ite
    | with_reducible apply KeptX.ite
    | with_reducible apply KeptX.next
    | with_reducible exact KeptX.refused
    | with_reducible apply exEvent_kept
    | with_reducible apply askRetire_kept
    | with_reducible apply verifyRails_kept
    | with_reducible apply updTerrace_kept
    | (with_reducible refine set_diag ?_; with_reducible assumption)
    | (with_reducible refine KeptX.of_eq ?_ ‹_›)
    | split

theorem execMctpControl_kept {s₀ s : State} {msg : List Byte} (hK : Kept s₀ s) :
    KeptX s₀ (execMctpControl msg s) := by
  unfold execMctpControl
  repeat' first
    | with_reducible assumption
    | intro _
    | (extract_lets +onlyGivenNames x; first | (refine Kept.cut (s₀ := s₀) (x := x) ?_ ?_; rotate_left; intro _; clear_value x; rotate_left; unfold x; clear x) | (refine KeptP.cut (s₀ := s₀) (x := x) ?_ ?_; rotate_left; intro _; clear_value x; rotate_left; unfold x; clear x) | (refine KeptX.cut (s₀ := s₀) (x := x) ?_ ?_; rotate_left; intro _; clear_value x; rotate_left; unfold x; clear x) | clear_value x | skip)
    | with_reducible apply Kept.ite
    | with_reducible apply KeptP.ite
    | (with_reducible refine KeptP.snd ?_; with_reducible assumption)
    | with_reducible exact KeptP.val ‹_›
    | with_reducible refine KeptP.snd (fresh_kept ?_)
    | with_reducible apply KeptX.ite
    | with_reducible apply KeptX.next
    | with_reducible exact KeptX.refused
    | with_reducible apply fresh_kept
    | with_reducible apply emit_kept
    | (with_reducible refine set_eid ?_; first | with_reducible assumption | with_reducible exact KeptP.val ‹_› | (with_reducible refine KeptP.of_eq ?_ ‹_›; first | with_reducible assumption | with_reducible apply fresh_kept; with_reducible assumption))
    | (with_reducible refine KeptP.of_eq ?_ ‹_›)
    | (with_reducible refine KeptX.of_eq ?_ ‹_›)
    | split
    | with_reducible apply KeptP.mk

theorem execPldmMonitoring_kept {s₀ s : State} {u0 : List Byte} (hK : Kept s₀ s) :
    KeptX s₀ (execPldmMonitoring u0 s) := by
  unfold execPldmMonitoring
  repeat' first
    | with_reducible assumption
    | intro _
    | (extract_lets +onlyGivenNames x; first | (refine Kept.cut (s₀ := s₀) (x := x) ?_ ?_; rotate_left; intro _; clear_value x; rotate_left; unfold x; clear x) | (refine KeptX.cut (s₀ := s₀) (x := x) ?_ ?_; rotate_left; intro _; clear_value x; rotate_left; unfold x; clear x) | clear_value x | skip)
    | with_reducible apply Kept.ite
    | with_reducible apply KeptX.ite
    | with_reducible apply KeptX.next
    | with_reducible exact KeptX.refused
    | with_reducible apply emit_kept
    | (with_reducible refine KeptX.of_eq ?_ ‹_›)
    | split

end Sys2Proof.Machine
end

