-- ==== Sys2Proof/Laws/KeptFirmware.lean ====
section
/-! SUPPORT. What the operations and meanings of Machine/Firmware.lean keep. -/

set_option linter.unreachableTactic false
set_option linter.unusedTactic false
set_option linter.unusedVariables false
set_option linter.tactic.unusedName false

namespace Sys2Proof.Machine

theorem execRequestUpdate_kept {s₀ s : State} {comp : Fin 3} {ver : Nat} {svn : Nat} (hK : Kept s₀ s) :
    KeptX s₀ (execRequestUpdate comp ver svn s) := by
  unfold execRequestUpdate
  repeat' first
    | with_reducible assumption
    | intro _
    | (extract_lets +onlyGivenNames x; first | (refine Kept.cut (s₀ := s₀) (x := x) ?_ ?_; rotate_left; intro _; clear_value x; rotate_left; unfold x; clear x) | (refine KeptX.cut (s₀ := s₀) (x := x) ?_ ?_; rotate_left; intro _; clear_value x; rotate_left; unfold x; clear x) | clear_value x | skip)
    | with_reducible apply Kept.ite
    | with_reducible apply KeptX.ite
    | with_reducible apply KeptX.next
    | with_reducible exact KeptX.refused
    | with_reducible apply emit_kept
    | (with_reducible refine set_update_flash ?_; with_reducible assumption)
    | (with_reducible refine KeptX.of_eq ?_ ‹_›)
    | split

theorem execVerifyComplete_kept {s₀ s : State} {ok : Bool} (hK : Kept s₀ s) :
    KeptX s₀ (execVerifyComplete ok s) := by
  unfold execVerifyComplete
  repeat' first
    | with_reducible assumption
    | intro _
    | (extract_lets +onlyGivenNames x; first | (refine Kept.cut (s₀ := s₀) (x := x) ?_ ?_; rotate_left; intro _; clear_value x; rotate_left; unfold x; clear x) | (refine KeptX.cut (s₀ := s₀) (x := x) ?_ ?_; rotate_left; intro _; clear_value x; rotate_left; unfold x; clear x) | clear_value x | skip)
    | with_reducible apply Kept.ite
    | with_reducible apply KeptX.ite
    | with_reducible apply KeptX.next
    | with_reducible exact KeptX.refused
    | with_reducible apply emit_kept
    | (with_reducible refine set_update ?_; with_reducible assumption)
    | (with_reducible refine set_update_flash ?_; with_reducible assumption)
    | (with_reducible refine KeptX.of_eq ?_ ‹_›)
    | split

theorem execActivateFirmware_kept {s₀ s : State} {raise : Bool} (hK : Kept s₀ s) :
    KeptX s₀ (execActivateFirmware raise s) := by
  unfold execActivateFirmware
  repeat' first
    | with_reducible assumption
    | intro _
    | (extract_lets +onlyGivenNames x; first | (refine Kept.cut (s₀ := s₀) (x := x) ?_ ?_; rotate_left; intro _; clear_value x; rotate_left; unfold x; clear x) | (refine KeptX.cut (s₀ := s₀) (x := x) ?_ ?_; rotate_left; intro _; clear_value x; rotate_left; unfold x; clear x) | clear_value x | skip)
    | with_reducible apply Kept.ite
    | with_reducible apply KeptX.ite
    | with_reducible apply KeptX.next
    | with_reducible exact KeptX.refused
    | with_reducible apply raise_kept
    | with_reducible apply emit_kept
    | with_reducible apply writeNv_kept
    | (with_reducible refine set_update_fw ?_; with_reducible assumption)
    | (with_reducible refine KeptX.of_eq ?_ ‹_›)
    | split

theorem freshes_kept {s₀ s : State} {n : Nat} (hK : Kept s₀ s) : KeptP s₀ (freshes n s) := by
  induction n generalizing s with
  | zero => exact hK
  | succ n ih => exact ih (fresh_kept hK)

theorem spdm_kept {s₀ s : State} {ok : Bool} {ws : List Nat} {n : Nat} (hK : Kept s₀ s) :
    Kept s₀ (spdm s ok ws n) := by
  unfold spdm
  repeat' first
    | with_reducible assumption
    | intro _
    | (extract_lets +onlyGivenNames x; first | (refine Kept.cut (s₀ := s₀) (x := x) ?_ ?_; rotate_left; intro _; clear_value x; rotate_left; unfold x; clear x) | (refine KeptP.cut (s₀ := s₀) (x := x) ?_ ?_; rotate_left; intro _; clear_value x; rotate_left; unfold x; clear x) | clear_value x | skip)
    | with_reducible apply Kept.ite
    | with_reducible apply KeptP.ite
    | (with_reducible refine KeptP.snd ?_; with_reducible assumption)
    | with_reducible exact KeptP.val ‹_›
    | with_reducible refine KeptP.snd (freshes_kept ?_)
    | with_reducible apply freshes_kept
    | with_reducible apply emit_kept
    | (with_reducible refine KeptP.of_eq ?_ ‹_›)
    | split
    | with_reducible apply KeptP.mk

theorem execGetVersion_kept {s₀ s : State}  (hK : Kept s₀ s) :
    KeptX s₀ (execGetVersion s) := by
  unfold execGetVersion
  repeat' first
    | with_reducible assumption
    | intro _
    | (extract_lets +onlyGivenNames x; first | (refine Kept.cut (s₀ := s₀) (x := x) ?_ ?_; rotate_left; intro _; clear_value x; rotate_left; unfold x; clear x) | (refine KeptX.cut (s₀ := s₀) (x := x) ?_ ?_; rotate_left; intro _; clear_value x; rotate_left; unfold x; clear x) | clear_value x | skip)
    | with_reducible apply Kept.ite
    | with_reducible apply KeptX.ite
    | with_reducible apply KeptX.next
    | with_reducible exact KeptX.refused
    | with_reducible apply spdm_kept
    | (with_reducible refine KeptX.of_eq ?_ ‹_›)
    | split

theorem execGetCapabilities_kept {s₀ s : State}  (hK : Kept s₀ s) :
    KeptX s₀ (execGetCapabilities s) := by
  unfold execGetCapabilities
  repeat' first
    | with_reducible assumption
    | intro _
    | (extract_lets +onlyGivenNames x; first | (refine Kept.cut (s₀ := s₀) (x := x) ?_ ?_; rotate_left; intro _; clear_value x; rotate_left; unfold x; clear x) | (refine KeptX.cut (s₀ := s₀) (x := x) ?_ ?_; rotate_left; intro _; clear_value x; rotate_left; unfold x; clear x) | clear_value x | skip)
    | with_reducible apply Kept.ite
    | with_reducible apply KeptX.ite
    | with_reducible apply KeptX.next
    | with_reducible exact KeptX.refused
    | with_reducible apply spdm_kept
    | (with_reducible refine KeptX.of_eq ?_ ‹_›)
    | split

theorem execNegotiateAlgorithms_kept {s₀ s : State} {algs : Nat} (hK : Kept s₀ s) :
    KeptX s₀ (execNegotiateAlgorithms algs s) := by
  unfold execNegotiateAlgorithms
  repeat' first
    | with_reducible assumption
    | intro _
    | (extract_lets +onlyGivenNames x; first | (refine Kept.cut (s₀ := s₀) (x := x) ?_ ?_; rotate_left; intro _; clear_value x; rotate_left; unfold x; clear x) | (refine KeptX.cut (s₀ := s₀) (x := x) ?_ ?_; rotate_left; intro _; clear_value x; rotate_left; unfold x; clear x) | clear_value x | skip)
    | with_reducible apply Kept.ite
    | with_reducible apply KeptX.ite
    | with_reducible apply KeptX.next
    | with_reducible exact KeptX.refused
    | with_reducible apply spdm_kept
    | (with_reducible refine KeptX.of_eq ?_ ‹_›)
    | split

theorem execGetDigests_kept {s₀ s : State}  (hK : Kept s₀ s) :
    KeptX s₀ (execGetDigests s) := by
  unfold execGetDigests
  repeat' first
    | with_reducible assumption
    | intro _
    | (extract_lets +onlyGivenNames x; first | (refine Kept.cut (s₀ := s₀) (x := x) ?_ ?_; rotate_left; intro _; clear_value x; rotate_left; unfold x; clear x) | (refine KeptX.cut (s₀ := s₀) (x := x) ?_ ?_; rotate_left; intro _; clear_value x; rotate_left; unfold x; clear x) | clear_value x | skip)
    | with_reducible apply Kept.ite
    | with_reducible apply KeptX.ite
    | with_reducible apply KeptX.next
    | with_reducible exact KeptX.refused
    | with_reducible apply spdm_kept
    | (with_reducible refine KeptX.of_eq ?_ ‹_›)
    | split

theorem execGetCertificate_kept {s₀ s : State} {slot : Nat} {off : Nat} {len : Nat} (hK : Kept s₀ s) :
    KeptX s₀ (execGetCertificate slot off len s) := by
  unfold execGetCertificate
  repeat' first
    | with_reducible assumption
    | intro _
    | (extract_lets +onlyGivenNames x; first | (refine Kept.cut (s₀ := s₀) (x := x) ?_ ?_; rotate_left; intro _; clear_value x; rotate_left; unfold x; clear x) | (refine KeptX.cut (s₀ := s₀) (x := x) ?_ ?_; rotate_left; intro _; clear_value x; rotate_left; unfold x; clear x) | clear_value x | skip)
    | with_reducible apply Kept.ite
    | with_reducible apply KeptX.ite
    | with_reducible apply KeptX.next
    | with_reducible exact KeptX.refused
    | with_reducible apply spdm_kept
    | (with_reducible refine KeptX.of_eq ?_ ‹_›)
    | split

theorem execChallenge_kept {s₀ s : State} {slot : Nat} (hK : Kept s₀ s) :
    KeptX s₀ (execChallenge slot s) := by
  unfold execChallenge
  repeat' first
    | with_reducible assumption
    | intro _
    | (extract_lets +onlyGivenNames x; first | (refine Kept.cut (s₀ := s₀) (x := x) ?_ ?_; rotate_left; intro _; clear_value x; rotate_left; unfold x; clear x) | (refine KeptX.cut (s₀ := s₀) (x := x) ?_ ?_; rotate_left; intro _; clear_value x; rotate_left; unfold x; clear x) | clear_value x | skip)
    | with_reducible apply Kept.ite
    | with_reducible apply KeptX.ite
    | with_reducible apply KeptX.next
    | with_reducible exact KeptX.refused
    | with_reducible apply spdm_kept
    | (with_reducible refine KeptX.of_eq ?_ ‹_›)
    | split

theorem execGetMeasurements_kept {s₀ s : State} {index : Nat} (hK : Kept s₀ s) :
    KeptX s₀ (execGetMeasurements index s) := by
  unfold execGetMeasurements
  repeat' first
    | with_reducible assumption
    | intro _
    | (extract_lets +onlyGivenNames x; first | (refine Kept.cut (s₀ := s₀) (x := x) ?_ ?_; rotate_left; intro _; clear_value x; rotate_left; unfold x; clear x) | (refine KeptX.cut (s₀ := s₀) (x := x) ?_ ?_; rotate_left; intro _; clear_value x; rotate_left; unfold x; clear x) | clear_value x | skip)
    | with_reducible apply Kept.ite
    | with_reducible apply KeptX.ite
    | with_reducible apply KeptX.next
    | with_reducible exact KeptX.refused
    | with_reducible apply spdm_kept
    | (with_reducible refine KeptX.of_eq ?_ ‹_›)
    | split

end Sys2Proof.Machine
end

