-- ==== Sys2Proof/Laws/KeptGuard.lean ====
section
/-! SUPPORT. What the operations and meanings of Machine/Guard.lean keep. -/

set_option linter.unreachableTactic false
set_option linter.unusedTactic false
set_option linter.unusedVariables false
set_option linter.tactic.unusedName false

namespace Sys2Proof.Machine

theorem writeTile_kept {s₀ s : State} {c : Contribution} (hK : Kept s₀ s) :
    Kept s₀ (writeTile s c) := by
  unfold writeTile
  repeat' first
    | with_reducible assumption
    | intro _
    | (extract_lets +onlyGivenNames x; first | (refine Kept.cut (s₀ := s₀) (x := x) ?_ ?_; rotate_left; intro _; clear_value x; rotate_left; unfold x; clear x) | clear_value x | skip)
    | with_reducible apply Kept.ite
    | with_reducible apply dpaWrite_kept
    | split

theorem combineTile_kept {s₀ s : State} {c : Contribution} (hK : Kept s₀ s) :
    Kept s₀ (combineTile s c) := by
  unfold combineTile
  repeat' first
    | with_reducible assumption
    | intro _
    | (extract_lets +onlyGivenNames x; first | (refine Kept.cut (s₀ := s₀) (x := x) ?_ ?_; rotate_left; intro _; clear_value x; rotate_left; unfold x; clear x) | clear_value x | skip)
    | with_reducible apply Kept.ite
    | with_reducible apply Kept.foldl
    | with_reducible apply dpaWrite_kept
    | split

theorem writeGRec_kept {s₀ s : State} {c : Contribution} {r : GRec} (hK : Kept s₀ s) :
    Kept s₀ (writeGRec s c r) := by
  unfold writeGRec
  repeat' first
    | with_reducible assumption
    | intro _
    | (extract_lets +onlyGivenNames x; first | (refine Kept.cut (s₀ := s₀) (x := x) ?_ ?_; rotate_left; intro _; clear_value x; rotate_left; unfold x; clear x) | clear_value x | skip)
    | with_reducible apply Kept.ite
    | with_reducible apply dpaWrite_kept
    | split

theorem guardMismatch_kept {s₀ s : State} {n : Nat} {c : Contribution} (hK : Kept s₀ s) :
    Kept s₀ (guardMismatch s n c) := by
  unfold guardMismatch
  repeat' first
    | with_reducible assumption
    | intro _
    | (extract_lets +onlyGivenNames x; first | (refine Kept.cut (s₀ := s₀) (x := x) ?_ ?_; rotate_left; intro _; clear_value x; rotate_left; unfold x; clear x) | clear_value x | skip)
    | with_reducible apply Kept.ite
    | with_reducible apply rasAppend_kept
    | with_reducible apply runErr_kept
    | with_reducible apply satAdd_kept
    | split

theorem passTile_kept {s₀ s : State} {c : Contribution} {first : Bool} (hK : Kept s₀ s) :
    Kept s₀ (passTile s c first) := by
  unfold passTile
  repeat' first
    | with_reducible assumption
    | intro _
    | (extract_lets +onlyGivenNames x; first | (refine Kept.cut (s₀ := s₀) (x := x) ?_ ?_; rotate_left; intro _; clear_value x; rotate_left; unfold x; clear x) | (refine KeptP.cut (s₀ := s₀) (x := x) ?_ ?_; rotate_left; intro _; clear_value x; rotate_left; unfold x; clear x) | clear_value x | skip)
    | with_reducible apply Kept.ite
    | with_reducible apply KeptP.ite
    | (with_reducible refine KeptP.snd ?_; with_reducible assumption)
    | with_reducible exact KeptP.val ‹_›
    | with_reducible refine KeptP.snd (saddlePass_kept ?_)
    | with_reducible refine KeptP.snd (KeptP.foldl ?_ ?_)
    | with_reducible apply Kept.foldl
    | with_reducible apply KeptP.foldl
    | with_reducible apply saddlePass_kept
    | (with_reducible refine KeptP.of_eq ?_ ‹_›)
    | split
    | with_reducible apply KeptP.mk

theorem guardStep_kept {s₀ s : State} {n : Nat} {c : Contribution} (hK : Kept s₀ s) : Kept s₀ (guardStep s n c) := by
  unfold guardStep
  extract_lets old r s1 applied
  have h1 : Kept s₀ s1 := KeptP.snd (saddlePass_kept hK)
  have ha : ∀ f t, Kept s₀ t → Kept s₀ (applied f t) := fun f t h => KeptP.snd (saddlePass_kept (passTile_kept (ctrAdd_kept h)))
  clear_value applied s1
  refine Kept.ite (guardMismatch_kept h1) (Kept.ite (ha _ _ (writeGRec_kept (writeTile_kept h1)))
    (Kept.ite (guardMismatch_kept h1) (Kept.ite (satAdd_kept h1) (ha _ _ (writeGRec_kept (combineTile_kept h1))))))

theorem execGuardApply_kept {s₀ s : State} {sd : Fin 2} (hK : Kept s₀ s) :
    KeptX s₀ (execGuardApply sd s) := by
  unfold execGuardApply
  repeat' first
    | with_reducible assumption
    | intro _
    | (extract_lets +onlyGivenNames x; first | (refine Kept.cut (s₀ := s₀) (x := x) ?_ ?_; rotate_left; intro _; clear_value x; rotate_left; unfold x; clear x) | (refine KeptX.cut (s₀ := s₀) (x := x) ?_ ?_; rotate_left; intro _; clear_value x; rotate_left; unfold x; clear x) | clear_value x | skip)
    | with_reducible apply Kept.ite
    | with_reducible apply KeptX.ite
    | with_reducible apply KeptX.next
    | with_reducible exact KeptX.refused
    | with_reducible apply Put.sent_kept
    | with_reducible apply guardStep_kept
    | with_reducible apply fenceArrivals_kept
    | with_reducible apply updSaddle_kept
    | (with_reducible refine KeptX.of_eq ?_ ‹_›)
    | split

end Sys2Proof.Machine
end

