-- ==== Sys2Proof/Laws/KeptReach.lean ====
section
/-! SUPPORT. What the operations and meanings of Machine/Reach.lean keep. -/

set_option linter.unreachableTactic false
set_option linter.unusedTactic false
set_option linter.unusedVariables false
set_option linter.tactic.unusedName false

namespace Sys2Proof.Machine

theorem startCut_kept {s₀ s : State} {k : Nat} {tg : Nat} {thr : Nat} {pc : Nat} {d : BitVec 256} {ctl : W64} (hK : Kept s₀ s) :
    Kept s₀ (startCut s k tg thr pc d ctl) := by
  unfold startCut
  repeat' first
    | with_reducible assumption
    | intro _
    | (extract_lets +onlyGivenNames x; first | (refine Kept.cut (s₀ := s₀) (x := x) ?_ ?_; rotate_left; intro _; clear_value x; rotate_left; unfold x; clear x) | clear_value x | skip)
    | with_reducible apply Kept.ite
    | with_reducible apply updRun_kept
    | split

theorem cutBody_kept {s₀ s : State} {c : Ctx} (hK : Kept s₀ s) :
    KeptO s₀ (cutBody c s) := by
  unfold cutBody
  repeat' first
    | with_reducible assumption
    | intro _
    | (extract_lets +onlyGivenNames x; first | (refine Kept.cut (s₀ := s₀) (x := x) ?_ ?_; rotate_left; intro _; clear_value x; rotate_left; unfold x; clear x) | (refine KeptO.cut (s₀ := s₀) (x := x) ?_ ?_; rotate_left; intro _; clear_value x; rotate_left; unfold x; clear x) | clear_value x | skip)
    | with_reducible apply Kept.ite
    | with_reducible apply KeptO.ite
    | with_reducible exact KeptO.val ‹_›
    | with_reducible apply KeptO.some
    | with_reducible exact KeptO.none
    | with_reducible apply startCut_kept
    | with_reducible apply onThread_kept
    | (with_reducible refine KeptO.of_eq ?_ ‹_›)
    | split

theorem execCflRqCut_kept {s₀ s : State} {i : Issue} (hK : Kept s₀ s) :
    KeptX s₀ (execCflRqCut i s) := by
  unfold execCflRqCut
  repeat' first
    | with_reducible assumption
    | intro _
    | (extract_lets +onlyGivenNames x; first | (refine Kept.cut (s₀ := s₀) (x := x) ?_ ?_; rotate_left; intro _; clear_value x; rotate_left; unfold x; clear x) | (refine KeptX.cut (s₀ := s₀) (x := x) ?_ ?_; rotate_left; intro _; clear_value x; rotate_left; unfold x; clear x) | (refine KeptO.cut (s₀ := s₀) (x := x) ?_ ?_; rotate_left; intro _; clear_value x; rotate_left; unfold x; clear x) | clear_value x | skip)
    | with_reducible apply Kept.ite
    | with_reducible apply KeptO.ite
    | with_reducible exact KeptO.val ‹_›
    | with_reducible apply KeptO.some
    | with_reducible exact KeptO.none
    | with_reducible apply KeptX.ite
    | with_reducible apply KeptX.next
    | with_reducible exact KeptX.refused
    | with_reducible apply strict_kept
    | with_reducible apply issue_kept
    | with_reducible apply cutBody_kept
    | with_reducible apply checked_kept
    | (with_reducible refine KeptO.of_eq ?_ ‹_›)
    | (with_reducible refine KeptX.of_eq ?_ ‹_›)
    | split

theorem execCflRqTake_kept {s₀ s : State} {i : Issue} (hK : Kept s₀ s) :
    KeptX s₀ (execCflRqTake i s) := by
  unfold execCflRqTake
  repeat' first
    | with_reducible assumption
    | intro _
    | (extract_lets +onlyGivenNames x; first | (refine Kept.cut (s₀ := s₀) (x := x) ?_ ?_; rotate_left; intro _; clear_value x; rotate_left; unfold x; clear x) | (refine KeptX.cut (s₀ := s₀) (x := x) ?_ ?_; rotate_left; intro _; clear_value x; rotate_left; unfold x; clear x) | (refine KeptO.cut (s₀ := s₀) (x := x) ?_ ?_; rotate_left; intro _; clear_value x; rotate_left; unfold x; clear x) | clear_value x | skip)
    | with_reducible apply Kept.ite
    | with_reducible apply KeptO.ite
    | with_reducible exact KeptO.val ‹_›
    | with_reducible apply KeptO.some
    | with_reducible exact KeptO.none
    | with_reducible apply KeptX.ite
    | with_reducible apply KeptX.next
    | with_reducible exact KeptX.refused
    | with_reducible apply strict_kept
    | with_reducible apply issue_kept
    | with_reducible apply checked_kept
    | with_reducible apply onThread_kept
    | (with_reducible refine KeptO.of_eq ?_ ‹_›)
    | (with_reducible refine KeptX.of_eq ?_ ‹_›)
    | split

theorem endCut_kept {s₀ s : State} {k : Nat} {n : Nat} {al : Nat} {j : CutJob} (hK : Kept s₀ s) :
    Kept s₀ (endCut s k n al j) := by
  unfold endCut
  repeat' first
    | with_reducible assumption
    | intro _
    | (extract_lets +onlyGivenNames x; first | (refine Kept.cut (s₀ := s₀) (x := x) ?_ ?_; rotate_left; intro _; clear_value x; rotate_left; unfold x; clear x) | clear_value x | skip)
    | with_reducible apply Kept.ite
    | with_reducible apply updRun_kept
    | with_reducible apply logStream_kept
    | split

theorem execCutterPlace_kept {s₀ s : State} {slot : Fin 65536} (hK : Kept s₀ s) :
    KeptX s₀ (execCutterPlace slot s) := by
  unfold execCutterPlace
  repeat' first
    | with_reducible assumption
    | intro _
    | (extract_lets +onlyGivenNames x; first | (refine Kept.cut (s₀ := s₀) (x := x) ?_ ?_; rotate_left; intro _; clear_value x; rotate_left; unfold x; clear x) | (refine KeptX.cut (s₀ := s₀) (x := x) ?_ ?_; rotate_left; intro _; clear_value x; rotate_left; unfold x; clear x) | clear_value x | skip)
    | with_reducible apply Kept.ite
    | with_reducible apply KeptX.ite
    | with_reducible apply KeptX.next
    | with_reducible exact KeptX.refused
    | with_reducible apply itemFault_kept
    | with_reducible apply updRun_kept
    | with_reducible apply atsAsk_kept
    | with_reducible apply endCut_kept
    | with_reducible apply ctrAdd_kept
    | with_reducible apply updTerrace_kept
    | with_reducible apply noteAccs_kept
    | with_reducible apply satAdd_kept
    | with_reducible apply logStream_kept
    | (with_reducible refine KeptX.of_eq ?_ ‹_›)
    | split

theorem loseTake_kept {s₀ s : State} {r : Run} {v : Nat} {tg : Nat} (hK : Kept s₀ s) :
    Kept s₀ (loseTake s r v tg) := by
  unfold loseTake
  repeat' first
    | with_reducible assumption
    | intro _
    | (extract_lets +onlyGivenNames x; first | (refine Kept.cut (s₀ := s₀) (x := x) ?_ ?_; rotate_left; intro _; clear_value x; rotate_left; unfold x; clear x) | clear_value x | skip)
    | with_reducible apply Kept.ite
    | with_reducible apply Kept.foldl
    | with_reducible apply updThread_kept
    | with_reducible apply updTerrace_kept
    | split

theorem removeReach_kept {s₀ s : State} {tg : Nat} {v : Nat} (hK : Kept s₀ s) :
    KeptQ s₀ (removeReach s tg v) := by
  unfold removeReach
  repeat' first
    | with_reducible assumption
    | intro _
    | (extract_lets +onlyGivenNames x; first | (refine Kept.cut (s₀ := s₀) (x := x) ?_ ?_; rotate_left; intro _; clear_value x; rotate_left; unfold x; clear x) | (refine KeptQ.cut (s₀ := s₀) (x := x) ?_ ?_; rotate_left; intro _; clear_value x; rotate_left; unfold x; clear x) | clear_value x | skip)
    | with_reducible apply Kept.ite
    | with_reducible apply KeptQ.ite
    | (with_reducible refine KeptQ.fst ?_; with_reducible assumption)
    | with_reducible exact KeptQ.val ‹_›
    | with_reducible apply updTerrace_kept
    | with_reducible apply satAdd_kept
    | (with_reducible refine KeptQ.of_eq ?_ ‹_›)
    | split
    | with_reducible apply KeptQ.mk

theorem serveTake_kept {s₀ s : State} {tg thr sN pd : Nat} {lost : List Nat} (hK : Kept s₀ s) :
    Kept s₀ (serveTake s tg thr sN pd lost) := by
  unfold serveTake
  extract_lets fin
  have hf : ∀ t w k, Kept s₀ t → Kept s₀ (fin t w k) := fun _ _ _ h => updThread_kept h
  clear_value fin
  split
  · exact hf _ _ _ hK
  · split
    · exact hf _ _ _ hK
    · refine Kept.ite ?_ (loseTake_kept hK)
      exact hf _ _ _ (KeptQ.fst (removeReach_kept (Kept.foldl hK (fun _ _ h => loseTake_kept h))))

end Sys2Proof.Machine
end

