-- ==== Sys2Proof/Laws/KeptRefill.lean ====
section
/-! SUPPORT. What the operations and meanings of Machine/Refill.lean keep. -/

set_option linter.unreachableTactic false
set_option linter.unusedTactic false
set_option linter.unusedVariables false
set_option linter.tactic.unusedName false

namespace Sys2Proof.Machine

theorem serveWait_kept {s₀ s : State} {x : SadWait} (hK : Kept s₀ s) :
    Kept s₀ (serveWait s x) := by
  unfold serveWait
  repeat' first
    | with_reducible assumption
    | intro _
    | (extract_lets +onlyGivenNames x; first | (refine Kept.cut (s₀ := s₀) (x := x) ?_ ?_; rotate_left; intro _; clear_value x; rotate_left; unfold x; clear x) | clear_value x | skip)
    | with_reducible apply Kept.ite
    | with_reducible apply serveWrite_kept
    | with_reducible apply holdRequest_kept
    | with_reducible apply serveRead_kept
    | with_reducible apply takePeer_kept
    | split

theorem serveWaits_kept {s₀ s : State}  (hK : Kept s₀ s) :
    Kept s₀ (serveWaits s) := by
  unfold serveWaits
  repeat' first
    | with_reducible assumption
    | intro _
    | (extract_lets +onlyGivenNames x; first | (refine Kept.cut (s₀ := s₀) (x := x) ?_ ?_; rotate_left; intro _; clear_value x; rotate_left; unfold x; clear x) | clear_value x | skip)
    | with_reducible apply Kept.ite
    | with_reducible apply Kept.foldl
    | with_reducible apply serveWait_kept
    | with_reducible apply updSaddle_kept
    | split

theorem execWeirRefill_kept {s₀ s : State}  (hK : Kept s₀ s) :
    KeptX s₀ (execWeirRefill s) := by
  unfold execWeirRefill
  repeat' first
    | with_reducible assumption
    | intro _
    | (extract_lets +onlyGivenNames x; first | (refine Kept.cut (s₀ := s₀) (x := x) ?_ ?_; rotate_left; intro _; clear_value x; rotate_left; unfold x; clear x) | (refine KeptX.cut (s₀ := s₀) (x := x) ?_ ?_; rotate_left; intro _; clear_value x; rotate_left; unfold x; clear x) | (refine kept_cut_fun (s₀ := s₀) (x := x) ?_ ?_; rotate_left; intro _; clear_value x; rotate_left; unfold x; clear x) | (refine kept_cut_fun2 (s₀ := s₀) (x := x) ?_ ?_; rotate_left; intro _; clear_value x; rotate_left; unfold x; clear x) | (refine kept_cut_fun3 (s₀ := s₀) (x := x) ?_ ?_; rotate_left; intro _; clear_value x; rotate_left; unfold x; clear x) | (refine kept_cut_val (s₀ := s₀) (x := x) ?_ ?_; rotate_left; intro _; clear_value x; rotate_left; unfold x; clear x) | clear_value x | skip)
    | with_reducible apply Kept.ite
    | with_reducible apply KeptX.ite
    | with_reducible apply KeptX.next
    | with_reducible exact KeptX.refused
    | with_reducible apply Kept.foldl
    | with_reducible apply admitWaiting_kept
    | with_reducible apply redivideOne_kept
    | with_reducible apply serveWaits_kept
    | with_reducible apply updTerrace_kept
    | with_reducible apply countWaits_kept
    | with_reducible apply refillShares_kept
    | with_reducible apply updSaddle_kept
    | (with_reducible refine set_redivide ?_; with_reducible assumption)
    | (with_reducible refine set_rsvs ?_; with_reducible assumption)
    | (with_reducible refine KeptX.of_eq ?_ ‹_›)
    | with_reducible apply_assumption -exfalso -symm
    | split

end Sys2Proof.Machine
end

