-- ==== Sys2Proof/Laws/KeptSideband.lean ====
section
/-! SUPPORT. What the operations and meanings of Machine/Sideband.lean keep. -/

set_option linter.unreachableTactic false
set_option linter.unusedTactic false
set_option linter.unusedVariables false
set_option linter.tactic.unusedName false

namespace Sys2Proof.Machine

theorem execXprsntRemove_kept {s₀ s : State} {port : Fin 8} (hK : Kept s₀ s) :
    KeptX s₀ (execXprsntRemove port s) := by
  unfold execXprsntRemove
  repeat' first
    | with_reducible assumption
    | intro _
    | (extract_lets +onlyGivenNames x; first | (refine Kept.cut (s₀ := s₀) (x := x) ?_ ?_; rotate_left; intro _; clear_value x; rotate_left; unfold x; clear x) | (refine KeptX.cut (s₀ := s₀) (x := x) ?_ ?_; rotate_left; intro _; clear_value x; rotate_left; unfold x; clear x) | clear_value x | skip)
    | with_reducible apply Kept.ite
    | with_reducible apply KeptX.ite
    | with_reducible apply KeptX.next
    | with_reducible exact KeptX.refused
    | with_reducible apply failFar_kept
    | (with_reducible refine set_farDevs ?_; with_reducible assumption)
    | (with_reducible refine set_xperst ?_; with_reducible assumption)
    | (with_reducible refine KeptX.of_eq ?_ ‹_›)
    | split

theorem execXprsntInsert_kept {s₀ s : State} {port : Fin 8} {d : Expander} (hK : Kept s₀ s) : KeptX s₀ (execXprsntInsert port d s) := by
  unfold execXprsntInsert
  extract_lets p base s1 s2 f partner mir st
  have h1 : Kept s₀ s1 := set_far hK (fun hm => Mem.scrub_wf _ _ _ hm)
  have h2 : Kept s₀ s2 := h1
  exact KeptX.ite h1 (KeptX.next (noteFigures_kept h2 (setFarState_kept (set_farPorts h2))))

theorem updTap_kept {s₀ s : State} {hd : Nat} {f : Tap → Tap} (hK : Kept s₀ s) :
    Kept s₀ (updTap s hd f) := by
  unfold updTap
  repeat' first
    | with_reducible assumption
    | intro _
    | (extract_lets +onlyGivenNames x; first | (refine Kept.cut (s₀ := s₀) (x := x) ?_ ?_; rotate_left; intro _; clear_value x; rotate_left; unfold x; clear x) | clear_value x | skip)
    | with_reducible apply Kept.ite
    | (with_reducible refine set_taps ?_; with_reducible assumption)
    | split

theorem tapSelect_kept {s₀ s : State} {hd : Nat} {ir : Nat} {f : Tap → Tap} (hK : Kept s₀ s) :
    Kept s₀ (tapSelect s hd ir f) := by
  unfold tapSelect
  repeat' first
    | with_reducible assumption
    | intro _
    | (extract_lets +onlyGivenNames x; first | (refine Kept.cut (s₀ := s₀) (x := x) ?_ ?_; rotate_left; intro _; clear_value x; rotate_left; unfold x; clear x) | clear_value x | skip)
    | with_reducible apply Kept.ite
    | with_reducible apply updTap_kept
    | split

theorem execTapIdcode_kept {s₀ s : State} {hd : Fin 2} (hK : Kept s₀ s) :
    KeptX s₀ (execTapIdcode hd s) := by
  unfold execTapIdcode
  repeat' first
    | with_reducible assumption
    | intro _
    | (extract_lets +onlyGivenNames x; first | (refine Kept.cut (s₀ := s₀) (x := x) ?_ ?_; rotate_left; intro _; clear_value x; rotate_left; unfold x; clear x) | (refine KeptX.cut (s₀ := s₀) (x := x) ?_ ?_; rotate_left; intro _; clear_value x; rotate_left; unfold x; clear x) | clear_value x | skip)
    | with_reducible apply Kept.ite
    | with_reducible apply KeptX.ite
    | with_reducible apply KeptX.next
    | with_reducible exact KeptX.refused
    | with_reducible apply tapSelect_kept
    | with_reducible apply emit_kept
    | (with_reducible refine KeptX.of_eq ?_ ‹_›)
    | split

theorem execTapBypass_kept {s₀ s : State} {hd : Fin 2} (hK : Kept s₀ s) :
    KeptX s₀ (execTapBypass hd s) := by
  unfold execTapBypass
  repeat' first
    | with_reducible assumption
    | intro _
    | (extract_lets +onlyGivenNames x; first | (refine Kept.cut (s₀ := s₀) (x := x) ?_ ?_; rotate_left; intro _; clear_value x; rotate_left; unfold x; clear x) | (refine KeptX.cut (s₀ := s₀) (x := x) ?_ ?_; rotate_left; intro _; clear_value x; rotate_left; unfold x; clear x) | clear_value x | skip)
    | with_reducible apply Kept.ite
    | with_reducible apply KeptX.ite
    | with_reducible apply KeptX.next
    | with_reducible exact KeptX.refused
    | with_reducible apply tapSelect_kept
    | (with_reducible refine KeptX.of_eq ?_ ‹_›)
    | split

theorem execTapSamplePreload_kept {s₀ s : State} {hd : Fin 2} {v : Nat} (hK : Kept s₀ s) :
    KeptX s₀ (execTapSamplePreload hd v s) := by
  unfold execTapSamplePreload
  repeat' first
    | with_reducible assumption
    | intro _
    | (extract_lets +onlyGivenNames x; first | (refine Kept.cut (s₀ := s₀) (x := x) ?_ ?_; rotate_left; intro _; clear_value x; rotate_left; unfold x; clear x) | (refine KeptX.cut (s₀ := s₀) (x := x) ?_ ?_; rotate_left; intro _; clear_value x; rotate_left; unfold x; clear x) | clear_value x | skip)
    | with_reducible apply Kept.ite
    | with_reducible apply KeptX.ite
    | with_reducible apply KeptX.next
    | with_reducible exact KeptX.refused
    | with_reducible apply tapSelect_kept
    | (with_reducible refine KeptX.of_eq ?_ ‹_›)
    | split

theorem execTapExtest_kept {s₀ s : State} {hd : Fin 2} (hK : Kept s₀ s) :
    KeptX s₀ (execTapExtest hd s) := by
  unfold execTapExtest
  repeat' first
    | with_reducible assumption
    | intro _
    | (extract_lets +onlyGivenNames x; first | (refine Kept.cut (s₀ := s₀) (x := x) ?_ ?_; rotate_left; intro _; clear_value x; rotate_left; unfold x; clear x) | (refine KeptX.cut (s₀ := s₀) (x := x) ?_ ?_; rotate_left; intro _; clear_value x; rotate_left; unfold x; clear x) | clear_value x | skip)
    | with_reducible apply Kept.ite
    | with_reducible apply KeptX.ite
    | with_reducible apply KeptX.next
    | with_reducible exact KeptX.refused
    | with_reducible apply tapSelect_kept
    | (with_reducible refine KeptX.of_eq ?_ ‹_›)
    | split

theorem execTapIeee1687Access_kept {s₀ s : State} {hd : Fin 2} {v : Nat} (hK : Kept s₀ s) :
    KeptX s₀ (execTapIeee1687Access hd v s) := by
  unfold execTapIeee1687Access
  repeat' first
    | with_reducible assumption
    | intro _
    | (extract_lets +onlyGivenNames x; first | (refine Kept.cut (s₀ := s₀) (x := x) ?_ ?_; rotate_left; intro _; clear_value x; rotate_left; unfold x; clear x) | (refine KeptX.cut (s₀ := s₀) (x := x) ?_ ?_; rotate_left; intro _; clear_value x; rotate_left; unfold x; clear x) | clear_value x | skip)
    | with_reducible apply Kept.ite
    | with_reducible apply KeptX.ite
    | with_reducible apply KeptX.next
    | with_reducible exact KeptX.refused
    | with_reducible apply tapSelect_kept
    | (with_reducible refine KeptX.of_eq ?_ ‹_›)
    | split

theorem execTapReset_kept {s₀ s : State} {u0 : Fin 2} (hK : Kept s₀ s) :
    KeptX s₀ (execTapReset u0 s) := by
  unfold execTapReset
  repeat' first
    | with_reducible assumption
    | intro _
    | (extract_lets +onlyGivenNames x; first | (refine Kept.cut (s₀ := s₀) (x := x) ?_ ?_; rotate_left; intro _; clear_value x; rotate_left; unfold x; clear x) | (refine KeptX.cut (s₀ := s₀) (x := x) ?_ ?_; rotate_left; intro _; clear_value x; rotate_left; unfold x; clear x) | clear_value x | skip)
    | with_reducible apply Kept.ite
    | with_reducible apply KeptX.ite
    | with_reducible apply KeptX.next
    | with_reducible exact KeptX.refused
    | (with_reducible refine set_taps ?_; with_reducible assumption)
    | (with_reducible refine KeptX.of_eq ?_ ‹_›)
    | split

end Sys2Proof.Machine
end

