-- ==== Sys2Proof/Laws/KeptStage.lean ====
section
/-! SUPPORT. What the operations and meanings of Machine/Stage.lean keep. -/

set_option linter.unreachableTactic false
set_option linter.unusedTactic false
set_option linter.unusedVariables false
set_option linter.tactic.unusedName false

namespace Sys2Proof.Machine

theorem feedUnit_kept {s₀ s : State} {tg : Nat} {u : Nat} (hK : Kept s₀ s) :
    Kept s₀ (feedUnit s tg u) := by
  unfold feedUnit
  repeat' first
    | with_reducible assumption
    | intro _
    | (extract_lets +onlyGivenNames x; first | (refine Kept.cut (s₀ := s₀) (x := x) ?_ ?_; rotate_left; intro _; clear_value x; rotate_left; unfold x; clear x) | clear_value x | skip)
    | with_reducible apply Kept.ite
    | with_reducible apply feedStore_kept
    | with_reducible apply tagThread_kept
    | with_reducible apply updTerrace_kept
    | with_reducible apply feedLane_kept
    | split

theorem pumpOnce_kept {s₀ s : State} {tg : Nat} (hK : Kept s₀ s) :
    Kept s₀ (pumpOnce s tg) := by
  unfold pumpOnce
  repeat' first
    | with_reducible assumption
    | intro _
    | (extract_lets +onlyGivenNames x; first | (refine Kept.cut (s₀ := s₀) (x := x) ?_ ?_; rotate_left; intro _; clear_value x; rotate_left; unfold x; clear x) | clear_value x | skip)
    | with_reducible apply Kept.ite
    | with_reducible apply Kept.foldl
    | with_reducible apply feedUnit_kept
    | with_reducible apply retryPushes_kept
    | split

theorem pump_kept {s₀ s : State} {tg : Nat} (hK : Kept s₀ s) :
    Kept s₀ (pump s tg) := by
  unfold pump
  repeat' first
    | with_reducible assumption
    | intro _
    | (extract_lets +onlyGivenNames x; first | (refine Kept.cut (s₀ := s₀) (x := x) ?_ ?_; rotate_left; intro _; clear_value x; rotate_left; unfold x; clear x) | clear_value x | skip)
    | with_reducible apply Kept.ite
    | with_reducible apply Kept.loop
    | with_reducible apply updTerrace_kept
    | with_reducible apply pumpOnce_kept
    | split

theorem startOn_kept {s₀ s : State} {isl : Nat} {tg : Nat} {c : Cmd} (hK : Kept s₀ s) :
    KeptP s₀ (startOn isl s tg c) := by
  unfold startOn
  repeat' first
    | with_reducible assumption
    | intro _
    | (extract_lets +onlyGivenNames x; first | (refine Kept.cut (s₀ := s₀) (x := x) ?_ ?_; rotate_left; intro _; clear_value x; rotate_left; unfold x; clear x) | (refine KeptP.cut (s₀ := s₀) (x := x) ?_ ?_; rotate_left; intro _; clear_value x; rotate_left; unfold x; clear x) | clear_value x | skip)
    | with_reducible apply Kept.ite
    | with_reducible apply KeptP.ite
    | (with_reducible refine KeptP.snd ?_; with_reducible assumption)
    | with_reducible exact KeptP.val ‹_›
    | with_reducible refine KeptP.snd (startMma_kept ?_)
    | with_reducible refine KeptP.snd (startStr_kept ?_)
    | with_reducible refine KeptP.snd (startLane_kept ?_)
    | with_reducible refine KeptP.snd (startOut_kept ?_)
    | with_reducible refine KeptP.snd (startEpi_kept ?_)
    | with_reducible refine KeptP.snd (startHgp_kept ?_)
    | with_reducible refine KeptP.snd (startLat_kept ?_)
    | with_reducible apply startMma_kept
    | with_reducible apply startStr_kept
    | with_reducible apply startLane_kept
    | with_reducible apply startOut_kept
    | with_reducible apply startEpi_kept
    | with_reducible apply startHgp_kept
    | with_reducible apply startLat_kept
    | (with_reducible refine KeptP.of_eq ?_ ‹_›)
    | split
    | with_reducible apply KeptP.mk

theorem noteMiss_kept {s₀ s : State} {tg : Nat} {isl : Nat} {c : Cmd} (hK : Kept s₀ s) :
    Kept s₀ (noteMiss s tg isl c) := by
  unfold noteMiss
  repeat' first
    | with_reducible assumption
    | intro _
    | (extract_lets +onlyGivenNames x; first | (refine Kept.cut (s₀ := s₀) (x := x) ?_ ?_; rotate_left; intro _; clear_value x; rotate_left; unfold x; clear x) | clear_value x | skip)
    | with_reducible apply Kept.ite
    | with_reducible apply Kept.foldl
    | with_reducible apply boundMiss_kept
    | with_reducible apply updTerrace_kept
    | split

theorem noteFreeze_kept {s₀ s : State} {tg : Nat} {isl : Nat} {c : Cmd} (hK : Kept s₀ s) :
    Kept s₀ (noteFreeze s tg isl c) := by
  unfold noteFreeze
  repeat' first
    | with_reducible assumption
    | intro _
    | (extract_lets +onlyGivenNames x; first | (refine Kept.cut (s₀ := s₀) (x := x) ?_ ?_; rotate_left; intro _; clear_value x; rotate_left; unfold x; clear x) | clear_value x | skip)
    | with_reducible apply Kept.ite
    | with_reducible apply ctrAdd_kept
    | split

theorem bankErr_kept {s₀ s : State} {tg : Nat} {e : BankErr} (hK : Kept s₀ s) :
    Kept s₀ (bankErr s tg e) := by
  unfold bankErr
  repeat' first
    | with_reducible assumption
    | intro _
    | (extract_lets +onlyGivenNames x; first | (refine Kept.cut (s₀ := s₀) (x := x) ?_ ?_; rotate_left; intro _; clear_value x; rotate_left; unfold x; clear x) | clear_value x | skip)
    | with_reducible apply Kept.ite
    | with_reducible apply askRetire_kept
    | with_reducible apply updTerrace_kept
    | with_reducible apply satAdd_kept
    | split

theorem execIslandInstrStart_kept {s₀ s : State} {tg : Fin 64} {start : IslandStart} (hK : Kept s₀ s) :
    KeptX s₀ (execIslandInstrStart tg start s) := by
  unfold execIslandInstrStart
  repeat' first
    | with_reducible assumption
    | intro _
    | (extract_lets +onlyGivenNames x; first | (refine Kept.cut (s₀ := s₀) (x := x) ?_ ?_; rotate_left; intro _; clear_value x; rotate_left; unfold x; clear x) | (refine KeptP.cut (s₀ := s₀) (x := x) ?_ ?_; rotate_left; intro _; clear_value x; rotate_left; unfold x; clear x) | (refine KeptX.cut (s₀ := s₀) (x := x) ?_ ?_; rotate_left; intro _; clear_value x; rotate_left; unfold x; clear x) | clear_value x | skip)
    | with_reducible apply Kept.ite
    | with_reducible apply KeptP.ite
    | (with_reducible refine KeptP.snd ?_; with_reducible assumption)
    | with_reducible exact KeptP.val ‹_›
    | with_reducible refine KeptP.snd (startOn_kept ?_)
    | with_reducible refine KeptP.snd (KeptP.foldl ?_ ?_)
    | with_reducible apply KeptX.ite
    | with_reducible apply KeptX.next
    | with_reducible exact KeptX.refused
    | with_reducible apply Kept.foldl
    | with_reducible apply KeptP.foldl
    | with_reducible apply noteMiss_kept
    | with_reducible apply noteFreeze_kept
    | with_reducible apply tagThread_kept
    | with_reducible apply pump_kept
    | with_reducible apply updTerrace_kept
    | with_reducible apply startOn_kept
    | with_reducible apply bankErr_kept
    | (with_reducible refine KeptP.of_eq ?_ ‹_›)
    | (with_reducible refine KeptX.of_eq ?_ ‹_›)
    | split
    | with_reducible apply KeptP.mk

theorem countEnd_kept {s₀ s : State} {tg : Nat} {u : Nat} {c : Cmd} (hK : Kept s₀ s) :
    Kept s₀ (countEnd s tg u c) := by
  unfold countEnd
  repeat' first
    | with_reducible assumption
    | intro _
    | (extract_lets +onlyGivenNames x; first | (refine Kept.cut (s₀ := s₀) (x := x) ?_ ?_; rotate_left; intro _; clear_value x; rotate_left; unfold x; clear x) | clear_value x | skip)
    | with_reducible apply Kept.ite
    | with_reducible apply observeEnd_kept
    | with_reducible apply satAdd_kept
    | split

theorem execStageInstructionEnd_kept {s₀ s : State} {tg : Fin 64} {unit : Fin 8} (hK : Kept s₀ s) :
    KeptX s₀ (execStageInstructionEnd tg unit s) := by
  unfold execStageInstructionEnd
  repeat' first
    | with_reducible assumption
    | intro _
    | (extract_lets +onlyGivenNames x; first | (refine Kept.cut (s₀ := s₀) (x := x) ?_ ?_; rotate_left; intro _; clear_value x; rotate_left; unfold x; clear x) | (refine KeptX.cut (s₀ := s₀) (x := x) ?_ ?_; rotate_left; intro _; clear_value x; rotate_left; unfold x; clear x) | clear_value x | skip)
    | with_reducible apply Kept.ite
    | with_reducible apply KeptX.ite
    | with_reducible apply KeptX.next
    | with_reducible exact KeptX.refused
    | with_reducible apply logUnit_kept
    | with_reducible apply freeHandles_kept
    | with_reducible apply pump_kept
    | with_reducible apply updTerrace_kept
    | with_reducible apply countEnd_kept
    | (with_reducible refine KeptX.of_eq ?_ ‹_›)
    | split

theorem goOn_kept {s₀ s : State} {tg : Nat} {thr : Nat} {f : Thread → Thread} (hK : Kept s₀ s) :
    Kept s₀ (goOn s tg thr f) := by
  unfold goOn
  repeat' first
    | with_reducible assumption
    | intro _
    | (extract_lets +onlyGivenNames x; first | (refine Kept.cut (s₀ := s₀) (x := x) ?_ ?_; rotate_left; intro _; clear_value x; rotate_left; unfold x; clear x) | clear_value x | skip)
    | with_reducible apply Kept.ite
    | with_reducible apply updThread_kept
    | split

theorem retryLoad_kept {s₀ s : State} {tg : Nat} {thr : Nat} {w0 : W64} {pc : Nat} (hK : Kept s₀ s) :
    Kept s₀ (retryLoad s tg thr w0 pc) := by
  unfold retryLoad
  repeat' first
    | with_reducible assumption
    | intro _
    | (extract_lets +onlyGivenNames x; first | (refine Kept.cut (s₀ := s₀) (x := x) ?_ ?_; rotate_left; intro _; clear_value x; rotate_left; unfold x; clear x) | (refine KeptO.cut (s₀ := s₀) (x := x) ?_ ?_; rotate_left; intro _; clear_value x; rotate_left; unfold x; clear x) | clear_value x | skip)
    | with_reducible apply Kept.ite
    | with_reducible apply KeptO.ite
    | with_reducible exact KeptO.val ‹_›
    | with_reducible apply KeptO.some
    | with_reducible exact KeptO.none
    | with_reducible apply KeptO.getD
    | with_reducible apply sclLdBody_kept
    | with_reducible apply dscLdBody_kept
    | (with_reducible refine KeptO.of_eq ?_ ‹_›)
    | split

theorem unblock_kept {s₀ s : State} {tg : Nat} {thr : Nat} {w : Wait} (hK : Kept s₀ s) :
    Kept s₀ (unblock s tg thr w) := by
  unfold unblock
  repeat' first
    | with_reducible assumption
    | intro _
    | (extract_lets +onlyGivenNames x; first | (refine Kept.cut (s₀ := s₀) (x := x) ?_ ?_; rotate_left; intro _; clear_value x; rotate_left; unfold x; clear x) | clear_value x | skip)
    | with_reducible apply Kept.ite
    | with_reducible apply retryLoad_kept
    | with_reducible apply serveTake_kept
    | with_reducible apply startCut_kept
    | with_reducible apply pushBy_kept
    | with_reducible apply goOn_kept
    | with_reducible apply pump_kept
    | with_reducible apply popBy_kept
    | split

theorem execThreadUnblock_kept {s₀ s : State} {tg : Fin 64} {thr : Fin 16} (hK : Kept s₀ s) :
    KeptX s₀ (execThreadUnblock tg thr s) := by
  unfold execThreadUnblock
  repeat' first
    | with_reducible assumption
    | intro _
    | (extract_lets +onlyGivenNames x; first | (refine Kept.cut (s₀ := s₀) (x := x) ?_ ?_; rotate_left; intro _; clear_value x; rotate_left; unfold x; clear x) | (refine KeptX.cut (s₀ := s₀) (x := x) ?_ ?_; rotate_left; intro _; clear_value x; rotate_left; unfold x; clear x) | clear_value x | skip)
    | with_reducible apply Kept.ite
    | with_reducible apply KeptX.ite
    | with_reducible apply KeptX.next
    | with_reducible exact KeptX.refused
    | with_reducible apply unblock_kept
    | (with_reducible refine KeptX.of_eq ?_ ‹_›)
    | split

theorem grant_kept {s₀ s : State} {tg : Nat} {pool : Nat} {port : Nat} {h : BitVec 16} (hK : Kept s₀ s) :
    Kept s₀ (grant s tg pool port h) := by
  unfold grant
  repeat' first
    | with_reducible assumption
    | intro _
    | (extract_lets +onlyGivenNames x; first | (refine Kept.cut (s₀ := s₀) (x := x) ?_ ?_; rotate_left; intro _; clear_value x; rotate_left; unfold x; clear x) | clear_value x | skip)
    | with_reducible apply Kept.ite
    | with_reducible apply deliver_kept
    | with_reducible apply updTerrace_kept
    | split

theorem contest_kept {s₀ s : State} {tg : Nat} {pool : Nat} (hK : Kept s₀ s) :
    Kept s₀ (contest s tg pool) := by
  unfold contest
  repeat' first
    | with_reducible assumption
    | intro _
    | (extract_lets +onlyGivenNames x; first | (refine Kept.cut (s₀ := s₀) (x := x) ?_ ?_; rotate_left; intro _; clear_value x; rotate_left; unfold x; clear x) | clear_value x | skip)
    | with_reducible apply Kept.ite
    | with_reducible apply Kept.foldl
    | with_reducible apply setTerrace_kept
    | with_reducible apply updTerrace_kept
    | with_reducible apply grant_kept
    | split

theorem execHandleContest_kept {s₀ s : State} {tg : Fin 64} {pool : Fin 3} (hK : Kept s₀ s) :
    KeptX s₀ (execHandleContest tg pool s) := by
  unfold execHandleContest
  repeat' first
    | with_reducible assumption
    | intro _
    | (extract_lets +onlyGivenNames x; first | (refine Kept.cut (s₀ := s₀) (x := x) ?_ ?_; rotate_left; intro _; clear_value x; rotate_left; unfold x; clear x) | (refine KeptX.cut (s₀ := s₀) (x := x) ?_ ?_; rotate_left; intro _; clear_value x; rotate_left; unfold x; clear x) | clear_value x | skip)
    | with_reducible apply Kept.ite
    | with_reducible apply KeptX.ite
    | with_reducible apply KeptX.next
    | with_reducible exact KeptX.refused
    | with_reducible apply contest_kept
    | with_reducible apply retryPushes_kept
    | with_reducible apply pump_kept
    | (with_reducible refine KeptX.of_eq ?_ ‹_›)
    | split

theorem execHandleReturn_kept {s₀ s : State} {tg : Fin 64} {pool : Fin 3} {index : Nat} (hK : Kept s₀ s) :
    KeptX s₀ (execHandleReturn tg pool index s) := by
  unfold execHandleReturn
  repeat' first
    | with_reducible assumption
    | intro _
    | (extract_lets +onlyGivenNames x; first | (refine Kept.cut (s₀ := s₀) (x := x) ?_ ?_; rotate_left; intro _; clear_value x; rotate_left; unfold x; clear x) | (refine KeptX.cut (s₀ := s₀) (x := x) ?_ ?_; rotate_left; intro _; clear_value x; rotate_left; unfold x; clear x) | clear_value x | skip)
    | with_reducible apply Kept.ite
    | with_reducible apply KeptX.ite
    | with_reducible apply KeptX.next
    | with_reducible exact KeptX.refused
    | with_reducible apply setTerrace_kept
    | (with_reducible refine KeptX.of_eq ?_ ‹_›)
    | split

theorem execCoalesceTimeout_kept {s₀ s : State} {tg : Fin 64} {ctx : Fin 18} (hK : Kept s₀ s) :
    KeptX s₀ (execCoalesceTimeout tg ctx s) := by
  unfold execCoalesceTimeout
  repeat' first
    | with_reducible assumption
    | intro _
    | (extract_lets +onlyGivenNames x; first | (refine Kept.cut (s₀ := s₀) (x := x) ?_ ?_; rotate_left; intro _; clear_value x; rotate_left; unfold x; clear x) | (refine KeptX.cut (s₀ := s₀) (x := x) ?_ ?_; rotate_left; intro _; clear_value x; rotate_left; unfold x; clear x) | clear_value x | skip)
    | with_reducible apply Kept.ite
    | with_reducible apply KeptX.ite
    | with_reducible apply KeptX.next
    | with_reducible exact KeptX.refused
    | with_reducible apply updTerrace_kept
    | (with_reducible refine KeptX.of_eq ?_ ‹_›)
    | split

end Sys2Proof.Machine
end

