-- ==== Sys2Proof/Laws/Notes.lean ====
section
/-! SUPPORT. What the logs, the interrupt causes and the Skovuk link can change at most: two relations between states, and the operations
that keep to them. -/

namespace Sys2Proof.Machine

variable {s t u : State}

/-- At most the registers, the RAS log, the event queue, the wanted messages and what leaves the module differ. -/
def LogOnly (s t : State) : Prop :=
  t = { s with regs := t.regs, ras := t.ras, rasNext := t.rasNext, evq := t.evq, intPend := t.intPend, out := t.out }

theorem LogOnly.refl (s : State) : LogOnly s s := rfl

theorem LogOnly.trans (h : LogOnly s t) (h' : LogOnly t u) : LogOnly s u := by
  unfold LogOnly at *; rw [h', h]

theorem LogOnly.ite {c : Prop} [Decidable c] {a b : State} (h : LogOnly s a) (h' : LogOnly s b) : LogOnly s (if c then a else b) := by
  split <;> assumption

theorem setRg_logOnly (a : Nat) (v : W32) : LogOnly s (setRg s a v) := rfl
theorem satAdd_logOnly (off : Nat) (d : W32) (lo len n : Nat) : LogOnly s (satAdd s off d lo len n) := rfl
theorem emit_logOnly (m : OutMsg) : LogOnly s (emit s m) := rfl
theorem intWant_logOnly (v : Nat) : LogOnly s (intWant s v) := rfl

theorem intCause_logOnly (c : Nat) : LogOnly s (intCause s c) :=
  LogOnly.trans (setRg_logOnly _ _) (.ite (intWant_logOnly _) (.refl _))

theorem exEvent_logOnly (ws : List Nat) : LogOnly s (exEvent s ws) := rfl

theorem rasAppend_append_logOnly (ev : List Nat) (r : RasRec) : LogOnly s (rasAppend.append s ev r) := by
  unfold rasAppend.append
  extract_lets s1 s2 s3 s4 s5
  have h1 : LogOnly s s1 := rfl
  refine .ite ?_ ?_
  · exact h1.trans ((satAdd_logOnly _ _ _ _ _).trans
      (LogOnly.trans (.ite (.refl _) (LogOnly.trans (setRg_logOnly _ _) (intCause_logOnly _))) (exEvent_logOnly _)))
  · exact h1.trans (LogOnly.trans (t := s5) (LogOnly.trans (t := s4) rfl (satAdd_logOnly _ _ _ _ _)) (LogOnly.trans (intCause_logOnly _) (exEvent_logOnly _)))

theorem rasAppend_logOnly (code sev skind unit : Nat) (al : Option Nat) (detail : Nat) :
    LogOnly s (rasAppend s code sev skind unit al detail) := by
  unfold rasAppend
  extract_lets a tm d ev f
  split
  · exact .ite rfl (rasAppend_append_logOnly _ _)
  · exact rasAppend_append_logOnly _ _

theorem logDropped_logOnly (off v : Nat) : LogOnly s (logDropped s off v) := rasAppend_logOnly _ _ _ _ _ _

/-- At most the Skovuk ports and their arbiters, streams, waiting packets and requests differ, the arbiters' counters and what leaves the
module. -/
def LinkOnly (s t : State) : Prop := t = { s with regs := t.regs, skv := t.skv, skvArbs := t.skvArbs, e2e := t.e2e, skvWait := t.skvWait, skvReqs := t.skvReqs, out := t.out }

theorem LinkOnly.refl (s : State) : LinkOnly s s := rfl

theorem LinkOnly.trans (h : LinkOnly s t) (h' : LinkOnly t u) : LinkOnly s u := by
  unfold LinkOnly at *; rw [h', h]

theorem LinkOnly.ite {c : Prop} [Decidable c] {a b : State} (h : LinkOnly s a) (h' : LinkOnly s b) : LinkOnly s (if c then a else b) := by
  split <;> assumption

theorem LinkOnly.foldl {β : Type} {l : List β} {f : State → β → State} (h : LinkOnly s t) (hf : ∀ t b, LinkOnly s t → LinkOnly s (f t b)) :
    LinkOnly s (l.foldl f t) := by
  induction l generalizing t with
  | nil => exact h
  | cons b r ih => exact ih (hf t b h)

theorem satAdd_linkOnly (off : Nat) (d : W32) (lo len n : Nat) : LinkOnly s (satAdd s off d lo len n) := rfl

theorem turnStat_linkOnly (h : LinkOnly s t) (off f r : Nat) : LinkOnly s (turnStat t off f r) := by
  unfold turnStat
  extract_lets u
  have h1 : LinkOnly s u := .ite h (h.trans (satAdd_linkOnly _ _ _ _ _))
  exact .ite h1 (h1.trans (satAdd_linkOnly _ _ _ _ _))

theorem skvArbs_linkOnly (m : Map Arb) : LinkOnly s { s with skvArbs := m } := rfl

theorem passSkv_linkOnly (k : Nat) (reqs : Map ArbReq) : LinkOnly s (passSkv s k reqs).2 := by
  unfold passSkv
  extract_lets c x moved
  exact turnStat_linkOnly (skvArbs_linkOnly _) _ _ _

theorem sent_linkOnly (k : Nat) (f : SkvPort → SkvPort) (o : OutMsg) : LinkOnly s (emit (updPort s k f) o) := rfl

theorem sendPacket_linkOnly (k : Nat) (p : SkvPacket) : LinkOnly s (sendPacket s k p) := by
  unfold sendPacket
  extract_lets x n u
  exact .foldl (sent_linkOnly k _ _) (fun t i h => h.trans (sent_linkOnly k _ _))

theorem drainOne_linkOnly (k : Nat) : LinkOnly s (drainOne s k) := by
  unfold drainOne
  extract_lets l reqs g
  refine .ite (.refl _) ?_
  split
  · exact (passSkv_linkOnly k _).trans (sendPacket_linkOnly k _)
  · exact passSkv_linkOnly k _

theorem drainPort_linkOnly (k : Nat) : LinkOnly s (drainPort s k) := by
  unfold drainPort
  exact .ite (.refl _) (.foldl (.refl _) (fun t p h => h.trans (drainOne_linkOnly k)))

theorem portSend_linkOnly (k : Nat) (p : SkvPacket) : LinkOnly s (portSend s k p) :=
  LinkOnly.trans (t := updPort s k _) rfl (drainPort_linkOnly _)

theorem skvOut_linkOnly (p : SkvPacket) : LinkOnly s (skvOut s p) := by
  unfold skvOut; split
  · exact portSend_linkOnly _ _
  · exact .refl _

theorem skvNumber_linkOnly (o : Option Origin) (p : SkvPacket) : LinkOnly s (skvNumber s o p) :=
  LinkOnly.trans (t := updE2e s _ _ _) rfl (skvOut_linkOnly _)

theorem skvSend_linkOnly (o : Option Origin) (p : SkvPacket) : LinkOnly s (skvSend s o p) := by
  unfold skvSend
  extract_lets stop
  exact .ite rfl (skvNumber_linkOnly _ _)

theorem peerRequest_linkOnly (u : PeerUse) (wr : Bool) (va addr len : Nat) (data : List Byte) (bad : List Nat) :
    LinkOnly s (peerRequest s u wr va addr len data bad) := by
  unfold peerRequest
  extract_lets m q p
  exact LinkOnly.trans (t := { s with skvReqs := s.skvReqs ++ [q] }) rfl (skvSend_linkOnly _ _)

end Sys2Proof.Machine
end

