-- ==== Sys2Proof/Laws/Past.lean ====
section
/-! SUPPORT. What moving a thread past its instruction leaves as it was, and what the shared operations of forwarded and Cistern instructions answer. -/

namespace Sys2Proof.Machine

open Sys2Proof

/-- The zero fields of a word, said field by field. -/
theorem zeroFields_of (w : W64) (l : List (Nat × Nat)) (h : ∀ f ∈ l, fld w f.1 f.2 = 0) : zeroFields w l = true := by
  simpa [zeroFields] using fun a b hab => h (a, b) hab

/-- The meaning of every thread row is an issue of that row. -/
theorem exec_row (c : Instr) (i : Issue) (row : OpRow) (h : c.row? = some (i, row)) : ∃ body, ∀ s, exec c s = issue row i s body := by
  cases c <;>
    first
      | (simp only [Instr.row?, Option.some.injEq, Prod.mk.injEq] at h; obtain ⟨rfl, rfl⟩ := h; exact ⟨_, fun _ => rfl⟩)
      | (cases h)

/-- A body that answers nothing leaves the thread at its instruction; only the fetch of its words has its effect. -/
theorem issue_none {row : OpRow} {i : Issue} {s : State} {body : Ctx → State → Option State} (h : Issues row i s)
    (hb : body (ctxOf i s) (past i s) = none) : issue row i s body = .next (held i s) := by
  rw [issue_effect row i s body h, hb]; rfl

/-- Past an instruction the terrace differs in its threads, its caches and the record of its issue. -/
theorem terrace_past (i : Issue) (s : State) : ∃ th cy tl ib, terrace (past i s) i.tg.val =
    { terrace s i.tg.val with threads := th, cycles := cy, tlb := tl, ibuf := ib, lastIssue := i.thr.val, firstIssue := true } := by
  obtain ⟨h0, -, -, ⟨th, cy, h⟩, -⟩ := onlyThread_past i s
  obtain ⟨tl, ib, e⟩ := h0.2.2.1 i.tg.val
  exact ⟨th, cy, tl, ib, by rw [h, e]⟩

/-- Past an instruction every terrace holds the item it held. -/
theorem slot_past (i : Issue) (s : State) (tg : Nat) : (terrace (past i s) tg).slot = (terrace s tg).slot := by
  by_cases h : tg = i.tg.val
  · obtain ⟨th, cy, tl, ib, c⟩ := terrace_past i s
    rw [h, c]
  · obtain ⟨h0, -, ho, -, -⟩ := onlyThread_past i s
    obtain ⟨tl, ib, e⟩ := h0.2.2.1 tg
    rw [ho _ h, e]

theorem memOf_past (i : Issue) (s : State) (space : Nat) : memOf (terrace (past i s) i.tg.val) space = memOf (terrace s i.tg.val) space := by
  obtain ⟨th, cy, tl, ib, c⟩ := terrace_past i s
  rw [c]; rfl

theorem fenced_past (i : Issue) (s : State) (al space a : Nat) :
    fenced (terrace (past i s) i.tg.val) al space a = fenced (terrace s i.tg.val) al space a := by
  obtain ⟨th, cy, tl, ib, c⟩ := terrace_past i s
  rw [c]; rfl

/-- A command is forwarded to the end of its island's queue while its crossing has a credit. -/
theorem forward_room (c : Ctx) (s : State) (isl : Nat) (aud : Bool) (tile : Option AccTag) (h : hasCredit (terrace s c.tg) 0 isl = true) :
    forward c s isl aud tile = some (setTerrace s c.tg
      { setCmds (terrace s c.tg) isl (cmdsOf (terrace s c.tg) isl ++
          [{ thr := c.thr, w0 := c.w0, w1 := c.w1, th := c.t, seq := (terrace s c.tg).seqno, aud, tile }])
        with seqno := (terrace s c.tg).seqno + 1 }) := by
  unfold forward; simp [h]

theorem forward_full (c : Ctx) (s : State) (isl : Nat) (aud : Bool) (tile : Option AccTag) (h : hasCredit (terrace s c.tg) 0 isl = false) :
    forward c s isl aud tile = none := by
  unfold forward; simp [h]

theorem mem_insBy {α : Type} (le : α → α → Bool) (a y : α) (l : List α) : y ∈ insBy le a l ↔ y = a ∨ y ∈ l := by
  induction l with
  | nil => simp [insBy]
  | cons b r ih => unfold insBy; split <;> simp [ih]; tauto

theorem handleState_setHandle (t : Terrace) (h : Nat) (x : HState) : handleState (setHandle t h (some x)) h = some x := by
  simp [handleState, setHandle, setPool, poolOf, mget?_mset]

/-- A Cistern whose allotment has a control block that its steps reach, and no scan in progress, runs the operation at once. -/
theorem cisRun_some (s : State) (o : CisOp) (c : Cb) (hc : cbOf s o.allot = some c) (hs : (saddle s c.n).cisScan.contains o.allot = false)
    (hb : c.bad s = none) :
    cisRun s o = cisDo c s o := by
  unfold cisRun
  rw [hc]
  unfold cisDoAt
  simp only
  rw [if_neg (by rw [hs]; exact Bool.false_ne_true), hb]

end Sys2Proof.Machine
end

