-- ==== Sys2Proof/Laws/Reads.lean ====
section
/-! SUPPORT. What a read that meets no fault changes: only the caches it goes through. -/

namespace Sys2Proof.Machine

/-! ## The sectors of an access -/

theorem sectorParts_pos (a n : Nat) (p : Nat × Nat) (h : p ∈ sectorParts a n) : 0 < p.2 := by
  unfold sectorParts at h
  split at h
  · cases h
  · rename_i hn
    simp only [List.mem_map, List.mem_range] at h
    obtain ⟨k, hk, rfl⟩ := h
    simp only
    omega

/-- An access that lies in one sector is one part. -/
theorem sectorParts_one (a n : Nat) (hn : 0 < n) (h : a % 32 + n ≤ 32) : sectorParts a n = [(0, n)] := by
  unfold sectorParts
  rw [if_neg (by omega)]
  have h1 : (a + n - 1) / 32 - a / 32 + 1 = 1 := by omega
  simp only [h1, List.range_one, List.map_cons, List.map_nil, List.cons.injEq, and_true, Prod.mk.injEq]
  omega

/-! ## Reads without poison meet no fault -/

/-- Every access of a read is clean, or the read has a poisoned byte. -/
def Rd.Honest (r : Rd) : Prop := (∀ b ∈ r.data, b.2 = false) → ∀ x ∈ r.accs, x.kind = none

theorem Rd.Honest.append {a b : Rd} (ha : a.Honest) (hb : b.Honest) : (a.append b).Honest := by
  intro h x hx
  simp only [Rd.append, List.mem_append] at h hx
  exact hx.elim (ha (fun y hy => h y (.inl hy)) x) (hb (fun y hy => h y (.inr hy)) x)

theorem Rd.honest_bad (n : Nat) (l : List Acc) (hn : 0 < n) : Rd.Honest { data := badZeros n, accs := l } := by
  intro h
  have := h (0, true) (by simp [badZeros]; omega)
  cases this

theorem honest_foldl {l : List (Nat × Nat)} {f : Rd → Nat × Nat → Rd} {r : Rd} (hr : r.Honest)
    (hf : ∀ r p, p ∈ l → r.Honest → (f r p).Honest) : (l.foldl f r).Honest := by
  induction l generalizing r with
  | nil => exact hr
  | cons p l ih => exact ih (hf r p (.head _) hr) (fun r q hq => hf r q (.tail _ hq))

theorem farErr_bad (s : State) (a : Nat) (h : farErr s a = true) : (farGet s a).2.1 = true := by
  unfold farErr at h
  unfold farGet
  simp only at h ⊢
  split at h
  · rename_i hm
    simp only [Bool.and_eq_true, Bool.not_eq_true'] at h
    have hs : ∀ q off, farOpen s q off = false → farServes s q off = false := by
      intro q off hq
      simp only [farOpen, farServes, Bool.and_eq_false_iff, Bool.or_eq_false_iff] at hq ⊢
      exact hq.imp (fun h => h.1) id
    simp [hm, hs _ _ h.1, hs _ _ h.2]
  · rename_i hm
    simp only [Bool.not_eq_true'] at h
    simp [hm, h]

theorem dpaRead_bad (s : State) (a n p : Nat) (hn : 0 < n) (ht : tierOf s a = .far p) (h : farErr s a = true) :
    ∃ b ∈ dpaRead s a n, b.2 = true := by
  refine ⟨dpaGet s a, ?_, ?_⟩
  · simp only [dpaRead, List.mem_map, List.mem_range]
    exact ⟨0, hn, rfl⟩
  · simp only [dpaGet, ht, farErr_bad s a h]

theorem vRead_honest (s : State) (w : Who) (al va n : Nat) : (vRead s w al va n).Honest := by
  unfold vRead
  refine honest_foldl (fun _ _ h => by cases h) (fun r p hp hr => ?_)
  have hpos := sectorParts_pos _ _ p hp
  simp only
  split
  · exact hr.append (Rd.honest_bad _ _ hpos)
  · rename_i pa _
    split
    · exact hr.append (Rd.honest_bad _ _ hpos)
    · refine hr.append (fun hd x hx => ?_)
      simp only [List.mem_singleton] at hx
      subst hx
      simp only [ite_eq_right_iff, reduceCtorEq, imp_false, Bool.not_eq_true]
      split
      · rename_i q hq
        by_contra hc
        obtain ⟨b, hb, hb'⟩ := dpaRead_bad s pa p.2 q hpos hq (by simpa using hc)
        rw [hd b hb] at hb'; cases hb'
      · rfl

theorem tRead_honest (t : Terrace) (al space a n : Nat) : (tRead t al space a n).Honest := by
  unfold tRead
  refine honest_foldl (fun _ _ h => by cases h) (fun r p hp hr => ?_)
  have hpos := sectorParts_pos _ _ p hp
  simp only
  split
  · exact hr.append (Rd.honest_bad _ _ hpos)
  · split
    · exact hr.append (Rd.honest_bad _ _ hpos)
    · exact hr.append (fun _ _ h => by cases h)

theorem spRead_honest (s : State) (tg al space a n : Nat) : (spRead s tg al space a n).Honest := by
  unfold spRead; split
  · exact vRead_honest _ _ _ _ _
  · exact tRead_honest _ _ _ _ _

/-! ## What clean accesses leave behind -/

theorem atsMissing_clean {l : List Acc} (h : ∀ x ∈ l, x.kind = none) : atsMissing l = [] := by
  unfold atsMissing
  rw [List.filter_eq_nil_iff.mpr (fun x hx => by simp [h x hx])]; rfl

theorem windows_mem (l : List Acc) (w : List Acc) (x : Acc) (hw : w ∈ windows l) (hx : x ∈ w) : x ∈ l := by
  induction l generalizing w with
  | nil => cases hw
  | cons a l ih =>
    unfold windows at hw
    rw [List.foldr_cons] at hw
    change w ∈ (match windows l with
      | (b :: r) :: rest => if a.va / 4096 = b.va / 4096 then (a :: b :: r) :: rest else [a] :: (b :: r) :: rest
      | _ => [[a]]) at hw
    split at hw
    · rename_i b r rest he
      split at hw
      · rcases List.mem_cons.mp hw with rfl | hw
        · rcases List.mem_cons.mp hx with rfl | hx
          · exact .head _
          · exact .tail _ (ih (b :: r) (by rw [he]; exact .head _) hx)
        · exact .tail _ (ih w (by rw [he]; exact .tail _ hw) hx)
      · rcases List.mem_cons.mp hw with rfl | hw
        · rcases List.mem_cons.mp hx with rfl | hx
          · exact .head _
          · cases hx
        · exact .tail _ (ih w (by rw [he]; exact hw) hx)
    · rcases List.mem_cons.mp hw with rfl | hw
      · rcases List.mem_cons.mp hx with rfl | hx
        · exact .head _
        · cases hx
      · cases hw

/-- Accesses that met nothing leave no fault record. -/
theorem logStream_clean (s : State) (slot : Option Nat) (al src : Nat) {l : List Acc} (h : ∀ x ∈ l, x.kind = none) :
    logStream s slot al src l = s := by
  have : ∀ f : Acc → Bool, (windows (l.filter f)).filterMap (runRecord al src) = [] := by
    intro f
    rw [List.filterMap_eq_nil_iff]
    intro w hw
    unfold runRecord
    rw [List.filter_eq_nil_iff.mpr]
    · intro x hx
      have := windows_mem _ _ _ hw hx
      simp [h x (List.mem_of_mem_filter this)]
  unfold logStream
  rw [this]; rfl

/-- A load of bytes that are clean: the bytes go on, and only what the read goes through differs. -/
theorem loadBytes_clean (c : Ctx) (s : State) (space a n : Nat) (k : List Byte → Thread → Thread) (hf : space = 0 → terraceFenced s c.tg = false)
    (h : ∀ b ∈ (spRead s c.tg (allotOf s c.tg) space a n).data, b.2 = false) :
    ∃ t, CacheOnly s t ∧ loadBytes c s space a n k =
      some (onThread c t (fun x => { k ((spRead s c.tg (allotOf s c.tg) space a n).data.map (·.1)) x with st := .ready })) := by
  have hc := spRead_honest s c.tg (allotOf s c.tg) space a n h
  refine ⟨noteAccs s (.terrace c.tg) (slotOf s c.tg) (allotOf s c.tg) (spRead s c.tg (allotOf s c.tg) space a n).accs,
    noteAccs_fetch (CacheOnly.refl s), ?_⟩
  unfold loadBytes
  simp only
  rw [if_neg (by simpa using hf), atsMissing_clean hc, if_neg (by simp), logStream_clean _ _ _ _ hc, if_neg]
  simp only [List.any_eq_true, not_exists, not_and, Bool.not_eq_true]
  exact h

theorem onlyLoad_past (i : Issue) (s u : State) (f : Thread → Thread) (h : CacheOnly (past i s) u) :
    OnlyLoad i s (updThread u i.tg.val i.thr.val f) ∧ thread (updThread u i.tg.val i.thr.val f) i.tg.val i.thr.val = f (stepped i s) := by
  obtain ⟨-, -, -, -, hd⟩ := onlyThread_past i s
  refine ⟨⟨onlyThread_past i s, u, h, rfl, fun k hk => ?_, ?_, fun k hk => ?_⟩, ?_⟩
  · simp only [updThread, setThread, terrace_updTerrace_other _ _ _ _ hk]
  · simp only [updThread, setThread, terrace_updTerrace_same]
    exact ⟨_, rfl⟩
  · rw [thread_updThread_other _ _ _ _ _ hk, h.thread, hd k hk]
  · rw [thread_updThread_same, h.thread, thread_past]

end Sys2Proof.Machine
end

