-- ==== Sys2Proof/Tests/Slice0.lean ====
section
/-! SUPPORT. Small checks of the model against hand calculation from the spec, and a state that meets the hypotheses of each statement. -/

set_option Elab.async false

namespace Sys2Proof.Tests

open Sys2Proof Sys2Proof.Machine

/-! ## Helpers -/

/-- The state a command leaves; the reset state where it answers none. -/
def after (c : Instr) (s : State) : State :=
  match exec c s with
  | .next t => t
  | _ => State.reset

/-- Does a command answer a next state? -/
def goesOn (c : Instr) (s : State) : Bool :=
  match exec c s with
  | .next _ => true
  | _ => false

/-- An instruction word of a major and minor opcode, not predicated, with the other bits as given. -/
def word (maj min rest : Nat) : W64 := BitVec.ofNat 64 (maj * 2 ^ 58 + min * 2 ^ 48 + rest)

/-- Thread 0 of terrace 0 issues the word. -/
def at0 (w : W64) : Issue := { tg := 0, thr := 0, w0 := w }

/-- Terrace 0 running the item of slot 5, its thread 0 Ready at address 0, whose line is buffered. -/
def terr0 (t : Thread) : Terrace := { slot := some 5, threads := [(0, { t with st := .ready })], ibuf := [0] }

/-- The item of slot 5, of allotment 3. -/
def run0 : Run := { allot := 3, q := 192, tag := 9, tgs := [0], hd := 0, threads := 1, entry := 0, args := 0, started := true }

/-- A block whose terrace 0 runs that item, with the thread's registers. -/
def st0 (t : Thread) : State := { State.reset with terraces := [(0, terr0 t)], runs := [(5, run0)] }

/-- The same block, with changes to its terrace. -/
def st1 (f : Terrace → Terrace) : State := { State.reset with terraces := [(0, f (terr0 {}))], runs := [(5, run0)] }

/-- Thread 0 of terrace 0. -/
def th0 (s : State) : Thread := thread s 0 0

/-- An instruction issues, when the checks of it do. -/
def issuesB (row : OpRow) (i : Issue) (s : State) : Bool :=
  (ctxOf i s).t.st == .ready && fetch s (ctxOf i s).tg (ctxOf i s).pc (opWords i.w0) == .ok && legalOp i.w0 && row.has i.w0 &&
    takesEffect (ctxOf i s).t i.w0

theorem issues_of {row : OpRow} {i : Issue} {s : State} (h : issuesB row i s = true) : Issues row i s := by
  simp only [issuesB, Bool.and_eq_true, beq_iff_eq] at h
  exact ⟨⟨h.1.1.1.1, h.1.1.1.2⟩, h.1.1.2, h.1.2, h.2⟩

theorem fetched_of {row : OpRow} {i : Issue} {s : State} (h : issuesB row i s = true) : Fetched i s := (issues_of h).1

/-! ## Well-formedness: an ill-formed term for each check -/

theorem test_wf_word_of_another_row : (Instr.sclAdd (at0 (word 2 1 0))).wf = false ∧ (Instr.sclSub (at0 (word 2 1 0))).wf = true := by decide
theorem test_wf_word_of_no_row : (Instr.sclAdd (at0 (word 0x3F 1 0))).wf = true := by decide
theorem test_wf_ld_form : (Instr.strLd (at0 (word 4 0 (2 ^ 36)))).wf = false := by decide
theorem test_wf_fence_scope : (Instr.sysFenceT (at0 (word 13 1 2))).wf = false ∧ (Instr.sysFenceH (at0 (word 13 1 2))).wf = true := by decide
theorem test_wf_rsv : (Instr.rsvCreate (.pf 0) 0#32).wf = false ∧ (Instr.rsvRelease (.pf 0) 0x80000000#32).wf = false ∧
    (Instr.rsvQuery (.pf 0) 0x90000000#32).wf = false := by decide
theorem test_wf_rst : (Instr.rstCtlWarm (.pf 0) 0x200000B7#32).wf = false ∧ (Instr.rstCtlCold (.pf 0) 0x100000B7#32).wf = false ∧
    (Instr.rstCtlDrain (.pf 0) 0#32).wf = false ∧ (Instr.rstCtlResume (.pf 0) 0x300000B7#32).wf = false := by decide
theorem test_wf_packets (p : SkvPacket) (h : p.ptype = 8) : (Instr.read p).wf = false ∧ (Instr.write p).wf = false ∧
    (Instr.rdata p).wf = false ∧ (Instr.wack p).wf = false ∧ (Instr.eack p).wf = false ∧ (Instr.contrib p).wf = false ∧
    (Instr.budget p).wf = false ∧ (Instr.mgmt p).wf = false := by
  simp [Instr.wf, Instr.operandsOk, h]

/-! ## Instructions of a thread, by hand from chapter 13 -/

/-- ADD wraps at 2^64 (R358). -/
theorem test_add_wraps : (th0 (after (.sclAdd (at0 (word 2 0 (1 * 2 ^ 43 + 2 * 2 ^ 38 + 3 * 2 ^ 32))))
    (st0 { s := [(2, 0xFFFFFFFFFFFFFFFF#64), (3, 2#64)] }))).sreg 1 = 1 := by decide +kernel

/-- SUB of a sign-extended immediate (R358). -/
theorem test_sub_immediate : (th0 (after (.sclSub (at0 (word 2 1 (1 * 2 ^ 43 + 2 * 2 ^ 38 + 2 ^ 37 + 0xFFFFFFFF)))) (st0 { s := [(2, 7#64)] }))).sreg 1 = 8 := by
  decide +kernel

/-- SHL takes bits [5:0] of its second operand (R358). -/
theorem test_shl_count : (th0 (after (.sclShl (at0 (word 2 6 (1 * 2 ^ 43 + 2 * 2 ^ 38 + 2 ^ 37 + 65)))) (st0 { s := [(2, 3#64)] }))).sreg 1 = 6 := by
  decide +kernel

/-- SAR keeps the sign and SHR does not (R358). -/
theorem test_sar_sign : (th0 (after (.sclSar (at0 (word 2 8 (1 * 2 ^ 43 + 2 * 2 ^ 38 + 2 ^ 37 + 4)))) (st0 { s := [(2, 0x8000000000000000#64)] }))).sreg 1
      = 0xF800000000000000 ∧
    (th0 (after (.sclShr (at0 (word 2 7 (1 * 2 ^ 43 + 2 * 2 ^ 38 + 2 ^ 37 + 4)))) (st0 { s := [(2, 0x8000000000000000#64)] }))).sreg 1
      = 0x0800000000000000 := by decide +kernel

/-- MIN is signed and MINU is not (R358). -/
theorem test_min_signed : (th0 (after (.sclMin (at0 (word 2 9 (1 * 2 ^ 43 + 2 * 2 ^ 38 + 3 * 2 ^ 32))))
      (st0 { s := [(2, 0xFFFFFFFFFFFFFFFF#64), (3, 1#64)] }))).sreg 1 = 0xFFFFFFFFFFFFFFFF ∧
    (th0 (after (.sclMinu (at0 (word 2 11 (1 * 2 ^ 43 + 2 * 2 ^ 38 + 3 * 2 ^ 32))))
      (st0 { s := [(2, 0xFFFFFFFFFFFFFFFF#64), (3, 1#64)] }))).sreg 1 = 1 := by decide +kernel

/-- Division by zero (R358). -/
theorem test_divide_by_zero : (th0 (after (.sclDivu (at0 (word 2 13 (1 * 2 ^ 43 + 2 * 2 ^ 38 + 3 * 2 ^ 32)))) (st0 { s := [(2, 7#64)] }))).sreg 1
      = 0xFFFFFFFFFFFFFFFF ∧
    (th0 (after (.sclRemu (at0 (word 2 14 (1 * 2 ^ 43 + 2 * 2 ^ 38 + 3 * 2 ^ 32)))) (st0 { s := [(2, 7#64)] }))).sreg 1 = 7 := by decide +kernel

/-- MOVI takes its 64 bits from word 1 and moves the PC past both words (Table 13-7). -/
theorem test_movi : (th0 (after (.sclMovi { at0 (word 2 16 (4 * 2 ^ 43)) with w1 := 0x123456789ABCDEF0#64 }) (st0 {}))).sreg 4 = 0x123456789ABCDEF0 ∧
    (th0 (after (.sclMovi { at0 (word 2 16 (4 * 2 ^ 43)) with w1 := 1#64 }) (st0 {}))).pc = 16 := by decide +kernel

/-- CMP.LT is signed, CMP.LTU is not (R359). -/
theorem test_cmp_signed : (th0 (after (.sclCmpLt (at0 (word 2 0x1A (2 * 2 ^ 45 + 2 * 2 ^ 38 + 3 * 2 ^ 32))))
      (st0 { s := [(2, 0xFFFFFFFFFFFFFFFF#64)] }))).preg 2 = true ∧
    (th0 (after (.sclCmpLtu (at0 (word 2 0x1C (2 * 2 ^ 45 + 2 * 2 ^ 38 + 3 * 2 ^ 32))))
      (st0 { s := [(2, 0xFFFFFFFFFFFFFFFF#64)] }))).preg 2 = false := by decide +kernel

/-- A write to p0 is ignored (R80). -/
theorem test_p0_reads_one : (th0 (after (.sclCmpNe (at0 (word 2 0x19 0))) (st0 {}))).preg 0 = true := by decide +kernel

/-- An instruction whose predicate is off changes only the PC (R86). -/
theorem test_predicated_off : (th0 (after (.sclMovi (at0 (word 2 16 (2 ^ 55 + 4 * 2 ^ 43)))) (st0 {}))).sreg 4 = 0 ∧
    (th0 (after (.sclMovi (at0 (word 2 16 (2 ^ 55 + 4 * 2 ^ 43)))) (st0 {}))).pc = 16 := by decide +kernel

/-- JAL links the address after it; a jump's offset counts words (Table 13-6). -/
theorem test_jal : (th0 (after (.ctlJal (at0 (word 1 3 (6 * 2 ^ 43 + 0xFFFFFFFF)))) (st0 { pc := 16 }))).sreg 6 = 24 ∧
    (th0 (after (.ctlJal (at0 (word 1 3 (6 * 2 ^ 43 + 0xFFFFFFFF)))) (st0 { pc := 16 }))).pc = 8 := by decide +kernel

/-- The all-zero word raises ILLEGAL, which ends the item's threads (R349, R355). -/
theorem test_zero_word_is_illegal : (th0 (after (.ctlNop (at0 0)) (st0 {}))).st = .ended ∧
    ((mget? (after (.ctlNop (at0 0)) (st0 {})).runs 5).bind (fun r => r.fault)).map (fun f => f.code) = some 1 := by decide +kernel

/-- A semaphore wraps, and a wait reads the difference as signed (R100). -/
theorem test_semaphores : semGet (after (.ctlSig (at0 (word 1 8 (2 ^ 42 + 0xFFFFFFFF)))) (st0 {})) 0 false 0 = 0xFFFFFFFF ∧
    (th0 (after (.ctlWait (at0 (word 1 9 (2 ^ 42 + 0xFFFFFFFF)))) (st0 {}))).st = .ready ∧
    (th0 (after (.ctlWait (at0 (word 1 9 (2 ^ 42 + 1)))) (st0 {}))).st = .blocked (.sem false 0 1) := by decide +kernel

/-- LD of a byte sign-extends when SX is set; the bytes of a word are little-endian (R360). -/
theorem test_load : (th0 (after (.sclLd (at0 (word 2 0x20 (1 * 2 ^ 43 + 2 ^ 35 + 2 ^ 32)))) (st1 (fun t => { t with ws := { cells := [(0, 0x80#8)] } })))).sreg 1
      = 0xFFFFFFFFFFFFFF80 ∧
    (th0 (after (.sclLd (at0 (word 2 0x20 (1 * 2 ^ 43 + 2 ^ 36 + 2 ^ 32)))) (st1 (fun t => { t with ws := { cells := [(0, 0x80#8), (1, 1#8)] } })))).sreg 1
      = 0x180 := by decide +kernel

/-- ST of two bytes leaves the bytes beside them (R360). -/
theorem test_store : (terrace (after (.sclSt (at0 (word 2 0x21 (1 * 2 ^ 43 + 2 ^ 36 + 2 ^ 32 + 2)))) (st0 { s := [(1, 0xAABBCC#64)] })) 0).ws
    = { cells := [(2, 0xCC#8), (3, 0xBB#8)] } := by decide +kernel

/-- A misaligned load raises SCALAR (R360). -/
theorem test_misaligned_load : ((mget? (after (.sclLd (at0 (word 2 0x20 (2 ^ 36 + 2 ^ 32 + 1)))) (st0 {})).runs 5).bind (fun r => r.fault)).map
    (fun f => f.code) = some 7 := by decide +kernel

/-- DSC.SETB and DSC.GETB move one field (Table 13-8). -/
theorem test_setb : fld ((th0 (after (.dscSetb (at0 (word 3 5 (2 * 2 ^ 44 + 3 * 2 ^ 38 + 60 * 2 ^ 8 + 7)))) (st0 { s := [(3, 0x1FF#64)] }))).dreg 2) 60 8 = 0xFF ∧
    fld ((th0 (after (.dscSetb (at0 (word 3 5 (2 * 2 ^ 44 + 3 * 2 ^ 38 + 60 * 2 ^ 8 + 7)))) (st0 { s := [(3, 0x1FF#64)] }))).dreg 2) 68 8 = 0 := by decide +kernel

/-- A selector outside Table 04-3 writes 0 (R87). -/
theorem test_span_selector : (th0 (after (.sysSpan (at0 (word 13 0 (1 * 2 ^ 43 + 9)))) (st1 (fun t => { t with span := { tag := 77 } })))).sreg 1 = 77 ∧
    (th0 (after (.sysSpan (at0 (word 13 0 (1 * 2 ^ 43 + 10)))) (st1 (fun t => { t with span := { tag := 77 } })))).sreg 1 = 0 := by decide +kernel

/-- A terrace with pool WS and lateral queue 2, made and used by the threads. -/
def lqT (es : List (BitVec 16)) (t : Terrace) : Terrace :=
  { t with
    pools := [(0, { valid := true, count := 4, used := [(0, .held), (1, .queued)] })]
    lqs := [(2, { bound := true, prod := 0, cons := 0, entries := es })] }

/-- A push moves the handle to the queue and idles its register (R101, R378). -/
theorem test_push : (lqOf (terrace (after (.latPush (at0 (word 12 0 (1 * 2 ^ 44 + 2 * 2 ^ 40)))) (st1 (fun t => { lqT [1] t with
      threads := [(0, { st := .ready, h := [(1, 0)] })] }))) 0) 2).entries = [1, 0] ∧
    (th0 (after (.latPush (at0 (word 12 0 (1 * 2 ^ 44 + 2 * 2 ^ 40)))) (st1 (fun t => { lqT [1] t with
      threads := [(0, { st := .ready, h := [(1, 0)] })] })))).hreg 1 = 0xFFFF := by decide +kernel

/-- A pop takes the oldest handle; an empty queue Blocks, and the NB form clears its predicate (R101). -/
theorem test_pop : (th0 (after (.latPop (at0 (word 12 1 (3 * 2 ^ 44 + 2 * 2 ^ 40)))) (st1 (lqT [1, 0])))).hreg 3 = 1 ∧
    (th0 (after (.latPop (at0 (word 12 1 (3 * 2 ^ 44 + 2 * 2 ^ 40)))) (st1 (lqT [])))).st = .blocked (.pop 3 2) ∧
    (th0 (after (.latPopNb (at0 (word 12 1 (3 * 2 ^ 44 + 2 * 2 ^ 40 + 2 ^ 39 + 5 * 2 ^ 36)))) (st1 (fun t => { lqT [] t with
      threads := [(0, { st := .ready, p := 0xFF#8 })] })))).preg 5 = false := by decide +kernel

/-- A second free of a handle raises HANDLE (R378, Table 05-5). -/
theorem test_free_twice : handleState (terrace (after (.latFree (at0 (word 12 3 (1 * 2 ^ 44)))) (st1 (fun t => { lqT [] t with
      threads := [(0, { st := .ready, h := [(1, 0)] })] }))) 0) 0 = some .returning ∧
    ((mget? (after (.latFree (at0 (word 12 3 (1 * 2 ^ 44)))) (st1 (lqT []))).runs 5).bind (fun r => r.fault)).map (fun f => f.code) = some 4 := by
  decide +kernel


/-! ## States that meet the hypotheses of the statements -/

/-- A thread instruction that issues and whose unused fields are 0. -/
def fits (row : OpRow) (zs : List (Nat × Nat)) (w : W64) (s : State) : Bool := issuesB row (at0 w) s && zeroFields w zs

/-- The words of a table of rows all issue in a state. -/
def fitsAll (l : List (OpRow × List (Nat × Nat) × W64)) (s : State) : Bool := l.all (fun e => fits e.1 e.2.1 e.2.2 s)

/-- Registers that map page 0 of allotment 3 to an address, for reads, writes and atomics. -/
def mapped (pa : Nat) (ctx : W32) (s : State) : State :=
  { s with regs := mset s.regs 0x100038 ctx
           terraces := mset s.terraces 0 { terrace s 0 with tlb := [{ allot := 3, va := 0, size := 16, pa, perm := 7 }] } }

/-- The same state with nothing buffered. -/
def unbuffered (s : State) : State := { s with terraces := mset s.terraces 0 { terrace s 0 with ibuf := [] } }

/-- A route fence holds the packets of ridge die 0 toward Saddle 0. -/
def fencedOff (s : State) : State := { s with canalFence := [(0, 16)] }

theorem wit_StepRunsFront : State.reset.pending = [] := rfl

theorem wit_CommandsGoOn : (Instr.weirRefill).wf = true ∧ goesOn .getState State.reset = true := by decide +kernel

theorem wit_StepsKeepTheForms : ∃ t, QueueWf { State.reset with pending := [.intEnWrite (.pf 0) 1, .getState] } ∧
    MemWf { State.reset with pending := [.intEnWrite (.pf 0) 1, .getState] } ∧
    LogsBounded { State.reset with pending := [.intEnWrite (.pf 0) 1, .getState] } ∧
    step { State.reset with pending := [.intEnWrite (.pf 0) 1, .getState] } = .next t := by
  refine ⟨_, ?_, ?_, ?_, rfl⟩ <;> simp only [QueueWf, MemWf, LogsBounded] <;> decide +kernel

theorem wit_IssueChecksComeFirst :
    (Instr.ctlNop (at0 (word 1 0 0))).row? = some (at0 (word 1 0 0), { maj := 1, min := 0x00 }) ∧
    (ctxOf (at0 0) State.reset).t.st ≠ .ready ∧
    ((ctxOf (at0 0) (st0 {})).t.st = .ready ∧
      fetch (mapped hostBase 0xC0000000#32 (unbuffered (st0 {}))) 0 0 1 = .wait ∧ fetch (unbuffered (st0 {})) 0 0 1 = .fault ∧
      fetch (st0 {}) 0 0 1 = .ok ∧ legalOp (0 : W64) = false) ∧
    terraceFenced (mapped hostBase 0xC0000000#32 (unbuffered (st0 {}))) 0 = false ∧
    terraceFenced (fencedOff (mapped hostBase 0xC0000000#32 (unbuffered (st0 {})))) 0 = true ∧
    (terrace (st0 {}) 0).ibuf.contains ((ctxOf (at0 (word 1 0 0)) (st0 {})).pc % 2 ^ 52 / 64) = true ∧ opWords (word 1 0 0) ≠ 2 := by decide +kernel

theorem wit_Predicates : fetch (st0 {}) 0 0 1 = .ok ∧ legalOp (word 1 0 (2 ^ 55)) = true ∧ OpRow.has { maj := 1, min := 0x00 } (word 1 0 (2 ^ 55)) = true ∧
    ((th0 (st0 {})).preg (fld (word 1 0 (2 ^ 55)) 55 3) != bit (word 1 0 (2 ^ 55)) 54) = false ∧
    (0 < 7 ∧ 7 < 8 ∧ 0 < 8) := by decide +kernel

theorem wit_UnusedFieldsRaiseIllegal : Issues { maj := 2, min := 0x10 } (at0 (word 2 16 (2 ^ 42))) (st0 {}) ∧
    fld (word 2 16 (2 ^ 42)) 0 43 ≠ 0 ∧ Issues { maj := 13, min := 0x01, lo := 0, len := 2, val := 2 } (at0 (word 13 1 (2 + 2 ^ 47))) (st0 {}) ∧
    fld (word 13 1 (2 + 2 ^ 47)) 2 46 ≠ 0 := ⟨issues_of (by decide +kernel), by decide, issues_of (by decide +kernel), by decide⟩

theorem wit_FaultsStopTheItem : runOfT (st0 {}) 0 = some (5, run0) ∧ run0.fault = none ∧
    ({ run0 with fault := some { code := 1, tg := 0, thr := 0, pc := 0 } } : Run).fault ≠ none := by decide +kernel

theorem wit_ControlFlow : fitsAll [({ maj := 1, min := 0x00 }, [(0, 48)], word 1 0 0), ({ maj := 1, min := 0x01 }, [(0, 48)], word 1 1 0),
      ({ maj := 1, min := 0x02 }, [(32, 16)], word 1 2 0xFFFFFFFF), ({ maj := 1, min := 0x03 }, [(32, 11)], word 1 3 (31 * 2 ^ 43)),
      ({ maj := 1, min := 0x04 }, [(0, 38), (43, 5)], word 1 4 (31 * 2 ^ 38))] (st0 {}) = true ∧
    (∀ m ∈ [2, 3, 4], legalOp (word 1 m (2 ^ 55)) = true ∧ OpRow.has { maj := 1, min := m } (word 1 m (2 ^ 55)) = true ∧
      ((th0 (st0 {})).preg (fld (word 1 m (2 ^ 55)) 55 3) != bit (word 1 m (2 ^ 55)) 54) = false) ∧
    (th0 (st0 { pc := 4 })).pc.toNat % 8 ≠ 0 := by decide +kernel

theorem wit_ScalarInstructions : (∀ m ∈ [0, 1, 2, 3, 4, 5, 6, 7, 8, 9, 10, 11, 12, 13, 14, 0x18, 0x19, 0x1A, 0x1B, 0x1C, 0x1D],
      issuesB { maj := 2, min := m } (at0 (word 2 m (2 ^ 37))) (st0 {}) = true ∧ fld (word 2 m (2 ^ 37)) 43 2 = 0) ∧
    fitsAll [({ maj := 2, min := 0x10 }, [(0, 43)], word 2 16 (31 * 2 ^ 43)), ({ maj := 2, min := 0x11 }, [(0, 32), (36, 3)], word 2 17 (8 * 2 ^ 32)),
      ({ maj := 2, min := 0x12 }, [(0, 29), (37, 1)], word 2 18 (7 * 2 ^ 29))] (st0 {}) = true := by decide +kernel

theorem wit_DescriptorRegisters : fitsAll [({ maj := 3, min := 0x02 }, [(0, 40)], word 3 2 (15 * 2 ^ 44)), ({ maj := 3, min := 0x03 }, [(0, 44)], word 3 3 0),
      ({ maj := 3, min := 0x04 }, [(16, 23), (6, 2)], word 3 4 (255 * 2 ^ 8 + 63)), ({ maj := 3, min := 0x05 }, [(43, 1), (16, 22), (6, 2)], word 3 5 63),
      ({ maj := 3, min := 0x06 }, [(43, 1), (32, 5)], word 3 6 (2 ^ 37))] (st0 {}) = true := by decide +kernel

theorem wit_SemaphoreSignalAndWait : fitsAll [({ maj := 1, min := 0x08 }, [(32, 5)], word 1 8 (15 * 2 ^ 43)),
      ({ maj := 1, min := 0x08 }, [(32, 5)], word 1 8 (2 ^ 47)), ({ maj := 1, min := 0x09 }, [(32, 5)], word 1 9 (2 ^ 42))] (st0 {}) = true ∧
    bit (word 1 8 (15 * 2 ^ 43)) 47 = false ∧ bit (word 1 8 (2 ^ 47)) 47 = true ∧ runOfT (st0 {}) 0 = some (5, run0) ∧
    0 ≤ (semGet (st0 {}) 0 false 0 - 0#32).toInt ∧ (semGet (st0 {}) 0 false 0 - 1#32).toInt < 0 := by decide +kernel

theorem wit_SystemReadsAndFences : fitsAll [({ maj := 13, min := 0x00 }, [(8, 35)], word 13 0 255), ({ maj := 13, min := 0x02 }, [(0, 43)], word 13 2 0),
      ({ maj := 13, min := 0x03 }, [(0, 43)], word 13 3 0), ({ maj := 13, min := 0x01, lo := 0, len := 2, val := 0 }, [(2, 46)], word 13 1 0),
      ({ maj := 13, min := 0x01, lo := 0, len := 2, val := 1 }, [(2, 46)], word 13 1 1),
      ({ maj := 13, min := 0x01, lo := 0, len := 2, val := 2 }, [(2, 46)], word 13 1 2)] (st0 {}) = true ∧
    quiet (st0 {}) 0 0 1 = true ∧
    quiet (st1 (fun t => { t with execs := [(3, { cmd := { thr := 0, w0 := word 4 1 0, w1 := 0, th := {} } })] })) 0 0 1 = false := by decide +kernel

theorem wit_ThreadLoads : fitsAll [({ maj := 2, min := 0x20 }, [], word 2 0x20 (2 ^ 36 + 2 ^ 32)),
      ({ maj := 3, min := 0x00 }, [(43, 1), (35, 3)], word 3 0 (2 ^ 32))] (st0 {}) = true ∧
    (∀ b ∈ (spRead (past (at0 (word 3 0 (2 ^ 32))) (st0 {})) 0 (allotOf (past (at0 (word 3 0 (2 ^ 32))) (st0 {})) 0) 1 0 32).data, b.2 = false) ∧
    (∀ b ∈ (spRead (past (at0 (word 2 0x20 0)) (mapped 0 0x80000000#32 (st0 {}))) 0 3 0 0 8).data, b.2 = false) ∧
    (1 % 2 ≠ 0 ∧ 0 % 2 = 0 ∧ 0 + 32 ≤ memSize 1) ∧ terraceFenced (st0 {}) 0 = false ∧ terraceFenced (fencedOff (mapped 0 0x80000000#32 (st0 {}))) 0 = true ∧
    atsMissing (spRead (mapped hostBase 0xC0000000#32 (st0 {})) 0 3 0 0 8).accs ≠ [] ∧ atsMissing (spRead (mapped 0 0x80000000#32 (st0 {})) 0 3 0 0 8).accs = [] ∧
    (∃ b ∈ (spRead { mapped 0 0x80000000#32 (st0 {}) with hbmPoison := [0] } 0 3 0 0 8).data, b.2 = true) ∧
    atsMissing (spRead { mapped 0 0x80000000#32 (st0 {}) with hbmPoison := [0] } 0 3 0 0 8).accs = [] := by decide +kernel

theorem wit_ThreadStores : fitsAll [({ maj := 2, min := 0x21 }, [(35, 1)], word 2 0x21 (3 * 2 ^ 36 + 3 * 2 ^ 32)),
      ({ maj := 3, min := 0x01 }, [(43, 1), (35, 3)], word 3 1 (2 ^ 32))] (st0 {}) = true ∧
    fitsAll [({ maj := 2, min := 0x21 }, [(35, 1)], word 2 0x21 (3 * 2 ^ 36)), ({ maj := 3, min := 0x01 }, [(43, 1), (35, 3)], word 3 1 0)]
      (mapped 65536 0x80000000#32 (st0 {})) = true ∧
    fenced (terrace (st0 {}) 0) 3 1 0 = false ∧ memSize 3 = 4 * 2 ^ 20 ∧
    xlate (past (at0 (word 3 1 0)) (mapped 65536 0x80000000#32 (st0 {}))) (.terrace 0) 3 0 permW = .ok 65536 ∧
    65536 + 32 ≤ hbmCap (st0 {}).guarded ∧ groupState (st0 {}) (homeSaddle 65536) ≠ 2 ∧ 1 % 8 ≠ 0 ∧
    terraceFenced (mapped 65536 0x80000000#32 (st0 {})) 0 = false ∧ terraceFenced (fencedOff (mapped 65536 0x80000000#32 (st0 {}))) 0 = true ∧
    writeWaits (mapped 65536 0x80000000#32 (st0 {})) (.terrace 0) 3 0 8 = [] ∧ writeWaits (mapped hostBase 0xC0000000#32 (st0 {})) (.terrace 0) 3 0 8 ≠ [] := by
  decide +kernel

theorem wit_HbmWriteChangesOneByte : 0 < hbmCap true ∧ hbmCap true - 1 < hbmCap true ∧ groupState State.reset (homeSaddle 0) ≠ 2 := by decide +kernel

/-- A FORM 0 descriptor: format, space, extents 0 and 1, stride 1. -/
def dense (fmt space e0 e1 stride : Nat) : BitVec 256 :=
  BitVec.ofNat 256 (fmt * 2 ^ 52 + e0 * 2 ^ 64 + space * 2 ^ 122 + e1 * 2 ^ 128 + stride / 32 * 2 ^ 156 + 2 ^ 192)

/-- A FORM 2 descriptor of layout BSR8 with one row. -/
def bsr8 (fmt space : Nat) : BitVec 256 := BitVec.ofNat 256 (fmt * 2 ^ 52 + 2 * 2 ^ 57 + 2 * 2 ^ 61 + space * 2 ^ 122 + 2 ^ 160)

/-- A thread whose registers hold operands of every kind of instruction. -/
def rich : Thread :=
  { st := .ready
    s := [(2, BitVec.ofNat 64 (14 * 2 ^ 55)), (4, BitVec.ofNat 64 (15 * 2 ^ 50)), (8, BitVec.ofNat 64 (2 * 2 ^ 61)), (10, 64#64)]
    d := [(0, dense 0x0E 1 64 4 256), (2, bsr8 0x06 0), (4, dense 0x0B 1 8 4 64), (5, dense 0x0B 1 64 4 512), (6, dense 0x0E 0 64 4 256),
      (7, dense 0x06 1 64 4 64), (8, dense 0x0C 2 16 1 64), (10, dense 0x0E 2 16 1 64), (12, dense 0x06 1 1 1 64),
      (14, dense 0x0E 2 16 1 64 + BitVec.ofNat 256 (2 ^ 192)), (15, dense 0x0E 2 1 2 64)]
    h := [(1, 0#16), (2, 0x8000#16)] }

/-- A terrace with its pools and lateral queues set up, a span of one terrace, and that thread. -/
def richT (t : Terrace) : Terrace :=
  { t with
    threads := [(0, rich)]
    span := { tag := 9, map := [0] }
    pools := [(0, { valid := true, rsz := 6, count := 4, used := [(0, .held)] }), (1, { valid := true, rsz := 6, count := 4 }),
      (2, { valid := true, rsz := 6, count := 4, used := [(0, .held)] })]
    lqs := [(0, { bound := true }), (1, { bound := true, prod := 1, cons := 2 }), (2, { bound := true, prod := 5, cons := 1 }),
      (3, { bound := true, prod := 2, cons := 3 }), (4, { bound := true, prod := 1, cons := 2 }), (5, { bound := true, prod := 1, cons := 3 }),
      (6, { bound := true, prod := 3, cons := 4 }), (7, { bound := true, prod := 6, cons := 1 }), (8, { bound := true, prod := 1, cons := 6 })] }

/-- The block with that terrace. -/
def stR : State := st1 richT

/-- An instruction issues in that state, with its unused fields 0, and passes its checks there. -/
def passes (row : OpRow) (zs : List (Nat × Nat)) (f : Ctx → State → Option Nat) (i : Issue) : Bool :=
  issuesB row i stR && zeroFields i.w0 zs && f (ctxOf i stR) (past i stR) == none

/-- An instruction of each row that goes to an island. -/
def forwardedWords : List (OpRow × List (Nat × Nat) × (Ctx → State → Option Nat) × W64) :=
  [({ maj := 4, min := 0x00, lo := 36, len := 2, val := 0 }, [], ldFault 0, word 4 0 (2 ^ 40 + 15 * 2 ^ 32)),
   ({ maj := 4, min := 0x00, lo := 36, len := 2, val := 1 }, [], ldFault 1, word 4 0 (2 ^ 40 + 2 ^ 36 + 15 * 2 ^ 32 + 2 * 2 ^ 23)),
   ({ maj := 4, min := 0x00, lo := 36, len := 2, val := 2 }, [], ldFault 2, word 4 0 (2 * 2 ^ 44 + 2 ^ 40 + 2 * 2 ^ 36 + 15 * 2 ^ 32 + 4 * 2 ^ 18)),
   ({ maj := 4, min := 0x00, lo := 36, len := 2, val := 3 }, [], ldFault 3, word 4 0 (2 * 2 ^ 44 + 2 ^ 40 + 3 * 2 ^ 36 + 15 * 2 ^ 32)),
   ({ maj := 4, min := 0x01 }, [(0, 17), (18, 14), (36, 4)], stFault, word 4 1 (6 * 2 ^ 44 + 2 * 2 ^ 40 + 15 * 2 ^ 32)),
   ({ maj := 4, min := 0x02 }, [(0, 40)], cpyFault, word 4 2 (6 * 2 ^ 44)),
   ({ maj := 4, min := 0x03 }, [(0, 37), (43, 5)], fun _ _ => none, word 4 3 0),
   ({ maj := 6, min := 0x01 }, [(0, 26)], fun _ _ => none, word 6 1 0),
   ({ maj := 6, min := 0x02 }, [(0, 34)], accrdFault, word 6 2 (3 * 2 ^ 38 + 6 * 2 ^ 34)),
   ({ maj := 8, min := 0x00 }, [(0, 35)], redFault maxiBad, word 8 0 (4 * 2 ^ 40)),
   ({ maj := 8, min := 0x01 }, [(0, 35)], redFault maxiBad, word 8 1 (4 * 2 ^ 40)),
   ({ maj := 8, min := 0x02 }, [(0, 31), (35, 5)], redFault topkBad, word 8 2 (5 * 2 ^ 40)),
   ({ maj := 8, min := 0x03 }, [(0, 31), (35, 5)], redFault topkLBad, word 8 3 (4 * 2 ^ 44 + 5 * 2 ^ 40)),
   ({ maj := 8, min := 0x04 }, [(0, 35)], redStFault, word 8 4 (6 * 2 ^ 40 + 2 * 2 ^ 35)),
   ({ maj := 0x0B, min := 0x01 }, [(0, 30), (34, 4)], maskFault, word 11 1 (2 * 2 ^ 44 + 7 * 2 ^ 30)),
   ({ maj := 12, min := 0x05 }, [(0, 24), (28, 1)], rotFault, word 12 5 (10 * 2 ^ 29))]

/-- The lane instructions, and LAT.SEND. -/
def laneWords : List (OpRow × List (Nat × Nat) × (Ctx → State → Option Nat) × W64) :=
  [({ maj := 5, min := 0x01 }, [], laneFault 1, word 5 1 (2 ^ 42 + 3 * 2 ^ 34)),
   ({ maj := 5, min := 0x02 }, [], laneFault 2, word 5 2 (2 ^ 42 + 4 * 2 ^ 38 + 3 * 2 ^ 34)),
   ({ maj := 5, min := 0x03 }, [], laneFault 3, word 5 3 (2 ^ 42 + 4 * 2 ^ 38 + 3 * 2 ^ 34)),
   ({ maj := 5, min := 0x04 }, [], laneFault 4, word 5 4 (2 ^ 42 + 3 * 2 ^ 34 + 2 ^ 30)),
   ({ maj := 5, min := 0x05 }, [], laneFault 5, word 5 5 (2 ^ 42 + 3 * 2 ^ 34 + 8 * 2 ^ 23 + 7 * 2 ^ 19)),
   ({ maj := 12, min := 0x04 }, [(0, 24)], sendFault, word 12 4 (2 ^ 44 + 10 * 2 ^ 30))]

/-- The others that leave the Intake: the Array's, the Epilogue's, the Headgate's, the Flume lane's and the cutter's. -/
def unitWords : List (OpRow × List (Nat × Nat) × (Ctx → State → Option Nat) × W64 × W64) :=
  [({ maj := 6, min := 0x00 }, [(0, 2)], mmaFault, word 6 0 (3 * 2 ^ 41 + 6 * 2 ^ 33 + 6 * 2 ^ 28), BitVec.ofNat 64 (2 ^ 40 + 5 * 2 ^ 5)),
   ({ maj := 6, min := 0x03 }, [(0, 33), (34, 4)], accwrFault, word 6 3 (3 * 2 ^ 38), 0),
   ({ maj := 7, min := 0x00 }, [], epiFault, word 7 0 (6 * 2 ^ 31 + 20 * 2 ^ 35), 0),
   ({ maj := 0x0B, min := 0x00 }, [(0, 27), (39, 1)], runFault, word 11 0 (12 * 2 ^ 44 + 20 * 2 ^ 39 + 7 * 2 ^ 30), 0),
   ({ maj := 0x0B, min := 0x02 }, [(0, 30), (34, 9), (43, 1)], auditFault, word 11 2 (8 * 2 ^ 30), 0),
   ({ maj := 9, min := 0x00 }, [(0, 3)], attnFault, word 9 0 (4 * 2 ^ 43 + 8 * 2 ^ 39 + 8 * 2 ^ 35 + 8 * 2 ^ 27 + 8 * 2 ^ 23 + 2 * 2 ^ 11), 0),
   ({ maj := 9, min := 0x01 }, [(0, 7), (11, 16), (43, 5)], mergeFault, word 9 1 (14 * 2 ^ 39 + 14 * 2 ^ 35 + 15 * 2 ^ 31 + 2 ^ 27), 0),
   ({ maj := 5, min := 0x10 }, [(0, 38), (43, 1)], cutFault, word 5 16 (2 * 2 ^ 44 + 20 * 2 ^ 38), 0)]

/-- An instruction with two words. -/
def at0' (w0 w1 : W64) : Issue := { tg := 0, thr := 0, w0, w1 }

/-- Twelve commands wait in a queue: the crossing has no credit. -/
def full (isl : Nat) : State := st1 (fun t => { richT t with
  cmdq := [(isl, List.replicate 12 { thr := 0, w0 := 0, w1 := 0, th := {} })] })

theorem wit_ForwardedInstructions : forwardedWords.all (fun e => passes e.1 e.2.1 e.2.2.1 (at0 e.2.2.2)) = true ∧
    laneWords.all (fun e => passes e.1 e.2.1 e.2.2.1 (at0 e.2.2.2)) = true ∧
    (∀ k ∈ [1, 2, 3, 4, 5, 6], (cmdsOf (terrace stR 0) k).length < 12 ∧ ¬ (cmdsOf (terrace (full k) 0) k).length < 12) ∧
    contextsHeld (terrace stR 0) < 16 := by decide +kernel

/-- The same, of the instructions with a statement of their own. -/
def passes2 (e : OpRow × List (Nat × Nat) × (Ctx → State → Option Nat) × W64 × W64) : Bool :=
  passes e.1 e.2.1 e.2.2.1 (at0' e.2.2.2.1 e.2.2.2.2)

theorem wit_ArraysAndHeadgateForwarded : unitWords.all passes2 = true ∧ ∀ k ∈ [3, 4, 6], (cmdsOf (terrace stR 0) k).length < 12 := by decide +kernel

theorem wit_FlumeInstructionsForwarded : unitWords.all passes2 = true ∧ (laneAt stR (laneOf stR 0)).failed = false ∧
    (laneAt stR (laneOf stR 0)).ctxs = [] ∧
    (laneAt { stR with lanes := [(0, { ctxs := [{ tg := 1, cmd := { thr := 0, w0 := 0, w1 := 0, th := {} }, isAttn := true }] })] } (laneOf stR 0)).ctxs ≠ [] ∧
    (laneAt { stR with lanes := [(0, { failed := true })] } (laneOf stR 0)).failed = true := by decide +kernel

/-- A cut job of the item, as it starts. -/
def job0 : CutJob :=
  { desc := bsr8 0x06 0, budget := 4096, rgrp := 1, begun := false, row := 0, last := 0, seg := 0, seq := 0, chain := 0, job := 0, done := false
    tg := 0, thr := 0, pc := 0, accs := [] }

/-- The item with a job. -/
def cutting (j : CutJob) (f : Terrace → Terrace) : State := { st1 f with runs := [(5, { run0 with cut := some j })] }

/-- Thread 0 Blocked. -/
def waits (w : Wait) (t : Terrace) : Terrace := { t with threads := [(0, { st := .blocked w })] }

/-- The item on two terraces: terrace 0 takes, and terrace 1 holds a reach, with wait counters and threads of its own. -/
def run2 : Run := { run0 with tgs := [0, 1] }
def stealing (counts : Map Nat) (threads : Map Thread) : State :=
  { State.reset with runs := [(5, run2)], terraces := [(0, waits (.take 4 1) (terr0 {})),
      (1, { slot := some 5, threads, rqWait := counts, reachQ := [{ slot := 5, w := [1, 2, 3, 4] }] })] }

theorem wit_ReachInstructions : unitWords.all passes2 = true ∧
    fits { maj := 5, min := 0x11 } [(0, 38), (43, 2)] (word 5 17 (4 * 2 ^ 38 + 2 ^ 45)) stR = true ∧ fld (word 5 17 (4 * 2 ^ 38 + 2 ^ 45)) 38 5 % 4 = 0 ∧
    runOfT stR 0 = some (5, run0) ∧ jobExhausted stR run0 = true ∧ jobExhausted stR { run0 with cut := some job0 } = false ∧
    (thread (st1 (waits (.take 4 1))) 0 0).st = .blocked (.take 4 1) ∧ 0 ∈ run0.tgs ∧
    (terrace (st1 (fun t => { t with reachQ := [{ slot := 5, w := [1, 2, 3, 4] }] })) 0).reachQ = [{ slot := 5, w := [1, 2, 3, 4] }] ∧
    (terrace (st1 (waits (.take 4 1))) 0).reachQ = [] ∧ run0.det = false ∧ run0.cut = none ∧
    job0.done = false ∧ (terrace { st1 id with terraces := [(0, terr0 {}), (1, { reachQ := [{ slot := 5, w := [1, 2, 3, 4] }] })] } 1).reachQ ≠ [] ∧
    1 ∈ ({ run0 with tgs := [0, 1] } : Run).tgs ∧ takeAt (st1 (waits (.take 4 1))) run0 0 [] = none ∧
    takeAt (stealing [] []) run2 0 [] = some 1 ∧ takeWinner (stealing [] []) run2 1 = some 0 ∧ takeAt (stealing [] []) run2 0 [1] = none ∧
    takeWinner (stealing [] [(0, { st := .blocked (.take 4 1) })]) run2 1 = some 1 ∧ 1 ∈ takers (stealing [] [(0, { st := .blocked (.take 4 1) })]) run2 1 ∧
    takeWinner (stealing [(0, 4)] [(0, { st := .blocked (.take 4 1) })]) run2 1 = some 0 ∧
    rqW (stealing [] []) (saddleOf 1) ≤ mget (terrace (stealing [(0, 4)] []) 1).rqWait 0 0 := by decide +kernel

theorem wit_LateralQueues : popQ (lqT [] {}) 2 = none ∧ (popQ (lqT [1, 0] {}) 2).isSome = true ∧
    handleOk (terrace (st1 (lqT [])) 0) 0 = true ∧ produces (terrace (st1 (lqT [])) 0) 0 2 = true ∧ consumes (terrace (st1 (lqT [])) 0) 0 2 = true ∧
    fits { maj := 12, min := 0x00, lo := 39, len := 1, val := 0 } [(0, 39)] (word 12 0 (2 ^ 44 + 2 * 2 ^ 40)) (st1 (lqT [])) = true ∧
    fits { maj := 12, min := 0x00, lo := 39, len := 1, val := 1 } [(0, 36)] (word 12 0 (2 ^ 44 + 2 * 2 ^ 40 + 2 ^ 39 + 7 * 2 ^ 36)) (st1 (lqT [])) = true ∧
    fits { maj := 12, min := 0x01, lo := 39, len := 1, val := 0 } [(0, 39)] (word 12 1 (2 ^ 44 + 2 * 2 ^ 40)) (st1 (lqT [])) = true ∧
    fits { maj := 12, min := 0x01, lo := 39, len := 1, val := 1 } [(0, 36)] (word 12 1 (2 ^ 44 + 2 * 2 ^ 40 + 2 ^ 39 + 7 * 2 ^ 36)) (st1 (lqT [])) = true ∧
    ((lqOf (lqT [] {}) 2).entries.length + (lqOf (lqT [] {}) 2).back < 32 ∧ pushWaiters (lqT [] {}) 2 = []) ∧
    32 ≤ (lqOf (lqT (List.replicate 32 1) {}) 2).entries.length := by decide +kernel

theorem wit_HandleAllocationAndFree : fits { maj := 12, min := 0x02 } [(0, 34), (39, 5)] (word 12 2 (2 * 2 ^ 34)) stR = true ∧
    fld (word 12 2 (2 * 2 ^ 34)) 34 2 < 3 ∧ (poolOf (terrace stR 0) 2).valid = true ∧
    fits { maj := 12, min := 0x03 } [(0, 44)] (word 12 3 (2 * 2 ^ 44)) stR = true ∧ handleOk (terrace stR 0) (rich.hreg 2) = true ∧
    handleState (terrace stR 0) (rich.hreg 2) = some .held ∧ (cmdsOf (terrace stR 0) 1).length < 12 ∧ 12 ≤ (cmdsOf (terrace (full 1) 0) 1).length := by decide +kernel

theorem wit_HandlesComeAndGo : (terrace (st1 (fun t => waits (.alloc 3 2 0 7 none) (lqT [] t))) 0).execs = [] ∧
    allocWaiters (terrace (st1 (fun t => waits (.alloc 3 2 0 7 none) (lqT [] t))) 0) 0 = [(7, 0)] ∧
    mget? (poolOf (lqT [] {}) 0).used 2 = none ∧ (∀ j, j < 2 → mhas (poolOf (lqT [] {}) 0).used j = true) ∧
    (poolOf (lqT [] {}) 0).used.length < (poolOf (lqT [] {}) 0).count ∧
    allocWaiters (waits (.alloc 3 2 1 7 none) (lqT [] {})) 1 = [(7, 0)] ∧ (poolOf (lqT [] {}) 1).count ≤ (poolOf (lqT [] {}) 1).used.length ∧
    mget? (poolOf { lqT [] {} with pools := [(0, { count := 4, used := [(1, .returning)] })] } 0).used 1 = some .returning := by decide +kernel

/-- A transfer from terrace 0 to terrace 1. -/
def xfer0 : Xfer := { src := 0, thr := 0, pc := 0, sent := false, rot := false, hand := 0, dst := 1, tag := 9, dtag := 0, q := 3, pool := 0, ls := 2
                      img := { bytes := [1, 2] } }

/-- The item on two terraces, with that transfer on its way. -/
def sending (x : Xfer) (t1 : Terrace) : State :=
  { State.reset with lats := [x], runs := [(5, { run0 with tgs := [0, 1] })], terraces := [(0, terr0 {}), (1, { t1 with slot := some 5 })] }

/-- A peer that can take it. -/
def peer1 : Terrace := { pools := [(0, { valid := true, rsz := 6, count := 4 })], lqs := [(3, { bound := true, prod := 1, cons := 0 })] }

theorem wit_LateralTransfers : sameItem (sending { xfer0 with sent := true } peer1) 0 { xfer0 with sent := true } = true ∧
    sameItem (sending { xfer0 with sent := true, tag := 8 } peer1) 0 { xfer0 with sent := true, tag := 8 } = false ∧
    sameItem (sending { xfer0 with sent := true } peer1) 1 { xfer0 with sent := true } = true ∧
    ((poolOf peer1 0).valid = true ∧ xfer0.img.bytes.length ≤ (poolOf peer1 0).size ∧ produces peer1 1 3 = true) ∧
    (poolOf ({} : Terrace) 0).valid = false ∧ mhas ({ peer1 with execs := [(24, { cmd := { thr := 0, w0 := 0, w1 := 0, th := {} } })] } : Terrace).execs 24 = true ∧
    mhas peer1.execs 24 = false ∧ ((sending xfer0 peer1).lats = [] ++ xfer0 :: [] ∧ xfer0.sent = false) ∧
    ((0, 0) : Nat × Nat) ∈ ({ sending xfer0 peer1 with canalFence := [(0, 0)] } : State).canalFence ∧
    ((0, 0) : Nat × Nat) ∉ (sending xfer0 peer1).canalFence ∧
    (terraceDie 0 = terraceDie 3 ∧ ({ xfer0 with sent := true, src := 3 } : Xfer).src ≠ 0) ∧
    mayInject (sending xfer0 peer1) (terraceDie 0) (terraceDie xfer0.dst) CanalKind.lateral.vc xfer0.flits = true ∧
    mayInject { sending xfer0 peer1 with canalFence := [(0, 0)] } (terraceDie 0) (terraceDie xfer0.dst) CanalKind.lateral.vc xfer0.flits = false := by
  decide +kernel

/-- Bytes in HBM. -/
def putHbm (s : State) (a : Nat) (bs : List Byte) : State := dpaWrite s a (bs.map (fun (b : Byte) => ((b, false) : PByte)))

/-- Allotment 3 with a control block at 0x1000: two sequences, whose records lie at 0x3000; sequence 0 is in the given state. -/
def stC (st holder : Nat) : State :=
  let page : Saddle := { stlb := [{ allot := 3, va := 0, size := 16, pa := 0, perm := 7 }] }
  let s : State := { stR with regs := [(allotBase 3 + 0x0C, 0x1000#32), (0x100038, 0x80000000#32)], saddles := [(0, page), (1, page)] }
  putHbm (putHbm s 0x1000 (leBytes 4 0 ++ leBytes 4 2 ++ leBytes 8 0 ++ leBytes 8 0x3000)) 0x3000
    (leBytes 4 (st * 2 ^ 29) ++ List.replicate 44 0 ++ leBytes 8 holder)

/-- A CIS operation on the sequence that register 20 or 10 names: 0, or 64. -/
def cisO (w : W64) : CisOp := { tg := 0, cmd := { thr := 0, w0 := w, w1 := 0, th := rich }, tag := 9, allot := 3, img := {}, replay := false }

/-- The code of an answer. -/
def codeOf : CisAns → Option Nat
  | .done k _ => some k
  | .wait .. => none

/-- The answer of an operation in a state. -/
def answer (f : Cb → State → CisOp → CisAns) (w : W64) (s : State) : Option (Option Nat) := (cbOf s 3).map (fun c => codeOf (f c s (cisO w)))

theorem wit_CisternOperations :
    fitsAll [({ maj := 10, min := 0 }, [(0, 21), (25, 10)], word 10 0 (20 * 2 ^ 35)), ({ maj := 10, min := 1 }, [(0, 25)], word 10 1 (20 * 2 ^ 35)),
      ({ maj := 10, min := 2 }, [(0, 35)], word 10 2 (20 * 2 ^ 35)), ({ maj := 10, min := 3 }, [(0, 35)], word 10 3 (20 * 2 ^ 35)),
      ({ maj := 10, min := 4 }, [(0, 16), (21, 4)], word 10 4 (20 * 2 ^ 35 + 2 ^ 17)), ({ maj := 10, min := 5 }, [(0, 30)], word 10 5 (20 * 2 ^ 35)),
      ({ maj := 10, min := 6 }, [(0, 35)], word 10 6 (20 * 2 ^ 35)), ({ maj := 10, min := 7 }, [(0, 35)], word 10 7 (20 * 2 ^ 35))] (stC 1 0) = true ∧
    runOfT (stC 1 0) 0 = some (5, run0) ∧ cisAgent (stC 1 0) 3 = some 1 ∧ (cbOf (stC 1 0) 3).isSome = true ∧
    (saddle (stC 1 0) 1).cisScan.contains 3 = false ∧ handleOk (terrace (stC 1 0) 0) (rich.hreg 1) = true ∧
    answer cisHold (word 10 2 (20 * 2 ^ 35)) (stC 1 0) = some (some 0) ∧ answer cisHold (word 10 2 (20 * 2 ^ 35)) (stC 4 9) = some none ∧
    answer cisAppend (word 10 4 (20 * 2 ^ 35 + 10 * 2 ^ 25)) (stC 0 0) = some (some 3) ∧
    (cbOf (stC 1 0) 3).map (fun c => c.bad (stC 1 0)) = some none ∧
    (cbOf (putHbm (stC 1 0) 0x1010 (leBytes 8 0x30000)) 3).map (fun c => (c.bad (putHbm (stC 1 0) 0x1010 (leBytes 8 0x30000))).isSome) = some true := by
  decide +kernel

/-- The same operations, by the codes they answer in each of the cases of the statement. -/
theorem wit_CisternStatusCodes : (cbOf (stC 1 0) 3).map (fun c => (c.nseq, c.pools.length)) = some (2, 1) ∧ (rich.sreg 10).toNat = 64 ∧
    (rich.sreg 20).toNat = 0 ∧ (cbOf (stC 1 0) 3).map (fun c => ((c.seq (stC 1 0) 0).state, (c.seq (stC 1 0) 1).state)) = some (1, 0) ∧
    (cbOf (stC 1 7) 3).map (fun c => (c.seq (stC 1 7) 0).holder) = some 7 ∧
    tagRuns { stC 1 7 with runs := [(5, run0), (6, { run0 with tag := 7 })] } 3 7 = true ∧
    answer cisOpen (word 10 0 (10 * 2 ^ 35)) (stC 1 0) = some (some 4) ∧ answer cisOpen (word 10 0 (20 * 2 ^ 35 + 2 ^ 21)) (stC 0 0) = some (some 4) ∧
    answer cisOpen (word 10 0 (20 * 2 ^ 35)) (stC 1 0) = some (some 3) := by decide +kernel

/-- A command as the Intake forwards it. -/
def cmd0 (w : W64) : Cmd := { thr := 0, w0 := w, w1 := BitVec.ofNat 64 (2 ^ 40 + 5 * 2 ^ 5), th := rich }

/-- The block with a command on an island. -/
def queued (isl : Nat) (w : W64) : State := st1 (fun t => { richT t with cmdq := [(isl, [cmd0 w])] })

theorem wit_BlockedThreadsGoOn : (∀ w, (thread (st0 {}) 0 0).st ≠ .blocked w) ∧
    ((thread (st1 (waits (.sem false 3 0))) 0 0).st = .blocked (.sem false 3 0) ∧ 0 ≤ (semGet (st1 (waits (.sem false 3 0))) 0 false 3 - 0#32).toInt ∧
      (semGet (st1 (waits (.sem false 3 1))) 0 false 3 - 1#32).toInt < 0) ∧
    ((thread (st1 (waits (.fence 0))) 0 0).st = .blocked (.fence 0) ∧ quiet (st1 (waits (.fence 0))) 0 0 0 = true ∧
      quiet (st1 (fun t => waits (.fence 0) { t with execs := [(3, { cmd := cmd0 (word 4 1 0) })] })) 0 0 0 = false) ∧
    (thread (st1 (waits (.alloc 3 1 0 0 (some 7)))) 0 0).st = .blocked (.alloc 3 1 0 0 (some 7)) ∧
    (thread (st1 (waits (.cis 3 1 (some 7)))) 0 0).st = .blocked (.cis 3 1 (some 7)) ∧
    (thread (st1 (waits (.audit 3 (some (7, 8))))) 0 0).st = .blocked (.audit 3 (some (7, 8))) ∧
    ((thread (st1 (waits (.cut 0 0 8))) 0 0).st = .blocked (.cut 0 0 8) ∧ jobExhausted (st1 (waits (.cut 0 0 8))) run0 = true ∧
      jobExhausted (cutting job0 (waits (.cut 0 0 8))) { run0 with cut := some job0 } = false) ∧
    ((thread (st1 (waits (.pop 1 2))) 0 0).st = .blocked (.pop 1 2) ∧ (popQ (lqT [1] (waits (.pop 1 2) (terr0 {}))) 2).isSome = true ∧
      popQ (terrace (st1 (waits (.pop 1 2))) 0) 2 = none) ∧
    ((thread (st1 (waits (.push 1 2 0 4))) 0 0).st = .blocked (.push 1 2 0 4) ∧ (lqOf (terrace (st1 (waits (.push 1 2 0 4))) 0) 2).entries.length < 32 ∧
      pushCredit (terrace (st1 (waits (.push 1 2 0 4))) 0) 2 = true ∧ pushWaiters (terrace (st1 (waits (.push 1 2 0 4))) 0) 2 = [4] ∧
      32 ≤ (lqOf (lqT (List.replicate 32 1) {}) 2).entries.length) ∧
    ((thread (st1 (waits (.load (word 2 0x20 (2 ^ 36 + 2 ^ 32)) 0))) 0 0).st = .blocked (.load (word 2 0x20 (2 ^ 36 + 2 ^ 32)) 0) ∧
      wMaj (word 2 0x20 (2 ^ 36 + 2 ^ 32)) = 2 ∧ 0 < 2 ^ fld (word 2 0x20 (2 ^ 36 + 2 ^ 32)) 36 2 ∧
      (∀ b ∈ (spRead (st1 (waits (.load (word 2 0x20 (2 ^ 36 + 2 ^ 32)) 0))) 0 3 1 0 2).data, b.2 = false) ∧
      terraceFenced (fencedOff (mapped 0 0x80000000#32 (st1 (waits (.load (word 2 0x20 0) 0))))) 0 = true ∧
      atsMissing (spRead (mapped hostBase 0xC0000000#32 (st1 (waits (.load (word 2 0x20 0) 0)))) 0 3 0 0 1).accs ≠ [] ∧
      (∃ b ∈ (spRead { mapped 0 0x80000000#32 (st1 (waits (.load (word 2 0x20 0) 0))) with hbmPoison := [0] } 0 3 0 0 1).data, b.2 = true)) := by
  refine ⟨fun w => ?_, by decide +kernel⟩
  simp only [show (thread (st0 {}) 0 0).st = .ready by decide +kernel]
  exact nofun

theorem wit_IslandsRunTheirInstructions : cmdsOf (terrace (queued 1 (word 4 3 0)) 0) 1 = [cmd0 (word 4 3 0)] ∧
    (startOn 1 (queued 1 (word 4 3 0)) 0 (cmd0 (word 4 3 0))).1 = true ∧
    (startOn 3 (queued 3 (word 6 0 (3 * 2 ^ 41))) 0 (cmd0 (word 6 0 (3 * 2 ^ 41)))).1 = false ∧
    (cmdsOf (terrace (queued 3 (word 6 1 0)) 0) 3 = [cmd0 (word 6 1 0)] ∧ (terrace (queued 3 (word 6 1 0)) 0).execs = [] ∧ wMin (word 6 1 0) = 1) ∧
    (∀ e ∈ (terrace (queued 1 (word 4 3 0)) 0).execs, ¬ (unitIsl e.1 = 1 ∧ e.2.got ≠ none)) ∧
    (∃ e ∈ (terrace (st1 (fun t => { t with execs := [(3, { cmd := cmd0 0, got := some 1 })] })) 0).execs, unitIsl e.1 = 1 ∧ e.2.got ≠ none) ∧
    (terraceFenced (fencedOff (queued 1 (word 4 3 0))) 0 = true ∧ 1 ≠ 2 ∧ 1 ≠ 3 ∧ terraceFenced (queued 1 (word 4 3 0)) 0 = false) ∧
    (mget? (terrace (st1 (fun t => { t with execs := [(18, { cmd := cmd0 0, ready := true })] })) 0).execs (16 + 2) = some { cmd := cmd0 0, ready := true }) ∧
    (mget? (terrace (st1 (fun t => { t with execs := [(3, { cmd := cmd0 0, outs := [{}] })] })) 0).execs 3 = some { cmd := cmd0 0, outs := [{}] }) := by
  decide +kernel

/-- An MMA of array 0 in progress. -/
def computing (f : Terrace → Terrace) : State := st1 (fun t => f { t with execs := [(20, { cmd := cmd0 (word 6 0 0) })] })

theorem wit_ArrayChecksReplayThenDegrade : mget? (terrace (computing id) 0).execs 20 = some { cmd := cmd0 (word 6 0 0) } ∧ wMin (word 6 0 0) = 0 ∧
    (∃ l ∈ mmaArrays (cmd0 (word 6 0 0)), substitute (terrace (computing id) 0).degraded l = 0) ∧ 0 ∉ (terrace (computing id) 0).replaying ∧
    (({ array := 0, again := true } : ArrayCheck).again = true ∧ 0 ∈ (terrace (computing (fun t => { t with replaying := [0] })) 0).replaying) ∧
    mget? (terrace (st0 {}) 0).execs 20 = none ∧ (setIns ([] : List Nat) 0).length ≠ 4 ∧ (setIns [1, 2, 3] 0).length = 4 ∧ substitute [1, 2, 3] 0 = 0 := by
  decide +kernel

/-- A slot that holds an item of queue 192 in a state, asking for one terrace. -/
def slot0 (st : SlotSt) (seq : W32) : Slot :=
  { st, q := 192, seq, tag := 9, entry := [1#8, 1#8] ++ List.replicate 62 0, compl := none, replays := 0, atime := 0 }

/-- The block with an item in slot 5, allotment 3 enabled and granted terraces 0 and 1. -/
def withSlot (st : SlotSt) (grants : W32) (s : State) : State :=
  { s with regs := [(allotBase 3, 0x80000000#32), (allotBase 3 + 4, grants)], jrn0 := { slots := [(5, slot0 st 0)] }, jrn1 := { slots := [(5, slot0 st 0)] } }

theorem wit_ItemsStart :
    ((terrace (st1 (fun t => { t with scrub := true })) 0).scrub = true ∧ ({ run0 with scrubbing := [0], started := false } : Run).scrubbing = [0]) ∧
    working (withSlot .accepted 3 State.reset) = true ∧
    pickItem (withSlot .accepted 3 State.reset) (candidates (withSlot .accepted 3 State.reset)) = some (192, 5, slot0 .accepted 0) ∧
    spanSize (withSlot .accepted 3 State.reset) 3 (slot0 .accepted 0) = 1 ∧
    pickItem (withSlot .accepted 0 State.reset) (candidates (withSlot .accepted 0 State.reset)) = some (192, 5, slot0 .accepted 0) ∧
    spanSize (withSlot .accepted 0 State.reset) 3 (slot0 .accepted 0) = 0 := by decide +kernel

/-- The same item with a contribution that has not arrived. -/
def unquiet (s : State) : State :=
  { s with saddles := [(0, { vc2 := [{ allot := 3, slot := some 5, tag := 9, tileVa := 0, tile := 0, record := 0, op := 0, fmt := 0x0E, n1 := 7, ci := 3
                                       elems := [], sender := none }] })] }

/-- The item with a done word in the mapped page, in its commit. -/
def committed0 (done : Nat) (s : State) : State :=
  { withSlot .committing 1 s with runs := [(5, { run0 with done := [0], copied := true, commit := some { done, ranges := [] } })] }

/-- Page 0 of allotment 3 for the agent of Saddle 0. -/
def agentPage (pa : Nat) (ctx : W32) (s : State) : State :=
  { s with regs := mset s.regs 0x100038 ctx, saddles := [(0, { stlb := [{ allot := 3, va := 0, size := 16, pa, perm := 7 }] })] }

theorem wit_ItemsFinishAndCommit : runOfT (st0 {}) 0 = some (5, run0) ∧ run0.started = true ∧ 0 ∉ run0.done ∧ terraceDone (st0 {}) 0 = false ∧
    terraceDone (st1 (fun t => { t with threads := [(0, { st := .ended })] })) 0 = true ∧ run0.parked = false ∧ run0.sumps = 0 ∧
    (∀ x ∈ run0.tgs, x = 0 ∨ x ∈ run0.done) ∧ (∃ x ∈ ({ run0 with tgs := [0, 1] } : Run).tgs, x ≠ 0 ∧ x ∉ run0.done) ∧
    working (withSlot .running 1 (st0 {})) = true ∧ slotAt (withSlot .running 1 (st0 {})) 5 = some (slot0 .running 0) ∧
    itemQuiet (withSlot .running 1 (st0 {})) 5 false = true ∧ itemQuiet (withSlot .running 1 (st0 {})) 5 true = true ∧
    itemQuiet (unquiet (withSlot .running 1 (st0 {}))) 5 false = false ∧
    (∀ e ∈ slotsOfQ (withSlot .running 1 (st0 {})) 192, e.2.seq + 1 = (slot0 .running 0).seq → e.2.over = true) ∧
    slotAt (withSlot .committing 1 (st0 {})) 5 = some (slot0 .committing 0) ∧ run0.commit = none ∧ run0.copied = false ∧
    ((withSlot .committing 1 (st0 {})).jsteps = []) ∧
    (∃ j ∈ ({ withSlot .committing 1 (st0 {}) with jsteps := [{ eff := .commitCopy 5 }] } : State).jsteps, j.eff = .commitCopy 5) ∧
    ({ run0 with started := false } : Run).started = false ∧ copyMissing (st0 {}) 3 { done := 0, ranges := [] } = [] ∧
    copyMissing (agentPage hostBase 0xC0000000#32 (st0 {})) 3 { done := 0, ranges := [(0, 64, 32)] } ≠ [] ∧
    itemQuiet (committed0 0 (st0 {})) 5 true = true ∧ itemQuiet (unquiet (committed0 0 (st0 {}))) 5 true = false ∧
    writeWaits (agentPage 0 0x80000000#32 (committed0 8 (st0 {}))) (.agent 0) 3 8 8 = [] ∧
    writeWaits (agentPage hostBase 0xC0000000#32 (committed0 8 (st0 {}))) (.agent 0) 3 8 8 ≠ [] := by decide +kernel


/-- A header of an empty 8 by 8 BSR8 tensor. -/
def header0 : Header :=
  { trunc := false, tmeta := false, idxw := false, format := 6, fblk := 0, layout := 2, rows := 8, cols := 8, rowBase := 0, nnz := 0, val := 0x400, scl := 0
    ptr := 0x200, idx := 0x300, tptr := 0, tidx := 0, valBytes := 0 }

/-- The item cutting a job over that tensor, in HBM at 0. -/
def cutState (j : CutJob) (f : Terrace → Terrace) (h : Header) : State :=
  let page : Saddle := { stlb := [{ allot := 3, va := 0, size := 16, pa := 0, perm := 7 }] }
  putHbm { cutting j f with regs := [(0x100038, 0x80000000#32)], saddles := [(0, page), (1, page)] } 0 h.bytes

/-- What the cutter reads and makes of it. -/
def cutRead (s : State) : Rd := vRead s (.agent 0) 3 0 128
def job1 : CutJob := { job0 with begun := true, last := 1 }

theorem wit_CutterPlacesReaches : mget? (cutState job0 id header0).runs 5 = some { run0 with cut := some job0 } ∧ job0.done = false ∧
    ({ job0 with done := true } : CutJob).done = true ∧ atsMissing (cutRead (cutState job0 id header0)).accs = [] ∧
    (Header.ofBytes ((cutRead (cutState job0 id header0)).data.map (·.1))).breaks { d := job0.desc, aux := 0 } = false ∧
    (∀ y ∈ (cutRead (cutState job0 id header0)).data, y.2 = false) ∧
    (Header.ofBytes ((cutRead (cutState job0 id { header0 with layout := 9 })).data.map (·.1))).breaks { d := job0.desc, aux := 0 } = true ∧
    rowRange { d := job0.desc, aux := 0 } header0 = (0, 1) ∧ job1.row < job1.last ∧ ({ job1 with row := 1 } : CutJob).last ≤ 1 ∧
    atsMissing (nextReach (cutState job0 id header0) 0 3 { d := job0.desc, aux := 0 } header0 job1).2.accs = [] ∧
    (terrace (cutState job0 id header0) 0).reachQ.length < 256 ∧ run0.det = false ∧
    atsMissing [{ va := 0, acc := 0, kind := some 8 }] ≠ [] := by decide +kernel

/-- A contribution of contributor 3 to an FP32 tile at 4096, whose guard record lies at 128. -/
def contrib0 : Contribution :=
  { allot := 3, slot := some 5, tag := 9, tileVa := 4096, tile := 4096, record := 128, op := 0, fmt := 0x0E, n1 := 7, ci := 3, elems := [(0, 0x3F800000, false)]
    sender := none, sent := true }

/-- The guard's Saddle with that contribution, over a record. -/
def guarding (r : GRec) (c : Contribution) : State := putHbm { State.reset with saddles := [(0, { vc2 := [c] })] } 128 r.bytes
def rec0 : GRec := { bitmap := 0, item := 9, n1 := 7, op := 0, valid := true, fmt := 0x0E }

theorem wit_GuardApplies : (saddle (guarding rec0 contrib0) 0).vc2 = [] ++ contrib0 :: [] ∧ contrib0.sent = true ∧
    ((saddle (guarding rec0 { contrib0 with sent := false }) 0).vc2 = [{ contrib0 with sent := false }]) ∧ (∀ b ∈ dpaRead (guarding rec0 contrib0) 128 64, b.2 = false) ∧
    GRec.ofBytes ((dpaRead (guarding rec0 contrib0) 128 64).map (·.1)) = rec0 ∧ rec0.bitmap.testBit 3 = false ∧
    GRec.ofBytes ((dpaRead (guarding { rec0 with bitmap := 8 } contrib0) 128 64).map (·.1)) = { rec0 with bitmap := 8 } ∧ (8 : Nat).testBit 3 = true ∧
    (GRec.ofBytes ((dpaRead (guarding { rec0 with valid := false } contrib0) 128 64).map (·.1))).valid = false ∧
    (GRec.ofBytes ((dpaRead (guarding { rec0 with n1 := 2 } contrib0) 128 64).map (·.1))).n1 < contrib0.ci ∧
    (∃ b ∈ dpaRead { guarding rec0 contrib0 with hbmPoison := [4] } 128 64, b.2 = true) := by decide +kernel

theorem wit_ContributionsCombineOnce : contrib0.record % 64 = 0 ∧ contrib0.record + 64 ≤ hbmCap State.reset.guarded ∧ contrib0.ci < 256 ∧ contrib0.n1 < 256 ∧
    contrib0.op < 16 ∧ contrib0.fmt < 32 ∧ contrib0.tag < 2 ^ 48 := by decide +kernel

/-- A Sump job of one empty bag over a table that is mapped. -/
def sumpRec : List Byte :=
  leBytes 4 (6 * 2 ^ 22 + 0x0E * 2 ^ 17) ++ leBytes 4 4 ++ leBytes 8 0 ++ leBytes 8 1 ++ leBytes 8 0 ++ leBytes 8 0x100 ++ leBytes 8 0x200 ++ leBytes 8 0
    ++ leBytes 8 0x300 ++ leBytes 4 32 ++ leBytes 4 32 ++ leBytes 4 0 ++ leBytes 4 1 ++ List.replicate 48 0
def sump0 : SumpJob := { slot := 5, tg := 0, thr := 0, pc := 0, allot := 3, record := sumpRec, bad := false, next := 0, accs := [] }
def pooling (j : SumpJob) : State :=
  { st0 {} with regs := [(0x100038, 0x80000000#32)], saddles := [(0, { sump := [j], stlb := [{ allot := 3, va := 0, size := 16, pa := 0, perm := 7 }] })] }

theorem wit_SumpJobsPoolBagByBag : (saddle (pooling sump0) 0).sump = [sump0] ∧ sump0.next < (SumpRec.ofBytes sumpRec).bagCount ∧
    (SumpRec.ofBytes sumpRec).bagCount ≤ ({ sump0 with next := 1 } : SumpJob).next ∧
    atsMissing (poolBag (pooling sump0) 0 sump0 (SumpRec.ofBytes sumpRec)).1.accs = [] ∧
    atsMissing (vWrite (pooling sump0) (.agent 0 (some 5)) 3 0x300 (packRow 32 [(0, false), (0, false), (0, false), (0, false)])).2 = [] ∧
    atsMissing [{ va := 0, acc := 1, kind := some 8 }] ≠ [] := by decide +kernel

/-- A Flume lane with two contexts. -/
def ctx0 (tg : Nat) (attn : Bool) : FCtx := { tg, cmd := cmd0 (word 9 0 (4 * 2 ^ 43 + 8 * 2 ^ 39 + 8 * 2 ^ 35 + 8 * 2 ^ 27 + 8 * 2 ^ 23 + 2 * 2 ^ 11)), isAttn := attn }
def pagedCtx (tg : Nat) : FCtx := { tg, cmd := { thr := 0, w0 := word 9 0 (4 * 2 ^ 43), w1 := 0, th := { rich with s := [(4, BitVec.ofNat 64 (2 ^ 19))] } }, isAttn := true }
def lane2 (running : Nat) : State := { stR with lanes := [(0, { ctxs := [ctx0 0 true, ctx0 1 false], running })] }

theorem wit_LanesAndCisternAgents : (laneAt State.reset 0).ctxs.length < 2 ∧ (laneAt (lane2 0) 0).ctxs = [ctx0 0 true, ctx0 1 false] ∧
    (∀ y ∈ [ctx0 0 true], y.tg ≤ 0) ∧ 0 < (ctx0 1 false).tg ∧ (∀ y ∈ (laneAt (lane2 1) 0).ctxs, y.tg ≤ 1) ∧ (∀ x ∈ (laneAt (lane2 2) 0).ctxs, x.tg ≠ 2) ∧
    waitsScan stR 3 (ctx0 0 true).cmd (cisAgent stR 3) = false ∧
    waitsScan { stC 1 0 with saddles := [(1, { cisScan := [3] })] } 3 (pagedCtx 0).cmd (cisAgent (stC 1 0) 3) = true ∧
    ((ctx0 1 false).isAttn = false ∧ (ctx0 0 true).isAttn = true ∧ atsMissing (mergeAll (lane2 1) 1 (allotOf (lane2 1) 1) (ctx0 1 false).cmd).accs = []) ∧
    scanWaits (stC 1 0) (cbOf (stC 1 0) 3) = false ∧
    scanWaits (putHbm (stC 3 0) 0x3028 (leBytes 4 (2 ^ 30))) (cbOf (putHbm (stC 3 0) 0x3028 (leBytes 4 (2 ^ 30))) 3) = true ∧
    (saddle (updSaddle (stC 1 0) 1 (fun d => { d with cisNotes := [(3, 0, 4)] })) 1).cisNotes = [] ++ (3, 0, 4) :: [] ∧
    cisAgent (updSaddle (stC 1 0) 1 (fun d => { d with cisNotes := [(3, 0, 4)] })) 3 = some 1 ∧
    (saddle (stC 1 0) 1).cisScan.contains 3 = false ∧
    (saddle { stC 1 0 with saddles := [(1, { cisScan := [3] })] } 1).cisScan.contains 3 = true ∧
    (saddle { stC 1 0 with saddles := [(1, { cisScan := [3] })] } 0).cisScan.contains 3 = false ∧
    (cbOf (stC 1 0) 3).map (fun c => (c.seq (stC 1 0) 0).phase) = some 0 ∧
    (cbOf (stC 1 0) 3).map (fun c => c.bad (stC 1 0)) = some none ∧
    (cbOf (putHbm (stC 3 0) 0x3028 (leBytes 4 (2 ^ 30))) 3).map (fun c => ((c.seq (putHbm (stC 3 0) 0x3028 (leBytes 4 (2 ^ 30))) 0).phase,
      (c.seq (c.swapStep (putHbm (stC 3 0) 0x3028 (leBytes 4 (2 ^ 30))) 0) 0).phase)) = some (1, 0) := by
  decide +kernel

/-- A request of terrace 0 for an address. -/
def req0 (a : Nat) : MemReq := { addr := BitVec.ofNat 56 a, len := 32, src := .terrace 0 0, allot := 3, resv := none }

theorem wit_SaddlesServeMemory : saddleServes State.reset (req0 64).addr.toNat = true ∧ (req0 64).addr.toNat < farBase ∧
    requestWaits State.reset (req0 64) 32 false = false ∧
    saddleServes State.reset (req0 farBase).addr.toNat = true ∧
    requestWaits State.reset (req0 farBase) 32 true = false ∧
    requestWaits { State.reset with regs := [(sBase 0 + 0x70000, 0x80100010#32)], saddles := [(0, { ptok := [(0, 0)] })] } (req0 64) 32 false = true ∧
    requestWaits { State.reset with saddles := [(0, { waits := [.read (req0 0) {}] })] } (req0 64) 32 false = true ∧
    ((req0 64).addr.toNat = 32 * 2 ∧ (req0 64).len = 32 ∧ (req0 64).addr.toNat < hbmCap State.reset.guarded ∧ groupState State.reset (homeSaddle 64) = 0 ∧
      rsvWay (saddle State.reset (homeSaddle 64)) (64 / 256) = none) ∧
    (cmdsOf (terrace State.reset 0) (islCode .s) = [] ∧ memSize 1 ≤ 2 ^ 24 ∧ 8 < memSize 3) ∧
    16 < (uncNow { State.reset with terraces := [(0, { uncAt := (List.range 16).map (fun i => (i, 0)) })] } 0 (2 ^ 20)).length ∧
    (uncNow State.reset 0 (2 ^ 20)).length ≤ 16 := by decide +kernel

/-- Two stacks of a group. -/
def oneFailed : State := { State.reset with saddles := [(0, { hbmStacks := [(1, { failed := true })] })] }

/-- Far port 2 in a state. -/
def farIn (st : Nat) : State := { State.reset with farPorts := [(2, { state := st, width := 16, cap := 512 })] }

theorem wit_StacksAndFarPorts : (stackOf oneFailed 1).failed = true ∧ (stackOf oneFailed 0).failed = false ∧
    groupState (updSaddle State.reset 0 (fun d => { d with hbmStacks := mset d.hbmStacks 0 { failed := true } })) 0 ≠ 2 ∧
    groupState (updSaddle oneFailed 0 (fun d => { d with hbmStacks := mset d.hbmStacks 0 { failed := true } })) 0 = 2 ∧
    (farPort (farIn 4) 2).state = 4 ∧ ((farPort (farIn 2) 2).state ≠ 0 ∧ (farPort (farIn 2) 2).state ≠ 4 ∧ (farPort (farIn 2) 2).state ≠ 5) ∧
    (farPort (farIn 5) 2).state = 5 ∧ (farIn 5).far.wf = true := by decide +kernel

/-- An arbiter where requester 1 always wants the port, and requester 0 of a higher class does too. -/
def wanting : Map ArbReq := [(0, .one 0 8 false), (1, .one 3 8 false)]
def turn (k : Nat) : Arb := Nat.rec { reqs := wanting } (fun _ a => { decideArb a 4 with reqs := wanting }) k

theorem turn_waits : (∀ i, (turn i).reqs = wanting) ∧ ∀ i, ∃ reqs progress stamp, turn (i + 1) = { decideArb (turn i) 4 with reqs, progress, stamp } := by
  refine ⟨fun i => by cases i <;> rfl, fun i => ⟨wanting, _, _, rfl⟩⟩

theorem wit_RequestersAreServed : 1 < 17 ∧ (wanting.map (·.1)).Nodup ∧ (∀ e ∈ wanting, e.2.cls = prefetchClass ∨ e.1 < 17) ∧
    (1, .one 3 8 false) ∈ wanting ∧ (ArbReq.one 3 8 false).cls < prefetchClass := by decide +kernel

theorem wit_GrantsEnd : ({ holder := some 1, reqs := wanting, moved := 20 } : Arb).holder = some 1 ∧
    mget? wanting 1 = some (.one 3 8 false) ∧ (ArbReq.one 3 8 false).parts = (8, false) :: [] ∧ (ArbReq.one 3 8 false).exempt = false ∧ 20 < (TurnCfg.ofWord turnReset).burst ∧
    ((TurnCfg.ofWord turnReset).revEn = true ∧ (TurnCfg.ofWord turnReset).revMin ≤ 20 ∧ ∃ e ∈ wanting, e.2.cls < 3) ∧
    (TurnCfg.ofWord turnReset).burst ≤ 64 := by decide +kernel

theorem wit_TokenBuckets : (∀ n, n < 2 → (saddle State.reset n).waits = []) ∧ State.reset.terraces = [] ∧ sharers (st0 {}) 3 = [0] ∧ (∀ tg ∈ sharers (st0 {}) 3, tg < 64) ∧ (0 < 64 ∧ 63 < 64) ∧
    ({ State.reset with rsvs := [{ allot := 3, index := 0, prio := 0, g0r := 1, g0w := 0, g1r := 0, g1w := 0, port := 0, fr := 0, fw := 0 }] } : State).rsvs[0]? =
      some { allot := 3, index := 0, prio := 0, g0r := 1, g0w := 0, g1r := 0, g1w := 0, port := 0, fr := 0, fw := 0 } := by decide +kernel

/-- A reservation of allotment 3, index 1. -/
def rsv0 : Rsv := { allot := 3, index := 1, prio := 0, g0r := 1, g0w := 0, g1r := 0, g1w := 0, port := 0, fr := 0, fw := 0 }

/-- A request for it with an operation. -/
def rsvReq (op : Nat) : W32 := BitVec.ofNat 32 (2 ^ 31 + op * 2 ^ 28 + 3 * 2 ^ 16 + 1 * 2 ^ 8)

/-- The resources a request falls short of. -/
def shortOf (s : State) (v : W32) : List Nat :=
  (List.range 20).filter (fun b => decide (0 < (rsvOf s v).takes b) && !(resFits s b (resSum s b + (rsvOf s v).takes b)))

theorem wit_ReservationCommands : regsUp State.reset = true ∧ State.reset.resetting = none ∧ bit (rsvReq 0) 31 = true ∧ fld (rsvReq 0) 28 2 = 0 ∧
    rsvFind State.reset 3 1 = none ∧ admissionsShut State.reset = false ∧ shortOf State.reset (rsvReq 0) = [] ∧
    shortOf { State.reset with regs := [(0x130004, 0xFFFF0000#32)] } (rsvReq 0) ≠ [] ∧
    rsvFind { State.reset with rsvs := [rsv0] } 3 1 = some rsv0 ∧ fld (rsvReq 1) 28 2 = 1 ∧ rsvState State.reset 3 1 = 0 ∧
    rsvState { State.reset with rsvs := [rsv0] } 3 1 ≠ 0 ∧ fld (rsvReq 2) 28 2 = 2 ∧ fld (rsvReq 3) 28 2 = 3 ∧ (bit (0 : W32) 31 = false ∧ fld (0 : W32) 28 2 ≠ 3) ∧ fld (90 : W32) 0 7 ≤ 90 ∧ 90 < fld (91 : W32) 0 7 ∧
    ({ State.reset with rsvDue := some 1 } : State).rsvDue = some 1 ∧ State.reset.rsvDue = none := by decide +kernel

theorem wit_RecomputationFits : 19 < 20 ∧ (∀ b ∈ List.range 20, resFits { State.reset with rsvs := [rsv0] } b (resSum { State.reset with rsvs := [rsv0] } b) = true) := by
  decide +kernel

theorem wit_Translation : regsUp State.reset = true ∧ State.reset.resetting = none ∧ bit (rg State.reset 0x100038 0) 31 = false ∧
    bit (rg { State.reset with regs := [(0x100038, 0x80000000#32)] } 0x100038 0) 31 = true ∧ bit (0x80000000 : W32) 31 = true ∧ bit (0 : W32) 31 = false ∧
    bit (0x60000000 : W32) 30 = true ∧ fld (0x60000000 : W32) 28 2 = 2 ∧ fld (0x70000000 : W32) 28 2 = 3 ∧ State.reset.inv = none ∧
    ({ State.reset with inv := some { scope := 2, allot := 0, va := 0, len := 0 } } : State).inv ≠ none ∧ State.reset.invQ = [] ∧
    (∃ q ∈ ({ State.reset with hostReqs := [{ hd := 0, tg := none, allot := 3, va := 0, secs := [0], old := true }] } : State).hostReqs, q.old = true) ∧
    ({ State.reset with invQ := [{ scope := 1, allot := 3, va := 0, len := 0 }] } : State).invQ = { scope := 1, allot := 3, va := 0, len := 0 } :: [] ∧
    State.reset.flog = [] ∧ State.reset.atsPend = [] ∧ State.reset.hostReqs = [] ∧
    (∃ e ∈ (unquiet State.reset).saddles, ∃ c ∈ e.2.vc2, ({ c with old := true } : Contribution).old = true) ∧
    32 ≤ (({ State.reset with atsPend := (List.range 32).map (fun k => (0, k, [])) } : State).atsPend.filter (fun p => p.1 = 0)).length ∧
    ({ State.reset with atsWant := [(0, 3, 7)] } : State).atsWant.contains (0, 3, (7 : BitVec 48).toNat) = true ∧ (mget State.reset.ats 0 []).length < 4096 := by
  decide +kernel

/-- Queue 192 (queue 0 of allotment 3) enabled, its counts as given, with the allotment enabled and rung. -/
def qst (x : Que) : State :=
  { State.reset with
    regs := [(allotBase 3, 0x80000001#32), (0x200000 + 0x20 * 192 + 0x10, 0x98D00000#32), (0x200000 + 0x20 * 192 + 0x14, 0x10001#32)]
    ques := [(192, x)], allots := [(3, { rung := true })], hostPorts := [(0, { state := 2, width := 16 })] }

theorem wit_DoorbellsAndQueueRegisters : regsUp (qst {}) = true ∧ (qst {}).mode ≠ .maintenance ∧ (qst {}).resetting = none ∧
    ({ qst {} with resetting := some { kind := 1, source := 1, goal := .ready } } : State).resetting ≠ none ∧
    regsUp { qst {} with resetting := some { kind := 1, source := 1, goal := .ready } } = true ∧
    allotEn State.reset 3 = false ∧ allotEn (qst {}) 3 = true ∧ (allot (qst {}) 3).rung = true ∧ qEn (qst {}) 192 = true ∧ qEn (qst {}) 193 = false ∧
    2 ^ fld (qCfg (qst {}) 192) 26 5 = 64 ∧ (que (qst { stopped := true }) 192).stopped = true ∧
    ((64 : W32) ≠ 0 ∧ ((64 : W32) - 0).toNat ≤ 64) ∧ 64 < ((65 : W32) - 0).toNat ∧
    ((1 : W32) ≠ 0 ∧ ((1 : W32) - 0).toNat ≤ ((1 : W32) - 0).toNat) ∧ ((1 : W32) - 0).toNat < ((2 : W32) - 0).toNat ∧
    fld (1 : W32) 16 16 = 0 ∧ fld (0x10000 : W32) 16 16 ≠ 0 ∧ qCfgBad (qst {}) 192 0#32 = true ∧ qCfgBad (qst {}) 192 0x18D02000#32 = false ∧
    qCfgBad (qst {}) 192 0x98D02000#32 = false ∧ qCfgBad { qst {} with regs := [(allotBase 3, 0x80000001#32)] } 192 0x98D02000#32 = false ∧
    (bit (0x98D02000 : W32) 31 = true ∧ bit (0x18D02000 : W32) 31 = false) ∧ portUp (qst {}) (allot (qst {}) 3).owner = true ∧
    portUp State.reset (allot State.reset 3).owner = false := by decide +kernel

/-- The same queue with three entries to read, all in host memory. -/
def accepting : State :=
  { qst { tail := 3 } with jrn0 := { qtab := [(192, { tail := 3 })] }, jrn1 := { qtab := [(192, { tail := 3 })] } }

/-- The same with a completed item that is next in its queue. -/
def posting : State :=
  { qst {} with jrn0 := { slots := [(5, slot0 .completed 0)] }, jrn1 := { slots := [(5, slot0 .completed 0)] } }

theorem wit_AcceptanceAndCompletion : accepts accepting 192 = true ∧ 0 < min 16 ((qent accepting 192).tail - (qent accepting 192).acc).toNat ∧
    0 < freeSlots accepting ∧ (∀ b ∈ accepting.host.read ((qent accepting 192).sqBase) 64, b.2 = false) ∧
    ([4, 7] : List Nat).Nodup ∧ ([4, 7] : List Nat)[1]? = some 7 ∧ ([[1#8], [2#8]] : List (List Byte))[1]? = some [2#8] ∧
    working posting = true ∧ portUp posting (allot posting 3).owner = true ∧ ((qent posting 192).seq - (qent posting 192).head).toNat < 2 ^ (qent posting 192).log2cq ∧
    (slotsOfQ posting 192).find? (fun x => x.2.seq = (qent posting 192).seq && x.2.st == .completed) = some (5, slot0 .completed 0) ∧
    bit (qCfg (qst { timer := true }) 192) 20 = true ∧ (que (qst { timer := true }) 192).timer = true ∧
    fld (rg (qst { timer := true }) (0x200000 + 0x20 * 192 + 0x14) 0x10000) 0 16 ≠ 0 ∧ (que (qst {}) 192).timer = false ∧
    accepts (qst { stopped := true }) 192 = false ∧ (∃ b ∈ ({ accepting with host := { poison := [0] } } : State).host.read ((qent accepting 192).sqBase) 64, b.2 = true) ∧
    itemQuiet posting 5 true = true ∧ itemQuiet (unquiet posting) 5 true = false := by decide +kernel

/-- The same queue when no slot is free. -/
def slotsFull (k : Nat) : Journal := { slots := (List.range k).map (fun n => (n, slot0 .accepted 0)), qtab := [(192, { tail := 3 })] }

theorem accepts_jrn0 (s : State) (j : Journal) (q : Nat) : accepts { s with jrn0 := j } q = accepts s q := rfl

theorem wit_NoFreeSlot : freeSlots { accepting with jrn0 := slotsFull 65536 } = 0 ∧ accepts { accepting with jrn0 := slotsFull 65536 } 192 = true := by
  refine ⟨by simp [freeSlots, jrn, slotsFull, accepting, qst, State.reset], ?_⟩
  rw [accepts_jrn0]
  decide +kernel

/-- Ring 0 of PF0, enabled, with a notice that waits. -/
def ringSt (r : Ring) : State :=
  { State.reset with
    regs := [(hBase 0 + 0x50008, 0x94000001#32)], rings := [(0, r)], hostPorts := [(0, { state := 2, width := 16 })] }
def notice0 : Packet := { words := [1#64, 2#64], notice := true }

theorem wit_Gauge : ringOpen (ringSt { waiting := [notice0] }) 0 = true ∧ lineDue (ringOf (ringSt { waiting := [notice0] }) 0) = true ∧
    (ringOf (ringSt { waiting := [notice0] }) 0).sinceOvf = 0 ∧ ringOpen State.reset 0 = false ∧ lineDue (ringOf (ringSt {}) 0) = false ∧
    bit (ringCfg (ringSt {}) 0) 30 = false ∧ waitingWords {} + notice0.words.length ≤ ringQuota 0 - 2 ∧
    (waitingWords { waiting := List.replicate 14 notice0 } + notice0.words.length ≤ ringQuota 2 - 2 ∧
      ringQuota 2 - 2 < waitingWords { waiting := List.replicate 14 notice0 } + ({ words := [1, 2, 3], notice := false } : Packet).words.length) ∧
    (portUp (ringSt {}) 0 = true ∧ portUp { ringSt {} with hostPorts := [(1, { state := 2, width := 16 })] } 0 = false ∧
      portUp { ringSt {} with hostPorts := [(1, { state := 2, width := 16 })] } 1 = true) ∧
    regsUp (ringSt {}) = true ∧ (ringSt {}).resetting = none ∧ bit (ringCfg (ringSt {}) 0) 31 = true ∧ bit (ringCfg (ringSt {}) 1) 31 = false ∧
    (9 ≤ fld (0x92040001 : W32) 25 5 ∧ fld (0x92040001 : W32) 25 5 ≤ 16 ∧ fld (0x92040001 : W32) 0 8 ≠ 0 ∧ 16 ≤ fld (0x92040001 : W32) 14 11) ∧
    fld (0x92040000 : W32) 0 8 = 0 ∧ regsUp { State.reset with mode := .maintenance } = true := by decide +kernel

theorem wit_Allotments : regsUp State.reset = true ∧ State.reset.resetting = none ∧ allotCfgBad State.reset 3 0xE0000000#32 = true ∧
    allotCfgBad State.reset 3 0x80000040#32 = false ∧ bit (0x80000040 : W32) 31 = true ∧ allotEn State.reset 3 = false ∧
    mixesExpress State.reset 3 false (fun tg => bit (1 : W32) (tg % 32)) = false ∧
    mixesExpress { State.reset with regs := [(allotBase 4, 0x40000000#32), (allotBase 4 + 4, 1#32)] } 3 false (fun tg => decide (tg < 32) && bit (1 : W32) (tg % 32)) = true ∧
    (allot State.reset 3).cmd = none ∧ (allot { State.reset with allots := [(3, { cmd := some .kill })] } 3).cmd = some .kill ∧
    (allot { State.reset with allots := [(3, { cmd := some .kill })] } 3).scrubs = [] ∧ abortedPosted { State.reset with allots := [(3, { cmd := some .kill })] } 3 = true ∧
    (allot { State.reset with allots := [(3, { cmd := some .reset, scrubs := [0] })] } 3).scrubs ≠ [] := by decide +kernel

/-- The reset state in a mode, or during a reset. -/
def inMode (m : Mode) : State := { State.reset with mode := m }
def inReset (k : Nat) : State := { State.reset with resetting := some { kind := k, source := 1, goal := .ready } }

theorem wit_Registers : (0x160000 : BitVec 28).toNat % 4 = 0 ∧ regsUp State.reset = true ∧ blockAnswers State.reset 0x160000 = true ∧
    isCounterLow 0x160000 = true ∧ (isCounterLow (0x160000 + 4) = false ∧ blockAnswers State.reset (0x160000 + 4) = true) ∧ (isCounterLow 0x160004 = false ∧ isCounterLow (0x160004 - 4) = true ∧ blockAnswers State.reset 0x160004 = true) ∧
    (isCounterLow 0x2008 = false ∧ isCounterLow (0x2008 - 4) = false ∧ blockAnswers State.reset 0x2008 = true ∧ (placeOf 0x2008).1 = .glob) ∧
    (inMode .boot).mode = .boot ∧ 0x14 ≤ (0x2000 : BitVec 28).toNat ∧ (0x2001 : BitVec 28).toNat % 4 ≠ 0 ∧
    (0x1001700 : BitVec 28).toNat % 4 = 0 ∧ placeOf (0x1001700 : BitVec 28).toNat = (.terr, 0, 0x1700) ∧ (regRow 0x1001700).isSome = true ∧
    State.reset.resetting = none ∧ State.reset.ridgeFailed.contains 0 = false ∧ outOfRange 0x1001700 0x00400010#32 = false := by decide +kernel

theorem wit_InterruptsTablesAndWindow : regsUp State.reset = true ∧ bit State.reset.intPend 3 = false ∧
    bit ({ State.reset with intPend := 8 } : State).intPend 3 = true ∧ modulePort { State.reset with hostPorts := [(0, { state := 2, width := 16 })] } = some 0 ∧
    (900 ≤ fld (900 : W32) 0 12 ∧ fld (2800 : W32) 0 12 ≤ 2800 ∧ fld (900 : W32) 0 12 % 10 = 0) ∧ fld (890 : W32) 0 12 < 900 ∧ 2800 < fld (2810 : W32) 0 12 ∧
    fld (905 : W32) 0 12 % 10 ≠ 0 ∧ bit (rg State.reset 0x7000200 0) 14 = false ∧ bit (mget State.reset.rte 0 0) 31 = false ∧
    bit (mget { State.reset with rte := [(0, 0x80000000#32)] }.rte 0 0) 31 = true ∧
    holdsFor { State.reset with e2e := [(0, { held := [{ hd := 0, origin := none, pkt :=
      { port := 0, ptype := 1, vc := 0, dkind := false, skind := false, hops := 1, dest := 0, src := 0, sal := 0, eseq := 0, dlen := 0, addr := 0, tag := 0
        goff := 0, ctrl := 0, data := [], bad := [], rsv := false } }] })] } 0 = true ∧
    0 + 64 ≤ hbmCap State.reset.guarded ∧ hbmCap State.reset.guarded ≤ (BitVec.ofNat 40 (hbmCap State.reset.guarded)).toNat ∧
    ((BitVec.ofNat 40 (hbmCap State.reset.guarded - 32)).toNat ≤ hbmCap State.reset.guarded ∧
      hbmCap State.reset.guarded < (BitVec.ofNat 40 (hbmCap State.reset.guarded - 32)).toNat + 64) := by decide +kernel

/-- A journal step in flight. -/
def jst : JStep := { slots := [(5, some (slot0 .accepted 0))], eff := .accept 192 1 }

theorem wit_JournalAndRetirement : ({ State.reset with jsteps := [jst] } : State).jsteps = [jst] ∧ State.reset.hdFailed = [] ∧
    ({ State.reset with hdFailed := [1] } : State).hdFailed = [1] ∧ jst.eff = .accept 192 1 ∧ 0 < freeSlots State.reset ∧
    regsUp State.reset = true ∧ State.reset.resetting = none ∧ retiring State.reset = none ∧ (terrace State.reset 0).retired = false ∧
    retiring { State.reset with jrn0 := { ret := some { tgs := [0], trigger := 4, ridge := false, rstep := 2 } } } = some { tgs := [0], trigger := 4, ridge := false, rstep := 2 } ∧
    watched State.reset = true ∧ State.reset.ridgeFailed.contains 3 = false ∧ ({ State.reset with ridgeFailed := [3] } : State).ridgeFailed.contains 3 = true ∧
    (laneAt State.reset 4).failed = false ∧ (laneAt { State.reset with lanes := [(5, { failed := true })] } 5).failed = true ∧
    (laneAt { State.reset with lanes := [(5, { failed := true })] } 4).failed = false ∧
    ((RetRec.mk [0, 1, 2, 3] 1 true 2).rstep = 2 ∧ (∃ tg ∈ [0, 1, 2, 3], tg / 4 ∈ ({ State.reset with ridgeFailed := [0] } : State).ridgeFailed) ∧
      ({ State.reset with canalFence := [(0, 3)] } : State).canalFence ≠ []) ∧
    (({ jst with eff := .start 5 } : JStep).eff = .start 5 ∧ ∃ j ∈ [jst], ∃ e ∈ j.slots, e.1 = 5) ∧
    (State.reset.canalFence = [] ∧ 1 ∈ canalPath false 0 3 ∧ 1 ∉ canalPath false 4 7 ∧ (0, 3) ∉ State.reset.canalAlt ∧ canalWaiting State.reset 0 3 = [] ∧
      canalWaiting { State.reset with lats := [{ xfer0 with sent := true, dst := 12 }] } 0 3 ≠ []) := by decide +kernel

/-- Both host ports Up. -/
def portsUp : State := { State.reset with hostPorts := [(0, { state := 2, width := 16 }), (1, { state := 2, width := 16 })] }

theorem wit_PortsAndHeadworks : (mget State.reset.hostPorts 0 {}).state = 0 ∧ (mget portsUp.hostPorts 0 {}).state ≠ 0 ∧
    portUp (rasAppend (setHostPort portsUp 0 {}) 0x27 2 8 0 none 0) 1 = true ∧
    (portUp (rasAppend (setHostPort (setHostPort portsUp 1 {}) 0 {}) 0x27 2 8 0 none 0) 1 = false ∧ hdAlive (setHostPort portsUp 1 {}) 1 = true ∧
      (mget (setHostPort portsUp 1 {}).hostPorts 0 {}).state ≠ 0) ∧
    (allotEn (qst {}) 3 = true ∧ (allot (qst {}) 3).owner = 0) ∧ State.reset.perst.contains 0 = false ∧ State.reset.mode ≠ .off ∧ State.reset.mode ≠ .standby ∧
    (1 ∈ [1, 4, 8, 16] ∧ 2 ∉ [1, 4, 8, 16]) ∧ watched State.reset = true ∧ ({ State.reset with hdFailed := [0] } : State).hdFailed.contains 0 = true ∧ State.reset.hdFailed = [] ∧
    ({ State.reset with hdFailed := [1] } : State).hdFailed = [1] ∧ watched { State.reset with hdFailed := [1] } = true := by decide +kernel

theorem wit_FeedsAndRails : (380 ≤ 380 ∧ 620 ≤ 620) ∧ 379 < 380 ∧ State.reset.mode ≠ .off ∧ State.reset.mode ≠ .standby ∧ feedNo State.reset.feedB = 0 ∧ (feed State.reset 1).inRange = true ∧
    (feed State.reset 1).valid = true ∧ feedNo ({ State.reset with feedB := true } : State).feedB ≠ 0 ∧
    (feed { State.reset with feeds := [(1, { inRange := false, valid := false })] } 1).inRange = false ∧ (405 ≤ 405 ∧ 595 ≤ 595) ∧
    (inMode .off).mode = .off ∧ ({ State.reset with feedB := true } : State).feedB = true ∧
    (feed { State.reset with feeds := [(0, { volts := 0 }), (1, { volts := 379 })] } 0).volts < 380 ∧
    watched State.reset = true ∧ (rail State.reset 28).st < 2 ∧ 2 ≤ (rail { State.reset with rails := [(28, { st := 2 })] } 28).st ∧
    2 ≤ (rail { State.reset with rails := [(28, { missed := 2 })] } 28).missed ∧ 19 ≤ (rail { State.reset with rails := [(28, { disagree := 19 })] } 28).disagree ∧
    ((rail State.reset 28).disagree < 19 ∧ (rail { State.reset with rails := [(28, { st := 3 })] } 28).st = 3 ∧
      (rail { State.reset with rails := [(28, { st := 2 })] } 28).st = 2 ∧ 404 < 405 ∧ 380 ≤ (feed State.reset 0).volts) ∧
    ((rail State.reset 4).pwr ≤ railCeil State.reset 4 ∧
      railCeil { State.reset with rails := [(4, { pwr := 200 })] } 4 < (rail { State.reset with rails := [(4, { pwr := 200 })] } 4).pwr ∧
      1 < dutyNow State.reset 0 ∧ dutyNow (st1 (fun t => { t with duty := 1 })) 0 ≤ 1) ∧
    (rail State.reset 28).lost < (railTable 28).1 ∧ (rail State.reset 28).st ≠ 3 ∧ (4 ≤ 4 ∧ 19 < 20) ∧ (20 ≤ 21 ∧ 21 < 22) ∧ (22 ≤ 25 ∧ 25 < 26) ∧ (26 ≤ 27 ∧ 27 < 28) := by
  decide +kernel

/-- All terraces throttled as far as they go: one awake terrace at duty 1. -/
def floorSt : State :=
  { State.reset with fb := { duty := 1, op := 0 }, terraces := (List.range 64).map (fun k => (k, if k = 0 then { duty := 1 } else { pstate := .gated })) }

/-- A fast sample of a power in W, at duty 1/16. -/
def sample (w : Nat) : FastSample := { ibc := [w, 0, 0, 0], duty := 0 }

theorem wit_FreeboardLoops : watched State.reset = true ∧ watched floorSt = true ∧ (∀ k : Fin 4, (rail State.reset k.val).st < 2) ∧
    State.reset.fb.target > capInForce State.reset ∧ ({ State.reset with fb := { target := 1000 } } : State).fb.target ≤ capInForce { State.reset with fb := { target := 1000 } } ∧
    (State.reset.fb.unach = false ∧ State.reset.fb.rising = 0 ∧ 0 < ({ State.reset with fb := { rising := 5 } } : State).fb.rising ∧
      ({ State.reset with fb := { unach := true } } : State).fb.unach = true) ∧
    ((closeWindow floorSt (inputPower floorSt (sample 3000).ibc)).fb.win = some 3000 ∧ nextTarget (closeWindow floorSt 3000) 3000 < 3000 ∧
      computeFloor { closeWindow floorSt 3000 with fb := { (closeWindow floorSt 3000).fb with duty := 1 } } = true) ∧
    (computeFloor State.reset = false ∧ nextTarget (closeWindow State.reset 100) 100 ≥ 100 + 40) ∧
    (nextTarget { State.reset with fb := { target := 1500 } } 1490 < 1490 + 40 ∧ ¬ nextTarget { State.reset with fb := { target := 1500 } } 1490 < 1490) ∧
    (({ sample 0 with ahead := true } : FastSample).ahead = true ∧ capInForce State.reset < nextTarget State.reset 2000) ∧
    (capInForce State.reset ≤ capInForce State.reset ∧ capInForce State.reset < capInForce State.reset + 20) ∧ State.reset.fb.okMs < 10 ∧
    10 ≤ ({ State.reset with fb := { okMs := 10 } } : State).fb.okMs ∧ (11 * capInForce State.reset < 10 * 2900 ∨ 2900 < 2901) ∧ State.reset.hdFailed = [] := by
  decide +kernel

/-- A cap that descends, and a manager's CAPMIN that one more terrace would break. -/
def descending : Freeboard :=
  { target := 5000, perTerrace := 9000000, grant := some { epoch := 0, capmax := 2000, capmin := 1000, ramp := 10, life := 1, stale := false } }

theorem wit_HeatAndGating : (terrace (st1 (fun t => { t with slew := true })) 0).slew = true ∧ watched State.reset = true ∧
    (terrace State.reset 0).slew = false ∧ 100 ≤ terraceTj { State.reset with sensors := [(3, { tj := 100 })] } 0 ∧ terraceTj State.reset 0 < 100 ∧
    terraceStage State.reset 0 = .normal ∧ terraceStage { State.reset with sensors := [(3, { stage := .hot })] } 0 ≠ .normal ∧
    (100 ≤ (sensor { State.reset with sensors := [(448, { tj := 100, stage := .warm })] } 448).tj ∧ (sensor State.reset 448).tj < 100 ∧
      (sensor State.reset 448).stage = .normal ∧ (sensor { State.reset with sensors := [(448, { stage := .warm })] } 448).stage ≠ .normal) ∧
    3 ≠ sensorNo (.terrace 0 .i) ∧ State.reset.mode ≠ .off ∧ State.reset.mode ≠ .standby ∧ 118 ≤ 118 ∧ 117 < 118 ∧
    (110 ≤ 110 ∧ 105 < 106 ∧ 100 ≤ 105 ∧ 95 < 96 ∧ 95 ≤ 95) ∧ working State.reset = true ∧ domainState State.reset (.terrace 0) = .awake ∧
    State.reset.fb.ballast = 0 ∧ ({ State.reset with fb := { ballast := 1, rising := 1 } } : State).fb.ballast ≠ 0 ∧
    wakeHeld { State.reset with fb := { rising := 1 } } = true ∧ (laneAt (setDomain State.reset (.lane 0) .gated) 0).pstate = .gated ∧
    ridgePState (setDomain State.reset (.ridge 0) .gated) 0 = .gated ∧ (terrace (st1 (fun t => { t with pstate := .gated, retired := true })) 0).retired = true ∧
    mayGate State.reset (.terrace 0) = true ∧ mayGate (st0 {}) (.terrace 0) = false ∧
    domainState (setDomain State.reset (.terrace 0) .drain) (.terrace 0) = .drain ∧ domainBusy (setDomain State.reset (.terrace 0) .drain) (.terrace 0) = false ∧
    domainBusy { State.reset with hostReqs := [{ hd := 0, tg := some 0, allot := 3, va := 0, secs := [0] }] } (.terrace 0) = true ∧
    (wakeHeld State.reset = false ∧ wakeHeld { State.reset with fb := descending } = true) ∧
    (domainState (withSlot .running 1 (st1 (fun t => { t with pstate := .drain }))) (.terrace 0) ≠ .awake ∧
      runOfT (withSlot .running 1 (st1 (fun t => { t with pstate := .drain }))) 0 = some (5, run0) ∧ ({ run0 with started := false } : Run).started = false ∧
      slotAt (withSlot .running 1 (st1 (fun t => { t with pstate := .drain }))) 5 = some (slot0 .running 0)) ∧
    (terrace (setDomain State.reset (.terrace 0) .gated) 0).pstate = .gated ∧ (terrace (setDomain State.reset (.terrace 0) .gated) 0).retired = false := by
  decide +kernel

def cool : BootSample := { hot := 40, coolOk := true, badStacks := [], badTerraces := [] }

theorem wit_Resets : regsUp State.reset = true ∧ fld (0x100000B7 : W32) 0 8 = 0xB7 ∧ State.reset.resetting = none ∧
    (fld (0x100000B7 : W32) 28 3 = 1 ∧ fld (0x200000B7 : W32) 28 3 = 2 ∧ fld (0x300000B7 : W32) 28 3 = 3 ∧ fld (0x400000B7 : W32) 28 3 = 4) ∧
    fld (0x100000B6 : W32) 0 8 ≠ 0xB7 ∧ takesReset State.reset = true ∧ (takesReset { inMode .faulted with freason := 1 } = false ∧
      regsUp { inMode .faulted with freason := 1 } = true) ∧ State.reset.mode = .ready ∧ (inMode .draining).mode = .draining ∧ State.reset.mode ≠ .off ∧
    (mget portsUp.hostPorts 0 {}).state ≠ 0 ∧ takesReset (setHostPort { portsUp with perst := setIns portsUp.perst 0 } 0 {}) = true ∧
    ({ State.reset with perst := [0] } : State).perst.contains 0 = true ∧ hdAlive State.reset 0 = true ∧
    (List.range 1024).find? (fun a => allotVf { State.reset with regs := [(allotBase 3, 0x880E0000#32)] } a == some 7) = some 3 ∧ watched State.reset = true ∧
    (allot State.reset 3).cmd = none ∧ ((inMode .standby).mode = .standby ∧ cool.hot < 90 ∧ cool.coolOk = true) ∧
    (runnable { inReset 3 with mode := .boot } 0 true = false ∧ ({ inReset 3 with mode := .boot } : State).fw.run.getD 0 false = false) ∧
    (runnable { inReset 3 with mode := .boot, flash := [(0, { valid := true, ver := 1 }), (1, { valid := true, ver := 2 })] } 0 true = true ∧
      ({ inReset 3 with mode := .boot } : State).fw.run.length = 3) ∧ (inMode .off).mode = .off ∧
    (∀ b, runnable { inReset 3 with mode := .boot, flash := [(0, { valid := true, ver := 1 }), (1, { valid := true, ver := 2 })] } 0 b = true) ∧
    ({ kind := 3, source := 1, goal := .ready, wdog := [1] } : Reset).wdog = [1 - 0] ∧ (inReset 2).perst = [] ∧
    ({ inReset 3 with resetting := some { kind := 3, source := 1, goal := .maintenance } } : State).mode ≠ .boot ∧
    ({ inReset 2 with perst := [0] } : State).perst ≠ [] ∧ shortfall State.reset = none ∧ shortfall { inReset 3 with mode := .boot, fuses := [] } = some 0x100 ∧
    scansLeft (inReset 1) = false ∧
    scansLeft { inReset 1 with saddles := [(0, { cisScan := [3] })] } = true ∧ ({ kind := 1, source := 1, goal := .ready, scan := true } : Reset).scan = true := by
  decide +kernel

theorem wit_WarmResetKeeps : (st0 {}).resetting = none ∧ (st0 {}).jsteps = [] ∧ State.reset.runs = [] ∧
    (st0 {}).runs.filter (fun e => e.2.stopped && !e.2.parked && faulted (st0 {}) e.1) = [] := by decide +kernel

theorem wit_Exmas : (State.reset.mode ≠ .off ∧ recovery State.reset = false ∧ State.reset.resetting = none) ∧ (inMode .off).mode = .off ∧
    ((inMode .standby).mode = .standby ∧ bootAllowed (inMode .standby) cool = true) ∧ recovery (inMode .maintenance) = false ∧
    (inMode .draining).mode = .draining ∧ (jrn (inMode .draining)).qtab.all (fun e => e.2.acc == e.2.seq) = true ∧
    operatorMaint { inMode .maintenance with regs := [(0x170008, 0x05000000#32)] } = true ∧ takesReset State.reset = true ∧
    ((inMode .maintenance).diag = none ∧ 63 < 64) ∧ State.reset.mode ≠ .standby ∧ State.reset.mode ≠ .boot ∧ alwaysOnOnly State.reset = false ∧
    ((0x2001 : BitVec 28).toNat % 4 ≠ 0 ∧ (regRow (0x1100 : BitVec 28).toNat).isNone = true ∧ (0x1100 : BitVec 28).toNat % 4 = 0 ∧
      (regRow (0x2000 : BitVec 28).toNat).isSome = true ∧ (inReset 1).resetting ≠ none) ∧
    (900 ≤ fld (900 : W32) 0 12 ∧ fld (900 : W32) 0 12 ≤ 2800 ∧ fld (900 : W32) 0 12 % 10 = 0 ∧ fld (890 : W32) 0 12 < 900) ∧
    (0x2000 : BitVec 28).toNat % 4 = 0 ∧ exmasPlain (0x2000 : BitVec 28).toNat = false ∧ exmasPlain (0x150020 : BitVec 28).toNat = true ∧ State.reset.evq = [] ∧
    ({ State.reset with evq := [{ words := [1], dropped := 0 }] } : State).evq = { words := [1], dropped := 0 } :: [] ∧ configBad {} = false ∧
    configBad { bootCap := some 2800 } = false ∧ ({ inMode .maintenance with diag := some 5 } : State).diag = some 5 ∧
    ({ pass := true, failed := [] } : DiagResult).pass = true ∧ ({ pass := false, failed := [1] } : DiagResult).pass = false ∧
    (terrace (inMode .maintenance) 5).recorded = false := by decide +kernel

theorem wit_ManagementAndSpdm : State.reset.mode ≠ .off ∧ recovery State.reset = false ∧ alwaysOnOnly State.reset = false ∧
    (([0, 0, 1, 0, 8] : List Byte).getD 2 0 = 1 ∧ (([0, 0, 1, 0, 8] : List Byte).getD 3 0).toNat % 4 < 2 ∧ 8 ≤ (([0, 0, 1, 0, 8] : List Byte).getD 4 0).toNat ∧
      (([0, 0, 1, 0, 254] : List Byte).getD 4 0).toNat < 255) ∧ ([0, 0, 2] : List Byte).getD 2 0 = 2 ∧ State.reset.update = none ∧
    updateStates State.reset 2 = true ∧ State.reset.resetting = none ∧ 63 ≤ 63 ∧
    ({ State.reset with update := some { comp := 1, ver := 7, svn := 0, verified := false } } : State).update = some { comp := 1, ver := 7, svn := 0, verified := false } ∧
    State.reset.fw.svnMin.getD 1 0 ≤ 0 ∧ State.reset.mode ≠ .standby ∧ (7 % 4 = 3 ∧ 1 % 4 ≠ 3) ∧ (1 ≤ 6 ∧ 6 < 7) := by decide +kernel

/-- A packet from module 5 to module 1, and this module as module 1 with port 0 Up. -/
def pkt0 (ptype vc : Nat) : SkvPacket :=
  { port := 0, ptype, vc, dkind := false, skind := false, hops := 4, dest := 1, src := 5, sal := 0, eseq := 0, dlen := 32, addr := 0, tag := 0, goff := 0
    ctrl := 0, data := [], bad := [], rsv := false }
def skvSt : State := { State.reset with regs := [(0x7000000, 0x80000001#32)], skv := [(0, { state := 2, lanes := 0xFF, partner := 5 })] }

theorem wit_FlitsRoundTrip : (Flit.mk 7 9 2 3 [1, 2, 3, 1023] true).ok = true ∧ (Flit.mk 7 9 2 3 [1, 2, 3, 1023] true).ftype < 16 ∧
    (Flit.mk 7 9 2 3 [1, 2, 3, 1023] true).cred.length = 4 ∧ ∀ c ∈ (Flit.mk 7 9 2 3 [1, 2, 3, 1023] true).cred, c < 1024 := by decide +kernel

/-- Port 0 Up, with a replay asked for and a flit to be acknowledged. -/
def askedSt : State := { skvSt with skv := [(0, { state := 2, asked := true, retry := [(0, pkt0 1 0, 0)] })] }

theorem wit_SkovukLinks : skvIdValid skvSt = true ∧ skvIdValid State.reset = false ∧ (1 : BitVec 14).toNat = skvId skvSt ∧ (5 : BitVec 14).toNat ≠ skvId skvSt ∧
    laneCount (0x07#8 &&& ~~~(skvPort skvSt 0).removed) < 4 ∧ 4 ≤ laneCount (0x0F#8 &&& ~~~(skvPort skvSt 0).removed) ∧ (skvPort skvSt 0).retry = [] ∧
    (skvPort askedSt 0).retry = (0, pkt0 1 0, 0) :: [] ∧ skvUp skvSt 0 = true ∧ (skvPort skvSt 0).state ≠ 0 ∧ (skvPort State.reset 0).state = 0 ∧
    bit (skvPort skvSt 0).lanes 7 = true ∧ 4 ≤ laneCount (setFld (0xFF#8) 7 1 0) ∧ laneCount (setFld (0x0F#8) 0 1 0) < 4 ∧
    ((0 : BitVec 16) - (skvPort skvSt 0).rxNext).toNat = 0 ∧ (0 < ((1 : BitVec 16) - (skvPort skvSt 0).rxNext).toNat ∧ ((1 : BitVec 16) - (skvPort skvSt 0).rxNext).toNat < 2 ^ 15) ∧
    2 ^ 15 ≤ ((0xFFFF : BitVec 16) - (skvPort skvSt 0).rxNext).toNat ∧ (skvPort skvSt 0).waitQ = [] ∧ (skvPort askedSt 0).asked = true := by decide +kernel

/-- An entry that lets module 5 read, write and contribute over 1 MiB from 0 for allotment 3. -/
def winSt : State := { skvSt with win := [(0, { base := 0xF0000000#32, len := 0x10#32, src := 0x4005#32, sal := 0#32 })] }

/-- A request to module 5. -/
def req1 (wr : Bool) : SkvReq := { dest := 5, eseq := 0, wr, va := 0, addr := peerBase, len := 32, allot := 3, src := 0, slot := some 5, tg := some 0 }

theorem wit_PacketDelivery : skvUp skvSt 0 = true ∧ skvMalformed { pkt0 1 0 with rsv := true } = true ∧
    (∀ e ∈ ([(1, 0), (2, 0), (3, 1), (4, 1), (6, 2), (7, 3), (9, 3)] : List (Nat × Nat)), skvMalformed (pkt0 e.1 e.2) = false) ∧
    forUs skvSt (pkt0 1 0) = true ∧ forUs skvSt { pkt0 1 0 with dest := 6 } = false ∧ (pkt0 1 0).eseq = (e2eOf skvSt (pktSrc (pkt0 1 0)) 0).expect ∧
    ({ pkt0 1 0 with eseq := 1 } : SkvPacket).eseq ≠ (e2eOf skvSt (pktSrc (pkt0 1 0)) 0).expect ∧
    2 ^ 31 ≤ (({ pkt0 1 0 with eseq := 0xFFFFFFFF } : SkvPacket).eseq - (e2eOf skvSt (pktSrc (pkt0 1 0)) 0).expect).toNat ∧
    (pkt0 2 0).ptype ≠ 1 ∧ winOwner skvSt (pkt0 1 0) 1 [(0, 32)] = none ∧ winOwner winSt (pkt0 1 0) 1 [(0, 32)] = some 0 ∧
    winOwner winSt { pkt0 2 0 with data := [1] } 2 [(0, 1)] = some 0 ∧ winOwner winSt { pkt0 6 2 with data := [1] } 6 [(0, 1), (64, 64)] = some 0 ∧
    mustWait winSt (peerPath winSt 0) 0 32 false = false ∧
    mustWait { winSt with regs := (sBase 0 + 0x70000, 0x80100010#32) :: winSt.regs, saddles := [(0, { ptok := [(0, 0)] })] } (peerPath winSt 0) 0 32 false = true ∧
    SadWait.peer 0 (pkt0 1 0) ∈ (saddle { winSt with saddles := [(0, { waits := [.peer 0 (pkt0 1 0)] })] } 0).waits ∧
    (takeReq { skvSt with skvReqs := [req1 false] } (pkt0 3 1) false = some (req1 false, []) ∧ takeReq { skvSt with skvReqs := [req1 true] } (pkt0 4 1) true = some (req1 true, []) ∧
      takeReq skvSt (pkt0 3 1) false = none ∧ bit (pkt0 3 1).addr 32 = false ∧ bit ({ pkt0 3 1 with addr := 2 ^ 32 } : SkvPacket).addr 32 = true) ∧ grantOk skvSt { pkt0 7 3 with skind := true } (grantOf { pkt0 7 3 with skind := true }) = false := by
  decide +kernel

theorem wit_SkovukSources : (∀ c, c < 4 → (e2eOf skvSt 7 c).held = []) ∧
    (∃ c, c < 4 ∧ (e2eOf { skvSt with e2e := [(7 * 4 + 2, { held := [{ hd := 0, origin := none, pkt := pkt0 6 2 }] })] } 7 c).held ≠ []) ∧
    skvUp skvSt 0 = true ∧ skvMalformed (pkt0 1 0) = false ∧ forUs skvSt { pkt0 1 0 with dest := 6 } = false ∧ 2 ≤ ({ pkt0 1 0 with hops := 2 } : SkvPacket).hops ∧
    ({ pkt0 1 0 with hops := 1 } : SkvPacket).hops < 2 ∧ watched skvSt = true ∧ skvIdValid skvSt = true ∧
    ({ State.reset with fb := { grant := some { epoch := 0, capmax := 2000, capmin := 1000, ramp := 10, life := 1, stale := false } } } : State).fb.grant =
      some { epoch := 0, capmax := 2000, capmin := 1000, ramp := 10, life := 1, stale := false } := by decide +kernel

theorem wit_ExpandersAndTestPort : serving (inMode .boot) = false ∧ (4 ∈ [4, 8, 16] ∧ ({ width := 4, rate := 1, cap := 1 } : Expander).kind = 3) ∧
    serving State.reset = true ∧ hdAlive State.reset 0 = true ∧ hdAlive State.reset 1 = true ∧ hdAlive { State.reset with hdFailed := [0] } 0 = false ∧ (1 ≤ 1 ∧ 2048 ≤ 2048 ∧ 1 ≤ 1 ∧ 16 ≤ 16) ∧
    (inMode .maintenance).mode = .maintenance ∧ State.reset.mode ≠ .maintenance ∧ State.reset.mode ≠ .off := by decide +kernel

/-! ## The Canal, Turnout and the wire -/

/-- The row of RD0 first, then the column of RD15 (R22). -/
theorem test_canal_row_first : canalPath false 0 15 = [0, 1, 2, 3, 7, 11, 15] ∧ canalPath true 0 15 = [0, 4, 8, 12, 13, 14, 15] := by decide

/-- Steps 1 to 3 of Table 12-9: a Bulk grant of 20 beats is revoked for an Express request, its progress kept and its wait 1. -/
theorem test_turnout_revocation :
    let a : Arb := { holder := some 3, moved := 20, reqs := [(3, .one 3 44 false), (5, .one 1 8 false)] }
    let b := (arbGrant (TurnCfg.ofWord turnReset) a).1
    b.holder = some 5 ∧ mget b.progress 3 0 = 20 ∧ mget b.waits 3 0 = 1 := by decide +kernel

/-- The check value of CRC-32C over the digits 1 to 9. -/
theorem test_crc32c : crc32c ((List.range 9).map (fun k => BitVec.ofNat 8 (0x31 + k))) = 0xE3069283#32 := by decide +kernel

end Sys2Proof.Tests
end

section
/-! PROOFS. The programming model (chapter 04): predicates (R80, R86) and lateral queues (R101, R116, R117). -/

namespace Sys2Proof.Machine

open Sys2Proof

/-! ## Predicates -/

/-- An instruction that its predicate turns off leaves its thread past its words, whatever its operands are (R86). -/
theorem issue_predicateOff {row : OpRow} {i : Issue} {s : State} {body : Ctx → State → Option State} (hf : Fetched i s)
    (hl : legalOp i.w0 = true) (hr : row.has i.w0 = true) (ht : takesEffect (ctxOf i s).t i.w0 = false) :
    issue row i s body = .next (past i s) := by
  obtain ⟨hready, hfetch⟩ := hf
  unfold ctxOf at hready hfetch ht
  simp_all [issue, past, held, ctxOf]

theorem bit_eq_getLsbD {n : Nat} (w : BitVec n) (k : Nat) : bit w k = w.getLsbD k := by
  rw [bit, BitVec.getLsbD, Nat.testBit_eq_decide_div_mod_eq]; rfl

/-- Writing a field of one bit sets that bit and no other. -/
theorem bit_setFld_one {m : Nat} (w : BitVec m) (n k : Nat) (v : Bool) (hn : n < m) (hk : k < m) :
    bit (setFld w n 1 (if v then 1 else 0)) k = if k = n then v else bit w k := by
  have hmask : (2 ^ n).testBit k = decide (k = n) := by rw [Nat.testBit_two_pow, decide_eq_decide, eq_comm]
  simp only [bit_eq_getLsbD, setFld, BitVec.getLsbD_or, BitVec.getLsbD_and, BitVec.getLsbD_not, BitVec.getLsbD_ofNat]
  by_cases h : k = n <;> cases v <;> simp [hk, hn, hmask, h]

theorem Thread.setP_zero (t : Thread) (v : Bool) : t.setP 0 v = t := by simp [Thread.setP]

/-- A predicate other than p0 holds what was written, and the others keep their values (R80). -/
theorem Thread.preg_setP (t : Thread) (n k : Nat) (v : Bool) (hn : 0 < n) (hn' : n < 8) (hk : k < 8) :
    (t.setP n v).preg k = if k = n then v else t.preg k := by
  have hp : t.setP n v = { t with p := setFld t.p n 1 (if v then 1 else 0) } := if_neg (by omega)
  rw [hp]
  simp only [Thread.preg, bit_setFld_one t.p n k v hn' hk]
  split
  · next h => simp [show k ≠ 0 by omega]
  · rfl

/-- Settles O6: an instruction turned off ends as past its words, and a predicate is one bit of its own. -/
theorem predicates : Obligations.Predicates := by
  unfold Obligations.Predicates
  refine ⟨fun c i row s hc hf hl hr hoff => ?_, fun t v => ⟨t.preg_zero, t.setP_zero v, fun n k hn hn' hk => t.preg_setP n k v hn hn' hk⟩⟩
  obtain ⟨body, hbody⟩ := exec_row c i row hc
  exact ⟨past i s, by rw [hbody, issue_predicateOff hf hl hr hoff], onlyThread_past i s, thread_past i s⟩

/-! ## The queues of a terrace -/

@[simp] theorem lqOf_setHandle (t : Terrace) (h : BitVec 16) (x : Option HState) (k : Nat) : lqOf (setHandle t h x) k = lqOf t k := rfl

@[simp] theorem lqOf_setLq_same (t : Terrace) (q : Nat) (x : LQueue) : lqOf (setLq t q x) q = x := mget_mset_same _ _ _ _

theorem lqOf_setLq_other (t : Terrace) (q k : Nat) (x : LQueue) (h : k ≠ q) : lqOf (setLq t q x) k = lqOf t k :=
  mget_mset_other _ _ _ _ _ h

theorem handleState_setHandle_same (t : Terrace) (h : BitVec 16) (x : HState) : handleState (setHandle t h (some x)) h = some x := by
  simpa using handleState_setHandle t h.toNat x

theorem pushQ_entries (t : Terrace) (q : Nat) (h : BitVec 16) : (lqOf (pushQ t q h) q).entries = (lqOf t q).entries ++ [h] := by
  simp [pushQ]

theorem pushQ_other (t : Terrace) (q k : Nat) (h : BitVec 16) (hk : k ≠ q) : lqOf (pushQ t q h) k = lqOf t k :=
  lqOf_setLq_other _ _ _ _ hk

theorem popQ_none_iff (t : Terrace) (q : Nat) : popQ t q = none ↔ (lqOf t q).entries = [] := by
  simp only [popQ]; split <;> simp_all

/-- What a pop takes and what it leaves: the oldest entry, now Held, and the rest of its queue. -/
theorem popQ_some {t t' : Terrace} {q : Nat} {v : BitVec 16} (h : popQ t q = some (v, t')) :
    ∃ r b, (lqOf t q).entries = v :: r ∧ t' = setHandle (setLq t q { lqOf t q with entries := r, back := b }) v (some .held) := by
  simp only [popQ] at h
  split at h
  · cases h
  · next he => cases h; exact ⟨_, _, he, rfl⟩

theorem pushQ_popQ_fifo (t : Terrace) (q : Nat) (h : BitVec 16) :
    (lqOf (pushQ t q h) q).entries = (lqOf t q).entries ++ [h] ∧ handleState (pushQ t q h) h = some .queued ∧
    (∀ k, k ≠ q → lqOf (pushQ t q h) k = lqOf t k) ∧
    (popQ t q = none ↔ (lqOf t q).entries = []) ∧
    ∀ v t', popQ t q = some (v, t') → (lqOf t q).entries = v :: (lqOf t' q).entries ∧ handleState t' v = some .held ∧
      ∀ k, k ≠ q → lqOf t' k = lqOf t k := by
  refine ⟨pushQ_entries t q h, handleState_setHandle_same _ h _, fun k hk => pushQ_other t q k h hk, popQ_none_iff t q, fun v t' hpop => ?_⟩
  obtain ⟨r, b, he, rfl⟩ := popQ_some hpop
  exact ⟨by simp [he], handleState_setHandle_same _ v _, fun k hk => lqOf_setLq_other _ _ _ _ hk⟩

/-! ## LAT.PUSH and LAT.POP at issue -/

/-- A strict, checked instruction that issues, with its unused fields 0 and no fault of its checks, has its body's effect. -/
theorem issue_strict_checked {row : OpRow} {i : Issue} {s t : State} {l : List (Nat × Nat)} {f : Ctx → State → Option Nat}
    {k : Ctx → State → Option State} (h : Issues row i s) (hz : zeroFields i.w0 l = true) (hf : f (ctxOf i s) (past i s) = none)
    (hk : k (ctxOf i s) (past i s) = some t) : issue row i s (strict l (checked f k)) = .next t :=
  issue_some h (by rw [strict_zero hz, checked_ok hf, hk])

/-- The same when its body answers nothing: it is passed over, its words fetched. -/
theorem issue_strict_checked_none {row : OpRow} {i : Issue} {s : State} {l : List (Nat × Nat)} {f : Ctx → State → Option Nat}
    {k : Ctx → State → Option State} (h : Issues row i s) (hz : zeroFields i.w0 l = true) (hf : f (ctxOf i s) (past i s) = none)
    (hk : k (ctxOf i s) (past i s) = none) : issue row i s (strict l (checked f k)) = .next (held i s) :=
  issue_none h (by rw [strict_zero hz, checked_ok hf, hk])

theorem zeroFields_low {w : W64} {n : Nat} (h : fld w 0 n = 0) : zeroFields w [(0, n)] = true := by simp [zeroFields, h]

/-- The Intake's pushes need a credit of the crossing to the consumer, unless the Intake is the consumer (R116). -/
theorem pushCredit_iff {t : Terrace} {q : Nat} (h : produces t 0 q = true) :
    pushCredit t q = true ↔ (lqOf t q).cons = 0 ∨ (cmdsOf t (lqOf t q).cons).length < 12 := by
  simp only [produces, Bool.and_eq_true, beq_iff_eq] at h
  simp only [pushCredit, hasCredit, crossing, h.2, Bool.or_eq_true, beq_iff_eq, decide_eq_true_eq, if_true]
  omega

/-- A push is made at once when a space token is left and no push to the queue waits (R116, R117). -/
theorem pushRoom_iff (t : Terrace) (q : Nat) : (lqRoom t q && (pushWaiters t q).isEmpty) = true ↔
    (lqOf t q).entries.length + (lqOf t q).back < 32 ∧ pushWaiters t q = [] := by
  rw [Bool.and_eq_true, List.isEmpty_iff, lqRoom, decide_eq_true_iff]
  exact and_congr_left' (by simp only [tokensOf]; omega)

section Bodies
variable {c : Ctx} {s : State}

theorem pushFault_none (hok : handleOk (terrace s c.tg) (c.t.hreg (latH c.w0)) = true) (hp : produces (terrace s c.tg) 0 (latQ c.w0) = true) :
    pushFault c s = none := by simp [pushFault, hok, hp]

theorem popFault_none (h : consumes (terrace s c.tg) 0 (latQ c.w0) = true) : popFault c s = none := by simp [popFault, h]

theorem pushBody_noCredit (nb : Bool) (hc : ¬ pushCredit (terrace s c.tg) (latQ c.w0) = true) : pushBody nb c s = none := by
  simp [pushBody, hc]

theorem pushBody_room (hc : pushCredit (terrace s c.tg) (latQ c.w0) = true)
    (hr : (lqRoom (terrace s c.tg) (latQ c.w0) && (pushWaiters (terrace s c.tg) (latQ c.w0)).isEmpty) = true) :
    pushBody false c s = some (pushBy s c.tg c.thr (latH c.w0) (latQ c.w0) (c.t.hreg (latH c.w0))) := by
  simp only [pushBody, hc, hr]; rfl

theorem pushBody_nb_room (hc : pushCredit (terrace s c.tg) (latQ c.w0) = true)
    (hr : (lqRoom (terrace s c.tg) (latQ c.w0) && (pushWaiters (terrace s c.tg) (latQ c.w0)).isEmpty) = true) :
    pushBody true c s = some (onThread c (pushBy s c.tg c.thr (latH c.w0) (latQ c.w0) (c.t.hreg (latH c.w0)))
      (fun t => t.setP (latPd c.w0) true)) := by
  simp only [pushBody, hc, hr]; rfl

/-- A push that must wait Blocks its thread behind the pushes that wait already: it takes the next issue number (R117). -/
theorem pushBody_noRoom (hc : pushCredit (terrace s c.tg) (latQ c.w0) = true)
    (hr : ¬ (lqRoom (terrace s c.tg) (latQ c.w0) && (pushWaiters (terrace s c.tg) (latQ c.w0)).isEmpty) = true) :
    pushBody false c s = some (onThread c (updTerrace s c.tg (fun t => { t with seqno := t.seqno + 1 })) (fun x =>
      { x with st := .blocked (.push (latH c.w0) (latQ c.w0) (c.t.hreg (latH c.w0)) (terrace s c.tg).seqno) })) := by
  simp only [pushBody, hc, if_neg hr]; rfl

theorem pushBody_nb_noRoom (hc : pushCredit (terrace s c.tg) (latQ c.w0) = true)
    (hr : ¬ (lqRoom (terrace s c.tg) (latQ c.w0) && (pushWaiters (terrace s c.tg) (latQ c.w0)).isEmpty) = true) :
    pushBody true c s = some (onThread c s (fun t => t.setP (latPd c.w0) false)) := by
  simp only [pushBody, hc, if_neg hr]; rfl

theorem popBody_some {x : BitVec 16} {t' : Terrace} (h : popQ (terrace s c.tg) (latQ c.w0) = some (x, t')) :
    popBody false c s = some (updThread (setTerrace s c.tg t') c.tg c.thr (fun t => t.setH (latH c.w0) x)) := by
  obtain ⟨r, b, he, -⟩ := popQ_some h
  simp [popBody, popBy, h, he]

theorem popBody_nb_some {x : BitVec 16} {t' : Terrace} (h : popQ (terrace s c.tg) (latQ c.w0) = some (x, t')) :
    popBody true c s = some (onThread c (updThread (setTerrace s c.tg t') c.tg c.thr (fun t => t.setH (latH c.w0) x))
      (fun t => t.setP (latPd c.w0) true)) := by
  obtain ⟨r, b, he, -⟩ := popQ_some h
  simp [popBody, popBy, h, he]

theorem popBody_empty (h : popQ (terrace s c.tg) (latQ c.w0) = none) :
    popBody false c s = some (onThread c (boundMiss s c.tg (latQ c.w0)) (fun t => { t with st := .blocked (.pop (latH c.w0) (latQ c.w0)) })) := by
  simp [popBody, (popQ_none_iff _ _).mp h]

theorem popBody_nb_empty (h : popQ (terrace s c.tg) (latQ c.w0) = none) :
    popBody true c s = some (onThread c (boundMiss s c.tg (latQ c.w0)) (fun t => (t.setH (latH c.w0) idleHandle).setP (latPd c.w0) false)) := by
  simp [popBody, (popQ_none_iff _ _).mp h]

end Bodies

/-- Settles O21: the queues by their operations, then each form of LAT.PUSH and LAT.POP as the issue of its body. -/
theorem lateralQueues : Obligations.LateralQueues := by
  unfold Obligations.LateralQueues
  refine ⟨pushQ_popQ_fifo, fun i s => ⟨fun hok hprod => ?pushes, fun hcons => ?pops⟩⟩
  case pushes =>
    have hcredit := pushCredit_iff hprod
    have hroom := pushRoom_iff (terrace (past i s) i.tg.val) (fld i.w0 40 4)
    have hfault : pushFault (ctxOf i s) (past i s) = none := pushFault_none hok hprod
    refine ⟨fun hi hz => ⟨fun hc => ?_, fun hc hr => ?_, fun hc hr => ?_⟩, fun hi hz => ⟨fun hc => ?_, fun hc hr => ?_, fun hc hr => ?_⟩⟩
    · exact issue_strict_checked_none hi (zeroFields_low hz) hfault (pushBody_noCredit false (mt hcredit.mp hc))
    · exact issue_strict_checked hi (zeroFields_low hz) hfault (pushBody_room (hcredit.mpr hc) (hroom.mpr hr))
    · exact issue_strict_checked hi (zeroFields_low hz) hfault (pushBody_noRoom (hcredit.mpr hc) (mt hroom.mp hr))
    · exact issue_strict_checked_none hi (zeroFields_low hz) hfault (pushBody_noCredit true (mt hcredit.mp hc))
    · exact issue_strict_checked hi (zeroFields_low hz) hfault (pushBody_nb_room (hcredit.mpr hc) (hroom.mpr hr))
    · exact issue_strict_checked hi (zeroFields_low hz) hfault (pushBody_nb_noRoom (hcredit.mpr hc) (mt hroom.mp hr))
  case pops =>
    have hfault : popFault (ctxOf i s) (past i s) = none := popFault_none hcons
    refine ⟨fun hi hz => ⟨fun x t' hx => ?_, fun hx => ?_⟩, fun hi hz => ⟨fun x t' hx => ?_, fun hx => ?_⟩⟩
    · exact issue_strict_checked hi (zeroFields_low hz) hfault (popBody_some hx)
    · exact issue_strict_checked hi (zeroFields_low hz) hfault (popBody_empty hx)
    · exact issue_strict_checked hi (zeroFields_low hz) hfault (popBody_nb_some hx)
    · exact issue_strict_checked hi (zeroFields_low hz) hfault (popBody_nb_empty hx)

end Sys2Proof.Machine
end

section
/-! PROOFS. The reach queues of the Confluence engine (chapter 07): CFL.RQ.CUT, CFL.RQ.TAKE, and how a take is served (R176, R180 to R182, R347, R370). -/

namespace Sys2Proof.Machine

open Sys2Proof

/-! ## The two instructions at issue -/

/-- The run that a terrace serves is the entry of its slot. -/
theorem mget?_runs_of_runOfT {s : State} {tg k : Nat} {r : Run} (h : runOfT s tg = some (k, r)) : mget? s.runs k = some r := by
  simp only [runOfT] at h
  split at h
  · next n _ =>
    obtain ⟨r', hr', heq⟩ := Option.map_eq_some_iff.mp h
    cases heq
    exact hr'
  · cases h

theorem updRun_of_some {s : State} {k : Nat} {r : Run} (h : mget? s.runs k = some r) (f : Run → Run) :
    updRun s k f = { s with runs := mset s.runs k (f r) } := by simp only [updRun, h]

section Cut
variable {c : Ctx} {s : State} {k : Nat} {r : Run}

theorem cutBody_exhausted (hr : runOfT s c.tg = some (k, r)) (he : jobExhausted s r = true) :
    cutBody c s = some (startCut s k c.tg c.thr c.pc (c.t.dreg (fld c.w0 44 4)) (srcA c)) := by
  simp only [cutBody, hr, he, if_true]

theorem cutBody_unexhausted (hr : runOfT s c.tg = some (k, r)) (he : jobExhausted s r = false) :
    cutBody c s = some (onThread c s (fun t => { t with st := .blocked (.cut (c.t.dreg (fld c.w0 44 4)) (srcA c) c.pc) })) := by
  simp only [cutBody, hr, he, Bool.false_eq_true, if_false]

end Cut

theorem takeFault_none {c : Ctx} {s : State} (h : fld c.w0 38 5 % 4 = 0) : takeFault c s = none := by simp [takeFault, h]

/-! ## The queue a take asks for (R181, R182) -/

section Order
variable {s : State} {r : Run} {tg v : Nat} {lost : List Nat}

theorem rankTg_mem {k : Nat} (h : k < r.tgs.length) : rankTg r k ∈ r.tgs := by
  simp [rankTg, h]

/-- A thief tries ranks of its span only. -/
theorem lt_of_mem_stealOrder {rank k : Nat} (h : k ∈ stealOrder r rank) : k < r.tgs.length := by
  have hk : k ∈ (List.range (r.tgs.length - 1)).map (fun i => (rank + 1 + i) % r.tgs.length) := by
    rcases List.mem_append.mp h with h | h <;> exact List.mem_of_mem_filter h
  obtain ⟨i, hi, rfl⟩ := List.mem_map.mp hk
  exact Nat.mod_lt _ (by have := List.mem_range.mp hi; omega)

/-- A take tries its home queue, and unless assignment is deterministic the queues of its span that are open to thieves. -/
theorem mem_takeOrder (h : v ∈ takeOrder s r tg) : v = tg ∨ (r.det = false ∧ v ∈ r.tgs ∧ (terrace s v).reachClosed = false) := by
  rcases List.mem_cons.mp h with h | h
  · exact .inl h
  · cases hd : r.det with
    | true => simp [hd] at h
    | false =>
      simp only [hd, Bool.false_eq_true, if_false, List.mem_filter, List.mem_map, Bool.not_eq_true'] at h
      obtain ⟨⟨k, hk, rfl⟩, hopen⟩ := h
      exact .inr ⟨rfl, rankTg_mem (lt_of_mem_stealOrder hk), hopen⟩

/-- The test of a queue in a take's scan: it holds a reach, and the take has not lost there. -/
theorem scan_test_iff : (!(terrace s v).reachQ.isEmpty && !(lost.contains v)) = true ↔ (terrace s v).reachQ ≠ [] ∧ v ∉ lost := by
  simp

theorem takeAt_eq_none_iff : takeAt s r tg lost = none ↔ ∀ v ∈ takeOrder s r tg, ¬ ((terrace s v).reachQ ≠ [] ∧ v ∉ lost) := by
  simp only [takeAt, List.find?_eq_none, scan_test_iff]

theorem takeAt_some (h : takeAt s r tg lost = some v) : v ∈ takeOrder s r tg ∧ (terrace s v).reachQ ≠ [] ∧ v ∉ lost :=
  ⟨List.mem_of_find?_eq_some h, scan_test_iff.mp (List.find?_some (p := fun v => !(terrace s v).reachQ.isEmpty && !(lost.contains v)) h)⟩

/-- The home queue comes first. -/
theorem takeAt_home (h : (terrace s tg).reachQ ≠ [] ∧ tg ∉ lost) : takeAt s r tg lost = some tg :=
  List.find?_cons_of_pos (scan_test_iff.mpr h)

end Order

/-! ## The code of a take that finds no reach (R180) -/

theorem cutterDone_iff {r : Run} : cutterDone r = true ↔ r.cut = none ∨ ∃ j, r.cut = some j ∧ j.done = true := by
  unfold cutterDone
  cases r.cut <;> simp

theorem takeExhausted_iff {s : State} {r : Run} {tg : Nat} (hm : tg ∈ r.tgs) : takeExhausted s r tg = true ↔
    (r.cut = none ∨ ∃ j, r.cut = some j ∧ j.done = true) ∧ (terrace s tg).reachQ = [] ∧
      (r.det = true ∨ ∀ x ∈ r.tgs, (terrace s x).reachQ = []) := by
  rw [← cutterDone_iff]
  cases hd : r.det with
  | true => simp [takeExhausted, hd]
  | false =>
    simp only [takeExhausted, hd, jobExhausted, queuesEmpty, Bool.false_eq_true, if_false, Bool.and_eq_true, List.all_eq_true,
      List.isEmpty_iff, false_or]
    exact and_congr_right' ⟨fun h => ⟨h tg hm, h⟩, fun h => h.2⟩

theorem takeExhausted_false {s : State} {r : Run} {tg : Nat} (hm : tg ∈ r.tgs)
    (h : ¬ (r.cut = none ∨ ∃ j, r.cut = some j ∧ j.done = true) ∨ (terrace s tg).reachQ ≠ [] ∨
      (r.det = false ∧ ∃ x ∈ r.tgs, (terrace s x).reachQ ≠ [])) : takeExhausted s r tg = false := by
  rw [Bool.eq_false_iff, ne_eq, takeExhausted_iff hm]
  rintro ⟨hended, hempty, hall⟩
  rcases h with h | h | ⟨hdet, x, hx, hne⟩
  · exact h hended
  · exact h hempty
  · exact hne (hall.resolve_left (by simp [hdet]) x hx)

/-! ## Takes that lose (R181) -/

/-- A thread whose take has lost at queue v: its scan goes on at the next queue. -/
def scanPast (v : Nat) (th : Thread) : Thread :=
  match th.st with
  | .blocked (.take sn pd lost) => { th with st := .blocked (.take sn pd (v :: lost)) }
  | _ => th

/-- The wait counter of thief tg at queue v goes up; an owner has none. -/
def countWait (s : State) (v tg : Nat) : State :=
  if tg = v then s else updTerrace s v (fun t => { t with rqWait := mset t.rqWait tg (mget t.rqWait tg 0 + 1) })

theorem loseTake_eq (s : State) (r : Run) (v tg : Nat) : loseTake s r v tg =
    ((List.range 16).filter (contends (countWait s v tg) r v tg)).foldl (fun s k => updThread s tg k (scanPast v)) (countWait s v tg) := rfl

/-- A thread's change changes nothing of a terrace but its threads. -/
theorem terrace_updThread (s : State) (n k x : Nat) (f : Thread → Thread) :
    ∃ th, terrace (updThread s n k f) x = { terrace s x with threads := th } := by
  by_cases h : x = n
  · subst h; exact ⟨_, terrace_updTerrace_same _ _ _⟩
  · exact ⟨_, terrace_updTerrace_other _ _ _ _ h⟩

/-- A counted wait changes nothing of a terrace but its wait counters. -/
theorem terrace_countWait (s : State) (v tg x : Nat) : ∃ w, terrace (countWait s v tg) x = { terrace s x with rqWait := w } := by
  unfold countWait
  split
  · exact ⟨_, rfl⟩
  · by_cases h : x = v
    · subst h; exact ⟨_, terrace_updTerrace_same _ _ _⟩
    · exact ⟨_, terrace_updTerrace_other _ _ _ _ h⟩

theorem reachQ_updThread (s : State) (n k x : Nat) (f : Thread → Thread) : (terrace (updThread s n k f) x).reachQ = (terrace s x).reachQ := by
  obtain ⟨th, h⟩ := terrace_updThread s n k x f; rw [h]

theorem rqWait_updThread (s : State) (n k x : Nat) (f : Thread → Thread) : (terrace (updThread s n k f) x).rqWait = (terrace s x).rqWait := by
  obtain ⟨th, h⟩ := terrace_updThread s n k x f; rw [h]

theorem reachQ_countWait (s : State) (v tg x : Nat) : (terrace (countWait s v tg) x).reachQ = (terrace s x).reachQ := by
  obtain ⟨w, h⟩ := terrace_countWait s v tg x; rw [h]

theorem reachClosed_countWait (s : State) (v tg x : Nat) : (terrace (countWait s v tg) x).reachClosed = (terrace s x).reachClosed := by
  obtain ⟨w, h⟩ := terrace_countWait s v tg x; rw [h]

theorem thread_countWait (s : State) (v tg x k : Nat) : thread (countWait s v tg) x k = thread s x k := by
  obtain ⟨w, h⟩ := terrace_countWait s v tg x; rw [thread, h, thread]

theorem takeAt_countWait (s : State) (r : Run) (v tg x : Nat) (lost : List Nat) : takeAt (countWait s v tg) r x lost = takeAt s r x lost := by
  simp only [takeAt, takeOrder, reachQ_countWait, reachClosed_countWait]

/-- What each step of a fold leaves as it is, the fold does. -/
theorem foldl_leaves {α β γ : Type} (get : α → γ) {f : α → β → α} (h : ∀ a b, get (f a b) = get a) (l : List β) (a : α) :
    get (l.foldl f a) = get a :=
  List.foldlRecOn l f (motive := fun t => get t = get a) rfl fun t ht b _ => (h t b).trans ht

/-- Losing a take removes no reach. -/
theorem reachQ_loseTake (s : State) (r : Run) (v tg x : Nat) : (terrace (loseTake s r v tg) x).reachQ = (terrace s x).reachQ := by
  rw [loseTake_eq, foldl_leaves (fun u => (terrace u x).reachQ) (fun u k => reachQ_updThread u tg k x _), reachQ_countWait]

theorem rqWait_loseTake (s : State) (r : Run) {v tg : Nat} (h : v ≠ tg) :
    mget (terrace (loseTake s r v tg) v).rqWait tg 0 = mget (terrace s v).rqWait tg 0 + 1 := by
  rw [loseTake_eq, foldl_leaves (fun u => (terrace u v).rqWait) (fun u k => rqWait_updThread u tg k v _), countWait, if_neg h.symm]
  simp

/-- Of threads changed one after the other, each has its own change only. -/
theorem thread_foldl_updThread {l : List Nat} (tg k : Nat) (f : Thread → Thread) (hl : l.Nodup) (s : State) :
    thread (l.foldl (fun s j => updThread s tg j f) s) tg k = if k ∈ l then f (thread s tg k) else thread s tg k := by
  induction l generalizing s with
  | nil => simp
  | cons j l ih =>
    obtain ⟨hj, hl⟩ := List.nodup_cons.mp hl
    rw [List.foldl_cons, ih hl]
    by_cases hk : k = j
    · subst hk; simp [hj]
    · simp [hk, thread_updThread_other]

/-- A take that has lost at queue v waits on, with v among the queues it has lost at. -/
theorem thread_loseTake {s : State} {r : Run} {tg v thr sd pd : Nat} {lost : List Nat} (hthr : thr < 16)
    (hst : (thread s tg thr).st = .blocked (.take sd pd lost)) (ha : takeAt s r tg lost = some v) : (thread (loseTake s r v tg) tg thr).st = .blocked (.take sd pd (v :: lost)) := by
  have hc : thr ∈ (List.range 16).filter (contends (countWait s v tg) r v tg) := by
    simp [contends, thread_countWait, hst, takeAt_countWait, ha, hthr]
  rw [loseTake_eq, thread_foldl_updThread tg thr _ (List.nodup_range.filter _), if_pos hc, thread_countWait, scanPast, hst]

/-- The state once the takes of the other terraces have lost at queue v. -/
def othersLose (s : State) (r : Run) (v tg : Nat) : State :=
  ((takers s r v).filter (fun x => x ≠ tg)).foldl (fun u x => loseTake u r v x) s

theorem reachQ_othersLose (s : State) (r : Run) (v tg x : Nat) : (terrace (othersLose s r v tg) x).reachQ = (terrace s x).reachQ :=
  foldl_leaves (fun u => (terrace u x).reachQ) (fun u y => reachQ_loseTake u r v y x) _ s

/-! ## The arbiter of a queue (R181, R347) -/

/-- The first of a list whose count is the largest. -/
def firstLargest (count : Nat → Nat) (l : List Nat) : Option Nat :=
  l.foldl (fun (b : Option Nat) tg => match b with
    | some x => if count x < count tg then some tg else b
    | none => some tg) none

theorem firstLargest_concat {count : Nat → Nat} {l : List Nat} {x : Nat} (h : firstLargest count l = some x) (y : Nat) :
    firstLargest count (l ++ [y]) = if count x < count y then some y else some x := by
  rw [firstLargest, List.foldl_append, ← firstLargest, h]; rfl

theorem firstLargest_spec (count : Nat → Nat) (l : List Nat) (h : l ≠ []) :
    ∃ x ∈ l, firstLargest count l = some x ∧ ∀ y ∈ l, count y ≤ count x := by
  induction l using List.reverseRecOn with
  | nil => exact absurd rfl h
  | append_singleton l y ih =>
    by_cases hl : l = []
    · subst hl
      exact ⟨y, by simp, rfl, by simp⟩
    · obtain ⟨x, hx, he, hmax⟩ := ih hl
      rw [firstLargest_concat he]
      by_cases hlt : count x < count y
      · refine ⟨y, by simp, if_pos hlt, fun z hz => ?_⟩
        rcases List.mem_append.mp hz with hz | hz
        · exact (hmax z hz).trans hlt.le
        · rw [List.mem_singleton.mp hz]
      · refine ⟨x, by simp [hx], if_neg hlt, fun z hz => ?_⟩
        rcases List.mem_append.mp hz with hz | hz
        · exact hmax z hz
        · rw [List.mem_singleton.mp hz]; exact not_lt.mp hlt

section Winner
variable {s : State} {r : Run} {v : Nat}

/-- The thieves at queue v whose wait counter has reached W. -/
def thievesAtLimit (s : State) (r : Run) (v : Nat) : List Nat :=
  (takers s r v).filter (fun tg => tg ≠ v && decide (rqW s (saddleOf v) ≤ mget (terrace s v).rqWait tg 0))

theorem takeWinner_eq : takeWinner s r v = if (thievesAtLimit s r v).isEmpty && (takers s r v).contains v then some v
    else firstLargest (fun tg => mget (terrace s v).rqWait tg 0) (if (thievesAtLimit s r v).isEmpty then takers s r v else thievesAtLimit s r v) := rfl

theorem mem_thievesAtLimit {x : Nat} : x ∈ thievesAtLimit s r v ↔
    x ∈ takers s r v ∧ x ≠ v ∧ rqW s (saddleOf v) ≤ mget (terrace s v).rqWait x 0 := by
  simp [thievesAtLimit]

/-- The owner takes while no thief has reached the limit. -/
theorem takeWinner_owner (hv : v ∈ takers s r v)
    (h : ∀ x ∈ takers s r v, x ≠ v → mget (terrace s v).rqWait x 0 < rqW s (saddleOf v)) : takeWinner s r v = some v := by
  have hnone : thievesAtLimit s r v = [] := List.eq_nil_iff_forall_not_mem.mpr fun x hx => by
    obtain ⟨hx, hne, hw⟩ := mem_thievesAtLimit.mp hx
    exact absurd (h x hx hne) (not_lt.mpr hw)
  simp [takeWinner_eq, hnone, hv]

/-- Of the thieves at the limit, the one with the largest count takes. -/
theorem takeWinner_thief (h : ∃ x ∈ takers s r v, x ≠ v ∧ rqW s (saddleOf v) ≤ mget (terrace s v).rqWait x 0) :
    ∃ x ∈ takers s r v, takeWinner s r v = some x ∧ x ≠ v ∧ rqW s (saddleOf v) ≤ mget (terrace s v).rqWait x 0 ∧
      ∀ y ∈ takers s r v, y ≠ v → mget (terrace s v).rqWait y 0 ≤ mget (terrace s v).rqWait x 0 := by
  obtain ⟨z, hz⟩ := h
  have hne : thievesAtLimit s r v ≠ [] := List.ne_nil_of_mem (mem_thievesAtLimit.mpr hz)
  obtain ⟨x, hx, he, hmax⟩ := firstLargest_spec (fun tg => mget (terrace s v).rqWait tg 0) _ hne
  obtain ⟨hxt, hxv, hxw⟩ := mem_thievesAtLimit.mp hx
  refine ⟨x, hxt, by simpa [takeWinner_eq, hne] using he, hxv, hxw, fun y hy hyv => ?_⟩
  by_cases hw : rqW s (saddleOf v) ≤ mget (terrace s v).rqWait y 0
  · exact hmax y (mem_thievesAtLimit.mpr ⟨hy, hyv, hw⟩)
  · exact (not_le.mp hw).le.trans hxw

end Winner

/-! ## A take served (R180, R181) -/

/-- A take's answer in its thread, which is Ready again. -/
def answered (s : State) (tg thr sd pd : Nat) (w : Option (List W64)) (code : Nat) : State :=
  updThread s tg thr (fun t => { answerTake t sd pd w code with st := .ready })

section Serve
variable {s : State} {r : Run} {tg thr k v sd pd : Nat} {lost : List Nat}

theorem serveTake_noQueue (hr : runOfT s tg = some (k, r)) (ha : takeAt s r tg lost = none) :
    serveTake s tg thr sd pd lost = answered s tg thr sd pd none (takeExhausted s r tg).toNat := by
  simp only [serveTake, hr, ha]; rfl

theorem serveTake_wins (hr : runOfT s tg = some (k, r)) (ha : takeAt s r tg lost = some v) (hw : takeWinner s r v = some tg) :
    serveTake s tg thr sd pd lost = answered (removeReach (othersLose s r v tg) tg v).1 tg thr sd pd
      ((removeReach (othersLose s r v tg) tg v).2.map (fun x => x.w)) 0 := by
  simp only [serveTake, hr, ha, if_pos hw]; rfl

theorem serveTake_loses (hr : runOfT s tg = some (k, r)) (ha : takeAt s r tg lost = some v) (hw : takeWinner s r v ≠ some tg) :
    serveTake s tg thr sd pd lost = loseTake s r v tg := by
  simp only [serveTake, hr, ha, if_neg hw]

/-- The owner's take removes the head of its queue. -/
theorem removeReach_owner {q : Reach} {rest : List Reach} (hq : (terrace s tg).reachQ = q :: rest) : removeReach s tg tg =
    (satAdd (updTerrace s tg (fun t => { t with reachQ := rest })) (tBase tg + 0x122C) 0 0 16 1, some q) := by
  simp [removeReach, updTerrace, hq]

/-- A steal removes the tail, and the thief's wait counter. -/
theorem removeReach_thief {q : Reach} {l : List Reach} (hv : v ≠ tg) (hq : (terrace s v).reachQ = l ++ [q]) : removeReach s tg v =
    (satAdd (satAdd (updTerrace s v (fun t => { t with reachQ := l, rqWait := mdel t.rqWait tg })) (sBase (saddleOf v) + 0x40088) 0 0 32 1)
      (tBase tg + 0x122C) 0 16 16 1, some q) := by
  simp [removeReach, updTerrace, homeOfT, hq, hv]

/-- The owner's take that is granted answers the record at the head of its queue, and counts it. -/
theorem serveTake_owner {q : Reach} {rest : List Reach} (hr : runOfT s tg = some (k, r)) (ha : takeAt s r tg lost = some tg)
    (hw : takeWinner s r tg = some tg) (hq : (terrace (othersLose s r tg tg) tg).reachQ = q :: rest) : serveTake s tg thr sd pd lost =
      answered (satAdd (updTerrace (othersLose s r tg tg) tg (fun t => { t with reachQ := rest })) (tBase tg + 0x122C) 0 0 16 1)
        tg thr sd pd (some q.w) 0 := by
  rw [serveTake_wins hr ha hw, removeReach_owner hq]; rfl

/-- A thief's take that is granted answers the record at the tail of the queue, and the steal is counted at both sides. -/
theorem serveTake_thief {q : Reach} {l : List Reach} (hr : runOfT s tg = some (k, r)) (ha : takeAt s r tg lost = some v)
    (hw : takeWinner s r v = some tg) (hv : v ≠ tg) (hq : (terrace (othersLose s r v tg) v).reachQ = l ++ [q]) : serveTake s tg thr sd pd lost =
      answered (satAdd (satAdd (updTerrace (othersLose s r v tg) v (fun t => { t with reachQ := l, rqWait := mdel t.rqWait tg }))
        (sBase (saddleOf v) + 0x40088) 0 0 32 1) (tBase tg + 0x122C) 0 16 16 1) tg thr sd pd (some q.w) 0 := by
  rw [serveTake_wins hr ha hw, removeReach_thief hv hq]; rfl

end Serve

/-- The home Saddle serves the take of a thread that waits for one. -/
theorem exec_threadUnblock_take {tg : Fin 64} {thr : Fin 16} {s : State} {sd pd : Nat} {lost : List Nat}
    (h : (thread s tg.val thr.val).st = .blocked (.take sd pd lost)) :
    exec (.threadUnblock tg thr) s = .next (serveTake s tg.val thr.val sd pd lost) := by
  change execThreadUnblock tg thr s = _
  simp only [execThreadUnblock, h, unblock]

/-- Settles O20: the two instructions as the issue of their bodies, then what a take asks for, what it is answered, and who is granted. -/
theorem reachInstructions : Obligations.ReachInstructions := by
  unfold Obligations.ReachInstructions
  refine ⟨fun i s k r hr => ⟨fun hi h0 h43 hf => ?cut, fun hi h0 h43 ha => ?take⟩, fun tg thr s sd pd k lost r hst hr hm => ?served⟩
  case cut =>
    have hz : zeroFields i.w0 [(0, 38), (43, 1)] = true := by simp [zeroFields, h0, h43]
    refine ⟨fun he => ?_, fun he => ?_⟩
    · refine (issue_strict_checked hi hz hf (cutBody_exhausted hr he)).trans (congrArg _ ?_)
      exact updRun_of_some (mget?_runs_of_runOfT hr) _
    · exact issue_strict_checked hi hz hf (cutBody_unexhausted hr he)
  case take =>
    have hz : zeroFields i.w0 [(0, 38), (43, 2)] = true := by simp [zeroFields, h0, h43]
    exact issue_strict_checked hi hz (takeFault_none ha) rfl
  case served =>
    have hexec := exec_threadUnblock_take hst
    refine ⟨takeAt_eq_none_iff, fun v hv => takeAt_some hv, takeAt_home, fun v hv => mem_takeOrder hv,
      fun hn => ⟨fun he hq hall => ?exhausted, fun hc => ?pending⟩,
      fun v hv => ⟨fun hw hvt q rest hq => ?owner, fun hw hvt l q hq => ?thief, fun hw => ⟨?lost, ?scans, fun hvt => ?counted⟩⟩,
      fun v x => ⟨reachQ_othersLose s r v tg.val x, reachQ_loseTake s r v tg.val x⟩, fun v => ⟨takeWinner_owner, takeWinner_thief⟩⟩
    case exhausted =>
      rw [hexec, serveTake_noQueue hr hn, (takeExhausted_iff hm).mpr ⟨he, hq, hall⟩]; rfl
    case pending =>
      rw [hexec, serveTake_noQueue hr hn, takeExhausted_false hm hc]; rfl
    case owner =>
      subst hvt
      exact hexec.trans (congrArg _ (serveTake_owner hr hv hw hq))
    case thief => exact hexec.trans (congrArg _ (serveTake_thief hr hv hw hvt hq))
    case lost => exact hexec.trans (congrArg _ (serveTake_loses hr hv hw))
    case scans => exact thread_loseTake thr.isLt hst hv
    case counted => exact rqWait_loseTake s r hvt

end Sys2Proof.Machine
end

section
/-! PROOFS. The instruction reference (chapter 13): the CTL group (R357), and the SCL group but for its loads and stores (R358, R359). -/

namespace Sys2Proof.Machine

open Sys2Proof

/-! ## Instructions that change only their thread -/

/-- A strict instruction that issues, with its unused fields 0, whose whole effect is one change of its thread. -/
theorem issue_strict_onThread {row : OpRow} {i : Issue} {s : State} {l : List (Nat × Nat)} {k : Ctx → State → Option State}
    {f : Thread → Thread} {r : Thread} (h : Issues row i s) (hz : ∀ x ∈ l, fld i.w0 x.1 x.2 = 0)
    (hk : k (ctxOf i s) (past i s) = some (onThread (ctxOf i s) (past i s) f)) (hr : f (stepped i s) = r) :
    ∃ t, issue row i s (strict l k) = .next t ∧ OnlyThread i s t ∧ thread t i.tg.val i.thr.val = r :=
  issue_onThread h ((strict_zero (zeroFields_of i.w0 l hz)).trans hk) hr

/-! ## Jumps -/

/-- Every instruction of the CTL group is one word (Table 13-3). -/
theorem opWords_ctl {w : W64} {m : Nat} (h : ({ maj := 1, min := m } : OpRow).has w = true) : opWords w = 1 := by
  simp only [OpRow.has, Bool.and_eq_true, beq_iff_eq] at h
  simp [opWords, h.1.1]

/-- A one-word instruction leaves its thread 8 bytes on. -/
theorem stepped_of_oneWord {i : Issue} {s : State} (h : opWords i.w0 = 1) :
    stepped i s = { (ctxOf i s).t with pc := BitVec.ofNat 52 ((ctxOf i s).t.pc.toNat + 8) } := by
  rw [stepped, h]; rfl

/-- The fetch at a PC that is not a multiple of 8 faults, and there is no read of memory to record. -/
theorem fetch_misaligned {s : State} {tg pc : Nat} (h : pc % 8 ≠ 0) (words : Nat) :
    fetch s tg pc words = .fault ∧ logFetch s tg pc = s := by
  have hw : fetchWord s tg pc = .fault := if_pos h
  exact ⟨by rw [fetch, hw], if_pos h⟩

/-- A Ready thread whose PC is not a multiple of 8 raises FETCH there, whatever instruction its word is (R351, R357). -/
theorem issue_misaligned {row : OpRow} {i : Issue} {s : State} {body : Ctx → State → Option State} (hm : row.has i.w0 = true)
    (hr : (ctxOf i s).t.st = .ready) (ha : (ctxOf i s).t.pc.toNat % 8 ≠ 0) :
    issue row i s body = .next (raise (ctxOf i s) fFETCH s) := by
  obtain ⟨hf, hl⟩ := fetch_misaligned (s := s) (tg := i.tg.val) ha (opWords i.w0)
  unfold ctxOf at hr hf hl
  simp_all [issue, ctxOf]

/-- Settles O9: NOP, END and the taken jumps as the issue of their bodies, then a jump turned off, then a PC that is misaligned. -/
theorem controlFlow : Obligations.ControlFlow := by
  unfold Obligations.ControlFlow
  intro i s
  refine ⟨fun hi hz => ?nop, fun hi hz => ?ends, fun hi hz => ?jmp, fun hi hz => ?jal, fun hi hz hz' => ?jr,
    fun e he hf hl hm hoff => ?turnedOff, fun c row hc hm hr ha => ?misaligned⟩
  case nop => exact ⟨past i s, issue_some hi (strict_zero (zeroFields_low hz)), onlyThread_past i s, thread_past i s⟩
  case ends => exact issue_strict_onThread hi (by simp [hz]) rfl rfl
  case jmp => exact issue_strict_onThread hi (by simp [hz]) rfl rfl
  case jal => exact issue_strict_onThread hi (by simp [hz]) rfl rfl
  case jr => exact issue_strict_onThread hi (by simp [hz, hz']) rfl rfl
  case turnedOff =>
    have hrow : (e.1 i).row? = some (i, { maj := 1, min := e.2 }) := by
      simp only [List.mem_cons, List.not_mem_nil, or_false] at he
      obtain rfl | rfl | rfl := he <;> rfl
    obtain ⟨body, hbody⟩ := exec_row _ i _ hrow
    refine ⟨past i s, by rw [hbody, issue_predicateOff hf hl hm hoff], onlyThread_past i s, ?_⟩
    rw [thread_past, stepped_of_oneWord (opWords_ctl hm)]
  case misaligned =>
    obtain ⟨body, hbody⟩ := exec_row c i row hc
    rw [hbody, issue_misaligned hm hr ha]; rfl

/-! ## Scalar arithmetic (R358) -/

theorem aluMin_eq (a b : W64) : aluMin a b = if a.toInt < b.toInt then a else b := by simp only [aluMin, BitVec.slt_iff_toInt_lt]
theorem aluMax_eq (a b : W64) : aluMax a b = if a.toInt < b.toInt then b else a := by simp only [aluMax, BitVec.slt_iff_toInt_lt]
theorem aluMinu_eq (a b : W64) : aluMinu a b = if a.toNat < b.toNat then a else b := by simp only [aluMinu, BitVec.ult_iff_toNat_lt]
theorem aluMaxu_eq (a b : W64) : aluMaxu a b = if a.toNat < b.toNat then b else a := by simp only [aluMaxu, BitVec.ult_iff_toNat_lt]

theorem aluDivu_eq (a b : W64) :
    aluDivu a b = if b = 0 then 0xFFFFFFFFFFFFFFFF#64 else BitVec.ofNat 64 (a.toNat / b.toNat) := by
  have h : a.udiv b = BitVec.ofNat 64 (a.toNat / b.toNat) := BitVec.udiv_def
  rw [aluDivu, h]

theorem aluRemu_eq (a b : W64) : aluRemu a b = if b = 0 then a else BitVec.ofNat 64 (a.toNat % b.toNat) := by
  have h : a.umod b = BitVec.ofNat 64 (a.toNat % b.toNat) := BitVec.umod_def
  rw [aluRemu, h]

/-- The row of minor opcode m is an arithmetic instruction of the operation f. -/
def IsAlu (op : Issue → Instr) (m : Nat) (f : W64 → W64 → W64) : Prop :=
  ∃ g, (∀ i s, exec (op i) s = issue { maj := 2, min := m } i s (aluBody g)) ∧ ∀ a b, g a b = f a b

/-- An arithmetic instruction gives sd its result, and does nothing else. -/
theorem IsAlu.result {op : Issue → Instr} {m : Nat} {f : W64 → W64 → W64} (h : IsAlu op m f) {i : Issue} {s : State}
    (hi : Issues { maj := 2, min := m } i s) : ∃ t, exec (op i) s = .next t ∧ OnlyThread i s t ∧
      thread t i.tg.val i.thr.val = (stepped i s).setS (fld i.w0 43 5) (f (srcA (ctxOf i s)) (secondOperand (ctxOf i s))) := by
  obtain ⟨g, hexec, hg⟩ := h
  rw [hexec, ← hg]
  exact issue_onThread hi rfl rfl

/-! ## Comparisons (R359) -/

theorem Cmp.holds_ne (a b : W64) : Cmp.ne.holds a b = decide (a ≠ b) := (decide_not).symm

theorem Cmp.holds_ge (a b : W64) : Cmp.ge.holds a b = decide (b.toInt ≤ a.toInt) := by
  simp only [Cmp.holds, BitVec.slt, ← decide_not, Int.not_lt]

theorem Cmp.holds_geu (a b : W64) : Cmp.geu.holds a b = decide (b.toNat ≤ a.toNat) := by
  simp only [Cmp.holds, BitVec.ult, ← decide_not, Nat.not_lt]

/-- A comparison gives pd whether it holds, and does nothing else. -/
theorem issue_cmpBody {m : Nat} {i : Issue} {s : State} (k : Cmp) (hi : Issues { maj := 2, min := m } i s) (hz : fld i.w0 43 2 = 0) :
    ∃ t, issue { maj := 2, min := m } i s (cmpBody k) = .next t ∧ OnlyThread i s t ∧ thread t i.tg.val i.thr.val =
      (stepped i s).setP (fld i.w0 45 3) (k.holds (srcA (ctxOf i s)) (secondOperand (ctxOf i s))) :=
  issue_strict_onThread hi (by simp [hz]) rfl rfl

/-- Settles O10: each arithmetic row by its operation, MOVI, PLOG and SEL as the issue of their bodies, and each CMP.cc by its comparison. -/
theorem scalarInstructions : Obligations.ScalarInstructions := by
  unfold Obligations.ScalarInstructions
  refine ⟨fun e he i s hi => ?arithmetic, fun i s => ⟨fun hi hz => ?movi, fun hi hz hz' => ?plog, fun hi hz hz' => ?sel,
    fun e he hi hz => ?compare⟩⟩
  case arithmetic =>
    have halu : IsAlu e.1 e.2.1 e.2.2 := by
      simp only [List.mem_cons, List.not_mem_nil, or_false] at he
      obtain rfl | rfl | rfl | rfl | rfl | rfl | rfl | rfl | rfl | rfl | rfl | rfl | rfl | rfl | rfl := he
      exacts [⟨aluAdd, fun _ _ => rfl, fun _ _ => rfl⟩, ⟨aluSub, fun _ _ => rfl, fun _ _ => rfl⟩, ⟨aluMul, fun _ _ => rfl, fun _ _ => rfl⟩,
        ⟨aluAnd, fun _ _ => rfl, fun _ _ => rfl⟩, ⟨aluOr, fun _ _ => rfl, fun _ _ => rfl⟩, ⟨aluXor, fun _ _ => rfl, fun _ _ => rfl⟩,
        ⟨aluShl, fun _ _ => rfl, fun _ _ => rfl⟩, ⟨aluShr, fun _ _ => rfl, fun _ _ => rfl⟩, ⟨aluSar, fun _ _ => rfl, fun _ _ => rfl⟩,
        ⟨aluMin, fun _ _ => rfl, aluMin_eq⟩, ⟨aluMax, fun _ _ => rfl, aluMax_eq⟩,
        ⟨aluMinu, fun _ _ => rfl, aluMinu_eq⟩, ⟨aluMaxu, fun _ _ => rfl, aluMaxu_eq⟩,
        ⟨aluDivu, fun _ _ => rfl, aluDivu_eq⟩, ⟨aluRemu, fun _ _ => rfl, aluRemu_eq⟩]
    exact halu.result hi
  case movi => exact issue_strict_onThread hi (by simp [hz]) rfl rfl
  case plog => exact issue_strict_onThread hi (by simp [hz, hz']) rfl rfl
  case sel => exact issue_strict_onThread hi (by simp [hz, hz']) rfl rfl
  case compare =>
    obtain ⟨k, hexec, hk⟩ : ∃ k : Cmp, exec (e.1 i) s = issue { maj := 2, min := e.2.1 } i s (cmpBody k) ∧
        k.holds (srcA (ctxOf i s)) (secondOperand (ctxOf i s)) = e.2.2 := by
      simp only [List.mem_cons, List.not_mem_nil, or_false] at he
      obtain rfl | rfl | rfl | rfl | rfl | rfl := he
      exacts [⟨.eq, rfl, rfl⟩, ⟨.ne, rfl, Cmp.holds_ne _ _⟩, ⟨.lt, rfl, rfl⟩, ⟨.ge, rfl, Cmp.holds_ge _ _⟩, ⟨.ltu, rfl, rfl⟩,
        ⟨.geu, rfl, Cmp.holds_geu _ _⟩]
    rw [hexec, ← hk]
    exact issue_cmpBody k hi hz

end Sys2Proof.Machine
end

section
/-! PROOFS. The queue of commands: every command answers a next state, leaves the queue alone, and keeps the forms of the state. -/

namespace Sys2Proof.Machine

open Sys2Proof

/-! ## Every command goes on -/

/-- An outcome that is a next state. -/
def IsNext (o : Host.Outcome State Fault Refusal) : Prop := ∃ t, o = .next t

theorem IsNext.next (t : State) : IsNext (.next t) := ⟨t, rfl⟩

theorem IsNext.ite {c : Prop} [Decidable c] {a b : Host.Outcome State Fault Refusal} (h : IsNext a) (h' : IsNext b) :
    IsNext (if c then a else b) := by
  split <;> assumption

/-- A thread instruction goes on in each way it can issue. -/
theorem issue_isNext (row : OpRow) (i : Issue) (s : State) (body : Ctx → State → Option State) : IsNext (issue row i s body) := by
  obtain ⟨-, h⟩ | ⟨-, -, h⟩ | ⟨-, -, h⟩ | ⟨-, -, h⟩ | ⟨-, -, -, -, h⟩ | ⟨-, h⟩ := issue_cases row i s body <;> exact ⟨_, h⟩

/-- A Skovuk packet is logged, ignored, acknowledged again, passed on or delivered. -/
theorem inbound_isNext (type : Nat) (p : SkvPacket) (s : State) (k : State → State) : IsNext (inbound type p s k) := by
  unfold inbound
  exact .ite (.next _) (.ite (.next _) (.ite (.next _) (.ite (.next _) (.ite (.next _) (.ite (.next _) (.next _))))))

theorem execCisResumeScan_isNext (al : Fin 1024) (s : State) : IsNext (execCisResumeScan al s) := by
  unfold execCisResumeScan
  extract_lets owner s'
  rcases owner with _ | n
  · exact .next _
  · exact .ite (.next _) (.next _)

/-- No meaning faults the block or is refused: the thread rows by their issue, the others branch by branch. -/
theorem exec_isNext (c : Instr) (s : State) : IsNext (exec c s) :=
  match c with
  | .ctlNop _ | .ctlEnd _ | .ctlJmp _ | .ctlJal _ | .ctlJr _ | .ctlSig _ | .ctlWait _ | .sclAdd _ | .sclSub _ | .sclMul _ | .sclAnd _
    | .sclOr _ | .sclXor _ | .sclShl _ | .sclShr _ | .sclSar _ | .sclMin _ | .sclMax _ | .sclMinu _ | .sclMaxu _ | .sclDivu _ | .sclRemu _
    | .sclMovi _ | .sclPlog _ | .sclSel _ | .sclCmpEq _ | .sclCmpNe _ | .sclCmpLt _ | .sclCmpGe _ | .sclCmpLtu _ | .sclCmpGeu _ | .sclLd _
    | .sclSt _ | .dscLd _ | .dscSt _ | .dscMov _ | .dscZero _ | .dscGetb _ | .dscSetb _ | .dscAddb _ | .strLd _ | .strLdGate _
    | .strLdReach _ | .strLdOne _ | .strSt _ | .strCpy _ | .strSump _ | .cflScan _ | .cflIsectK2 _ | .cflUnionK2 _ | .cflMergeKk _
    | .cflCmpct _ | .cflRqCut _ | .cflRqTake _ | .mma _ | .mmaCfg _ | .mmaAccrd _ | .mmaAccwr _ | .epi _ | .redMaxi _ | .redMini _
    | .redTopk _ | .redTopkL _ | .redSt _ | .flmAttn _ | .flmMerge _ | .cisOpen _ | .cisFork _ | .cisHold _ | .cisRelease _ | .cisAppend _
    | .cisTrim _ | .cisClose _ | .cisQuery _ | .hgpRun _ | .hgpMask _ | .hgpAudit _ | .latPush _ | .latPop _ | .latPushNb _ | .latPopNb _
    | .latAlloc _ | .latFree _ | .latSend _ | .latRot _ | .sysSpan _ | .sysRes _ | .sysCycle _ | .sysFenceT _ | .sysFenceS _ | .sysFenceH _ =>
    issue_isNext _ _ _ _
  | .coalesceTimeout _ _ | .handleContest _ _ | .cisReadNotice _ _ | .cisSwapStep _ | .prefetcherRelease _ _ | .hbmStackFail _ _
    | .hbmTempReport _ _ | .farPortFail _ _ | .weirRefill | .sqTailWrite _ _ _ _ | .cqHeadWrite _ _ _ _ | .gaugeCfgWrite _ _ _ _
    | .allotCfgWrite _ _ _ _ | .allotReset _ _ | .allotKill _ _ | .qCfgWrite _ _ _ _ | .xltRootWrite _ _ _ _ | .xltCtxWrite _ _ _
    | .xltInvalidate _ _ | .rsvCreate _ _ | .rsvRelease _ _ | .rsvQuery _ _ | .rsvPctWrite _ _ | .skvRteWrite _ _ | .skvWinWrite _ _ _
    | .rstCtlWarm _ _ | .rstCtlCold _ _ | .rstCtlDrain _ _ | .rstCtlResume _ _ | .rasPop _ _ | .intStatClear _ _ | .intEnWrite _ _
    | .counterLoRead _ _ | .rcFieldRead _ _ | .journalStepComplete | .vfFlr _ | .getState | .powerOn _ | .powerOff | .drain | .resume
    | .exmasResetWarm | .exmasResetCold | .maintEnter | .readReg _ | .writeReg _ _ | .getEvent | .setEventReceiver _ | .configGet
    | .configSet _ | .retire _ _ | .diagRun _ | .getVersion | .getCapabilities | .negotiateAlgorithms _ | .getDigests
    | .getCertificate _ _ _ | .challenge _ | .getMeasurements _ | .skvE2eTimeout _ _ _ | .tapBypass _ | .tapSamplePreload _ _
    | .tapExtest _ | .tapIeee1687Access _ _ | .tapReset _ =>
    .next _
  | .cisResumeScan al => execCisResumeScan_isNext al s
  | .islandInstrStart _ _ | .threadUnblock _ _ | .streamDrained _ _ | .handleReturn _ _ _ | .arrayCheckFail _ _ | .itemFinish _
    | .lateralReceipt _ _ | .lateralSendDone _ | .cutterPlace _ | .guardApply _ | .sumpBag _ | .sumpJobEnd _ | .flmContextSwitch _
    | .flmComplete _ | .saddleRead _ _ | .saddleWrite _ _ _ | .farResilverDone _ | .rsvRecompute | .atsInvalidate _ _ _
    | .sqReadComplete _ _ | .dispatchDecision _ | .scrubComplete _ | .commit _ | .completionPost _ | .qIntTimer _ | .gaugeLineWrite _
    | .gaugeFlushTimer _ | .gaugeHeadWrite _ _ _ | .allotCmdDone _ | .xltInvDone | .xltFlogPop _ | .fbCapWrite _ _ | .intMessage _
    | .regWrite _ _ _ _ _ | .bar4Read _ _ _ | .bar4Write _ _ _ _ | .postResetRestore | .retirementStart | .retirementStepDone
    | .ridgeDieFail _ | .headworkFail _ | .islandHeartbeatLoss _ | .flumeLaneFail _ | .hostPortDown _ _ | .hostPortUp _ _ _
    | .feedOutOfRange _ _ | .feedValid _ _ | .feedReturn _ | .dischargeStart | .matePinOpen _ | .fbFastLoop _ | .fbSlowLoop _
    | .voltageSettled _ | .fbFloorEval _ _ | .capGuard _ | .fbShadowSync | .railTelemetry _ _ | .phaseFail _ | .railEstimation _ _
    | .ibcFail _ | .railFail _ | .droopDetect _ _ | .powerGate _ | .domainGated _ | .returnedPacket _ | .domainWake _ | .junctionSample _ _
    | .thermalCeilingStep _ | .spillwayTrip | .energyWindowClose _ | .modEnRise _ | .riderWatchdog _ | .perstAssert _ | .perstDeassert _
    | .pcieHotReset _ | .xprsntRemove _ | .xprsntInsert _ _ | .diagDone _ | .mctpControl _ | .pldmMonitoring _ | .requestUpdate _ _ _
    | .verifyComplete _ | .activateFirmware _ | .skvPortTrained _ _ _ _ _ | .skvLaneRemove _ _ | .skvFlitReceive _ _
    | .skvReplayRequest _ _ | .skvLinkAckTimeout _ | .skvTransit _ | .read _ | .write _ | .rdata _ | .wack _ | .eack _ | .contrib _
    | .budget _ | .mgmt _ | .skvDestUnreachable _ _ | .slack | .budgetLifeExpire | .tapIdcode _ | .stageInstructionEnd _ _
    | .hostWindowCompletion _ _ => by
    simp only [exec]
    delta execIslandInstrStart execThreadUnblock execStreamDrained execHandleReturn execArrayCheckFail execItemFinish execLateralReceipt
      execLateralSendDone execCutterPlace execGuardApply execSumpBag execSumpJobEnd execFlmContextSwitch execFlmComplete execSaddleRead
      execSaddleWrite execFarResilverDone execRsvRecompute execAtsInvalidate execSqReadComplete execDispatchDecision execScrubComplete
      execCommit execCompletionPost execQIntTimer execGaugeLineWrite execGaugeFlushTimer execGaugeHeadWrite execAllotCmdDone execXltInvDone
      execXltFlogPop execFbCapWrite execIntMessage execRegWrite execBar4Read execBar4Write execPostResetRestore execRetirementStart
      execRetirementStepDone execRidgeDieFail execHeadworkFail execIslandHeartbeatLoss execFlumeLaneFail execHostPortDown execHostPortUp
      execFeedOutOfRange execFeedValid execFeedReturn execDischargeStart execMatePinOpen execFbFastLoop execFbSlowLoop execVoltageSettled
      execFbFloorEval execCapGuard execFbShadowSync execRailTelemetry execPhaseFail execRailEstimation execIbcFail execRailFail
      execDroopDetect execPowerGate execDomainGated execReturnedPacket execDomainWake execJunctionSample execThermalCeilingStep
      execSpillwayTrip execEnergyWindowClose execModEnRise execRiderWatchdog execPerstAssert execPerstDeassert execPcieHotReset
      execXprsntRemove execXprsntInsert execDiagDone execMctpControl execPldmMonitoring execRequestUpdate execVerifyComplete
      execActivateFirmware execSkvPortTrained execSkvLaneRemove execSkvFlitReceive execSkvReplayRequest execSkvLinkAckTimeout
      execSkvTransit execRead execWrite execRdata execWack execEack execContrib execBudget execMgmt execSkvDestUnreachable execSlack
      execBudgetLifeExpire execTapIdcode execStageInstructionEnd execHostWindowCompletion
    repeat' first
      | with_reducible exact .next _
      | with_reducible exact inbound_isNext _ _ _ _
      | with_reducible apply IsNext.ite
      | extract_lets
      | split

/-! ## What every command keeps -/

/-- Each meaning keeps the queue, the canonical memories and the bounds of the logs. -/
theorem exec_kept (c : Instr) (s : State) : KeptX s (exec c s) :=
  match c with
  | .ctlNop _ => execCtlNop_kept (.refl s)
  | .ctlEnd _ => execCtlEnd_kept (.refl s)
  | .ctlJmp _ => execCtlJmp_kept (.refl s)
  | .ctlJal _ => execCtlJal_kept (.refl s)
  | .ctlJr _ => execCtlJr_kept (.refl s)
  | .ctlSig _ => execCtlSig_kept (.refl s)
  | .ctlWait _ => execCtlWait_kept (.refl s)
  | .sclAdd _ => execSclAdd_kept (.refl s)
  | .sclSub _ => execSclSub_kept (.refl s)
  | .sclMul _ => execSclMul_kept (.refl s)
  | .sclAnd _ => execSclAnd_kept (.refl s)
  | .sclOr _ => execSclOr_kept (.refl s)
  | .sclXor _ => execSclXor_kept (.refl s)
  | .sclShl _ => execSclShl_kept (.refl s)
  | .sclShr _ => execSclShr_kept (.refl s)
  | .sclSar _ => execSclSar_kept (.refl s)
  | .sclMin _ => execSclMin_kept (.refl s)
  | .sclMax _ => execSclMax_kept (.refl s)
  | .sclMinu _ => execSclMinu_kept (.refl s)
  | .sclMaxu _ => execSclMaxu_kept (.refl s)
  | .sclDivu _ => execSclDivu_kept (.refl s)
  | .sclRemu _ => execSclRemu_kept (.refl s)
  | .sclMovi _ => execSclMovi_kept (.refl s)
  | .sclPlog _ => execSclPlog_kept (.refl s)
  | .sclSel _ => execSclSel_kept (.refl s)
  | .sclCmpEq _ => execSclCmpEq_kept (.refl s)
  | .sclCmpNe _ => execSclCmpNe_kept (.refl s)
  | .sclCmpLt _ => execSclCmpLt_kept (.refl s)
  | .sclCmpGe _ => execSclCmpGe_kept (.refl s)
  | .sclCmpLtu _ => execSclCmpLtu_kept (.refl s)
  | .sclCmpGeu _ => execSclCmpGeu_kept (.refl s)
  | .sclLd _ => execSclLd_kept (.refl s)
  | .sclSt _ => execSclSt_kept (.refl s)
  | .dscLd _ => execDscLd_kept (.refl s)
  | .dscSt _ => execDscSt_kept (.refl s)
  | .dscMov _ => execDscMov_kept (.refl s)
  | .dscZero _ => execDscZero_kept (.refl s)
  | .dscGetb _ => execDscGetb_kept (.refl s)
  | .dscSetb _ => execDscSetb_kept (.refl s)
  | .dscAddb _ => execDscAddb_kept (.refl s)
  | .strLd _ => execStrLd_kept (.refl s)
  | .strLdGate _ => execStrLdGate_kept (.refl s)
  | .strLdReach _ => execStrLdReach_kept (.refl s)
  | .strLdOne _ => execStrLdOne_kept (.refl s)
  | .strSt _ => execStrSt_kept (.refl s)
  | .strCpy _ => execStrCpy_kept (.refl s)
  | .strSump _ => execStrSump_kept (.refl s)
  | .cflScan _ => execCflScan_kept (.refl s)
  | .cflIsectK2 _ => execCflIsectK2_kept (.refl s)
  | .cflUnionK2 _ => execCflUnionK2_kept (.refl s)
  | .cflMergeKk _ => execCflMergeKk_kept (.refl s)
  | .cflCmpct _ => execCflCmpct_kept (.refl s)
  | .cflRqCut _ => execCflRqCut_kept (.refl s)
  | .cflRqTake _ => execCflRqTake_kept (.refl s)
  | .mma _ => execMma_kept (.refl s)
  | .mmaCfg _ => execMmaCfg_kept (.refl s)
  | .mmaAccrd _ => execMmaAccrd_kept (.refl s)
  | .mmaAccwr _ => execMmaAccwr_kept (.refl s)
  | .epi _ => execEpi_kept (.refl s)
  | .redMaxi _ => execRedMaxi_kept (.refl s)
  | .redMini _ => execRedMini_kept (.refl s)
  | .redTopk _ => execRedTopk_kept (.refl s)
  | .redTopkL _ => execRedTopkL_kept (.refl s)
  | .redSt _ => execRedSt_kept (.refl s)
  | .flmAttn _ => execFlmAttn_kept (.refl s)
  | .flmMerge _ => execFlmMerge_kept (.refl s)
  | .cisOpen _ => execCisOpen_kept (.refl s)
  | .cisFork _ => execCisFork_kept (.refl s)
  | .cisHold _ => execCisHold_kept (.refl s)
  | .cisRelease _ => execCisRelease_kept (.refl s)
  | .cisAppend _ => execCisAppend_kept (.refl s)
  | .cisTrim _ => execCisTrim_kept (.refl s)
  | .cisClose _ => execCisClose_kept (.refl s)
  | .cisQuery _ => execCisQuery_kept (.refl s)
  | .hgpRun _ => execHgpRun_kept (.refl s)
  | .hgpMask _ => execHgpMask_kept (.refl s)
  | .hgpAudit _ => execHgpAudit_kept (.refl s)
  | .latPush _ => execLatPush_kept (.refl s)
  | .latPop _ => execLatPop_kept (.refl s)
  | .latPushNb _ => execLatPushNb_kept (.refl s)
  | .latPopNb _ => execLatPopNb_kept (.refl s)
  | .latAlloc _ => execLatAlloc_kept (.refl s)
  | .latFree _ => execLatFree_kept (.refl s)
  | .latSend _ => execLatSend_kept (.refl s)
  | .latRot _ => execLatRot_kept (.refl s)
  | .sysSpan _ => execSysSpan_kept (.refl s)
  | .sysRes _ => execSysRes_kept (.refl s)
  | .sysCycle _ => execSysCycle_kept (.refl s)
  | .sysFenceT _ => execSysFenceT_kept (.refl s)
  | .sysFenceS _ => execSysFenceS_kept (.refl s)
  | .sysFenceH _ => execSysFenceH_kept (.refl s)
  | .islandInstrStart _ _ => execIslandInstrStart_kept (.refl s)
  | .threadUnblock _ _ => execThreadUnblock_kept (.refl s)
  | .streamDrained _ _ => execStreamDrained_kept (.refl s)
  | .coalesceTimeout _ _ => execCoalesceTimeout_kept (.refl s)
  | .handleContest _ _ => execHandleContest_kept (.refl s)
  | .handleReturn _ _ _ => execHandleReturn_kept (.refl s)
  | .arrayCheckFail _ _ => execArrayCheckFail_kept (.refl s)
  | .itemFinish _ => execItemFinish_kept (.refl s)
  | .lateralReceipt _ _ => execLateralReceipt_kept (.refl s)
  | .lateralSendDone _ => execLateralSendDone_kept (.refl s)
  | .cutterPlace _ => execCutterPlace_kept (.refl s)
  | .guardApply _ => execGuardApply_kept (.refl s)
  | .sumpBag _ => execSumpBag_kept (.refl s)
  | .sumpJobEnd _ => execSumpJobEnd_kept (.refl s)
  | .flmContextSwitch _ => execFlmContextSwitch_kept (.refl s)
  | .flmComplete _ => execFlmComplete_kept (.refl s)
  | .cisReadNotice _ _ => execCisReadNotice_kept (.refl s)
  | .cisSwapStep _ => execCisSwapStep_kept (.refl s)
  | .cisResumeScan _ => execCisResumeScan_kept (.refl s)
  | .saddleRead _ _ => execSaddleRead_kept (.refl s)
  | .saddleWrite _ _ _ => execSaddleWrite_kept (.refl s)
  | .prefetcherRelease _ _ => execPrefetcherRelease_kept (.refl s)
  | .hbmStackFail _ _ => execHbmStackFail_kept (.refl s)
  | .hbmTempReport _ _ => execHbmTempReport_kept (.refl s)
  | .farPortFail _ _ => execFarPortFail_kept (.refl s)
  | .farResilverDone _ => execFarResilverDone_kept (.refl s)
  | .weirRefill => execWeirRefill_kept (.refl s)
  | .rsvRecompute => execRsvRecompute_kept (.refl s)
  | .atsInvalidate _ _ _ => execAtsInvalidate_kept (.refl s)
  | .sqTailWrite _ _ _ _ => execSqTailWrite_kept (.refl s)
  | .cqHeadWrite _ _ _ _ => execCqHeadWrite_kept (.refl s)
  | .sqReadComplete _ _ => execSqReadComplete_kept (.refl s)
  | .dispatchDecision _ => execDispatchDecision_kept (.refl s)
  | .scrubComplete _ => execScrubComplete_kept (.refl s)
  | .commit _ => execCommit_kept (.refl s)
  | .completionPost _ => execCompletionPost_kept (.refl s)
  | .qIntTimer _ => execQIntTimer_kept (.refl s)
  | .gaugeLineWrite _ => execGaugeLineWrite_kept (.refl s)
  | .gaugeFlushTimer _ => execGaugeFlushTimer_kept (.refl s)
  | .gaugeHeadWrite _ _ _ => execGaugeHeadWrite_kept (.refl s)
  | .gaugeCfgWrite _ _ _ _ => execGaugeCfgWrite_kept (.refl s)
  | .allotCfgWrite _ _ _ _ => execAllotCfgWrite_kept (.refl s)
  | .allotReset _ _ => execAllotReset_kept (.refl s)
  | .allotKill _ _ => execAllotKill_kept (.refl s)
  | .allotCmdDone _ => execAllotCmdDone_kept (.refl s)
  | .qCfgWrite _ _ _ _ => execQCfgWrite_kept (.refl s)
  | .xltRootWrite _ _ _ _ => execXltRootWrite_kept (.refl s)
  | .xltCtxWrite _ _ _ => execXltCtxWrite_kept (.refl s)
  | .xltInvalidate _ _ => execXltInvalidate_kept (.refl s)
  | .xltInvDone => execXltInvDone_kept (.refl s)
  | .xltFlogPop _ => execXltFlogPop_kept (.refl s)
  | .rsvCreate _ _ => execRsvCreate_kept (.refl s)
  | .rsvRelease _ _ => execRsvRelease_kept (.refl s)
  | .rsvQuery _ _ => execRsvQuery_kept (.refl s)
  | .rsvPctWrite _ _ => execRsvPctWrite_kept (.refl s)
  | .skvRteWrite _ _ => execSkvRteWrite_kept (.refl s)
  | .skvWinWrite _ _ _ => execSkvWinWrite_kept (.refl s)
  | .fbCapWrite _ _ => execFbCapWrite_kept (.refl s)
  | .rstCtlWarm _ _ => execRstCtlWarm_kept (.refl s)
  | .rstCtlCold _ _ => execRstCtlCold_kept (.refl s)
  | .rstCtlDrain _ _ => execRstCtlDrain_kept (.refl s)
  | .rstCtlResume _ _ => execRstCtlResume_kept (.refl s)
  | .rasPop _ _ => execRasPop_kept (.refl s)
  | .intStatClear _ _ => execIntStatClear_kept (.refl s)
  | .intEnWrite _ _ => execIntEnWrite_kept (.refl s)
  | .intMessage _ => execIntMessage_kept (.refl s)
  | .counterLoRead _ _ => execCounterLoRead_kept (.refl s)
  | .rcFieldRead _ _ => execRcFieldRead_kept (.refl s)
  | .regWrite _ _ _ _ _ => execRegWrite_kept (.refl s)
  | .bar4Read u _ _ => execBar4Read_kept (u0 := u) (.refl s)
  | .bar4Write u _ _ _ => execBar4Write_kept (u0 := u) (.refl s)
  | .journalStepComplete => execJournalStepComplete_kept (.refl s)
  | .postResetRestore => execPostResetRestore_kept (.refl s)
  | .retirementStart => execRetirementStart_kept (.refl s)
  | .retirementStepDone => execRetirementStepDone_kept (.refl s)
  | .ridgeDieFail _ => execRidgeDieFail_kept (.refl s)
  | .headworkFail _ => execHeadworkFail_kept (.refl s)
  | .islandHeartbeatLoss _ => execIslandHeartbeatLoss_kept (.refl s)
  | .flumeLaneFail _ => execFlumeLaneFail_kept (.refl s)
  | .hostPortDown _ _ => execHostPortDown_kept (.refl s)
  | .hostPortUp _ _ _ => execHostPortUp_kept (.refl s)
  | .feedOutOfRange _ _ => execFeedOutOfRange_kept (.refl s)
  | .feedValid _ _ => execFeedValid_kept (.refl s)
  | .feedReturn _ => execFeedReturn_kept (.refl s)
  | .dischargeStart => execDischargeStart_kept (.refl s)
  | .matePinOpen _ => execMatePinOpen_kept (.refl s)
  | .fbFastLoop _ => execFbFastLoop_kept (.refl s)
  | .fbSlowLoop _ => execFbSlowLoop_kept (.refl s)
  | .voltageSettled _ => execVoltageSettled_kept (.refl s)
  | .fbFloorEval _ _ => execFbFloorEval_kept (.refl s)
  | .capGuard _ => execCapGuard_kept (.refl s)
  | .fbShadowSync => execFbShadowSync_kept (.refl s)
  | .railTelemetry _ _ => execRailTelemetry_kept (.refl s)
  | .phaseFail _ => execPhaseFail_kept (.refl s)
  | .railEstimation _ _ => execRailEstimation_kept (.refl s)
  | .ibcFail _ => execIbcFail_kept (.refl s)
  | .railFail _ => execRailFail_kept (.refl s)
  | .droopDetect _ u => execDroopDetect_kept (u0 := u) (.refl s)
  | .powerGate _ => execPowerGate_kept (.refl s)
  | .domainGated _ => execDomainGated_kept (.refl s)
  | .returnedPacket _ => execReturnedPacket_kept (.refl s)
  | .domainWake _ => execDomainWake_kept (.refl s)
  | .junctionSample _ _ => execJunctionSample_kept (.refl s)
  | .thermalCeilingStep _ => execThermalCeilingStep_kept (.refl s)
  | .spillwayTrip => execSpillwayTrip_kept (.refl s)
  | .energyWindowClose _ => execEnergyWindowClose_kept (.refl s)
  | .modEnRise _ => execModEnRise_kept (.refl s)
  | .riderWatchdog _ => execRiderWatchdog_kept (.refl s)
  | .perstAssert _ => execPerstAssert_kept (.refl s)
  | .perstDeassert _ => execPerstDeassert_kept (.refl s)
  | .pcieHotReset u => execPcieHotReset_kept (u0 := u) (.refl s)
  | .vfFlr _ => execVfFlr_kept (.refl s)
  | .xprsntRemove _ => execXprsntRemove_kept (.refl s)
  | .xprsntInsert _ _ => execXprsntInsert_kept (.refl s)
  | .getState => execGetState_kept (.refl s)
  | .powerOn _ => execPowerOn_kept (.refl s)
  | .powerOff => execPowerOff_kept (.refl s)
  | .drain => execDrain_kept (.refl s)
  | .resume => execResume_kept (.refl s)
  | .exmasResetWarm => execExmasResetWarm_kept (.refl s)
  | .exmasResetCold => execExmasResetCold_kept (.refl s)
  | .maintEnter => execMaintEnter_kept (.refl s)
  | .readReg _ => execReadReg_kept (.refl s)
  | .writeReg _ _ => execWriteReg_kept (.refl s)
  | .getEvent => execGetEvent_kept (.refl s)
  | .setEventReceiver _ => execSetEventReceiver_kept (.refl s)
  | .configGet => execConfigGet_kept (.refl s)
  | .configSet _ => execConfigSet_kept (.refl s)
  | .retire _ _ => execRetire_kept (.refl s)
  | .diagRun _ => execDiagRun_kept (.refl s)
  | .diagDone _ => execDiagDone_kept (.refl s)
  | .mctpControl _ => execMctpControl_kept (.refl s)
  | .pldmMonitoring u => execPldmMonitoring_kept (u0 := u) (.refl s)
  | .requestUpdate _ _ _ => execRequestUpdate_kept (.refl s)
  | .verifyComplete _ => execVerifyComplete_kept (.refl s)
  | .activateFirmware _ => execActivateFirmware_kept (.refl s)
  | .getVersion => execGetVersion_kept (.refl s)
  | .getCapabilities => execGetCapabilities_kept (.refl s)
  | .negotiateAlgorithms _ => execNegotiateAlgorithms_kept (.refl s)
  | .getDigests => execGetDigests_kept (.refl s)
  | .getCertificate _ _ _ => execGetCertificate_kept (.refl s)
  | .challenge _ => execChallenge_kept (.refl s)
  | .getMeasurements _ => execGetMeasurements_kept (.refl s)
  | .skvPortTrained _ _ _ _ _ => execSkvPortTrained_kept (.refl s)
  | .skvLaneRemove _ _ => execSkvLaneRemove_kept (.refl s)
  | .skvFlitReceive _ _ => execSkvFlitReceive_kept (.refl s)
  | .skvReplayRequest _ _ => execSkvReplayRequest_kept (.refl s)
  | .skvLinkAckTimeout _ => execSkvLinkAckTimeout_kept (.refl s)
  | .skvTransit _ => execSkvTransit_kept (.refl s)
  | .read _ => execRead_kept (.refl s)
  | .write _ => execWrite_kept (.refl s)
  | .rdata _ => execRdata_kept (.refl s)
  | .wack _ => execWack_kept (.refl s)
  | .eack _ => execEack_kept (.refl s)
  | .contrib _ => execContrib_kept (.refl s)
  | .budget _ => execBudget_kept (.refl s)
  | .mgmt _ => execMgmt_kept (.refl s)
  | .skvE2eTimeout _ _ _ => execSkvE2eTimeout_kept (.refl s)
  | .skvDestUnreachable _ _ => execSkvDestUnreachable_kept (.refl s)
  | .slack => execSlack_kept (.refl s)
  | .budgetLifeExpire => execBudgetLifeExpire_kept (.refl s)
  | .tapIdcode _ => execTapIdcode_kept (.refl s)
  | .tapBypass _ => execTapBypass_kept (.refl s)
  | .tapSamplePreload _ _ => execTapSamplePreload_kept (.refl s)
  | .tapExtest _ => execTapExtest_kept (.refl s)
  | .tapIeee1687Access _ _ => execTapIeee1687Access_kept (.refl s)
  | .tapReset u => execTapReset_kept (u0 := u) (.refl s)
  | .stageInstructionEnd _ _ => execStageInstructionEnd_kept (.refl s)
  | .hostWindowCompletion _ _ => execHostWindowCompletion_kept (.refl s)

/-- A step keeps what its command keeps; the rest of a well-formed queue is well-formed. -/
theorem step_keepsForms {s t : State} (hq : QueueWf s) (hm : MemWf s) (hl : LogsBounded s) (h : step s = .next t) :
    QueueWf t ∧ MemWf t ∧ LogsBounded t := by
  unfold step at h
  split at h
  · cases h
    exact ⟨hq, hm, hl⟩
  · next c rest hp =>
    obtain ⟨hpend, hmem, hlogs⟩ := (exec_kept c { s with pending := rest }).of_eq h
    refine ⟨fun d hd => hq d ?_, hmem hm, hlogs hl⟩
    rw [hpend] at hd
    exact hp ▸ List.mem_cons_of_mem c hd

/-- Settles O3: each meaning keeps the forms, and a step runs one command or moves the clock. -/
theorem stepsKeepTheForms : Obligations.StepsKeepTheForms := by
  unfold Obligations.StepsKeepTheForms
  rintro s t ⟨hq, hm, hl⟩ h
  exact step_keepsForms hq hm hl h

/-- Settles O2: every meaning answers a next state, which has the queue it found. -/
theorem commandsGoOn : Obligations.CommandsGoOn := by
  unfold Obligations.CommandsGoOn
  exact ⟨exec_isNext, fun c s t h => ((exec_kept c s).of_eq h).1⟩

/-- Settles O1: a step is the front command's meaning on the rest of the queue, or one nanosecond of the clock. -/
theorem stepRunsFront : Obligations.StepRunsFront := by
  unfold Obligations.StepRunsFront
  refine ⟨fun c rest s => rfl, fun s h => ?_⟩
  have hidle : step s = .next (idle s) := by simp only [step, h]
  exact hidle

/-- HBM that nothing wrote reads 0 after a reset: no stack is Failed there, and every unit reads 0. -/
theorem hbmGet_reset (a : Nat) : hbmGet State.reset a = 0 := by
  have hfail : ∀ k, (stackOf State.reset k).failed = false := fun k => by simp [stackOf, saddle, State.reset]
  have hgroup : ∀ g, groupState State.reset g = 0 := fun g => by simp [groupState, hfail]
  simp only [hbmGet, hgroup, hfail]
  rfl

/-- Settles O4: the reset state by its fields, and its HBM by its units. -/
theorem resetHasTheForms : Obligations.ResetHasTheForms := by
  unfold Obligations.ResetHasTheForms
  refine ⟨fun c hc => ?_, ⟨rfl, rfl, rfl, rfl, rfl⟩, ⟨Nat.zero_le _, Nat.zero_le _, Nat.zero_le _⟩, rfl, rfl, rfl, rfl, rfl, hbmGet_reset⟩
  cases hc

end Sys2Proof.Machine
end

section
/-! PROOFS. The memory tiers (chapter 11): a byte written to HBM, with the parity of its stripe (R291 to R296). -/

namespace Sys2Proof.Machine

open Sys2Proof

/-! ## Where a byte lies (R292) -/

/-- The keys of the stacks' bytes do not overlap. -/
theorem hbmKey_inj {g k o g' k' o' : Nat} (hk : k < 6) (hk' : k' < 6) (ho : o < 2 ^ 40) (ho' : o' < 2 ^ 40) :
    hbmKey g k o = hbmKey g' k' o' ↔ g = g' ∧ k = k' ∧ o = o' := by
  unfold hbmKey
  omega

theorem groupOff_inj {a x : Nat} (hg : homeSaddle a = homeSaddle x) (h : groupOff a = groupOff x) : a = x := by
  unfold homeSaddle at hg
  unfold groupOff at h
  omega

theorem groupOff_lt {gd : Bool} {a : Nat} (h : a < hbmCap gd) : groupOff a < 2 ^ 40 := by
  unfold hbmCap at h
  unfold groupOff
  split at h <;> omega

/-- The place of a byte in Guarded mode, by its stripe and its number among the stripe's five data units. -/
theorem hbmPlace_guarded (a : Nat) : hbmPlace true a =
    (if groupOff a / 256 % 5 < parityStack a then groupOff a / 256 % 5 else groupOff a / 256 % 5 + 1,
      groupOff a / 256 / 5 * 256 + groupOff a % 256) := rfl

theorem hbmPlace_open (a : Nat) : hbmPlace false a = (groupOff a / 256 % 6, groupOff a / 256 / 6 * 256 + groupOff a % 256) := rfl

theorem hbmPlace_stack_lt (gd : Bool) (a : Nat) : (hbmPlace gd a).1 < 6 := by
  cases gd
  · rw [hbmPlace_open]
    exact mod_six _
  · rw [hbmPlace_guarded]
    dsimp only
    split <;> omega

theorem hbmPlace_off_lt {gd : Bool} {a : Nat} (h : a < hbmCap gd) : (hbmPlace gd a).2 < 2 ^ 40 := by
  have hgo := groupOff_lt h
  cases gd
  · rw [hbmPlace_open]; dsimp only; omega
  · rw [hbmPlace_guarded]; dsimp only; omega

/-- The parity stack of a stripe is known from the stack offset of any of its bytes. -/
theorem parityStack_of_off (a : Nat) : parityStack a = (hbmPlace true a).2 / 256 % 6 := by
  rw [hbmPlace_guarded, parityStack]
  dsimp only
  rw [show (groupOff a / 256 / 5 * 256 + groupOff a % 256) / 256 = groupOff a / 256 / 5 by omega]

/-- A byte never lies on the parity stack of its stripe. -/
theorem hbmPlace_ne_parity (a : Nat) : (hbmPlace true a).1 ≠ parityStack a := by
  rw [hbmPlace_guarded]
  dsimp only
  split <;> omega

theorem hbmPlace_inj {gd : Bool} {a x : Nat} (hg : homeSaddle a = homeSaddle x) (h : hbmPlace gd a = hbmPlace gd x) : a = x := by
  refine groupOff_inj hg ?_
  cases gd
  · simp only [hbmPlace_open, Prod.mk.injEq] at h
    omega
  · have hpar : parityStack a = parityStack x := by rw [parityStack_of_off, parityStack_of_off, h]
    simp only [hbmPlace_guarded, Prod.mk.injEq, hpar] at h
    obtain ⟨hk, ho⟩ := h
    have hu : groupOff a / 256 % 5 = groupOff x / 256 % 5 := by split at hk <;> split at hk <;> omega
    omega

/-! ## The five other units of a stripe -/

/-- What a missing unit reads: the exclusive-or of the other five of its stripe (R296). -/
def unitsXor (m : Mem) (g k off : Nat) : Byte :=
  ((List.range 6).filter (fun j => j ≠ k)).foldl (fun x j => x ^^^ m.get (hbmKey g j off)) 0

/-- One term of an exclusive-or changes by d, and so does the whole. -/
theorem foldl_xor_change {f f' : Nat → Byte} {d : Byte} {j : Nat} {l : List Nat} (hn : l.Nodup) (hj : j ∈ l) (h : f' j = f j ^^^ d)
    (ho : ∀ i ∈ l, i ≠ j → f' i = f i) (c : Byte) :
    l.foldl (fun x i => x ^^^ f' i) c = l.foldl (fun x i => x ^^^ f i) c ^^^ d := by
  induction l generalizing c with
  | nil => cases hj
  | cons i l ih =>
    obtain ⟨hi, hl⟩ := List.nodup_cons.mp hn
    have hshift : ∀ (l : List Nat) (c : Byte), l.foldl (fun x i => x ^^^ f i) (c ^^^ d) = l.foldl (fun x i => x ^^^ f i) c ^^^ d := by
      intro l
      induction l with
      | nil => intro c; rfl
      | cons b l ihl =>
        intro c
        rw [List.foldl_cons, List.foldl_cons, ← ihl, BitVec.xor_assoc, BitVec.xor_comm d, ← BitVec.xor_assoc]
    simp only [List.foldl_cons]
    rcases List.mem_cons.mp hj with rfl | hj
    · have hsame : l.foldl (fun x i => x ^^^ f' i) (c ^^^ f' j) = l.foldl (fun x i => x ^^^ f i) (c ^^^ f' j) :=
        List.foldl_ext _ _ _ (fun x i hx => by rw [ho i (.tail _ hx) (fun e => hi (e ▸ hx))])
      rw [hsame, h, ← BitVec.xor_assoc, hshift]
    · rw [ho i (.head _) (fun e => hi (e ▸ hj))]
      exact ih hl hj (fun b hb => ho b (.tail _ hb)) _

/-- A byte put elsewhere than in the other five units leaves what the missing unit reads. -/
theorem unitsXor_put_other {m : Mem} {g k off q : Nat} {b : Byte} (h : ∀ j, j < 6 → j ≠ k → hbmKey g j off ≠ q) :
    unitsXor (m.put q b) g k off = unitsXor m g k off := by
  refine List.foldl_ext _ _ _ (fun x j hj => ?_)
  simp only [List.mem_filter, List.mem_range, decide_eq_true_eq] at hj
  rw [Mem.get_put_other _ _ _ _ (h j hj.1 hj.2)]

/-- A byte put in one of the other five changes what the missing unit reads by as much. -/
theorem unitsXor_put_one {m : Mem} {g j k off : Nat} {d : Byte} (hj : j < 6) (hjk : j ≠ k) (ho : off < 2 ^ 40) :
    unitsXor (m.put (hbmKey g j off) (m.get (hbmKey g j off) ^^^ d)) g k off = unitsXor m g k off ^^^ d := by
  have hmem : j ∈ (List.range 6).filter (fun j => j ≠ k) := by simp [hj, hjk]
  refine foldl_xor_change (f := fun i => m.get (hbmKey g i off))
    (f' := fun i => (m.put (hbmKey g j off) (m.get (hbmKey g j off) ^^^ d)).get (hbmKey g i off)) (List.nodup_range.filter _) hmem (Mem.get_put_same _ _ _) (fun i hi hij => ?_) 0
  refine Mem.get_put_other _ _ _ _ (fun e => hij ?_)
  exact ((hbmKey_inj (List.mem_range.mp (List.mem_filter.mp hi).1) hj ho ho).mp e).2.1

/-! ## Reads and writes of a byte -/

/-- A group that is not Lost has no Failed stack in Open mode, and at most one in Guarded mode (R295). -/
theorem failed_of_not_lost {s : State} {g j k : Nat} (h : groupState s g ≠ 2) (hj : j < 6) (hk : k < 6) (hne : j ≠ k)
    (hf : (stackOf s (6 * g + k)).failed = true) : s.guarded = true ∧ (stackOf s (6 * g + j)).failed = false := by
  have hmem : k ∈ (List.range 6).filter (fun k => (stackOf s (6 * g + k)).failed) := by simp [hk, hf]
  have hpos := List.length_pos_of_mem hmem
  unfold groupState at h
  extract_lets n at h
  have hn : s.guarded = true ∧ n = 1 := by
    by_contra hc
    rw [if_neg (by omega), if_neg (by simpa using hc)] at h
    exact h rfl
  refine ⟨hn.1, ?_⟩
  by_contra hfj
  have hmem' : j ∈ (List.range 6).filter (fun k => (stackOf s (6 * g + k)).failed) := by simpa [hj] using hfj
  obtain ⟨y, hy⟩ := List.length_eq_one_iff.mp hn.2
  rw [hy, List.mem_singleton] at hmem hmem'
  exact hne (hmem'.trans hmem.symm)

/-- What is read at a place: the unit itself, or what the other five give when its stack is Failed. -/
def unitGet (s : State) (m : Mem) (g k off : Nat) : Byte :=
  if (stackOf s (6 * g + k)).failed then unitsXor m g k off else m.get (hbmKey g k off)

theorem hbmGet_eq (s : State) (m : Mem) (x : Nat) : hbmGet { s with hbm := m } x =
    if groupState s (homeSaddle x) = 2 then 0 else unitGet s m (homeSaddle x) (hbmPlace s.guarded x).1 (hbmPlace s.guarded x).2 := rfl

/-- The memory after a byte's own unit is written, a Failed stack aside. -/
def dataPut (s : State) (g k off : Nat) (b : Byte) : Mem :=
  if (stackOf s (6 * g + k)).failed then s.hbm else s.hbm.put (hbmKey g k off) b

/-- The write of a byte: its unit, and the stripe's parity by the change. -/
theorem hbmPut_eq {s : State} {a : Nat} (b : Byte) (h : groupState s (homeSaddle a) ≠ 2) :
    let g := homeSaddle a
    let off := (hbmPlace s.guarded a).2
    let m := dataPut s g (hbmPlace s.guarded a).1 off b
    let q := hbmKey g (parityStack a) off
    hbmPut s a b = { s with hbm := if s.guarded && !(stackOf s (6 * g + parityStack a)).failed then m.put q (m.get q ^^^ (hbmGet s a ^^^ b)) else m } := by
  simp only [hbmPut, dataPut, if_neg h, BitVec.xor_assoc]

section Write
variable {s : State} {g k p off : Nat} {b old : Byte}

/-- Another place keeps what it reads when the unit (k, off) takes b and its parity unit (p, off) the change: a place of the same stripe that is
missing reads both changes, which cancel. -/
theorem unitGet_write_other {g' k' off' : Nat} (hg : groupState s g ≠ 2) (hk : k < 6) (hp : p < 6) (hk' : k' < 6) (ho : off < 2 ^ 40) (ho' : off' < 2 ^ 40)
    (hold : old = unitGet s s.hbm g k off) (hne : ¬ (g' = g ∧ k' = k ∧ off' = off))
    (hpar : g' = g → off' = off → k' ≠ p) :
    let m := dataPut s g k off b
    unitGet s (if !(stackOf s (6 * g + p)).failed then m.put (hbmKey g p off) (m.get (hbmKey g p off) ^^^ (old ^^^ b)) else m) g' k' off' =
      unitGet s s.hbm g' k' off' := by
  intro m
  by_cases hsame : g' = g ∧ off' = off
  · obtain ⟨rfl, rfl⟩ := hsame
    have hkk : k' ≠ k := fun e => hne ⟨rfl, e, rfl⟩
    have hkp' := hpar rfl rfl
    by_cases hf : (stackOf s (6 * g' + k')).failed = true
    · -- the missing unit: data and parity are good, and both change by old ^^^ b
      have hfk := (failed_of_not_lost hg hk hk' hkk.symm hf).2
      have hfp := (failed_of_not_lost hg hp hk' hkp'.symm hf).2
      have hm : m = s.hbm.put (hbmKey g' k off') (s.hbm.get (hbmKey g' k off') ^^^ (old ^^^ b)) := by
        have : old = s.hbm.get (hbmKey g' k off') := by rw [hold, unitGet, hfk]; rfl
        rw [← this, ← BitVec.xor_assoc, BitVec.xor_self, BitVec.zero_xor]
        exact if_neg (by simp [hfk])
      simp only [unitGet, hf, hfp, if_true, Bool.not_false]
      rw [unitsXor_put_one hp hkp'.symm ho, hm, unitsXor_put_one hk hkk.symm ho, BitVec.xor_assoc, BitVec.xor_self, BitVec.xor_zero]
    · have hd : hbmKey g' k' off' ≠ hbmKey g' k off' := fun e => hkk ((hbmKey_inj hk' hk ho ho).mp e).2.1
      have hq : hbmKey g' k' off' ≠ hbmKey g' p off' := fun e => hkp' ((hbmKey_inj hk' hp ho ho).mp e).2.1
      have hm : m.get (hbmKey g' k' off') = s.hbm.get (hbmKey g' k' off') := by
        simp only [m, dataPut]; split
        · rfl
        · exact Mem.get_put_other _ _ _ _ hd
      simp only [unitGet, if_neg hf]
      split
      · rw [Mem.get_put_other _ _ _ _ hq, hm]
      · exact hm
  · -- another stripe: no key of it is written
    have hkey : ∀ i j, i < 6 → j < 6 → hbmKey g' i off' ≠ hbmKey g j off := fun i j hi hj e =>
      let h := (hbmKey_inj hi hj ho' ho).mp e; hsame ⟨h.1, h.2.2⟩
    have hput : ∀ (m : Mem) j v, j < 6 → unitGet s (m.put (hbmKey g j off) v) g' k' off' = unitGet s m g' k' off' := fun m j v hj => by
      simp only [unitGet]
      rw [unitsXor_put_other (fun i hi _ => hkey i j hi hj), Mem.get_put_other _ _ _ _ (hkey k' j hk' hj)]
    have hm : unitGet s m g' k' off' = unitGet s s.hbm g' k' off' := by
      simp only [m, dataPut]; split
      · rfl
      · exact hput _ _ _ hk
    split
    · rw [hput _ _ _ hp, hm]
    · exact hm

/-- The place written reads the byte: itself, or through the parity unit when its stack is Failed. -/
theorem unitGet_write_same (hg : groupState s g ≠ 2) (hk : k < 6) (hp : p < 6) (ho : off < 2 ^ 40) (hkp : k ≠ p)
    (hold : old = unitGet s s.hbm g k off) :
    let m := dataPut s g k off b
    unitGet s (if !(stackOf s (6 * g + p)).failed then m.put (hbmKey g p off) (m.get (hbmKey g p off) ^^^ (old ^^^ b)) else m) g k off = b := by
  intro m
  by_cases hf : (stackOf s (6 * g + k)).failed = true
  · have hfp := (failed_of_not_lost hg hp hk hkp.symm hf).2
    have hm : m = s.hbm := if_pos hf
    have hx : old = unitsXor s.hbm g k off := by rw [hold, unitGet, if_pos hf]
    simp only [unitGet, hf, hfp, if_true, Bool.not_false]
    rw [unitsXor_put_one hp hkp.symm ho, hm, ← hx, ← BitVec.xor_assoc, BitVec.xor_self, BitVec.zero_xor]
  · have hq : hbmKey g k off ≠ hbmKey g p off := fun e => hkp ((hbmKey_inj hk hp ho ho).mp e).2.1
    have hm : m = s.hbm.put (hbmKey g k off) b := if_neg hf
    simp only [unitGet, if_neg hf]
    split
    · rw [Mem.get_put_other _ _ _ _ hq, hm, Mem.get_put_same]
    · rw [hm, Mem.get_put_same]

end Write

/-- In Open mode a byte has no parity, and a group that is not Lost has no Failed stack. -/
theorem hbmGet_hbmPut_open {s : State} {a x : Nat} {b : Byte} (hgd : s.guarded = false) (ha : a < hbmCap s.guarded) (hx : x < hbmCap s.guarded)
    (hg : groupState s (homeSaddle a) ≠ 2) : hbmGet (hbmPut s a b) x = if x = a then b else hbmGet s x := by
  have hnone : ∀ k, k < 6 → (stackOf s (6 * homeSaddle a + k)).failed = false := fun k hk => by
    by_contra hf
    have h := (failed_of_not_lost (j := if k = 0 then 1 else 0) hg (by split <;> omega) hk (by split <;> omega) (by simpa using hf)).1
    rw [hgd] at h; cases h
  have hka := hbmPlace_stack_lt s.guarded a
  have hkx := hbmPlace_stack_lt s.guarded x
  have hput : hbmPut s a b = { s with hbm := s.hbm.put (hbmKey (homeSaddle a) (hbmPlace s.guarded a).1 (hbmPlace s.guarded a).2) b } := by
    refine (hbmPut_eq b hg).trans ?_
    rw [if_neg (by simp [hgd]), dataPut, if_neg (by simp [hnone _ hka])]
  rw [hput, hbmGet_eq]
  by_cases hxa : x = a
  · subst hxa; rw [if_pos rfl]; rw [if_neg hg, unitGet, hnone _ hka]; exact Mem.get_put_same _ _ _
  · rw [if_neg hxa]
    have hkey : hbmKey (homeSaddle x) (hbmPlace s.guarded x).1 (hbmPlace s.guarded x).2 ≠
        hbmKey (homeSaddle a) (hbmPlace s.guarded a).1 (hbmPlace s.guarded a).2 := fun e => by
      obtain ⟨h1, h2, h3⟩ := (hbmKey_inj hkx hka (hbmPlace_off_lt hx) (hbmPlace_off_lt ha)).mp e
      exact hxa (hbmPlace_inj h1 (Prod.ext h2 h3))
    by_cases hh : homeSaddle x = homeSaddle a
    · rw [show hbmGet s x = _ from hbmGet_eq s s.hbm x, unitGet, unitGet, Mem.get_put_other _ _ _ _ hkey, hh, hnone _ hkx]
      rfl
    · rw [show hbmGet s x = _ from hbmGet_eq s s.hbm x, unitGet, unitGet, Mem.get_put_other _ _ _ _ hkey,
        unitsXor_put_other (fun j hj _ e => hh ((hbmKey_inj hj hka (hbmPlace_off_lt hx) (hbmPlace_off_lt ha)).mp e).1)]

/-- In Guarded mode the parity of the stripe is kept, with one stack of the group Failed too. -/
theorem hbmGet_hbmPut_guarded {s : State} {a x : Nat} {b : Byte} (hgd : s.guarded = true) (ha : a < hbmCap s.guarded) (hx : x < hbmCap s.guarded)
    (hg : groupState s (homeSaddle a) ≠ 2) : hbmGet (hbmPut s a b) x = if x = a then b else hbmGet s x := by
  have hka := hbmPlace_stack_lt s.guarded a
  have hkx := hbmPlace_stack_lt s.guarded x
  have hoa := hbmPlace_off_lt ha
  have hox := hbmPlace_off_lt hx
  have hkp : (hbmPlace s.guarded a).1 ≠ parityStack a := by rw [hgd]; exact hbmPlace_ne_parity a
  have hold : hbmGet s a = unitGet s s.hbm (homeSaddle a) (hbmPlace s.guarded a).1 (hbmPlace s.guarded a).2 := by
    rw [show hbmGet s a = _ from hbmGet_eq s s.hbm a, if_neg hg]
  rw [hbmPut_eq b hg, hbmGet_eq]
  simp only [hgd, Bool.true_and] at hka hkx hoa hox hkp hold ⊢
  by_cases hxa : x = a
  · subst hxa; rw [if_pos rfl]; rw [if_neg hg]; exact unitGet_write_same hg hka (parityStack_lt _) hoa hkp hold
  · rw [if_neg hxa, show hbmGet s x = _ from hbmGet_eq s s.hbm x, hgd]
    congr 1
    refine unitGet_write_other hg hka (parityStack_lt _) hkx hoa hox hold (fun ⟨h1, h2, h3⟩ => hxa ?_) (fun h1 h2 => ?_)
    · exact hbmPlace_inj (gd := true) h1 (Prod.ext h2 h3)
    · rw [show parityStack a = parityStack x by rw [parityStack_of_off, parityStack_of_off, h2]]
      exact hbmPlace_ne_parity x

/-- Settles O16: in each mode by the place of the byte and the units that a read of another goes to. -/
theorem hbmWriteChangesOneByte : Obligations.HbmWriteChangesOneByte := by
  unfold Obligations.HbmWriteChangesOneByte
  intro s a x b ha hx hg
  cases hgd : s.guarded
  · exact hbmGet_hbmPut_open hgd ha hx hg
  · exact hbmGet_hbmPut_guarded hgd ha hx hg

end Sys2Proof.Machine
end

section
/-! PROOFS. What a pass through a Saddle changes when no cell on its way fails: PassOnly says it once, and each operation of the pass keeps to it
(R299, R333, R344). -/

namespace Sys2Proof.Machine

open Sys2Proof

/-- The registers that a pass without a failing cell may write: the count of bound misses, and the counters of the two Saddles and of the far ports. -/
inductive PassReg : Nat → Prop
  | bound : PassReg 0x130018
  | rebuilt (n : Nat) : PassReg (sBase n + 0x10034)
  | fetched (n : Nat) : PassReg (sBase n + 0x20000)
  | used (n : Nat) : PassReg (sBase n + 0x20004)
  | missed (n : Nat) : PassReg (sBase n + 0x20008)
  | arbiter (n : Nat) : PassReg (sBase n + 0x8002C)
  | far (p : Nat) : PassReg (hBase (p / 4) + 0x30008 + 0x10 * (p % 4))

/-- The states differ at most in the Reservoirs, their prefetchers, arbiters and port buckets, the amounts of reservations, and the counters of these. -/
def PassOnly (s t : State) : Prop :=
  t = { s with regs := t.regs, saddles := t.saddles, rsvs := t.rsvs } ∧ (∀ off d, ¬ PassReg off → rg t off d = rg s off d) ∧
  ∀ n, ∃ ls pl pf pt ar, saddle t n = { saddle s n with lines := ls, plru := pl, pfs := pf, ptok := pt, arbs := ar }

variable {s t u : State} {α β : Type}

theorem PassOnly.refl (s : State) : PassOnly s s := ⟨rfl, fun _ _ _ => rfl, fun _ => ⟨_, _, _, _, _, rfl⟩⟩

theorem PassOnly.trans (h : PassOnly s t) (h' : PassOnly t u) : PassOnly s u := by
  obtain ⟨a, r, b⟩ := h
  obtain ⟨a', r', b'⟩ := h'
  refine ⟨by rw [a', a], fun o d ho => (r' o d ho).trans (r o d ho), fun n => ?_⟩
  obtain ⟨x1, x2, x3, x4, x5, hx⟩ := b n
  obtain ⟨y1, y2, y3, y4, y5, hy⟩ := b' n
  exact ⟨y1, y2, y3, y4, y5, by rw [hy, hx]⟩

theorem PassOnly.ite {c : Prop} [Decidable c] {a b : State} (h : PassOnly s a) (h' : PassOnly s b) : PassOnly s (if c then a else b) := by
  split <;> assumption

/-- A pass made of passes, one for each element of a list. -/
theorem PassOnly.foldl {f : State → β → State} (hf : ∀ t b, PassOnly t (f t b)) (l : List β) (s : State) : PassOnly s (l.foldl f s) := by
  induction l generalizing s with
  | nil => exact .refl s
  | cons b l ih => exact (hf s b).trans (ih (f s b))

/-- The same when an answer goes along, before or after the state. -/
theorem PassOnly.foldl_snd {f : α × State → β → α × State} (hf : ∀ p b, PassOnly p.2 (f p b).2) (l : List β) (p : α × State) :
    PassOnly p.2 (l.foldl f p).2 := by
  induction l generalizing p with
  | nil => exact .refl _
  | cons b l ih => exact (hf p b).trans (ih (f p b))

theorem PassOnly.foldl_fst {f : State × α → β → State × α} (hf : ∀ p b, PassOnly p.1 (f p b).1) (l : List β) (p : State × α) :
    PassOnly p.1 (l.foldl f p).1 := by
  induction l generalizing p with
  | nil => exact .refl _
  | cons b l ih => exact (hf p b).trans (ih (f p b))

theorem satAdd_passOnly (s : State) {off : Nat} (h : PassReg off) (d : W32) (lo len n : Nat) : PassOnly s (satAdd s off d lo len n) :=
  ⟨rfl, fun _ _ ho => rg_setRg_other _ _ _ _ _ (fun e => ho (e ▸ h)), fun _ => ⟨_, _, _, _, _, rfl⟩⟩

theorem updSaddle_passOnly (s : State) (n : Nat) (f : Saddle → Saddle)
    (hf : ∃ ls pl pf pt ar, f (saddle s n) = { saddle s n with lines := ls, plru := pl, pfs := pf, ptok := pt, arbs := ar }) :
    PassOnly s (updSaddle s n f) := by
  refine ⟨rfl, fun _ _ _ => rfl, fun k => ?_⟩
  by_cases h : k = n
  · subst h; rw [saddle_updSaddle_same]; exact hf
  · exact ⟨_, _, _, _, _, by rw [saddle_updSaddle_other _ _ _ _ h]⟩

/-! ## Arbiters and port buckets -/

theorem turnStat_passOnly (s : State) {off : Nat} (h : PassReg off) (f r : Nat) : PassOnly s (turnStat s off f r) := by
  have h1 : PassOnly s (if f = 0 then s else satAdd s off 0 16 16 f) := .ite (.refl s) (satAdd_passOnly s h _ _ _ _)
  exact h1.trans (.ite (.refl _) (satAdd_passOnly _ h _ _ _ _))

theorem passArb_passOnly (s : State) (n port : Nat) (reqs : List (Nat × ArbReq)) : PassOnly s (passArb s n port reqs) :=
  (updSaddle_passOnly s n _ ⟨_, _, _, _, _, rfl⟩).trans (turnStat_passOnly _ (.arbiter n) _ _)

theorem passRsvPort_passOnly (s : State) (n : Nat) (q : Path) (cls a bytes : Nat) : PassOnly s (passRsvPort s n q cls a bytes) :=
  passArb_passOnly s n _ _

theorem passStacks_passOnly (s : State) (n cls : Nat) (exempt : Bool) (ls : List (Nat × Nat)) : PassOnly s (passStacks s n cls exempt ls) :=
  .foldl (fun t _ => passArb_passOnly t n _ _) _ s

theorem rebuildPass_passOnly (s : State) (n k beats : Nat) : PassOnly s (rebuildPass s n k beats) :=
  .foldl (fun t _ => passArb_passOnly t n _ _) _ s

theorem writeBacks_passOnly (s : State) (n wb line : Nat) : PassOnly s (writeBacks s n wb line) :=
  .ite (.refl s) (passStacks_passOnly s n _ _ _)

theorem portCharge_passOnly (s : State) (n p bytes : Nat) : PassOnly s (portCharge s n p bytes) :=
  .ite (updSaddle_passOnly s n _ ⟨_, _, _, _, _, rfl⟩) (.refl s)

theorem chargePorts_passOnly (s : State) (l : List (Nat × Nat × Nat)) : PassOnly s (chargePorts s l) :=
  .foldl (fun t _ => portCharge_passOnly t _ _ _) l s

theorem set_rsvs_passOnly (s : State) (l : List Rsv) : PassOnly s { s with rsvs := l } :=
  ⟨rfl, fun _ _ _ => rfl, fun _ => ⟨_, _, _, _, _, rfl⟩⟩

theorem boundPass_passOnly (s : State) (q : Path) (a n : Nat) (wr : Bool) : PassOnly s (boundPass s q a n wr).2 := by
  unfold boundPass
  split
  · exact .refl s
  · split
    · split
      · exact set_rsvs_passOnly s _
      · exact satAdd_passOnly s .bound _ _ _ _
    · exact satAdd_passOnly s .bound _ _ _ _

/-! ## The Reservoir -/

/-- A line put in a Saddle's Reservoir changes its directory alone. -/
theorem updSaddle_putLine_passOnly (s : State) (g : Bool) (n line : Nat) (v m : BitVec 4) (pf : Bool) :
    PassOnly s (updSaddle s n (fun _ => (putLine g (saddle s n) line v m pf).1)) := by
  obtain ⟨ls, pl, hp⟩ := putLine_only g (saddle s n) line v m pf
  exact updSaddle_passOnly s n _ ⟨ls, pl, _, _, _, hp⟩

theorem prefetch_passOnly (s : State) (lines : List Nat) : PassOnly s (prefetch s lines) :=
  .foldl (fun t l => .ite (.refl t)
    ((updSaddle_putLine_passOnly t t.guarded _ l _ _ _).trans (satAdd_passOnly _ (.fetched _) _ _ _ _))) lines s

theorem rsvCount_passOnly (s : State) (n : Nat) (x : RLine) (m : BitVec 4) (wr : Bool) : PassOnly s (rsvCount s n x m wr) := by
  have h1 : PassOnly s (if x.pf then satAdd s (sBase n + 0x20004) 0 0 32 1 else s) := .ite (satAdd_passOnly s (.used n) _ _ _ _) (.refl s)
  exact h1.trans (.ite (.refl _) (satAdd_passOnly _ (.missed n) _ _ _ _))

theorem rsvLine_passOnly (wr : Bool) (st : State × Nat) (e : Nat × BitVec 4) : PassOnly st.1 (rsvLine wr st e).1 := by
  unfold rsvLine
  extract_lets n through s1
  split
  · exact .refl _
  · exact (rsvCount_passOnly st.1 n _ _ _).trans (updSaddle_putLine_passOnly s1 _ n _ _ _ _)

theorem rsvAccess_passOnly (s : State) (a n : Nat) (wr : Bool) : PassOnly s (rsvAccess s a n wr).1 :=
  .foldl_fst (fun st e => rsvLine_passOnly wr st e) _ (s, 0)

/-! ## What is fetched, when no cell fails -/

theorem farCount_passOnly (s : State) (x : Nat) : PassOnly s (farCount s x) := by
  unfold farCount
  split
  · extract_lets off reg bad poison lo s1
    have hp : ∀ t p, PassOnly t (poison t p) := fun t p => .ite (satAdd_passOnly t (.far p) _ _ _ _) (.refl t)
    have h1 : PassOnly s s1 := .ite (hp s lo) (.refl s)
    exact .ite (.ite (.refl s) (.ite h1 (.ite (h1.trans (hp s1 _)) (h1.trans (satAdd_passOnly s1 (.far lo) _ _ _ _))))) (.ite (hp s _) (.refl s))
  · exact .refl s

/-- A Failed stack of a group that is not Lost stands in a Guarded module. -/
theorem guarded_of_failed {n k : Nat} (h : groupState s n ≠ 2) (hk : k < 6) (hf : (stackOf s (6 * n + k)).failed = true) : s.guarded = true :=
  (failed_of_not_lost (j := if k = 0 then 1 else 0) h (by split <;> omega) hk (by split <;> omega) hf).1

theorem rebuildFails_clean (sec : Nat) : rebuildFails {} sec = false := by simp [rebuildFails]

theorem failingMates_clean (s : State) (secs : List Nat) : failingMates s {} secs = [] := by
  have h : ∀ l : List Nat, l.flatMap (fun sec => (((stripeMates (sec * 32)).filter (fun m => ([] : List Nat).contains m)).map
      (fun m => stackPort s (m / 8))) ++ (if ([] : List Nat).contains sec then [parityStack (sec * 32)] else [])) = [] := by simp
  unfold failingMates
  rw [h]
  rfl

/-- The unit of a Failed stack is rebuilt, and no sector is lost (R296). -/
theorem rebuildUnit_passOnly (n : Nat) (secs : List Nat) (h : s.guarded = true) : PassOnly s (rebuildUnit s n {} true secs) := by
  have hlost : ∀ t : State, t.guarded = true →
      secs.filter (fun sec => !t.guarded || (groupState t n ≠ 0 && !true) || rebuildFails {} sec) = [] := fun t ht => by
    simp [ht, rebuildFails_clean]
  unfold rebuildUnit
  extract_lets k s1 lost s2
  have h1 : PassOnly s s1 := by
    refine .ite (.refl s) ?_
    rw [failingMates_clean]
    exact rebuildPass_passOnly s n k _
  have hg : s1.guarded = true := by rw [h1.1]; exact h
  have h2 : s2 = s1 := by simp only [s2, lost, hlost s1 hg]; rfl
  rw [h2]
  exact h1.trans (.ite (satAdd_passOnly s1 (.rebuilt n) _ _ _ _) (.refl s1))

theorem fetchUnits_passOnly (s : State) (n : Nat) (miss : List (Nat × BitVec 4)) : PassOnly s (fetchUnits s n {} miss) := by
  refine .foldl (fun t m => ?_) miss s
  extract_lets k secs fixed s1 bad
  have hfixed : fixed = 0 := by simp [fixed]
  have hbad : bad = [] := by simp [bad]
  split
  · exact .refl t
  · next hlost =>
    split
    · next hf => exact rebuildUnit_passOnly n secs (guarded_of_failed (fun e => hlost (by simp [e])) (stackPort_lt t m.1) hf)
    · rw [hbad, if_pos List.isEmpty_nil]
      simp only [s1, hfixed, if_true]
      exact .refl t

theorem rsvErrs_nil (s : State) (n a len : Nat) : rsvErrs s n a len [] = s := by
  unfold rsvErrs
  generalize lineParts a len = l
  induction l with
  | nil => rfl
  | cons e l ih =>
    rw [List.foldl_cons]
    refine Eq.trans (congrArg (fun t => List.foldl _ t l) ?_) ih
    split
    · rfl
    · simp [sectorsBad]

/-! ## Prefetchers -/

theorem fetchAhead_passOnly (s : State) (n : Nat) (ls : List Nat) : PassOnly s (fetchAhead s n ls) := by
  unfold fetchAhead
  extract_lets ls s1 s2
  have h1 : PassOnly s s1 := passStacks_passOnly s n _ _ _
  have h2 : PassOnly s1 s2 := .foldl (fun t l => (fetchUnits_passOnly t n _).trans (.foldl (fun t _ => farCount_passOnly t _) _ _)) ls s1
  exact (h1.trans h2).trans (prefetch_passOnly s2 ls)

theorem pfFetch_passOnly (s : State) (n k al a : Nat) (p : Prefetcher) : PassOnly s (pfFetch s n k al a p) :=
  .ite (.refl s) (.ite (.refl s) ((fetchAhead_passOnly s n _).trans (updSaddle_passOnly _ n _ ⟨_, _, _, _, _, rfl⟩)))

theorem trainPf_passOnly (s : State) (n st al a : Nat) : PassOnly s (trainPf s n st al a) :=
  .ite (.refl s) ((updSaddle_passOnly s n _ ⟨_, _, _, _, _, rfl⟩).trans (pfFetch_passOnly _ n _ al a _))

theorem pfHits_passOnly (s : State) (n : Nat) (st : Option Nat) (al a : Nat) (ls : List Nat) : PassOnly s (pfHits s n st al a ls) := by
  unfold pfHits
  extract_lets d
  split
  · exact .refl s
  · split
    · exact .refl s
    · exact (updSaddle_passOnly s n _ ⟨_, _, _, _, _, rfl⟩).trans (pfFetch_passOnly _ n _ al a _)

/-! ## The pass -/

theorem portCharge_lines (s : State) (n p bytes k : Nat) : (saddle (portCharge s n p bytes) k).lines = (saddle s k).lines := by
  unfold portCharge
  split
  · by_cases h : k = n
    · subst h; rw [saddle_updSaddle_same]
    · rw [saddle_updSaddle_other _ _ _ _ h]
  · rfl

theorem chargePorts_lines (s : State) (l : List (Nat × Nat × Nat)) (k : Nat) : (saddle (chargePorts s l) k).lines = (saddle s k).lines := by
  induction l generalizing s with
  | nil => rfl
  | cons e l ih => exact (ih _).trans (portCharge_lines s _ _ _ k)

theorem boundPass_saddles (s : State) (q : Path) (a n : Nat) (wr : Bool) : (boundPass s q a n wr).2.saddles = s.saddles := by
  unfold boundPass
  split
  · rfl
  · split
    · split <;> rfl
    · rfl

/-- Where a request has passed the port buckets: a bound one draws on its reservation, an open one is charged. -/
def charged (s : State) (q : Path) (a n : Nat) (wr : Bool) : State :=
  if (boundPass s q a n wr).1 || !q.charge then (boundPass s q a n wr).2
  else chargePorts (boundPass s q a n wr).2 (portBytes (boundPass s q a n wr).2 a n wr)

theorem charged_passOnly (s : State) (q : Path) (a n : Nat) (wr : Bool) : PassOnly s (charged s q a n wr) :=
  .ite (boundPass_passOnly s q a n wr) ((boundPass_passOnly s q a n wr).trans (chargePorts_passOnly _ _))

theorem charged_lines (s : State) (q : Path) (a n : Nat) (wr : Bool) (k : Nat) : (saddle (charged s q a n wr) k).lines = (saddle s k).lines := by
  have hb : saddle (boundPass s q a n wr).2 k = saddle s k := by simp only [saddle, boundPass_saddles]
  unfold charged
  split
  · rw [hb]
  · rw [chargePorts_lines, hb]

/-- The pass of one window, around what its misses meet: before it only port buckets and arbiters, after it counters, prefetchers and the directory. -/
theorem windowPass_around (s : State) (q : Path) (a n : Nat) (wr : Bool) (e : MemErrs) (hs : saddleServes s a = true) :
    let h := homeSaddle a
    let s1 := charged (rsvErrs (expanderErrs s e.far) h a n e.rsv) q a n wr
    ∃ s3, PassOnly s1 s3 ∧
      PassOnly (fetchUnits s3 h e (if wr then [] else missOf (saddle s1 h) a n)) (windowPass s q a n wr e).2 := by
  intro h s1
  unfold windowPass
  rw [if_neg (show ¬ (!saddleServes s a) = true by simp [hs])]
  dsimp -zeta only
  let cls := if (boundPass (rsvErrs (expanderErrs s e.far) h a n e.rsv) q a n wr).1 then 0 else q.cls
  let miss := if wr then [] else missOf (saddle s1 h) a n
  refine ⟨passStacks (passRsvPort s1 h q cls a n) h cls q.exempt (miss.map (fun e => (e.1, popSectors e.2))),
    (passRsvPort_passOnly _ h q cls a n).trans (passStacks_passOnly _ h cls q.exempt _), ?_⟩
  extract_lets _ s1 cls miss s2 s3 s4 s5 s6 s7
  have h5 : PassOnly s4 s5 := .foldl (fun t _ => farCount_passOnly t _) _ _
  have h6 : PassOnly s4 s6 := .ite h5 (h5.trans (pfHits_passOnly s5 h _ _ _ _))
  have h7 : PassOnly s4 s7 := (h6.trans (rsvAccess_passOnly s6 a n wr)).trans (writeBacks_passOnly _ h _ _)
  dsimp only [Prod.snd]
  cases q.stream with
  | none => exact h7
  | some st => exact .ite h7 (h7.trans (trainPf_passOnly s7 h _ _ _))

theorem windowPass_passOnly (s : State) (q : Path) (a n : Nat) (wr : Bool) : PassOnly s (windowPass s q a n wr {}).2 := by
  by_cases hs : saddleServes s a = true
  · obtain ⟨s3, h3, h4⟩ := windowPass_around s q a n wr {} hs
    rw [rsvErrs_nil] at h3
    exact (((charged_passOnly s q a n wr).trans h3).trans (fetchUnits_passOnly s3 _ _)).trans h4
  · unfold windowPass
    rw [if_pos (by simpa using hs)]
    exact .refl s

/-- An access that meets no failing cell passes its home Saddles and changes only what it goes through. -/
theorem saddlePass_passOnly (s : State) (q : Path) (a n : Nat) (wr : Bool) : PassOnly s (saddlePass s q a n wr).2 :=
  .foldl_snd (fun st _ => windowPass_passOnly st.2 q _ _ wr) _ (false, s)

end Sys2Proof.Machine
end

section
/-! PROOFS. What is read of the memories: SameMem says when two states read the same, and how a write of part of an HBM sector reads back
(R281, R293 to R296). -/

namespace Sys2Proof.Machine

open Sys2Proof

/-! ## States that hold the same memories -/

/-- The states read the same at every device physical address: the same bytes and poison, mirrors, far ports and Failed stacks. -/
structure SameMem (s t : State) : Prop where
  hbm : t.hbm = s.hbm
  hbmPoison : t.hbmPoison = s.hbmPoison
  far : t.far = s.far
  host : t.host = s.host
  peer : t.peer = s.peer
  guarded : t.guarded = s.guarded
  farPorts : t.farPorts = s.farPorts
  mir : t.mir = s.mir
  stack : ∀ k, stackOf t k = stackOf s k

section Same
variable {s t u : State}

theorem SameMem.refl (s : State) : SameMem s s := ⟨rfl, rfl, rfl, rfl, rfl, rfl, rfl, rfl, fun _ => rfl⟩

theorem SameMem.symm (h : SameMem s t) : SameMem t s :=
  ⟨h.hbm.symm, h.hbmPoison.symm, h.far.symm, h.host.symm, h.peer.symm, h.guarded.symm, h.farPorts.symm, h.mir.symm, fun k => (h.stack k).symm⟩

theorem SameMem.trans (h : SameMem s t) (h' : SameMem t u) : SameMem s u :=
  ⟨h'.hbm.trans h.hbm, h'.hbmPoison.trans h.hbmPoison, h'.far.trans h.far, h'.host.trans h.host, h'.peer.trans h.peer, h'.guarded.trans h.guarded,
    h'.farPorts.trans h.farPorts, h'.mir.trans h.mir, fun k => (h'.stack k).trans (h.stack k)⟩

theorem PassOnly.sameMem (h : PassOnly s t) : SameMem s t := by
  obtain ⟨hs, -, hd⟩ := h
  refine ⟨by rw [hs], by rw [hs], by rw [hs], by rw [hs], by rw [hs], by rw [hs], by rw [hs], by rw [hs], fun k => ?_⟩
  obtain ⟨_, _, _, _, _, e⟩ := hd (k / 6)
  rw [stackOf, e]
  rfl

theorem LogOnly.sameMem (h : LogOnly s t) : SameMem s t :=
  ⟨by rw [h], by rw [h], by rw [h], by rw [h], by rw [h], by rw [h], by rw [h], by rw [h], fun k => by rw [stackOf, saddle, h]; rfl⟩

theorem updRun_sameMem (s : State) (k : Nat) (f : Run → Run) : SameMem s (updRun s k f) := by
  unfold updRun
  split
  · exact ⟨rfl, rfl, rfl, rfl, rfl, rfl, rfl, rfl, fun _ => rfl⟩
  · exact .refl s

variable (h : SameMem s t)
include h

theorem SameMem.groupState (g : Nat) : groupState t g = groupState s g := by simp only [Machine.groupState, h.stack, h.guarded]

theorem SameMem.hbmGet (a : Nat) : hbmGet t a = hbmGet s a := by simp only [Machine.hbmGet, h.groupState, h.stack, h.guarded, h.hbm]

theorem SameMem.hbmBad (a : Nat) : hbmBad t a = hbmBad s a := by simp only [Machine.hbmBad, h.groupState, h.hbmPoison]

theorem SameMem.tierOf (a : Nat) : tierOf t a = tierOf s a := by simp only [Machine.tierOf, h.guarded]

theorem SameMem.mirrored (p off : Nat) : mirrored t p off = mirrored s p off := by simp only [Machine.mirrored, h.mir]

theorem SameMem.farServes (p off : Nat) : farServes t p off = farServes s p off := by
  unfold Machine.farServes farPort
  rw [h.farPorts]

theorem SameMem.farOpen (p off : Nat) : farOpen t p off = farOpen s p off := by
  unfold Machine.farOpen farPort
  rw [h.farPorts]

theorem SameMem.farGet (a : Nat) : farGet t a = farGet s a := by
  simp only [Machine.farGet, h.mirrored, h.farServes, h.farOpen, h.far]

theorem SameMem.dpaGet (a : Nat) : dpaGet t a = dpaGet s a := by
  simp only [Machine.dpaGet, h.tierOf, h.hbmGet, h.hbmBad, h.farGet, h.host, h.peer]

theorem SameMem.dpaRead (a n : Nat) : dpaRead t a n = dpaRead s a n := by simp only [Machine.dpaRead, h.dpaGet]

end Same

/-! ## A byte of HBM -/

/-- A byte put in HBM changes the stacks' bytes alone. -/
theorem hbmPut_frame (s : State) (a : Nat) (b : Byte) : hbmPut s a b = { s with hbm := (hbmPut s a b).hbm } := by
  unfold hbmPut
  extract_lets g
  split
  next k off _ =>
  split
  · rfl
  · rfl

theorem hbmPutBytes_frame (s : State) (a : Nat) (bs : List Byte) : hbmPutBytes s a bs = { s with hbm := (hbmPutBytes s a bs).hbm } := by
  induction bs generalizing s a with
  | nil => rfl
  | cons b bs ih =>
    rw [hbmPutBytes, ih]
    rw [hbmPut_frame]

theorem groupState_hbmPut (s : State) (a : Nat) (b : Byte) (g : Nat) : groupState (hbmPut s a b) g = groupState s g := by
  rw [hbmPut_frame]; rfl

/-- Bytes put one after another in a group that is not Lost read back, and no other byte changes. -/
theorem hbmGet_hbmPutBytes {s : State} {a x : Nat} {bs : List Byte} (ha : a + bs.length ≤ hbmCap s.guarded) (hx : x < hbmCap s.guarded)
    (hg : ∀ k, k < bs.length → groupState s (homeSaddle (a + k)) ≠ 2) :
    hbmGet (hbmPutBytes s a bs) x = if a ≤ x ∧ x < a + bs.length then bs.getD (x - a) 0 else hbmGet s x := by
  induction bs generalizing s a with
  | nil => rw [if_neg (by simp only [List.length_nil]; omega)]; rfl
  | cons b bs ih =>
    simp only [List.length_cons] at ha hg ⊢
    have hgd : (hbmPut s a b).guarded = s.guarded := by rw [hbmPut_frame]
    have hput := hbmWriteChangesOneByte s a x b (by omega) hx (by simpa using hg 0 (by omega))
    have hgs : ∀ k, k < bs.length → groupState (hbmPut s a b) (homeSaddle (a + 1 + k)) ≠ 2 := fun k hk => by
      rw [groupState_hbmPut, show a + 1 + k = a + (k + 1) by omega]
      exact hg (k + 1) (by omega)
    rw [hbmPutBytes, ih (by rw [hgd]; omega) (by rw [hgd]; exact hx) hgs, hput]
    by_cases hxa : x = a
    · subst hxa
      rw [if_neg (by omega), if_pos rfl, if_pos (by omega)]
      simp
    · rw [if_neg hxa]
      by_cases h2 : a + 1 ≤ x ∧ x < a + 1 + bs.length
      · rw [if_pos h2, if_pos (by omega), show x - a = (x - (a + 1)) + 1 by omega, List.getD_cons_succ]
      · rw [if_neg h2, if_neg (by omega)]

/-! ## A sector of HBM -/

/-- Addresses in one sector have one home. -/
theorem homeSaddle_sector {a k : Nat} (h : a % 32 + k < 32) : homeSaddle (a + k) = homeSaddle a := by
  unfold homeSaddle
  omega

theorem tierOf_hbm {s : State} {a : Nat} (h : a < hbmCap s.guarded) : tierOf s a = .hbm := if_pos h

/-- A write of part of a sector of HBM puts its bytes and sets the sector's poison. -/
theorem dpaWriteSector_hbm {s : State} {a : Nat} (bs : List PByte) (ha : a < hbmCap s.guarded) (hg : groupState s (homeSaddle a) ≠ 2) :
    dpaWriteSector s a bs = { s with
      hbm := (hbmPutBytes s a (bs.map (·.1))).hbm
      hbmPoison := sectorSet s.hbmPoison (a / 32) (poisonAfter (s.hbmPoison.contains (a / 32)) (bs.any (·.2)) bs.length) } := by
  unfold dpaWriteSector
  rw [tierOf_hbm ha]
  dsimp only
  rw [if_neg hg, hbmPutBytes_frame]

theorem groupState_dpaWriteSector_hbm {s : State} {a : Nat} (bs : List PByte) (ha : a < hbmCap s.guarded) (hg : groupState s (homeSaddle a) ≠ 2) (g : Nat) :
    groupState (dpaWriteSector s a bs) g = groupState s g := by
  rw [dpaWriteSector_hbm bs ha hg]; rfl

/-- The bytes of a part of a sector that was written read back, and no other byte of HBM changes. -/
theorem hbmGet_dpaWriteSector {s : State} {a x : Nat} {bs : List PByte} (hn : 0 < bs.length) (hsec : a % 32 + bs.length ≤ 32)
    (ha : a + bs.length ≤ hbmCap s.guarded) (hx : x < hbmCap s.guarded) (hg : groupState s (homeSaddle a) ≠ 2) :
    hbmGet (dpaWriteSector s a bs) x = if a ≤ x ∧ x < a + bs.length then (bs.map (·.1)).getD (x - a) 0 else hbmGet s x := by
  have h := hbmGet_hbmPutBytes (s := s) (a := a) (x := x) (bs := bs.map (·.1)) (by simpa using ha) hx (fun k hk => by
    rw [homeSaddle_sector (by simp only [List.length_map] at hk; omega)]; exact hg)
  rw [List.length_map] at h
  rw [dpaWriteSector_hbm bs (by omega) hg, ← h, hbmPutBytes_frame]
  rfl

/-- The poison of the sector written is that of the rule, and no other sector's changes. -/
theorem hbmBad_dpaWriteSector {s : State} {a x : Nat} {bs : List PByte} (ha : a < hbmCap s.guarded) (hg : groupState s (homeSaddle a) ≠ 2) :
    hbmBad (dpaWriteSector s a bs) x = if x / 32 = a / 32 then
      poisonAfter (s.hbmPoison.contains (a / 32)) (bs.any (·.2)) bs.length || decide (groupState s (homeSaddle x) = 2) else hbmBad s x := by
  have hc : ∀ b, (sectorSet s.hbmPoison (a / 32) b).contains (x / 32) = if x / 32 = a / 32 then b else s.hbmPoison.contains (x / 32) := fun b => by
    rw [Bool.eq_iff_iff]
    simp only [List.contains_iff_mem, mem_sectorSet]
    split <;> simp
  rw [hbmBad, groupState_dpaWriteSector_hbm bs ha hg, dpaWriteSector_hbm bs ha hg]
  simp only [hc]
  split
  · rw [Bool.or_comm]
  · rfl

/-- What is read of HBM after part of one sector was written there. -/
theorem dpaGet_dpaWriteSector {s : State} {a x : Nat} {bs : List PByte} (hn : 0 < bs.length) (hsec : a % 32 + bs.length ≤ 32)
    (ha : a + bs.length ≤ hbmCap s.guarded) (hx : x < hbmCap s.guarded) (hg : groupState s (homeSaddle a) ≠ 2) :
    dpaGet (dpaWriteSector s a bs) x =
      (if a ≤ x ∧ x < a + bs.length then (bs.map (·.1)).getD (x - a) 0 else hbmGet s x,
        if x / 32 = a / 32 then poisonAfter (s.hbmPoison.contains (a / 32)) (bs.any (·.2)) bs.length || decide (groupState s (homeSaddle x) = 2)
        else hbmBad s x) := by
  have hgd : (dpaWriteSector s a bs).guarded = s.guarded := by rw [dpaWriteSector_hbm bs (by omega) hg]
  have ht : tierOf (dpaWriteSector s a bs) x = .hbm := tierOf_hbm (by rw [hgd]; exact hx)
  simp only [dpaGet, ht]
  rw [hbmGet_dpaWriteSector hn hsec ha hx hg, hbmBad_dpaWriteSector (by omega) hg]

theorem dpaGet_hbm {s : State} {a : Nat} (h : a < hbmCap s.guarded) : dpaGet s a = (hbmGet s a, hbmBad s a) := by
  simp only [dpaGet, tierOf_hbm h]

/-! ## Little-endian numbers -/

theorem leBytes_succ (n v : Nat) : leBytes (n + 1) v = BitVec.ofNat 8 v :: leBytes n (v / 256) := by
  unfold leBytes
  rw [List.range_succ_eq_map, List.map_cons, List.map_map]
  simp only [Nat.pow_zero, Nat.div_one, List.cons.injEq, true_and]
  refine List.map_congr_left (fun k _ => ?_)
  simp only [Function.comp, Nat.pow_succ]
  rw [Nat.mul_comm, Nat.div_div_eq_div_mul]

@[simp] theorem length_leBytes (n v : Nat) : (leBytes n v).length = n := by simp [leBytes]

/-- A number read back from its bytes, modulo what they hold. -/
theorem leNat_leBytes (n v : Nat) : leNat (leBytes n v) = v % 256 ^ n := by
  induction n generalizing v with
  | zero => simp [leBytes, leNat, Nat.mod_one]
  | succ n ih =>
    have h : leNat (leBytes (n + 1) v) = (BitVec.ofNat 8 v).toNat + 256 * leNat (leBytes n (v / 256)) := by rw [leBytes_succ]; rfl
    rw [h, ih, BitVec.toNat_ofNat, show 256 ^ (n + 1) = 256 ^ n * 256 from rfl, Nat.mul_comm (256 ^ n), Nat.mod_mul]

theorem leNat_lt (bs : List Byte) : leNat bs < 256 ^ bs.length := by
  induction bs with
  | nil => exact Nat.one_pos
  | cons b bs ih =>
    have h : leNat (b :: bs) = b.toNat + 256 * leNat bs := rfl
    have hb := b.isLt
    rw [h, List.length_cons, Nat.pow_succ]
    omega

end Sys2Proof.Machine
end

section
/-! PROOFS. The reduction guard of a Saddle (chapter 09): a contribution is combined at most once, and what a guard step does (R231, R232, R234). -/

namespace Sys2Proof.Machine

open Sys2Proof

/-! ## Guard records (Table 09-6) -/

/-- A record's fields fit their places. -/
def GRec.Fits (r : GRec) : Prop := r.bitmap < 2 ^ 256 ∧ r.item < 2 ^ 48 ∧ r.n1 < 256 ∧ r.op < 16 ∧ r.fmt < 32

theorem GRec.length_bytes (r : GRec) : r.bytes.length = 64 := by simp [GRec.bytes]

/-- A record whose fields fit reads back from its bytes. -/
theorem GRec.ofBytes_bytes {r : GRec} (h : r.Fits) : GRec.ofBytes r.bytes = r := by
  obtain ⟨hb, hi, hn, ho, hf⟩ := h
  have h1 : ((r.bytes).drop 0).take 32 = leBytes 32 r.bitmap := by simp [GRec.bytes]
  have h2 : ((r.bytes).drop 0x20).take 8 = leBytes 8 (r.item * 2 ^ 16 + r.n1 * 2 ^ 8 + r.op * 2 ^ 4) := by
    simp [GRec.bytes]
  have h3 : ((r.bytes).drop 0x28).take 4 = leBytes 4 (r.valid.toNat * 2 ^ 31 + r.fmt) := by
    simp [GRec.bytes, List.drop_append, List.take_append]
  have hv : r.valid.toNat ≤ 1 := by cases r.valid <;> decide
  have hw : leNat (leBytes 8 (r.item * 2 ^ 16 + r.n1 * 2 ^ 8 + r.op * 2 ^ 4)) = r.item * 2 ^ 16 + r.n1 * 2 ^ 8 + r.op * 2 ^ 4 := by
    rw [leNat_leBytes, Nat.mod_eq_of_lt (by omega)]
  have hx : leNat (leBytes 4 (r.valid.toNat * 2 ^ 31 + r.fmt)) = r.valid.toNat * 2 ^ 31 + r.fmt := by
    rw [leNat_leBytes, Nat.mod_eq_of_lt (by omega)]
  have hy : leNat (leBytes 32 r.bitmap) = r.bitmap := by
    rw [leNat_leBytes, Nat.mod_eq_of_lt (by simpa using hb)]
  have hvalid : decide ((r.valid.toNat * 2 ^ 31 + r.fmt) / 2 ^ 31 = 1) = r.valid := by
    rw [show (r.valid.toNat * 2 ^ 31 + r.fmt) / 2 ^ 31 = r.valid.toNat by omega]
    cases r.valid <;> rfl
  simp only [GRec.ofBytes, h1, h2, h3, hw, hx, hy, hvalid]
  obtain ⟨bitmap, item, n1, op, valid, fmt⟩ := r
  simp only [GRec.mk.injEq, true_and] at *
  refine ⟨?_, ?_, ?_, ?_⟩ <;> omega

/-- A record read from bytes has fields that fit, but for an item that fills more than its place. -/
theorem GRec.ofBytes_bitmap_lt (bs : List Byte) : (GRec.ofBytes bs).bitmap < 2 ^ 256 := by
  have h := leNat_lt ((bs.drop 0).take 32)
  have hl : ((bs.drop 0).take 32).length ≤ 32 := by simp
  have hp : (256 : Nat) ^ ((bs.drop 0).take 32).length ≤ 256 ^ 32 := Nat.pow_le_pow_right (by decide) hl
  have he : (256 : Nat) ^ 32 = 2 ^ 256 := by norm_num
  exact lt_of_lt_of_le h (hp.trans he.le)

/-! ## A record written to HBM -/

theorem sectorParts_64 {a : Nat} (h : a % 64 = 0) : sectorParts a 64 = [(0, 32), (32, 32)] := by
  have h1 : (a + 64 - 1) / 32 - a / 32 + 1 = 2 := by omega
  have h2 : List.range 2 = [0, 1] := rfl
  simp only [sectorParts, if_neg (show ¬ 64 = 0 by decide), h1, h2, List.map_cons, List.map_nil, List.cons.injEq, Prod.mk.injEq, and_true]
  omega

/-- 64 clean bytes written to HBM, two whole sectors, read back clean, whatever was there. -/
theorem dpaRead_dpaWrite_clean64 {s : State} {a : Nat} {bs : List Byte} (hl : bs.length = 64) (ha : a % 64 = 0) (hc : a + 64 ≤ hbmCap s.guarded)
    (hg : groupState s (homeSaddle a) ≠ 2) : dpaRead (dpaWrite s a (cleanBytes bs)) a 64 = cleanBytes bs := by
  have hlen : (cleanBytes bs).length = 64 := by simp [cleanBytes, hl]
  let b1 : List PByte := (cleanBytes bs).take 32
  let b2 : List PByte := ((cleanBytes bs).drop 32).take 32
  have hl1 : b1.length = 32 := by simp [b1, hlen]
  have hl2 : b2.length = 32 := by simp [b2, hlen]
  have hclean : ∀ l : List PByte, (∀ b ∈ l, b ∈ cleanBytes bs) → l.any (·.2) = false := fun l h => by
    rw [List.any_eq_false]
    intro b hb
    obtain ⟨x, -, rfl⟩ := List.mem_map.mp (h b hb)
    simp
  have hc1 : b1.any (·.2) = false := hclean _ (fun b hb => List.mem_of_mem_take hb)
  have hc2 : b2.any (·.2) = false := hclean _ (fun b hb => List.mem_of_mem_drop (List.mem_of_mem_take hb))
  let s1 := dpaWriteSector s a b1
  have hw : dpaWrite s a (cleanBytes bs) = dpaWriteSector s1 (a + 32) b2 := by
    simp only [dpaWrite, hlen, sectorParts_64 ha, List.foldl_cons, List.foldl_nil, List.drop_zero]
    rfl
  have hgd : s1.guarded = s.guarded := by simp only [s1]; rw [dpaWriteSector_hbm _ (by omega) hg]
  have hg1 : ∀ g, groupState s1 g = groupState s g := groupState_dpaWriteSector_hbm _ (by omega) hg
  have hh : homeSaddle (a + 32) = homeSaddle a := by unfold homeSaddle; omega
  have hhome : ∀ k, k < 64 → homeSaddle (a + k) = homeSaddle a := fun k hk => by unfold homeSaddle; omega
  rw [hw]
  refine List.ext_getElem (by simp [dpaRead, hlen]) (fun k hk hk' => ?_)
  have hk64 : k < 64 := by simpa [dpaRead] using hk
  have hread : (dpaRead (dpaWriteSector s1 (a + 32) b2) a 64)[k]'hk = dpaGet (dpaWriteSector s1 (a + 32) b2) (a + k) := by simp [dpaRead]
  refine hread.trans ?_
  rw [dpaGet_dpaWriteSector (by omega) (by omega) (by rw [hgd]; omega) (by rw [hgd]; omega) (by rw [hg1, hh]; exact hg)]
  have hnl : ∀ t : State, (∀ g, groupState t g = groupState s g) → decide (groupState t (homeSaddle (a + k)) = 2) = false := fun t ht => by
    rw [ht, hhome k hk64]; simpa using hg
  have hbyte : (cleanBytes bs)[k] = (bs.getD k 0, false) := by
    simp [cleanBytes, List.getD_eq_getElem?_getD, hl, hk64]
  rw [hbyte, hc2, hl2, hnl s1 hg1]
  by_cases h32 : k < 32
  · rw [if_neg (by omega), if_neg (by omega)]
    simp only [s1]
    rw [hbmGet_dpaWriteSector (by omega) (by omega) (by omega) (by omega) hg, hbmBad_dpaWriteSector (by omega) hg, if_pos (by omega), if_pos (by omega),
      hc1, hl1, hnl s (fun _ => rfl)]
    simp [b1, cleanBytes, poisonAfter, h32, List.getD_eq_getElem?_getD, Function.comp_def]
  · have hj : a + k - (a + 32) = k - 32 := by omega
    rw [if_pos (by omega), if_pos (by omega), hj]
    simp [b2, cleanBytes, poisonAfter, List.getD_eq_getElem?_getD, Function.comp_def, show k - 32 < 32 by omega,
      show 32 + (k - 32) = k by omega]

/-- In a Lost group every byte reads poisoned. -/
theorem dpaRead_lost {s : State} {a n : Nat} (hn : 0 < n) (ha : a < hbmCap s.guarded) (hg : groupState s (homeSaddle a) = 2) :
    (dpaRead s a n).any (·.2) = true := by
  refine List.any_eq_true.mpr ⟨dpaGet s a, List.mem_map.mpr ⟨0, by simpa using hn, rfl⟩, ?_⟩
  simp [dpaGet_hbm ha, hbmBad, hg]

/-! ## Writes of a guard change data, and no stack and no mode -/

/-- The states differ only in bytes and poison outside the terraces. -/
def DataOnly (s t : State) : Prop := t = { s with hbm := t.hbm, hbmPoison := t.hbmPoison, far := t.far, host := t.host }

theorem DataOnly.refl (s : State) : DataOnly s s := rfl

theorem DataOnly.trans {s t u : State} (h : DataOnly s t) (h' : DataOnly t u) : DataOnly s u := by unfold DataOnly at *; rw [h', h]

theorem DataOnly.ite {s a b : State} {c : Prop} [Decidable c] (h : DataOnly s a) (h' : DataOnly s b) : DataOnly s (if c then a else b) := by
  split <;> assumption

theorem DataOnly.foldl {α : Type} {f : State → α → State} (hf : ∀ t b, DataOnly t (f t b)) (l : List α) (s : State) : DataOnly s (l.foldl f s) := by
  induction l generalizing s with
  | nil => exact .refl s
  | cons b l ih => exact (hf s b).trans (ih (f s b))

theorem DataOnly.guarded {s t : State} (h : DataOnly s t) : t.guarded = s.guarded := by rw [h]

theorem DataOnly.groupState {s t : State} (h : DataOnly s t) (g : Nat) : groupState t g = groupState s g := by rw [h]; rfl

theorem farWrite_dataOnly (s : State) (a : Nat) (bs : List PByte) : DataOnly s (farWrite s a bs) := by
  unfold farWrite
  extract_lets p off at' put
  have hp : ∀ t q, DataOnly t (put t q) := fun t q => .ite rfl (.refl t)
  exact .ite ((hp _ _).trans (hp _ _)) (hp _ _)

theorem dpaWriteSector_dataOnly (s : State) (a : Nat) (bs : List PByte) : DataOnly s (dpaWriteSector s a bs) := by
  unfold dpaWriteSector
  cases tierOf s a with
  | hbm => exact .ite (.refl s) (by rw [hbmPutBytes_frame]; rfl)
  | far _ => exact farWrite_dataOnly s a bs
  | host => rfl
  | peer _ => exact .refl s
  | hole => exact .refl s

theorem dpaWrite_dataOnly (s : State) (a : Nat) (bs : List PByte) : DataOnly s (dpaWrite s a bs) :=
  .foldl (fun t _ => dpaWriteSector_dataOnly t _ _) _ s

theorem writeTile_dataOnly (s : State) (c : Contribution) : DataOnly s (writeTile s c) := dpaWrite_dataOnly s _ _

theorem writeGRec_dataOnly (s : State) (c : Contribution) (r : GRec) : DataOnly s (writeGRec s c r) := dpaWrite_dataOnly s _ _

theorem combineTile_dataOnly (s : State) (c : Contribution) : DataOnly s (combineTile s c) := .foldl (fun t _ => dpaWrite_dataOnly t _ _) _ s

/-! ## What a guard step leaves of memory -/

theorem guardMismatch_sameMem (s : State) (n : Nat) (c : Contribution) : SameMem s (guardMismatch s n c) := by
  have h : SameMem s (rasAppend (satAdd s (sBase n + 0x5000C) 0 0 32 1) 0x13 1 3 n (some c.allot) c.tileVa) :=
    ((satAdd_logOnly _ _ _ _ _).trans (rasAppend_logOnly _ _ _ _ _ _)).sameMem
  unfold guardMismatch
  cases c.slot with
  | none => exact h
  | some k => exact h.trans (updRun_sameMem _ k _)

theorem ctrAdd_sameMem (s : State) (off n : Nat) : SameMem s (ctrAdd s off n) := ⟨rfl, rfl, rfl, rfl, rfl, rfl, rfl, rfl, fun _ => rfl⟩

theorem passTile_passOnly (s : State) (c : Contribution) (first : Bool) : PassOnly s (passTile s c first) :=
  .ite (saddlePass_passOnly _ _ _ _ _) (.foldl (fun _ _ => (saddlePass_passOnly _ _ _ _ _).trans (saddlePass_passOnly _ _ _ _ _)) _ s)

/-- The record that a contribution finds, as its 64 bytes with their poison. -/
def foundRecord (s : State) (c : Contribution) : List PByte := dpaRead s c.record 64

/-- Does a record refuse a contribution of its item: the packet does not fit it, or its index is in the bitmap? -/
def GRec.refuses (r : GRec) (c : Contribution) : Prop :=
  (r.n1 ≠ c.n1 || r.op ≠ c.op || r.fmt ≠ c.fmt || r.n1 < c.ci) = true ∨ r.bitmap / 2 ^ c.ci % 2 = 1

/-- A contribution has nothing to combine any more: its record is poisoned, or is of its item and refuses it. -/
def Spent (s : State) (c : Contribution) : Prop :=
  (foundRecord s c).any (·.2) = true ∨
  let r := GRec.ofBytes ((foundRecord s c).map (·.1))
  (!r.valid || r.item ≠ c.tag) = false ∧ r.refuses c

theorem SameMem.foundRecord {s t : State} (h : SameMem s t) (c : Contribution) : foundRecord t c = foundRecord s c := h.dpaRead _ _

theorem Spent.of_sameMem {s t : State} {c : Contribution} (h : SameMem s t) (hs : Spent s c) : Spent t c := by
  unfold Spent at *; rwa [h.foundRecord]

/-- A guard step on a spent contribution changes no memory. -/
theorem Spent.guardStep_sameMem {s : State} {c : Contribution} (h : Spent s c) (n : Nat) : SameMem s (guardStep s n c) := by
  unfold guardStep
  extract_lets old r u applied
  have hu : SameMem s u := (saddlePass_passOnly _ _ _ _ _).sameMem
  rcases h with hbad | ⟨hmine, hr⟩
  · rw [if_pos (by exact hbad)]
    exact hu.trans (guardMismatch_sameMem u n c)
  · split
    · exact hu.trans (guardMismatch_sameMem u n c)
    · have hmine : (!r.valid || r.item ≠ c.tag) = false := hmine
      rw [if_neg (ne_true_of_eq_false hmine)]
      rcases hr with hr | hr
      · rw [if_pos (by exact hr)]
        exact hu.trans (guardMismatch_sameMem u n c)
      · split
        · exact hu.trans (guardMismatch_sameMem u n c)
        · rw [if_pos (by exact hr)]
          exact hu.trans (satAdd_logOnly _ _ _ _ _).sameMem

/-- A record written to HBM that refuses a contribution of its item leaves that contribution spent. -/
theorem spent_writeGRec {s : State} {c : Contribution} {r : GRec} (ha : c.record % 64 = 0) (hc : c.record + 64 ≤ hbmCap s.guarded) (hf : r.Fits)
    (hv : r.valid = true) (hi : r.item = c.tag) (hr : r.refuses c) : Spent (writeGRec s c r) c := by
  by_cases hg : groupState s (homeSaddle c.record) = 2
  · refine .inl (dpaRead_lost (by decide) ?_ ?_)
    · rw [(writeGRec_dataOnly s c r).guarded]; omega
    · rw [(writeGRec_dataOnly s c r).groupState]; exact hg
  · have hfound : foundRecord (writeGRec s c r) c = cleanBytes r.bytes := dpaRead_dpaWrite_clean64 r.length_bytes ha hc hg
    have hbytes : (cleanBytes r.bytes).map (·.1) = r.bytes := by simp [cleanBytes, Function.comp_def]
    refine .inr ?_
    rw [hfound, hbytes, GRec.ofBytes_bytes hf]
    exact ⟨by simp [hv, hi], hr⟩

/-- Setting a clear bit of a bitmap keeps its width and sets the bit. -/
theorem add_two_pow_of_clear {b i w : Nat} (hb : b < 2 ^ w) (hi : i < w) (hclear : b / 2 ^ i % 2 ≠ 1) :
    b + 2 ^ i < 2 ^ w ∧ (b + 2 ^ i) / 2 ^ i % 2 = 1 := by
  obtain ⟨k, rfl⟩ : ∃ k, w = i + (k + 1) := ⟨w - i - 1, by omega⟩
  have hpos : 0 < 2 ^ i := Nat.two_pow_pos i
  have hq : b / 2 ^ i < 2 ^ k * 2 := by rw [Nat.div_lt_iff_lt_mul hpos]; rwa [pow_add, pow_succ, mul_comm] at hb
  have hdiv : (b + 2 ^ i) / 2 ^ i = b / 2 ^ i + 1 := Nat.add_div_right b hpos
  refine ⟨?_, by omega⟩
  rw [pow_add, pow_succ, mul_comm, ← Nat.div_lt_iff_lt_mul hpos, hdiv]
  omega

/-- A contribution that has been through the guard is spent. -/
theorem guardStep_spent {s : State} {n : Nat} {c : Contribution} (ha : c.record % 64 = 0) (hc : c.record + 64 ≤ hbmCap s.guarded)
    (hci : c.ci < 256) (hn : c.n1 < 256) (hop : c.op < 16) (hfmt : c.fmt < 32) (htag : c.tag < 2 ^ 48) : Spent (guardStep s n c) c := by
  unfold guardStep
  extract_lets old r u applied
  have hu : SameMem s u := (saddlePass_passOnly _ _ _ _ _).sameMem
  have happ : ∀ f t, SameMem t (applied f t) := fun f t =>
    ((ctrAdd_sameMem t _ _).trans (passTile_passOnly _ _ _).sameMem).trans (saddlePass_passOnly _ _ _ _ _).sameMem
  have hcap : ∀ t, DataOnly u t → c.record + 64 ≤ hbmCap t.guarded := fun t h => by rw [h.guarded, hu.guarded]; exact hc
  split
  next hbad => exact Spent.of_sameMem (hu.trans (guardMismatch_sameMem u n c)) (.inl hbad)
  next =>
    split
    next =>
      refine Spent.of_sameMem (happ _ _) (spent_writeGRec ha (hcap _ (writeTile_dataOnly u c))
        ⟨Nat.pow_lt_pow_right (by decide) hci, htag, hn, hop, hfmt⟩ rfl rfl (.inr ?_))
      simp [Nat.div_self (Nat.two_pow_pos c.ci)]
    next hmine =>
      have hmine' : (!r.valid || r.item ≠ c.tag) = false := by simpa using hmine
      split
      next hmis => exact Spent.of_sameMem (hu.trans (guardMismatch_sameMem u n c)) (.inr ⟨hmine', .inl hmis⟩)
      next hfit =>
        split
        next hdup => exact Spent.of_sameMem (hu.trans (satAdd_logOnly _ _ _ _ _).sameMem) (.inr ⟨hmine', .inr hdup⟩)
        next hnew =>
          obtain ⟨hv, hi⟩ : r.valid = true ∧ r.item = c.tag := by simpa using hmine'
          obtain ⟨⟨⟨h1, h2⟩, h3⟩, -⟩ : ((r.n1 = c.n1 ∧ r.op = c.op) ∧ r.fmt = c.fmt) ∧ c.ci ≤ r.n1 := by simpa using hfit
          obtain ⟨hb, hset⟩ := add_two_pow_of_clear (GRec.ofBytes_bitmap_lt _) hci hnew
          exact Spent.of_sameMem (happ _ _) (spent_writeGRec ha (hcap _ (combineTile_dataOnly u c))
            ⟨hb, hi ▸ htag, h1 ▸ hn, h2 ▸ hop, h3 ▸ hfmt⟩ hv hi (.inr hset))

/-- Settles O33: after a guard step the contribution is spent, whichever branch it took, and a guard step on a spent contribution changes no memory. -/
theorem contributionsCombineOnce : Obligations.ContributionsCombineOnce := by
  intro s n m c ha hc hci hn hop hfmt htag u v
  have h : SameMem u v := (guardStep_spent ha hc hci hn hop hfmt htag).guardStep_sameMem m
  exact ⟨h.hbm, h.hbmPoison, h.far, h.host, h.peer⟩

/-! ## What one guard step does -/

/-- The first contribution that has arrived, when the ones before it have not. -/
theorem takeFirst_append {α : Type} {p : α → Bool} {pre rest : List α} {c : α} (hpre : ∀ y ∈ pre, p y = false) (hc : p c = true) :
    takeFirst p (pre ++ c :: rest) = some (c, pre ++ rest) := by
  induction pre with
  | nil => simp [takeFirst, hc]
  | cons y l ih => simp [takeFirst, hpre y (by simp), ih (fun z hz => hpre z (by simp [hz]))]

theorem takeFirst_none {α : Type} {p : α → Bool} {l : List α} (h : ∀ y ∈ l, p y = false) : takeFirst p l = none := by
  induction l with
  | nil => rfl
  | cons y l ih => simp [takeFirst, h y (by simp), ih (fun z hz => h z (by simp [hz]))]

/-- Settles O32: each clause is one branch of guardStep. -/
theorem guardApplies : Obligations.GuardApplies := by
  intro sd s
  refine ⟨fun h => by simp only [exec, execGuardApply, takeFirst_none h], fun c pre rest hl hpre hc => ?_⟩
  extract_lets v old r u ends counted
  have hends : ∀ t, guardStep v sd.val c = t → ends t := fun t h => by
    simp only [ends, exec, execGuardApply, hl, takeFirst_append hpre hc]
    exact congrArg (fun t => Host.Outcome.next (fenceArrivals t)) h
  refine ⟨fun hb => hends _ (if_pos (List.any_eq_true.mpr hb)), fun hclean => ?_⟩
  have hgood : ¬ (dpaRead v c.record 64).any (fun b => b.2) = true := by
    rw [Bool.not_eq_true, List.any_eq_false]; exact fun b hb => by simp [hclean b hb]
  refine ⟨fun hnew => hends _ ?_, fun hv hi => ?_⟩
  · have hnew' : (!r.valid || r.item ≠ c.tag) = true := by simpa using hnew
    exact (if_neg hgood).trans (if_pos hnew')
  have hmine : ¬ (!r.valid || r.item ≠ c.tag) = true := by simp [hv, hi]
  refine ⟨fun hmis => hends _ ?_, fun h1 h2 h3 h4 => ?_⟩
  · have hmis' : (r.n1 ≠ c.n1 || r.op ≠ c.op || r.fmt ≠ c.fmt || r.n1 < c.ci) = true := by simpa [or_assoc] using hmis
    exact (if_neg hgood).trans ((if_neg hmine).trans (if_pos hmis'))
  have hfit : ¬ (r.n1 ≠ c.n1 || r.op ≠ c.op || r.fmt ≠ c.fmt || r.n1 < c.ci) = true := by simpa [h1, h2, h3] using h1 ▸ h4
  refine ⟨fun hset => hends _ ?_, fun hclear => hends _ ?_⟩
  · refine (if_neg hgood).trans ((if_neg hmine).trans ((if_neg hfit).trans (if_pos (c := r.bitmap / 2 ^ c.ci % 2 = 1) ?_)))
    simpa [Nat.testBit_eq_decide_div_mod_eq] using hset
  · refine (if_neg hgood).trans ((if_neg hmine).trans ((if_neg hfit).trans (if_neg (c := r.bitmap / 2 ^ c.ci % 2 = 1) ?_)))
    simpa [Nat.testBit_eq_decide_div_mod_eq] using hclear

end Sys2Proof.Machine
end

section
/-! PROOFS. Recomputation of the reservable capacities (chapter 12, R339): a revocation changes no figure, and takes from every sum. -/

namespace Sys2Proof.Machine

open Sys2Proof

variable {s t u : State}

/-! ## A revocation changes no figure -/

/-- The states differ only in what a notice and a log entry write, and in the list of reservations. -/
def RevokeOnly (s t : State) : Prop :=
  t = { s with
    regs := t.regs, ras := t.ras, rasNext := t.rasNext, evq := t.evq, intPend := t.intPend, out := t.out, rings := t.rings, rsvs := t.rsvs
    rsvRevoked := t.rsvRevoked } ∧
  ∀ d, rg t 0x130014 d = rg s 0x130014 d

theorem RevokeOnly.refl (s : State) : RevokeOnly s s := ⟨rfl, fun _ => rfl⟩

theorem RevokeOnly.trans (h : RevokeOnly s t) (h' : RevokeOnly t u) : RevokeOnly s u :=
  ⟨by rw [h'.1, h.1], fun d => (h'.2 d).trans (h.2 d)⟩

theorem RevokeOnly.resFigure (h : RevokeOnly s t) (b : Nat) : resFigure t b = resFigure s b := by rw [h.1]; rfl

theorem RevokeOnly.rsvDue (h : RevokeOnly s t) : t.rsvDue = s.rsvDue := by rw [h.1]

theorem RevokeOnly.resFits (h : RevokeOnly s t) (b n : Nat) : resFits t b n = resFits s b n := by
  unfold Machine.resFits rsvPct; rw [h.resFigure, h.2]

theorem satAdd_revokeOnly (s : State) {off : Nat} (ho : off ≠ 0x130014) (d : W32) (lo len n : Nat) : RevokeOnly s (satAdd s off d lo len n) :=
  ⟨rfl, fun _ => rg_setRg_other _ _ _ _ _ ho.symm⟩

theorem rasAppend_revokeOnly (s : State) (code sev skind unit : Nat) (al : Option Nat) (detail : Nat) :
    RevokeOnly s (rasAppend s code sev skind unit al detail) := by
  refine ⟨?_, fun d => ?_⟩
  · rw [rasAppend_logOnly (s := s)]
  · refine (rasAppend_fetch (CacheOnly.refl s)).2.1 _ _ (fun h => ?_)
    generalize ho : 0x130014 = o at h
    cases h
    case fence | stack | rebuilt | fetched | used | missed | arbiter | far => simp only [tBase, sBase, hBase] at ho; omega
    all_goals omega

theorem ringPut_revokeOnly (s : State) (k : Nat) (p : Packet) : RevokeOnly s (ringPut s k p) := by
  unfold ringPut
  extract_lets r r' s'
  split
  · exact ⟨rfl, fun _ => rfl⟩
  · exact RevokeOnly.trans (t := s') ⟨rfl, fun _ => rfl⟩ (satAdd_revokeOnly _ (by unfold hBase; omega) _ _ _ _)

theorem gaugePost_revokeOnly (s : State) (type al : Nat) (words : List W64) (notice : Bool) : RevokeOnly s (gaugePost s type al words notice) := by
  unfold gaugePost
  extract_lets p s'
  split
  · exact (ringPut_revokeOnly _ _ _).trans (ringPut_revokeOnly _ _ _)
  · exact ringPut_revokeOnly _ _ _

/-- Is a reservation another one than r? -/
def otherRsv (r x : Rsv) : Bool := !(x.allot == r.allot && x.index == r.index)

theorem revoke_effect (s : State) (r : Rsv) (cause : Nat) :
    RevokeOnly s (revoke s r cause) ∧ (revoke s r cause).rsvs = s.rsvs.filter (otherRsv r) := by
  unfold revoke
  extract_lets s1 s2
  have h1 : RevokeOnly s s1 := ⟨rfl, fun _ => rfl⟩
  have h2 : RevokeOnly s1 s2 := gaugePost_revokeOnly _ _ _ _ _
  have hr : s2.rsvs = s1.rsvs := by
    have hput : ∀ (t : State) (k : Nat) (p : Packet), (ringPut t k p).rsvs = t.rsvs := fun t k p => by
      unfold ringPut
      extract_lets r r' s'
      split <;> rfl
    simp only [s2]
    unfold gaugePost
    extract_lets p t
    split
    · exact (hput _ _ _).trans (hput _ _ _)
    · exact hput _ _ _
  refine ⟨(h1.trans h2).trans ((rasAppend_revokeOnly _ _ _ _ _ _ _).trans (satAdd_revokeOnly _ (by decide) _ _ _ _)), ?_⟩
  rw [show (satAdd _ 0x130018 0 16 16 1).rsvs = _ from rfl, rasAppend_logOnly (s := s2)]
  exact hr

/-! ## What revocations leave -/

/-- What revocations of some reservations leave: no figure changes, and the reservations are some of those before. -/
def FewerRsvs (s t : State) : Prop := RevokeOnly s t ∧ t.rsvs.Sublist s.rsvs

theorem FewerRsvs.refl (s : State) : FewerRsvs s s := ⟨.refl s, List.Sublist.refl _⟩

theorem FewerRsvs.trans (h : FewerRsvs s t) (h' : FewerRsvs t u) : FewerRsvs s u := ⟨h.1.trans h'.1, h'.2.trans h.2⟩

theorem revoke_fewer (s : State) (r : Rsv) (cause : Nat) : FewerRsvs s (revoke s r cause) := by
  obtain ⟨h, hr⟩ := revoke_effect s r cause
  exact ⟨h, hr ▸ List.filter_sublist⟩

/-- A resource that fits goes on to fit. -/
theorem FewerRsvs.resFits {b : Nat} (h : FewerRsvs s t) (hf : resFits s b (resSum s b) = true) : Machine.resFits t b (resSum t b) = true := by
  have hsum : resSum t b ≤ resSum s b := (h.2.map _).sum_le_sum (fun _ _ => Nat.zero_le _)
  rw [h.1.resFits]
  simp only [Machine.resFits, decide_eq_true_eq] at hf ⊢
  omega

theorem mem_sortBy {α : Type} (le : α → α → Bool) (l : List α) (y : α) : y ∈ sortBy le l ↔ y ∈ l := by
  induction l with
  | nil => simp [sortBy]
  | cons a l ih => simp only [sortBy, List.foldr_cons, mem_insBy, List.mem_cons] at ih ⊢; rw [ih]

theorem exists_head_sortBy {α : Type} {l : List α} {a : α} (le : α → α → Bool) (h : a ∈ l) : ∃ e ∈ l, (sortBy le l).head? = some e := by
  have hne : sortBy le l ≠ [] := List.ne_nil_of_mem ((mem_sortBy le l a).mpr h)
  exact ⟨_, (mem_sortBy le l _).mp (List.head_mem hne), List.head?_eq_some_head hne⟩

/-- A reservation to revoke is one there is, and there is one while a resource does not fit. -/
theorem victim_of_over {b : Nat} (h : resFits s b (resSum s b) = false) : ∃ r k, victim s b = some (r, k) ∧ r ∈ s.rsvs := by
  have hpos : 0 < resSum s b := by
    simp only [Machine.resFits, decide_eq_false_iff_not] at h
    omega
  obtain ⟨r, hr, htakes⟩ : ∃ r ∈ s.rsvs, 0 < r.takes b := by
    by_contra hno
    push Not at hno
    have : resSum s b = 0 := List.sum_eq_zero (by simpa using hno)
    omega
  obtain ⟨i, hi⟩ := List.mem_iff_getElem?.mp hr
  unfold victim
  extract_lets l
  have hmem : (r, i) ∈ l := List.mem_filter.mpr ⟨List.mk_mem_zipIdx_iff_getElem?.mpr hi, by simpa using htakes⟩
  have hfirst : ∀ le, ∃ r k, (sortBy le l).head? = some (r, k) ∧ r ∈ s.rsvs := fun le => by
    obtain ⟨⟨r', k⟩, hel, he⟩ := exists_head_sortBy le hmem
    exact ⟨r', k, he, List.mem_of_getElem? (List.mk_mem_zipIdx_iff_getElem?.mp (List.mem_filter.mp hel).1)⟩
  exact hfirst _

/-- Revoking until a resource fits ends with it fitting, when there is a step for each reservation. -/
theorem fitOne_fits (cause b : Nat) (s : State) (fuel : Nat) (hf : s.rsvs.length < fuel) :
    FewerRsvs s (fitOne s cause b fuel) ∧ resFits (fitOne s cause b fuel) b (resSum (fitOne s cause b fuel) b) = true := by
  induction fuel generalizing s with
  | zero => omega
  | succ fuel ih =>
    unfold fitOne
    split
    next h => exact ⟨.refl s, h⟩
    next h =>
      obtain ⟨r, k, hv, hr⟩ := victim_of_over (Bool.not_eq_true _ ▸ h)
      rw [hv]
      have hshort : (revoke s r cause).rsvs.length < s.rsvs.length := by
        rw [(revoke_effect s r cause).2]
        exact List.length_filter_lt_length_iff_exists.mpr ⟨r, hr, by simp [otherRsv]⟩
      obtain ⟨h1, h2⟩ := ih (revoke s r cause) (by omega)
      exact ⟨(revoke_fewer s r cause).trans h1, h2⟩

/-- Resource by resource: each fits afterwards, and what fitted before goes on to. -/
theorem fitAll_fits (cause : Nat) (l : List Nat) (s : State) :
    let t := l.foldl (fun s b => fitOne s cause b (s.rsvs.length + 1)) s
    FewerRsvs s t ∧ ∀ b ∈ l, resFits t b (resSum t b) = true := by
  induction l generalizing s with
  | nil => exact ⟨.refl s, fun _ h => nomatch h⟩
  | cons a l ih =>
    obtain ⟨h1, h2⟩ := fitOne_fits cause a s (s.rsvs.length + 1) (by omega)
    obtain ⟨h3, h4⟩ := ih (fitOne s cause a (s.rsvs.length + 1))
    refine ⟨h1.trans h3, fun b hb => ?_⟩
    rcases List.mem_cons.mp hb with rfl | hb
    · exact h3.resFits h2
    · exact h4 b hb

/-- With nothing over, nothing is revoked. -/
theorem fitAll_of_fits (cause : Nat) (l : List Nat) (s : State) (h : ∀ b ∈ l, resFits s b (resSum s b) = true) :
    l.foldl (fun s b => fitOne s cause b (s.rsvs.length + 1)) s = s := by
  induction l with
  | nil => rfl
  | cons a l ih =>
    have ha : fitOne s cause a (s.rsvs.length + 1) = s := if_pos (h a (by simp))
    rw [List.foldl_cons, ha]
    exact ih (fun b hb => h b (by simp [hb]))

/-- Settles O40: each resource is revoked for until it fits, and a revocation takes from the sums without changing a figure. -/
theorem recomputationFits : Obligations.RecomputationFits := by
  intro s c
  obtain ⟨⟨hrev, hsub⟩, hfits⟩ := fitAll_fits c (List.range 20) { s with rsvDue := none }
  refine ⟨fun b hb => hfits b (List.mem_range.mpr hb), fun r hr => hsub.subset hr, hrev.rsvDue, fun h => ?_⟩
  exact fitAll_of_fits c _ _ (fun b hb => h b (List.mem_range.mp hb))

end Sys2Proof.Machine
end

section
/-! PROOFS. The port arbiters of Turnout (chapter 12, R342 to R345): what a decision does to the counts of the requesters present, the bound within
which a requester is granted, and when a grant ends. -/

namespace Sys2Proof.Machine

open Sys2Proof

/-! ## Maps: removal -/

theorem mget?_mdel {α : Type} (m : Map α) (k j : Nat) : mget? (mdel m k) j = if j = k then none else mget? m j := by
  induction m with
  | nil => simp [mdel, mget?]
  | cons e r ih =>
    obtain ⟨k', v⟩ := e
    unfold mdel at ih ⊢
    by_cases hk : k' = k
    · rw [List.filter_cons_of_neg (by simpa using hk), ih]
      by_cases hj : j = k
      · rw [if_pos hj, if_pos hj]
      · rw [if_neg hj, if_neg hj, mget?, if_neg (by omega)]
    · rw [List.filter_cons_of_pos (by simpa using hk), mget?, mget?, ih]
      by_cases hj : k' = j
      · rw [if_pos hj, if_pos hj, if_neg (by omega)]
      · rw [if_neg hj, if_neg hj]

theorem mget_mdel {α : Type} (m : Map α) (k j : Nat) (d : α) : mget (mdel m k) j d = if j = k then d else mget m j d := by
  unfold mget; rw [mget?_mdel]; split <;> rfl

/-! ## One decision -/

/-- The count of a requester. -/
def Arb.cnt (a : Arb) (x : Nat) : Nat := mget a.waits x 0

/-- The counts after a decision that grants x: of those present, the winner's returns to 0 and the others take a new value. -/
theorem cnt_foldl (f : Nat → Nat) (x : Nat) (l : List (Nat × Nat)) (m : Map Nat) (y : Nat) :
    mget (l.foldl (fun m e => if e.1 = x then mdel m e.1 else mset m e.1 (f e.1)) m) y 0 =
      if y ∈ l.map (·.1) then (if y = x then 0 else f y) else mget m y 0 := by
  induction l generalizing m with
  | nil => simp
  | cons e l ih =>
    have hstep : mget (if e.1 = x then mdel m e.1 else mset m e.1 (f e.1)) y 0 = if y = e.1 then (if y = x then 0 else f y) else mget m y 0 := by
      by_cases hx : e.1 = x
      · rw [if_pos hx, mget_mdel]
        split
        next he => rw [if_pos (he.trans hx)]
        next => rfl
      · rw [if_neg hx, mget_mset]
        split
        next he => rw [if_neg (fun h => hx (he ▸ h)), he]
        next => rfl
    have hmem : y ∈ (e :: l).map (·.1) ↔ y = e.1 ∨ y ∈ l.map (·.1) := List.mem_cons
    rw [List.foldl_cons, ih, hstep]
    by_cases hy : y ∈ l.map (·.1)
    · rw [if_pos hy, if_pos (hmem.mpr (.inr hy))]
    · rw [if_neg hy]
      by_cases he : y = e.1
      · rw [if_pos he, if_pos (hmem.mpr (.inl he))]
      · rw [if_neg he, if_neg (fun h => (hmem.mp h).elim he hy)]

/-- The first of a sorted list has the largest measure, when the order puts the larger measure first. -/
theorem head_sortBy_max {α : Type} {le : α → α → Bool} {f : α → Nat} (h1 : ∀ a b, le a b = true → f b ≤ f a) (h2 : ∀ a b, le a b = false → f a ≤ f b)
    {l : List α} {e : α} {r : List α} (he : sortBy le l = e :: r) : ∀ z ∈ l, f z ≤ f e := by
  induction l generalizing e r with
  | nil => simp
  | cons a l ih =>
    have hs : sortBy le (a :: l) = insBy le a (sortBy le l) := rfl
    rw [hs] at he
    cases hl : sortBy le l with
    | nil =>
      have hnil : l = [] := by
        by_contra hne
        obtain ⟨b, hb⟩ := List.exists_mem_of_ne_nil l hne
        have := (mem_sortBy le l b).mpr hb
        simp [hl] at this
      subst hnil
      rw [hl, insBy, List.cons.injEq] at he
      simp [he.1]
    | cons b t =>
      rw [hl, insBy] at he
      have hb := ih hl
      split at he
      next hle =>
        obtain ⟨rfl, -⟩ := List.cons.inj he
        exact List.forall_mem_cons.mpr ⟨le_refl _, fun z hz => (hb z hz).trans (h1 _ _ hle)⟩
      next hle =>
        obtain ⟨rfl, -⟩ := List.cons.inj he
        exact List.forall_mem_cons.mpr ⟨h2 _ _ (by simpa using hle), hb⟩

/-- The requesters whose count has come to w, prefetches excluded, the one to be granted first in front. -/
def forcedList (a : Arb) (w : Nat) : List (Nat × Nat) :=
  sortBy (fun (x y : Nat × Nat) => decide (a.cnt y.1 < a.cnt x.1) || (a.cnt x.1 == a.cnt y.1 && decide (x.1 ≤ y.1)))
    ((a.reqs.map (fun e => (e.1, e.2.cls))).filter (fun e => decide (w ≤ a.cnt e.1) && e.2 ≠ prefetchClass))

theorem mem_forcedList {a : Arb} {w : Nat} {e : Nat × Nat} :
    e ∈ forcedList a w ↔ e ∈ a.reqs.map (fun e => (e.1, e.2.cls)) ∧ w ≤ a.cnt e.1 ∧ e.2 ≠ prefetchClass := by
  simp only [forcedList, mem_sortBy, List.mem_filter, Bool.and_eq_true, decide_eq_true_eq]

theorem forcedList_head_max {a : Arb} {w : Nat} {e : Nat × Nat} {r : List (Nat × Nat)} (he : forcedList a w = e :: r) :
    ∀ z ∈ forcedList a w, a.cnt z.1 ≤ a.cnt e.1 := by
  intro z hz
  refine head_sortBy_max (f := fun e => a.cnt e.1) (fun x y h => ?_) (fun x y h => ?_) he z ((mem_sortBy _ _ _).mp hz)
  · simp only [Bool.or_eq_true, Bool.and_eq_true, decide_eq_true_eq, beq_iff_eq] at h; omega
  · simp only [Bool.or_eq_false_iff, decide_eq_false_iff_not] at h; omega

/-- The requester a decision grants. -/
def decidePick (a : Arb) (w : Nat) : Option Nat :=
  let present : List (Nat × Nat) := a.reqs.map (fun e => (e.1, e.2.cls))
  let best := present.foldl (fun m e => min m e.2) 99
  let same := (present.filter (fun e => e.2 = best)).map (fun e => e.1)
  let after := same.filter (fun x => decide (mget a.last best 0 < x))
  match forcedList a w with
  | e :: _ => some e.1
  | [] => (after ++ same).head?

theorem decideArb_holder (a : Arb) (w : Nat) : (decideArb a w).holder = decidePick a w := by
  change (match decidePick a w with | none => _ | some x => _ : Arb).holder = _
  cases decidePick a w <;> rfl

theorem decideArb_cnt {a : Arb} {w x : Nat} (h : decidePick a w = some x) (y : Nat) :
    (decideArb a w).cnt y = if y ∈ a.reqs.map (·.1) then (if y = x then 0 else a.cnt y + 1) else a.cnt y := by
  have hd : (decideArb a w).waits = (a.reqs.map (fun e => (e.1, e.2.cls))).foldl
      (fun m e => if e.1 = x then mdel m e.1 else mset m e.1 (a.cnt e.1 + 1)) a.waits := by
    change (match decidePick a w with | none => _ | some x => _ : Arb).waits = _
    rw [h]
    rfl
  unfold Arb.cnt at hd ⊢
  rw [hd, cnt_foldl (fun x => mget a.waits x 0 + 1), List.map_map]
  rfl

/-- A lowest class among the requesters present is the class of one of them. -/
theorem foldl_min_mem (l : List (Nat × Nat)) (d : Nat) :
    (l.foldl (fun m e => min m e.2) d = d ∨ ∃ e ∈ l, e.2 = l.foldl (fun m e => min m e.2) d) ∧
    l.foldl (fun m e => min m e.2) d ≤ d ∧ ∀ e ∈ l, l.foldl (fun m e => min m e.2) d ≤ e.2 := by
  induction l generalizing d with
  | nil => simp
  | cons a l ih =>
    obtain ⟨h1, h2, h3⟩ := ih (min d a.2)
    rw [List.foldl_cons]
    refine ⟨?_, h2.trans (min_le_left _ _), List.forall_mem_cons.mpr ⟨h2.trans (min_le_right _ _), h3⟩⟩
    rcases h1 with h1 | ⟨e, he, h⟩
    · rcases min_choice d a.2 with hm | hm
      · exact .inl (h1.trans hm)
      · exact .inr ⟨a, by simp, (h1.trans hm).symm⟩
    · exact .inr ⟨e, List.mem_cons_of_mem _ he, h⟩

/-- With a requester present that is no prefetch, a decision grants a requester that is present. -/
theorem exists_decidePick {a : Arb} {x : Nat} {r : ArbReq} (w : Nat) (hx : (x, r) ∈ a.reqs) (hr : r.cls < prefetchClass) :
    ∃ y ∈ a.reqs.map (·.1), decidePick a w = some y := by
  unfold decidePick
  extract_lets present best same after
  have hkeys : ∀ e ∈ present, e.1 ∈ a.reqs.map (·.1) := fun e he => by
    obtain ⟨f, hf, rfl⟩ := List.mem_map.mp he
    exact List.mem_map.mpr ⟨f, hf, rfl⟩
  have hsame : ∀ y ∈ same, y ∈ a.reqs.map (·.1) := fun y hy => by
    obtain ⟨e, he, rfl⟩ := List.mem_map.mp hy
    exact hkeys e (List.mem_filter.mp he).1
  cases hf : forcedList a w with
  | cons e t => exact ⟨e.1, hkeys e (mem_forcedList.mp (hf ▸ List.mem_cons_self)).1, rfl⟩
  | nil =>
    have hmem : (x, r.cls) ∈ present := List.mem_map.mpr ⟨_, hx, rfl⟩
    obtain ⟨h1, -, h3⟩ := foldl_min_mem present 99
    obtain ⟨e, he, hbest⟩ : ∃ e ∈ present, e.2 = best := by
      rcases h1 with h1 | h1
      · have := h3 _ hmem
        rw [h1] at this
        unfold prefetchClass at hr
        exact absurd this (by simp only; omega)
      · exact h1
    have hes : e.1 ∈ same := List.mem_map.mpr ⟨e, List.mem_filter.mpr ⟨he, by simpa using hbest⟩, rfl⟩
    have hne : after ++ same ≠ [] := List.ne_nil_of_mem (List.mem_append.mpr (.inr hes))
    refine ⟨(after ++ same).head hne, ?_, List.head?_eq_some_head hne⟩
    rcases List.mem_append.mp (List.head_mem hne) with hm | hm
    · exact hsame _ (List.mem_filter.mp hm).1
    · exact hsame _ hm

/-- Against a requester whose count has come to w, only one with at least its count is granted, and no prefetch. -/
theorem decidePick_forced {a : Arb} {w x y : Nat} {r : ArbReq} (hx : (x, r) ∈ a.reqs) (hr : r.cls < prefetchClass) (hw : w ≤ a.cnt x)
    (h : decidePick a w = some y) : a.cnt x ≤ a.cnt y ∧ ∃ e ∈ a.reqs, e.1 = y ∧ e.2.cls ≠ prefetchClass := by
  have hmem : (x, r.cls) ∈ forcedList a w := mem_forcedList.mpr ⟨List.mem_map.mpr ⟨_, hx, rfl⟩, hw, by omega⟩
  cases hf : forcedList a w with
  | nil => simp [hf] at hmem
  | cons e t =>
    have hy : e.1 = y := by simpa [decidePick, hf] using h
    obtain ⟨he, -, hcls⟩ := mem_forcedList.mp (hf ▸ List.mem_cons_self)
    obtain ⟨f, hfm, rfl⟩ := List.mem_map.mp he
    exact ⟨hy ▸ forcedList_head_max hf _ hmem, f, hfm, hy, hcls⟩

/-! ## The bound -/

/-- Decisions of an arbiter of n requesters one after another, in which requester x, no prefetch, is always present: what the others ask for and when
changes freely. -/
structure ArbRun (w n x : Nat) (a : Nat → Arb) : Prop where
  next : ∀ i, (a (i + 1)).waits = (decideArb (a i) w).waits
  ports : ∀ i, ∀ e ∈ (a i).reqs, e.2.cls = prefetchClass ∨ e.1 < n
  asks : ∀ i, ∃ r, (x, r) ∈ (a i).reqs ∧ r.cls < prefetchClass

variable {w n x : Nat} {a : Nat → Arb}

theorem ArbRun.cnt_next (H : ArbRun w n x a) {i y : Nat} (h : decidePick (a i) w = some y) (z : Nat) :
    (a (i + 1)).cnt z = if z ∈ (a i).reqs.map (·.1) then (if z = y then 0 else (a i).cnt z + 1) else (a i).cnt z := by
  rw [← decideArb_cnt h z]; unfold Arb.cnt; rw [H.next]

theorem ArbRun.mem (H : ArbRun w n x a) (i : Nat) : x ∈ (a i).reqs.map (·.1) := by
  obtain ⟨r, hr, -⟩ := H.asks i
  exact List.mem_map.mpr ⟨_, hr, rfl⟩

/-- A decision that grants another adds 1 to the count of x. -/
theorem ArbRun.cnt_lost (H : ArbRun w n x a) {i y : Nat} (h : decidePick (a i) w = some y) (hy : y ≠ x) : (a (i + 1)).cnt x = (a i).cnt x + 1 := by
  rw [H.cnt_next h, if_pos (H.mem i), if_neg hy.symm]

/-- While x loses, a requester whose count is below that of x stays below, and so does one that has just won. -/
theorem ArbRun.below (H : ArbRun w n x a) {i j y : Nat} (hij : i < j) (hwin : decidePick (a i) w = some y) (hy : y ≠ x) (hmem : y ∈ (a i).reqs.map (·.1))
    (hlose : ∀ k, k < j → ∃ z, decidePick (a k) w = some z ∧ z ≠ x) : (a j).cnt y < (a j).cnt x := by
  induction j, hij using Nat.le_induction with
  | base => rw [H.cnt_lost hwin hy, H.cnt_next hwin, if_pos hmem, if_pos rfl]; omega
  | succ k hk ih =>
    have hlt := ih (fun m hm => hlose m (by omega))
    obtain ⟨z, hz, hzx⟩ := hlose k (by omega)
    rw [H.cnt_lost hz hzx, H.cnt_next hz]
    split
    · split <;> omega
    · omega

/-- The count of x after i lost decisions is at least i. -/
theorem ArbRun.le_cnt (H : ArbRun w n x a) {i : Nat} (hlose : ∀ k, k < i → ∃ z, decidePick (a k) w = some z ∧ z ≠ x) : i ≤ (a i).cnt x := by
  induction i with
  | zero => omega
  | succ i ih =>
    obtain ⟨z, hz, hzx⟩ := hlose i (by omega)
    have := ih (fun k hk => hlose k (by omega))
    rw [H.cnt_lost hz hzx]
    omega

/-- x is granted within w + n - 1 lost decisions: after w of them its count has come to w, and of the others each wins at most once from then on. -/
theorem ArbRun.granted (H : ArbRun w n x a) (hxn : x < n) : ∃ i, i ≤ w + n - 1 ∧ decidePick (a i) w = some x := by
  by_contra hno
  push Not at hno
  have hwin : ∀ i, ∃ y, y ∈ (a i).reqs.map (·.1) ∧ decidePick (a i) w = some y := fun i => by
    obtain ⟨r, hr, hc⟩ := H.asks i
    exact exists_decidePick w hr hc
  choose win hmem hwin using hwin
  have hne : ∀ i, i ≤ w + n - 1 → win i ≠ x := fun i hi h => hno i hi (h ▸ hwin i)
  have hlose : ∀ j, j ≤ w + n - 1 → ∀ k, k < j → ∃ z, decidePick (a k) w = some z ∧ z ≠ x := fun j hj k hk => ⟨_, hwin k, hne k (by omega)⟩
  have hforced : ∀ i, i < n → (a (w + i)).cnt x ≤ (a (w + i)).cnt (win (w + i)) ∧ win (w + i) < n := fun i hi => by
    obtain ⟨r, hr, hc⟩ := H.asks (w + i)
    obtain ⟨h1, e, he, hey, hcls⟩ := decidePick_forced hr hc (by have := H.le_cnt (hlose (w + i) (by omega)); omega) (hwin (w + i))
    exact ⟨h1, hey ▸ (H.ports _ e he).resolve_left hcls⟩
  have hinj : ∀ i j, i < j → j < n → win (w + i) ≠ win (w + j) := fun i j hij hj h => by
    have h1 := H.below (j := w + j) (by omega) (hwin (w + i)) (hne _ (by omega)) (hmem _) (hlose _ (by omega))
    have h2 := (hforced j hj).1
    rw [← h] at h2
    omega
  obtain ⟨i, hi, j, hj, hij, he⟩ := Finset.exists_ne_map_eq_of_card_lt_of_maps_to (s := Finset.range n) (t := (Finset.range n).erase x)
    (f := fun i => win (w + i)) (by rw [Finset.card_erase_of_mem (Finset.mem_range.mpr hxn), Finset.card_range]; omega)
    (fun i hi => Finset.mem_coe.mpr (Finset.mem_erase.mpr
      ⟨hne _ (by have := Finset.mem_range.mp hi; omega), Finset.mem_range.mpr (hforced i (Finset.mem_range.mp hi)).2⟩))
  rw [Finset.mem_range] at hi hj
  rcases Nat.lt_or_gt_of_ne hij with h | h
  · exact hinj i j h hj he
  · exact hinj j i h hi he.symm

/-! ## Grants -/

/-- A grant ends when its holder has moved BURST beats, or loses it at a beat boundary; else nothing changes. -/
theorem arbGrant_cases {c : TurnCfg} {a : Arb} {h : Nat} {r : ArbReq} (hh : a.holder = some h) (hr : mget? a.reqs h = some r) :
    let loses := c.revEn = true ∧ c.revMin ≤ a.moved ∧ a.forced = false ∧ r.exempt = false ∧ ∃ e ∈ a.reqs, e.2.cls < r.cls
    (a.moved < c.burst → ¬ loses → arbGrant c a = (a, 0, 0)) ∧
    (a.moved < c.burst → loses → (arbGrant c a).1 =
      decideArb { a with progress := mset a.progress h (mget a.progress h 0 + a.moved) } c.w ∧ (arbGrant c a).2.2 = 1) ∧
    (c.burst ≤ a.moved → (arbGrant c a).1 = decideArb a c.w ∧ (arbGrant c a).2.2 = 0) := by
  intro loses
  have hover : grantOver c a = decide (c.burst ≤ a.moved) := by simp [grantOver, hh, mhas, hr]
  have hrev : revoked c a = true ↔ loses := by
    simp only [revoked, hh, mget, hr, Option.getD_some, Bool.and_eq_true, decide_eq_true_eq, Bool.not_eq_true', List.any_eq_true, loses, and_assoc]
  refine ⟨fun hb hl => ?_, fun hb hl => ?_, fun hb => ?_⟩
  · have h1 : grantOver c a = false := by rw [hover]; simpa using hb
    have h2 : revoked c a = false := by simpa using hrev.not.mpr hl
    simp [arbGrant, h1, h2]
  · have h1 : grantOver c a = false := by rw [hover]; simpa using hb
    simp [arbGrant, h1, hrev.mpr hl, hh]
  · have h1 : grantOver c a = true := by rw [hover]; simpa using hb
    simp [arbGrant, h1, hh]

/-- A holder moves one beat: its request goes on with what is left, and ends with its last beat. -/
theorem arbMove_cases {a : Arb} {h n : Nat} {r : ArbReq} {x : Bool} {rest : List (Nat × Bool)} (hh : a.holder = some h) (hr : mget? a.reqs h = some r)
    (hp : r.parts = (n, x) :: rest) (hrest : ∀ e ∈ rest, 0 < e.1) :
    (n = 1 ∧ rest = [] → (arbMove a).reqs = mdel a.reqs h ∧ (arbMove a).holder = none) ∧
    (n = 1 ∧ rest ≠ [] → (arbMove a).reqs = mset a.reqs h { r with parts := rest }) ∧
    (1 < n → (arbMove a).reqs = mset a.reqs h { r with parts := (n - 1, x) :: rest }) := by
  have hleft : r.left = n + (rest.map (fun e => e.1)).sum := by simp [ArbReq.left, hp]
  have hnext : r.next = { r with parts := if n ≤ 1 then rest else (n - 1, x) :: rest } := by simp [ArbReq.next, hp]
  have hmove : arbMove a = if r.left ≤ 1 then { a with reqs := mdel a.reqs h, progress := mdel a.progress h, holder := none, moved := 0, forced := false }
      else { a with reqs := mset a.reqs h r.next, moved := a.moved + 1 } := by simp [arbMove, hh, mget, hr]
  refine ⟨fun ⟨h1, h2⟩ => ?_, fun ⟨h1, h2⟩ => ?_, fun h1 => ?_⟩
  · rw [hmove, if_pos (by simp [hleft, h1, h2])]
    exact ⟨rfl, rfl⟩
  · obtain ⟨e, he⟩ := List.exists_mem_of_ne_nil rest h2
    have hle : e.1 ≤ (rest.map (fun e => e.1)).sum := List.le_sum_of_mem (List.mem_map.mpr ⟨e, he, rfl⟩)
    have hpos := hrest e he
    rw [hmove, if_neg (by omega), hnext, if_pos (by omega)]
  · rw [hmove, if_neg (by omega), hnext, if_neg (by omega)]

end Sys2Proof.Machine
end

section
/-! PROOFS. The Weir's buckets (chapter 12, R333 to R338): what a refill adds, what a re-division keeps, and what goes on then. -/

namespace Sys2Proof.Machine

open Sys2Proof

/-! ## Lists and maps of the refill -/

theorem setIns_pairwise {l : List Nat} (k : Nat) (h : l.Pairwise (· < ·)) : (setIns l k).Pairwise (· < ·) := by
  induction l with
  | nil => simp [setIns]
  | cons a r ih =>
    obtain ⟨ha, hr⟩ := List.pairwise_cons.mp h
    unfold setIns
    split
    · exact h
    · split
      next hlt =>
        refine List.pairwise_cons.mpr ⟨fun b hb => ?_, h⟩
        rcases List.mem_cons.mp hb with rfl | hb
        · exact hlt
        · exact hlt.trans (ha b hb)
      next h1 h2 =>
        refine List.pairwise_cons.mpr ⟨fun b hb => ?_, ih hr⟩
        rcases mem_of_setIns _ _ _ hb with rfl | hb
        · omega
        · exact ha b hb

theorem distinct_nodup (l : List Nat) : (distinct l).Nodup := by
  have key : ∀ (l acc : List Nat), acc.Pairwise (· < ·) → (l.foldl setIns acc).Pairwise (· < ·) := fun l => by
    induction l with
    | nil => exact fun _ h => h
    | cons a l ih => exact fun acc h => ih _ (setIns_pairwise a h)
  exact (key l [] List.Pairwise.nil).imp (fun h => Nat.ne_of_lt h)

theorem eq_or_mem_of_mem_mset {α : Type} {m : Map α} {k : Nat} {v : α} {e : Nat × α} (h : e ∈ mset m k v) : e = (k, v) ∨ e ∈ m := by
  induction m with
  | nil => simpa [mset] using h
  | cons b r ih =>
    unfold mset at h
    split at h
    · rcases List.mem_cons.mp h with h | h
      · exact .inl h
      · exact .inr (List.mem_cons_of_mem _ h)
    · split at h
      · rcases List.mem_cons.mp h with h | h
        · exact .inl h
        · exact .inr h
      · rcases List.mem_cons.mp h with h | h
        · exact .inr (h ▸ List.mem_cons_self)
        · exact (ih h).imp_right (List.mem_cons_of_mem _)

theorem mem_of_mget? {α : Type} {m : Map α} {k : Nat} {v : α} (h : mget? m k = some v) : (k, v) ∈ m := by
  induction m with
  | nil => simp [mget?] at h
  | cons b r ih =>
    unfold mget? at h
    split at h
    next hk => simp only [Option.some.injEq] at h; subst hk h; exact List.mem_cons_self
    next => exact List.mem_cons_of_mem _ (ih h)

/-- A new key outside a set leaves the entries of the set. -/
theorem filter_mset_of_neg {α : Type} {p : Nat → Bool} {k : Nat} (hp : p k = false) (m : Map α) (v : α) :
    (mset m k v).filter (fun e => p e.1) = m.filter (fun e => p e.1) := by
  induction m with
  | nil => simp [mset, hp]
  | cons b r ih =>
    unfold mset
    split
    next hk => simp [hk, hp]
    next =>
      split
      · simp [hp]
      · simp [List.filter_cons, ih]

/-- The sum of the entries of a set, with a new key of the set that was in no entry. -/
theorem sum_filter_mset {p : Nat → Bool} {k : Nat} (hp : p k = true) (m : Map Int) (v : Int) (hk : ∀ e ∈ m, e.1 ≠ k) :
    (((mset m k v).filter (fun e => p e.1)).map (·.2)).sum = v + ((m.filter (fun e => p e.1)).map (·.2)).sum := by
  induction m with
  | nil => simp [mset, hp]
  | cons b r ih =>
    have hb : b.1 ≠ k := hk b List.mem_cons_self
    unfold mset
    rw [if_neg hb]
    split
    · simp [hp]
    · rw [List.filter_cons, List.filter_cons]
      split
      · rw [List.map_cons, List.sum_cons, ih (fun e he => hk e (List.mem_cons_of_mem _ he)), List.map_cons, List.sum_cons]; ring
      · exact ih (fun e he => hk e (List.mem_cons_of_mem _ he))

/-! ## Re-division (R335) -/

/-- The shares of a list of terraces written one after another: their sum is added, and no entry of another allotment changes. -/
theorem sum_setShares (al : Nat) (g : Nat → Int) (ts : List (Nat × Nat)) (hnd : (ts.map (·.1)).Nodup) (hts : ∀ x ∈ ts, x.1 < 64) (m : Map Int)
    (hm : ∀ e ∈ m, ∀ x ∈ ts, e.1 ≠ al * 64 + x.1) :
    let u := ts.foldl (fun m x => mset m (al * 64 + x.1) (g x.2)) m
    ((u.filter (fun e => e.1 / 64 = al)).map (·.2)).sum = (ts.map (fun x => g x.2)).sum + ((m.filter (fun e => e.1 / 64 = al)).map (·.2)).sum ∧
    ∀ b, b ≠ al → u.filter (fun e => e.1 / 64 = b) = m.filter (fun e => e.1 / 64 = b) := by
  induction ts generalizing m with
  | nil => exact ⟨by simp, fun _ _ => rfl⟩
  | cons x ts ih =>
    obtain ⟨hx, hnd⟩ := List.nodup_cons.mp hnd
    have hlt : x.1 < 64 := hts x List.mem_cons_self
    have hdiv : (al * 64 + x.1) / 64 = al := by omega
    obtain ⟨h1, h2⟩ := ih hnd (fun y hy => hts y (List.mem_cons_of_mem _ hy)) (mset m (al * 64 + x.1) (g x.2)) (fun e he y hy => by
      rcases eq_or_mem_of_mem_mset he with rfl | he
      · exact fun h => hx (List.mem_map.mpr ⟨y, hy, (Nat.add_left_cancel h).symm⟩)
      · exact hm e he y (List.mem_cons_of_mem _ hy))
    refine ⟨h1.trans ?_, fun b hb => (h2 b hb).trans (filter_mset_of_neg (p := fun k => decide (k / 64 = b)) (by simpa [hdiv] using hb.symm) m _)⟩
    rw [sum_filter_mset (p := fun k => decide (k / 64 = al)) (by simpa using hdiv) m _ (fun e he => hm e he x List.mem_cons_self), List.map_cons, List.sum_cons]
    ring

/-- The shares of an amount sum to it. -/
theorem sum_shareOf (total : Int) (ts : List Nat) (h : ts ≠ []) : ((ts.zipIdx).map (fun x => shareOf total ts.length x.2)).sum = total := by
  have hq : ∀ (n : Nat) (l : List Nat) (k : Nat), 0 < k → ((l.zipIdx k).map (fun x => shareOf total n x.2)).sum = l.length * (total / n) := fun n l => by
    induction l with
    | nil => simp
    | cons a l ih =>
      intro k hk
      rw [List.zipIdx_cons, List.map_cons, List.sum_cons, ih (k + 1) (by omega), shareOf, if_neg (by simp only; omega), List.length_cons]
      push_cast
      ring
  cases ts with
  | nil => exact absurd rfl h
  | cons a l =>
    rw [List.zipIdx_cons, List.map_cons, List.sum_cons, hq _ l (0 + 1) (by omega), shareOf, if_pos rfl, List.length_cons]
    have := Int.mul_ediv_add_emod total ((l.length + 1 : Nat) : Int)
    push_cast at this ⊢
    linarith

theorem redivideOne_frame (s : State) (al : Nat) : redivideOne s al = { s with shares := (redivideOne s al).shares } := by
  unfold redivideOne
  extract_lets ts mine total rest
  split <;> rfl

/-- A re-division keeps the tokens of its allotment and the shares of every other. -/
theorem redivideOne_total (s : State) (al : Nat) (hne : sharers s al ≠ []) (hts : ∀ tg ∈ sharers s al, tg < 64) :
    (((redivideOne s al).shares.filter (fun e => e.1 / 64 = al)).map (·.2)).sum = ((s.shares.filter (fun e => e.1 / 64 = al)).map (·.2)).sum ∧
    ∀ b, b ≠ al → (redivideOne s al).shares.filter (fun e => e.1 / 64 = b) = s.shares.filter (fun e => e.1 / 64 = b) := by
  have hnd : ((sharers s al).zipIdx.map (·.1)).Nodup := by rw [List.zipIdx_map_fst]; exact distinct_nodup _
  unfold redivideOne
  extract_lets ts mine total rest
  rw [if_neg (by simpa using hne)]
  have hrest : ∀ e ∈ rest, e.1 / 64 ≠ al := fun e he => by simpa using (List.mem_filter.mp he).2
  have hlt : ∀ x ∈ ts.zipIdx, x.1 < 64 := fun x hx => hts _ (List.fst_mem_of_mem_zipIdx hx)
  obtain ⟨h1, h2⟩ := sum_setShares al (fun i => shareOf total ts.length i) ts.zipIdx hnd hlt rest (fun e he x hx h => hrest e he (by
    have := hlt x hx; omega))
  refine ⟨h1.trans ?_, fun b hb => (h2 b hb).trans ?_⟩
  · have hnone : rest.filter (fun e => e.1 / 64 = al) = [] := List.filter_eq_nil_iff.mpr (fun e he => by simpa using hrest e he)
    rw [sum_shareOf total ts hne, hnone]
    simp [total, mine]
  · rw [List.filter_filter]
    refine List.filter_congr (fun e _ => ?_)
    by_cases h : e.1 / 64 = b
    · simp [h, hb]
    · simp [h]

/-! ## The refill (R333, R334, R338) -/

/-- The state but for the registers in which a terrace counts its waits, and what a refill writes. -/
def RefillOnly (s t : State) : Prop :=
  t = { s with
    regs := t.regs, shares := t.shares, redivide := t.redivide, terraces := t.terraces, saddles := t.saddles, rsvs := t.rsvs } ∧
  ∀ o, (∀ tg, o ≠ tBase tg + 0x1708) → ∀ d, rg t o d = rg s o d

variable {s t u : State}

theorem RefillOnly.refl (s : State) : RefillOnly s s := ⟨rfl, fun _ _ _ => rfl⟩

theorem RefillOnly.trans (h : RefillOnly s t) (h' : RefillOnly t u) : RefillOnly s u :=
  ⟨by rw [h'.1, h.1], fun o ho d => (h'.2 o ho d).trans (h.2 o ho d)⟩

theorem RefillOnly.foldl {β : Type} {f : State → β → State} (hf : ∀ t b, RefillOnly t (f t b)) (l : List β) (s : State) : RefillOnly s (l.foldl f s) := by
  induction l generalizing s with
  | nil => exact .refl s
  | cons b l ih => exact (hf s b).trans (ih (f s b))

/-- No stream has requests that wait for tokens. -/
def NoneOwed (s : State) : Prop := ∀ e ∈ s.terraces, ∀ x ∈ e.2.execs, x.2.owed = []

theorem countWaits_refillOnly (s : State) : RefillOnly s (countWaits s) := by
  refine .foldl (fun t e => ?_) _ s
  split
  · exact ⟨rfl, fun o ho d => rg_setRg_other _ _ _ _ _ (ho e.1)⟩
  · exact .refl t

theorem countWaits_logOnly (s : State) : LogOnly s (countWaits s) := by
  have key : ∀ (l : Map Terrace) (u : State), LogOnly s u → LogOnly s (l.foldl (fun s e =>
      if e.2.execs.any (fun x => !x.2.owed.isEmpty) then satAdd s (tBase e.1 + 0x1708) 0 0 32 (cycles64 s e.2) else s) u) := fun l => by
    induction l with
    | nil => exact fun _ h => h
    | cons e l ih => exact fun u h => ih _ (.ite (h.trans (satAdd_logOnly _ _ _ _ _)) h)
  exact key _ s (.refl s)

theorem countWaits_terraces (s : State) : (countWaits s).terraces = s.terraces ∧ (countWaits s).saddles = s.saddles ∧ (countWaits s).rsvs = s.rsvs := by
  have h := countWaits_logOnly s
  exact ⟨by rw [h], by rw [h], by rw [h]⟩

theorem countWaits_of_noneOwed (h : NoneOwed s) : countWaits s = s := by
  have key : ∀ (l : Map Terrace), (∀ e ∈ l, ∀ x ∈ e.2.execs, x.2.owed = []) → l.foldl (fun s e =>
      if e.2.execs.any (fun x => !x.2.owed.isEmpty) then satAdd s (tBase e.1 + 0x1708) 0 0 32 (cycles64 s e.2) else s) s = s := fun l => by
    induction l with
    | nil => exact fun _ => rfl
    | cons e l ih =>
      intro hl
      have hno : ¬ e.2.execs.any (fun x => !x.2.owed.isEmpty) = true := by
        rw [Bool.not_eq_true, List.any_eq_false]
        intro x hx
        simp [hl e List.mem_cons_self x hx]
      rw [List.foldl_cons, if_neg hno]
      exact ih (fun b hb => hl b (List.mem_cons_of_mem _ hb))
  exact key _ h

theorem admitWaiting_of_noneOwed (h : NoneOwed s) : admitWaiting s = s := by
  have key : ∀ (l : Map Terrace), (∀ e ∈ l, ∀ x ∈ e.2.execs, x.2.owed = []) → l.foldl (fun s e =>
      ((e.2.execs.filter (fun x => !x.2.owed.isEmpty)).map (fun x => x.1)).foldl (fun s u => passOwed s e.1 u) s) s = s := fun l => by
    induction l with
    | nil => exact fun _ => rfl
    | cons e l ih =>
      intro hl
      have hno : e.2.execs.filter (fun x => !x.2.owed.isEmpty) = [] :=
        List.filter_eq_nil_iff.mpr (fun x hx => by simp [hl e List.mem_cons_self x hx])
      rw [List.foldl_cons, hno]
      exact ih (fun b hb => hl b (List.mem_cons_of_mem _ hb))
  exact key _ h

theorem redivideAll_refillOnly (l : List Nat) (s : State) : RefillOnly s (l.foldl redivideOne s) ∧
    (l.foldl redivideOne s).regs = s.regs ∧ (l.foldl redivideOne s).terraces = s.terraces ∧ (l.foldl redivideOne s).saddles = s.saddles ∧
      (l.foldl redivideOne s).rsvs = s.rsvs := by
  induction l generalizing s with
  | nil => exact ⟨.refl s, rfl, rfl, rfl, rfl⟩
  | cons a l ih =>
    obtain ⟨h1, h2, h3, h4, h5⟩ := ih (redivideOne s a)
    have h : RefillOnly s (redivideOne s a) := by rw [redivideOne_frame]; exact ⟨rfl, fun _ _ _ => rfl⟩
    exact ⟨h.trans h1, h2.trans (by rw [redivideOne_frame]), h3.trans (by rw [redivideOne_frame]), h4.trans (by rw [redivideOne_frame]),
      h5.trans (by rw [redivideOne_frame])⟩

/-- A terrace's bucket takes the tokens of 64 ns. -/
def fillTerrace (s : State) (tg : Nat) : State :=
  let w := rg s (tBase tg + 0x1700) weirReset
  updTerrace s tg (fun t => { t with tokens := fill t.tokens (wRate w) (wDepth w) })

theorem fillTerrace_refillOnly (s : State) (tg : Nat) : RefillOnly s (fillTerrace s tg) := ⟨rfl, fun _ _ _ => rfl⟩

theorem NoneOwed.fillTerrace (h : NoneOwed s) (tg : Nat) : NoneOwed (fillTerrace s tg) := by
  intro e he x hx
  rcases eq_or_mem_of_mem_mset he with rfl | he
  · cases hm : mget? s.terraces tg with
    | none =>
      have hx' : x ∈ (terrace s tg).execs := hx
      rw [show terrace s tg = Terrace.reset by simp [terrace, mget, hm]] at hx'
      exact absurd hx' (List.not_mem_nil)
    | some t =>
      have ht : terrace s tg = t := by simp [terrace, mget, hm]
      have hx' : x ∈ (terrace s tg).execs := hx
      exact h _ (mem_of_mget? hm) x (ht ▸ hx')
  · exact h e he x hx

/-- The buckets of some terraces, each once: each has its tokens, and no other terrace changes. -/
theorem fillTerraces_effect (l : List Nat) (hl : l.Nodup) (s : State) :
    let u := l.foldl fillTerrace s
    RefillOnly s u ∧ u.regs = s.regs ∧ u.saddles = s.saddles ∧ u.rsvs = s.rsvs ∧ u.redivide = s.redivide ∧ (NoneOwed s → NoneOwed u) ∧
    ∀ tg, terrace u tg = if tg ∈ l then { terrace s tg with
      tokens := fill (terrace s tg).tokens (wRate (rg s (tBase tg + 0x1700) weirReset)) (wDepth (rg s (tBase tg + 0x1700) weirReset)) } else terrace s tg := by
  induction l generalizing s with
  | nil => exact ⟨.refl s, rfl, rfl, rfl, rfl, id, fun _ => rfl⟩
  | cons a l ih =>
    obtain ⟨ha, hl⟩ := List.nodup_cons.mp hl
    obtain ⟨h1, h2, h3, h4, h5, h6, h7⟩ := ih hl (fillTerrace s a)
    refine ⟨(fillTerrace_refillOnly s a).trans h1, h2, h3, h4, h5, fun h => h6 (h.fillTerrace a), fun tg => (h7 tg).trans ?_⟩
    by_cases hta : tg = a
    · subst hta
      rw [if_neg ha, if_pos List.mem_cons_self]
      exact terrace_updTerrace_same _ _ _
    · have hother : terrace (fillTerrace s a) tg = terrace s tg := terrace_updTerrace_other _ _ _ _ hta
      rw [hother]
      by_cases hm : tg ∈ l
      · rw [if_pos hm, if_pos (List.mem_cons_of_mem _ hm)]; rfl
      · rw [if_neg hm, if_neg (by simp [hta, hm])]

/-- The entries of a map set for the first n keys, each to a value of its own old one. -/
theorem mget_foldl_range {α : Type} (f : Nat → α → α) (d : α) (n : Nat) (m : Map α) (k : Nat) :
    mget ((List.range n).foldl (fun m i => mset m i (f i (mget m i d))) m) k d = if k < n then f k (mget m k d) else mget m k d := by
  induction n with
  | zero => rfl
  | succ n ih =>
    rw [List.range_succ, List.foldl_append, List.foldl_cons, List.foldl_nil, mget_mset]
    split
    next hk =>
      subst hk
      have hn : mget ((List.range k).foldl (fun m i => mset m i (f i (mget m i d))) m) k d = mget m k d := by rw [ih, if_neg (lt_irrefl k)]
      rw [hn, if_pos (Nat.lt_succ_self k)]
    next hk =>
      rw [ih]
      by_cases h : k < n
      · rw [if_pos h, if_pos (by omega)]
      · rw [if_neg h, if_neg (by omega)]

/-- A Saddle's port buckets take the tokens of 64 ns. -/
def fillPorts (s : State) (n : Nat) : State :=
  updSaddle s n (fun d => { d with ptok := (List.range 4).foldl (fun m p =>
    let w := rg s (sBase n + 0x70000 + 8 * p) weirReset
    mset m p (fill (mget m p 0) (wRate w) (wDepth w))) d.ptok })

theorem fillPorts_refillOnly (s : State) (n : Nat) : RefillOnly s (fillPorts s n) := ⟨rfl, fun _ _ _ => rfl⟩

theorem fillPorts_ptok (s : State) (n : Nat) {p : Nat} (hp : p < 4) :
    mget (saddle (fillPorts s n) n).ptok p 0 = fill (mget (saddle s n).ptok p 0) (wRate (rg s (sBase n + 0x70000 + 8 * p) weirReset))
      (wDepth (rg s (sBase n + 0x70000 + 8 * p) weirReset)) := by
  have h := mget_foldl_range (fun p v => fill v (wRate (rg s (sBase n + 0x70000 + 8 * p) weirReset)) (wDepth (rg s (sBase n + 0x70000 + 8 * p) weirReset)))
    0 4 (saddle s n).ptok p
  rw [if_pos hp] at h
  unfold fillPorts
  rw [saddle_updSaddle_same]
  exact h

theorem fillPorts_other (s : State) {n k : Nat} (h : k ≠ n) : saddle (fillPorts s n) k = saddle s k := saddle_updSaddle_other _ _ _ _ h

/-- A reservation's buckets take their amounts of 64 ns. -/
def refilledRsv (r : Rsv) : Rsv := { r with tok := (List.range 6).foldl (fun m i => mset m i (fill (mget m i 0) (r.amount i * 64 : Nat) 16384)) r.tok }

theorem refilledRsv_tok (r : Rsv) {k : Nat} (hk : k < 6) : mget (refilledRsv r).tok k 0 = fill (mget r.tok k 0) (r.amount k * 64 : Nat) 16384 :=
  (mget_foldl_range (fun i v => fill v (r.amount i * 64 : Nat) 16384) 0 6 r.tok k).trans (if_pos hk)

theorem refillShares_refillOnly (l : List Nat) (s : State) : RefillOnly s (l.foldl refillShares s) ∧ (l.foldl refillShares s).regs = s.regs ∧
    (l.foldl refillShares s).terraces = s.terraces ∧ (l.foldl refillShares s).saddles = s.saddles ∧ (l.foldl refillShares s).rsvs = s.rsvs ∧
      (l.foldl refillShares s).redivide = s.redivide := by
  induction l generalizing s with
  | nil => exact ⟨.refl s, rfl, rfl, rfl, rfl, rfl⟩
  | cons a l ih =>
    obtain ⟨h1, h2, h3, h4, h5, h6⟩ := ih (refillShares s a)
    exact ⟨RefillOnly.trans (t := refillShares s a) ⟨rfl, fun _ _ _ => rfl⟩ h1, h2, h3, h4, h5, h6⟩

theorem set_rsvs_refillOnly (s : State) (l : List Rsv) : RefillOnly s { s with rsvs := l } := ⟨rfl, fun _ _ _ => rfl⟩

theorem set_redivide_refillOnly (s : State) (l : List Nat) : RefillOnly s { s with redivide := l } := ⟨rfl, fun _ _ _ => rfl⟩

/-- The buckets after a refill, before what waited goes on. -/
def refilled (s : State) : State :=
  let s := (countWaits s).redivide.foldl redivideOne (countWaits s)
  let s := (List.range 64).foldl fillTerrace { s with redivide := [] }
  let s := (distinct (s.runs.map (fun e => e.2.allot))).foldl refillShares s
  let s := (List.range 2).foldl fillPorts s
  { s with rsvs := s.rsvs.map refilledRsv }

theorem exec_weirRefill (s : State) : exec .weirRefill s = .next (serveWaits (admitWaiting (refilled s))) := rfl

/-- A refill in stages: what each leaves of the registers, the terraces, the Saddles and the reservations. -/
theorem refilled_effect (s : State) :
    RefillOnly s (refilled s) ∧ (refilled s).redivide = [] ∧ (NoneOwed s → (refilled s).regs = s.regs ∧ NoneOwed (refilled s)) ∧
    (∀ tg, tg < 64 → terrace (refilled s) tg = { terrace s tg with
      tokens := fill (terrace s tg).tokens (wRate (rg s (tBase tg + 0x1700) weirReset)) (wDepth (rg s (tBase tg + 0x1700) weirReset)) }) ∧
    (∀ n p, n < 2 → p < 4 → mget (saddle (refilled s) n).ptok p 0 = fill (mget (saddle s n).ptok p 0)
      (wRate (rg s (sBase n + 0x70000 + 8 * p) weirReset)) (wDepth (rg s (sBase n + 0x70000 + 8 * p) weirReset))) ∧
    (refilled s).rsvs = s.rsvs.map refilledRsv := by
  unfold refilled
  extract_lets s1 s2 s3 s4
  obtain ⟨c1, c2, c3⟩ := countWaits_terraces s
  have h1 : RefillOnly s (countWaits s) := countWaits_refillOnly s
  obtain ⟨d1, d2, d3, d4, d5⟩ := redivideAll_refillOnly (countWaits s).redivide (countWaits s)
  obtain ⟨e1, e2, e3, e4, e5, e6, e7⟩ := fillTerraces_effect (List.range 64) List.nodup_range { s1 with redivide := [] }
  obtain ⟨f1, f2, f3, f4, f5, f6⟩ := refillShares_refillOnly (distinct (s2.runs.map (fun e => e.2.allot))) s2
  rw [show (distinct (s2.runs.map (fun e => e.2.allot))).foldl refillShares s2 = s3 from rfl] at f1 f2 f3 f4 f5 f6
  simp only [show (List.range 64).foldl fillTerrace { s1 with redivide := [] } = s2 from rfl] at e1 e2 e3 e4 e5 e6 e7
  rw [show (countWaits s).redivide.foldl redivideOne (countWaits s) = s1 from rfl] at d1 d2 d3 d4 d5
  clear_value s3 s2 s1
  have h2 : RefillOnly s s3 := ((h1.trans d1).trans ((set_redivide_refillOnly s1 []).trans e1)).trans f1
  have hs4 : s4 = fillPorts (fillPorts s3 0) 1 := rfl
  clear_value s4
  subst hs4
  have hrg : ∀ {o : Nat}, (∀ tg, o ≠ tBase tg + 0x1708) → ∀ d, rg { s1 with redivide := [] } o d = rg s o d := fun ho d => (h1.trans d1).2 _ ho d
  have hT : ∀ tg tg' : Nat, tBase tg + 0x1700 ≠ tBase tg' + 0x1708 := fun tg tg' => by unfold tBase; omega
  have hS : ∀ n p tg : Nat, p < 4 → sBase n + 0x70000 + 8 * p ≠ tBase tg + 0x1708 := fun n p tg hp => by unfold sBase tBase; omega
  have hsad : s3.saddles = s.saddles := f4.trans (e3.trans (d4.trans c2))
  refine ⟨?_, ?_, fun hno => ⟨?_, ?_⟩, fun tg htg => ?_, fun n p hn hp => ?_, ?_⟩
  · exact ((h2.trans (fillPorts_refillOnly s3 0)).trans (fillPorts_refillOnly _ 1)).trans (set_rsvs_refillOnly _ _)
  · exact f6.trans e5
  · exact (f2.trans e2).trans (d2.trans (congrArg State.regs (countWaits_of_noneOwed hno)))
  · have hno1 : NoneOwed s1 := by
      unfold NoneOwed
      rw [show s1.terraces = s.terraces from d3.trans c1]
      exact hno
    have hno2 : NoneOwed s2 := e6 hno1
    have ht : (fillPorts (fillPorts s3 0) 1).terraces = s2.terraces := f3
    unfold NoneOwed
    exact fun e he => hno2 e (ht ▸ he)
  · have h : terrace s2 tg = _ := e7 tg
    rw [if_pos (List.mem_range.mpr htg), hrg (hT tg)] at h
    have hs1 : terrace { s1 with redivide := [] } tg = terrace s tg := congrArg (fun m : Map Terrace => mget m tg Terrace.reset) (d3.trans c1)
    rw [hs1] at h
    have ht : terrace (fillPorts (fillPorts s3 0) 1) tg = terrace s2 tg := congrArg (fun m : Map Terrace => mget m tg Terrace.reset) f3
    exact ht.trans h
  · have hw : ∀ t : State, RefillOnly s t → ∀ n, rg t (sBase n + 0x70000 + 8 * p) weirReset = rg s (sBase n + 0x70000 + 8 * p) weirReset :=
      fun t ht n => ht.2 _ (fun tg => hS n p tg hp) _
    have h30 : ∀ n, saddle s3 n = saddle s n := fun n => congrArg (fun m : Map Saddle => mget m n {}) hsad
    have hgoal : mget (saddle (fillPorts (fillPorts s3 0) 1) n).ptok p 0 = fill (mget (saddle s n).ptok p 0)
        (wRate (rg s (sBase n + 0x70000 + 8 * p) weirReset)) (wDepth (rg s (sBase n + 0x70000 + 8 * p) weirReset)) := by
      obtain rfl | rfl : n = 0 ∨ n = 1 := by omega
      · rw [fillPorts_other _ (by decide), fillPorts_ptok _ _ hp, h30, hw s3 h2]
      · rw [fillPorts_ptok _ _ hp, fillPorts_other _ (by decide), h30, hw _ (h2.trans (fillPorts_refillOnly s3 0))]
    exact hgoal
  · have hr : (fillPorts (fillPorts s3 0) 1).rsvs = s.rsvs := f5.trans (e4.trans (d5.trans c3))
    exact congrArg (List.map refilledRsv) hr

theorem serveWaits_of_none (h : ∀ n, n < 2 → (saddle s n).waits = []) : serveWaits s = s := by
  have hl : (List.range 2).flatMap (fun n => (saddle s n).waits) = [] :=
    List.flatMap_eq_nil_iff.mpr (fun n hn => h n (List.mem_range.mp hn))
  unfold serveWaits
  simp only [hl]
  rfl

/-- Settles O38: the refill stage by stage, the re-division's sums, the grants of an arbiter, and its bound (ArbRun.granted). -/
theorem tokenBuckets : Obligations.TokenBuckets := by
  refine ⟨fun s => ?_, fun s q e bs bad => ⟨rfl, rfl⟩, fun s al hne hts => ?_, fun c a h r hh hr => ?_, fun w n x a hx hnext h => ?_⟩
  · obtain ⟨h1, h2, h3, h4, h5, h6⟩ := refilled_effect s
    refine ⟨refilled s, exec_weirRefill s, h2, by rw [h1.1], by rw [h1.1], h1.2, fun hno => ?_, serveWaits_of_none, h4, h5, ?_, fun j r hj => ?_⟩
    · exact ⟨(h3 hno).1, admitWaiting_of_noneOwed (h3 hno).2⟩
    · rw [h6, List.map_map]; rfl
    · exact ⟨refilledRsv r, by rw [h6, List.getElem?_map, hj]; rfl, fun k hk => refilledRsv_tok r hk⟩
  · obtain ⟨h1, h2⟩ := redivideOne_total s al hne hts
    exact ⟨h1, h2, redivideOne_frame s al⟩
  · obtain ⟨h1, h2, h3⟩ := arbGrant_cases (c := c) hh hr
    exact ⟨h1, h2, h3, fun n x rest hp _ hrest => arbMove_cases hh hr hp hrest⟩
  · have H : ArbRun w n x a := ⟨fun i => by obtain ⟨_, _, _, hi⟩ := hnext i; rw [hi], fun i => (h i).2.1, fun i => (h i).2.2⟩
    obtain ⟨i, hi, hp⟩ := H.granted hx
    exact ⟨i, hi, (decideArb_holder _ _).trans hp⟩

end Sys2Proof.Machine
end

section
/-! PROOFS. The checks at issue and the faults of an item (chapters 04 and 13): R83, R349 to R351, R355. -/

namespace Sys2Proof.Machine

open Sys2Proof

/-! ## What a thread asks for while it waits (R324) -/

/-- The states differ only in the requests that leave the module, and what those write. -/
def AskOnly (s t : State) : Prop := t = { s with
  regs := t.regs, skv := t.skv, skvArbs := t.skvArbs, e2e := t.e2e, skvWait := t.skvWait, skvReqs := t.skvReqs, out := t.out, hostReqs := t.hostReqs
  atsWant := t.atsWant }

theorem AskOnly.refl (s : State) : AskOnly s s := rfl

theorem AskOnly.trans {s t u : State} (h : AskOnly s t) (h' : AskOnly t u) : AskOnly s u := by unfold AskOnly at *; rw [h', h]

theorem LinkOnly.askOnly {s t : State} (h : LinkOnly s t) : AskOnly s t := by unfold LinkOnly at h; unfold AskOnly; rw [h]

theorem AskOnly.foldl {β : Type} {f : State → β → State} (hf : ∀ t b, AskOnly t (f t b)) (l : List β) (s : State) : AskOnly s (l.foldl f s) := by
  induction l generalizing s with
  | nil => exact .refl s
  | cons b l ih => exact (hf s b).trans (ih (f s b))

theorem AskOnly.foldl_fst {α β : Type} {f : State × α → β → State × α} (hf : ∀ p b, AskOnly p.1 (f p b).1) (l : List β) (p : State × α) :
    AskOnly p.1 (l.foldl f p).1 := by
  induction l generalizing p with
  | nil => exact .refl _
  | cons b l ih => exact (hf p b).trans (ih (f p b))

theorem AskOnly.terraces {s t : State} (h : AskOnly s t) : t.terraces = s.terraces := by rw [h]

theorem askRun_askOnly (s : State) (w : Who) (al : Nat) (r : Nat × Nat × List PByte) : AskOnly s (askRun s w al r) := by
  unfold askRun
  split
  · exact .refl s
  · split
    · extract_lets hd n q
      split
      · exact .refl s
      · rfl
    · exact (peerRequest_linkOnly _ _ _ _ _ _ _).askOnly

theorem atsAsk_askOnly (s : State) (w : Who) (al : Nat) (vas : List Nat) : AskOnly s (atsAsk s w al vas) := by
  unfold atsAsk
  dsimp -zeta only
  refine AskOnly.trans (AskOnly.foldl_fst (fun p va => ?_) vas (s, [])) (.foldl (fun t r => askRun_askOnly t _ _ _) _ _)
  extract_lets blank
  split
  · split
    · extract_lets page e
      dsimp only
      split
      · exact .refl _
      · rfl
    · exact .refl _
  · exact .refl _
  · extract_lets sec
    split <;> exact .refl _

/-! ## Fetch and ILLEGAL (R349 to R351) -/

section Issue
variable {row : OpRow} {i : Issue} {s : State} {body : Ctx → State → Option State}

theorem issue_notReady (h : (ctxOf i s).t.st ≠ .ready) : issue row i s body = .next s := by
  unfold ctxOf at h
  simp_all [issue]

theorem issue_otherRow (hl : legalOp i.w0 = true) (hr : row.has i.w0 = false) : issue row i s body = .next s := by
  simp [issue, hl, hr]

/-- A word that the row's command issues: one of the row, or none of Table 13-3. -/
theorem row_or_illegal (h : row.has i.w0 = true ∨ legalOp i.w0 = false) : (legalOp i.w0 && !row.has i.w0) = false := by
  rcases h with h | h <;> simp [h]

theorem issue_wait (hr : (ctxOf i s).t.st = .ready) (hm : row.has i.w0 = true ∨ legalOp i.w0 = false)
    (hf : fetch s i.tg.val (ctxOf i s).pc (opWords i.w0) = .wait) : issue row i s body = .next (if terraceFenced s i.tg.val = true then s else
      atsAsk s (.terrace i.tg.val) (allotOf s i.tg.val) (fetchMissing s i.tg.val (ctxOf i s).pc)) := by
  have hg := row_or_illegal hm
  unfold ctxOf at hr hf
  simp_all [issue, ctxOf]

theorem issue_fetchFault (hr : (ctxOf i s).t.st = .ready) (hm : row.has i.w0 = true ∨ legalOp i.w0 = false)
    (hf : fetch s i.tg.val (ctxOf i s).pc (opWords i.w0) = .fault) :
    issue row i s body = .next (raise (ctxOf i s) fFETCH (logFetch s i.tg.val (ctxOf i s).pc)) := by
  have hg := row_or_illegal hm
  unfold ctxOf at hr hf
  simp_all [issue, ctxOf]

theorem issue_illegal (hr : (ctxOf i s).t.st = .ready) (hf : fetch s i.tg.val (ctxOf i s).pc (opWords i.w0) = .ok) (hl : legalOp i.w0 = false) :
    issue row i s body = .next (raise (ctxOf i s) fILLEGAL (held i s)) := by
  unfold ctxOf at hr hf
  simp_all [issue, held, ctxOf]

end Issue

/-- A line in the buffer is not read again. -/
theorem bufferLine_held {s : State} {tg pc : Nat} (h : (terrace s tg).ibuf.contains (pc % 2 ^ 52 / 64) = true) : bufferLine s tg pc = s := if_pos h

/-- Settles O5: each clause is one branch of issue, and the buffer's lines are not read again. -/
theorem issueChecksComeFirst : Obligations.IssueChecksComeFirst := by
  refine ⟨fun c i row s hc => ?_, fun c i row s hc hr hm => ?_, fun i s => ⟨held_cacheOnly i s, fun h1 h2 => ?_⟩⟩
  · obtain ⟨body, hbody⟩ := exec_row c i row hc
    rw [hbody]
    refine ⟨issue_notReady, issue_otherRow, fun hr hm hf => ⟨fun hfence => ?_, fun hfence => ?_⟩⟩
    · rw [issue_wait hr hm hf, if_pos hfence]
    · rw [issue_wait hr hm hf, if_neg (by simp [hfence])]
      exact ⟨_, rfl, (atsAsk_askOnly _ _ _ _).terraces, rfl⟩
  · obtain ⟨body, hbody⟩ := exec_row c i row hc
    rw [hbody]
    exact ⟨issue_fetchFault hr hm, issue_illegal hr⟩
  · unfold held bufferLines
    simp only [ctxOf_tg, ctxOf_pc] at h1 h2 ⊢
    rw [bufferLine_held h1]
    split
    next hw => exact bufferLine_held (h2 hw)
    next => rfl

/-! ## Unused fields (R350) -/

/-- The instruction's row issues a body that checks the fields of the list first. -/
def ChecksFields (op : Issue → Instr) (l : List (Nat × Nat)) : Prop :=
  ∀ i, ∃ row k, (op i).row? = some (i, row) ∧ ∀ s, exec (op i) s = issue row i s (strict l k)

theorem ChecksFields.illegal {op : Issue → Instr} {l : List (Nat × Nat)} (h : ChecksFields op l) {i : Issue} {s : State} {row : OpRow}
    (hrow : (op i).row? = some (i, row)) (hi : Issues row i s) (hf : ∃ f ∈ l, fld i.w0 f.1 f.2 ≠ 0) :
    exec (op i) s = .next (raise (ctxOf i s) 0x01 (past i s)) := by
  obtain ⟨row', k, hr, he⟩ := h i
  obtain rfl : row = row' := by rw [hr] at hrow; simpa using hrow.symm
  rw [he]
  refine issue_some hi (strict_nonzero ?_)
  obtain ⟨f, hf, hne⟩ := hf
  rw [zeroFields, List.all_eq_false]
  exact ⟨f, hf, by simpa using hne⟩

/-- Settles O7: the body of each listed instruction checks the listed fields before it does anything. -/
theorem unusedFieldsRaiseIllegal : Obligations.UnusedFieldsRaiseIllegal := by
  intro e he
  have hchecks : ChecksFields e.1 e.2 := by
    revert e
    simp only [List.forall_mem_cons, List.not_mem_nil, false_imp_iff, implies_true, and_true]
    and_intros
    all_goals exact fun i => ⟨_, _, rfl, fun _ => rfl⟩
  exact fun i s row hrow hi hf => hchecks.illegal hrow hi hf

/-! ## A fault of an item (R83, R355) -/

/-- The states differ only in what stopping an item writes: its run, the terraces, lanes and Saddles, and the logs and counters of its faults. -/
def StopOnly (s t : State) : Prop := t = { s with
  regs := t.regs, ras := t.ras, rasNext := t.rasNext, evq := t.evq, intPend := t.intPend, out := t.out, flog := t.flog, runs := t.runs
  terraces := t.terraces, saddles := t.saddles, lanes := t.lanes, got := t.got }

section Stop
variable {s t u : State} {k : Nat} {r : Run}

theorem StopOnly.refl (s : State) : StopOnly s s := rfl

theorem StopOnly.trans (h : StopOnly s t) (h' : StopOnly t u) : StopOnly s u := by unfold StopOnly at *; rw [h', h]

theorem LogOnly.stopOnly (h : LogOnly s t) : StopOnly s t := by unfold LogOnly at h; unfold StopOnly; rw [h]

theorem StopOnly.foldl {β : Type} {f : State → β → State} (hf : ∀ t b, StopOnly t (f t b)) (l : List β) (s : State) : StopOnly s (l.foldl f s) := by
  induction l generalizing s with
  | nil => exact .refl s
  | cons b l ih => exact (hf s b).trans (ih (f s b))

theorem updRun_stopOnly (s : State) (k : Nat) (f : Run → Run) : StopOnly s (updRun s k f) := by
  unfold updRun
  split
  · rfl
  · exact .refl s

/-- Recording translation faults changes, of a run, the count of its records and its error bits, and no terrace. -/
def XltOnly (s t : State) : Prop :=
  StopOnly s t ∧ t.terraces = s.terraces ∧ ∀ k r, mget? s.runs k = some r → ∃ x e, mget? t.runs k = some { r with xltrec := x, err := e }

theorem XltOnly.refl (s : State) : XltOnly s s := ⟨.refl s, rfl, fun _ r h => ⟨r.xltrec, r.err, h⟩⟩

theorem XltOnly.trans (h : XltOnly s t) (h' : XltOnly t u) : XltOnly s u := by
  refine ⟨h.1.trans h'.1, h'.2.1.trans h.2.1, fun k r hr => ?_⟩
  obtain ⟨x, e, hx⟩ := h.2.2 k r hr
  obtain ⟨x', e', hx'⟩ := h'.2.2 k _ hx
  exact ⟨x', e', hx'⟩

theorem XltOnly.ite {c : Prop} [Decidable c] (h : XltOnly s t) (h' : XltOnly s u) : XltOnly s (if c then t else u) := by split <;> assumption

theorem XltOnly.foldl {β : Type} {f : State → β → State} (hf : ∀ t b, XltOnly t (f t b)) (l : List β) (s : State) : XltOnly s (l.foldl f s) := by
  induction l generalizing s with
  | nil => exact .refl s
  | cons b l ih => exact (hf s b).trans (ih (f s b))

theorem LogOnly.xltOnly (h : LogOnly s t) : XltOnly s t := ⟨h.stopOnly, by rw [h], fun _ r hr => ⟨r.xltrec, r.err, by rw [h]; exact hr⟩⟩

theorem updRun_xltOnly (s : State) (k : Nat) (f : Run → Run) (hf : ∀ r, ∃ x e, f r = { r with xltrec := x, err := e }) : XltOnly s (updRun s k f) := by
  refine ⟨updRun_stopOnly s k f, by unfold updRun; split <;> rfl, fun j r hr => ?_⟩
  unfold updRun
  split
  next q hq =>
    by_cases hj : j = k
    · subst hj
      obtain rfl : q = r := by rw [hq] at hr; simpa using hr
      obtain ⟨x, e, he⟩ := hf q
      exact ⟨x, e, by rw [mget?_mset_same, he]⟩
    · exact ⟨r.xltrec, r.err, by rw [mget?_mset_other _ _ _ _ hj]; exact hr⟩
  next => exact ⟨r.xltrec, r.err, hr⟩

theorem logXlt_xltOnly (s : State) (slot : Option Nat) (x : XRec) : XltOnly s (logXlt s slot x) := by
  unfold logXlt
  extract_lets s1 s2 s3
  have h1 : XltOnly s s1 := (satAdd_logOnly _ _ _ _ _).xltOnly
  have h2 : XltOnly s1 s2 := ⟨rfl, rfl, fun _ r h => ⟨r.xltrec, r.err, h⟩⟩
  have h3 : XltOnly s1 s3 := .ite (.ite (h2.trans (intCause_logOnly _).xltOnly) h2)
    (.ite (.refl s1) ((setRg_logOnly _ _).trans (intCause_logOnly _)).xltOnly)
  cases slot with
  | none => exact h1.trans h3
  | some k => exact (h1.trans h3).trans ((updRun_xltOnly _ _ _ (fun r => ⟨_, _, rfl⟩)).trans (updRun_xltOnly _ _ _ (fun r => ⟨_, _, rfl⟩)))

theorem logStream_xltOnly (s : State) (slot : Option Nat) (al src : Nat) (l : List Acc) : XltOnly s (logStream s slot al src l) :=
  .foldl (fun t x => logXlt_xltOnly t slot x) _ s

theorem logStopped_xltOnly (s : State) (k : Nat) (r : Run) : XltOnly s (logStopped s k r) := by
  unfold logStopped
  extract_lets s1 s2
  have h1 : XltOnly s s1 := .foldl (fun t tg => .foldl (fun u e => logStream_xltOnly u _ _ _ _) _ t) _ s
  have h2 : XltOnly s1 s2 := .foldl (fun t e => .foldl (fun u j => logStream_xltOnly u _ _ _ _) _ t) _ s1
  split
  · exact (h1.trans h2).trans (logStream_xltOnly _ _ _ _ _)
  · exact h1.trans h2

/-- Discarding the reaches of an item ends its job, and changes no terrace outside its span. -/
theorem discardReaches_effect (hr : mget? s.runs k = some r) :
    StopOnly s (discardReaches s k) ∧ mget? (discardReaches s k).runs k = some { r with cut := none } ∧
    ∀ x, x ∉ r.tgs → terrace (discardReaches s k) x = terrace s x := by
  let drop (s : State) (tg : Nat) : State :=
    let n := (terrace s tg).reachQ.length
    if (terrace s tg).slot ≠ some k then s
    else satAdd (updTerrace s tg (fun t => { t with reachQ := [], rqWait := [] })) (sBase (saddleOf tg) + 0x40090) 0 0 32 n
  have hdrop : ∀ t tg, StopOnly t (drop t tg) ∧ (drop t tg).runs = t.runs ∧ ∀ x, x ≠ tg → terrace (drop t tg) x = terrace t x := fun t tg => by
    simp only [drop]
    split
    · exact ⟨.refl t, rfl, fun _ _ => rfl⟩
    · exact ⟨rfl, rfl, fun x hx => terrace_updTerrace_other t tg x (fun t => { t with reachQ := [], rqWait := [] }) hx⟩
  have hfold : ∀ (l : List Nat) (t : State), StopOnly t (l.foldl drop t) ∧ (l.foldl drop t).runs = t.runs ∧
      ∀ x, x ∉ l → terrace (l.foldl drop t) x = terrace t x := fun l => by
    induction l with
    | nil => exact fun t => ⟨.refl t, rfl, fun _ _ => rfl⟩
    | cons a l ih =>
      intro t
      obtain ⟨h1, h2, h3⟩ := hdrop t a
      obtain ⟨g1, g2, g3⟩ := ih (drop t a)
      exact ⟨h1.trans g1, g2.trans h2, fun x hx => (g3 x (by simp_all)).trans (h3 x (by simp_all))⟩
  obtain ⟨h1, h2, h3⟩ := hfold r.tgs s
  have he : discardReaches s k = updRun (r.tgs.foldl drop s) k (fun r => { r with cut := none }) := by simp only [discardReaches, hr]; rfl
  rw [he]
  refine ⟨h1.trans (updRun_stopOnly _ _ _), ?_, fun x hx => ?_⟩
  · rw [updRun_of_some (h2 ▸ hr)]
    exact mget?_mset_same _ _ _
  · rw [updRun_of_some (h2 ▸ hr)]
    exact h3 x hx

/-- Terraces stopped one after another: each is stopped, and no other changes. -/
theorem stopTerraces_effect (l : List Nat) (s : State) :
    let u := l.foldl (fun s tg => updTerrace s tg stopTerrace) s
    StopOnly s u ∧ u.runs = s.runs ∧ (∀ x ∈ l, ∃ t, terrace u x = stopTerrace t) ∧ ∀ x, x ∉ l → terrace u x = terrace s x := by
  induction l generalizing s with
  | nil => exact ⟨.refl s, rfl, fun _ h => absurd h List.not_mem_nil, fun _ _ => rfl⟩
  | cons a l ih =>
    obtain ⟨h1, h2, h3, h4⟩ := ih (updTerrace s a stopTerrace)
    refine ⟨StopOnly.trans (t := updTerrace s a stopTerrace) rfl h1, h2, fun x hx => ?_, fun x hx => ?_⟩
    · by_cases hl : x ∈ l
      · exact h3 x hl
      · obtain rfl : x = a := by simpa [hl] using hx
        exact ⟨_, (h4 x hl).trans (terrace_updTerrace_same _ _ _)⟩
    · exact (h4 x (by simp_all)).trans (terrace_updTerrace_other _ _ _ _ (by simp_all))

/-- A stopped terrace has no thread that is started, and its islands are empty. -/
theorem stopTerrace_thread (t : Terrace) (n : Nat) :
    (mget (stopTerrace t).threads n {}).st ≠ .ready ∧ ∀ w, (mget (stopTerrace t).threads n {}).st ≠ .blocked w := by
  have hmap : ∀ (m : Map Thread), mget? (m.map (fun (k, th) => (k, if th.live then { th with st := .ended } else th))) n =
      (mget? m n).map (fun th => if th.live then { th with st := ThreadSt.ended } else th) := fun m => by
    induction m with
    | nil => rfl
    | cons e m ih =>
      obtain ⟨j, th⟩ := e
      simp only [List.map_cons, mget?]
      split
      · rfl
      · exact ih
  have hst : mget (stopTerrace t).threads n {} = ((mget? t.threads n).map (fun th => if th.live then { th with st := ThreadSt.ended } else th)).getD {} := by
    rw [← hmap]; rfl
  rw [hst]
  cases mget? t.threads n with
  | none => exact ⟨by simp, by simp⟩
  | some th =>
    cases h : th.st with
    | ready => simp [Thread.live, h]
    | blocked w => simp [Thread.live, h]
    | idle => simp [Thread.live, h]
    | ended => simp [Thread.live, h]

/-- What stopping an item leaves: its run stopped without Sump jobs and without a job of the cutter, its terraces stopped, and no other changed. -/
theorem stopItem_effect (hr : mget? s.runs k = some r) :
    StopOnly s (stopItem s k) ∧
    (∃ x e, mget? (stopItem s k).runs k = some { r with xltrec := x, err := e, cut := none, stopped := true, sumps := 0 }) ∧
    (∀ x ∈ r.tgs, ∃ t, terrace (stopItem s k) x = stopTerrace t) ∧ ∀ x, x ∉ r.tgs → terrace (stopItem s k) x = terrace s x := by
  obtain ⟨a1, a2, a3⟩ := logStopped_xltOnly s k r
  obtain ⟨x, e, hx⟩ := a3 k r hr
  obtain ⟨b1, b2, b3⟩ := discardReaches_effect hx
  obtain ⟨c1, c2, c3, c4⟩ := stopTerraces_effect r.tgs (discardReaches (logStopped s k r) k)
  unfold stopItem
  simp only [hr]
  generalize r.tgs.foldl (fun s tg => updTerrace s tg stopTerrace) (discardReaches (logStopped s k r) k) = v at c1 c2 c3 c4 ⊢
  have hrun : mget? v.runs k = some { r with xltrec := x, err := e, cut := none } := by rw [c2]; exact b2
  rw [updRun_of_some (r := { r with xltrec := x, err := e, cut := none }) (by exact hrun)]
  refine ⟨((a1.trans b1).trans c1).trans rfl, ⟨x, e, mget?_mset_same _ _ _⟩, c3, fun y hy => ?_⟩
  refine (c4 y hy).trans ((b3 y hy).trans ?_)
  unfold terrace
  rw [a2]

/-- Settles O8: the first fault becomes the item's, a later one is counted, and stopItem_effect says the rest. -/
theorem faultsStopTheItem : Obligations.FaultsStopTheItem := by
  intro s tg thr pc code k r hrun u
  have hr : mget? s.runs k = some r := mget?_runs_of_runOfT hrun
  let faulted (r : Run) : Run := match r.fault with
    | none => { r with fault := some { code, tg, thr, pc } }
    | some _ => { r with more := min 0xFFFF (r.more + 1) }
  let s1 := rasAppend s 0x10 1 1 tg (some r.allot) (code + thr * 2 ^ 8 + pc % 2 ^ 52 * 2 ^ 12)
  have hu : u = stopItem (updRun s1 k faulted) k := by simp only [u, itemFault, hrun]; rfl
  have hlog : LogOnly s s1 := rasAppend_logOnly _ _ _ _ _ _
  have h1 : mget? s1.runs k = some r := by rw [hlog]; exact hr
  have h2 : updRun s1 k faulted = { s1 with runs := mset s1.runs k (faulted r) } := updRun_of_some h1 _
  have h3 : mget? (updRun s1 k faulted).runs k = some (faulted r) := by rw [h2]; exact mget?_mset_same _ _ _
  obtain ⟨d1, ⟨x, e, d2⟩, d3, d4⟩ := stopItem_effect h3
  have htgs : (faulted r).tgs = r.tgs := by simp only [faulted]; split <;> rfl
  have hall : StopOnly s u := hu ▸ (hlog.stopOnly.trans (updRun_stopOnly _ _ _)).trans d1
  rw [htgs] at d3 d4
  refine ⟨⟨_, hu ▸ d2, rfl, rfl, rfl, fun h => ?_, fun h => ?_⟩, fun y hy => ?_, fun y hy => ?_, by rw [hall], by rw [hall], by rw [hall]⟩
  · simp only [faulted, h]
    exact ⟨trivial, trivial⟩
  · obtain ⟨f, hf⟩ := Option.ne_none_iff_exists'.mp h
    simp only [faulted, hf]
    exact ⟨trivial, trivial⟩
  · obtain ⟨t, ht⟩ := d3 y hy
    rw [← hu] at ht
    refine ⟨fun n => ?_, by rw [ht]; rfl, by rw [ht]; rfl⟩
    unfold thread
    rw [ht]
    exact stopTerrace_thread t n
  · rw [hu, d4 y hy, h2]
    unfold terrace
    rw [hlog]

end Stop

end Sys2Proof.Machine
end

section
/-! PROOFS. The DSC register forms, semaphores, and the SYS group (chapters 04 and 13): R87, R98, R100, R132, R285, R361, R380. -/

namespace Sys2Proof.Machine

open Sys2Proof

/-! ## Descriptor registers (R361) -/

/-- Settles O11: each register form of DSC as the issue of its body, which changes one register of the thread. -/
theorem descriptorRegisters : Obligations.DescriptorRegisters := by
  intro i s
  refine ⟨fun hi hz => ?mov, fun hi hz => ?zero, fun hi hz hz' => ?getb, fun hi h1 h2 h3 => ?setb, fun hi h1 h2 => ?addb⟩
  case mov => exact issue_strict_onThread hi (by simp [hz]) rfl rfl
  case zero => exact issue_strict_onThread hi (by simp [hz]) rfl rfl
  case getb => exact issue_strict_onThread hi (by simp [hz, hz']) rfl rfl
  case setb => exact issue_strict_onThread hi (by simp [h1, h2, h3]) rfl rfl
  case addb => exact issue_strict_onThread hi (by simp [h1, h2]) rfl rfl

/-! ## Semaphores (R100) -/

/-- A strict instruction that issues, with its unused fields 0, has its body's effect. -/
theorem issue_strict {row : OpRow} {i : Issue} {s t : State} {l : List (Nat × Nat)} {k : Ctx → State → Option State} (h : Issues row i s)
    (hz : ∀ x ∈ l, fld i.w0 x.1 x.2 = 0) (hk : k (ctxOf i s) (past i s) = some t) : issue row i s (strict l k) = .next t :=
  issue_some h ((strict_zero (zeroFields_of i.w0 l hz)).trans hk)

theorem reached_iff (v t : W32) : reached v t = true ↔ 0 ≤ (v - t).toInt := by
  rw [reached, Bool.not_eq_true', BitVec.msb_eq_toInt, decide_eq_false_iff_not, not_lt]

/-- Settles O12: CTL.SIG and CTL.WAIT as the issue of their bodies; the comparison of a wait is the sign of the difference. -/
theorem semaphoreSignalAndWait : Obligations.SemaphoreSignalAndWait := by
  intro i s hz th v k p
  have hzero : ∀ x ∈ [(32, 5)], fld i.w0 x.1 x.2 = 0 := by simpa using hz
  refine ⟨fun hi hb => ?terrace, fun hi hb e r hr => ?span, fun hi hge => ?goesOn, fun hi hlt => ?blocks⟩
  case terrace => exact issue_strict hi hzero (by simp only [semAdd, ctxOf_w0, hb]; rfl)
  case span =>
    have hadd : semAdd (past i s) i.tg.val (bit i.w0 47) (fld i.w0 43 4) (semValue (ctxOf i s)) =
        updRun (past i s) e (fun r => { r with ss := mset r.ss k (mget r.ss k 0 + v) }) := by
      simp only [semAdd, hb, if_true, show runOfT (past i s) i.tg.val = some (e, r) from hr]
      rfl
    exact issue_strict hi hzero (congrArg some (hadd.trans (updRun_of_some (mget?_runs_of_runOfT hr) _)))
  case goesOn => exact issue_strict hi hzero (if_pos ((reached_iff _ _).mpr hge))
  case blocks => exact issue_strict hi hzero (if_neg (fun h => absurd ((reached_iff _ _).mp h) (not_le.mpr hlt)))

/-! ## SYS (R87, R285, R380) -/

/-- A read of the span record past an instruction reads the record as it stood before it. -/
theorem spanField_past (i : Issue) (s : State) (tg sel : Nat) :
    spanField (terrace (past i s) i.tg.val) tg sel = spanField (terrace s i.tg.val) tg sel := by
  obtain ⟨th, cy, tl, ib, h⟩ := terrace_past i s
  rw [h]
  unfold spanField
  rfl

theorem resHits_past (i : Issue) (s : State) : (terrace (past i s) i.tg.val).resHits = (terrace s i.tg.val).resHits := by
  obtain ⟨th, cy, tl, ib, h⟩ := terrace_past i s
  rw [h]

/-- Each issue takes a cycle of its own. -/
theorem cycles_past (i : Issue) (s : State) :
    (terrace (past i s) i.tg.val).cycles = if (terrace s i.tg.val).firstIssue then (terrace s i.tg.val).cycles + 1 else 0 := by
  obtain ⟨tl, ib, h⟩ := (held_cacheOnly i s).2.2.1 i.tg.val
  unfold past advance updThread setThread
  simp only [ctxOf_tg, terrace_updTerrace_same, h]

/-- A terrace some cycles on. -/
def laterBy (s : State) (tg n : Nat) : State := updTerrace s tg (fun t => { t with cycles := t.cycles + n })

/-- What SYS.CYCLE does: a free number of cycles more have passed, and its thread takes the count. -/
theorem cycleBody_eq (c : Ctx) (s : State) :
    onThread c (updTerrace (fresh s).2 c.tg (fun t => { t with cycles := t.cycles + (fresh s).1.toNat % 2 ^ 32 }))
      (fun t => t.setS (fld c.w0 43 5) (BitVec.ofNat 64
        (terrace (updTerrace (fresh s).2 c.tg (fun t => { t with cycles := t.cycles + (fresh s).1.toNat % 2 ^ 32 })) c.tg).cycles)) =
      { onThread c (laterBy s c.tg ((Config.freeValue s.freeCtr).toNat % 2 ^ 32)) (fun t => t.setS (fld c.w0 43 5) (BitVec.ofNat 64
        (terrace (laterBy s c.tg ((Config.freeValue s.freeCtr).toNat % 2 ^ 32)) c.tg).cycles)) with freeCtr := s.freeCtr + 1 } := rfl

theorem freeCtr_past (i : Issue) (s : State) : (past i s).freeCtr = s.freeCtr := by
  rw [(onlyThread_past i s).2.1, (held_cacheOnly i s).1]

theorem OnlyThread.updCycles {i : Issue} {s t : State} (h : OnlyThread i s t) (g : Nat → Nat) :
    OnlyThread i s (updTerrace t i.tg.val (fun t => { t with cycles := g t.cycles })) := by
  obtain ⟨h0, h1, h2, ⟨th, cy, h3⟩, h4⟩ := h
  refine ⟨h0, by rw [h1]; rfl, fun k hk => ?_, ?_, fun k hk => ?_⟩
  · rw [terrace_updTerrace_other _ _ _ _ hk, h2 k hk]
  · rw [terrace_updTerrace_same, h3]
    exact ⟨_, _, rfl⟩
  · rw [← h4 k hk]
    simp only [thread, terrace_updTerrace_same]

/-! ## Fences (R98, R132) -/

theorem foldl_updTerrace_frame (l : List Nat) (f : Terrace → Terrace) (s : State) :
    l.foldl (fun s g => updTerrace s g f) s = { s with terraces := (l.foldl (fun s g => updTerrace s g f) s).terraces } := by
  induction l generalizing s with
  | nil => rfl
  | cons a l ih => rw [List.foldl_cons, ih]; rfl

/-- Terraces changed one after the other, each in a way that twice is as once: those of the list are changed, the others are not. -/
theorem terrace_foldl_updTerrace (l : List Nat) (f : Terrace → Terrace) (hf : ∀ t, f (f t) = f t) (s : State) (g : Nat) :
    terrace (l.foldl (fun s g => updTerrace s g f) s) g = if g ∈ l then f (terrace s g) else terrace s g := by
  induction l generalizing s with
  | nil => rfl
  | cons a l ih =>
    rw [List.foldl_cons, ih]
    by_cases hga : g = a
    · subst hga
      rw [terrace_updTerrace_same, hf, ite_self, if_pos List.mem_cons_self]
    · rw [terrace_updTerrace_other _ _ _ _ hga]
      exact if_congr (by simp [hga]) rfl rfl

/-- A fence of a scope issues: the partial packets leave, and its thread goes on or is Blocked. -/
theorem issue_fence {i : Issue} {s : State} {scope : Nat} (hs : scope < 3)
    (hi : Issues { maj := 13, min := 0x01, lo := 0, len := 2, val := scope } i s) (hz : fld i.w0 2 46 = 0) :
    issue (fenceRow i.w0 scope) i s (strict [(2, 46)] (checked fenceFault fenceBody)) =
      .next (if quiet (sendPartials (past i s) i.tg.val) i.tg.val i.thr.val scope then sendPartials (past i s) i.tg.val
        else updThread (sendPartials (past i s) i.tg.val) i.tg.val i.thr.val (fun t => { t with st := .blocked (.fence scope) })) := by
  have hscope : fld i.w0 0 2 = scope := by
    have h := hi.2.2.1
    simp only [OpRow.has, Bool.and_eq_true, beq_iff_eq] at h
    exact h.2
  have hrow : fenceRow i.w0 scope = { maj := 13, min := 0x01, lo := 0, len := 2, val := scope } := by
    simp only [fenceRow, hscope]
    rw [if_neg (by omega)]
  have hfault : fenceFault (ctxOf i s) (past i s) = none := by
    simp only [fenceFault, ctxOf_w0, hscope]
    exact if_neg (by omega)
  rw [hrow]
  refine issue_strict hi (by simpa using hz) ((checked_ok hfault).trans ?_)
  simp only [fenceBody, ctxOf_w0, ctxOf_tg, ctxOf_thr, hscope]
  split <;> rfl

/-- Settles O13: the reads of the SYS group as the issue of their bodies, and the fences by issue_fence. -/
theorem systemReadsAndFences : Obligations.SystemReadsAndFences := by
  refine ⟨fun i s => ⟨fun hi hz => ?span, fun hi hz => ?res, fun hi hz => ?cycle⟩, fun e he i s hi hz => ?fence⟩
  case span =>
    obtain ⟨t, h1, h2, h3⟩ := issue_strict_onThread (l := [(8, 35)]) (k := fun c s => some (onThread c s (fun t => t.setS (fld c.w0 43 5)
      (BitVec.ofNat 64 (spanField (terrace s c.tg) c.tg (fld c.w0 0 8)))))) hi (by simpa using hz) rfl rfl
    refine ⟨t, h1, h2, spanField (terrace s i.tg.val) i.tg.val (fld i.w0 0 8), ?_, ?_⟩
    · rw [h3, ← spanField_past]; rfl
    · generalize fld i.w0 0 8 = sel
      refine ⟨?_, ?_, ?_, ?_, ?_, ?_, ?_, ?_, ?_, ?_, fun h => ?_⟩
      case refine_11 =>
        obtain ⟨n, rfl⟩ : ∃ n, sel = n + 10 := ⟨sel - 10, by omega⟩
        rfl
      all_goals rintro rfl; rfl
  case res =>
    refine issue_strict_onThread hi (by simpa using hz) rfl ?_
    rw [← resHits_past]
    rfl
  case cycle =>
    intro n
    let p := past i s
    let q := laterBy p i.tg.val ((Config.freeValue s.freeCtr).toNat % 2 ^ 32)
    let f : Thread → Thread := fun t => t.setS (fld i.w0 43 5) (BitVec.ofNat 64 (terrace q i.tg.val).cycles)
    have hcycles : (terrace q i.tg.val).cycles = n := by
      simp only [q, laterBy, terrace_updTerrace_same]
      rw [cycles_past]
    have hexec : exec (.sysCycle i) s = .next { updThread q i.tg.val i.thr.val f with freeCtr := s.freeCtr + 1 } := by
      refine issue_strict hi (by simpa using hz) ?_
      dsimp only
      rw [cycleBody_eq, freeCtr_past]
      rfl
    have honly : OnlyThread i s (updThread q i.tg.val i.thr.val f) := ((onlyThread_past i s).updCycles (fun n => n + (Config.freeValue s.freeCtr).toNat % 2 ^ 32)).updThread f
    have hw : (terrace (updThread q i.tg.val i.thr.val f) i.tg.val).cycles = n := by
      obtain ⟨th, h⟩ := terrace_updThread q i.tg.val i.thr.val i.tg.val f
      rw [h]
      exact hcycles
    have hthread : thread (updThread q i.tg.val i.thr.val f) i.tg.val i.thr.val = (stepped i s).setS (fld i.w0 43 5) (BitVec.ofNat 64 n) := by
      have hq : thread q i.tg.val i.thr.val = stepped i s := by
        rw [← thread_past]
        simp only [thread, q, laterBy, terrace_updTerrace_same]
        rfl
      rw [thread_updThread_same, hq]
      simp only [f, hcycles]
    generalize updThread q i.tg.val i.thr.val f = w at hexec honly hw hthread
    have hfirst : (terrace w i.tg.val).firstIssue = true := by
      obtain ⟨-, -, -, ⟨th, cy, h⟩, -⟩ := honly
      exact congrArg Terrace.firstIssue h
    exact ⟨_, w, hexec, honly, rfl, hfirst, hw, hthread⟩
  case fence =>
    intro p
    have hfence : e.2 < 3 ∧ exec (e.1 i) s = issue (fenceRow i.w0 e.2) i s (strict [(2, 46)] (checked fenceFault fenceBody)) := by
      simp only [List.mem_cons, List.not_mem_nil, or_false] at he
      obtain rfl | rfl | rfl := he <;> exact ⟨by decide, rfl⟩
    obtain ⟨hlt, hexec⟩ := hfence
    rw [hexec, issue_fence hlt hi hz]
    refine ⟨sendPartials p i.tg.val, foldl_updTerrace_frame _ _ p, terrace_foldl_updTerrace _ (fun t => { t with partialPk := [] }) (fun _ => rfl) p,
      fun h => ?_, fun h => ?_⟩
    · rw [if_pos (show quiet (sendPartials (past i s) i.tg.val) _ _ _ = true from h)]
    · rw [if_neg (ne_true_of_eq_false h)]

end Sys2Proof.Machine
end

section
/-! PROOFS. Loads and stores of threads (chapter 13): R26, R324, R331, R353, R360, R361. -/

namespace Sys2Proof.Machine

open Sys2Proof

/-! ## Accesses keep the memories -/

section SameMem
variable {s t : State}

theorem SameMem.foldl {β : Type} {f : State → β → State} (hf : ∀ t b, SameMem t (f t b)) (l : List β) (s : State) : SameMem s (l.foldl f s) := by
  induction l generalizing s with
  | nil => exact .refl s
  | cons b l ih => exact (hf s b).trans (ih (f s b))

theorem SameMem.foldl_fst {α β : Type} {f : State × α → β → State × α} (hf : ∀ p b, SameMem p.1 (f p b).1) (l : List β) (p : State × α) :
    SameMem p.1 (l.foldl f p).1 := by
  induction l generalizing p with
  | nil => exact .refl _
  | cons b l ih => exact (hf p b).trans (ih (f p b))

/-- A change of terraces alone is none of the memories outside them. -/
theorem updTerrace_sameMem (s : State) (n : Nat) (f : Terrace → Terrace) : SameMem s (updTerrace s n f) :=
  ⟨rfl, rfl, rfl, rfl, rfl, rfl, rfl, rfl, fun _ => rfl⟩

/-- A change of a Saddle's translations is none of its stacks. -/
theorem updSaddle_stlb_sameMem (s : State) (n : Nat) (f : List Tlb → List Tlb) :
    SameMem s (updSaddle s n (fun d => { d with stlb := f d.stlb })) := by
  refine ⟨rfl, rfl, rfl, rfl, rfl, rfl, rfl, rfl, fun k => ?_⟩
  unfold stackOf
  by_cases h : k / 6 = n
  · rw [h, saddle_updSaddle_same]
  · rw [saddle_updSaddle_other _ _ _ _ h]

theorem cacheLeaf_sameMem (s : State) (w : Who) (al va : Nat) : SameMem s (cacheLeaf s w al va) := by
  unfold cacheLeaf
  extract_lets v
  split
  · exact .refl s
  · extract_lets t add s1
    have h1 : SameMem s s1 := updSaddle_stlb_sameMem s _ (add 8192)
    split
    · exact h1.trans (updTerrace_sameMem _ _ _)
    · exact h1

theorem passWalk_sameMem (s : State) (q : Path) (w : Who) (al va : Nat) : SameMem s (passWalk s q w al va) := by
  unfold passWalk
  split
  · exact .refl s
  · exact .foldl (fun t a => (saddlePass_passOnly _ _ _ _ _).sameMem) _ s

theorem spend_sameMem (s : State) (w : Who) (al : Nat) (a : Acc) : SameMem s (spend s w al a) := by
  unfold spend
  split
  · exact .refl s
  · split
    · split
      · exact ⟨rfl, rfl, rfl, rfl, rfl, rfl, rfl, rfl, fun _ => rfl⟩
      · exact .refl s
    · exact .refl s

theorem rasAppend_sameMem (s : State) (code sev skind unit : Nat) (al : Option Nat) (detail : Nat) :
    SameMem s (rasAppend s code sev skind unit al detail) := (rasAppend_logOnly _ _ _ _ _ _).sameMem

theorem noteAcc_sameMem (w : Who) (slot : Option Nat) (al : Nat) (q : Path) (s : State) (a : Acc) : SameMem s (noteAcc w slot al q s a) := by
  unfold noteAcc
  split
  · split
    · extract_lets s1 s2
      have h2 : SameMem s s2 := (satAdd_logOnly _ _ _ _ _).sameMem.trans (rasAppend_sameMem _ _ _ _ _ _ _)
      cases slot with
      | none => exact h2
      | some k => exact h2.trans (updRun_sameMem _ _ _)
    · exact .refl s
  · extract_lets s1
    have h1 : SameMem s s1 := passWalk_sameMem _ _ _ _ _
    split
    · extract_lets s2
      have h2 : SameMem s s2 := h1.trans (rasAppend_sameMem _ _ _ _ _ _ _)
      cases slot with
      | none => exact h2
      | some k => exact h2.trans (updRun_sameMem _ _ _)
    · exact h1
  · exact ((passWalk_sameMem _ _ _ _ _).trans (cacheLeaf_sameMem _ _ _ _)).trans (spend_sameMem _ _ _ _)
  · exact passWalk_sameMem _ _ _ _ _

theorem passPackets_sameMem (s : State) (w : Who) (al : Nat) (q : Path) (l : List Acc) : SameMem s (passPackets s w al q l).1 := by
  unfold passPackets
  refine SameMem.foldl_fst (fun p r => ?_) _ (s, [])
  split
  · exact .refl _
  · exact (saddlePass_passOnly _ _ _ _ _).sameMem

/-- The effects of accesses at once are none on the memories. -/
theorem noteAccs_sameMem (s : State) (w : Who) (slot : Option Nat) (al : Nat) (l : List Acc) : SameMem s (noteAccs s w slot al l) :=
  (SameMem.foldl (fun t a => noteAcc_sameMem w slot al _ t a) l s).trans (passPackets_sameMem _ _ _ _ _)

theorem bufferLine_sameMem (s : State) (tg pc : Nat) : SameMem s (bufferLine s tg pc) := by
  unfold bufferLine
  extract_lets l
  split
  · exact .refl s
  · exact (noteAccs_sameMem _ _ _ _ _).trans (updTerrace_sameMem _ _ _)

theorem past_sameMem (i : Issue) (s : State) : SameMem s (past i s) := by
  have hheld : SameMem s (held i s) := by
    unfold held bufferLines
    extract_lets s1
    split
    · exact (bufferLine_sameMem _ _ _).trans (bufferLine_sameMem _ _ _)
    · exact bufferLine_sameMem _ _ _
  unfold past advance updThread setThread
  exact hheld.trans ((updTerrace_sameMem _ _ _).trans (updTerrace_sameMem _ _ _))

theorem tagThread_sameMem (s : State) (tg thr : Nat) : SameMem s (tagThread s tg thr) := by
  unfold tagThread
  extract_lets s1
  have h1 : SameMem s s1 := ⟨rfl, rfl, rfl, rfl, rfl, rfl, rfl, rfl, fun _ => rfl⟩
  split
  · exact h1
  · exact h1.trans (updTerrace_sameMem _ _ _)

end SameMem

/-! ## Loads (R360, R361) -/

/-- The rules that R360 gives the address of an access of n bytes. -/
def GoodAddress (space a n : Nat) : Prop := a % n = 0 ∧ (space = 0 ∨ a < 2 ^ 24 ∧ a + n ≤ memSize space)

theorem scalarBreaks_iff {space a n : Nat} : scalarBreaks space a n = true ↔ ¬ GoodAddress space a n := by
  simp only [scalarBreaks, GoodAddress, Bool.or_eq_true, Bool.and_eq_true, decide_eq_true_eq]
  omega

/-- A load whose address keeps the rules, by a thread whose space is coded. -/
theorem memFault_good {c : Ctx} {s : State} {n : Ctx → Nat} (hs : spaceOf c < 4) (h : GoodAddress (spaceOf c) (memAddr c) (n c)) :
    memFault n c s = none := by
  unfold memFault
  rw [if_neg (by omega), if_neg (fun hb => scalarBreaks_iff.mp hb h)]

theorem memFault_bad {c : Ctx} {s : State} {n : Ctx → Nat} (hs : spaceOf c < 4) (h : ¬ GoodAddress (spaceOf c) (memAddr c) (n c)) :
    memFault n c s = some fSCALAR := by
  unfold memFault
  rw [if_neg (by omega), if_pos (scalarBreaks_iff.mpr h)]

section Load
variable {c : Ctx} {s : State} {space a n : Nat} {k : List Byte → Thread → Thread}

theorem loadBytes_fenced (h : space = 0 ∧ terraceFenced s c.tg = true) : loadBytes c s space a n k = none := by
  unfold loadBytes
  extract_lets al r
  exact if_pos (by simp [h.1, h.2])

theorem loadBytes_waits (h : ¬ (space = 0 ∧ terraceFenced s c.tg = true)) (hm : atsMissing (spRead s c.tg (allotOf s c.tg) space a n).accs ≠ []) :
    loadBytes c s space a n k = some (tagThread (updThread (atsAsk s (.terrace c.tg) (allotOf s c.tg)
      (atsMissing (spRead s c.tg (allotOf s c.tg) space a n).accs)) c.tg c.thr (fun t => { t with st := .blocked (.load c.w0 c.pc) })) c.tg c.thr) := by
  unfold loadBytes
  extract_lets al r s1
  exact (if_neg (by simpa using h)).trans (if_pos hm)

theorem loadBytes_poisoned (h : ¬ (space = 0 ∧ terraceFenced s c.tg = true)) (hm : atsMissing (spRead s c.tg (allotOf s c.tg) space a n).accs = [])
    (hb : ∃ b ∈ (spRead s c.tg (allotOf s c.tg) space a n).data, b.2 = true) :
    let noted := noteAccs s (.terrace c.tg) (slotOf s c.tg) (allotOf s c.tg) (spRead s c.tg (allotOf s c.tg) space a n).accs
    loadBytes c s space a n k = some (raise c fSCALAR
      (logStream noted (slotOf noted c.tg) (allotOf s c.tg) c.tg (spRead s c.tg (allotOf s c.tg) space a n).accs)) := by
  intro noted
  unfold loadBytes
  extract_lets al r s1 s2
  exact (if_neg (by simpa using h)).trans ((if_neg (by simpa using hm)).trans (if_pos (List.any_eq_true.mpr hb)))

end Load

/-- The body of a load of n bytes at the address that its word names, behind its checks. -/
def loadBody (n : Ctx → Nat) (k : Ctx → List Byte → Thread → Thread) : Ctx → State → Option State :=
  checked (memFault n) (fun c s => loadBytes c s (spaceOf c) (memAddr c) (n c) (k c))

/-- A thread instruction whose whole effect is a body. -/
def IssuesBody (c : Instr) (i : Issue) (s : State) (body : Ctx → State → Option State) : Prop :=
  (∀ t, body (ctxOf i s) (past i s) = some t → exec c s = .next t) ∧ (body (ctxOf i s) (past i s) = none → exec c s = .next (held i s))

theorem issuesBody {c : Instr} {row : OpRow} {i : Issue} {s : State} {body : Ctx → State → Option State} (he : exec c s = issue row i s body)
    (hi : Issues row i s) : IssuesBody c i s body :=
  ⟨fun _ h => he.trans (issue_some hi h), fun h => he.trans (issue_none hi h)⟩

theorem issuesBody_strict {c : Instr} {row : OpRow} {i : Issue} {s : State} {l : List (Nat × Nat)} {body : Ctx → State → Option State}
    (he : exec c s = issue row i s (strict l body)) (hi : Issues row i s) (hz : ∀ x ∈ l, fld i.w0 x.1 x.2 = 0) : IssuesBody c i s body := by
  have h : strict l body (ctxOf i s) (past i s) = body (ctxOf i s) (past i s) := strict_zero (zeroFields_of i.w0 l hz)
  exact ⟨fun _ hb => he.trans (issue_some hi (h.trans hb)), fun hb => he.trans (issue_none hi (h.trans hb))⟩

/-- The ways a load can end other than with its bytes. -/
theorem loadBody_else {c : Instr} {i : Issue} {s : State} {n : Ctx → Nat} {k : Ctx → List Byte → Thread → Thread}
    (H : IssuesBody c i s (loadBody n k)) (hs : fld i.w0 32 3 < 4) :
    let g := i.tg.val
    let space := fld i.w0 32 3
    let p := past i s
    let al := allotOf p g
    let r := spRead p g al space (memAddr (ctxOf i s)) (n (ctxOf i s))
    let noted := noteAccs p (.terrace g) (slotOf p g) al r.accs
    let good := GoodAddress space (memAddr (ctxOf i s)) (n (ctxOf i s))
    let stopped := space = 0 ∧ terraceFenced p g = true
    (¬ good → exec c s = .next (raise (ctxOf i s) 0x07 p)) ∧
    (good → stopped → exec c s = .next (held i s)) ∧
    (good → ¬ stopped → atsMissing r.accs ≠ [] → exec c s = .next (tagThread (updThread (atsAsk p (.terrace g) al (atsMissing r.accs))
      g i.thr.val (fun t => { t with st := .blocked (.load i.w0 (ctxOf i s).pc) })) g i.thr.val)) ∧
    (good → ¬ stopped → atsMissing r.accs = [] → (∃ b ∈ r.data, b.2 = true) → exec c s =
      .next (raise (ctxOf i s) 0x07 (logStream noted (slotOf noted g) al g r.accs))) := by
  intro g space p al r noted good stopped
  have hok : good → loadBody n k (ctxOf i s) p = loadBytes (ctxOf i s) p space (memAddr (ctxOf i s)) (n (ctxOf i s)) (k (ctxOf i s)) :=
    fun h => checked_ok (memFault_good hs h)
  refine ⟨fun h => H.1 _ (checked_fault (memFault_bad hs h)), fun h hf => H.2 ((hok h).trans (loadBytes_fenced hf)),
    fun h hf hm => H.1 _ ((hok h).trans (loadBytes_waits hf hm)), fun h hf hm hb => H.1 _ ((hok h).trans (loadBytes_poisoned hf hm hb))⟩

/-- A load of clean bytes gives its thread what they make, and does nothing else. -/
theorem loadBody_clean {c : Instr} {i : Issue} {s : State} {n : Ctx → Nat} {k : Ctx → List Byte → Thread → Thread}
    (H : IssuesBody c i s (loadBody n k)) (hi : (ctxOf i s).t.st = .ready) (hs : fld i.w0 32 3 < 4)
    (hk : ∀ bs t, (k (ctxOf i s) bs t).st = t.st)
    (hgood : GoodAddress (fld i.w0 32 3) (memAddr (ctxOf i s)) (n (ctxOf i s)))
    (hstop : ¬ (fld i.w0 32 3 = 0 ∧ terraceFenced (past i s) i.tg.val = true)) :
    let r := spRead (past i s) i.tg.val (allotOf (past i s) i.tg.val) (fld i.w0 32 3) (memAddr (ctxOf i s)) (n (ctxOf i s))
    (∀ b ∈ r.data, b.2 = false) → ∃ t, exec c s = .next t ∧ OnlyLoad i s t ∧
      thread t i.tg.val i.thr.val = k (ctxOf i s) (r.data.map (·.1)) (stepped i s) := by
  intro r hclean
  obtain ⟨u, hu, hload⟩ := loadBytes_clean (ctxOf i s) (past i s) (fld i.w0 32 3) (memAddr (ctxOf i s)) (n (ctxOf i s)) (k (ctxOf i s))
    (fun h0 => by simpa using fun h1 => hstop ⟨h0, h1⟩) hclean
  have hok : loadBody n k (ctxOf i s) (past i s) = loadBytes (ctxOf i s) (past i s) (fld i.w0 32 3) (memAddr (ctxOf i s)) (n (ctxOf i s)) (k (ctxOf i s)) :=
    checked_ok (memFault_good hs hgood)
  obtain ⟨h1, h2⟩ := onlyLoad_past i s u (fun x => { k (ctxOf i s) (r.data.map (·.1)) x with st := .ready }) hu
  refine ⟨_, H.1 _ (hok.trans hload), h1, h2.trans ?_⟩
  have hst : (k (ctxOf i s) (r.data.map (·.1)) (stepped i s)).st = .ready := (hk _ _).trans hi
  rw [← hst]

/-- Settles O14: each form is a load behind its checks, whose endings loadBody_else and loadBody_clean say. -/
theorem threadLoads : Obligations.ThreadLoads := by
  intro i s n th g space a p al r noted good stopped else' hs
  refine ⟨fun hi hn => ?ld, fun hi hn h1 h2 => ?dscLd⟩
  case ld =>
    have H : IssuesBody (.sclLd i) i s (loadBody sclBytes (fun c bs t => t.setS (fld c.w0 43 5) (extended c bs))) := issuesBody rfl hi
    have hn' : sclBytes (ctxOf i s) = n := hn.symm
    refine ⟨?_, fun hgood hstop hclean => ?_⟩
    · have h := loadBody_else H hs
      rw [hn'] at h
      exact h
    · have h := loadBody_clean H hi.1.1 hs (fun _ _ => rfl) (by rw [hn']; exact hgood) hstop
      simp only [hn', extended] at h
      exact h hclean
  case dscLd =>
    have H : IssuesBody (.dscLd i) i s (loadBody (fun _ => 32) (fun c bs t => t.setD (dd c) (BitVec.ofNat 256 (leNat bs)))) :=
      issuesBody_strict (l := [(43, 1), (35, 3)]) rfl hi (by simp [h1, h2])
    subst hn
    exact ⟨loadBody_else H hs, fun hgood hstop hclean => loadBody_clean H hi.1.1 hs (fun _ _ => rfl) hgood hstop hclean⟩

end Sys2Proof.Machine
end

section
/-! PROOFS. Stores of threads (chapter 13): R26, R324, R331, R353, R360, R361. -/

namespace Sys2Proof.Machine

open Sys2Proof

/-- The bytes of a number, lowest first, unpoisoned. -/
def storedBytes (n v : Nat) : List PByte := (List.range n).map (fun k => (BitVec.ofNat 8 (v / 256 ^ k), false))

theorem map_leBytes (n v : Nat) : (leBytes n v).map (fun b => ((b, false) : PByte)) = storedBytes n v := by
  simp [leBytes, storedBytes, Function.comp_def]

@[simp] theorem length_storedBytes (n v : Nat) : (storedBytes n v).length = n := by simp [storedBytes]

theorem any_storedBytes (n v : Nat) : (storedBytes n v).any (·.2) = false := by simp [storedBytes]

theorem getD_storedBytes {n v k : Nat} (h : k < n) : ((storedBytes n v).map (·.1)).getD k 0 = BitVec.ofNat 8 (v / 256 ^ k) := by
  simp [storedBytes, List.getD_eq_getElem?_getD, h]

/-- The body of a store of n bytes of a number at the address that its word names, behind its checks. -/
def storeBody (n v : Ctx → Nat) : Ctx → State → Option State :=
  checked (memFault n) (fun c s => storeBytes c s (spaceOf c) (memAddr c) (leBytes (n c) (v c)))

section Store
variable {c : Ctx} {s : State} {a n v : Nat}

theorem storeBytes_terrace {space : Nat} (h : space ≠ 0) : storeBytes c s space a (leBytes n v) =
    some (noteAccs (setTerrace s c.tg (tWrite (terrace s c.tg) (allotOf s c.tg) space a (storedBytes n v)).1) (.terrace c.tg) (slotOf s c.tg) (allotOf s c.tg)
      (tWrite (terrace s c.tg) (allotOf s c.tg) space a (storedBytes n v)).2) := by
  unfold storeBytes
  extract_lets al
  rw [if_pos h, map_leBytes]

theorem storeBytes_fenced (hf : terraceFenced s c.tg = true) : storeBytes c s 0 a (leBytes n v) = none := by
  unfold storeBytes
  extract_lets al
  rw [if_neg (by simp), if_pos hf]

theorem storeBytes_made (hf : terraceFenced s c.tg = false) (hw : writeWaits s (.terrace c.tg) (allotOf s c.tg) a n = []) :
    let w := vWrite s (.terrace c.tg) (allotOf s c.tg) a (storedBytes n v)
    let noted := noteAccs w.1 (.terrace c.tg) (slotOf s c.tg) (allotOf s c.tg) w.2
    storeBytes c s 0 a (leBytes n v) = some (tagThread (logStream noted (slotOf noted c.tg) (allotOf s c.tg) c.tg w.2) c.tg c.thr) := by
  intro w noted
  have hv : storeVirtual s c.tg a (storedBytes n v) = some (logStream noted (slotOf noted c.tg) (allotOf s c.tg) c.tg w.2) := by
    unfold storeVirtual
    extract_lets al r s1
    exact if_neg (by rw [length_storedBytes]; simpa using hw)
  unfold storeBytes
  extract_lets al
  rw [if_neg (by simp), if_neg (by simp [hf]), map_leBytes]
  simp only [retryStore, hv]

theorem storeBytes_waits (hf : terraceFenced s c.tg = false) (hw : writeWaits s (.terrace c.tg) (allotOf s c.tg) a n ≠ []) :
    storeBytes c s 0 a (leBytes n v) = some (tagThread (updTerrace (atsAsk s (.terrace c.tg) (allotOf s c.tg)
      (writeWaits s (.terrace c.tg) (allotOf s c.tg) a n)) c.tg (fun t => { t with stores := t.stores ++ [{ thr := none, va := a, bytes := storedBytes n v }] }))
      c.tg c.thr) := by
  have hv : storeVirtual s c.tg a (storedBytes n v) = none := by
    unfold storeVirtual
    extract_lets al r s1
    exact if_pos (by rw [length_storedBytes]; exact hw)
  unfold storeBytes
  extract_lets al
  rw [if_neg (by simp), if_neg (by simp [hf]), map_leBytes]
  simp only [retryStore, hv, length_storedBytes]

end Store

/-- How a store ends, by space, fence and translation. -/
theorem storeBody_completes {c : Instr} {i : Issue} {s : State} {n v : Ctx → Nat} (H : IssuesBody c i s (storeBody n v)) (hs : fld i.w0 32 3 < 4) :
    let g := i.tg.val
    let space := fld i.w0 32 3
    let a := memAddr (ctxOf i s)
    let p := past i s
    let al := allotOf p g
    let bytes := storedBytes (n (ctxOf i s)) (v (ctxOf i s))
    let good := GoodAddress space a (n (ctxOf i s))
    let waits := writeWaits p (.terrace g) al a (n (ctxOf i s))
    (¬ good → exec c s = .next (raise (ctxOf i s) 0x07 p)) ∧
    (good → space ≠ 0 → exec c s = .next (noteAccs (setTerrace p g (tWrite (terrace p g) al space a bytes).1) (.terrace g) (slotOf p g) al
      (tWrite (terrace p g) al space a bytes).2)) ∧
    (good → space = 0 → terraceFenced p g = true → exec c s = .next (held i s)) ∧
    (good → space = 0 → terraceFenced p g = false → waits = [] →
      let w := vWrite p (.terrace g) al a bytes
      let noted := noteAccs w.1 (.terrace g) (slotOf p g) al w.2
      exec c s = .next (tagThread (logStream noted (slotOf noted g) al g w.2) g i.thr.val)) ∧
    (good → space = 0 → terraceFenced p g = false → waits ≠ [] →
      exec c s = .next (tagThread (updTerrace (atsAsk p (.terrace g) al waits) g (fun t =>
        { t with stores := t.stores ++ [{ thr := none, va := a, bytes }] })) g i.thr.val)) := by
  intro g space a p al bytes good waits
  have hok : good → storeBody n v (ctxOf i s) p = storeBytes (ctxOf i s) p space a (leBytes (n (ctxOf i s)) (v (ctxOf i s))) :=
    fun h => checked_ok (memFault_good hs h)
  have hok0 : good → space = 0 → storeBody n v (ctxOf i s) p = storeBytes (ctxOf i s) p 0 a (leBytes (n (ctxOf i s)) (v (ctxOf i s))) :=
    fun h h0 => h0 ▸ hok h
  exact ⟨fun h => H.1 _ (checked_fault (memFault_bad hs h)), fun h h0 => H.1 _ ((hok h).trans (storeBytes_terrace h0)),
    fun h h0 hf => H.2 ((hok0 h h0).trans (storeBytes_fenced hf)), fun h h0 hf hw => H.1 _ ((hok0 h h0).trans (storeBytes_made hf hw)),
    fun h h0 hf hw => H.1 _ ((hok0 h h0).trans (storeBytes_waits hf hw))⟩

/-! ## A store to a terrace memory -/

/-- A write inside one sector of a terrace memory, outside every fence. -/
theorem tWrite_one {t : Terrace} {al space a : Nat} {bs : List PByte} (hn : 0 < bs.length) (hsec : a % 32 + bs.length ≤ 32)
    (hsize : a + bs.length ≤ memSize space) (hf : fenced t al space a = false) :
    tWrite t al space a bs = (setMem t space ((memOf t space).writeSector a bs), []) := by
  unfold tWrite
  rw [sectorParts_one a bs.length hn hsec]
  simp only [List.foldl_cons, List.foldl_nil, Nat.add_zero, List.drop_zero, List.take_length, hf]
  rw [if_neg (by omega), if_neg (by simp)]

/-- An aligned access of at most a sector lies in one. -/
theorem sector_of_aligned {a n : Nat} (hn : n ∣ 32) (h : a % n = 0) : a % 32 + n ≤ 32 := by
  obtain ⟨q, rfl⟩ := Nat.dvd_of_mod_eq_zero h
  obtain ⟨m, hm⟩ := hn
  have hlt : n * q % 32 < 32 := Nat.mod_lt _ (by decide)
  rw [hm, Nat.mul_mod_mul_left] at hlt ⊢
  have := Nat.lt_of_mul_lt_mul_left hlt
  calc n * (q % m) + n = n * (q % m + 1) := by ring
    _ ≤ n * m := Nat.mul_le_mul_left _ this

theorem sclBytes_dvd (c : Ctx) : sclBytes c ∣ 32 := by
  have h : fld c.w0 36 2 < 4 := Nat.mod_lt _ (by decide)
  unfold sclBytes
  generalize fld c.w0 36 2 = k at h
  exact (show 32 = 2 ^ 5 from rfl) ▸ pow_dvd_pow 2 (by omega)

theorem storeBody_terrace {c : Instr} {i : Issue} {s : State} {n v : Ctx → Nat} (H : IssuesBody c i s (storeBody n v)) (h0 : 0 < fld i.w0 32 3)
    (hs : fld i.w0 32 3 < 4) (hn : n (ctxOf i s) ∣ 32) :
    let a := memAddr (ctxOf i s)
    let w := n (ctxOf i s)
    let old := memOf (terrace s i.tg.val) (fld i.w0 32 3)
    a < 2 ^ 24 → a % w = 0 → a + w ≤ memSize (fld i.w0 32 3) →
    fenced (terrace s i.tg.val) (allotOf (past i s) i.tg.val) (fld i.w0 32 3) a = false →
    ∃ t m, exec c s = .next t ∧ t = setTerrace (past i s) i.tg.val (setMem (terrace (past i s) i.tg.val) (fld i.w0 32 3) m) ∧
      (∀ k, k < w → m.get (a + k) = BitVec.ofNat 8 (v (ctxOf i s) / 256 ^ k)) ∧
      (∀ x, x < a ∨ a + w ≤ x → m.get x = old.get x) ∧
      ∀ x, m.bad x = (if x / 32 = a / 32 then decide (w < 32) && old.bad a else old.bad x) := by
  intro a w old ha hmod hsize hf
  have hw : w ≤ 32 := Nat.le_of_dvd (by decide) hn
  have hpos : 0 < w := Nat.pos_of_dvd_of_pos hn (by decide)
  have hone : tWrite (terrace (past i s) i.tg.val) (allotOf (past i s) i.tg.val) (fld i.w0 32 3) a (storedBytes w (v (ctxOf i s))) =
      (setMem (terrace (past i s) i.tg.val) (fld i.w0 32 3) (old.writeSector a (storedBytes w (v (ctxOf i s)))), []) := by
    rw [← fenced_past] at hf
    rw [tWrite_one (by simpa using hpos) (by simpa using sector_of_aligned hn hmod) (by simpa using hsize) hf, memOf_past]
  obtain ⟨-, hmem, -⟩ := storeBody_completes H hs
  have hexec := hmem ⟨hmod, .inr ⟨ha, hsize⟩⟩ (by omega)
  rw [hone] at hexec
  refine ⟨_, _, hexec, rfl, fun k hk => ?_, fun x hx => ?_, fun x => ?_⟩
  · rw [Mem.get_writeSector, if_pos (by rw [length_storedBytes]; omega), Nat.add_sub_cancel_left, getD_storedBytes hk]
  · rw [Mem.get_writeSector, if_neg (by rw [length_storedBytes]; omega)]
  · rw [Mem.bad_writeSector, any_storedBytes, length_storedBytes]
    refine if_congr Iff.rfl ?_ rfl
    unfold poisonAfter
    rcases Nat.lt_or_ge w 32 with h | h
    · rw [if_neg (by omega)]; simp [h]
    · rw [if_pos (by omega)]; simp [show ¬ w < 32 by omega]

/-! ## A store to HBM -/

/-- A write of device virtual memory inside one sector that maps to HBM. -/
theorem vWrite_hbm {s : State} {w : Who} {al a pa : Nat} {bs : List PByte} (ha : a < 2 ^ 52) (hn : 0 < bs.length) (hsec : a % 32 + bs.length ≤ 32)
    (hx : xlate s w al a permW = .ok pa) (hpa : pa < hbmCap s.guarded) :
    vWrite s w al a bs = (dpaWriteSector s pa bs, [{ va := a, acc := 1, kind := none }]) := by
  have hmod : a % 2 ^ 52 = a := Nat.mod_eq_of_lt ha
  have ht : tierOf s pa = .hbm := tierOf_hbm hpa
  have hruns : vWriteRuns s w al a bs = (dpaWriteSector s pa bs, [{ va := a, acc := 1, kind := none }], []) := by
    unfold vWriteRuns
    rw [hmod, sectorParts_one a bs.length hn hsec]
    simp only [List.foldl_cons, List.foldl_nil, Nat.add_zero, hmod, hx, ht, List.drop_zero, List.take_length, List.nil_append]
    rfl
  unfold vWrite
  rw [hruns]
  rfl

theorem writeWaits_mapped {s : State} {w : Who} {al a pa n : Nat} (ha : a < 2 ^ 52) (hn : 0 < n) (hsec : a % 32 + n ≤ 32)
    (hx : xlate s w al a permW = .ok pa) : writeWaits s w al a n = [] := by
  have hmod : a % 2 ^ 52 = a := Nat.mod_eq_of_lt ha
  unfold writeWaits
  rw [hmod, sectorParts_one a n hn hsec]
  simp only [List.filter_cons, List.filter_nil, Nat.add_zero, hmod, hx]
  rfl

theorem thread_tagThread (s : State) (tg thr g k : Nat) : thread (tagThread s tg thr) g k = thread s g k := by
  unfold tagThread
  extract_lets s1
  split
  · rfl
  · unfold thread
    by_cases h : g = tg
    · subst h; rw [terrace_updTerrace_same]; rfl
    · rw [terrace_updTerrace_other _ _ _ _ h]; rfl

theorem storeBody_hbm {c : Instr} {i : Issue} {s : State} {n v : Ctx → Nat} {pa : Nat} (H : IssuesBody c i s (storeBody n v)) (h0 : fld i.w0 32 3 = 0)
    (hn : n (ctxOf i s) ∣ 32) :
    let a := memAddr (ctxOf i s)
    let w := n (ctxOf i s)
    a % w = 0 → xlate (past i s) (.terrace i.tg.val) (allotOf (past i s) i.tg.val) a permW = .ok pa → pa % 32 = a % 32 →
    terraceFenced (past i s) i.tg.val = false → pa + w ≤ hbmCap s.guarded → groupState s (homeSaddle pa) ≠ 2 →
    ∃ t, exec c s = .next t ∧ thread t i.tg.val i.thr.val = stepped i s ∧ t.far = s.far ∧ t.host = s.host ∧ t.peer = s.peer ∧
      (∀ k, k < w → dpaGet t (pa + k) = (BitVec.ofNat 8 (v (ctxOf i s) / 256 ^ k), decide (w < 32) && (dpaGet s pa).2)) ∧
      (∀ x, x < hbmCap s.guarded → x < pa ∨ pa + w ≤ x → hbmGet t x = hbmGet s x) := by
  intro a w hmod hx hpa hf hcap hg
  let p := past i s
  let bytes := storedBytes w (v (ctxOf i s))
  have hpos : 0 < w := Nat.pos_of_dvd_of_pos hn (by decide)
  have hsec : a % 32 + w ≤ 32 := sector_of_aligned hn hmod
  have hlt : a < 2 ^ 52 := Nat.mod_lt _ (by decide)
  have hpast : SameMem s p := past_sameMem i s
  have hcap' : pa + w ≤ hbmCap p.guarded := by rw [hpast.guarded]; exact hcap
  have hg' : groupState p (homeSaddle pa) ≠ 2 := by rw [hpast.groupState]; exact hg
  have hlen : bytes.length = w := length_storedBytes _ _
  have hwrite : vWrite p (.terrace i.tg.val) (allotOf p i.tg.val) a bytes = (dpaWriteSector p pa bytes, [{ va := a, acc := 1, kind := none }]) :=
    vWrite_hbm hlt (by omega) (by omega) hx (by omega)
  obtain ⟨-, -, -, hmade, -⟩ := storeBody_completes H (by omega)
  have hexec := hmade ⟨hmod, .inl h0⟩ h0 hf (writeWaits_mapped hlt hpos hsec hx)
  rw [hwrite] at hexec
  dsimp only at hexec
  rw [logStream_clean _ _ _ _ (by simp)] at hexec
  let q := dpaWriteSector p pa bytes
  have hnote : SameMem q (noteAccs q (.terrace i.tg.val) (slotOf p i.tg.val) (allotOf p i.tg.val) [{ va := a, acc := 1, kind := none }]) :=
    noteAccs_sameMem _ _ _ _ _
  have hmem := hnote.trans (tagThread_sameMem _ i.tg.val i.thr.val)
  have hq : q = { p with hbm := q.hbm, hbmPoison := q.hbmPoison } := by
    simp only [q]; rw [dpaWriteSector_hbm bytes (by omega) hg', hbmPutBytes_frame]
  refine ⟨_, hexec, ?_, ?_, ?_, ?_, fun k hk => ?_, fun x hxc hx => ?_⟩
  · rw [thread_tagThread, (noteAccs_fetch (CacheOnly.refl _)).thread]
    refine Eq.trans ?_ (thread_past i s)
    unfold thread terrace
    rw [show (dpaWriteSector p pa bytes).terraces = p.terraces by rw [show dpaWriteSector p pa bytes = _ from hq]]
  · rw [hmem.far, hq, hpast.far]
  · rw [hmem.host, hq, hpast.host]
  · rw [hmem.peer, hq, hpast.peer]
  · have hb : dpaGet q (pa + k) = (BitVec.ofNat 8 (v (ctxOf i s) / 256 ^ k), decide (w < 32) && (dpaGet s pa).2) := by
      have hhome : homeSaddle (pa + k) = homeSaddle pa := homeSaddle_sector (by omega)
      rw [dpaGet_dpaWriteSector (by omega) (by omega) (by omega) (by omega) hg', if_pos (by omega), if_pos (by omega), Nat.add_sub_cancel_left,
        getD_storedBytes hk, any_storedBytes, hlen, hhome, decide_eq_false hg', Bool.or_false, dpaGet_hbm (by omega)]
      have hbad : hbmBad s pa = p.hbmPoison.contains (pa / 32) := by
        rw [← hpast.hbmBad]; unfold hbmBad; rw [decide_eq_false hg', Bool.false_or]
      rw [hbad]
      unfold poisonAfter
      rcases Nat.lt_or_ge w 32 with h | h
      · rw [if_neg (by omega)]; simp [h]
      · rw [if_pos (by omega)]; simp [show ¬ w < 32 by omega]
    exact (hmem.dpaGet _).trans hb
  · have hb : hbmGet q x = hbmGet s x := by
      rw [hbmGet_dpaWriteSector (by omega) (by omega) (by omega) (by rw [hpast.guarded]; exact hxc) hg', if_neg (by omega), hpast.hbmGet]
    exact (hmem.hbmGet _).trans hb

/-- Settles O15: each form is a store behind its checks; the three parts are storeBody_completes, storeBody_terrace and storeBody_hbm. -/
theorem threadStores : Obligations.ThreadStores := by
  have hst : ∀ {i : Issue} {s : State}, Issues { maj := 2, min := 0x21 } i s → fld i.w0 35 1 = 0 →
      IssuesBody (.sclSt i) i s (storeBody sclBytes (fun c => (c.t.sreg (fld c.w0 43 5)).toNat)) := fun hi h =>
    issuesBody_strict (l := [(35, 1)]) rfl hi (by simp [h])
  have hdsc : ∀ {i : Issue} {s : State}, Issues { maj := 3, min := 0x01 } i s → fld i.w0 43 1 = 0 → fld i.w0 35 3 = 0 →
      IssuesBody (.dscSt i) i s (storeBody (fun _ => 32) (fun c => (c.t.dreg (fld c.w0 44 4)).toNat)) := fun hi h h' =>
    issuesBody_strict (l := [(43, 1), (35, 3)]) rfl hi (by simp [h, h'])
  refine ⟨fun i s n v => ?all, fun i s n v => ?terrace, fun i s n v pa => ?hbm⟩
  case all =>
    intro th g space a p al bytes good waits fromThread completes hs
    refine ⟨fun hi h hn hv => ?_, fun hi h h' hn hv => ?_⟩
    · subst hn hv; exact storeBody_completes (hst hi h) hs
    · subst hn hv; exact storeBody_completes (hdsc hi h h') hs
  case terrace =>
    intro th space a stores h0 hs ha hmod hsize hf
    refine ⟨fun hi h hn hv => ?_, fun hi h h' hn hv => ?_⟩
    · subst hn hv; exact storeBody_terrace (hst hi h) h0 hs (sclBytes_dvd (ctxOf i s)) ha hmod hsize hf
    · subst hn hv; exact storeBody_terrace (hdsc hi h h') h0 hs (dvd_refl 32) ha hmod hsize hf
  case hbm =>
    intro th a p al stores h0 hmod hx hpa hf hcap hg
    refine ⟨fun hi h hn hv => ?_, fun hi h h' hn hv => ?_⟩
    · subst hn hv; exact storeBody_hbm (hst hi h) h0 (sclBytes_dvd (ctxOf i s)) hmod hx hpa hf hcap hg
    · subst hn hv; exact storeBody_hbm (hdsc hi h h') h0 (dvd_refl 32) hmod hx hpa hf hcap hg

end Sys2Proof.Machine
end

section
/-! PROOFS. Instructions executed outside the Intake (chapters 04, 05, 08, 10, 13): R104, R105, R199, R216, R238, R240, R352, R354, R377. -/

namespace Sys2Proof.Machine

open Sys2Proof

/-! ## Forwarding -/

theorem hasCredit_iff {t : Terrace} {isl : Nat} : hasCredit t 0 isl = true ↔ (cmdsOf t isl).length < 12 := by
  simp only [hasCredit, crossing, decide_eq_true_eq, if_true]
  omega

/-- A command of a thread in the queue of an island: the terrace with it at the end. -/
def queued (t : Terrace) (isl : Nat) (c : Cmd) : Terrace := { setCmds t isl (cmdsOf t isl ++ [c]) with seqno := t.seqno + 1 }

/-- The command that an instruction of a thread becomes. -/
def cmdOf (c : Ctx) (s : State) : Cmd := { thr := c.thr, w0 := c.w0, w1 := c.w1, th := c.t, seq := (terrace s c.tg).seqno }

theorem forward_of_room {c : Ctx} {s : State} {isl : Nat} (h : (cmdsOf (terrace s c.tg) isl).length < 12) (aud : Bool) (tile : Option AccTag) :
    forward c s isl aud tile = some (setTerrace s c.tg (queued (terrace s c.tg) isl { cmdOf c s with aud, tile })) :=
  forward_room c s isl aud tile (hasCredit_iff.mpr h)

theorem forward_of_noRoom {c : Ctx} {s : State} {isl : Nat} (h : ¬ (cmdsOf (terrace s c.tg) isl).length < 12) (aud : Bool) (tile : Option AccTag) :
    forward c s isl aud tile = none :=
  forward_full c s isl aud tile (Bool.eq_false_iff.mpr (fun hc => h (hasCredit_iff.mp hc)))

/-- How an instruction is forwarded, as one that opens a stream or not. -/
def forwardAs (stream : Bool) (isl : Nat) (c : Ctx) (s : State) : Option State := if stream then forwardStream c s else forward c s isl

theorem forwardAs_room {c : Ctx} {s : State} {isl : Nat} {stream : Bool} (hi : stream = true → isl = 1)
    (h : (cmdsOf (terrace s c.tg) isl).length < 12 ∧ (stream = true → contextsHeld (terrace s c.tg) < 16)) :
    forwardAs stream isl c s = some (setTerrace s c.tg (queued (terrace s c.tg) isl (cmdOf c s))) := by
  unfold forwardAs
  cases stream with
  | false => exact forward_of_room h.1 _ _
  | true =>
    obtain rfl := hi rfl
    have hc := h.2 rfl
    exact (if_neg (show ¬ 16 ≤ contextsHeld (terrace s c.tg) by omega)).trans (forward_of_room h.1 _ _)

theorem forwardAs_noRoom {c : Ctx} {s : State} {isl : Nat} {stream : Bool} (hi : stream = true → isl = 1)
    (h : ¬ ((cmdsOf (terrace s c.tg) isl).length < 12 ∧ (stream = true → contextsHeld (terrace s c.tg) < 16))) : forwardAs stream isl c s = none := by
  unfold forwardAs
  cases stream with
  | false => exact forward_of_noRoom (fun hl => h ⟨hl, fun hf => absurd hf (by decide)⟩) _ _
  | true =>
    obtain rfl := hi rfl
    by_cases hc : 16 ≤ contextsHeld (terrace s c.tg)
    · exact if_pos hc
    · exact (if_neg hc).trans (forward_of_noRoom (fun hl => h ⟨hl, fun _ => by omega⟩) _ _)

/-- The instruction's row issues a forward to an island behind the checks f and the unused fields l. -/
def Forwards (op : Issue → Instr) (row : OpRow) (isl : Nat) (stream : Bool) (f : Ctx → State → Option Nat) (l : List (Nat × Nat)) : Prop :=
  (stream = true → isl = 1) ∧ ∃ body, (∀ i s, exec (op i) s = issue row i s body) ∧
    ∀ c s, zeroFields c.w0 l = true → f c s = none → body c s = forwardAs stream isl c s

theorem Forwards.effect {op : Issue → Instr} {row : OpRow} {isl : Nat} {stream : Bool} {f : Ctx → State → Option Nat} {l : List (Nat × Nat)}
    (H : Forwards op row isl stream f l) {i : Issue} {s : State} (hi : Issues row i s) (hz : zeroFields i.w0 l = true)
    (hf : f (ctxOf i s) (past i s) = none) :
    let t := terrace (past i s) i.tg.val
    let room := (cmdsOf t isl).length < 12 ∧ (stream = true → contextsHeld t < 16)
    (room → exec (op i) s = .next (setTerrace (past i s) i.tg.val (queued t isl (cmdOf (ctxOf i s) (past i s))))) ∧
    (¬ room → exec (op i) s = .next (held i s)) := by
  obtain ⟨hisl, body, he, hb⟩ := H
  have hbody := hb (ctxOf i s) (past i s) hz hf
  exact ⟨fun h => (he i s).trans (issue_some hi (hbody.trans (forwardAs_room hisl h))),
    fun h => (he i s).trans (issue_none hi (hbody.trans (forwardAs_noRoom hisl h)))⟩

/-- A row without unused fields. -/
theorem forwards_checked {op : Issue → Instr} {row : OpRow} {isl : Nat} {stream : Bool} {f : Ctx → State → Option Nat}
    (hisl : stream = true → isl = 1) (he : ∀ i s, exec (op i) s = issue row i s (checked f (forwardAs stream isl))) : Forwards op row isl stream f [] :=
  ⟨hisl, _, he, fun _ _ _ hf => checked_ok hf⟩

/-- A row with unused fields. -/
theorem forwards_strict {op : Issue → Instr} {row : OpRow} {isl : Nat} {stream : Bool} {f : Ctx → State → Option Nat} {l : List (Nat × Nat)}
    (hisl : stream = true → isl = 1) (he : ∀ i s, exec (op i) s = issue row i s (strict l (checked f (forwardAs stream isl)))) :
    Forwards op row isl stream f l :=
  ⟨hisl, _, he, fun _ _ hz hf => (strict_zero hz).trans (checked_ok hf)⟩

/-- A row with unused fields and no other check. -/
theorem forwards_unchecked {op : Issue → Instr} {row : OpRow} {isl : Nat} {l : List (Nat × Nat)}
    (he : ∀ i s, exec (op i) s = issue row i s (strict l (fun c s => forward c s isl))) : Forwards op row isl false (fun _ _ => none) l :=
  ⟨fun h => absurd h (by decide), _, he, fun _ _ hz _ => strict_zero hz⟩

/-- Settles O17: each row forwards, and Forwards.effect says what that does. -/
theorem forwardedInstructions : Obligations.ForwardedInstructions := by
  intro e he
  have hfor : Forwards e.1 e.2.1 e.2.2.1 e.2.2.2.1 e.2.2.2.2.1 e.2.2.2.2.2 := by
    revert e
    simp only [List.forall_mem_cons, List.not_mem_nil, false_imp_iff, implies_true, and_true]
    refine ⟨?_, ?_, ?_, ?_, ?_, ?_, ?_, ?_, ?_, ?_, ?_, ?_, ?_, ?_, ?_, ?_, ?_, ?_, ?_, ?_, ?_, ?_⟩
    case refine_7 | refine_13 => exact forwards_unchecked (fun _ _ => rfl)
    case refine_1 | refine_2 | refine_3 | refine_4 | refine_8 | refine_9 | refine_10 | refine_11 | refine_12 =>
      exact forwards_checked (by decide) (fun _ _ => rfl)
    all_goals exact forwards_strict (by decide) (fun _ _ => rfl)
  exact fun i s hi hz hf => hfor.effect hi hz hf

/-! ## MMA, ACCWR, EPI and the Headgate -/

@[simp] theorem updTerrace_setTerrace (s : State) (g : Nat) (t : Terrace) (f : Terrace → Terrace) :
    updTerrace (setTerrace s g t) g f = setTerrace s g (f t) := by
  unfold updTerrace
  rw [terrace_setTerrace_same]
  simp [setTerrace]

theorem auditRun_eq (t : Terrace) (k : RunCtl) : auditRun t k = decide (k.aper ≠ 0 ∧ (t.auditRuns + 1) % k.aper = 0) := by
  simp [auditRun]

section Bodies
variable {c : Ctx} {s : State}

theorem mmaBody_room (h : (cmdsOf (terrace s c.tg) 3).length < 12) : mmaBody c s =
    some (updTerrace (setTerrace s c.tg (queued (terrace s c.tg) 3 (cmdOf c s))) c.tg (fun t => noteTile t (fld c.w0 45 3) c.w0 c.w1)) := by
  unfold mmaBody
  rw [forward_of_room h]
  rfl

theorem accwrBody_room (h : (cmdsOf (terrace s c.tg) 3).length < 12) : accwrBody c s =
    some (updTerrace (setTerrace s c.tg (queued (terrace s c.tg) 3 (cmdOf c s))) c.tg (fun t =>
      { t with accTag := mset t.accTag (entryKey (fld c.w0 46 2) (fld c.w0 42 4))
                { mode := 0, int := (tileOf (terrace s c.tg) (fld c.w0 46 2) (fld c.w0 42 4)).int, rows := 64, cols := 64 } })) := by
  unfold accwrBody
  extract_lets a e
  rw [forward_of_room h, Option.map_some, updTerrace_setTerrace, updTerrace_setTerrace]
  rfl

/-- An HGP.RUN that is forwarded is counted when its period is not 0, and its thread gets whether it is audited. -/
theorem runBody_room (h : (cmdsOf (terrace s c.tg) 6).length < 12) :
    let t := terrace s c.tg
    let k := runCtlOf c.t c.w0
    let aud := decide (k.aper ≠ 0 ∧ (t.auditRuns + 1) % k.aper = 0)
    runBody c s = some (updThread (setTerrace s c.tg { queued t 6 { cmdOf c s with aud } with
      auditRuns := if k.aper = 0 then t.auditRuns else t.auditRuns + 1 }) c.tg c.thr (fun x => x.setP (fld c.w0 27 3) aud)) := by
  intro t k aud
  have haud : auditRun t k = aud := auditRun_eq t k
  have hbody : runBody c s = (forward c s 6 (auditRun t k)).map (fun s =>
      onThread c (if k.aper ≠ 0 then updTerrace s c.tg (fun t => { t with auditRuns := t.auditRuns + 1 }) else s)
        (fun x => x.setP (fld c.w0 27 3) (auditRun t k))) := rfl
  rw [hbody, forward_of_room h, Option.map_some, haud]
  by_cases h0 : k.aper = 0
  · rw [if_neg (not_not.mpr h0), if_pos h0]; rfl
  · rw [if_pos h0, if_neg h0, updTerrace_setTerrace]; rfl

theorem auditBody_room (h : (cmdsOf (terrace s c.tg) 6).length < 12) : auditBody c s =
    some (updThread (setTerrace s c.tg (queued (terrace s c.tg) 6 (cmdOf c s))) c.tg c.thr
      (fun t => { t with st := .blocked (.audit (fld c.w0 43 5) none) })) := by
  unfold auditBody
  rw [forward_of_room h]
  rfl

end Bodies

/-- Settles O18: each instruction is forwarded, with what its body notes besides. -/
theorem arraysAndHeadgateForwarded : Obligations.ArraysAndHeadgateForwarded := by
  refine ⟨fun i s => ⟨fun hi hz hf hl => ?mma, fun hi h1 h2 hf hl => ?accwr, fun hi hf hl => ?epi⟩,
    fun i s => ⟨fun hi h1 h2 hf hl => ?run, fun hi h1 h2 h3 hf hl => ?audit⟩⟩
  case mma => exact issue_strict_checked hi (zeroFields_low hz) hf (mmaBody_room hl)
  case accwr => exact issue_strict_checked hi (by simp [zeroFields, h1, h2]) hf (accwrBody_room (c := ctxOf i s) (s := past i s) hl)
  case epi => exact issue_some hi ((checked_ok hf).trans (forward_of_room (c := ctxOf i s) (s := past i s) (isl := 4) hl _ _))
  case run => exact issue_strict_checked hi (by simp [zeroFields, h1, h2]) hf (runBody_room hl)
  case audit => exact issue_strict_checked hi (by simp [zeroFields, h1, h2, h3]) hf (auditBody_room hl)

/-! ## The Flume (R238, R240) -/

theorem lanes_past (i : Issue) (s : State) : (past i s).lanes = s.lanes := by
  rw [(onlyThread_past i s).2.1, (held_cacheOnly i s).1]

section Lane
variable {attn : Bool} {c : Ctx} {s : State}

theorem toLane_free (hf : (laneAt s (laneOf s c.tg)).failed = false) (hx : ∀ y ∈ (laneAt s (laneOf s c.tg)).ctxs, y.tg ≠ c.tg) :
    let l := laneAt s (laneOf s c.tg)
    let x : FCtx := { tg := c.tg, cmd := { thr := c.thr, w0 := c.w0, w1 := c.w1, th := c.t }, isAttn := attn }
    ∃ l', toLane attn c s = some { s with lanes := mset s.lanes (laneOf s c.tg) l' } ∧
      (∀ y, y ∈ l'.ctxs ↔ y = x ∨ y ∈ l.ctxs) ∧ l' = { l with ctxs := l'.ctxs, running := l'.running, used := l'.used } ∧
      (l.ctxs ≠ [] → l'.running = l.running ∧ l'.used = l.used) ∧ (l.ctxs = [] → l'.running = c.tg ∧ l'.used = 0) := by
  intro l x
  have hno : ¬ ((laneAt s (laneOf s c.tg)).failed || (laneAt s (laneOf s c.tg)).ctxs.any (fun x => x.tg = c.tg)) = true := by
    simpa [hf] using hx
  refine ⟨{ l with ctxs := insBy (fun a b => decide (a.tg ≤ b.tg)) x l.ctxs, running := if l.ctxs.isEmpty then c.tg else l.running
                   used := if l.ctxs.isEmpty then 0 else l.used }, ?_, fun y => mem_insBy _ _ _ _, rfl, fun h => ?_, fun h => ?_⟩
  · unfold toLane
    extract_lets fg
    exact if_neg hno
  · have h' : l.ctxs.isEmpty = false := by simpa using h
    simp [h']
  · simp [h]

theorem toLane_taken (h : (laneAt s (laneOf s c.tg)).failed = true ∨ ∃ y ∈ (laneAt s (laneOf s c.tg)).ctxs, y.tg = c.tg) : toLane attn c s = none := by
  unfold toLane
  extract_lets fg
  exact if_pos (by simpa using h)

end Lane

/-- Settles O19: both instructions go to their lane, as toLane_free and toLane_taken say. -/
theorem flumeInstructionsForwarded : Obligations.FlumeInstructionsForwarded := by
  intro e he i s hi hz hf l x
  have hexec : exec (e.1 i) s = issue { maj := 9, min := e.2.1 } i s (strict e.2.2.2.1 (checked e.2.2.1 (toLane e.2.2.2.2))) := by
    simp only [List.mem_cons, List.not_mem_nil, or_false] at he
    obtain rfl | rfl := he <;> rfl
  have hlane : laneOf (past i s) i.tg.val = laneOf s i.tg.val := by
    unfold laneOf laneAt; rw [lanes_past]
  have hl' : laneAt (past i s) (laneOf s i.tg.val) = l := by rw [laneAt, lanes_past]; rfl
  have hl : laneAt (past i s) (laneOf (past i s) i.tg.val) = l := by rw [hlane, hl']
  rw [hexec]
  refine ⟨fun hfail hfree => ?_, fun h => ?_⟩
  · obtain ⟨l', h1, h2, h3, h4, h5⟩ := toLane_free (attn := e.2.2.2.2) (c := ctxOf i s) (s := past i s) (by rw [ctxOf_tg, hl]; exact hfail)
      (by rw [ctxOf_tg, hl]; exact hfree)
    simp only [ctxOf_tg, hlane, hl', lanes_past] at h1 h2 h3 h4 h5
    exact ⟨_, l', issue_strict_checked hi hz hf h1, rfl, h2, h3, h4, h5⟩
  · exact issue_strict_checked_none hi hz hf (toLane_taken (by rw [ctxOf_tg, hl]; exact h))

/-! ## Handles (R105, R110, R111, R118 to R120) -/

theorem hMem_mkHandle {m i : Nat} (hm : m < 3) (hi : i < 2 ^ 14) : hMem (mkHandle m i) = m ∧ hIdx (mkHandle m i) = i := by
  unfold hMem hIdx mkHandle fld
  rw [BitVec.toNat_ofNat, Nat.mod_eq_of_lt hi]
  omega

/-- Another handle keeps its state. -/
theorem handleState_setHandle_other (t : Terrace) {h u : BitVec 16} (x : HState) (hu : hMem u ≠ hMem h ∨ hIdx u ≠ hIdx h) :
    handleState (setHandle t h (some x)) u = handleState t u := by
  unfold handleState setHandle
  extract_lets p
  by_cases hm : hMem u = hMem h
  · have hi := hu.resolve_left (not_not.mpr hm)
    simp only [poolOf, setPool, hm, mget_mset_same, mget?_mset_other _ _ _ _ hi, p]
  · simp only [poolOf, setPool, mget_mset_other _ _ _ _ _ hm]

theorem freeHandle_live {s : State} {tg thr pc : Nat} {h : BitVec 16}
    (hs : handleState (terrace s tg) h = some .held ∨ handleState (terrace s tg) h = some .queued) :
    freeHandle s tg thr pc h = setTerrace s tg (setHandle (terrace s tg) h (some .returning)) := by
  rcases hs with hs | hs <;> simp only [freeHandle, hs]

theorem handleState_updThread (s : State) (g k : Nat) (f : Thread → Thread) (x : Nat) (h : BitVec 16) :
    handleState (terrace (updThread s g k f) x) h = handleState (terrace s x) h := by
  obtain ⟨th, ht⟩ := terrace_updThread s g k x f
  rw [ht]; rfl

section Latch
variable {c : Ctx} {s : State}

theorem allocFault_none (hp : fld c.w0 34 2 < 3) (hv : (poolOf (terrace s c.tg) (fld c.w0 34 2)).valid = true) : allocFault c s = none := by
  unfold allocFault
  extract_lets pool
  rw [if_neg (show ¬ pool = 3 by omega), if_neg (by simp only [pool, hv]; decide)]

theorem allocBody_credit (h : (cmdsOf (terrace s c.tg) 1).length < 12) : allocBody c s =
    some (updThread (updTerrace s c.tg (fun t => { t with seqno := t.seqno + 1 })) c.tg c.thr
      (fun x => { x with st := .blocked (.alloc (fld c.w0 44 4) (fld c.w0 36 3) (fld c.w0 34 2) (terrace s c.tg).seqno none) })) := by
  unfold allocBody
  rw [if_neg (by simp [hasCredit_iff.mpr h])]
  rfl

theorem allocBody_noCredit (h : 12 ≤ (cmdsOf (terrace s c.tg) 1).length) : allocBody c s = none := by
  have hc : hasCredit (terrace s c.tg) 0 1 = false := Bool.eq_false_iff.mpr (fun hc => absurd (hasCredit_iff.mp hc) (by omega))
  unfold allocBody
  exact if_pos (by simp [hc])

end Latch

/-- Settles O22: LAT.ALLOC as the issue of its body, and LAT.FREE by what a handle's change leaves of the others. -/
theorem handleAllocationAndFree : Obligations.HandleAllocationAndFree := by
  intro i s h p t v
  refine ⟨fun hi h1 h2 hp hv => ?alloc, fun hi hz hok hs => ?free⟩
  case alloc =>
    have hz : zeroFields i.w0 [(0, 34), (39, 5)] = true := by simp [zeroFields, h1, h2]
    have hf : allocFault (ctxOf i s) p = none := allocFault_none hp hv
    exact ⟨fun hl => issue_strict_checked hi hz hf (allocBody_credit hl), fun hl => issue_strict_checked_none hi hz hf (allocBody_noCredit hl)⟩
  case free =>
    have hf : freeFault (ctxOf i s) p = none := by
      have hok' : handleOk (terrace p (ctxOf i s).tg) ((ctxOf i s).t.hreg (latH (ctxOf i s).w0)) = true := hok
      exact if_neg (by rw [hok']; decide)
    let q := updThread p i.tg.val i.thr.val (fun t => t.setH h idleHandle)
    have hq : ∀ u, handleState (terrace q i.tg.val) u = handleState t u := fun u => handleState_updThread _ _ _ _ _ _
    have hfree : freeBody (ctxOf i s) p = some (setTerrace q i.tg.val (setHandle (terrace q i.tg.val) v (some .returning))) :=
      congrArg some (freeHandle_live (h := v) (s := q) (tg := i.tg.val) (by rw [hq v]; exact hs))
    refine ⟨_, issue_strict_checked hi (zeroFields_low hz) hf hfree, ?_, ?_, rfl, fun k hk => ?_, fun u hu => ?_⟩
    · rw [terrace_setTerrace_same]
      exact handleState_setHandle_same _ _ _
    · have hth : thread (setTerrace q i.tg.val (setHandle (terrace q i.tg.val) v (some .returning))) i.tg.val i.thr.val = thread q i.tg.val i.thr.val := by
        simp only [thread, terrace_setTerrace_same]; rfl
      rw [hth, thread_updThread_same, thread_past]
      rfl
    · rw [terrace_setTerrace_other _ _ _ _ hk]
      simp only [q, updThread, setThread, terrace_updTerrace_other _ _ _ _ hk]
    · rw [terrace_setTerrace_same, handleState_setHandle_other _ _ hu, hq]

/-! ## A contest with one thread and no unit -/

theorem retryPushes_of_noExecs {s : State} {tg : Nat} (h : (terrace s tg).execs = []) : retryPushes s tg = s := by
  unfold retryPushes
  rw [h]; rfl

theorem pumpOnce_of_noExecs {s : State} {tg : Nat} (h : (terrace s tg).execs = []) : pumpOnce s tg = s := by
  unfold pumpOnce
  rw [retryPushes_of_noExecs h, h]; rfl

/-- With no unit at work, the queues that move return their tokens, and nothing more. -/
theorem pump_of_noExecs {s : State} {tg : Nat} (h : (terrace s tg).execs = []) : pump s tg = updTerrace s tg returnTokens := by
  have h' : (terrace (updTerrace s tg returnTokens) tg).execs = [] := by rw [terrace_updTerrace_same]; exact h
  have hloop : ∀ k n, loopFrom n k (fun _ s => pumpOnce s tg) (updTerrace s tg returnTokens) = updTerrace s tg returnTokens := fun k => by
    induction k with
    | zero => exact fun _ => rfl
    | succ k ih => intro n; rw [loopFrom, pumpOnce_of_noExecs h']; exact ih (n + 1)
  exact hloop _ 0

/-- The keys of a map that holds every number below i are at least i. -/
theorem le_length_of_mhas {α : Type} {m : Map α} {i : Nat} (h : ∀ j, j < i → mhas m j = true) : i ≤ m.length := by
  have hsub : Finset.range i ⊆ (m.map (·.1)).toFinset := fun j hj => by
    obtain ⟨v, hv⟩ := Option.isSome_iff_exists.mp (h j (Finset.mem_range.mp hj))
    exact List.mem_toFinset.mpr (List.mem_map.mpr ⟨_, mem_of_mget? hv, rfl⟩)
  have h1 := Finset.card_le_card hsub
  have h2 := List.toFinset_card_le (m.map (·.1))
  rw [Finset.card_range] at h1
  rw [List.length_map] at h2
  omega

theorem lowestFree_one {p : Pool} {i : Nat} (hc : i < p.count) (hi : mget? p.used i = none) (hlow : ∀ j, j < i → mhas p.used j = true) :
    lowestFree p 1 = [i] := by
  have hlen := le_length_of_mhas hlow
  have hpre : (List.range i).filter (fun j => !(mhas p.used j)) = [] :=
    List.filter_eq_nil_iff.mpr (fun j hj => by simp [hlow j (List.mem_range.mp hj)])
  obtain ⟨k, hk⟩ : ∃ k, min p.count (p.used.length + 1) = i + (k + 1) := ⟨min p.count (p.used.length + 1) - i - 1, by omega⟩
  have hfree : mhas p.used i = false := by simp [mhas, hi]
  unfold lowestFree
  rw [hk, List.range_add, List.filter_append, hpre, List.nil_append, List.range_succ_eq_map, List.map_cons, List.filter_cons, Nat.add_zero]
  simp [hfree]

/-- With no unit at work and one thread waiting, only the Intake asks. -/
theorem contestPorts_intake {t : Terrace} {pool n thr : Nat} (he : t.execs = []) (hw : allocWaiters t pool = [(n, thr)]) : contestPorts t pool = [23] := by
  have hnone : (List.range 23).filter (unitWants t pool) = [] := List.filter_eq_nil_iff.mpr (fun p _ => by simp [unitWants, execOf, he, mget?])
  simp [contestPorts, hnone, hw]

theorem contestWinners_one {waits : Map Nat} {w g p : Nat} (hg : 0 < g) : contestWinners waits w g [p] = [p] := by
  obtain ⟨k, rfl⟩ : ∃ k, g = k + 1 := ⟨g - 1, by omega⟩
  unfold contestWinners
  extract_lets at' forced rest
  by_cases h : w ≤ at' p
  · have hf : forced = [p] := by simp [forced, h, sortBy, insBy]
    have hr : rest = [] := by simp [rest, h]
    rw [hf, hr]; simp
  · have hf : forced = [] := by simp [forced, h, sortBy]
    have hr : rest = [p] := by simp [rest, Nat.lt_of_not_le h]
    rw [hf, hr]; simp

/-- A waiting LAT.ALLOC takes its answer; a thread that has its answer keeps it. -/
theorem answerAlloc_waiting {t : Terrace} {thr r pd p n : Nat} {v : BitVec 16}
    (h : (mget t.threads thr {}).st = .blocked (.alloc r pd p n none)) : answerAlloc t thr v =
      { t with threads := mset t.threads thr { mget t.threads thr {} with st := .blocked (.alloc r pd p n (some v)) } } := by
  simp only [answerAlloc, h]

theorem answerAlloc_answered {t : Terrace} {thr r pd p n : Nat} {v w : BitVec 16}
    (h : (mget t.threads thr {}).st = .blocked (.alloc r pd p n (some v))) : answerAlloc t thr w = t := by
  simp only [answerAlloc, h]

/-- Whoever still waits after thr's answer is an entry that waited before. -/
theorem allocWaiters_answered {t : Terrace} {thr r pd p n : Nat} {v : BitVec 16} {x : Thread} {pool : Nat} {e : Nat × Nat}
    (hx : x.st = .blocked (.alloc r pd p n (some v))) (h : e ∈ allocWaiters { t with threads := mset t.threads thr x } pool) :
    e ∈ allocWaiters t pool := by
  simp only [allocWaiters, mem_sortBy, List.mem_filterMap] at h ⊢
  obtain ⟨a, ha, hs⟩ := h
  rcases eq_or_mem_of_mem_mset ha with rfl | ha
  · simp [hx] at hs
  · exact ⟨a, ha, hs⟩

/-- Once the only thread that waited has its handle, the idle handle goes to nobody. -/
theorem idleAnswers_none {t : Terrace} {thr r pd p n m : Nat} {v : BitVec 16} {pool : Nat} (hw : allocWaiters t pool = [(m, thr)])
    (h : (mget t.threads thr {}).st = .blocked (.alloc r pd p n none)) :
    (allocWaiters (answerAlloc t thr v) pool).foldl (fun t e => answerAlloc t e.2 idleHandle) (answerAlloc t thr v) = answerAlloc t thr v := by
  rw [answerAlloc_waiting h]
  have hth : ∀ e ∈ allocWaiters { t with threads := mset t.threads thr { mget t.threads thr {} with st := .blocked (.alloc r pd p n (some v)) } } pool,
      e.2 = thr := fun e he => by
    have := allocWaiters_answered rfl he
    rw [hw, List.mem_singleton] at this
    rw [this]
  generalize allocWaiters _ pool = l at hth
  induction l with
  | nil => rfl
  | cons e l ih =>
    rw [List.foldl_cons, hth e List.mem_cons_self, answerAlloc_answered (r := r) (pd := pd) (p := p) (n := n) (v := v) (by rw [mget_mset_same])]
    exact ih (fun e he => hth e (List.mem_cons_of_mem _ he))

section Contest
variable {s : State} {tg pool n thr h pd : Nat} (he : (terrace s tg).execs = []) (hw : allocWaiters (terrace s tg) pool = [(n, thr)])
include he hw

/-- A contest that the one thread wins. -/
theorem contest_wins {i : Nat} (hst : (thread s tg thr).st = .blocked (.alloc h pd pool n none)) (hu : (poolOf (terrace s tg) pool).used.length < (poolOf (terrace s tg) pool).count)
    (hc : i < (poolOf (terrace s tg) pool).count) (hi : mget? (poolOf (terrace s tg) pool).used i = none)
    (hlow : ∀ j, j < i → mhas (poolOf (terrace s tg) pool).used j = true) :
    ∃ p, p.used = (poolOf (terrace s tg) pool).used ∧ contest s tg pool = setTerrace s tg
      (answerAlloc (setHandle (setPool (terrace s tg) pool p) (mkHandle pool i) (some .held)) thr (mkHandle pool i)) := by
  unfold contest
  extract_lets t ports p g winners idx requests s1 s2
  have hports : ports = [23] := contestPorts_intake he hw
  have hg : 0 < g := by
    have hu' : p.used.length < p.count := hu
    simp only [g, Pool.free]; omega
  have hwin : winners = [23] := by simp only [winners, hports]; exact contestWinners_one hg
  have hidx : idx = [i] := by simp only [idx, hwin]; exact lowestFree_one hc hi hlow
  have hs2 : s2 = grant s1 tg pool 23 (mkHandle pool i) := by simp only [s2, hwin, hidx]; rfl
  let p1 : Pool := { p with
    waits := if g = 0 then p.waits else contestWaits p.waits winners ports, minFree := min p.minFree (p.free - winners.length)
    idleGrants := min 0xFFFFFFFF (p.idleGrants + (requests - winners.length)) }
  have hs1 : s1 = setTerrace s tg (setPool t pool p1) := rfl
  refine ⟨p1, rfl, ?_⟩
  refine (if_neg (by rw [hports]; decide)).trans ?_
  rw [hs2, show terrace s tg = t from rfl]
  clear_value s1
  generalize ht1 : setPool t pool p1 = t1 at hs1 ⊢
  have hw1 : allocWaiters (setHandle t1 (mkHandle pool i) (some .held)) pool = [(n, thr)] := by rw [← ht1]; exact hw
  have hst1 : (mget (setHandle t1 (mkHandle pool i) (some .held)).threads thr {}).st = .blocked (.alloc h pd pool n none) := by rw [← ht1]; exact hst
  have hgrant : grant s1 tg pool 23 (mkHandle pool i) =
      setTerrace s tg (answerAlloc (setHandle t1 (mkHandle pool i) (some .held)) thr (mkHandle pool i)) := by
    unfold grant
    simp only [hs1, updTerrace_setTerrace, terrace_setTerrace_same, if_true, hw1]
  rw [hgrant, updTerrace_setTerrace, idleAnswers_none hw1 hst1]

/-- A contest for a pool that has no Free handle. -/
theorem contest_idles (hu : (poolOf (terrace s tg) pool).count ≤ (poolOf (terrace s tg) pool).used.length) :
    ∃ p, p.used = (poolOf (terrace s tg) pool).used ∧
      contest s tg pool = setTerrace s tg (answerAlloc (setPool (terrace s tg) pool p) thr idleHandle) := by
  unfold contest
  extract_lets t ports p g winners idx requests s1 s2
  have hports : ports = [23] := contestPorts_intake he hw
  have hg : g = 0 := by
    have hu' : p.count ≤ p.used.length := hu
    simp only [g, Pool.free]; omega
  have hwin : winners = [] := by simp only [winners, hg, contestWinners, List.take_zero]
  have hs2 : s2 = s1 := by simp only [s2, hwin]; rfl
  let p1 : Pool := { p with
    waits := if g = 0 then p.waits else contestWaits p.waits winners ports, minFree := min p.minFree (p.free - winners.length)
    idleGrants := min 0xFFFFFFFF (p.idleGrants + (requests - winners.length)) }
  have hs1 : s1 = setTerrace s tg (setPool t pool p1) := rfl
  refine ⟨p1, rfl, ?_⟩
  refine (if_neg (by rw [hports]; decide)).trans ?_
  rw [hs2, show terrace s tg = t from rfl]
  clear_value s1
  generalize ht1 : setPool t pool p1 = t1 at hs1 ⊢
  have hw1 : allocWaiters t1 pool = [(n, thr)] := by rw [← ht1]; exact hw
  simp only [hs1, updTerrace_setTerrace, hw1, List.foldl_cons, List.foldl_nil]

end Contest

/-- What a contest leaves, once its answer stands in the terrace t1 and its queues have returned their tokens. -/
theorem answered_gets {s : State} {tg thr h pd pool n : Nat} {t1 : Terrace} {v : BitVec 16} (he : t1.execs = [])
    (hth : t1.threads = (terrace s tg).threads) (hst : (thread s tg thr).st = .blocked (.alloc h pd pool n none)) :
    let u := pump (setTerrace s tg (answerAlloc t1 thr v)) tg
    (thread u tg thr).st = .blocked (.alloc h pd pool n (some v)) ∧ u = { s with terraces := u.terraces } ∧
      (∀ k, k ≠ thr → thread u tg k = thread s tg k) ∧ (∀ k, k ≠ tg → terrace u k = terrace s k) ∧
      ∀ x, handleState (terrace u tg) x = handleState t1 x := by
  have hst1 : (mget t1.threads thr {}).st = .blocked (.alloc h pd pool n none) := by rw [hth]; exact hst
  have hpump : pump (setTerrace s tg (answerAlloc t1 thr v)) tg = setTerrace s tg (returnTokens (answerAlloc t1 thr v)) := by
    rw [pump_of_noExecs (by rw [terrace_setTerrace_same, answerAlloc_waiting hst1]; exact he), updTerrace_setTerrace]
  have hthread : ∀ k, thread (setTerrace s tg (returnTokens (answerAlloc t1 thr v))) tg k = mget (answerAlloc t1 thr v).threads k {} := fun k => by
    rw [thread, terrace_setTerrace_same]; rfl
  intro u
  simp only [u, hpump]
  refine ⟨?_, rfl, fun k hk => ?_, fun k hk => terrace_setTerrace_other _ _ _ _ hk, fun x => ?_⟩
  · rw [hthread, answerAlloc_waiting hst1, mget_mset_same]
  · rw [hthread, answerAlloc_waiting hst1, mget_mset_other _ _ _ _ _ hk, hth]; rfl
  · rw [terrace_setTerrace_same, answerAlloc_waiting hst1]; rfl

theorem handleState_setPool {t : Terrace} {pool : Nat} {p : Pool} (h : p.used = (poolOf t pool).used) (x : BitVec 16) :
    handleState (setPool t pool p) x = handleState t x := by
  unfold handleState setPool poolOf at *
  by_cases hx : hMem x = pool
  · rw [hx, mget_mset_same, h]
  · simp only [mget_mset_other _ _ _ _ _ hx]

/-- Settles O23: contest_wins and contest_idles say what the contest leaves; the return and the timeout are their events. -/
theorem handlesComeAndGo : Obligations.HandlesComeAndGo := by
  refine ⟨?contest, fun tg pool i s => ?ret, fun tg c s => rfl⟩
  case contest =>
    intro tg pool s n thr h pd i t p gets he hw hst
    have hexec : exec (.handleContest tg pool) s = .next (pump (contest s tg.val pool.val) tg.val) :=
      congrArg (fun x => Host.Outcome.next (pump (contest x tg.val pool.val) tg.val)) (retryPushes_of_noExecs he)
    refine ⟨fun hu hc hi14 hi hlow => ?_, fun hu => ?_⟩
    · obtain ⟨p', hp', hcon⟩ := contest_wins he hw hst hu hc hi hlow
      obtain ⟨hm, hx⟩ := hMem_mkHandle pool.isLt hi14
      obtain ⟨h1, h2, h3, h4, h5⟩ := answered_gets (t1 := setHandle (setPool t pool.val p') (mkHandle pool.val i) (some .held))
        (v := mkHandle pool.val i) he rfl hst
      rw [← hcon] at h1 h2 h3 h4 h5
      refine ⟨_, ⟨hexec, h1, h2, h3, h4⟩, (h5 _).trans (handleState_setHandle_same _ _ _), fun x hne => (h5 x).trans ?_⟩
      rw [handleState_setHandle_other _ _ (by rw [hm, hx]; exact hne), handleState_setPool hp']
    · obtain ⟨p', hp', hcon⟩ := contest_idles he hw hu
      obtain ⟨h1, h2, h3, h4, h5⟩ := answered_gets (t1 := setPool t pool.val p') (v := idleHandle) he rfl hst
      rw [← hcon] at h1 h2 h3 h4 h5
      exact ⟨_, ⟨hexec, h1, h2, h3, h4⟩, fun x => (h5 x).trans (handleState_setPool hp' x)⟩
  case ret =>
    refine ⟨fun h => ?_, fun h => ?_⟩
    · exact (show exec (.handleReturn tg pool i) s = execHandleReturn tg pool i s from rfl).trans (by simp only [execHandleReturn, h])
    · refine (show exec (.handleReturn tg pool i) s = execHandleReturn tg pool i s from rfl).trans ?_
      unfold execHandleReturn
      extract_lets t
      split
      · next hr => exact absurd hr h
      · rfl

end Sys2Proof.Machine
end

section
/-! PROOFS. Lateral transfers and Cistern operations (chapters 04, 08, 10, 13): R23, R24, R26, R102, R207, R208, R264 to R273, R379. -/

namespace Sys2Proof.Machine

open Sys2Proof

/-! ## Lateral transfers -/

theorem findIdx?_append_cons {α : Type} {p : α → Bool} {pre post : List α} {x : α} (hpre : ∀ y ∈ pre, p y = false) (hx : p x = true) :
    (pre ++ x :: post).findIdx? p = some pre.length := by
  induction pre with
  | nil => simp [List.findIdx?_cons, hx]
  | cons y l ih => simp [List.findIdx?_cons, hpre y (by simp), ih (fun z hz => hpre z (by simp [hz]))]

section Send
variable {src : Fin 64} {s : State} {x : Xfer} {pre post : List Xfer}
  (hl : s.lats = pre ++ x :: post) (hsrc : x.src = src.val) (hsent : x.sent = false) (hpre : ∀ y ∈ pre, y.src ≠ src.val ∨ y.sent = true)

/-- A state with the transfer in flight, behind the others. -/
def sentXfer (s : State) (pre post : List Xfer) (x : Xfer) : State := { s with lats := pre ++ post ++ [{ x with sent := true }] }

include hl hsrc hsent hpre in
/-- The oldest transfer that its terrace is still sending is the one the event is about. -/
theorem exec_lateralSendDone : exec (.lateralSendDone src) s =
    if !(mayInject s (terraceDie src.val) (terraceDie x.dst) CanalKind.lateral.vc x.flits) then .next s
    else if sameItem (sentXfer s pre post x) src.val x then
      .next (semAdd (if x.rot then satAdd (sentXfer s pre post x) (tBase src.val + 0x1324) 0 0 32 (x.img.bytes.length / 64) else sentXfer s pre post x)
        src.val false x.ls 1)
    else .next (sentXfer s pre post x) := by
  have hfind : s.lats.findIdx? (fun x => x.src == src.val && !x.sent) = some pre.length := by
    rw [hl]
    refine findIdx?_append_cons (fun y hy => ?_) (by simp [hsrc, hsent])
    rcases hpre y hy with h | h <;> simp [h]
  have hget : s.lats[pre.length]? = some x := by simp [hl]
  have herase : s.lats.eraseIdx pre.length = pre ++ post := by simp [hl, List.eraseIdx_append_of_length_le]
  show execLateralSendDone src s = _
  unfold execLateralSendDone
  simp only [hfind, hget, herase]
  rfl

end Send

/-- Does a transfer arrive next of those from the die of src to the die of dst? -/
def nextOf (s : State) (src dst : Nat) (x : Xfer) : Prop :=
  x.sent = true ∧ terraceDie x.src = terraceDie src ∧ terraceDie x.dst = terraceDie dst ∧ (x.dst = dst ∨ mhas (terrace s x.dst).execs 24 = false)

theorem exec_lateralReceipt {src dst : Fin 64} {s : State} {x : Xfer} {pre post : List Xfer} (hl : s.lats = pre ++ x :: post)
    (hx : nextOf s src.val dst.val x) (hpre : ∀ y ∈ pre, ¬ nextOf s src.val dst.val y) :
    exec (.lateralReceipt src dst) s =
      if x.src ≠ src.val || x.dst ≠ dst.val then .next s
      else if !(sameItem s dst.val x) then .next (fenceArrivals { s with lats := pre ++ post })
      else if !(poolOf (terrace s dst.val) x.pool).valid || (poolOf (terrace s dst.val) x.pool).size < x.img.bytes.length
          || !(produces (terrace s dst.val) 1 x.q) then
        .next (itemFault (fenceArrivals { s with lats := pre ++ post }) dst.val x.thr x.pc fHANDLE)
      else if mhas (terrace s dst.val).execs 24 then .next s
      else .next (updTerrace (if x.rot then satAdd (fenceArrivals { s with lats := pre ++ post }) (tBase dst.val + 0x1328) 0 0 32 (x.img.bytes.length / 64)
          else fenceArrivals { s with lats := pre ++ post }) dst.val (fun t => setExec t 24
          { cmd := { thr := 16, w0 := 0, w1 := 0, th := {} }, outs := [x.img], outQ := x.q, pool := x.pool, ready := true })) := by
  have htake : takeFirst (fun x => x.sent && (terraceDie x.src == terraceDie src.val && terraceDie x.dst == terraceDie dst.val)
      && (x.dst == dst.val || !(mhas (terrace s x.dst).execs 24))) s.lats = some (x, pre ++ post) := by
    rw [hl]
    refine takeFirst_append (fun y hy => ?_) ?_
    · have := hpre y hy
      simpa [nextOf, and_assoc] using this
    · simpa [nextOf, and_assoc] using hx
  show execLateralReceipt src dst s = _
  unfold execLateralReceipt
  simp only [htake]

/-- Settles O24: exec_lateralSendDone and exec_lateralReceipt, case by case. -/
theorem lateralTransfers : Obligations.LateralTransfers := by
  intro src dst s x pre post hl counted sent next gone may
  refine ⟨fun hsrc hsent hpre => ?send, fun hx hpre => ?receipt⟩
  case send =>
    have he := exec_lateralSendDone hl hsrc hsent hpre
    refine ⟨fun hm => ?_, fun hm hi => ?_, fun hm hi => ?_⟩
    · exact he.trans (if_pos (by simpa [may] using hm))
    · exact he.trans ((if_neg (by simpa [may] using hm)).trans (if_pos hi))
    · exact he.trans ((if_neg (by simpa [may] using hm)).trans (if_neg (Bool.eq_false_iff.mp hi)))
  case receipt =>
    have he := exec_lateralReceipt hl hx hpre
    intro p fits
    refine ⟨fun h => he.trans (if_pos (by simpa using h)), fun h1 h2 => ?_⟩
    replace he := he.trans (if_neg (by simp [h1, h2]))
    refine ⟨fun hi => he.trans (if_pos (by simp [hi])), fun hi hf => ?_, fun hi hf hb => ?_, fun hi hf hb => ?_⟩
    all_goals replace he := he.trans (if_neg (by simp [hi]))
    · exact he.trans (if_pos (by simpa [fits, p, imp_iff_not_or, or_assoc] using hf))
    all_goals replace he := he.trans (if_neg (by simpa [fits, p, and_assoc] using hf))
    · exact he.trans (if_pos hb)
    · exact he.trans (if_neg (by simp [hb]))

/-! ## Cistern operations -/

/-- The operation that an instruction of a thread becomes. -/
def opOf (c : Ctx) (r : Run) (img : Img) : CisOp :=
  { tg := c.tg, cmd := { thr := c.thr, w0 := c.w0, w1 := 0, th := c.t }, tag := r.tag, allot := r.allot, img, replay := false }

/-- The state in which the agent n performs an operation: its thread is Blocked, and the operation is counted. -/
def askedOf (c : Ctx) (s : State) (n : Nat) : State :=
  updSaddle (onThread c s (fun t => { t with st := .blocked (.cis (fld c.w0 43 5) (fld c.w0 40 3) none) })) n (fun d => { d with cisOps := d.cisOps + 1 })

theorem cisBegan_wait {s u : State} {o o' : CisOp} {b : Cb} {a : CisAns} (h : cbOf s o.allot = some b) (ha : a = .wait o' u) :
    cisBegan s o a = .wait o' (noteOuts b s u o) := by
  unfold cisBegan
  rw [h]
  subst ha
  rfl

section DoAt
variable {s : State} {o : CisOp} {b : Cb} (hb : cbOf s o.allot = some b) (hs : (saddle s b.n).cisScan.contains o.allot = false)
include hb hs

theorem cisRun_bad {e : Nat × Option AccKind} (hbad : b.bad s = some e) : cisRun s o = .done 4 (cisFaulted s (slotOf s o.tg) b.al b.n e) := by
  unfold cisRun
  rw [hb]
  unfold cisDoAt
  dsimp only
  rw [if_neg (Bool.eq_false_iff.mp hs), hbad]

theorem cisRun_good (hbad : b.bad s = none) : cisRun s o = cisDo b s o := by
  unfold cisRun
  rw [hb]
  unfold cisDoAt
  dsimp only
  rw [if_neg (Bool.eq_false_iff.mp hs), hbad]

end DoAt

section Cistern
variable {c : Ctx} {s : State} {k n : Nat} {r : Run} {b : Cb} {img : Img} (hr : runOfT s c.tg = some (k, r)) (ha : cisAgent s r.allot = some n)
  (hb : cbOf (askedOf c s n) r.allot = some b) (hscan : (saddle (askedOf c s n) b.n).cisScan.contains r.allot = false)
include hr ha hb hscan

omit hb hscan in
theorem cisSend_asked : cisSend c s img = cisTake n (opOf c r img) (cisBegan (askedOf c s n) (opOf c r img) (cisRun (askedOf c s n) (opOf c r img))) := by
  unfold cisSend
  rw [hr]
  show cisTake ((cisAgent s r.allot).getD 0) (opOf c r img) (cisBegan (askedOf c s ((cisAgent s r.allot).getD 0)) (opOf c r img)
    (cisRun (askedOf c s ((cisAgent s r.allot).getD 0)) (opOf c r img))) = _
  rw [ha, Option.getD_some]

theorem cisSend_bad {x : Nat × Option AccKind} (hbad : b.bad (askedOf c s n) = some x) :
    cisSend c s img = cisAnswer (cisFaulted (askedOf c s n) (slotOf (askedOf c s n) c.tg) b.al b.n x) (opOf c r img) 4 := by
  have hb' : cbOf (askedOf c s n) (opOf c r img).allot = some b := hb
  rw [cisSend_asked hr ha, cisRun_bad hb' hscan hbad]
  rfl

theorem cisSend_done {code : Nat} {u : State} (hbad : b.bad (askedOf c s n) = none) (hdo : cisDo b (askedOf c s n) (opOf c r img) = .done code u) :
    cisSend c s img = cisAnswer u (opOf c r img) code := by
  have hb' : cbOf (askedOf c s n) (opOf c r img).allot = some b := hb
  rw [cisSend_asked hr ha, cisRun_good hb' hscan hbad, hdo]
  rfl

theorem cisSend_wait {o : CisOp} {u : State} (hbad : b.bad (askedOf c s n) = none) (hdo : cisDo b (askedOf c s n) (opOf c r img) = .wait o u) :
    cisSend c s img = updSaddle (noteOuts b (askedOf c s n) u (opOf c r img)) n (fun d => { d with cisWait := d.cisWait ++ [o] }) := by
  have hb' : cbOf (askedOf c s n) (opOf c r img).allot = some b := hb
  rw [cisSend_asked hr ha, cisRun_good hb' hscan hbad, cisBegan_wait hb' hdo]
  rfl

end Cistern

theorem wMin_of_issues {maj min : Nat} {i : Issue} {s : State} (h : Issues { maj, min } i s) : wMin i.w0 = min := by
  obtain ⟨-, -, hrow, -⟩ := h
  simp only [OpRow.has, Bool.and_eq_true, beq_iff_eq] at hrow
  tauto

/-- The instruction of minor opcode m, with the unused fields l, asks its agent for the operation f. -/
structure Asks (op : Issue → Instr) (m : Nat) (l : List (Nat × Nat)) (f : Cb → State → CisOp → CisAns) : Prop where
  exec_op : ∀ i s, exec (op i) s = issue { maj := 0x0A, min := m } i s (strict l cisPlain)
  cisDo_op : ∀ b s o, wMin o.cmd.w0 = m → cisDo b s o = f b s o

theorem Asks.effect {op : Issue → Instr} {m : Nat} {l : List (Nat × Nat)} {f : Cb → State → CisOp → CisAns} (H : Asks op m l f)
    {i : Issue} {s : State} {k n : Nat} {r : Run} {b : Cb} (hi : Issues { maj := 0x0A, min := m } i s) (hz : zeroFields i.w0 l = true)
    (hr : runOfT (past i s) i.tg.val = some (k, r)) (ha : cisAgent (past i s) r.allot = some n)
    (hb : cbOf (askedOf (ctxOf i s) (past i s) n) r.allot = some b)
    (hscan : (saddle (askedOf (ctxOf i s) (past i s) n) b.n).cisScan.contains r.allot = false) :
    let s' := askedOf (ctxOf i s) (past i s) n
    let o := opOf (ctxOf i s) r {}
    (∀ x, b.bad s' = some x → exec (op i) s = .next (cisAnswer (cisFaulted s' (slotOf s' i.tg.val) b.al b.n x) o 4)) ∧
    (b.bad s' = none → ∀ code u, f b s' o = .done code u → exec (op i) s = .next (cisAnswer u o code)) ∧
    (b.bad s' = none → ∀ o' u, f b s' o = .wait o' u →
      exec (op i) s = .next (updSaddle (noteOuts b s' u o) n (fun d => { d with cisWait := d.cisWait ++ [o'] }))) := by
  obtain ⟨he, hf⟩ := H
  intro s' o
  have hexec : exec (op i) s = .next (cisSend (ctxOf i s) (past i s) {}) := (he i s).trans (issue_some hi (strict_zero hz))
  have hdo : cisDo b s' o = f b s' o := hf b s' o (wMin_of_issues hi)
  rw [hexec]
  exact ⟨fun x hx => congrArg _ (cisSend_bad (c := ctxOf i s) (s := past i s) hr ha hb hscan hx),
    fun hn code u hu => congrArg _ (cisSend_done (c := ctxOf i s) (s := past i s) hr ha hb hscan hn (hdo.trans hu)),
    fun hn o' u hu => congrArg _ (cisSend_wait (c := ctxOf i s) (s := past i s) hr ha hb hscan hn (hdo.trans hu))⟩

/-! ## Codes -/

/-- A sequence's holder is another item that runs. -/
theorem heldByOther_iff {s : State} {al tag : Nat} {x : CSeq} :
    heldByOther s al tag x = true ↔ x.holder ≠ 0 ∧ x.holder ≠ tag ∧ tagRuns s al x.holder = true := by
  simp [heldByOther, and_assoc]

section Codes
variable {c : Cb} {s : State} {o : CisOp}

/-- No operation names a sequence that the control block does not have. -/
theorem codes_noSeq (h : c.nseq ≤ sOf o) : cisOpen c s o = .done 4 s ∧ cisFork c s o = .done 4 s ∧ cisHold c s o = .done 4 s ∧
    cisRelease c s o = .done 4 s ∧ cisAppend c s o = .done 4 s ∧ cisTrim c s o = .done 4 s ∧ cisClose c s o = .done 4 s :=
  ⟨if_pos (by simp [h]), if_pos (by simp [h]), if_pos h, if_pos h, if_pos (by simp [h]), if_pos h, if_pos h⟩

theorem again_held {q tag : Nat} {x : CSeq} (h : heldByOther s c.al tag x = true) : c.again s q x tag = s := if_pos h

theorem again_free {q tag : Nat} {x : CSeq} (h : ¬ heldByOther s c.al tag x = true) :
    c.again s q x tag = c.setSeq s q { x with holder := tag, lastUse := (saddle s c.n).cisOps } := if_neg h

theorem cisFork_replay (hq : sOf o < c.nseq) (hp : xOf o < c.nseq) (h1 : (c.seq s (sOf o)).state = 1) (ht : (c.seq s (sOf o)).tag = o.tag) :
    cisFork c s o = .done 1 (c.again s (sOf o) (c.seq s (sOf o)) o.tag) :=
  (if_neg (by simp [hq, hp])).trans (if_pos (by simp [h1, ht]))

theorem cisFork_state (hq : sOf o < c.nseq) (hp : xOf o < c.nseq) (h1 : (c.seq s (sOf o)).state = 1 → (c.seq s (sOf o)).tag ≠ o.tag)
    (h : (c.seq s (sOf o)).state ≠ 0 ∨ (c.seq s (xOf o)).state ≠ 1) : cisFork c s o = .done 3 s :=
  (if_neg (by simp [hq, hp])).trans ((if_neg (by simpa using h1)).trans (if_pos (by simpa using .inl h.symm)))

theorem cisOpen_replay (hq : sOf o < c.nseq) (hp : fld o.cmd.w0 21 4 < c.pools.length) (h1 : (c.seq s (sOf o)).state = 1)
    (ht : (c.seq s (sOf o)).tag = o.tag) : cisOpen c s o = .done 1 (c.again s (sOf o) (c.seq s (sOf o)) o.tag) :=
  (if_neg (by simp [hq, hp])).trans (if_pos (by simp [h1, ht]))

theorem cisOpen_state (hq : sOf o < c.nseq) (hp : fld o.cmd.w0 21 4 < c.pools.length) (h0 : (c.seq s (sOf o)).state ≠ 0)
    (h1 : (c.seq s (sOf o)).state = 1 → (c.seq s (sOf o)).tag ≠ o.tag) : cisOpen c s o = .done 3 s :=
  (if_neg (by simp [hq, hp])).trans ((if_neg (by simpa using h1)).trans (if_pos h0))

theorem cisHold_held (hq : sOf o < c.nseq) (h : heldByOther s c.al o.tag (c.seq s (sOf o)) = true) : cisHold c s o = .done 3 s :=
  (if_neg (show ¬ c.nseq ≤ sOf o by omega)).trans (if_pos h)

theorem cisHold_live (hq : sOf o < c.nseq) (h : ¬ heldByOther s c.al o.tag (c.seq s (sOf o)) = true) (h1 : (c.seq s (sOf o)).state = 1) :
    cisHold c s o = .done 0 (c.setSeq s (sOf o) { c.seq s (sOf o) with holder := o.tag, lastUse := (saddle s c.n).cisOps }) :=
  (if_neg (show ¬ c.nseq ≤ sOf o by omega)).trans ((if_neg h).trans (if_pos h1))

theorem cisTrim_state (hq : sOf o < c.nseq) (h : (c.seq s (sOf o)).state ≠ 1 ∨ (c.seq s (sOf o)).holder ≠ o.tag) : cisTrim c s o = .done 3 s :=
  (if_neg (show ¬ c.nseq ≤ sOf o by omega)).trans (if_pos (by simpa using h))

theorem cisClose_free (hq : sOf o < c.nseq) (h : (c.seq s (sOf o)).state = 0) : cisClose c s o = .done 0 s :=
  (if_neg (show ¬ c.nseq ≤ sOf o by omega)).trans (if_pos h)

theorem cisClose_held (hq : sOf o < c.nseq) (h0 : (c.seq s (sOf o)).state ≠ 0) (h : heldByOther s c.al o.tag (c.seq s (sOf o)) = true) :
    cisClose c s o = .done 3 s :=
  (if_neg (show ¬ c.nseq ≤ sOf o by omega)).trans ((if_neg h0).trans (if_pos h))

theorem cisRelease_effect (hq : sOf o < c.nseq) : cisRelease c s o = .done 0 (c.setSeq s (sOf o) { c.seq s (sOf o) with holder := 0 }) :=
  if_neg (show ¬ c.nseq ≤ sOf o by omega)

end Codes

/-- Settles O25: the operations by Asks.effect and the lemmas of cisSend, the codes each by the guard that gives it. -/
theorem cisternOperations : Obligations.CisternOperations := by
  refine ⟨?plain, ?append, ?codes⟩
  case plain =>
    intro e he
    have hasks : Asks e.1 e.2.1 e.2.2.1 e.2.2.2 := by
      revert e
      simp only [List.forall_mem_cons, List.not_mem_nil, false_imp_iff, implies_true, and_true]
      and_intros
      all_goals
        refine ⟨fun _ _ => rfl, fun b s o hm => ?_⟩
        simp only [cisDo, hm]
      by_cases hq : b.nseq ≤ (o.cmd.th.sreg (fld o.cmd.w0 35 5)).toNat
      · rw [if_pos hq]; exact if_pos hq
      · rw [if_neg hq]; exact if_neg hq
    intro i s k r n c hi hz hr waiting s' o ha hb hscan
    exact hasks.effect hi hz hr ha hb hscan
  case append =>
    intro i s k r n c hi h1 h2 hr h waiting s' o freed hok ha hb hscan hbad
    have hf : appendFault (ctxOf i s) (past i s) = none := by
      have hok' : handleOk (terrace (past i s) (ctxOf i s).tg) ((ctxOf i s).t.hreg (fld (ctxOf i s).w0 17 4)) = true := hok
      exact if_neg (by rw [hok']; decide)
    have hz : zeroFields i.w0 [(0, 16), (21, 4)] = true := by simp [zeroFields, h1, h2]
    have hm : wMin o.cmd.w0 = 4 := wMin_of_issues hi
    have hdo : cisDo c s' o = cisAppend c s' o := by simp only [cisDo, hm]
    have hexec : ∀ u, cisSend (ctxOf i s) (past i s) o.img = u → exec (.cisAppend i) s = .next (freed u) := fun u hu =>
      issue_strict_checked hi hz hf (congrArg (fun u => some (freed u)) hu)
    exact ⟨fun code u hu => hexec _ (cisSend_done (c := ctxOf i s) (s := past i s) hr ha hb hscan hbad (hdo.trans hu)),
      fun o' u hu => hexec _ (cisSend_wait (c := ctxOf i s) (s := past i s) hr ha hb hscan hbad (hdo.trans hu))⟩
  case codes =>
    intro c s o q x par other held replay
    have hother : heldByOther s c.al o.tag x = true ↔ other := heldByOther_iff
    have hreplay : ∀ a, a = .done 1 (c.again s q x o.tag) → replay a := fun a ha =>
      ⟨fun h => ha.trans (by rw [again_held (hother.mpr h)]), fun h => ha.trans (by rw [again_free (mt hother.mp h)])⟩
    refine ⟨codes_noSeq, fun h => if_pos (by simp [h]), fun h => if_pos (by simp [show c.nseq ≤ xOf o from h]), fun hq hp => ⟨?_, ?_, ?_⟩,
      fun hq => ⟨?_, ?_, ?_, ?_, ?_, cisClose_free hq, cisRelease_effect hq⟩⟩
    · exact fun h1 ht => hreplay _ (cisFork_replay hq hp h1 ht)
    · exact fun h0 h1 => cisFork_state hq hp h1 (.inl h0)
    · exact fun h0 hy => cisFork_state hq hp (fun h1 => absurd (h0.symm.trans h1) (by decide)) (.inr hy)
    · exact fun hpl h1 ht => hreplay _ (cisOpen_replay hq hpl h1 ht)
    · exact fun hpl h0 h1 => cisOpen_state hq hpl h0 h1
    · exact fun h => ⟨cisHold_held hq (hother.mpr h), fun h0 => cisClose_held hq h0 (hother.mpr h)⟩
    · exact fun h1 h => cisHold_live hq (mt hother.mp h) h1
    · exact cisTrim_state hq

end Sys2Proof.Machine
end

section
/-! PROOFS. Events of a terrace (chapters 04, 05, 06): R101, R104, R105, R111, R116, R117, R122, R123, R155 to R161, R353, R373. -/

namespace Sys2Proof.Machine

open Sys2Proof

/-! ## Blocked threads -/

theorem updThread_updThread (s : State) (g k : Nat) (f h : Thread → Thread) :
    updThread (updThread s g k f) g k h = updThread s g k (fun t => h (f t)) := by
  simp only [updThread, setThread, thread, updTerrace, setTerrace, terrace, mget_mset_same, mset_mset]

/-- A waiting thread's event is the end of its wait. -/
theorem exec_threadUnblock {tg : Fin 64} {thr : Fin 16} {s : State} {w : Wait} (h : (thread s tg.val thr.val).st = .blocked w) :
    exec (.threadUnblock tg thr) s = .next (unblock s tg.val thr.val w) := by
  show execThreadUnblock tg thr s = _
  unfold execThreadUnblock
  rw [h]

theorem exec_threadUnblock_other {tg : Fin 64} {thr : Fin 16} {s : State} (h : ∀ w, (thread s tg.val thr.val).st ≠ .blocked w) :
    exec (.threadUnblock tg thr) s = .next s := by
  show execThreadUnblock tg thr s = _
  unfold execThreadUnblock
  split
  · next w hw => exact absurd hw (h w)
  · rfl

section Load
variable {s : State} {g thr pc n : Nat} {w0 : W64}

/-- What a load's bytes give its register. -/
def loaded (w0 : W64) (n : Nat) (bs : List Byte) (t : Thread) : Thread :=
  if wMaj w0 = 2 then t.setS (fld w0 43 5) (if bit w0 35 then BitVec.ofInt 64 (sint (8 * n) (leNat bs)) else BitVec.ofNat 64 (leNat bs))
  else t.setD (fld w0 44 4) (BitVec.ofNat 256 (leNat bs))

/-- The context in which a Blocked load is tried again. -/
def retryCtx (s : State) (g thr pc : Nat) (w0 : W64) : Ctx := { tg := g, thr, pc, t := thread s g thr, w0, w1 := 0 }

/-- The load is tried again with the length and the register of its word. -/
theorem retryLoad_eq (hn : n = (if wMaj w0 = 2 then 2 ^ fld w0 36 2 else 32)) :
    retryLoad s g thr w0 pc =
      (loadBytes (retryCtx s g thr pc w0) s (fld w0 32 3) (memAddr (retryCtx s g thr pc w0)) n (loaded w0 n)).getD s := by
  by_cases hm : wMaj w0 = 2
  · have hl : (fun (bs : List Byte) (t : Thread) => t.setS (fld w0 43 5) (extended (retryCtx s g thr pc w0) bs)) = loaded w0 n := by
      funext bs t
      rw [loaded, if_pos hm, hn, if_pos hm]
      rfl
    rw [← hl, hn, if_pos hm]
    unfold retryLoad
    extract_lets c
    rw [if_pos hm]
    rfl
  · have hl : (fun (bs : List Byte) (t : Thread) => t.setD (fld w0 44 4) (BitVec.ofNat 256 (leNat bs))) = loaded w0 n := by
      funext bs t
      rw [loaded, if_neg hm]
    rw [← hl, hn, if_neg hm]
    unfold retryLoad
    extract_lets c
    rw [if_neg hm]
    rfl

end Load

theorem popBy_some {s : State} {g thr r q : Nat} {v : BitVec 16} {t : Terrace} (h : popQ (terrace s g) q = some (v, t)) :
    popBy s g thr r q = updThread (setTerrace s g t) g thr (fun x => x.setH r v) := by
  unfold popBy
  rw [h]

/-- Settles O26: exec_threadUnblock, and what ends each wait. -/
theorem blockedThreadsGoOn : Obligations.BlockedThreadsGoOn := by
  refine ⟨?waits, ?loads, ?queues⟩
  case waits =>
    intro tg thr s st goes stays
    have hb : ∀ w, st = .blocked w → ∀ u, unblock s tg.val thr.val w = u → exec (.threadUnblock tg thr) s = .next u :=
      fun w hw u hu => (exec_threadUnblock hw).trans (congrArg _ hu)
    refine ⟨exec_threadUnblock_other, fun sp k v h => ⟨fun hv => ?_, fun hv => ?_⟩, fun c h => ⟨fun hq => ?_, fun hq => ?_⟩,
      fun h pd pool n => ⟨fun v hs => ?_, fun hs => hb _ hs _ rfl⟩, fun sd pd => ⟨fun v hs => hb _ hs _ rfl, fun hs => hb _ hs _ rfl⟩,
      fun sd => ⟨fun x y hs => hb _ hs _ rfl, fun hs => hb _ hs _ rfl⟩, fun d ctl pc k r h hr => ⟨fun hj => ?_, fun hj => ?_⟩⟩
    · exact hb _ h _ (if_pos ((reached_iff _ _).mpr hv))
    · exact hb _ h _ (if_neg (fun hr => absurd ((reached_iff _ _).mp hr) (by omega)))
    · exact hb _ h _ (if_pos hq)
    · exact hb _ h _ (if_neg (Bool.eq_false_iff.mp hq))
    · refine hb _ hs _ ?_
      have hbne : (v != idleHandle) = decide (v ≠ 0xFFFF#16) := by simp [bne, idleHandle, Bool.beq_eq_decide_eq]
      rw [← hbne]
      rfl
    · refine hb _ h _ ?_
      simp only [unblock, hr, if_pos hj]
      rfl
    · refine hb _ h _ ?_
      simp only [unblock, hr, if_neg (Bool.eq_false_iff.mp hj)]
  case loads =>
    intro tg thr s w0 pc n hst hn g th space a al r noted value stopped answers
    let c := retryCtx s g thr.val pc w0
    have ha : ∀ u, (loadBytes c s space a n (loaded w0 n)).getD s = u → answers u := fun u hu =>
      (exec_threadUnblock hst).trans (congrArg _ ((retryLoad_eq hn).trans hu))
    refine ⟨fun h => ha _ ?_, fun h hm => ha _ ?_, fun h hm hb => ha _ ?_, fun h hc h0 => ?_⟩
    · rw [loadBytes_fenced (c := c) h]; rfl
    · rw [loadBytes_waits (c := c) h hm]; rfl
    · rw [loadBytes_poisoned (c := c) h hm hb]; rfl
    · obtain ⟨u, hu, hload⟩ := loadBytes_clean c s space a n (loaded w0 n) (fun h0 => Bool.eq_false_iff.mpr (fun h1 => h ⟨h0, h1⟩)) hc
      exact ⟨u, hu, ha _ (by rw [hload]; rfl)⟩
  case queues =>
    intro tg thr s h q t st goes
    refine ⟨fun hs => ⟨fun v t' hp => ?_, fun hp => ?_⟩, fun v n hs => ?_⟩
    · refine (exec_threadUnblock hs).trans (congrArg _ ?_)
      have hne : ¬ (lqOf t q).entries.isEmpty = true := fun he => by
        rw [(popQ_none_iff _ _).mpr (List.isEmpty_iff.mp he)] at hp; cases hp
      refine (if_neg hne).trans ?_
      rw [goOn, popBy_some hp, updThread_updThread]
      rfl
    · exact (exec_threadUnblock hs).trans (congrArg _ (if_pos (List.isEmpty_iff.mpr ((popQ_none_iff _ _).mp hp))))
    · intro may
      have hmay : (lqRoom t q && pushCredit t q && (pushWaiters t q).all (n ≤ ·)) = true ↔ may := by
        have hroom : 0 < 32 - (lqOf t q).entries.length - (lqOf t q).back ↔ (lqOf t q).entries.length + (lqOf t q).back < 32 := by omega
        simp only [lqRoom, tokensOf, Bool.and_eq_true, decide_eq_true_eq, List.all_eq_true, may, and_assoc, hroom]
      refine ⟨fun hm => (exec_threadUnblock hs).trans (congrArg _ ((if_pos (hmay.mpr hm)).trans ?_)),
        fun hm => (exec_threadUnblock hs).trans (congrArg _ (if_neg (mt hmay.mp hm)))⟩
      rw [goOn, pushBy, updThread_updThread]
      rfl

/-! ## Islands -/

/-- The event of an island once the words that fail their check have been seen. -/
def islandStart (g n : Nat) (s : State) : State :=
  match cmdsOf (terrace s g) n with
  | [] => pump s g
  | c :: _ =>
    if pushStalled (terrace s g) n || islandFenced s g n then pump s g
    else if (startOn n s g c).1 then
      pump (updTerrace (tagThread (startOn n s g c).2 g c.thr) g (fun t => setCmds t n ((cmdsOf t n).filter (fun x => x.seq ≠ c.seq)))) g
    else noteMiss (noteFreeze (pump (tagThread (startOn n s g c).2 g c.thr) g) g n c) g n c

theorem exec_islandInstrStart (tg : Fin 64) (isl : Island) (errs : List BankErr) (s0 : State) : exec (.islandInstrStart tg ⟨isl, errs⟩) s0 =
    .next (islandStart tg.val (islCode isl) (errs.foldl (fun s e => bankErr s tg.val e) s0)) := by
  show execIslandInstrStart tg ⟨isl, errs⟩ s0 = _
  unfold execIslandInstrStart
  extract_lets g s n
  show _ = Host.Outcome.next (islandStart g n s)
  clear_value s n
  unfold islandStart
  cases h : cmdsOf (terrace s g) n with
  | nil => rfl
  | cons c rest => simp only [← apply_ite Host.Outcome.next]

theorem islandStart_none {g n : Nat} {s : State} (h : cmdsOf (terrace s g) n = []) : islandStart g n s = pump s g := by
  unfold islandStart
  rw [h]

section Head
variable {g n : Nat} {s : State} {c : Cmd} {rest : List Cmd} (h : cmdsOf (terrace s g) n = c :: rest)
include h

theorem islandStart_stalled (hs : (pushStalled (terrace s g) n || islandFenced s g n) = true) : islandStart g n s = pump s g := by
  unfold islandStart
  rw [h]
  exact if_pos hs

theorem islandStart_starts (hs : ¬ (pushStalled (terrace s g) n || islandFenced s g n) = true) (hr : (startOn n s g c).1 = true) :
    islandStart g n s =
      pump (updTerrace (tagThread (startOn n s g c).2 g c.thr) g (fun t => setCmds t n ((cmdsOf t n).filter (fun x => x.seq ≠ c.seq)))) g := by
  unfold islandStart
  rw [h]
  exact (if_neg hs).trans (if_pos hr)

theorem islandStart_waits (hs : ¬ (pushStalled (terrace s g) n || islandFenced s g n) = true) (hr : (startOn n s g c).1 = false) :
    islandStart g n s = noteMiss (noteFreeze (pump (tagThread (startOn n s g c).2 g c.thr) g) g n c) g n c := by
  unfold islandStart
  rw [h]
  exact (if_neg hs).trans (if_neg (Bool.eq_false_iff.mp hr))

end Head

theorem stalled_iff {s : State} {g n : Nat} : (pushStalled (terrace s g) n || islandFenced s g n) = true ↔
    (∃ e ∈ (terrace s g).execs, unitIsl e.1 = n ∧ e.2.got ≠ none) ∨ (terraceFenced s g = true ∧ n ≠ 2 ∧ n ≠ 3) := by
  simp [pushStalled, islandFenced, Option.isSome_iff_ne_none, and_assoc]

theorem tagThread_execs (s : State) (g thr : Nat) : (terrace (tagThread s g thr) g).execs = (terrace s g).execs := by
  unfold tagThread
  extract_lets s1
  have h1 : terrace s1 g = terrace s g := rfl
  split
  · rw [h1]
  · rw [terrace_updTerrace_same, h1]

theorem startOn_cfg {s : State} {g : Nat} {c : Cmd} (he : (terrace s g).execs = []) (hm : wMin c.w0 = 1) :
    startOn 3 s g c = (true, updTerrace s g (fun t => { t with runLen := fld c.w0 42 6, tol := fld c.w0 26 16 })) := by
  have hno : ¬ (mhas (terrace s g).execs 20 || (wMin c.w0 = 0 && drainBlocked (terrace s g))) = true := by simp [he, hm, mhas, mget?]
  refine (show startOn 3 s g c = startMma s g c from rfl).trans ?_
  unfold startMma
  rw [if_neg hno]
  simp only [hm]

/-- A unit has delivered everything. -/
theorem finished_iff {e : Exec} : e.finished = true ↔ e.ready = true ∧ e.outs = [] ∧ e.got = none ∧ e.owed = [] := by
  simp [Exec.finished, and_assoc]

theorem not_finished {e : Exec} (h : e.ready = false ∨ e.outs ≠ [] ∨ e.got ≠ none ∨ e.owed ≠ []) : (!e.finished) = true := by
  have : ¬ e.finished = true := fun hf => by
    obtain ⟨h1, h2, h3, h4⟩ := finished_iff.mp hf
    simp [h1, h2, h3, h4] at h
  simpa using this

section Unit
variable {tg : Fin 64} {s : State} {e : Exec}

theorem exec_stageInstructionEnd {v : Fin 8} (he : mget? (terrace s tg.val).execs (16 + v.val) = some e) :
    exec (.stageInstructionEnd tg v) s = if !e.finished then .next s else .next (pump (freeHandles (logUnit
      (updTerrace (countEnd s tg.val (16 + v.val) e.cmd) tg.val (fun t => { delExec t (16 + v.val) with
        pins := mdel t.pins (16 + v.val)
        partialPk := if v.val = 5 ∨ v.val = 6 then mdel t.partialPk (11 + v.val) else t.partialPk
        replaying := if v.val = 4 then [] else t.replaying })) tg.val e.accs) tg.val e.cmd.thr e.cmd.th.pc.toNat e.held) tg.val) := by
  have hpk : ∀ t : Terrace, (if 16 + v.val = 21 || 16 + v.val = 22 then mdel t.partialPk (16 + v.val - 5) else t.partialPk) =
      if v.val = 5 ∨ v.val = 6 then mdel t.partialPk (11 + v.val) else t.partialPk := fun t => by
    have hk : 16 + v.val - 5 = 11 + v.val := by omega
    simp only [hk, Bool.or_eq_true, decide_eq_true_eq]
    exact if_congr (by omega) rfl rfl
  have hrep : ∀ t : Terrace, (if 16 + v.val = 20 then [] else t.replaying) = if v.val = 4 then [] else t.replaying :=
    fun t => if_congr (by omega) rfl rfl
  have he' : execOf (terrace s tg.val) (16 + v.val) = some e := he
  show execStageInstructionEnd tg v s = _
  unfold execStageInstructionEnd
  simp only [he', hpk, hrep]

theorem exec_streamDrained {v : Fin 16} (he : mget? (terrace s tg.val).execs v.val = some e) :
    exec (.streamDrained tg v) s = if !e.finished then .next s else .next (freeHandles (logUnit
      (updTerrace s tg.val (fun t => { delExec t v.val with pins := mdel t.pins v.val, partialPk := mdel t.partialPk v.val })) tg.val e.accs)
      tg.val e.cmd.thr e.cmd.th.pc.toNat e.held) := by
  have he' : execOf (terrace s tg.val) v.val = some e := he
  show execStreamDrained tg v s = _
  unfold execStreamDrained
  simp only [he']

end Unit

/-- Settles O27: the head of the queue by the lemmas of islandStart, the ends by those of their events. -/
theorem islandsRunTheirInstructions : Obligations.IslandsRunTheirInstructions := by
  refine ⟨?starts, ?ends⟩
  case starts =>
    intro tg isl errs s0 c rest s n left r u stalled starts
    have hst : ∀ u, islandStart tg.val n s = u → starts u := fun u hu => (exec_islandInstrStart tg isl errs s0).trans (congrArg _ hu)
    refine ⟨fun h => hst _ (islandStart_none h), fun h => ⟨fun hs => hst _ (islandStart_stalled h (stalled_iff.mpr hs)),
      fun hs hr => hst _ (islandStart_starts h (mt stalled_iff.mp hs) hr), fun hs hr => hst _ (islandStart_waits h (mt stalled_iff.mp hs) hr),
      fun hi he hm => hst _ ?_⟩⟩
    have hn : n = 3 := by simp only [n, hi, islCode]
    have hs : ¬ stalled := by simp [stalled, he, hn]
    have hcfg : startOn n s tg.val c = (true, updTerrace s tg.val (fun t => { t with runLen := fld c.w0 42 6, tol := fld c.w0 26 16 })) := by
      rw [hn]; exact startOn_cfg he hm
    rw [islandStart_starts h (mt stalled_iff.mp hs) (by rw [hcfg]), hcfg]
    refine pump_of_noExecs ?_
    rw [terrace_updTerrace_same]
    refine (tagThread_execs _ _ _).trans ?_
    rw [terrace_updTerrace_same]
    exact he
  case ends =>
    intro tg s e ended
    exact ⟨fun v he => ⟨fun hf => (exec_stageInstructionEnd he).trans (if_neg (by simp [finished_iff.mpr hf])),
        fun hf => (exec_stageInstructionEnd he).trans (if_pos (not_finished hf))⟩,
      fun v he => ⟨fun hf => (exec_streamDrained he).trans (if_neg (by simp [finished_iff.mpr hf])),
        fun hf => (exec_streamDrained he).trans (if_pos (not_finished hf))⟩⟩

/-! ## Array checks -/

/-- Is an array checked: does the MMA in progress compute on it? -/
def CheckedBy (t : Terrace) (a : Nat) (e : Exec) : Prop :=
  mget? t.execs 20 = some e ∧ wMin e.cmd.w0 = 0 ∧ ∃ l ∈ mmaArrays e.cmd, substitute t.degraded l = a

theorem computesOn_iff {t : Terrace} {a : Nat} {e : Exec} :
    (!(wMin e.cmd.w0 = 0 && (mmaArrays e.cmd).any (fun l => substitute t.degraded l = a))) = true ↔
      ¬ (wMin e.cmd.w0 = 0 ∧ ∃ l ∈ mmaArrays e.cmd, substitute t.degraded l = a) := by
  simp [imp_iff_not_or]

section Check
variable {tg : Fin 64} {check : ArrayCheck} {s : State}

theorem exec_arrayCheckFail_unchecked (h : ¬ ∃ e, CheckedBy (terrace s tg.val) check.array.val e) : exec (.arrayCheckFail tg check) s = .next s := by
  show execArrayCheckFail tg check s = _
  unfold execArrayCheckFail
  extract_lets g a t
  split
  · rfl
  · next e he => exact if_pos (computesOn_iff.mpr (fun hc => h ⟨e, he, hc⟩))

/-- A checked array's failure is counted; it starts a replay, or degrades the array. -/
theorem exec_arrayCheckFail_checked {e : Exec} (h : CheckedBy (terrace s tg.val) check.array.val e) :
    let a := check.array.val
    let t := terrace s tg.val
    let counted := satAdd s (tBase tg.val + 0x1108) 0 (8 * a) 8 1
    let deg := setIns t.degraded a
    let degraded := intCause (rasAppend (updTerrace counted tg.val (fun t => { t with
      degraded := deg, replaying := t.replaying.filter (fun x => x ≠ a) })) 0x20 2 1 tg.val none (arrHealth deg + a * 2 ^ 32)) 4
    exec (.arrayCheckFail tg check) s =
      if !(check.again && t.replaying.contains a) then .next (updTerrace counted tg.val (fun t => { t with replaying := setIns t.replaying a }))
      else if deg.length = 4 then .next (fourthArray degraded tg.val e.cmd.thr e.cmd.th.pc.toNat) else .next degraded := by
  obtain ⟨he, hc⟩ := h
  have he' : execOf (terrace s tg.val) 20 = some e := he
  intro a t counted deg degraded
  show execArrayCheckFail tg check s = _
  unfold execArrayCheckFail
  simp only [he']
  exact if_neg (fun hn => computesOn_iff.mp hn hc)

end Check

/-- Settles O28: exec_arrayCheckFail_unchecked and exec_arrayCheckFail_checked, case by case. -/
theorem arrayChecksReplayThenDegrade : Obligations.ArrayChecksReplayThenDegrade := by
  intro tg check s e a t counted deg degraded again checked
  have hagain : (!(check.again && t.replaying.contains a)) = true ↔ ¬ again := by simp [again, imp_iff_not_or]
  refine ⟨exec_arrayCheckFail_unchecked, fun ⟨e', hc⟩ hn => ?_, fun ⟨e', hc⟩ ha hd => ?_, fun ⟨e', hc⟩ ha hd he => ?_⟩
  · exact (exec_arrayCheckFail_checked hc).trans (if_pos (hagain.mpr hn))
  · exact (exec_arrayCheckFail_checked hc).trans ((if_neg (fun h => hagain.mp h ha)).trans (if_neg hd))
  · obtain rfl : e' = e := Option.some.inj (hc.1.symm.trans he)
    exact (exec_arrayCheckFail_checked hc).trans ((if_neg (fun h => hagain.mp h ha)).trans (if_pos hd))

end Sys2Proof.Machine
end

section
/-! PROOFS. Items (chapters 01, 04, 11, 14, 15): R29, R30, R83, R99, R114, R287 to R289, R395, R417, R418. -/

namespace Sys2Proof.Machine

open Sys2Proof

/-! ## Scrubs and dispatch -/

theorem mget?_rangeMap {α : Type} {f : Nat → α} {n i : Nat} (h : i < n) : mget? ((List.range n).map (fun i => (i, f i))) i = some (f i) := by
  have hgen : ∀ l : List Nat, i ∈ l → mget? (l.map (fun i => (i, f i))) i = some (f i) := fun l hl => by
    induction l with
    | nil => cases hl
    | cons a l ih =>
      rw [List.map_cons, mget?]
      by_cases ha : a = i
      · rw [if_pos ha, ha]
      · rw [if_neg ha]; exact ih ((List.mem_cons.mp hl).resolve_left (fun h => ha h.symm))
  exact hgen _ (List.mem_range.mpr h)

/-- The threads of a run at its start. -/
theorem thread_started {r : Run} {n : Nat} (h : n < r.threads) :
    mget (startThreads r) n {} = { st := .ready, pc := BitVec.ofNat 52 r.entry, s := [(1, r.args), (2, BitVec.ofNat 64 n)] } := by
  simp only [mget, startThreads, mget?_rangeMap h, Option.getD_some]

/-- A run that nothing holds back starts. -/
theorem tryStart_starts {s : State} {k : Nat} {r : Run} (h : mget? s.runs k = some r) (h1 : r.started = false) (h2 : r.scrubbing = [])
    (h3 : r.stopped = false) :
    tryStart s k = r.tgs.foldl (fun s tg => updTerrace s tg (fun t => { t with threads := startThreads r }))
      { s with runs := mset s.runs k { r with started := true } } := by
  unfold tryStart
  rw [h, updRun_of_some h]
  exact if_neg (by simp [h1, h2, h3])

theorem exec_scrubComplete {tg : Fin 64} {s : State} (h : (terrace s tg.val).scrub = true) : exec (.scrubComplete tg) s =
    .next ((s.runs.map (fun r => r.1)).foldl tryStart { updTerrace s tg.val (fun t => { t with scrub := false }) with
      allots := s.allots.map (fun a => (a.1, { a.2 with scrubs := setDel a.2.scrubs tg.val }))
      runs := s.runs.map (fun r => (r.1, { r.2 with scrubbing := setDel r.2.scrubbing tg.val })) }) := by
  show execScrubComplete tg s = _
  unfold execScrubComplete
  refine (if_neg (by simp [h])).trans (congrArg Host.Outcome.next ?_)
  rw [List.map_map]
  rfl

theorem updQues_frame (l : List (Nat × Nat × Slot)) (f : Nat × Nat × Slot → Que → Que) (s : State) :
    l.foldl (fun s e => updQue s e.1 (f e)) s = { s with ques := (l.foldl (fun s e => updQue s e.1 (f e)) s).ques } := by
  induction l generalizing s with
  | nil => rfl
  | cons a l ih => rw [List.foldl_cons, ih]; rfl

/-- The wait counters after a decision for queue q, and the queue its class serves last. -/
def decided (s : State) (q : Nat) : State :=
  let rank := if 16 ≤ (que s q).wait then 0 else 1 + classRank (allotClass s (q / 64))
  let s1 := (candidates s).foldl (fun s e => updQue s e.1 (fun y => { y with wait := if e.1 = q then 0 else min 16 (y.wait + 1) })) s
  { s1 with rr := mset s.rr rank q }

theorem decided_frame (s : State) (q : Nat) : decided s q = { s with ques := (decided s q).ques, rr := (decided s q).rr } := by
  unfold decided
  extract_lets rank s1
  have h : s1 = { s with ques := s1.ques } := updQues_frame _ _ s
  clear_value s1
  rw [h]

/-- The queue noted is noted on the counters as they stood. -/
theorem decided_rr (s : State) (q : Nat) :
    let rank := if 16 ≤ (que s q).wait then 0 else 1 + classRank (allotClass s (q / 64))
    let s1 := (candidates s).foldl (fun s e => updQue s e.1 (fun y => { y with wait := if e.1 = q then 0 else min 16 (y.wait + 1) })) s
    { s1 with rr := mset s1.rr rank q } = decided s q := by
  intro rank s1
  have h : s1.rr = s.rr := by simp only [s1]; rw [updQues_frame]
  rw [h]
  rfl

/-- The terraces of a span, given to an item. -/
def spanned (s : State) (k : Nat) (tgs : List Nat) : State := tgs.foldl (fun s tg => updTerrace s tg (fun t => { t with slot := some k })) s

theorem newRun_frame {s u : State} (x : Slot) (tgs : List Nat) (h : u.hdFailed = s.hdFailed) : newRun u x tgs = newRun s x tgs := by
  simp only [newRun, seqHd, h]

section Dispatch
variable {pick : BitVec 64} {s : State} {q k : Nat} {x : Slot} (hw : working s = true) (hp : pickItem s (candidates s) = some (q, k, x))
include hw hp

theorem exec_dispatchDecision_none (hn : spanSize s (q / 64) x = 0) : exec (.dispatchDecision pick) s = .next (completeItem (decided s q) k 5 0) := by
  have hspan : spanSize (decided s q) (q / 64) x = spanSize s (q / 64) x := by rw [decided_frame]; rfl
  show execDispatchDecision pick s = _
  unfold execDispatchDecision
  rw [if_neg (by simp [hw])]
  extract_lets l
  rw [hp]
  dsimp -zeta only
  extract_lets al rank s1 s2 n tgs s3 s4
  have hs2 : s2 = decided s q := decided_rr s q
  have hn' : n = 0 := by rw [← hn, ← hspan, ← hs2]
  exact (if_pos hn').trans (by rw [hs2])

theorem exec_dispatchDecision_some (hn : spanSize s (q / 64) x ≠ 0) :
    let tgs := chooseTgs (openTerraces s (q / 64)) (spanSize s (q / 64) x) pick
    exec (.dispatchDecision pick) s = .next (request
      { spanned (decided s q) k tgs with runs := mset s.runs k (newRun s x tgs), redivide := setIns s.redivide (q / 64)
                                         skvReqs := s.skvReqs.map (fun r => if r.slot = some k then { r with dead := true } else r) }
      { slots := [(k, some { x with st := .running })], eff := .start k }) := by
  intro tgs
  have hspan : spanSize (decided s q) (q / 64) x = spanSize s (q / 64) x := by rw [decided_frame]; rfl
  have hopen : openTerraces (decided s q) (q / 64) = openTerraces s (q / 64) := by rw [decided_frame]; rfl
  have hframe : ∀ tgs, spanned (decided s q) k tgs =
      { s with ques := (decided s q).ques, rr := (decided s q).rr, terraces := (spanned (decided s q) k tgs).terraces } := fun tgs => by
    refine (foldl_updTerrace_frame tgs _ (decided s q)).trans ?_
    rw [decided_frame]
    rfl
  show execDispatchDecision pick s = _
  unfold execDispatchDecision
  rw [if_neg (by simp [hw])]
  extract_lets l
  rw [hp]
  dsimp -zeta only
  extract_lets al rank s1 s2 n tgs' s3 s4
  have hs2 : s2 = decided s q := decided_rr s q
  have hn' : ¬ n = 0 := fun h => hn (by rw [← hspan, ← hs2]; exact h)
  have htgs : tgs' = tgs := by simp only [tgs', al, n, hs2, hspan, hopen]; rfl
  have hs3 : s3 = spanned (decided s q) k tgs' := by rw [← hs2]; rfl
  have hs4 : s4 = { s3 with runs := mset s3.runs k (newRun s3 x tgs'), redivide := setIns s3.redivide al
                            skvReqs := s3.skvReqs.map (fun r => if r.slot = some k then { r with dead := true } else r) } := rfl
  refine (if_neg hn').trans ?_
  clear_value s4 s3
  rw [htgs] at hs3 hs4
  have hr : newRun s3 x tgs = newRun s x tgs := newRun_frame _ _ (by rw [hs3, hframe])
  have h1 : s3.runs = s.runs ∧ s3.redivide = s.redivide ∧ s3.skvReqs = s.skvReqs := by rw [hs3, hframe]; exact ⟨rfl, rfl, rfl⟩
  rw [hs4, hr, h1.1, h1.2.1, h1.2.2, hs3]

end Dispatch

/-- Settles O29: the scrub by tryStart_starts, the decision by the lemmas of its two outcomes. -/
theorem itemsStart : Obligations.ItemsStart := by
  refine ⟨?scrub, ?dispatch⟩
  case scrub =>
    intro tg s k r hsc hruns hscr h1 h2
    let r' : Run := { r with scrubbing := [] }
    let s1 : State := { updTerrace s tg.val (fun t => { t with scrub := false }) with
      allots := s.allots.map (fun a => (a.1, { a.2 with scrubs := setDel a.2.scrubs tg.val })), runs := [(k, r')] }
    let s2 : State := { s1 with runs := [(k, { r' with started := true })] }
    have hexec : exec (.scrubComplete tg) s = .next (tryStart s1 k) := by
      rw [exec_scrubComplete hsc, hruns]
      simp only [List.map_cons, List.map_nil, List.foldl_cons, List.foldl_nil, hscr]
      have hdel : setDel [tg.val] tg.val = [] := by simp [setDel]
      rw [hdel]
    have hstart : tryStart s1 k = r.tgs.foldl (fun s tg => updTerrace s tg (fun t => { t with threads := startThreads r })) s2 := by
      have hk : mget? s1.runs k = some r' := if_pos rfl
      rw [tryStart_starts hk h1 rfl h2]
      have hset : mset s1.runs k { r' with started := true } = [(k, { r' with started := true })] := if_pos rfl
      rw [hset]
      rfl
    have hterr : ∀ x, terrace (tryStart s1 k) x = if x ∈ r.tgs then { terrace s2 x with threads := startThreads r } else terrace s2 x := fun x => by
      rw [hstart, terrace_foldl_updTerrace _ (fun t => { t with threads := startThreads r }) (fun _ => rfl)]
    have hown : terrace s2 tg.val = { terrace s tg.val with scrub := false } :=
      terrace_updTerrace_same s tg.val (fun t => { t with scrub := false })
    have hother : ∀ x, x ≠ tg.val → terrace s2 x = terrace s x := fun x hx =>
      terrace_updTerrace_other s tg.val x (fun t => { t with scrub := false }) hx
    refine ⟨_, hexec, ?_, ?_, fun x hx hne => ?_, fun x hx n hn => ?_⟩
    · rw [hstart, foldl_updTerrace_frame]
    · rw [hterr]
      split <;> rw [hown]
    · rw [hterr, if_neg hx, hother x hne]
    · rw [thread, hterr, if_pos hx]
      exact thread_started hn
  case dispatch =>
    intro pick s q k x al rank s1 s2 tgs s3 hw hp
    exact ⟨exec_dispatchDecision_none hw hp, exec_dispatchDecision_some hw hp⟩

/-! ## Finish and commit -/

theorem terraceDone_iff (s : State) (tg : Nat) : terraceDone s tg = true ↔
    (∀ e ∈ (terrace s tg).threads, e.2.live = false) ∧ contextsHeld (terrace s tg) = 0 ∧ cmdsOf (terrace s tg) 4 = [] ∧ cmdsOf (terrace s tg) 5 = [] ∧
      mhas (terrace s tg).execs 21 = false ∧ mhas (terrace s tg).execs 22 = false := by
  simp [terraceDone, and_assoc]

theorem itemQuiet_iff (s : State) (k : Nat) (h : Bool) : itemQuiet s k h = true ↔
    (∀ d ∈ s.saddles, ∀ c ∈ d.2.vc2, c.slot ≠ some k) ∧ (∀ t ∈ s.terraces, t.2.slot = some k → t.2.stores = []) ∧
      (h = true → (∀ q ∈ s.skvReqs, q.slot ≠ some k) ∧
        (∀ e ∈ s.e2e, ∀ x ∈ e.2.held, x.pkt.ptype = 6 → x.origin.bind (·.slot) ≠ some k) ∧
        ∀ w ∈ s.skvWait, w.2.ptype = 6 → w.1.bind (·.slot) ≠ some k) := by
  cases h with
  | false => simp [itemQuiet, imp_iff_not_or]
  | true => simp [itemQuiet, imp_iff_not_or, and_assoc]

section Finish
variable {tg : Fin 64} {s : State} {k : Nat} {r : Run} (hr : runOfT s tg.val = some (k, r)) (hstart : r.started = true) (hdone : tg.val ∉ r.done)

/-- The state after an item has ended on a terrace. -/
def endedOn (s : State) (g k : Nat) (r : Run) : State :=
  let v := updRun s k (fun r => { r with done := setIns r.done g })
  updTerrace { v with lanes := v.lanes.map (fun e => (e.1, e.2.keep (fun x => x ≠ g))) } g (fun t => { stopTerrace t with
    stores := if r.stopped then [] else t.stores
    span := {}
    pools := t.pools.map (fun e => (e.1, { e.2 with used := [] }))
    lqs := t.lqs.map (fun e => (e.1, { e.2 with entries := [], back := 0 })) })

include hr in
theorem exec_itemFinish_waits (h : terraceDone s tg.val = false ∨ (0 < r.sumps ∧ r.stopped = false)) : exec (.itemFinish tg) s = .next s := by
  show execItemFinish tg s = _
  unfold execItemFinish
  extract_lets g
  rw [show runOfT s g = some (k, r) from hr]
  dsimp -zeta only
  exact if_pos (by rcases h with h | h <;> simp [g, h])

include hr hstart hdone in
theorem exec_itemFinish_ends (h : terraceDone s tg.val = true) (hs : r.sumps = 0 ∨ r.stopped = true) : exec (.itemFinish tg) s =
    if !(r.tgs.all (fun x => x = tg.val || r.done.contains x)) || r.parked then .next (endedOn s tg.val k r)
    else if r.stopped then .next (endStopped (endedOn s tg.val k r) k) else .next (discardReaches (endedOn s tg.val k r) k) := by
  show execItemFinish tg s = _
  unfold execItemFinish
  extract_lets g
  rw [show runOfT s g = some (k, r) from hr]
  dsimp -zeta only
  refine (if_neg ?_).trans rfl
  have hs' : ¬ (0 < r.sumps ∧ r.stopped = false) := fun ⟨h1, h2⟩ => by
    rcases hs with h | h
    · omega
    · simp [h] at h2
  have hd : g ∉ r.done := hdone
  have ht : terraceDone s g = true := h
  simpa [hstart, hd, ht] using hs'

end Finish

section Commit
variable {s : State} {k : Nat} {r : Run} {x : Slot}

theorem endStopped_quiet (hr : mget? s.runs k = some r) (h1 : r.stopped = true) (h2 : r.parked = false) (h3 : ∀ tg ∈ r.tgs, tg ∈ r.done)
    (h4 : itemQuiet s k true = true) : endStopped s k = completeItem s k 2 0 := by
  unfold endStopped
  rw [hr]
  exact if_pos (by simpa [h1, h2, h4] using h3)

theorem endStopped_waits (hr : mget? s.runs k = some r) (h : r.parked = true ∨ ¬ (∀ tg ∈ r.tgs, tg ∈ r.done) ∨ itemQuiet s k true = false) :
    endStopped s k = s := by
  unfold endStopped
  rw [hr]
  refine if_neg (fun hc => ?_)
  simp only [Bool.and_eq_true, Bool.not_eq_true', List.all_eq_true, List.contains_iff_mem] at hc
  obtain ⟨⟨⟨-, hp⟩, hd⟩, hq⟩ := hc
  rcases h with h | h | h
  · simp [hp] at h
  · exact h hd
  · simp [hq] at h

/-- Has an item an error to report with its completion? -/
def erred (u : State) (k : Nat) : Bool :=
  match mget? u.runs k with
  | some y => decide (y.err ≠ 0 ∨ y.poison ≠ 0)
  | none => false

/-- The completion of an item that is not stopped. -/
def completed (u : State) (k : Nat) (x : Slot) : State := completeItem u k (if erred u k = true ∨ x.replays ≠ 0 then 1 else 0) 0

theorem completed_of_erred {u : State} {k : Nat} {x : Slot} {b : Bool} (hb : b = erred u k) :
    completeItem u k (if (b || decide (x.replays ≠ 0)) = true then 1 else 0) 0 = completed u k x := by
  subst hb
  simp [completed]

theorem finishCommit_noWord (h : (r.commit.map (fun c => c.done)).getD 0 = 0) : finishCommit s k x r = completed s k x := by
  unfold finishCommit
  extract_lets d w v s1 err
  have hw : w = [] := if_pos h
  have hs1 : s1 = s := if_pos h
  have herr : err = erred s1 k := by
    simp only [err, erred]
    cases mget? s1.runs k <;> simp
  rw [if_neg (by simp [hw]), completed_of_erred herr, hs1]

section Word
variable {d : Nat} (hd : (r.commit.map (fun c => c.done)).getD 0 = d) (h0 : d ≠ 0)
include hd h0

theorem finishCommit_waits (h : writeWaits s (.agent 0) r.allot d 8 ≠ []) :
    finishCommit s k x r = atsAsk s (.agent 0 (some k)) r.allot (writeWaits s (.agent 0) r.allot d 8) := by
  subst hd
  unfold finishCommit
  extract_lets d w s1
  have hw : w = writeWaits s (.agent 0) r.allot d 8 := if_neg h0
  rw [if_pos (by rw [hw]; exact h), hw]

theorem finishCommit_writes (h : writeWaits s (.agent 0) r.allot d 8 = []) :
    let w := vWrite s (.agent 0 (some k)) r.allot d ((leBytes 8 (x.tag + 2 ^ 63)).map (fun (b : Byte) => ((b, false) : PByte)))
    finishCommit s k x r = completed (logEngine w.1 k r.allot w.2) k x := by
  subst hd
  intro w
  unfold finishCommit
  extract_lets d w' v s1 err
  have hw : w' = [] := (if_neg h0).trans h
  have hs1 : s1 = logEngine w.1 k r.allot w.2 := if_neg h0
  have herr : err = erred s1 k := by
    simp only [err, erred]
    cases mget? s1.runs k <;> simp
  rw [if_neg (by simp [hw]), completed_of_erred herr, hs1]

end Word

theorem commitCopies_waits (hr : mget? s.runs k = some r) (hx : slotAt s k = some x)
    (h : copyMissing s r.allot (r.commit.getD { done := 0, ranges := [] }) ≠ []) :
    commitCopies s k = atsAsk s (.agent 0 (some k)) r.allot (copyMissing s r.allot (r.commit.getD { done := 0, ranges := [] })) := by
  unfold commitCopies
  rw [hr, hx]
  exact if_pos h

theorem commitCopies_copies (hr : mget? s.runs k = some r) (hx : slotAt s k = some x)
    (h : copyMissing s r.allot (r.commit.getD { done := 0, ranges := [] }) = []) :
    let c := r.commit.getD { done := 0, ranges := [] }
    let u := updRun (c.ranges.foldl (fun s e => copyRange s k r.allot e.1 e.2.1 e.2.2) s) k (fun r => { r with copied := true })
    commitCopies s k = if itemQuiet u k true then finishCommit u k x r else u := by
  intro c u
  unfold commitCopies
  rw [hr, hx]
  exact if_neg (not_not.mpr h)

end Commit

section Exec
variable {n : Fin 65536} {s : State} {r : Run} {x : Slot} (hw : working s = true) (hr : mget? s.runs n.val = some r) (hx : slotAt s n.val = some x)
include hw hr hx

theorem exec_commit : exec (.commit n) s =
    if x.st == .committing then
      .next (if r.copied then (if itemQuiet s n.val true then finishCommit s n.val x r else s)
        else if s.jsteps.any (fun j => j.eff == .commitCopy n.val) then s else commitCopies s n.val)
    else if r.stopped then .next (endStopped s n.val)
    else if !(x.st == .running && r.started && r.tgs.all (fun tg => r.done.contains tg)) then .next s
    else if (slotsOfQ s x.q).any (fun e => e.2.seq + 1 == x.seq && !e.2.over) || !(itemQuiet s n.val false) then .next s
    else .next (request s { slots := [(n.val, some { x with st := .committing })], eff := .commitCopy n.val }) := by
  show execCommit n s = _
  unfold execCommit
  extract_lets k
  rw [if_neg (by simp [hw]), show mget? s.runs k = some r from hr, show slotAt s k = some x from hx]

end Exec

/-- Settles O30: the ends by their lemmas, the commit by exec_commit and the lemmas of what it does. -/
theorem itemsFinishAndCommit : Obligations.ItemsFinishAndCommit := by
  refine ⟨terraceDone_iff, itemQuiet_iff, ?finish, ?commit⟩
  case finish =>
    intro tg s k r hr hstart hdone
    refine ⟨exec_itemFinish_waits hr, fun h hs => ?_⟩
    intro v u
    have he := exec_itemFinish_ends hr hstart hdone h hs
    refine ⟨fun hl => he.trans (if_pos ?_), fun hp hl => he.trans ((if_neg ?_).trans (apply_ite Host.Outcome.next _ _ _).symm)⟩
    · rcases hl with h | ⟨y, hy, hne, hnd⟩
      · simp [h]
      · simpa using .inl ⟨y, hy, hne, hnd⟩
    · simpa [hp, or_iff_not_imp_left] using hl
  case commit =>
    intro n s r x hw hr hx ended before bad completes answers
    have he := exec_commit hw hr hx
    have hcommit : x.st = .committing → (x.st == .committing) = true := fun h => by simp [h]
    have hrun : x.st = .running → ¬ (x.st == .committing) = true := fun h => by simp [h]
    have hended : (r.tgs.all (fun tg => r.done.contains tg)) = true ↔ ended := by simp [ended]
    have hbefore : (slotsOfQ s x.q).any (fun e => e.2.seq + 1 == x.seq && !e.2.over) = false ↔ before := by
      simp [before]
    refine ⟨fun hst hstop => ?_, fun hst hstart hstop hd hq hb => ?_, fun hst hstop h => ?_, fun hst hc hj => ?_, fun hst hc hj => ?_,
      fun hst hc hq => ?_, fun hst hc hq => ?_⟩
    · replace he := he.trans ((if_neg (by simpa using hst)).trans (if_pos hstop))
      exact ⟨fun hp hd hq => he.trans (congrArg _ (endStopped_quiet hr hstop hp hd hq)), fun h => he.trans (congrArg _ (endStopped_waits hr h))⟩
    · refine he.trans ((if_neg (hrun hst)).trans ((if_neg (by simp [hstop])).trans ((if_neg ?_).trans (if_neg ?_))))
      · simp only [hst, hstart, hended.mpr hd]; decide
      · simp only [hbefore.mpr hb, hq]; decide
    · refine he.trans ((if_neg (hrun hst)).trans ((if_neg (by simp [hstop])).trans ?_))
      by_cases hgo : r.started = true ∧ ended
      · refine (if_neg (by simp only [hst, hgo.1, hended.mpr hgo.2]; decide)).trans (if_pos ?_)
        have hnb : ¬ before ∨ itemQuiet s n.val false = false := by
          rcases h with h | h | h
          · simp [hgo.1] at h
          · exact absurd hgo.2 h
          · exact h
        rcases hnb with h | h
        · simp only [Bool.eq_true_of_not_eq_false (mt hbefore.mp h), Bool.true_or]
        · simp [h]
      · refine if_pos ?_
        have : ¬ (r.started && r.tgs.all (fun tg => r.done.contains tg)) = true := fun hc => by
          rw [Bool.and_eq_true] at hc
          exact hgo ⟨hc.1, hended.mp hc.2⟩
        simpa [hst, imp_iff_not_or] using this
    all_goals replace he := he.trans (if_pos (hcommit hst))
    · exact he.trans (congrArg _ ((if_neg (by simp [hc])).trans (if_pos (by simpa using hj))))
    · replace he := he.trans (congrArg _ ((if_neg (by simp [hc])).trans (if_neg (by simpa using hj))))
      refine ⟨fun h => he.trans (congrArg _ (commitCopies_waits hr hx h)), fun h hq => he.trans (congrArg _ ?_), fun h hq => he.trans (congrArg _ ?_)⟩
      · exact (commitCopies_copies hr hx h).trans (if_neg (Bool.eq_false_iff.mp hq))
      · exact (commitCopies_copies hr hx h).trans (if_pos hq)
    · exact he.trans (congrArg _ ((if_pos hc).trans (if_neg (Bool.eq_false_iff.mp hq))))
    · replace he := he.trans (congrArg _ ((if_pos hc).trans (if_pos hq)))
      exact ⟨fun h0 => he.trans (congrArg _ (finishCommit_noWord h0)), fun h0 hwt => he.trans (congrArg _ (finishCommit_waits rfl h0 hwt)),
        fun h0 hwt => he.trans (congrArg _ (finishCommit_writes rfl h0 hwt))⟩

end Sys2Proof.Machine
end

section
/-! PROOFS. The agents of a Saddle and the Flume lanes (chapters 07, 10, 11): R176 to R179, R238 to R240, R272 to R274, R305 to R310. -/

namespace Sys2Proof.Machine

open Sys2Proof

/-! ## The cutter -/

/-- The job once its header has been read. -/
def begunJob (x : Desc) (h : Header) (accs : List Acc) (j : CutJob) : CutJob :=
  if j.begun then j else { j with begun := true, row := (rowRange x h).1, last := (rowRange x h).1 + (rowRange x h).2, accs }

/-- The terrace whose queue takes a job's next reach. -/
def reachTg (r : Run) (j : CutJob) : Nat := rankTg r ((if r.det then j.chain else j.seq) % max 1 r.tgs.length)

/-- What the cutter does with a reach whose data is there. -/
def placeReach (s : State) (k n : Nat) (r : Run) (b : CutJob) (w : List W64) (b' : CutJob) : State :=
  let p := ctrAdd (updTerrace (noteAccs s (.agent n) (some k) r.allot (b'.accs.drop b.accs.length)) (reachTg r b)
    (fun t => { t with reachQ := t.reachQ ++ [{ slot := k, w }] })) (sBase n + 0x40080) 1
  if b'.last ≤ b'.row then endCut p k n r.allot b' else updRun p k (fun r => { r with cut := some b' })

section Cutter
variable {slot : Fin 65536} {s : State} {r : Run} {j : CutJob} (hr : mget? s.runs slot.val = some r) (hc : r.cut = some j)
include hr hc

theorem exec_cutterPlace_done (h : j.done = true) : exec (.cutterPlace slot) s = .next s := by
  show execCutterPlace slot s = _
  unfold execCutterPlace
  extract_lets k
  rw [show mget? s.runs k = some r from hr]
  dsimp -zeta only
  rw [hc]
  exact if_pos h

/-- The steps of a job that goes on. -/
theorem exec_cutterPlace (h : j.done = false) :
    let k := slot.val
    let n := cutterSaddle r
    let x : Desc := { d := j.desc, aux := 0 }
    let hr := vRead s (.agent n) r.allot x.base 128
    let h := Header.ofBytes (hr.data.map (·.1))
    let b := begunJob x h hr.accs j
    let e := nextReach s n r.allot x h b
    exec (.cutterPlace slot) s =
      if atsMissing hr.accs ≠ [] then .next (atsAsk s (.agent n (some k)) r.allot (atsMissing hr.accs))
      else if hr.data.any (·.2) || h.breaks x then
        .next (itemFault (logStream (noteAccs s (.agent n) (some k) r.allot hr.accs) (some k) r.allot (70 + n) hr.accs) j.tg j.thr j.pc fDESCRIPTOR)
      else if b.last ≤ b.row then .next (endCut s k n r.allot b)
      else if atsMissing e.2.accs ≠ [] then .next (atsAsk s (.agent n (some k)) r.allot (atsMissing e.2.accs))
      else if 256 ≤ (terrace s (reachTg r b)).reachQ.length then .next (satAdd s (sBase n + 0x4008C) 0 0 32 1)
      else .next (placeReach s k n r b e.1 e.2) := by
  intro k n x rd hd b e
  show execCutterPlace slot s = _
  unfold execCutterPlace
  extract_lets
  rw [show mget? s.runs k = some r from hr]
  dsimp -zeta only
  rw [hc]
  dsimp -zeta only
  rw [if_neg (Bool.eq_false_iff.mp h)]
  simp only [placeReach, apply_ite Host.Outcome.next]
  rfl

end Cutter

/-- Settles O31: exec_cutterPlace, case by case. -/
theorem cutterPlacesReaches : Obligations.CutterPlacesReaches := by
  intro slot s r j hrun hc k n waits x hr h
  rcases hrow : rowRange x h with ⟨f, c⟩
  dsimp -zeta only
  intro b
  have hb : b = begunJob x h hr.accs j := by simp only [b, begunJob, hrow]
  rcases he : nextReach s n r.allot x h b with ⟨w, b'⟩
  dsimp -zeta only
  clear_value b
  subst hb
  obtain rfl : (nextReach s n r.allot x h (begunJob x h hr.accs j)).1 = w := congrArg Prod.fst he
  obtain rfl : (nextReach s n r.allot x h (begunJob x h hr.accs j)).2 = b' := congrArg Prod.snd he
  intro tg p
  refine ⟨exec_cutterPlace_done hrun hc, fun hd hm => ?_, fun hd hm => ?_⟩
  · exact (exec_cutterPlace hrun hc hd).trans (if_pos hm)
  · have hx := (exec_cutterPlace hrun hc hd).trans (if_neg (not_not.mpr hm))
    have hbad : (hr.data.any (·.2) || h.breaks x) = true ↔ h.breaks x = true ∨ ∃ y ∈ hr.data, y.2 = true := by
      rw [Bool.or_eq_true, List.any_eq_true, or_comm]
    refine ⟨fun hb => hx.trans (if_pos (hbad.mpr hb)), fun hbr hcl => ?_⟩
    have hgood : ¬ (h.breaks x = true ∨ ∃ y ∈ hr.data, y.2 = true) := by
      rintro (hb | ⟨y, hy, hp⟩)
      · simp [hbr] at hb
      · simp [hcl y hy] at hp
    replace hx := hx.trans (if_neg (mt hbad.mp hgood))
    refine ⟨fun hl => hx.trans (if_pos hl), fun hl hw => ?_, fun hl hw => ?_⟩
    all_goals replace hx := hx.trans (if_neg (not_le.mpr hl))
    · exact hx.trans (if_pos hw)
    · replace hx := hx.trans (if_neg (not_not.mpr hw))
      exact ⟨fun hq => hx.trans (if_pos hq), fun hq => hx.trans (if_neg (not_le.mpr hq))⟩

/-! ## Sump jobs -/

/-- The elements that a bag's row is made of. -/
def bagElems (r : SumpRec) (g : Bag) :=
  g.acc.map (fun (a : W32 × Bool) => (encodeElem r.ofmt (if r.rmode = 1 then .rtz else .rne) r.sat (f32 a.1), a.2 || g.bad))

/-- The write of a bag's row. -/
def bagWrite (s : State) (n : Nat) (j : SumpJob) (r : SumpRec) (g : Bag) (b : Nat) : State × List Acc :=
  vWrite s (.agent n (some j.slot)) j.allot (r.out + b * r.outStride) (packRow (ebits r.ofmt) ((bagElems r g).map (fun e => (e.1.code, e.2))))

/-- What a unit leaves once the row of its bag is written. -/
def bagDone (w : State) (n : Nat) (j : SumpJob) (rest : List SumpJob) (r : SumpRec) (g : Bag) (wa : List Acc) : State :=
  let met := agentNote w n j.slot j.allot (g.accs ++ wa)
  let noted := runPoison (setFlags (sumpPrefetch met n (j.next % 32) j.allot r (bagRange met n j r).1 (bagRange met n j r).2) (some j.slot)
    ((bagElems r g).any (fun e => e.1.ovf)) (g.inv || (bagElems r g).any (fun e => e.1.inv))) j.slot ((bagElems r g).filter (fun e => e.2)).length
  updSaddle (satAdd (satAdd noted (sBase n + 0x30004) 0 0 32 g.pooled) (sBase n + 0x30008) 0 0 32 g.skipped) n
    (fun d => { d with sump := { j with next := j.next + 1, accs := j.accs ++ g.accs ++ wa } :: rest, units := mdel d.units (j.next % 32) })

section Sump
variable {sd : Fin 2} {s : State} {j : SumpJob} {rest : List SumpJob} (hq : (saddle s sd.val).sump = j :: rest)
include hq

theorem exec_sumpBag_none (h : (SumpRec.ofBytes j.record).bagCount ≤ j.next) : exec (.sumpBag sd) s = .next s := by
  show execSumpBag sd s = _
  unfold execSumpBag
  extract_lets n
  rw [show (saddle s n).sump = _ from hq]
  exact if_pos h

theorem exec_sumpBag (h : j.next < (SumpRec.ofBytes j.record).bagCount) :
    let n := sd.val
    let r := SumpRec.ofBytes j.record
    let e := poolBag s n j r
    let w := bagWrite s n j r e.1 e.2
    exec (.sumpBag sd) s =
      if atsMissing e.1.accs ≠ [] then .next (atsAsk (holdBag s n (j.next % 32) e.2) (.agent n (some j.slot)) j.allot (atsMissing e.1.accs))
      else if atsMissing w.2 ≠ [] then .next (atsAsk (holdBag s n (j.next % 32) e.2) (.agent n (some j.slot)) j.allot (atsMissing w.2))
      else .next (bagDone w.1 n j rest r e.1 w.2) := by
  intro n r e w
  show execSumpBag sd s = _
  unfold execSumpBag
  extract_lets
  rw [show (saddle s n).sump = _ from hq]
  exact if_neg (not_le.mpr h)

theorem exec_sumpJobEnd_none (h : j.next < (SumpRec.ofBytes j.record).bagCount) : exec (.sumpJobEnd sd) s = .next s := by
  show execSumpJobEnd sd s = _
  unfold execSumpJobEnd
  extract_lets n
  rw [show (saddle s n).sump = _ from hq]
  exact if_pos h

theorem exec_sumpJobEnd (h : (SumpRec.ofBytes j.record).bagCount ≤ j.next) :
    let r := SumpRec.ofBytes j.record
    exec (.sumpJobEnd sd) s = .next (updRun
      (logStream (updSaddle s sd.val (fun d => { d with sump := rest })) (some j.slot) j.allot (64 + sd.val) j.accs) j.slot
      (fun x => { x with sumps := x.sumps - 1, ss := if r.semaEn then mset x.ss r.sema (mget x.ss r.sema 0 + 1) else x.ss })) := by
  intro r
  show execSumpJobEnd sd s = _
  unfold execSumpJobEnd
  extract_lets n
  rw [show (saddle s n).sump = _ from hq]
  exact if_neg (not_lt.mpr h)

end Sump

/-- Settles O34: exec_sumpBag and exec_sumpJobEnd, case by case. -/
theorem sumpJobsPoolBagByBag : Obligations.SumpJobsPoolBagByBag := by
  intro sd s j rest hq n r
  rcases he : poolBag s n j r with ⟨g, b⟩
  dsimp -zeta only
  obtain rfl : (poolBag s n j r).1 = g := congrArg Prod.fst he
  obtain rfl : (poolBag s n j r).2 = b := congrArg Prod.snd he
  intro es
  generalize hw : vWrite _ _ _ _ _ = e
  obtain ⟨w, wa⟩ := e
  dsimp -zeta only
  have hw' : bagWrite s n j r (poolBag s n j r).1 (poolBag s n j r).2 = (w, wa) := hw
  obtain rfl : (bagWrite s n j r (poolBag s n j r).1 (poolBag s n j r).2).1 = w := congrArg Prod.fst hw'
  obtain rfl : (bagWrite s n j r (poolBag s n j r).1 (poolBag s n j r).2).2 = wa := congrArg Prod.snd hw'
  intro met noted waits
  refine ⟨fun hl => ⟨exec_sumpJobEnd_none hq hl, ?_⟩, fun hl => ⟨exec_sumpBag_none hq hl, exec_sumpJobEnd hq hl⟩⟩
  have hx := exec_sumpBag hq hl
  refine ⟨fun hm => hx.trans (if_pos hm), fun hm hwm => ?_, fun hm hwm => ?_⟩
  all_goals replace hx := hx.trans (if_neg (not_not.mpr hm))
  · exact hx.trans (if_pos hwm)
  · exact hx.trans (if_neg (not_not.mpr hwm))

/-! ## Lanes -/

theorem find?_append_cons {α : Type} {p : α → Bool} {pre post : List α} {x : α} (hpre : ∀ y ∈ pre, p y = false) (hx : p x = true) :
    (pre ++ x :: post).find? p = some x := by
  rw [List.find?_append, List.find?_eq_none.mpr (fun y hy => by simp [hpre y hy]), Option.none_or, List.find?_cons_of_pos hx]

section Lane
variable {lane : Fin 32} {s : State}

theorem exec_flmContextSwitch_none (h : (laneAt s lane.val).ctxs.length < 2) : exec (.flmContextSwitch lane) s = .next s := if_pos h

/-- A lane with two contexts runs the next one. -/
theorem exec_flmContextSwitch {next : Nat} (h : 2 ≤ (laneAt s lane.val).ctxs.length)
    (hn : (match (laneAt s lane.val).ctxs.find? (fun x => decide ((laneAt s lane.val).running < x.tg)) with
      | some x => x.tg
      | none => ((laneAt s lane.val).ctxs.map (fun x => x.tg)).headD 0) = next) :
    exec (.flmContextSwitch lane) s =
      .next { s with lanes := mset s.lanes lane.val { laneAt s lane.val with running := next, used := 0 } } := by
  subst hn
  exact if_neg (not_lt.mpr h)

theorem exec_flmComplete_none (h : ∀ x ∈ (laneAt s lane.val).ctxs, x.tg ≠ (laneAt s lane.val).running) : exec (.flmComplete lane) s = .next s := by
  show execFlmComplete lane s = _
  unfold execFlmComplete
  extract_lets fg l
  rw [List.find?_eq_none.mpr (fun y hy => by simpa using h y hy)]

theorem exec_flmComplete {x : FCtx} (h : (laneAt s lane.val).ctxs.find? (fun x => x.tg = (laneAt s lane.val).running) = some x) :
    exec (.flmComplete lane) s = .next (if x.isAttn then attnComplete s lane.val x (attnAll s x.tg x.cmd) else mergeComplete s lane.val x) := by
  show execFlmComplete lane s = _
  unfold execFlmComplete
  extract_lets fg l
  rw [show l.ctxs.find? (fun x => x.tg = l.running) = some x from h]

end Lane

/-! ## What a read depends on -/

/-- Two states whose memories, translations and arrived data are the same: an access reads the same in both. -/
structure SameReads (s t : State) : Prop extends SameMem s t where
  regs : t.regs = s.regs
  ats : t.ats = s.ats
  got : t.got = s.got
  terraces : t.terraces = s.terraces
  hostHd : ∀ al, hostHd t al = hostHd s al
  stlb : ∀ n, (saddle t n).stlb = (saddle s n).stlb

section
variable {s t : State} (h : SameReads s t)
include h

theorem SameReads.rg (off : Nat) (d : W32) : rg t off d = rg s off d := by simp only [Machine.rg, h.regs]

theorem SameReads.physBad (pa : Nat) : physBad t pa = physBad s pa := by simp only [Machine.physBad, h.tierOf, h.rg]

theorem SameReads.walkFrom (va tbl : Nat) (l : List Level) : walkFrom t va tbl l = walkFrom s va tbl l := by
  induction l generalizing tbl with
  | nil => rfl
  | cons x l ih =>
    have he : ∀ i, tableEntry t tbl i = tableEntry s tbl i := fun i => by simp only [tableEntry, h.dpaRead]
    have hw : ∀ e lsz tsz last, walkEntry t e lsz tsz last = walkEntry s e lsz tsz last := fun e lsz tsz last => by
      simp only [walkEntry, h.physBad, h.guarded]
    rw [Machine.walkFrom, Machine.walkFrom, he, hw]
    simp only [ih]

theorem SameReads.xltOn (al : Nat) : xltOn t al = xltOn s al := by simp only [Machine.xltOn, h.rg]

theorem SameReads.walk (al va : Nat) : walk t al va = walk s al va := by
  simp only [Machine.walk, h.xltOn, xltRoot, h.rg, h.guarded, h.walkFrom]
  rfl

theorem SameReads.findLeaf (w : Who) (al va : Nat) : findLeaf t w al va = findLeaf s w al va := by
  have hc : cachedLeaf t w al va = cachedLeaf s w al va := by
    cases w <;> simp only [cachedLeaf, h.stlb, terrace, h.terraces]
  simp only [Machine.findLeaf, h.xltOn, h.walk, hc]

theorem SameReads.xlate (w : Who) (al va need : Nat) : xlate t w al va need = xlate s w al va need := by
  simp only [Machine.xlate, h.findLeaf, h.tierOf, atsMap, h.rg, h.ats, h.hostHd]

theorem SameReads.vRead (w : Who) (al va k : Nat) : vRead t w al va k = vRead s w al va k := by
  simp only [Machine.vRead, h.xlate, h.tierOf, farErr, h.mirrored, h.farOpen, awaited, h.got, h.dpaRead]
  rfl

theorem SameReads.cisAddr (al : Nat) : cisAddr t al = cisAddr s al := by simp only [Machine.cisAddr, h.rg]

theorem SameReads.inHbm (al va : Nat) : inHbm t al va = inHbm s al va := by simp only [Machine.inHbm, h.findLeaf, h.tierOf]

theorem SameReads.cisAgent (al : Nat) : cisAgent t al = cisAgent s al := by simp only [Machine.cisAgent, h.cisAddr, h.inHbm]

theorem SameReads.cbOf (al : Nat) : cbOf t al = cbOf s al := by
  have hr : cRead t al = cRead s al := by
    funext n va k
    simp only [cRead, h.vRead]
  have hi : Machine.inHbm t al = Machine.inHbm s al := funext (h.inHbm al)
  -- cbOf is opened as a function: opened at an argument, the kernel evaluates the address that it matches on.
  suffices hf : ∀ f, f = Machine.cbOf → f t al = f s al from hf _ rfl
  intro f hf
  delta Machine.cbOf at hf
  subst hf
  beta_reduce
  rw [h.cisAgent, h.cisAddr, hr, hi]

end

/-- A change of a Saddle that leaves its TLB and its stacks alone. -/
theorem updSaddle_sameReads (s : State) (n : Nat) {f : Saddle → Saddle} (h1 : ∀ d, (f d).stlb = d.stlb) (h2 : ∀ d, (f d).hbmStacks = d.hbmStacks) :
    SameReads s (updSaddle s n f) := by
  have hs : ∀ m, (saddle (updSaddle s n f) m).stlb = (saddle s m).stlb ∧ (saddle (updSaddle s n f) m).hbmStacks = (saddle s m).hbmStacks := fun m => by
    by_cases hm : m = n
    · rw [hm, saddle_updSaddle_same]; exact ⟨h1 _, h2 _⟩
    · rw [saddle_updSaddle_other _ _ _ _ hm]; exact ⟨rfl, rfl⟩
  exact { hbm := rfl, hbmPoison := rfl, far := rfl, host := rfl, peer := rfl, guarded := rfl, farPorts := rfl, mir := rfl
          stack := fun k => by unfold stackOf; rw [(hs _).2]
          regs := rfl, ats := rfl, got := rfl, terraces := rfl, hostHd := fun _ => rfl, stlb := fun m => (hs m).1 }

/-! ## Agents -/

theorem cisNotice_first {s : State} {al page n q i : Nat} {pre post : List (Nat × Nat × Nat)} (hn : (saddle s n).cisNotes = pre ++ (al, q, i) :: post)
    (hi : i = page) (hpre : ∀ e ∈ pre, e.1 ≠ al ∨ e.2.2 ≠ page) :
    cisNotice s al page (some n) = cisNoted (updSaddle s n (fun d => { d with cisNotes := pre ++ post, cisOps := d.cisOps + 1 })) q i (cbOf s al) := by
  have htake : takeFirst (fun (e : Nat × Nat × Nat) => e.1 == al && e.2.2 == page) (saddle s n).cisNotes = some ((al, q, i), pre ++ post) := by
    rw [hn]
    refine takeFirst_append (fun y hy => ?_) (by simp [hi])
    rcases hpre y hy with h | h <;> simp [h]
  unfold cisNotice
  dsimp -zeta only
  rw [htake]
  dsimp -zeta only
  extract_lets s1
  have hs1 : SameReads s s1 := updSaddle_sameReads s n (fun _ => rfl) (fun _ => rfl)
  rw [hs1.cbOf]

theorem find?_range_first {n q : Nat} {p : Nat → Bool} (hq : q < n) (hp : p q = true) (hlow : ∀ x, x < q → p x = false) :
    (List.range n).find? p = some q := by
  obtain ⟨k, rfl⟩ : ∃ k, n = q + (k + 1) := ⟨n - q - 1, by omega⟩
  rw [List.range_add, List.range_succ_eq_map, List.map_cons]
  exact find?_append_cons (fun y hy => hlow y (List.mem_range.mp hy)) hp

section Swap
variable {s : State} {al : Nat} {c : Cb}

theorem cisSwap_stopped (h : (saddle s c.n).cisScan.contains al = true ∨ c.bad s ≠ none) : cisSwap s al (some c) = s :=
  if_pos (by
    rcases h with h | h
    · rw [h, Bool.true_or]
    · rw [Option.isSome_iff_ne_none.mpr h, Bool.or_true])

/-- A swap whose step changes nothing waits. -/
def SwapGoes (c : Cb) (s : State) (q : Nat) : Prop := (c.seq s q).phase ≠ 0 ∧ c.swapStep s q ≠ s

/-- The swap-outs that a step has begun for the hold that waits for it. -/
def swapNoted (c : Cb) (s : State) (al q : Nat) (u : State) : State :=
  match (saddle u c.n).cisWait.find? (fun o => o.allot == al && wMin o.cmd.w0 == 2 && sOf o == q) with
  | some o => noteOuts c s u o
  | none => u

section Goes
variable (h1 : (saddle s c.n).cisScan.contains al = false) (h2 : c.bad s = none)
include h1 h2

theorem cisSwap_step {q : Nat} (hq : q < c.nseq) (hg : SwapGoes c s q) (hlow : ∀ x, x < q → ¬ SwapGoes c s x) :
    cisSwap s al (some c) =
      cisRetry (cisOutsOver c (cisFailRoom c s (cisFailHolds c s (swapNoted c s al q (c.swapStep s q)) q) q)) c.n := by
  have hfind : (List.range c.nseq).find? (fun q => (c.seq s q).phase ≠ 0 && c.swapStep s q ≠ s) = some q :=
    find?_range_first hq (by simpa [SwapGoes] using hg) (fun x hx => by simpa [SwapGoes] using hlow x hx)
  refine (if_neg (by rw [h1, h2]; decide)).trans ?_
  rw [hfind]
  rfl

theorem cisSwap_none (hn : ∀ x, x < c.nseq → ¬ SwapGoes c s x) : cisSwap s al (some c) = cisRetry s c.n := by
  have hfind : (List.range c.nseq).find? (fun q => (c.seq s q).phase ≠ 0 && c.swapStep s q ≠ s) = none :=
    List.find?_eq_none.mpr (fun x hx => by simpa [SwapGoes] using hn x (List.mem_range.mp hx))
  refine (if_neg (by rw [h1, h2]; decide)).trans ?_
  rw [hfind]

end Goes

end Swap

theorem exec_cisResumeScan {al : Fin 1024} {s : State} {n : Fin 2} (h : (saddle s n.val).cisScan.contains al.val = true)
    (h0 : n.val = 1 → (saddle s 0).cisScan.contains al.val = false) :
    exec (.cisResumeScan al) s =
      if scanWaits (cisScanned s (cbOf s al.val)) (cbOf (cisScanned s (cbOf s al.val)) al.val) then .next (cisScanned s (cbOf s al.val))
      else .next (cisRetry (updSaddle (cisScanned s (cbOf s al.val)) n.val (fun d => { d with cisScan := setDel d.cisScan al.val })) n.val) := by
  have hfind : (List.range 2).find? (fun n => (saddle s n).cisScan.contains al.val) = some n.val :=
    find?_range_first n.isLt h (fun x hx => by
      obtain ⟨rfl, h1⟩ : x = 0 ∧ n.val = 1 := by omega
      exact h0 h1)
  show execCisResumeScan al s = _
  unfold execCisResumeScan
  rw [hfind]

/-- Settles O35: the lanes and the agents, by the lemmas of their events. -/
theorem lanesAndCisternAgents : Obligations.LanesAndCisternAgents := by
  refine ⟨?lanes, ?agents⟩
  case lanes =>
    intro lane s l rot
    refine ⟨exec_flmContextSwitch_none, fun pre x post hl h2 hpre hx => ?_, fun x rest hl hr hle => ?_, exec_flmComplete_none,
      fun pre x post hl hx hpre => ?_⟩
    · refine exec_flmContextSwitch h2 ?_
      rw [show (laneAt s lane.val).ctxs = _ from hl, find?_append_cons (fun y hy => by simpa using hpre y hy) (by simpa using hx)]
    · have h2 : 2 ≤ l.ctxs.length := by
        rw [hl, List.length_cons]
        have := List.length_pos_of_ne_nil hr
        omega
      refine exec_flmContextSwitch h2 ?_
      rw [List.find?_eq_none.mpr (fun y hy => by simpa using hle y hy), show (laneAt s lane.val).ctxs = _ from hl]
      rfl
    · intro al r p lack asks
      have hfind : l.ctxs.find? (fun x => x.tg = l.running) = some x := by
        rw [hl]
        exact find?_append_cons (fun y hy => by simpa using hpre y hy) (by simpa using hx)
      have he := exec_flmComplete hfind
      refine ⟨fun ha => ⟨fun hm => ?_, fun hm => ?_⟩, fun ha => ⟨fun hw => ?_, fun hw hm => ?_, fun hw hm => ?_⟩⟩
      · exact he.trans (congrArg _ ((if_neg (by simp [ha])).trans (if_pos hm)))
      · exact he.trans (congrArg _ ((if_neg (by simp [ha])).trans (if_neg (not_not.mpr hm))))
      · exact he.trans (congrArg _ ((if_pos ha).trans (if_pos hw)))
      · exact he.trans (congrArg _ ((if_pos ha).trans ((if_neg (Bool.eq_false_iff.mp hw)).trans (if_pos hm))))
      · exact he.trans (congrArg _ ((if_pos ha).trans ((if_neg (Bool.eq_false_iff.mp hw)).trans (if_neg (not_not.mpr hm)))))
  case agents =>
    intro al page s
    refine ⟨fun n pre q i post ha hn hi hpre => ?notice, fun c hc => ?swap, fun n h h0 => ?scan⟩
    case notice =>
      have he : exec (.cisReadNotice al page) s = .next (cisNotice s al.val page (cisAgent s al.val)) := rfl
      rw [he, ha]
      exact congrArg _ (cisNotice_first hn hi hpre)
    case swap =>
      intro goes noted
      have he : exec (.cisSwapStep al) s = .next (cisSwap s al.val (some c)) := by rw [← hc]; rfl
      exact ⟨fun h => he.trans (congrArg _ (cisSwap_stopped h)), fun h1 h2 =>
        ⟨fun q hq hg hlow => he.trans (congrArg _ (cisSwap_step h1 h2 hq hg hlow)), fun hn => he.trans (congrArg _ (cisSwap_none h1 h2 hn))⟩⟩
    case scan =>
      intro u
      have he := exec_cisResumeScan h h0
      exact ⟨fun hw => he.trans (if_pos hw), fun hw => he.trans (if_neg (Bool.eq_false_iff.mp hw))⟩

end Sys2Proof.Machine
end

section
/-! PROOFS. Saddles, stacks and far ports (chapter 11): R281, R293 to R301, R314 to R316, R333, R334. -/

namespace Sys2Proof.Machine

open Sys2Proof

/-! ## A write across tiers -/

/-- A write of whole sectors at address 0 ends with the write of its last sector. -/
theorem dpaWrite_lastSector (s : State) (b : PByte) (k : Nat) :
    dpaWrite s 0 (List.replicate (32 * (k + 1)) b) = dpaWriteSector
      ((List.range k).foldl (fun s i => dpaWriteSector s (32 * i) (List.replicate 32 b)) s) (32 * k) (List.replicate 32 b) := by
  have hparts : sectorParts 0 (32 * (k + 1)) = (List.range (k + 1)).map (fun i => (32 * i, 32)) := by
    unfold sectorParts
    have hlast : (0 + 32 * (k + 1) - 1) / 32 - 0 / 32 + 1 = k + 1 := by omega
    rw [if_neg (by omega)]
    dsimp only
    rw [hlast]
    refine List.map_congr_left (fun i hi => ?_)
    have := List.mem_range.mp hi
    simp only [Prod.mk.injEq]
    omega
  have hsec : ∀ i, i < k + 1 → ((List.replicate (32 * (k + 1)) b).drop (32 * i)).take 32 = List.replicate 32 b := fun i hi => by
    rw [List.drop_replicate, List.take_replicate, min_eq_left (by omega)]
  unfold dpaWrite
  rw [List.length_replicate, hparts, List.foldl_map, List.range_succ, List.foldl_append, List.foldl_cons, List.foldl_nil, hsec k (by omega), Nat.zero_add]
  congr 1
  refine List.foldl_ext _ _ _ (fun t i hi => ?_)
  rw [hsec i (by have := List.mem_range.mp hi; omega), Nat.zero_add]

/-- Host memory takes a sector that is written in the host window. -/
theorem host_dpaWriteSector_get (s : State) (b : Byte) : (dpaWriteSector s hostBase (List.replicate 32 (b, false))).host.get 0 = b := by
  have ht : tierOf s hostBase = .host := by
    have hcap : hbmCap s.guarded ≤ 576 * 2 ^ 30 := by unfold hbmCap; split <;> omega
    unfold tierOf
    rw [if_neg (by unfold hostBase; omega), if_neg (by decide), if_pos (by decide)]
  unfold dpaWriteSector
  rw [ht]
  dsimp only
  rw [Mem.get_writeSector]
  simp

/-- A write at a Saddle leaves host memory as the write of its bytes does. -/
theorem serveWrite_host (s : State) (r : MemReq) (bs : List Byte) (bad : Bool) : (serveWrite s r bs bad).host =
    (dpaWrite (farNote s r bs.length) r.addr.toNat (bs.map (fun (b : Byte) => ((b, bad) : PByte)))).host := by
  unfold serveWrite
  rw [(saddlePass_passOnly _ (pathOf s r) r.addr.toNat bs.length true).1]

theorem exec_saddleWrite_serves {s : State} {r : MemReq} {bs : List Byte} {bad : Bool} (h1 : saddleServes s r.addr.toNat = true)
    (h2 : requestWaits s r bs.length true = false) : exec (.saddleWrite r bs bad) s = .next (serveWrite s r bs bad) := by
  show execSaddleWrite r bs bad s = _
  rw [execSaddleWrite, if_neg (by simp [h1]), if_neg (by simp [h2])]

/-- A write of BAR4 at address 0. -/
def bar4AtZero : MemReq := { addr := 0, len := 0, src := .bar4, allot := 0, resv := none }

theorem requestWaits_reset (n : Nat) : requestWaits {} bar4AtZero n true = false := by
  have hports : ∀ l, portsOpen {} l = true := fun l => List.all_eq_true.mpr (fun e _ => by
    have hoff : weirEn weirReset = false := by decide
    rw [portOpen, show rg {} (sBase e.1 + 0x70000 + 8 * e.2.1) weirReset = weirReset from rfl, hoff]
    rfl)
  have hm : mustWait {} (pathOf {} bar4AtZero) bar4AtZero.addr.toNat n true = false := by
    rw [mustWait, hports, Bool.not_true, Bool.and_false]
  unfold requestWaits
  rw [hm]
  rfl

/-- Refutes O36: the bytes that a write command carries may run from HBM through every tier into the host window. In a block that nothing was written
to, the write of 2^55 + 32 bytes of 1 at address 0 changes the first byte of host memory, where the statement says that host memory is as before. -/
theorem not_saddlesServeMemory : ¬ Obligations.SaddlesServeMemory := by
  rintro ⟨⟨-, -, hwrite, -⟩, -⟩
  obtain ⟨k, hk⟩ : ∃ k, 32 * k = hostBase := ⟨2 ^ 50, by decide⟩
  let bs : List Byte := List.replicate (32 * (k + 1)) 1
  obtain ⟨u, hu, -, -, -, hhost, -⟩ := (hwrite bar4AtZero bs false {} (by decide)).2 (requestWaits_reset _)
  have hexec : exec (.saddleWrite bar4AtZero bs false) {} = .next (serveWrite {} bar4AtZero bs false) :=
    exec_saddleWrite_serves (by decide) (requestWaits_reset bs.length)
  obtain rfl : serveWrite {} bar4AtZero bs false = u := Host.Outcome.next.inj (hexec.symm.trans hu)
  have hget : (serveWrite {} bar4AtZero bs false).host.get 0 = 1 := by
    rw [serveWrite_host, show bs.map (fun (b : Byte) => ((b, false) : PByte)) = List.replicate (32 * (k + 1)) (1, false) from List.map_replicate]
    rw [show bar4AtZero.addr.toNat = 0 from rfl, dpaWrite_lastSector, hk]
    exact host_dpaWriteSector_get _ _
  rw [hhost] at hget
  exact absurd hget (by decide)

end Sys2Proof.Machine
end

section
/-! PROOFS. Stopped work and the module's mode, as the memories see them; stacks that fail and heat, and far ports that fail and are resilvered
(R295, R298, R313 to R316). -/

namespace Sys2Proof.Machine

open Sys2Proof

/-! ## What stopping leaves -/

section Stopped
variable {s t u : State}

theorem logXlt_sameMem (s : State) (slot : Option Nat) (x : XRec) : SameMem s (logXlt s slot x) := by
  unfold logXlt
  extract_lets s1 s2 s3
  have h1 : SameMem s s1 := (satAdd_logOnly _ _ _ _ _).sameMem
  have h2 : SameMem s1 s2 := ⟨rfl, rfl, rfl, rfl, rfl, rfl, rfl, rfl, fun _ => rfl⟩
  have h3 : SameMem s1 s3 := by
    simp only [s3]
    split
    · split
      · exact h2.trans (intCause_logOnly _).sameMem
      · exact h2
    · split
      · exact .refl _
      · exact ((setRg_logOnly _ _).trans (intCause_logOnly _)).sameMem
  cases slot with
  | none => exact h1.trans h3
  | some k => exact (h1.trans h3).trans ((updRun_sameMem _ _ _).trans (updRun_sameMem _ _ _))

theorem logStream_sameMem (s : State) (slot : Option Nat) (al src : Nat) (l : List Acc) : SameMem s (logStream s slot al src l) :=
  .foldl (fun t x => logXlt_sameMem t slot x) _ s

theorem logStopped_sameMem (s : State) (k : Nat) (r : Run) : SameMem s (logStopped s k r) := by
  unfold logStopped
  extract_lets s1 s2
  have h1 : SameMem s s1 := .foldl (fun t tg => .foldl (fun u e => logStream_sameMem u _ _ _ _) _ t) _ s
  have h2 : SameMem s1 s2 := .foldl (fun t e => .foldl (fun u j => logStream_sameMem u _ _ _ _) _ t) _ s1
  split
  · exact (h1.trans h2).trans (logStream_sameMem _ _ _ _ _)
  · exact h1.trans h2

theorem discardReaches_sameMem (s : State) (k : Nat) : SameMem s (discardReaches s k) := by
  unfold discardReaches
  split
  · exact .refl s
  · refine SameMem.trans (.foldl (fun t tg => ?_) _ s) (updRun_sameMem _ _ _)
    dsimp only
    split
    · exact .refl t
    · exact (updTerrace_sameMem t tg _).trans (satAdd_logOnly _ _ _ _ _).sameMem

/-- An entry of a map after every value went through f. -/
theorem mget?_map_val {α : Type} (m : Map α) (f : α → α) (n : Nat) : mget? (m.map (fun e => (e.1, f e.2))) n = (mget? m n).map f := by
  induction m with
  | nil => rfl
  | cons e m ih =>
    simp only [List.map_cons, mget?]
    split
    · rfl
    · exact ih

theorem stackOf_map_saddles (s : State) (f : Saddle → Saddle) (hf : ∀ d, (f d).hbmStacks = d.hbmStacks) (k : Nat) :
    stackOf { s with saddles := s.saddles.map (fun e => (e.1, f e.2)) } k = stackOf s k := by
  unfold stackOf saddle mget
  rw [mget?_map_val]
  cases mget? s.saddles (k / 6) with
  | none => rfl
  | some d => rw [Option.map_some, Option.getD_some, hf]; rfl

theorem stopItem_sameMem (s : State) (k : Nat) : SameMem s (stopItem s k) := by
  unfold stopItem
  split
  · exact .refl s
  · extract_lets s1 s2
    have h1 : SameMem s s1 := ((logStopped_sameMem s k _).trans (discardReaches_sameMem _ k)).trans (.foldl (fun t tg => updTerrace_sameMem t tg _) _ _)
    have h2 : SameMem s1 s2 := ⟨rfl, rfl, rfl, rfl, rfl, rfl, rfl, rfl, fun j => stackOf_map_saddles s1 (fun d => { d with
      sump := d.sump.filter (fun j => j.slot ≠ k)
      units := if (d.sump.head?).any (fun j => j.slot = k) then [] else d.units
      cisWait := d.cisWait.filter (fun o => !(Run.tgs _).contains o.tg) }) (fun _ => rfl) j⟩
    exact (h1.trans h2).trans (updRun_sameMem _ _ _)

theorem dropRuns_sameMem (s : State) : SameMem s (dropRuns s) := by
  unfold dropRuns
  extract_lets s1
  have h1 : SameMem s s1 := .foldl stopItem_sameMem _ s
  exact h1.trans ⟨rfl, rfl, rfl, rfl, rfl, rfl, rfl, rfl, fun _ => rfl⟩

/-- Entering a state sets the mode; else at most the cause, the test access ports and the debug mode of the arrays change. -/
theorem setMode_frame (s : State) (m : Mode) : ∃ tm ts, setMode s m = { s with
    mode := m, regs := (setMode s m).regs, intPend := (setMode s m).intPend, taps := ts, terraces := tm } := by
  have hcause : ∀ (t : State) c, intCause t c = { t with regs := (intCause t c).regs, intPend := (intCause t c).intPend } := fun t c => by
    unfold intCause
    extract_lets rose t'
    split
    · rfl
    · rfl
  unfold setMode
  split
  next h => exact ⟨s.terraces, s.taps, by rw [← h]⟩
  next =>
    split
    · exact ⟨_, _, by rw [hcause]⟩
    · exact ⟨s.terraces, s.taps, by rw [hcause]⟩

theorem setMode_sameMem (s : State) (m : Mode) : SameMem s (setMode s m) := by
  obtain ⟨tm, ts, h⟩ := setMode_frame s m
  exact ⟨by rw [h], by rw [h], by rw [h], by rw [h], by rw [h], by rw [h], by rw [h], by rw [h], fun k => by rw [h]; rfl⟩

/-- Entering Faulted: the mode and the reason, no reset, and the memories as they were. -/
theorem enterFaulted_effect (s : State) (r : Nat) : (enterFaulted s r).mode = .faulted ∧ (enterFaulted s r).freason = r ∧
    (enterFaulted s r).resetting = none ∧ SameMem s (enterFaulted s r) := by
  obtain ⟨tm, ts, h⟩ := setMode_frame { dropRuns s with freason := r, resetting := none } .faulted
  have hf : enterFaulted s r = _ := h
  have hm : SameMem s { dropRuns s with freason := r, resetting := none } :=
    (dropRuns_sameMem s).trans ⟨rfl, rfl, rfl, rfl, rfl, rfl, rfl, rfl, fun _ => rfl⟩
  exact ⟨by rw [hf], by rw [hf], by rw [hf], hm.trans (setMode_sameMem _ _)⟩

/-- Noting that a group's figures fell changes nothing but that a recomputation is due. -/
theorem noteDeliv_frame (before s : State) (g c : Nat) : noteDeliv before s g c = { s with rsvDue := (noteDeliv before s g c).rsvDue } := by
  unfold noteDeliv
  split
  · rfl
  · rfl

end Stopped

/-! ## Stacks -/

/-- A stack read after its Saddle's entry was written. -/
theorem stackOf_updSaddle_same (s : State) (k : Nat) (f : Saddle → Stack) :
    stackOf (updSaddle s (k / 6) (fun d => { d with hbmStacks := mset d.hbmStacks (k % 6) (f d) })) k = f (saddle s (k / 6)) := by
  rw [stackOf, saddle_updSaddle_same, mget_mset_same]

/-- Settles the stacks' half of O37: a failed stack, and a report of a temperature. -/
theorem stacks_fail_and_heat (k : Fin 12) (s : State) :
    let old := stackOf s k.val
    let failed := updSaddle s (k.val / 6) (fun d => { d with hbmStacks := mset d.hbmStacks (k.val % 6) { old with failed := true } })
    (∀ c : Fin 3, (old.failed = true → exec (.hbmStackFail k c) s = .next s) ∧
      (old.failed = false → groupState failed (k.val / 6) ≠ 2 → exec (.hbmStackFail k c) s =
        .next (noteDeliv s (intCause (rasAppend failed 0x23 2 5 k.val none c.val) 6) (k.val / 6) 0)) ∧
      (old.failed = false → groupState failed (k.val / 6) = 2 → ∃ u, exec (.hbmStackFail k c) s = .next u ∧ u.mode = .faulted ∧
        u.freason = (if s.guarded then 1 else 2) ∧ u.resetting = none ∧ (stackOf u k.val).failed = true ∧ u.hbm = s.hbm)) ∧
    (∀ t, ∃ u, exec (.hbmTempReport k t) s = .next u ∧ u.hbm = s.hbm ∧ u.terraces = s.terraces ∧
      (stackStage old.stage t ≠ .critical ∨ old.stage = .critical → u = noteDeliv s
        (updSaddle s (k.val / 6) (fun d => { d with
          hbmStacks := mset d.hbmStacks (k.val % 6) { old with temp := min 255 t, stage := stackStage old.stage t } })) (k.val / 6) 1) ∧
      stackOf u k.val = { old with temp := min 255 t, stage := stackStage old.stage t }) := by
  intro old failed
  refine ⟨fun c => ?_, fun t => ?_⟩
  · have he : exec (.hbmStackFail k c) s = .next (failStack s k.val c.val) := rfl
    have hfailed : updSaddle s (k.val / 6) (fun d => { d with
        hbmStacks := mupd d.hbmStacks (k.val % 6) {} (fun x => { x with failed := true }) }) = failed := rfl
    refine ⟨fun h => by rw [he, failStack, if_pos h], fun h hg => ?_, fun h hg => ?_⟩
    · rw [he, failStack, if_neg (Bool.eq_false_iff.mp h)]
      dsimp only
      rw [hfailed, if_neg hg]
    · rw [he, failStack, if_neg (Bool.eq_false_iff.mp h)]
      dsimp only
      rw [hfailed, if_pos hg]
      have hlog : LogOnly failed (intCause (rasAppend failed 0x24 3 5 k.val none c.val) 6) :=
        (rasAppend_logOnly _ _ _ _ _ _).trans (intCause_logOnly _)
      generalize intCause (rasAppend failed 0x24 3 5 k.val none c.val) 6 = logged at hlog
      obtain ⟨h1, h2, h3, h4⟩ := enterFaulted_effect logged (if s.guarded then 1 else 2)
      have hm := hlog.sameMem.trans h4
      generalize enterFaulted logged (if s.guarded then 1 else 2) = e at h1 h2 h3 hm
      refine ⟨_, rfl, ?_, ?_, ?_, ?_, ?_⟩
      · rw [noteDeliv_frame]; exact h1
      · rw [noteDeliv_frame]; exact h2
      · rw [noteDeliv_frame]; exact h3
      · rw [noteDeliv_frame]
        show (stackOf e k.val).failed = true
        rw [hm.stack, show stackOf failed k.val = _ from stackOf_updSaddle_same s k.val _]
      · rw [noteDeliv_frame]
        exact hm.hbm
  · let heated := updSaddle s (k.val / 6) (fun d => { d with
      hbmStacks := mset d.hbmStacks (k.val % 6) { old with temp := min 255 t, stage := stackStage old.stage t } })
    let warned := if stackStage old.stage t = .critical && old.stage ≠ .critical then
      exEvent (satAdd heated 0x15001C 0 0 16 1) [0x1001, k.val, t] else heated
    have hlog : LogOnly heated warned := .ite ((satAdd_logOnly _ _ _ _ _).trans (exEvent_logOnly _)) (.refl _)
    refine ⟨noteDeliv s warned (k.val / 6) 1, rfl, ?_, ?_, fun hst => ?_, ?_⟩
    · rw [noteDeliv_frame]
      exact hlog.sameMem.hbm
    · rw [noteDeliv_frame]
      show warned.terraces = _
      rw [hlog]
      rfl
    · have hno : ¬ ((decide (stackStage old.stage t = .critical) && decide (old.stage ≠ .critical)) = true) := by
        rcases hst with h | h
        · simp [h]
        · simp [h]
      rw [show warned = heated from if_neg hno]
    · rw [noteDeliv_frame]
      show stackOf warned k.val = _
      rw [hlog.sameMem.stack]
      exact stackOf_updSaddle_same s k.val _

/-! ## Far ports -/

theorem farPort_mset (s : State) (p q : Nat) (f : FarPort) :
    farPort { s with farPorts := mset s.farPorts p f } q = if q = p then f else farPort s q := by
  unfold farPort
  split
  next h => rw [h]; exact mget_mset_same _ _ _ _
  next h => exact mget_mset_other _ _ _ _ _ h

/-- Setting the state of a far port: that port's state, and the cause of the change. -/
theorem setFarState_effect (s : State) (p st : Nat) : farPort (setFarState s p st) p = { farPort s p with state := st } ∧
    (∀ q, q ≠ p → farPort (setFarState s p st) q = farPort s q) ∧ (setFarState s p st).far = s.far := by
  unfold setFarState
  split
  next h => exact ⟨by rw [← h], fun _ _ => rfl, rfl⟩
  next =>
    let changed : State := { s with farPorts := mset s.farPorts p { farPort s p with state := st } }
    have hlog : LogOnly changed (intCause changed 8) := intCause_logOnly 8
    have hport : ∀ q, farPort (intCause changed 8) q = if q = p then { farPort s p with state := st } else farPort s q := fun q => by
      rw [← farPort_mset, farPort, hlog]; rfl
    exact ⟨by rw [hport, if_pos rfl], fun q hq => by rw [hport, if_neg hq], by rw [hlog]⟩

/-- A far port that fails: Failed, and no other port and no byte changes. -/
theorem failFar_effect {s : State} {p : Nat} (b : Bool) (h0 : (farPort s p).state ≠ 0) (h4 : (farPort s p).state ≠ 4) :
    farPort (failFar s p b) p = { farPort s p with state := 4 } ∧ (∀ q, q ≠ p → farPort (failFar s p b) q = farPort s q) ∧
    (failFar s p b).far = s.far := by
  obtain ⟨h1, h2, h3⟩ := setFarState_effect s p 4
  unfold failFar
  rw [if_neg (by simp [h0, h4])]
  extract_lets fell failed
  have hlog : LogOnly (setFarState s p 4) failed := rasAppend_logOnly _ _ _ _ _ _
  have hport : ∀ q, farPort failed q = farPort (setFarState s p 4) q := fun q => by rw [farPort, hlog]; rfl
  have hfar : failed.far = (setFarState s p 4).far := by rw [hlog]
  split
  · exact ⟨(hport p).trans h1, fun q hq => (hport q).trans (h2 q hq), hfar.trans h3⟩
  · exact ⟨(hport p).trans h1, fun q hq => (hport q).trans (h2 q hq), hfar.trans h3⟩

/-! ## The copy of a mirrored range -/

theorem cellGet_filter (l : List Host.Cell) (q : Nat → Bool) (a : Nat) :
    cellGet (l.filter (fun c => q c.1)) a = if q a then cellGet l a else 0 := by
  induction l with
  | nil => simp [cellGet]
  | cons c l ih =>
    by_cases hq : q c.1
    · rw [List.filter_cons_of_pos (p := fun c : Host.Cell => q c.1) hq, cellGet, cellGet, ih]
      by_cases hc : c.1 = a
      · rw [if_pos hc, if_pos hc, if_pos (hc ▸ hq)]
      · rw [if_neg hc, if_neg hc]
    · rw [List.filter_cons_of_neg (p := fun c : Host.Cell => q c.1) hq, ih, cellGet]
      by_cases hc : c.1 = a
      · rw [if_neg (hc ▸ hq), if_neg (hc ▸ hq)]
      · rw [if_neg hc]

theorem Mem.get_scrub (m : Mem) (lo hi a : Nat) : (m.scrub lo hi).get a = if lo ≤ a ∧ a < hi then 0 else m.get a := by
  have h := cellGet_filter m.cells (fun a => decide (a < lo) || decide (hi ≤ a)) a
  refine h.trans ?_
  by_cases hr : lo ≤ a ∧ a < hi
  · rw [if_pos hr, if_neg (by simp; omega)]
  · rw [if_neg hr, if_pos (by simp; omega)]
    rfl

/-- Cells with distinct addresses put at an offset: what an address then reads. -/
theorem get_foldl_put (l : List Host.Cell) (g : Nat → Nat) (m : Mem) (hinj : ∀ c ∈ l, ∀ d ∈ l, g c.1 = g d.1 → c.1 = d.1)
    (hnd : (l.map (·.1)).Nodup) (a : Nat) :
    (l.foldl (fun (f : Mem) c => f.put (g c.1) c.2) m).get a =
      match l.find? (fun c => decide (g c.1 = a)) with
      | some c => c.2
      | none => m.get a := by
  induction l generalizing m with
  | nil => rfl
  | cons c l ih =>
    rw [List.map_cons, List.nodup_cons] at hnd
    have hl := ih (m.put (g c.1) c.2) (fun x hx y hy => hinj x (List.mem_cons_of_mem _ hx) y (List.mem_cons_of_mem _ hy)) hnd.2
    rw [List.foldl_cons, hl]
    by_cases hc : g c.1 = a
    · have hno : l.find? (fun c => decide (g c.1 = a)) = none := by
        refine List.find?_eq_none.mpr fun d hd h => ?_
        have heq := hinj c List.mem_cons_self d (List.mem_cons_of_mem _ hd) (hc.trans (of_decide_eq_true h).symm)
        exact hnd.1 (heq ▸ List.mem_map_of_mem hd)
      rw [hno, List.find?_cons_of_pos (by simpa using hc)]
      rw [← hc]
      exact Mem.get_put_same _ _ _
    · rw [List.find?_cons_of_neg (by simpa using hc)]
      cases l.find? (fun c => decide (g c.1 = a)) with
      | none => exact Mem.get_put_other _ _ _ _ (Ne.symm hc)
      | some d => rfl

/-- The cell of an address in a list of cells with distinct addresses. -/
theorem find?_cell (l : List Host.Cell) (q : Nat → Bool) (x y : Nat) (g : Nat → Nat) (hq : q y = true) (hg : ∀ c ∈ l, q c.1 = true → (g c.1 = x ↔ c.1 = y)) :
    (match (l.filter (fun c => q c.1)).find? (fun c => decide (g c.1 = x)) with
      | some c => c.2
      | none => 0) = cellGet l y := by
  induction l with
  | nil => rfl
  | cons c l ih =>
    have hl := ih (fun d hd => hg d (List.mem_cons_of_mem _ hd))
    by_cases hc : c.1 = y
    · have hqc : q c.1 = true := hc ▸ hq
      rw [List.filter_cons_of_pos (p := fun c : Host.Cell => q c.1) hqc, List.find?_cons_of_pos (by simpa using (hg c List.mem_cons_self hqc).mpr hc), cellGet, if_pos hc]
    · rw [cellGet, if_neg hc, ← hl]
      by_cases hqc : q c.1 = true
      · rw [List.filter_cons_of_pos (p := fun c : Host.Cell => q c.1) hqc, List.find?_cons_of_neg (by simpa using fun h => hc ((hg c List.mem_cons_self hqc).mp h))]
      · rw [List.filter_cons_of_neg (p := fun c : Host.Cell => q c.1) hqc]

theorem rising_nodup {l : List Nat} (h : rising l = true) : l.Nodup := by
  induction l with
  | nil => exact List.nodup_nil
  | cons a l ih =>
    obtain ⟨h1, h2⟩ := (rising_cons a l).mp h
    exact List.nodup_cons.mpr ⟨fun ha => absurd (h1 a ha) (Nat.lt_irrefl a), ih h2⟩

/-- The cells of [src, src + n) put at dst over a scrubbed range there. -/
theorem get_moved {m : Mem} (hm : m.wf = true) (src dst n x : Nat) :
    ((m.cells.filter (fun c => decide (src ≤ c.1) && decide (c.1 < src + n))).foldl (fun (f : Mem) c => f.put (dst + (c.1 - src)) c.2)
      (m.scrub dst (dst + n))).get x = if dst ≤ x ∧ x < dst + n then m.get (src + (x - dst)) else m.get x := by
  have hin : ∀ c ∈ m.cells.filter (fun c => decide (src ≤ c.1) && decide (c.1 < src + n)), src ≤ c.1 ∧ c.1 < src + n := fun c hc => by
    simpa using (List.mem_filter.mp hc).2
  have hnd : ((m.cells.filter (fun c => decide (src ≤ c.1) && decide (c.1 < src + n))).map (·.1)).Nodup :=
    (rising_nodup (m.wf_iff.mp hm).1).sublist (List.filter_sublist.map _)
  rw [get_foldl_put _ (fun a => dst + (a - src)) _ (fun c hc d hd h => by have := hin c hc; have := hin d hd; omega) hnd x, Mem.get_scrub]
  by_cases h : dst ≤ x ∧ x < dst + n
  · rw [if_pos h, if_pos h]
    exact find?_cell m.cells (fun a => decide (src ≤ a) && decide (a < src + n)) x (src + (x - dst)) (fun a => dst + (a - src))
      (by simp only [Bool.and_eq_true, decide_eq_true_eq]; omega) (fun c _ hc => by simp only [Bool.and_eq_true, decide_eq_true_eq] at hc; omega)
  · rw [if_neg h, if_neg h]
    rw [List.find?_eq_none.mpr fun c hc he => h (by have := hin c hc; have := of_decide_eq_true he; omega)]

theorem mirrored_iff (s : State) (p off : Nat) : mirrored s p off = true ↔ bit (mget s.mir (p % 4) 0) 31 = true ∧
    fld (mget s.mir (p % 4) 0) 0 12 * 2 ^ 30 ≤ off ∧ off < (fld (mget s.mir (p % 4) 0) 0 12 + fld (mget s.mir (p % 4) 0) 12 12) * 2 ^ 30 := by
  simp only [mirrored, Bool.and_eq_true, decide_eq_true_eq, and_assoc]

/-- A resilvered range reads as its partner's, and the rest of the far tier as before. -/
theorem get_resilver {s : State} (hs : s.far.wf = true) (p : Fin 8) (x : Nat) :
    (resilver s p.val).far.get x = if mirrored s p.val (x - (farBase + p.val * 0x20000000000)) ∧ farBase + p.val * 0x20000000000 ≤ x ∧
        x < farBase + (p.val + 1) * 0x20000000000
      then s.far.get (farBase + (p.val + 4) % 8 * 0x20000000000 + (x - (farBase + p.val * 0x20000000000))) else s.far.get x := by
  have hmir := mirrored_iff s p.val (x - (farBase + p.val * 0x20000000000))
  unfold resilver
  extract_lets m lo hi base src dst
  by_cases hb : bit m 31 = true
  swap
  · rw [if_pos (by simpa using hb), if_neg (fun h => hb (hmir.mp h.1).1)]
  rw [if_neg (by simpa using hb)]
  refine (get_moved hs src dst (hi - lo) x).trans ?_
  have hlo : lo = fld m 0 12 * 2 ^ 30 := rfl
  have hhi : hi = min 0x20000000000 (lo + fld m 12 12 * 2 ^ 30) := rfl
  have hdst : dst = farBase + p.val * 0x20000000000 + lo := rfl
  have hsrc : src = farBase + (p.val + 4) % 8 * 0x20000000000 + lo := rfl
  replace hmir := hmir.trans (and_iff_right hb)
  change _ ↔ fld m 0 12 * 2 ^ 30 ≤ _ ∧ _ < (fld m 0 12 + fld m 12 12) * 2 ^ 30 at hmir
  generalize mirrored s p.val (x - (farBase + p.val * 0x20000000000)) = mir at hmir ⊢
  generalize farBase = fb at *
  generalize fld m 0 12 = a at *
  generalize fld m 12 12 = b at *
  clear_value lo hi dst src
  by_cases hr : dst ≤ x ∧ x < dst + (hi - lo)
  · rw [if_pos hr, if_pos (by rw [hmir]; omega)]
    congr 1
    omega
  · rw [if_neg hr, if_neg (by rw [hmir]; omega)]

/-- The ports after a resilver, and that its state is set last. -/
theorem farResilverDone_effect (p : Fin 8) (s : State) (h5 : (farPort s p.val).state = 5) :
    exec (.farResilverDone p) s =
      .next (setFarState (resilver s p.val) p.val (if (farPort s p.val).width = 16 ∧ (farPort s p.val).rate = 0 then 2 else 3)) := by
  show execFarResilverDone p s = _
  unfold execFarResilverDone
  extract_lets q f
  rw [if_neg (not_not.mpr h5)]
  simp only [Bool.and_eq_true, decide_eq_true_eq]
  rfl

theorem farPort_resilver (s : State) (p q : Nat) : farPort (resilver s p) q = farPort s q := by
  unfold resilver
  extract_lets m lo hi base src dst
  split
  · rfl
  · rfl

/-- Settles O37. -/
theorem stacksAndFarPorts : Obligations.StacksAndFarPorts := by
  refine ⟨fun k s => ?_, fun p s => ?_⟩
  · intro old failed
    obtain ⟨hfail, hheat⟩ := stacks_fail_and_heat k s
    refine ⟨hfail, fun t hst => ?_, fun t => ?_, by decide, by decide, by decide, by decide, by decide, by decide, by decide, by decide, by decide, by decide⟩
    · obtain ⟨u, hu, -, -, heq, -⟩ := hheat t
      rw [hu, heq hst]
    · obtain ⟨u, hu, h1, h2, heq, h3⟩ := hheat t
      refine ⟨u, hu, h1, h2, fun hst => ?_, h3⟩
      rw [heq hst, noteDeliv_frame]
      rfl
  · intro f
    refine ⟨fun b => ⟨fun h => ?_, fun h0 h4 => ⟨_, rfl, failFar_effect b h0 h4⟩⟩, fun h => ?_, farResilverDone_effect p s, fun h hs => ?_⟩
    · have hf : (decide ((farPort s p.val).state = 0) || decide ((farPort s p.val).state = 4)) = true := by simpa using h
      exact congrArg Host.Outcome.next (if_pos hf)
    · exact if_pos h
    · obtain ⟨h1, h2, h3⟩ := setFarState_effect (resilver s p.val) p.val (if f.width = 16 ∧ f.rate = 0 then 2 else 3)
      refine ⟨_, farResilverDone_effect p s h, ?_, fun q hq => ?_, fun x => ?_⟩
      · rw [h1, farPort_resilver]
      · rw [h2 q hq, farPort_resilver]
      · rw [h3, get_resilver hs]

end Sys2Proof.Machine
end

section
/-! PROOFS. Register writes of PF0, and the reservation commands (R337 to R340, R515 to R517). -/

namespace Sys2Proof.Machine

open Sys2Proof

section PfWrites
variable {s : State}

/-- A write of PF0 while the registers answer and no reset runs has its effect. -/
theorem pfWrite_pf (hup : regsUp s = true) (hreset : s.resetting = none) (p : Fin 2) (off v : Nat) (f : State → State) :
    pfWrite s (.pf p) off v f = f s := by
  unfold pfWrite
  dsimp only
  rw [hup, hreset]
  rfl

/-- The same of a register whose writes a reset does not stop. -/
theorem pfWriteAlways_pf (hup : regsUp s = true) (p : Fin 2) (f : State → State) : pfWriteAlways s (.pf p) f = f s := if_pos hup

end PfWrites

/-- The state in which a reservation command acts: the fields of RSV_REQ written, after a recomputation that is due. -/
def rsvReady (s : State) (v : W32) : State :=
  match s.rsvDue with
  | some c => recompute (setRg s 0x130000 (v &&& 0x3FFFFF00#32)) c
  | none => setRg s 0x130000 (v &&& 0x3FFFFF00#32)

/-- The resources in which the amount a reservation asks for does not fit. -/
def rsvShort (s : State) (x : Rsv) : List Nat :=
  (List.range 20).filter (fun b => decide (0 < x.takes b) && !(resFits s b (resSum s b + x.takes b)))

section Request
variable {s : State} {v : W32}

/-- A reserved OP, and a write without START. -/
theorem rsvRequest_reserved (hup : regsUp s = true) (hreset : s.resetting = none) (p : Fin 2) (h : fld v 28 2 = 3) :
    rsvRequest (.pf p) v s = logDropped s 0x130000 v.toNat := by
  rw [rsvRequest, pfWrite_pf hup hreset]
  exact if_pos h

theorem rsvRequest_fields (hup : regsUp s = true) (hreset : s.resetting = none) (p : Fin 2) (h : fld v 28 2 ≠ 3) (hstart : bit v 31 = false) :
    rsvRequest (.pf p) v s = setRg s 0x130000 (v &&& 0x3FFFFF00#32) := by
  rw [rsvRequest, pfWrite_pf hup hreset]
  exact (if_neg h).trans (if_pos (by rw [hstart]; rfl))

/-- With START the operation acts in the state that is ready for it. -/
theorem rsvRequest_start (hup : regsUp s = true) (hreset : s.resetting = none) (p : Fin 2) (h : fld v 28 2 ≠ 3) (hstart : bit v 31 = true) :
    rsvRequest (.pf p) v s = if fld v 28 2 = 0 then rsvCreate (rsvReady s v) v
      else if fld v 28 2 = 1 then rsvRelease (rsvReady s v) v else rsvQuery (rsvReady s v) v := by
  rw [rsvRequest, pfWrite_pf hup hreset]
  exact (if_neg h).trans (if_neg (by rw [hstart]; decide))

theorem rsvCreate_taken (h : rsvFind s (fld v 16 10) (fld v 8 8) ≠ none) : rsvCreate s v = rsvResult s v 2 0 :=
  if_pos (Option.isSome_iff_ne_none.mpr h)

/-- A CREATE with room for its record: admitted, or refused for what does not fit. -/
theorem rsvCreate_free (hnew : rsvFind s (fld v 16 10) (fld v 8 8) = none) (hroom : s.rsvs.length < 4096) (hopen : admissionsShut s = false) :
    rsvCreate s v = if rsvShort s (rsvOf s v) ≠ [] then rsvResult s v 1 ((rsvShort s (rsvOf s v)).foldl (fun n b => n + 2 ^ b) 0)
      else rsvResult { s with rsvs := s.rsvs ++ [rsvOf s v], rsvRevoked := s.rsvRevoked.erase (fld v 16 10, fld v 8 8) } v 0 0 := by
  unfold rsvCreate
  extract_lets x short
  rw [if_neg (by rw [show rsvFind s x.allot x.index = none from hnew]; decide), if_neg (Nat.not_le.mpr hroom), if_neg (by rw [hopen]; decide)]
  have hshort : (!short.isEmpty) = true ↔ rsvShort s (rsvOf s v) ≠ [] := by
    rw [show rsvShort s (rsvOf s v) = short from rfl]
    simp
  simp only [hshort]
  rfl

theorem rsvQuery_found {y : Rsv} (h : rsvFind s (fld v 16 10) (fld v 8 8) = some y) : rsvQuery s v = rsvResult
    (setRg (setRg (setRg s 0x130004 (BitVec.ofNat 32 (y.g0r * 2 ^ 16 + y.g0w))) 0x130008 (BitVec.ofNat 32 (y.g1r * 2 ^ 16 + y.g1w)))
      0x13000C (BitVec.ofNat 32 (y.port * 2 ^ 16 + y.fr * 2 ^ 8 + y.fw))) v 0 0 := by
  simp only [rsvQuery, h, Option.getD_some]

/-- A write of RSV_ADMIT: a lower percentage makes a recomputation due, one above 90 is dropped and logged. -/
theorem exec_rsvPctWrite (hup : regsUp s = true) (hreset : s.resetting = none) (p : Fin 2) : exec (.rsvPctWrite (.pf p) v) s = .next
    (if 90 < fld v 0 7 then logDropped s 0x130014 v.toNat
     else if fld v 0 7 < rsvPct s then { setRg s 0x130014 (BitVec.ofNat 32 (fld v 0 7)) with rsvDue := some (s.rsvDue.getD 2) }
     else setRg s 0x130014 (BitVec.ofNat 32 (fld v 0 7))) := by
  show execRsvPctWrite (.pf p) v s = _
  rw [execRsvPctWrite, pfWrite_pf hup hreset]
  simp only [decide_eq_true_eq]
  rfl

end Request

/-- Settles O39: each command by the lemma of its operation, in the state a due recomputation leaves. -/
theorem reservationCommands : Obligations.ReservationCommands := by
  intro p v s hup hreset t0 t x al i short
  have ht : t = rsvReady s v := rfl
  have hcmd : ∀ op, fld v 28 2 = op → op ≠ 3 → bit v 31 = true → rsvRequest (.pf p) v s = if op = 0 then rsvCreate t v
      else if op = 1 then rsvRelease t v else rsvQuery t v := fun op h h3 hstart => by
    subst h
    exact rsvRequest_start hup hreset p h3 hstart
  have hcreate : exec (.rsvCreate (.pf p) v) s = .next (rsvRequest (.pf p) v s) := rfl
  have hrelease : exec (.rsvRelease (.pf p) v) s = .next (rsvRequest (.pf p) v s) := rfl
  have hquery : exec (.rsvQuery (.pf p) v) s = .next (rsvRequest (.pf p) v s) := rfl
  clear_value t
  refine ⟨fun hstart hop => ?_, fun hstart hop => ?_, fun hstart hop y hy => ?_, fun hstart hop => ?_, fun hop => ?_, ?_, ?_, ?_⟩
  · rw [hcreate, (hcmd 0 hop (by decide) hstart).trans (if_pos rfl)]
    refine ⟨fun hnew hroom hopen => ⟨fun hs => ?_, fun hs => ?_⟩, fun hold => by rw [rsvCreate_taken hold]⟩
    · exact congrArg _ ((rsvCreate_free hnew hroom hopen).trans (if_neg (not_not.mpr hs)))
    · exact congrArg _ ((rsvCreate_free hnew hroom hopen).trans (if_pos hs))
  · rw [hrelease, (hcmd 1 hop (by decide) hstart).trans ((if_neg (by decide)).trans (if_pos rfl))]
    exact ⟨fun h => congrArg _ (if_pos h), fun h => congrArg _ (if_neg h)⟩
  · rw [hquery, (hcmd 2 hop (by decide) hstart).trans ((if_neg (by decide)).trans (if_neg (by decide))), rsvQuery_found hy]
  · rw [hcreate, rsvRequest_fields hup hreset p hop hstart]
  · rw [hcreate, rsvRequest_reserved hup hreset p hop]
  · intro n set
    refine ⟨fun h => ?_, fun h => ?_⟩
    · rw [exec_rsvPctWrite hup hreset, if_neg (Nat.not_lt.mpr h)]
    · rw [exec_rsvPctWrite hup hreset, if_pos h]
  · intro c h
    show execRsvRecompute s = _
    rw [execRsvRecompute, h]
  · intro h
    show execRsvRecompute s = _
    rw [execRsvRecompute, h]

end Sys2Proof.Machine
end

section
/-! PROOFS. Translation: its registers, what an invalidation drops and waits for, the fault log, and what the host answers (R324 to R331, R381). -/

namespace Sys2Proof.Machine

open Sys2Proof

/-! ## The registers of a context -/

section Registers
variable {s : State} {p : Fin 2} {v : W32}

theorem exec_xltRootWrite (hup : regsUp s = true) (hreset : s.resetting = none) (al : Fin 1024) (hi : Bool) : exec (.xltRootWrite (.pf p) al hi v) s = .next
    (if bit (rg s (xltBase al.val + 8) 0) 31 then logDropped s (xltBase al.val + (if hi then 4 else 0)) v.toNat
     else setRg s (xltBase al.val + (if hi then 4 else 0)) (v &&& (if hi then 0xFFFFFF#32 else 0xFFFF0000#32))) :=
  congrArg Host.Outcome.next (pfWrite_pf hup hreset _ _ _ _)

theorem exec_xltCtxWrite (hup : regsUp s = true) (hreset : s.resetting = none) (al : Fin 1024) :
    let set := setRg s (xltBase al.val + 8) (v &&& 0xC0000000#32)
    let i : Inval := { scope := 1, allot := al.val, va := 0, len := 0 }
    exec (.xltCtxWrite (.pf p) al v) s = .next
      (if bit (rg s (xltBase al.val + 8) 0) 31 && !(bit v 31) then (if set.inv.isSome then queueInval set i else beginInval set i) else set) :=
  congrArg Host.Outcome.next (pfWrite_pf hup hreset _ _ _ _)

/-- The invalidation that a value of XLT_INV_CMD names. -/
def namedInval (s : State) (v : W32) : Inval :=
  { scope := fld v 28 2, allot := fld v 16 10, va := fld (rg s 0x110000 0) 16 16 * 2 ^ 16 + fld (rg s 0x110004 0) 0 20 * 2 ^ 32
    len := (fld v 0 16 + 1) * 65536 }

theorem exec_xltInvalidate (hup : regsUp s = true) (hreset : s.resetting = none) : exec (.xltInvalidate (.pf p) v) s = .next
    (if (bit v 30 && s.inv.isSome) || fld v 28 2 = 3 then logDropped s 0x110008 v.toNat
     else if bit v 30 then beginInval (setRg s 0x110008 (v &&& 0x33FFFFFF#32)) (namedInval s v)
     else setRg s 0x110008 (v &&& 0x33FFFFFF#32)) := by
  have h := congrArg (Host.Outcome.next (φ := Fault) (ρ := Refusal)) (pfWrite_pf hup hreset p 0x110008 v.toNat (fun s =>
    if (bit v 30 && s.inv.isSome) || fld v 28 2 = 3 then logDropped s 0x110008 v.toNat
    else if bit v 30 then beginInval (setRg s 0x110008 (v &&& 0x33FFFFFF#32)) (namedInval (setRg s 0x110008 (v &&& 0x33FFFFFF#32)) v)
    else setRg s 0x110008 (v &&& 0x33FFFFFF#32)))
  rw [show namedInval (setRg s 0x110008 (v &&& 0x33FFFFFF#32)) v = namedInval s v by
    simp only [namedInval, rg_setRg_other _ _ _ _ _ (show 0x110000 ≠ 0x110008 by decide), rg_setRg_other _ _ _ _ _ (show 0x110004 ≠ 0x110008 by decide)]] at h
  exact h

/-- The accesses of an invalidation are done when none is under way that used a dropped translation. -/
theorem oldDone_eq_false_iff (s : State) : oldDone s = false ↔
    ((∃ q ∈ s.hostReqs, q.old = true) ∨ (∃ q ∈ s.skvReqs, q.old = true) ∨ ∃ e ∈ s.saddles, ∃ c ∈ e.2.vc2, c.old = true) := by
  simp only [oldDone, Bool.and_eq_false_iff, List.all_eq_false, Bool.not_eq_true, Bool.not_eq_false', or_assoc]

/-- An invalidation that is done: COUNT rises, and the next one that waits begins. -/
theorem exec_xltInvDone {s : State} (hrun : s.inv.isSome = true) (hdone : oldDone s = true) :
    let done := setRg { s with inv := none } 0x11000C (rg s 0x11000C 0 + 1)
    exec .xltInvDone s = .next (match s.invQ with
      | [] => done
      | j :: rest => beginInval { done with invQ := rest } j) := by
  intro done
  show execXltInvDone s = _
  unfold execXltInvDone
  rw [if_neg (by rw [hdone]; simpa [Option.isSome_iff_ne_none] using hrun)]
  have hnext : ∀ t : State, t.invQ = s.invQ → (match t.invQ with
      | [] => Host.Outcome.next t
      | i :: rest => .next (beginInval { t with invQ := rest } i)) = Host.Outcome.next (φ := Fault) (ρ := Refusal) (match s.invQ with
      | [] => t
      | j :: rest => beginInval { t with invQ := rest } j) := fun t ht => by
    rw [ht]
    cases s.invQ with
    | nil => rfl
    | cons j rest => rfl
  exact hnext done rfl

end Registers

/-! ## What an invalidation drops -/

theorem inScope_iff (i : Inval) (t : Tlb) : inScope i t = true ↔
    ((i.scope = 0 → t.allot = i.allot ∧ t.va * 2 ^ t.size < i.va + i.len ∧ i.va < (t.va + 1) * 2 ^ t.size) ∧ (i.scope = 1 → t.allot = i.allot)) := by
  unfold inScope
  split
  next h => simp [h, and_assoc]
  next h => simp [h]
  next h0 h1 => simp [show i.scope ≠ 0 from h0, show i.scope ≠ 1 from h1]

theorem mem_filter_not_inScope (i : Inval) (l : List Tlb) (t : Tlb) : t ∈ l.filter (fun t => !(inScope i t)) ↔ t ∈ l ∧ ¬ inScope i t = true := by
  simp only [List.mem_filter, Bool.not_eq_true']
  simp

/-- The cached translations of a terrace and of a Saddle, after those in a scope were dropped. -/
theorem tlb_dropCached (s : State) (i : Inval) (tg : Nat) :
    (terrace (dropCached s i) tg).tlb = (terrace s tg).tlb.filter (fun t => !(inScope i t)) := by
  show (mget (s.terraces.map _) tg Terrace.reset).tlb = _
  unfold mget
  rw [mget?_map_val s.terraces (fun t => { t with
    tlb := t.tlb.filter (fun t => !(inScope i t)), pins := t.pins.map (fun p => (p.1, p.2.filter (fun t => !(inScope i t)))) }) tg]
  unfold terrace mget
  cases mget? s.terraces tg with
  | none => rfl
  | some t => rfl

theorem stlb_dropCached (s : State) (i : Inval) (n : Nat) :
    (saddle (dropCached s i) n).stlb = (saddle s n).stlb.filter (fun t => !(inScope i t)) := by
  show (mget (s.saddles.map _) n ({} : Saddle)).stlb = _
  unfold mget
  rw [mget?_map_val s.saddles (fun d => { d with stlb := d.stlb.filter (fun t => !(inScope i t)) }) n]
  unfold saddle mget
  cases mget? s.saddles n with
  | none => rfl
  | some d => rfl

/-! ## What the host answers -/

/-- An invalidation of a Headwork's cached translations is answered when the requests it waits for are gone. -/
theorem finishAts_of_done {s : State} {hd addr : Nat} (hp : s.atsPend = [(hd, addr, [])]) :
    finishAts s = { s with atsPend := [], out := s.out ++ [.atsDone hd addr] } := by
  unfold finishAts
  rw [hp]
  rfl

/-- A read of the fault log by PF0. -/
theorem exec_xltFlogPop_pf {s : State} (hup : regsUp s = true) (p : Fin 2) : exec (.xltFlogPop (.pf p)) s = .next (match s.flog with
    | [] => answerRead s 0
    | x :: rest => answerRead { s with flog := rest } (flogInfo x)) := by
  show execXltFlogPop (.pf p) s = _
  unfold execXltFlogPop
  dsimp only
  rw [if_neg (by rw [hup]; decide)]
  cases s.flog with
  | nil => rfl
  | cons x rest => rfl

theorem keepLast_of_le {α : Type} {n : Nat} {l : List α} (h : l.length ≤ n) : keepLast n l = l := by
  rw [keepLast, Nat.sub_eq_zero_of_le h, List.drop_zero]

theorem exec_atsInvalidate_idle {s : State} (hpend : s.atsPend = []) (hreq : s.hostReqs = []) (hd : Fin 2) (addr len : Nat) :
    exec (.atsInvalidate hd addr len) s = .next { s with
      ats := mset s.ats hd.val ((mget s.ats hd.val []).filter (fun t => !(decide (t.va * 65536 < addr + len) && decide (addr < (t.va + 1) * 65536))))
      out := s.out ++ [.atsDone hd.val addr] } := by
  show execAtsInvalidate hd addr len s = _
  unfold execAtsInvalidate
  extract_lets l hit gone used
  have hused : used = [] := by simp only [used, hreq]; rfl
  rw [if_neg (by rw [hpend]; exact Nat.not_le.mpr (Nat.zero_lt_succ 31)), hused, hpend, finishAts_of_done rfl, ← hpend]

theorem exec_ats_answer {s : State} {hd : Fin 2} {al : Fin 1024} {pg a : BitVec 48} (hw : s.atsWant.contains (hd.val, al.val, pg.toNat) = true)
    (hroom : (mget s.ats hd.val []).length < 4096) :
    exec (.hostWindowCompletion hd (.ats al pg (some a))) s = .next (retryStarts (retryStores { s with
      atsWant := s.atsWant.erase (hd.val, al.val, pg.toNat)
      ats := mset s.ats hd.val (mget s.ats hd.val [] ++ [{ allot := al.val, va := pg.toNat, size := 16, pa := a.toNat * 65536, perm := 7 }]) })) := by
  show execHostWindowCompletion hd (.ats al pg (some a)) s = _
  unfold execHostWindowCompletion
  dsimp only
  rw [if_neg (by rw [hw]; decide), keepLast_of_le (by simpa using hroom)]

/-- Settles O41. -/
theorem translation : Obligations.Translation := by
  refine ⟨fun p al v s hup hreset => ?_, fun s i tg n t => ?_, fun p s hup => ?_, fun hd addr len s hpend hreq => exec_atsInvalidate_idle hpend hreq hd addr len,
    fun hd addr len s hfull => if_pos hfull, fun hd addr bs bad s => rfl, fun hd al pg a s hw hroom => exec_ats_answer hw hroom⟩
  · intro ctx on
    refine ⟨fun hi => ?_, ?_, fun hstart hidle hsc => ?_, fun hstart hbad => ?_, ?_⟩
    · intro off
      exact ⟨fun h => (exec_xltRootWrite hup hreset al hi).trans (congrArg _ (if_neg (Bool.eq_false_iff.mp h))),
        fun h => (exec_xltRootWrite hup hreset al hi).trans (congrArg _ (if_pos h))⟩
    · intro set i
      have he := exec_xltCtxWrite (p := p) (v := v) hup hreset al
      refine ⟨fun h => he.trans (congrArg _ (if_neg ?_)), fun hon hv => he.trans (congrArg _ (if_pos ?_))⟩
      · rw [show bit (rg s (xltBase al.val + 8) 0) 31 = on from rfl]
        rcases h with h | h
        · rw [h]; rw [Bool.false_and]; exact Bool.false_ne_true
        · rw [h]; simp
      · rw [show bit (rg s (xltBase al.val + 8) 0) 31 = on from rfl, hon, hv]
        rfl
    · refine (exec_xltInvalidate hup hreset).trans (congrArg _ ((if_neg ?_).trans (if_pos hstart)))
      rw [hidle]
      simp
      omega
    · refine (exec_xltInvalidate hup hreset).trans (congrArg _ (if_pos ?_))
      rw [hstart]
      rcases hbad with h | h
      · simp [Option.isSome_iff_ne_none.mpr h]
      · simp [h]
    · intro busy done
      have hbusy : busy ↔ oldDone s = false := (oldDone_eq_false_iff s).symm
      refine ⟨fun h => if_pos ?_, fun i hi hb hq => ?_, fun i j rest hi hb hq => ?_⟩
      · rcases h with h | h
        · rw [h]; rfl
        · rw [hbusy.mp h]; simp
      all_goals
        have he : exec .xltInvDone s = .next (match s.invQ with
          | [] => done
          | j :: rest => beginInval { done with invQ := rest } j) := exec_xltInvDone (hi ▸ rfl) (by simpa using mt hbusy.mpr hb)
        clear_value done
        rw [he, hq]
  · rw [tlb_dropCached, stlb_dropCached, mem_filter_not_inScope, mem_filter_not_inScope, inScope_iff]
    exact ⟨Iff.rfl, Iff.rfl⟩
  · refine ⟨fun h => ?_, fun x rest h => ?_⟩
    · refine (exec_xltFlogPop_pf hup p).trans (congrArg _ ?_)
      split
      next => rfl
      next h' => simp [h] at h'
    · refine (exec_xltFlogPop_pf hup p).trans (congrArg _ ?_)
      split
      next h' => simp [h] at h'
      next h' =>
        obtain ⟨rfl, rfl⟩ := List.cons.inj (h.symm.trans h')
        rfl

end Sys2Proof.Machine
end

section
/-! PROOFS. Doorbells and the registers of a queue (R387 to R398, R424). -/

namespace Sys2Proof.Machine

open Sys2Proof

/-! ## Doorbells -/

section Bells
variable {s : State} {v : W32} {al n q : Nat} {p : Fin 2}

/-- A doorbell of PF0 that is heard: kept during a reset, taken otherwise. -/
theorem doorbell_pf (hup : regsUp s = true) (hmode : s.mode ≠ .maintenance) (head : Bool) : doorbell (.pf p) al n head v s =
    if s.resetting.isSome then { s with bells := s.bells ++ [{ hd := p.val, allot := al, q := n, head, v }] }
    else bellAt s { hd := p.val, allot := al, q := n, head, v } := by
  unfold doorbell
  rw [if_neg (by rw [hup]; simpa using hmode), if_neg (by simp [reachesPage])]
  rfl

theorem bellAt_disabled (hen : allotEn s al = false) (hd : Nat) (head : Bool) :
    bellAt s { hd, allot := al, q := n, head, v } = gaugePf s hd 2 al [bellWord n 2 v] false :=
  if_pos (by rw [hen]; rfl)

/-- A doorbell to an enabled allotment that has been rung. -/
theorem bellAt_rung (hen : allotEn s al = true) (hrung : (allot s al).rung = true) (hd : Nat) (head : Bool) :
    bellAt s { hd, allot := al, q := n, head, v } = if qEn s (64 * al + n) = false then gaugePost s 2 al [bellWord n 2 v] false
      else if head then headBell s al (64 * al + n) v else tailBell s al (64 * al + n) v := by
  have hfirst : firstBell s hd al = s := if_pos hrung
  unfold bellAt
  rw [if_neg (by rw [hen]; decide)]
  dsimp only
  rw [hfirst]
  simp only [Bool.not_eq_true']

/-- A tail of a queue that is not stopped. -/
theorem tailBell_running (hx : (que s q).stopped = false) : tailBell s al q v =
    if v = (que s q).tail then s
    else if (v - (que s q).tail).toNat ≤ 2 ^ fld (qCfg s q) 26 5 ∧ (v - (que s q).acc).toNat ≤ 2 ^ fld (qCfg s q) 26 5 then
      request (updQue { s with bellNo := s.bellNo + 1 } q (fun x => { x with tail := v, order := if x.tail = x.acc then s.bellNo + 1 else x.order }))
        { qs := [(q, { qent s q with tail := v })] }
    else gaugePost s 2 al [bellWord (q % 64) 0 v] false := by
  unfold tailBell
  simp only [hx, Bool.false_eq_true, if_false, Bool.and_eq_true, decide_eq_true_eq]
  rfl

theorem tailBell_restart (hx : (que s q).stopped = true) (hv : v = (que s q).tail) :
    tailBell s al q v = updQue s q (fun x => { x with stopped := false, tries := 0 }) := by
  unfold tailBell
  exact (if_pos hv).trans (if_pos hx)

/-- The posted completions that a head v passes. -/
def passedBy (s : State) (q : Nat) (v : W32) : List (Nat × Slot) :=
  (slotsOfQ s q).filter (fun e => e.2.st == .posted && decide ((e.2.seq - (que s q).head).toNat < (v - (que s q).head).toNat))

theorem headBell_eq : headBell s al q v =
    if v = (que s q).head then s
    else if (v - (que s q).head).toNat ≤ ((que s q).seq - (que s q).head).toNat then
      request (updQue s q (fun x => { x with head := v, unsent := x.unsent.filter (fun u => !((passedBy s q v).any (fun e => e.1 = u.1))) }))
        { slots := (passedBy s q v).map (fun e => (e.1, none)), qs := [(q, { qent s q with head := v })], eff := .freed }
    else gaugePost s 2 al [bellWord (q % 64) 1 v] false := by
  unfold headBell
  simp only [List.any_map]
  rfl

end Bells

/-! ## The registers of a queue -/

section QueueRegisters
variable {s : State} {p : Fin 2} {v : W32}

/-- The message that a write of a queue's register makes due. -/
def toldQue (q : Nat) (s : State) : State := if irqDue s q then queMsg s q else s

theorem exec_qCfgWrite (hup : regsUp s = true) (hreset : s.resetting = none) (q : Fin 65536) (reg : Fin 6) :
    exec (.qCfgWrite (.pf p) q reg v) s = .next (match reg.val with
      | 4 => if qCfgBad s q.val v then logDropped s (qReg q.val + 4 * reg.val) v.toNat else toldQue q.val (writeQCfg s q.val v)
      | 5 => if fld v 16 16 = 0 then logDropped s (qReg q.val + 4 * reg.val) v.toNat else toldQue q.val (setRg s (qReg q.val + 4 * reg.val) v)
      | 0 => setRg s (qReg q.val + 4 * reg.val) (v &&& 0xFFFFF000#32)
      | 2 => setRg s (qReg q.val + 4 * reg.val) (v &&& 0xFFFFF000#32)
      | _ => setRg s (qReg q.val + 4 * reg.val) v) :=
  congrArg Host.Outcome.next (pfWrite_pf hup hreset _ _ _ _)

/-- A write of a queue's configuration leaves its ring bases. -/
theorem ringBases_setRg_cfg (s : State) (q : Nat) (w : W32) :
    sqBaseReg (setRg s (qReg q + 0x10) w) q = sqBaseReg s q ∧ cqBaseReg (setRg s (qReg q + 0x10) w) q = cqBaseReg s q := by
  have hother : ∀ a, a ≠ qReg q + 0x10 → rg (setRg s (qReg q + 0x10) w) a 0 = rg s a 0 := fun a h => rg_setRg_other s _ _ _ _ h
  unfold sqBaseReg cqBaseReg
  rw [hother (qReg q) (by omega), hother (qReg q + 4) (by omega), hother (qReg q + 8) (by omega), hother (qReg q + 0xC) (by omega)]
  exact ⟨rfl, rfl⟩

theorem writeQCfg_eq (s : State) (q : Nat) (v : W32) :
    let set := setRg s (qReg q + 0x10) (v &&& 0xFFFFFE00#32)
    writeQCfg s q v = if bit v 31 && !(qEn s q) then request { set with ques := mset s.ques q {} } { qs := [(q,
        { sqBase := sqBaseReg s q, cqBase := cqBaseReg s q, log2sq := fld v 26 5, log2cq := fld v 21 5 })] }
      else if !(bit v 31) && qEn s q then request { set with ques := mset s.ques q {} } { qs := [(q, {})] } else set := by
  obtain ⟨h1, h2⟩ := ringBases_setRg_cfg s q (v &&& 0xFFFFFE00#32)
  unfold writeQCfg
  dsimp only
  rw [h1, h2]
  rfl

theorem writeQCfg_same (h : bit v 31 = qEn s q) : writeQCfg s q v = setRg s (qReg q + 0x10) (v &&& 0xFFFFFE00#32) := by
  rw [writeQCfg_eq, h]
  simp

theorem toldQue_eq (q : Nat) (u : State) : toldQue q u =
    if bit (qCfg u q) 20 = true ∧ fld (rg u (0x200000 + 0x20 * q + 20) 0x10000) 16 16 ≤ (que u q).irqs then queMsg u q else u := by
  unfold toldQue irqDue
  simp only [Bool.and_eq_true, decide_eq_true_eq]
  rfl

end QueueRegisters

/-- Settles O42: the doorbells by what the Headwork does with them, the registers by what a write leaves, and the message of a queue. -/
theorem doorbellsAndQueueRegisters : Obligations.DoorbellsAndQueueRegisters := by
  refine ⟨fun p al n v s => ?_, fun p q v s hup hreset => ?_, fun s q => ?_⟩
  · intro q x size word tail head hup hmode
    have htail : ∀ r, doorbell (.pf p) al.val n.val false v s = r → tail r := fun r h => congrArg Host.Outcome.next h
    have hhead : ∀ r, doorbell (.pf p) al.val n.val true v s = r → head r := fun r h => congrArg Host.Outcome.next h
    have hq : q % 64 = n.val := by omega
    refine ⟨fun hr => ?_, fun hr hen => ?_, fun hr hen hrung => ⟨fun hqen => ?_, fun hqen => ?_⟩⟩
    · have hs : s.resetting.isSome = true := Option.isSome_iff_ne_none.mpr hr
      exact ⟨htail _ ((doorbell_pf hup hmode _).trans (if_pos hs)), hhead _ ((doorbell_pf hup hmode _).trans (if_pos hs))⟩
    all_goals
      have htake : ∀ hd, doorbell (.pf p) al.val n.val hd v s = bellAt s { hd := p.val, allot := al.val, q := n.val, head := hd, v } := fun hd =>
        (doorbell_pf hup hmode hd).trans (if_neg (by rw [hr]; decide))
    · exact ⟨htail _ ((htake _).trans (bellAt_disabled hen _ _)), hhead _ ((htake _).trans (bellAt_disabled hen _ _))⟩
    · have hoff : ∀ hd, doorbell (.pf p) al.val n.val hd v s = gaugePost s 2 al.val (word 2) false := fun hd =>
        (htake hd).trans ((bellAt_rung hen hrung _ _).trans (if_pos hqen))
      exact ⟨htail _ (hoff _), hhead _ (hoff _)⟩
    · have ht : doorbell (.pf p) al.val n.val false v s = tailBell s al.val q v :=
        (htake _).trans ((bellAt_rung hen hrung _ _).trans ((if_neg (by rw [hqen]; decide)).trans (if_neg (by decide))))
      have hh : doorbell (.pf p) al.val n.val true v s = headBell s al.val q v :=
        (htake _).trans ((bellAt_rung hen hrung _ _).trans ((if_neg (by rw [hqen]; decide)).trans (if_pos rfl)))
      have hword : ∀ kind, word kind = [bellWord (q % 64) kind v] := fun kind => by rw [hq]; rfl
      refine ⟨fun hrun => ⟨fun hv => ?_, fun hv h1 h2 => ?_, fun hbad hv => ?_⟩, fun hstop hv => htail _ (ht.trans (tailBell_restart hstop hv)),
        fun hv => hhead _ (hh.trans (headBell_eq.trans (if_pos hv))), fun hv hle => ?_, fun hlt => ?_⟩
      · exact htail _ ((ht.trans (tailBell_running hrun)).trans (if_pos hv))
      · exact htail _ ((ht.trans (tailBell_running hrun)).trans ((if_neg hv).trans (if_pos ⟨h1, h2⟩)))
      · rw [hword]
        exact htail _ ((ht.trans (tailBell_running hrun)).trans ((if_neg hv).trans (if_neg (fun ⟨h1, h2⟩ => hbad.elim (Nat.not_lt.mpr h1) (Nat.not_lt.mpr h2)))))
      · exact hhead _ (hh.trans (headBell_eq.trans ((if_neg hv).trans (if_pos hle))))
      · have hv : v ≠ x.head := fun h => by rw [h] at hlt; simp at hlt
        rw [hword]
        exact hhead _ (hh.trans (headBell_eq.trans ((if_neg hv).trans (if_neg (Nat.not_le.mpr hlt)))))
  · intro off wr set told
    have hwr : ∀ reg : Fin 6, exec (.qCfgWrite (.pf p) q reg v) s = _ := exec_qCfgWrite hup hreset q
    have htold : ∀ u, told u = toldQue q.val u := fun u => (toldQue_eq q.val u).symm
    refine ⟨hwr 0, hwr 1, hwr 2, hwr 3, fun h => (hwr 5).trans (congrArg _ (if_pos h)), fun h => ?_, fun h => (hwr 4).trans (congrArg _ (if_pos h)),
      fun hok => ?_⟩
    · rw [htold]
      exact (hwr 5).trans (congrArg _ (if_neg h))
    · have h4 : exec (.qCfgWrite (.pf p) q 4 v) s = .next (toldQue q.val (writeQCfg s q.val v)) :=
        (hwr 4).trans (congrArg _ (if_neg (Bool.eq_false_iff.mp hok)))
      have hset : ∀ u, writeQCfg s q.val v = u → wr 4 (told u) := fun u h => by
        rw [htold, ← h]
        exact h4
      refine ⟨fun hv hen => ?_, fun hv hen => ?_, fun hv => ?_⟩
      · exact hset _ ((writeQCfg_eq s q.val v).trans (if_pos (by rw [hv, hen]; rfl)))
      · exact hset _ ((writeQCfg_eq s q.val v).trans ((if_neg (by rw [hv]; simp)).trans (if_pos (by rw [hv, hen]; rfl))))
      · exact hset _ (writeQCfg_same hv)
  · intro a
    exact ⟨fun h => if_pos h, fun h => if_neg (Bool.eq_false_iff.mp h)⟩

end Sys2Proof.Machine
end

section
/-! PROOFS. Acceptance of submission entries, and the posting of completions (R390 to R399, R411, R415). -/

namespace Sys2Proof.Machine

open Sys2Proof

/-! ## What may be accepted -/

theorem comesLater_eq_false_iff (s : State) (q : Nat) : comesLater s q = false ↔
    ∀ x ∈ s.ques, 0 < x.2.order → x.2.order ≤ s.resumeTo → x.2.order < (que s q).order → x.2.tail ≠ x.2.acc → mayAccept s x.1 = false := by
  simp only [comesLater, List.any_eq_false, Bool.and_eq_true, decide_eq_true_eq, Bool.not_eq_true, not_and, and_imp]

theorem accepts_iff (s : State) (q : Nat) : accepts s q = true ↔ mayAccept s q = true ∧
    ∀ x ∈ s.ques, 0 < x.2.order → x.2.order ≤ s.resumeTo → x.2.order < (que s q).order → x.2.tail ≠ x.2.acc → mayAccept s x.1 = false := by
  rw [← comesLater_eq_false_iff, accepts, Bool.and_eq_true, Bool.not_eq_true']

/-- Asking for entries sends reads through the owner's port, and changes nothing else. -/
theorem askEntries_frame (s : State) (q n : Nat) : ∃ l, askEntries s q n = { s with out := s.out ++ l } ∧
    ∀ m ∈ l, ∃ a k, m = .hostRead (allot s (q / 64)).owner (allotFn s (q / 64)) a k := by
  unfold askEntries
  extract_lets e al place k ask
  have hask : ∀ (t : State) a len, allot t al = allot s al → allotFn t al = allotFn s al → ∃ l, ask t a len = { t with out := t.out ++ l } ∧
      ∀ m ∈ l, ∃ a k, m = .hostRead (allot s al).owner (allotFn s al) a k := fun t a len h1 h2 => by
    by_cases h0 : len = 0
    · refine ⟨[], ?_, fun m hm => absurd hm List.not_mem_nil⟩
      rw [List.append_nil]
      exact if_pos h0
    · exact ⟨[_], if_neg h0, fun m hm => ⟨a, 64 * len, by rw [List.mem_singleton.mp hm, h1, h2]⟩⟩
  obtain ⟨l, hl, hm⟩ := hask s (e.sqBase + place * 64) k rfl rfl
  obtain ⟨l', hl', hm'⟩ := hask (ask s (e.sqBase + place * 64) k) e.sqBase (n - k) (by rw [hl]; rfl) (by rw [hl]; rfl)
  refine ⟨l ++ l', by rw [hl', hl, List.append_assoc], fun m h => ?_⟩
  rcases List.mem_append.mp h with h | h
  · exact hm m h
  · exact hm' m h

/-! ## A read of entries returns -/

section Reads
variable {s : State} {q : Fin 65536}

/-- The number of entries that a read of a queue takes, and their bytes in host memory. -/
def readCount (s : State) (q : Nat) : Nat := min 16 ((qent s q).tail - (qent s q).acc).toNat

def readRows (s : State) (q : Nat) : List (List PByte) := (List.range (readCount s q)).map
  (fun i => s.host.read ((qent s q).sqBase + ((qent s q).acc.toNat + i) % 2 ^ (qent s q).log2sq * 64) 64)

theorem sqReadComplete_idle (h : accepts s q.val = false ∨ readCount s q.val = 0) (x : Bool) : exec (.sqReadComplete q x) s = .next s :=
  if_pos (by
    show (!(accepts s q.val) || decide (readCount s q.val = 0)) = true
    rcases h with h | h
    · rw [h]; rfl
    · rw [h]; simp)

variable (hacc : accepts s q.val = true) (hn : 0 < readCount s q.val)
include hacc hn

theorem sqReadComplete_eq (x : Bool) : exec (.sqReadComplete q x) s = if freeSlots s = 0 then .next (journalFull s true)
    else if x || (readRows s q.val).any (fun r => r.any (fun b => b.2)) then .next (readFailed (askEntries s q.val (readCount s q.val)) q.val)
    else .next (acceptEntries (updQue (askEntries s q.val (readCount s q.val)) q.val (fun x => { x with tries := 0 })) q.val
      (lowestSlots (askEntries s q.val (readCount s q.val)) (min (readCount s q.val) (freeSlots (askEntries s q.val (readCount s q.val)))))
      ((readRows s q.val).map (fun r => r.map (·.1)))) :=
  if_neg (by
    show ¬ ((!(accepts s q.val) || decide (readCount s q.val = 0)) = true)
    rw [hacc]
    simp; omega)

theorem sqReadComplete_whole (hfree : 0 < freeSlots s) (hw : ∀ r ∈ readRows s q.val, ∀ b ∈ r, b.2 = false) :
    exec (.sqReadComplete q false) s = .next (acceptEntries (updQue (askEntries s q.val (readCount s q.val)) q.val (fun x => { x with tries := 0 })) q.val
      (lowestSlots s (min (readCount s q.val) (freeSlots s))) ((readRows s q.val).map (fun r => r.map (·.1)))) := by
  obtain ⟨l, hl, -⟩ := askEntries_frame s q.val (readCount s q.val)
  have hnone : ¬ ((false || (readRows s q.val).any (fun r => r.any (fun b => b.2))) = true) := by
    rw [Bool.false_or, List.any_eq_true]
    rintro ⟨r, hr, hb⟩
    obtain ⟨b, hb, h⟩ := List.any_eq_true.mp hb
    exact Bool.false_ne_true ((hw r hr b hb).symm.trans h)
  rw [sqReadComplete_eq hacc hn, if_neg (Nat.pos_iff_ne_zero.mp hfree), if_neg hnone, hl]
  rfl

theorem sqReadComplete_failed {x : Bool} (hfree : 0 < freeSlots s) (hbad : x = true ∨ ¬ ∀ r ∈ readRows s q.val, ∀ b ∈ r, b.2 = false) :
    exec (.sqReadComplete q x) s = .next (readFailed (askEntries s q.val (readCount s q.val)) q.val) := by
  have hsome : (x || (readRows s q.val).any (fun r => r.any (fun b => b.2))) = true := by
    rcases hbad with h | h
    · rw [h, Bool.true_or]
    · push Not at h
      obtain ⟨r, hr, b, hb, h⟩ := h
      rw [List.any_eq_true.mpr ⟨r, hr, List.any_eq_true.mpr ⟨b, hb, by simpa using h⟩⟩, Bool.or_true]
  rw [sqReadComplete_eq hacc hn, if_neg (Nat.pos_iff_ne_zero.mp hfree), if_pos hsome]

end Reads

/-- A failed read is tried twice more, and then stops the queue. -/
theorem readFailed_eq (s : State) (q : Nat) : readFailed s q = if (que s q).tries < 2 then updQue s q (fun x => { x with tries := x.tries + 1 })
    else gaugePost (updQue s q (fun x => { x with tries := 0, stopped := true })) 3 (q / 64) [BitVec.ofNat 64 (q % 64)] true := by
  unfold readFailed
  extract_lets n
  by_cases h : (que s q).tries < 2
  · rw [if_pos h, if_pos (by omega)]
    rfl
  · rw [if_neg h, if_neg (by omega)]

/-! ## The slots that accepted entries take -/

theorem jrn_request (s : State) (st : JStep) : jrn (request s st) = applyStep (jrn s) st := by
  unfold request
  show jrn (setJrn s (applyStep (jrn s) st)) = _
  generalize applyStep (jrn s) st = j
  unfold setJrn jrn
  by_cases h : s.hdFailed.contains 0 = true
  · rw [if_pos h]; exact if_pos h
  · rw [if_neg h]; exact if_neg h

/-- Entries written to a map one after another under distinct keys are all there. -/
theorem mget?_foldl_mset {α : Type} (l : List (Nat × α)) (m : Map α) (hnd : (l.map (·.1)).Nodup) {k : Nat} {v : α} (h : (k, v) ∈ l) :
    mget? (l.foldl (fun m e => mset m e.1 e.2) m) k = some v := by
  have hkeep : ∀ (l : List (Nat × α)) (m : Map α), k ∉ l.map (·.1) → mget? (l.foldl (fun m e => mset m e.1 e.2) m) k = mget? m k := fun l => by
    induction l with
    | nil => exact fun m _ => rfl
    | cons e l ih =>
      intro m hk
      rw [List.map_cons, List.mem_cons, not_or] at hk
      exact (ih _ hk.2).trans (mget?_mset_other _ _ _ _ hk.1)
  induction l generalizing m with
  | nil => exact absurd h List.not_mem_nil
  | cons e l ih =>
    rw [List.map_cons, List.nodup_cons] at hnd
    rcases List.mem_cons.mp h with rfl | h
    · exact (hkeep l _ hnd.1).trans (mget?_mset_same _ _ _)
    · exact ih _ hnd.2 h

/-- The slot of the entry r, the j-th of a read. -/
def acceptedSlot (s : State) (q j : Nat) (r : List Byte) : Slot :=
  let x : Slot := { st := .accepted, q, seq := (qent s q).acc + BitVec.ofNat 32 j, tag := tagAfter (mget (jrn s).tags (q / 64) 1) j, entry := r
                    compl := none, replays := 0, atime := BitVec.ofNat 32 (nowUs s) }
  if (Entry64.ofBytes r).breaks then x.complete (complOf x 3 0x0A none)
  else if (Entry64.ofBytes r).op = 0 then x.complete (complOf x 0 0 none) else x

theorem acceptedSlot_fields (s : State) (q j : Nat) (r : List Byte) : (acceptedSlot s q j r).q = q ∧
    (acceptedSlot s q j r).seq = (qent s q).acc + BitVec.ofNat 32 j ∧ (acceptedSlot s q j r).entry = r ∧
    (acceptedSlot s q j r).tag = tagAfter (mget (jrn s).tags (q / 64) 1) j ∧
    (acceptedSlot s q j r).st = (if (Entry64.ofBytes r).breaks ∨ (Entry64.ofBytes r).op = 0 then .completed else .accepted) := by
  unfold acceptedSlot
  by_cases hb : (Entry64.ofBytes r).breaks = true
  · rw [if_pos hb, if_pos (Or.inl hb)]
    exact ⟨rfl, rfl, rfl, rfl, rfl⟩
  · by_cases h0 : (Entry64.ofBytes r).op = 0
    · rw [if_neg hb, if_pos h0, if_pos (Or.inr h0)]
      exact ⟨rfl, rfl, rfl, rfl, rfl⟩
    · rw [if_neg hb, if_neg h0, if_neg (by rintro (h | h); exacts [hb h, h0 h])]
      exact ⟨rfl, rfl, rfl, rfl, rfl⟩

theorem map_fst_zip_sublist {α β : Type} (l : List α) (r : List β) : ((l.zip r).map (·.1)).Sublist l := by
  induction l generalizing r with
  | nil => exact List.Sublist.slnil
  | cons a l ih =>
    cases r with
    | nil => exact List.nil_sublist _
    | cons b r => exact (ih r).cons_cons a

theorem slotAt_acceptEntries (s : State) (q : Nat) {l : List Nat} {rs : List (List Byte)} {j k : Nat} {r : List Byte} (hnd : l.Nodup)
    (hk : l[j]? = some k) (hr : rs[j]? = some r) : slotAt (acceptEntries s q l rs) k = some (acceptedSlot s q j r) := by
  let written := (l.zip rs).zipIdx.map (fun e => (e.1.1, acceptedSlot s q e.2 e.1.2))
  have hslots : (jrn (acceptEntries s q l rs)).slots = written.foldl (fun m e => mset m e.1 e.2) (jrn s).slots := by
    unfold acceptEntries
    extract_lets e al t0 at' writes acc
    rw [jrn_request]
    have hw : writes = written.map (fun e => (e.1, some e.2)) := by
      simp only [writes, written, List.map_map]
      rfl
    show writes.foldl _ (jrn s).slots = _
    rw [hw, List.foldl_map]
  have hkeys : written.map (·.1) = (l.zip rs).map (·.1) := by
    simp only [written, List.map_map]
    conv_rhs => rw [← List.zipIdx_map_fst 0 (l.zip rs), List.map_map]
    rfl
  have hzip : (l.zip rs)[j]? = some (k, r) := by rw [List.getElem?_zip_eq_some]; exact ⟨hk, hr⟩
  have hmem : (k, acceptedSlot s q j r) ∈ written :=
    List.mem_map.mpr ⟨((k, r), j), List.mem_zipIdx_iff_getElem?.mpr hzip, rfl⟩
  rw [slotAt, hslots]
  refine mget?_foldl_mset written _ ?_ hmem
  rw [hkeys]
  exact hnd.sublist (map_fst_zip_sublist l rs)

/-- Settles O43. -/
theorem acceptanceAndCompletion : Obligations.AcceptanceAndCompletion := by
  intro q s e n rows slots asked whole
  refine ⟨accepts_iff s q.val, askEntries_frame s q.val n, fun h x => sqReadComplete_idle h x, fun hacc hn => ⟨fun hfree hw => ?_, fun x hfree hbad => ?_,
    fun hfull x => ?_⟩, fun l rs j k r hnd hk hr => ?_, fun k x hwork hup hroom hfind => ?_, fun h1 h2 h3 => ?_, fun h => ?_⟩
  · exact sqReadComplete_whole hacc hn hfree hw
  · obtain ⟨l, hl, -⟩ := askEntries_frame s q.val n
    have htries : (que asked q.val).tries = (que s q.val).tries := by
      show (que (askEntries s q.val n) q.val).tries = _
      rw [hl]
      rfl
    rw [← htries]
    exact (sqReadComplete_failed hacc hn hfree hbad).trans (congrArg _ (readFailed_eq asked q.val))
  · exact (sqReadComplete_eq hacc hn x).trans (if_pos hfull)
  · obtain ⟨h1, h2, h3, h4, h5⟩ := acceptedSlot_fields s q.val j r
    exact ⟨_, slotAt_acceptEntries s q.val hnd hk hr, h1, h2, h3, by rw [h4]; exact Nat.succ_ne_zero _, h4, h5⟩
  · have hpost : ∀ f, exec (.completionPost { q, fail := f }) s = if !(itemQuiet s k true) then .next s
        else if f then .next (gaugePost s 3 (q.val / 64) [BitVec.ofNat 64 (q.val % 64 + 2 ^ 6)] true)
        else .next (request s { slots := [(k, some { x with st := .posted, compl := x.compl.map (fun c => { c with lat := latNs s x }) })]
                                qs := [(q.val, { e with seq := e.seq + 1 })], eff := .write k }) := fun f => by
      show execCompletionPost { q, fail := f } s = _
      unfold execCompletionPost
      extract_lets k' e'
      rw [if_neg (by rw [hwork, hup, decide_eq_true (show (e'.seq - e'.head).toNat < 2 ^ e'.log2cq from hroom)]; decide),
        show (slotsOfQ s k').find? (fun x => x.2.seq = e'.seq && x.2.st == .completed) = some (k, x) from hfind]
    exact ⟨fun hq f => (hpost f).trans (if_pos (by rw [hq]; rfl)), fun hq => ⟨(hpost true).trans ((if_neg (by rw [hq]; decide)).trans (if_pos rfl)),
      (hpost false).trans ((if_neg (by rw [hq]; decide)).trans (if_neg (by decide)))⟩⟩
  · exact if_pos (by rw [h1, h2, decide_eq_true (show fld (rg s (qReg q.val + 0x14) 0x10000) 0 16 ≠ 0 from h3)]; rfl)
  · refine if_neg ?_
    simp only [Bool.and_eq_true, decide_eq_true_eq, not_and, and_imp]
    intro h1 h2 h3
    rcases h with h | h | h
    · rw [h] at h1; cases h1
    · rw [h] at h2; cases h2
    · exact h3 h

end Sys2Proof.Machine
end

section
/-! PROOFS. Gauge rings: their lines, their shares of the FIFO, and their registers (R399 to R405). -/

namespace Sys2Proof.Machine

open Sys2Proof

/-! ## Lines -/

section Lines
variable {s : State} {k : Nat}

/-- The requester ID of a ring's lines. -/
def ringFn (s : State) (k : Nat) : Nat := if k < 2 then 0 else allotFn s (k - 2)

/-- The line that a ring writes next, its place on the bus, and the ring after it. -/
def nextLine (s : State) (k : Nat) : List Packet := linePackets 8 (ringOf s k).waiting

def lineAddr (s : State) (k : Nat) : Nat := ringBase s k + (ringOf s k).wcount % ringWords s k * 8

def ringAfterLine (s : State) (k : Nat) : Ring :=
  { ringOf s k with wcount := (ringOf s k).wcount + 8, waiting := (ringOf s k).waiting.drop (nextLine s k).length
                    written := (ringOf s k).written + (nextLine s k).length, flush := false }

/-- A ring sends its vector, when it has one. -/
def ringVector (t : State) (k : Nat) : State :=
  if bit (ringCfg t k) 30 then
    if k < 2 then emit t (.msix (pfPort t k) 0 (fld (ringCfg t k) 14 11)) else allotMsg t (k - 2) (fld (ringCfg t k) 14 11)
  else t

theorem ringVector_eq (t : State) (k : Nat) : ringVector t k = { t with
    out := t.out ++ (if bit (ringCfg t k) 30 then [.msix (ringPort t k) (ringFn t k) (fld (ringCfg t k) 14 11)] else []) } := by
  unfold ringVector ringPort ringFn
  by_cases h : bit (ringCfg t k) 30 = true
  · rw [if_pos h, if_pos h]
    by_cases hk : k < 2
    · rw [if_pos hk, if_pos hk, if_pos hk]
      rfl
    · rw [if_neg hk, if_neg hk, if_neg hk]
      rfl
  · rw [if_neg h, if_neg h, List.append_nil]

/-- The state after the write of a ring's next line. -/
def lineWritten (s : State) (k : Nat) : State := { s with
  host := (busWrite s (lineAddr s k) (lineBytes (nextLine s k))).host
  rings := mset s.rings k (ringAfterLine s k)
  out := s.out ++ [.hostWrite (ringPort s k) (ringFn s k) (lineAddr s k) (lineBytes (nextLine s k)) false] }

theorem busWrite_frame (s : State) (a : Nat) (bs : List Byte) : busWrite s a bs = { s with host := (busWrite s a bs).host } := rfl

/-- A line of a ring that owes no OVERFLOW packet. -/
theorem writeLine_eq (h : (ringOf s k).sinceOvf = 0) : writeLine s k = ringVector (lineWritten s k) k := by
  have hover : postOverflow s k = s := if_pos h
  unfold writeLine
  rw [hover]
  extract_lets s0 r l a sent t c
  have hs : sent = hostPut s (ringPort s k) (ringFn s k) (lineAddr s k) (lineBytes (nextLine s k)) := rfl
  have ht : t = lineWritten s k := by
    have hsent : sent = { s with
        host := (busWrite s (lineAddr s k) (lineBytes (nextLine s k))).host
        out := s.out ++ [.hostWrite (ringPort s k) (ringFn s k) (lineAddr s k) (lineBytes (nextLine s k)) false] } := by
      rw [hs, hostPut, busWrite_frame]
      rfl
    simp only [t]
    clear_value sent
    rw [hsent]
    rfl
  have hc : c = ringCfg t k := rfl
  clear_value t c
  rw [hc, ht]
  rfl

theorem out_writeLine (h : (ringOf s k).sinceOvf = 0) : (writeLine s k).out =
    s.out ++ [.hostWrite (ringPort s k) (ringFn s k) (lineAddr s k) (lineBytes (nextLine s k)) false] ++
      (if bit (ringCfg s k) 30 then [.msix (ringPort s k) (ringFn s k) (fld (ringCfg s k) 14 11)] else []) := by
  rw [writeLine_eq h, ringVector_eq]
  rfl

theorem ringOf_mset (s : State) (k j : Nat) (r : Ring) : ringOf { s with rings := mset s.rings k r } j = if j = k then r else ringOf s j := by
  unfold ringOf
  split
  next h => rw [h]; exact mget_mset_same _ _ _ _
  next h => exact mget_mset_other _ _ _ _ _ h

theorem ringOpen_iff : ringOpen s k = true ↔
    ((ringOn s k = true ∧ hdAlive s (ringHd s k) = true) ∧ portUp s (ringPort s k) = true) ∧ ringRoom s k = true := by
  simp only [ringOpen, Bool.and_eq_true]

theorem ringPort_eq (s : State) (k : Nat) : ringPort s k =
    (if k < 2 then (if portUp s k = false ∧ portUp s (1 - k) = true then 1 - k else k) else (allot s (k - 2)).owner) := by
  simp only [ringPort, pfPort, Bool.and_eq_true, Bool.not_eq_true']

/-- A ring that is marked to be flushed is open when it was. -/
theorem ringOpen_flush (s : State) (k : Nat) : ringOpen { s with rings := mset s.rings k { ringOf s k with flush := true } } k = ringOpen s k := by
  have hring := ringOf_mset s k k { ringOf s k with flush := true }
  rw [if_pos rfl] at hring
  have hroom : ringRoom { s with rings := mset s.rings k { ringOf s k with flush := true } } k = ringRoom s k := by
    unfold ringRoom
    rw [hring]
    rfl
  unfold ringOpen
  rw [hroom]
  rfl

theorem gaugeLineWrite_shut {ring : Fin 1026} (h : ringOpen s ring.val = false ∨ lineDue (ringOf s ring.val) = false) :
    exec (.gaugeLineWrite ring) s = .next s := by
  refine if_neg ?_
  rw [Bool.and_eq_true]
  rintro ⟨h1, h2⟩
  rcases h with h | h
  · rw [h] at h1; cases h1
  · rw [h] at h2; cases h2

end Lines

/-! ## Registers -/

section Registers
variable {s : State} {p : Fin 2} {ring : Fin 1026} {v : W32}

/-- The first register of a ring. -/
def ringReg (k : Nat) : Nat := if k < 2 then hBase k + 0x50000 else allotBase (k - 2) + 0x1C

/-- A size and configuration that keep their ranges. -/
def ringCfgGood (s : State) (k : Nat) (v : W32) : Prop := 9 ≤ fld v 25 5 ∧ fld v 25 5 ≤ 16 ∧ fld v 0 8 ≠ 0 ∧
  (if k < 2 then 16 ≤ fld v 14 11 else vecOk s (k - 2) (fld v 14 11) 64 = true)

theorem exec_gaugeCfgWrite_base (hup : regsUp s = true) (hreset : s.resetting = none) (reg : Fin 3) (hreg : reg.val < 2) :
    exec (.gaugeCfgWrite (.pf p) ring reg v) s = .next
      (if bit (ringCfg s ring.val) 31 then restartRing (setRg s (ringReg ring.val + 4 * reg.val) (if reg.val = 0 then v &&& 0xFFFFFFC0#32 else v)) ring.val
       else setRg s (ringReg ring.val + 4 * reg.val) (if reg.val = 0 then v &&& 0xFFFFFFC0#32 else v)) :=
  congrArg Host.Outcome.next ((pfWrite_pf hup hreset _ _ _ _).trans (if_pos hreg))

theorem exec_gaugeCfgWrite_cfg (hup : regsUp s = true) (hreset : s.resetting = none) (hgood : ringCfgGood s ring.val v) :
    exec (.gaugeCfgWrite (.pf p) ring 2 v) s = .next
      (if bit v 31 || bit (ringCfg s ring.val) 31 then restartRing (setRg s (ringReg ring.val + 8) (v &&& 0xFFFFC0FF#32)) ring.val
       else setRg s (ringReg ring.val + 8) (v &&& 0xFFFFC0FF#32)) := by
  obtain ⟨h1, h2, h3, h4⟩ := hgood
  refine congrArg Host.Outcome.next ((pfWrite_pf hup hreset _ _ _ _).trans ((if_neg (by decide)).trans (if_neg ?_)))
  simp only [Bool.or_eq_true, decide_eq_true_eq, Bool.not_eq_true', not_or, Bool.not_eq_false]
  refine ⟨⟨⟨by omega, by omega⟩, h3⟩, ?_⟩
  by_cases hk : ring.val < 2
  · rw [if_pos hk] at h4 ⊢
    exact decide_eq_true h4
  · rw [if_neg hk] at h4 ⊢
    exact h4

theorem exec_gaugeCfgWrite_bad (hup : regsUp s = true) (hreset : s.resetting = none) (hbad : ¬ ringCfgGood s ring.val v) :
    exec (.gaugeCfgWrite (.pf p) ring 2 v) s = .next (logDropped s (ringReg ring.val + 8) v.toNat) := by
  refine congrArg Host.Outcome.next ((pfWrite_pf hup hreset _ _ _ _).trans ((if_neg (by decide)).trans (if_pos ?_)))
  by_contra hno
  simp only [Bool.or_eq_true, decide_eq_true_eq, Bool.not_eq_true', not_or, Bool.not_eq_false] at hno
  obtain ⟨⟨⟨h1, h2⟩, h3⟩, h4⟩ := hno
  refine hbad ⟨by omega, by omega, h3, ?_⟩
  by_cases hk : ring.val < 2
  · rw [if_pos hk] at h4 ⊢
    exact of_decide_eq_true h4
  · rw [if_neg hk] at h4 ⊢
    exact h4

theorem exec_gaugeHeadWrite (hup : regsUp s = true) (hreset : s.resetting = none) : exec (.gaugeHeadWrite (.pf p) ring v) s = .next
    (if 2 ≤ ring.val ∧ s.mode = .maintenance then s else setRg s (ringHeadReg ring.val) v) := by
  show execGaugeHeadWrite (.pf p) ring v s = _
  unfold execGaugeHeadWrite
  extract_lets k
  by_cases hk : k < 2
  · rw [if_pos hk, if_neg (by omega), pfWrite_pf hup hreset]
  · rw [if_neg hk, if_neg (by simp [reachesPage]), hup]
    by_cases hm : s.mode = .maintenance
    · rw [if_neg (by simp [hm]), if_pos ⟨by omega, hm⟩]
    · rw [if_pos (by simp [hm]), if_neg (fun h => hm h.2)]

end Registers

/-- Settles O44. -/
theorem gauge : Obligations.Gauge := by
  refine ⟨fun ring s => ?_, fun p ring v s hup hreset => ?_⟩
  · intro k r fn
    refine ⟨fun hopen hdue hovf => ⟨writeLine s k, if_pos (by rw [hopen, hdue]; rfl), ?_, ?_, fun j hj => ?_, ?_⟩, fun hopen => ?_, ringPort_eq s k,
      gaugeLineWrite_shut, fun hw => if_pos (by rw [hw]; rfl), fun hw => ?_, fun w hfit => if_pos hfit, fun w hno => if_neg (Nat.not_le.mpr hno)⟩
    · rw [writeLine_eq hovf, ringVector_eq]
      exact (ringOf_mset s k k _).trans (if_pos rfl)
    · rw [writeLine_eq hovf, ringVector_eq]
      rfl
    · rw [writeLine_eq hovf, ringVector_eq]
      exact (ringOf_mset s k j _).trans (if_neg hj)
    · exact out_writeLine hovf
    · obtain ⟨⟨⟨hon, -⟩, hport⟩, -⟩ := ringOpen_iff.mp hopen
      exact ⟨hon, hport⟩
    · intro f
      rw [← ringOpen_flush s k]
      exact if_neg (by simpa using hw)
  · intro k off was good starts wr
    have hoff : off = ringReg k := rfl
    have hbase : ∀ (reg : Fin 3), reg.val < 2 → exec (.gaugeCfgWrite (.pf p) ring reg v) s = _ := exec_gaugeCfgWrite_base hup hreset
    refine ⟨exec_gaugeHeadWrite hup hreset, fun h => ?_, fun h => ?_, fun hg hst => ?_, fun hg hst => ?_, fun hb => exec_gaugeCfgWrite_bad hup hreset hb⟩
    · have hno : ¬ bit (ringCfg s ring.val) 31 = true := Bool.eq_false_iff.mp h
      exact ⟨(hbase 0 (by decide)).trans (congrArg _ (if_neg hno)), (hbase 1 (by decide)).trans (congrArg _ (if_neg hno))⟩
    · exact ⟨(hbase 0 (by decide)).trans (congrArg _ (if_pos h)), (hbase 1 (by decide)).trans (congrArg _ (if_pos h))⟩
    · exact (exec_gaugeCfgWrite_cfg hup hreset hg).trans (congrArg _ (if_neg (by rw [Bool.or_eq_true]; exact hst)))
    · exact (exec_gaugeCfgWrite_cfg hup hreset hg).trans (congrArg _ (if_pos (by rw [Bool.or_eq_true]; exact hst)))

end Sys2Proof.Machine
end

section
/-! PROOFS. The registers of an allotment, and its RESET and KILL (R384, R386, R289). -/

namespace Sys2Proof.Machine

open Sys2Proof

section AllotmentWrites
variable {s : State} {p : Fin 2} {al : Fin 1024} {v : W32}

theorem allotCfgWrite_cfg (hup : regsUp s = true) (hreset : s.resetting = none) : exec (.allotCfgWrite (.pf p) al 0 v) s = .next
    (if allotCfgBad s al.val v then logDropped s (allotBase al.val) v.toNat else writeAllotCfg s al.val v) :=
  congrArg Host.Outcome.next (pfWrite_pf hup hreset _ _ _ _)

/-- A write of the grants of half the grid. -/
theorem allotCfgWrite_grant (hup : regsUp s = true) (hreset : s.resetting = none) (h : Fin 2) :
    let reg : Fin 5 := if h = 0 then 1 else 2
    exec (.allotCfgWrite (.pf p) al reg v) s = .next
      (if mixesExpress s al.val (allotClass s al.val == 2) (fun tg => if tg / 32 = h.val then bit v (tg % 32) else allotGrant s al.val tg)
       then logDropped s (allotBase al.val + 4 * reg.val) v.toNat else setRg s (allotBase al.val + 4 * reg.val) v) := by
  match h with
  | 0 => exact congrArg Host.Outcome.next (pfWrite_pf hup hreset _ _ _ _)
  | 1 => exact congrArg Host.Outcome.next (pfWrite_pf hup hreset _ _ _ _)

/-- A command of an allotment: logged and dropped while one runs. -/
theorem allotCommand_pf (hup : regsUp s = true) (hreset : s.resetting = none) (a op : Nat) (f : State → State) :
    allotCommand (.pf p) a op s f = if (allot s a).cmd.isSome then logDropped s (allotBase a + 0x14) (op * 2 ^ 29) else f s :=
  pfWrite_pf (s := s) hup hreset p (allotBase a + 0x14) (op * 2 ^ 29) (fun s => if (allot s a).cmd.isSome then logDropped s (allotBase a + 0x14) (op * 2 ^ 29) else f s)

/-- A KILL completes the items in flight that are not in their commit. -/
theorem allotKillOp_eq (s : State) (a : Nat) : allotKillOp s a = scrubAllot (updAllot ((inFlight s a).foldl (fun s e =>
    if e.2.st = .committing then s else completeItem (stopItem s e.1) e.1 4 0) s) a (fun x => { x with cmd := some .kill })) a := by
  unfold allotKillOp
  simp only [beq_iff_eq]

theorem allotCmdDone_ends {c : AllotCmd} (hc : (allot s al.val).cmd = some c) (hscrub : (allot s al.val).scrubs = [])
    (hposted : c = .kill → abortedPosted s al.val = true) : exec (.allotCmdDone al) s =
      .next (gaugePost (updAllot s al.val (fun x => { x with cmd := none })) 4 al.val [if c = .kill then 2 else 1] true) := by
  show execAllotCmdDone al s = _
  unfold execAllotCmdDone
  extract_lets a
  rw [show (mget s.allots a {}).cmd = some c from hc]
  refine if_neg ?_
  rw [show (mget s.allots a {}).scrubs = [] from hscrub, Bool.or_eq_true, Bool.and_eq_true, Bool.not_eq_true']
  rintro (h | ⟨h1, h2⟩)
  · cases h
  · rw [hposted (of_decide_eq_true h1)] at h2
    cases h2

theorem allotCmdDone_waits (h : (allot s al.val).cmd = none ∨ (allot s al.val).scrubs ≠ []) : exec (.allotCmdDone al) s = .next s := by
  show execAllotCmdDone al s = _
  unfold execAllotCmdDone
  extract_lets a
  cases hc : (mget s.allots a {}).cmd with
  | none => rfl
  | some c =>
    have hs : (mget s.allots a {}).scrubs ≠ [] := h.resolve_left (fun h0 => by rw [show (allot s a).cmd = some c from hc] at h0; cases h0)
    exact if_pos (by rw [List.isEmpty_eq_false_iff.mpr hs]; rfl)

end AllotmentWrites

/-- Settles O45. -/
theorem allotments : Obligations.Allotments := by
  refine ⟨fun p al v s hup hreset => ?_, fun p al s hup hreset => ?_⟩
  · intro a wr set
    refine ⟨fun h => (allotCfgWrite_cfg hup hreset).trans (congrArg _ (if_pos h)), fun h => ?_, congrArg Host.Outcome.next (pfWrite_pf hup hreset _ _ _ _),
      congrArg Host.Outcome.next (pfWrite_pf hup hreset _ _ _ _), fun h => ?_⟩
    · have hwr : exec (.allotCfgWrite (.pf p) al 0 v) s = .next (writeAllotCfg s a v) :=
        (allotCfgWrite_cfg hup hreset).trans (congrArg _ (if_neg (Bool.eq_false_iff.mp h)))
      refine ⟨fun hv hen => hwr.trans (congrArg _ (if_pos ?_)), fun hv => hwr.trans (congrArg _ (if_neg ?_))⟩
      · rw [hv, hen]; rfl
      · rcases hv with hv | hv
        · rw [hv, Bool.false_and]; exact Bool.false_ne_true
        · rw [hv, Bool.not_true, Bool.and_false]; exact Bool.false_ne_true
    · intro mixes reg
      exact ⟨fun hm => (allotCfgWrite_grant hup hreset h).trans (congrArg _ (if_pos hm)),
        fun hm => (allotCfgWrite_grant hup hreset h).trans (congrArg _ (if_neg (Bool.eq_false_iff.mp hm)))⟩
  · intro a begun
    have hr : exec (.allotReset (.pf p) al) s = .next _ := congrArg Host.Outcome.next (allotCommand_pf hup hreset a 1 _)
    have hk : exec (.allotKill (.pf p) al) s = .next _ := congrArg Host.Outcome.next (allotCommand_pf hup hreset a 2 _)
    refine ⟨fun h => ?_, fun h => ?_, fun c hc hscrub hposted => allotCmdDone_ends hc hscrub hposted, allotCmdDone_waits⟩
    · have hno : ¬ (allot s a).cmd.isSome = true := by rw [h]; exact Bool.false_ne_true
      exact ⟨hr.trans (congrArg _ (if_neg hno)), hk.trans (congrArg _ ((if_neg hno).trans (allotKillOp_eq s a)))⟩
    · have hyes : (allot s a).cmd.isSome = true := Option.isSome_iff_ne_none.mpr h
      exact ⟨hr.trans (congrArg _ (if_pos hyes)), hk.trans (congrArg _ (if_pos hyes))⟩

end Sys2Proof.Machine
end

section
/-! PROOFS. Reads and writes of registers through the BARs (R8 to R11, R515 to R520). -/

namespace Sys2Proof.Machine

open Sys2Proof

/-! ## Reads -/

section Reads
variable {s : State} {p : Fin 2} {off : BitVec 28}

/-- PF0 reads BAR0 while the registers answer: the bytes of the registers read, one after another. -/
theorem hostRead_pf (hup : regsUp s = true) (o : Nat) (sz : AccSize) : hostRead (.pf p) .bar0 o sz s =
    emit (readBytes s (.pf p) .bar0 o sz.bytes).2 (.data (readBytes s (.pf p) .bar0 o sz.bytes).1 false) := by
  unfold hostRead
  extract_lets n
  rw [if_neg (by rw [show barServes .bar0 (.pf p) = true from rfl]; decide), if_pos hup]

/-- A read of one whole register. -/
theorem readBytes_word (h : off.toNat % 4 = 0) : readBytes s (.pf p) .bar0 off.toNat 4 =
    (leBytes 4 (readReg s 0 off.toNat).1.toNat, (readReg s 0 off.toNat).2) := by
  have ho : off.toNat / 4 * 4 + 4 * 0 = off.toNat := by omega
  unfold readBytes
  rw [h, show (List.range ((0 + 4 + 3) / 4)) = [0] from rfl]
  simp only [List.foldl_cons, List.foldl_nil, List.nil_append, List.drop_zero, ho]
  rw [List.take_of_length_le (by rw [length_leBytes])]
  rfl

/-- A read of two registers, the lower address first. -/
theorem readBytes_pair (h : off.toNat % 4 = 0) : readBytes s (.pf p) .bar0 off.toNat 8 =
    (leBytes 4 (readReg s 0 off.toNat).1.toNat ++ leBytes 4 (readReg (readReg s 0 off.toNat).2 0 (off.toNat + 4)).1.toNat,
      (readReg (readReg s 0 off.toNat).2 0 (off.toNat + 4)).2) := by
  have h0 : off.toNat / 4 * 4 + 4 * 0 = off.toNat := by omega
  have h1 : off.toNat / 4 * 4 + 4 * 1 = off.toNat + 4 := by omega
  unfold readBytes
  rw [h, show (List.range ((0 + 8 + 3) / 4)) = [0, 1] from rfl]
  simp only [List.foldl_cons, List.foldl_nil, List.nil_append, List.drop_zero, h0, h1]
  rw [List.take_of_length_le (by rw [List.length_append, length_leBytes, length_leBytes])]
  rfl

/-- A read of one byte reads its register whole. -/
theorem readBytes_byte : readBytes s (.pf p) .bar0 off.toNat 1 =
    ([(leBytes 4 (readReg s 0 (off.toNat / 4 * 4)).1.toNat).getD (off.toNat % 4) 0], (readReg s 0 (off.toNat / 4 * 4)).2) := by
  have hn : (off.toNat % 4 + 1 + 3) / 4 = 1 := by omega
  have hlt : off.toNat % 4 < (leBytes 4 (readReg s 0 (off.toNat / 4 * 4)).1.toNat).length := by rw [length_leBytes]; omega
  unfold readBytes
  rw [hn, show List.range 1 = [0] from rfl]
  simp only [List.foldl_cons, List.foldl_nil, List.nil_append, Nat.mul_zero, Nat.add_zero]
  change (((leBytes 4 (readReg s 0 (off.toNat / 4 * 4)).1.toNat).drop (off.toNat % 4)).take 1, _) = _
  rw [List.drop_eq_getElem_cons hlt, List.take_succ_cons, List.take_zero, List.getD_eq_getElem _ _ hlt]
  rfl

/-! ## One register -/

variable {o : Nat} (hans : blockAnswers s o = true)
include hans

/-- The low half of a counter latches its high half. -/
theorem readReg_low (hlow : isCounterLow o = true) : readReg s 0 o =
    ((counter s o).setWidth 32, { s with shadows := mset s.shadows o ((counter s o >>> 32).setWidth 32) }) := by
  unfold readReg
  rw [if_neg (by rw [hans]; decide), if_pos hlow, show shadowKey 0 o = o by rw [shadowKey, Nat.zero_mul, Nat.zero_add]]

/-- The high half of a counter is the half that was latched. -/
theorem readReg_high (hlow : isCounterLow o = false) (h4 : 4 ≤ o) (hprev : isCounterLow (o - 4) = true) :
    readReg s 0 o = (mget s.shadows (o - 4) 0, s) := by
  unfold readReg
  rw [if_neg (by rw [hans]; decide), if_neg (Bool.eq_false_iff.mp hlow), if_pos (by rw [hprev, decide_eq_true h4]; rfl),
    show shadowKey 0 (o - 4) = o - 4 by rw [shadowKey, Nat.zero_mul, Nat.zero_add]]

/-- A register that is no half of a counter, whose fields that a read clears are cleared. -/
theorem readReg_plain (hlow : isCounterLow o = false) (hprev : o < 4 ∨ isCounterLow (o - 4) = false) : readReg s 0 o = (regRead s o, clearRc s o) := by
  unfold readReg
  rw [if_neg (by rw [hans]; decide), if_neg (Bool.eq_false_iff.mp hlow), if_neg]
  rw [Bool.and_eq_true, decide_eq_true_eq]
  rintro ⟨h4, hp⟩
  rcases hprev with h | h
  · omega
  · rw [h] at hp; cases hp

end Reads

/-! ## Writes -/

section Writes
variable {s : State} {p : Fin 2} {off : BitVec 28} {v : BitVec 64}

/-- A write narrower than 32 bits or off its alignment. -/
theorem exec_regWrite_part (hup : regsUp s = true) {bar : Bar} {n : AccSize} (hbar : bar = .bar0 ∨ bar = .bar2)
    (hn : n = .b1 ∨ n = .b2 ∨ off.toNat % 4 ≠ 0) :
    exec (.regWrite (.pf p) bar off n v) s = .next (rasAppend s 0x01 0 0 0 none (writeDetail bar (.pf p) off.toNat)) := by
  have hserves : barServes bar (.pf p) = true := by rcases hbar with rfl | rfl <;> rfl
  have hpart : ¬ ((decide (4 ≤ n.bytes) && off.toNat % 4 == 0) = true) := by
    rw [Bool.and_eq_true, decide_eq_true_eq, beq_iff_eq]
    rintro ⟨h1, h2⟩
    rcases hn with rfl | rfl | h
    · exact absurd h1 (by decide)
    · exact absurd h1 (by decide)
    · exact h h2
  show execRegWrite (.pf p) bar off n v s = _
  unfold execRegWrite
  extract_lets o whole drop
  rw [if_neg (by rw [hup]; decide), if_neg Requester.noConfusion, if_neg (by rw [hserves]; decide), if_neg hpart]

/-- An aligned write of whole registers of BAR0 by PF0. -/
theorem exec_regWrite_whole (hup : regsUp s = true) {n : AccSize} (hn : 4 ≤ n.bytes) (ho : off.toNat % 4 = 0) :
    exec (.regWrite (.pf p) .bar0 off n v) s = .next (writeWords (barWrite .bar0 (.pf p)) off.toNat n v s) := by
  show execRegWrite (.pf p) .bar0 off n v s = _
  unfold execRegWrite
  extract_lets o whole drop
  have hwhole : whole = true := by simp only [whole, o, hn, ho]; rfl
  rw [if_neg (by rw [hup]; decide), if_neg Requester.noConfusion, if_neg (by rw [show barServes .bar0 (.pf p) = true from rfl]; decide), if_pos hwhole]

theorem exec_regWrite_unserved (hup : regsUp s = true) {r : Requester} {bar : Bar} (hr : r ≠ .exmas) (h : barServes bar r = false) (n : AccSize) :
    exec (.regWrite r bar off n v) s = .next s := by
  show execRegWrite r bar off n v s = _
  unfold execRegWrite
  extract_lets o whole drop
  rw [if_neg (by rw [hup]; decide), if_neg hr, if_pos (by rw [h]; rfl)]

/-- A plain register of a terrace, but for the selector of the arrays' debug mode. -/
theorem plainWrite_terrace {o tg rel : Nat} {row : RegRow} {w : W32} {r : Requester} (hplace : placeOf o = (.terr, tg, rel)) (hrel : rel ≠ 0x1120)
    (hrow : regRow o = some row) (hreset : s.resetting = none) (hridge : s.ridgeFailed.contains (tg / 4) = false)
    (hrw : row.rw ||| row.rws ||| row.w1c ≠ 0) (hrange : outOfRange o w = false) :
    plainWrite s r o w = setRg s o (((rg s o row.reset &&& ~~~(row.rw ||| row.rws)) ||| (w &&& (row.rw ||| row.rws))) &&& ~~~(w &&& row.w1c)) := by
  have hans : blockAnswers s o = true := by rw [blockAnswers, hplace]; simp only [hridge]; rfl
  have hput : putReg s o row w =
      setRg s o (((rg s o row.reset &&& ~~~(row.rw ||| row.rws)) ||| (w &&& (row.rw ||| row.rws))) &&& ~~~(w &&& row.w1c)) := by
    unfold putReg
    rw [hplace]
    dsimp only
    split
    next h => cases h; exact absurd rfl hrel
    next h => cases h
    next => rfl
  have hdebug : (match placeOf o with
      | (.terr, _, 0x1120) => true
      | _ => false) = false := by
    rw [hplace]
    split
    next h => cases h; exact absurd rfl hrel
    next => rfl
  unfold plainWrite
  rw [hrow]
  dsimp -zeta only
  extract_lets debug
  rw [if_neg (by rw [hreset]; decide), if_neg (by rw [hans]; simpa using hrw), if_neg (by rw [hrange, show debug = false from hdebug, Bool.false_and]; decide), hput]

end Writes

/-- Settles O46: the reads by the registers they take, in rising order, the writes by their size and their place. -/
theorem registers : Obligations.Registers := by
  refine ⟨fun p off s => ?_, fun p off v s hup => ?_⟩
  · intro o answers
    refine ⟨fun n q sz => ⟨rfl, rfl⟩, fun hup ho hans => ?_, fun hup => ?_, fun hboot h14 => ?_⟩
    · intro low high latched
      have hread : ∀ (x : W32) (u : State), readReg s 0 o = (x, u) → hostRead (.pf p) .bar0 o .b4 s = answers u (leBytes 4 x.toNat) := fun x u h => by
        rw [hostRead_pf hup, show AccSize.bytes .b4 = 4 from rfl, readBytes_word ho, h]
        rfl
      refine ⟨fun hlow => congrArg _ (hread _ _ (readReg_low hans hlow)), fun hlow hno hans' => ?_, fun hno h4 hprev =>
        congrArg _ (hread _ _ (readReg_high hans hno h4 hprev)), fun hno hprev => congrArg _ (hread _ _ (readReg_plain hans hno hprev))⟩
      have hhigh : readReg latched 0 (o + 4) = (high, latched) := by
        rw [readReg_high (s := latched) (by exact hans') hno (by omega) (by rw [Nat.add_sub_cancel]; exact hlow), Nat.add_sub_cancel]
        exact congrArg (·, latched) (mget_mset_same _ _ _ _)
      have hpair : hostRead (.pf p) .bar0 o .b8 s = answers latched (low ++ leBytes 4 high.toNat) := by
        rw [hostRead_pf hup, show AccSize.bytes .b8 = 8 from rfl, readBytes_pair ho, readReg_low hans hlow]
        rw [show readReg { s with shadows := mset s.shadows o ((counter s o >>> 32).setWidth 32) } 0 (off.toNat + 4) = (high, latched) from hhigh]
        rfl
      exact congrArg _ hpair
    · intro r hlow hprev hans
      have hbyte : hostRead (.pf p) .bar0 o .b1 s = answers (clearRc s r) [(leBytes 4 (regRead s r).toNat).getD (o % 4) 0] := by
        rw [hostRead_pf hup, show AccSize.bytes .b1 = 1 from rfl, readBytes_byte, readReg_plain hans hlow hprev]
        rfl
      exact congrArg _ hbyte
    · have hdown : ¬ regsUp s = true := by rw [regsUp, hboot]; exact Bool.false_ne_true
      have hread : hostRead (.pf p) .bar0 o .b4 s = answers s [0, 0, 0, 0] := by
        unfold hostRead
        extract_lets n
        rw [if_neg (by rw [show barServes .bar0 (.pf p) = true from rfl]; decide), if_neg hdown, if_pos hboot]
        have hz : ∀ i, (if (Bar.bar0 = .bar0 && o + i < 0x14) = true then (leBytes 4 (regRead s ((o + i) / 4 * 4)).toNat).getD ((o + i) % 4) 0 else 0) = 0 :=
          fun i => if_neg (by simp; omega)
        rw [List.map_congr_left (fun i _ => hz i)]
        rfl
      exact congrArg _ hread
  · intro o
    refine ⟨fun bar n hbar hn => exec_regWrite_part hup hbar hn, fun n q sz => ⟨exec_regWrite_unserved hup Requester.noConfusion rfl sz,
      exec_regWrite_unserved hup Requester.noConfusion rfl sz, exec_regWrite_unserved hup Requester.noConfusion rfl sz⟩, fun ho => exec_regWrite_whole hup (by decide) ho,
      fun tg rel row ho hplace hrel hrow hreset hridge hrw hrange => ?_⟩
    have hterr : write32 (.pf p) o (v.setWidth 32) s = plainWrite s (.pf p) o (v.setWidth 32) := by
      unfold write32
      rw [hplace]
      exact if_pos hup
    rw [exec_regWrite_whole hup (by decide) ho]
    exact congrArg _ (hterr.trans (plainWrite_terrace hplace hrel hrow hreset hridge hrw hrange))

end Sys2Proof.Machine
end

section
/-! PROOFS. Journal steps, retirements, and the parts that fail: ridges with their lanes and routes, islands, lanes (R19 to R26, R238, R409 to R429). -/

namespace Sys2Proof.Machine

open Sys2Proof

/-! ## Journal steps -/

section Steps
variable {s : State} {st : JStep} {rest : List JStep}

theorem exec_journalStepComplete (h : s.jsteps = st :: rest) :
    exec .journalStepComplete s = .next (stepEffect (holdStep { s with jsteps := rest } st) st.eff) := by
  show Host.Outcome.next (completeStep s) = _
  rw [completeStep, h]

/-- The other copy takes a step, and both count a replay. -/
theorem holdStep_both (hf : s.hdFailed = []) : holdStep s st =
    if st.replays then countReplays { s with jrn1 := applyStep s.jrn1 st } 1 1 else { s with jrn1 := applyStep s.jrn1 st } :=
  if_neg (by rw [hf]; decide)

theorem holdStep_alone (hf : s.hdFailed ≠ []) : holdStep s st = s := if_pos (by simpa using hf)

end Steps

/-! ## Retirements -/

section Retire
variable {s : State}

theorem exec_retirementStart {trigger : Nat} {tgs : List Nat} {rest : List (Nat × List Nat)} (hup : regsUp s = true) (hreset : s.resetting = none)
    (hidle : retiring s = none) (hq : s.retQ = (trigger, tgs) :: rest) (hne : tgs ≠ []) (hlive : ∀ tg ∈ tgs, (terrace s tg).retired = false) :
    exec .retirementStart s = .next (recordStep (tgs.foldl (fun s tg => updTerrace s tg (fun t => { t with retiring := true })) { s with retQ := rest })
      { tgs, trigger, ridge := tgs.length = 4, rstep := 0 } 0) := by
  have hall : tgs.filter (fun tg => !(terrace s tg).retired) = tgs := List.filter_eq_self.mpr (fun tg h => by rw [hlive tg h]; rfl)
  show execRetirementStart s = _
  unfold execRetirementStart
  rw [if_neg (by rw [hreset, hidle, hup]; decide), hq]
  dsimp only
  rw [hall, if_neg (by simpa using hne)]

theorem exec_retirementStepDone {r : RetRec} (hreset : s.resetting = none) (hr : retiring s = some r) :
    exec .retirementStepDone s = if r.rstep = 2 ∧ (∃ tg ∈ r.tgs, tg / 4 ∈ s.ridgeFailed) ∧ s.canalFence ≠ [] then .next s
      else .next (followRidges (recordStep (retireStep s r (r.rstep + 1)) r (r.rstep + 1))) := by
  show execRetirementStepDone s = _
  unfold execRetirementStepDone
  rw [hr, hreset]
  simp only [Option.isSome_none, Bool.false_or, Bool.and_eq_true, decide_eq_true_eq, List.any_eq_true, List.contains_iff_mem, Bool.not_eq_true',
    List.isEmpty_eq_false_iff, and_assoc]

/-- Terraces updated one after another, with an update that can be repeated: each listed one has it. -/
theorem terrace_foldl_updTerrace_mem {P : Terrace → Prop} {f : Terrace → Terrace} (hf : ∀ t, P (f t)) (l : List Nat) (s : State) {tg : Nat} (h : tg ∈ l) :
    P (terrace (l.foldl (fun s tg => updTerrace s tg f) s) tg) := by
  have hstep : ∀ (l : List Nat) (s : State), P (terrace s tg) ∨ tg ∈ l → P (terrace (l.foldl (fun s tg => updTerrace s tg f) s) tg) := fun l => by
    induction l with
    | nil => exact fun s h => h.resolve_right List.not_mem_nil
    | cons a l ih =>
      refine fun s h => ih (updTerrace s a f) ?_
      by_cases ha : tg = a
      · subst ha
        exact .inl (by rw [terrace_updTerrace_same]; exact hf _)
      · rw [terrace_updTerrace_other _ _ _ _ ha]
        exact h.imp_right (fun h => (List.mem_cons.mp h).resolve_left ha)
  exact hstep l s (.inr h)

theorem retireStep_closed (s : State) (r : RetRec) {tg : Nat} (h : tg ∈ r.tgs) :
    (terrace (retireStep s r 7) tg).retired = true ∧ (terrace (retireStep s r 7) tg).pstate = .gated := by
  let closed := r.tgs.foldl (fun s tg => updTerrace s tg (fun t => { t with retired := true, recorded := true, retiring := false, pstate := .gated })) s
  have hlog : LogOnly closed (retireStep s r 7) := (rasAppend_logOnly _ _ _ _ _ _).trans (intCause_logOnly _)
  rw [show terrace (retireStep s r 7) tg = terrace closed tg by unfold terrace; rw [hlog]]
  exact terrace_foldl_updTerrace_mem (P := fun t => t.retired = true ∧ t.pstate = .gated) (fun _ => ⟨rfl, rfl⟩) r.tgs s h

end Retire

/-! ## States with one mesh -/

section SameMesh
variable {s t u : State}

/-- The states have the same failed ridges, lanes and fences, and alternate routes. -/
structure SameMesh (s t : State) : Prop where
  ridgeFailed : t.ridgeFailed = s.ridgeFailed
  lanes : t.lanes = s.lanes
  canalAlt : t.canalAlt = s.canalAlt
  canalFence : t.canalFence = s.canalFence

theorem SameMesh.refl (s : State) : SameMesh s s := ⟨rfl, rfl, rfl, rfl⟩

theorem SameMesh.trans (h : SameMesh s t) (h' : SameMesh t u) : SameMesh s u :=
  ⟨h'.ridgeFailed.trans h.ridgeFailed, h'.lanes.trans h.lanes, h'.canalAlt.trans h.canalAlt, h'.canalFence.trans h.canalFence⟩

theorem SameMesh.foldl {β : Type} {f : State → β → State} (hf : ∀ t b, SameMesh t (f t b)) (l : List β) (s : State) : SameMesh s (l.foldl f s) := by
  induction l generalizing s with
  | nil => exact .refl s
  | cons b l ih => exact (hf s b).trans (ih (f s b))

theorem LogOnly.sameMesh (h : LogOnly s t) : SameMesh s t := ⟨by rw [h], by rw [h], by rw [h], by rw [h]⟩

theorem SameMesh.laneAt (h : SameMesh s t) (n : Nat) : laneAt t n = laneAt s n := by unfold Machine.laneAt; rw [h.lanes]

end SameMesh

/-! ## Lanes -/

section Lanes
variable {s : State} {n m : Nat}

theorem laneAt_updLane_same (s : State) (n : Nat) (f : FLane → FLane) : laneAt (updLane s n f) n = f (laneAt s n) := mget_mset_same _ _ _ _

theorem laneAt_updLane_other (s : State) (f : FLane → FLane) (h : m ≠ n) : laneAt (updLane s n f) m = laneAt s m := mget_mset_other _ _ _ _ _ h

theorem mem_takeOver (l : FLane) (moved : List FCtx) (x : FCtx) : x ∈ (l.takeOver moved).ctxs ↔ x ∈ l.ctxs ∨ x ∈ moved := by
  show x ∈ sortBy _ (l.ctxs ++ moved) ↔ _
  rw [mem_sortBy, List.mem_append]

/-- The state after a lane has failed, before its contexts go anywhere. -/
def laneDead (s : State) (n : Nat) : State :=
  rasAppend (updLane s n (fun l => { l with failed := true, ctxs := [], running := 0, used := 0 })) 0x22 2 10 n none 0

theorem exec_flumeLaneFail {n : Fin 32} (hw : watched s = true) (hf : (laneAt s n.val).failed = false) :
    let o := if n.val % 2 = 0 then n.val + 1 else n.val - 1
    exec (.flumeLaneFail n) s = if (laneAt s o).failed then .next (askRetire (laneDead s n.val) 1 ((List.range 4).map (fun k => n.val / 2 * 4 + k)))
      else .next (followRidge (updLane (laneDead s n.val) o (fun l => l.takeOver (laneAt s n.val).ctxs)) (n.val / 2)) := by
  intro o
  have hne : o ≠ n.val := by simp only [o]; split <;> omega
  have ho : laneAt (laneDead s n.val) o = laneAt s o := by
    have hlog : LogOnly _ (laneDead s n.val) := rasAppend_logOnly 0x22 2 10 n.val none 0
    exact (hlog.sameMesh.laneAt o).trans (laneAt_updLane_other s _ hne)
  rw [← ho]
  show execFlumeLaneFail n s = _
  unfold execFlumeLaneFail
  exact if_neg (by rw [hw, hf]; decide)

end Lanes

/-! ## The mesh -/

section Mesh
variable {s t u : State} {a b d : Nat}

theorem askRetire_sameMesh (s : State) (trigger : Nat) (tgs : List Nat) : SameMesh s (askRetire s trigger tgs) := by
  unfold askRetire
  extract_lets new
  split
  · exact .refl s
  · exact ⟨rfl, rfl, rfl, rfl⟩

theorem injectHeld_sameMesh (s : State) : SameMesh s (injectHeld s) := by
  refine .foldl (fun t e => .foldl (fun t i => ?_) _ t) _ s
  unfold injectOne
  extract_lets d
  split
  · split
    · exact ⟨rfl, rfl, rfl, rfl⟩
    · exact .refl t
  · exact .refl t

/-- The pairs whose route crosses a die that fails, and that are neither turned nor fenced yet. -/
def turnedPairs (s : State) (d : Nat) : List (Nat × Nat) :=
  dies.flatMap (fun a => (dies.filter (fun b => a ≠ b && a ≠ d && b ≠ d && !(s.canalAlt.contains (a, b))
    && !(s.canalFence.contains (a, b)) && (canalPath false a b).contains d)).map (fun b => (a, b)))

theorem mem_turnedPairs (ha : a < 20) (hb : b < 20) : (a, b) ∈ turnedPairs s d ↔
    (((((a ≠ b ∧ a ≠ d) ∧ b ≠ d) ∧ (a, b) ∉ s.canalAlt) ∧ (a, b) ∉ s.canalFence) ∧ d ∈ canalPath false a b) := by
  simp only [turnedPairs, dies, List.mem_flatMap, List.mem_range, List.mem_map, List.mem_filter, Bool.and_eq_true, decide_eq_true_eq,
    Bool.not_eq_true', List.contains_iff_mem, Prod.mk.injEq]
  constructor
  · rintro ⟨x, -, y, ⟨-, h⟩, rfl, rfl⟩
    simpa using h
  · intro h
    exact ⟨a, ha, b, ⟨hb, by simpa using h⟩, rfl, rfl⟩

theorem fenceRoutes_keeps (s : State) (d : Nat) : (fenceRoutes s d).ridgeFailed = s.ridgeFailed ∧ (fenceRoutes s d).lanes = s.lanes := by
  obtain ⟨h1, h2, -, -⟩ := injectHeld_sameMesh { s with
    canalAlt := s.canalAlt ++ (s.canalFence ++ turnedPairs s d).filter (fun p => !(!(canalWaiting s p.1 p.2).isEmpty))
    canalFence := (s.canalFence ++ turnedPairs s d).filter (fun p => !(canalWaiting s p.1 p.2).isEmpty) }
  exact ⟨h1, h2⟩

/-- Fencing the routes of a die while no fence stands: the pairs that turn at once, and those behind a fence. -/
theorem fenceRoutes_effect (hf : s.canalFence = []) (d : Nat) :
    (fenceRoutes s d).canalAlt = s.canalAlt ++ (turnedPairs s d).filter (fun p => (canalWaiting s p.1 p.2).isEmpty) ∧
    (fenceRoutes s d).canalFence = (turnedPairs s d).filter (fun p => !(canalWaiting s p.1 p.2).isEmpty) := by
  have hpairs : s.canalFence ++ turnedPairs s d = turnedPairs s d := by rw [hf]; rfl
  obtain ⟨-, -, h3, h4⟩ := injectHeld_sameMesh { s with
    canalAlt := s.canalAlt ++ (s.canalFence ++ turnedPairs s d).filter (fun p => !(!(canalWaiting s p.1 p.2).isEmpty))
    canalFence := (s.canalFence ++ turnedPairs s d).filter (fun p => !(canalWaiting s p.1 p.2).isEmpty) }
  refine ⟨h3.trans ?_, h4.trans ?_⟩
  · dsimp only
    rw [hpairs]
    simp only [Bool.not_not]
  · dsimp only
    rw [hpairs]

/-- The ridge and its lanes marked Failed. -/
def ridgeMarked (s : State) (n : Nat) : State :=
  (List.range 2).foldl (fun s k => updLane s (2 * n + k) (fun l => { l with failed := true })) { s with ridgeFailed := setIns s.ridgeFailed n }

theorem exec_ridgeDieFail {n : Fin 16} (hw : watched s = true) (hn : s.ridgeFailed.contains n.val = false) :
    ∃ u, exec (.ridgeDieFail n) s = .next u ∧ SameMesh (fenceRoutes (ridgeMarked s n.val) n.val) u := by
  refine ⟨_, (if_pos hw).trans (congrArg _ (if_neg (Bool.eq_false_iff.mp hn))), ?_⟩
  exact (rasAppend_logOnly _ _ _ _ _ _).sameMesh.trans (askRetire_sameMesh _ _ _)

theorem mem_setIns (l : List Nat) (n k : Nat) : k ∈ setIns l n ↔ k = n ∨ k ∈ l := by
  induction l with
  | nil => simp [setIns]
  | cons a l ih =>
    unfold setIns
    split
    next h => simp [h]
    next =>
      split
      · exact List.mem_cons
      · rw [List.mem_cons, ih, List.mem_cons, or_left_comm]

theorem laneAt_ridgeMarked (s : State) (n : Nat) :
    (laneAt (ridgeMarked s n) (2 * n)).failed = true ∧ (laneAt (ridgeMarked s n) (2 * n + 1)).failed = true := by
  let marked : State := { s with ridgeFailed := setIns s.ridgeFailed n }
  have he : ridgeMarked s n = updLane (updLane marked (2 * n) (fun l => { l with failed := true })) (2 * n + 1) (fun l => { l with failed := true }) := rfl
  rw [he, laneAt_updLane_same, laneAt_updLane_other _ _ (by omega), laneAt_updLane_same]
  exact ⟨rfl, rfl⟩

/-- The route of a pair of dies after a ridge has failed, and whether a fence holds it. -/
theorem routes_ridgeFail {n : Fin 16} (hn : SameMesh (fenceRoutes (ridgeMarked s n.val) n.val) u) (hf : s.canalFence = []) (ha : a < 20) (hb : b < 20)
    (hab : a ≠ b) (hna : a ≠ n.val) (hnb : b ≠ n.val) :
    (n.val ∉ canalPath false a b ∨ (a, b) ∈ s.canalAlt → canalRoute u a b = canalRoute s a b) ∧
    (n.val ∈ canalPath false a b → (a, b) ∉ s.canalAlt →
      (canalWaiting s a b = [] → canalRoute u a b = canalPath true a b ∧ pairFenced u a b = false) ∧
      (canalWaiting s a b ≠ [] → canalRoute u a b = canalPath false a b ∧ pairFenced u a b = true)) := by
  have hfence : (ridgeMarked s n.val).canalFence = [] := hf
  obtain ⟨halt, hfen⟩ := fenceRoutes_effect hfence n.val
  have hturned : (a, b) ∈ turnedPairs (ridgeMarked s n.val) n.val ↔ (a, b) ∉ s.canalAlt ∧ n.val ∈ canalPath false a b := by
    rw [mem_turnedPairs ha hb]
    exact ⟨fun h => ⟨h.1.1.2, h.2⟩, fun h => ⟨⟨⟨⟨⟨hab, hna⟩, hnb⟩, h.1⟩, by rw [hfence]; exact List.not_mem_nil⟩, h.2⟩⟩
  have hwait : canalWaiting (ridgeMarked s n.val) a b = canalWaiting s a b := rfl
  have hin : (a, b) ∈ u.canalAlt ↔ (a, b) ∈ s.canalAlt ∨ ((a, b) ∉ s.canalAlt ∧ n.val ∈ canalPath false a b) ∧ canalWaiting s a b = [] := by
    rw [hn.canalAlt, halt, List.mem_append, List.mem_filter, hturned, List.isEmpty_iff, hwait]
    exact Iff.rfl
  have hfin : (a, b) ∈ u.canalFence ↔ ((a, b) ∉ s.canalAlt ∧ n.val ∈ canalPath false a b) ∧ canalWaiting s a b ≠ [] := by
    rw [hn.canalFence, hfen, List.mem_filter, hturned, Bool.not_eq_true', List.isEmpty_eq_false_iff, hwait]
  refine ⟨fun h => ?_, fun hp halt => ⟨fun hw => ⟨?_, ?_⟩, fun hw => ⟨?_, ?_⟩⟩⟩
  · have hsame : (a, b) ∈ u.canalAlt ↔ (a, b) ∈ s.canalAlt := hin.trans (or_iff_left (fun ⟨⟨h1, h2⟩, _⟩ => h.elim (fun h => h h2) h1))
    have hc : u.canalAlt.contains (a, b) = s.canalAlt.contains (a, b) := Bool.eq_iff_iff.mpr (by simpa only [List.contains_iff_mem] using hsame)
    rw [canalRoute, canalRoute, hc]
  · rw [canalRoute, List.contains_iff_mem.mpr (hin.mpr (.inr ⟨⟨halt, hp⟩, hw⟩))]
  · exact Bool.eq_false_iff.mpr (fun h => (hfin.mp (List.contains_iff_mem.mp h)).2 hw)
  · have hno : u.canalAlt.contains (a, b) = false :=
      Bool.eq_false_iff.mpr (fun h => (hin.mp (List.contains_iff_mem.mp h)).elim halt (fun h => hw h.2))
    rw [canalRoute, hno]
  · exact List.contains_iff_mem.mpr (hfin.mpr ⟨⟨halt, hp⟩, hw⟩)

/-- A path from a to b that keeps to the links, and that no Saddle or Headwork forwards. -/
def pathKeepsLinks (p : List Nat) (a b : Nat) : Bool :=
  p.head? == some a && p.getLast? == some b && p.all (fun d => d < 16 || d == a || d == b)
    && (p.zip (p.drop 1)).all (fun e => decide (0 < canalEdges e.1 e.2))

theorem canalPath_keepsLinks : ∀ (c : Bool) (a : Fin 20) (b : Fin 20), pathKeepsLinks (canalPath c a.val b.val) a.val b.val = true := by
  decide

theorem pathKeepsLinks_spec {p : List Nat} (h : pathKeepsLinks p a b = true) : p.head? = some a ∧ p.getLast? = some b ∧
    (∀ d ∈ p, 16 ≤ d → d = a ∨ d = b) ∧ ∀ i x y, p[i]? = some x → p[i + 1]? = some y → 0 < canalEdges x y := by
  simp only [pathKeepsLinks, Bool.and_eq_true, beq_iff_eq, List.all_eq_true, Bool.or_eq_true, decide_eq_true_eq] at h
  obtain ⟨⟨⟨h1, h2⟩, h3⟩, h4⟩ := h
  refine ⟨h1, h2, fun d hd h16 => ?_, fun i x y hx hy => ?_⟩
  · rcases h3 d hd with (h | h) | h
    · omega
    · exact .inl h
    · exact .inr h
  · refine h4 (x, y) (List.mem_of_getElem? (i := i) ?_)
    rw [List.getElem?_zip_eq_some]
    exact ⟨hx, by rw [List.getElem?_drop, Nat.add_comm]; exact hy⟩

end Mesh

/-- Settles O48. -/
theorem journalAndRetirement : Obligations.JournalAndRetirement := by
  refine ⟨fun s st rest hj => ?_, ⟨fun s trigger tgs rest hup hreset hidle hq hne hlive => exec_retirementStart hup hreset hidle hq hne hlive,
    fun s r hreset hr => ?_, fun s r tg h => retireStep_closed s r h, fun n s hw => ⟨fun h => (if_pos hw).trans (congrArg _ (if_pos h)), fun h => ?_⟩,
    fun tg s hw => if_pos hw, fun n s hw hf => ?_⟩, fun n s hw hn hf => ?_, fun c a b ha hb => ?_⟩
  · intro both held
    have hhold : s.hdFailed = [] → exec .journalStepComplete s = .next (stepEffect held st.eff) := fun hf => by
      rw [exec_journalStepComplete hj]
      exact congrArg (fun u => Host.Outcome.next (stepEffect u st.eff)) (holdStep_both hf)
    have hrest : held.jsteps = rest := by
      simp only [held, both]
      split <;> rfl
    refine ⟨hhold, fun hf => ?_, fun q acc hf he hfree => ?_, fun k hf he hmoved => ?_⟩
    · rw [exec_journalStepComplete hj]
      exact congrArg (fun u => Host.Outcome.next (stepEffect u st.eff)) (holdStep_alone hf)
    · rw [hhold hf, he]
      exact congrArg _ (if_neg (Nat.pos_iff_ne_zero.mp hfree))
    · obtain ⟨j, hjm, e, hem, hek⟩ := hmoved
      have hm : movedOn held k = true := by
        rw [movedOn, hrest]
        exact List.any_eq_true.mpr ⟨j, hjm, List.any_eq_true.mpr ⟨e, hem, decide_eq_true hek⟩⟩
      rw [hhold hf, he]
      exact congrArg _ (if_neg (by rw [hm, Bool.not_true, Bool.and_false]; exact Bool.false_ne_true))
  · intro fence
    exact ⟨fun h => (exec_retirementStepDone hreset hr).trans (if_pos h), fun h => (exec_retirementStepDone hreset hr).trans (if_neg h)⟩
  · obtain ⟨u, hu, hm⟩ := exec_ridgeDieFail hw h
    obtain ⟨hr, hl⟩ := fenceRoutes_keeps (ridgeMarked s n.val) n.val
    have hlane : ∀ k, laneAt u k = laneAt (ridgeMarked s n.val) k := fun k => by unfold laneAt; rw [hm.lanes, hl]
    refine ⟨u, hu, ?_, ?_⟩
    · rw [hm.ridgeFailed, hr]
      exact (mem_setIns s.ridgeFailed n.val n.val).mpr (.inl rfl)
    · rw [hlane, hlane]
      exact laneAt_ridgeMarked s n.val
  · intro o dead
    refine ⟨fun ho => (exec_flumeLaneFail hw hf).trans (if_pos ho), fun ho => ⟨(exec_flumeLaneFail hw hf).trans (if_neg (Bool.eq_false_iff.mp ho)),
      fun l x => mem_takeOver l _ x⟩⟩
  · obtain ⟨u, hu, hm⟩ := exec_ridgeDieFail hw (by simpa using hn)
    exact ⟨u, hu, fun a b ha hb hab hna hnb => routes_ridgeFail hm hf ha hb hab hna hnb⟩
  · exact pathKeepsLinks_spec (canalPath_keepsLinks c ⟨a, ha⟩ ⟨b, hb⟩)

end Sys2Proof.Machine
end

section
/-! PROOFS. Host ports and Headworks: what the queues post again, who owns the allotments, and what a failed Headwork leaves (R382, R383, R424). -/

namespace Sys2Proof.Machine

open Sys2Proof

/-! ## What posting changes -/

section Posts
variable {s t u : State}

/-- The states differ at most in the queues, in host memory and in what leaves the module. -/
def PostOnly (s t : State) : Prop := t = { s with ques := t.ques, host := t.host, out := t.out }

theorem PostOnly.refl (s : State) : PostOnly s s := rfl

theorem PostOnly.trans (h : PostOnly s t) (h' : PostOnly t u) : PostOnly s u := by unfold PostOnly at *; rw [h', h]

theorem PostOnly.ite {c : Prop} [Decidable c] (h : PostOnly s t) (h' : PostOnly s u) : PostOnly s (if c then t else u) := by split <;> assumption

theorem PostOnly.foldl {β : Type} {f : State → β → State} (hf : ∀ t b, PostOnly t (f t b)) (l : List β) (s : State) : PostOnly s (l.foldl f s) := by
  induction l generalizing s with
  | nil => exact .refl s
  | cons b l ih => exact (hf s b).trans (ih (f s b))

theorem PostOnly.allots (h : PostOnly s t) : t.allots = s.allots := by rw [h]

theorem updQue_postOnly (s : State) (q : Nat) (f : Que → Que) : PostOnly s (updQue s q f) := rfl

theorem queMsg_postOnly (s : State) (q : Nat) : PostOnly s (queMsg s q) := .ite rfl rfl

theorem countIrq_postOnly (s : State) (q : Nat) (irq aborted : Bool) : PostOnly s (countIrq s q irq aborted) := by
  unfold countIrq
  extract_lets s1
  have h1 : PostOnly s s1 := .ite (updQue_postOnly _ _ _) (.refl s)
  exact .ite (h1.trans (queMsg_postOnly _ _)) h1

theorem writeCompl_postOnly (s : State) (q : Nat) (c : Compl) : PostOnly s (writeCompl s q c) := by
  unfold writeCompl hostPut
  extract_lets e al
  rw [busWrite_frame]
  rfl

theorem sendCompl_postOnly (s : State) (k : Nat) (first : Bool) : PostOnly s (sendCompl s k first) := by
  unfold sendCompl
  split
  · exact .refl s
  next x _ =>
    split
    · exact .refl s
    next c _ =>
      extract_lets first' rest s1
      have h1 : PostOnly s s1 := (writeCompl_postOnly s x.q c).trans (updQue_postOnly _ _ _)
      exact .ite (.ite (h1.trans (countIrq_postOnly _ _ _ _)) h1) (updQue_postOnly _ _ _)

theorem releaseQueues_postOnly (s : State) : PostOnly s (releaseQueues s) := by
  refine .foldl (fun t e => ?_) _ s
  extract_lets s1
  have h1 : PostOnly t s1 := .foldl (fun t u => sendCompl_postOnly _ _ _) _ t
  exact .ite (.ite (h1.trans (queMsg_postOnly _ _)) h1) (.refl t)

theorem rewrite_postOnly (s : State) (p : Nat → Bool) : PostOnly s (rewrite s p) :=
  .foldl (fun _ _ => .ite (sendCompl_postOnly _ _ _) (.refl _)) _ s

end Posts

/-! ## What keeps the mode and the Headworks' ports -/

section Rule
variable {s t u : State}

/-- The states have the same mode, the same failed Headworks and the same host ports. -/
structure SameRule (s t : State) : Prop where
  mode : t.mode = s.mode
  hdFailed : t.hdFailed = s.hdFailed
  hostPorts : t.hostPorts = s.hostPorts

theorem SameRule.refl (s : State) : SameRule s s := ⟨rfl, rfl, rfl⟩

theorem SameRule.trans (h : SameRule s t) (h' : SameRule t u) : SameRule s u :=
  ⟨h'.mode.trans h.mode, h'.hdFailed.trans h.hdFailed, h'.hostPorts.trans h.hostPorts⟩

theorem SameRule.foldl {β : Type} {f : State → β → State} (hf : ∀ t b, SameRule t (f t b)) (l : List β) (s : State) : SameRule s (l.foldl f s) := by
  induction l generalizing s with
  | nil => exact .refl s
  | cons b l ih => exact (hf s b).trans (ih (f s b))

theorem SameRule.ite {c : Prop} [Decidable c] (h : SameRule s t) (h' : SameRule s u) : SameRule s (if c then t else u) := by split <;> assumption

theorem LogOnly.sameRule (h : LogOnly s t) : SameRule s t := ⟨by rw [h], by rw [h], by rw [h]⟩
theorem LinkOnly.sameRule (h : LinkOnly s t) : SameRule s t := ⟨by rw [h], by rw [h], by rw [h]⟩
theorem StopOnly.sameRule (h : StopOnly s t) : SameRule s t := ⟨by rw [h], by rw [h], by rw [h]⟩
theorem PostOnly.sameRule (h : PostOnly s t) : SameRule s t := ⟨by rw [h], by rw [h], by rw [h]⟩

theorem ringPut_sameRule (s : State) (k : Nat) (p : Packet) : SameRule s (ringPut s k p) := by
  unfold ringPut
  extract_lets r r' s'
  split
  · exact ⟨rfl, rfl, rfl⟩
  · exact ⟨rfl, rfl, rfl⟩

theorem request_sameRule (s : State) (st : JStep) : SameRule s (request s st) := by
  unfold request setJrn
  split
  · exact ⟨rfl, rfl, rfl⟩
  · exact ⟨rfl, rfl, rfl⟩

theorem injectHeld_sameRule (s : State) : SameRule s (injectHeld s) := by
  refine .foldl (fun t e => .foldl (fun t i => ?_) _ t) _ s
  unfold injectOne
  extract_lets d
  split
  · exact .ite ⟨rfl, rfl, rfl⟩ (.refl t)
  · exact .refl t

theorem fenceArrivals_sameRule (s : State) : SameRule s (fenceArrivals s) :=
  SameRule.trans (t := { s with
    canalAlt := s.canalAlt ++ s.canalFence.filter (fun p => !(pairBusy s p))
    canalFence := s.canalFence.filter (pairBusy s) }) ⟨rfl, rfl, rfl⟩ (injectHeld_sameRule _)

theorem updAllot_sameRule (s : State) (a : Nat) (f : Allot → Allot) : SameRule s (updAllot s a f) := ⟨rfl, rfl, rfl⟩

theorem updTerrace_sameRule (s : State) (tg : Nat) (f : Terrace → Terrace) : SameRule s (updTerrace s tg f) := ⟨rfl, rfl, rfl⟩

theorem discardReaches_sameRule (s : State) (k : Nat) : SameRule s (discardReaches s k) := by
  cases h : mget? s.runs k with
  | none => unfold discardReaches; rw [h]; exact .refl s
  | some r => exact (discardReaches_effect h).1.sameRule

theorem stopItem_sameRule (s : State) (k : Nat) : SameRule s (stopItem s k) := by
  cases h : mget? s.runs k with
  | none => unfold stopItem; rw [h]; exact .refl s
  | some r => exact (stopItem_effect h).1.sameRule

theorem freeRun_sameRule (s : State) (k : Nat) : SameRule s (freeRun s k) := by
  unfold freeRun
  split
  · exact .refl s
  next r _ =>
    extract_lets s1
    have h1 : SameRule s s1 := (discardReaches_sameRule s k).trans (.foldl (fun t tg => updTerrace_sameRule _ _ _) _ _)
    exact h1.trans (SameRule.trans (t := { s1 with
      runs := mdel s1.runs k, redivide := setIns s1.redivide r.allot, lats := s1.lats.filter (fun x => x.tag ≠ r.tag || !(r.tgs.contains x.src)) })
      ⟨rfl, rfl, rfl⟩ (fenceArrivals_sameRule _))

theorem completeItem_sameRule (s : State) (k status fault : Nat) : SameRule s (completeItem s k status fault) := by
  unfold completeItem
  split
  · exact .refl s
  · exact (freeRun_sameRule s k).trans (request_sameRule _ _)

theorem replayItem_sameRule (s : State) (k : Nat) : SameRule s (replayItem s k) := by
  unfold replayItem
  split
  · exact .refl s
  next x _ =>
    extract_lets s1 s2
    have h1 : SameRule s s1 := (stopItem_sameRule s k).trans (freeRun_sameRule _ k)
    have h2 : SameRule s s2 := h1.trans (satAdd_logOnly _ _ _ _ _).sameRule
    exact .ite (.refl s) (.ite (completeItem_sameRule s k 2 0) (h2.trans (SameRule.trans (t := updQue s2 x.q (fun y => { y with wait := 16 })) ⟨rfl, rfl, rfl⟩
      (request_sameRule _ _))))

theorem setFarState_sameRule (s : State) (p st : Nat) : SameRule s (setFarState s p st) := by
  unfold setFarState
  exact .ite (.refl s) (SameRule.trans (t := { s with farPorts := mset s.farPorts p { farPort s p with state := st } }) ⟨rfl, rfl, rfl⟩ (intCause_logOnly 8).sameRule)

theorem failFar_sameRule (s : State) (p : Nat) (fatal : Bool) : SameRule s (failFar s p fatal) := by
  unfold failFar
  extract_lets fell s1
  have h1 : SameRule s s1 := (setFarState_sameRule s p 4).trans (rasAppend_logOnly _ _ _ _ _ _).sameRule
  exact .ite (.refl s) (.ite (h1.trans ⟨rfl, rfl, rfl⟩) h1)

theorem setPortState_sameRule (s : State) (k st : Nat) : SameRule s (setPortState s k st) := by
  unfold setPortState
  exact .ite (.refl s) (SameRule.trans (t := updPort s k (fun x => { x with state := st })) ⟨rfl, rfl, rfl⟩ (intCause_logOnly 9).sameRule)

theorem resend_linkOnly (s : State) (key : Nat) : LinkOnly s (resend s key) := by
  unfold resend
  extract_lets l s1
  exact LinkOnly.foldl (satAdd_linkOnly _ _ _ _ _) (fun t h hl => hl.trans (skvOut_linkOnly _))

theorem portDown_sameRule (s : State) (k : Nat) : SameRule s (portDown s k) := by
  unfold portDown
  extract_lets keys s1 s2
  have h2 : SameRule s s2 := (setPortState_sameRule s k 0).trans ⟨rfl, rfl, rfl⟩
  exact h2.trans (.foldl (fun t key => (resend_linkOnly t key).sameRule) _ _)

theorem logXlt_sameRule (s : State) (slot : Option Nat) (r : XRec) : SameRule s (logXlt s slot r) := (logXlt_xltOnly s slot r).1.sameRule

theorem contribLost_sameRule (s : State) (o : Option Origin) (p : SkvPacket) : SameRule s (contribLost s o p) := by
  unfold contribLost
  split
  · exact .ite (logXlt_sameRule _ _ _) (.refl s)
  · exact .refl s

theorem reqData_sameRule (s : State) (q : SkvReq) (bs : List PByte) : SameRule s (reqData s q bs) := by
  unfold reqData
  exact .ite ⟨rfl, rfl, rfl⟩ (.refl s)

theorem dropHeld_sameRule (s : State) (hd : Nat) : SameRule s (dropHeld s hd) := by
  unfold dropHeld
  extract_lets gone given s1 lost s2 s3
  have h3 : SameRule s s3 := SameRule.trans (t := s2) ⟨rfl, rfl, rfl⟩ (.foldl (fun t h => contribLost_sameRule _ _ _) _ _)
  refine h3.trans (.foldl (fun t q => ?_) _ _)
  exact .ite (logXlt_sameRule _ _ _) ((logXlt_sameRule _ _ _).trans (reqData_sameRule _ _ _))

theorem fenceRoutes_sameRule (s : State) (d : Nat) : SameRule s (fenceRoutes s d) :=
  SameRule.trans (t := { s with canalFence := s.canalFence ++ turnedPairs s d }) ⟨rfl, rfl, rfl⟩ (fenceArrivals_sameRule _)

theorem noteFigures_sameRule (before s : State) (c : Nat) : SameRule s (noteFigures before s c) := by
  unfold noteFigures
  exact .ite ⟨rfl, rfl, rfl⟩ (.refl s)

theorem dropRuns_sameRule (s : State) : SameRule s (dropRuns s) := by
  obtain ⟨h1, h2, h3⟩ : SameRule s (((s.runs.map (fun e => e.1)).filter (fun k => !(committing s k))).foldl stopItem s) := .foldl stopItem_sameRule _ s
  exact ⟨h1, h2, h3⟩

theorem enterFaulted_hdFailed (s : State) (r : Nat) : (enterFaulted s r).hdFailed = s.hdFailed := by
  obtain ⟨tm, ts, h⟩ := setMode_frame { dropRuns s with freason := r, resetting := none } .faulted
  unfold enterFaulted
  rw [h]
  exact (dropRuns_sameRule s).hdFailed

end Rule

/-! ## The owners of the allotments -/

section Owners
variable {s : State} {p a : Nat}

/-- The enabled allotments that a Headwork owns. -/
def ownedBy (s : State) (p : Nat) : List Nat := (List.range 1024).filter (fun a => allotEn s a && (allot s a).owner = p)

/-- The state once the allotments of p's Headwork have the other for owner, before anything is posted. -/
def ownersMoved (s : State) (p : Nat) : State := (ownedBy s p).foldl (fun s a => updAllot s a (fun x => { x with owner := 1 - p })) s

theorem ringPut_allots (s : State) (k : Nat) (p : Packet) : (ringPut s k p).allots = s.allots := by
  unfold ringPut
  extract_lets r r' s'
  split
  · rfl
  · rfl

theorem satAdd_allots (s : State) (off : Nat) (d : W32) (lo len n : Nat) : (satAdd s off d lo len n).allots = s.allots := rfl

theorem foldl_keeps_allots {β : Type} {f : State → β → State} (hf : ∀ t b, (f t b).allots = t.allots) (l : List β) (s : State) :
    (l.foldl f s).allots = s.allots := by
  induction l generalizing s with
  | nil => rfl
  | cons b l ih => exact (ih (f s b)).trans (hf s b)

theorem moveOwners_frame (s : State) (p : Nat) : (moveOwners s p).allots = (ownersMoved s p).allots ∧ SameRule s (moveOwners s p) := by
  unfold moveOwners
  extract_lets moved w s1 s2 s3 s4
  have h1 : SameRule s s1 := .foldl (fun t a => updAllot_sameRule _ _ _) _ s
  have h2 : SameRule s1 s2 := ringPut_sameRule _ _ _
  have h3 : SameRule s2 s3 := .foldl (fun t a => .ite (ringPut_sameRule _ _ _) (.refl t)) _ s2
  have h4 : SameRule s3 s4 := .ite (.refl s3) (satAdd_logOnly _ _ _ _ _).sameRule
  have hpost : PostOnly s4 (releaseQueues (rewrite s4 (fun q => moved.contains (q / 64)))) := (rewrite_postOnly _ _).trans (releaseQueues_postOnly _)
  have a2 : s2.allots = s1.allots := ringPut_allots _ _ _
  have a3 : s3.allots = s2.allots := foldl_keeps_allots (fun t a => by
    split
    · exact ringPut_allots _ _ _
    · rfl) _ s2
  have a4 : s4.allots = s3.allots := by
    simp only [s4]
    split
    · rfl
    · exact satAdd_allots _ _ _ _ _ _
  refine ⟨?_, (((h1.trans h2).trans h3).trans h4).trans hpost.sameRule⟩
  exact hpost.allots.trans (a4.trans (a3.trans a2))

/-- An allotment in a list is moved by the writes of the list's owners. -/
theorem owner_foldl (l : List Nat) (s : State) (h : a ∈ l ∨ (allot s a).owner = p) :
    (allot (l.foldl (fun s a => updAllot s a (fun x => { x with owner := p })) s) a).owner = p := by
  induction l generalizing s with
  | nil => exact h.resolve_left List.not_mem_nil
  | cons b l ih =>
    refine ih (updAllot s b (fun x => { x with owner := p })) ?_
    by_cases hb : a = b
    · subst hb
      exact .inr (by rw [allot_updAllot_same])
    · rw [allot_updAllot_other _ _ _ _ hb]
      exact h.imp_left (fun h => (List.mem_cons.mp h).resolve_left hb)

theorem owner_moveOwners (ha : a < 1024) (hen : allotEn s a = true) (howner : (allot s a).owner = p) : (allot (moveOwners s p) a).owner = 1 - p := by
  have hin : a ∈ ownedBy s p := List.mem_filter.mpr ⟨List.mem_range.mpr ha, by rw [hen, decide_eq_true howner]; rfl⟩
  have hallot : allot (moveOwners s p) a = allot (ownersMoved s p) a := by
    unfold allot
    rw [(moveOwners_frame s p).1]
  rw [hallot]
  exact owner_foldl _ s (.inl hin)

end Owners

/-! ## Ports -/

section Ports
variable {s : State} {p : Fin 2}

/-- Writing a host port: its state, and the cause of a change. -/
theorem setHostPort_effect (s : State) (p : Nat) (h : HostPort) : (setHostPort s p h).hostPorts = mset s.hostPorts p h ∧
    (setHostPort s p h).mode = s.mode ∧ (setHostPort s p h).hdFailed = s.hdFailed := by
  let written : State := { s with hostPorts := mset s.hostPorts p h }
  have hr : SameRule written (setHostPort s p h) := by
    unfold setHostPort
    exact .ite (.refl written) (intCause_logOnly 7).sameRule
  exact ⟨hr.hostPorts, hr.mode, hr.hdFailed⟩

theorem exec_hostPortDown (h : (mget s.hostPorts p.val {}).state ≠ 0) (f : Bool) :
    let down := rasAppend (setHostPort s p.val {}) 0x27 2 8 p.val none f.toNat
    exec (.hostPortDown p f) s = if portUp down (1 - p.val) then .next (moveOwners down p.val)
      else if hdAlive down (1 - p.val) then .next (gaugePf down (1 - p.val) 5 0 [BitVec.ofNat 64 p.val] true) else .next down :=
  if_neg h

theorem hdAlive_of_eq {t : State} (h : t.hdFailed = s.hdFailed) (n : Nat) : hdAlive t n = hdAlive s n := by unfold hdAlive; rw [h]

theorem wantSet_sameRule (s : State) : SameRule s (wantSet s) :=
  .foldl (fun t _ => .ite (intWant_logOnly _).sameRule (.refl t)) _ s

/-- A port that comes Up at a width of the table. -/
theorem exec_hostPortUp {w : Nat} {rate : Fin 5} (halive : hdAlive s p.val = true) (hperst : s.perst.contains p.val = false) (hoff : s.mode ≠ .off)
    (hstandby : s.mode ≠ .standby) (hw : w ∈ [1, 4, 8, 16]) : ∃ u, exec (.hostPortUp p w rate) s = .next u ∧
      u.hostPorts = mset s.hostPorts p.val { state := if w = 16 ∧ rate = 0 then 2 else 3, width := w, rate := rate.val } := by
  show ∃ u, execHostPortUp p w rate s = .next u ∧ _
  unfold execHostPortUp
  extract_lets q first s1 waiting s2
  have hno : ¬ ((!(hdAlive s q) || s.perst.contains q || s.mode = .off || s.mode = .standby || !([1, 4, 8, 16].contains w)) = true) := by
    rw [halive, hperst, List.contains_iff_mem.mpr hw]
    simp [hoff, hstandby]
  rw [if_neg hno]
  refine ⟨_, rfl, ?_⟩
  have h2 : SameRule s1 s2 := .ite (moveOwners_frame _ _).2 (.refl s1)
  have h3 : SameRule s2 (releaseQueues (if first then wantSet s2 else s2)) :=
    SameRule.trans (.ite (wantSet_sameRule s2) (.refl s2)) (releaseQueues_postOnly _).sameRule
  rw [(h2.trans h3).hostPorts, (setHostPort_effect s q _).1]
  have hst : (decide (w = 16) && decide (rate.val = 0)) = true ↔ w = 16 ∧ rate = 0 := by
    rw [Bool.and_eq_true, decide_eq_true_eq, decide_eq_true_eq, Fin.val_eq_zero_iff]
  rw [if_congr hst rfl rfl]

end Ports

/-! ## A Headwork that fails -/

section Headworks
variable {s : State} {hd : Nat}

/-- The state once a Headwork is marked failed, its packets lost and the survivor's copies taken. -/
def headworkMarked (s : State) (hd : Nat) : State :=
  let t := { dropRings s hd with
    hdFailed := setIns s.hdFailed hd
    jrn1 := if hd = 0 && !(s.hdFailed.contains 1) then s.jrn0 else s.jrn1
    fb := if hd = 0 then s.fbShadow else s.fb }
  rasAppend (if hd = 0 then countReplays t 1 (t.jsteps.filter (·.replays)).length else t) 0x26 2 4 hd none 0

theorem headworkMarked_rule (s : State) (hd : Nat) : (headworkMarked s hd).mode = s.mode ∧ (headworkMarked s hd).hdFailed = setIns s.hdFailed hd := by
  let t := { dropRings s hd with
    hdFailed := setIns s.hdFailed hd
    jrn1 := if hd = 0 && !(s.hdFailed.contains 1) then s.jrn0 else s.jrn1
    fb := if hd = 0 then s.fbShadow else s.fb }
  have h : SameRule t (headworkMarked s hd) :=
    SameRule.trans (.ite (satAdd_logOnly _ _ _ _ _).sameRule (.refl t)) (rasAppend_logOnly _ _ _ _ _ _).sameRule
  exact ⟨h.mode, h.hdFailed⟩

/-- A Headwork whose fellow has failed takes the module to Faulted. -/
theorem headworkFail_last (h : s.hdFailed.contains hd = false) (hboth : (headworkMarked s hd).hdFailed.contains (1 - hd) = true) :
    headworkFail s hd = enterFaulted (headworkMarked s hd) 4 :=
  (if_neg (Bool.eq_false_iff.mp h)).trans (if_pos hboth)

/-- A Headwork whose fellow lives: its port is Down, and the mode stays. -/
theorem headworkFail_rule (h : s.hdFailed.contains hd = false) (hone : (headworkMarked s hd).hdFailed.contains (1 - hd) = false) :
    SameRule (setHostPort (headworkMarked s hd) hd {}) (headworkFail s hd) := by
  have he : headworkFail s hd = noteFigures s (fenceRoutes (((s.runs.filter (fun e => e.2.hd = hd && !(committing s e.1))).map (fun e => e.1)).foldl replayItem
      (moveOwners ((List.range 4).foldl (fun s k => portDown s (4 * hd + k)) (dropHeld
        ((List.range 4).foldl (fun s k => failFar s (4 * hd + k) false) (setHostPort (headworkMarked s hd) hd {})) hd)) hd)) (headworkDie hd)) 1 :=
    (if_neg (Bool.eq_false_iff.mp h)).trans (if_neg (Bool.eq_false_iff.mp hone))
  rw [he]
  refine SameRule.trans ?_ (noteFigures_sameRule _ _ _)
  refine SameRule.trans ?_ (fenceRoutes_sameRule _ _)
  refine SameRule.trans ?_ (.foldl replayItem_sameRule _ _)
  refine SameRule.trans ?_ (moveOwners_frame _ _).2
  refine SameRule.trans ?_ (.foldl (fun t k => portDown_sameRule _ _) _ _)
  exact SameRule.trans (.foldl (fun t k => failFar_sameRule _ _ _) _ _) (dropHeld_sameRule _ _)

end Headworks

/-- Settles O49. -/
theorem portsAndHeadworks : Obligations.PortsAndHeadworks := by
  intro p s o down
  have hpo : o ≠ p.val := by simp only [o]; omega
  have hdown : ∀ f, (down f).hdFailed = s.hdFailed := fun f =>
    (rasAppend_logOnly 0x27 2 8 p.val none f.toNat).sameRule.hdFailed.trans (setHostPort_effect s p.val {}).2.2
  refine ⟨fun h f => if_pos h, fun h => ⟨fun f hup => (exec_hostPortDown h f).trans (if_pos hup), fun f hup halive =>
      (exec_hostPortDown h f).trans ((if_neg (Bool.eq_false_iff.mp hup)).trans (if_pos ((hdAlive_of_eq (hdown f) o).trans halive)))⟩,
    fun a ha hen howner => owner_moveOwners ha hen howner, fun w rate hw => if_pos ?_, fun w rate halive hperst hoff hstandby hw => ?_, fun hwatch =>
    ⟨fun h => (if_pos hwatch).trans (congrArg _ (if_pos h)), fun h0 => ⟨_, if_pos hwatch, ?_⟩, fun h0 => ⟨_, if_pos hwatch, ?_⟩⟩⟩
  · have hno : [1, 4, 8, 16].contains w = false := Bool.eq_false_iff.mpr (fun h => hw (List.contains_iff_mem.mp h))
    rw [hno, Bool.not_false, Bool.or_true]
  · obtain ⟨u, hu, hports⟩ := exec_hostPortUp (rate := rate) halive hperst hoff hstandby hw
    exact ⟨u, hu, by rw [hports]; exact mget_mset_same _ _ _ _, by rw [hports]; exact mget_mset_other _ _ _ _ _ hpo⟩
  · obtain ⟨hmode, hfail⟩ := headworkMarked_rule s p.val
    have hmarked : (headworkMarked s p.val).hdFailed = [p.val] := by rw [hfail, h0]; rfl
    obtain ⟨e1, e2, e3⟩ := setHostPort_effect (headworkMarked s p.val) p.val {}
    obtain ⟨r1, r2, r3⟩ := headworkFail_rule (s := s) (hd := p.val) (by rw [h0]; rfl) (by
      rw [hmarked]
      exact Bool.eq_false_iff.mpr (fun h => hpo (List.mem_singleton.mp (List.contains_iff_mem.mp h))))
    exact ⟨(r2.trans e3).trans hmarked, by rw [r3, e1]; exact mget_mset_same _ _ _ _, (r1.trans e2).trans hmode⟩
  · obtain ⟨hmode, hfail⟩ := headworkMarked_rule s p.val
    have hin : p.val ∈ (headworkMarked s p.val).hdFailed ∧ o ∈ (headworkMarked s p.val).hdFailed := by
      rw [hfail, h0]
      exact ⟨(mem_setIns _ _ _).mpr (.inl rfl), (mem_setIns _ _ _).mpr (.inr (List.mem_singleton.mpr rfl))⟩
    have hlast := headworkFail_last (s := s) (hd := p.val) (by
      rw [h0]
      exact Bool.eq_false_iff.mpr (fun h => hpo (List.mem_singleton.mp (List.contains_iff_mem.mp h)).symm)) (List.contains_iff_mem.mpr hin.2)
    obtain ⟨e1, e2, -, -⟩ := enterFaulted_effect (headworkMarked s p.val) 4
    have hkeep : (enterFaulted (headworkMarked s p.val) 4).hdFailed = (headworkMarked s p.val).hdFailed := (enterFaulted_hdFailed _ _)
    rw [hlast]
    exact ⟨e1, e2, by rw [hkeep]; exact hin.1, by rw [hkeep]; exact hin.2⟩

end Sys2Proof.Machine
end

section
/-! PROOFS. Feeds and rails (R451 to R454, R458, R473 to R477). -/

namespace Sys2Proof.Machine

open Sys2Proof

/-! ## Feeds -/

section Feeds
variable {s : State} {k : Fin 2}

theorem feed_mset (s : State) (k j : Nat) (f : Feed) : feed { s with feeds := mset s.feeds k f } j = if j = k then f else feed s j := by
  unfold feed
  split
  next h => rw [h]; exact mget_mset_same _ _ _ _
  next h => exact mget_mset_other _ _ _ _ _ h

/-- A feed out of range while the module is on: where the load goes. -/
theorem feedLeaves_eq (hon : s.mode ≠ .off) (f : Feed) :
    let left : State := { s with feeds := mset s.feeds k.val { f with inRange := false, valid := false } }
    feedLeaves s k.val f = if (feed s (1 - k.val)).inRange = false then enterOff left
      else if feedNo s.feedB ≠ k.val then left
      else if (feed s (1 - k.val)).valid then switchFeed left (decide (k.val = 0)) else enterOff left := by
  intro left
  have hk : feed left k.val = { f with inRange := false, valid := false } := (feed_mset _ _ _ _).trans (if_pos rfl)
  have ho : feed left (1 - k.val) = feed s (1 - k.val) := (feed_mset _ _ _ _).trans (if_neg (by omega))
  have hboth : (!(feed left 0).inRange && !(feed left 1).inRange) = true ↔ (feed s (1 - k.val)).inRange = false := by
    match k with
    | 0 => rw [show feed left 0 = _ from hk, show feed left 1 = _ from ho]; simp
    | 1 => rw [show feed left 1 = _ from hk, show feed left 0 = _ from ho]; simp
  unfold feedLeaves
  extract_lets carrying
  refine (if_neg hon).trans ?_
  refine (if_congr hboth rfl rfl).trans ?_
  congr 1
  refine (if_congr (by simp [carrying]; rfl) rfl rfl).trans ?_
  congr 1
  exact if_congr (by rw [show feed left (1 - k.val) = _ from ho]) rfl rfl

end Feeds

/-! ## Rails -/

section Rails
variable {s t : State} {n tg : Nat}

/-- A new estimate of a rail's power. -/
def guessed (t : State) (n : Nat) : State := { updRail t n (fun x => { x with
  pwr := min 4095 ((Config.freeValue t.freeCtr).toNat % 4096 + (railTable n).2 / 10) }) with freeCtr := t.freeCtr + 1 }

theorem estimated_eq (t : State) (n : Nat) : estimated t n = guessed t n := rfl

/-- A rail on estimation from now on. -/
def onEstimate (s : State) (n cause : Nat) : State :=
  let t := guessed (updRail s n (fun x => { x with st := 2, ceil := some (railCeil s n * 85 / 100), missed := 0, disagree := 0 })) n
  railThrottle (rasAppend (fbEvent t 2) 0x32 2 9 n none cause) n

theorem railEstimate_eq (h : (rail s n).st < 2) (cause : Nat) : railEstimate s n cause = onEstimate s n cause := if_neg (Nat.not_le.mpr h)

/-- A sample of a rail that is measured. -/
theorem exec_railTelemetry {k : Fin 29} (hw : watched s = true) (h : (rail s k.val).st < 2) (m : RailSample) : exec (.railTelemetry k m) s =
    if m.missing then
      if 2 ≤ (rail s k.val).missed then .next (onEstimate s k.val 2) else .next (updRail s k.val (fun r => { r with missed := r.missed + 1 }))
    else if m.disagree && 19 ≤ (rail s k.val).disagree then .next (onEstimate s k.val 0)
    else .next (railThrottle (updRail s k.val (fun r => { r with
      pwr := min 4095 m.power, missed := 0, disagree := if m.disagree then r.disagree + 1 else 0
      volts := m.volts, current := m.current, temp := m.temp })) k.val) := by
  rw [← railEstimate_eq h 2, ← railEstimate_eq h 0]
  show execRailTelemetry k m s = _
  unfold execRailTelemetry
  have h3 : ¬ (rail s k.val).st = 3 := by omega
  have h2 : ¬ (rail s k.val).st = 2 := by omega
  extract_lets n
  rw [if_neg (by rw [hw, decide_eq_false (show ¬ (rail s n).st = 3 from h3)]; decide), if_neg h2]

/-- A phase of a rail that fails open. -/
theorem exec_phaseFail {k : Fin 29} (hw : watched s = true) (hl : (rail s k.val).lost < (railTable k.val).1) (h3 : (rail s k.val).st ≠ 3) :
    let up := (railTable k.val).1 - ((rail s k.val).lost + 1)
    exec (.phaseFail k) s = .next (railThrottle (rasAppend (fbEvent { s with rails := mset s.rails k.val { rail s k.val with
      st := max 1 (rail s k.val).st, lost := (rail s k.val).lost + 1
      ceil := some (min (railCeil s k.val) (up * (railTable k.val).2 / (railTable k.val).1)) } } 2) 0x31 2 9 k.val none up) k.val) := by
  show execPhaseFail k s = _
  unfold execPhaseFail
  extract_lets n
  dsimp -zeta only
  extract_lets up s1
  have hs1 : s1 = { s with rails := mset s.rails k.val { rail s k.val with
      st := max 1 (rail s k.val).st, lost := (rail s k.val).lost + 1, ceil := some (min (railCeil s k.val) (up * (railTable k.val).2 / (railTable k.val).1)) } } := rfl
  clear_value s1
  rw [if_neg (by rw [hw, decide_eq_false (Nat.not_le.mpr hl), decide_eq_false h3]; decide), hs1]

/-! ### The terraces of a ridge rail -/

/-- A terrace's point and duty for its rail: after a reading of p W against a ceiling of c W, at duty d. -/
def railLimits (x : Terrace) (p c d : Nat) : Nat × Nat :=
  if p ≤ c then (if x.railOp < 7 then (x.railOp + 1, x.railDuty) else (x.railOp, min 16 (x.railDuty + 1)))
  else if d ≤ 1 then (min x.railOp x.target - 1, 1)
  else (x.railOp, max 1 (d * c / p))

theorem railTerrace_same (s : State) (tg p c : Nat) :
    ((terrace (railTerrace s tg p c) tg).railOp, (terrace (railTerrace s tg p c) tg).railDuty) = railLimits (terrace s tg) p c (dutyNow s tg) := by
  unfold railTerrace railLimits
  extract_lets d
  rw [terrace_updTerrace_same]
  split
  · split
    · rfl
    · rfl
  · split
    · rfl
    · rfl

theorem railTerrace_other (s : State) (p c : Nat) {a b : Nat} (h : a ≠ b) : terrace (railTerrace s b p c) a = terrace s a := terrace_updTerrace_other _ _ _ _ h

/-- A terrace's rail limits and duty are those of the state before other terraces of its rail were throttled. -/
theorem dutyNow_railTerrace (s : State) (p c : Nat) {a b : Nat} (h : a ≠ b) : dutyNow (railTerrace s b p c) a = dutyNow s a := by
  unfold dutyNow
  rw [railTerrace_other s p c h]
  rfl

theorem railTerraces_limits (l : List Nat) (hnd : l.Nodup) (s : State) (p c : Nat) (h : tg ∈ l) :
    let u := l.foldl (fun s tg => railTerrace s tg p c) s
    ((terrace u tg).railOp, (terrace u tg).railDuty) = railLimits (terrace s tg) p c (dutyNow s tg) := by
  have hkeep : ∀ (l : List Nat) (s : State), tg ∉ l → terrace (l.foldl (fun s tg => railTerrace s tg p c) s) tg = terrace s tg := fun l => by
    induction l with
    | nil => exact fun s _ => rfl
    | cons a l ih =>
      intro s hn
      rw [List.mem_cons, not_or] at hn
      exact (ih _ hn.2).trans (railTerrace_other s p c hn.1)
  induction l generalizing s with
  | nil => exact absurd h List.not_mem_nil
  | cons a l ih =>
    obtain ⟨ha, hl⟩ := List.nodup_cons.mp hnd
    by_cases hat : tg = a
    · subst hat
      dsimp only
      rw [List.foldl_cons, hkeep l _ ha]
      exact railTerrace_same s tg p c
    · have hin := ih hl (railTerrace s a p c) ((List.mem_cons.mp h).resolve_left hat)
      rw [railTerrace_other s p c hat, dutyNow_railTerrace s p c hat] at hin
      exact hin

/-- Targets leave the rail's limits of every terrace. -/
theorem setTarget_limits (s : State) (a m duty tg : Nat) :
    ((terrace (setTarget s a m duty) tg).railOp, (terrace (setTarget s a m duty) tg).railDuty) = ((terrace s tg).railOp, (terrace s tg).railDuty) := by
  have hupd : ∀ (u : State) (f : Terrace → Terrace), (∀ t, ((f t).railOp, (f t).railDuty) = (t.railOp, t.railDuty)) → terrace u tg = terrace s tg →
      ((terrace (updTerrace u a f) tg).railOp, (terrace (updTerrace u a f) tg).railDuty) = ((terrace s tg).railOp, (terrace s tg).railDuty) := fun u f hf hu => by
    by_cases ha : tg = a
    · subst ha
      rw [terrace_updTerrace_same, hf, hu]
    · rw [terrace_updTerrace_other _ _ _ _ ha, hu]
  unfold setTarget
  extract_lets t u v
  split
  · exact hupd s _ (fun _ => rfl) rfl
  · refine hupd u _ (fun _ => rfl) ?_
    simp only [u]
    split
    · rfl
    · rfl

theorem applyLoop_limits (s : State) (a tg : Nat) :
    ((terrace (applyLoop s a) tg).railOp, (terrace (applyLoop s a) tg).railDuty) = ((terrace s tg).railOp, (terrace s tg).railDuty) := by
  unfold applyLoop
  extract_lets t top
  split
  · rfl
  · split
    · exact setTarget_limits _ _ _ _ _
    · exact setTarget_limits _ _ _ _ _

theorem followLane_terraces (s : State) (n : Nat) : (followLane s n).terraces = s.terraces := by
  unfold followLane
  extract_lets m l
  split
  · rfl
  · rfl

theorem followRidge_terraces (s : State) (r : Nat) : (followRidge s r).terraces = s.terraces := by
  show (followLane (followLane s (2 * r)) (2 * r + 1)).terraces = _
  rw [followLane_terraces, followLane_terraces]

theorem railThrottle_limits (t : State) (hn : 4 ≤ n) (hn' : n < 20) (i : Fin 4) :
    let tg := 4 * (n - 4) + i.val
    ((terrace (railThrottle t n) tg).railOp, (terrace (railThrottle t n) tg).railDuty) =
      railLimits (terrace t tg) (rail t n).pwr (railCeil t n) (dutyNow t tg) := by
  intro tg
  let l := (List.range 4).map (fun i => 4 * (n - 4) + i)
  let cut := l.foldl (fun s tg => railTerrace s tg (rail t n).pwr (railCeil t n)) t
  have he : railThrottle t n = followRidge (l.foldl applyLoop cut) (n - 4) := by
    unfold railThrottle
    exact if_pos (by rw [decide_eq_true hn, decide_eq_true hn']; rfl)
  have hloops : ∀ (l : List Nat) (s : State), ((terrace (l.foldl applyLoop s) tg).railOp, (terrace (l.foldl applyLoop s) tg).railDuty) =
      ((terrace s tg).railOp, (terrace s tg).railDuty) := fun l => by
    induction l with
    | nil => exact fun _ => rfl
    | cons a l ih => exact fun s => (ih (applyLoop s a)).trans (applyLoop_limits s a tg)
  have hterr : terrace (railThrottle t n) tg = terrace (l.foldl applyLoop cut) tg := by
    unfold terrace
    rw [he, followRidge_terraces]
  have hmem : tg ∈ l := List.mem_map.mpr ⟨i.val, List.mem_range.mpr i.isLt, rfl⟩
  have hnd : l.Nodup := List.nodup_range.map (fun a b h => by simpa using h)
  rw [hterr, hloops]
  exact railTerraces_limits l hnd t _ _ hmem

/-! ### The other dies -/

/-- The sensor of the die that a rail feeds, but for a ridge's. -/
def railDie (n : Nat) : Nat := if n < 22 then 480 + (n - 20) else if n < 26 then 482 + n % 2 else 480 + (n - 26)

theorem railThrottle_rung (t : State) (h20 : 20 ≤ n) (h28 : n < 28) : (sensor (railThrottle t n) (railDie n)).rung =
    (if railCeil t n < (rail t n).pwr then min 3 ((sensor t (railDie n)).rung + 1) else (sensor t (railDie n)).rung - 1) := by
  have hdie : ∀ d, (sensor (
      let s' : State := { t with sensors := mupd t.sensors d {} (fun x => { x with
        rung := if decide (railCeil t n < (rail t n).pwr) then min 3 (x.rung + 1) else x.rung - 1 }) }
      if decide (railCeil t n < (rail t n).pwr) then { s' with rsvDue := some (t.rsvDue.getD 1) } else s') d).rung =
      (if railCeil t n < (rail t n).pwr then min 3 ((sensor t d).rung + 1) else (sensor t d).rung - 1) := fun d => by
    have hs : ∀ x : Sensor, mget (mset t.sensors d x) d {} = x := fun x => mget_mset_same _ _ _ _
    unfold sensor mupd
    dsimp only
    split
    next h => rw [hs, if_pos (of_decide_eq_true h)]
    next h => rw [hs, if_neg (by simpa using h)]
  unfold railThrottle
  extract_lets p c excess die
  rw [if_neg (by simp; omega)]
  unfold railDie
  by_cases h22 : n < 22
  · rw [if_pos (by simp; omega), if_pos h22]
    exact hdie _
  · rw [if_neg (by simp; omega), if_neg h22]
    by_cases h26 : n < 26
    · rw [if_pos (by simp; omega), if_pos h26]
      exact hdie _
    · rw [if_neg (by simp; omega), if_neg h26, if_pos (by simp; omega)]
      exact hdie _

end Rails

/-- Settles O50. -/
theorem feedsAndRails : Obligations.FeedsAndRails := by
  refine ⟨fun k v s => ?_, fun k s hw => ?_⟩
  · intro left opened fresh o
    have hleave : v < 380 ∨ 620 < v → exec (.feedOutOfRange k v) s = .next (feedLeaves s k.val { feed s k.val with volts := v }) := fun hv =>
      if_neg (by rw [Bool.and_eq_true, decide_eq_true_eq, decide_eq_true_eq]; omega)
    have hmate : s.mode ≠ .off → s.mode ≠ .standby → exec (.matePinOpen k) s = .next (feedLeaves s k.val { feed s k.val with mateOpen := true }) :=
      fun h1 h2 => if_neg (by simp [dark, h1, h2])
    refine ⟨fun h1 h2 => if_pos (by rw [decide_eq_true h1, decide_eq_true h2]; rfl), fun hv hon => ⟨fun hc hin => ?_, fun hc hin hval => ?_, fun hin => ⟨?_, rfl⟩⟩,
      fun hon hst => ⟨fun hc hin => ?_, fun hc hin hval => ?_⟩, fun h1 h2 => ?_, fun hv => if_pos (by simpa using hv), fun hon hb hval hin => if_pos ?_,
      fun h0 h1 => ?_, fun h => ?_⟩
    · exact (hleave hv).trans (congrArg _ ((feedLeaves_eq hon _).trans ((if_neg (by rw [hin]; decide)).trans (if_pos hc))))
    · exact (hleave hv).trans (congrArg _ ((feedLeaves_eq hon _).trans ((if_neg (by rw [hin]; decide)).trans ((if_neg (not_not.mpr hc)).trans (if_pos hval)))))
    · exact (hleave hv).trans (congrArg _ ((feedLeaves_eq hon _).trans (if_pos hin)))
    · exact (hmate hon hst).trans (congrArg _ ((feedLeaves_eq hon _).trans ((if_neg (by rw [hin]; decide)).trans (if_pos hc))))
    · exact (hmate hon hst).trans (congrArg _ ((feedLeaves_eq hon _).trans ((if_neg (by rw [hin]; decide)).trans ((if_neg (not_not.mpr hc)).trans (if_pos hval)))))
    · refine (if_neg ?_).trans ?_
      · rw [Bool.or_eq_true, decide_eq_true_eq, decide_eq_true_eq]; omega
      · exact (apply_ite Host.Outcome.next (s.mode = .off) _ _).symm
    · simp [hon, hb, hval, hin]
    · exact if_pos (by rw [decide_eq_true h0, decide_eq_true h1]; rfl)
    · refine if_neg ?_
      rw [Bool.and_eq_true, decide_eq_true_eq, decide_eq_true_eq]
      omega
  · intro n r phases guess est
    have htele : ∀ m : RailSample, r.st < 2 → exec (.railTelemetry k m) s = _ := fun m h => exec_railTelemetry hw h m
    have hdead : r.st ≠ 3 → ¬ ((!(watched s) || decide ((rail s n).st = 3)) = true) := fun h => by
      rw [hw, decide_eq_false h]
      decide
    refine ⟨fun c => ⟨fun h => (if_pos hw).trans (congrArg _ (railEstimate_eq h c.val)), fun h => (if_pos hw).trans (congrArg _ (if_pos h))⟩,
      fun m => ⟨fun h => if_pos ?_, fun h => (if_neg (hdead (by rw [h]; decide))).trans (if_pos h)⟩, fun m h => ⟨fun hm h2 => ?_, fun hm h2 => ?_,
        fun hm hd h19 => ?_, fun hm hd => ?_⟩, fun t i h4 h20 => ?_, fun t h20 h28 => railThrottle_rung t h20 h28, fun hl h3 => ?_, fun u hu => if_neg ?_,
      fun h3 => ?_, fun tg isl => if_pos hw⟩
    · rw [hw, decide_eq_true (show (rail s n).st = 3 from h)]
      rfl
    · exact (htele m h).trans ((if_pos hm).trans (if_neg (Nat.not_le.mpr h2)))
    · exact (htele m h).trans ((if_pos hm).trans (if_pos h2))
    · exact (htele m h).trans ((if_neg (by rw [hm]; decide)).trans (if_pos (by rw [hd, decide_eq_true (show 19 ≤ (rail s n).disagree from h19)]; rfl)))
    · refine (htele m h).trans ((if_neg (by rw [hm]; decide)).trans (if_neg ?_))
      rw [Bool.and_eq_true, decide_eq_true_eq]
      rintro ⟨h1, h2⟩
      rcases hd with hd | hd
      · rw [hd] at h1; cases h1
      · exact Nat.not_le.mpr hd h2
    · intro tg x y d
      have hlim : (y.railOp, y.railDuty) = railLimits x (rail t n).pwr (railCeil t n) d := railThrottle_limits t h4 h20 i
      exact ⟨fun h => hlim.trans (if_pos h), fun h hd => hlim.trans ((if_neg (Nat.not_le.mpr h)).trans (if_pos hd)),
        fun h hd => hlim.trans ((if_neg (Nat.not_le.mpr h)).trans (if_neg (Nat.not_le.mpr hd)))⟩
    · exact exec_phaseFail hw hl h3
    · rw [hw, decide_eq_false hu]
      decide
    · intro dead
      have hfail : exec (.railFail k) s = (if 4 ≤ n && n < 20 then .next (askRetire dead 1 ((List.range 4).map (fun i => 4 * (n - 4) + i)))
          else if 20 ≤ n && n < 22 then .next (loseGroup dead (n - 20))
          else if 22 ≤ n && n < 26 then .next (headworkFail dead (n % 2))
          else if 26 ≤ n && n < 28 then .next (loseGroup dead (n - 26))
          else .next dead) := if_neg (hdead h3)
      have hno : ∀ a b, n < a ∨ b ≤ n → ¬ ((decide (a ≤ n) && decide (n < b)) = true) := fun a b h => by
        rw [Bool.and_eq_true, decide_eq_true_eq, decide_eq_true_eq]
        omega
      have hyes : ∀ a b, a ≤ n → n < b → (decide (a ≤ n) && decide (n < b)) = true := fun a b h h' => by
        rw [decide_eq_true h, decide_eq_true h']
        rfl
      refine ⟨fun h1 h2 => hfail.trans (if_pos (hyes _ _ h1 h2)), fun h1 h2 => hfail.trans ((if_neg (hno _ _ (by omega))).trans (if_pos (hyes _ _ h1 h2))),
        fun h1 h2 => hfail.trans ((if_neg (hno _ _ (by omega))).trans ((if_neg (hno _ _ (by omega))).trans (if_pos (hyes _ _ h1 h2)))), fun h1 h2 => ?_, fun h => ?_⟩
      · exact hfail.trans ((if_neg (hno _ _ (by omega))).trans ((if_neg (hno _ _ (by omega))).trans ((if_neg (hno _ _ (by omega))).trans
          (if_pos (hyes _ _ h1 h2)))))
      · exact hfail.trans ((if_neg (hno _ _ (by omega))).trans ((if_neg (hno _ _ (by omega))).trans ((if_neg (hno _ _ (by omega))).trans
          (if_neg (hno _ _ (by omega))))))

end Sys2Proof.Machine
end

section
/-! PROOFS. The loops of Freeboard (R455, R456, R463 to R472). -/

namespace Sys2Proof.Machine

open Sys2Proof

section Loops
variable {s : State}

/-! ## The fast loop -/

/-- The state of the fast loop once its window is closed, and its duty and target are set. -/
def fastState (s : State) (m : FastSample) : State :=
  let c := closeWindow s (inputPower s m.ibc)
  let d := nextDuty c (m.duty.val + 1)
  (m.droop.map (fun r => r.val)).foldl droopDuty { c with capGuard := false, fb := { c.fb with
    duty := d, dutyLow := min c.fb.dutyLow d, dutyHigh := max c.fb.dutyHigh d, target := nextTarget c (c.fb.win.getD 0), xlow := c.fb.xlow && d == 1 } }

/-- Is the power over its target, or a lowered cap still ahead of it? -/
def fastShort (s : State) (m : FastSample) : Prop :=
  (fastState s m).fb.target < (closeWindow s (inputPower s m.ibc)).fb.win.getD 0 ∨ (m.ahead = true ∧ capInForce (fastState s m) < (fastState s m).fb.target)

theorem exec_fbFastLoop (hw : watched s = true) (m : FastSample) :
    let t := fastState s m
    let p := (closeWindow s (inputPower s m.ibc)).fb.win.getD 0
    (fastShort s m → computeFloor t = true → exec (.fbFastLoop m) s = .next (applyLoops (setRung t (min 7 (t.fb.rung + 1))))) ∧
    (¬ fastShort s m ∨ computeFloor t = false → exec (.fbFastLoop m) s =
      .next (applyLoops (if p + 40 ≤ t.fb.target ∧ t.fb.unach = false then setRung t (t.fb.rung - 1) else t))) := by
  intro t p
  have hshort : (decide (t.fb.target < p) || (m.ahead && decide (capInForce t < t.fb.target))) = true ↔ fastShort s m := by
    rw [Bool.or_eq_true, Bool.and_eq_true, decide_eq_true_eq, decide_eq_true_eq]
    exact Iff.rfl
  have he : exec (.fbFastLoop m) s = .next (applyLoops (
      if (decide (t.fb.target < p) || (m.ahead && decide (capInForce t < t.fb.target))) && computeFloor t then setRung t (min 7 (t.fb.rung + 1))
      else if p + 40 ≤ t.fb.target && !t.fb.unach then setRung t (t.fb.rung - 1) else t)) := if_neg (by rw [hw]; decide)
  have hgrow : (decide (p + 40 ≤ t.fb.target) && !t.fb.unach) = true ↔ p + 40 ≤ t.fb.target ∧ t.fb.unach = false := by
    rw [Bool.and_eq_true, decide_eq_true_eq, Bool.not_eq_true']
  refine ⟨fun hs hf => ?_, fun h => ?_⟩
  · rw [he, if_pos (by rw [Bool.and_eq_true, hshort]; exact ⟨hs, hf⟩)]
  · rw [he, if_neg (by rw [Bool.and_eq_true, hshort]; exact fun ⟨h1, h2⟩ => h.elim (fun h => h h1) (fun h => Bool.false_ne_true (h.symm.trans h2))),
      if_congr hgrow rfl rfl]

theorem inputPower_measured (h : ∀ k : Fin 4, (rail s k.val).st < 2) (a b c d : Nat) : inputPower s [a, b, c, d] = a + b + c + d := by
  have hread : ∀ k, k < 4 → ∀ x, (if (rail s k).st = 3 then 0 else if (rail s k).st = 2 then (rail s k).pwr else x) = x := fun k hk x => by
    have : (rail s k).st < 2 := h ⟨k, hk⟩
    rw [if_neg (by omega), if_neg (by omega)]
  have hlist : (List.range 4).map (fun k => if (rail s k).st = 3 then 0 else if (rail s k).st = 2 then (rail s k).pwr else [a, b, c, d].getD k 0) = [a, b, c, d] := by
    rw [show List.range 4 = [0, 1, 2, 3] from rfl]
    simp only [List.map_cons, List.map_nil]
    rw [hread 0 (by decide), hread 1 (by decide), hread 2 (by decide), hread 3 (by decide)]
    rfl
  unfold inputPower
  rw [hlist]
  simp only [List.sum_cons, List.sum_nil]
  omega

/-- The power of the window that closes: what is asked, within a step of the last window's. -/
def windowPower (s : State) (ask : Nat) : Nat := max (s.fb.win.getD ask - rampStep s) (min (s.fb.win.getD ask + rampStep s) ask)

theorem nextTarget_raised (pwr : Nat) (h : s.fb.target ≤ capInForce s) : nextTarget s pwr = capInForce s := if_neg (Nat.not_lt.mpr h)

theorem nextTarget_lowered (pwr : Nat) (h : capInForce s < s.fb.target) :
    nextTarget s pwr = max (capInForce s) (min s.fb.target (max (capInForce s) pwr) - rampInForce s / 10) := if_pos h

/-! ## What the loops leave of Freeboard's state -/

theorem applyLoops_fb (s : State) : (applyLoops s).fb = s.fb := by
  have hset : ∀ (t : State) a n d, (setTarget t a n d).fb = t.fb := fun t a n d => by
    unfold setTarget
    extract_lets x u v
    have hu : u.fb = t.fb := by
      simp only [u]
      split
      · rfl
      · rfl
    split
    · rfl
    · exact hu
  have hloop : ∀ (l : List Nat) (t : State), (l.foldl applyLoop t).fb = t.fb := fun l => by
    induction l with
    | nil => exact fun _ => rfl
    | cons a l ih =>
      intro t
      refine (ih (applyLoop t a)).trans ?_
      unfold applyLoop
      extract_lets x top
      split
      · rfl
      · split
        · exact hset _ _ _ _
        · exact hset _ _ _ _
  have hlane : ∀ (t : State) n, (followLane t n).fb = t.fb := fun t n => by
    unfold followLane
    extract_lets m l
    split
    · rfl
    · rfl
  have hridge : ∀ (l : List Nat) (t : State), (l.foldl followRidge t).fb = t.fb := fun l => by
    induction l with
    | nil => exact fun _ => rfl
    | cons a l ih => exact fun t => (ih (followRidge t a)).trans ((hlane (followLane t (2 * a)) (2 * a + 1)).trans (hlane t (2 * a)))
  exact (hridge _ _).trans (hloop _ _)

theorem setRung_fb (s : State) (n : Nat) :
    (setRung s n).fb.duty = s.fb.duty ∧ (setRung s n).fb.op = s.fb.op ∧ (setRung s n).fb.rung = n ∧ (setRung s n).fb.unach = s.fb.unach ∧
    (setRung s n).fb.floor = s.fb.floor := by
  unfold setRung
  extract_lets taken t
  split
  · exact ⟨rfl, rfl, rfl, rfl, rfl⟩
  · exact ⟨rfl, rfl, rfl, rfl, rfl⟩

theorem fbEvent_logOnly (s : State) (b : Nat) : LogOnly s (fbEvent s b) := by
  unfold fbEvent
  extract_lets e t
  exact .ite (setRg_logOnly _ _) ((setRg_logOnly _ _).trans (intCause_logOnly 10))

/-! ## The evaluation of FLOOR -/

/-- FLOOR read within the cap: how many evaluations in a row, and all terraces awake at the eleventh. -/
theorem exec_fbFloorEval_fits (hw : watched s = true) {floor per : Nat} (hcap : floor ≤ capInForce s) :
    let ok := if floor + 20 ≤ capInForce s then min 11 (s.fb.okMs + 1) else 0
    let t : State := { s with fb := { s.fb with floor, unach := false, okMs := ok, perTerrace := per } }
    exec (.fbFloorEval floor per) s = if ok = 11 then .next { t with awakeMax := 64 } else .next t := by
  intro ok t
  show execFbFloorEval floor per s = _
  unfold execFbFloorEval
  rw [if_neg (by rw [hw]; decide)]
  extract_lets cap un rose ok' fb t1 t2
  have hun : un = false := decide_eq_false (Nat.not_lt.mpr hcap)
  have hrose : rose = false := by simp only [rose, hun]; rfl
  have ht2 : t2 = t1 := by simp only [t2, hrose]; rfl
  have ht1 : t1 = t := by simp only [t1, t, hun]; rfl
  clear_value t2
  rw [if_neg (by rw [hun]; exact Bool.false_ne_true), ht2, ht1]

/-- FLOOR read above the cap. -/
theorem exec_fbFloorEval_over (hw : watched s = true) {floor per : Nat} (hcap : capInForce s < floor) :
    ∃ u, exec (.fbFloorEval floor per) s = .next u ∧ u.fb.duty = 1 ∧ u.fb.op = 0 ∧ u.fb.rung = 7 ∧ u.fb.unach = true ∧ u.fb.floor = floor := by
  show ∃ u, execFbFloorEval floor per s = .next u ∧ _
  unfold execFbFloorEval
  rw [if_neg (by rw [hw]; decide)]
  extract_lets cap un rose ok fb t t' excess gate fb' r
  have hun : un = true := decide_eq_true hcap
  rw [if_pos hun]
  have hlog : LogOnly t t' := .ite ((fbEvent_logOnly _ _).trans (rasAppend_logOnly _ _ _ _ _ _)) (.refl t)
  have hfb : t'.fb = t.fb := by rw [hlog]
  obtain ⟨h1, h2, h3, h4, h5⟩ := setRung_fb { t' with fb := { t'.fb with duty := 1, op := 0 } } 7
  refine ⟨_, rfl, ?_⟩
  rw [applyLoops_fb]
  exact ⟨h1, h2, h3, h4.trans ((congrArg Freeboard.unach hfb).trans hun), h5.trans (congrArg Freeboard.floor hfb)⟩

/-- A millisecond of the slow loop, before its new operating point. -/
def slowState (s : State) (m : SlowSample) : State := { s with fb := { s.fb with
  pwr := if s.fb.winN = 0 then s.fb.pwr else s.fb.winSum / s.fb.winN, balMs := if s.fb.winN = 0 then s.fb.balMs else s.fb.balSum / s.fb.winN
  winN := 0, winSum := 0, balSum := 0
  withheld := m.withheld, inlet := m.inlet, outlet := m.outlet, flow := m.flow, coolCap := coolCap m
  grant := s.fb.grant.map (fun g => { g with life := g.life - 1 }) } }

theorem exec_fbSlowLoop (hw : watched s = true) (m : SlowSample) :
    let t := slowState s m
    exec (.fbSlowLoop m) s = .next (applyLoops { t with fb := { t.fb with
      op := if s.fb.dutyHigh < 12 then s.fb.op - 1
        else if s.fb.dutyLow = 16 ∧ demanded t < capInForce t ∧ s.fb.unach = false then min 7 (s.fb.op + 1) else s.fb.op
      dutyLow := s.fb.duty, dutyHigh := s.fb.duty } }) := by
  intro t
  have hslack : (decide (s.fb.dutyLow = 16) && (decide (demanded t < capInForce t) && !s.fb.unach)) = true ↔
      s.fb.dutyLow = 16 ∧ demanded t < capInForce t ∧ s.fb.unach = false := by
    rw [Bool.and_eq_true, Bool.and_eq_true, decide_eq_true_eq, decide_eq_true_eq, Bool.not_eq_true']
  show execFbSlowLoop m s = _
  unfold execFbSlowLoop
  rw [if_neg (by rw [hw]; decide)]
  extract_lets fb t' slack op fb'
  have hs : slack = (decide (demanded t' < capInForce t') && !t'.fb.unach) := rfl
  have hop : op = if t'.fb.dutyHigh < 12 then t'.fb.op - 1
      else if (decide (t'.fb.dutyLow = 16) && slack) = true then min 7 (t'.fb.op + 1) else t'.fb.op := by simp only [op]
  have ht : t' = t := rfl
  have hhigh : t.fb.dutyHigh = s.fb.dutyHigh ∧ t.fb.op = s.fb.op ∧ t.fb.dutyLow = s.fb.dutyLow ∧ t.fb.unach = s.fb.unach ∧ t.fb.duty = s.fb.duty :=
    ⟨rfl, rfl, rfl, rfl, rfl⟩
  simp only [fb']
  clear_value op slack t' t
  subst ht
  obtain ⟨h1, h2, h3, h4, h5⟩ := hhigh
  rw [hop, hs, h1, h2, h3, h4, if_congr hslack rfl rfl, h5]

end Loops

/-- Settles O51. -/
theorem freeboardLoops : Obligations.FreeboardLoops := by
  intro s hw
  refine ⟨fun m => ?_, fun a b c d h => inputPower_measured h a b c d, fun ask => ?_, fun pwr => ⟨fun h => nextTarget_raised pwr h, fun h => ?_⟩,
    fun d => ⟨fun h => if_pos h, fun h hr => (if_neg (Bool.eq_false_iff.mp h)).trans (if_pos hr), fun h hr => (if_neg (Bool.eq_false_iff.mp h)).trans
      (if_neg (by omega))⟩, fun m => exec_fbSlowLoop hw m, fun floor per => ?_, fun avg => ⟨fun h => if_pos ?_, fun h1 h2 => if_neg ?_⟩, fun h => if_pos ?_⟩
  · intro c p d t short
    obtain ⟨hup, hstay⟩ := exec_fbFastLoop hw m
    refine ⟨hup, fun hs ht hu => (hstay hs).trans (congrArg _ (congrArg _ (if_pos ⟨ht, hu⟩))), fun hs ht => (hstay hs).trans (congrArg _ (congrArg _ (if_neg ?_)))⟩
    rintro ⟨h1, h2⟩
    rcases ht with h | h
    · exact absurd h1 (Nat.not_le.mpr h)
    · exact Bool.false_ne_true (h2.symm.trans h)
  · refine ⟨windowPower s ask, ?_⟩
    intro u last
    have hw : windowPower s ask = max (last - rampStep s) (min (last + rampStep s) ask) := rfl
    refine ⟨rfl, ?_, ?_, rfl, rfl, fun h1 h2 => ?_, rfl, rfl, rfl⟩
    · omega
    · omega
    · omega
  · rw [nextTarget_lowered pwr h]
    omega
  · intro cap t
    refine ⟨fun h1 h2 => ?_, fun h1 h2 => ?_, fun h1 h2 => ?_, fun h => exec_fbFloorEval_over hw h⟩
    · have hok : (if floor + 20 ≤ capInForce s then min 11 (s.fb.okMs + 1) else 0) = 0 := if_neg (Nat.not_le.mpr h2)
      have he := exec_fbFloorEval_fits (per := per) hw h1
      rw [hok] at he
      exact he
    · have hok : (if floor + 20 ≤ capInForce s then min 11 (s.fb.okMs + 1) else 0) = s.fb.okMs + 1 := (if_pos h1).trans (by omega)
      have he := exec_fbFloorEval_fits (per := per) hw (Nat.le_of_add_right_le h1)
      rw [hok] at he
      exact he.trans (if_neg (by omega))
    · have hok : (if floor + 20 ≤ capInForce s then min 11 (s.fb.okMs + 1) else 0) = 11 := (if_pos h1).trans (by omega)
      have he := exec_fbFloorEval_fits (per := per) hw (Nat.le_of_add_right_le h1)
      rw [hok] at he
      exact he.trans (if_pos rfl)
  · rw [hw, Bool.true_and, Bool.or_eq_true, decide_eq_true_eq, decide_eq_true_eq]
    exact h
  · rw [hw, Bool.true_and, Bool.or_eq_true, decide_eq_true_eq, decide_eq_true_eq]
    omega
  · rw [hw, h]
    rfl

end Sys2Proof.Machine
end

section
/-! PROOFS. Operating points, heat, power-gating and energy (R462, R478 to R485). -/

namespace Sys2Proof.Machine

open Sys2Proof

/-! ## Heat -/

section Heat
variable {s : State}

theorem stopItem_stopOnly (s : State) (k : Nat) : StopOnly s (stopItem s k) := by
  cases hr : mget? s.runs k with
  | none =>
    unfold stopItem
    rw [hr]
    exact .refl s
  | some r => exact (stopItem_effect hr).1

theorem dropRuns_journal (s : State) : (dropRuns s).jrn0 = s.jrn0 ∧ (dropRuns s).jrn1 = s.jrn1 := by
  have hstop : ∀ l : List Nat, StopOnly s (l.foldl stopItem s) := fun l => .foldl stopItem_stopOnly l s
  unfold dropRuns
  extract_lets t
  have ht : StopOnly s t := hstop _
  clear_value t
  unfold StopOnly at ht
  rw [ht]
  exact ⟨rfl, rfl⟩

/-- Entering Faulted retains the journal. -/
theorem enterFaulted_journal (s : State) (r : Nat) : (enterFaulted s r).jrn0 = s.jrn0 ∧ (enterFaulted s r).jrn1 = s.jrn1 := by
  obtain ⟨tm, ts, h⟩ := setMode_frame { dropRuns s with freason := r, resetting := none } .faulted
  have hf : enterFaulted s r = _ := h
  rw [hf]
  exact dropRuns_journal s

/-- What a trip leaves (R483). -/
theorem trip_effect (s : State) : (trip s).mode = .faulted ∧ (trip s).tripped = true ∧ (trip s).runs = [] ∧ (trip s).hbm = {} ∧
    (trip s).jrn0 = s.jrn0 ∧ (trip s).jrn1 = s.jrn1 ∧ (trip s).freason = (if s.mode = .faulted then s.freason else 3) := by
  unfold trip
  extract_lets t
  obtain ⟨hm, hr, -, -⟩ := enterFaulted_effect s (if s.mode = .faulted then s.freason else 3)
  obtain ⟨h0, h1⟩ := enterFaulted_journal s (if s.mode = .faulted then s.freason else 3)
  exact ⟨hm, rfl, rfl, rfl, h0, h1, hr⟩

/-- A rise of a stage is told and logged, and may make a recomputation due. -/
theorem stageRose_frame (s : State) (p : Junction) (temp : Nat) (old new : Stage) :
    ∃ v d, LogOnly s v ∧ stageRose s p temp old new = { v with rsvDue := d } := by
  unfold stageRose
  extract_lets s1 s2 s3
  have h1 : LogOnly s s1 := .ite ((satAdd_logOnly _ _ _ _ _).trans (exEvent_logOnly _)) (.refl s)
  have h2 : LogOnly s1 s2 := .ite (fbEvent_logOnly _ _) (.refl s1)
  have h3 : LogOnly s2 s3 := .ite (rasAppend_logOnly _ _ _ _ _ _) (.refl s2)
  refine ⟨s3, if heatDie p && stageRung 3 old < stageRung 3 new then some (s3.rsvDue.getD 1) else s3.rsvDue, (h1.trans h2).trans h3, ?_⟩
  split
  · rfl
  · rfl

theorem exec_junctionSample (hoff : s.mode ≠ .off) (hst : s.mode ≠ .standby) (p : Junction) {temp : Nat} (h : temp < 118) :
    ∃ u, exec (.junctionSample p temp) s = .next u ∧ u.mode = s.mode ∧ u.hbm = s.hbm ∧
      u.sensors = mset s.sensors (sensorNo p) { sensor s (sensorNo p) with tj := temp, stage := junctionStage (sensor s (sensorNo p)).stage temp } := by
  let read : State := { s with sensors := mset s.sensors (sensorNo p) { sensor s (sensorNo p) with
    tj := temp, stage := junctionStage (sensor s (sensorNo p)).stage temp } }
  obtain ⟨v, d, hv, he⟩ := stageRose_frame read p temp (heatStage s p) (heatStage read p)
  refine ⟨stageRose read p temp (heatStage s p) (heatStage read p), (if_neg (by simp [dark, hoff, hst])).trans (if_neg (by omega)), ?_⟩
  unfold LogOnly at hv
  rw [he, hv]
  exact ⟨rfl, rfl, rfl⟩

theorem junctionStage_hot {t : Nat} (h : 110 ≤ t) (o : Stage) : junctionStage o t = .hot := if_pos (by simp [h])

theorem junctionStage_stays_hot {t : Nat} (h : 105 < t) : junctionStage .hot t = .hot := if_pos (by simp [h])

theorem junctionStage_warm {t : Nat} (h : 100 ≤ t) (h' : t ≤ 105) (o : Stage) : junctionStage o t = .warm :=
  (if_neg (by simp; omega)).trans (if_pos (by simp [h]))

theorem junctionStage_stays {t : Nat} (h : 95 < t) (h' : t < 100) :
    junctionStage .normal t = .normal ∧ junctionStage .warm t = .warm :=
  ⟨(if_neg (by simp; omega)).trans (if_neg (by simp; omega)), (if_neg (by simp; omega)).trans (if_pos (by simp [h]))⟩

theorem junctionStage_normal {t : Nat} (h : t ≤ 95) (o : Stage) : junctionStage o t = .normal :=
  (if_neg (by simp; omega)).trans (if_neg (by simp; omega))

/-- The three steps that a ceiling can take. -/
theorem nextCeil_cases (c tj : Nat) (st : Stage) : (100 ≤ tj → nextCeil c tj st = c - 1) ∧
    (tj < 100 → st = .normal → nextCeil c tj st = min 7 (c + 1)) ∧ (tj < 100 → st ≠ .normal → nextCeil c tj st = c) :=
  ⟨fun h => if_pos h, fun h hs => (if_neg (by omega)).trans (if_pos hs), fun h hs => (if_neg (by omega)).trans (if_neg hs)⟩

theorem exec_thermalCeilingStep (hw : watched s = true) (d : Domain) : exec (.thermalCeilingStep d) s = match d with
    | .terrace tg => .next (followRidge (applyLoop (updTerrace s tg.val (fun t => { t with
        ceil := nextCeil (terrace s tg.val).ceil (terraceTj s tg.val) (terraceStage s tg.val) })) tg.val) (tg.val / 4))
    | .lane fg => .next (followLane (updLane s fg.val (fun l => { l with
        ceil := nextCeil (laneAt s fg.val).ceil (sensor s (448 + fg.val)).tj (sensor s (448 + fg.val)).stage })) fg.val)
    | .ridge _ => .next s := by
  show execThermalCeilingStep d s = _
  unfold execThermalCeilingStep
  rw [if_neg (by rw [hw]; decide)]
  cases d with
  | terrace tg => rfl
  | lane fg => rfl
  | ridge r => rfl

end Heat

/-! ## Power-gating -/

section Gate
variable {s : State}

/-- Following a point changes, of a lane, its voltage and target; no other lane. -/
theorem followLane_pstate (s : State) (n k : Nat) : (laneAt (followLane s n) k).pstate = (laneAt s k).pstate := by
  unfold followLane
  extract_lets m l
  split
  · rfl
  · by_cases h : k = n
    · subst h
      rw [laneAt_updLane_same]
    · rw [laneAt_updLane_other _ _ h]

theorem followRidge_pstate (s : State) (r k : Nat) : (laneAt (followRidge s r) k).pstate = (laneAt s k).pstate :=
  (followLane_pstate _ _ k).trans (followLane_pstate s _ k)

theorem followLane_frame (s : State) (n : Nat) : (followLane s n).ridgePower = s.ridgePower ∧ (followLane s n).freeCtr = s.freeCtr := by
  unfold followLane
  extract_lets m l
  split
  · exact ⟨rfl, rfl⟩
  · exact ⟨rfl, rfl⟩

theorem followRidge_frame (s : State) (r : Nat) : (followRidge s r).ridgePower = s.ridgePower ∧ (followRidge s r).freeCtr = s.freeCtr := by
  obtain ⟨h1, h2⟩ := followLane_frame s (2 * r)
  obtain ⟨g1, g2⟩ := followLane_frame (followLane s (2 * r)) (2 * r + 1)
  exact ⟨g1.trans h1, g2.trans h2⟩

/-- A lane that wakes is awake; no terrace, no ridge and no free value changes. -/
theorem wakeLane_effect (s : State) (n : Nat) : (laneAt (wakeLane s n) n).pstate = .awake ∧ (wakeLane s n).terraces = s.terraces ∧
    (wakeLane s n).ridgePower = s.ridgePower ∧ (wakeLane s n).freeCtr = s.freeCtr := by
  unfold wakeLane
  split
  next h => exact ⟨h, rfl, rfl, rfl⟩
  next => exact ⟨by rw [laneAt_updLane_same], rfl, rfl, rfl⟩

/-- A ridge wakes with a lane of it, and its rail follows. -/
theorem woken_effect (s : State) (r n : Nat) (u : State) (hu : u = followRidge (wakeLane (wakeRidge s r) n) r) :
    (laneAt u n).pstate = .awake ∧ ridgePState u r = .awake ∧ u.terraces = s.terraces ∧ u.freeCtr = s.freeCtr := by
  subst hu
  obtain ⟨h1, h2, h3, h4⟩ := wakeLane_effect (wakeRidge s r) n
  obtain ⟨g1, g2⟩ := followRidge_frame (wakeLane (wakeRidge s r) n) r
  refine ⟨(followRidge_pstate _ _ _).trans h1, ?_, (followRidge_terraces _ _).trans h2, g2.trans h4⟩
  unfold ridgePState
  rw [g1, h3]
  exact mget_mset_same _ _ _ _

theorem domainState_setDomain (s : State) (d : Domain) (p : PState) : domainState (setDomain s d p) d = p := by
  cases d with
  | terrace tg =>
    show (terrace (updTerrace s tg.val _) tg.val).pstate = p
    rw [terrace_updTerrace_same]
  | lane fg =>
    show (laneAt (updLane s fg.val _) fg.val).pstate = p
    rw [laneAt_updLane_same]
  | ridge r => exact mget_mset_same _ _ _ _

theorem exec_domainGated (d : Domain) (hd : domainState s d = .drain) (hb : domainBusy s d = false) :
    ∃ u, exec (.domainGated d) s = .next u ∧ domainState u d = .gated ∧
      ∀ tg, d = .terrace tg → terrace u tg.val = { terrace s tg.val with pstate := .gated, tlb := [], pins := [] } := by
  show ∃ u, execDomainGated d s = .next u ∧ _
  unfold execDomainGated
  rw [if_neg (by simp [hd, hb])]
  cases d with
  | terrace tg =>
    let v := updTerrace (setDomain s (.terrace tg) .gated) tg.val (fun t => { t with tlb := [], pins := [] })
    have ht : terrace (followRidge v (tg.val / 4)) tg.val = { terrace s tg.val with pstate := .gated, tlb := [], pins := [] } := by
      have hv : terrace (followRidge v (tg.val / 4)) tg.val = terrace v tg.val := by
        unfold terrace
        rw [followRidge_terraces]
      rw [hv]
      simp only [v, setDomain, terrace_updTerrace_same]
    refine ⟨_, rfl, ?_, fun tg' h => ?_⟩
    · show (terrace (followRidge v (tg.val / 4)) tg.val).pstate = .gated
      rw [ht]
    · cases h
      exact ht
  | lane fg => exact ⟨_, rfl, domainState_setDomain s _ _, fun _ h => nomatch h⟩
  | ridge r => exact ⟨_, rfl, domainState_setDomain s _ _, fun _ h => nomatch h⟩

theorem exec_domainWake (d : Domain) (hw : working s = true) (hd : domainState s d = .gated) (hh : wakeHeld s = false) : exec (.domainWake d) s = match d with
    | .terrace tg => if (terrace s tg.val).retired then .next s
      else .next (followRidge (wakeLane (wakeRidge (updTerrace { s with freeCtr := s.freeCtr + 1 } tg.val (fun t => { t with
        pstate := .awake, op := 0, target := 0, mv := t.opMv 0, slew := false, duty := s.fb.duty, prevDuty := s.fb.duty
        wakeUntil := s.clockNs + (Config.freeValue s.freeCtr).toNat % 15001 })) (tg.val / 4)) (laneOf s tg.val)) (tg.val / 4))
    | .lane fg => .next (followRidge (wakeLane (wakeRidge s (fg.val / 2)) fg.val) (fg.val / 2))
    | .ridge r => .next (wakeRidge s r.val) := by
  show execDomainWake d s = _
  unfold execDomainWake
  rw [if_neg (by simp [hw, hd, hh])]
  cases d with
  | terrace tg => rfl
  | lane fg => rfl
  | ridge r => rfl

/-- A terrace wakes at OP0, with its ridge and its lane. -/
theorem exec_domainWake_terrace {tg : Fin 64} (hw : working s = true) (hd : (terrace s tg.val).pstate = .gated) (hh : wakeHeld s = false)
    (hr : (terrace s tg.val).retired = false) : ∃ u, exec (.domainWake (.terrace tg)) s = .next u ∧ terrace u tg.val = { terrace s tg.val with
      pstate := .awake, op := 0, target := 0, mv := (terrace s tg.val).opMv 0, slew := false, duty := s.fb.duty, prevDuty := s.fb.duty
      wakeUntil := s.clockNs + (Config.freeValue s.freeCtr).toNat % 15001 } ∧ u.freeCtr = s.freeCtr + 1 ∧
      ridgePState u (tg.val / 4) = .awake ∧ (laneAt u (laneOf s tg.val)).pstate = .awake := by
  refine ⟨_, (exec_domainWake (.terrace tg) hw hd hh).trans (if_neg (by rw [hr]; decide)), ?_⟩
  generalize hx : updTerrace { s with freeCtr := s.freeCtr + 1 } tg.val _ = x
  obtain ⟨h1, h2, h3, h4⟩ := woken_effect x (tg.val / 4) (laneOf s tg.val) _ rfl
  refine ⟨?_, ?_, h2, h1⟩
  · unfold terrace
    rw [h3]
    exact (congrArg (fun x => terrace x tg.val) hx).symm.trans (terrace_updTerrace_same _ _ _)
  · rw [h4, ← hx]
    rfl

theorem exec_returnedPacket {tg : Fin 64} {k : Nat} {r : Run} {x : Slot} (hd : domainState s (.terrace tg) ≠ .awake) (hr : runOfT s tg.val = some (k, r))
    (hx : slotAt s k = some x) (hs : r.started = false) (hst : x.st = .running) :
    exec (.returnedPacket (.terrace tg)) s = .next (request (freeRun s k) { slots := [(k, some { x with st := .accepted })] }) := by
  show execReturnedPacket (.terrace tg) s = _
  unfold execReturnedPacket
  dsimp only
  rw [if_neg hd]
  simp only [hr, hx]
  rw [if_neg (by simp [hs, hst])]

end Gate

/-! ## Energy -/

section Energy
variable {s : State}

/-- Charges to counters of distinct allotments: each counter gets its own charge. -/
theorem ctr_charged (c : Nat → Nat) (als : List Nat) (hnd : als.Nodup) (s : State) (a : Nat) :
    mget ((als.map (fun a => (a, c a))).foldl (fun s e => ctrAdd s (0x160000 + 8 * e.1) e.2) s).ctrs (0x160000 + 8 * a) 0 =
      mget s.ctrs (0x160000 + 8 * a) 0 + BitVec.ofNat 64 (if a ∈ als then c a else 0) := by
  have hother : ∀ (s : State) b, b ≠ a → mget (ctrAdd s (0x160000 + 8 * b) (c b)).ctrs (0x160000 + 8 * a) 0 = mget s.ctrs (0x160000 + 8 * a) 0 :=
    fun s b hb => mget_mset_other _ _ _ _ _ (by omega)
  induction als generalizing s with
  | nil => simp
  | cons b als ih =>
    obtain ⟨hb, hals⟩ := List.nodup_cons.mp hnd
    rw [List.map_cons, List.foldl_cons, ih hals]
    by_cases hab : b = a
    · subst hab
      rw [if_neg hb, if_pos List.mem_cons_self]
      show mget (mset _ _ _) _ 0 + _ = _
      rw [mget_mset_same]
      simp
    · rw [hother s b hab]
      simp only [List.mem_cons, Ne.symm hab, false_or]

/-- A counter past those of the allotments keeps its value. -/
theorem ctr_uncharged (l : List (Nat × Nat)) (hl : ∀ e ∈ l, e.1 < 1024) (s : State) {off : Nat} (ho : 0x162000 ≤ off) :
    mget (l.foldl (fun s e => ctrAdd s (0x160000 + 8 * e.1) e.2) s).ctrs off 0 = mget s.ctrs off 0 := by
  induction l generalizing s with
  | nil => rfl
  | cons e l ih =>
    have he := hl e List.mem_cons_self
    exact (ih (fun e h => hl e (List.mem_cons_of_mem _ h)) _).trans (mget_mset_other _ _ _ _ _ (by omega))

theorem foldl_ofNat (f : Nat → Nat) (l : List Nat) (x : Nat) :
    (l.map (fun a => BitVec.ofNat 64 (f a))).foldl (fun x y => x + y) (BitVec.ofNat 64 x) = BitVec.ofNat 64 (x + (l.map f).sum) := by
  induction l generalizing x with
  | nil => rfl
  | cons a l ih =>
    rw [List.map_cons, List.foldl_cons, ← BitVec.ofNat_add, ih, List.map_cons, List.sum_cons, Nat.add_assoc]

/-- A sum over all allotments is the sum over those that are charged. -/
theorem sum_range_mem (c : Nat → Nat) (als : List Nat) (hnd : als.Nodup) (hlt : ∀ a ∈ als, a < 1024) :
    ((List.range 1024).map (fun a => if a ∈ als then c a else 0)).sum = (als.map c).sum := by
  have hfilter : ∀ l : List Nat, (l.map (fun a => if a ∈ als then c a else 0)).sum = ((l.filter (fun a => decide (a ∈ als))).map c).sum := fun l => by
    induction l with
    | nil => rfl
    | cons a l ih =>
      rw [List.map_cons, List.sum_cons, ih, List.filter_cons]
      by_cases h : a ∈ als
      · simp [h]
      · simp [h]
  have hperm : ((List.range 1024).filter (fun a => decide (a ∈ als))).Perm als := by
    refine (List.perm_ext_iff_of_nodup (List.nodup_range.filter _) hnd).mpr fun a => ?_
    rw [List.mem_filter, List.mem_range, decide_eq_true_eq]
    exact ⟨fun h => h.2, fun h => ⟨hlt a h, h⟩⟩
  rw [hfilter]
  exact (hperm.map c).sum_eq

/-- Shares of a whole in proportion to weights that come to no more than the total are no more than the whole. -/
theorem sum_shares_le (uj total : Nat) (mine : Nat → Nat) (als : List Nat) (h : (als.map mine).sum ≤ total) (ht : 0 < total) :
    (als.map (fun a => uj * mine a / total)).sum ≤ uj := by
  have hmul : ∀ l : List Nat, (l.map (fun a => uj * mine a / total)).sum * total ≤ uj * (l.map mine).sum := fun l => by
    induction l with
    | nil => simp
    | cons a l ih =>
      rw [List.map_cons, List.sum_cons, List.map_cons, List.sum_cons, Nat.add_mul, Nat.mul_add]
      exact Nat.add_le_add (Nat.div_mul_le_self _ _) ih
  exact Nat.le_of_mul_le_mul_right ((hmul als).trans (Nat.mul_le_mul_left uj h)) ht

/-- The weight of an allotment's activities in a window. -/
def weightMine (acts : List Activity) (a : Nat) : Nat :=
  ((acts.filter (fun x => x.allot.any (fun al => al.val = a) && decide (x.kind.val < 12))).map actWeight).sum

/-- The weights of distinct allotments come to no more than those of all activities. -/
theorem sum_weightMine_le (acts : List Activity) (als : List Nat) (hnd : als.Nodup) :
    (als.map (weightMine acts)).sum ≤ (acts.map actWeight).sum := by
  have hone : ∀ (x : Activity) (als : List Nat), als.Nodup →
      (als.map (fun a => if (x.allot.any (fun al => al.val = a) && decide (x.kind.val < 12)) = true then actWeight x else 0)).sum ≤ actWeight x := by
    intro x als
    induction als with
    | nil => exact fun _ => Nat.zero_le _
    | cons a als ih =>
      intro hnd
      obtain ⟨ha, hals⟩ := List.nodup_cons.mp hnd
      rw [List.map_cons, List.sum_cons]
      by_cases h : (x.allot.any (fun al => al.val = a) && decide (x.kind.val < 12)) = true
      · have hrest : (als.map (fun a => if (x.allot.any (fun al => al.val = a) && decide (x.kind.val < 12)) = true then actWeight x else 0)).sum = 0 := by
          refine List.sum_eq_zero fun y hy => ?_
          obtain ⟨b, hb, rfl⟩ := List.mem_map.mp hy
          refine if_neg fun hb' => ha ?_
          cases hal : x.allot with
          | none => simp [hal] at h
          | some al =>
            rw [hal] at h hb'
            have h1 : al.val = a := of_decide_eq_true (Bool.and_eq_true _ _ ▸ h).1
            have h2 : al.val = b := of_decide_eq_true (Bool.and_eq_true _ _ ▸ hb').1
            rwa [← h1, h2]
        rw [if_pos h, hrest, Nat.add_zero]
      · rw [if_neg h, Nat.zero_add]
        exact ih hals
  have hstep : ∀ (x : Activity) (acts : List Activity) (a : Nat), weightMine (x :: acts) a =
      (if (x.allot.any (fun al => al.val = a) && decide (x.kind.val < 12)) = true then actWeight x else 0) + weightMine acts a := fun x acts a => by
    unfold weightMine
    rw [List.filter_cons]
    split
    · rfl
    · rw [Nat.zero_add]
  induction acts with
  | nil =>
    refine Nat.le_of_eq (List.sum_eq_zero fun y hy => ?_)
    obtain ⟨b, -, rfl⟩ := List.mem_map.mp hy
    rfl
  | cons x acts ih =>
    rw [List.map_cons, List.sum_cons]
    calc (als.map (weightMine (x :: acts))).sum
        = (als.map (fun a => if (x.allot.any (fun al => al.val = a) && decide (x.kind.val < 12)) = true then actWeight x else 0)).sum +
          (als.map (weightMine acts)).sum := by
          rw [← List.sum_map_add]
          exact congrArg List.sum (List.map_congr_left fun a _ => hstep x acts a)
      _ ≤ _ := Nat.add_le_add (hone x als hnd) ih

/-- The allotments that a window charges. -/
def chargedAllots (m : EnergySample) : List Nat := distinct (m.acts.filterMap (fun x => x.allot.map (fun al => al.val)))

theorem chargedAllots_nodup (m : EnergySample) : (chargedAllots m).Nodup := distinct_nodup _

theorem chargedAllots_lt (m : EnergySample) (a : Nat) (h : a ∈ chargedAllots m) : a < 1024 := by
  obtain ⟨x, -, hx⟩ := List.mem_filterMap.mp (mem_of_distinct _ _ h)
  obtain ⟨al, -, rfl⟩ := Option.map_eq_some_iff.mp hx
  exact al.isLt

/-- What a window charges an allotment, in microjoules. -/
def chargeOf (m : EnergySample) (a : Nat) : Nat := m.uj * weightMine m.acts a / ((m.acts.map actWeight).sum + 3000000000000 * 640000)

theorem sum_chargeOf_le (m : EnergySample) : ((chargedAllots m).map (chargeOf m)).sum ≤ m.uj :=
  sum_shares_le _ _ _ _ ((sum_weightMine_le m.acts _ (chargedAllots_nodup m)).trans (Nat.le_add_right _ _)) (by omega)

theorem exec_energyWindowClose (hw : watched s = true) (m : EnergySample) : ∃ t, t = ((chargedAllots m).map (fun a => (a, chargeOf m a))).foldl
      (fun s c => ctrAdd s (0x160000 + 8 * c.1) c.2) s ∧
    exec (.energyWindowClose m) s = .next (ctrAdd (ctrAdd t 0x162000 (m.uj - ((chargedAllots m).map (chargeOf m)).sum)) 0x162008 m.uj) := by
  refine ⟨_, rfl, ?_⟩
  have hsum : (((chargedAllots m).map (fun a => (a, chargeOf m a))).map (fun c => c.2)).sum = ((chargedAllots m).map (chargeOf m)).sum := by
    rw [List.map_map]
    rfl
  rw [← hsum]
  exact if_neg (by rw [hw]; decide)

theorem energy_charged (hw : watched s = true) (m : EnergySample) : ∃ u, exec (.energyWindowClose m) s = .next u ∧
    mget u.ctrs 0x162008 0 = mget s.ctrs 0x162008 0 + BitVec.ofNat 64 m.uj ∧
    ((mget u.ctrs 0x162000 0 - mget s.ctrs 0x162000 0) +
      ((List.range 1024).map (fun a => mget u.ctrs (0x160000 + 8 * a) 0 - mget s.ctrs (0x160000 + 8 * a) 0)).foldl (fun x y => x + y) 0
        = BitVec.ofNat 64 m.uj) := by
  obtain ⟨t, ht, he⟩ := exec_energyWindowClose hw m
  have hkeep : ∀ off, 0x162000 ≤ off → mget t.ctrs off 0 = mget s.ctrs off 0 := fun off ho => by
    rw [ht]
    refine ctr_uncharged _ (fun e h => ?_) s ho
    obtain ⟨a, ha, rfl⟩ := List.mem_map.mp h
    exact chargedAllots_lt m a ha
  refine ⟨_, he, ?_, ?_⟩
  · show mget (mset (mset t.ctrs 0x162000 _) 0x162008 (mget (mset t.ctrs 0x162000 _) 0x162008 0 + _)) 0x162008 0 = _
    rw [mget_mset_same, mget_mset_other _ _ _ _ _ (by decide), hkeep _ (by decide)]
  · have hover : mget (ctrAdd (ctrAdd t 0x162000 (m.uj - ((chargedAllots m).map (chargeOf m)).sum)) 0x162008 m.uj).ctrs 0x162000 0 =
        mget s.ctrs 0x162000 0 + BitVec.ofNat 64 (m.uj - ((chargedAllots m).map (chargeOf m)).sum) := by
      show mget (mset (mset t.ctrs 0x162000 (mget t.ctrs 0x162000 0 + _)) 0x162008 _) 0x162000 0 = _
      rw [mget_mset_other _ _ _ _ _ (by decide), mget_mset_same, hkeep _ (by decide)]
    have hallot : (List.range 1024).map (fun a => mget (ctrAdd (ctrAdd t 0x162000 (m.uj - ((chargedAllots m).map (chargeOf m)).sum)) 0x162008 m.uj).ctrs
          (0x160000 + 8 * a) 0 - mget s.ctrs (0x160000 + 8 * a) 0) =
        (List.range 1024).map (fun a => BitVec.ofNat 64 (if a ∈ chargedAllots m then chargeOf m a else 0)) := by
      refine List.map_congr_left fun a ha => ?_
      have ha := List.mem_range.mp ha
      show mget (mset (mset t.ctrs 0x162000 _) 0x162008 _) (0x160000 + 8 * a) 0 - _ = _
      rw [mget_mset_other _ _ _ _ _ (by omega), mget_mset_other _ _ _ _ _ (by omega), ht, ctr_charged (chargeOf m) _ (chargedAllots_nodup m), add_sub_cancel_left]
    rw [hover, hallot, add_sub_cancel_left]
    have hfold := foldl_ofNat (fun a => if a ∈ chargedAllots m then chargeOf m a else 0) (List.range 1024) 0
    rw [sum_range_mem _ _ (chargedAllots_nodup m) (chargedAllots_lt m), Nat.zero_add] at hfold
    have hle := sum_chargeOf_le m
    generalize ((chargedAllots m).map (chargeOf m)).sum = total at hfold hle ⊢
    generalize (List.range 1024).map (fun a => BitVec.ofNat 64 (if a ∈ chargedAllots m then chargeOf m a else 0)) = l at hfold ⊢
    generalize m.uj = uj at hle ⊢
    calc BitVec.ofNat 64 (uj - total) + l.foldl (fun x y => x + y) 0
        = BitVec.ofNat 64 (uj - total) + BitVec.ofNat 64 total := congrArg (BitVec.ofNat 64 (uj - total) + ·) hfold
      _ = BitVec.ofNat 64 uj := by rw [← BitVec.ofNat_add, Nat.sub_add_cancel hle]

end Energy

/-- Settles O52. -/
theorem heatAndGating : Obligations.HeatAndGating := by
  refine ⟨⟨fun tg s h => if_neg (by rw [h]; decide), fun tg s h => if_pos (by rw [h]; rfl), fun tg s hw => ?_, fun fg s hw => ?_, fun r s => ?_,
    fun p temp s hoff hst => ⟨fun h => (if_neg (by simp [dark, hoff, hst])).trans (if_pos h), fun h => ?_⟩, fun s hoff hst => ?_,
    fun t => ⟨fun h o => junctionStage_hot h o, fun h _ => junctionStage_stays_hot h, fun h h' o => junctionStage_warm h h' o,
      fun h h' => junctionStage_stays h h', fun h o => junctionStage_normal h o⟩⟩,
    fun d s hw hd => ⟨fun hm hb => if_pos (by simp [hw, hd, hm, hb]), fun h => if_neg ?_⟩,
    fun d s => ⟨fun h => if_pos (by simpa using h), fun hd hb => exec_domainGated d hd hb⟩,
    fun tg s k r x hd hr hx hs hst => exec_returnedPacket hd hr hx hs hst, fun d s h => if_pos ?_, fun s h => ?_,
    fun tg s hw hd hh => ⟨fun hr => (exec_domainWake (.terrace tg) hw hd hh).trans (if_pos hr), fun hr => exec_domainWake_terrace hw hd hh hr⟩,
    fun fg s hw hd hh => ?_, fun r s hw hd hh => exec_domainWake (.ridge r) hw hd hh, fun m s hw => energy_charged hw m⟩
  · intro old goes
    obtain ⟨h1, h2, h3⟩ := nextCeil_cases old (terraceTj s tg.val) (terraceStage s tg.val)
    have he : goes (nextCeil old (terraceTj s tg.val) (terraceStage s tg.val)) := exec_thermalCeilingStep hw (.terrace tg)
    exact ⟨fun h => h1 h ▸ he, fun h hs => h2 h hs ▸ he, fun h hs => h3 h hs ▸ he⟩
  · intro old x goes
    obtain ⟨h1, h2, h3⟩ := nextCeil_cases old x.tj x.stage
    have he : goes (nextCeil old x.tj x.stage) := exec_thermalCeilingStep hw (.lane fg)
    exact ⟨fun h => h1 h ▸ he, fun h hs => h2 h hs ▸ he, fun h hs => h3 h hs ▸ he⟩
  · exact (apply_ite (fun o => o = Host.Outcome.next s) _ _ _).mpr (by split <;> rfl)
  · obtain ⟨u, he, hm, hh, hs⟩ := exec_junctionSample hoff hst p h
    refine ⟨u, he, hm, hh, ?_, ?_, fun n hn => ?_⟩
    · unfold sensor
      rw [hs, mget_mset_same]
    · rw [sensor, hs, mget_mset_same]
    · rw [sensor, hs, mget_mset_other _ _ _ _ _ hn]
      rfl
  · exact ⟨trip s, if_neg (by simp [dark, hoff, hst]), trip_effect s⟩
  · rcases h with h | h
    · simp [h]
    · simp [h]
  · rcases h with h | h | h
    · simp [h]
    · simp [h]
    · simp [h]
  · unfold wakeHeld
    rw [decide_eq_true h]
    rfl
  · obtain ⟨h1, h2, h3, -⟩ := woken_effect s (fg.val / 2) fg.val _ rfl
    exact ⟨_, exec_domainWake (.lane fg) hw hd hh, h1, h2, fun tg => by unfold terrace; rw [h3]⟩

end Sys2Proof.Machine
end

section
/-! PROOFS. Resets: RST_CTL, those from outside, and how a reset ends (R424, R489 to R504, R512). -/

namespace Sys2Proof.Machine

open Sys2Proof

/-! ## RST_CTL -/

section Control
variable {s : State} {p : Fin 2} {v : W32}

/-- A write of RST_CTL by PF0: dropped and logged with a wrong key, during a reset or in a state that does not take its OP, and else performed. -/
theorem rstCtl_pf (hup : regsUp s = true) (ok : Bool) (act : State)
    (hok : (if fld v 28 3 = 1 ∨ fld v 28 3 = 2 then takesReset s else if fld v 28 3 = 3 then s.mode == .ready
      else if fld v 28 3 = 4 then s.mode == .draining else true) = ok)
    (hact : (if fld v 28 3 = 1 then startReset s 1 1 s.mode else if fld v 28 3 = 2 then startReset s 3 1 .ready
      else if fld v 28 3 = 3 then setMode s .draining else if fld v 28 3 = 4 then setMode s .ready else s) = act) :
    (fld v 0 8 = 0xB7 ∧ s.resetting = none → ok = true → rstCtl (.pf p) v s = act) ∧
      (¬ (fld v 0 8 = 0xB7 ∧ s.resetting = none) ∨ ok = false → rstCtl (.pf p) v s = logDropped s 0x170000 v.toNat) := by
  have he : rstCtl (.pf p) v s = if fld v 0 8 ≠ 0xB7 ∨ s.resetting.isSome = true ∨ ok = false then logDropped s 0x170000 v.toNat else act := by
    unfold rstCtl
    extract_lets op ok' drop log act'
    refine (if_neg (by rw [hup]; decide)).trans (if_congr ?_ rfl hact)
    have hok' : ok' = ok := by
      rw [← hok]
      simp only [ok', op, Bool.or_eq_true, decide_eq_true_eq]
    simp [drop, hok', or_assoc]
  rw [he]
  refine ⟨fun hg hk => if_neg ?_, fun h => if_pos ?_⟩
  · rintro (h | h | h)
    · exact h hg.1
    · rw [hg.2] at h; cases h
    · rw [hk] at h; cases h
  · rcases h with h | h
    · by_cases hk : fld v 0 8 = 0xB7
      · refine .inr (.inl (Option.isSome_iff_ne_none.mpr fun hn => h ⟨hk, hn⟩))
      · exact .inl hk
    · exact .inr (.inr h)

end Control

/-! ## The watchdog of Rider -/

section Watchdog
variable {s : State}

theorem fld_setFld_same (w : W32) (lo len v : Nat) (h : lo + len ≤ 32) : fld (setFld w lo len v) lo len = v % 2 ^ len := by
  refine Nat.eq_of_testBit_eq fun i => ?_
  unfold fld setFld
  rw [Nat.testBit_mod_two_pow, Nat.testBit_div_two_pow, Nat.testBit_mod_two_pow, ← BitVec.getLsbD]
  by_cases hi : i < len
  · have hm : (BitVec.ofNat 32 ((2 ^ len - 1) * 2 ^ lo)).getLsbD (i + lo) = true := by
      rw [BitVec.getLsbD_ofNat, Nat.testBit_mul_two_pow, Nat.testBit_two_pow_sub_one]
      simp
      omega
    have hv : (BitVec.ofNat 32 (v % 2 ^ len * 2 ^ lo)).getLsbD (i + lo) = v.testBit i := by
      rw [BitVec.getLsbD_ofNat, Nat.testBit_mul_two_pow, Nat.testBit_mod_two_pow]
      simp [hi]
      omega
    simp [hi, hm, hv]
  · simp [hi]

theorem intCause_rg (s : State) (c : Nat) {off : Nat} (h : off ≠ 0x2000) (d : W32) : rg (intCause s c) off d = rg s off d := by
  unfold intCause
  extract_lets rose t
  have ht : rg t off d = rg s off d := mget_mset_other _ _ _ _ _ h
  split
  · exact ht
  · exact ht

theorem setMode_rg (s : State) (m : Mode) {off : Nat} (h : off ≠ 0x2000) (d : W32) : rg (setMode s m) off d = rg s off d := by
  unfold setMode
  split
  · rfl
  · split
    · exact intCause_rg _ _ h d
    · exact intCause_rg _ _ h d

theorem setMode_mode (s : State) (m : Mode) : (setMode s m).mode = m := by
  obtain ⟨tm, ts, h⟩ := setMode_frame s m
  rw [h]

theorem setMode_resetting (s : State) (m : Mode) : (setMode s m).resetting = s.resetting := by
  obtain ⟨tm, ts, h⟩ := setMode_frame s m
  rw [h]

theorem powerOn_mode (s : State) (source : Nat) (b : BootSample) : (powerOn s source b).mode = .boot := setMode_mode _ _

/-- No slot of Rider completes its boot: recovery Maintenance. -/
theorem exec_riderWatchdog_recovery {hd : Fin 2} {r : Reset} (hm : s.mode = .boot) (hr : s.resetting = some r) (hal : hdAlive s hd.val = true)
    (hw : r.wdog = []) (hrun : runnable s 0 (!(s.fw.run.getD 0 false)) = false) : ∃ u, exec (.riderWatchdog hd) s = .next u ∧ u.mode = .maintenance ∧
      u.resetting = none ∧ fld (rg u 0x170008 0) 24 4 = 6 := by
  let left : State := { setRg s 0x170008 (setFld (rg s 0x170008 0) 24 4 6) with resetting := none, bells := [] }
  refine ⟨setMode left .maintenance, ?_, setMode_mode _ _, setMode_resetting _ _, ?_⟩
  · show execRiderWatchdog hd s = _
    unfold execRiderWatchdog
    simp only [hr]
    rw [if_neg (by simp [hm, hal])]
    exact if_pos (by simp [hw]; exact hrun)
  · rw [setMode_rg _ _ (by decide)]
    show fld (mget (mset s.regs 0x170008 _) 0x170008 0) 24 4 = 6
    rw [mget_mset_same, fld_setFld_same _ _ _ _ (by decide)]
    decide

/-- Rider restarts from its other slot on a Headwork: what that leaves of the mode, the running slots and the reset. -/
theorem exec_riderWatchdog_restart {hd : Fin 2} {r : Reset} (hm : s.mode = .boot) (hr : s.resetting = some r) (hal : hdAlive s hd.val = true)
    (hw : r.wdog.contains hd.val = false) {first : Bool} (hf : (if r.wdog.contains (seqHd s) then !(s.fw.run.getD 0 false) else s.fw.run.getD 0 false) = first)
    (hrun : runnable s 0 (!first) = true) :
    ∃ u g, exec (.riderWatchdog hd) s = .next u ∧ u.mode = .boot ∧
      u.fw.run = s.fw.run.set 0 (if hd.val = seqHd s then !first else s.fw.run.getD 0 false) ∧
      u.resetting = some (if 2 ≤ (setIns r.wdog hd.val).length then { r with wdog := setIns r.wdog hd.val, goal := g, kind := 3, source := 5 }
        else { r with wdog := setIns r.wdog hd.val, goal := g }) := by
  show ∃ u g, execRiderWatchdog hd s = .next u ∧ _
  unfold execRiderWatchdog
  rw [hr]
  dsimp -zeta only
  rw [if_neg (by simp [hm, hal])]
  extract_lets now first' src recovery r' lag differ run fw1 s1 found fw2 s2 reason goal s3
  obtain rfl : first' = first := hf
  rw [if_neg (by rw [hw, hrun]; decide)]
  have h3 : LogOnly s2 s3 := by
    unfold s3 fellBack
    exact ((setRg_logOnly _ _).trans (rasAppend_logOnly _ _ _ _ _ _)).trans (setRg_logOnly _ _)
  have hmode : s3.mode = .boot := by rw [h3]; exact hm
  have hfw : s3.fw.run = s.fw.run.set 0 run := by rw [h3]
  by_cases h2 : 2 ≤ (setIns r.wdog hd.val).length
  · refine ⟨_, goal, if_pos h2, hmode, hfw, ?_⟩
    rw [if_pos h2]
    rfl
  · refine ⟨_, goal, if_neg h2, hmode, hfw, ?_⟩
    rw [if_neg h2]

end Watchdog

/-! ## The end of a reset -/

section End
variable {s : State} {r : Reset}

/-- The end of a reset whose PERST_N has risen. -/
theorem exec_postResetRestore (hr : s.resetting = some r) (hp : r.kind = 2 → s.perst = []) : exec .postResetRestore s =
    let put : State := if r.kind = 1 ∨ r.kind = 2 then s.rwSaved.foldl putRw s else s
    let b := if r.scan then s else beginRestore s r
    if s.mode = .boot ∧ (shortfall s).isSome = true then .next (shortfallFault s ((shortfall s).getD 0))
    else if r.goal = .maintenance then .next (setMode { bootEnds put r.goal with rwSaved := [], resetting := none, bells := [] } .maintenance)
    else if scansLeft b then .next b else .next (endRestore (setMode (bootEnds b r.goal) r.goal)) := by
  extract_lets put b
  have hput : (if (r.kind = 1 || r.kind = 2) = true then s.rwSaved.foldl putRw s else s) = put := if_congr (by simp) rfl rfl
  show execPostResetRestore s = _
  unfold execPostResetRestore
  simp only [hr]
  rw [hput, if_neg (by simp; exact hp)]
  exact if_congr (by simp) rfl rfl

end End

/-- Settles O53. -/
theorem resets : Obligations.Resets := by
  refine ⟨fun p v s hup => ?_, fun p s h => if_pos h, fun p s hoff hst => ?_, fun p s hc hal hoff hst => ?_,
    fun p s => ⟨fun h => if_pos h, fun h => if_neg (by rw [h]; decide)⟩, fun vf s a hf hw hr hc => ?_,
    fun b s => ⟨fun h1 h2 h3 => ⟨if_pos (by simp [bootAllowed, h1, h2, h3]), powerOn_mode _ _ _⟩, fun h => if_neg ?_⟩,
    fun hd s r hm hr hal hw hrun => exec_riderWatchdog_recovery hm hr hal hw hrun, fun hd s r hm hr hal hw hrun hlen => ?_,
    fun hd s r hm hr hal hw hrun => ?_, fun s r hr => ?_, fun s h => ?_⟩
  · intro good log
    have hctl := fun ok act hok hact => rstCtl_pf (p := p) (v := v) hup ok act hok hact
    refine ⟨fun hop => ?_, fun hop => ?_, fun hop => ?_, fun hop => ?_⟩
    · obtain ⟨h1, h2⟩ := hctl (takesReset s) (startReset s 1 1 s.mode) (by simp [hop]) (by simp [hop])
      exact ⟨fun hg hk => congrArg _ (h1 hg hk), fun h => congrArg _ (h2 h)⟩
    · obtain ⟨h1, h2⟩ := hctl (takesReset s) (startReset s 3 1 .ready) (by simp [hop]) (by simp [hop])
      exact ⟨fun hg hk => congrArg _ (h1 hg hk), fun h => congrArg _ (h2 h)⟩
    · obtain ⟨h1, h2⟩ := hctl (s.mode == .ready) (setMode s .draining) (by simp [hop]) (by simp [hop])
      exact ⟨fun hg hk => congrArg _ (h1 hg (beq_iff_eq.mpr hk)), fun h => congrArg _ (h2 (h.imp_right beq_eq_false_iff_ne.mpr))⟩
    · obtain ⟨h1, h2⟩ := hctl (s.mode == .draining) (setMode s .ready) (by simp [hop]) (by simp [hop])
      exact ⟨fun hg hk => congrArg _ (h1 hg (beq_iff_eq.mpr hk)), fun h => congrArg _ (h2 (h.imp_right beq_eq_false_iff_ne.mpr))⟩
  · intro held
    obtain ⟨-, hmode, -⟩ := setHostPort_effect { s with perst := setIns s.perst p.val } p.val {}
    have htakes : takesReset held = takesReset s := by
      unfold takesReset
      rw [show held.mode = s.mode from hmode]
    have he : exec (.perstAssert p) s = .next (if takesReset held then startReset held 2 (3 + p.val) held.mode else held) := by
      refine (if_neg hoff).trans ?_
      rw [if_neg (show ¬ (mget s.hostPorts p.val {}).state = 0 from hst)]
    rw [he, htakes, show held.mode = s.mode from hmode]
    exact ⟨fun h => congrArg _ (if_pos h), fun h => congrArg _ (if_neg (by rw [h]; decide))⟩
  · exact (if_neg (by rw [hc]; decide)).trans (if_neg (by rw [show hdAlive { s with perst := setDel s.perst p.val } p.val = true from hal]; simp [hoff, hst]))
  · show Host.Outcome.next (flrReset s _) = _
    rw [hf]
    exact congrArg _ (if_neg (by rw [hw, hr, hc]; decide))
  · simp only [bootAllowed, Bool.and_eq_true, beq_iff_eq, decide_eq_true_eq]
    rintro ⟨⟨h1, h2⟩, h3⟩
    rcases h with h | h | h
    · exact h h1
    · omega
    · rw [h] at h3; cases h3
  · obtain ⟨u, g, he, hmode, hfw, hres⟩ := exec_riderWatchdog_restart hm hr hal (by rw [hw]; rfl) (first := s.fw.run.getD 0 false)
      (if_neg (by rw [hw]; simp)) hrun
    have hone : setIns r.wdog hd.val = [hd.val] := by rw [hw]; rfl
    rw [hone, if_neg (show ¬ 2 ≤ [hd.val].length by simp)] at hres
    refine ⟨u, he, hmode, ?_, _, hres, rfl, rfl⟩
    rw [hfw, List.getD_eq_getElem?_getD, List.getElem?_set_self (by omega)]
    rfl
  · have hother : (1 - hd.val) ≠ hd.val := by omega
    obtain ⟨u, g, he, hmode, -, hres⟩ := exec_riderWatchdog_restart hm hr hal (by rw [hw]; simp; omega) rfl (hrun _)
    have htwo : 2 ≤ (setIns r.wdog hd.val).length := by
      rw [hw]
      match hd with
      | 0 => decide
      | 1 => decide
    rw [if_pos htwo] at hres
    exact ⟨u, _, he, hmode, hres, rfl, rfl⟩
  · intro put b
    refine ⟨fun hk hp => ?_, fun hp => ⟨fun off hm hs => ⟨?_, (enterFaulted_effect _ _).1⟩, fun hs => ?_⟩⟩
    · show execPostResetRestore s = _
      unfold execPostResetRestore
      simp only [hr]
      exact if_pos (by simp [hk, hp])
    · refine (exec_postResetRestore hr hp).trans ((if_pos ⟨hm, by rw [hs]; rfl⟩).trans ?_)
      rw [hs]
      rfl
    · have hno : ¬ (s.mode = .boot ∧ (shortfall s).isSome = true) := fun ⟨h1, h2⟩ => by
        rw [hs h1] at h2
        cases h2
      have he := (exec_postResetRestore hr hp).trans (if_neg hno)
      exact ⟨fun hg => he.trans (if_pos hg), fun hg hl => he.trans ((if_neg hg).trans (if_pos hl)),
        fun hg hl => he.trans ((if_neg hg).trans (if_neg (by rw [hl]; decide)))⟩
  · show execPostResetRestore s = _
    unfold execPostResetRestore
    rw [h]

end Sys2Proof.Machine
end

section
/-! PROOFS. What a warm reset keeps and what it clears (R331, R409, R421, R423, R495). -/

namespace Sys2Proof.Machine

open Sys2Proof

section Ends
variable {s t u : State}

/-- What ending the work of a module changes: registers, the journal and its steps, the translation fault log, rings and queues, and what the runs hold;
of a terrace neither the degraded arrays nor the retirement, and of a Saddle not its stacks. -/
structure EndsWork (s t : State) : Prop where
  only : t = { s with
    regs := t.regs, intPend := t.intPend, flog := t.flog, runs := t.runs, terraces := t.terraces, saddles := t.saddles, lanes := t.lanes, got := t.got
    redivide := t.redivide, lats := t.lats, canalAlt := t.canalAlt, canalFence := t.canalFence, jrn0 := t.jrn0, jrn1 := t.jrn1, jsteps := t.jsteps
    ques := t.ques, rings := t.rings }
  marks : ∀ tg, (terrace t tg).degraded = (terrace s tg).degraded ∧ (terrace t tg).retired = (terrace s tg).retired
  stks : ∀ n, (saddle t n).hbmStacks = (saddle s n).hbmStacks

theorem EndsWork.refl (s : State) : EndsWork s s := ⟨rfl, fun _ => ⟨rfl, rfl⟩, fun _ => rfl⟩

theorem EndsWork.trans (h : EndsWork s t) (h' : EndsWork t u) : EndsWork s u :=
  ⟨by rw [h'.only, h.only], fun tg => ⟨(h'.marks tg).1.trans (h.marks tg).1, (h'.marks tg).2.trans (h.marks tg).2⟩,
    fun n => (h'.stks n).trans (h.stks n)⟩

theorem EndsWork.ite {c : Prop} [Decidable c] (h : EndsWork s t) (h' : EndsWork s u) : EndsWork s (if c then t else u) := by split <;> assumption

theorem EndsWork.foldl {β : Type} {f : State → β → State} (hf : ∀ t b, EndsWork t (f t b)) (l : List β) (s : State) : EndsWork s (l.foldl f s) := by
  induction l generalizing s with
  | nil => exact .refl s
  | cons b l ih => exact (hf s b).trans (ih (f s b))

theorem satAdd_endsWork (s : State) (off : Nat) (d : W32) (lo len n : Nat) : EndsWork s (satAdd s off d lo len n) := ⟨rfl, fun _ => ⟨rfl, rfl⟩, fun _ => rfl⟩

theorem intCause_endsWork (s : State) (c : Nat) : EndsWork s (intCause s c) :=
  .ite ⟨rfl, fun _ => ⟨rfl, rfl⟩, fun _ => rfl⟩ ⟨rfl, fun _ => ⟨rfl, rfl⟩, fun _ => rfl⟩

theorem updRun_endsWork (s : State) (k : Nat) (f : Run → Run) : EndsWork s (updRun s k f) := by
  unfold updRun
  split
  · exact ⟨rfl, fun _ => ⟨rfl, rfl⟩, fun _ => rfl⟩
  · exact .refl s

theorem updQue_endsWork (s : State) (q : Nat) (f : Que → Que) : EndsWork s (updQue s q f) := ⟨rfl, fun _ => ⟨rfl, rfl⟩, fun _ => rfl⟩

theorem updTerrace_endsWork (s : State) (tg : Nat) (f : Terrace → Terrace) (hf : ∀ t, (f t).degraded = t.degraded ∧ (f t).retired = t.retired) :
    EndsWork s (updTerrace s tg f) := by
  refine ⟨rfl, fun x => ?_, fun _ => rfl⟩
  by_cases hx : x = tg
  · subst hx
    rw [terrace_updTerrace_same]
    exact hf _
  · rw [terrace_updTerrace_other _ _ _ _ hx]
    exact ⟨rfl, rfl⟩

theorem saddle_map (s : State) (f : Saddle → Saddle) (n : Nat) :
    saddle { s with saddles := s.saddles.map (fun e => (e.1, f e.2)) } n = ((mget? s.saddles n).map f).getD {} := by
  unfold saddle mget
  rw [mget?_map_val]

theorem map_saddles_endsWork (s : State) (f : Saddle → Saddle) (hf : ∀ d, (f d).hbmStacks = d.hbmStacks) :
    EndsWork s { s with saddles := s.saddles.map (fun e => (e.1, f e.2)) } := by
  refine ⟨rfl, fun _ => ⟨rfl, rfl⟩, fun n => ?_⟩
  rw [saddle_map]
  unfold saddle mget
  cases mget? s.saddles n with
  | none => rfl
  | some d => exact hf d

theorem terrace_map (s : State) (f : Terrace → Terrace) (tg : Nat) :
    terrace { s with terraces := s.terraces.map (fun e => (e.1, f e.2)) } tg = ((mget? s.terraces tg).map f).getD Terrace.reset := by
  unfold terrace mget
  rw [mget?_map_val]

theorem map_terraces_endsWork (s : State) (f : Terrace → Terrace) (hf : ∀ t, (f t).degraded = t.degraded ∧ (f t).retired = t.retired) :
    EndsWork s { s with terraces := s.terraces.map (fun e => (e.1, f e.2)) } := by
  refine ⟨rfl, fun tg => ?_, fun _ => rfl⟩
  rw [terrace_map]
  unfold terrace mget
  cases mget? s.terraces tg with
  | none => exact ⟨rfl, rfl⟩
  | some t => exact hf t

theorem logXlt_endsWork (s : State) (slot : Option Nat) (x : XRec) : EndsWork s (logXlt s slot x) := by
  unfold logXlt
  extract_lets s1 s2 s3
  have h1 : EndsWork s s1 := satAdd_endsWork _ _ _ _ _ _
  have h2 : EndsWork s1 s2 := ⟨rfl, fun _ => ⟨rfl, rfl⟩, fun _ => rfl⟩
  have hset : EndsWork s1 (setRg s1 0x110010 0x80000000#32) := ⟨rfl, fun _ => ⟨rfl, rfl⟩, fun _ => rfl⟩
  have h3 : EndsWork s1 s3 := .ite (.ite (h2.trans (intCause_endsWork _ _)) h2) (.ite (.refl s1) (hset.trans (intCause_endsWork _ _)))
  cases slot with
  | none => exact h1.trans h3
  | some k => exact (h1.trans h3).trans ((updRun_endsWork _ _ _).trans (updRun_endsWork _ _ _))

theorem logStream_endsWork (s : State) (slot : Option Nat) (al src : Nat) (l : List Acc) : EndsWork s (logStream s slot al src l) :=
  .foldl (fun t x => logXlt_endsWork t slot x) _ s

theorem logStopped_endsWork (s : State) (k : Nat) (r : Run) : EndsWork s (logStopped s k r) := by
  unfold logStopped
  extract_lets s1 s2
  have h1 : EndsWork s s1 := .foldl (fun t tg => .foldl (fun u e => logStream_endsWork u _ _ _ _) _ t) _ s
  have h2 : EndsWork s1 s2 := .foldl (fun t e => .foldl (fun u j => logStream_endsWork u _ _ _ _) _ t) _ s1
  split
  · exact (h1.trans h2).trans (logStream_endsWork _ _ _ _ _)
  · exact h1.trans h2

theorem discardReaches_endsWork (s : State) (k : Nat) : EndsWork s (discardReaches s k) := by
  unfold discardReaches
  split
  · exact .refl s
  · extract_lets t
    have h1 : EndsWork s t := .foldl (fun t tg => by
      dsimp only
      split
      · exact .refl t
      · exact (updTerrace_endsWork t tg (fun t => { t with reachQ := [], rqWait := [] }) (fun _ => ⟨rfl, rfl⟩)).trans (satAdd_endsWork _ _ _ _ _ _)) _ s
    exact h1.trans (updRun_endsWork _ _ _)

/-- What stopping an item does to a Saddle. -/
def stopSaddle (r : Run) (k : Nat) (d : Saddle) : Saddle := { d with
  sump := d.sump.filter (fun j => j.slot ≠ k)
  units := if (d.sump.head?).any (fun j => j.slot = k) then [] else d.units
  cisWait := d.cisWait.filter (fun o => !(r.tgs.contains o.tg)) }

theorem stopItem_endsWork (s : State) (k : Nat) : EndsWork s (stopItem s k) := by
  unfold stopItem
  split
  · exact .refl s
  next r _ =>
    extract_lets s1 s2
    have h1 : EndsWork s s1 := ((logStopped_endsWork s k r).trans (discardReaches_endsWork _ k)).trans
      (.foldl (fun t tg => updTerrace_endsWork t tg stopTerrace (fun _ => ⟨rfl, rfl⟩)) _ _)
    have h2 : EndsWork s1 s2 := (map_saddles_endsWork s1 (stopSaddle r k) (fun _ => rfl)).trans ⟨rfl, fun _ => ⟨rfl, rfl⟩, fun _ => rfl⟩
    exact (h1.trans h2).trans (updRun_endsWork _ _ _)

theorem injectHeld_endsWork (s : State) : EndsWork s (injectHeld s) := by
  refine .foldl (fun t e => .foldl (fun t i => ?_) _ t) _ s
  unfold injectOne
  extract_lets d
  split
  next c _ =>
    refine .ite ⟨rfl, fun _ => ⟨rfl, rfl⟩, fun n => ?_⟩ (.refl t)
    by_cases hn : n = e.1
    · subst hn
      refine (congrArg Saddle.hbmStacks (mget_mset_same _ _ _ _)).trans ?_
      rfl
    · exact congrArg Saddle.hbmStacks (mget_mset_other _ _ _ _ _ hn)
  · exact .refl t

theorem fenceArrivals_endsWork (s : State) : EndsWork s (fenceArrivals s) :=
  EndsWork.trans (t := { s with
    canalAlt := s.canalAlt ++ s.canalFence.filter (fun p => !(pairBusy s p))
    canalFence := s.canalFence.filter (pairBusy s) }) ⟨rfl, fun _ => ⟨rfl, rfl⟩, fun _ => rfl⟩ (injectHeld_endsWork _)

theorem freeRun_endsWork (s : State) (k : Nat) : EndsWork s (freeRun s k) := by
  unfold freeRun
  split
  · exact .refl s
  next r _ =>
    extract_lets t
    have h1 : EndsWork s t := (discardReaches_endsWork s k).trans (.foldl (fun t tg => updTerrace_endsWork t tg
      (fun t => if t.slot = some k then { t with slot := none, span := {}, reachQ := [], rqWait := [] } else t)
      (fun t => by split <;> exact ⟨rfl, rfl⟩)) _ _)
    refine h1.trans (EndsWork.trans ?_ (fenceArrivals_endsWork _))
    exact ⟨rfl, fun _ => ⟨rfl, rfl⟩, fun _ => rfl⟩

theorem request_endsWork (s : State) (st : JStep) : EndsWork s (request s st) := by
  unfold request setJrn
  split
  · exact ⟨rfl, fun _ => ⟨rfl, rfl⟩, fun _ => rfl⟩
  · exact ⟨rfl, fun _ => ⟨rfl, rfl⟩, fun _ => rfl⟩

theorem completeItem_endsWork (s : State) (k status fault : Nat) : EndsWork s (completeItem s k status fault) := by
  unfold completeItem
  split
  · exact .refl s
  · exact (freeRun_endsWork s k).trans (request_endsWork _ _)

theorem dropRuns_endsWork (s : State) : EndsWork s (dropRuns s) := by
  unfold dropRuns
  extract_lets t
  have h1 : EndsWork s t := .foldl stopItem_endsWork _ s
  exact h1.trans ((map_terraces_endsWork t (fun x => { x with slot := none, reachQ := [], rqWait := [] }) (fun _ => ⟨rfl, rfl⟩)).trans
    ⟨rfl, fun _ => ⟨rfl, rfl⟩, fun _ => rfl⟩)

theorem ringPut_endsWork (s : State) (k : Nat) (p : Packet) : EndsWork s (ringPut s k p) := by
  unfold ringPut
  extract_lets r r' t
  have ht : EndsWork s t := ⟨rfl, fun _ => ⟨rfl, rfl⟩, fun _ => rfl⟩
  split
  · exact ⟨rfl, fun _ => ⟨rfl, rfl⟩, fun _ => rfl⟩
  · exact ht.trans (satAdd_endsWork _ _ _ _ _ _)

theorem gaugePost_endsWork (s : State) (type al : Nat) (ws : List W64) (notice : Bool) : EndsWork s (gaugePost s type al ws notice) := by
  unfold gaugePost
  extract_lets p t
  have ht : EndsWork s t := ringPut_endsWork _ _ _
  exact .ite (ht.trans (ringPut_endsWork _ _ _)) ht

theorem holdStep_endsWork (s : State) (st : JStep) : EndsWork s (holdStep s st) := by
  unfold holdStep
  extract_lets t
  have ht : EndsWork s t := ⟨rfl, fun _ => ⟨rfl, rfl⟩, fun _ => rfl⟩
  exact .ite (.refl s) (.ite (ht.trans (satAdd_endsWork _ _ _ _ _ _)) ht)

/-- One step in flight completes at a reset. -/
def flushStep (s : State) (st : JStep) : State :=
  let s := holdStep s st
  match st.eff with
  | .replay _ => stepEffect s st.eff
  | .write k => match slotAt s k with
    | some x => updQue s x.q (fun y => { y with unsent := y.unsent ++ [(k, true)] })
    | none => s
  | _ => s

theorem flushSteps_eq (s : State) : flushSteps s = s.jsteps.foldl flushStep { s with jsteps := [] } := rfl

/-- A step that completes at a reset is held by both copies; it may leave a completion to be written, or tell of a replay. -/
theorem flushStep_cases (s : State) (st : JStep) : flushStep s st = holdStep s st ∨ (∃ q f, flushStep s st = updQue (holdStep s st) q f) ∨
    ∃ type al ws, flushStep s st = gaugePost (holdStep s st) type al ws false := by
  unfold flushStep
  extract_lets t
  cases st.eff with
  | replay k =>
    show stepEffect t (.replay k) = t ∨ _
    unfold stepEffect
    dsimp only
    cases slotAt t k with
    | none => exact .inl rfl
    | some x => exact .inr (.inr ⟨_, _, _, rfl⟩)
  | write k =>
    dsimp only
    cases slotAt t k with
    | none => exact .inl rfl
    | some x => exact .inr (.inl ⟨_, _, rfl⟩)
  | _ => exact .inl rfl

theorem flushSteps_endsWork (s : State) : EndsWork s (flushSteps s) := by
  refine EndsWork.trans (t := { s with jsteps := [] }) ⟨rfl, fun _ => ⟨rfl, rfl⟩, fun _ => rfl⟩ (.foldl (f := flushStep) (fun t st => ?_) _ _)
  rcases flushStep_cases t st with h | ⟨q, f, h⟩ | ⟨type, al, ws, h⟩
  · rw [h]
    exact holdStep_endsWork t st
  · rw [h]
    exact (holdStep_endsWork t st).trans (updQue_endsWork _ _ _)
  · rw [h]
    exact (holdStep_endsWork t st).trans (gaugePost_endsWork _ _ _ _ _)

theorem ringPut_jsteps (s : State) (k : Nat) (p : Packet) : (ringPut s k p).jsteps = s.jsteps := by
  unfold ringPut
  extract_lets r r' t
  split
  · rfl
  · rfl

theorem gaugePost_jsteps (s : State) (type al : Nat) (ws : List W64) (notice : Bool) : (gaugePost s type al ws notice).jsteps = s.jsteps := by
  unfold gaugePost
  extract_lets p t
  have ht : t.jsteps = s.jsteps := ringPut_jsteps _ _ _
  split
  · exact (ringPut_jsteps _ _ _).trans ht
  · exact ht

theorem holdStep_jsteps (s : State) (st : JStep) : (holdStep s st).jsteps = s.jsteps := by
  unfold holdStep
  extract_lets t
  split
  · rfl
  · split
    · rfl
    · rfl

/-- No step is in flight when the steps have completed. -/
theorem flushSteps_jsteps (s : State) : (flushSteps s).jsteps = [] := by
  have hstep : ∀ (t : State) (st : JStep), (flushStep t st).jsteps = t.jsteps := fun t st => by
    rcases flushStep_cases t st with h | ⟨q, f, h⟩ | ⟨type, al, ws, h⟩
    · rw [h]
      exact holdStep_jsteps t st
    · rw [h]
      exact holdStep_jsteps t st
    · rw [h]
      exact (gaugePost_jsteps _ _ _ _ _).trans (holdStep_jsteps t st)
  have hfold : ∀ (l : List JStep) (t : State), (l.foldl flushStep t).jsteps = t.jsteps := fun l => by
    induction l with
    | nil => exact fun _ => rfl
    | cons st l ih => exact fun t => (ih _).trans (hstep t st)
  exact hfold _ _

end Ends

section Warm
variable {s : State}

/-- The state whose work has ended: items with a fault of their own completed, the steps in flight complete, and the others stopped. -/
def workEnded (s : State) (own : List Nat) : State := dropRuns (flushSteps (own.foldl (fun s k => completeItem s k 2 0) s))

theorem workEnded_endsWork (s : State) (own : List Nat) : EndsWork s (workEnded s own) :=
  ((EndsWork.foldl (fun t k => completeItem_endsWork t k 2 0) own s).trans (flushSteps_endsWork _)).trans (dropRuns_endsWork _)

theorem stopItem_jsteps (s : State) (k : Nat) : (stopItem s k).jsteps = s.jsteps := by
  have h := stopItem_stopOnly s k
  unfold StopOnly at h
  rw [h]

theorem workEnded_jsteps (s : State) (own : List Nat) : (workEnded s own).jsteps = [] := by
  have hstop : ∀ (l : List Nat) (t : State), (l.foldl stopItem t).jsteps = t.jsteps := fun l => by
    induction l with
    | nil => exact fun _ => rfl
    | cons k l ih => exact fun t => (ih _).trans (stopItem_jsteps t k)
  exact (hstop _ _).trans (flushSteps_jsteps _)

/-- With no item of its own fault and no step in flight, only the other items stop. -/
theorem workEnded_idle (h : s.jsteps = []) : workEnded s [] = dropRuns s := by
  show dropRuns (flushSteps s) = dropRuns s
  unfold flushSteps
  extract_lets l
  have hl : l = [] := h
  rw [hl, List.foldl_nil, ← h]

/-- A register that a warm reset keeps. -/
theorem rg_resetRegs (s : State) {keep : Nat → Bool} {off : Nat} (h : keep off = true) (d : W32) : mget (resetRegs keep s.regs) off d = rg s off d := by
  unfold resetRegs rg mget
  generalize s.regs = m
  congr 1
  induction m with
  | nil => rfl
  | cons e m ih =>
    obtain ⟨a, v⟩ := e
    rw [List.map_cons]
    by_cases ha : a = off
    · subst ha
      rw [if_pos h]
      unfold mget?
      rw [if_pos rfl, if_pos rfl]
    · have hkey : (if keep a = true then (a, v) else (a, resetBits a v)).1 = a := by split <;> rfl
      unfold mget?
      dsimp only
      rw [hkey, if_neg ha, if_neg ha]
      exact ih

theorem keptWarm_count {a : Nat} (h : a < 1024) : keptWarm (0x100000 + 0x10 * a + 0xC) = true := by
  have h1 : decide (0x100000 ≤ 0x100000 + 0x10 * a + 0xC) = true := decide_eq_true (by omega)
  have h2 : decide (0x100000 + 0x10 * a + 0xC < 0x104000) = true := decide_eq_true (by omega)
  have h3 : ((0x100000 + 0x10 * a + 0xC) % 0x10 == 0xC) = true := beq_iff_eq.mpr (by omega)
  unfold keptWarm
  rw [h1, h2, h3]
  simp

/-- The dies after a warm reset, from the state whose work has ended. -/
def diesReset (s : State) : State := { s with
  runs := s.runs.map (fun e => (e.1, { e.2 with copied := false, loading := false }))
  regs := resetRegs keptWarm s.regs
  rwSaved := rwFields s.regs
  ctrs := resetCtrs s.ctrs
  shadows := []
  terraces := s.terraces.map (fun e => (e.1, resetTerrace e.2))
  lanes := s.lanes.map (fun e => (e.1, { e.2 with ctxs := [], running := 0, used := 0 }))
  saddles := s.saddles.map (fun e => (e.1, { hbmStacks := e.2.hbmStacks }))
  ats := [], atsWant := [], got := [], hostReqs := [], atsPend := []
  skvReqs := s.skvReqs.map (fun r => { r with tg := none, dead := true })
  ques := s.ques.map (fun e => (e.1, { tail := e.2.tail, acc := e.2.acc, seq := e.2.seq, head := e.2.head, order := e.2.order
                                       unsent := e.2.unsent }))
  allots := s.allots.map (fun e => (e.1, { e.2 with cmd := none, scrubs := [] }))
  skvArbs := [], rr := [], inv := none, invQ := [], shares := [], redivide := [], update := none, flash := abortedFlash s
  diag := none
  hwEpoch := nowUs s }

/-- A Saddle after a reset holds no contribution that could be injected. -/
theorem injectHeld_diesReset (s t : State) (h : t.saddles = (diesReset s).saddles) : injectHeld t = t := by
  have hvc : ∀ e ∈ t.saddles, e.2.vc2 = [] := fun e he => by
    rw [h] at he
    obtain ⟨e', -, rfl⟩ := List.mem_map.mp he
    rfl
  unfold injectHeld
  have hfold : ∀ (l : List (Nat × Saddle)) (u : State), (∀ e ∈ l, e.2.vc2 = []) →
      l.foldl (fun s e => (List.range e.2.vc2.length).foldl (fun s i => injectOne s e.1 i) s) u = u := fun l => by
    induction l with
    | nil => exact fun _ _ => rfl
    | cons e l ih =>
      intro u hl
      rw [List.foldl_cons, hl e List.mem_cons_self]
      exact ih u (fun e he => hl e (List.mem_cons_of_mem _ he))
  exact hfold _ _ hvc

/-- The items that a warm reset completes: those that a fault of their own stopped. -/
def ownFaults (s : State) : List Nat := (s.runs.filter (fun e => e.2.stopped && !e.2.parked && faulted s e.1)).map (fun e => e.1)

/-- A warm reset: every part of the state after it. -/
theorem startReset_warm (hr : s.resetting = none) (src : Nat) (g : Mode) : ∃ alt fence, startReset s 1 src g =
    { setCause { diesReset (workEnded s (ownFaults s)) with canalAlt := alt, canalFence := fence } 1 src (fld (rg s 0x170004 0) 0 16 + 1) with
      resetting := some { kind := 1, source := src, goal := g } } := by
  have hstop : ∃ alt fence, stopWork s = { diesReset (workEnded s (ownFaults s)) with canalAlt := alt, canalFence := fence } :=
    ⟨_, _, injectHeld_diesReset (workEnded s (ownFaults s)) _ rfl⟩
  obtain ⟨alt, fence, hw⟩ := hstop
  refine ⟨alt, fence, ?_⟩
  unfold startReset
  simp only [hr]
  rw [if_neg (by decide), hw]

end Warm

/-- Settles O54. -/
theorem warmResetKeeps : Obligations.WarmResetKeeps := by
  intro s src g hr u own v
  have hv : EndsWork s v := workEnded_endsWork s own
  have hsteps : v.jsteps = [] := workEnded_jsteps s own
  obtain ⟨alt, fence, hu⟩ := startReset_warm hr src g
  have hu : u = { setCause { diesReset v with canalAlt := alt, canalFence := fence } 1 src (fld (rg s 0x170004 0) 0 16 + 1) with
      resetting := some { kind := 1, source := src, goal := g } } := hu
  have hidle : own = [] → s.jsteps = [] → v = dropRuns s := fun ho hj =>
    (congrArg (workEnded s) ho).trans (workEnded_idle hj)
  clear_value v
  have hrg : ∀ off, off ≠ 0x170004 → keptWarm off = true → rg u off 0 = rg v off 0 := fun off ho hk => by
    rw [hu]
    exact (rg_setRg_other _ _ _ _ _ ho).trans (rg_resetRegs v hk 0)
  have hterr : ∀ tg, terrace u tg = ((mget? v.terraces tg).map resetTerrace).getD Terrace.reset := fun tg => by
    rw [hu]
    exact terrace_map v resetTerrace tg
  have hsadl : ∀ n, saddle u n = ((mget? v.saddles n).map (fun d => { hbmStacks := d.hbmStacks })).getD {} := fun n => by
    rw [hu]
    exact saddle_map v (fun d => { hbmStacks := d.hbmStacks }) n
  have honly := hv.only
  refine ⟨?_, ?_, ?_, by rw [hu]; rfl, by rw [hu]; rfl, by rw [hu]; exact hsteps, ?_, by rw [hu]; rfl, ?_, by rw [hu]; rfl, hrg _ (by decide) rfl,
    fun a ha => hrg _ (by omega) (keptWarm_count ha), fun ho hj => ?_, fun hruns hj => ?_, by rw [hu]; rfl, ?_, ?_, ?_, ?_, by rw [hu], fun tg => ?_,
    fun n => ?_⟩
  · rw [hu]; show v.hbm = _; rw [honly]
  · rw [hu]; show v.hbmPoison = _; rw [honly]
  · rw [hu]; show v.far = _; rw [honly]
  · rw [hu]; show v.ras = _; rw [honly]
  · rw [hu]; show v.fb = _; rw [honly]
  · rw [hidle ho hj]
    exact dropRuns_journal s
  · have ho : own = [] := by
      show (s.runs.filter _).map _ = []
      rw [hruns]
      rfl
    rw [hidle ho hj]
    unfold dropRuns
    rw [hruns]
    exact ⟨rfl, rfl, fun _ _ => rfl⟩
  · rw [hu]; show v.hdFailed = _; rw [honly]
  · rw [hu]; show v.ridgeFailed = _; rw [honly]
  · rw [hu]; show v.skv = _; rw [honly]
  · rw [hu]; show v.mode = _; rw [honly]
  · obtain ⟨hd, hret⟩ := hv.marks tg
    rw [hterr, ← hd, ← hret]
    unfold terrace mget
    cases mget? v.terraces tg with
    | none => exact ⟨rfl, rfl, rfl, rfl, rfl, rfl, rfl, rfl, rfl⟩
    | some t => exact ⟨rfl, rfl, rfl, rfl, rfl, rfl, rfl, rfl, rfl⟩
  · rw [hsadl, ← hv.stks n]
    unfold saddle mget
    cases mget? v.saddles n with
    | none => exact ⟨rfl, rfl, rfl⟩
    | some d => exact ⟨rfl, rfl, rfl⟩

end Sys2Proof.Machine
end

section
/-! PROOFS. The commands of Exmas (R488, R498, R504, R507, R510, R511). -/

namespace Sys2Proof.Machine

open Sys2Proof

section Heard
variable {s : State} {low change ok : Bool} {f : State → State}

/-- A command that is heard in its state is performed. -/
theorem exmas_heard (hoff : s.mode ≠ .off) (hrec : recovery s = false) (hlow : low = true ∨ alwaysOnOnly s = false)
    (hchange : change = false ∨ s.resetting = none) (hok : ok = true) : exmas s low change ok f = f s := by
  unfold exmas
  rw [if_neg (by rcases hlow with h | h <;> simp [hoff, hrec, h]), if_neg (by rcases hchange with h | h <;> simp [h]), if_neg (by rw [hok]; decide)]

/-- A command that is heard outside its states. -/
theorem exmas_badState (hoff : s.mode ≠ .off) (hrec : recovery s = false) (hlow : low = true ∨ alwaysOnOnly s = false)
    (hchange : change = false ∨ s.resetting = none) (hok : ok = false) : exmas s low change ok f = exAnswer s .badState [] := by
  unfold exmas
  rw [if_neg (by rcases hlow with h | h <;> simp [hoff, hrec, h]), if_neg (by rcases hchange with h | h <;> simp [h]), if_pos (by rw [hok]; rfl)]

theorem exmas_off (hoff : s.mode = .off) : exmas s low change ok f = s := if_pos (by simp [hoff])

/-- The reset that Exmas asks for, with none running and in a state that takes it. -/
theorem exReset_taken (hrec : recovery s = false) (hres : s.resetting = none) (ht : takesReset s = true) (kind : Nat) (goal : Mode) :
    exReset s kind goal = exAnswer (startReset s kind 2 goal) .success [] := by
  have hmode : s.mode = .ready ∨ s.mode = .draining ∨ s.mode = .maintenance := by simpa [takesReset, or_assoc] using ht
  unfold exReset
  extract_lets turns
  have hturns : turns = true := by simp only [turns, hres]; exact ht
  rw [if_neg (by rw [hrec]; rcases hmode with h | h | h <;> simp [alwaysOnOnly, h]), if_neg (by rw [hres]; decide), if_neg (by rw [hturns]; decide)]
  rfl

end Heard

section Registers
variable {s : State} {off : BitVec 28}

/-- Exmas reads one whole register. -/
theorem readBytes_exmas (h : off.toNat % 4 = 0) : readBytes s .exmas .bar0 off.toNat 4 =
    (leBytes 4 (readReg s 1 off.toNat).1.toNat, (readReg s 1 off.toNat).2) := by
  have ho : off.toNat / 4 * 4 + 4 * 0 = off.toNat := by omega
  unfold readBytes
  rw [h, show (List.range ((0 + 4 + 3) / 4)) = [0] from rfl]
  simp only [List.foldl_cons, List.foldl_nil, List.nil_append, List.drop_zero, ho]
  rw [List.take_of_length_le (by rw [length_leBytes])]
  rfl

/-- Where a command to the registers is heard, they answer. -/
theorem regsUp_of_heard (hoff : s.mode ≠ .off) (hst : s.mode ≠ .standby) (hboot : s.mode ≠ .boot) (halw : alwaysOnOnly s = false)
    (hrec : recovery s = false) : regsUp s = true := by
  unfold regsUp
  unfold alwaysOnOnly at halw
  cases hm : s.mode with
  | off => exact absurd hm hoff
  | standby => exact absurd hm hst
  | boot => exact absurd hm hboot
  | faulted => simpa [hm] using halw
  | _ => simp [hrec]

theorem writeDetail_exmas (off : BitVec 28) : writeDetail .bar0 .exmas off.toNat = off.toNat + 3 * 2 ^ 34 := by
  have h := off.isLt
  show off.toNat % 2 ^ 32 + 0 * 2 ^ 32 + 3 * 2 ^ 34 + 0 * 2 ^ 54 = _
  omega

/-- The registers that Exmas writes by their plain rows are aligned, and have rows. -/
theorem exmasPlain_row {o : Nat} (h : exmasPlain o = true) : o % 4 = 0 ∧ o ≠ 0x150004 ∧ o ≠ 0x170000 ∧ (regRow o).isNone = false := by
  have hcase : o = 0x150020 ∨ o = 0x150028 ∨ o = 0x502000C ∨ o = 0x582000C := by
    simpa [exmasPlain, sBase, or_assoc] using h
  rcases hcase with rfl | rfl | rfl | rfl
  · exact ⟨rfl, by decide, by decide, by decide⟩
  · exact ⟨rfl, by decide, by decide, by decide⟩
  · exact ⟨rfl, by decide, by decide, by decide⟩
  · exact ⟨rfl, by decide, by decide, by decide⟩

theorem exmasWrite_misaligned (h : off.toNat % 4 ≠ 0) (v : W32) :
    exmasWrite off.toNat v s = exAnswer (rasAppend s 0x01 0 0 0 none (off.toNat + 3 * 2 ^ 34)) .invalid [] := by
  rw [← writeDetail_exmas]
  exact if_pos h

/-- An aligned write by Exmas of a register other than RST_CTL and FB_CAP. -/
theorem exmasWrite_other (h : off.toNat % 4 = 0) (hcap : off.toNat ≠ 0x150004) (hrst : off.toNat ≠ 0x170000) (v : W32) : exmasWrite off.toNat v s =
    if (regRow off.toNat).isNone then exAnswer (rasAppend s 0x02 0 0 0 none (off.toNat + 3 * 2 ^ 34)) .invalid []
    else if !(exmasPlain off.toNat) then exAnswer s .invalid []
    else if s.resetting.isSome then exAnswer (logDropped s off.toNat v.toNat) .busy []
    else exAnswer (plainWrite s .exmas off.toNat v) .success [] := by
  rw [← writeDetail_exmas]
  unfold exmasWrite
  rw [if_neg (not_not.mpr h), if_neg hcap, if_neg hrst]

/-- FB_CAP written by Exmas with no reset running. -/
theorem exmasWrite_cap (hup : regsUp s = true) (hres : s.resetting = none) (v : W32) : exmasWrite 0x150004 v s =
    if fld v 0 12 < 900 ∨ 2800 < fld v 0 12 ∨ fld v 0 12 % 10 ≠ 0 then exAnswer (logDropped s 0x150004 v.toNat) .invalid []
    else exAnswer (setRg s 0x150004 (v &&& 0xFFF#32)) .success [] := by
  have he : exmasWrite 0x150004 v s = nextOr s (execFbCapWrite .exmas v s) := (if_neg (by decide)).trans (if_pos rfl)
  rw [he]
  unfold execFbCapWrite
  extract_lets n bad put
  dsimp only
  rw [if_neg (by rw [hup]; decide), if_neg (by rw [hres]; decide)]
  have hbad : bad = true ↔ fld v 0 12 < 900 ∨ 2800 < fld v 0 12 ∨ fld v 0 12 % 10 ≠ 0 := by simp [bad, n, or_assoc]
  by_cases h : bad = true
  · rw [if_pos h, if_pos (hbad.mp h)]
    rfl
  · rw [if_neg h, if_neg (fun hn => h (hbad.mpr hn))]
    rfl

end Registers

section Config
variable {s : State}

/-- The copy that is written is the newer one from then on. -/
theorem nvNow_writeNv (s : State) (f : Nv → Nv) : nvNow (writeNv s f) = { f (nvNow s) with seq := max s.nv0.seq s.nv1.seq + 1 } := by
  unfold writeNv
  extract_lets n
  unfold nvNow
  split
  · exact if_neg (by show ¬ (max s.nv0.seq s.nv1.seq + 1 < s.nv1.seq); omega)
  · exact if_pos (by show s.nv0.seq < max s.nv0.seq s.nv1.seq + 1; omega)

theorem writeNv_frame (s : State) (f : Nv → Nv) : ∃ a b, writeNv s f = { s with nv0 := a, nv1 := b } := by
  let n : Nv := { f (nvNow s) with seq := max s.nv0.seq s.nv1.seq + 1 }
  by_cases h : s.nv0.seq < s.nv1.seq
  · exact ⟨n, s.nv1, if_pos h⟩
  · exact ⟨s.nv0, n, if_neg h⟩

theorem exec_configSet (hmode : s.mode = .maintenance ∨ s.mode = .draining) (hrec : recovery s = false) (hres : s.resetting = none) {c : NvConfig}
    (hc : configBad c = false) : ∃ u, exec (.configSet c) s = .next u ∧ nvNow u = { (nvNow s).apply c with seq := max s.nv0.seq s.nv1.seq + 1 } ∧
      u.guarded = s.guarded ∧ u.mir = s.mir ∧ u.mode = s.mode := by
  have hheard : s.mode ≠ .off ∧ alwaysOnOnly s = false ∧ (s.mode == .maintenance || s.mode == .draining) = true := by
    rcases hmode with h | h <;> simp [alwaysOnOnly, h]
  obtain ⟨hoff, halw, hok⟩ := hheard
  obtain ⟨a, b, hf⟩ := writeNv_frame s (fun n => n.apply c)
  have hnow := nvNow_writeNv s (fun n => n.apply c)
  rw [hf] at hnow
  have he : ∃ new fw, exec (.configSet c) s = .next (exAnswer { writeNv s (fun n => n.apply c) with nvNew := new, fw := fw } .success []) :=
    ⟨_, _, congrArg Host.Outcome.next ((exmas_heard hoff hrec (.inr halw) (.inr hres) hok).trans (if_neg (by rw [hc]; decide)))⟩
  obtain ⟨new, fw, he⟩ := he
  rw [hf] at he
  exact ⟨_, he, hnow, rfl, rfl, rfl⟩

/-- A diagnostic of a terrace without a retirement record ends. -/
theorem exec_diagDone {tg : Nat} (hd : s.diag = some tg) (hr : (terrace s tg).recorded = false) (r : DiagResult) : exec (.diagDone r) s =
    .next (exEvent (if r.pass then verifyRails (updTerrace { s with diag := none } tg (fun t => { t with degraded := [] }))
      else askRetire (updTerrace { s with diag := none } tg (fun t => { t with degraded := [0, 1, 2, 3] })) 0 [tg]) ([0x1010, tg, r.pass.toNat] ++ r.failed)) := by
  show execDiagDone r s = _
  unfold execDiagDone
  rw [hd]
  have hn : ¬ (terrace { s with diag := none } tg).recorded = true := by
    rw [show (terrace { s with diag := none } tg).recorded = false from hr]
    exact Bool.false_ne_true
  dsimp only
  rw [if_neg hn, if_neg hn]

end Config

/-- Settles O55. -/
theorem exmas_holds : Obligations.Exmas := by
  refine ⟨fun s => ?_, fun s => ?_⟩
  · intro ok heard
    refine ⟨fun hoff hrec => congrArg _ (exmas_heard hoff hrec (.inl rfl) (.inl rfl) rfl),
      fun hoff => ⟨congrArg _ (exmas_off hoff), congrArg _ (exmas_off hoff), congrArg _ (exmas_off hoff)⟩, fun b hst hres hb => ?_, ?_⟩
    · show execPowerOn b s = _
      unfold execPowerOn
      rw [exmas_heard (by rw [hst]; decide) (by simp [recovery, hst]) (.inl rfl) (.inr hres) hb]
      show Host.Outcome.next (exAnswer (powerOn s 2 b) .success []) = .next { powerOn s 2 b with out := (powerOn s 2 b).out ++ [.exmas .success []] }
      generalize powerOn s 2 b = u
      rfl
    · rintro ⟨hrec, hres⟩
      have hready : s.mode = .ready → s.mode ≠ .off ∧ alwaysOnOnly s = false := fun h => by simp [alwaysOnOnly, h]
      have hdrain : s.mode = .draining → s.mode ≠ .off ∧ alwaysOnOnly s = false := fun h => by simp [alwaysOnOnly, h]
      have hmaint : s.mode = .maintenance → s.mode ≠ .off ∧ alwaysOnOnly s = false := fun h => by simp [alwaysOnOnly, h]
      have hserve : s.mode = .ready ∨ s.mode = .draining → s.mode ≠ .off ∧ alwaysOnOnly s = false ∧ serving s = true := fun h => by
        rcases h with h | h <;> simp [alwaysOnOnly, serving, h]
      refine ⟨fun h => ?_, fun h => ?_, fun h => ?_, fun h => ?_, fun h => ?_, fun h => ?_, fun h => ?_, fun h => ?_, fun tg ridge h => ?_,
        fun n h hd hn => ?_⟩
      · refine congrArg _ (exmas_heard ?_ hrec (.inl rfl) (.inr hres) ?_)
        · rcases h with h | h | ⟨h, -⟩ <;> rw [h] <;> decide
        · rcases h with h | h | ⟨h, hq⟩
          · simp [h]
          · simp [h]
          · rw [hq, h]
            rfl
      · exact congrArg _ (exmas_badState (hready h).1 hrec (.inl rfl) (.inr hres) (by simp [h]))
      · exact congrArg _ (exmas_heard (hready h).1 hrec (.inr (hready h).2) (.inr hres) (by simp [h]))
      · exact congrArg _ (exmas_badState (hdrain h).1 hrec (.inr (hdrain h).2) (.inr hres) (by simp [h]))
      · refine congrArg _ ((exmas_heard (hdrain h).1 hrec (.inr (hdrain h).2) (.inr hres) (by simp [h])).trans ?_)
        exact congrArg (exAnswer · .success []) (if_pos h)
      · have hm : s.mode = .maintenance := by
          unfold operatorMaint at h
          exact beq_iff_eq.mp (Bool.and_eq_true _ _ ▸ h).1
        refine congrArg _ ((exmas_heard (hmaint hm).1 hrec (.inr (hmaint hm).2) (.inr hres) (by rw [h]; simp)).trans ?_)
        exact congrArg (exAnswer · .success []) (if_neg (by rw [hm]; decide))
      · exact ⟨congrArg _ (exReset_taken hrec hres h 1 s.mode), congrArg _ (exReset_taken hrec hres h 3 .ready)⟩
      · exact congrArg _ (exmas_heard (hserve h).1 hrec (.inr (hserve h).2.1) (.inr hres) (hserve h).2.2)
      · exact congrArg _ (exmas_heard (hserve h).1 hrec (.inr (hserve h).2.1) (.inr hres) (hserve h).2.2)
      · refine congrArg _ ((exmas_heard (hmaint h).1 hrec (.inr (hmaint h).2) (.inr hres) (by simp [h])).trans ?_)
        exact (if_neg (by omega)).trans (if_neg (by rw [hd]; decide))
  · intro ok bad
    refine ⟨fun hoff hst hboot halw hrec => ?_, fun c hm hrec hres hc => exec_configSet hm hrec hres hc, fun r tg hd hp hr => ?_, fun r tg hd hp hr => ?_⟩
    rotate_left
    · rw [exec_diagDone hd hr, hp]
      rfl
    · rw [exec_diagDone hd hr, hp]
      rfl
    have hread : readStates s = true := by simp [readStates, hoff, hst]
    have hnb : (s.mode == .boot) = false := by simp [hboot]
    have hup := regsUp_of_heard hoff hst hboot halw hrec
    have hheard : ∀ f, Machine.exmas s false false (readStates s) f = f s := fun f => exmas_heard hoff hrec (.inr halw) (.inl rfl) hread
    have hwrite : ∀ (off : BitVec 28) v, exec (.writeReg off v) s = .next (exmasWrite off.toNat v s) := fun off v =>
      congrArg _ (exmas_heard hoff hrec (.inr halw) (.inl hnb) hread)
    have hrd : ∀ off : BitVec 28, exec (.readReg off) s =
        .next (ok (readBytes s .exmas .bar0 off.toNat 4).2 [leNat (readBytes s .exmas .bar0 off.toNat 4).1]) := fun off => by
      refine congrArg _ ((hheard _).trans ?_)
      exact if_neg hboot
    refine ⟨hrd, fun off ho => ?_, fun off v ho => (hwrite off v).trans (congrArg _ (exmasWrite_misaligned ho v)), fun off v ho hr h1 h2 => ?_,
      fun off v ho hr h1 h2 hp => ?_, fun off v hp => ?_, fun v hres => ?_, fun he => ?_, fun e rest he => ?_, fun e => congrArg _ (hheard _),
      congrArg _ (hheard _)⟩
    · have hlt : (readReg s 1 off.toNat).1.toNat < 256 ^ 4 := BitVec.isLt _
      rw [hrd off, readBytes_exmas ho, leNat_leBytes, Nat.mod_eq_of_lt hlt]
    · exact (hwrite off v).trans (congrArg _ ((exmasWrite_other ho h1 h2 v).trans (if_pos (by rw [hr]; rfl))))
    · have hr' : ¬ (regRow off.toNat).isNone = true := fun h => hr (Option.isNone_iff_eq_none.mp h)
      exact (hwrite off v).trans (congrArg _ ((exmasWrite_other ho h1 h2 v).trans ((if_neg hr').trans (if_pos (by rw [hp]; rfl)))))
    · obtain ⟨ho, h1, h2, hr⟩ := exmasPlain_row hp
      have hw := (hwrite off v).trans (congrArg _ ((exmasWrite_other ho h1 h2 v).trans
        ((if_neg (by rw [hr]; decide)).trans (if_neg (by rw [hp]; decide)))))
      exact ⟨fun hres => hw.trans (congrArg _ (if_neg (by rw [hres]; decide))), fun hres => hw.trans (congrArg _ (if_pos (Option.isSome_iff_ne_none.mpr hres)))⟩
    · intro n
      have hw : exec (.writeReg 0x150004 v) s = _ := (hwrite 0x150004 v).trans (congrArg _ (exmasWrite_cap hup hres v))
      exact ⟨fun h1 h2 h3 => hw.trans (congrArg _ (if_neg (by omega))), fun h => hw.trans (congrArg _ (if_pos h))⟩
    · refine congrArg _ ((hheard _).trans ?_)
      rw [he]
      rfl
    · refine congrArg _ ((hheard _).trans ?_)
      rw [he]
      rfl

end Sys2Proof.Machine
end

section
/-! PROOFS. Management, firmware update and attestation (R506 to R509). -/

namespace Sys2Proof.Machine

open Sys2Proof

section Management
variable {s : State}

/-- What monitoring answers: temperatures, power, feed voltages and coolant readings. -/
def monitored (s : State) : List Nat :=
  (List.range 484).map (fun k => (sensor s k).tj) ++ (List.range 12).map (fun k => (stackOf s k).temp)
    ++ ((List.range 29).map (fun k => (rail s k).pwr) ++ [s.fb.pwr]) ++ [(feed s 0).volts, (feed s 1).volts, s.fb.inlet, s.fb.outlet, s.fb.flow]

theorem monitored_length (s : State) : (monitored s).length = 531 := by simp [monitored]

theorem monitored_sensor (s : State) {n : Nat} (h : n < 484) : (monitored s)[n]? = some (sensor s n).tj := by
  unfold monitored
  rw [List.append_assoc, List.append_assoc, List.getElem?_append_left (by simpa using h)]
  simp [h]

theorem monitored_stack (s : State) {k : Nat} (h : k < 12) : (monitored s)[484 + k]? = some (stackOf s k).temp := by
  unfold monitored
  rw [List.append_assoc, List.append_assoc, List.getElem?_append_right (by simp), List.getElem?_append_left (by simpa using h)]
  simp [h]

theorem monitored_rail (s : State) {k : Nat} (h : k < 29) : (monitored s)[496 + k]? = some (rail s k).pwr := by
  unfold monitored
  rw [List.append_assoc, List.getElem?_append_right (by simp), List.append_assoc, List.getElem?_append_left (by simp; omega)]
  simp [h]

theorem monitored_input (s : State) : (monitored s)[525]? = some s.fb.pwr := by
  unfold monitored
  rw [List.append_assoc, List.getElem?_append_right (by simp), List.append_assoc, List.getElem?_append_right (by simp)]
  simp

theorem exec_pldmMonitoring (hoff : s.mode ≠ .off) (hrec : recovery s = false) (halw : alwaysOnOnly s = false) (m : List Byte) :
    exec (.pldmMonitoring m) s = .next (emit s (.reply 1 true (monitored s) [])) := by
  have hst : s.mode ≠ .standby := fun h => by simp [alwaysOnOnly, h] at halw
  exact if_neg (by simp [readStates, hoff, hst, hrec, halw])

/-- Setting a valid endpoint ID. -/
theorem exec_mctpControl_set (hoff : s.mode ≠ .off) (hrec : recovery s = false) {m : List Byte} (h2 : m.getD 2 0 = 1) (h3 : (m.getD 3 0).toNat % 4 < 2)
    (h8 : 8 ≤ (m.getD 4 0).toNat) (h255 : (m.getD 4 0).toNat < 255) :
    exec (.mctpControl m) s = .next (emit { s with eid := m.getD 4 0 } (.reply 0 true [1, (m.getD 4 0).toNat] [])) := by
  show execMctpControl m s = _
  unfold execMctpControl
  rw [if_neg (by simp [hoff, hrec]), h2]
  exact if_pos (by rw [decide_eq_true h3, decide_eq_true h8, decide_eq_true h255]; rfl)

theorem exec_mctpControl_get (hoff : s.mode ≠ .off) (hrec : recovery s = false) {m : List Byte} (h2 : m.getD 2 0 = 2) :
    exec (.mctpControl m) s = .next (emit s (.reply 0 true [2, s.eid.toNat] [])) := by
  show execMctpControl m s = _
  unfold execMctpControl
  rw [if_neg (by simp [hoff, hrec]), h2]
  rfl

end Management

section Update
variable {s : State} {u : Update}

theorem exec_requestUpdate (hoff : s.mode ≠ .off) (halw : alwaysOnOnly s = false) (c : Fin 3) (ver svn : Nat) : exec (.requestUpdate c ver svn) s =
    if s.update.isSome then .next (emit s (.reply 2 false [c.val, 1] []))
    else if !(updateStates s c.val) || s.resetting.isSome || 63 < svn then .next (emit s (.reply 2 false [c.val, 0] []))
    else .next (emit { s with update := some { comp := c.val, ver, svn, verified := false }, flash := mset s.flash (inactiveSlot s c.val) {} }
      (.reply 2 true [c.val] [])) := if_neg (by simp [hoff, halw])

theorem exec_verifyComplete (hu : s.update = some u) (hv : u.verified = false) (ok : Bool) : exec (.verifyComplete ok) s =
    if !ok || u.svn < s.fw.svnMin.getD u.comp 0 then .next (emit { s with update := none } (.reply 2 false [u.comp, 2] []))
    else .next (emit { s with
        update := some { u with verified := true }, flash := mset s.flash (inactiveSlot s u.comp) { valid := true, ver := u.ver, svn := u.svn } }
      (.reply 2 true [u.comp, 2] [])) := by
  show execVerifyComplete ok s = _
  unfold execVerifyComplete
  rw [hu]
  exact if_neg (by rw [hv]; decide)

theorem exec_activateFirmware_unverified (hu : s.update = some u) (hv : u.verified = false) (b : Bool) :
    exec (.activateFirmware b) s = .next (emit s (.reply 2 false [u.comp, 3] [])) := by
  show execActivateFirmware b s = _
  unfold execActivateFirmware
  rw [hu]
  exact if_pos (by rw [hv]; rfl)

/-- The slot of a verified image is selected; what runs stays. -/
theorem exec_activateFirmware (hu : s.update = some u) (hv : u.verified = true) (b : Bool) : ∃ t,
    exec (.activateFirmware b) s = .next (emit t (.reply 2 true [u.comp, 3] [])) ∧ t.update = none ∧
      (nvNow t).slots = (nvNow s).slots.set u.comp (!(s.fw.run.getD u.comp false)) ∧ t.fw.run = s.fw.run ∧ t.flash = s.flash := by
  let pick (n : Nv) : Nv := { n with slots := n.slots.set u.comp (!(s.fw.run.getD u.comp false)) }
  obtain ⟨x, y, hf⟩ := writeNv_frame s pick
  have hnow := nvNow_writeNv s pick
  rw [hf] at hnow
  refine ⟨{ writeNv s pick with
    update := none
    fw := { (writeNv s pick).fw with pend := (writeNv s pick).fw.pend.set u.comp true, raised := (writeNv s pick).fw.raised.set u.comp b } }, ?_, rfl, ?_, ?_, ?_⟩
  · show execActivateFirmware b s = _
    unfold execActivateFirmware
    rw [hu]
    exact if_neg (by rw [hv]; decide)
  · rw [hf]
    exact congrArg Nv.slots hnow
  · rw [hf]
  · rw [hf]

end Update

section Attestation
variable {s : State}

theorem freshes_eq (n : Nat) (s : State) :
    freshes n s = ((List.range n).map (fun k => Config.freeValue (s.freeCtr + k)), { s with freeCtr := s.freeCtr + n }) := by
  induction n generalizing s with
  | zero => rfl
  | succ n ih =>
    unfold freshes fresh
    dsimp only
    rw [ih, List.range_succ_eq_map, List.map_cons, List.map_map]
    have hctr : ∀ k, s.freeCtr + 1 + k = s.freeCtr + (k + 1) := fun k => by omega
    simp only [hctr]
    rfl

/-- An answer of the responder where it answers. -/
theorem spdm_eq (hoff : s.mode ≠ .off) (hst : s.mode ≠ .standby) (hrec : recovery s = false) (ok : Bool) (ws : List Nat) (n : Nat) : spdm s ok ws n =
    { s with freeCtr := s.freeCtr + n, out := s.out ++ [.reply 3 ok ws ((List.range n).map (fun k => Config.freeValue (s.freeCtr + k)))] } := by
  unfold spdm
  rw [if_neg (by simp [spdmUp, readStates, hoff, hst, hrec]), freshes_eq]
  rfl

end Attestation

/-- Settles O56. -/
theorem managementAndSpdm : Obligations.ManagementAndSpdm := by
  refine ⟨fun s hoff hrec halw => ?_, fun s hoff hst hrec => ?_⟩
  · intro slot tells
    refine ⟨fun m h2 h3 h8 h255 => exec_mctpControl_set hoff hrec h2 h3 h8 h255, fun m h2 => exec_mctpControl_get hoff hrec h2,
      fun m => ⟨monitored s, exec_pldmMonitoring hoff hrec halw m, monitored_length s, fun n h => monitored_sensor s h, fun k h => monitored_stack s h,
        fun k h => monitored_rail s h, monitored_input s⟩,
      fun c ver svn hu hs hr hn => (exec_requestUpdate hoff halw c ver svn).trans ((if_neg (by rw [hu]; decide)).trans (if_neg ?_)),
      fun c ver svn u hu => (exec_requestUpdate hoff halw c ver svn).trans (if_pos (by rw [hu]; rfl)),
      fun u hu hv => ⟨fun hn => (exec_verifyComplete hu hv true).trans (if_neg (by rw [decide_eq_false (Nat.not_lt.mpr hn)]; decide)), (exec_verifyComplete hu hv false).trans (if_pos rfl),
        exec_activateFirmware_unverified hu hv⟩,
      fun u b hu hv => exec_activateFirmware hu hv b⟩
    rw [hs, hr]
    simp
    omega
  · intro answers
    have hspdm : ∀ ok ws n, spdm s ok ws n = _ := fun ok ws n => spdm_eq hoff hst hrec ok ws n
    refine ⟨congrArg _ (hspdm _ _ _), congrArg _ (hspdm _ _ _), congrArg _ (hspdm _ _ _),
      fun a => ⟨fun h => congrArg _ ((if_pos h).trans (hspdm _ _ _)), fun h => congrArg _ ((if_neg h).trans (hspdm _ _ _))⟩,
      fun off len => congrArg _ ((if_pos rfl).trans (hspdm _ _ _)), fun slot off len h => congrArg _ ((if_neg h).trans (hspdm _ _ _)), congrArg _ ((if_pos rfl).trans (hspdm _ _ _)),
      fun slot h => congrArg _ ((if_neg h).trans (hspdm _ _ _)), fun k => ⟨fun h1 h6 => congrArg _ ((if_pos ?_).trans (hspdm _ _ _)),
        fun h => congrArg _ ((if_neg ?_).trans (hspdm _ _ _))⟩⟩
    · rw [decide_eq_true h1, decide_eq_true h6]
      rfl
    · rw [Bool.and_eq_true, decide_eq_true_eq, decide_eq_true_eq]
      omega

end Sys2Proof.Machine
end

section
/-! PROOFS. The Skovuk link layer (R433, R434, R437 to R440). -/

namespace Sys2Proof.Machine

open Sys2Proof

/-! ## Ports -/

section Port
variable {s : State} {k : Nat}

theorem skvPort_updPort (s : State) (k : Nat) (f : SkvPort → SkvPort) : skvPort (updPort s k f) k = f (skvPort s k) := mget_mset_same _ _ _ _

theorem updPort_updPort (s : State) (k : Nat) (f g : SkvPort → SkvPort) : updPort (updPort s k f) k g = updPort s k (fun x => g (f x)) := by
  unfold updPort mupd
  dsimp only
  rw [mset_mset, mget_mset_same]

/-- What a port holds, when its state is written. -/
theorem skvPort_setPortState (s : State) (k st : Nat) : skvPort (setPortState s k st) k = { skvPort s k with state := st } := by
  have hcause : ∀ (t : State) c j, skvPort (intCause t c) j = skvPort t j := fun t c j => by
    unfold intCause
    extract_lets rose t'
    split
    · rfl
    · rfl
  unfold setPortState
  split
  next h => rw [← h]
  next => rw [hcause, skvPort_updPort]

/-- A port that sends a flit without a packet: what it owes after it, and the flit that leaves. -/
theorem sendBare_eq {x : SkvPort} (h : skvPort s k = x) (ftype : Nat) : skvPort (sendBare s k ftype) k = { x with owed := x.rest } ∧
    (sendBare s k ftype).out = s.out ++ [.flit k (bareFlit ftype (x.txSeq - 1) x.ack x.credits)] := by
  subst h
  exact ⟨skvPort_updPort s k (fun x => { x with owed := x.rest }), rfl⟩

theorem drainPort_idle (h : (skvPort s k).waitQ = []) : drainPort s k = s := by
  unfold drainPort
  split
  · rfl
  · rw [h]
    rfl

/-- A flit that is not good: its replay is asked for. -/
theorem requestReplay_eq (s : State) (k : Nat) : skvPort (requestReplay s k) k = { skvPort s k with asked := true, owed := (skvPort s k).rest } ∧
    (requestReplay s k).out = s.out ++ [.flit k (bareFlit 2 ((skvPort s k).txSeq - 1) ((skvPort s k).rxNext - 1) (skvPort s k).credits)] := by
  exact sendBare_eq (skvPort_updPort s k (fun x => { x with asked := true })) 2

/-- The port once the acknowledgement and the credits of a flit are taken. -/
def ackedPort (x : SkvPort) (f : Flit) : SkvPort :=
  let rest := x.retry.filter (fun e => !(decide ((f.ack - e.1).toNat < 2 ^ 15)))
  takeCredits { x with retry := rest, tries := if rest.length < x.retry.length then 0 else x.tries } f.cred

theorem acked_eq (s : State) (k : Nat) (f : Flit) : updPort (ackFlits s k f.ack) k (fun x => takeCredits x f.cred) = updPort s k (fun x => ackedPort x f) :=
  updPort_updPort _ _ _ _

/-- The credits taken, channel by channel. -/
theorem sent_takeCredits (x : SkvPort) (cred : List Nat) {c : Nat} (h : c < 4) : mget (takeCredits x cred).sent c 0 = mget x.sent c 0 - cred.getD c 0 := by
  have hfold : ∀ (l : List Nat) (m : Map Nat), l.Nodup → mget (l.foldl (fun m c => mset m c (mget m c 0 - cred.getD c 0)) m) c 0 =
      if c ∈ l then mget m c 0 - cred.getD c 0 else mget m c 0 := fun l => by
    induction l with
    | nil => exact fun _ _ => rfl
    | cons a l ih =>
      intro m hnd
      obtain ⟨ha, hl⟩ := List.nodup_cons.mp hnd
      rw [List.foldl_cons, ih _ hl]
      by_cases hca : c = a
      · subst hca
        rw [if_neg ha, if_pos List.mem_cons_self, mget_mset_same]
      · rw [mget_mset_other _ _ _ _ _ hca]
        simp only [List.mem_cons, hca, false_or]
  exact (hfold (List.range 4) x.sent List.nodup_range).trans (if_pos (List.mem_range.mpr h))

/-- A flit of a packet that comes in sequence, early, or again. -/
theorem takeFlit_packet {f : Flit} (h0 : f.ftype = 0) : takeFlit s k f =
    let acked := updPort s k (fun x => ackedPort x f)
    let late := (f.lseq - (skvPort s k).rxNext).toNat
    if late = 0 then updPort acked k (fun x => { x with
      rxNext := x.rxNext + 1, asked := false, owed := mset x.owed f.vc.val (mget x.owed f.vc.val 0 + 1) })
    else if late < 2 ^ 15 then askReplay acked k else acked := by
  unfold takeFlit
  rw [acked_eq]
  dsimp only
  rw [if_neg (by omega), if_neg (by omega), skvPort_updPort]
  have hrx : (ackedPort (skvPort s k) f).rxNext = (skvPort s k).rxNext := rfl
  rw [hrx]

theorem exec_skvFlitReceive {k : Fin 8} (hup : skvUp s k.val = true) (f : Flit) : exec (.skvFlitReceive k f) s =
    if !f.ok then .next (requestReplay s k.val) else if 3 ≤ f.ftype then .next s
    else .next (returnCredits (drainPort (takeFlit s k.val f) k.val) k.val) := if_neg (by rw [hup]; decide)

theorem mset_isEmpty {α : Type} (m : Map α) (k : Nat) (v : α) : (mset m k v).isEmpty = false := by
  cases m with
  | nil => rfl
  | cons e m =>
    unfold mset
    split
    · rfl
    · split
      · rfl
      · rfl

end Port

/-- The port that takes a flit in sequence. -/
def inSequence (x : SkvPort) (f : Flit) : SkvPort := { ackedPort x f with
  rxNext := x.rxNext + 1, asked := false, owed := mset x.owed f.vc.val (mget x.owed f.vc.val 0 + 1) }

section Sequence
variable {s : State}

/-- A flit in sequence is taken, and its credit returned in an idle flit. -/
theorem exec_skvFlitReceive_inSequence {k : Fin 8} (hup : skvUp s k.val = true) {f : Flit} (hok : f.ok = true) (h0 : f.ftype = 0)
    (hlate : (f.lseq - (skvPort s k.val).rxNext).toNat = 0) (hq : (skvPort s k.val).waitQ = []) : ∃ u, exec (.skvFlitReceive k f) s = .next u ∧
      skvPort u k.val = { inSequence (skvPort s k.val) f with owed := (inSequence (skvPort s k.val) f).rest } ∧
      u.out = s.out ++ [.flit k.val (bareFlit 1 ((skvPort s k.val).txSeq - 1) (skvPort s k.val).rxNext (inSequence (skvPort s k.val) f).credits)] := by
  have ht : takeFlit s k.val f = updPort s k.val (fun x => inSequence x f) := by
    refine (takeFlit_packet h0).trans ((if_pos hlate).trans ?_)
    exact updPort_updPort _ _ _ _
  have hp : skvPort (updPort s k.val (fun x => inSequence x f)) k.val = inSequence (skvPort s k.val) f := skvPort_updPort _ _ _
  have hret : returnCredits (updPort s k.val (fun x => inSequence x f)) k.val = sendBare (updPort s k.val (fun x => inSequence x f)) k.val 1 := by
    refine if_pos ?_
    rw [Bool.and_eq_true]
    refine ⟨?_, ?_⟩
    · unfold skvUp
      rw [hp]
      exact hup
    · rw [hp]
      show (!(mset (skvPort s k.val).owed f.vc.val (mget (skvPort s k.val).owed f.vc.val 0 + 1)).isEmpty) = true
      rw [mset_isEmpty]
      rfl
  obtain ⟨h1, h2⟩ := sendBare_eq hp 1
  refine ⟨_, ?_, h1, ?_⟩
  · refine (exec_skvFlitReceive hup f).trans ((if_neg (by rw [hok]; decide)).trans ((if_neg (by omega)).trans ?_))
    rw [ht, drainPort_idle (by rw [hp]; exact hq), hret]
  · have hack : (inSequence (skvPort s k.val) f).ack = (skvPort s k.val).rxNext := BitVec.add_sub_cancel _ _
    rw [hack] at h2
    exact h2

end Sequence

/-! ## Flits on the wire -/

section Wire
variable {f : Flit} {sop eop : Bool} {body : List Byte}

/-- The four parts of a flit. -/
theorem flitWire_parts (f : Flit) (sop eop : Bool) (body : List Byte) : ∃ pay low seqs : List Byte, pay.length = 240 ∧ low.length = 8 ∧ seqs.length = 4 ∧
    flitWire f sop eop body = pay ++ low ++ seqs ++ leBytes 4 (crc32c (pay ++ low ++ seqs)).toNat ∧
    low = leBytes 8 (linkLow f sop eop) ∧ seqs = leBytes 4 (f.ack.toNat * 2 ^ 16 + f.lseq.toNat) ∧
    pay = (body ++ List.replicate (240 - body.length) 0).take 240 :=
  ⟨_, _, _, by rw [List.length_take, List.length_append, List.length_replicate]; omega, length_leBytes _ _, length_leBytes _ _, rfl, rfl, rfl, rfl⟩

theorem flitWire_length (f : Flit) (sop eop : Bool) (body : List Byte) : (flitWire f sop eop body).length = 256 := by
  obtain ⟨pay, low, seqs, hp, hl, hs, he, -, -, -⟩ := flitWire_parts f sop eop body
  rw [he]
  simp [hp, hl, hs]

/-- A flit carries 240 bytes of its packet, zeros after the last. -/
theorem flitWire_payload {k : Nat} (h : k < 240) : (flitWire f sop eop body)[k]? = some (body.getD k 0) := by
  obtain ⟨pay, low, seqs, hp, hl, hs, he, -, -, hpay⟩ := flitWire_parts f sop eop body
  rw [he, List.append_assoc, List.append_assoc, List.getElem?_append_left (by omega), hpay, List.getElem?_take, if_pos h]
  by_cases hb : k < body.length
  · rw [List.getElem?_append_left hb, List.getD_eq_getElem _ _ hb, List.getElem?_eq_getElem hb]
  · rw [List.getElem?_append_right (by omega), List.getElem?_replicate, if_pos (by omega), List.getD_eq_default _ _ (by omega)]

/-- A number made of the fields of a link control word, and each field again. -/
theorem packed_fields {t a b v c0 c1 c2 c3 n : Nat} (ht : t < 16) (ha : a ≤ 1) (hb : b ≤ 1) (hv : v < 4) (h0 : c0 < 1024) (h1 : c1 < 1024)
    (h2 : c2 < 1024) (h3 : c3 < 1024) (hn : n = t % 16 * 2 ^ 60 + a * 2 ^ 59 + b * 2 ^ 58 + v * 2 ^ 56 + c3 % 1024 * 2 ^ 30 + c2 % 1024 * 2 ^ 20
      + c1 % 1024 * 2 ^ 10 + c0 % 1024) :
    n < 2 ^ 64 ∧ n / 2 ^ 60 = t ∧ n / 2 ^ 56 % 4 = v ∧ n % 1024 = c0 ∧ n / 2 ^ 10 % 1024 = c1 ∧ n / 2 ^ 20 % 1024 = c2 ∧ n / 2 ^ 30 % 1024 = c3 := by
  omega

/-- What a link control word holds, field by field. -/
theorem linkLow_fields (ht : f.ftype < 16) (hc : ∀ n, f.cred.getD n 0 < 1024) : linkLow f sop eop < 2 ^ 64 ∧ linkLow f sop eop / 2 ^ 60 = f.ftype ∧
    linkLow f sop eop / 2 ^ 56 % 4 = f.vc.val ∧ ∀ c, c < 4 → linkLow f sop eop / 2 ^ (10 * c) % 1024 = f.cred.getD c 0 := by
  obtain ⟨hb, h60, h56, h0, h1, h2, h3⟩ := packed_fields ht (Bool.toNat_le sop) (Bool.toNat_le eop) f.vc.isLt (hc 0) (hc 1) (hc 2) (hc 3)
    (rfl : linkLow f sop eop = _)
  refine ⟨hb, h60, h56, fun c hlt => ?_⟩
  have hcase : c = 0 ∨ c = 1 ∨ c = 2 ∨ c = 3 := by omega
  rcases hcase with rfl | rfl | rfl | rfl
  · rw [show 2 ^ (10 * 0) = 1 from rfl, Nat.div_one]
    exact h0
  · exact h1
  · exact h2
  · exact h3

theorem flit_ofWire (hok : f.ok = true) (ht : f.ftype < 16) (hlen : f.cred.length = 4) (hc : ∀ c ∈ f.cred, c < 1024) :
    Flit.ofWire (flitWire f sop eop body) = f := by
  obtain ⟨pay, low, seqs, hp, hl, hs, he, hlow, hseqs, -⟩ := flitWire_parts f sop eop body
  have hcred : ∀ n, f.cred.getD n 0 < 1024 := fun n => by
    by_cases hn : n < f.cred.length
    · rw [List.getD_eq_getElem _ _ hn]
      exact hc _ (List.getElem_mem hn)
    · rw [List.getD_eq_default _ _ (by omega)]
      decide
  obtain ⟨hbound, htype, hvc, hcr⟩ := linkLow_fields (f := f) (sop := sop) (eop := eop) ht hcred
  have hn : leNat low = linkLow f sop eop := by
    rw [hlow, leNat_leBytes]
    exact Nat.mod_eq_of_lt hbound
  have hsn : leNat seqs = f.ack.toNat * 2 ^ 16 + f.lseq.toNat := by
    rw [hseqs, leNat_leBytes]
    have h1 := f.ack.isLt
    have h2 := f.lseq.isLt
    omega
  have hcrc : ∀ w : W32, leNat (leBytes 4 w.toNat) = w.toNat := fun w => by
    rw [leNat_leBytes]
    exact Nat.mod_eq_of_lt w.isLt
  have hdrop : (flitWire f sop eop body).drop 240 = low ++ seqs ++ leBytes 4 (crc32c (pay ++ low ++ seqs)).toNat := by
    rw [he]
    simp only [List.append_assoc]
    rw [List.drop_append_of_le_length (by omega), List.drop_of_length_le (by omega), List.nil_append]
  have h240 : ((flitWire f sop eop body).drop 240).take 8 = low := by
    rw [hdrop, List.append_assoc, List.take_append_of_le_length (by omega), List.take_of_length_le (by omega)]
  have h248 : ((flitWire f sop eop body).drop 248).take 4 = seqs := by
    rw [show 248 = 240 + 8 from rfl, ← List.drop_drop, hdrop, List.append_assoc, List.drop_append_of_le_length (by omega), List.drop_of_length_le (by omega),
      List.nil_append, List.take_append_of_le_length (by omega), List.take_of_length_le (by omega)]
  have htake : (flitWire f sop eop body).take 252 = pay ++ low ++ seqs := by
    rw [he, List.take_append_of_le_length (by simp; omega), List.take_of_length_le (by simp; omega)]
  have h252 : ((flitWire f sop eop body).drop 252).take 4 = leBytes 4 (crc32c (pay ++ low ++ seqs)).toNat := by
    rw [he, List.drop_append_of_le_length (by simp; omega), List.drop_of_length_le (by simp; omega), List.nil_append,
      List.take_of_length_le (by rw [length_leBytes])]
  have hlist : (List.range 4).map (fun c => linkLow f sop eop / 2 ^ (10 * c) % 1024) = f.cred := by
    refine List.ext_getElem (by simp [hlen]) fun n h1 h2 => ?_
    rw [List.getElem_map, List.getElem_range, hcr n (by omega), List.getD_eq_getElem _ _ h2]
  have hlseq : BitVec.ofNat 16 (f.ack.toNat * 2 ^ 16 + f.lseq.toNat) = f.lseq := BitVec.eq_of_toNat_eq (by
    rw [BitVec.toNat_ofNat]
    have h2 := f.lseq.isLt
    omega)
  have hack : BitVec.ofNat 16 ((f.ack.toNat * 2 ^ 16 + f.lseq.toNat) / 2 ^ 16) = f.ack := BitVec.eq_of_toNat_eq (by
    rw [BitVec.toNat_ofNat]
    have h1 := f.ack.isLt
    have h2 := f.lseq.isLt
    omega)
  unfold Flit.ofWire
  rw [h240, h248, htake, h252, hn, hsn, hcrc]
  dsimp only
  rw [hlist, hlseq, hack, htype, hvc, beq_self_eq_true, ← hok]
  have hfin : Fin.ofNat 4 f.vc.val = f.vc := Fin.ext (Nat.mod_eq_of_lt f.vc.isLt)
  rw [hfin]

end Wire

/-- Settles O57. -/
theorem skovukLinks : Obligations.SkovukLinks := by
  refine ⟨fun k s => ?_, fun f sop eop body hok ht hlen hc => ⟨flitWire_length f sop eop body, flit_ofWire hok ht hlen hc, fun k h => flitWire_payload h⟩⟩
  intro x
  refine ⟨fun mask mgr partner rtt hid => ?_, fun mask mgr partner rtt hid => if_pos (by rw [hid]; rfl), fun lane hst hbit => ?_, fun lane h => ?_,
    fun f hup => ?_, fun f hup => if_pos (by rw [hup]; rfl), fun n hup => if_pos hup, fun hup hr => ?_, fun hr => ?_⟩
  · intro told lanes v
    have hv : (skvPort v k.val).retry = x.retry := by rw [skvPort_setPortState, skvPort_updPort]; rfl
    have hid' : ¬ (!(skvIdValid s)) = true := by rw [hid]; decide
    have hself : ∀ b : Prop, [Decidable b] → (b ↔ mgr = false ∧ partner.toNat = skvId s) → (¬ b ↔ mgr = true ∨ partner.toNat ≠ skvId s) := fun b _ hb => by
      rw [hb]
      cases mgr <;> simp
    have hown : (!mgr && decide (partner.toNat = skvId s)) = true ↔ mgr = false ∧ partner.toNat = skvId s := by
      cases mgr <;> simp
    refine ⟨fun hm hp => (if_neg hid').trans (if_pos (hown.mpr ⟨hm, hp⟩)), fun ho hl => (if_neg hid').trans ((if_neg ((hself _ hown).mpr ho)).trans (if_pos hl)),
      fun ho hl => ?_⟩
    have he : exec (.skvPortTrained k mask mgr partner rtt) s = .next (drainPort (match (skvPort v k.val).retry with
        | e :: _ => replay v k.val e.1
        | [] => v) k.val) :=
      (if_neg hid').trans ((if_neg ((hself _ hown).mpr ho)).trans (if_neg (Nat.not_lt.mpr hl)))
    rw [he, hv]
    refine ⟨fun hr => ?_, fun e rest hr => ?_⟩
    · rw [hr]
    · rw [hr]
  · have hno : ¬ ((skvPort s k.val).state = 0 || !(bit (skvPort s k.val).lanes lane.val)) = true := by
      rw [show bit (skvPort s k.val).lanes lane.val = true from hbit]
      simpa using hst
    exact ⟨fun hl => (if_neg hno).trans (if_pos hl), fun hl => (if_neg hno).trans (if_neg (Nat.not_lt.mpr hl))⟩
  · refine if_pos ?_
    rcases h with h | h
    · rw [show (skvPort s k.val).state = 0 from h]
      rfl
    · rw [show bit (skvPort s k.val).lanes lane.val = false from h]
      simp
  · intro late acked
    have hacked : acked = updPort s k.val (fun x => ackedPort x f) := acked_eq s k.val f
    have hgood : f.ok = true → f.ftype = 0 → exec (.skvFlitReceive k f) s = .next (returnCredits (drainPort (takeFlit s k.val f) k.val) k.val) :=
      fun hok h0 => (exec_skvFlitReceive hup f).trans ((if_neg (by rw [hok]; decide)).trans (if_neg (by omega)))
    refine ⟨fun hok => ?_, fun hok h3 => (exec_skvFlitReceive hup f).trans ((if_neg (by rw [hok]; decide)).trans (if_pos h3)), fun hok h0 hl hq => ?_,
      fun hok h0 h1 h2 => ?_, fun hok h0 h1 => ?_, fun ha => if_pos ha⟩
    · obtain ⟨h1, h2⟩ := requestReplay_eq s k.val
      exact ⟨_, (exec_skvFlitReceive hup f).trans (if_pos (by rw [hok]; rfl)), h1, h2⟩
    · obtain ⟨u, he, hp, ho⟩ := exec_skvFlitReceive_inSequence hup hok h0 hl hq
      refine ⟨u, he, ho, by rw [hp]; rfl, by rw [hp]; rfl, by rw [hp]; rfl, fun c hc => ?_, fun e => ?_⟩
      · rw [hp]
        exact sent_takeCredits _ f.cred hc
      · rw [hp]
        show e ∈ x.retry.filter _ ↔ _
        rw [List.mem_filter, Bool.not_eq_true', decide_eq_false_iff_not, Nat.not_lt]
    · rw [hgood hok h0, takeFlit_packet h0, hacked]
      dsimp only
      rw [if_neg (show ¬ late = 0 by omega), if_pos (show late < 2 ^ 15 from h2)]
    · rw [hgood hok h0, takeFlit_packet h0, hacked]
      dsimp only
      rw [if_neg (show ¬ late = 0 by omega), if_neg (show ¬ late < 2 ^ 15 by omega)]
  · exact if_pos (by rw [hup, List.isEmpty_eq_false_iff.mpr hr]; rfl)
  · exact if_neg (by rw [show (skvPort s k.val).retry = [] from hr]; simp)

end Sys2Proof.Machine
end

section
/-! PROOFS. The delivery of Skovuk packets (R436, R441, R442, R444 to R446, R449). -/

namespace Sys2Proof.Machine

open Sys2Proof

section Inbound
variable {s : State} {p : SkvPacket} {n : Nat} {k : State → State}

/-- A packet that reaches a port that is Up. -/
theorem inbound_up (hup : skvUp s p.port.val = true) : inbound n p s k =
    if skvMalformed p then .next (skvLog s p.port.val p.src.toNat p.ptype) else if p.ptype ≠ n then .next s
    else if !(forUs s p) then .next (transit s p)
    else if p.eseq = (e2eOf s (pktSrc p) p.vc).expect then
      .next (sendEack (k (updE2e s (pktSrc p) p.vc (fun e => { e with expect := (e2eOf s (pktSrc p) p.vc).expect + 1 }))) p)
    else if (p.eseq - (e2eOf s (pktSrc p) p.vc).expect).toNat < 2 ^ 31 then .next s
    else .next (sendEack (satAdd s 0x7000184 0 0 16 1) p) := if_neg (by rw [hup]; decide)

theorem inbound_malformed (hup : skvUp s p.port.val = true) (hm : skvMalformed p = true) :
    inbound n p s k = .next (skvLog s p.port.val p.src.toNat p.ptype) := (inbound_up hup).trans (if_pos hm)

variable (hup : skvUp s p.port.val = true) (hm : skvMalformed p = false)
include hup hm

theorem inbound_otherKind (hn : p.ptype ≠ n) : inbound n p s k = .next s :=
  (inbound_up hup).trans ((if_neg (by rw [hm]; decide)).trans (if_pos hn))

theorem inbound_transit (hn : p.ptype = n) (hf : forUs s p = false) : inbound n p s k = .next (transit s p) :=
  (inbound_up hup).trans ((if_neg (by rw [hm]; decide)).trans ((if_neg (not_not.mpr hn)).trans (if_pos (by rw [hf]; rfl))))

theorem inbound_forUs (hn : p.ptype = n) (hf : forUs s p = true) : inbound n p s k =
    if p.eseq = (e2eOf s (pktSrc p) p.vc).expect then
      .next (sendEack (k (updE2e s (pktSrc p) p.vc (fun e => { e with expect := (e2eOf s (pktSrc p) p.vc).expect + 1 }))) p)
    else if (p.eseq - (e2eOf s (pktSrc p) p.vc).expect).toNat < 2 ^ 31 then .next s
    else .next (sendEack (satAdd s 0x7000184 0 0 16 1) p) :=
  (inbound_up hup).trans ((if_neg (by rw [hm]; decide)).trans ((if_neg (not_not.mpr hn)).trans (if_neg (by rw [hf]; decide))))

/-- The packet that is expected is delivered and acknowledged. -/
theorem inbound_expected (hn : p.ptype = n) (hf : forUs s p = true) (he : p.eseq = (e2eOf s (pktSrc p) p.vc).expect) :
    inbound n p s k = .next (sendEack (k (updE2e s (pktSrc p) p.vc (fun e => { e with expect := e.expect + 1 }))) p) :=
  (inbound_forUs hup hm hn hf).trans (if_pos he)

theorem inbound_early (hn : p.ptype = n) (hf : forUs s p = true) (he : p.eseq ≠ (e2eOf s (pktSrc p) p.vc).expect)
    (hlt : (p.eseq - (e2eOf s (pktSrc p) p.vc).expect).toNat < 2 ^ 31) : inbound n p s k = .next s :=
  (inbound_forUs hup hm hn hf).trans ((if_neg he).trans (if_pos hlt))

theorem inbound_again (hn : p.ptype = n) (hf : forUs s p = true) (hge : 2 ^ 31 ≤ (p.eseq - (e2eOf s (pktSrc p) p.vc).expect).toNat) :
    inbound n p s k = .next (sendEack (satAdd s 0x7000184 0 0 16 1) p) := by
  have hne : p.eseq ≠ (e2eOf s (pktSrc p) p.vc).expect := fun h => by
    rw [h, BitVec.sub_self] at hge
    exact absurd hge (by decide)
  exact (inbound_forUs hup hm hn hf).trans ((if_neg hne).trans (if_neg (Nat.not_lt.mpr hge)))

theorem exec_eack (hn : p.ptype = 5) (hf : forUs s p = true) : exec (.eack p) s =
    .next (skvRetry (updE2e s (pktSrc p) (fld p.addr 32 2) (fun e => { e with
      held := e.held.filter (fun h => !(decide ((BitVec.ofNat 32 p.addr.toNat - h.pkt.eseq).toNat < 2 ^ 31))) }))) :=
  (if_neg (by rw [hup]; decide)).trans ((if_neg (by rw [hm]; decide)).trans ((if_neg (not_not.mpr hn)).trans (if_neg (by rw [hf]; decide))))

end Inbound

section Peers
variable {t : State} {p : SkvPacket} {o : Nat}

/-- Must a peer's request wait: for a bucket of its Saddle port, or behind one of its source? -/
def PeerWaits (t : State) (p : SkvPacket) (o n : Nat) (wr : Bool) : Prop := mustWait t (peerPath t o) (peerAddr p) n wr = true ∨
  ∃ m o' q, m < 2 ∧ SadWait.peer o' q ∈ (saddle t m).waits ∧ pktSrc q = pktSrc p

theorem takePeer_eq (t : State) (p : SkvPacket) (o : Nat) :
    (PeerWaits t p o (peerLen p) (p.ptype == 2) → takePeer t o p = updSaddle t (homeSaddle (peerAddr p)) (fun d => { d with waits := d.waits ++ [.peer o p] })) ∧
    (¬ PeerWaits t p o (peerLen p) (p.ptype == 2) → takePeer t o p = servePeer t o p) := by
  unfold takePeer
  extract_lets a behind
  have hb : behind = true ↔ ∃ m o' q, m < 2 ∧ SadWait.peer o' q ∈ (saddle t m).waits ∧ pktSrc q = pktSrc p := by
    unfold behind
    rw [List.any_eq_true]
    constructor
    · rintro ⟨m, hm, h⟩
      obtain ⟨w, hw, hq⟩ := List.any_eq_true.mp h
      cases w with
      | peer o' q => exact ⟨m, o', q, List.mem_range.mp hm, hw, beq_iff_eq.mp hq⟩
      | read r e => cases hq
      | write r bs b => cases hq
    · rintro ⟨m, o', q, hm, hw, hq⟩
      exact ⟨m, List.mem_range.mpr hm, List.any_eq_true.mpr ⟨_, hw, beq_iff_eq.mpr hq⟩⟩
  have hc : (behind || mustWait t (peerPath t o) a (peerLen p) (p.ptype == 2)) = true ↔ PeerWaits t p o (peerLen p) (p.ptype == 2) := by
    rw [Bool.or_eq_true, hb, or_comm]
    rfl
  exact ⟨fun h => if_pos (hc.mpr h), fun h => if_neg (fun h' => h (hc.mp h'))⟩

/-- The answer of a READ that has passed the Reservoir. -/
def readServed (p : SkvPacket) (v : State) : State :=
  skvSend v none (answerPeer p 3 false ((dpaRead v (peerAddr p) p.dlen).map (·.1)) (imgOf (dpaRead v (peerAddr p) p.dlen)).bad)

/-- A READ that an entry allows. -/
theorem takePeer_read (h1 : p.ptype = 1) : (¬ PeerWaits t p o p.dlen false → takePeer t o p =
      readServed p (saddlePass t (peerPath t o) (peerAddr p) p.dlen false).2) ∧
    (PeerWaits t p o p.dlen false → takePeer t o p = updSaddle t (homeSaddle (peerAddr p)) (fun d => { d with waits := d.waits ++ [.peer o p] })) := by
  have hlen : peerLen p = p.dlen := if_neg (by rw [h1]; decide)
  have hwr : (p.ptype == 2) = false := by rw [h1]; rfl
  obtain ⟨hw, hs⟩ := takePeer_eq t p o
  rw [hlen, hwr] at hw hs
  refine ⟨fun h => (hs h).trans ?_, hw⟩
  unfold servePeer
  rw [hlen, hwr]
  exact if_neg (by rw [h1]; decide)

/-- A WRITE that an entry allows. -/
theorem takePeer_write (h2 : p.ptype = 2) : (¬ PeerWaits t p o p.data.length true → takePeer t o p =
      skvSend (dpaWrite (saddlePass t (peerPath t o) (peerAddr p) p.data.length true).2 (peerAddr p) ({ bytes := p.data, bad := p.bad } : Img).pbytes)
        none (answerPeer p 4 false [] [])) ∧
    (PeerWaits t p o p.data.length true → takePeer t o p =
      updSaddle t (homeSaddle (peerAddr p)) (fun d => { d with waits := d.waits ++ [.peer o p] })) := by
  have hlen : peerLen p = p.data.length := if_pos h2
  have hwr : (p.ptype == 2) = true := by rw [h2]; rfl
  obtain ⟨hw, hs⟩ := takePeer_eq t p o
  rw [hlen, hwr] at hw hs
  refine ⟨fun h => (hs h).trans ?_, hw⟩
  unfold servePeer
  rw [hlen, hwr]
  exact if_pos h2

end Peers

/-! ### What each kind does when it is delivered -/

section Kinds
variable (p : SkvPacket)

theorem exec_read : ∃ k, (∀ s, exec (.read p) s = inbound 1 p s k) ∧ (∀ t o, winOwner t p 1 [(peerAddr p, p.dlen)] = some o → k t = takePeer t o p) ∧
    ∀ t, winOwner t p 1 [(peerAddr p, p.dlen)] = none → k t = skvSend (refusePeer t p) none
      (answerPeer p 3 true (List.replicate p.dlen 0) (List.range ((p.dlen + 31) / 32))) := by
  refine ⟨_, fun s => show execRead p s = _ by unfold execRead; exact rfl, fun t o ho => ?_, fun t ho => ?_⟩
  · rw [show winOwner t p permR [(peerAddr p, p.dlen)] = some o from ho]
  · rw [show winOwner t p permR [(peerAddr p, p.dlen)] = none from ho]

theorem exec_write : ∃ k, (∀ s, exec (.write p) s = inbound 2 p s k) ∧
    (∀ t o, winOwner t p 2 [(peerAddr p, p.data.length)] = some o → k t = takePeer t o p) ∧
    ∀ t, winOwner t p 2 [(peerAddr p, p.data.length)] = none → k t = skvSend (refusePeer t p) none (answerPeer p 4 true [] []) := by
  refine ⟨_, fun s => show execWrite p s = _ by unfold execWrite; exact rfl, fun t o ho => ?_, fun t ho => ?_⟩
  · rw [show winOwner t p permW [(peerAddr p, p.data.length)] = some o from ho]
  · rw [show winOwner t p permW [(peerAddr p, p.data.length)] = none from ho]

theorem exec_rdata : ∃ k, (∀ s, exec (.rdata p) s = inbound 3 p s k) ∧
    (∀ t q rest, takeReq t p false = some (q, rest) → k t = retryStarts (retryStores (
      if bit p.addr 32 then reqData (reqFault { t with skvReqs := rest } q) q (badZeros q.len)
      else reqData { t with skvReqs := rest } q (({ bytes := p.data, bad := p.bad } : Img).pbytes.take q.len)))) ∧
    ∀ t, takeReq t p false = none → k t = t := by
  refine ⟨_, fun s => show execRdata p s = _ by unfold execRdata; exact rfl, fun t q rest hq => ?_, fun t hq => ?_⟩
  · rw [hq]
  · rw [hq]

theorem exec_wack : ∃ k, (∀ s, exec (.wack p) s = inbound 4 p s k) ∧
    (∀ t q rest, takeReq t p true = some (q, rest) → k t = retryStores (
      if bit p.addr 32 then reqFault { t with skvReqs := rest } q else { t with skvReqs := rest })) ∧
    ∀ t, takeReq t p true = none → k t = t := by
  refine ⟨_, fun s => show execWack p s = _ by unfold execWack; exact rfl, fun t q rest hq => ?_, fun t hq => ?_⟩
  · rw [hq]
  · rw [hq]

theorem exec_contrib : ∃ k, (∀ s, exec (.contrib p) s = inbound 6 p s k) ∧
    (∀ t o, winOwner t p 6 [(peerAddr p, p.data.length), (p.goff.toNat, 64)] = some o →
      let c : Contribution := { contribOf p o with src := headworkDie (p.port.val / 4) }
      k t = sendVc2 t (homeSaddle c.tile) c) ∧
    ∀ t, winOwner t p 6 [(peerAddr p, p.data.length), (p.goff.toNat, 64)] = none → k t = refusePeer t p := by
  refine ⟨_, fun s => show execContrib p s = _ by unfold execContrib; exact rfl, fun t o ho => ?_, fun t ho => ?_⟩
  · rw [show winOwner t p (permW + permA) [(peerAddr p, p.data.length), (p.goff.toNat, 64)] = some o from ho]
  · rw [show winOwner t p (permW + permA) [(peerAddr p, p.data.length), (p.goff.toNat, 64)] = none from ho]

theorem exec_budget : ∃ k, (∀ s, exec (.budget p) s = inbound 7 p s k) ∧
    ∀ t, k t = if grantOk t p (grantOf p) then { t with fb := { t.fb with grant := some (grantOf p) } } else satAdd t 0x7000188 0 0 8 1 :=
  ⟨_, fun s => show execBudget p s = _ by unfold execBudget; exact rfl, fun _ => rfl⟩

theorem exec_mgmt : ∃ k, (∀ s, exec (.mgmt p) s = inbound 9 p s k) ∧ ∀ t, k t = { t with mgmtIn := t.mgmtIn ++ [(pktSrc p, p.data)] } :=
  ⟨_, fun s => show execMgmt p s = _ by unfold execMgmt; exact rfl, fun _ => rfl⟩

end Kinds

/-- The kinds of packet that are delivered in sequence: their channel, and what their row does. -/
theorem deliveredKinds : ∀ e ∈ ([(1, 0, .read), (2, 0, .write), (3, 1, .rdata), (4, 1, .wack), (6, 2, .contrib), (7, 3, .budget), (9, 3, .mgmt)] :
      List (Nat × Nat × (SkvPacket → Instr))), skvChannel e.1 = e.2.1 ∧ ∀ p, ∃ k : State → State, ∀ s, exec (e.2.2 p) s = inbound e.1 p s k := by
  intro e he
  simp only [List.mem_cons, List.not_mem_nil, or_false] at he
  rcases he with rfl | rfl | rfl | rfl | rfl | rfl | rfl
  · exact ⟨rfl, fun p => (exec_read p).imp fun _ h => h.1⟩
  · exact ⟨rfl, fun p => (exec_write p).imp fun _ h => h.1⟩
  · exact ⟨rfl, fun p => (exec_rdata p).imp fun _ h => h.1⟩
  · exact ⟨rfl, fun p => (exec_wack p).imp fun _ h => h.1⟩
  · exact ⟨rfl, fun p => (exec_contrib p).imp fun _ h => h.1⟩
  · exact ⟨rfl, fun p => (exec_budget p).imp fun _ h => h.1⟩
  · exact ⟨rfl, fun p => (exec_mgmt p).imp fun _ h => h.1⟩

theorem vc_of_wellFormed {p : SkvPacket} (h : skvMalformed p = false) : p.vc = skvChannel p.ptype := by
  unfold skvMalformed at h
  by_contra hn
  simp [hn] at h

/-- Settles O58. -/
theorem packetDelivery : Obligations.PacketDelivery := by
  refine ⟨fun e he p s => ?_, fun p s hup hm hf => ?_⟩
  · intro x hup
    obtain ⟨hch, hk⟩ := deliveredKinds e he
    obtain ⟨k, hk⟩ := hk p
    rw [hk s]
    refine ⟨fun hm => inbound_malformed hup hm, fun hm hn => inbound_otherKind hup hm hn, fun hm hn => ⟨?_, fun hf => inbound_transit hup hm hn hf,
      fun hf => ⟨fun h1 h2 => inbound_early hup hm hn hf h1 h2, fun h => inbound_again hup hm hn hf h⟩⟩⟩
    rw [vc_of_wellFormed hm, hn, hch]
  · intro t acked a waits
    refine ⟨fun heq => ?_, fun h5 => exec_eack hup hm h5 hf⟩
    have hin : ∀ (c : Instr) (n : Nat) (k : State → State) (u : State), p.ptype = n → (∀ s, exec c s = inbound n p s k) → k t = u → acked c u :=
      fun c n k u hn hc hk => (hc s).trans ((inbound_expected hup hm hn hf heq).trans (congrArg (fun v => Host.Outcome.next (sendEack v p)) hk))
    obtain ⟨kr, hr, hrTake, hrNone⟩ := exec_read p
    obtain ⟨kw, hw, hwTake, hwNone⟩ := exec_write p
    obtain ⟨kd, hd, hdTake, hdNone⟩ := exec_rdata p
    obtain ⟨ka, ha, haTake, haNone⟩ := exec_wack p
    obtain ⟨kc, hc, hcTake, hcNone⟩ := exec_contrib p
    obtain ⟨kb, hb, hbTake⟩ := exec_budget p
    obtain ⟨km, hmg, hmTake⟩ := exec_mgmt p
    refine ⟨fun h1 => ⟨fun o ho => ?_, fun ho => hin _ _ _ _ h1 hr (hrNone t ho)⟩, fun h2 => ⟨fun o ho => ?_, fun ho => hin _ _ _ _ h2 hw (hwNone t ho)⟩,
      fun h3 => ⟨fun q rest hq => ?_, fun hq => hin _ _ _ _ h3 hd (hdNone t hq)⟩, fun h4 => ⟨fun q rest hq => ?_, fun hq => hin _ _ _ _ h4 ha (haNone t hq)⟩,
      fun h6 => ⟨fun o ho => hin _ _ _ _ h6 hc (hcTake t o ho), fun ho => hin _ _ _ _ h6 hc (hcNone t ho)⟩,
      fun h7 => ⟨fun hg => hin _ _ _ _ h7 hb ((hbTake t).trans (if_pos hg)), fun hg => hin _ _ _ _ h7 hb ((hbTake t).trans (if_neg (by rw [hg]; decide)))⟩,
      fun h9 => hin _ _ _ _ h9 hmg (hmTake t)⟩
    · obtain ⟨hserve, hwait⟩ := takePeer_read (t := t) (o := o) h1
      exact ⟨fun h => hin _ _ _ _ h1 hr ((hrTake t o ho).trans (hserve h)), fun h => hin _ _ _ _ h1 hr ((hrTake t o ho).trans (hwait h))⟩
    · obtain ⟨hserve, hwait⟩ := takePeer_write (t := t) (o := o) h2
      exact ⟨fun h => hin _ _ _ _ h2 hw ((hwTake t o ho).trans (hserve h)), fun h => hin _ _ _ _ h2 hw ((hwTake t o ho).trans (hwait h))⟩
    · intro v
      exact ⟨fun hbit => hin _ _ _ _ h3 hd ((hdTake t q rest hq).trans (by rw [if_neg (by rw [hbit]; decide)])),
        fun hbit => hin _ _ _ _ h3 hd ((hdTake t q rest hq).trans (by rw [if_pos hbit]))⟩
    · intro v
      exact ⟨fun hbit => hin _ _ _ _ h4 ha ((haTake t q rest hq).trans (by rw [if_neg (by rw [hbit]; decide)])),
        fun hbit => hin _ _ _ _ h4 ha ((haTake t q rest hq).trans (by rw [if_pos hbit]))⟩

end Sys2Proof.Machine
end

section
/-! PROOFS. Skovuk sources, expanders and the test access port (R441 to R443, R449, R535 to R542). -/

namespace Sys2Proof.Machine

open Sys2Proof

/-! ## Sources -/

section Sources
variable {s : State}

theorem skvDest_id (mgr : Bool) (d : BitVec 14) : skvDest mgr d.toNat = mgr.toNat * 2 ^ 14 + d.toNat := by
  unfold skvDest
  rw [Nat.mod_eq_of_lt d.isLt]

/-- A state without what it holds for a destination. -/
def abandoned (s : State) (k : Nat) : State := { s with
  e2e := s.e2e.map (fun e => if e.1 / 4 = k then (e.1, { e.2 with held := [] }) else e)
  skvWait := s.skvWait.filter (fun w => pktDest w.2 ≠ k)
  skv := s.skv.map (fun e => (e.1, { e.2 with waitQ := e.2.waitQ.filter (fun p => !(pktDest p == k && pktSrc p == skvId s)) }))
  skvReqs := s.skvReqs.filter (fun q => q.dest ≠ k) }

/-- The streams end to end once a destination is abandoned. -/
theorem mget_abandoned (m : Map E2e) (k n : Nat) : mget (m.map (fun e => if e.1 / 4 = k then (e.1, { e.2 with held := [] }) else e)) n {} =
    if n / 4 = k then { mget m n {} with held := [] } else mget m n {} := by
  unfold mget
  induction m with
  | nil => by_cases h : n / 4 = k <;> simp [mget?, h]
  | cons e m ih =>
    obtain ⟨a, x⟩ := e
    have hkey : (if a / 4 = k then (a, { x with held := [] }) else (a, x)).1 = a := by split <;> rfl
    rw [List.map_cons]
    unfold mget?
    dsimp only
    rw [hkey]
    by_cases ha : a = n
    · subst ha
      rw [if_pos rfl, if_pos rfl]
      by_cases h : a / 4 = k
      · rw [if_pos h, if_pos h]
        rfl
      · rw [if_neg h, if_neg h]
    · rw [if_neg ha, if_neg ha]
      exact ih

theorem e2eOf_abandoned {k c : Nat} (hc : c < 4) (j : Nat) :
    e2eOf (abandoned s k) j c = if j = k then { e2eOf s j c with held := [] } else e2eOf s j c := by
  have hdiv : (j * 4 + c) / 4 = j := by omega
  show mget _ _ _ = _
  unfold abandoned
  dsimp only
  rw [mget_abandoned, hdiv]
  rfl

/-- The destination holds nothing: it is not silent. -/
theorem exec_skvDestUnreachable (mgr : Bool) (d : BitVec 14) : exec (.skvDestUnreachable mgr d) s =
    let k := mgr.toNat * 2 ^ 14 + d.toNat
    let given := (s.e2e.filter (fun e => e.1 / 4 = k)).flatMap (fun e => e.2.held.map (fun h => (h.origin, h.pkt))) ++ s.skvWait.filter (fun w => pktDest w.2 = k)
    let faults := (s.skvReqs.filter (fun q => q.dest = k)).foldl (fun s q => let f := reqFault s q; if q.wr then f else reqData f q (badZeros q.len)) (abandoned s k)
    if (List.range 4).all (fun c => (e2eOf s k c).held.isEmpty) then .next s
    else .next (retryStarts (retryStores (skvRetry
      (rasAppend (given.foldl (fun s w => contribLost s w.1 w.2) faults) 0x16 1 4 (skvHd s k) none d.toNat)))) := by
  rw [← skvDest_id]
  rfl

theorem allHeld_iff (k : Nat) : (List.range 4).all (fun c => (e2eOf s k c).held.isEmpty) = true ↔ ∀ c, c < 4 → (e2eOf s k c).held = [] := by
  simp [List.all_eq_true]

theorem slackBytes_length (s : State) : (slackBytes s).length = 16 := by
  unfold slackBytes
  simp only [List.length_append, length_leBytes]

end Sources

/-- Settles O59. -/
theorem skovukSources : Obligations.SkovukSources := by
  refine ⟨fun mgr d c s => ?_, fun mgr d s => ?_, fun s q => rfl, fun p s hup hm hf => ?_, fun s hw hid => ⟨if_neg (by rw [hw, hid]; decide), slackBytes_length s⟩,
    fun s g hg => ?_⟩
  · rw [← skvDest_id]
    rfl
  · intro k
    refine ⟨fun h => (exec_skvDestUnreachable mgr d).trans (if_pos ((allHeld_iff k).mpr h)), fun ⟨c, hc, hne⟩ => ⟨abandoned s k, ?_⟩⟩
    intro given faults
    refine ⟨(exec_skvDestUnreachable mgr d).trans (if_neg (fun h => hne ((allHeld_iff k).mp h c hc))), fun c hc => ?_, fun j c hj hc => ?_, fun w => ?_,
      fun q => ?_, rfl, rfl⟩
    · rw [e2eOf_abandoned hc, if_pos rfl]
      exact ⟨rfl, rfl⟩
    · rw [e2eOf_abandoned hc, if_neg hj]
    · exact List.mem_filter.trans (and_congr_right fun _ => decide_eq_true_iff)
    · exact List.mem_filter.trans (and_congr_right fun _ => decide_eq_true_iff)
  · have he : exec (.skvTransit p) s = .next (transit s p) :=
      (if_neg (by rw [hup]; decide)).trans ((if_neg (by rw [hm]; decide)).trans (if_neg (by rw [hf]; decide)))
    exact ⟨fun h => he.trans (congrArg _ (if_neg (by omega))), fun h => he.trans (congrArg _ (if_pos (by omega)))⟩
  · show execBudgetLifeExpire s = _
    unfold execBudgetLifeExpire
    rw [hg]

/-! ## Expanders -/

section Expanders
variable {s : State} {p : Fin 8} {d : Expander}

theorem setFarState_frame (s : State) (p st : Nat) : (setFarState s p st).far = s.far ∧ (setFarState s p st).farDevs = s.farDevs ∧
    (setFarState s p st).xperst = s.xperst := by
  unfold setFarState
  split
  · exact ⟨rfl, rfl, rfl⟩
  · have h := intCause_logOnly (s := { s with farPorts := mset s.farPorts p { farPort s p with state := st } }) 8
    unfold LogOnly at h
    rw [h]
    exact ⟨rfl, rfl, rfl⟩

theorem failFar_xperst (s : State) (p : Nat) (b : Bool) : (failFar s p b).xperst = s.xperst := by
  unfold failFar
  split
  · rfl
  · extract_lets fell failed
    have h : LogOnly (setFarState s p 4) failed := rasAppend_logOnly _ _ _ _ _ _
    unfold LogOnly at h
    have hx : failed.xperst = s.xperst := by
      rw [h]
      exact (setFarState_frame s p 4).2.2
    split
    · exact hx
    · exact hx

/-- In Ready and Draining the clock of a far port runs while its Headwork is alive (R535). -/
theorem farClock_serving (hs : serving s = true) (n : Nat) : farClock s n = hdAlive s (n / 4) := by
  unfold farClock hdPowered
  cases hm : s.mode with
  | ready => rfl
  | draining => rfl
  | _ => simp [serving, hm] at hs

theorem noteFigures_far (b s : State) (c : Nat) : ∃ r, noteFigures b s c = { s with rsvDue := r } := by
  unfold noteFigures
  split
  · exact ⟨_, rfl⟩
  · exact ⟨s.rsvDue, rfl⟩

/-- The slot with a new expander: what it holds reads as memory that nothing has written. -/
def expanderIn (s : State) (p : Nat) (d : Expander) : State :=
  { s with farDevs := mset s.farDevs p d, far := s.far.scrub (farBase + p * 0x20000000000) (farBase + p * 0x20000000000 + 0x20000000000) }

/-- The state that a port with a new expander takes: resilvered first when it is mirrored and its partner serves. -/
def foundState (s : State) (p : Nat) (d : Expander) : Nat :=
  let partner := (farPort s ((p + 4) % 8)).state
  if (farFound d).state ≠ 0 && (bit (mget s.mir (p % 4) 0) 31 && (partner = 2 || partner = 3)) then 5 else (farFound d).state

/-- A new expander is enumerated. -/
theorem exec_xprsntInsert (hs : serving s = true) (hal : hdAlive s (p.val / 4) = true) : ∃ u, exec (.xprsntInsert p d) s = .next u ∧
    u.far = (expanderIn s p.val d).far ∧ u.farDevs = (expanderIn s p.val d).farDevs ∧ u.xperst = setDel s.xperst p.val ∧
    (∀ q, q ≠ p.val → farPort u q = farPort s q) ∧ farPort u p.val = { farFound d with state := foundState s p.val d } := by
  let here : State := { expanderIn s p.val d with xperst := setDel s.xperst p.val }
  let put : State := { here with farPorts := mset s.farPorts p.val { farFound d with state := (farPort s p.val).state } }
  obtain ⟨r, hr⟩ := noteFigures_far here (setFarState put p.val (foundState s p.val d)) 1
  obtain ⟨h1, h2, -⟩ := setFarState_effect put p.val (foundState s p.val d)
  obtain ⟨f1, f2, f3⟩ := setFarState_frame put p.val (foundState s p.val d)
  have hport : ∀ q, farPort put q = if q = p.val then { farFound d with state := (farPort s p.val).state } else farPort s q := fun q => farPort_mset here p.val q _
  refine ⟨noteFigures here (setFarState put p.val (foundState s p.val d)) 1, ?_, ?_, ?_, ?_, fun q hq => ?_, ?_⟩
  · have hclock : farClock (expanderIn s p.val d) p.val = true := (farClock_serving hs _).trans hal
    have hno : ¬ (!(serving (expanderIn s p.val d)) || !(farClock (expanderIn s p.val d) p.val)) = true := by
      rw [hclock, show serving (expanderIn s p.val d) = true from hs]
      decide
    exact if_neg hno
  · rw [hr]; exact f1
  · rw [hr]; exact f2
  · rw [hr]; exact f3
  · rw [hr]
    exact (h2 q hq).trans ((hport q).trans (if_neg hq))
  · rw [hr]
    refine h1.trans ?_
    rw [hport, if_pos rfl]

end Expanders

/-! ## The test access port -/

section Taps
variable {s : State} {hd : Nat}

theorem tapSelect_taken (hoff : s.mode ≠ .off) {ir : Nat} (h : ir < 3 ∨ s.mode = .maintenance) (f : Tap → Tap) :
    tapSelect s hd ir f = { s with taps := mset s.taps hd { f (tapOf s hd) with ir := ir } } := by
  refine (if_neg hoff).trans (if_neg ?_)
  rw [Bool.and_eq_true, decide_eq_true_eq, decide_eq_true_eq]
  rintro ⟨h3, hm⟩
  rcases h with h | h
  · omega
  · exact hm h

theorem tapSelect_bypass (hoff : s.mode ≠ .off) {ir : Nat} (h : 3 ≤ ir) (hm : s.mode ≠ .maintenance) (f : Tap → Tap) :
    tapSelect s hd ir f = { s with taps := mset s.taps hd { tapOf s hd with ir := 1 } } :=
  (if_neg hoff).trans (if_pos (by rw [decide_eq_true h, decide_eq_true hm]; rfl))

end Taps

/-- Settles O60. -/
theorem expandersAndTestPort : Obligations.ExpandersAndTestPort := by
  refine ⟨fun p s => ?_, fun p d s => ?_, fun hd v s hoff => ?_⟩
  · intro out
    refine ⟨fun hs hal => ?_, fun h => if_pos ?_⟩
    · have hno : ¬ (!(serving out) || !(hdAlive out (p.val / 4))) = true := by
        rw [show serving out = true from hs, show hdAlive out (p.val / 4) = true from hal]
        decide
      refine (if_neg hno).trans ?_
      rw [show (failFar out p.val false).xperst = s.xperst from failFar_xperst out p.val false]
    · rcases h with h | h
      · rw [show serving out = false from h]
        rfl
      · rw [show hdAlive out (p.val / 4) = false from h]
        simp
  · intro base here takes partner
    refine ⟨fun hs => if_pos ?_, fun hs hal => ?_⟩
    · rw [show serving here = false from hs]
      rfl
    · obtain ⟨u, he, h1, h2, h3, h4, h5⟩ := exec_xprsntInsert (d := d) hs hal
      have htakes : farTakes d = true ↔ takes := by
        simp [farTakes, takes, and_assoc]
        intros
        omega
      refine ⟨u, he, h1, h2, h3, h4, fun ht => ?_, fun ht => ?_⟩
      · have hfound : farFound d = { state := if d.width = 16 ∧ d.rate = 0 then 2 else 3, switch := decide (d.levels = 1), width := d.width, rate := d.rate
                                     cap := d.cap } := by
          unfold farFound
          rw [if_pos (htakes.mpr ht)]
          simp
          exact Bool.beq_eq_decide_eq _ _
        rw [h5]
        unfold foundState
        rw [hfound]
        dsimp only
        congr 1
        refine if_congr ?_ rfl rfl
        have hne : (if d.width = 16 ∧ d.rate = 0 then 2 else 3) ≠ 0 := by split <;> decide
        simp [hne, partner]
      · have hfound : farFound d = {} := if_neg (fun h => ht (htakes.mp h))
        rw [h5]
        unfold foundState
        rw [hfound]
        rfl
  · intro sets t
    refine ⟨?_, congrArg _ (tapSelect_taken hoff (.inl (by decide)) _), congrArg _ (tapSelect_taken hoff (.inl (by decide)) _),
      fun hm => ⟨congrArg _ (tapSelect_taken hoff (.inr hm) _), congrArg _ (tapSelect_taken hoff (.inr hm) _)⟩,
      fun hm => ⟨congrArg _ (tapSelect_bypass hoff (by decide) hm _), congrArg _ (tapSelect_bypass hoff (by decide) hm _)⟩, rfl⟩
    refine (if_neg hoff).trans ?_
    rw [tapSelect_taken hoff (.inl (by decide))]
    rfl

end Sys2Proof.Machine
end
